-- ==== Sys2Proof/Word.lean ====
section
/-! DEFINITION. Word.lean: the word types of the machine. -/

namespace Sys2Proof

/-- A byte of any memory (R4). -/
abbrev Byte := BitVec 8

/-- A 32-bit scalar, a literal word or a word of the instruction store. -/
abbrev Word := BitVec 32

/-- A 64-byte row: a tile row, a scale register or a memory window; byte k is bits [8k+7:8k] (R4, R39). -/
abbrev Row512 := BitVec 512

/-- A predicate, or a byte mask of a row: bit k stands for byte k (R125). -/
abbrev Mask := BitVec 64

end Sys2Proof
end

