-- ==== Sys2Proof/Config.lean ====
section
/-! DEFINITION. Config.lean: what the spec leaves to one implementation or to chance, as free values: constants without a body,
so that no proof can rest on a value of one. Each is applied to the operands it depends on, or to the counter
`State.freeCount`, which a step reads and advances. -/

namespace Sys2Proof.Config

/-- Cycles from step 1 of R63 to the first bundle of a stream program; free below the bound of 1,200. -/
opaque startDelay : Nat → Nat

/-- Cycles that a save takes (R408: not fixed); free. -/
opaque saveCycles : Nat → Nat

/-- Cycles that a restore takes beyond the 94 of its first device read (R408: not fixed); free. -/
opaque restoreCycles : Nat → Nat

/-- Which of the unused context numbers `cxmk` gives a child (R68 fixes none); free. -/
opaque contextNumber : Nat → Nat

/-- A word of a mailbox box that the context's translation refuses, or whose line has an uncorrectable error, when a stream program starts
(R63 gives none); free. -/
opaque mailboxWord : Nat → BitVec 32

/-- Cycles that `cxq` takes beyond the 94 of its first read of the image (R422: not fixed); free. -/
opaque configCycles : Nat → Nat

/-- The status of a `cxsave`, `cxload` or `cxq` whose context has ended before it completed (R420, R422 give none); free. -/
opaque lostStatus : Nat → BitVec 32

/-- Cycles between the arrival of a mailbox request and the earliest slot it may take (R331 gives none); free. -/
opaque mailboxCycles : Nat → Nat

/-- Cycles that building and signing an attestation report takes (R438 gives none); free. -/
opaque reportCycles : Nat → Nat

/-- Cycles that copying a retired pseudo-channel's lines takes (R442 gives none); free. -/
opaque retireCopyCycles : Nat → Nat

/-- The code of a management event of a kind (R443 gives no codes); free. -/
opaque eventCode : Nat → Nat

/-- How many of the 8 bytes of a management event the code takes, less one (R443 gives no widths); free below 7. -/
opaque eventCodeWidth : Nat

/-- The signature of a configuration image that is given as its body alone (R436, R437); free. -/
opaque imageSignature : List (BitVec 8)

/-- The identity public key that the on-die PUF gives at the n-th reset (R438); free. -/
opaque identityKey : Nat → List (BitVec 8)

/-- SHA-256 of the running firmware image (R438), which is outside the spec; free. -/
opaque firmwareHash : List (BitVec 8)

/-- The SLH-DSA-SHA2-192s signature (R437) of a byte string under the identity key of the n-th reset; free. -/
opaque signature : Nat → List (BitVec 8) → List (BitVec 8)

/-- Cycles before the first slot of a stretch that is accessed without a schedule of the spec's (R248: a save, a restore, an image, a
profile); free below 256. -/
opaque openDelay : Nat → Nat

/-- The calendar slots (pseudo-channel, first cycle) that the copy of a retired channel holds (R442: untimed slots); free, and used where they
are free slots. -/
opaque openSlots : Nat → List (Nat × Nat)

end Sys2Proof.Config
end

