-- ==== Sys2Proof/Machine/Formats.lean ====
section
/-! DEFINITION. Formats.lean: the number formats of R31 to R45 as exact values, rounding, the conversions of R46 to R50, and the
scalar floating-point operations of R182 to R185 and R219 to R224 that are built from them. A value stands as a sign, a whole
number and a power of two; results and flags follow as comparisons of the exact and the rounded value. -/

namespace Sys2Proof.Machine

/-- An exact value: NaN, an infinity, or (−1)^neg × m × 2^e. -/
inductive Val where
  | nan
  | inf (neg : Bool)
  | fin (neg : Bool) (m : Nat) (e : Int)
deriving DecidableEq, Repr

/-- The floating-point formats of R31. -/
inductive FloatFmt where
  | fp32 | bf16 | fp16 | e4m3 | e5m2 | e3m2 | e2m3 | e2m1
deriving DecidableEq, Repr

/-- Bits of the exponent field (R31). -/
def FloatFmt.eBits : FloatFmt → Nat
  | .fp32 => 8 | .bf16 => 8 | .fp16 => 5 | .e4m3 => 4 | .e5m2 => 5 | .e3m2 => 3 | .e2m3 => 2 | .e2m1 => 2

/-- Bits of the fraction field (R31). -/
def FloatFmt.mBits : FloatFmt → Nat
  | .fp32 => 23 | .bf16 => 7 | .fp16 => 10 | .e4m3 => 3 | .e5m2 => 2 | .e3m2 => 2 | .e2m3 => 3 | .e2m1 => 1

/-- The exponent bias (R31). -/
def FloatFmt.bias : FloatFmt → Nat
  | .fp32 => 127 | .bf16 => 127 | .fp16 => 15 | .e4m3 => 7 | .e5m2 => 15 | .e3m2 => 3 | .e2m3 => 1 | .e2m1 => 1

/-- All bits of the format. -/
def FloatFmt.width (f : FloatFmt) : Nat := 1 + f.eBits + f.mBits

/-- Whether the format has infinities (R31). -/
def FloatFmt.hasInf : FloatFmt → Bool
  | .fp32 | .bf16 | .fp16 | .e5m2 => true
  | .e4m3 | .e3m2 | .e2m3 | .e2m1 => false

/-- The magnitude bits of the largest finite value (R31, R32). -/
def FloatFmt.maxBits : FloatFmt → Nat
  | .fp32 => 0x7F7FFFFF | .bf16 => 0x7F7F | .fp16 => 0x7BFF | .e4m3 => 0x7E | .e5m2 => 0x7B | .e3m2 => 0x1F
  | .e2m3 => 0x1F | .e2m1 => 0x7

/-- The canonical NaN (R33); 0 for a format without one. -/
def FloatFmt.nanBits : FloatFmt → Nat
  | .fp32 => 0x7FC00000 | .bf16 => 0x7FC0 | .fp16 => 0x7E00 | .e4m3 => 0x7F | .e5m2 => 0x7E
  | .e3m2 | .e2m3 | .e2m1 => 0

/-- The formats whose subnormals exposed mode flushes (R49). -/
def FloatFmt.flushes : FloatFmt → Bool
  | .fp32 | .bf16 | .fp16 => true
  | .e4m3 | .e5m2 | .e3m2 | .e2m3 | .e2m1 => false

/-- The magnitude bits of infinity, in a format that has it. -/
def FloatFmt.infBits (f : FloatFmt) : Nat := (2 ^ f.eBits - 1) * 2 ^ f.mBits

/-- The sign bit, set or clear. -/
def FloatFmt.signed (f : FloatFmt) (neg : Bool) (mag : Nat) : Nat := if neg then 2 ^ (f.width - 1) + mag else mag

/-- The exponent of the least bit of a subnormal: 1 − bias − fraction bits. -/
def FloatFmt.qMin (f : FloatFmt) : Int := 1 - (f.bias : Int) - f.mBits

/-- The flags of R129 as a 5-bit number: NV, DZ, OF, UF, NX. -/
abbrev Flags := Nat

def flNV : Flags := 16
def flDZ : Flags := 8
def flOF : Flags := 4
def flUF : Flags := 2
def flNX : Flags := 1

/-- The value of the format's pattern `bits` (R31, R32). -/
def decodeFloat (f : FloatFmt) (bits : Nat) : Val :=
  let neg := bits.testBit (f.width - 1)
  let mag := bits % 2 ^ (f.width - 1)
  let e := mag / 2 ^ f.mBits
  let m := mag % 2 ^ f.mBits
  if f.hasInf && e == 2 ^ f.eBits - 1 then (if m = 0 then .inf neg else .nan)
  else if f == .e4m3 && mag == 0x7F then .nan
  else if e = 0 then .fin neg m f.qMin
  else .fin neg (2 ^ f.mBits + m) (f.qMin + (e - 1 : Nat))

/-- The reading rule of R49: in exposed mode a subnormal FP32, BF16 or FP16 input is a zero of its sign. -/
def readFloat (flush : Bool) (f : FloatFmt) (bits : Nat) : Val :=
  match decodeFloat f bits with
  | .fin neg m e => if flush && f.flushes && decide (m < 2 ^ f.mBits) then .fin neg 0 e else .fin neg m e
  | v => v

/-- A rounding mode of R45. -/
inductive Round where
  | rne | rtz | rdn | rup
deriving DecidableEq, Repr

/-- `sw.RM` as a mode (R45). -/
def Round.ofBits : Nat → Round
  | 0 => .rne | 1 => .rtz | 2 => .rdn | _ => .rup

/-- m / 2^sh rounded to a whole number, and whether that changed it (R45). -/
def roundShift (rm : Round) (neg : Bool) (m sh : Nat) : Nat × Bool :=
  let q := m / 2 ^ sh
  let r := m % 2 ^ sh
  if r = 0 then (q, false)
  else
    let up := match rm with
      | .rne => decide (2 ^ sh < 2 * r) || (decide (2 * r = 2 ^ sh) && q % 2 == 1)
      | .rtz => false
      | .rdn => neg
      | .rup => !neg
    (if up then q + 1 else q, true)

/-- m × 2^e rounded to a multiple of 2^q: the multiple, and whether that changed the value. -/
def roundTo (rm : Round) (neg : Bool) (m : Nat) (e q : Int) : Nat × Bool :=
  if q ≤ e then (m * 2 ^ (e - q).toNat, false) else roundShift rm neg m (q - e).toNat

/-- Whether m1 × 2^e1 < m2 × 2^e2. -/
def ltMag (m1 : Nat) (e1 : Int) (m2 : Nat) (e2 : Int) : Bool :=
  if e1 ≤ e2 then decide (m1 < m2 * 2 ^ (e2 - e1).toNat) else decide (m1 * 2 ^ (e1 - e2).toNat < m2)

/-- The significand and exponent of the largest finite value. -/
def FloatFmt.maxMag (f : FloatFmt) : Nat × Int :=
  match decodeFloat f f.maxBits with
  | .fin _ m e => (m, e)
  | _ => (0, 0)

/-- What an overflow gives in the non-saturating variant (R47), as a pattern. -/
def overflowBits (f : FloatFmt) (rm : Round) (neg : Bool) : Nat :=
  match rm, neg with
  | .rne, _ => f.signed neg f.infBits
  | .rtz, _ => f.signed neg f.maxBits
  | .rdn, false => f.signed false f.maxBits
  | .rdn, true => f.signed true f.infBits
  | .rup, false => f.signed false f.infBits
  | .rup, true => f.signed true f.maxBits

/-- `convert_float` of R46: the pattern and the flags. -/
def convertFloat (f : FloatFmt) (rm : Round) (sat : Bool) : Val → Nat × Flags
  | .nan => match f with
    | .e3m2 | .e2m3 | .e2m1 => (0, flNV)
    | _ => (f.nanBits, 0)
  | .inf neg =>
    if f.hasInf && !sat then (f.signed neg f.infBits, 0)
    else if f == .e4m3 && !sat then (f.nanBits, flNV)
    else (f.signed neg f.maxBits, if f.hasInf then 0 else flNV)
  | .fin neg 0 _ => (f.signed neg 0, 0)
  | .fin neg m e =>
    let top : Int := (Nat.log2 m : Int) + e
    let qu := top - f.mBits
    let (ru, _) := roundTo rm neg m e qu
    let (mm, me) := f.maxMag
    if ltMag mm me ru qu then
      (if sat then f.signed neg f.maxBits
       else match f with
        | .e3m2 | .e2m3 | .e2m1 => f.signed neg f.maxBits
        | .e4m3 => f.nanBits
        | _ => overflowBits f rm neg, flOF + flNX)
    else
      let q := max qu f.qMin
      let (r, inexact) := roundTo rm neg m e q
      let small := top < 1 - (f.bias : Int)
      (f.signed neg ((q - f.qMin).toNat * 2 ^ f.mBits + r),
        (if inexact then flNX else 0) + (if inexact && decide small then flUF else 0))

/-- The writing rule of R49: in exposed mode a nonzero result below the minimum normal is written as zero of its sign, with UF
and NX. -/
def flushResult (flush : Bool) (f : FloatFmt) : Nat × Flags → Nat × Flags
  | (bits, fl) =>
    let mag := bits % 2 ^ (f.width - 1)
    if flush && f.flushes && mag != 0 && decide (mag < 2 ^ f.mBits) then
      (bits - mag, fl ||| flUF ||| flNX)
    else (bits, fl)

/-- A floating-point result: R46 without saturation, then R49. -/
def writeFloat (flush : Bool) (f : FloatFmt) (rm : Round) (v : Val) : Nat × Flags :=
  flushResult flush f (convertFloat f rm false v)

/-! ### Arithmetic on exact values (R183, R219) -/

/-- The sign that an exact zero sum takes: −0 under RDN, unless both addends are zeros of one sign (R183). -/
def zeroSign (rm : Round) : Bool := rm == .rdn

/-- The exact sum, and NV for ∞ − ∞ (R183). -/
def addVal (rm : Round) : Val → Val → Val × Flags
  | .nan, _ => (.nan, 0)
  | _, .nan => (.nan, 0)
  | .inf s, .inf t => if s = t then (.inf s, 0) else (.nan, flNV)
  | .inf s, .fin _ _ _ => (.inf s, 0)
  | .fin _ _ _, .inf t => (.inf t, 0)
  | .fin s m e, .fin t n g =>
    let q := min e g
    let x : Int := (if s then -1 else 1) * ((m * 2 ^ (e - q).toNat : Nat) : Int)
    let y : Int := (if t then -1 else 1) * ((n * 2 ^ (g - q).toNat : Nat) : Int)
    let z := x + y
    if z = 0 then (.fin (if m = 0 && n = 0 && s = t then s else zeroSign rm) 0 0, 0)
    else (.fin (decide (z < 0)) z.natAbs q, 0)

/-- −v. -/
def negVal : Val → Val
  | .nan => .nan
  | .inf s => .inf (!s)
  | .fin s m e => .fin (!s) m e

/-- The exact product, and NV for 0 × ∞ (R183). -/
def mulVal : Val → Val → Val × Flags
  | .nan, _ => (.nan, 0)
  | _, .nan => (.nan, 0)
  | .inf s, .inf t => (.inf (s != t), 0)
  | .inf s, .fin t m _ => if m = 0 then (.nan, flNV) else (.inf (s != t), 0)
  | .fin s m _, .inf t => if m = 0 then (.nan, flNV) else (.inf (s != t), 0)
  | .fin s m e, .fin t n g => (.fin (s != t) (m * n) (e + g), 0)

/-- round(a + b) in format f (R183, R219). -/
def fAdd (f : FloatFmt) (rm : Round) (flush : Bool) (a b : Nat) : Nat × Flags :=
  let (v, fl) := addVal rm (readFloat flush f a) (readFloat flush f b)
  let (r, fl') := writeFloat flush f rm v
  (r, fl ||| fl')

/-- round(a − b) in format f. -/
def fSub (f : FloatFmt) (rm : Round) (flush : Bool) (a b : Nat) : Nat × Flags :=
  let (v, fl) := addVal rm (readFloat flush f a) (negVal (readFloat flush f b))
  let (r, fl') := writeFloat flush f rm v
  (r, fl ||| fl')

/-- round(a × b) in format f. -/
def fMul (f : FloatFmt) (rm : Round) (flush : Bool) (a b : Nat) : Nat × Flags :=
  let (v, fl) := mulVal (readFloat flush f a) (readFloat flush f b)
  let (r, fl') := writeFloat flush f rm v
  (r, fl ||| fl')

/-- round(d + a × b), rounded once; 0 × ∞ raises NV even when d is NaN (R183). -/
def fFma (f : FloatFmt) (rm : Round) (flush : Bool) (d a b : Nat) : Nat × Flags :=
  let (p, fl1) := mulVal (readFloat flush f a) (readFloat flush f b)
  let (v, fl2) := addVal rm (readFloat flush f d) p
  let (r, fl3) := writeFloat flush f rm v
  (r, fl1 ||| fl2 ||| fl3)

/-- a < b on numbers; zeros of either sign are equal. -/
def ltVal : Val → Val → Bool
  | .nan, _ => false
  | _, .nan => false
  | .inf s, .inf t => s && !t
  | .inf s, .fin _ _ _ => s
  | .fin _ _ _, .inf t => !t
  | .fin s m e, .fin t n g =>
    let q := min e g
    let x : Int := (if s then -1 else 1) * ((m * 2 ^ (e - q).toNat : Nat) : Int)
    let y : Int := (if t then -1 else 1) * ((n * 2 ^ (g - q).toNat : Nat) : Int)
    decide (x < y)

def isNaN : Val → Bool
  | .nan => true
  | _ => false

/-- a = b, neither NaN; zeros of either sign are equal. -/
def eqVal (a b : Val) : Bool := !isNaN a && !isNaN b && !ltVal a b && !ltVal b a

def isNegZero : Val → Bool
  | .fin true 0 _ => true
  | _ => false

/-- An input returned under R49: subnormals flushed, NaN canonical; no flag (R184, R220). -/
def passFloat (flush : Bool) (f : FloatFmt) (bits : Nat) : Nat :=
  match readFloat flush f bits with
  | .nan => f.nanBits
  | .inf _ => bits
  | .fin neg m _ => if m = 0 then f.signed neg 0 else bits

/-- `fmin` (R184): −0 orders below +0, and one NaN gives the other input. -/
def fMin (f : FloatFmt) (flush : Bool) (a b : Nat) : Nat :=
  let x := readFloat flush f a
  let y := readFloat flush f b
  if isNaN x then passFloat flush f b
  else if isNaN y then passFloat flush f a
  else if ltVal y x || (!ltVal x y && isNegZero y) then passFloat flush f b
  else passFloat flush f a

/-- `fmax` (R184). -/
def fMax (f : FloatFmt) (flush : Bool) (a b : Nat) : Nat :=
  let x := readFloat flush f a
  let y := readFloat flush f b
  if isNaN x then passFloat flush f b
  else if isNaN y then passFloat flush f a
  else if ltVal x y || (!ltVal y x && isNegZero x) then passFloat flush f b
  else passFloat flush f a

/-- |a| (R184). -/
def fAbs (f : FloatFmt) (flush : Bool) (a : Nat) : Nat :=
  if isNaN (readFloat flush f a) then f.nanBits else passFloat flush f a % 2 ^ (f.width - 1)

/-- −a (R184). -/
def fNeg (f : FloatFmt) (flush : Bool) (a : Nat) : Nat :=
  if isNaN (readFloat flush f a) then f.nanBits
  else
    let p := passFloat flush f a
    if p.testBit (f.width - 1) then p - 2 ^ (f.width - 1) else p + 2 ^ (f.width - 1)

/-! ### Conversion to and from integers (R48) -/

/-- A two's complement or unsigned integer of w bits as a number. -/
def intOf (signed : Bool) (w bits : Nat) : Int :=
  let b := bits % 2 ^ w
  if signed && b.testBit (w - 1) then (b : Int) - 2 ^ w else b

/-- The pattern of w bits of a number. -/
def intBits (w : Nat) (v : Int) : Nat := (v % (2 ^ w : Int)).toNat

/-- The least and the greatest value of an integer format (R34). -/
def intLo (signed : Bool) (w : Nat) : Int := if signed then -(2 ^ (w - 1) : Int) else 0
def intHi (signed : Bool) (w : Nat) : Int := if signed then 2 ^ (w - 1) - 1 else 2 ^ w - 1

/-- A value rounded to an integer, with whether that changed it. -/
def roundInt (rm : Round) (neg : Bool) (m : Nat) (e : Int) : Int × Bool :=
  let (q, ix) := roundTo rm neg m e 0
  (if neg then -(q : Int) else q, ix)

/-- Conversion of a value to an integer format (R48): the pattern and the flags. -/
def convertInt (signed : Bool) (w : Nat) (rm : Round) (sat : Bool) (v : Val) : Nat × Flags :=
  let bad (x : Int) : Nat × Flags :=
    (intBits w (if sat then x else if signed then intLo signed w else intHi signed w), flNV)
  match v with
  | .nan => bad 0
  | .inf neg => bad (if neg then intLo signed w else intHi signed w)
  | .fin neg m e =>
    let (r, ix) := roundInt rm neg m e
    if r < intLo signed w then bad (intLo signed w)
    else if intHi signed w < r then bad (intHi signed w)
    else (intBits w r, if ix then flNX else 0)

/-- An integer as an exact value. -/
def valOfInt (x : Int) : Val := .fin (decide (x < 0)) x.natAbs 0

/-- Conversion between integer formats (R48): exact, clamped or the low bits. -/
def convertIntInt (sat sd : Bool) (wd : Nat) (x : Int) : Nat :=
  if sat then intBits wd (max (intLo sd wd) (min (intHi sd wd) x)) else intBits wd x

/-! ### The special operations of the tile unit (R221 to R224) -/

/-- `tfrint` (R221): no flag, and a zero result keeps the sign. -/
def fRint (f : FloatFmt) (rm : Round) (flush : Bool) (a : Nat) : Nat :=
  match readFloat flush f a with
  | .nan => f.nanBits
  | .inf _ => a
  | .fin neg m e =>
    let (q, _) := roundTo rm neg m e 0
    if 0 ≤ e then passFloat flush f a else (convertFloat f .rtz false (.fin neg q 0)).1

/-- ln 2 × 2^320, truncated. -/
def ln2Scaled : Int :=
  0xB17217F7D1CF79ABC9E3B39803F2F6AF40F343267298B62D8A0D175B8BAAFA2BE7B876206DEBAC98

/-- The sum of the first terms of the exponential series of y / 2^320, times 2^320. -/
def expSeries : Nat → Nat → Int → Int → Int → Int
  | 0, _, _, _, acc => acc
  | n + 1, k, y, t, acc => expSeries n (k + 1) y (t * y / 2 ^ 320 / k) (acc + t)

/-- 2^a × 2^320 for a = ±m × 2^e with |a| ≤ 1/2, to within 2^−240 (DESIGN CHOICE, log entry 61). -/
def exp2Scaled (neg : Bool) (m : Nat) (e : Int) : Int :=
  let x : Int := if 0 ≤ e then (m * 2 ^ e.toNat : Nat) * ln2Scaled else (m : Int) * ln2Scaled / 2 ^ (-e).toNat
  expSeries 80 1 (if neg then -x else x) (2 ^ 320) 0

/-- `tfexp` (R222): 2^a truncated to M − 1 fraction bits. -/
def fExp (f : FloatFmt) (flush : Bool) (a : Nat) : Nat × Flags :=
  match readFloat flush f a with
  | .nan => (f.nanBits, 0)
  | .inf _ => (f.nanBits, flNV)
  | .fin neg m e =>
    if m = 0 then ((convertFloat f .rtz false (.fin false 1 0)).1, 0)
    else if ltMag 1 (-1) m e then (f.nanBits, flNV)
    else
      let top : Int := if neg then -1 else 0
      let q := top - f.mBits + 1
      let r := (exp2Scaled neg m e / 2 ^ (320 + q).toNat).toNat
      ((convertFloat f .rtz false (.fin false r q)).1, flNX)

/-- `tfins` (R223): a × 2^k, with k from the value of b. -/
def fIns (f : FloatFmt) (rm : Round) (flush : Bool) (a b : Nat) : Nat × Flags :=
  match readFloat flush f b with
  | .nan => (f.nanBits, 0)
  | .inf neg => if neg then (0, 0) else (f.infBits, 0)
  | .fin neg m e =>
    match readFloat flush f a with
    | .nan => (f.nanBits, 0)
    | .inf s => (f.signed s f.infBits, 0)
    | .fin s n g =>
      let t : Nat := if 0 ≤ e then (if m = 0 then 0 else min 300 (m * 2 ^ (min e 300).toNat)) else m / 2 ^ (-e).toNat
      let k : Int := min 300 t
      writeFloat flush f rm (.fin s n (if neg then g - k else g + k))

/-- The square root of n, rounded down: bits from `i` − 1 down, with `r` found so far. -/
def sqrtFrom : Nat → Nat → Nat → Nat
  | 0, _, r => r
  | i + 1, n, r => let t := r + 2 ^ i; if t * t ≤ n then sqrtFrom i n t else sqrtFrom i n r

/-- The square root of n, rounded down. -/
def sqrtDown (n : Nat) : Nat := sqrtFrom (Nat.log2 n / 2 + 1) n 0

/-- An estimate under R224: the truncated value q × 2^e, with NX and UF when the truncation lost something. -/
def estimate (f : FloatFmt) (flush neg : Bool) (q : Nat) (e : Int) (inexact : Bool) : Nat × Flags :=
  let (r, fl) := convertFloat f .rtz false (.fin neg q e)
  let small := (Nat.log2 q : Int) + e < 1 - (f.bias : Int)
  flushResult flush f (r, fl ||| (if inexact then flNX else 0) ||| (if inexact && decide small then flUF else 0))

/-- `tfrcp` (R224). -/
def fRcp (f : FloatFmt) (flush : Bool) (a : Nat) : Nat × Flags :=
  match readFloat flush f a with
  | .nan => (f.nanBits, 0)
  | .inf neg => (f.signed neg 0, 0)
  | .fin neg m e =>
    if m = 0 then (f.signed neg f.infBits, flDZ)
    else
      let n := min 12 f.mBits
      let l := Nat.log2 m
      let x := if m = 2 ^ l then l else l + 1
      let q := 2 ^ (n + x) / m
      estimate f flush neg q (-(n : Int) - x - e) (decide (2 ^ (n + x) % m ≠ 0))

/-- `tfrsq` (R224). -/
def fRsq (f : FloatFmt) (flush : Bool) (a : Nat) : Nat × Flags :=
  match readFloat flush f a with
  | .nan => (f.nanBits, 0)
  | .inf neg => if neg then (f.nanBits, flNV) else (0, 0)
  | .fin neg m e =>
    if m = 0 then (f.signed neg f.infBits, flDZ)
    else if neg then (f.nanBits, flNV)
    else
      let n := min 12 f.mBits
      let (m, e) := if e % 2 = 0 then (m, e) else (2 * m, e - 1)
      let l := Nat.log2 m
      let x := if m = 2 ^ l then (l + 1) / 2 else l / 2 + 1
      let q := sqrtDown (2 ^ (2 * (n + x)) / m)
      estimate f flush false q (-(n : Int) - x - e / 2) (decide (q * q * m ≠ 2 ^ (2 * (n + x))))

/-! ### Format codes (R38, R39, R229) -/

/-- A tile format (R39). -/
inductive TileFmt where
  | flt (f : FloatFmt)
  | int (signed : Bool) (w : Nat)
deriving DecidableEq, Repr

/-- The tile format of a 3-bit code (R39). -/
def tileFmt (c : Nat) : TileFmt :=
  match c with
  | 0 => .flt .fp32 | 1 => .flt .bf16 | 2 => .flt .fp16 | 3 => .int true 32 | 4 => .int true 16 | 5 => .int true 8
  | 6 => .int false 8 | _ => .flt .e4m3

/-- The width of a tile format in bits. -/
def TileFmt.width : TileFmt → Nat
  | .flt f => f.width
  | .int _ w => w

/-- A narrow format of R229. -/
inductive Narrow where
  | flt (f : FloatFmt)
  | int (w : Nat)
  | tern
deriving DecidableEq, Repr

/-- The narrow format of an index (R229). -/
def narrowFmt (n : Nat) : Narrow :=
  match n with
  | 0 => .flt .e4m3 | 1 => .flt .e5m2 | 2 => .flt .e3m2 | 3 => .flt .e2m3 | 4 => .flt .e2m1
  | 5 => .int 8 | 6 => .int 4 | _ => .tern

/-- Element width w of a narrow format. -/
def Narrow.width : Narrow → Nat
  | .flt f => f.width
  | .int w => w
  | .tern => 2

/-- Bytes B of its block image: 32 elements and the scale byte. -/
def Narrow.bytes (n : Narrow) : Nat := 4 * n.width + 1

/-- emax of R229; none is used for TERN. -/
def Narrow.emax : Narrow → Int
  | .flt .e4m3 => 8 | .flt .e5m2 => 15 | .flt .e3m2 => 4 | .flt .e2m3 => 2 | .flt .e2m1 => 2
  | .flt _ => 0
  | .int 8 => 6 | .int _ => 2
  | .tern => 0

/-- The value of a ternary code: 0b10 reads as 0 (R34). -/
def ternVal (b : Nat) : Int := match b % 4 with | 1 => 1 | 3 => -1 | _ => 0

/-- The value of a narrow element (R31, R34). -/
def Narrow.value (n : Narrow) (bits : Nat) : Val :=
  match n with
  | .flt f => decodeFloat f bits
  | .int w => valOfInt (intOf true w bits)
  | .tern => valOfInt (ternVal bits)

/-- v × 2^k. -/
def scaleVal (k : Int) : Val → Val
  | .fin neg m e => .fin neg m (e + k)
  | v => v

end Sys2Proof.Machine
end

