-- ==== Sys2Proof/Syntax.lean ====
section
/-! DEFINITION. Syntax.lean: every step of the part that spec/opcode_table.json lists is one constructor of `Instr`:
the 246 syllables of the instruction set (their operand fields as the layouts R112 to R117, R146, R147 and R239 give them;
the header bits POS and GUARD, R107, are common to all syllables and stand beside the instruction) and the 67 events of the
hardware and of its surroundings, whose operands stand in the state's event latch. -/

namespace Sys2Proof

/-- One step of the part: a syllable with its operand fields, or a hardware event. -/
inductive Instr where
  -- BR, LOOP, SYS and PRED: slot C
  /-- BSET (R148) -/
  | bset (n : BitVec 2) (a : BitVec 5)
  /-- BSETR (R148) -/
  | bsetr (n : BitVec 2) (a : BitVec 5)
  /-- BGO (R149) -/
  | bgo (n : BitVec 2) (c : BitVec 3)
  /-- BGON (R149) -/
  | bgon (n : BitVec 2) (c : BitVec 3)
  /-- BLINK (R149) -/
  | blink (n : BitVec 2) (c : BitVec 3)
  /-- BBACK (R149) -/
  | bback (c : BitVec 3) (a : BitVec 5)
  /-- LOOP (R154) -/
  | loop (a b : BitVec 5)
  /-- LOOPI (R154) -/
  | loopi (i : BitVec 8) (b : BitVec 5)
  /-- LPIPE (R159) -/
  | lpipe (s : BitVec 4) (a b : BitVec 5)
  /-- LIDX (R158) -/
  | lidx (d : BitVec 5) (k : BitVec 3)
  /-- TRAP (R162) -/
  | trap (n : BitVec 8)
  /-- WAIT (R163) -/
  | wait (a : BitVec 5)
  /-- WAITI (R163) -/
  | waiti (n : BitVec 8)
  /-- KILL (R164) -/
  | kill (a : BitVec 5)
  /-- KILLT (R164) -/
  | killt (t : BitVec 3) (a : BitVec 5)
  /-- RDSR (R166) -/
  | rdsr (d : BitVec 5) (n : BitVec 6)
  /-- WRSR (R166) -/
  | wrsr (n : BitVec 6) (a : BitVec 5)
  /-- PHASE (R167) -/
  | phase (n : BitVec 8)
  /-- PAND (R152) -/
  | pand (d a b : BitVec 3)
  /-- POR (R152) -/
  | por (d a b : BitVec 3)
  /-- PXOR (R152) -/
  | pxor (d a b : BitVec 3)
  /-- PNOT (R152) -/
  | pnot (d a : BitVec 3)
  /-- PMOV (R152) -/
  | pmov (d a : BitVec 3)
  /-- VANY (R152) -/
  | vany (d a b : BitVec 3)
  /-- VALL (R152) -/
  | vall (d a b : BitVec 3)
  /-- PFIRST (R152) -/
  | pfirst (d a b : BitVec 3) (e : BitVec 2)
  /-- PCNT (R152) -/
  | pcnt (a b : BitVec 3) (d : BitVec 5) (e : BitVec 2)
  -- INT, INTI, FPS, CMP, BIT, PATH, F20: slots A and B
  /-- ADD (R173) -/
  | add (d a b : BitVec 5) (v : BitVec 2)
  /-- SUB (R173) -/
  | sub (d a b : BitVec 5) (v : BitVec 2)
  /-- MUL (R173) -/
  | mul (d a b : BitVec 5)
  /-- MULH (R173) -/
  | mulh (d a b : BitVec 5)
  /-- MULHU (R173) -/
  | mulhu (d a b : BitVec 5)
  /-- DIV (R174) -/
  | div (d a b : BitVec 5) (v : BitVec 1)
  /-- DIVU (R174) -/
  | divu (d a b : BitVec 5) (v : BitVec 1)
  /-- AND (R173) -/
  | and (d a b : BitVec 5)
  /-- OR (R173) -/
  | or (d a b : BitVec 5)
  /-- XOR (R173) -/
  | xor (d a b : BitVec 5)
  /-- MIN (R173) -/
  | min (d a b : BitVec 5)
  /-- MAX (R173) -/
  | max (d a b : BitVec 5)
  /-- MINU (R173) -/
  | minu (d a b : BitVec 5)
  /-- MAXU (R173) -/
  | maxu (d a b : BitVec 5)
  /-- SEL (R173) -/
  | sel (d a b : BitVec 5) (c : BitVec 3)
  /-- ADDI (R175) -/
  | addi (d a : BitVec 5) (i : BitVec 9)
  /-- ANDI (R175) -/
  | andi (d a : BitVec 5) (i : BitVec 9)
  /-- ORI (R175) -/
  | ori (d a : BitVec 5) (i : BitVec 9)
  /-- XORI (R175) -/
  | xori (d a : BitVec 5) (i : BitVec 9)
  /-- SLTI (R175) -/
  | slti (d a : BitVec 5) (i : BitVec 9)
  /-- SLTUI (R175) -/
  | sltui (d a : BitVec 5) (i : BitVec 9)
  /-- FADD (R183) -/
  | fadd (d a b : BitVec 5) (q : BitVec 1)
  /-- FSUB (R183) -/
  | fsub (d a b : BitVec 5) (q : BitVec 1)
  /-- FMUL (R183) -/
  | fmul (d a b : BitVec 5) (q : BitVec 1)
  /-- FMA (R183) -/
  | fma (d a b : BitVec 5) (q : BitVec 1)
  /-- FMIN (R184) -/
  | fmin (d a b : BitVec 5)
  /-- FMAX (R184) -/
  | fmax (d a b : BitVec 5)
  /-- FNEG (R184) -/
  | fneg (d a : BitVec 5)
  /-- FABS (R184) -/
  | fabs (d a : BitVec 5)
  /-- F2I (R185) -/
  | f2i (d a : BitVec 5) (q : BitVec 1) (v : BitVec 2)
  /-- I2F (R185) -/
  | i2f (d a : BitVec 5) (q v : BitVec 1)
  /-- ICMP_EQ (R181) -/
  | icmpEq (p : BitVec 3) (a b : BitVec 5)
  /-- ICMP_NE (R181) -/
  | icmpNe (p : BitVec 3) (a b : BitVec 5)
  /-- ICMP_LT (R181) -/
  | icmpLt (p : BitVec 3) (a b : BitVec 5)
  /-- ICMP_LTU (R181) -/
  | icmpLtu (p : BitVec 3) (a b : BitVec 5)
  /-- ICMP_LE (R181) -/
  | icmpLe (p : BitVec 3) (a b : BitVec 5)
  /-- ICMP_LEU (R181) -/
  | icmpLeu (p : BitVec 3) (a b : BitVec 5)
  /-- FCMP_EQ (R181) -/
  | fcmpEq (p : BitVec 3) (a b : BitVec 5) (q : BitVec 1)
  /-- FCMP_LT (R181) -/
  | fcmpLt (p : BitVec 3) (a b : BitVec 5) (q : BitVec 1)
  /-- FCMP_LE (R181) -/
  | fcmpLe (p : BitVec 3) (a b : BitVec 5) (q : BitVec 1)
  /-- FCMP_UN (R181) -/
  | fcmpUn (p : BitVec 3) (a b : BitVec 5) (q : BitVec 1)
  /-- SHL (R176) -/
  | shl (d a b : BitVec 5)
  /-- SHR (R176) -/
  | shr (d a b : BitVec 5)
  /-- SRA (R176) -/
  | sra (d a b : BitVec 5)
  /-- ROL (R176) -/
  | rol (d a b : BitVec 5)
  /-- FSH (R177) -/
  | fsh (d n b : BitVec 5)
  /-- FSHR (R177) -/
  | fshr (d n b : BitVec 5)
  /-- CLZ (R176) -/
  | clz (d a : BitVec 5)
  /-- CTZ (R176) -/
  | ctz (d a : BitVec 5)
  /-- POPC (R176) -/
  | popc (d a : BitVec 5)
  /-- BEXT (R178) -/
  | bext (d a b : BitVec 5) (v : BitVec 1)
  /-- BINS (R178) -/
  | bins (d a b : BitVec 5)
  /-- BSWAP (R176) -/
  | bswap (d a : BitVec 5) (v : BitVec 1)
  /-- CPACK (R179) -/
  | cpack (d a b : BitVec 5)
  /-- CADD (R179) -/
  | cadd (d a b : BitVec 5)
  /-- CROW (R179) -/
  | crow (d a : BitVec 5)
  /-- CCOL (R179) -/
  | ccol (d a : BitVec 5)
  /-- BXDIM (R179) -/
  | bxdim (d : BitVec 5) (h : BitVec 4) (k : BitVec 2)
  /-- BXOK (R180) -/
  | bxok (d : BitVec 5) (h : BitVec 4) (b : BitVec 5) (v : BitVec 2)
  /-- FLI (R186) -/
  | fli (d : BitVec 4) (i : BitVec 20)
  -- LMEM, LSPEC: slot L; HMEM, HATOM: slot H
  /-- LMEM_LDB (R203) -/
  | lmemLdb (d : BitVec 5) (h : BitVec 4) (p f : BitVec 5)
  /-- LMEM_LDH (R203) -/
  | lmemLdh (d : BitVec 5) (h : BitVec 4) (p f : BitVec 5)
  /-- LMEM_LDW (R203) -/
  | lmemLdw (d : BitVec 5) (h : BitVec 4) (p f : BitVec 5)
  /-- LMEM_STB (R203) -/
  | lmemStb (s : BitVec 5) (h : BitVec 4) (p f : BitVec 5)
  /-- LMEM_STH (R203) -/
  | lmemSth (s : BitVec 5) (h : BitVec 4) (p f : BitVec 5)
  /-- LMEM_STW (R203) -/
  | lmemStw (s : BitVec 5) (h : BitVec 4) (p f : BitVec 5)
  /-- LMEM_TLDR (R204) -/
  | lmemTldr (t : BitVec 3) (c : BitVec 2) (h : BitVec 4) (p f : BitVec 5)
  /-- LMEM_TSTR (R204) -/
  | lmemTstr (t : BitVec 3) (c : BitVec 2) (h : BitVec 4) (p f : BitVec 5)
  /-- HMEM_LDB (R203) -/
  | hmemLdb (d : BitVec 5) (h : BitVec 4) (p f : BitVec 5)
  /-- HMEM_LDH (R203) -/
  | hmemLdh (d : BitVec 5) (h : BitVec 4) (p f : BitVec 5)
  /-- HMEM_LDW (R203) -/
  | hmemLdw (d : BitVec 5) (h : BitVec 4) (p f : BitVec 5)
  /-- HMEM_STB (R203) -/
  | hmemStb (s : BitVec 5) (h : BitVec 4) (p f : BitVec 5)
  /-- HMEM_STH (R203) -/
  | hmemSth (s : BitVec 5) (h : BitVec 4) (p f : BitVec 5)
  /-- HMEM_STW (R203) -/
  | hmemStw (s : BitVec 5) (h : BitVec 4) (p f : BitVec 5)
  /-- HMEM_TLDR (R204) -/
  | hmemTldr (t : BitVec 3) (c : BitVec 2) (h : BitVec 4) (p f : BitVec 5)
  /-- HMEM_TSTR (R204) -/
  | hmemTstr (t : BitVec 3) (c : BitVec 2) (h : BitVec 4) (p f : BitVec 5)
  /-- LDWA (R206) -/
  | ldwa (d : BitVec 5) (h : BitVec 4) (p f : BitVec 5)
  /-- LDWC (R207) -/
  | ldwc (d : BitVec 5) (h : BitVec 4) (p f : BitVec 5)
  /-- TLDRA (R206) -/
  | tldra (t : BitVec 3) (c : BitVec 1) (h : BitVec 4) (p f : BitVec 5)
  /-- TLDRC (R207) -/
  | tldrc (t : BitVec 3) (c : BitVec 1) (h : BitVec 4) (p f : BitVec 5)
  /-- ATCLR (R208) -/
  | atclr (h : BitVec 4) (p f : BitVec 5)
  /-- AMADD (R209) -/
  | amadd (n : BitVec 5) (h : BitVec 4) (p f : BitVec 5)
  /-- AMSWAP (R209) -/
  | amswap (n : BitVec 5) (h : BitVec 4) (p f : BitVec 5)
  /-- AMCAS (R209) -/
  | amcas (n : BitVec 5) (h : BitVec 4) (p f : BitVec 5)
  /-- AMMIN (R209) -/
  | ammin (n : BitVec 5) (h : BitVec 4) (p f : BitVec 5)
  /-- AMMAX (R209) -/
  | ammax (n : BitVec 5) (h : BitVec 4) (p f : BitVec 5)
  /-- AMAND (R209) -/
  | amand (n : BitVec 5) (h : BitVec 4) (p f : BitVec 5)
  /-- AMOR (R209) -/
  | amor (n : BitVec 5) (h : BitVec 4) (p f : BitVec 5)
  /-- AMXOR (R209) -/
  | amxor (n : BitVec 5) (h : BitVec 4) (p f : BitVec 5)
  -- TINT, TFP, TCMP, TCVT, TMOV: slot V
  /-- TADD (R217) -/
  | tadd (d a : BitVec 3) (s : BitVec 1) (b : BitVec 5) (f : BitVec 3) (w q : BitVec 1)
  /-- TADD_SAT (R217) -/
  | taddSat (d a : BitVec 3) (s : BitVec 1) (b : BitVec 5) (f : BitVec 3) (w q : BitVec 1)
  /-- TSUB (R217) -/
  | tsub (d a : BitVec 3) (s : BitVec 1) (b : BitVec 5) (f : BitVec 3) (w q : BitVec 1)
  /-- TSUB_SAT (R217) -/
  | tsubSat (d a : BitVec 3) (s : BitVec 1) (b : BitVec 5) (f : BitVec 3) (w q : BitVec 1)
  /-- TMUL (R217) -/
  | tmul (d a : BitVec 3) (s : BitVec 1) (b : BitVec 5) (f : BitVec 3) (w q : BitVec 1)
  /-- TMUL_SAT (R217) -/
  | tmulSat (d a : BitVec 3) (s : BitVec 1) (b : BitVec 5) (f : BitVec 3) (w q : BitVec 1)
  /-- TMULH (R217) -/
  | tmulh (d a : BitVec 3) (s : BitVec 1) (b : BitVec 5) (f : BitVec 3) (w q : BitVec 1)
  /-- TMIN (R217) -/
  | tmin (d a : BitVec 3) (s : BitVec 1) (b : BitVec 5) (f : BitVec 3) (w q : BitVec 1)
  /-- TMAX (R217) -/
  | tmax (d a : BitVec 3) (s : BitVec 1) (b : BitVec 5) (f : BitVec 3) (w q : BitVec 1)
  /-- TAND (R217) -/
  | tand (d a : BitVec 3) (s : BitVec 1) (b : BitVec 5) (f : BitVec 3) (w q : BitVec 1)
  /-- TOR (R217) -/
  | tor (d a : BitVec 3) (s : BitVec 1) (b : BitVec 5) (f : BitVec 3) (w q : BitVec 1)
  /-- TXOR (R217) -/
  | txor (d a : BitVec 3) (s : BitVec 1) (b : BitVec 5) (f : BitVec 3) (w q : BitVec 1)
  /-- TSHL (R217) -/
  | tshl (d a : BitVec 3) (s : BitVec 1) (b : BitVec 5) (f : BitVec 3) (w q : BitVec 1)
  /-- TSHR (R217) -/
  | tshr (d a : BitVec 3) (s : BitVec 1) (b : BitVec 5) (f : BitVec 3) (w q : BitVec 1)
  /-- TSRA (R217) -/
  | tsra (d a : BitVec 3) (s : BitVec 1) (b : BitVec 5) (f : BitVec 3) (w q : BitVec 1)
  /-- TFSH (R217) -/
  | tfsh (d a : BitVec 3) (s : BitVec 1) (b : BitVec 5) (f : BitVec 3) (w q : BitVec 1)
  /-- TABS (R217) -/
  | tabs (d a f : BitVec 3) (w q : BitVec 1)
  /-- TABS_SAT (R217) -/
  | tabsSat (d a f : BitVec 3) (w q : BitVec 1)
  /-- TNEG_SAT (R217) -/
  | tnegSat (d a f : BitVec 3) (w q : BitVec 1)
  /-- TFADD (R219) -/
  | tfadd (d a : BitVec 3) (s : BitVec 1) (b : BitVec 5) (f : BitVec 3) (w q : BitVec 1)
  /-- TFSUB (R219) -/
  | tfsub (d a : BitVec 3) (s : BitVec 1) (b : BitVec 5) (f : BitVec 3) (w q : BitVec 1)
  /-- TFMUL (R219) -/
  | tfmul (d a : BitVec 3) (s : BitVec 1) (b : BitVec 5) (f : BitVec 3) (w q : BitVec 1)
  /-- TFMA (R219) -/
  | tfma (d a : BitVec 3) (s : BitVec 1) (b : BitVec 5) (f : BitVec 3) (w q : BitVec 1)
  /-- TFMIN (R220) -/
  | tfmin (d a : BitVec 3) (s : BitVec 1) (b : BitVec 5) (f : BitVec 3) (w q : BitVec 1)
  /-- TFMAX (R220) -/
  | tfmax (d a : BitVec 3) (s : BitVec 1) (b : BitVec 5) (f : BitVec 3) (w q : BitVec 1)
  /-- TFABS (R220) -/
  | tfabs (d a f : BitVec 3) (w q : BitVec 1)
  /-- TFRINT (R221) -/
  | tfrint (d a f : BitVec 3) (w q : BitVec 1)
  /-- TFEXP (R222) -/
  | tfexp (d a f : BitVec 3) (w q : BitVec 1)
  /-- TFINS (R223) -/
  | tfins (d a : BitVec 3) (s : BitVec 1) (b : BitVec 5) (f : BitVec 3) (w q : BitVec 1)
  /-- TFRCP (R224) -/
  | tfrcp (d a f : BitVec 3) (w q : BitVec 1)
  /-- TFRSQ (R224) -/
  | tfrsq (d a f : BitVec 3) (w q : BitVec 1)
  /-- TCMP_EQ (R226) -/
  | tcmpEq (d a : BitVec 3) (s : BitVec 1) (b : BitVec 5) (f : BitVec 3) (w q : BitVec 1)
  /-- TCMP_NE (R226) -/
  | tcmpNe (d a : BitVec 3) (s : BitVec 1) (b : BitVec 5) (f : BitVec 3) (w q : BitVec 1)
  /-- TCMP_LT (R226) -/
  | tcmpLt (d a : BitVec 3) (s : BitVec 1) (b : BitVec 5) (f : BitVec 3) (w q : BitVec 1)
  /-- TCMP_LE (R226) -/
  | tcmpLe (d a : BitVec 3) (s : BitVec 1) (b : BitVec 5) (f : BitVec 3) (w q : BitVec 1)
  /-- TCMP_GT (R226) -/
  | tcmpGt (d a : BitVec 3) (s : BitVec 1) (b : BitVec 5) (f : BitVec 3) (w q : BitVec 1)
  /-- TCMP_GE (R226) -/
  | tcmpGe (d a : BitVec 3) (s : BitVec 1) (b : BitVec 5) (f : BitVec 3) (w q : BitVec 1)
  /-- TFCMP_EQ (R226) -/
  | tfcmpEq (d a : BitVec 3) (s : BitVec 1) (b : BitVec 5) (f : BitVec 3) (w q : BitVec 1)
  /-- TFCMP_LT (R226) -/
  | tfcmpLt (d a : BitVec 3) (s : BitVec 1) (b : BitVec 5) (f : BitVec 3) (w q : BitVec 1)
  /-- TFCMP_LE (R226) -/
  | tfcmpLe (d a : BitVec 3) (s : BitVec 1) (b : BitVec 5) (f : BitVec 3) (w q : BitVec 1)
  /-- TFCMP_UN (R226) -/
  | tfcmpUn (d a : BitVec 3) (s : BitVec 1) (b : BitVec 5) (f : BitVec 3) (w q : BitVec 1)
  /-- TFCMP_GT (R226) -/
  | tfcmpGt (d a : BitVec 3) (s : BitVec 1) (b : BitVec 5) (f : BitVec 3) (w q : BitVec 1)
  /-- TFCMP_GE (R226) -/
  | tfcmpGe (d a : BitVec 3) (s : BitVec 1) (b : BitVec 5) (f : BitVec 3) (w q : BitVec 1)
  /-- TCVT (R230) -/
  | tcvt (x d a k f : BitVec 3) (w q : BitVec 1)
  /-- TCVT_SAT (R230) -/
  | tcvtSat (x d a k f : BitVec 3) (w q : BitVec 1)
  /-- TQUANT (R232) -/
  | tquant (n d a f : BitVec 3) (w q : BitVec 1)
  /-- TDEQ (R233) -/
  | tdeq (d a n f : BitVec 3) (w q : BitVec 1)
  /-- TDEQ_HI (R233) -/
  | tdeqHi (d a n f : BitVec 3) (w q : BitVec 1)
  /-- TSCX (R234) -/
  | tscx (k a n : BitVec 3) (w q : BitVec 1)
  /-- TSCX_HI (R234) -/
  | tscxHi (k a n : BitVec 3) (w q : BitVec 1)
  /-- TDEQ_U (R233) -/
  | tdeqU (d a n f : BitVec 3) (w q : BitVec 1)
  /-- TDEQ_U_HI (R233) -/
  | tdeqUHi (d a n f : BitVec 3) (w q : BitVec 1)
  /-- TMOV (R236) -/
  | tmov (d a f : BitVec 3) (w q : BitVec 1)
  /-- TBCAST (R236) -/
  | tbcast (d : BitVec 3) (b : BitVec 5) (f : BitVec 3) (w q : BitVec 1)
  /-- TBCAST_L (R236) -/
  | tbcastL (d a : BitVec 3) (b : BitVec 5) (f : BitVec 3) (w q : BitVec 1)
  /-- TROT (R236) -/
  | trot (d a : BitVec 3) (b : BitVec 5) (f : BitVec 3) (w q : BitVec 1)
  /-- TSHUF (R236) -/
  | tshuf (d a b f : BitVec 3) (w q : BitVec 1)
  /-- TRED_MAX (R237) -/
  | tredMax (d a : BitVec 3) (b : BitVec 5) (f : BitVec 3) (w q : BitVec 1)
  /-- TRED_MIN (R237) -/
  | tredMin (d a : BitVec 3) (b : BitVec 5) (f : BitVec 3) (w q : BitVec 1)
  /-- TRED_ADD (R237) -/
  | tredAdd (d a : BitVec 3) (b : BitVec 5) (f : BitVec 3) (w q : BitVec 1)
  /-- TSEL (R236) -/
  | tsel (d a : BitVec 3) (s : BitVec 1) (b : BitVec 5) (f : BitVec 3) (w q : BitVec 1)
  /-- TPACK (R236) -/
  | tpack (d a b f : BitVec 3) (w q : BitVec 1)
  /-- TUNPK (R236) -/
  | tunpk (d a : BitVec 3) (b : BitVec 5) (f : BitVec 3) (w q : BitVec 1)
  /-- TTRANS (R238) -/
  | ttrans (d a f : BitVec 3) (q : BitVec 1)
  -- SCALE: slot K
  /-- KLD (R241) -/
  | kld (h : BitVec 4) (a : BitVec 5) (k : BitVec 3)
  /-- KST (R241) -/
  | kst (h : BitVec 4) (a : BitVec 5) (k : BitVec 3)
  /-- KBASE (R240) -/
  | kbase (a : BitVec 5)
  /-- KROW (R240) -/
  | krow (a : BitVec 5)
  /-- KSET (R240) -/
  | kset (a b : BitVec 5) (k : BitVec 3)
  /-- KSET_ALL (R240) -/
  | ksetAll (a : BitVec 5) (k : BitVec 3)
  -- MXA, MXB, WALK, LINK, CTX, XFORM: slot X
  /-- MLOAD (R318) -/
  | mload (w : BitVec 1)
  /-- MRUN (R319) -/
  | mrun (a : BitVec 5) (s : BitVec 2) (w q : BitVec 1)
  /-- MZERO (R320) -/
  | mzero (s : BitVec 2)
  /-- MREAD (R320) -/
  | mread (a : BitVec 5) (s : BitVec 2) (d : BitVec 3)
  /-- MSPILL_ACC (R321) -/
  | mspillAcc (s : BitVec 2)
  /-- MSPILL_SLOT (R321) -/
  | mspillSlot (w : BitVec 1)
  /-- MFILL_ACC (R321) -/
  | mfillAcc (s : BitVec 2)
  /-- MFILL_SLOT (R321) -/
  | mfillSlot (w : BitVec 1)
  /-- MENC (R322) -/
  | menc (a : BitVec 5) (q : BitVec 1)
  /-- MCOMP (R323) -/
  | mcomp (a : BitVec 5)
  /-- MPROG (R324) -/
  | mprog (a b : BitVec 5) (c e : BitVec 2)
  /-- MPROG_OPEN (R324) -/
  | mprogOpen (a : BitVec 5) (c e : BitVec 2)
  /-- MPROG_CLR (R324) -/
  | mprogClr (e : BitVec 2)
  /-- MGEO_A (R312) -/
  | mgeoA (a : BitVec 5)
  /-- MGEO_W (R312) -/
  | mgeoW (a b : BitVec 5)
  /-- MGEO_D (R312) -/
  | mgeoD (a b : BitVec 5)
  /-- MGEO_N (R312) -/
  | mgeoN (a b : BitVec 5)
  /-- WCOPY (R262) -/
  | wcopy (a b : BitVec 5) (o f : BitVec 3)
  /-- WMCAST (R262) -/
  | wmcast (a b : BitVec 5) (o f : BitVec 3)
  /-- WGATH (R263) -/
  | wgath (a b : BitVec 5) (o f : BitVec 3)
  /-- WSCAT (R263) -/
  | wscat (a b : BitVec 5) (o f : BitVec 3)
  /-- WPROM (R265) -/
  | wprom (d : BitVec 5) (k : BitVec 6)
  /-- WAMO_ADD (R266) -/
  | wamoAdd (n p : BitVec 5) (h : BitVec 4)
  /-- WAMO_SWAP (R266) -/
  | wamoSwap (n p : BitVec 5) (h : BitVec 4)
  /-- WAMO_CAS (R266) -/
  | wamoCas (n p : BitVec 5) (h : BitVec 4)
  /-- WAMO_MAX (R266) -/
  | wamoMax (n p : BitVec 5) (h : BitVec 4)
  /-- WGEO (R264) -/
  | wgeo (a b : BitVec 5) (n : BitVec 3)
  /-- WGEO_HI (R264) -/
  | wgeoHi (a b : BitVec 5) (n : BitVec 3)
  /-- WGEO_TAB (R264) -/
  | wgeoTab (a b : BitVec 5) (n : BitVec 3)
  /-- WSNAP (R290) -/
  | wsnap (a b : BitVec 5)
  /-- WCALL (R369) -/
  | wcall (a b n : BitVec 5)
  /-- LSEND (R350) -/
  | lsend (a b p : BitVec 5)
  /-- LRECV (R351) -/
  | lrecv (a b p : BitVec 5)
  /-- LLAT (R360) -/
  | llat (d p : BitVec 5)
  /-- GCYC (R358) -/
  | gcyc (d : BitVec 5) (k : BitVec 1)
  /-- GMEAS (R361) -/
  | gmeas (d p : BitVec 5)
  /-- GADJ (R362) -/
  | gadj (a : BitVec 5) (s : BitVec 3)
  /-- LPAIR (R349) -/
  | lpair (a p : BitVec 5)
  /-- CXMK (R418) -/
  | cxmk (n p : BitVec 5) (h : BitVec 4)
  /-- CXGIVE (R418) -/
  | cxgive (a p : BitVec 5) (h : BitVec 4)
  /-- CXREV (R419) -/
  | cxrev (a : BitVec 5)
  /-- CXRUN (R419) -/
  | cxrun (a : BitVec 5)
  /-- CXSAVE (R420) -/
  | cxsave (n b : BitVec 5)
  /-- CXLOAD (R420) -/
  | cxload (n b : BitVec 5)
  /-- CXPEND (R421) -/
  | cxpend (d b : BitVec 5)
  /-- CXQ (R422) -/
  | cxq (n p : BitVec 5) (h : BitVec 4)
  /-- APSET (R286) -/
  | apset (n p : BitVec 5) (h : BitVec 4)
  /-- APCLR (R287) -/
  | apclr (a : BitVec 5)
  /-- APQ (R287) -/
  | apq (d b : BitVec 5)
  -- Syllables without operand fields
  /-- LBREAK (R157) -/
  | lbreak
  /-- NOP (R161) -/
  | nop
  /-- ERET (R394) -/
  | eret
  /-- FENCE_H (R165) -/
  | fenceH
  /-- FENCE_D (R165) -/
  | fenceD
  /-- YIELD (R168) -/
  | yield
  /-- MODE_EXPOSED (R169) -/
  | modeExposed
  /-- MODE_INTERLOCKED (R169) -/
  | modeInterlocked
  /-- ATCLR_ALL (R208) -/
  | atclrAll
  /-- WRET (R374) -/
  | wret
  /-- WJOIN (R377) -/
  | wjoin
  -- Events
  /-- MAILBOX_WRITE (R56) -/
  | mailboxWrite
  /-- MAILBOX_READ (R57) -/
  | mailboxRead
  /-- KICK (R61) -/
  | kick
  /-- KCOAL_WRITE (R58) -/
  | kcoalWrite
  /-- KICK_PAGE_REGISTER_WRITE (R58) -/
  | kickPageRegisterWrite
  /-- STREAM_PROGRAM_START (R63) -/
  | streamProgramStart
  /-- BUNDLE_ISSUE (R119) -/
  | bundleIssue
  /-- REGISTER_WRITE_LAND (R133) -/
  | registerWriteLand
  /-- MEMORY_PERFORM (R197) -/
  | memoryPerform
  /-- WAIT_EXPIRY (R163) -/
  | waitExpiry
  /-- WALKER_BEAT_PERFORM (R253) -/
  | walkerBeatPerform
  /-- DRAM_RETRY (R257) -/
  | dramRetry
  /-- WALK_FAULT_PENDING (R254) -/
  | walkFaultPending
  /-- WAMO_COMPLETE (R266) -/
  | wamoComplete
  /-- APSET_COMPLETE (R286) -/
  | apsetComplete
  /-- SNAP_BLOCK_HASHED (R290) -/
  | snapBlockHashed
  /-- EXPANDER_DELIVER (R278) -/
  | expanderDeliver
  /-- ARRAY_GROUP_WRITE (R301) -/
  | arrayGroupWrite
  /-- SLOT_LOAD_COMPLETE (R318) -/
  | slotLoadComplete
  /-- ACCUMULATOR_FILL_COMPLETE (R321) -/
  | accumulatorFillComplete
  /-- SPILL_ROW_PERFORM (R321) -/
  | spillRowPerform
  /-- ENCODE_GROUP_PERFORM (R322) -/
  | encodeGroupPerform
  /-- CHILD_ENTRY (R369) -/
  | childEntry
  /-- OUTWARD_COPY_APPLY (R375) -/
  | outwardCopyApply
  /-- CALLER_RESUME (R371) -/
  | callerResume
  /-- JOIN_RELEASE (R377) -/
  | joinRelease
  /-- REFLECTED_TRAP_ENTRY (R395) -/
  | reflectedTrapEntry
  /-- CXMK_COMPLETE (R418) -/
  | cxmkComplete
  /-- CXGIVE_COMPLETE (R418) -/
  | cxgiveComplete
  /-- CXQ_COMPLETE (R422) -/
  | cxqComplete
  /-- CXSAVE_COMPLETE (R420) -/
  | cxsaveComplete
  /-- CXLOAD_COMPLETE (R420) -/
  | cxloadComplete
  /-- REVOCATION_COMPLETE (R88) -/
  | revocationComplete
  /-- BUDGET_STOP (R87) -/
  | budgetStop
  /-- SLICE_END (R402) -/
  | sliceEnd
  /-- DRAIN_WATCHDOG (R405) -/
  | drainWatchdog
  /-- CONTEXT_STOP (R406) -/
  | contextStop
  /-- CONTEXT_RESTORE (R414) -/
  | contextRestore
  /-- BEACON_SEND (R343) -/
  | beaconSend
  /-- BEACON_RECEIVE (R344) -/
  | beaconReceive
  /-- GCYC_STEP (R345) -/
  | gcycStep
  /-- TIMED_FLIT_DEPART (R350) -/
  | timedFlitDepart
  /-- TIMED_FLIT_ARRIVE (R352) -/
  | timedFlitArrive
  /-- LINK_BEAT_PERFORM (R353) -/
  | linkBeatPerform
  /-- RECEIVE_WINDOW_CLOSE (R354) -/
  | receiveWindowClose
  /-- PORT_TRAINED (R348) -/
  | portTrained
  /-- LANE_FAILURE (R435) -/
  | laneFailure
  /-- CURRENT_WARNING (R429) -/
  | currentWarning
  /-- THERMAL_WARNING (R429) -/
  | thermalWarning
  /-- TRIP (R430) -/
  | trip
  /-- RESET (R436) -/
  | reset
  /-- REPORT_READY (R438) -/
  | reportReady
  /-- HM_BANK_RETIRE (R192) -/
  | hmBankRetire
  /-- HERD_FAILURE (R441) -/
  | herdFailure
  /-- PSEUDO_CHANNEL_RETIRE (R442) -/
  | pseudoChannelRetire
  /-- RESV_COPY_COMPLETE (R442) -/
  | resvCopyComplete
  /-- SMBUS_READ_SRS (R443) -/
  | smbusReadSrs
  /-- SMBUS_CLEAR_SR (R443) -/
  | smbusClearSr
  /-- SMBUS_READ_EVENT (R443) -/
  | smbusReadEvent
  /-- SMBUS_START_REPORT (R443) -/
  | smbusStartReport
  /-- SMBUS_READ_REPORT (R443) -/
  | smbusReadReport
  /-- SMBUS_RESET (R443) -/
  | smbusReset
  /-- GRID_DRAIN_START (R356) -/
  | gridDrainStart
  /-- DEFICIT_RENEWAL (R402) -/
  | deficitRenewal
  /-- ECNT_SATURATION (R416) -/
  | ecntSaturation
  /-- THERMAL_WARNING_END (R439) -/
  | thermalWarningEnd
  /-- CURRENT_WARNING_END (R439) -/
  | currentWarningEnd
deriving DecidableEq, Repr

end Sys2Proof
end

