-- ==== Sys2Proof/Machine/State.lean ====
section
/-! DEFINITION. State.lean: everything the spec gives the device, as plain data; the reasons a step can stop; the state after
reset. Herds stand in the order of the root's virtual numbers 0..95 (R7, R90), cores in the order 0..3. Times are device
cycles (`tick`), which advance with every cycle in which the device is not held by a negative `gadj` step (R345). -/

namespace Sys2Proof.Machine

/-- Why the machine stops with a fault. None is raised by an instruction of the table: every fault of the spec is a trap that
the machine takes (R384), and a tripped device goes on counting. -/
inductive Fault where
  /-- raised by no meaning: the spec's own faults are traps (R384); kept so that the type is inhabited; safe -/
  | unreachable
deriving DecidableEq, Repr

/-- Why an instruction has no meaning. -/
inductive Refusal where
  /-- raised by Dispatch.lean for an instruction not modelled yet; safe: the machine stops -/
  | notModelled (mnemonic : String)
deriving DecidableEq, Repr

/-! ### Memory -/

/-- A byte memory: (address, byte) pairs, addresses strictly rising, no pair holding the byte 0, which is what an address that
is not listed reads as. -/
abbrev Mem := List Host.Cell

/-- The canonical form of a memory. -/
abbrev Mem.wf (m : Mem) : Prop := (m.Pairwise fun a b => a.1 < b.1) ∧ ∀ c ∈ m, c.2 ≠ 0#8

/-- Where a byte of level memory or device memory stands. -/
inductive Space where
  /-- physical device memory (R247) -/
  | dev
  /-- the HM of a herd (R190) -/
  | hm (herd : Nat)
  /-- the LM of a core (R187) -/
  | lm (herd core : Nat)
deriving DecidableEq, Repr

/-! ### The outside world -/

/-- A host source of R52: a fabric node and one of its 64 source numbers. -/
structure Source where
  node : Nat := 0
  num : Nat := 0
deriving DecidableEq, Repr

/-- A mailbox request as it stands in its flit (R53): the header fields as sent, well formed or not, and the data of a write. -/
structure MailReq where
  op : Byte := 0
  space : Byte := 0
  len : BitVec 16 := 0
  tag : Word := 0
  addr : BitVec 64 := 0
  data : List Byte := []
  /-- the port on which its flit arrived -/
  port : Nat := 0
deriving DecidableEq, Repr

/-- A timed flit (R350, R434): destination virtual herd, tag, flit index, number of valid bytes, the source and the destination
context, and the data bytes. -/
structure TimedFlit where
  herd : Nat := 0
  tag : Nat := 0
  index : Nat := 0
  count : Nat := 0
  srcCtx : Nat := 0
  dstCtx : Nat := 0
  data : List Byte := []
  /-- its CHECK fails, or a reserved field of it is not zero (R434) -/
  broken : Bool := false
deriving DecidableEq, Repr

/-- An error that arises in a memory: one that the check bits of a line or word cannot correct (R101, R188, R454), or the symbols of a
codeword of HM that are wrong together, no read having corrected them, by their banks of the group (R191, R192). -/
inductive Upset where
  | line (line : Nat)
  | codeword (herd stripe pos : Nat) (banks : List Nat)
  | lmWord (herd core word : Nat)
  | storeWord (herd word : Nat)
deriving DecidableEq, Repr

/-- What the device sends: a mailbox response (R55), a notice (R66), a timed flit (R350), a beacon (R343), or the bytes that an
SMBus read returns (R443). -/
inductive Sent where
  | response (src : Source) (bytes : List Byte)
  | notice (src : Source) (bytes : List Byte)
  | timed (port : Nat) (flit : TimedFlit)
  | beacon (port : Nat) (gcyc : Nat) (group : Word)
  | smbus (bytes : List Byte)
deriving DecidableEq, Repr

/-- The operands of a hardware event: record numbers, and the data that comes with an event from outside. -/
structure EvArg where
  a : Nat := 0
  b : Nat := 0
  c : Nat := 0
  src : Source := {}
  req : MailReq := {}
  flit : TimedFlit := {}
  word : BitVec 64 := 0
  words : List Word := []
  bytes : List Byte := []
  ok : Bool := false
deriving DecidableEq, Repr

/-! ### Core state -/

/-- A geometry slot (R250): an origin and an extent for dimensions 0 to 3. -/
structure Geo where
  o0 : BitVec 16 := 0
  o1 : BitVec 16 := 0
  o2 : BitVec 16 := 0
  o3 : BitVec 16 := 0
  e0 : BitVec 16 := 0
  e1 : BitVec 16 := 0
  e2 : BitVec 16 := 0
  e3 : BitVec 16 := 0
deriving DecidableEq, Repr

/-- A loop-stack entry (R153). -/
structure LoopEntry where
  pro : BitVec 16 := 0
  epi : BitVec 16 := 0
  start : BitVec 16 := 0
  fin : BitVec 16 := 0
  count : Word := 0
  index : Word := 0
  kind : Bool := false
  clamp : Bool := false
  resume : Bool := false
  sm1 : BitVec 4 := 0
  /-- the scheduler asks for a clamp, which the next END test of the entry decides (R160) -/
  ask : Bool := false
deriving DecidableEq, Repr

/-- A pending transfer (R151): its target and the delay bundles still to issue. -/
structure Transfer where
  target : BitVec 16
  left : Nat
  /-- its own bundle has not committed whole (R151) -/
  fresh : Bool := true
deriving DecidableEq, Repr

/-- Where a pending register write lands (R124, R127). -/
inductive Dest where
  /-- flags and record only: a discarded result (R111, R124) -/
  | none
  | scalar (n : Nat)
  | pred (n : Nat)
  | branch (n : Nat)
  | tileRow (t r : Nat)
  | scale (k : Nat)
  | rcur
  | winBase
  | special (n : Nat)
  | mode
  | phase
  | pbnd
deriving DecidableEq, Repr

/-- One pending register write (R133, R389): the cycle at whose end it lands, the number of its syllable in issue order, its
value with a byte mask for rows and scale registers, and the flags and the record update it carries. -/
structure Pend where
  due : Nat
  seq : Nat := 0
  dest : Dest
  val : Row512 := 0
  mask : Mask := 0
  fflags : BitVec 5 := 0
  tflags : BitVec 80 := 0
  /-- what CLASS of an exception record takes: the flags of all rows that land in this cycle (R130, R214) -/
  cls : BitVec 5 := 0
  slot : Option Nat := .none
  addr : BitVec 16 := 0
deriving DecidableEq, Repr

/-- The operations of the tile unit (R216, R218, R226, R228, R235). -/
inductive VOp where
  | add (sat : Bool) | sub (sat : Bool) | mul (sat : Bool) | mulh | min | max | and | or | xor | shl | shr | sra | fsh
  | abs (sat : Bool) | negSat
  | fadd | fsub | fmul | fma | fmin | fmax | fabs | frint | fexp | fins | frcp | frsq
  /-- compares: 0 eq, 1 ne, 2 lt, 3 le, 4 gt, 5 ge -/
  | icmp (c : Nat)
  /-- compares: 0 eq, 1 lt, 2 le, 3 un, 4 gt, 5 ge -/
  | fcmp (c : Nat)
  /-- to tile format `d`, part `q` -/
  | cvt (d q : Nat) (sat : Bool)
  | quant (n : Nat)
  /-- from narrow index n, the high half, unscaled -/
  | deq (n : Nat) (hi u : Bool)
  | scx (n : Nat) (hi : Bool)
  | mov | bcast | bcastL | rot | shuf | redMax | redMin | redAdd | sel | pack | unpk | trans
deriving DecidableEq, Repr

/-- A V syllable with its operands as numbers: `b` is a tile, or a source specifier when `s` (R116). -/
structure VDec where
  op : VOp
  d : Nat
  a : Nat
  s : Bool := false
  b : Nat := 0
  f : Nat
  w : Bool
  q : Bool
deriving DecidableEq, Repr

/-- The whole-tile operation of which rows are still to be read (R136): from row 4 × `group` on. `bval` is the scalar operand;
`snap` is what `ttrans` read at its issue (R238). -/
structure TileOp where
  dec : VDec
  start : Nat
  group : Nat
  seq : Nat
  guard : Mask
  bval : Word
  rm : Nat
  interlocked : Bool
  addr : BitVec 16
  snap : List Row512
  /-- the rows (tile, row) that were judged dead at its issue (R386) -/
  dead : List (Nat × Nat) := []
  /-- a row written already has set a flag: the exception record is the first one's (R214) -/
  flagged : Bool := false
deriving DecidableEq, Repr

/-- A store that has issued and not performed (R197): the level of its frame, and the bytes with their addresses. -/
structure Store where
  due : Nat
  space : Space
  level : Nat
  bytes : List (Nat × Byte)
deriving DecidableEq, Repr

/-- An asynchronous trap (R387): its class, cause and detail words, the address it records when that is not the bundle it is
taken at, the context in which it was raised, and the context at which the walk of R83 starts. -/
structure Async where
  cls : Nat
  /-- it was found where a program starts, before any bundle, and is recorded as a synchronous trap of the first one (R14, R63) -/
  sync : Bool := false
  cause : Nat := 0
  d0 : Word := 0
  d1 : Word := 0
  addr : Option (BitVec 16) := .none
  ctx : Nat
  owner : Nat
deriving DecidableEq, Repr

/-- What holds a core's next bundle. -/
inductive Hold where
  | none
  /-- `wait`, `waiti` (R163): until `issueAt` -/
  | wait
  /-- `wjoin` (R377) -/
  | join
  /-- a call to the core itself (R371, R372): until the child has returned -/
  | call
  /-- a CTX command that reads a descriptor (R418): until it completes -/
  | engine
  /-- stopped under R395, until `cxrun` -/
  | reflected
  /-- stopped by a fatal fault or the end of the program (R396, R86) -/
  | stopped
deriving DecidableEq, Repr

/-- What the next bundle waits for beside its hold, as slot C asks: the walker writes of these commands (a fence, R165), and that no
write of the core is pending (`mode exposed`, R142). -/
structure Gate where
  writes : List Nat := []
  settled : Bool := false
deriving DecidableEq, Repr

/-- What the slots of a bundle that have committed ask of its end (R163, R165, R168, R377): what holds the next bundle, the first
cycle in which it may issue, and a drain point. -/
structure Carry where
  hold : Hold := .none
  gate : Gate := {}
  at_ : Nat := 0
  yields : Bool := false
deriving DecidableEq, Repr

/-- A trap frame (R389): the bundle, the first slot to execute, what the handler's `eret` restores, and the in-flight queue with
landing distances in place of landing cycles. -/
structure TrapFrame where
  pc : BitVec 16
  sres : Nat
  /-- a software trap resumes at the bundle after `pc` (R386); `next` is where -/
  next : Option (BitVec 16)
  sw : Word
  rcur : BitVec 5
  loops : List LoopEntry
  xfer : Option Transfer
  bank : Option (List Word)
  winBase : BitVec 8
  queue : List Pend
  /-- the cycle at which it was captured, the whole-tile operation then in progress, whose rows stand in the queue (R389), and the
  number of the next syllable in issue order -/
  at_ : Nat := 0
  tile : Option TileOp := .none
  seq : Nat := 0
  /-- what specifier 30 reads in the slots that resume: a loop that the bundle pushed before it faulted is not seen (R155, R394) -/
  ix0 : Word
  /-- the software trap that the bundle raises once its last slot has committed (R386) -/
  soft : Option (BitVec 8) := .none
  carry : Carry := {}
  /-- the core held no task frame when this handler was entered (R395): `eret` returns it to holding none -/
  noTask : Bool := false
  /-- the entry that a clamp in effect on this frame's loops saves (R160) -/
  clamp : Option LoopEntry := .none
deriving DecidableEq, Repr

/-- A task frame's identity: its context, level, image, task record, the call that started it (none for a chip task), its queue,
and its box table, each handle with the descriptor bound to it (R16, R11). -/
structure Frame where
  ctx : Nat
  level : Nat
  image : Nat
  task : Nat
  call : Option Nat
  queue : Nat
  boxes : List (Option (BitVec 256))
deriving DecidableEq, Repr

/-- The conflict that an open call group has recorded (R378). -/
structure Conflict where
  count : Nat
  sib : Nat
  ch : Nat
  own : Nat
  offset : Nat
deriving DecidableEq, Repr

/-- The registers and the per-frame state of a core (R124, R127, R16, R24, R250, R264, R311, R365). -/
structure Regs where
  s : List Word := List.replicate 24 0
  p : List Mask := List.replicate 8 0
  t : List (List Row512) := List.replicate 8 (List.replicate 32 0)
  k : List Row512 := List.replicate 8 0
  bt : List (BitVec 16) := List.replicate 4 0
  rcur : BitVec 5 := 0
  loops : List LoopEntry := []
  sw : Word := 0
  fsr : BitVec 5 := 0
  tfsr : BitVec 80 := 0
  xr : List Word := List.replicate 4 0
  deadS : BitVec 24 := 0
  deadT : List (BitVec 32) := List.replicate 8 0
  /-- the high halves that the last read of vcycl, ecntl and `gcyc` k = 0 sampled (R131, R358) -/
  vcycHi : Option Word := .none
  ecntHi : Option Word := .none
  gcycHi : Option Word := .none
  gm : List Geo := List.replicate 8 {}
  mgeo : BitVec 96 := 0
  idx : List (BitVec 16) := List.replicate 512 0
  /-- the promise of the latest `wgeo.tab` (R263) -/
  tabAt : Nat := 0
  bank : Option (List Word) := .none
  winBase : BitVec 8 := 0
  frame : Option Frame := .none
  pc : BitVec 16 := 0
  xfer : Option Transfer := .none
  /-- the next bundle is a landing (R121) -/
  landing : Bool := false
  /-- the next bundle executes its slots from this one on (R394), and specifier 30 reads `ixHold` in it -/
  resume : Nat := 0
  /-- in a bundle that resumes part-way, the first number in issue order of what was issued since its trap (R394) -/
  resumeSeq : Nat := 0
  ixHold : Option Word := .none
  pend : List Pend := []
  /-- walker and CTX commands whose result a scalar still waits for: command and register (R389) -/
  engPend : List (Nat × Nat) := []
  /-- walker commands issued since the task's entry, the most recent first (R265) -/
  issued : List Nat := []
  /-- the open call group: its calls in sibling order, join marks as (space, address), conflict (R365, R376, R378) -/
  group : List Nat := []
  marks : List (Space × Nat) := []
  conflict : Option Conflict := .none
  trap : Option TrapFrame := .none
  /-- the software trap that the end of this bundle raises (R162), and what slots committed before a trap ask of it -/
  softTrap : Option (BitVec 8) := .none
  carry : Carry := {}
deriving DecidableEq, Repr

/-- The place of the syllable that executes: its core, its bundle, its own header and literals. -/
structure Cur where
  herd : Nat := 0
  core : Nat := 0
  pc : BitVec 16 := 0
  next : BitVec 16 := 0
  slot : Nat := 0
  guard : Nat := 0
  lits : List Word := []
  /-- what specifier 30 reads in this bundle -/
  ix0 : Word := 0
  /-- the number of the executing syllable in issue order -/
  seq : Nat := 0
  /-- a trap was taken in this bundle: the slots that follow commit nothing -/
  trapped : Bool := false
  /-- the bundle must be held and tried again in the next cycle (R139) -/
  mustHold : Bool := false
  /-- the first cycle in which the next bundle may issue, and what holds it -/
  nextAt : Nat := 0
  hold : Hold := .none
  gate : Gate := {}
  /-- `yield`, `eret` and the end of a KIND 0 loop body, which take effect when the bundle has committed (R168, R162, R404) -/
  yields : Bool := false
  eret : Bool := false
  endBody : Bool := false
  /-- the bundle has committed whole and its flow is settled -/
  done : Bool := false
  /-- the task frame that its `wret` has ended (R374) -/
  ended : Option Frame := .none
deriving DecidableEq, Repr

/-- An advanced-load entry (R206): destination, first address, byte addresses reached, the bytes of the window. -/
structure AdvLoad where
  dest : Dest
  addr : Nat
  width : Nat
  reach : List Nat
  bytes : Row512
deriving DecidableEq, Repr

/-- A core (R124, R206, R279, R137): the running frame's registers, the frames set aside by a call to the core itself
(R371, R372), and what the core holds apart from any frame. -/
structure Core where
  r : Regs := {}
  susp : List Regs := []
  issueAt : Nat := 0
  hold : Hold := .none
  gate : Gate := {}
  phase : BitVec 6 := 0
  /-- the cycle in which `phase` last changed and its value in that cycle, which the cycle is counted under (R167, R98) -/
  phaseWas : Nat × BitVec 6 := (0, 0)
  /-- the first cycles in which the V slot (R136) and the dividers of slots A and B (R137) are free -/
  vFree : Nat := 0
  divA : Nat := 0
  divB : Nat := 0
  tile : Option TileOp := .none
  stores : List Store := []
  asyncs : List Async := []
  table : List AdvLoad := []
  /-- the expansion buffer: its page and bytes, and the first cycle in which the expander is free (R279) -/
  xbuf : Option (Nat × List Byte) := .none
  xbusy : Nat := 0
  /-- the cycle at which the core drained for a stop (R404) -/
  drainedAt : Option Nat := .none
  /-- the entry that a clamp in effect on the loops of the running frame saves (R160) -/
  clampSaved : Option LoopEntry := .none
  seq : Nat := 0
  /-- the cycles of its latest drain point (R404) and of its latest bundle (R97) -/
  lastDrain : Option Nat := .none
  lastIssue : Option Nat := .none
  /-- the bundle whose X syllable commits when an engine has read a descriptor (R418) -/
  waiting : Option Cur := .none
deriving DecidableEq, Repr

/-! ### The array -/

/-- A weight slot (R296): format code, groups per column, the weight positions of a column that are not padding (R41), bytes. -/
structure WSlot where
  fmtb : Nat := 0
  ng : Nat := 0
  cols : Nat := 256
  bytes : Mem := []
deriving DecidableEq, Repr

/-- A lease table entry (R307). -/
structure Lease where
  fin : Word := 0
  start : Word := 0
  isOpen : Bool := false
  v : Bool := false
  core : BitVec 2 := 0
deriving DecidableEq, Repr

/-- The commands of the array (R313, R314) that hold a unit. -/
inductive ArrOp where
  | mload (w : Nat)
  | mrun (s w : Nat) (quiet : Bool)
  | spillAcc (s : Nat)
  | spillSlot (w : Nat)
  | fillAcc (s : Nat)
  | fillSlot (w : Nat)
  | menc (n : Nat) (quiet : Bool)
  | mcomp (n : Nat)
deriving DecidableEq, Repr

/-- An array command in flight: what R310 and R325 keep of it, and the data it has sampled. -/
structure ArrCmd where
  id : Nat
  op : ArrOp
  core : Nat
  ctx : Nat
  at_ : Nat
  /-- its end cycle, at whose end its last write lands -/
  fin : Nat
  addr : BitVec 16
  geo : BitVec 96
  path : Word
  src : BitVec 256
  dst : BitVec 256
  /-- array cycles per group (R304) -/
  q : Nat
  fmtb : Nat
  progress : Nat := 0
  /-- stopped part-way by a fatal fault (R396) -/
  halted : Bool := false
  /-- sampled data, by step: activation rows, scale bytes, slot records, box rows -/
  data : List (Nat × List Byte) := []
  scales : List (Nat × List Byte) := []
  recs : List (Nat × List Byte) := []
  bad : Option (Nat × Nat) := .none
deriving DecidableEq, Repr

/-- The Eland array of a herd (R296). -/
structure Array where
  ws : List WSlot := List.replicate 2 {}
  acc : List (List Word) := List.replicate 4 (List.replicate 2048 0)
  leases : List Lease := List.replicate 4 {}
  cnv : Word := 0
  cof : Word := 0
  cuf : Word := 0
  cnx : Word := 0
  cmds : List ArrCmd := []
  /-- the first cycle in which no `mzero` and no `mread` that has issued keeps the array busy (R97) -/
  busyBefore : Nat := 0
  /-- the cycle after the one in which the lease table last changed, and the table that stood in it (R307, R308) -/
  leasesWas : Nat × List Lease := (0, [])
deriving DecidableEq, Repr

/-! ### Herds -/

/-- Who holds a bank cycle of HM (R198, R200). -/
inductive Agent where
  | arrayA (cmd : Nat)
  | arrayB (cmd : Nat)
  | walker (cmd beat : Nat)
  /-- a beat that arrived on a link, by its number -/
  | link (beat : Nat)
  | core (c : Nat)
deriving DecidableEq, Repr

/-- One claim on one bank (0..15 of G0, 16..31 of G1) for one cycle. -/
structure Claim where
  at_ : Nat
  bank : Nat
  agent : Agent
deriving DecidableEq, Repr

/-- What one stage of a composed translation grants (R78, R79): its context, its leaf's RD and WR, and where the page starts in
that context's space. -/
structure Stage where
  ctx : Nat
  rd : Bool
  wr : Bool
  base : Nat
deriving DecidableEq, Repr

/-- A translation look-aside entry (R80): context, first address and size of the page, where it lies, what each stage grants,
innermost first, and its lock. -/
structure TlbEntry where
  ctx : Nat
  va : Nat
  size : Nat
  pa : Nat
  stages : List Stage
  locked : Bool
deriving DecidableEq, Repr

/-- A receive window (R351): who opened it, its port, tag and tolerance, its expected arrival E, flits n and close cycle C in
group cycles, and for each of its beats the HM addresses it writes; the beats that have performed. -/
structure Window where
  id : Nat
  ctx : Nat
  core : Nat
  port : Nat
  tag : Nat
  tol : Nat
  expect : Nat
  flits : Nat
  close : Nat
  handle : Nat
  slot : Nat
  geo : Geo
  beats : List (List Nat)
  done : List Nat := []
  /-- the peer context with which its context was paired at its issue, which an `lpair` does not change for it (R349) -/
  peer : Option Nat := .none
  /-- the bits that are no padding of the bytes that hold some, by their address (R36) -/
  mask : List (Nat × Byte) := []
deriving DecidableEq, Repr

/-- A beat that has arrived and not performed (R353). -/
structure LinkBeat where
  id : Nat
  ctx : Nat
  window : Nat
  beat : Nat
  at_ : Nat
  bytes : List (Nat × Byte)
deriving DecidableEq, Repr

/-- A herd (R187 to R193, R100): its memories, store, array and walker state. -/
structure Herd where
  hm : Mem := []
  lm : List Mem := List.replicate 4 []
  /-- words of LM, by core, and codewords of HM, by stripe and byte position, that hold an uncorrectable error (R188, R191, R192) -/
  lmBad : List (Nat × Nat) := []
  hmBad : List (Nat × Nat) := []
  /-- banks with a hard fault: 0 to 17 of G0, 18 to 35 of G1 (R192) -/
  retired : List Nat := []
  /-- packed marks of HM pages and of each core's LM pages (R277) -/
  hmMarks : List Nat := []
  lmMarks : List (Nat × Nat) := []
  store : List Word := []
  storeImage : Nat := 0
  storeBad : List Nat := []
  cores : List Core := List.replicate 4 {}
  array : Array := {}
  claims : List Claim := []
  tlb : List TlbEntry := []
  windows : List Window := []
  linkBeats : List LinkBeat := []
deriving DecidableEq, Repr

/-! ### Walker commands -/

/-- An aperture register (R270). -/
structure Aperture where
  vbase : Nat
  vlen : Nat
  sbase : Nat
  xf : Nat
  param0 : Nat
  param1 : Nat
deriving DecidableEq, Repr

/-- How a beat's data changes on the way (R273 to R276). -/
inductive Post where
  | none
  /-- SCALEVIEW read of narrow index n: the view bytes from `off` on, `len` of them -/
  | scaleRead (n off len : Nat)
  /-- SCALEVIEW write of narrow index n: a view block becomes a store block -/
  | scaleWrite (n : Nat)
  /-- bytes of a packed block from offset `off` on, moved as they stand with HEXP set to `point` (R276) -/
  | packed (off point : Nat)
deriving DecidableEq, Repr

/-- One beat of a command (R252): the bytes it samples and the bytes it writes, its slots (line and first cycle), its level-memory
sample and its perform, and where it stands. -/
structure Beat where
  srcSpace : Space
  src : List Nat
  dstSpace : Space
  dst : List Nat
  /-- the device-virtual address that its device side was translated from, where no aperture maps it -/
  va : Option Nat := .none
  post : Post := .none
  slots : List (Nat × Nat) := []
  sampleAt : Nat := 0
  performAt : Nat := 0
  got : List (Nat × Byte) := []
  sampled : Bool := false
  performed : Bool := false
  abandoned : Bool := false
  /-- the packed block of the command that it belongs to; `expanded` when its source is the expansion (R278) -/
  block : Option Nat := .none
  expanded : Bool := false
  /-- the argument of a call that it carries (R369, R375), the receiver of a `wmcast`, or the offset of a read in its box (R290) -/
  part : Nat := 0
  /-- it uses the slot or sample of the first receiver's beat (R262) -/
  shared : Bool := false
  /-- bits kept of bytes with padding (R36), by their address in level memory -/
  mask : List (Nat × Byte) := []
  /-- its number in the command: in row order and, within a row, in address order; the same for every receiver of a `wmcast` (R252, R262) -/
  num : Nat := 0
  /-- the slots whose write has performed (R327) -/
  written : List Nat := []
deriving DecidableEq, Repr

/-- A packed block that a command moves or expands (R276 to R284): its index in the detail word, its expansion point, the reads
made only to expand it (line or address, and cycle), the packed bytes by offset, and its error. -/
structure PackedBlock where
  index : Nat
  point : Nat
  space : Space
  addr : Nat
  reads : List (Nat × Nat) := []
  /-- its reads are those of beats that move the block to another receiver (R262) -/
  shared : Bool := false
  got : List (Nat × Byte) := []
  deliverAt : Nat := 0
  err : Option (Nat × Nat) := .none
  delivered : Bool := false
deriving DecidableEq, Repr

/-- The kinds of command that a walker or the mailbox engine carries to a promise (R398). -/
inductive CmdKind where
  | copy
  | mcast
  | gather
  | scatter
  | table (core : Nat)
  | wamo (op : Nat) (n : Nat) (v v2 : Word) (pa : Nat)
  | snap
  | apset (n : Nat) (reg : Nat) (pa : Nat)
  | callIn (call : Nat)
  | callOut (call : Nat)
  | cxmk (n : Nat)
  | cxgive (child : Nat)
  | cxq (n : Nat)
  | cxsave (n : Nat) (child : Nat)
  | cxload (n : Nat) (child : Nat)
  | send (port tag herd peer : Nat)
deriving DecidableEq, Repr

/-- A walker command in flight or kept for `wprom` (R256, R258, R265). -/
structure Cmd where
  id : Nat
  kind : CmdKind
  ctx : Nat
  /-- the level of the frame that issued it -/
  level : Nat := 0
  herd : Nat
  core : Nat
  /-- the herd whose walker executes it (R249) -/
  walker : Nat
  addr : BitVec 16
  interlocked : Bool
  issue : Nat
  promise : Nat
  /-- the promise as it stood at issue (R259) -/
  first : Nat := 0
  route : Word := 0
  bound : Word := 0
  own : Geo := {}
  far : Geo := {}
  beats : List Beat := []
  packed : List PackedBlock := []
  outstanding : Bool := true
  /-- a fatal fault stopped it while it was outstanding: its record stands in the save area (R396, R397) -/
  stopped : Bool := false
  /-- a fault found by its walk: class, owner, whether a write, the refused address (R254, R390) -/
  walkFault : Option (Nat × Nat × Bool × Nat) := .none
  /-- the number of its syllable in issue order (R134) -/
  seq : Nat := 0
  /-- `wsnap`: its four boxes, the apertures through which it sees them (R269), the blocks completed, the count of changed blocks -/
  aux : List (BitVec 256) := []
  views : List (Option Aperture) := []
  n : Nat := 0
  changed : Nat := 0
  /-- where its pages of 64 KiB lie, as they were translated at issue: page number and physical address -/
  pages : List (Nat × Nat) := []
  /-- the record or word that the command reads: its address, its slot, the bytes sampled -/
  pa : Nat := 0
  slot : Nat := 0
  record : List Byte := []
  /-- bytes of ADD and MAX elements that have arrived without the rest of their element (R376) -/
  partials : List (Nat × Byte) := []
  /-- the flits of an `lsend` that have departed, and its first departure in group cycles -/
  departed : Nat := 0
  t0 : Nat := 0
deriving DecidableEq, Repr

/-- An argument of a call (R368): own handle and box, geometry, child box, and where its copy stands. -/
structure CallArg where
  own : Nat
  ownBox : BitVec 256
  geo : Geo
  childBox : BitVec 256
deriving DecidableEq, Repr

/-- The states of a sibling (R411). -/
inductive CallState where
  | entering | running | returned | applying | applied
deriving DecidableEq, Repr

/-- A call (R365 to R377). -/
structure Call where
  id : Nat
  ctx : Nat
  herd : Nat
  core : Nat
  sib : Nat
  level : Nat
  task : Nat
  image : Nat
  target : Nat
  cores : List Nat
  entry : Nat
  suspends : Bool
  params : List Word
  args : List CallArg
  state : CallState := .entering
  left : List Nat
  retAt : Nat := 0
  applyAt : Nat := 0
  doneAt : Nat := 0
  /-- the words of level memory that the child has written (R373): space and word address -/
  masks : List (Space × Nat) := []
deriving DecidableEq, Repr

/-! ### Contexts -/

/-- A task record of an image (R27), with the descriptors as they stood when the image was taken, and where they stand. -/
structure Task where
  level : Nat
  emask : Nat
  nparam : Nat
  entries : List Nat
  boxes : List (BitVec 256)
  /-- the device-virtual address of its descriptors, which a start of the ROOT task binds from there (R17, R63) -/
  boxAt : Nat := 0
deriving DecidableEq, Repr

/-- The private copy of a configured image (R62, R100). -/
structure Image where
  id : Nat
  code : List Word
  tasks : List Task
  root : Nat
deriving DecidableEq, Repr

/-- A queue of a context (R58 to R64, R422). -/
structure Queue where
  state : Nat := 0
  done : BitVec 16 := 0
  fail : Bool := false
  image : Nat := 0
  desc : List Byte := List.replicate 32 0
  deficit : Int := 0
deriving DecidableEq, Repr

/-- Where a context stands between residency and its end (R400 to R407, R397). -/
inductive Life where
  | resident
  | draining
  | saving
  | away
  | restoring
deriving DecidableEq, Repr

/-- Why a context is being stopped (R404). -/
inductive StopWhy where
  | slice | budget | save | revoke
deriving DecidableEq, Repr

/-- A pending entry of a reflected trap (R395). -/
structure Entry where
  due : Nat
  record : List Word
deriving DecidableEq, Repr

/-- A context (R67, R69): its place in the tree, the resources it holds, its counters and its traps. -/
structure Ctx where
  num : Nat
  parent : Option Nat
  depth : Nat
  /-- root virtual herds, in the order of the context's own virtual numbers (R71) -/
  herds : List Nat
  timeShared : Bool := false
  troot : Nat := 0
  save : Nat := 0
  prof : Nat := 0
  eceil : Nat := 0
  deleg : Word := 0
  hentry : Word := 0
  weight : Nat := 0
  qslots : Nat := 0
  hsrc : Word := 0
  /-- share of each port in units of 64^-depth of the port (R73) -/
  pshare : Nat := 0
  offset : Int := 0
  /-- the vcyc of its first bundle after a restore, until that bundle issues (R94, R414) -/
  vresume : Option Int := .none
  ecnt : Nat := 0
  eovf : Bool := false
  charge : Nat := 0
  pend : BitVec 16 := 0
  kcoal : BitVec 16 := 0
  note : BitVec 16 := 0
  queues : List Queue := List.replicate 16 {}
  /-- the queue chosen last, and the member chosen last: 0 for its own queues, else a child's number (R401, R402) -/
  lastQueue : Nat := 0
  member : Nat := 0
  /-- a member stands chosen: its residency has not ended (R402, R424) -/
  chosen : Bool := true
  ownDeficit : Int := 0
  /-- D of this context as a member of its parent (R402) -/
  deficit : Int := 0
  life : Life := .resident
  stop : Option StopWhy := .none
  stopAt : Nat := 0
  budgetStopped : Bool := false
  saved : Bool := false
  revoking : Bool := false
  failed : Bool := false
  /-- the cycle after which a fatal fault stopped its cores: the stop cycle of its save (R88, R396) -/
  deadAt : Option Nat := .none
  /-- pending child traps, oldest first, the overflow mark, and handler entries not yet taken (R421, R395) -/
  ctraps : List (List Word) := []
  ctrapOvf : Bool := false
  entries : List Entry := []
  saveCmd : Option Nat := .none
  /-- `cxrun` has named it while it was not resident: its stopped cores resume with the restore (R419) -/
  runNext : Bool := false
  /-- its descriptor as last given (R410) -/
  desc : List Byte := []
  /-- the context whose stop this one is part of (R404), and the group cycle that a group-aligned stop waits for (R356) -/
  stopUnit : Nat := 0
  grid : Option Nat := .none
  /-- the stop is that of its own queues alone, as the member that its scheduler had resident (R400) -/
  stopOwn : Bool := false
  /-- whether its own queues, and it as a member of its parent, were runnable at the end of the last cycle (R402) -/
  ownLive : Bool := false
  memberLive : Bool := false
  /-- busy and idle counts (R97), by virtual herd: (unit, phase) with (busy, idle) -/
  counts : List (List ((Nat × Nat) × (Nat × Nat))) := []
deriving DecidableEq, Repr


/-! ### The device -/

/-- A fabric port (R347 to R349, R360, R361). -/
structure Port where
  up : Bool := false
  deg : Bool := false
  lat : Nat := 0
  offValid : Bool := false
  off16 : Int := 0
  /-- pairing table: 16 entries of (local, peer) -/
  pairs : List (Option (Nat × Nat)) := List.replicate 16 .none
  /-- the tables that stood before, each with the last cycle in which it did, which flits in flight follow (R349) -/
  pairsWas : List (Nat × List (Option (Nat × Nat))) := []
  drops : List (Nat × Nat) := []
  /-- reserved timed-flit slots: group cycle, context -/
  slots : List (Nat × Nat) := []
  /-- starts of untimed flits in the window of R432 and later: group cycle, context -/
  untimed : List (Nat × Nat) := []
deriving DecidableEq, Repr

/-- The configuration image that stands applied (R436). -/
structure ConfigImage where
  spare0 : Nat := 48
  spare1 : Nat := 97
  porten : BitVec 24 := 0
  wclass : List Word := List.replicate 4 0
  group : Word := 0
  refport : Nat := 31
  gcyc0 : Nat := 0
  resv : Nat := 0
  rdeleg : Word := 0
  rhentry : Word := 0
  /-- the image as it stands in storage; here the body of log entry 2 -/
  bytes : List Byte := [0x5A, 0x46, 0x43, 0x46, 1, 0, 0, 0, 48, 97, 0, 0] ++ List.replicate 24 0 ++ [31] ++ List.replicate 27 0
deriving DecidableEq, Repr

/-- A retired pseudo-channel (R442): the channel and whether its lines have been copied to RESV. -/
structure Retired where
  channel : Nat
  copied : Bool
deriving DecidableEq, Repr

/-- The service and management state (R429, R430, R438 to R443, R90). -/
structure Platform where
  cfg : ConfigImage := {}
  /-- whether a valid configuration image stands applied (R436) -/
  configured : Bool := true
  sr : Bool := false
  thw : Bool := false
  cuw : Bool := false
  pcret : Nat := 0
  bankret : Nat := 0
  spareUsed : List Bool := [false, false]
  /-- physical herd of each root virtual herd -/
  physical : List Nat := List.range 48 ++ (List.range 48).map (· + 49)
  failedHerds : List Nat := []
  retired : List Retired := []
  /-- events that the board controller has not read: kind and group cycle, the oldest first (R443) -/
  events : List (Nat × Nat) := []
  report : Option (List Byte) := .none
  reportPending : Option (List Byte) := .none
  tripped : Bool := false
  rootFailed : Bool := false
  resets : Nat := 0
deriving DecidableEq, Repr

/-- What the device does at a cycle that is no row of the table but a part of one: whole-tile rows (R136), the samples of an
array command (R304) and of `mread` (R320), the arrival of a mailbox request at its engine (R331), an error of a memory (R191,
R454), and an event of the table with its operands. -/
inductive Act where
  | ev (i : Instr) (arg : EvArg)
  | tileRows (herd core : Nat)
  | arraySample (herd cmd step : Nat)
  | mread (herd core : Nat) (s q t : Nat) (seq : Nat)
  | accZero (herd s : Nat)
  | killMarks (herd core : Nat) (scalars : BitVec 24) (tile : Nat) (rows : BitVec 32)
  | leaseWrite (herd e : Nat) (l : Lease)
  | mailArrive (src : Source) (req : MailReq)
  | upset (u : Upset)
  /-- an untimed flit that has waited for its window starts (R432) -/
  | flitStart (item : Sent)
  | promiseTrap (cmd : Nat)
  | beatSample (cmd beat line : Nat)
  | blockSample (cmd block line : Nat)
  | recSample (cmd : Nat)
  /-- a mailbox access, or a table-walk read of one, uses its slot for a line (R248, R415) -/
  | slotUse (ctx line : Nat)
  /-- a table-walk read of a command samples its line (R248, R454) -/
  | walkRead (ctx line : Nat) (addr : BitVec 16)
  | linkPlace (herd beat : Nat)
  | pairWrite (port entry : Nat) (pair : Option (Nat × Nat))
  | asyncDue (herd core : Nat) (a : Async)
  | fatalStop (ctx : Nat)
  | fatalDue (ctx cause : Nat) (addr : BitVec 16)
  /-- the root's own unhandled trap ends the stream program of a queue (R86) -/
  | rootStop (queue : Nat)
  /-- the device writes of a stream program whose chip task has returned have performed: it ends (R65) -/
  | programEnd (ctx queue : Nat)
  /-- the trap frame of a stopped core is kept in the save area of its context (R395, R396) -/
  | frameSave (ctx herd core : Nat)
deriving DecidableEq, Repr

/-- An agenda entry: cycle, phase within the cycle, and what happens. Phases: 0 outside world and starts, 1 samples,
2 performs, 3 bundle issue, 4 landings at the end of the cycle, 5 tests at the end of the cycle (R133, R189, R197, R402). -/
structure Due where
  at_ : Nat
  phase : Nat
  /-- order among the entries of one phase -/
  ord : Nat
  act : Act
deriving DecidableEq, Repr

/-- A decoded syllable of the bundle being issued (R103 to R108): slot 0..7 in the canonical order C, A, B, L, H, V, K, X, guard,
instruction, and the literals that its claims take, in field order. -/
structure Syl where
  slot : Nat
  guard : Nat
  instr : Instr
  lits : List Word
deriving DecidableEq, Repr

/-- The slots of `count` lines from line `first` on that are accessed without a schedule of the spec's (R248; DESIGN CHOICE, log entry 57): on
each pseudo-channel they are the first free ones from cycle `from_` on, in address order, beside what stood reserved (`skip`) and the runs
reserved before this one. None begins after cycle `last`. -/
structure SlotRun where
  from_ : Nat
  first : Nat
  count : Nat
  skip : List (Nat × Nat)
  last : Nat
deriving DecidableEq, Repr

/-- What is kept of a context that is not resident (R400, R409): its stop cycle, its herds in virtual order, its commands and calls,
and what its engines and waits had planned. The save area holds what the layout of R410 to R413 has a place for. -/
structure Kept where
  ctx : Nat
  vcyc : Int
  tick : Nat
  herds : List Herd
  cmds : List Cmd
  calls : List Call
  agenda : List Due
  /-- the header of the save area as it was written, and the root herds in virtual order -/
  header : List Byte := []
  places : List Nat := []
  /-- it was built from an area alone, whose records it holds as they were loaded (R420) -/
  fromArea : Bool := false
deriving DecidableEq, Repr

/-- The whole device. -/
structure State where
  tick : Nat
  clock : Nat
  gcyc : Nat
  /-- clock cycles for which a negative step still holds the device (R345) -/
  held : Nat
  /-- the scheduled step of the count (R362): group cycle and counts -/
  adjust : Option (Nat × Int)
  /-- the device's count is set (R344) -/
  gcycSet : Bool
  agenda : List Due
  /-- the end of this cycle has been reckoned: counts, energy, deficits -/
  settled : Bool
  /-- events from outside, with the clock cycle in which each arrives -/
  inputs : List (Nat × Act)
  /-- mailbox requests that have arrived and have not been taken up, in the order of arrival (R57) -/
  mail : List (Source × MailReq)
  /-- what the device has sent, the latest first -/
  sent : List Sent
  ev : EvArg
  cur : Cur
  latch : List Syl
  herds : List Herd
  dev : Mem
  /-- lines of device memory that hold an uncorrectable error (R454) -/
  devBad : List Nat
  /-- reserved calendar slots: pseudo-channel and first cycle (R248) -/
  calendar : List (Nat × Nat)
  /-- reserved runs of slots, the latest first -/
  runs : List SlotRun
  ctxs : List Ctx
  binds : List (Source × Nat)
  /-- sources of ended contexts, which no binding has named since (R88) -/
  released : List Source
  /-- the port by which untimed flits for a fabric node leave: that of its latest request (DESIGN CHOICE, log entry 47) -/
  routes : List (Nat × Nat)
  images : List Image
  kept : List Kept
  cmds : List Cmd
  calls : List Call
  apertures : List (Option Aperture)
  /-- the aperture registers before their first change in a cycle, with the cycle after it (R286, R287) -/
  aperturesWas : Nat × List (Option Aperture) := (0, [])
  ports : List Port
  plat : Platform
  /-- wclass0..wclass3 (R132): one set for the device (DEDUCED, log entry 59) -/
  wclass : List Word
  /-- the next number for a command, call, image, window or beat -/
  nextId : Nat
  /-- the model's own counter: the free values of Config are applied to it -/
  freeCount : Nat
deriving DecidableEq, Repr

/-- The root context once the configuration image is applied (R68, R86, R95): all 96 herds, all 256 queue slots, the whole of
every port; DELEG and HENTRY from the image. -/
def Ctx.root (cfg : ConfigImage) : Ctx :=
  { num := 0, parent := .none, depth := 0, herds := List.range 96, qslots := 256, pshare := 1,
    deleg := cfg.rdeleg, hentry := cfg.rhentry, eceil := 2 ^ 48 - 1, ownDeficit := 256 * 121600 }

/-- The machine right after reset, with the configuration image of log entry 2 applied: counts at zero, every memory zero,
every register as R126 and R127 set it, the root context resident with no queue configured, no port trained. -/
def State.reset : State where
  tick := 0
  clock := 0
  gcyc := 0
  held := 0
  adjust := .none
  gcycSet := true
  agenda := []
  settled := false
  inputs := []
  mail := []
  sent := []
  ev := {}
  cur := {}
  latch := []
  herds := List.replicate 96 {}
  dev := []
  devBad := []
  calendar := []
  runs := []
  ctxs := [Ctx.root {}]
  binds := []
  released := []
  routes := []
  images := []
  kept := []
  cmds := []
  calls := []
  apertures := List.replicate 64 .none
  aperturesWas := (0, [])
  ports := List.replicate 24 {}
  plat := {}
  wclass := List.replicate 4 0
  nextId := 0
  freeCount := 0

end Sys2Proof.Machine
end

