-- ==== Sys2Proof/Machine/TileFn.lean ====
section
/-! DEFINITION. TileFn.lean: what each operation of the tile unit does to one row (R212 to R238), as functions of the rows it
reads. -/

namespace Sys2Proof.Machine

/-- What a V syllable reads for row r: the rows of ta, tb and td as numbers, the scalar operand in place of tb, the rounding
mode, whether subnormals are flushed, the guard, and every row of ta as it stood at issue (`ttrans`). -/
structure VIn where
  a : Nat
  b : Nat := 0
  d : Nat := 0
  sc : Option Nat := .none
  rm : Round := .rne
  flush : Bool := true
  guard : Nat := 2 ^ 64 - 1
  rows : List Row512 := []
  r : Nat := 0

/-- What a V syllable writes: a value and a byte mask of a row, or the 64 bits of a predicate in `val`, or one byte of a scale
register; and the flags by tile lane (R129). -/
structure VOut where
  val : Nat
  mask : Nat
  tfl : Nat
deriving DecidableEq, Repr

/-- Element i of width w. -/
def lane (w row i : Nat) : Nat := row / 2 ^ (w * i) % 2 ^ w

/-- Element i of the second operand: a tile's element, or the low w bits of the scalar (R212). -/
def VIn.bl (v : VIn) (w i : Nat) : Nat := match v.sc with | .some x => x % 2 ^ w | .none => lane w v.b i

/-- The byte that holds the lowest bit of element i. -/
def byteOf (w i : Nat) : Nat := w * i / 8

/-- The byte mask of element i. -/
def elemMask (w i : Nat) : Nat := (2 ^ (max 8 w / 8) - 1) * 2 ^ byteOf w i

/-- Flags placed in the tile lane that holds the element's lowest byte (R129). -/
def flagsAt (w i : Nat) (fl : Flags) : Nat := fl * 2 ^ (5 * (byteOf w i / 4))

/-- A row of n elements of width w: each element that the guard enables and `f` answers is written and raises its flags
(R213, R214). -/
def mkRow (w n guard : Nat) (f : Nat → Option (Nat × Flags)) : VOut :=
  (List.range n).foldl (fun o i =>
    if guard.testBit (byteOf w i) then
      match f i with
      | .some (x, fl) =>
        { val := o.val + x * 2 ^ (w * i), mask := o.mask ||| elemMask w i, tfl := o.tfl ||| flagsAt w i fl }
      | .none => o
    else o) { val := 0, mask := 0, tfl := 0 }

/-- A lane-by-lane operation on two operands. -/
def lanes2 (v : VIn) (w : Nat) (g : Nat → Nat → Nat → Nat × Flags) : VOut :=
  mkRow w (512 / w) v.guard fun i => .some (g (lane w v.a i) (v.bl w i) (lane w v.d i))

/-- Saturation of an exact result, with OF when it clamps (R217). -/
def satInt (sg : Bool) (w : Nat) (x : Int) : Nat × Flags :=
  if intHi sg w < x then (intBits w (intHi sg w), flOF)
  else if x < intLo sg w then (intBits w (intLo sg w), flOF)
  else (intBits w x, 0)

/-- An exact integer result, wrapped or saturated. -/
def wrapOrSat (sat sg : Bool) (w : Nat) (x : Int) : Nat × Flags :=
  if sat then satInt sg w x else (intBits w x, 0)

/-- Shift right with copies of the top bit, whatever the format's sign (R217). -/
def sraBits (w a n : Nat) : Nat := intBits w (intOf true w a / 2 ^ n)

/-- The left funnel shift of R217. -/
def funnel (w a b n : Nat) : Nat := (a * 2 ^ w + b) * 2 ^ n % 2 ^ (2 * w) / 2 ^ w

/-- TINT, one element (R217). -/
def tintElem (op : VOp) (sg : Bool) (w a b d : Nat) : Nat × Flags :=
  let x := intOf sg w a
  let y := intOf sg w b
  match op with
  | .add s => wrapOrSat s sg w (x + y)
  | .sub s => wrapOrSat s sg w (x - y)
  | .mul s => wrapOrSat s sg w (x * y)
  | .mulh => (intBits w (x * y / 2 ^ w), 0)
  | .min => (intBits w (min x y), 0)
  | .max => (intBits w (max x y), 0)
  | .and => (a &&& b, 0)
  | .or => (a ||| b, 0)
  | .xor => (a ^^^ b, 0)
  | .shl => (a * 2 ^ (b % w) % 2 ^ w, 0)
  | .shr => (a / 2 ^ (b % w), 0)
  | .sra => (sraBits w a (b % w), 0)
  | .fsh => (funnel w a b (d % (2 * w)), 0)
  | .abs s => wrapOrSat s sg w (x.natAbs : Int)
  | .negSat => satInt sg w (-x)
  | _ => (0, 0)

/-- TFP, one element (R218 to R224). -/
def tfpElem (op : VOp) (f : FloatFmt) (rm : Round) (fl : Bool) (a b d : Nat) : Nat × Flags :=
  match op with
  | .fadd => fAdd f rm fl a b
  | .fsub => fSub f rm fl a b
  | .fmul => fMul f rm fl a b
  | .fma => fFma f rm fl d a b
  | .fmin => (fMin f fl a b, 0)
  | .fmax => (fMax f fl a b, 0)
  | .fabs => (fAbs f fl a, 0)
  | .frint => (fRint f rm fl a, 0)
  | .fexp => fExp f fl a
  | .fins => fIns f rm fl a b
  | .frcp => fRcp f fl a
  | .frsq => fRsq f fl a
  | _ => (0, 0)

/-- An integer compare of R226. -/
def icmpElem (c : Nat) (sg : Bool) (w a b : Nat) : Bool :=
  let x := intOf sg w a
  let y := intOf sg w b
  match c with
  | 0 => x = y | 1 => x ≠ y | 2 => x < y | 3 => x ≤ y | 4 => y < x | _ => y ≤ x

/-- A floating-point compare of R226, and NV for an ordered one that meets a NaN. -/
def fcmpElem (c : Nat) (f : FloatFmt) (fl : Bool) (a b : Nat) : Bool × Flags :=
  let x := readFloat fl f a
  let y := readFloat fl f b
  let un := isNaN x || isNaN y
  let nv := if un then flNV else 0
  match c with
  | 0 => (eqVal x y, 0)
  | 1 => (ltVal x y, nv)
  | 2 => (ltVal x y || eqVal x y, nv)
  | 3 => (un, 0)
  | 4 => (ltVal y x, nv)
  | _ => (ltVal y x || eqVal x y, nv)

/-- A compare's row: the predicate of the row form, in which disabled elements are zero, or the row of the whole-tile form. -/
def cmpRow (v : VIn) (whole : Bool) (w : Nat) (g : Nat → Nat → Bool × Flags) : VOut :=
  let o := lanes2 v w fun a b _ => let (t, fl) := g a b; (if t then 2 ^ w - 1 else 0, fl)
  if whole then o
  else
    { o with
      val := (List.range (512 / w)).foldl (fun p i => if lane w o.val i = 0 then p else p ||| elemMask w i) 0
      mask := 2 ^ 64 - 1 }

/-- One element of `tcvt` from format s to format d (R230, R49). -/
def cvtElem (s d : TileFmt) (rm : Round) (flush sat : Bool) (x : Nat) : Nat × Flags :=
  match s, d with
  | .flt fs, .flt fd => flushResult flush fd (convertFloat fd rm sat (readFloat flush fs x))
  | .flt fs, .int sg w => convertInt sg w rm sat (readFloat flush fs x)
  | .int sg w, .flt fd => flushResult flush fd (convertFloat fd rm sat (valOfInt (intOf sg w x)))
  | .int sg w, .int sd wd => (convertIntInt sat sd wd (intOf sg w x), 0)

/-- `tcvt` (R230): equal lane counts, a source part, or a destination part whose other lanes are disabled. -/
def cvtRow (v : VIn) (s d q : Nat) (sat : Bool) : VOut :=
  let sf := tileFmt s
  let df := tileFmt d
  let ns := 512 / sf.width
  let nd := 512 / df.width
  mkRow df.width nd v.guard fun i =>
    if nd ≤ ns then .some (cvtElem sf df v.rm v.flush sat (lane sf.width v.a (if ns = nd then i else q * nd + i)))
    else if q * ns ≤ i && i < q * ns + ns then .some (cvtElem sf df v.rm v.flush sat (lane sf.width v.a (i - q * ns)))
    else .none

/-- floor(log2 |x|) of a nonzero value. -/
def topBit : Val → Int
  | .fin _ m e => (Nat.log2 m : Int) + e
  | _ => 0

/-- The greater magnitude. -/
def maxMagVal (x y : Val) : Val :=
  match x, y with
  | .fin _ m e, .fin _ n g => if ltMag m e n g then y else x
  | _, _ => x

/-- One element of `tquant` with scale e (R232). -/
def quantElem (n : Narrow) (rm : Round) (e : Nat) (x : Val) : Nat × Flags :=
  let k : Int := 127 - e
  match n with
  | .flt f => if e = 255 then (f.nanBits, 0) else convertFloat f rm true (scaleVal k x)
  | .int w =>
    if e = 255 then (0, 0)
    else match scaleVal k x with
      | .fin neg m g =>
        let (r, ix) := roundInt rm neg m g
        if intHi true w < r then (intBits w (intHi true w), flOF + flNX)
        else if r < intLo true w then (intBits w (intLo true w), flOF + flNX)
        else (intBits w r, if ix then flNX else 0)
      | _ => (0, 0)
  | .tern => (0, 0)

/-- `tquant` (R232): 32 elements of BF16 or FP16 become a block image; disabled elements are read as +0, and the whole row is
written unless the guard has no bit set. -/
def quantRow (v : VIn) (f n : Nat) : VOut :=
  if v.guard % 2 ^ 64 = 0 then { val := 0, mask := 0, tfl := 0 }
  else
    let sf := match tileFmt f with | .flt x => x | .int _ _ => .bf16
    let nf := narrowFmt n
    let en (j : Nat) : Bool := v.guard.testBit (2 * j)
    let xs := (List.range 32).map fun j => if en j then readFloat v.flush sf (lane 16 v.a j) else .fin false 0 0
    let special (x : Val) : Bool := match x with | .fin _ _ _ => false | _ => true
    let amax := xs.foldl maxMagVal (.fin false 0 0)
    let e : Nat :=
      if xs.any special then 255
      else match amax with
        | .fin _ 0 _ => 127
        | _ => (max 0 (min 254 (topBit amax - nf.emax + 127))).toNat
    let ys := xs.map (quantElem nf v.rm e)
    let bytes := (ys.zipIdx).foldl (fun acc p => acc + p.1.1 * 2 ^ (nf.width * p.2)) 0
    let fl := (List.range 32).foldl (fun acc j =>
      let raised := if e = 255 then (if special (xs.getD j .nan) && en j then flNV else 0) else (ys.getD j (0, 0)).2
      acc ||| flagsAt 16 j raised) 0
    { val := bytes + e * 2 ^ (8 * (nf.bytes - 1)), mask := 2 ^ 64 - 1, tfl := fl }

/-- `tdeq` and `tdeq.u` (R233). -/
def deqRow (v : VIn) (f n : Nat) (hi u : Bool) : VOut :=
  let df := match tileFmt f with | .flt x => x | .int _ _ => .fp32
  let nf := narrowFmt n
  let s := if u then 127 else lane 8 v.a (nf.bytes - 1)
  mkRow df.width (512 / df.width) v.guard fun i =>
    let x := nf.value (lane nf.width v.a (if hi then 16 + i else i))
    .some (if s = 255 || isNaN x then (df.nanBits, 0)
           else writeFloat v.flush df v.rm (scaleVal ((s : Int) - 127) x))

/-- `tscx` (R234): the scale byte of the row, at byte r, or 32 + r, of the scale register. -/
def scxRow (v : VIn) (n : Nat) (hi : Bool) : VOut :=
  let at_ := if hi then 32 + v.r else v.r
  if v.guard % 2 ^ 64 = 0 then { val := 0, mask := 0, tfl := 0 }
  else { val := lane 8 v.a ((narrowFmt n).bytes - 1) * 2 ^ (8 * at_), mask := 2 ^ at_, tfl := 0 }

/-- The combining step of `tred` (R237). -/
def redStep (op : VOp) (t : TileFmt) (rm : Round) (flush : Bool) (x y : Nat) : Nat × Flags :=
  match op, t with
  | .redAdd, .flt f => fAdd f rm flush x y
  | .redMax, .flt f => (fMax f flush x y, 0)
  | .redMin, .flt f => (fMin f flush x y, 0)
  | .redAdd, .int sg w => (intBits w (intOf sg w x + intOf sg w y), 0)
  | .redMax, .int sg w => (intBits w (max (intOf sg w x) (intOf sg w y)), 0)
  | .redMin, .int sg w => (intBits w (min (intOf sg w x) (intOf sg w y)), 0)
  | _, _ => (x, 0)

/-- Adjacent pairs combined: one level of the tree of R237. -/
def redPairs (step : Nat → Nat → Nat × Flags) : List (Nat × Flags) → List (Nat × Flags)
  | (x, fx) :: (y, fy) :: l => let (z, fz) := step x y; (z, fx ||| fy ||| fz) :: redPairs step l
  | l => l

/-- `tred` (R237): groups of 2^g elements reduced by the fixed tree; the flags of a group go to its first element's lane when
any element of the group is enabled. -/
def redRow (v : VIn) (op : VOp) (f : Nat) : VOut :=
  let t := tileFmt f
  let w := t.width
  let n := 512 / w
  let g := min (v.bl 32 0 % 8) (Nat.log2 n)
  let read (x : Nat) : Nat := match t with | .flt ff => passFloat v.flush ff x | .int _ _ => x
  let leaves := (List.range n).map fun i => (read (lane w v.a i), 0)
  let groups := (List.range g).foldl (fun l _ => redPairs (redStep op t v.rm v.flush) l) leaves
  let o := mkRow w n v.guard fun i => .some ((groups.getD (i / 2 ^ g) (0, 0)).1, 0)
  let any (j : Nat) : Bool := (List.range (2 ^ g)).any fun i => v.guard.testBit (byteOf w (j * 2 ^ g + i))
  let fl := (groups.zipIdx).foldl (fun acc p => if any p.2 then acc ||| flagsAt w (p.2 * 2 ^ g) p.1.2 else acc) 0
  { o with tfl := fl }

/-- Movement by lanes of width w: element i of the result (R235). -/
def moveRow (v : VIn) (w : Nat) (g : Nat → Nat) : VOut :=
  mkRow w (512 / w) v.guard fun i => .some (g i, 0)

/-- `tunpk` of element x of width w/2 (R236): sign-extended except for fmt 6. -/
def unpkElem (f w x : Nat) : Nat := if f = 6 then x else intBits w (intOf true (w / 2) x)

/-- `ttrans` (R238): element i of row r of the transposed arrays. -/
def transElem (rows : List Row512) (w r i : Nat) : Nat :=
  let row (k : Nat) : Nat := (rows.getD k 0).toNat
  match w with
  | 16 => lane 16 (row i) r
  | 8 => if i < 32 then lane 8 (row i) r else lane 8 (row (i - 32)) (32 + r)
  | _ => if r < 16 then lane 32 (row i) r else lane 32 (row (16 + i)) (r - 16)

/-- One row of a V operation with tile format f; `whole` is its W bit. -/
def vRow (op : VOp) (f : Nat) (whole : Bool) (v : VIn) : VOut :=
  let t := tileFmt f
  let w := t.width
  let sg := match t with | .int s _ => s | .flt _ => false
  let ff := match t with | .flt x => x | .int _ _ => .fp32
  let n := 512 / w
  match op with
  | .add _ | .sub _ | .mul _ | .mulh | .min | .max | .and | .or | .xor | .shl | .shr | .sra | .fsh | .abs _ | .negSat =>
    lanes2 v w (tintElem op sg w)
  | .fadd | .fsub | .fmul | .fma | .fmin | .fmax | .fabs | .frint | .fexp | .fins | .frcp | .frsq =>
    lanes2 v w (tfpElem op ff v.rm v.flush)
  | .icmp c => cmpRow v whole w fun a b => (icmpElem c sg w a b, 0)
  | .fcmp c => cmpRow v whole w (fcmpElem c ff v.flush)
  | .cvt d q sat => cvtRow v f d q sat
  | .quant k => quantRow v f k
  | .deq k hi u => deqRow v f k hi u
  | .scx k hi => scxRow v k hi
  | .mov => moveRow v w fun i => lane w v.a i
  | .bcast => moveRow v w fun i => v.bl w i
  | .bcastL => moveRow v w fun _ => lane w v.a (v.bl 6 0 % n)
  | .rot => moveRow v w fun i => lane w v.a ((i + n - v.bl 6 0 % n) % n)
  | .shuf => moveRow v w fun i => lane w v.a (v.bl w i % 64 % n)
  | .redMax | .redMin | .redAdd => redRow v op f
  | .sel => lanes2 v w fun a b d => (if d ≠ 0 then a else b, 0)
  | .pack => mkRow (w / 2) (2 * n) v.guard fun i =>
      .some ((if i < n then lane w v.a i else lane w v.b (i - n)) % 2 ^ (w / 2), 0)
  | .unpk => moveRow v w fun i => unpkElem f w (lane (w / 2) v.a (v.bl 1 0 * n + i))
  | .trans => moveRow v w fun i => transElem v.rows w v.r i

/-- The latency of a V operation (R135, R216, R218, R226, R228, R235). -/
def VOp.latency : VOp → Nat
  | .add _ | .sub _ | .mul _ | .mulh | .min | .max | .and | .or | .xor | .shl | .shr | .sra | .fsh | .abs _ | .negSat => 2
  | .fmin | .fmax | .fabs | .fins => 2
  | .fadd | .fsub | .fmul | .frint => 4
  | .fma => 5
  | .fexp | .frcp | .frsq => 6
  | .icmp _ | .fcmp _ => 3
  | .cvt _ _ _ | .quant _ | .deq _ _ _ | .scx _ _ => 4
  | .mov | .bcast | .bcastL | .rot | .shuf | .sel | .pack | .unpk => 2
  | .redMax | .redMin | .redAdd => 5
  | .trans => 3

/-- Whether the operation reads row r of td as well (R212). -/
def VOp.readsD : VOp → Bool
  | .fsh | .fma | .sel => true
  | _ => false

/-- Whether the operation reads ta. -/
def VOp.readsA : VOp → Bool
  | .bcast => false
  | _ => true

/-- Whether the operation reads a second operand, a tile when S = 0. -/
def VOp.readsB : VOp → Bool
  | .add _ | .sub _ | .mul _ | .mulh | .min | .max | .and | .or | .xor | .shl | .shr | .sra | .fsh => true
  | .fadd | .fsub | .fmul | .fma | .fmin | .fmax | .fins | .icmp _ | .fcmp _ => true
  | .bcast | .bcastL | .rot | .shuf | .redMax | .redMin | .redAdd | .sel | .pack | .unpk => true
  | .abs _ | .negSat | .fabs | .frint | .fexp | .frcp | .frsq | .cvt _ _ _ | .quant _ | .deq _ _ _ | .scx _ _ | .mov
  | .trans => false

/-- The energy class of a tile row (R415): 6 integer and movement, 7 floating point and `tred`, 8 conversion. -/
def VOp.energyClass : VOp → Nat
  | .add _ | .sub _ | .mul _ | .mulh | .min | .max | .and | .or | .xor | .shl | .shr | .sra | .fsh | .abs _ | .negSat
  | .icmp _ => 6
  | .fadd | .fsub | .fmul | .fma | .fmin | .fmax | .fabs | .frint | .fexp | .fins | .frcp | .frsq | .fcmp _
  | .redMax | .redMin | .redAdd => 7
  | .cvt _ _ _ | .quant _ | .deq _ _ _ | .scx _ _ => 8
  | .mov | .bcast | .bcastL | .rot | .shuf | .sel | .pack | .unpk | .trans => 6

end Sys2Proof.Machine
end

