-- ==== Sys2Proof/Machine/Ops.lean ====
section
/-! DEFINITION. Ops.lean: the named operations over the state that every meaning shares: byte memories, the agenda, the tree of
contexts, the in-flight write queue and its landing (R133, R134, R143, R389), and the taking of a trap (R83, R386 to R396) with
the return from one (R394). -/

namespace Sys2Proof.Machine

/-- What a meaning answers. -/
abbrev Out := Host.Outcome State Fault Refusal

/-- A trap of R384: class, cause and the two detail words; and the context at which the walk of R83 starts where that is not the
trapping one (R79). -/
structure Trap where
  cls : Nat
  cause : Nat := 0
  d0 : Word := 0
  d1 : Word := 0
  owner : Option Nat := .none
deriving DecidableEq, Repr

/-- Why a syllable does not commit: a synchronous trap (R386), or a hold of interlocked mode (R139). -/
inductive Stop where
  | trap (t : Trap)
  | hold
deriving DecidableEq, Repr

/-- A value, or the reason that the syllable does not commit. -/
abbrev Res (α : Type) := Except Stop α

/-- A synchronous trap of class `cls`. -/
def raise {α : Type} (cls : Nat) (cause : Nat := 0) : Res α := .error (.trap { cls := cls, cause := cause })

/-! ### Byte memories -/

/-- The byte at an address; 0 where none is listed. -/
def Mem.read : Mem → Nat → Byte
  | [], _ => 0
  | (k, v) :: m, a => if k = a then v else if a < k then 0 else Mem.read m a

/-- One byte written; writing 0 removes the entry, so that the form of `Mem.wf` is kept. -/
def Mem.write : Mem → Nat → Byte → Mem
  | [], a, b => if b = 0 then [] else [(a, b)]
  | (k, v) :: m, a, b =>
    if k = a then (if b = 0 then m else (a, b) :: m)
    else if a < k then (if b = 0 then (k, v) :: m else (a, b) :: (k, v) :: m)
    else (k, v) :: Mem.write m a b

/-- Bytes written one after another. -/
def Mem.writes (m : Mem) (l : List (Nat × Byte)) : Mem := l.foldl (fun m p => m.write p.1 p.2) m

/-- Bytes from an address on. -/
def Mem.readN (m : Mem) (a n : Nat) : List Byte := (List.range n).map fun i => m.read (a + i)

/-- Bytes paired with the addresses from `a` on. -/
def bytesAt (a : Nat) (l : List Byte) : List (Nat × Byte) := (l.zipIdx).map fun p => (a + p.2, p.1)

/-- A little-endian number of a byte list (R4). -/
def leNat : List Byte → Nat
  | [] => 0
  | b :: l => b.toNat + 256 * leNat l

/-- The n low bytes of a number, little-endian (R4). -/
def leBytes : Nat → Nat → List Byte
  | 0, _ => []
  | n + 1, v => BitVec.ofNat 8 v :: leBytes n (v / 256)

/-! ### Herds, cores and the core that executes -/

def State.herd (s : State) (h : Nat) : Herd := s.herds.getD h {}

def State.modHerd (s : State) (h : Nat) (f : Herd → Herd) : State := { s with herds := s.herds.modify h f }

def State.core (s : State) (h c : Nat) : Core := (s.herd h).cores.getD c {}

def State.modCore (s : State) (h c : Nat) (f : Core → Core) : State :=
  s.modHerd h fun x => { x with cores := x.cores.modify c f }

def State.regs (s : State) (h c : Nat) : Regs := (s.core h c).r

def State.modRegs (s : State) (h c : Nat) (f : Regs → Regs) : State := s.modCore h c fun k => { k with r := f k.r }

/-- The core that executes, and its registers. -/
def State.me (s : State) : Core := s.core s.cur.herd s.cur.core
def State.R (s : State) : Regs := s.me.r
def State.modMe (s : State) (f : Core → Core) : State := s.modCore s.cur.herd s.cur.core f
def State.modR (s : State) (f : Regs → Regs) : State := s.modRegs s.cur.herd s.cur.core f

/-- `sw.MODE`: interlocked (R128). -/
def Regs.interlocked (r : Regs) : Bool := r.sw.getLsbD 0

/-- `sw.DM`: a dead read traps (R128, R144). -/
def Regs.deadTraps (r : Regs) : Bool := r.sw.getLsbD 1

/-- `sw.RM` (R128, R45). -/
def Regs.rm (r : Regs) : Round := Round.ofBits ((r.sw >>> 2).toNat % 4)

def State.interlocked (s : State) : Bool := s.R.interlocked

/-! ### The agenda -/

def State.port (s : State) (p : Nat) : Port := s.ports.getD p {}

def State.modPort (s : State) (p : Nat) (f : Port → Port) : State := { s with ports := s.ports.modify p f }

/-- Earlier by cycle, then by phase, then by order. -/
def Due.before (a b : Due) : Bool :=
  decide (a.at_ < b.at_) ||
    (a.at_ == b.at_ && (decide (a.phase < b.phase) || (a.phase == b.phase && decide (a.ord < b.ord))))

/-- Insertion after every entry that is not later. -/
def insertDue (d : Due) : List Due → List Due
  | [] => [d]
  | e :: l => if d.before e then d :: e :: l else e :: insertDue d l

/-- An entry for cycle t. -/
def State.plan (s : State) (t phase ord : Nat) (a : Act) : State :=
  { s with agenda := insertDue { at_ := t, phase := phase, ord := ord, act := a } s.agenda }

/-- An event of the table planned for cycle t. -/
def State.planEv (s : State) (t phase ord : Nat) (i : Instr) (arg : EvArg) : State := s.plan t phase ord (.ev i arg)

/-- The next free value's number; the counter advances. -/
def State.fresh (s : State) : Nat × State := (s.freeCount, { s with freeCount := s.freeCount + 1 })

/-- A new number for a command, call, window or beat. -/
def State.newId (s : State) : Nat × State := (s.nextId, { s with nextId := s.nextId + 1 })

/-! ### Contexts (R67, R68) -/

def State.ctx? (s : State) (n : Nat) : Option Ctx := s.ctxs.find? fun x => x.num == n

def State.ctx (s : State) (n : Nat) : Ctx := (s.ctx? n).getD { num := n, parent := .none, depth := 0, herds := [] }

def State.modCtx (s : State) (n : Nat) (f : Ctx → Ctx) : State :=
  { s with ctxs := s.ctxs.map fun x => if x.num == n then f x else x }

/-- The chain from a context up to the root, itself first; no tree is deeper than 4 (R68). -/
def State.chainFrom (s : State) : Nat → Nat → List Nat
  | 0, _ => []
  | k + 1, n => match (s.ctx n).parent with
    | .none => [n]
    | .some p => n :: s.chainFrom k p

def State.chain (s : State) (n : Nat) : List Nat := s.chainFrom 5 n

/-- Whether y is x or a descendant of x. -/
def State.within (s : State) (x y : Nat) : Bool := (s.chain y).contains x

/-- The existing contexts of x's subtree. -/
def State.subtree (s : State) (x : Nat) : List Nat := (s.ctxs.map (·.num)).filter fun y => s.within x y

/-- The virtual cycle of a context (R93). -/
def State.vcyc (s : State) (x : Nat) : Int := (s.gcyc : Int) - (s.ctx x).offset

/-- The cycle at which a resident context's vcyc is v, no earlier than this one. -/
def State.tickAt (s : State) (x : Nat) (v : Int) : Nat := s.tick + (v - s.vcyc x).toNat

/-- The root herd of a context's virtual herd v (R71, R90). -/
def Ctx.rootHerd (x : Ctx) (v : Nat) : Option Nat := x.herds[v]?

/-- A context's virtual number of a root herd. -/
def Ctx.virtOf (x : Ctx) (h : Nat) : Nat := x.herds.findIdx fun k => k == h

/-- The lead core of a context: core 0 of its virtual herd 0 (R71), by root herd. -/
def Ctx.lead (x : Ctx) : Nat := x.herds.headD 0

/-- The context that a core runs a frame of. -/
def Regs.ctx (r : Regs) : Option Nat := r.frame.map (·.ctx)

/-- Whether the core runs a handler (R393): a trap frame stands and the core is not stopped under R395 or for good. -/
def Core.inHandler (k : Core) : Bool := k.r.trap.isSome && k.hold != .reflected && k.hold != .stopped

/-! ### Management events (R439, R440, R443) -/

/-- The kinds of management event, by the numbers that Config.eventCode is applied to. -/
def evCurrent : Nat := 0
def evThermal : Nat := 1
def evTrip : Nat := 2
def evBank : Nat := 3
def evLane : Nat := 4
def evHerd : Nat := 5
def evChannel : Nat := 6

def State.modPlat (s : State) (f : Platform → Platform) : State := { s with plat := f s.plat }

/-- A management event is sent: its kind and `gcyc` wait for the board controller (R443). -/
def State.manage (s : State) (kind : Nat) : State :=
  s.modPlat fun p => { p with events := p.events ++ [(kind, s.gcyc)] }

/-- A degraded event sets SR and sends an event (R440). -/
def State.degrade (s : State) (kind : Nat) : State := (s.modPlat fun p => { p with sr := true }).manage kind

/-! ### Energy (R415, R416) -/

/-- n charges of a class to a context and every ancestor; they are added to the counters at the end of the cycle. -/
def State.charge (s : State) (x cls n : Nat) : State :=
  let w := (s.wclass.getD (cls / 4) 0 >>> (8 * (cls % 4))).toNat % 256
  if n * w = 0 then s
  else (s.chain x).foldl (fun s y => s.modCtx y fun k => { k with charge := k.charge + n * w }) s

/-! ### Dead marks, rows and register writes -/

/-- The 512-bit mask of a byte mask (R125). -/
def byteMask (m : Mask) : Row512 :=
  BitVec.ofNat 512 ((List.range 64).foldl (fun acc k => if m.getLsbD k then acc + 255 * 2 ^ (8 * k) else acc) 0)

/-- The bytes of `new` where the mask has a bit, else those of `old`. -/
def mergeRow (old new : Row512) (m : Mask) : Row512 :=
  if m = BitVec.allOnes 64 then new
  else let b := byteMask m; (old &&& ~~~b) ||| (new &&& b)

def Regs.rowDead (r : Regs) (t n : Nat) : Bool := (r.deadT.getD t 0).getLsbD n

/-- Row n of tile t as it stands. -/
def Regs.rawRow (r : Regs) (t n : Nat) : Row512 := (r.t.getD t []).getD n 0

/-- Row n of tile t as a reader sees it: a dead row reads zero (R144). -/
def Regs.row (r : Regs) (t n : Nat) : Row512 := if r.rowDead t n then 0 else r.rawRow t n

/-- A tile row written under a byte mask; a dead row is revived with zeros in its other bytes (R143). -/
def Regs.putRow (r : Regs) (t n : Nat) (v : Row512) (m : Mask) : Regs :=
  { r with
    t := r.t.modify t fun rows => rows.set n (mergeRow (r.row t n) v m)
    deadT := r.deadT.modify t fun d => d &&& ~~~(1#32 <<< n) }

def Regs.scalar (r : Regs) (n : Nat) : Word := if n = 0 || r.deadS.getLsbD n then 0 else r.s.getD n 0

def Regs.putScalar (r : Regs) (n : Nat) (v : Word) : Regs :=
  if n = 0 then r else { r with s := r.s.set n v, deadS := r.deadS &&& ~~~(1#24 <<< n) }

/-- Predicate n; p0 reads all ones (R124). -/
def Regs.pred (r : Regs) (n : Nat) : Mask := if n = 0 then BitVec.allOnes 64 else r.p.getD n 0

def Regs.putPred (r : Regs) (n : Nat) (v : Mask) : Regs := if n = 0 then r else { r with p := r.p.set n v }

/-- A `wrsr` to a register of the core (R127 to R130): reserved bits stay zero, MODE is not written. -/
def Regs.putSpecial (r : Regs) (n : Nat) (v : Word) : Regs :=
  match n with
  | 0 => { r with sw := (r.sw &&& 1#32) ||| (v &&& 0xFE#32) }
  | 1 => { r with fsr := v.setWidth 5 }
  | 2 => { r with tfsr := (r.tfsr >>> 30 <<< 30) ||| (v &&& 0x3FFFFFFF#32).setWidth 80 }
  | 3 => { r with tfsr := (r.tfsr &&& ~~~(0x3FFFFFFF#80 <<< 30)) ||| ((v &&& 0x3FFFFFFF#32).setWidth 80 <<< 30) }
  | 4 => { r with tfsr := (r.tfsr &&& ~~~(0xFFFFF#80 <<< 60)) ||| ((v &&& 0xFFFFF#32).setWidth 80 <<< 60) }
  | 8 | 9 | 10 | 11 => { r with xr := r.xr.set (n - 8) (v &&& 0x801FFFFF#32) }
  | _ => r

/-- The sticky flags and the exception record that a landing result updates (R129, R130). -/
def Regs.flagLand (r : Regs) (slot : Option Nat) (ff : BitVec 5) (tf : BitVec 80) (cls : BitVec 5) (addr : BitVec 16) : Regs :=
  let r := { r with fsr := r.fsr ||| ff, tfsr := r.tfsr ||| tf }
  match slot with
  | .none => r
  | .some k =>
    if cls = 0 || (r.xr.getD k 0).getLsbD 31 then r
    else { r with xr := r.xr.set k (0x80000000#32 ||| (cls.setWidth 32 <<< 16) ||| addr.setWidth 32) }

/-- One register write lands (R133, R143). -/
def Regs.land (r : Regs) (p : Pend) : Regs :=
  let r := match p.dest with
    | .none => r
    | .scalar n => r.putScalar n (p.val.setWidth 32)
    | .pred n => r.putPred n (p.val.setWidth 64)
    | .branch n => { r with bt := r.bt.set n (p.val.setWidth 16) }
    | .tileRow t n => r.putRow t n p.val p.mask
    | .scale k => { r with k := r.k.set k (mergeRow (r.k.getD k 0) p.val p.mask) }
    | .rcur => { r with rcur := p.val.setWidth 5 }
    | .winBase => { r with winBase := p.val.setWidth 8 }
    | .special n => r.putSpecial n (p.val.setWidth 32)
    | .mode => { r with sw := (r.sw &&& ~~~1#32) ||| (p.val.setWidth 32 &&& 1#32) }
    | .phase => r
    | .pbnd => { r with sw := r.sw ||| 0x80#32 }
  r.flagLand p.slot p.fflags p.tflags p.cls p.addr

/-- A write lands in a core; `phase` is a register of the core, not of the frame. -/
def Core.land (k : Core) (p : Pend) : Core :=
  match p.dest with
  | .phase => { k with phaseWas := (p.due, k.phase), phase := p.val.setWidth 6 }
  | _ => { k with r := k.r.land p }

/-- Earlier landing, then earlier issue (R134). -/
def Pend.before (a b : Pend) : Bool := decide (a.due < b.due) || (a.due == b.due && decide (a.seq < b.seq))

/-- The pending write that lands first. -/
def firstPend : List Pend → Option Pend
  | [] => .none
  | p :: l => match firstPend l with
    | .none => .some p
    | .some q => if q.before p then .some q else .some p

/-- Insertion in the order of landing: after every entry that is not later. -/
def insertPend (p : Pend) : List Pend → List Pend
  | [] => [p]
  | q :: l => if p.before q then p :: q :: l else q :: insertPend p l

/-- The registers once every write due before cycle t has landed. -/
def Regs.landBefore (r : Regs) (t : Nat) : Regs :=
  (r.pend.filter fun p => decide (p.due < t)).foldl (fun r p => r.land p) r

/-- A write of the executing syllable, to land at the end of cycle `due`. The queue stands in the order of landing. -/
def State.enq (s : State) (p : Pend) : State :=
  let p := { p with seq := s.cur.seq, addr := s.cur.pc }
  (s.modR fun r => { r with pend := insertPend p r.pend }).planEv p.due 4 0 .registerWriteLand
    { a := s.cur.herd, b := s.cur.core }

/-- The result of an operation of latency L issued now (R133). -/
def State.put (s : State) (lat : Nat) (d : Dest) (v : Row512) : State := s.enq { due := s.tick + lat - 1, dest := d, val := v }

/-- The distinct syllables among pending writes that do not land in cycle t (R389, R390). -/
def pendingSyllables (l : List Pend) (t : Nat) : Nat :=
  (((l.filter fun p => decide (t < p.due)).map (·.seq)).eraseDups).length

/-- The tile rows and scale registers among pending writes (R407): the bytes that one syllable writes of a scale register are one. -/
def pendingRows (l : List Pend) : Nat :=
  (l.filter fun p => match p.dest with | .tileRow _ _ => true | _ => false).length
    + ((l.filterMap fun p => match p.dest with | .scale k => .some (p.seq, k) | _ => .none).eraseDups).length

/-- Whether a V operation writes a scale register (R234). -/
def VDec.writesScale (v : VDec) : Bool := match v.op with | .scx _ _ => true | _ => false

/-- Room for one more register-writing syllable of latency `lat` with `rows` rows (R390, R407): without it, the busy-unit fault
in exposed mode and a hold in interlocked mode. -/
def State.room (s : State) (lat rows : Nat) : Res Unit :=
  let r := s.R
  let left := match s.me.tile with | .some o => if o.dec.writesScale then 0 else 32 - 4 * o.group | .none => 0
  let q := match r.trap with | .some f => pendingRows f.queue | .none => 0
  let own := pendingRows (r.pend.filter fun p => decide (s.tick < p.due))
  let many := 32 ≤ pendingSyllables r.pend s.tick || (rows ≠ 0 && 128 < own + left + q + rows)
  if lat ≤ 1 || !many then .ok ()
  else if r.interlocked then .error .hold else raise 4

/-! ### Whole-tile operations in progress (R136) -/

/-- All five flags that any lane raised. -/
def orLanes (tfl : Nat) : Nat := (List.range 16).foldl (fun a j => a ||| tfl / 2 ^ (5 * j) % 32) 0

/-- What row n of a V operation reads (R212); the rows in `dead` were judged dead at its issue and read zero (R144, R386). -/
def VDec.input (d : VDec) (r : Regs) (n : Nat) (bval : Word) (rm : Nat) (flush : Bool) (guard : Mask) (snap : List Row512)
    (dead : List (Nat × Nat)) : VIn :=
  let row (t : Nat) : Nat := if dead.contains (t, n) then 0 else (r.rawRow t n).toNat
  { a := row d.a
    b := if d.s then 0 else row d.b
    d := row d.d
    sc := if d.s then .some bval.toNat else .none
    rm := Round.ofBits rm
    flush := flush
    guard := guard.toNat
    rows := snap
    r := n }

/-- Where row n of a V operation is written: a tile row, a predicate for a row compare, or a scale register (R226, R234). -/
def VDec.dest (d : VDec) (n : Nat) : Dest :=
  match d.op with
  | .scx _ _ => .scale d.d
  | .icmp _ | .fcmp _ => if d.w then .tileRow d.d n else .pred d.d
  | _ => .tileRow d.d n

/-- The pending writes of some rows that are read in one cycle and land in one cycle; with Q = 1 no flag is kept, and only the first
rows of a syllable to set one (`first`) update the exception record (R214). -/
def tileWrites (d : VDec) (due seq : Nat) (addr : BitVec 16) (first : Bool) (outs : List (Nat × VOut)) : List Pend :=
  let cls := if d.q then 0 else outs.foldl (fun a p => a ||| orLanes p.2.tfl) 0
  outs.map fun p =>
    { due := due, seq := seq, dest := d.dest p.1, val := BitVec.ofNat 512 p.2.val, mask := BitVec.ofNat 64 p.2.mask
      tflags := if d.q then 0 else BitVec.ofNat 80 p.2.tfl, cls := BitVec.ofNat 5 cls, slot := if first then .some 2 else .none, addr := addr }

/-- The cycle at whose end the next four rows of a whole-tile operation land (R136). -/
def TileOp.due (o : TileOp) : Nat := o.start + o.dec.op.latency - 1 + o.group

/-- The writes of the next four rows of a whole-tile operation, read from r. -/
def TileOp.writes (o : TileOp) (r : Regs) : List Pend :=
  let rows := [4 * o.group, 4 * o.group + 1, 4 * o.group + 2, 4 * o.group + 3]
  tileWrites o.dec o.due o.seq o.addr (!o.flagged)
    (rows.map fun n => (n, vRow o.dec.op o.dec.f true (o.dec.input r n o.bval o.rm (!o.interlocked) o.guard o.snap o.dead)))

/-- The operation with four rows more read, which are written by l. -/
def TileOp.next (o : TileOp) (l : List Pend) : TileOp :=
  { o with group := o.group + 1, flagged := o.flagged || l.any fun p => p.cls ≠ 0 }

/-- The writes of at most 4n rows still to be read, each row read as of its own cycle. -/
def TileOp.restFrom : Nat → TileOp → Regs → List Pend
  | 0, _, _ => []
  | n + 1, o, r =>
    let l := o.writes (r.landBefore (o.start + o.group))
    l ++ TileOp.restFrom n (o.next l) r

/-- The writes of every row of a whole-tile operation still to be read, each row read as of its own cycle (R389). -/
def TileOp.rest (o : TileOp) (r : Regs) : List Pend := TileOp.restFrom (8 - o.group) o r

/-! ### Where a trap goes (R83 to R86) -/

/-- Whether a context's own handler takes class n: its DELEG bit, while HENTRY.V = 1 (R391). -/
def Ctx.takes (y : Ctx) (n : Nat) : Bool := y.deleg.getLsbD n && y.hentry.getLsbD 31

/-- The first of a chain that takes class n, or its last, the root (R83). -/
def State.firstTaker (s : State) (n : Nat) : List Nat → Nat
  | [] => 0
  | [y] => y
  | y :: l => if (s.ctx y).takes n then y else s.firstTaker n l

/-- The context that takes a trap of class n raised in x and owned by `owner`: a reserved class of x's own starts at x's parent
(R83, R84). -/
def State.routeTrap (s : State) (x owner n : Nat) : Nat :=
  if owner = x && 27 ≤ n then
    match (s.ctx x).parent with | .some p => s.firstTaker n (s.chain p) | .none => x
  else s.firstTaker n (s.chain owner)

/-- Whether the context y, at which a trap of x stopped, has a handler for it (R86: not the root's own fatal fault). -/
def State.handled (s : State) (x y n : Nat) : Bool := (s.ctx y).takes n && !(y == x && 27 ≤ n)

/-- The trap record of R392. -/
def trapRecord (async : Bool) (sres : Nat) (t : Trap) (src steps : Nat) (addr : BitVec 16) (v : Int) : List Word :=
  let w := BitVec.ofInt 64 v
  [BitVec.ofNat 32 ((if async then 2 ^ 27 else 0) + sres % 8 * 2 ^ 24 + t.cause % 256 * 2 ^ 16 + src % 256 * 2 ^ 8
      + steps % 8 * 2 ^ 5 + t.cls % 32),
    addr.setWidth 32, t.d0, t.d1, w.setWidth 32, (w >>> 32).setWidth 32]

/-! ### Clamps (R160, R404) -/

/-- The innermost KIND 1 entry of a loop stack asked to clamp; none when it holds no such entry. -/
def askClamp : List LoopEntry → Option (List LoopEntry)
  | [] => .none
  | e :: l => if e.kind then .some ({ e with ask := true } :: l) else (askClamp l).map (e :: ·)

/-- The innermost KIND 1 entry of a core, of a handler before its task frame's, asked to clamp (DEDUCED, log entry 51). -/
def Regs.askClamp (r : Regs) : Regs :=
  match Sys2Proof.Machine.askClamp r.loops with
  | .some l => { r with loops := l }
  | .none => { r with trap := r.trap.map fun f => { f with loops := (Sys2Proof.Machine.askClamp f.loops).getD f.loops } }

/-- No entry is asked to clamp any more. -/
def Regs.unaskClamp (r : Regs) : Regs :=
  let drop (l : List LoopEntry) : List LoopEntry := l.map fun e => { e with ask := false }
  { r with loops := drop r.loops, trap := r.trap.map fun f => { f with loops := drop f.loops } }

/-- The entry that a clamp in effect saved stands on the stack of the running frame again, from where its loop goes on (R160). -/
def Regs.resumeLoop (r : Regs) (e : Option LoopEntry) : Regs :=
  match e with
  | .none => r
  | .some e => { r with loops := { e with resume := true } :: r.loops }

/-- Whether a clamp is in effect on the loops of the running frame or of the task frame set aside (R160, R404). -/
def Core.clamped (k : Core) : Bool := k.clampSaved.isSome || match k.r.trap with | .some f => f.clamp.isSome | .none => false

/-- A core begins again at PRO where its innermost entry says so (R160, R414). -/
def Core.resumed (k : Core) : Core :=
  match k.r.loops with
  | e :: l =>
    if e.resume then { k with r := { k.r with loops := { e with resume := false } :: l, pc := e.pro, landing := true, resume := 0, xfer := .none } }
    else k
  | [] => k

/-- A core whose stop has been given up begins its clamped loop again, once the epilogue of the loop has reached its `yield` (R160, R404;
DEDUCED, log entry 51). -/
def Core.unclamped (k : Core) : Core := { k with clampSaved := .none, r := k.r.resumeLoop k.clampSaved }.resumed

/-! ### The trap frame (R389) -/

/-- The in-flight queue at cycle t: every pending write with its distance k from t, the rows of a whole-tile operation among
them. -/
def Core.inFlight (k : Core) (t : Nat) : List Pend :=
  let all := match k.tile with
    | .some o => (o.rest k.r).foldl (fun l p => insertPend p l) k.r.pend
    | .none => k.r.pend
  (all.filter fun p => decide (t ≤ p.due)).map fun p => { p with due := p.due - t }

/-- The trap frame of a core that stops at the bundle at `pc`, cycle t. -/
def Core.frameAt (k : Core) (t : Nat) (pc : BitVec 16) (sres : Nat) (next : Option (BitVec 16)) (ix0 : Word) : TrapFrame :=
  { pc := pc, sres := sres, next := next
    sw := (k.r.sw &&& ~~~0x70#32) ||| BitVec.ofNat 32 (sres % 8 * 16)
    rcur := k.r.rcur, loops := k.r.loops, xfer := k.r.xfer, bank := k.r.bank, winBase := k.r.winBase
    queue := k.inFlight t, at_ := t, tile := k.tile, seq := k.seq, ix0 := ix0, soft := k.r.softTrap, clamp := k.clampSaved }

/-- The registers in which a handler starts (R392): the status word, an empty loop stack, no pending write, the trap record as
the bound block; and the frame set aside. -/
def Core.enterHandler (k : Core) (f : TrapFrame) (entry : BitVec 16) (record : List Word) (t : Nat) : Core :=
  { k with
    r := { k.r with
      sw := (k.r.sw &&& 0x80#32) ||| 1#32
      loops := [], xfer := .none, pend := [], bank := .some record, winBase := 0, trap := .some f
      pc := entry, landing := true, resume := 0, resumeSeq := 0, ixHold := .none, softTrap := .none, carry := {} }
    tile := .none, table := [], xbuf := .none, clampSaved := .none, hold := .none, gate := {}, issueAt := t }

/-- The order in which the cores of one cycle issue: context, virtual herd, core (R253; log entry 5). -/
def State.issueOrd (s : State) (h c : Nat) : Nat :=
  let x := ((s.regs h c).ctx).getD 0
  x * 1024 + (s.ctx x).virtOf h * 4 + c

/-- The core's next bundle issues at cycle t: its place in the agenda. -/
def State.planIssue (s : State) (h c t : Nat) : State :=
  (s.modCore h c fun k => { k with issueAt := t }).planEv t 3 (s.issueOrd h c) .bundleIssue { a := h, b := c }

/-! ### Untimed flits (R73, R432) -/

/-- The fraction of a port that a context may use (R73): numerator over 64 ^ (depth + 1); what its children hold is withdrawn. Children
whose PSHARE values sum to more than 64, which no rule refuses, leave it nothing (DESIGN CHOICE, log entry 46). -/
def State.portShare (s : State) (x : Nat) : Nat :=
  let given := ((s.ctxs.filter fun k => k.parent == .some x).map (·.pshare)).sum
  64 * (s.ctx x).pshare - given

/-- The flits that a context may start on a port in one window of 4,096 group cycles (R432). -/
def State.portCap (s : State) (x : Nat) : Nat := s.portShare x * 891 / 64 ^ ((s.ctx x).depth + 1)

/-- The flits that context x starts on a port in window w of 4,096 group cycles, timed and untimed (R432). -/
def Port.started (q : Port) (x w : Nat) : Nat :=
  ((q.slots ++ q.untimed).filter fun z => z.2 == x && z.1 / 4096 == w).length

/-- The first window from w on in which a context may start another flit. -/
def Port.roomFrom (q : Port) (x cap : Nat) : Nat → Nat → Nat
  | 0, w => w
  | k + 1, w => if q.started x w < cap then w else q.roomFrom x cap k (w + 1)

/-- The fabric node that an untimed flit is for. -/
def Sent.untimedNode : Sent → Option Nat
  | .response src _ | .notice src _ => .some src.node
  | _ => .none

/-- An untimed flit for a fabric node starts in cycle t, and after those that wait to start for the same node (R55). -/
def State.startAt (s : State) (node t : Nat) (item : Sent) : State :=
  let waiting := s.agenda.filterMap fun d => match d.act with
    | .flitStart i => if i.untimedNode = .some node then .some d.at_ else .none
    | _ => .none
  if t ≤ s.tick && waiting.isEmpty then { s with sent := item :: s.sent }
  else s.plan (waiting.foldl Nat.max t) 0 6 (.flitStart item)

/-- An untimed flit of context x for a fabric node starts in the first window of R432 that has room for it, in the order of its flits. One
of a context that may start none on the port starts at once, behind those for its node that wait (DESIGN CHOICE, log entry 47). -/
def State.startFlit (s : State) (x : Option Nat) (node : Nat) (item : Sent) : State :=
  let p := ((s.routes.find? fun r => r.1 == node).map (·.2)).getD 0
  let q := s.port p
  match x with
  | .none => s.startAt node s.tick item
  | .some x =>
    let cap := s.portCap x
    if cap = 0 then s.startAt node s.tick item
    else
      let now := s.gcyc / 4096
      let last := (q.untimed.filter fun z => z.2 == x).foldl (fun m z => Nat.max m (z.1 / 4096)) now
      let w := q.roomFrom x cap (q.slots.length + q.untimed.length) last
      let g := if w = now then s.gcyc else w * 4096
      let s := s.modPort p fun q => { q with untimed := (g, x) :: q.untimed.filter fun z => decide (now ≤ z.1 / 4096) }
      s.startAt node (s.tick + (g - s.gcyc)) item

/-- A notice to every host source bound to a context (R66). -/
def State.notify (s : State) (x : Nat) (bytes : List Byte) : State :=
  (s.binds.filter fun p => p.2 == x && !s.released.contains p.1).foldl (fun s p =>
    s.startFlit (.some x) p.1.node (.notice p.1 bytes)) s

/-- The trap notice of R66 for the trap taken at the root. -/
def State.trapNotice (s : State) (record : List Word) : State :=
  s.notify 0 ([0x91, 0, 24, 0] ++ List.replicate 12 0 ++ record.flatMap fun w => leBytes 4 w.toNat)

/-- A trap that is taken at an ancestor y of the context that raised it becomes pending there 64 cycles per step later (R83,
R395). -/
def State.reflect (s : State) (y steps : Nat) (record : List Word) : State :=
  s.planEv (s.tick + 64 * steps) 0 0 .reflectedTrapEntry { a := y, words := record }

/-- The cores of some herds of context x whose trap frames go into its save area at the end of this cycle (R395, R396). -/
def State.planFrames (s : State) (x : Nat) (l : List (Nat × Nat)) : State :=
  if (s.ctx x).parent.isNone then s else l.foldl (fun s p => s.plan s.tick 4 10 (.frameSave x p.1 p.2)) s

/-- A fatal fault in context x with its cause, at a bundle of core (h, c) or outside one (R396, R397): x and its descendants are
failed, their cores stop after this cycle, and the trap is reflected from x's parent. -/
def State.fatal (s : State) (x cause : Nat) (addr : BitVec 16) : State :=
  if (s.ctx x).failed then s
  else
    let t : Trap := { cls := 31, cause := cause }
    let v := s.vcyc x
    let sub := s.subtree x
    let failQueue (q : Queue) : Queue := if q.state = 2 then { q with fail := true } else q
    let failCtx (k : Ctx) : Ctx :=
      if sub.contains k.num then { k with failed := true, queues := k.queues.map failQueue } else k
    let s : State := { s with ctxs := s.ctxs.map failCtx }
    let s := s.plan s.tick 4 9 (.fatalStop x)
    if (s.ctx x).revoking then s
    else if x = 0 then { (s.trapNotice (trapRecord true 0 t 0 0 addr v)) with plat := { s.plat with rootFailed := true } }
    else
      let y := s.routeTrap x x 31
      let steps := (s.ctx x).depth - (s.ctx y).depth
      s.reflect y steps (trapRecord true 0 t x steps addr v)

/-- Whether a command is one that no core issued: an outward copy (R201, R375). -/
def Cmd.isOutward (c : Cmd) : Bool := match c.kind with | .callOut _ => true | _ => false

/-- Whether a command moves the copies of a call. -/
def Cmd.ofCall (c : Cmd) (id : Nat) : Bool := match c.kind with | .callIn k | .callOut k => k == id | _ => false

/-- Whether a herd is given away to a spatial child of x (R71). -/
def State.givenAway (s : State) (x h : Nat) : Bool :=
  s.ctxs.any fun k => k.parent == .some x && !k.timeShared && k.herds.contains h

/-- n bytes of a byte list from an offset, as a number. -/
def bytesNat (l : List Byte) (o n : Nat) : Nat := leNat ((l.drop o).take n)

def Queue.imageAddr (q : Queue) : Nat := bytesNat q.desc 0 8
def Queue.mbox (q : Queue) : Nat := bytesNat q.desc 8 8
def Queue.mlen (q : Queue) : Nat := bytesNat q.desc 0x10 2
def Queue.nparam (q : Queue) : Nat := bytesNat q.desc 0x12 2
def Queue.weight (q : Queue) : Nat := bytesNat q.desc 0x15 1
/-- The drain bound B (R405). -/
def Queue.bound (q : Queue) : Nat := 64 * bytesNat q.desc 0x16 2
/-- Group-aligned (R356). -/
def Queue.aligned (q : Queue) : Bool := bytesNat q.desc 0x18 1 % 2 == 1

/-- Queue q of a context. -/
def Ctx.queue (x : Ctx) (q : Nat) : Queue := x.queues.getD q {}

/-- The queue whose program has started (R401). -/
def Ctx.running (x : Ctx) : Option Nat := (List.range 16).find? fun q => (x.queue q).state == 2

/-- The root herds that a context has not given to a spatial child (R400). -/
def State.ownHerds (s : State) (x : Nat) : List Nat := (s.ctx x).herds.filter fun h => !s.givenAway x h

/-- The drain bound of a context (R405): that of the queue whose program runs, else the greatest. -/
def Ctx.drainBound (x : Ctx) : Nat := match x.running with | .some q => (x.queue q).bound | .none => 16384

/-- Whether core k reaches a drain point in cycle t (R404), the stop having been requested by then. -/
def Core.drains (k : Core) (t : Nat) : Bool :=
  (k.r.frame.isNone && !k.inHandler) || k.hold == .reflected || k.hold == .stopped || k.lastDrain == .some t
    || (!k.clamped && k.lastIssue ≠ .some t && ((k.hold == .wait && decide (t < k.issueAt)) || k.hold == .join))

/-- Whether a fatal fault stops context x at this cycle or stopped it before: a group that lands in the stop cycle has not
landed before it (R310). The watchdog of a drain stops at t0 + B (R405). -/
def State.dying (s : State) (x : Nat) : Bool :=
  (s.ctx x).failed || s.ctxs.any fun y =>
    (s.subtree y.num).contains x && y.life == .draining && y.stopAt + y.drainBound == s.tick
      && (s.ownHerds y.num).any fun h => (s.herd h).cores.any fun k => k.drainedAt.isNone && !k.drains s.tick

/-- The first slot that a core's next bundle has still to execute. -/
def Core.nextSlot (k : Core) : Nat := if k.waiting.isSome then 7 else k.r.resume

/-- The core stops at once, its bundle to go on from slot `from_` (R396). -/
def Core.stopDead (k : Core) (t from_ : Nat) : Core :=
  match k.r.trap with
  | .some _ => { k with hold := .stopped, waiting := .none }
  | .none =>
    let f := k.frameAt t k.r.pc from_ .none 0
    { k with hold := .stopped, waiting := .none, tile := .none, clampSaved := .none, r := { k.r with trap := .some f, pend := [] } }

/-! ### Taking a trap (R386 to R395) -/

/-- Core (h, c), at a bundle at `pc` of context x in cycle t, takes trap `tr`: in x's own handler, at an ancestor, or as the end
of a root program; under revocation the core only stops (R89). `sres` stands in the record, `from_` is the slot at which the bundle
resumes. -/
def State.takeTrap (s : State) (h c x owner : Nat) (tr : Trap) (async : Bool) (addr pc : BitVec 16) (sres from_ : Nat)
    (next : Option (BitVec 16)) : State :=
  let k := s.core h c
  let y := s.routeTrap x owner tr.cls
  let steps := (s.ctx x).depth - (s.ctx y).depth
  let record := trapRecord async sres tr x steps addr (s.vcyc x)
  let carry : Carry := match next with
    | .some _ => { hold := if s.cur.hold = .join || s.cur.hold = .call then s.cur.hold else .none, gate := s.cur.gate }
    | .none => { hold := s.cur.hold, gate := s.cur.gate, at_ := s.cur.nextAt, yields := s.cur.yields }
  let f : TrapFrame := { (k.frameAt s.tick pc from_ next s.cur.ix0) with carry := carry }
  if (s.ctx x).revoking then
    s.modCore h c fun k =>
      { k with hold := .reflected, tile := .none, clampSaved := .none, r := { k.r with trap := .some f, pend := [], xfer := .none } }
  else if y = x then
    if s.handled x y tr.cls then
      (s.modCore h c fun k => k.enterHandler f ((s.ctx y).hentry.setWidth 16) record (s.tick + 1)).planIssue h c (s.tick + 1)
    else ((s.trapNotice record).modCore h c fun k => { k with hold := .stopped }).plan s.tick 4 7
      (.rootStop ((k.r.frame.map (·.queue)).getD 0))
  else
    ((s.modCore h c fun k =>
      { k with hold := .reflected, tile := .none, clampSaved := .none, r := { k.r with trap := .some f, pend := [], xfer := .none } }).planFrames
        x [(h, c)]).reflect y steps record

/-- A synchronous trap of the executing syllable (R386): what stands before it in the bundle has committed, it and what follows
commit nothing. An uncorrectable word is fatal at its bundle (R188, R192), and in a handler every trap is a double fault
(R393). -/
def State.trapHere (s : State) (tr : Trap) (sres : Nat) (addr : BitVec 16) (next : Option (BitVec 16)) : State :=
  let x := (s.R.ctx).getD 0
  let s := { s with cur := { s.cur with trapped := true }, latch := [] }
  if tr.cls = 31 then (s.fatal x tr.cause addr).modMe fun k => k.stopDead s.tick sres
  else if s.me.inHandler then (s.fatal x 4 addr).modMe fun k => k.stopDead s.tick sres
  else s.takeTrap s.cur.herd s.cur.core x (tr.owner.getD x) tr false addr s.cur.pc sres sres next

/-- What a meaning answers: the next state, the bundle held, or the trap taken at this slot. -/
def State.answer (s : State) (r : Res State) : Out :=
  match r with
  | .ok t => .next t
  | .error .hold => .next { s with cur := { s.cur with mustHold := true } }
  | .error (.trap t) => .next (s.trapHere t s.cur.slot s.cur.pc .none)

/-- The frame in which a handler of context y runs on a core that holds no task (R395): no handle is bound. -/
def Frame.idle (y : Nat) : Frame :=
  { ctx := y, level := 0, image := 0, task := 0, call := .none, queue := 0, boxes := List.replicate 16 .none }

/-- The software trap of a bundle whose `wret` has ended frame f, the bundle having committed whole (R162, R374, R386): the core resumes
it holding no frame. -/
def State.trapEnded (s : State) (f : Frame) (n : BitVec 8) : State :=
  let s := s.modMe fun k => { k with r := { k.r with softTrap := .none, frame := .some f } }
  let s := s.trapHere { cls := 0, cause := n.toNat } 0 s.cur.pc (.some s.cur.next)
  s.modMe fun k => { k with r := { k.r with
    frame := if k.inHandler then .some (Frame.idle f.ctx) else .none
    trap := k.r.trap.map fun t => { t with noTask := true } } }

/-- wclass0..wclass3 take their reset values (R126, R127; DEDUCED, log entry 59). -/
def State.resetWeights (s : State) : State := { s with wclass := s.plat.cfg.wclass }

/-- A pending asynchronous trap is noted in a core. -/
def Core.noteAsync (a : Async) (k : Core) : Core := { k with asyncs := k.asyncs ++ [a] }

/-- Whether a core runs, or keeps aside, a task of a context. -/
def Core.runs (k : Core) (x : Nat) : Bool := k.r.ctx == .some x || k.susp.any fun r => r.ctx == .some x

/-- An asynchronous trap of context a.ctx becomes pending at core (h, c) in this cycle, or goes to the context's parent when the
core runs no task of that context (R387). A core of a context that is not resident takes it after the restore (R355). -/
def State.raiseAsync (s : State) (h c : Nat) (a : Async) : State :=
  let v := (s.ctx a.ctx).virtOf h
  let keep (x : Kept) : Kept :=
    if x.ctx == a.ctx then { x with herds := x.herds.modify v fun y : Herd => { y with cores := y.cores.modify c (Core.noteAsync a) } } else x
  if (s.ctx a.ctx).failed || (s.ctx a.ctx).revoking then s
  else if s.kept.any fun x => x.ctx == a.ctx && ((x.herds.getD v {}).cores.getD c {}).runs a.ctx then
    { s with kept := s.kept.map keep }
  else if (s.core h c).runs a.ctx then s.modCore h c (Core.noteAsync a)
  else
    let tr : Trap := { cls := a.cls, cause := a.cause, d0 := a.d0, d1 := a.d1 }
    let start := if a.owner = a.ctx then ((s.ctx a.ctx).parent).getD a.ctx else a.owner
    let y := s.firstTaker a.cls (s.chain start)
    let steps := (s.ctx a.ctx).depth - (s.ctx y).depth
    s.reflect y steps (trapRecord true 0 tr a.ctx steps (a.addr.getD (s.regs h c).pc) (s.vcyc a.ctx))

/-! ### Returning from a trap (R394) -/

/-- The core resumes a captured frame, its bundle issuing at cycle e: block and window base, `sw`, rcur, loop stack and pending
transfer are restored, each queued write lands at its old distance from that bundle, and the expansion buffer is empty (R279). -/
def Core.resumeFrame (k : Core) (f : TrapFrame) (e : Nat) : Core :=
  if f.noTask then
    { k with r := { ({} : Regs) with pc := k.r.pc }, hold := .none, tile := .none, table := [], xbuf := .none, clampSaved := .none }
  else
    { k with
      r := { k.r with
        sw := f.sw, rcur := f.rcur, loops := f.loops, xfer := f.xfer, bank := f.bank, winBase := f.winBase, trap := .none
        pc := f.next.getD f.pc, landing := true, resume := if f.next.isSome then 0 else f.sres, resumeSeq := f.seq
        softTrap := if f.next.isSome then .none else f.soft
        ixHold := if f.next.isSome || f.sres = 0 then .none else .some f.ix0
        carry := if f.next.isSome then {} else f.carry
        pend := (f.queue.map fun p => { p with due := p.due + e }).foldl (fun l p => insertPend p l) k.r.pend }
      hold := if f.next.isSome then f.carry.hold else .none, gate := if f.next.isSome then f.carry.gate else {}
      xbuf := .none, clampSaved := f.clamp, issueAt := e }

/-- Landing events for every pending write of a core. -/
def State.planLandings (s : State) (h c : Nat) : State :=
  (s.regs h c).pend.foldl (fun s p => s.planEv p.due 4 0 .registerWriteLand { a := h, b := c }) s

/-- `eret`, and the resumption of a stopped core by `cxrun`: the frame is applied with its first bundle at cycle e. -/
def State.returnFromTrap (s : State) (h c e : Nat) : State :=
  match (s.regs h c).trap with
  | .none => s
  | .some f =>
    let s := s.modCore h c fun k => k.resumeFrame f e
    if f.noTask then s
    else
      let s := s.planLandings h c
      match (s.core h c).hold with
      | .call => s
      | .join => s.planEv e 0 7 .joinRelease { a := h, b := c }
      | _ => s.planIssue h c e

/-- The first pending write of a core that is due lands (R133). -/
def State.landOne (s : State) (h c : Nat) : State :=
  match firstPend (s.regs h c).pend with
  | .none => s
  | .some p =>
    if s.tick < p.due then s
    else
      let s := s.modCore h c fun k => ({ k with r := { k.r with pend := k.r.pend.erase p } }).land p
      match p.dest with
      | .special n =>
        if 0x14 ≤ n && n ≤ 0x17 then { s with wclass := s.wclass.set (n - 0x14) (p.val.setWidth 32) } else s
      | _ => s

end Sys2Proof.Machine
end

