-- ==== Sys2Proof/Machine/Operands.lean ====
section
/-! DEFINITION. Operands.lean: what operand fields read and name: scalar sources with the constant window and literals (R110,
R25, R144), guards (R108), boxes with their formats and addresses (R11 to R21, R36 to R38), and paths (R19, R20). -/

namespace Sys2Proof.Machine

/-! ### Scalar sources -/

/-- The i-th literal that the executing syllable claims (R105). -/
def State.lit (s : State) (i : Nat) : Word := s.cur.lits.getD i 0

/-- Scalar register n as a source: a dead one reads zero, or raises the dead-read trap (R144). -/
def State.reg (s : State) (n : Nat) : Res Word :=
  if n ≠ 0 && s.R.deadS.getLsbD n && s.R.deadTraps then .error (.trap { cls := 7, d0 := BitVec.ofNat 32 n })
  else .ok (s.R.scalar n)

/-- The bank word c_k (R25): the word at window base + k, zero beyond the block, the unbound-parameter fault without one. -/
def State.constant (s : State) (k : Nat) : Res Word :=
  match s.R.bank with
  | .none => raise 13
  | .some b => .ok (b.getD (s.R.winBase.toNat + k) 0)

/-- A source specifier (R110); `i` is the number of its literal, should it claim one. -/
def State.src (s : State) (f : BitVec 5) (i : Nat) : Res Word :=
  if f.toNat ≤ 23 then s.reg f.toNat
  else if f.toNat ≤ 29 then s.constant (f.toNat - 24)
  else if f.toNat = 30 then .ok s.cur.ix0
  else .ok (s.lit i)

/-- Whether a specifier claims a literal (R105). -/
def claims (f : BitVec 5) : Nat := if f = 31 then 1 else 0

/-- Two sources of one syllable, in field order. -/
def State.src2 (s : State) (a b : BitVec 5) : Res (Word × Word) := do
  let x ← s.src a 0
  let y ← s.src b (claims a)
  return (x, y)

/-- Whether a specifier reads past the bound block, which sets `sw.PBND` (R25). -/
def State.pastBlock (s : State) (f : BitVec 5) : Bool :=
  24 ≤ f.toNat && f.toNat ≤ 29 &&
    match s.R.bank with
    | .none => false
    | .some b => b.length ≤ s.R.winBase.toNat + (f.toNat - 24)

/-- `sw.PBND` is set when one of these specifiers read past the block (R25). -/
def State.notePbnd (s : State) (fs : List (BitVec 5)) : State :=
  if fs.any s.pastBlock then s.put 1 .pbnd 0 else s

/-- Bit 0 of a predicate (R108). -/
def State.predBit (s : State) (p : Nat) : Bool := (s.R.pred p).getLsbD 0

/-- Whether a guard is true: bit 0, or for the V slot any bit (R108). -/
def State.guardTrue (s : State) (slot g : Nat) : Bool :=
  if slot = 5 then (s.R.pred g) != 0 else s.predBit g

/-- A row of a tile as a source: a dead row reads zero, or raises the dead-read trap (R144). -/
def State.liveRow (s : State) (t n : Nat) : Res Unit :=
  if s.R.rowDead t n && s.R.deadTraps then .error (.trap { cls := 7, d0 := BitVec.ofNat 32 (256 + t * 32 + n) }) else .ok ()

/-! ### Box descriptors (R11) -/

/-- n bits of a descriptor from bit `lo`. -/
def boxBits (b : BitVec 256) (lo n : Nat) : Nat := b.toNat / 2 ^ lo % 2 ^ n

def boxBase (b : BitVec 256) : Nat := boxBits b 0 48
def boxFmt (b : BitVec 256) : Nat := boxBits b 48 5
def boxDims (b : BitVec 256) : Nat := boxBits b 53 2
def boxAcc (b : BitVec 256) : Nat := boxBits b 55 2
def boxMerge (b : BitVec 256) : Nat := boxBits b 57 3
def boxExp (b : BitVec 256) : Nat := boxBits b 60 2
def boxTile (b : BitVec 256) : Bool := b.getLsbD 62
def boxExt (b : BitVec 256) (k : Nat) : Nat := boxBits b (64 + 16 * k) 16
def boxStr (b : BitVec 256) (k : Nat) : Nat := boxBits b (88 + 40 * k) 40
def boxAper (b : BitVec 256) : Nat := boxBits b 248 6
def boxAv (b : BitVec 256) : Bool := b.getLsbD 254

/-- ACC of R12: read-only 1, write-only 2, read-write 3. -/
def boxReads (b : BitVec 256) : Bool := boxAcc b == 1 || boxAcc b == 3
def boxWrites (b : BitVec 256) : Bool := boxAcc b == 2 || boxAcc b == 3

/-- The element width in bits of a box's format; 0 for block-scaled and encoded formats (R38, R39). -/
def fmtWidth (tile : Bool) (f : Nat) : Nat :=
  if tile then (tileFmt f).width
  else if f = 0 then 32
  else if f = 1 || f = 2 || f = 8 then 16
  else if f = 3 || f = 4 || f = 9 || f = 10 then 8
  else if f = 5 || f = 6 then 6
  else if f = 7 || f = 11 || f = 12 then 4
  else if f = 13 || f = 14 then 2
  else if f = 15 then 1
  else 0

def boxWidth (b : BitVec 256) : Nat := fmtWidth (boxTile b) (boxFmt b)

/-- Bytes of one block of a block-scaled format, or of one group record (R36, R38). -/
def blockBytes (f : Nat) : Nat :=
  match f with
  | 0x10 => 33 | 0x11 => 33 | 0x12 => 25 | 0x13 => 25 | 0x14 => 17 | 0x15 => 33 | 0x16 => 17 | 0x17 => 9
  | 0x18 => 32 | 0x19 => 32 | 0x1A => 48 | 0x1B => 48 | 0x1C => 64 | 0x1D => 80 | 0x1E => 112 | 0x1F => 32
  | _ => 0

/-- L(f, n) of R38: the bytes of a run of n elements of dimension 0. -/
def runBytes (tile : Bool) (f n : Nat) : Nat :=
  if !tile && 16 ≤ f then (n + 31) / 32 * blockBytes f else (n * fmtWidth tile f + 7) / 8

/-- Whether the format is block-scaled or encoded (R36, R41). -/
def boxBlocked (b : BitVec 256) : Bool := !boxTile b && 16 ≤ boxFmt b

/-- P(i) of R15, with whole blocks for the blocked formats: the byte of column i. -/
def colByte (b : BitVec 256) (i : Nat) : Nat :=
  if boxBlocked b then i / 32 * blockBytes (boxFmt b) else i * boxWidth b / 8

/-- The address of an element from its coordinates (R15). -/
def elemAddr (b : BitVec 256) (i3 i2 i1 i0 : Nat) : Nat :=
  boxBase b + i3 * boxStr b 3 + i2 * boxStr b 2 + i1 * boxStr b 1 + colByte b i0

/-- The extent of dimension k, 1 where the box does not use it (R21). -/
def extOf (b : BitVec 256) (k : Nat) : Nat := if k ≤ boxDims b then boxExt b k else 1

/-- The byte after the last one of a box. -/
def boxEnd (b : BitVec 256) : Nat :=
  boxBase b + (extOf b 3 - 1) * boxStr b 3 + (extOf b 2 - 1) * boxStr b 2 + (extOf b 1 - 1) * boxStr b 1
    + runBytes (boxTile b) (boxFmt b) (boxExt b 0)

/-- A valid descriptor at a level (R14). -/
def boxValid (level : Nat) (b : BitVec 256) : Bool :=
  let d := boxDims b
  let top := if level = 3 then 65535 else 32767
  boxAcc b != 0 && boxMerge b ≤ 4
    && (!boxTile b || boxFmt b < 8)
    && (List.range 4).all (fun k => if k ≤ d then 1 ≤ boxExt b k && boxExt b k ≤ top else boxExt b k == 0)
    && ([1, 2, 3].all fun k => k ≤ d || boxStr b k == 0)
    && (d < 1 || runBytes (boxTile b) (boxFmt b) (boxExt b 0) ≤ boxStr b 1)
    && ([2, 3].all fun k => d < k || boxStr b (k - 1) * boxExt b (k - 1) ≤ boxStr b k)
    && (!(boxMerge b == 3 || boxMerge b == 4) || (!boxTile b && boxFmt b == 0) || (boxTile b && (boxFmt b == 0 || boxFmt b == 3)))
    && (level == 3 || (d ≤ 1 && !boxAv b && boxEnd b ≤ if level = 1 then 262144 else 4194304))
    && !b.getLsbD 255 && !b.getLsbD 63

/-- The box bound to a handle of the executing frame (R16). -/
def State.box? (s : State) (h : Nat) : Option (BitVec 256) :=
  match s.R.frame with
  | .none => .none
  | .some f => (f.boxes.getD h .none)

/-- The bound box, or the unbound-box fault (R18). -/
def State.box (s : State) (h : Nat) : Res (BitVec 256) :=
  match s.box? h with
  | .some b => .ok b
  | .none => raise 8

/-- The level of the executing task: 3 chip, 2 herd, 1 core; 0 in a handler frame without a task. -/
def State.level (s : State) : Nat := (s.R.frame.map (·.level)).getD 0

/-! ### Paths (R19, R20) -/

/-- A 16-bit coordinate read as signed. -/
def coord (w : Word) (lo : Nat) : Int := (BitVec.extractLsb' lo 16 w).toInt

/-- The row and the column that a path with a column offset names; the sum is taken in 17 bits, so it never wraps. -/
def pathRow (p : Word) : Int := coord p 16
def pathCol (p : Word) (off : Int) : Int := coord p 0 + off

/-- The tests of R19 and R20. -/
def inBox (b : BitVec 256) (row col : Int) : Bool :=
  0 ≤ row && row < (if boxDims b = 0 then 1 else (boxExt b 1 : Int)) && 0 ≤ col && col < (boxExt b 0 : Int)

end Sys2Proof.Machine
end

