-- ==== Sys2Proof/Machine/Records.lean ====
section
/-! DEFINITION. Records.lean: the arithmetic of the Eland array on plain data: group records (R41 to R43), the alignment of
activations (R299, R300), the partial of a group (R301), and what `menc` and `mcomp` make of a group (R44, R322, R323). A record
stands as one number, byte 0 lowest. -/

namespace Sys2Proof.Machine

/-! ### Format codes (R36, R38, R297, R304) -/

/-- The matrix code of a box's format: a tile code names the matrix format of its name (R40); 32 for INT32, which has none. -/
def boxCode (b : BitVec 256) : Nat :=
  if boxTile b then
    match boxFmt b with
    | 0 => 0 | 1 => 1 | 2 => 2 | 4 => 8 | 5 => 9 | 6 => 10 | 7 => 3 | _ => 32
  else boxFmt b

/-- The base format of a block-scaled code (R36); a plain code is its own. -/
def baseCode (c : Nat) : Nat :=
  match c with
  | 0x10 => 3 | 0x11 => 4 | 0x12 => 5 | 0x13 => 6 | 0x14 => 7 | 0x15 => 9 | 0x16 => 11 | 0x17 => 14 | _ => c

def isBlockCode (c : Nat) : Bool := decide (0x10 ≤ c) && decide (c ≤ 0x17)
def isEncoded (c : Nat) : Bool := decide (0x18 ≤ c) && decide (c ≤ 0x1F)

/-- The codes marked A in R38. -/
def isActivation (c : Nat) : Bool := decide (c ≤ 12) || (decide (0x10 ≤ c) && decide (c ≤ 0x16))

/-- The dense and block-scaled codes marked B in R38. -/
def isDenseWeight (c : Nat) : Bool :=
  c == 3 || (decide (5 ≤ c) && decide (c ≤ 7)) || (decide (9 ≤ c) && decide (c ≤ 0x10)) || (decide (0x12 ≤ c) && decide (c ≤ 0x17))

/-- G of R297: the groups that a column of a slot holds. -/
def slotGroups (c : Nat) : Nat := match c with | 0x1C => 6 | 0x1D => 4 | 0x1E => 3 | _ => 8

/-- q_B of R297. -/
def weightCost (c : Nat) : Nat := match c with | 0x1C => 2 | 0x1D => 2 | 0x1E => 4 | _ => 1

/-- q_A of R304: 2 for FP32, E3M2, E2M3 and every block-scaled code. -/
def activationCost (c : Nat) : Nat := if c = 0 || c = 5 || c = 6 || isBlockCode c then 2 else 1

/-- The value of an element of a base code (R31, R34). -/
def baseValue (c bits : Nat) : Val :=
  match c with
  | 0 => decodeFloat .fp32 bits
  | 1 => decodeFloat .bf16 bits
  | 2 => decodeFloat .fp16 bits
  | 3 => decodeFloat .e4m3 bits
  | 4 => decodeFloat .e5m2 bits
  | 5 => decodeFloat .e3m2 bits
  | 6 => decodeFloat .e2m3 bits
  | 7 => decodeFloat .e2m1 bits
  | 8 => valOfInt (intOf true 16 bits)
  | 9 => valOfInt (intOf true 8 bits)
  | 10 => valOfInt (intOf false 8 bits)
  | 11 => valOfInt (intOf true 4 bits)
  | 12 => valOfInt (intOf false 4 bits)
  | 13 => valOfInt (intOf true 2 bits)
  | 14 => valOfInt (ternVal bits)
  | _ => valOfInt (if bits % 2 = 1 then -1 else 1)

/-- The width of an element of a base code in bits (R38). -/
def baseWidth (c : Nat) : Nat := fmtWidth false c

/-- The 32 elements of a group of base code c: `n` of them stand in the bytes, the others read as the pattern 0 (R299). -/
def groupElems (c n : Nat) (bytes : List Byte) : List Nat :=
  let v := leNat bytes
  let w := baseWidth c
  (List.range 32).map fun i => if i < n then v / 2 ^ (w * i) % 2 ^ w else 0

/-! ### Group records (R41 to R43) -/

def recPerm (r : Nat) : List Nat := (List.range 32).map fun j => r / 2 ^ (5 * j) % 32
def recShape (r : Nat) : Nat := r / 2 ^ 160 % 2 ^ 32
def recScale (r : Nat) : Nat := r / 2 ^ 192 % 256
def recDiff (r : Nat) : Nat := r / 2 ^ 224

/-- A record from its fields. -/
def mkRecord (perm : List Nat) (shape scale diff : Nat) : Nat :=
  ((perm.zipIdx).map fun p => p.1 * 2 ^ (5 * p.2)).sum + shape * 2 ^ 160 + scale * 2 ^ 192 + diff * 2 ^ 224

/-- Width w and breakpoint limit n of a D format (R42); none for DT and DB. -/
def diffFormat (c : Nat) : Option (Nat × Nat) :=
  match c with
  | 0x19 => .some (4, 8) | 0x1A => .some (4, 16) | 0x1B => .some (8, 16)
  | 0x1C => .some (8, 32) | 0x1D => .some (12, 32) | 0x1E => .some (20, 32)
  | _ => .none

/-- The set bits of SHAPE, ascending. -/
def breakpoints (r : Nat) : List Nat := (List.range 32).filter fun j => (recShape r).testBit j

def recNneg (r : Nat) : Nat := recShape r % 64
def recNpos (r : Nat) : Nat := recShape r / 256 % 64

/-- A well-formed record of code c (R43). -/
def recordOk (c r : Nat) : Bool :=
  ((List.range 32).all (recPerm r).contains) && r / 2 ^ 200 % 2 ^ 24 == 0 &&
    match diffFormat c with
    | .some (w, n) =>
      let k := (breakpoints r).length
      decide (k ≤ n) && recDiff r / 2 ^ (w * k) == 0
    | .none =>
      recDiff r == 0 &&
        (if c = 0x18 then recShape r == recNneg r + 256 * recNpos r && decide (recNneg r + recNpos r ≤ 32)
         else recShape r == recNneg r && decide (recNneg r ≤ 32))

/-- Whether a record may stand in a slot: null, or well formed (R318). -/
def slotRecordOk (c r : Nat) : Bool := r == 0 || recordOk c r

/-- The difference d_m of breakpoint m, the k-th stored one (R42): d_0 is signed, the others are not. -/
def storedDiff (w r k m : Nat) : Int :=
  let d := recDiff r / 2 ^ (w * k) % 2 ^ w
  if m = 0 then intOf true w d else d

/-- S_m of R301: the sum of the permuted activations from place m on; `x` stands in the order π. -/
def suffixSum (x : List Int) (m : Nat) : Int := (x.drop m).sum

/-- The exact partial P of R301 for a record of code c; a null record gives 0. -/
def groupSum (c r : Nat) (x : List Int) : Int :=
  if r = 0 then 0
  else
    let y := (recPerm r).map fun i => x.getD i 0
    match diffFormat c with
    | .some (w, _) => (((breakpoints r).zipIdx).map fun p => storedDiff w r p.2 p.1 * suffixSum y p.1).sum
    | .none =>
      if c = 0x18 then suffixSum y (32 - recNpos r) - (suffixSum y 0 - suffixSum y (recNneg r))
      else 2 * suffixSum y (recNneg r) - suffixSum y 0

/-! ### Alignment (R299, R300) -/

/-- A row of 32 activations brought to fixed point: integers X and a unit exponent u; or a NaN or an infinity among them. -/
inductive Aligned where
  | nan
  | inf
  | num (x : List Int) (u : Int)
deriving DecidableEq, Repr

/-- The unit of R299 for the formats that are aligned exactly. -/
def fixedUnit (c : Nat) : Int :=
  match c with
  | 3 => -9 | 4 => -16 | 5 => -4 | 6 => -3 | 7 => -1 | _ => 0

/-- An element read by the array: FP32, BF16 and FP16 subnormals are zeros in both modes (R300). -/
def readActivation (c bits : Nat) : Val :=
  match c with
  | 0 => readFloat true .fp32 bits
  | 1 => readFloat true .bf16 bits
  | 2 => readFloat true .fp16 bits
  | _ => baseValue c bits

/-- x / 2^u toward zero. -/
def toFixed (u : Int) (v : Val) : Int :=
  match v with
  | .fin neg m e =>
    let k : Nat := if u ≤ e then m * 2 ^ (e - u).toNat else m / 2 ^ (u - e).toNat
    if neg then -(k : Int) else k
  | _ => 0

/-- floor(log2 |x|) of a finite nonzero element. -/
def topExponent (v : Val) : Option Int :=
  match v with
  | .fin _ m e => if m = 0 then .none else .some ((Nat.log2 m : Int) + e)
  | _ => .none

def isInf : Val → Bool
  | .inf _ => true
  | _ => false

/-- A row of activations of base code c aligned (R299, R300). -/
def alignRow (c : Nat) (xs : List Nat) : Aligned :=
  let vs := xs.map (readActivation c)
  if vs.any isNaN then .nan
  else if vs.any isInf then .inf
  else if c ≤ 2 then
    match vs.filterMap topExponent with
    | [] => .num (vs.map fun _ => 0) 0
    | e :: l =>
      let u := l.foldl max e - 31
      .num (vs.map (toFixed u)) u
  else .num (vs.map (toFixed (fixedUnit c))) (fixedUnit c)

/-! ### One group (R301) -/

/-- The FP32 partial of one row and one column, with its flags: sa is the activation scale, n the weight positions that are not
padding (R41), r the record of code c. -/
def groupPartial (c sa n r : Nat) (a : Aligned) : Nat × Flags :=
  let scale := if r = 0 then 127 else recScale r
  if scale = 255 || sa = 255 then (0x7FC00000, 0)
  else
    match a with
    | .nan => (0x7FC00000, 0)
    | .inf => (0x7FC00000, flNV)
    | .num x u =>
      let p := groupSum c r ((x.zipIdx).map fun q => if q.2 < n then q.1 else 0)
      writeFloat true .fp32 .rne (.fin (decide (p < 0)) p.natAbs (u + sa - 127 + scale - 127))

/-- The accumulator element after a group, with all flags of the two roundings. -/
def groupElement (old : Nat) (part : Nat × Flags) : Nat × Flags :=
  let (v, fl) := fAdd .fp32 .rne true old part.1
  (v, part.2 ||| fl)

/-! ### Encoding (R43, R44, R322) -/

/-- f of R322: the factor 2^f that makes every element an integer. -/
def encodeShift (c : Nat) : Nat := match c with | 7 => 1 | 6 => 3 | 5 => 4 | 3 => 9 | _ => 0

/-- The integer code of a dense weight; none for NaN (R44). -/
def weightInt (c bits : Nat) : Option Int :=
  match baseValue c bits with
  | .fin neg m e => .some (toFixed (-(encodeShift c : Int)) (.fin neg m e))
  | _ => .none

/-- The 32 weights of a group, `n` of them read, the others zero weights (R322). -/
def groupWeights (c n : Nat) (xs : List Nat) : List (Option Int) :=
  (xs.zipIdx).map fun p => if p.2 < n then weightInt c p.1 else .some 0

/-- Whether element i ranks before element j: NaN above every number, larger |w| first, ties to the lower index (R322). -/
def ranksBefore (w : List (Option Int)) (i j : Nat) : Bool :=
  match w.getD i (.some 0), w.getD j (.some 0) with
  | .none, .none => decide (i < j)
  | .none, .some _ => true
  | .some _, .none => false
  | .some a, .some b => decide (b.natAbs < a.natAbs) || (a.natAbs == b.natAbs && decide (i < j))

/-- Whether top-N selection keeps element i; N outside 1 to 32 keeps every one (R322). -/
def kept (n : Nat) (w : List (Option Int)) (i : Nat) : Bool :=
  n = 0 || 32 < n || decide (((List.range 32).filter fun j => j ≠ i && ranksBefore w j i).length < n)

/-- Whether weight i sorts before weight j: ascending, ties by index (R43). -/
def sortsBefore (w : List Int) (i j : Nat) : Bool :=
  decide (w.getD i 0 < w.getD j 0) || (w.getD i 0 == w.getD j 0 && decide (i < j))

def insertBy (p : Nat → Nat → Bool) (i : Nat) : List Nat → List Nat
  | [] => [i]
  | j :: l => if p i j then i :: j :: l else j :: insertBy p i l

/-- The canonical order π (R43). -/
def canonicalPerm (w : List Int) : List Nat :=
  (List.range 32).foldl (fun l i => insertBy (sortsBefore w) i l) []

/-- d_0 .. d_31 of a sorted list. -/
def differences : Int → List Int → List Int
  | _, [] => []
  | p, x :: l => (x - p) :: differences x l

/-- The canonical record of integer weights in code c, if they are representable in it (R43, R322). -/
def encodeRecord (c : Nat) (w : List Int) (scale : Nat) : Option Nat :=
  let perm := canonicalPerm w
  let sorted := perm.map fun i => w.getD i 0
  match diffFormat c with
  | .some (width, n) =>
    let d := differences 0 sorted
    let marked := (d.zipIdx).filter fun p => p.1 ≠ 0
    let fits := marked.length ≤ n && d.zipIdx.all fun p =>
      if p.2 = 0 then decide (-(2 ^ (width - 1) : Int) ≤ p.1) && decide (p.1 < 2 ^ (width - 1)) else decide (p.1 < 2 ^ width)
    if fits then
      .some (mkRecord perm ((marked.map fun p => 2 ^ p.2).sum) scale
        (((marked.zipIdx).map fun p => intBits width p.1.1 * 2 ^ (width * p.2)).sum))
    else .none
  | .none =>
    let neg := (w.filter (· = -1)).length
    let pos := (w.filter (· = 1)).length
    if c = 0x18 then
      if w.all fun x => x = -1 || x = 0 || x = 1 then .some (mkRecord perm (neg + 256 * pos) scale 0) else .none
    else if w.all fun x => x = -1 || x = 1 then .some (mkRecord perm neg scale 0)
    else .none

/-- The record that `menc` writes for a group of base code b into code c, with its flags (R322): `n` elements are read, `scale` is
the block's SE8 byte or 127, `top` is N. -/
def encodeGroup (b c n top scale : Nat) (xs : List Nat) : Nat × Flags :=
  let w := groupWeights b n xs
  let keep := (w.zipIdx).map fun p => if kept top w p.2 then p.1 else .some 0
  let f := encodeShift b
  if scale = 255 || keep.any Option.isNone then (mkRecord (List.range 32) 0 255 0, 0)
  else if scale < f then (0, flUF + flNX)
  else match encodeRecord c (keep.map fun x => x.getD 0) (scale - f) with
    | .some r => (r, 0)
    | .none => (0, flNV)

/-- The elements that `mcomp` writes back (R323): 0 for each that selection drops and for a kept non-canonical TERN zero. -/
def compressGroup (b n top : Nat) (xs : List Nat) : List Nat :=
  let w := groupWeights b n xs
  (xs.zipIdx).map fun p => if p.2 < n && kept top w p.2 && !(b = 14 && p.1 = 2) then p.1 else 0

/-- 32 elements of base code b packed into bytes. -/
def packElems (b : Nat) (xs : List Nat) : List Byte :=
  leBytes (4 * baseWidth b) (((xs.zipIdx).map fun p => p.1 * 2 ^ (baseWidth b * p.2)).sum)

end Sys2Proof.Machine
end

