-- ==== Sys2Proof/Machine/Flags.lean ====
section
/-! DEFINITION. Flags.lean: the flags that a scalar result carries to `fsr` and to the record of its slot (R129, R130, R145,
R172), and the results that the scalar slots form from two operands. -/

namespace Sys2Proof.Machine

/-- A result of latency `lat` with its flags: unless Q = 1 they go to `fsr` and to the record of slot A or B (R145). -/
def State.putFlags (s : State) (lat : Nat) (d : Dest) (v : Row512) (q : BitVec 1) (fl : Flags) : State :=
  let fl := if q = 1 then 0 else fl
  s.enq { due := s.tick + lat - 1, dest := d, val := v, fflags := BitVec.ofNat 5 fl, cls := BitVec.ofNat 5 fl
          slot := .some (s.cur.slot - 1) }

/-- A scalar result as the value of a pending write. -/
def wide (w : Word) : Row512 := w.setWidth 512

/-- A one-source operation without flags: d := f(a). -/
def State.scalar1 (s : State) (lat : Nat) (d a : BitVec 5) (f : Word → Word) : Res State := do
  let x ← s.src a 0
  s.room lat 0
  return (s.notePbnd [a]).put lat (.scalar d.toNat) (wide (f x))

/-- A two-source operation without flags: d := f(a, b). -/
def State.scalar2 (s : State) (lat : Nat) (d a b : BitVec 5) (f : Word → Word → Word) : Res State := do
  let (x, y) ← s.src2 a b
  s.room lat 0
  return (s.notePbnd [a, b]).put lat (.scalar d.toNat) (wide (f x y))

/-- A two-source FP32 operation with flags. -/
def State.float2 (s : State) (lat : Nat) (d a b : BitVec 5) (q : BitVec 1)
    (f : Round → Bool → Nat → Nat → Nat × Flags) : Res State := do
  let (x, y) ← s.src2 a b
  s.room lat 0
  let (r, fl) := f s.R.rm (!s.interlocked) x.toNat y.toNat
  return (s.notePbnd [a, b]).putFlags lat (.scalar d.toNat) (BitVec.ofNat 512 r) q fl

/-- A one-source FP32 operation or conversion with flags. -/
def State.float1 (s : State) (lat : Nat) (d a : BitVec 5) (q : BitVec 1)
    (f : Round → Bool → Nat → Nat × Flags) : Res State := do
  let x ← s.src a 0
  s.room lat 0
  let (r, fl) := f s.R.rm (!s.interlocked) x.toNat
  return (s.notePbnd [a]).putFlags lat (.scalar d.toNat) (BitVec.ofNat 512 r) q fl

/-- All 64 bits of a predicate alike (R125). -/
def predOf (b : Bool) : Row512 := if b then (BitVec.allOnes 64).setWidth 512 else 0

/-- A compare into a predicate without flags (R181). -/
def State.compare (s : State) (p : BitVec 3) (a b : BitVec 5) (f : Word → Word → Bool) : Res State := do
  let (x, y) ← s.src2 a b
  return (s.notePbnd [a, b]).put 1 (.pred p.toNat) (predOf (f x y))

/-- An FP32 compare into a predicate (R181). -/
def State.compareF (s : State) (p : BitVec 3) (a b : BitVec 5) (q : BitVec 1) (c : Nat) : Res State := do
  let (x, y) ← s.src2 a b
  let (t, fl) := fcmpElem c .fp32 (!s.interlocked) x.toNat y.toNat
  return (s.notePbnd [a, b]).putFlags 1 (.pred p.toNat) (predOf t) q fl

/-- A predicate operation (R152). -/
def State.predOp (s : State) (d : BitVec 3) (v : Mask) : State := s.put 1 (.pred d.toNat) (v.setWidth 512)

end Sys2Proof.Machine
end

