-- ==== Sys2Proof/Machine/Codec.lean ====
section
/-! DEFINITION. Codec.lean: the Z-block format (R280 to R283): the header, canonical codes, and what an expander produces from a
block's bytes. -/

namespace Sys2Proof.Machine

/-- CLEN of a header (R280). -/
def zClen (l : List Byte) : Nat := leNat ((l.drop 4).take 2)

/-- The code length of symbol n (R280). -/
def zLen (l : List Byte) (n : Nat) : Nat := leNat ((l.drop 6).take 10) / 2 ^ (4 * n) % 16

/-- Header byte 2 with its HEXP field set to a point (R276). -/
def zWithPoint (point : Nat) (b : Byte) : Byte := (b &&& 0xFC#8) ||| BitVec.ofNat 8 (point % 4)

/-- HEXP of a header (R280). -/
def zPoint (l : List Byte) : Nat := (l.getD 2 0).toNat % 4

/-- The header checks of R283. -/
def zHeaderOk (l : List Byte) : Bool :=
  let lens := (List.range 20).map (zLen l)
  let kraft := (lens.map fun n => if n = 0 then 0 else 2 ^ (15 - n)).sum
  l.getD 0 0 == 0x5A && l.getD 1 0 == 0x42 && decide ((l.getD 2 0).toNat < 4) && l.getD 3 0 == 0 && zLen l 19 == 0
    && lens.any (· ≠ 0) && decide (kraft ≤ 2 ^ 15) && decide (1 ≤ zClen l) && decide (zClen l ≤ 4080)

/-- A canonical code: its length, its bits, its symbol (R282). -/
abbrev ZCode := Nat × Nat × Nat

/-- The codes in the order of length, then symbol: each is the one before plus 1, shifted by the increase in length (R282). -/
def zCodesFrom : List (Nat × Nat) → Nat → Nat → List ZCode
  | [], _, _ => []
  | (n, sym) :: l, code, len =>
    let code := code * 2 ^ (n - len)
    (n, code, sym) :: zCodesFrom l (code + 1) n

/-- The canonical codes of a header (R282). -/
def zCodes (l : List Byte) : List ZCode :=
  let present := (List.range 16).flatMap fun n =>
    if n = 0 then [] else ((List.range 20).filter fun sym => zLen l sym == n).map fun sym => (n, sym)
  zCodesFrom present 0 ((present.map (·.1)).headD 0)

/-- The decoder: the body as a number with its bit count, the position, and the bytes produced, the latest first. -/
structure ZState where
  body : Nat
  bits : Nat
  pos : Nat := 0
  out : List Byte := []
  count : Nat := 0

/-- n bits, the least significant first (R282); none when a read passes the end of the body. -/
def ZState.take (z : ZState) (n : Nat) : Option (Nat × ZState) :=
  if z.bits < z.pos + n then .none else .some (z.body / 2 ^ z.pos % 2 ^ n, { z with pos := z.pos + n })

/-- n bits from the position on, zero past the end of the body: a match is carried out before the test that its fields lay in
the body (log entry 21). -/
def ZState.peek (z : ZState) (n : Nat) : Nat := z.body / 2 ^ z.pos % 2 ^ n

def ZState.skip (z : ZState) (n : Nat) : ZState := { z with pos := z.pos + n }

/-- A code word, its most significant bit first: its symbol, or the kind of the error (R283). -/
def ZState.symbol (codes : List ZCode) : Nat → Nat → Nat → ZState → Except Nat (Nat × ZState)
  | 0, _, _, _ => .error 2
  | k + 1, n, code, z =>
    match z.take 1 with
    | .none => .error 4
    | .some (b, z) =>
      let code := code * 2 + b
      match codes.find? fun c => c.1 == n + 1 && c.2.1 == code with
      | .some c => .ok (c.2.2, z)
      | .none => ZState.symbol codes k (n + 1) code z

/-- n literal bytes; the flag says that an error of kind 4 stopped it. -/
def ZState.literals : Nat → ZState → ZState × Bool
  | 0, z => (z, false)
  | n + 1, z =>
    if 4096 ≤ z.count then (z, true)
    else match z.take 8 with
      | .none => (z, true)
      | .some (b, z) => ZState.literals n { z with out := BitVec.ofNat 8 b :: z.out, count := z.count + 1 }

/-- n bytes copied one at a time from distance d. -/
def ZState.copy : Nat → Nat → ZState → ZState × Bool
  | 0, _, z => (z, false)
  | n + 1, d, z =>
    if 4096 ≤ z.count then (z, true)
    else ZState.copy n d { z with out := z.out.getD (d - 1) 0 :: z.out, count := z.count + 1 }

/-- The token loop of R283: what was produced, and the kind of the error that stopped it. -/
def ZState.run (codes : List ZCode) : Nat → ZState → ZState × Option Nat
  | 0, z => (z, .some 4)
  | k + 1, z =>
    match ZState.symbol codes 15 0 0 z with
    | .error e => (z, .some e)
    | .ok (sym, z) =>
      if sym = 18 then (z, if z.count = 4096 then .none else .some 4)
      else if sym < 8 then
        match z.take sym with
        | .none => (z, .some 4)
        | .some (x, z) =>
          let (z, e) := z.literals (2 ^ sym + x)
          if e then (z, .some 4) else ZState.run codes k z
      else
        let x := z.peek (sym - 8)
        let f := (z.skip (sym - 8)).peek 12
        let z := z.skip (sym + 4)
        if z.count < f + 1 then (z, .some 3)
        else
          let (z, e) := z.copy (2 ^ (sym - 8) + 2 + x) (f + 1)
          if e || z.bits < z.pos then (z, .some 4) else ZState.run codes k z

/-- An expanded block: 4,096 bytes, zeros after an error, and the error as its kind and the bytes produced (R283, R284). -/
structure ZBlock where
  bytes : List Byte
  err : Option (Nat × Nat)

/-- The expansion of a block's 16-byte header and body (R283). -/
def expandZ (l : List Byte) : ZBlock :=
  if !zHeaderOk l then { bytes := List.replicate 4096 0, err := .some (1, 0) }
  else
    let (z, e) := ZState.run (zCodes l) 32641 { body := leNat ((l.drop 16).take (zClen l)), bits := 8 * zClen l }
    { bytes := z.out.reverse ++ List.replicate (4096 - z.count) 0
      err := e.map fun k => (k, z.count) }

/-- The detail words of an expand error (R284): bytes produced, point, blocks in error, kind; and the block's index. -/
def expandDetail (produced point nerr kind : Nat) : Word :=
  BitVec.ofNat 32 (produced % 2 ^ 13 * 2 ^ 16 + point % 4 * 2 ^ 8 + Nat.min nerr 15 * 2 ^ 4 + kind % 16)

end Sys2Proof.Machine
end

