-- ==== Sys2Proof/Machine/Level.lean ====
section
/-! DEFINITION. Level.lean: reads and writes of the three kinds of memory, with all that a write does beside storing bytes:
write masks (R373), packed marks (R277), advanced-load entries (R206), expansion buffers (R279) and uncorrectable words (R188,
R192, R454); and the claims on the banks of HM (R198 to R202). -/

namespace Sys2Proof.Machine

/-! ### Reading -/

def State.memOf (s : State) : Space → Mem
  | .dev => s.dev
  | .hm h => (s.herd h).hm
  | .lm h c => (s.herd h).lm.getD c []

def State.readByte (s : State) (sp : Space) (a : Nat) : Byte := (s.memOf sp).read a

/-- The bytes at a list of addresses. -/
def State.readBytes (s : State) (sp : Space) (l : List Nat) : List Byte :=
  let m := s.memOf sp
  l.map m.read

def State.readRange (s : State) (sp : Space) (a n : Nat) : List Byte := (s.memOf sp).readN a n

/-- Whether two data banks of a group of HM have failed hard (R192): 0 to 17 are the banks of G0, 18 to 35 those of G1. -/
def Herd.groupLost (x : Herd) (g : Nat) : Bool := 2 ≤ (x.retired.filter fun b => b / 18 == g).length

/-- The codeword of a byte of HM: its stripe (0 to 2,047 in G0, from 2,048 on in G1) and its position in the lines (R190, R191). -/
def codewordOf (a : Nat) : Nat × Nat := (a / 1024, a % 64)

/-- Whether a read of this byte meets an error that cannot be corrected (R188, R192, R454). -/
def State.badByte (s : State) (sp : Space) (a : Nat) : Bool :=
  match sp with
  | .dev => s.devBad.contains (a / 64)
  | .hm h => (s.herd h).hmBad.contains (codewordOf a) || (s.herd h).groupLost (a / 2 ^ 21)
  | .lm h c => (s.herd h).lmBad.contains (c, a / 4)

def State.anyBad (s : State) (sp : Space) (l : List Nat) : Bool := l.any (s.badByte sp)

/-- The group of a stripe of HM (R191). -/
def stripeGroup (stripe : Nat) : Nat := stripe / 2048

/-- Whether the symbol errors of a codeword are beyond correction: those in a retired bank are erasures and do not count; two others
are, and one is beside a retired bank of the group (R192). -/
def Herd.beyond (x : Herd) (stripe : Nat) (banks : List Nat) : Bool :=
  let g := stripeGroup stripe
  let wrong := banks.eraseDups.filter fun b => !x.retired.contains (g * 18 + b)
  decide (2 ≤ wrong.length) || (!wrong.isEmpty && x.retired.any fun b => b / 18 == g)

/-- An error arises in a memory (R101, R188, R192, R454; log entry 49). -/
def State.upset (s : State) (u : Upset) : State :=
  match u with
  | .line n => if s.devBad.contains n then s else { s with devBad := n :: s.devBad }
  | .lmWord h c w => s.modHerd h fun x => if x.lmBad.contains (c, w) then x else { x with lmBad := (c, w) :: x.lmBad }
  | .storeWord h w => s.modHerd h fun x => if x.storeBad.contains w then x else { x with storeBad := w :: x.storeBad }
  | .codeword h stripe pos banks => s.modHerd h fun x =>
      if x.beyond stripe banks && !x.hmBad.contains (stripe, pos) then { x with hmBad := (stripe, pos) :: x.hmBad } else x

/-! ### Writing -/

/-- Units of n bytes of which a write covers every byte. -/
def wholeUnits (n : Nat) (bytes : List (Nat × Byte)) : List Nat :=
  let l := bytes.map (·.1)
  ((l.map (· / n)).eraseDups).filter fun u => (List.range n).all fun i => l.contains (u * n + i)

/-- The space in which a call's child boxes lie (R10). -/
def Call.space (k : Call) : Space := if k.level = 2 then .hm k.target else .lm k.herd k.target

/-- Whether a word lies where some writable argument of the call does. -/
def Call.covers (k : Call) (w : Nat) : Bool :=
  k.args.any fun a => boxWrites a.childBox && boxBase a.childBox / 4 ≤ w && w * 4 < boxEnd a.childBox

/-- The write masks after a write by a frame of level `lvl` (R373): the words of running children in that space, except where
the write is the parent's own. -/
def Call.mark (sp : Space) (lvl : Nat) (words : List Nat) (k : Call) : Call :=
  if k.space = sp && decide (lvl ≤ k.level) && (k.state == .running || k.state == .returned) then
    { k with masks := (words.filter fun w => k.covers w && !k.masks.contains (sp, w)).map (fun w => (sp, w)) ++ k.masks }
  else k

/-- What a write to LM does in the core that owns it (R206, R279). -/
def Core.noteWrite (k : Core) (l : List Nat) : Core :=
  { k with
    table := k.table.filter fun e => !e.reach.any l.contains
    xbuf := match k.xbuf with
      | .some (p, _) => if l.any fun a => a / 4096 == p then .none else k.xbuf
      | .none => .none }

/-- Bytes written to a memory by a frame of level `lvl` (0 where no frame writes). -/
def State.writeBytes (s : State) (sp : Space) (lvl : Nat) (bytes : List (Nat × Byte)) : State :=
  let l := bytes.map (·.1)
  let pages := l.map (· / 4096)
  let words := (l.map (· / 4)).eraseDups
  let s : State := match sp with
    | .dev =>
      let whole := wholeUnits 64 bytes
      { s with dev := s.dev.writes bytes, devBad := s.devBad.filter fun x => !whole.contains x }
    | .hm h =>
      s.modHerd h fun x =>
        { x with hm := x.hm.writes bytes, hmMarks := x.hmMarks.filter fun p => !pages.contains p }
    | .lm h c =>
      let whole := wholeUnits 4 bytes
      s.modHerd h fun x =>
        { x with
          lm := x.lm.modify c fun m => m.writes bytes
          lmMarks := x.lmMarks.filter fun p => !(p.1 == c && pages.contains p.2)
          lmBad := x.lmBad.filter fun p => !(p.1 == c && whole.contains p.2)
          cores := x.cores.modify c fun k => k.noteWrite l }
  { s with calls := s.calls.map (Call.mark sp lvl words) }

/-- The zero-fill of a herd (R193): HM and the LM of its cores, marks and errors with them. -/
def State.zeroFill (s : State) (h : Nat) : State :=
  s.modHerd h fun x => { x with hm := [], lm := List.replicate 4 [], lmBad := [], hmBad := [], hmMarks := [], lmMarks := [] }

/-- Whether a page of HM, or of a core's LM, is marked packed (R277). -/
def State.marked (s : State) (sp : Space) (page : Nat) : Bool :=
  match sp with
  | .dev => false
  | .hm h => (s.herd h).hmMarks.contains page
  | .lm h c => (s.herd h).lmMarks.contains (c, page)

def State.setMark (s : State) (sp : Space) (page : Nat) : State :=
  match sp with
  | .dev => s
  | .hm h => s.modHerd h fun x => { x with hmMarks := page :: x.hmMarks.filter (· ≠ page) }
  | .lm h c => s.modHerd h fun x => { x with lmMarks := (c, page) :: x.lmMarks.filter (· ≠ (c, page)) }

/-! ### Bank claims (R198 to R202) -/

/-- The bank of an HM address: 0 to 15 in G0, 16 to 31 in G1 (R190). -/
def bankOf (a : Nat) : Nat := a / 2 ^ 21 % 2 * 16 + a / 64 % 16

/-- The banks of the lines that a window of n bytes from a reaches (R198). -/
def banksOf (a n : Nat) : List Nat :=
  (((List.range ((a + n - 1) / 64 - a / 64 + 1)).map fun i => bankOf ((a / 64 + i) * 64))).eraseDups

/-- The claim that stands on a bank in a cycle. -/
def Herd.claimOn (x : Herd) (t b : Nat) : Option Agent :=
  (x.claims.find? fun k => k.at_ == t && k.bank == b).map (·.agent)

def Herd.freeBanks (x : Herd) (t : Nat) (l : List Nat) : Bool := l.all fun b => (x.claimOn t b).isNone

/-- Claims of an agent on banks for a cycle; claims on cycles that are past are forgotten. -/
def Herd.claimAll (x : Herd) (now t : Nat) (l : List Nat) (a : Agent) : Herd :=
  { x with
    claims := (l.map fun b => { at_ := t, bank := b, agent := a }) ++ x.claims.filter fun k => decide (now ≤ k.at_) }

/-- A core's claims on HM banks for its sample cycle, its perform cycle, or both (R198); a claim that meets one that stands
loses (R200, R201): the bank-conflict fault in exposed mode, a hold in interlocked mode. -/
def State.claimCore (s : State) (times : List Nat) (banks : List Nat) : Res State :=
  let x := s.herd s.cur.herd
  if times.all fun t => x.freeBanks t banks then
    .ok (s.modHerd s.cur.herd fun x => times.foldl (fun x t => x.claimAll s.tick t banks (.core s.cur.core)) x)
  else if s.interlocked then .error .hold
  else raise 5

/-! ### Performing a core's stores -/

/-- A store of the executing core, to perform at cycle t (R197). -/
def State.store (s : State) (t : Nat) (sp : Space) (bytes : List (Nat × Byte)) : State :=
  (s.modMe fun k => { k with stores := k.stores ++ [{ due := t, space := sp, level := s.level, bytes := bytes }] }).planEv
    t 2 0 .memoryPerform { a := s.cur.herd, b := s.cur.core }

/-- The first store of a core that is due performs (R197). -/
def State.performStore (s : State) (h c : Nat) : State :=
  match (s.core h c).stores.find? fun x => decide (x.due ≤ s.tick) with
  | .none => s
  | .some x => (s.modCore h c fun k => { k with stores := k.stores.erase x }).writeBytes x.space x.level x.bytes

/-- MEMORY_PERFORM (R197): core ev.b of herd ev.a performs a store that is due. -/
def execMemoryPerform (s : State) : Out := .next (s.performStore s.ev.a s.ev.b)

end Sys2Proof.Machine
end

