-- ==== Sys2Proof/Machine/LocalMem.lean ====
section
/-! DEFINITION. LocalMem.lean: the meanings of the L and H slots (LMEM, HMEM, LSPEC, HATOM; R194 to R210) and of the K slot
(SCALE; R239 to R242). A load issued at c reads memory as it stands at its issue, which is what its sample at c + 1 sees: every
perform of cycle c has taken place and none of c + 1 has (R189, R197). -/

namespace Sys2Proof.Machine

/-! ### Where an access goes (R194 to R196) -/

/-- An access that has passed its checks: its memory, the byte it starts at, and the bytes of its window that it reaches. -/
structure Reach where
  space : Space
  addr : Nat
  count : Nat
deriving DecidableEq, Repr

def Reach.addrs (x : Reach) : List Nat := (List.range x.count).map (x.addr + ·)

/-- The memory of a level for the executing core (R10). -/
def State.space (s : State) (level : Nat) : Space :=
  if level = 1 then .lm s.cur.herd s.cur.core else .hm s.cur.herd

/-- The checks of R196 for an access of `size` bytes through handle h at path p with a column offset: `scalar` when all of it must
lie in the row, `align` what A must be a multiple of. `level` is the level that the slot reaches. -/
def State.access (s : State) (h : BitVec 4) (p : Word) (off : Int) (level : Nat) (rd wr scalar : Bool) (size align : Nat) :
    Res Reach := do
  let b ← s.box h.toNat
  if (rd && !boxReads b) || (wr && !boxWrites b) || boxBlocked b || s.level ≠ level || (level ≠ 1 && level ≠ 2) then raise 9
  else if !inBox b (pathRow p) (pathCol p off) then raise 10
  else
    let row := (pathRow p).toNat
    let col := (pathCol p off).toNat
    let a := elemAddr b 0 0 row col
    let fin := elemAddr b 0 0 row 0 + runBytes (boxTile b) (boxFmt b) (boxExt b 0)
    if scalar && fin < a + size then raise 10
    else if col * boxWidth b % 8 ≠ 0 || a % align ≠ 0 then raise 11
    else .ok { space := s.space level, addr := a, count := Nat.min size (fin - a) }

/-- A read that meets an error it cannot correct is fatal, cause 3 (R188, R192). -/
def State.readable (s : State) (sp : Space) (l : List Nat) : Res Unit :=
  if s.anyBad sp l then raise 31 3 else .ok ()

/-- The bank claims of an access of `size` bytes: none in LM (R187, R198). -/
def State.claimReach (s : State) (x : Reach) (size : Nat) (times : List Nat) : Res State :=
  match x.space with
  | .hm _ => s.claimCore times (banksOf x.addr size)
  | _ => .ok s

/-- The cycle in which a store of a level performs (R197). -/
def State.performAt (s : State) (level : Nat) : Nat := if level = 1 then s.tick + 1 else s.tick + 2

/-- The bytes of a row window as a row: bytes that the access does not reach are zero (R195). -/
def rowOf (l : List Byte) : Row512 := BitVec.ofNat 512 (leNat l)

/-! ### Scalar loads and stores (R203) -/

/-- The latency of a scalar load and of a row load at a level (R135). -/
def loadLatency (level : Nat) : Nat := if level = 1 then 3 else 6
def rowLatency (level : Nat) : Nat := if level = 1 then 4 else 7

/-- A scalar load of n bytes, zero-extended (R203). -/
def State.loadScalar (s : State) (level n : Nat) (d : BitVec 5) (h : BitVec 4) (p off : BitVec 5) : Res State := do
  let path ← s.src p 0
  let s := s.notePbnd [p]
  let x ← s.access h path off.toInt level true false true n n
  s.room (loadLatency level) 0
  let s ← s.claimReach x n [s.tick + 1]
  s.readable x.space x.addrs
  return s.put (loadLatency level) (.scalar d.toNat) (BitVec.ofNat 512 (leNat (s.readRange x.space x.addr n)))

/-- A scalar store of the n low bytes of its source (R203). -/
def State.storeScalar (s : State) (level n : Nat) (a : BitVec 5) (h : BitVec 4) (p off : BitVec 5) : Res State := do
  let (v, path) ← s.src2 a p
  let s := s.notePbnd [a, p]
  let x ← s.access h path off.toInt level false true true n n
  let s ← s.claimReach x n [s.performAt level]
  return s.store (s.performAt level) x.space (bytesAt x.addr (leBytes n v.toNat))

/-! ### Row loads and stores (R204) -/

/-- The row cursor steps at the end of the issue cycle (R204). -/
def State.stepRow (s : State) (step : Bool) : State :=
  if step then s.put 1 .rcur ((s.R.rcur + 1).setWidth 512) else s

/-- The page is sampled, expanded and kept; a decode error is a trap due after the load has landed (R284). -/
def State.expandMiss (s : State) (x : Reach) (page at_ : Nat) : Res (Row512 × Nat × State) := do
  let l := (List.range 4096).map (page * 4096 + ·)
  s.readable x.space l
  let z := expandZ (s.readBytes x.space l)
  let s := s.modMe fun k => { k with xbuf := .some (page, z.bytes), xbusy := s.tick + 73 }
  let s := match z.err with
    | .none => s
    | .some (kind, n) =>
      let c := (s.R.ctx).getD 0
      s.plan (s.tick + 76) 0 0 (.asyncDue s.cur.herd s.cur.core
        { cls := 19, d0 := expandDetail n 3 1 kind, d1 := BitVec.ofNat 32 page, ctx := c, owner := c })
  return (rowOf ((z.bytes.drop at_).take x.count), 76, s)

/-- A load of an expanded row from a marked page (R279): the bytes of the window, and the load's latency. -/
def State.expandRow (s : State) (x : Reach) : Res (Row512 × Nat × State) :=
  let page := x.addr / 4096
  let at_ := x.addr % 4096
  if s.tick < s.me.xbusy then (if s.interlocked then .error .hold else raise 4)
  else
    match s.me.xbuf with
    | .some (p, l) =>
      if p = page then .ok (rowOf ((l.drop at_).take x.count), 4, s) else s.expandMiss x page at_
    | .none => s.expandMiss x page at_

/-- The row that a row load reads, with its latency (R204, R279). -/
def State.readRow (s : State) (level : Nat) (x : Reach) : Res (Row512 × Nat × State) := do
  let pages := (x.addr / 4096) :: (if x.addr % 4096 ≤ 4032 then [] else [x.addr / 4096 + 1])
  if level = 1 && pages.any (s.marked x.space) then
    if pages.length = 2 then raise 11 else s.expandRow x
  else
    s.readable x.space x.addrs
    return (rowOf (s.readRange x.space x.addr x.count), rowLatency level, s)

/-- A row load by row-step code (R204). -/
def State.loadRow (s : State) (level : Nat) (t : BitVec 3) (code : Nat) (h : BitVec 4) (p off : BitVec 5) : Res State := do
  let path ← s.src p 0
  let s := s.notePbnd [p]
  let x ← s.access h path off.toInt level true false false 64 (if code < 2 then 64 else 1)
  let s ← s.claimReach x 64 [s.tick + 1]
  let (v, lat, s) ← s.readRow level x
  s.room lat 1
  return (s.enq { due := s.tick + lat - 1, dest := .tileRow t.toNat s.R.rcur.toNat, val := v, mask := BitVec.allOnes 64 }).stepRow
    (code % 2 = 1)

/-- The bytes of a row at its reached addresses, those that the mask has. -/
def rowBytes (x : Reach) (v : Row512) (m : Mask) : List (Nat × Byte) :=
  ((List.range x.count).filter fun k => m.getLsbD k).map fun k => (x.addr + k, BitVec.extractLsb' (8 * k) 8 v)

/-- A row store by row-step code; the unaligned ones take their mask from the predicate that the offset field names (R204). -/
def State.storeRow (s : State) (level : Nat) (t : BitVec 3) (code : Nat) (h : BitVec 4) (p off : BitVec 5) : Res State := do
  let n := s.R.rcur.toNat
  s.liveRow t.toNat n
  let path ← s.src p 0
  let s := s.notePbnd [p]
  let x ← s.access h path (if code < 2 then off.toInt else 0) level false true false 64 (if code < 2 then 64 else 1)
  let s ← s.claimReach x 64 [s.performAt level]
  let m := if code < 2 then BitVec.allOnes 64 else s.R.pred (off.toNat % 8)
  return (s.store (s.performAt level) x.space (rowBytes x (s.R.row t.toNat n) m)).stepRow (code % 2 = 1)

/-! ### LMEM and HMEM -/

/-- LMEM op 0 (R203). -/
def execLmemLdb (d : BitVec 5) (h : BitVec 4) (p f : BitVec 5) (s : State) : Out := s.answer (s.loadScalar 1 1 d h p f)

/-- LMEM op 1 (R203). -/
def execLmemLdh (d : BitVec 5) (h : BitVec 4) (p f : BitVec 5) (s : State) : Out := s.answer (s.loadScalar 1 2 d h p f)

/-- LMEM op 2 (R203). -/
def execLmemLdw (d : BitVec 5) (h : BitVec 4) (p f : BitVec 5) (s : State) : Out := s.answer (s.loadScalar 1 4 d h p f)

/-- LMEM op 3 (R203). -/
def execLmemStb (a : BitVec 5) (h : BitVec 4) (p f : BitVec 5) (s : State) : Out := s.answer (s.storeScalar 1 1 a h p f)

/-- LMEM op 4 (R203). -/
def execLmemSth (a : BitVec 5) (h : BitVec 4) (p f : BitVec 5) (s : State) : Out := s.answer (s.storeScalar 1 2 a h p f)

/-- LMEM op 5 (R203). -/
def execLmemStw (a : BitVec 5) (h : BitVec 4) (p f : BitVec 5) (s : State) : Out := s.answer (s.storeScalar 1 4 a h p f)

/-- LMEM op 6 (R204). -/
def execLmemTldr (t : BitVec 3) (c : BitVec 2) (h : BitVec 4) (p f : BitVec 5) (s : State) : Out :=
  s.answer (s.loadRow 1 t c.toNat h p f)

/-- LMEM op 7 (R204). -/
def execLmemTstr (t : BitVec 3) (c : BitVec 2) (h : BitVec 4) (p f : BitVec 5) (s : State) : Out :=
  s.answer (s.storeRow 1 t c.toNat h p f)

/-- HMEM op 0 (R203). -/
def execHmemLdb (d : BitVec 5) (h : BitVec 4) (p f : BitVec 5) (s : State) : Out := s.answer (s.loadScalar 2 1 d h p f)

/-- HMEM op 1 (R203). -/
def execHmemLdh (d : BitVec 5) (h : BitVec 4) (p f : BitVec 5) (s : State) : Out := s.answer (s.loadScalar 2 2 d h p f)

/-- HMEM op 2 (R203). -/
def execHmemLdw (d : BitVec 5) (h : BitVec 4) (p f : BitVec 5) (s : State) : Out := s.answer (s.loadScalar 2 4 d h p f)

/-- HMEM op 3 (R203). -/
def execHmemStb (a : BitVec 5) (h : BitVec 4) (p f : BitVec 5) (s : State) : Out := s.answer (s.storeScalar 2 1 a h p f)

/-- HMEM op 4 (R203). -/
def execHmemSth (a : BitVec 5) (h : BitVec 4) (p f : BitVec 5) (s : State) : Out := s.answer (s.storeScalar 2 2 a h p f)

/-- HMEM op 5 (R203). -/
def execHmemStw (a : BitVec 5) (h : BitVec 4) (p f : BitVec 5) (s : State) : Out := s.answer (s.storeScalar 2 4 a h p f)

/-- HMEM op 6 (R204). -/
def execHmemTldr (t : BitVec 3) (c : BitVec 2) (h : BitVec 4) (p f : BitVec 5) (s : State) : Out :=
  s.answer (s.loadRow 2 t c.toNat h p f)

/-- HMEM op 7 (R204). -/
def execHmemTstr (t : BitVec 3) (c : BitVec 2) (h : BitVec 4) (p f : BitVec 5) (s : State) : Out :=
  s.answer (s.storeRow 2 t c.toNat h p f)

/-! ### LSPEC (R205 to R208) -/

/-- An entry of the address table for a destination: none for scalar 0 (R206). -/
def Core.enterLoad (k : Core) (e : AdvLoad) : Core :=
  if e.dest = .scalar 0 then k
  else
    let l := k.table.filter fun x => x.dest ≠ e.dest
    { k with table := (if l.length < 16 then l else l.drop 1) ++ [e] }

/-- The entry that a check load finds standing (R207). -/
def Core.standing (k : Core) (d : Dest) (a width : Nat) : Option AdvLoad :=
  k.table.find? fun e => e.dest = d && e.addr == a && e.width == width

/-- What an advanced load or a check load of `width` bytes reads (R206, R207): the bytes of its window, and the table after it. -/
def State.specLoad (s : State) (check : Bool) (dest : Dest) (x : Reach) (width : Nat) : Res (Row512 × State) := do
  match (if check then s.me.standing dest x.addr width else .none) with
  | .some e => return (e.bytes, s.modMe fun k => { k with table := k.table.filter fun y => y.dest ≠ dest })
  | .none =>
    s.readable x.space x.addrs
    let v := rowOf (s.readRange x.space x.addr x.count)
    return (v, s.modMe fun k =>
      if check then { k with table := k.table.filter fun y => y.dest ≠ dest }
      else k.enterLoad { dest := dest, addr := x.addr, width := width, reach := x.addrs, bytes := v })

/-- `ldwa` and `ldwc` (R205 to R207). -/
def State.specWord (s : State) (check : Bool) (d : BitVec 5) (h : BitVec 4) (p f : BitVec 5) : Res State := do
  let path ← s.src p 0
  let s := s.notePbnd [p]
  let x ← s.access h path f.toInt 1 true false true 4 4
  s.room 3 0
  let (v, s) ← s.specLoad check (.scalar d.toNat) x 4
  return s.put 3 (.scalar d.toNat) v

/-- `tldra` and `tldrc` (R205 to R207); a marked page refuses both (R279). -/
def State.specRow (s : State) (check : Bool) (t : BitVec 3) (step : Bool) (h : BitVec 4) (p f : BitVec 5) : Res State := do
  let path ← s.src p 0
  let s := s.notePbnd [p]
  let x ← s.access h path f.toInt 1 true false false 64 64
  if s.marked x.space (x.addr / 4096) then raise 9
  else
    s.room 4 1
    let dest : Dest := .tileRow t.toNat s.R.rcur.toNat
    let (v, s) ← s.specLoad check dest x 64
    return (s.enq { due := s.tick + 3, dest := dest, val := v, mask := BitVec.allOnes 64 }).stepRow step

/-- `ldwa` (R206). -/
def execLdwa (d : BitVec 5) (h : BitVec 4) (p f : BitVec 5) (s : State) : Out := s.answer (s.specWord false d h p f)

/-- `ldwc` (R207). -/
def execLdwc (d : BitVec 5) (h : BitVec 4) (p f : BitVec 5) (s : State) : Out := s.answer (s.specWord true d h p f)

/-- `tldra` (R206). -/
def execTldra (t : BitVec 3) (c : BitVec 1) (h : BitVec 4) (p f : BitVec 5) (s : State) : Out :=
  s.answer (s.specRow false t (c = 1) h p f)

/-- `tldrc` (R207). -/
def execTldrc (t : BitVec 3) (c : BitVec 1) (h : BitVec 4) (p f : BitVec 5) (s : State) : Out :=
  s.answer (s.specRow true t (c = 1) h p f)

/-- `atclr` (R208): entries that overlap the bytes of the window inside the row go; only handle and bounds are checked. -/
def execAtclr (h : BitVec 4) (p f : BitVec 5) (s : State) : Out :=
  s.answer do
    let path ← s.src p 0
    let s := s.notePbnd [p]
    let b ← s.box h.toNat
    if !inBox b (pathRow path) (pathCol path f.toInt) then raise 10
    else
      let row := (pathRow path).toNat
      let a := elemAddr b 0 0 row (pathCol path f.toInt).toNat
      let fin := elemAddr b 0 0 row 0 + runBytes (boxTile b) (boxFmt b) (boxExt b 0)
      return s.modMe fun k => { k with
        table := k.table.filter fun e => !e.reach.any fun q => decide (a ≤ q) && decide (q < Nat.min (a + 64) fin) }

/-- `atclr.all` (R208). -/
def execAtclrAll (s : State) : Out := .next (s.modMe fun k => { k with table := [] })

/-! ### HATOM (R209, R210) -/

/-- The new word of an atomic: 0 add, 1 swap, 2 compare and swap with v2, 3 min, 4 max, 5 and, 6 or, 7 xor (R209). -/
def atomicNew (op : Nat) (old v v2 : Word) : Word :=
  match op with
  | 0 => old + v
  | 1 => v
  | 2 => if old = v then v2 else old
  | 3 => if old.toInt ≤ v.toInt then old else v
  | 4 => if v.toInt ≤ old.toInt then old else v
  | 5 => old &&& v
  | 6 => old ||| v
  | _ => old ^^^ v

/-- An atomic (R209): both bank cycles claimed, the old word to sN at latency 6, the new word at c + 2. -/
def State.atomic (s : State) (op : Nat) (n : BitVec 5) (h : BitVec 4) (p f : BitVec 5) : Res State := do
  let v ← s.reg n.toNat
  let v2 ← if op = 2 then s.reg (n.toNat + 1) else .ok 0
  let path ← s.src p 0
  let s := s.notePbnd [p]
  let x ← s.access h path f.toInt 2 true true true 4 4
  s.room 6 0
  let s ← s.claimReach x 4 [s.tick + 1, s.tick + 2]
  s.readable x.space x.addrs
  let old : Word := BitVec.ofNat 32 (leNat (s.readRange x.space x.addr 4))
  let s := s.store (s.tick + 2) x.space (bytesAt x.addr (leBytes 4 (atomicNew op old v v2).toNat))
  return s.put 6 (.scalar n.toNat) (wide old)

/-- `amadd` (R209). -/
def execAmadd (n : BitVec 5) (h : BitVec 4) (p f : BitVec 5) (s : State) : Out := s.answer (s.atomic 0 n h p f)

/-- `amswap` (R209). -/
def execAmswap (n : BitVec 5) (h : BitVec 4) (p f : BitVec 5) (s : State) : Out := s.answer (s.atomic 1 n h p f)

/-- `amcas` (R209). -/
def execAmcas (n : BitVec 5) (h : BitVec 4) (p f : BitVec 5) (s : State) : Out := s.answer (s.atomic 2 n h p f)

/-- `ammin` (R209). -/
def execAmmin (n : BitVec 5) (h : BitVec 4) (p f : BitVec 5) (s : State) : Out := s.answer (s.atomic 3 n h p f)

/-- `ammax` (R209). -/
def execAmmax (n : BitVec 5) (h : BitVec 4) (p f : BitVec 5) (s : State) : Out := s.answer (s.atomic 4 n h p f)

/-- `amand` (R209). -/
def execAmand (n : BitVec 5) (h : BitVec 4) (p f : BitVec 5) (s : State) : Out := s.answer (s.atomic 5 n h p f)

/-- `amor` (R209). -/
def execAmor (n : BitVec 5) (h : BitVec 4) (p f : BitVec 5) (s : State) : Out := s.answer (s.atomic 6 n h p f)

/-- `amxor` (R209). -/
def execAmxor (n : BitVec 5) (h : BitVec 4) (p f : BitVec 5) (s : State) : Out := s.answer (s.atomic 7 n h p f)

/-! ### SCALE (R239 to R242) -/

/-- The level that `kld` and `kst` reach: the task's own; a chip task has none (R241). -/
def State.kLevel (s : State) : Nat := if s.level = 1 then 1 else 2

/-- `kld` (R241). -/
def execKld (h : BitVec 4) (a : BitVec 5) (k : BitVec 3) (s : State) : Out :=
  s.answer do
    let path ← s.src a 0
    let s := s.notePbnd [a]
    let x ← s.access h path 0 s.kLevel true false false 64 1
    s.room 5 1
    let s ← s.claimReach x 64 [s.tick + 1]
    s.readable x.space x.addrs
    return s.enq { due := s.tick + 4, dest := .scale k.toNat, val := rowOf (s.readRange x.space x.addr x.count)
                   mask := BitVec.allOnes 64 }

/-- `kst` (R241). -/
def execKst (h : BitVec 4) (a : BitVec 5) (k : BitVec 3) (s : State) : Out :=
  s.answer do
    let path ← s.src a 0
    let s := s.notePbnd [a]
    let x ← s.access h path 0 s.kLevel false true false 64 1
    let s ← s.claimReach x 64 [s.performAt s.kLevel]
    return s.store (s.performAt s.kLevel) x.space (rowBytes x (s.R.k.getD k.toNat 0) (BitVec.allOnes 64))

/-- `kbase` (R240). -/
def execKbase (a : BitVec 5) (s : State) : Out :=
  s.answer do
    let x ← s.src a 0
    return (s.notePbnd [a]).put 1 .winBase (wide (x &&& 0xFF#32))

/-- `krow` (R240). -/
def execKrow (a : BitVec 5) (s : State) : Out :=
  s.answer do
    let x ← s.src a 0
    return (s.notePbnd [a]).put 1 .rcur (wide (x &&& 0x1F#32))

/-- `kset` (R240): byte b[5:0] of kN. -/
def execKset (a b : BitVec 5) (k : BitVec 3) (s : State) : Out :=
  s.answer do
    let (x, y) ← s.src2 a b
    let j := y.toNat % 64
    return (s.notePbnd [a, b]).enq
      { due := s.tick, dest := .scale k.toNat, val := BitVec.ofNat 512 (x.toNat % 256 * 2 ^ (8 * j))
        mask := BitVec.ofNat 64 (2 ^ j) }

/-- `kset.all` (R240). -/
def execKsetAll (a : BitVec 5) (k : BitVec 3) (s : State) : Out :=
  s.answer do
    let x ← s.src a 0
    return (s.notePbnd [a]).enq
      { due := s.tick, dest := .scale k.toNat, val := rowOf (List.replicate 64 (x.setWidth 8)), mask := BitVec.allOnes 64 }

end Sys2Proof.Machine
end

