-- ==== Sys2Proof/Machine/Translate.lean ====
section
/-! DEFINITION. Translate.lean: page tables and the composed translation (R75 to R81), with the look-aside buffer of a herd's
walker. A translation reads its entries from memory as it stands when the command issues (log entry 10). -/

namespace Sys2Proof.Machine

/-- A refused translation (R78, R79, R390): class 27 or 28, the owner, whether the refused access was a write, the address in the
space of the owner's child. -/
structure Refused where
  cls : Nat
  owner : Nat
  write : Bool
  va : Nat
deriving DecidableEq, Repr

/-- The trap of a refused translation with its detail words (R390); the box-access and bad-descriptor faults have none. -/
def Refused.trap (r : Refused) : Trap :=
  if r.cls < 27 then { cls := r.cls, owner := .some r.owner }
  else { cls := r.cls, d0 := BitVec.ofNat 32 r.va, owner := .some r.owner
         d1 := BitVec.ofNat 32 ((if r.write then 2 ^ 31 else 0) + r.va / 2 ^ 32 % 2 ^ 16) }

/-- What an access asks of every stage: a read, a write, or both (`wamo`, R266). -/
inductive Ask where
  | read | write | both
deriving DecidableEq, Repr

def Ask.reads : Ask → Bool | .write => false | _ => true
def Ask.writes : Ask → Bool | .read => false | _ => true

/-- The buffer as a walk leaves it, and the physical addresses of the entries it read, in order. -/
structure Walk where
  tlb : List TlbEntry
  reads : List Nat := []

/-- Where a page lies: physical address, page size, what each stage grants. -/
structure Place where
  pa : Nat
  size : Nat
  stages : List Stage

/-- The levels of R76: the lowest index bit, the entries, and what a page or a next table found there is aligned to. -/
structure TableLevel where
  lo : Nat
  entries : Nat
  leaf : Option Nat
  next : Option Nat

/-- Levels A to D (R76, R77). -/
def tableLevels : List TableLevel :=
  [{ lo := 39, entries := 512, leaf := .none, next := .some 4096 }, { lo := 30, entries := 512, leaf := .none, next := .some 4096 },
    { lo := 21, entries := 512, leaf := .some (2 ^ 21), next := .some 256 }, { lo := 16, entries := 32, leaf := .some (2 ^ 16), next := .none }]

/-- ADDR of an entry (R77). -/
def pteAddr (e : Nat) : Nat := e / 256 % 2 ^ 40 * 256

/-- A well-formed entry at a level (R77). -/
def pteOk (l : TableLevel) (e : Nat) : Bool :=
  let leaf := e.testBit 1
  e / 2 ^ 48 == 0 && e / 32 % 8 == 0 &&
    (if leaf then match l.leaf with | .some n => pteAddr e % n == 0 | .none => false
     else match l.next with | .some n => e / 4 % 8 == 0 && pteAddr e % n == 0 | .none => false)

/-- The first stage that does not grant what is asked, RD tested before WR (R78, R266). -/
def refusedStage (parent : Nat → Nat) (k : Ask) (off : Nat) : List Stage → Option Refused
  | [] => .none
  | g :: l =>
    if k.reads && !g.rd then .some { cls := 28, owner := parent g.ctx, write := false, va := g.base + off }
    else if k.writes && !g.wr then .some { cls := 28, owner := parent g.ctx, write := true, va := g.base + off }
    else refusedStage parent k off l

/-- An entry loaded into the buffer: 512 at most, 384 of them locked, the least recently used unlocked one displaced (R80). -/
def loadTlb (l : List TlbEntry) (e : TlbEntry) : List TlbEntry :=
  let l := l.filter fun x => !(x.ctx == e.ctx && x.va == e.va && x.size == e.size)
  let e := { e with locked := e.locked && decide ((l.filter (·.locked)).length < 384) }
  let l := if l.length < 512 then l
    else match l.find? fun x => !x.locked with
      | .some x => l.erase x
      | .none => l.drop 1
  l ++ [e]

def hitTlb (l : List TlbEntry) (x va : Nat) : Option TlbEntry :=
  l.find? fun e => e.ctx == x && decide (e.va ≤ va) && decide (va < e.va + e.size)

/-- The device-memory word of 8 bytes at an address. -/
def State.read8 (s : State) (a : Nat) : Nat := leNat (s.dev.readN a 8)

/-- The walk of one stage of context x through the levels, each entry's address composed in the parent's space (R78). `up` is the
parent's composition. -/
def State.descend (s : State) (up : Nat → Ask → Walk → Walk × Except Refused Place) (x p va : Nat) (k : Ask) :
    List TableLevel → Nat → Walk → Walk × Except Refused Place
  | [], _, w => (w, .error { cls := 27, owner := p, write := k == .write, va := va })
  | l :: ls, t, w =>
    match up (t + 8 * (va / 2 ^ l.lo % l.entries)) .read w with
    | (w, .error e) => (w, .error e)
    | (w, .ok at_) =>
      let w := { w with reads := w.reads ++ [at_.pa] }
      let e := s.read8 at_.pa
      if !e.testBit 0 || !pteOk l e then (w, .error { cls := 27, owner := p, write := k == .write, va := va })
      else if !e.testBit 1 then s.descend up x p va k ls (pteAddr e) w
      else
        let size := l.leaf.getD 1
        if k.reads && !e.testBit 2 then (w, .error { cls := 28, owner := p, write := false, va := va })
        else if k.writes && !e.testBit 3 then (w, .error { cls := 28, owner := p, write := true, va := va })
        else
          let pa := pteAddr e + va % size
          match up pa k w with
          | (w, .error f) => (w, .error f)
          | (w, .ok q) =>
            let m := Nat.min size q.size
            let stages := { ctx := x, rd := e.testBit 2, wr := e.testBit 3, base := va - va % m } ::
              q.stages.map fun g : Stage => { g with base := g.base + (pa % q.size - pa % m) }
            let entry : TlbEntry :=
              { ctx := x, va := va - va % m, size := m, pa := q.pa - va % m, stages := stages, locked := e.testBit 4 }
            ({ w with tlb := loadTlb w.tlb entry }, .ok { pa := q.pa, size := m, stages := stages })

/-- The composed translation of R78, at most n stages deep. What it gives of the root's space is a physical address, whatever it is: one at
or past the end of device memory is memory too, since the spec names no fault for it (DESIGN CHOICE, log entry 41). -/
def State.compose (s : State) : Nat → Nat → Nat → Ask → Walk → Walk × Except Refused Place
  | 0, _, va, _, w => (w, .ok { pa := va, size := 2 ^ 48, stages := [] })
  | n + 1, x, va, k, w =>
    match (s.ctx x).parent with
    | .none => (w, .ok { pa := va, size := 2 ^ 48, stages := [] })
    | .some p =>
      match hitTlb w.tlb x va with
      | .some e =>
        let w := { w with tlb := w.tlb.erase e ++ [e] }
        match refusedStage (fun c => ((s.ctx c).parent).getD 0) k (va - e.va) e.stages with
        | .some f => (w, .error f)
        | .none => (w, .ok { pa := e.pa + (va - e.va), size := e.size, stages := e.stages })
      | .none => s.descend (s.compose n p) x p va k tableLevels (s.ctx x).troot w

/-- The translation of an address of context x. -/
def State.translate (s : State) (x va : Nat) (k : Ask) (w : Walk) : Walk × Except Refused Place := s.compose 5 x va k w

/-- A walk that meets a table line with an uncorrectable error: no byte of the line is delivered (R454), so that the walk ends with its read,
loads no entry and gives its command no address. Class 31 stands for the fatal fault of that read. -/
def State.judgeWalk {α : Type} (s : State) (tlb : List TlbEntry) (q : Walk × Except Refused α) : Walk × Except Refused α :=
  match q.1.reads.findIdx? fun a => s.devBad.contains (a / 64) with
  | .none => q
  | .some i => ({ tlb := tlb, reads := q.1.reads.take (i + 1) }, .error { cls := 31, owner := 0, write := false, va := 0 })

/-- Entries of a set of contexts leave every buffer (R82). -/
def State.flushTlb (s : State) (xs : List Nat) : State :=
  { s with herds := s.herds.map fun h : Herd => { h with tlb := h.tlb.filter fun e => !xs.contains e.ctx } }

/-- A stretch of a space cut at multiples of 64 KiB: address and length. -/
def pagePieces (a n : Nat) : List (Nat × Nat) :=
  if n = 0 then []
  else ((List.range ((a % 65536 + n + 65535) / 65536)).map fun i =>
    let lo := Nat.max a ((a / 65536 + i) * 65536)
    (lo, Nat.min (a + n) ((a / 65536 + i + 1) * 65536) - lo))

/-- A stretch of a context's space through its translation: for each piece its offset, where it lies and its length; with the table
entries that the translation read. No page of the translation is smaller than a piece (R76). -/
def State.spacePieces (s : State) (x a n : Nat) (k : Ask) : Except Refused (List (Nat × Nat × Nat) × List Nat) :=
  (pagePieces a n).foldlM (fun acc p => do
    let (w, r) := s.translate x p.1 k { tlb := [] }
    let q ← r
    return (acc.1 ++ [(p.1 - a, q.pa, p.2)], acc.2 ++ w.reads)) ([], [])

/-- Whether an access to a stretch of a space meets a line with an uncorrectable error, among the bytes it reads or the table entries of
its translation (R454). -/
def State.spaceBad (s : State) (x a n : Nat) (k : Ask) : Bool :=
  match s.spacePieces x a n k with
  | .ok (l, reads) =>
    (reads.any fun p => s.devBad.contains (p / 64))
      || (k.reads && l.any fun p => s.devBad.any fun line => decide (p.2.1 / 64 ≤ line) && decide (line * 64 < p.2.1 + p.2.2))
  | .error _ => false

/-- Bytes of a context's space; the refusal when some byte is refused. Used where the spec gives no schedule: images, records, save
areas (R62, R409). -/
def State.readSpace (s : State) (x a n : Nat) : Except Refused (List Byte) := do
  let (l, _) ← s.spacePieces x a n .read
  return l.flatMap fun p => s.dev.readN p.2.1 p.2.2

/-- Bytes written to a context's space; nothing is written when some byte is refused. -/
def State.writeSpace (s : State) (x a : Nat) (l : List Byte) : Except Refused State := do
  let pairs := bytesAt a l
  let pages := (pairs.map fun p => p.1 / 65536).eraseDups
  let bases ← pages.mapM fun g => do
    let q ← (s.translate x (g * 65536) .write { tlb := [] }).2
    return (g, q.pa)
  let place (p : Nat × Byte) : Nat × Byte :=
    (((bases.find? fun g => g.1 == p.1 / 65536).map (·.2)).getD 0 + p.1 % 65536, p.2)
  return s.writeBytes .dev 3 (pairs.map place)

end Sys2Proof.Machine
end

