-- ==== Sys2Proof/Machine/Schedule.lean ====
section
/-! DEFINITION. Schedule.lean: the schedules of walker commands (R247 to R255, R262): calendars of pseudo-channels, beats and what
apertures make of them (R269 to R278), the places of beats, packed blocks and whole moves. -/

namespace Sys2Proof.Machine

/-! ### Calendars and searches -/

/-- The first t from a start on that satisfies p, within a bound on the search. -/
def searchFrom (p : Nat → Bool) : Nat → Nat → Nat
  | 0, t => t
  | k + 1, t => if p t then t else searchFrom p k (t + 1)

/-- The device memory of R2 and R427: 12 stacks of 48 GB, which are decimal (R5). -/
def deviceBytes : Nat := 12 * 48 * 10 ^ 9

/-- The lines of device memory that a pseudo-channel serves: those of its remainder by 3,072 (R247). -/
def channelLines (pc : Nat) : Nat := (deviceBytes / 64 + 3071 - pc) / 3072

/-- The lines of RESV set apart for the copy of a channel, the n-th to be retired: whole rows of 3,072, of which those on the channels retired
by then hold nothing (R442; DEDUCED, log entry 23). -/
def resvLines (n channel : Nat) : Nat := 3072 * ((channelLines channel + 3070 - n) / (3071 - n))

/-- The lines of RESV that retired channels fill (R442). -/
def linesFilled (l : List Retired) : Nat := ((l.zipIdx).map fun p => resvLines p.2 p.1.channel).sum

/-- The n-th line from line `base` on that lies on none of the channels `gone`. -/
def lineBeside (base : Nat) (gone : List Nat) (n : Nat) : Nat :=
  let k := 3072 - gone.length
  base + 3072 * (n / k) + ((List.range 3072).filter fun i => !gone.contains ((base + i) % 3072)).getD (n % k) 0

/-- The channel that serves a line, RESV being filled from line `base` on for the retired channels that are listed, after `gone`: a line whose
channel is retired and copied is served where its copy lies, which a later retirement may move again (R442). -/
def servedFrom (base : Nat) (gone : List Nat) : List Retired → Nat → Nat
  | [], line => line % 3072
  | r :: l, line =>
    servedFrom (base + resvLines gone.length r.channel) (gone ++ [r.channel]) l
      (if r.copied && line % 3072 == r.channel then lineBeside base (gone ++ [r.channel]) (line / 3072) else line)

/-- The pseudo-channel that serves a line: its own (R247), or, once its channel is retired, one that holds RESV (R442; log entry
23 for the layout of RESV). -/
def State.channelOf (s : State) (line : Nat) : Nat := servedFrom ((deviceBytes - s.plat.cfg.resv) / 64) [] s.plat.retired line

/-- Whether a slot of 11 cycles from t overlaps none that begins in the cycles of a list (R247). -/
def slotBeside (busy : List Nat) (t : Nat) : Bool := busy.all fun p => decide (p + 11 ≤ t) || decide (t + 11 ≤ p)

/-- The earliest free slot at or after r beside those of a list. -/
def firstSlot (busy : List Nat) (r : Nat) : Nat := searchFrom (slotBeside busy) (21 * busy.length + 1) r

/-- The lines of a run on a channel. -/
def SlotRun.linesOn (b : SlotRun) (pc : Nat) : Nat :=
  let d := (pc + 3072 - b.first % 3072) % 3072
  if d < b.count then (b.count - d + 3071) / 3072 else 0

/-- n slots, one after another, from cycle t on. -/
def slotRow (busy : List Nat) : Nat → Nat → List Nat
  | 0, _ => []
  | n + 1, t => let u := firstSlot busy t; u :: slotRow busy n (u + 11)

/-- The first cycles of the slots that some runs hold on a channel. -/
def runSlots (pc : Nat) : List SlotRun → List Nat
  | [] => []
  | b :: l =>
    let old := runSlots pc l
    if b.linesOn pc = 0 then old
    else old ++ slotRow (old ++ (b.skip.filter fun p => p.1 == pc).map (·.2)) (b.linesOn pc) b.from_

/-- The first cycles of the slots that stand reserved on a channel. -/
def State.slotsOn (s : State) (pc : Nat) : List Nat := (s.calendar.filter fun p => p.1 == pc).map (·.2) ++ runSlots pc s.runs

/-- Whether a slot of 11 cycles from t is free on a channel (R247). -/
def State.slotFree (s : State) (pc t : Nat) : Bool := slotBeside (s.slotsOn pc) t

/-- The earliest free slot at or after r on a channel (R253). -/
def State.freeSlot (s : State) (pc r : Nat) : Nat := firstSlot (s.slotsOn pc) r

/-- A slot reserved; slots that are past are forgotten. -/
def State.takeSlot (s : State) (pc t : Nat) : State :=
  { s with calendar := (pc, t) :: s.calendar.filter fun p => decide (s.tick ≤ p.2 + 11) }

def State.dropSlot (s : State) (pc t : Nat) : State := { s with calendar := s.calendar.erase (pc, t) }

/-- The untimed slots of n accesses that copy a retired channel, none before this cycle: which they are is free (R442; DESIGN CHOICE,
log entry 57). -/
def State.takeOpen (s : State) (n : Nat) : State :=
  let (k, s) := s.fresh
  { s with calendar := ((Config.openSlots k).take n).foldl (fun l p =>
      if decide (s.tick ≤ p.2) && decide (p.1 < 3072) && ({ s with calendar := l } : State).slotFree p.1 p.2 then p :: l else l) s.calendar }

/-- The slots of a run of lines that is accessed without a schedule, from cycle t on; runs that are past are forgotten. -/
def State.takeRun (s : State) (t first count : Nat) : State :=
  let runs := if s.runs.all fun b => decide (b.last + 11 < s.tick) then [] else s.runs
  let skip := s.calendar.filter fun p => decide (t < p.2 + 11)
  let rows := ((runs.map fun b => b.count / 3072 + 1).sum + count / 3072 + 1)
  { s with runs := { from_ := t, first := first, count := count, skip := skip, last := t + 22 * (rows + skip.length) } :: runs }

/-- The slots of the lines of some bytes of a context's space, which are read or written without a schedule: from a free cycle on, each on
its own channel (R248; DESIGN CHOICE, log entry 57). What the translation refuses takes none. -/
def State.takeRange (s : State) (x a n : Nat) (ask : Ask) : State :=
  let (k, s) := s.fresh
  match s.spacePieces x a n ask with
  | .error _ => s
  | .ok (l, _) => l.foldl (fun (s : State) p =>
      s.takeRun (s.tick + 1 + Config.openDelay k % 256) (p.2.1 / 64) ((p.2.1 + p.2.2 + 63) / 64 - p.2.1 / 64)) s

/-- The cycle after the last slot of the runs that stand reserved, on the channels with which they begin. -/
def State.runsEnd (s : State) : Nat :=
  s.runs.foldl (fun m b => (runSlots (b.first % 3072) s.runs).foldl (fun m t => Nat.max m (t + 11)) m) s.tick

/-- The walk's entry reads, one after another, each with what its sample does: the cycle at which the last becomes usable (R253). -/
def State.chainReads (s : State) (use : Nat → Act) : List Nat → Nat → State × Nat
  | [], r => (s, r)
  | a :: l, r =>
    let pc := s.channelOf (a / 64)
    let t := s.freeSlot pc r
    ((s.takeSlot pc t).plan t 1 0 (use (a / 64))).chainReads use l (t + 94)

/-- The entry reads of a walk of a command of context x, whose trap record would name the bundle at `addr` (R253, R454). -/
def State.walkReads (s : State) (x : Nat) (addr : BitVec 16) (reads : List Nat) (r : Nat) : State × Nat :=
  s.chainReads (fun line => .walkRead x line addr) reads r

/-- A table-walk read samples its line: one with an uncorrectable error is fatal when its data would be usable (R454). -/
def State.walkSample (s : State) (x line : Nat) (addr : BitVec 16) : State :=
  let s := s.charge x 12 1
  if s.devBad.contains line then s.plan (s.tick + 94) 0 0 (.fatalDue x 3 addr) else s

/-! ### Beats -/

/-- The herd in which a level memory lies. -/
def Space.herd : Space → Option Nat
  | .dev => .none
  | .hm h => .some h
  | .lm h _ => .some h

def Space.isHm : Space → Bool
  | .hm _ => true
  | _ => false

/-- The lines of some addresses, in order of first appearance. -/
def linesOf (l : List Nat) : List Nat := (l.map (· / 64)).eraseDups

/-- The banks that a beat claims in a memory (R198). -/
def banksIn (sp : Space) (l : List Nat) : List Nat := if sp.isHm then (l.map bankOf).eraseDups else []

/-- Beats of a herd's walker that perform into, or are sampled from, its level memory in cycle t (R252). -/
def Beat.performsIn (h t : Nat) (b : Beat) : Bool :=
  b.dstSpace.herd == .some h && b.performAt == t && !b.abandoned && !b.dst.isEmpty
def Beat.samplesIn (h t : Nat) (b : Beat) : Bool :=
  b.srcSpace.herd == .some h && b.sampleAt == t && !b.abandoned && !b.expanded && !b.shared

/-- A schedule in the making: the state with its reservations, the beats so far, the blocks, the command's number; whether receivers
share what the command reads (R262); whether it is made at the command's issue; and the beats whose claims lost to an array command of
that cycle (R202). -/
structure Plan where
  s : State
  id : Nat
  beats : List Beat := []
  blocks : List PackedBlock := []
  mcast : Bool := false
  issuing : Bool := false
  lost : List Nat := []
  /-- the cycles from issue to the promise of a command that moves nothing -/
  least : Nat := 0

def Plan.countIn (p : Plan) (f : Beat → Bool) : Nat :=
  ((p.s.cmds.filter fun c => c.id != p.id).map fun c => (c.beats.filter f).length).sum + (p.beats.filter f).length

/-- The reads of a herd's memory in cycle t that only expand a block (R278). -/
def Plan.blockReads (p : Plan) (h t : Nat) : Nat :=
  (((p.s.cmds.filter fun c => c.id != p.id).flatMap (·.packed) ++ p.blocks).map fun q =>
    if q.space.herd = .some h && !q.shared then (q.reads.filter fun r => r.2 == t).length else 0).sum

def isArrayAgent : Agent → Bool
  | .arrayA _ | .arrayB _ => true
  | _ => false

/-- Whether a claim stands by an array command that issues in this cycle (R202). -/
def Herd.newArrayClaim (x : Herd) (now : Nat) (a : Agent) : Bool :=
  match a with
  | .arrayA id | .arrayB id => x.array.cmds.any fun c => c.id == id && c.at_ == now
  | _ => false

/-- Whether a command may claim banks in cycle t: a claim that an array command makes in the cycle of the command's issue is not seen
by its schedule (R202, R337). -/
def Plan.banksFree (p : Plan) (h t : Nat) (banks : List Nat) : Bool :=
  let x := p.s.herd h
  banks.all fun b => match x.claimOn t b with
    | .none => true
    | .some a => p.issuing && x.newArrayClaim p.s.tick a

/-- Whether a beat may perform at t into a memory: banks unclaimed, fewer than 8 in the cycle (R252, R253). -/
def Plan.performFree (p : Plan) (sp : Space) (banks : List Nat) (t : Nat) : Bool :=
  match sp.herd with
  | .none => true
  | .some h => p.banksFree h t banks && decide (p.countIn (Beat.performsIn h t) < 8)

def Plan.sampleFree (p : Plan) (sp : Space) (banks : List Nat) (t : Nat) : Bool :=
  match sp.herd with
  | .none => true
  | .some h => p.banksFree h t banks && decide (p.countIn (Beat.samplesIn h t) + p.blockReads h t < 8)

/-- A bound on how far a search for a free cycle can go. -/
def Plan.fuel (p : Plan) : Nat :=
  (p.s.herds.map fun h => h.claims.length).sum * 2 + (p.s.cmds.map fun c => c.beats.length).sum + p.beats.length * 2 + 8

/-- The claims of a beat; one that meets a claim which an array command makes in the same cycle loses and holds nothing (R202). -/
def Plan.claim (p : Plan) (sp : Space) (banks : List Nat) (t beat : Nat) : Plan :=
  match sp.herd with
  | .none => p
  | .some h =>
    let x := p.s.herd h
    if banks.isEmpty then p
    else if p.issuing && banks.any fun b => (x.claimOn t b).any (x.newArrayClaim p.s.tick) then { p with lost := p.lost ++ [beat] }
    else { p with s := p.s.modHerd h fun x => x.claimAll p.s.tick t banks (.walker p.id beat) }

/-- Slots for each line, each the earliest free at or after r (R253). -/
def takeSlots (s : State) (r : Nat) : List Nat → State × List (Nat × Nat)
  | [] => (s, [])
  | line :: l =>
    let pc := s.channelOf line
    let t := s.freeSlot pc r
    let (s, rest) := takeSlots (s.takeSlot pc t) r l
    (s, (line, t) :: rest)

def lastSlot (l : List (Nat × Nat)) : Nat := l.foldl (fun m p => max m p.2) 0

/-- One beat placed (R253): `c` is the command's issue, `r` the cycle from which its slots may start, `lo` the earliest perform. A
beat of a `wmcast` after the first receiver's shares its slot, or its sample (R262). -/
def Plan.place (p : Plan) (c r lo : Nat) (share : Option Beat) (b : Beat) : Plan :=
  let i := p.beats.length
  let sb := banksIn b.srcSpace b.src
  let db := banksIn b.dstSpace b.dst
  if b.expanded then
    let t := searchFrom (p.performFree b.dstSpace db) p.fuel (max b.performAt lo)
    let q := p.claim b.dstSpace db t i
    { q with beats := q.beats ++ [{ b with performAt := t }] }
  else if b.srcSpace = .dev then
    let (p, slots) := match share with
      | .some a => (p, a.slots)
      | .none => let (s, slots) := takeSlots p.s r (linesOf b.src); ({ p with s := s }, slots)
    let t := searchFrom (p.performFree b.dstSpace db) p.fuel (max (lastSlot slots + 94) lo)
    let q := p.claim b.dstSpace db t i
    { q with beats := q.beats ++ [{ b with slots := slots, performAt := t, shared := share.isSome }] }
  else if b.dstSpace = .dev then
    let t := searchFrom (p.sampleFree b.srcSpace sb) p.fuel (c + 3)
    let q := p.claim b.srcSpace sb t i
    let (s, slots) := takeSlots q.s (max (max (t + 65) r) (lo - 10)) (linesOf b.dst)
    { q with s := s, beats := q.beats ++ [{ b with slots := slots, sampleAt := t, performAt := lastSlot slots + 10 }] }
  else
    match share with
    | .some a =>
      let t := searchFrom (p.performFree b.dstSpace db) p.fuel (max (a.sampleAt + 2) lo)
      let q := p.claim b.dstSpace db t i
      { q with beats := q.beats ++ [{ b with sampleAt := a.sampleAt, performAt := t, shared := true }] }
    | .none =>
      let ok (t : Nat) : Bool := p.sampleFree b.srcSpace sb t && p.performFree b.dstSpace db (t + 2)
      let t := searchFrom ok p.fuel (max (c + 3) (lo - 2))
      let q := (p.claim b.srcSpace sb t i).claim b.dstSpace db (t + 2) i
      { q with beats := q.beats ++ [{ b with sampleAt := t, performAt := t + 2 }] }

/-- The beat of another receiver of a `wmcast` that reads what this one does (R262). -/
def Plan.twin (p : Plan) (b : Beat) : Option Beat :=
  if p.mcast then p.beats.find? fun a => a.part != b.part && !a.shared && !a.expanded && !a.performed && !a.abandoned
    && a.srcSpace == b.srcSpace && a.src == b.src && a.post == b.post
  else .none

/-- A beat placed with what it shares. -/
def Plan.placeNext (p : Plan) (c r lo : Nat) (b : Beat) : Plan := p.place c r lo (p.twin b) b

/-- The earliest perform of a beat after every earlier beat, of a kind, that writes one of its bytes (R263, R369). -/
def Plan.after (p : Plan) (b : Beat) : Nat :=
  p.beats.foldl (fun m a =>
    if a.dstSpace = b.dstSpace && a.dst.any b.dst.contains then max m (a.performAt + 1) else m) 0

/-- The same for the beats of other arguments only (R369). -/
def Plan.afterParts (p : Plan) (b : Beat) : Nat :=
  p.beats.foldl (fun m a =>
    if a.part ≠ b.part && a.dstSpace = b.dstSpace && a.dst.any b.dst.contains then max m (a.performAt + 1) else m) 0

/-! ### Sub-boxes and their rows (R21, R37, R250) -/

def Geo.origins (g : Geo) : List Nat := [g.o0.toNat, g.o1.toNat, g.o2.toNat, g.o3.toNat]
def Geo.extents (g : Geo) : List Nat := [g.e0.toNat, g.e1.toNat, g.e2.toNat, g.e3.toNat]

/-- The tests of R21 and R37 for a sub-box given by its origins, signed, and its extents. -/
def subBoxOk (b : BitVec 256) (o e : List Nat) : Bool :=
  let d := boxDims b
  let dimOk (k : Nat) : Bool :=
    let ok := o.getD k 0
    let ek := e.getD k 0
    if k ≤ d then decide (1 ≤ ek) && decide (ok + ek ≤ boxExt b k)
    else ok == 0 && decide (ek ≤ 1)
  [0, 1, 2, 3].all dimOk
    && (if boxBlocked b then
          o.getD 0 0 % 32 == 0 && (e.getD 0 0 % 32 == 0 || o.getD 0 0 + e.getD 0 0 == boxExt b 0)
        else o.getD 0 0 * boxWidth b % 8 == 0)

/-- The extents with 1 for a dimension that the box does not use. -/
def usedExtents (b : BitVec 256) (e : List Nat) : List Nat :=
  (List.range 4).map fun k => if k ≤ boxDims b then e.getD k 1 else 1

/-- The first byte of each row of a sub-box, in ascending order of dimensions 3, 2 and 1 (R250). -/
def rowStarts (b : BitVec 256) (o e : List Nat) : List Nat :=
  let e := usedExtents b e
  (List.range (e.getD 3 1)).flatMap fun i3 => (List.range (e.getD 2 1)).flatMap fun i2 =>
    (List.range (e.getD 1 1)).map fun i1 =>
      elemAddr b (o.getD 3 0 + i3) (o.getD 2 0 + i2) (o.getD 1 0 + i1) (o.getD 0 0)

/-- The bytes of each row. -/
def rowLength (b : BitVec 256) (e : List Nat) : Nat := runBytes (boxTile b) (boxFmt b) (e.getD 0 0)

/-- A contiguous run that a command moves: from, to, bytes; where its last block has padding, the block's offset in the run, the bits of
its elements that are none, and the bytes of its elements (R36). -/
structure Run where
  src : Nat
  dst : Nat
  len : Nat
  keep : Option (Nat × Nat × Nat) := .none

/-- The padding in the rows of a sub-box of these extents: it ends with a part of a block only at the last column (R36, R37). -/
def rowPadding (b : BitVec 256) (e : List Nat) : Option (Nat × Nat × Nat) :=
  let n := e.getD 0 0
  let w := baseWidth (baseCode (boxCode b))
  if isBlockCode (boxCode b) && n % 32 ≠ 0 then .some (n / 32 * blockBytes (boxFmt b), n % 32 * w, 4 * w) else .none

/-- Which bits stay of the bytes of a run that stands at an address of level memory; bytes that stay whole are not listed. -/
def Run.mask (r : Run) (at_ : Nat) : List (Nat × Byte) :=
  match r.keep with
  | .none => []
  | .some (off, bits, n) => (List.range n).filterMap fun i =>
      if 8 * (i + 1) ≤ bits then .none else .some (at_ + off + i, BitVec.ofNat 8 (2 ^ (bits - 8 * i) - 1))

/-- A byte with its padding bits zero. -/
def maskByte (l : List (Nat × Byte)) (a : Nat) (v : Byte) : Byte :=
  match l.find? fun p => p.1 == a with
  | .some p => v &&& p.2
  | .none => v

/-- The cuts of a run at 64-byte boundaries of `key`: offset and length of each part (R252). -/
def cutRun (key len : Nat) : List (Nat × Nat) :=
  (List.range ((key % 64 + len + 63) / 64)).map fun i =>
    let lo := if i = 0 then 0 else 64 * i - key % 64
    (lo, Nat.min len (64 * (i + 1) - key % 64) - lo)

def addrRun (a n : Nat) : List Nat := (List.range n).map (a + ·)

/-! ### Apertures (R269 to R278) -/

/-- Two ranges (start, length) that share a byte. -/
def rangesMeet (a b : Nat × Nat) : Bool := decide (0 < a.2) && decide (0 < b.2) && decide (a.1 < b.1 + b.2) && decide (b.1 < a.1 + a.2)

def Aperture.covers (a : Aperture) (pa : Nat) : Bool := decide (a.vbase ≤ pa) && decide (pa < a.vbase + a.vlen)

/-- The aperture registers as commands that issue in this cycle see them: `apset` and `apclr` change them for later ones (R269, R286,
R287). -/
def State.aperturesSeen (s : State) : List (Option Aperture) :=
  if s.aperturesWas.1 = s.tick + 1 then s.aperturesWas.2 else s.apertures

/-- Whether a device box may reach n bytes from pa (R272): through its own valid aperture, or through none. -/
def State.apertureOk (s : State) (b : BitVec 256) (pa n : Nat) : Bool :=
  if boxAv b then
    match s.aperturesSeen.getD (boxAper b) .none with
    | .some a => a.covers pa && a.covers (pa + n - 1)
    | .none => false
  else s.aperturesSeen.all fun a => match a with
    | .some x => !rangesMeet (x.vbase, x.vlen) (pa, n)
    | .none => true

/-- The aperture through which a device box is seen. -/
def State.apertureOf (s : State) (b : BitVec 256) : Option Aperture :=
  if boxAv b then s.aperturesSeen.getD (boxAper b) .none else .none

/-- The stored byte of a view byte through TILE32 (R273). -/
def tileStored (a : Aperture) (pa : Nat) : Nat :=
  let w := 2 ^ a.param0
  let k := a.param1
  let v := pa - a.vbase
  let row := v / (32 * k * w)
  let col := v % (32 * k * w) / w
  a.vbase + ((row / 32 * k + col / 32) * 1024 + row % 32 * 32 + col % 32) * w + v % w

/-- Bytes of a store block of narrow index n (R229). -/
def storeBlock (n : Nat) : Nat := (narrowFmt n).bytes

/-- The store block of a SCALEVIEW view byte: its addresses (R274). -/
def scaleStored (a : Aperture) (pa : Nat) : List Nat :=
  addrRun (a.sbase + (pa - a.vbase) / 64 * storeBlock a.param0) (storeBlock a.param0)

/-- Consecutive stored addresses grouped into runs that lie in one line. -/
def groupLines : List (Nat × Nat) → List (List (Nat × Nat))
  | [] => []
  | p :: l => match groupLines l with
    | (q :: g) :: gs => if q.1 = p.1 + 1 && q.1 % 64 ≠ 0 then (p :: q :: g) :: gs else [p] :: (q :: g) :: gs
    | gs => [p] :: gs

/-- The beats of one part of a row on its device side, at physical address pa, level address at_ (R252, R273, R274); PACK reads
are formed by block. -/
def deviceBeats (ap : Option Aperture) (down : Bool) (sp : Space) (va pa at_ len : Nat) : List Beat :=
  let plain : Beat :=
    if down then { srcSpace := .dev, src := addrRun pa len, dstSpace := sp, dst := addrRun at_ len, va := .some va }
    else { srcSpace := sp, src := addrRun at_ len, dstSpace := .dev, dst := addrRun pa len, va := .some va }
  match ap with
  | .none => [plain]
  | .some a =>
    if a.xf = 2 then
      (groupLines ((List.range len).map fun i => (tileStored a (pa + i), at_ + i))).map fun g =>
        if down then { srcSpace := .dev, src := g.map (·.1), dstSpace := sp, dst := g.map (·.2) }
        else { srcSpace := sp, src := g.map (·.2), dstSpace := .dev, dst := g.map (·.1) }
    else if a.xf = 3 then
      if down then
        [{ srcSpace := .dev, src := scaleStored a pa, dstSpace := sp, dst := addrRun at_ len,
           post := .scaleRead a.param0 ((pa - a.vbase) % 64) len }]
      else [{ srcSpace := sp, src := addrRun at_ len, dstSpace := .dev, dst := scaleStored a pa, post := .scaleWrite a.param0 }]
    else [{ plain with va := .none }]

/-- The view bytes of one packed block that a command delivers: offset in the block, memory, address. -/
structure BlockPart where
  block : Nat
  off : Nat
  space : Space
  addr : Nat
  len : Nat
  part : Nat := 0
  mask : List (Nat × Byte) := []
  /-- the place of its cut in the order of R252 -/
  key : Nat := 0

/-- Whether the parts of one receiver move a whole block into an aligned slot: the slot (R276). -/
def wholeSlot (l : List BlockPart) : Option Nat :=
  match l with
  | [] => .none
  | p :: _ =>
    let base := p.addr - p.off
    if p.off ≤ p.addr && base % 4096 = 0 && l.all (fun q => q.off ≤ q.addr && q.addr - q.off == base)
        && (l.map (·.len)).sum = 4096 then .some base
    else .none

/-- The expanded beats of some parts of a block, cut at 64-byte offsets (R278). -/
def expandedBeats (k ready : Nat) (l : List BlockPart) : List Beat :=
  l.flatMap fun p => (cutRun p.off p.len).map fun q =>
    { srcSpace := .dev, src := addrRun (p.off + q.1) q.2, dstSpace := p.space, dst := addrRun (p.addr + q.1) q.2,
      block := .some k, expanded := true, performAt := ready, part := p.part, mask := p.mask, num := p.key }

/-- The beat number under which the j-th read that only expands block k claims its bank. -/
def readAgent (k j : Nat) : Nat := 65536 + 128 * k + j

/-- The lines of a packed block with these header bytes (R278). -/
def packedLines (addr : Nat) (header : List Byte) : List Nat := linesOf (addrRun addr (Nat.min (16 + zClen header) 4096))

/-- The reads of some lines of a block's HM page, each in a free cycle from `lo` on, as reads number `j` and up of block k. -/
def Plan.placeReads (p : Plan) (k lo : Nat) (sp : Space) (lines : List Nat) : Plan :=
  lines.foldl (fun (p : Plan) line =>
    let banks := banksIn sp [line * 64]
    let t := searchFrom (p.sampleFree sp banks) p.fuel lo
    let j := (p.blocks[k]?.map fun q => q.reads.length).getD 0
    let q := p.claim sp banks t (readAgent k j)
    { q with blocks := q.blocks.modify k fun b => { b with reads := b.reads ++ [(line, t)] } }) p

/-- When the last read of a block has its bytes (R278). -/
def PackedBlock.readBy (q : PackedBlock) : Nat := if q.space = .dev then lastSlot q.reads + 94 else lastSlot q.reads

/-- A packed block (R276 to R278), its bytes standing at `addr` of `space`, in the parts that go to receivers. At point 0 of device
memory, and at point 2 of HM, its lines are read only to expand it: the header's first, the others from when it is usable. How many
they are is what memory holds at issue; the header's read settles it (log entry 22). A block that beats move to another receiver is
read once. -/
def Plan.expandAt (p : Plan) (c r point index : Nat) (sp : Space) (addr : Nat) (given : List (Nat × Nat)) (parts : List BlockPart) :
    Plan :=
  let k := p.blocks.length
  let lines := packedLines addr (p.s.readRange sp addr 16)
  let q : PackedBlock := { index := index, point := point, space := sp, addr := addr }
  let p :=
    if !given.isEmpty then { p with blocks := p.blocks ++ [{ q with reads := given, shared := true }] }
    else if sp = .dev then
      let (s, head) := takeSlots p.s r (lines.take 1)
      let (s, rest) := takeSlots s (lastSlot head + 94) (lines.drop 1)
      { p with s := s, blocks := p.blocks ++ [{ q with reads := head ++ rest }] }
    else
      let p := ({ p with blocks := p.blocks ++ [q] } : Plan).placeReads k (c + 3) sp (lines.take 1)
      p.placeReads k (lastSlot ((p.blocks[k]?.map (·.reads)).getD []) + 2) sp (lines.drop 1)
  let ready := ((p.blocks[k]?.map PackedBlock.readBy).getD 0) + 72
  let p := { p with blocks := p.blocks.modify k fun b => { b with deliverAt := ready } }
  (expandedBeats k ready parts).foldl (fun p b => p.place c r (p.afterParts b) .none b) p

/-- A beat that moves bytes of block k as they stand (R276). -/
def packedBeat (k point part : Nat) (sp : Space) (addr : Nat) (dest : Space) (slot : Nat) (q : Nat × Nat) : Beat :=
  { srcSpace := sp, src := addrRun (addr + q.1) q.2, dstSpace := dest, dst := addrRun (slot + q.1) q.2
    post := .packed q.1 point, block := .some k, part := part }

/-- The other beats that move a block, once its header is usable. -/
def Plan.placeRest (p : Plan) (c r : Nat) (header : Beat) (l : List Beat) : Plan :=
  let usable := if header.srcSpace = .dev then lastSlot header.slots + 94 else header.sampleAt - 1
  l.foldl (fun p b => p.placeNext (if b.srcSpace = .dev then c else usable) (Nat.max r usable) (p.afterParts b) b) p

/-- A packed block moved as it stands to a slot (R276), with its expansion when the point is 1: header first. -/
def Plan.movePacked (p : Plan) (c r point index : Nat) (sp : Space) (addr : Nat) (dest : Space) (slot part : Nat)
    (parts : List BlockPart) : Plan :=
  let k := p.blocks.length
  let i := p.beats.length
  let first := (parts.head?.map (·.key)).getD 0
  let l := (cutRun addr (Nat.min (16 + zClen (p.s.readRange sp addr 16)) 4096)).map fun q =>
    { packedBeat k point part sp addr dest slot q with num := first }
  let p := (l.take 1).foldl (fun p b => p.placeNext c r (p.afterParts b) b) p
  let p := match p.beats[i]? with
    | .some b => p.placeRest c r b (l.drop 1)
    | .none => p
  let present := (p.beats.drop i).foldl (fun m b => max m b.performAt) 0
  let p := { p with
    blocks := p.blocks ++ [{ index := index, point := point, space := dest, addr := slot, deliverAt := present + 72
                             delivered := decide (point ≠ 1) }] }
  if point = 1 then (expandedBeats k (present + 72) parts).foldl (fun p b => p.place c r (p.afterParts b) .none b) p else p

/-- A packed block for all its receivers: moved as it stands where one takes it whole into a slot at a point other than 0, else expanded
at point `at_`; its bytes are read once (R262, R276). -/
def Plan.placeBlock (p : Plan) (c r move at_ index : Nat) (sp : Space) (addr : Nat) (parts : List BlockPart) : Plan :=
  let to_ (g : Nat) : List BlockPart := parts.filter fun q => q.part == g
  let slot (g : Nat) : Option Nat := if move = 0 then .none else wholeSlot (to_ g)
  let receivers := (parts.map (·.part)).eraseDups
  let from_ := p.beats.length
  let p := receivers.foldl (fun p g => match slot g, to_ g with
    | .some a, q :: _ => p.movePacked c r move index sp addr q.space a g (to_ g)
    | _, _ => p) p
  let given := ((p.beats.drop from_).filter fun b => !b.shared && !b.expanded).flatMap fun b =>
    if sp = .dev then b.slots else [(b.src.headD 0 / 64, b.sampleAt)]
  let rest := (receivers.filter fun g => (slot g).isNone).flatMap to_
  if rest.isEmpty then p else p.expandAt c r at_ index sp addr given rest

/-- Every packed block of a command that reads through PACK (R275, R276). -/
def Plan.placePack (p : Plan) (c r point : Nat) (a : Aperture) (parts : List BlockPart) : Plan :=
  ((parts.map (·.block)).eraseDups).foldl (fun p k =>
    p.placeBlock c r point 0 k .dev (a.vbase + 4096 * k) (parts.filter fun q => q.block == k)) p

/-- A read that delivers to the walker: no destination, numbered by its first byte. -/
def Beat.toWalker (b : Beat) : Beat := { b with part := b.dst.headD 0, dst := [], dstSpace := .dev }

/-- Reads of device memory into the walker through an aperture (R264, R272 to R275, R290): stretches inside lines of a view, each by
its device-virtual and its physical address, its length and its number. -/
def Plan.readView (p : Plan) (t r : Nat) (ap : Option Aperture) (l : List (Nat × Nat × Nat × Nat)) : Plan :=
  let beats := l.flatMap fun (va, pa, n, tag) => deviceBeats ap true .dev va pa tag n
  match ap with
  | .some a =>
    if a.xf = 1 then
      let parts := l.map fun (_, pa, n, tag) =>
        { block := (pa - a.vbase) / 4096, off := (pa - a.vbase) % 4096, space := .dev, addr := tag, len := n : BlockPart }
      let from_ := p.beats.length
      let p := ((parts.map (·.block)).eraseDups).foldl (fun p k =>
        p.expandAt t r 0 k .dev (a.vbase + 4096 * k) [] (parts.filter fun q => q.block == k)) p
      { p with beats := p.beats.take from_ ++ (p.beats.drop from_).map Beat.toWalker }
    else beats.foldl (fun p b => p.place t r 0 .none b.toWalker) p
  | .none => beats.foldl (fun p b => p.place t r 0 .none b.toWalker) p

/-! ### From runs to a plan -/

/-- What a command moves: its runs, between two memories, `part` telling receivers or arguments apart; the device side's context,
box and direction. -/
structure Move where
  src : Space
  dst : Space
  runs : List Run
  part : Nat := 0
  box : BitVec 256 := 0
  /-- outward copies: only bytes for which this list has their source address (R375) -/
  only : Option (List Nat) := .none

/-- One cut of a move: the part, the cut's addresses, the padding bits of its bytes by their address in level memory, and its place in the
order of R252. -/
structure Cut where
  mv : Move
  src : Nat
  dst : Nat
  len : Nat
  mask : List (Nat × Byte) := []
  key : Nat := 0

def Move.cuts (m : Move) : List Cut :=
  ((m.runs.flatMap fun r =>
    let level := if m.dst = .dev then r.src else r.dst
    let mask := r.mask level
    (cutRun (if m.dst = .dev then r.dst else r.src) r.len).map fun q =>
      ({ mv := m, src := r.src + q.1, dst := r.dst + q.1, len := q.2
         mask := mask.filter fun p => decide (level + q.1 ≤ p.1) && decide (p.1 < level + q.1 + q.2) } : Cut)).zipIdx).map fun p =>
    { p.1 with key := m.part * 2 ^ 24 + p.2 }

/-- Keeps only the wanted bytes of a beat (R375); a write through SCALEVIEW covers its whole view block (R274). -/
def Beat.restrict (only : Option (List Nat)) (b : Beat) : Beat :=
  match only with
  | .none => b
  | .some l =>
    match b.post with
    | .scaleWrite _ => if b.src.any l.contains then b else { b with src := [], dst := [] }
    | _ =>
      let pairs := (b.src.zip b.dst).filter fun p => l.contains p.1
      { b with src := pairs.map (·.1), dst := pairs.map (·.2) }

/-- The cuts of a command with their device side translated: physical address of each; or the first fault (R254). -/
def State.translateCuts (s : State) (x : Nat) : List Cut → Walk → Walk × Except Refused (List (Cut × Nat))
  | [], w => (w, .ok [])
  | c :: l, w =>
    if c.mv.src ≠ .dev && c.mv.dst ≠ .dev then
      match s.translateCuts x l w with
      | (w, .ok r) => (w, .ok ((c, 0) :: r))
      | e => e
    else
      let down := c.mv.src = .dev
      match s.translate x (if down then c.src else c.dst) (if down then .read else .write) w with
      | (w, .error f) => (w, .error f)
      | (w, .ok q) =>
        if !s.apertureOk c.mv.box q.pa c.len then
          (w, .error { cls := 9, owner := x, write := false, va := 0 })
        else match s.translateCuts x l w with
          | (w, .ok r) => (w, .ok ((c, q.pa) :: r))
          | e => e

/-- The part of a packed block that a cut moves: block and offset at byte `at_` of what holds the blocks. -/
def Cut.blockPart (q : Cut) (at_ : Nat) : BlockPart :=
  { block := at_ / 4096, off := at_ % 4096, space := q.mv.dst, addr := q.dst, len := q.len, part := q.mv.part, mask := q.mask
    key := q.key }

/-- The beats of a cut whose device side lies at a physical address, seen through an aperture (R252, R273, R274). -/
def Cut.beats (q : Cut) (ap : Option Aperture) (pa : Nat) : List Beat :=
  let down := q.mv.src = .dev
  let l : List Beat :=
    if q.mv.src ≠ .dev && q.mv.dst ≠ .dev then
      [{ srcSpace := q.mv.src, src := addrRun q.src q.len, dstSpace := q.mv.dst, dst := addrRun q.dst q.len }]
    else deviceBeats ap down (if down then q.mv.dst else q.mv.src) (if down then q.src else q.dst) pa (if down then q.dst else q.src) q.len
  (l.map fun b => { b.restrict q.mv.only with part := q.mv.part, mask := q.mask, num := q.key }).filter fun b => !b.src.isEmpty

/-- Cuts that move beat by beat, in order. -/
def Plan.placePlain (p : Plan) (c r : Nat) (ordered : Bool) (l : List (Cut × Nat)) : Plan :=
  l.foldl (fun p q => (q.1.beats (p.s.apertureOf q.1.mv.box) q.2).foldl (fun p b =>
    p.placeNext c r (if ordered then p.after b else 0) b) p) p

/-- Places the beats of translated cuts in order; a later beat that writes a byte of an earlier one performs after it. Blocks that are
read through PACK, or lie in marked pages of HM, are placed whole (R276, R277). -/
def Plan.placeCuts (p : Plan) (c r : Nat) (ordered : Bool) (l : List (Cut × Nat)) : Plan :=
  let view (q : Cut × Nat) : Option Aperture := if q.1.mv.src = .dev then p.s.apertureOf q.1.mv.box else .none
  match l with
  | [] => p
  | first :: _ =>
    match view first with
    | .some a =>
      if a.xf = 1 then p.placePack c r (boxExp first.1.mv.box) a (l.map fun q => q.1.blockPart (q.2 - a.vbase))
      else p.placePlain c r ordered l
    | .none =>
      let marked (q : Cut × Nat) : Bool := q.1.mv.src.isHm && q.1.mv.dst ≠ .dev && p.s.marked q.1.mv.src (q.1.src / 4096)
      let p := p.placePlain c r ordered (l.filter fun q => !marked q)
      let parts := (l.filter marked).map fun q => q.1.blockPart q.1.src
      let sp := first.1.mv.src
      ((parts.map (·.block)).eraseDups).foldl (fun p k =>
        let move := if zPoint (p.s.readRange sp (4096 * k) 16) = 3 then 3 else 0
        p.placeBlock c r move 2 k sp (4096 * k) (parts.filter fun q => q.block == k)) p

/-- The beats of a plan with their numbers (R252): by the order of their cuts; each receiver of a `wmcast` has the same ones (R262). -/
def Plan.numbered (p : Plan) : Plan :=
  let l := p.beats.zipIdx
  let before (a b : Beat × Nat) : Bool :=
    (!p.mcast || a.1.part == b.1.part) && (decide (a.1.num < b.1.num) || (a.1.num == b.1.num && decide (a.2 < b.2)))
  { p with beats := l.map fun b => { b.1 with num := (l.filter fun a => before a b).length } }

/-- The last perform of a plan made at c. -/
def Plan.promise (p : Plan) (c : Nat) : Nat :=
  p.beats.foldl (fun m b => max m b.performAt) (if p.beats.isEmpty then c + p.least else c)

end Sys2Proof.Machine
end

