-- ==== Sys2Proof/Machine/Walker.lean ====
section
/-! DEFINITION. Walker.lean: walker commands (R251 to R260): how one enters the machine, the samples and performs of its beats
(R248, R278, R284), what moves or ends a beat (R201, R257 to R259), and how a copy issues (R253 to R255). -/

namespace Sys2Proof.Machine

/-! ### Commands -/

/-- A command that is outstanding in cycle t (R256). -/
def Cmd.live (c : Cmd) (t : Nat) : Bool := c.outstanding && decide (t ≤ c.promise)

/-- Whether a herd's walker already holds 64 outstanding commands (R256). -/
def State.walkerFull (s : State) (w : Nat) : Bool := 64 ≤ (s.cmds.filter fun c => c.walker == w && c.live s.tick).length

/-- The busy-unit fault, or a hold in interlocked mode (R139, R256). -/
def State.busy {α : Type} (s : State) : Res α := if s.interlocked then .error .hold else raise 4

def State.modCmd (s : State) (id : Nat) (f : Cmd → Cmd) : State :=
  { s with cmds := s.cmds.map fun c => if c.id == id then f c else c }

def State.cmd? (s : State) (id : Nat) : Option Cmd := s.cmds.find? fun c => c.id == id

def State.call? (s : State) (id : Nat) : Option Call := s.calls.find? fun k => k.id == id

def State.modCall (s : State) (id : Nat) (f : Call → Call) : State :=
  { s with calls := s.calls.map fun k => if k.id == id then f k else k }

/-- A beat changed. -/
def State.modBeat (s : State) (id i : Nat) (f : Beat → Beat) : State :=
  s.modCmd id fun c => { c with beats := c.beats.modify i f }

/-- Whether a beat writes device memory: its write of each line ends that line's slot (R253). -/
def Beat.toDev (b : Beat) : Bool := b.dstSpace = .dev && !b.dst.isEmpty

/-- The low word of a context's vcyc at cycle t. -/
def State.vcycAt (s : State) (x t : Nat) : Word := BitVec.ofInt 32 (s.vcyc x + ((t : Int) - s.tick))

/-- Beat i of a command, with the command. -/
def State.beat? (s : State) (id i : Nat) : Option (Cmd × Beat) := (s.cmd? id).bind fun c => (c.beats[i]?).map fun b => (c, b)

/-- Block k of a command, with the command; a block changed. -/
def State.block? (s : State) (id k : Nat) : Option (Cmd × PackedBlock) := (s.cmd? id).bind fun c => (c.packed[k]?).map fun q => (c, q)
def State.modBlock (s : State) (id k : Nat) (f : PackedBlock → PackedBlock) : State :=
  s.modCmd id fun c => { c with packed := c.packed.modify k f }

def Cmd.isWamo (c : Cmd) : Bool := match c.kind with | .wamo .. => true | _ => false

/-- The order among the entries of phase 3 in which an engine's result is known: after every bundle of the cycle. -/
def engineOrd : Nat := 2 ^ 20

/-- The events of a beat: samples and performs, and the writes of each slot to device memory. -/
def State.planBeat (s : State) (id i : Nat) (b : Beat) : State :=
  let s := if b.expanded then s
    else if b.srcSpace = .dev then
      (b.slots.zipIdx).foldl (fun s p => s.plan p.1.2 1 0 (.beatSample id i p.2)) s
    else s.plan b.sampleAt 1 0 (.beatSample id i 0)
  if b.toDev then
    (b.slots.zipIdx).foldl (fun s p => s.planEv (p.1.2 + 10) 2 10 .walkerBeatPerform { a := id, b := i, c := p.2 }) s
  else s.planEv b.performAt 2 10 .walkerBeatPerform { a := id, b := i }

/-- The events of a block: the reads that only expand it, and its delivery. -/
def State.planBlock (s : State) (id k : Nat) (b : PackedBlock) : State :=
  let s := (b.reads.zipIdx).foldl (fun s p => s.plan p.1.2 1 0 (.blockSample id k p.2)) s
  if b.delivered then s else s.planEv b.deliverAt 1 1 .expanderDeliver { a := id, b := k }

/-- A CTX command that completes at no fixed cycle (R420, R422). -/
def Cmd.lasting (c : Cmd) : Bool :=
  match c.kind with
  | .cxq _ | .cxsave _ _ | .cxload _ _ => true
  | _ => false

/-- Commands that no `wprom` can name and that are past are forgotten; the outward copies of a call stay until all of them have performed,
since they are numbered together (R411). -/
def State.prune (s : State) : State :=
  let kept := s.herds.flatMap fun h => h.cores.flatMap fun k => k.r.issued.take 64 ++ k.susp.flatMap fun r => r.issued.take 64
  let open_ (c : Cmd) : Bool := c.live s.tick || (c.outstanding && c.lasting) || c.beats.any (fun b => !b.performed && !b.abandoned) || kept.contains c.id
    || (c.isOutward && s.calls.any fun k => c.ofCall k.id && k.state == .applying)
  { s with cmds := s.cmds.filter open_ }

/-- A planned command enters the machine with all its events. -/
def State.enterCmd (s : State) (c : Cmd) : State :=
  let s : State := { s.prune with nextId := s.nextId + 1 }
  let s : State := { s with cmds := s.cmds ++ [c] }
  let s := (c.beats.zipIdx).foldl (fun s p => s.planBeat c.id p.2 p.1) s
  (c.packed.zipIdx).foldl (fun s p => s.planBlock c.id p.2 p.1) s

/-- The command is the latest of the executing core's frame (R265). -/
def State.noteIssued (s : State) (id : Nat) : State := s.modR fun r => { r with issued := id :: r.issued }

/-- A new command of the executing core, with the fields that every kind has. -/
def State.newCmd (s : State) (kind : CmdKind) (walker : Nat) : Cmd :=
  { id := s.nextId, kind := kind, ctx := (s.R.ctx).getD 0, level := s.level, herd := s.cur.herd, core := s.cur.core, walker := walker
    addr := s.cur.pc, interlocked := s.interlocked, issue := s.tick, promise := s.tick, seq := s.cur.seq }

/-- The root has no translation (R78). -/
def State.isRoot (s : State) (x : Nat) : Bool := (s.ctx x).parent.isNone

/-- A fault found by a walk of the command becomes pending when the walk's last read is usable, and the command is discarded
whole (R254, R272). A refusal that needs no read becomes pending when the schedule's reads would begin (R253); one of the root,
which has no translation stage, is raised at issue (the example after R288). -/
def State.refuse (s : State) (cmd : Cmd) (f : Refused) (w : Walk) : Res State :=
  if s.isRoot cmd.ctx then raise f.cls
  else
    let s := s.modHerd cmd.walker fun h => { h with tlb := w.tlb }
    let (s, r) := s.walkReads cmd.ctx cmd.addr w.reads (s.tick + 67)
    let c := { cmd with promise := r, first := r, walkFault := .some (f.cls, f.owner, f.write, f.va) }
    .ok ((s.enterCmd c).planEv r 0 0 .walkFaultPending { a := cmd.id })

/-! ### Claims, slots and promises of what is left of a command (R201, R257 to R259, R278) -/

/-- Whether a frame issued a command (R265). -/
def Regs.issuer (r : Regs) (id : Nat) : Bool := r.issued.contains id || r.engPend.any fun p => p.1 == id

/-- A core with the frame changed that issued a command (R265, R371). -/
def Core.modIssuer (id : Nat) (f : Regs → Regs) (k : Core) : Core :=
  if k.r.issuer id then { k with r := f k.r }
  else { k with susp := k.susp.map fun r => if r.issuer id then f r else r }

/-- A frame record changed: the one that issued a command, where its context stands or is kept. -/
def State.modIssuer (s : State) (c : Cmd) (f : Regs → Regs) : State :=
  let v := (s.ctx c.ctx).virtOf c.herd
  let keep (x : Kept) : Kept :=
    if x.ctx == c.ctx && !x.herds.isEmpty then { x with herds := x.herds.modify v fun y : Herd => { y with cores := y.cores.modify c.core (Core.modIssuer c.id f) } }
    else x
  if s.kept.any fun x => x.ctx == c.ctx && !x.herds.isEmpty then { s with kept := s.kept.map keep }
  else s.modCore c.herd c.core (Core.modIssuer c.id f)

/-- Whether a command is a core's latest `wgeo.tab` (R263). -/
def State.latestTable (s : State) (r : Regs) (id : Nat) : Bool :=
  (r.issued.find? fun n => (s.cmd? n).any fun c => match c.kind with | .table _ => true | _ => false) == .some id

/-- The phase, the order and the event in which the record that a command has read is judged, at its promise (R286, R418, R422). -/
def CmdKind.judged : CmdKind → Option (Nat × Nat × Instr)
  | .apset _ _ _ => .some (3, engineOrd, .apsetComplete)
  | .cxmk _ => .some (4, 0, .cxmkComplete)
  | .cxgive _ => .some (4, 0, .cxgiveComplete)
  | .cxq _ => .some (4, 0, .cxqComplete)
  | _ => .none

/-- The events of the record of a command: its sample, in its slot or, where beats read it, at the promise, and its judgement. -/
def State.planRecord (s : State) (c : Cmd) : State :=
  match c.kind.judged with
  | .none => s
  | .some (phase, ord, i) =>
    (if c.beats.isEmpty then s.plan c.slot 1 0 (.recSample c.id) else s.plan c.promise 1 2 (.recSample c.id)).planEv c.promise phase ord i
      { a := c.id }

/-- A command whose beats have moved: the new promise and, past the old one, the promise-missed trap (R257); an outward copy raises
none (R375). -/
def State.repromise (s : State) (id : Nat) : State :=
  match s.cmd? id with
  | .none => s
  | .some c =>
    let p := match c.kind with
      | .wamo .. => c.slot + 74
      | .apset .. | .cxmk _ | .cxgive _ | .cxq _ => (c.beats.filter fun b => !b.abandoned).foldl (fun m b => max m b.performAt) (c.slot + 94)
      | _ => (c.beats.filter fun b => !b.abandoned).foldl (fun m b => max m b.performAt) c.issue
    if p ≤ c.promise || !(c.outstanding || c.isOutward) then s
    else
      let late (r : Regs) : Regs := if s.latestTable r id then { r with tabAt := p } else r
      let s := s.modCmd id fun c => { c with promise := p }
      let s := match c.kind with | .table _ => s.modIssuer c late | _ => s.planRecord { c with promise := p }
      match c.kind with
      | .callOut k => s.modCall k fun k => { k with doneAt := max k.doneAt p }
      | _ => s.plan c.promise 0 0 (.asyncDue c.herd c.core
        { cls := 18, d0 := s.vcycAt c.ctx p, ctx := c.ctx, owner := c.ctx })

/-- A claim of a beat withdrawn from its bank cycles. -/
def State.unclaim (s : State) (h id i : Nat) : State :=
  s.modHerd h fun x => { x with claims := x.claims.filter fun k => k.agent ≠ .walker id i }

/-- The claims of a beat in one of its two memories withdrawn: only HM has banks (R198). -/
def State.unclaimIn (s : State) (sp : Space) (id i : Nat) : State :=
  match sp with
  | .hm h => s.unclaim h id i
  | _ => s

/-- The schedule of a command as it stands, without its beat i. -/
def State.planWithout (s : State) (c : Cmd) (i : Nat) : Plan :=
  { s := s, id := c.id, beats := c.beats.modify i fun b => { b with abandoned := true }, blocks := c.packed, mcast := c.kind = .mcast }

/-- The beat is given up; slots and claims that have not begun are released. -/
def State.abandonBeat (s : State) (id i : Nat) : State :=
  match s.beat? id i with
  | .none => s
  | .some (c, b) =>
    if b.performed then s
    else
      let used (p : Nat × Nat) : Bool :=
        (c.beats.zipIdx).any (fun q => q.2 != i && !q.1.performed && !q.1.abandoned && q.1.slots.contains p)
          || c.packed.any fun q => q.shared && q.space == .dev && q.reads.contains p
      let s := b.slots.foldl (fun s p => if s.tick < p.2 && !used p then s.dropSlot (s.channelOf p.1) p.2 else s) s
      ((s.unclaimIn b.srcSpace id i).unclaimIn b.dstSpace id i).modBeat id i fun b => { b with abandoned := true }

/-- Whether a beat has begun by the end of cycle t: its first slot, or its level-memory sample (R258, R259). -/
def Beat.begun (b : Beat) (t : Nat) : Bool :=
  b.sampled || (if b.srcSpace = .dev then b.slots.any fun p => decide (p.2 ≤ t) else decide (b.sampleAt ≤ t))

/-- The same for a beat of a command. An expanded beat has begun when a read that is made only to expand its block has, or else when all
moves and reads that bring the block have. -/
def Cmd.begun (c : Cmd) (b : Beat) (t : Nat) : Bool :=
  b.begun t || (b.expanded && match b.block.bind fun k => c.packed[k]? with
    | .some q =>
      let moves := c.beats.filter fun a => a.block == b.block && !a.expanded
      if moves.isEmpty && !q.shared then q.reads.any fun r => decide (r.2 ≤ t)
      else (q.reads.all fun r => decide (r.2 ≤ t)) && moves.all fun a => a.performed || (!a.abandoned && a.begun t)
    | .none => false)

/-- Beat i performs in the first cycle from `lo` on that is free (R201, R257, R278); one into device memory performs when its slots
end. -/
def State.performFrom (s : State) (id i lo : Nat) : State :=
  match s.beat? id i with
  | .none => s
  | .some (c, b) =>
    if b.performed || b.abandoned || b.toDev then s
    else
      let p := (s.unclaimIn b.dstSpace id i).planWithout c i
      let banks := banksIn b.dstSpace b.dst
      let t := searchFrom (p.performFree b.dstSpace banks) p.fuel lo
      ((p.claim b.dstSpace banks t i).s.modBeat id i fun b => { b with performAt := t }).planEv t 2 10 .walkerBeatPerform
        { a := id, b := i }

/-- When the last packed byte of block k is present, its reads and its moves counted (R278). -/
def Cmd.present (c : Cmd) (k : Nat) : Nat :=
  let q := c.packed.getD k { index := 0, point := 0, space := .dev, addr := 0 }
  let reads := q.reads.foldl (fun m p => max m (if q.space = .dev then p.2 + 94 else p.2)) 0
  c.beats.foldl (fun m b => if b.block == .some k && !b.expanded && !b.abandoned then max m b.performAt else m) reads

/-- A block whose bytes are present at another cycle than was planned is delivered 72 cycles after it, and its expanded beats perform
from then on (R257, R278). -/
def State.redeliver (s : State) (id k : Nat) : State :=
  match s.block? id k with
  | .none => s
  | .some (c, q) =>
    let t := c.present k + 72
    if q.delivered || t = q.deliverAt then s
    else
      let s := (s.modBlock id k fun q => { q with deliverAt := t }).planEv t 1 1 .expanderDeliver { a := id, b := k }
      (c.beats.zipIdx).foldl (fun s p =>
        if p.1.block == .some k && p.1.expanded then
          s.performFrom id p.2 (max t (({ s := s, id := id, beats := c.beats.take p.2 } : Plan).afterParts p.1))
        else s) s

/-- A beat's block, if it moves packed bytes, is delivered anew. -/
def State.redeliverOf (s : State) (id : Nat) (b : Beat) : State :=
  match b.block with
  | .some k => if b.expanded then s else s.redeliver id k
  | .none => s

/-- The reads that only expand blocks and use what beats read of a line of a memory at cycle t use it at cycle u (R262). -/
def State.moveReads (s : State) (id : Nat) (sp : Space) (line t u : Nat) : State :=
  match s.cmd? id with
  | .none => s
  | .some c =>
    let hits := (c.packed.zipIdx).flatMap fun q =>
      if q.1.space == sp then (q.1.reads.zipIdx).filterMap fun r => if r.1 == (line, t) then .some (q.2, r.2) else .none else []
    let s := hits.foldl (fun s p => (s.modBlock id p.1 fun q => { q with reads := q.reads.set p.2 (line, u) }).plan u 1 0
      (.blockSample id p.1 p.2)) s
    hits.foldl (fun s p => s.redeliver id p.1) s

/-- The events of slot j of a beat, which begins at cycle u; those of a `wamo` are its sample, its write and its result (R266). -/
def State.planSlot (s : State) (c : Cmd) (i j u : Nat) (b : Beat) : State :=
  match c.kind with
  | .wamo .. => ((s.plan u 1 0 (.recSample c.id)).planEv (u + 10) 2 10 .walkerBeatPerform { a := c.id, b := i, c := j }).planEv
      (u + 74) 3 engineOrd .wamoComplete { a := c.id }
  | _ => if b.toDev then s.planEv (u + 10) 2 10 .walkerBeatPerform { a := c.id, b := i, c := j } else s.plan u 1 0 (.beatSample c.id i j)

/-- A beat that uses a slot of a line at cycle t uses the one at cycle u. -/
def Beat.withSlot (b : Beat) (now line t u : Nat) : Beat :=
  let slots := b.slots.map fun p => if p = (line, t) then (line, u) else p
  { b with slots := slots, performAt := if b.toDev then lastSlot slots + 10 else b.performAt
           sampled := b.sampled && slots.any fun p => decide (p.2 ≤ now) }

/-- A command's slot of a line at cycle t becomes the one at cycle u, for every beat and read that uses it (R257, R262). -/
def State.moveSlot (s : State) (id line t u : Nat) : State :=
  match s.cmd? id with
  | .none => s
  | .some c =>
    let hit (b : Beat) : Bool := b.slots.contains (line, t) && !b.performed && !b.abandoned
    let s := s.modCmd id fun c => { c with
      beats := c.beats.map fun b => if hit b then b.withSlot s.tick line t u else b
      slot := if c.isWamo then u else c.slot, record := if c.isWamo then [] else c.record }
    let hits := (c.beats.zipIdx).filter fun p => hit p.1
    let s := hits.foldl (fun s p => (p.1.slots.zipIdx).foldl (fun s q =>
      if q.1 == (line, t) then s.planSlot c p.2 q.2 u p.1 else s) s) s
    let s := hits.foldl (fun s p =>
      let last := lastSlot (p.1.withSlot s.tick line t u).slots
      (s.performFrom id p.2 (max p.1.performAt (last + 94))).redeliverOf id p.1) s
    s.moveReads id .dev line t u

/-- The slot of a line at cycle t of a channel is reserved again, on the first free one of the channel that serves the line, from `lo`
on. -/
def State.reserveAgain (s : State) (id old line t lo : Nat) : State :=
  let pc := s.channelOf line
  let u := s.freeSlot pc lo
  (((s.dropSlot old t).takeSlot pc u).moveSlot id line t u).repromise id

/-- Read j of block k, of a line, in the first free slot or cycle from `lo` on: one that stands moves, a new one is added. -/
def State.putRead (s : State) (id k j line lo : Nat) : State :=
  match s.block? id k with
  | .none => s
  | .some (c, q) =>
    let (s, u) := match q.space with
      | .hm h =>
        let p := { (s.unclaim h id (readAgent k j)).planWithout c c.beats.length with blocks := c.packed.modify k fun q => { q with reads := q.reads.take j } }
        let banks := banksIn q.space [line * 64]
        let u := searchFrom (p.sampleFree q.space banks) p.fuel lo
        ((p.claim q.space banks u (readAgent k j)).s, u)
      | _ =>
        let s := match q.reads[j]? with | .some r => s.dropSlot (s.channelOf r.1) r.2 | .none => s
        let u := s.freeSlot (s.channelOf line) lo
        (s.takeSlot (s.channelOf line) u, u)
    (s.modBlock id k fun q => { q with reads := q.reads.take j ++ (line, u) :: q.reads.drop (j + 1) }).plan u 1 0 (.blockSample id k j)

/-- The reads of block k from number n on are given up. -/
def State.dropReads (s : State) (id k n : Nat) : State :=
  match s.block? id k with
  | .none => s
  | .some (_, q) =>
    let s := ((q.reads.zipIdx).drop n).foldl (fun s p => match q.space with
      | .hm h => s.unclaim h id (readAgent k p.2)
      | _ => s.dropSlot (s.channelOf p.1.1) p.1.2) s
    s.modBlock id k fun q => { q with reads := q.reads.take n }

/-- The reads that only expand block k are given up, where the block has not begun. -/
def State.releaseBlock (s : State) (id k : Nat) : State :=
  match s.block? id k with
  | .none => s
  | .some (_, q) => if q.shared || q.delivered || q.reads.any fun r => decide (r.2 ≤ s.tick) then s else s.dropReads id k 0

/-- What a command reads only for blocks that it expands no longer is given up, and so are those blocks. -/
def State.giveUpBlocks (s : State) (id : Nat) : State :=
  match s.cmd? id with
  | .none => s
  | .some c => (List.range c.packed.length).foldl (fun s k =>
    if c.beats.any fun b => b.expanded && b.block == .some k && !b.performed && !b.abandoned then s
    else (s.releaseBlock id k).modBlock id k fun q => { q with delivered := true }) s

/-- The header of block k has been sampled: the block's other reads are those that its CLEN asks for, none before the header is usable
(R278). -/
def State.resizeBlock (s : State) (id k : Nat) (header : List Byte) : State :=
  match s.block? id k with
  | .none => s
  | .some (_, q) =>
    if q.shared || q.delivered then s
    else
      let lines := packedLines q.addr header
      let usable := s.tick + if q.space = .dev then 94 else 2
      let stands (j : Nat) : Bool := (q.reads[j]?).any fun r => decide (usable ≤ r.2)
      let wrong := ((lines.zipIdx).drop 1).filter fun p => !stands p.2
      if wrong.isEmpty && lines.length = q.reads.length then s
      else ((wrong.foldl (fun s p => s.putRead id k p.2 p.1 usable) (s.dropReads id k lines.length)).redeliver id k).repromise id

/-- The other reads that share what a block's moves read are those of its moves (R262). -/
def State.shareReads (s : State) (id k : Nat) (header : Nat × Nat) (sp : Space) : State :=
  match s.cmd? id with
  | .none => s
  | .some c =>
    let moves := c.beats.filter fun b => b.block == .some k && !b.expanded && !b.abandoned
    let reads := moves.flatMap fun b => if sp = .dev then b.slots else [(b.src.headD 0 / 64, b.sampleAt)]
    let users := (c.packed.zipIdx).filter fun q => q.1.shared && q.1.space == sp && q.1.reads.contains header
    users.foldl (fun s q =>
      let s := s.modBlock id q.2 fun q => { q with reads := reads }
      ((reads.zipIdx).foldl (fun s p => if s.tick < p.1.2 then s.plan p.1.2 1 0 (.blockSample id q.2 p.2) else s) s).redeliver id q.2) s

/-- The header of a block that beats move as it stands has been sampled by beat i: the other beats are those that its CLEN asks for, none
before the header is usable (R276, R278). -/
def State.resizeMove (s : State) (id i : Nat) (header : List Byte) : State :=
  match s.beat? id i with
  | .none => s
  | .some (c, b) =>
    match b.block, b.post with
    | .some k, .packed _ point =>
      let usable := s.tick + if b.srcSpace = .dev then 94 else 2
      let want := (cutRun (b.src.headD 0) (Nat.min (16 + zClen header) 4096)).drop 1
      let of_ (a : Beat) : Nat × Nat := (a.src.headD 0 - b.src.headD 0, a.src.length)
      let start (a : Beat) : Nat := if a.srcSpace = .dev then (a.slots.headD (0, 0)).2 else a.sampleAt
      let stands (a : Beat) : Bool := a.block == .some k && !a.expanded && !a.performed && !a.abandoned
      let keeps (a : Beat) : Bool := want.contains (of_ a) && decide (usable ≤ start a)
      let gone := (c.beats.zipIdx).filter fun p => p.2 != i && stands p.1 && !keeps p.1
      let here := (c.beats.filter fun a => stands a && keeps a).map of_
      let more := want.filter fun q => !here.contains q
      if gone.isEmpty && more.isEmpty then s
      else
        let s := gone.foldl (fun s p => (s.abandonBeat id p.2).modBeat id p.2 fun a => { a with performed := true }) s
        match s.cmd? id with
        | .none => s
        | .some c =>
          let l := more.map fun q => { packedBeat k point b.part b.srcSpace (b.src.headD 0) b.dstSpace (b.dst.headD 0) q with num := b.num }
          let p := (s.planWithout c c.beats.length).placeRest s.tick usable b l
          let s := p.s.modCmd id fun c => { c with beats := p.beats }
          let s := ((p.beats.zipIdx).drop c.beats.length).foldl (fun s q => s.planBeat id q.2 q.1) s
          ((s.redeliver id k).shareReads id k
            (if b.srcSpace = .dev then b.slots.headD (0, 0) else (b.src.headD 0 / 64, b.sampleAt)) b.srcSpace).repromise id
    | _, _ => s

/-! ### Samples and performs -/

/-- A beat's sample, or for a device read that of one of its lines (R248, R327). One in a herd that its context has given away since is
the isolation fault, and moves no byte (R74). -/
def State.sampleBeat (s : State) (id i line : Nat) : State :=
  match s.cmd? id with
  | .none => s
  | .some c =>
    match c.beats[i]? with
    | .none => s
    | .some b =>
      let now := if b.srcSpace = .dev then (b.slots[line]?).map (·.2) else .some b.sampleAt
      if b.abandoned || now ≠ .some s.tick then s
      else
        let l := if b.srcSpace = .dev then b.src.filter fun a => some (a / 64) == (b.slots[line]?).map (·.1) else b.src
        let s := if b.srcSpace = .dev && !b.shared then s.charge c.ctx 12 1 else s
        if (b.srcSpace.herd).any (s.givenAway c.ctx) then (s.modBeat id i fun b => { b with abandoned := true }).fatal c.ctx 1 c.addr
        else if s.anyBad b.srcSpace l then
          let s := s.modBeat id i fun b => { b with abandoned := true }
          if b.srcSpace = .dev then s.plan (s.tick + 94) 0 0 (.fatalDue c.ctx 3 c.addr) else s.fatal c.ctx 3 c.addr
        else
          let got := l.zip (s.readBytes b.srcSpace l)
          let s := s.modBeat id i fun b => { b with got := got ++ b.got, sampled := true }
          match b.block, b.post with
          | .some k, .packed off _ =>
            let first := b.src.headD 0
            let s := s.modCmd id fun c => { c with
              packed := c.packed.modify k fun q => { q with got := (got.map fun p => (p.1 - first + off, p.2)) ++ q.got } }
            if off = 0 then s.resizeMove id i (got.map (·.2)) else s
          | _, _ => s

/-- The read of a line made only to expand a block. -/
def State.sampleBlock (s : State) (id k line : Nat) : State :=
  match s.cmd? id with
  | .none => s
  | .some c =>
    match c.packed[k]? with
    | .none => s
    | .some q =>
      match q.reads[line]? with
      | .none => s
      | .some (ln, t) =>
        if q.delivered || t ≠ s.tick then s else
        let l := (addrRun (ln * 64) 64).filter fun a => decide (q.addr ≤ a) && decide (a < q.addr + 4096)
        let s := if q.space = .dev && !q.shared then s.charge c.ctx 12 1 else s
        if s.anyBad q.space l then
          if q.space = .dev then s.plan (s.tick + 94) 0 0 (.fatalDue c.ctx 3 c.addr) else s.fatal c.ctx 3 c.addr
        else
          let got := (l.zip (s.readBytes q.space l)).map fun p => (p.1 - q.addr, p.2)
          let s := s.modCmd id fun c => { c with packed := c.packed.modify k fun q => { q with got := got ++ q.got } }
          if line = 0 then s.resizeBlock id k (got.map (·.2)) else s

/-- The byte that a list of pairs gives for a key. -/
def gotByte (l : List (Nat × Byte)) (a : Nat) : Byte := ((l.find? fun p => p.1 == a).map (·.2)).getD 0

/-- A block is expanded and handed to its beats; an error is noted (R278, R284). -/
def State.deliver (s : State) (id k : Nat) : State :=
  match s.cmd? id with
  | .none => s
  | .some c =>
    match c.packed[k]? with
    | .none => s
    | .some q =>
      if q.delivered || q.deliverAt ≠ s.tick then s else
      let z := expandZ ((List.range 4096).map (gotByte q.got))
      let give (b : Beat) : Beat :=
        if b.expanded && b.block == .some k then
          { b with got := b.src.map fun o => (o, z.bytes.getD o 0), sampled := true }
        else b
      let s := s.modCmd id fun c => { c with
        beats := c.beats.map give, packed := c.packed.modify k fun q => { q with err := z.err, delivered := true } }
      match z.err with
      | .none => s
      | .some _ => if c.packed.any fun q => q.err.isSome then s else s.plan c.promise 0 0 (.promiseTrap id)

/-- EXPANDER_DELIVER (R278): block ev.b of command ev.a. -/
def execExpanderDeliver (s : State) : Out := .next (s.deliver s.ev.a s.ev.b)

/-- The expand-error trap of a command at its promise (R284): first erroneous block in beat order. -/
def State.promiseTrap (s : State) (id : Nat) : State :=
  match s.cmd? id with
  | .none => s
  | .some c =>
    if s.tick < c.promise then s.plan c.promise 0 0 (.promiseTrap id)
    else
      let bad := c.packed.filter fun q => q.err.isSome
      match bad with
      | [] => s
      | q :: _ =>
        let (kind, n) := q.err.getD (0, 0)
        let blocks := (bad.map fun q => (q.space, q.addr)).eraseDups.length
        s.raiseAsync c.herd c.core
          { cls := 19, d0 := expandDetail n q.point blocks kind, d1 := BitVec.ofNat 32 q.index, ctx := c.ctx, owner := c.ctx }

/-- BF16 bytes of a store block (R274): each element converted as `tdeq` does, subnormals kept. -/
def scaleViewBytes (n : Nat) (l : List Byte) : List Byte :=
  let o := deqRow { a := leNat l, flush := false } 1 n false false
  leBytes 64 o.val

/-- The store block of a view block (R274): quantised as `tquant` does, inputs read as values. -/
def scaleStoreBytes (n : Nat) (l : List Byte) : List Byte :=
  leBytes (storeBlock n) (quantRow { a := leNat l, flush := false } 1 n).val

/-- The bytes of a beat as it delivers them (R273 to R276); what goes to device memory has zero in its padding (R36). -/
def Beat.bytes (b : Beat) : List Byte :=
  let data := b.src.map fun a => if b.toDev then maskByte b.mask a (gotByte b.got a) else gotByte b.got a
  match b.post with
  | .none => data
  | .scaleRead n off len => ((scaleViewBytes n data).drop off).take len
  | .scaleWrite n => scaleStoreBytes n data
  | .packed off point => (data.zipIdx).map fun p => if p.2 + off = 2 then zWithPoint point p.1 else p.1

/-- What a beat writes: addresses and bytes, padding zero (R36). -/
def Beat.output (b : Beat) : List (Nat × Byte) :=
  (b.dst.zip b.bytes).map fun p => if b.toDev then p else (p.1, maskByte b.mask p.1 p.2)

/-- Whether every move of a packed block has performed; its page is then marked (R277). -/
def State.markPacked (s : State) (c : Cmd) (b : Beat) : State :=
  match b.post, b.block with
  | .packed _ point, .some k =>
    let point := if b.srcSpace.isHm then 3 else point
    let others := c.beats.filter fun q => q.block == .some k && !q.expanded && q.part == b.part
    let page := b.dst.headD 0 / 4096
    let ok := match b.dstSpace with | .hm _ => 2 ≤ point | .lm _ _ => point = 3 | .dev => false
    if ok && others.all fun q => q.performed || q = b then s.setMark b.dstSpace page else s
  | _, _ => s

/-- Whether a byte that a beat would write has been written by a later beat of a command that writes in order: of `wscat` the group with the
higher j stands (R263), of a call's inward copies the later argument (R369). -/
def Cmd.overtaken (c : Cmd) (b : Beat) (a : Nat) : Bool :=
  let ordered : Bool := match c.kind with | .scatter | .callIn _ => true | _ => false
  ordered && c.beats.any fun q => decide (b.num < q.num) && q.performed && !q.abandoned && q.dstSpace == b.dstSpace && q.dst.contains a

/-- A beat's perform, or for a device write that of one of its lines, with the write that its command makes (R248, R253). -/
def State.performBeat (s : State) (write : State → Cmd → Beat → List (Nat × Byte) → State) (id i line : Nat) : State :=
  match s.cmd? id with
  | .none => s
  | .some c =>
    match c.beats[i]? with
    | .none => s
    | .some b =>
      let now := if b.toDev then (b.slots[line]?).map (fun p => p.2 + 10) else .some b.performAt
      if b.abandoned || b.performed || b.written.contains line || now ≠ .some s.tick then s
      else if (b.dstSpace.herd).any (s.givenAway c.ctx) && !b.dst.isEmpty then
        (s.modBeat id i fun b => { b with abandoned := true }).fatal c.ctx 1 c.addr
      else
        let l := if b.toDev then b.output.filter fun p => some (p.1 / 64) == (b.slots[line]?).map (·.1) else b.output
        let s := write s c b (l.filter fun p => !c.overtaken b p.1)
        let wamo : Bool := match c.kind with | .wamo .. => true | _ => false
        let s := if b.toDev && !wamo then s.charge c.ctx 12 1 else s
        let written := line :: b.written
        let last := !b.toDev || (List.range b.slots.length).all written.contains
        let s := s.modBeat id i fun b => { b with performed := last, written := written }
        if wamo || !b.written.isEmpty then s else (s.markPacked c b).charge c.ctx 11 1

/-- The plain write of a beat: its bytes as they are. A copy of a TERN or TERNS box keeps the code 0b10 where it stands (R34, R250;
DESIGN CHOICE, log entry 43). -/
def State.writeBeat (s : State) (c : Cmd) (b : Beat) (l : List (Nat × Byte)) : State := s.writeBytes b.dstSpace c.level l

/-! ### Moves, ends and retries (R201, R257 to R259) -/

/-- The beats that use the level-memory sample of a beat (R262). -/
def Cmd.sharers (c : Cmd) (b : Beat) : List Nat :=
  ((c.beats.zipIdx).filter fun p => p.1.shared && p.1.srcSpace == b.srcSpace && p.1.src == b.src && p.1.post == b.post
    && p.1.sampleAt == b.sampleAt && !p.1.performed && !p.1.abandoned).map (·.2)

/-- The beat moves to the next free cycle of its banks (R201, R257): its sample where that has not occurred, and what follows from it,
else its perform. -/
def State.moveBeat (s : State) (id i : Nat) : State :=
  match s.beat? id i with
  | .none => s
  | .some (c, b) =>
    let s :=
      if b.sampled || b.srcSpace = .dev || b.expanded || b.shared then s.performFrom id i (b.performAt + 1)
      else
        let p := ((s.unclaimIn b.srcSpace id i).unclaimIn b.dstSpace id i).planWithout c i
        let sb := banksIn b.srcSpace b.src
        if b.dstSpace = .dev then
          let t := searchFrom (p.sampleFree b.srcSpace sb) p.fuel (b.sampleAt + 1)
          let q := p.claim b.srcSpace sb t i
          let (s, nb) : State × Beat :=
            if b.slots.all fun z => decide (t + 65 ≤ z.2) then (q.s, { b with sampleAt := t })
            else
              let s := b.slots.foldl (fun s z => s.dropSlot (s.channelOf z.1) z.2) q.s
              let (s, slots) := takeSlots s (t + 65) (linesOf b.dst)
              (s, { b with sampleAt := t, slots := slots, performAt := lastSlot slots + 10 })
          (s.modBeat id i fun _ => nb).planBeat id i nb
        else
          let with_ := c.sharers b
          let ok (t : Nat) : Bool := p.sampleFree b.srcSpace sb t
            && (!with_.isEmpty || p.performFree b.dstSpace (banksIn b.dstSpace b.dst) (t + 2))
          let t := searchFrom ok p.fuel (b.sampleAt + 1)
          let s := (p.claim b.srcSpace sb t i).s
          let s := (i :: with_).foldl (fun s j =>
            ((s.modBeat id j fun b => { b with sampleAt := t }).plan t 1 0 (.beatSample id j 0)).performFrom id j (t + 2)) s
          s.moveReads id b.srcSpace (b.src.headD 0 / 64) b.sampleAt t
    (s.redeliverOf id b).repromise id

/-- Read j that only expands block k moves to the next free cycle of its bank, or of its channel (R201, R257). -/
def State.moveRead (s : State) (id k j : Nat) : State :=
  match (s.block? id k).bind fun p => (p.2.reads[j]?).map fun r => (p.2, r) with
  | .none => s
  | .some (q, (line, t)) =>
    if q.delivered then s
    else if q.space = .dev then (if t + 11 ≤ s.tick then s else s.reserveAgain id (s.channelOf line) line t (max s.tick t + 1))
    else ((s.putRead id k j line (t + 1)).redeliver id k).repromise id

/-- The port slots of the flits of an `lsend` that have not departed are released (R355). -/
def State.freeSend (s : State) (c : Cmd) : State :=
  match c.kind with
  | .send p _ _ _ => s.modPort p fun q => { q with slots := q.slots.filter fun z => !(z.2 == c.ctx && decide (c.t0 + 5 * c.n ≤ z.1)
      && decide (z.1 < c.t0 + 5 * ((c.beats.length + 2) / 3)) && (z.1 - c.t0) % 5 == 0) }
  | _ => s

/-- The blocks that can no longer be expanded once some claims have lost: those whose reads lost, and those that beats which lost move
or let read. -/
def Cmd.lostBlocks (c : Cmd) (lost : List Nat) : List Nat :=
  (lost.flatMap fun i =>
    if readAgent 0 0 ≤ i then [(i - readAgent 0 0) / 128]
    else match c.beats[i]? with
      | .none => []
      | .some b =>
        let own := match b.block with | .some k => if b.expanded then [] else [k] | .none => []
        own ++ ((c.packed.zipIdx).filter fun q => q.1.shared && q.1.space == b.srcSpace
          && q.1.reads.contains (b.src.headD 0 / 64, b.sampleAt)).map (·.2)).eraseDups

/-- The beats of a command that can no longer perform once some claims have lost (R259). -/
def Cmd.lostBeats (c : Cmd) (lost : List Nat) : List Nat :=
  let blocks := c.lostBlocks lost
  ((c.beats.zipIdx).filter fun p => !p.1.performed && !p.1.abandoned &&
    (lost.contains p.2 || (p.1.expanded && p.1.block.any blocks.contains))).map (·.2)

/-- DETAIL0 of the bank-conflict fault of a copy, whose first abandoned beat has this number (R252, R259). -/
def conflictDetail (first : Nat) : Word := BitVec.ofNat 32 (2 ^ 31 + first % 2 ^ 16)

/-- The least number of some beats of a command, given by their places, and of `n`. -/
def Cmd.firstOf (c : Cmd) (n : Nat) (l : List Nat) : Nat := l.foldl (fun m j => Nat.min m ((c.beats[j]?.map (·.num)).getD m)) n

/-- A copy ended by an exposed-mode bank conflict in which some of its claims lost (R259). -/
def State.endCopy (s : State) (c : Cmd) (lost : List Nat) : State :=
  let s := s.freeSend c
  let stuck := c.lostBeats lost
  let gone := ((c.beats.zipIdx).filter fun p =>
    !p.1.performed && !p.1.abandoned && (stuck.contains p.2 || !c.begun p.1 s.tick)).map (·.2)
  let s := gone.foldl (fun s j => s.abandonBeat c.id j) s
  let s := (s.giveUpBlocks c.id).modCmd c.id fun c => { c with outstanding := false, promise := s.tick }
  s.raiseAsync c.herd c.core
    { cls := 5, d0 := conflictDetail (c.firstOf (2 ^ 16 - 1) gone), d1 := s.vcycAt c.ctx c.first, ctx := c.ctx, owner := c.ctx }

/-- Further claims of a copy that lose in the cycle of the conflict that ended it: their beats are abandoned too, and the pending fault
names the first of all (R202, R259). -/
def State.endMore (s : State) (c : Cmd) (lost : List Nat) : State :=
  let gone := c.lostBeats lost
  let s := (gone.foldl (fun s j => s.abandonBeat c.id j) s).giveUpBlocks c.id
  let d1 := s.vcycAt c.ctx c.first
  s.modCore c.herd c.core fun k => { k with asyncs := k.asyncs.map fun a =>
    if a.cls = 5 && a.ctx = c.ctx && a.d1 = d1 then { a with d0 := conflictDetail (c.firstOf (a.d0.toNat % 2 ^ 16) gone) } else a }

/-- Walker claims of a command that array claims remove (R201, R202): the beats move, or the copy ends. The beats of a copy that a conflict
in an earlier cycle has ended complete (R259): they move (log entry 58). -/
def State.loseClaims (s : State) (id : Nat) (lost : List Nat) : State :=
  match s.cmd? id with
  | .none => s
  | .some c =>
    if lost.isEmpty then s
    else if !c.interlocked && !c.isOutward && c.outstanding then s.endCopy c lost
    else if !c.interlocked && !c.isOutward && c.promise = s.tick then s.endMore c lost
    else lost.foldl (fun s i =>
      if readAgent 0 0 ≤ i then s.moveRead id ((i - readAgent 0 0) / 128) (i % 128) else s.moveBeat id i) s

/-- The slot of a record that has not begun is reserved again, from cycle `lo` on, its old one standing on channel `old` (R257, R442). -/
def State.moveRecord (s : State) (c : Cmd) (old lo : Nat) : State :=
  let pc := s.channelOf (c.pa / 64)
  let u := s.freeSlot pc lo
  let s := ((s.dropSlot old c.slot).takeSlot pc u).modCmd c.id fun c => { c with slot := u }
  let s := if u + 94 ≤ c.promise then s.planRecord { c with slot := u } else s.plan u 1 0 (.recSample c.id)
  s.repromise c.id

/-- Whether a command reads a record in a slot of its own that has not ended in this cycle. -/
def Cmd.readsRecord (c : Cmd) (t : Nat) : Bool := c.kind.judged.isSome && c.beats.isEmpty && c.outstanding && decide (t < c.slot + 11)

/-- DRAM_RETRY (R257): slot j of beat i is reserved again, on a later free slot; so is that of a record. -/
def State.retry (s : State) (id i j : Nat) : State :=
  match (s.beat? id i).bind fun p => (p.2.slots[j]?).map fun z => (p.2, z) with
  | .none => match s.cmd? id with
    | .some c => if c.readsRecord s.tick then
        (s.modCmd id fun c => { c with record := [] }).moveRecord c (s.channelOf (c.pa / 64)) (max s.tick c.slot + 1) else s
    | .none => s
  | .some (b, (line, t)) =>
    if b.performed || b.abandoned || t + 11 ≤ s.tick then s else s.reserveAgain id (s.channelOf line) line t (max s.tick t + 1)

/-- DRAM_RETRY (R257): a slot of a beat, of a record, or of a read that only expands a block. -/
def execDramRetry (s : State) : Out :=
  .next (if readAgent 0 0 ≤ s.ev.b then s.moveRead s.ev.a ((s.ev.b - readAgent 0 0) / 128) (s.ev.b % 128)
    else s.retry s.ev.a s.ev.b s.ev.c)

/-- The beats, block reads, records and walk reads that have not begun, of lines that another channel than `was` says serves now, are reserved
again in its calendar (R442). -/
def State.rechannel (s : State) (was : Nat → Nat) : State :=
  let gone (line : Nat) : Bool := was line != s.channelOf line
  let s := s.agenda.foldl (fun s d => match d.act with
    | .walkRead _ line _ =>
      if gone line && s.tick < d.at_ then
        let u := s.freeSlot (s.channelOf line) d.at_
        ((({ s with agenda := s.agenda.erase d } : State).dropSlot (was line) d.at_).takeSlot (s.channelOf line) u).plan u 1 0 d.act
      else s
    | _ => s) s
  s.cmds.foldl (fun s c =>
    let slots := (c.beats.filter fun b => !b.performed && !b.abandoned).flatMap (·.slots)
      ++ (c.packed.filter fun q => q.space = .dev && !q.delivered).flatMap (·.reads)
    let s := ((slots.eraseDups).filter fun p => gone p.1 && decide (s.tick < p.2)).foldl (fun s p =>
      s.reserveAgain c.id (was p.1) p.1 p.2 p.2) s
    if c.readsRecord s.tick && s.tick < c.slot && gone (c.pa / 64) then s.moveRecord c (was (c.pa / 64)) c.slot else s) s

/-- A beat that arrived on a link is placed in the first cycle from t on in which its banks are unclaimed (R353). -/
def State.placeLink (s : State) (h : Nat) (b : LinkBeat) (t : Nat) : State :=
  let banks := (b.bytes.map fun p => bankOf p.1).eraseDups
  let x := s.herd h
  let u := searchFrom (fun t => x.freeBanks t banks) (x.claims.length + 1) t
  let s := s.modHerd h fun x => { (x.claimAll s.tick u banks (.link b.id)) with
    linkBeats := x.linkBeats.map fun l => if l.id = b.id then { l with at_ := u } else l }
  s.planEv u 2 10 .linkBeatPerform { a := h, b := b.id }

/-- An arriving beat whose claim an array command takes moves to a later cycle (R353). -/
def State.moveLink (s : State) (h id : Nat) : State :=
  match (s.herd h).linkBeats.find? fun l => l.id == id with
  | .none => s
  | .some b =>
    (s.modHerd h fun x => { x with claims := x.claims.filter fun k => k.agent ≠ .link id }).placeLink h b (b.at_ + 1)

/-- A walk's fault becomes pending (R254): the command stops being outstanding, its core takes the trap with the issuing bundle's
address. A table line with an uncorrectable error is fatal (R454). -/
def State.walkFault (s : State) (id : Nat) : State :=
  match s.cmd? id with
  | .none => s
  | .some c =>
    match c.walkFault with
    | .none => s
    | .some (cls, owner, w, va) =>
      let t := ({ cls := cls, owner := owner, write := w, va := va } : Refused).trap
      let s := s.modCmd id fun c => { c with outstanding := false, walkFault := .none }
      if cls = 31 then s.fatal c.ctx 3 c.addr
      else s.raiseAsync c.herd c.core
        { cls := cls, d0 := t.d0, d1 := t.d1, addr := .some c.addr, ctx := c.ctx
          owner := owner }

/-! ### Issue (R253 to R255) -/

/-- Whether an array command has issued in this cycle. -/
def State.arrayIssues (s : State) : Bool := s.herds.any fun x => x.array.cmds.any fun k => k.at_ == s.tick

/-- A command planned in state s enters the machine; its claims that lost to an array command of this cycle react (R202). -/
def State.enterPlan (s : State) (p : Plan) (c : Cmd) : State :=
  let t := p.s.enterCmd { c with promise := p.promise s.tick, first := p.promise s.tick, beats := p.beats, packed := p.blocks }
  if s.arrayIssues then t.loseClaims c.id p.lost.eraseDups else t

/-- The schedule of a copy (R253, R254): its cuts translated and placed, those of several receivers beat by beat (R262); or the first
fault of its walk. -/
def State.schedule (s : State) (cmd : Cmd) (moves : List Move) (order ordered : Bool) : Walk × Except Refused Plan :=
  let cuts := if order then moves.flatMap Move.cuts
    else
      let per := moves.map Move.cuts
      let n := (per.map List.length).foldl Nat.max 0
      (List.range n).flatMap fun i => per.filterMap fun l => l[i]?
  let tlb := (s.herd cmd.walker).tlb
  let (w, r) := s.judgeWalk tlb (s.translateCuts cmd.ctx cuts { tlb := tlb })
  match r with
  | .error f => (w, .error f)
  | .ok l =>
    let s1 := s.modHerd cmd.walker fun h => { h with tlb := w.tlb }
    let (s1, r) := s1.walkReads cmd.ctx cmd.addr w.reads (s.tick + 67)
    (w, .ok ((({ s := s1, id := cmd.id, mcast := cmd.kind = .mcast, issuing := true } : Plan).placeCuts s.tick r ordered l).numbered))

/-- A command issues with its schedule: refused by its walk, trapped where its promise exceeds its bound of `unit` cycles a count (R255,
R371), or in the machine. -/
def State.issuePlan (s : State) (cmd : Cmd) (unit : Nat) (q : Walk × Except Refused Plan) : Res State :=
  match q with
  | (w, .error f) => s.refuse cmd f w
  | (_, .ok p) => if cmd.bound ≠ 0 && unit * cmd.bound.toNat < p.promise s.tick - s.tick then raise 17 else .ok (s.enterPlan p cmd)

end Sys2Proof.Machine
end

