-- ==== Sys2Proof/Machine/Walk.lean ====
section
/-! DEFINITION. Walk.lean: the meanings of the WALK copies, geometry, `wprom` and `wamo` (R249 to R268), of XFORM (R285 to R288),
and of the events that complete them. -/

namespace Sys2Proof.Machine

/-! ### Shared -/

/-- An engine's result lands in its scalar at the end of this cycle, in its place in issue order (R134), in the frame that issued the
command (R371, R389); for a stopped context at its cycle in vcyc (R258), or first of all after the restore. A frame that a call to
its own core has set aside takes it at once. -/
def State.engineScalar (s : State) (c : Cmd) (n : Nat) (v : Word) : State :=
  let away := s.kept.find? fun x => x.ctx == c.ctx && !x.herds.isEmpty
  let here := match (s.ctx c.ctx).life with | .resident | .draining => true | _ => false
  let p : Pend := { due := if here then s.tick else (away.map (·.tick + 1)).getD s.tick, seq := c.seq, dest := .scalar n
                    val := v.setWidth 512, addr := c.addr }
  let runs := (s.regs c.herd c.core).issuer c.id
  let s := s.modIssuer c fun r =>
    let r := { r with engPend := r.engPend.filter fun p => p.1 ≠ c.id }
    if here && !runs then r.putScalar n v else { r with pend := insertPend p r.pend }
  if here && runs then s.planEv s.tick 4 0 .registerWriteLand { a := c.herd, b := c.core } else s

/-- A scalar waits for a command's result (R139, R266). -/
def State.awaitScalar (s : State) (id n : Nat) : State := s.modR fun r => { r with engPend := (id, n) :: r.engPend }

/-- Sibling n of the frame's open group while it can be named: until its outward copies begin (R249, R380). -/
def State.sibling (s : State) (n : Nat) : Option Call :=
  match s.R.group[n]? with
  | .none => .none
  | .some id => match s.call? id with
    | .some k => if k.state = .applying || k.state = .applied then .none else .some k
    | .none => .none

/-- The memory of a box of the executing task's own level. -/
def State.ownSpace (s : State) : Space := if s.level = 3 then .dev else s.space s.level

/-- FMT and FMTK alike (R250). -/
def sameFormat (a b : BitVec 256) : Bool := boxTile a == boxTile b && boxFmt a == boxFmt b

/-- FP32 and INT32 boxes (R38, R39). -/
def boxIsF32 (b : BitVec 256) : Bool := boxFmt b == 0
def boxIsI32 (b : BitVec 256) : Bool := boxTile b && boxFmt b == 3
def boxIsI16 (b : BitVec 256) : Bool := (boxTile b && boxFmt b == 4) || (!boxTile b && boxFmt b == 8)

/-- The address of the element at a path of a box, with the span of its row; none outside the box (R19, R20). -/
def pathAddr (b : BitVec 256) (p : Word) : Option (Nat × Nat) :=
  if inBox b (pathRow p) (pathCol p 0) then
    let row := (pathRow p).toNat
    let start := elemAddr b 0 0 row 0
    .some (elemAddr b 0 0 row (pathCol p 0).toNat, start + runBytes (boxTile b) (boxFmt b) (boxExt b 0))
  else .none

/-! ### Copies (R251, R262, R263, R267) -/

/-- What the four copy commands differ in. -/
inductive CopyKind where
  | copy | mcast | gather | scatter
deriving DecidableEq, Repr

def CopyKind.cmd : CopyKind → CmdKind
  | .copy => .copy | .mcast => .mcast | .gather => .gather | .scatter => .scatter

/-- The route word's check (R267, order 1). -/
def routeOk (k : CopyKind) (route : Word) : Bool :=
  let mask := (route >>> 16).toNat
  let sib := (route >>> 9).toNat % 128
  let up := route.getLsbD 8
  match k with
  | .copy => mask == 0
  | .mcast => mask != 0 && !up && decide (sib + Nat.log2 mask < 128)
  | .gather => mask == 0 && !up
  | .scatter => mask == 0 && up

/-- The siblings that a route word names. -/
def routeSiblings (k : CopyKind) (route : Word) : List Nat :=
  let sib := (route >>> 9).toNat % 128
  match k with
  | .mcast => ((List.range 16).filter fun i => (route >>> 16).getLsbD i).map (sib + ·)
  | _ => [sib]

/-- A child of the frame with the box that the route names in it (R249). -/
def State.routeChild (s : State) (ch : Nat) (n : Nat) : Res (Call × BitVec 256) :=
  match s.sibling n with
  | .none => raise 8
  | .some k => match k.args[ch]? with
    | .none => raise 8
    | .some a => .ok (k, a.childBox)

/-- The runs between an own and a child sub-box, row by row (R250). -/
def copyRuns (up : Bool) (own child : BitVec 256) (g f : Geo) : List Run :=
  let n := rowLength own g.extents
  ((rowStarts own g.origins g.extents).zip (rowStarts child f.origins g.extents)).map fun p =>
    if up then { src := p.2, dst := p.1, len := n, keep := rowPadding own g.extents }
    else { src := p.1, dst := p.2, len := n, keep := rowPadding own g.extents }

/-- The runs of `wgath` and `wscat`: each row's 32-column groups through the table, in ascending j (R263). -/
def tableRuns (up : Bool) (own child : BitVec 256) (g f : Geo) (t : List (BitVec 16)) : List Run :=
  let n := g.e0.toNat / 32
  let one := g.extents.set 0 32
  let len := rowLength own one
  let at_ (b : BitVec 256) (o : List Nat) (col : Nat) : List Nat := rowStarts b (o.set 0 col) one
  let groups := (List.range n).map fun j =>
    (at_ own g.origins (g.o0.toNat + 32 * (t.getD j 0).toNat)).zip (at_ child f.origins (f.o0.toNat + 32 * j))
  let rows := (groups.headD []).length
  (List.range rows).flatMap fun i => groups.filterMap fun l => (l[i]?).map fun p =>
    if up then { src := p.2, dst := p.1, len := len } else { src := p.1, dst := p.2, len := len }

/-- Whether every table entry used keeps its group inside the own box (R263). -/
def tableOk (own : BitVec 256) (g : Geo) (t : List (BitVec 16)) : Bool :=
  g.e0.toNat % 32 == 0 && g.e0.toNat / 32 ≤ 512 &&
    (List.range (g.e0.toNat / 32)).all fun j => decide (g.o0.toNat + 32 * (t.getD j 0).toNat + 32 ≤ boxExt own 0)

/-- Whether a write through SCALEVIEW covers whole view blocks (R274): its runs start and end at multiples of 64. -/
def scaleWhole (s : State) (own : BitVec 256) (runs : List Run) : Bool :=
  match s.apertureOf own with
  | .some a => a.xf ≠ 3 || runs.all fun r => r.dst % 64 = 0 && r.len % 64 = 0
  | .none => true

/-- The rows that a copy command moves to or from a child's box: through the table, or as they stand (R262, R263). -/
def State.copyRunsTo (s : State) (k : CopyKind) (up : Bool) (o f : BitVec 3) (own child : BitVec 256) : List Run :=
  let g := s.R.gm.getD o.toNat {}
  let far := s.R.gm.getD f.toNat {}
  if k = .gather || k = .scatter then tableRuns up own child g far s.R.idx else copyRuns up own child g far

/-- What a copy command moves for each child that its route names (R262). -/
def State.copyMoves (s : State) (k : CopyKind) (up : Bool) (o f : BitVec 3) (own : BitVec 256) (kids : List (Call × BitVec 256)) :
    List Move :=
  (kids.zipIdx).map fun p =>
    let r := s.copyRunsTo k up o f own p.1.2
    if up then { src := p.1.1.space, dst := s.ownSpace, runs := r, part := p.2, box := own }
    else { src := s.ownSpace, dst := p.1.1.space, runs := r, part := p.2, box := own }

/-- The own sub-box that a copy command tests: with a table, the first group of 32 columns (R263, R267). -/
def State.testedGeo (s : State) (k : CopyKind) (o : BitVec 3) : Geo :=
  let g := s.R.gm.getD o.toNat {}
  if (k = .gather || k = .scatter) && g.e0 ≠ 0 then { g with e0 := 32 } else g

/-- A copy command as it issues: the herd of its first child carries it out (R249, R262), and a `wmcast` is outstanding at that walker alone
(DESIGN CHOICE, log entry 45). -/
def State.copyCmd (s : State) (k : CopyKind) (route bound : Word) (o f : BitVec 3) (kids : List (Call × BitVec 256)) : Cmd :=
  let walker := match kids with
    | p :: _ => (p.1.space.herd).getD s.cur.herd
    | [] => s.cur.herd
  { s.newCmd k.cmd walker with route := route, bound := bound, own := s.R.gm.getD o.toNat {}, far := s.R.gm.getD f.toNat {} }

/-- The schedule of a copy command (R253): the rows of several receivers go out together, and the groups of `wscat` in their order. -/
def State.copySchedule (s : State) (k : CopyKind) (route bound : Word) (o f : BitVec 3) (own : BitVec 256)
    (kids : List (Call × BitVec 256)) : Walk × Except Refused Plan :=
  s.schedule (s.copyCmd k route bound o f kids) (s.copyMoves k (route.getLsbD 8) o f own kids) (k ≠ .mcast) (k = .scatter)

/-- A copy command (R262, R263) with the checks of R267 in their order. One that must wait for its table is held before the table
is tested (R139, R263). The herd-withheld fault of R71, which R267 does not list, stands after its order 3 (DEDUCED, log entry 55). -/
def State.copyCommand (s : State) (k : CopyKind) (a b : BitVec 5) (o f : BitVec 3) : Res State := do
  let (route, bound) ← s.src2 a b
  let s := s.notePbnd [a, b]
  let up := route.getLsbD 8
  let ch := (route >>> 4).toNat % 16
  let g := s.R.gm.getD o.toNat {}
  let far := s.R.gm.getD f.toNat {}
  if !routeOk k route then raise 2 11
  let own ← s.box (route.toNat % 16)
  let kids ← (routeSiblings k route).mapM (s.routeChild ch)
  let packed := match s.apertureOf own with | .some x => x.xf = 1 | .none => false
  if (if up then !boxWrites own else !boxReads own) || (up && s.level = 3 && packed) then raise 9
  if kids.any fun p => (p.1.space.herd).any (s.givenAway ((s.R.ctx).getD 0)) then raise 25
  if kids.any fun p => !sameFormat own p.2 then raise 12
  let table := k = .gather || k = .scatter
  let early := table && decide (s.tick < s.R.tabAt)
  if early && s.interlocked then .error .hold
  if table && !tableOk own g s.R.idx then raise 10
  let ownGeo := s.testedGeo k o
  if !subBoxOk own ownGeo.origins ownGeo.extents || (kids.any fun p => !subBoxOk p.2 far.origins g.extents) then raise 10
  if up && s.level = 3 && !(kids.all fun p => scaleWhole s own (s.copyRunsTo k up o f own p.2)) then raise 10
  if early then raise 6
  if bound ≠ 0 && s.interlocked then raise 6
  let cmd := s.copyCmd k route bound o f kids
  if s.walkerFull cmd.walker then s.busy
  return (← s.issuePlan cmd 1 (s.copySchedule k route bound o f own kids)).noteIssued cmd.id

/-- `wcopy` (R262). -/
def execWcopy (a b : BitVec 5) (o f : BitVec 3) (s : State) : Out := s.answer (s.copyCommand .copy a b o f)

/-- `wmcast` (R262). -/
def execWmcast (a b : BitVec 5) (o f : BitVec 3) (s : State) : Out := s.answer (s.copyCommand .mcast a b o f)

/-- `wgath` (R263). -/
def execWgath (a b : BitVec 5) (o f : BitVec 3) (s : State) : Out := s.answer (s.copyCommand .gather a b o f)

/-- `wscat` (R263). -/
def execWscat (a b : BitVec 5) (o f : BitVec 3) (s : State) : Out := s.answer (s.copyCommand .scatter a b o f)

/-! ### Geometry and the index table (R264) -/

/-- Two coordinates of a word: bits [31:16] and [15:0]. -/
def hiHalf (w : Word) : BitVec 16 := BitVec.extractLsb' 16 16 w
def loHalf (w : Word) : BitVec 16 := BitVec.extractLsb' 0 16 w

/-- `wgeo` (R264): dimensions 1 and 0; origins of 3 and 2 become 0, their extents 1. -/
def execWgeo (a b : BitVec 5) (n : BitVec 3) (s : State) : Out :=
  s.answer do
    let (x, y) ← s.src2 a b
    let g : Geo := { o0 := loHalf x, o1 := hiHalf x, o2 := 0, o3 := 0, e0 := loHalf y, e1 := hiHalf y, e2 := 1, e3 := 1 }
    return (s.notePbnd [a, b]).modR fun r => { r with gm := r.gm.set n.toNat g }

/-- `wgeo.hi` (R264): dimensions 3 and 2. -/
def execWgeoHi (a b : BitVec 5) (n : BitVec 3) (s : State) : Out :=
  s.answer do
    let (x, y) ← s.src2 a b
    return (s.notePbnd [a, b]).modR fun r => { r with
      gm := r.gm.modify n.toNat fun g => { g with o2 := loHalf x, o3 := hiHalf x, e2 := loHalf y, e3 := hiHalf y } }

/-- A read into the walker (R264): its beats have no destination; a level-memory read is usable 2 cycles after its sample, and one of
device memory is seen through its box's aperture (R272). -/
def State.issueRead (s : State) (cmd : Cmd) (box : BitVec 256) (runs : List Run) : Res State := do
  let cuts := ({ src := s.ownSpace, dst := s.ownSpace, runs := runs, box := box } : Move).cuts
  if s.ownSpace ≠ .dev then
    let p := cuts.foldl (fun (p : Plan) q =>
      p.place s.tick (s.tick + 67) 0 .none
        { srcSpace := s.ownSpace, src := addrRun q.src q.len, dstSpace := s.ownSpace, dst := [], part := q.src })
      { s := s, id := cmd.id, issuing := true }
    return s.enterPlan p cmd
  else
    let down := cuts.map fun q => { q with mv := { q.mv with dst := .hm cmd.walker } }
    let tlb := (s.herd cmd.walker).tlb
    let (w, r) := s.judgeWalk tlb (s.translateCuts cmd.ctx down { tlb := tlb })
    match r with
    | .error f => s.refuse cmd f w
    | .ok l =>
      let s1 := s.modHerd cmd.walker fun h => { h with tlb := w.tlb }
      let (s1, r) := s1.walkReads cmd.ctx cmd.addr w.reads (s.tick + 67)
      let p := ({ s := s1, id := cmd.id } : Plan).readView s.tick r (s.apertureOf box) (l.map fun q => (q.1.src, q.2, q.1.len, q.1.src))
      return s.enterPlan p cmd

/-- `wgeo.tab` (R264). -/
def execWgeoTab (a b : BitVec 5) (n : BitVec 3) (s : State) : Out :=
  s.answer do
    let (x, y) ← s.src2 a b
    let s := s.notePbnd [a, b]
    if x &&& 0xFFFFFFF0#32 ≠ 0 then raise 2 11
    let own ← s.box (x.toNat % 16)
    if !boxReads own || !boxIsI16 own then raise 9
    let g := s.R.gm.getD n.toNat {}
    let e := [y.toNat, 1, 1, 1]
    if y.toNat < 1 || 512 < y.toNat || !subBoxOk own g.origins e then raise 10
    if s.walkerFull s.cur.herd then s.busy
    let cmd := { s.newCmd (.table y.toNat) s.cur.herd with own := g, route := x, far := { e0 := y.setWidth 16 } }
    let runs := (rowStarts own g.origins e).map fun q => { src := q, dst := q, len := rowLength own e : Run }
    let s ← s.issueRead cmd own runs
    return (s.noteIssued cmd.id).modR fun r => { r with tabAt := ((s.cmd? cmd.id).map (·.promise)).getD s.tick }

/-- A completed `wgeo.tab`: its entries become the table, each from its place in the row that was read, whose reads are numbered by their
first byte (R264). -/
def State.loadTable (s : State) (c : Cmd) (n : Nat) : State :=
  let bytes := c.beats.flatMap fun b => bytesAt b.part b.bytes
  let start := c.beats.foldl (fun m b => Nat.min m b.part) ((c.beats.head?.map (·.part)).getD 0)
  let entry (i : Nat) : BitVec 16 := BitVec.ofNat 16 (leNat [gotByte bytes (start + 2 * i), gotByte bytes (start + 2 * i + 1)])
  s.modIssuer c fun r => { r with idx := (r.idx.zipIdx).map fun p => if p.2 < n then entry p.2 else p.1 }

/-! ### `wprom` (R265) -/

/-- The promise that `wprom` k returns. -/
def State.promiseOf (s : State) (k : Nat) : Word :=
  match s.R.issued[k]? with
  | .none => 0
  | .some id => match s.cmd? id with
    | .none => 0
    | .some c => s.vcycAt c.ctx c.promise

/-- `wprom` (R265). -/
def execWprom (d : BitVec 5) (k : BitVec 6) (s : State) : Out :=
  s.answer do
    s.room 2 0
    return s.put 2 (.scalar d.toNat) (wide (s.promiseOf k.toNat))

/-! ### `wamo` (R266) -/

/-- The new word of a `wamo`: 0 add, 1 swap, 2 compare and swap, 3 signed maximum. -/
def wamoNew (op : Nat) (old v v2 : Word) : Word :=
  match op with
  | 0 => old + v
  | 1 => v
  | 2 => if old = v then v2 else old
  | _ => if v.toInt ≤ old.toInt then old else v

/-- Where a record or word of device memory lies that a command reads, with the cycle from which its slot may start; or what becomes of a
command that its translation or `agrees`, the test of R272 at its physical address, refuses (R253, R266, R286, R418). -/
def State.recordAt (s : State) (cmd : Cmd) (va : Nat) (k : Ask) (agrees : Nat → Bool) : State × Except (Res State) (Nat × Nat) :=
  let tlb := (s.herd cmd.walker).tlb
  let (w, r) := s.judgeWalk tlb (s.translate cmd.ctx va k { tlb := tlb })
  match r with
  | .error f => (s, .error (s.refuse cmd f w))
  | .ok q =>
    if !agrees q.pa then (s, .error (s.refuse cmd { cls := 9, owner := cmd.ctx, write := false, va := 0 } w))
    else
      let s1 := s.modHerd cmd.walker fun h => { h with tlb := w.tlb }
      let (s1, r) := s1.walkReads cmd.ctx cmd.addr w.reads (s.tick + 67)
      (s1, .ok (q.pa, r))

/-- A command enters that reads a record of n bytes, at a slot of its own from cycle r on (R286, R418), or through the aperture of its box
(R272). -/
def State.enterRecord (s : State) (cmd : Cmd) (box : BitVec 256) (va pa n r : Nat) : State :=
  match s.apertureOf box with
  | .none =>
    let pc := s.channelOf (pa / 64)
    let t := s.freeSlot pc r
    let c := { cmd with promise := t + 94, first := t + 94, pa := pa, slot := t }
    ((s.takeSlot pc t).enterCmd c).planRecord c
  | .some a =>
    let p := ({ s := s, id := cmd.id } : Plan).readView s.tick r (.some a) ((cutRun va n).map fun q => (va + q.1, pa + q.1, q.2, q.1))
    (s.enterPlan p { cmd with pa := pa }).planRecord { cmd with beats := p.beats, promise := p.promise s.tick }

/-- A `wamo` (R266): sampled in its slot, performed at the slot's end, its result at t + 74. -/
def State.wamo (s : State) (op : Nat) (n p : BitVec 5) (h : BitVec 4) : Res State := do
  if n.toNat = 0 || 23 < n.toNat || (op = 2 && n.toNat = 23) then raise 2 10
  let v ← s.reg n.toNat
  let v2 ← if op = 2 then s.reg (n.toNat + 1) else .ok 0
  let path ← s.src p 0
  let s := s.notePbnd [p]
  let b ← s.box h.toNat
  if s.level ≠ 3 || boxAcc b ≠ 3 || !(boxIsF32 b || boxIsI32 b) then raise 9
  match pathAddr b path with
  | .none => raise 10
  | .some (va, _) =>
    if va % 4 ≠ 0 then raise 10
    if s.walkerFull s.cur.herd then s.busy
    let cmd := s.newCmd (.wamo op n.toNat v v2 va) s.cur.herd
    match s.recordAt cmd va .both fun _ => true with
    | (_, .error r) => return (← r).noteIssued cmd.id
    | (s1, .ok (pa, r)) =>
      let t := s1.freeSlot (s1.channelOf (pa / 64)) r
      let s1 := s1.takeSlot (s1.channelOf (pa / 64)) t
      let beat : Beat := { srcSpace := .dev, src := addrRun pa 4, dstSpace := .dev, dst := addrRun pa 4, slots := [(pa / 64, t)]
                           performAt := t + 10, sampled := true }
      let c := { cmd with promise := t + 74, first := t + 74, pa := pa, slot := t, beats := [beat] }
      let s2 : State := { s1.prune with nextId := s1.nextId + 1 }
      let s2 : State := { s2 with cmds := s2.cmds ++ [c] }
      let s2 := ((s2.plan t 1 0 (.recSample c.id)).planEv (t + 10) 2 10 .walkerBeatPerform { a := c.id, b := 0, c := 0 }).planEv
        (t + 74) 3 engineOrd .wamoComplete { a := c.id }
      return (s2.noteIssued c.id).awaitScalar c.id n.toNat

/-- `wamo.add` (R266). -/
def execWamoAdd (n p : BitVec 5) (h : BitVec 4) (s : State) : Out := s.answer (s.wamo 0 n p h)

/-- `wamo.swap` (R266). -/
def execWamoSwap (n p : BitVec 5) (h : BitVec 4) (s : State) : Out := s.answer (s.wamo 1 n p h)

/-- `wamo.cas` (R266). -/
def execWamoCas (n p : BitVec 5) (h : BitVec 4) (s : State) : Out := s.answer (s.wamo 2 n p h)

/-- `wamo.max` (R266). -/
def execWamoMax (n p : BitVec 5) (h : BitVec 4) (s : State) : Out := s.answer (s.wamo 3 n p h)

/-- Bytes of the record or word that a command reads in its slot (R266, R286, R418, R422). -/
def CmdKind.recordBytes : CmdKind → Nat
  | .wamo _ _ _ _ _ => 4
  | .cxmk _ | .cxgive _ => 64
  | _ => 32

/-- The sample of a command that reads one record or one word in its slot (R266, R286, R418): an uncorrectable line is fatal when its
data would be usable (R454). A record that beats read through an aperture is complete at the promise. -/
def State.sampleRecord (s : State) (id : Nat) : State :=
  match s.cmd? id with
  | .none => s
  | .some c =>
    let l := addrRun c.pa c.kind.recordBytes
    if !c.isWamo && !c.beats.isEmpty then
      if c.beats.any (·.abandoned) then s.modCmd id fun c => { c with outstanding := false }
      else if s.tick < c.promise then s
      else s.modCmd id fun c => { c with record := c.beats.flatMap Beat.bytes }
    else if c.slot ≠ s.tick then s
    else
    let s := s.charge c.ctx 12 1
    if s.anyBad .dev l then
      let late := match c.kind with | .wamo .. => 74 | _ => 94
      (s.plan (s.tick + late) 0 0 (.fatalDue c.ctx 3 c.addr)).modCmd id fun c => { c with
        record := [], outstanding := false, beats := c.beats.map fun b => { b with abandoned := true } }
    else
      let bytes := s.readBytes .dev l
      let s := s.modCmd id fun c => { c with record := bytes }
      match c.kind with
      | .wamo op _ v v2 _ =>
        let old : Word := BitVec.ofNat 32 (leNat bytes)
        s.modBeat id 0 fun b => { b with got := l.zip (leBytes 4 (wamoNew op old v v2).toNat) }
      | _ => s

/-- WAMO_COMPLETE (R266): the old word of command ev.a lands in its scalar. The final state of R426 shows another word there (DEDUCED, log
entry 60). -/
def execWamoComplete (s : State) : Out :=
  .next (match s.cmd? s.ev.a with
    | .none => s
    | .some c => match c.kind with
      | .wamo _ n _ _ _ => if c.record.isEmpty || s.tick < c.promise then s else s.engineScalar c n (BitVec.ofNat 32 (leNat c.record))
      | _ => s)

/-! ### XFORM (R269 to R271, R285 to R288) -/

/-- The fields of an aperture record (R270). -/
def apertureOfRecord (l : List Byte) : Aperture :=
  let at_ (o n : Nat) : Nat := leNat ((l.drop o).take n)
  { vbase := at_ 0 8, vlen := at_ 8 8, sbase := at_ 16 8, xf := at_ 24 1, param0 := at_ 25 1, param1 := at_ 26 2 }

/-- The store range of a SCALEVIEW aperture; empty for the others (R271). -/
def Aperture.store (a : Aperture) : Nat × Nat := if a.xf = 3 then (a.sbase, a.vlen / 64 * storeBlock a.param0) else (0, 0)

/-- A well-formed record (R271). -/
def apertureWellFormed (l : List Byte) : Bool :=
  let a := apertureOfRecord l
  decide (a.vbase < 2 ^ 48) && a.vbase % 4096 == 0 && decide (a.vlen < 2 ^ 48) && a.vlen != 0 && a.vlen % 4096 == 0
    && decide (a.xf ≤ 3) && leNat ((l.drop 28).take 4) == 0 && decide (a.vbase + a.vlen ≤ 2 ^ 48)
    && (if a.xf = 3 then a.sbase % 64 == 0 && decide (a.param0 ≤ 6) && a.vlen % 64 == 0 else a.sbase == 0)
    && (if a.xf = 2 then
          decide (a.param0 ≤ 2) && decide (1 ≤ a.param1) && decide (a.param1 ≤ 2048)
            && a.vlen % (32 * a.param1 * 2 ^ a.param0) == 0
        else a.param1 == 0 && (a.xf == 3 || a.param0 == 0))

def Aperture.ranges (a : Aperture) : List (Nat × Nat) := [(a.vbase, a.vlen), a.store]

/-- An aperture register changed: commands that issue in this cycle do not see it (R286, R287). -/
def State.setAperture (s : State) (n : Nat) (a : Option Aperture) : State :=
  { s with apertures := s.apertures.set n a, aperturesWas := if s.aperturesWas.1 = s.tick + 1 then s.aperturesWas else (s.tick + 1, s.apertures) }

/-- Whether a record is refused for overlap, register n being replaced (R271). -/
def State.apertureClash (s : State) (n : Nat) (a : Aperture) : Bool :=
  rangesMeet (a.vbase, a.vlen) a.store ||
    (s.apertures.zipIdx).any fun p => p.2 != n && match p.1 with
      | .some b => a.ranges.any fun x => b.ranges.any fun y => rangesMeet x y
      | .none => false

/-- Whether an `apset` of register n is outstanding (R287, R288). -/
def State.apertureBusy (s : State) (n : Nat) : Bool :=
  s.cmds.any fun c => c.live s.tick && match c.kind with | .apset _ m _ => m == n | _ => false

/-- `apset` (R286, R288). -/
def execApset (n p : BitVec 5) (h : BitVec 4) (s : State) : Out :=
  s.answer do
    if s.R.ctx ≠ .some 0 then raise 24
    if n.toNat = 0 || 23 < n.toNat then raise 2 10
    if s.level ≠ 3 then raise 9
    let v ← s.reg n.toNat
    let path ← s.src p 0
    let s := s.notePbnd [p]
    let b ← s.box h.toNat
    if !boxReads b || !boxIsI32 b then raise 9
    match pathAddr b path with
    | .none => raise 10
    | .some (va, fin) =>
      if va % 32 ≠ 0 || fin < va + 32 then raise 10
      if s.apertureBusy (v.toNat % 64) || s.walkerFull s.cur.herd then s.busy
      let cmd := s.newCmd (.apset n.toNat (v.toNat % 64) va) s.cur.herd
      match s.recordAt cmd va .read fun pa => s.apertureOk b pa 32 with
      | (_, .error r) => r
      | (s1, .ok (pa, r)) =>
        return ((s1.enterRecord cmd b va pa 32 r).noteIssued cmd.id).awaitScalar cmd.id n.toNat

/-- APSET_COMPLETE (R286): the record of command ev.a is judged, and the status lands. -/
def execApsetComplete (s : State) : Out :=
  .next (match s.cmd? s.ev.a with
    | .none => s
    | .some c => match c.kind with
      | .apset n reg _ =>
        if c.record.isEmpty then s
        else
          let a := apertureOfRecord c.record
          if !apertureWellFormed c.record then s.engineScalar c n 2
          else if s.apertureClash reg a then s.engineScalar c n 1
          else (s.setAperture reg (.some a)).engineScalar c n 0
      | _ => s)

/-- `apclr` (R287, R288). -/
def execApclr (a : BitVec 5) (s : State) : Out :=
  s.answer do
    if s.R.ctx ≠ .some 0 then raise 24
    let x ← s.src a 0
    let s := s.notePbnd [a]
    if s.apertureBusy (x.toNat % 64) then s.busy
    return s.setAperture (x.toNat % 64) .none

/-- The word that `apq` returns (R287). -/
def State.apertureWord (s : State) (n : Nat) : Word :=
  let pend := if s.apertureBusy n then 2 ^ 30 else 0
  match s.apertures.getD n .none with
  | .none => BitVec.ofNat 32 pend
  | .some a => BitVec.ofNat 32 (2 ^ 31 + pend + a.xf % 4 * 2 ^ 28)

/-- `apq` (R287). -/
def execApq (d b : BitVec 5) (s : State) : Out :=
  s.answer do
    let x ← s.src b 0
    s.room 2 0
    return (s.notePbnd [b]).put 2 (.scalar d.toNat) (wide (s.apertureWord (x.toNat % 64)))

end Sys2Proof.Machine
end

