-- ==== Sys2Proof/Machine/Array.lean ====
section
/-! DEFINITION. Array.lean: the Eland array of a herd over the state: geometry (R311, R312), leases (R307, R308, R324), units and
slot hazards (R315, R316), the checks of R325, the meanings of MXA and MXB (R313 to R323), and the samples, writes and ends of
array commands. -/

namespace Sys2Proof.Machine

/-! ### Geometry (R311) -/

def geoBits (g : BitVec 96) (lo n : Nat) : Nat := g.toNat / 2 ^ lo % 2 ^ n
def geoWpath (g : BitVec 96) : Word := BitVec.extractLsb' 64 32 g
def geoDpath (g : BitVec 96) : Word := BitVec.extractLsb' 32 32 g
def geoAh (g : BitVec 96) : Nat := geoBits g 28 4
def geoWh (g : BitVec 96) : Nat := geoBits g 24 4
def geoDh (g : BitVec 96) : Nat := geoBits g 20 4
def geoNcol (g : BitVec 96) : Nat := geoBits g 12 8
def geoNgrp (g : BitVec 96) : Nat := geoBits g 8 4
def geoKfirst (g : BitVec 96) : Nat := geoBits g 5 3
def geoK0 (g : BitVec 96) : Nat := geoBits g 2 3

/-- n bits of the geometry register from bit `lo` replaced. -/
def geoSet (g : BitVec 96) (lo n v : Nat) : BitVec 96 :=
  BitVec.ofNat 96 (g.toNat - geoBits g lo n * 2 ^ lo + v % 2 ^ n * 2 ^ lo)

def State.setGeo (s : State) (f : BitVec 96 → BitVec 96) : State := s.modR fun r => { r with mgeo := f r.mgeo }

/-- `mgeo.a` (R312). -/
def execMgeoA (a : BitVec 5) (s : State) : Out :=
  s.answer do
    let x ← s.src a 0
    if x &&& 0xFFFFFFF0#32 ≠ 0 then raise 2 11
    return (s.notePbnd [a]).setGeo fun g => geoSet g 28 4 x.toNat

/-- `mgeo.w` (R312). -/
def execMgeoW (a b : BitVec 5) (s : State) : Out :=
  s.answer do
    let (x, y) ← s.src2 a b
    if x &&& 0xFFFFFFF0#32 ≠ 0 then raise 2 11
    return (s.notePbnd [a, b]).setGeo fun g => geoSet (geoSet g 24 4 x.toNat) 64 32 y.toNat

/-- `mgeo.d` (R312). -/
def execMgeoD (a b : BitVec 5) (s : State) : Out :=
  s.answer do
    let (x, y) ← s.src2 a b
    if x &&& 0xFFFFFFF0#32 ≠ 0 then raise 2 11
    return (s.notePbnd [a, b]).setGeo fun g => geoSet (geoSet g 20 4 x.toNat) 32 32 y.toNat

/-- `mgeo.n` (R312). -/
def execMgeoN (a b : BitVec 5) (s : State) : Out :=
  s.answer do
    let (x, y) ← s.src2 a b
    if x &&& 0xFFFFFF00#32 ≠ 0 || y &&& 0xFFFFF880#32 ≠ 0 then raise 2 11
    return (s.notePbnd [a, b]).setGeo fun g =>
      geoSet (geoSet (geoSet (geoSet g 12 8 x.toNat) 8 4 y.toNat) 5 3 (y.toNat / 16)) 2 3 (y.toNat / 256)

/-! ### Leases (R307, R308) -/

/-- a ≤ b as signed 32-bit differences (R163, R307). -/
def notAfter (a b : Word) : Bool := decide (0 ≤ (b - a).toInt)

/-- Whether a window holds the cycle v. -/
def Lease.holds (e : Lease) (v : Word) : Bool := e.v && notAfter e.start v && (e.isOpen || notAfter v e.fin)

/-- The entry whose window holds v. -/
def Array.leaseAt (a : Array) (v : Word) : Option Lease := a.leases.find? fun e => e.holds v

/-- The array of the executing core's herd. -/
def State.arr (s : State) : Array := (s.herd s.cur.herd).array

def State.modArray (s : State) (h : Nat) (f : Array → Array) : State := s.modHerd h fun x => { x with array := f x.array }

/-- The low word of the executing context's vcyc at cycle t. -/
def State.leaseCycle (s : State) (t : Nat) : Word := s.vcycAt ((s.R.ctx).getD 0) t

/-- The lease test of R308 for a command whose last accumulator or slot writes land at the ends of these cycles. -/
def State.leaseOk (s : State) (lasts : List Nat) : Res Unit :=
  match s.arr.leaseAt (s.leaseCycle s.tick) with
  | .none => raise 15
  | .some e =>
    if e.core.toNat = s.cur.core && lasts.all fun t => e.holds (s.leaseCycle t) then .ok () else raise 15

/-- The last accumulator or slot write of a command in flight (R324). -/
def ArrCmd.lastWrites (c : ArrCmd) : List Nat :=
  match c.op with
  | .mload _ | .mrun _ _ _ | .fillAcc _ | .fillSlot _ => [c.fin]
  | _ => []

/-- The lease table of a herd with the changes that earlier bundles of this cycle have made (R324). -/
def State.leasesNext (s : State) (h : Nat) : List Lease :=
  s.agenda.foldl (fun l d => match d.act with
    | .leaseWrite g e x => if g = h && d.at_ = s.tick then l.set e x else l
    | _ => l) (s.herd h).array.leases

/-- A change to the lease table, judged by R324; it takes effect after this cycle. -/
def State.program (s : State) (e : Nat) (l : Lease) : Res State :=
  let a := s.arr
  let now := s.leaseCycle s.tick
  let mine := match a.leaseAt now with | .some x => x.core.toNat = s.cur.core | .none => true
  let table := (s.leasesNext s.cur.herd).set e l
  let valid := table.filter (·.v)
  let meet := (valid.zipIdx).any fun p => (valid.zipIdx).any fun q => p.2 ≠ q.2 && p.1.holds q.1.start
  let covered (c : ArrCmd) (t : Nat) : Bool :=
    table.any fun x => x.core.toNat == c.core && x.holds (s.vcycAt c.ctx t)
  let loose := a.cmds.any fun c => !c.halted && decide (s.tick ≤ c.fin) && !(c.lastWrites.all (covered c))
  if !mine || (l.v && !l.isOpen && !notAfter l.start l.fin) || meet || loose then raise 15
  else .ok (s.plan s.tick 4 0 (.leaseWrite s.cur.herd e l))

/-- A lease entry takes its new value (R324). -/
def State.writeLease (s : State) (h e : Nat) (l : Lease) : State :=
  s.modArray h fun a => { a with
    leases := a.leases.set e l
    leasesWas := if a.leasesWas.1 = s.tick + 1 then a.leasesWas else (s.tick + 1, a.leases) }

/-- The lease table in force in cycle t, which is this one or a later one: a change takes effect in the next cycle (R324). -/
def Array.leasesIn (a : Array) (t : Nat) : List Lease := if a.leasesWas.1 = t + 1 then a.leasesWas.2 else a.leases

/-- The array counts as busy through cycle t, for a command that is none of a unit (R97). -/
def State.arrayBusyTo (s : State) (t : Nat) : State :=
  s.modArray s.cur.herd fun a => { a with busyBefore := Nat.max a.busyBefore (t + 1) }

/-- `mprog` (R324). -/
def execMprog (a b : BitVec 5) (n e : BitVec 2) (s : State) : Out :=
  s.answer do
    let (x, y) ← s.src2 a b
    (s.notePbnd [a, b]).program e.toNat { fin := y, start := x, isOpen := false, v := true, core := n }

/-- `mprog.open` (R324). -/
def execMprogOpen (a : BitVec 5) (n e : BitVec 2) (s : State) : Out :=
  s.answer do
    let x ← s.src a 0
    (s.notePbnd [a]).program e.toNat { fin := 0, start := x, isOpen := true, v := true, core := n }

/-- `mprog.clr` (R324). -/
def execMprogClr (e : BitVec 2) (s : State) : Out := s.answer (s.program e.toNat {})

/-! ### Boxes of array commands (R15, R36, R318 to R325) -/

/-- Rows of a box (R21). -/
def boxRows (b : BitVec 256) : Nat := if boxDims b = 0 then 1 else boxExt b 1

/-- The columns of a group of 32 that lie inside the box. -/
def groupCols (b : BitVec 256) (col : Nat) : Nat := Nat.min 32 (boxExt b 0 - col)

/-- The bytes of the elements of a group that lie inside the box: where they start, how many; scale bytes apart. -/
def groupSpan (b : BitVec 256) (row col : Nat) : Nat × Nat :=
  (elemAddr b 0 0 row col, (groupCols b col * baseWidth (baseCode (boxCode b)) + 7) / 8)

/-- The bytes of a stored group with its scale byte (R36). -/
def wholeSpan (b : BitVec 256) (row col : Nat) : Nat × Nat :=
  if boxBlocked b then (elemAddr b 0 0 row col, blockBytes (boxFmt b)) else groupSpan b row col

/-- The box test of R325, order 5, for rows and groups. -/
def groupsFit (b : BitVec 256) (p : Word) (ncol ngrp : Nat) : Bool :=
  0 ≤ pathRow p && 0 ≤ pathCol p 0 && (pathCol p 0).toNat % 32 == 0 && decide ((pathRow p).toNat + ncol ≤ boxRows b)
    && decide ((pathCol p 0).toNat + 32 * (ngrp - 1) < boxExt b 0)

/-- The same for a sub-box of rows and columns. -/
def blockFits (b : BitVec 256) (p : Word) (rows cols : Nat) : Bool :=
  0 ≤ pathRow p && 0 ≤ pathCol p 0 && (pathCol p 0).toNat % 32 == 0 && decide ((pathRow p).toNat + rows ≤ boxRows b)
    && decide ((pathCol p 0).toNat + cols ≤ boxExt b 0)

def countsOk (ncol ngrp g : Nat) : Bool := decide (1 ≤ ncol) && decide (ncol ≤ 128) && decide (1 ≤ ngrp) && decide (ngrp ≤ 8)
  && decide (ngrp ≤ g)

/-- The tests of R325, order 4, for one box. A code of R38 is a matrix code; only a box of R321 may hold the format of its name as
a tile format too (log entry 56). -/
def State.arrayAccess (s : State) (b : BitVec 256) (rd wr : Bool) (codes : Nat → Bool) (tile : Bool := false) : Res Unit :=
  if s.level ≠ 2 || (rd && !boxReads b) || (wr && !boxWrites b) || (boxTile b && !tile) || !codes (boxCode b) then raise 9 else .ok ()

/-! ### Claims (R198, R202, R305) -/

/-- The bank cycles of a command: banks by cycle. -/
structure Touch where
  at_ : Nat
  banks : List Nat
deriving DecidableEq, Repr

/-- The banks of n bytes from a; none for no byte. -/
def spanBanks (a n : Nat) : List Nat := if n = 0 then [] else banksOf a n

/-- Whether claims would meet one that another array command holds (R305). -/
def State.arrayClash (s : State) (l : List Touch) : Bool :=
  l.any fun t => t.banks.any fun b => match (s.herd s.cur.herd).claimOn t.at_ b with
    | .some a => isArrayAgent a
    | .none => false

/-- What the claims that an array command removes do next, those of one walker command together (R201, R353). -/
def State.displace (s : State) (h : Nat) (lost : List Agent) : State :=
  let walker := lost.filterMap fun a => match a with | .walker c b => .some (c, b) | _ => .none
  let s := ((walker.map (·.1)).eraseDups).foldl (fun s id =>
    s.loseClaims id ((walker.filter fun p => p.1 == id).map (·.2))) s
  lost.foldl (fun s a => match a with | .link b => s.moveLink h b | _ => s) s

/-- An array command's claims: each removes the walker or link claim that stands there (R200, R202). -/
def State.claimArray (s : State) (h : Nat) (agent : Agent) (l : List Touch) : State :=
  let x := s.herd h
  let lost := ((l.flatMap fun t => t.banks.filterMap fun b => x.claimOn t.at_ b).filter fun a => !isArrayAgent a).eraseDups
  let s := s.modHerd h fun x => { x with
    claims := x.claims.filter fun k => !lost.contains k.agent || !l.any fun t => t.at_ == k.at_ && t.banks.contains k.bank }
  let s := s.modHerd h fun x => l.foldl (fun x t => x.claimAll s.tick t.at_ t.banks agent) x
  s.displace h lost

/-! ### Schedules (R304, R318, R321, R322) -/

/-- The reads of A operands of an `mrun` of n groups: offset from the issue, group, rows (R304). -/
def runReads (qa q n : Nat) : List (Nat × Nat × List Nat) :=
  (List.range n).flatMap fun g =>
    if qa = 1 then [(3 + q * g, g, List.range 16)]
    else [(3 + q * g, g, List.range 8), (4 + q * g, g, (List.range 8).map (8 + ·))]

/-- The lines of a row of records, eight to a cycle: each piece's first byte and length. -/
def linePieces (a n : Nat) : List (Nat × Nat) :=
  let lines := (a + n - 1) / 64 - a / 64 + 1
  (List.range ((lines + 7) / 8)).map fun i =>
    let lo := max a ((a / 64 + 8 * i) * 64)
    let hi := Nat.min (a + n) ((a / 64 + 8 * i + 8) * 64)
    (lo, hi - lo)

/-- The reads of an `mload`: offset from the issue, row, first byte, length (R318). -/
def loadReads (b : BitVec 256) (p : Word) (ncol ngrp : Nat) : List (Nat × Nat × Nat × Nat) :=
  let bytes := ngrp * blockBytes (boxCode b)
  let row (j : Nat) : List (Nat × Nat) := linePieces (elemAddr b 0 0 ((pathRow p).toNat + j) (pathCol p 0).toNat) bytes
  ((List.range ncol).foldl (fun (acc : Nat × List (Nat × Nat × Nat × Nat)) j =>
    let l := row j
    (acc.1 + l.length, acc.2 ++ (l.zipIdx).map fun q => (acc.1 + q.2, j, q.1.1, q.1.2))) (3, [])).2

/-- The rows that an `mspill` or `mfill` moves, and the bytes of each. -/
def ArrOp.boxRowCount : ArrOp → Nat
  | .spillSlot _ | .fillSlot _ => 97
  | _ => 16

/-- The address of box row r of a command's data box. -/
def ArrCmd.rowAddr (c : ArrCmd) (r : Nat) : Nat :=
  elemAddr c.src 0 0 ((pathRow c.path).toNat + r) (pathCol c.path 0).toNat

/-- The groups of `menc` and `mcomp` in row-major order: the source's row and column, and the record's (R322). -/
def ArrCmd.groupPlace (c : ArrCmd) (i : Nat) : (Nat × Nat) × (Nat × Nat) :=
  let n := geoNgrp c.geo
  let j := i / n
  let k := i % n
  let p := geoDpath c.geo
  let w := geoWpath c.geo
  (((pathRow p).toNat + j, (pathCol p 0).toNat + 32 * k), ((pathRow w).toNat + j, (pathCol w 0).toNat + 32 * k))

/-- Where the record or the rewritten group i stands, and its bytes. -/
def ArrCmd.groupTarget (c : ArrCmd) (i : Nat) : Nat × Nat :=
  let (s, d) := c.groupPlace i
  match c.op with
  | .menc _ _ => (elemAddr c.dst 0 0 d.1 d.2, blockBytes (boxCode c.dst))
  | _ => wholeSpan c.src s.1 s.2

/-- Commands of the encode unit: how many groups. -/
def ArrCmd.groupCount (c : ArrCmd) : Nat := geoNcol c.geo * geoNgrp c.geo

/-- Every bank cycle that a command claims (R198). -/
def ArrCmd.touches (c : ArrCmd) : List Touch :=
  match c.op with
  | .mrun _ _ _ =>
    (runReads (activationCost (boxCode c.src)) c.q (geoNgrp c.geo)).map fun p =>
      let col := (pathCol c.path 0).toNat + 32 * p.2.1
      { at_ := c.at_ + p.1
        banks := (p.2.2.flatMap fun r =>
          let row := (pathRow c.path).toNat + r
          if row < boxRows c.src then let q := groupSpan c.src row col; spanBanks q.1 q.2 else []).eraseDups }
  | .mload _ =>
    (loadReads c.src c.path (geoNcol c.geo) (geoNgrp c.geo)).map fun p =>
      { at_ := c.at_ + p.1, banks := spanBanks p.2.2.1 p.2.2.2 }
  | .spillAcc _ | .spillSlot _ | .fillAcc _ | .fillSlot _ =>
    (List.range c.op.boxRowCount).map fun r => { at_ := c.at_ + 3 + r, banks := spanBanks (c.rowAddr r) 512 }
  | .menc _ _ | .mcomp _ =>
    (List.range c.groupCount).flatMap fun i =>
      let p := (c.groupPlace i).1
      let q := wholeSpan c.src p.1 p.2
      let d := c.groupTarget i
      [{ at_ := c.at_ + 3 + i, banks := spanBanks q.1 q.2 }, { at_ := c.at_ + 5 + i, banks := spanBanks d.1 d.2 }]

/-- Every event of a command with its cycle (R304, R318, R321, R322). A sample's step is three times its number, plus 1 for a scale
read, plus 2 for a read of slot records; for a slot writer, step 1 is the check of its records. -/
def ArrCmd.events (h : Nat) (c : ArrCmd) : List Due :=
  let sample (t n : Nat) : Due := { at_ := c.at_ + t, phase := 1, ord := 0, act := .arraySample h c.id n }
  let ev (t phase ord : Nat) (i : Instr) (k : Nat) : Due :=
    { at_ := c.at_ + t, phase := phase, ord := ord, act := .ev i { a := h, b := c.id, c := k } }
  match c.op with
  | .mrun _ _ _ =>
    let n := geoNgrp c.geo
    let code := boxCode c.src
    ((runReads (activationCost code) c.q n).zipIdx.map fun p => sample p.1.1 (3 * p.2))
      ++ (if isBlockCode code then (List.range n).map fun g => sample (3 + g) (3 * g + 1) else [])
      ++ ((List.range n).map fun g => sample (3 + c.q * g) (3 * g + 2))
      ++ ((List.range n).map fun g => ev (13 + c.q * (g + 1)) 4 0 .arrayGroupWrite g)
  | .mload _ =>
    ((loadReads c.src c.path (geoNcol c.geo) (geoNgrp c.geo)).zipIdx.map fun p => sample p.1.1 (3 * p.2))
      ++ [{ at_ := c.fin - 1, phase := 1, ord := 0, act := .arraySample h c.id 1 },
          { at_ := c.fin, phase := 4, ord := 0, act := .ev .slotLoadComplete { a := h, b := c.id } }]
  | .fillSlot _ =>
    ((List.range 97).map fun r => sample (3 + r) (3 * r))
      ++ [{ at_ := c.fin - 1, phase := 1, ord := 0, act := .arraySample h c.id 1 },
          { at_ := c.fin, phase := 4, ord := 0, act := .ev .slotLoadComplete { a := h, b := c.id } }]
  | .fillAcc _ => ((List.range 16).map fun r => sample (3 + r) (3 * r)) ++ [ev 20 4 1 .accumulatorFillComplete 0]
  | .spillAcc _ | .spillSlot _ =>
    sample 1 0 :: (List.range c.op.boxRowCount).map fun r => ev (3 + r) 2 5 .spillRowPerform r
  | .menc _ _ | .mcomp _ =>
    ((List.range c.groupCount).map fun i => sample (3 + i) (3 * i))
      ++ ((List.range c.groupCount).map fun i => ev (5 + i) 2 5 .encodeGroupPerform i)

/-! ### Units and slots (R315, R316, R319) -/

/-- Whether a command holds the run unit, the transfer unit or the encode unit in cycle t. -/
def ArrCmd.holdsRun (c : ArrCmd) (t : Nat) : Bool :=
  match c.op with | .mrun _ _ _ => !c.halted && decide (t + 1 ≤ c.at_ + c.q * geoNgrp c.geo) | _ => false
def ArrCmd.holdsTransfer (c : ArrCmd) (t : Nat) : Bool :=
  match c.op with
  | .mload _ | .spillAcc _ | .spillSlot _ | .fillAcc _ | .fillSlot _ => !c.halted && decide (t ≤ c.fin)
  | _ => false
def ArrCmd.holdsEncode (c : ArrCmd) (t : Nat) : Bool :=
  match c.op with | .menc _ _ | .mcomp _ => !c.halted && decide (t ≤ c.fin) | _ => false

/-- The slot that a command writes. -/
def ArrCmd.writesSlot (c : ArrCmd) : Option Nat :=
  match c.op with | .mload w | .fillSlot w => .some w | _ => .none

/-- Whether an `mrun` still reads slot w at or after cycle t (R316). -/
def ArrCmd.readsSlot (c : ArrCmd) (w t : Nat) : Bool :=
  match c.op with | .mrun _ v _ => !c.halted && v == w && decide (t ≤ c.at_ + 2 + c.q * geoNgrp c.geo) | _ => false

/-- The writer of slot w that is still in progress in cycle t. -/
def Array.writerOf (a : Array) (w t : Nat) : Option ArrCmd :=
  (a.cmds.filter fun c => !c.halted && c.writesSlot == .some w && decide (t ≤ c.fin)).getLast?

/-- FMTB and NG of slot w as a command that issues now will find them (R319). -/
def State.slotAhead (s : State) (w : Nat) : Nat × Nat :=
  match s.arr.writerOf w s.tick with
  | .some c => match c.op with
    | .mload _ => (boxCode c.src, geoNgrp c.geo)
    | _ =>
      let l := match c.data.find? fun p => p.1 == 0 with
        | .some p => p.2
        | .none => s.readRange (.hm s.cur.herd) (c.rowAddr 0) 2
      ((l.getD 0 0).toNat, (l.getD 1 0).toNat)
  | .none => let x := s.arr.ws.getD w {}; (x.fmtb, x.ng)

/-- A command enters the array: its claims, its place among the commands, its events. -/
def State.enterArray (s : State) (agent : Nat → Agent) (c : ArrCmd) : State :=
  let h := s.cur.herd
  let (id, s) := s.newId
  let c := { c with id := id }
  let s := s.claimArray h (agent id) c.touches
  let s := s.modArray h fun a => { a with cmds := (a.cmds.filter fun k => k.halted || decide (s.tick ≤ k.fin)) ++ [c] }
  { s with agenda := (c.events h).foldl (fun l d => insertDue d l) s.agenda }

/-- A command with the fields that every kind has. -/
def State.newArr (s : State) (op : ArrOp) (fin : Nat) (path : Word) (src dst : BitVec 256) : ArrCmd :=
  { id := 0, op := op, core := s.cur.core, ctx := (s.R.ctx).getD 0, at_ := s.tick, fin := fin, addr := s.cur.pc, geo := s.R.mgeo
    path := path, src := src, dst := dst, q := 1, fmtb := 0 }

/-- Orders 6 to 8 of R325: the bank rule, slot hazards, the unit. -/
def State.arrayIssue (s : State) (bank hazard busy : Bool) (agent : Nat → Agent) (c : ArrCmd) : Res State :=
  if bank || s.arrayClash c.touches then raise 14
  else if hazard then (if s.interlocked then .error .hold else raise 6)
  else if busy then (if s.interlocked then .error .hold else raise 4)
  else .ok (s.enterArray agent c)

/-! ### MXA (R318 to R321) -/

/-- Whether the A reads of an `mrun` break the operand bank rule (R305): a byte outside G0, a row over too many lines, or two rows
of one cycle in one bank. -/
def ArrCmd.breaksBankRule (c : ArrCmd) : Bool :=
  let qa := activationCost (boxCode c.src)
  (runReads qa c.q (geoNgrp c.geo)).any fun p =>
    let col := (pathCol c.path 0).toNat + 32 * p.2.1
    let spans := (p.2.2.map fun r => (pathRow c.path).toNat + r).filter (decide <| · < boxRows c.src)
      |>.map (groupSpan c.src · col) |>.filter fun q => q.2 ≠ 0
    let banks := spans.flatMap fun q => spanBanks q.1 q.2
    spans.any (fun q => 2 ^ 21 < q.1 + q.2 || qa < (spanBanks q.1 q.2).length) || banks.eraseDups.length ≠ banks.length

/-- `mrun` (R319). -/
def execMrun (a : BitVec 5) (sN : BitVec 2) (w q : BitVec 1) (s : State) : Out :=
  s.answer do
    let path ← s.src a 0
    let s := s.notePbnd [a]
    let g := s.R.mgeo
    let n := geoNgrp g
    let (fmtb, ng) := s.slotAhead w.toNat
    let box := s.box? (geoAh g)
    let fits := match box with | .some b => isActivation (boxCode b) | .none => false
    let cost := Nat.max (match box with | .some b => activationCost (boxCode b) | .none => 1) (weightCost fmtb)
    let fin := s.tick + 13 + cost * n
    s.leaseOk (if fits then [fin] else [])
    let b ← s.box (geoAh g)
    s.arrayAccess b true false isActivation
    let c := { s.newArr (.mrun sN.toNat w.toNat (q = 1)) fin path b 0 with q := cost, fmtb := fmtb }
    if n < 1 || 8 < n || slotGroups fmtb < n || ng < geoKfirst g + n || !inBox b (pathRow path) (pathCol path 0)
        || (pathCol path 0).toNat % 32 ≠ 0 then raise 10
    let hazard := match s.arr.writerOf w.toNat s.tick with | .some x => decide (s.tick + 3 ≤ x.fin) | .none => false
    s.arrayIssue c.breaksBankRule hazard (s.arr.cmds.any fun k => k.holdsRun s.tick) .arrayA c

/-- `mload` (R318). -/
def execMload (w : BitVec 1) (s : State) : Out :=
  s.answer do
    let g := s.R.mgeo
    let path := geoWpath g
    let fin (b : BitVec 256) : Nat :=
      s.tick + ((loadReads b path (Nat.min (geoNcol g) 128) (geoNgrp g)).foldl (fun m p => max m p.1) 1) + 2
    s.leaseOk (match s.box? (geoWh g) with | .some b => if isEncoded (boxCode b) then [fin b] else [] | .none => [])
    let b ← s.box (geoWh g)
    s.arrayAccess b true false isEncoded
    if !countsOk (geoNcol g) (geoNgrp g) (slotGroups (boxCode b)) || !groupsFit b path (geoNcol g) (geoNgrp g) then raise 10
    let c := s.newArr (.mload w.toNat) (fin b) path b 0
    let low := (loadReads b path (geoNcol g) (geoNgrp g)).any fun p => decide (p.2.2.1 < 2 ^ 21)
    s.arrayIssue low (s.arr.cmds.any fun k => k.readsSlot w.toNat (s.tick + 3)) (s.arr.cmds.any fun k => k.holdsTransfer s.tick)
      .arrayB c

/-- `mzero` (R320). -/
def execMzero (sN : BitVec 2) (s : State) : Out :=
  s.answer do
    s.leaseOk [s.tick]
    return (s.arrayBusyTo s.tick).plan s.tick 4 2 (.accZero s.cur.herd sN.toNat)

/-- Every element of a set becomes +0 (R320). -/
def State.zeroAcc (s : State) (h n : Nat) : State :=
  s.modArray h fun a => { a with acc := a.acc.set n (List.replicate 2048 0) }

/-- `mread` (R320): the rows land at the end of c + 3 with what the set holds in c + 1. -/
def execMread (a : BitVec 5) (sN : BitVec 2) (t : BitVec 3) (s : State) : Out :=
  s.answer do
    let x ← s.src a 0
    let s := s.notePbnd [a]
    if x &&& 0xFFFFFFFC#32 ≠ 0 then raise 2 11
    s.leaseOk []
    s.room 4 32
    let s := (List.range 32).foldl (fun s i =>
      s.enq { due := s.tick + 3, dest := .tileRow t.toNat i, val := 0, mask := BitVec.allOnes 64 }) s
    return (s.arrayBusyTo (s.tick + 3)).plan (s.tick + 1) 1 0
      (.mread s.cur.herd s.cur.core sN.toNat x.toNat t.toNat s.cur.seq)

/-- Row i of quarter q of a set, as a tile row (R320). -/
def accRow (acc : List Word) (q i : Nat) : Row512 :=
  let from_ := 128 * (4 * q + i / 8) + 16 * (i % 8)
  BitVec.ofNat 512 ((((acc.drop from_).take 16).zipIdx).map fun p => p.1.toNat * 2 ^ (32 * p.2)).sum

/-- A trap frame with the rows of its whole-tile operation read again, from a queue that holds the rows of an `mread` (R389): registers
r as they stood when it was captured. -/
def TrapFrame.reread (f : TrapFrame) (r : Regs) : TrapFrame :=
  match f.tile with
  | .none => f
  | .some o =>
    let before := (f.queue.filter fun p => !(p.seq == o.seq && decide (o.due ≤ p.due + f.at_)))
    let rest := o.rest { r with pend := before.map fun p => { p with due := p.due + f.at_ } }
    { f with queue := rest.foldl (fun l p => insertPend { p with due := p.due - f.at_ } l) before }

/-- The sample of an `mread`: its pending rows, queued or captured by a trap since, take their values, and so do the rows of a
whole-tile operation that read them (R320, R389). -/
def State.sampleRead (s : State) (h c n q t seq : Nat) : State :=
  let acc := (s.herd h).array.acc.getD n []
  let fill (p : Pend) : Pend :=
    if p.seq = seq then match p.dest with
      | .tileRow u i => if u = t then { p with val := accRow acc q i } else p
      | _ => p
    else p
  let fillRegs (r : Regs) : Regs :=
    { r with
      pend := r.pend.map fill
      trap := r.trap.map fun f : TrapFrame =>
        let f := { f with queue := f.queue.map fill }
        if s.tick = f.at_ + 1 then f.reread r else f }
  s.modCore h c fun k => { k with r := fillRegs k.r, susp := k.susp.map fillRegs }

/-- `mspill` and `mfill` between the data box and the array (R321). -/
def State.spillFill (s : State) (op : ArrOp) (fill : Bool) (rows cols len code : Nat) : Res State := do
  let g := s.R.mgeo
  let path := geoDpath g
  let fin := s.tick + len
  s.leaseOk (if fill then [fin] else [])
  let b ← s.box (geoDh g)
  s.arrayAccess b fill (!fill) (fun c => c == code) true
  if !blockFits b path rows cols then raise 10
  let c := s.newArr op fin path b 0
  let hazard := match op with
    | .fillSlot w => s.arr.cmds.any fun k => k.readsSlot w (s.tick + 3)
    | _ => false
  s.arrayIssue false hazard (s.arr.cmds.any fun k => k.holdsTransfer s.tick) .arrayB c

/-- `mspill aS` (R321). -/
def execMspillAcc (sN : BitVec 2) (s : State) : Out := s.answer (s.spillFill (.spillAcc sN.toNat) false 16 128 18 0)

/-- `mspill wsW` (R321). -/
def execMspillSlot (w : BitVec 1) (s : State) : Out := s.answer (s.spillFill (.spillSlot w.toNat) false 97 512 99 10)

/-- `mfill aS` (R321). -/
def execMfillAcc (sN : BitVec 2) (s : State) : Out := s.answer (s.spillFill (.fillAcc sN.toNat) true 16 128 20 0)

/-- `mfill wsW` (R321). -/
def execMfillSlot (w : BitVec 1) (s : State) : Out := s.answer (s.spillFill (.fillSlot w.toNat) true 97 512 101 10)

/-! ### MXB (R322, R323) -/

/-- Whether a sample of the encode unit meets the perform of its cycle in one bank (R323). -/
def ArrCmd.encodeClash (c : ArrCmd) : Bool :=
  (List.range c.groupCount).any fun i =>
    let p := (c.groupPlace i).1
    let q := wholeSpan c.src p.1 p.2
    2 ≤ i && (spanBanks q.1 q.2).any (let d := c.groupTarget (i - 2); spanBanks d.1 d.2).contains

/-- `menc` (R322). -/
def execMenc (a : BitVec 5) (q : BitVec 1) (s : State) : Out :=
  s.answer do
    let n ← s.src a 0
    let s := s.notePbnd [a]
    if 32 < n.toNat then raise 2 11
    s.leaseOk []
    let g := s.R.mgeo
    let src ← s.box (geoDh g)
    let dst ← s.box (geoWh g)
    s.arrayAccess src true false isDenseWeight
    s.arrayAccess dst false true isEncoded
    let (ncol, ngrp) := (geoNcol g, geoNgrp g)
    if !countsOk ncol ngrp (slotGroups (boxCode dst)) || !groupsFit src (geoDpath g) ncol ngrp
        || !groupsFit dst (geoWpath g) ncol ngrp then raise 10
    let c := s.newArr (.menc n.toNat (q = 1)) (s.tick + 5 + ncol * ngrp - 1) (geoDpath g) src dst
    s.arrayIssue c.encodeClash false (s.arr.cmds.any fun k => k.holdsEncode s.tick) .arrayB c

/-- `mcomp` (R323). -/
def execMcomp (a : BitVec 5) (s : State) : Out :=
  s.answer do
    let n ← s.src a 0
    let s := s.notePbnd [a]
    if n = 0 || 32 < n.toNat then raise 2 11
    s.leaseOk []
    let g := s.R.mgeo
    let src ← s.box (geoDh g)
    s.arrayAccess src true true fun c => isDenseWeight c && c != 15
    let (ncol, ngrp) := (geoNcol g, geoNgrp g)
    if !countsOk ncol ngrp 8 || !groupsFit src (geoDpath g) ncol ngrp then raise 10
    let c := s.newArr (.mcomp n.toNat) (s.tick + 5 + ncol * ngrp - 1) (geoDpath g) src src
    s.arrayIssue c.encodeClash false (s.arr.cmds.any fun k => k.holdsEncode s.tick) .arrayB c

/-! ### Slots as data (R296, R297, R321) -/

/-- The canonical memory of a byte list from address 0. -/
def memOfBytes (l : List Byte) : Mem := ((l.zipIdx).filter fun p => p.1 ≠ 0).map fun p => (p.2, p.1)

/-- n bytes of a memory from address a, in one pass. -/
def listFrom : Nat → Nat → Mem → List Byte
  | 0, _, _ => []
  | n + 1, a, m =>
    match m.dropWhile fun p => decide (p.1 < a) with
    | [] => 0 :: listFrom n (a + 1) []
    | p :: l => (if p.1 = a then p.2 else 0) :: listFrom n (a + 1) (p :: l)

/-- All 48 KiB of a slot. -/
def WSlot.image (x : WSlot) : List Byte := listFrom 49152 0 x.bytes

def padBytes (n : Nat) (l : List Byte) : List Byte := l ++ List.replicate (n - l.length) 0

/-- The record of column j, group k, in the image of a slot of code c (R297). -/
def imageRecord (c : Nat) (l : List Byte) (j k : Nat) : Nat :=
  let r := blockBytes c
  leNat ((l.drop ((j * slotGroups c + k) * r)).take r)

/-- The first record of groups 0 to n − 1 that is neither null nor well formed, by column and then group (R318). -/
def badRecord (c n : Nat) (l : List Byte) : Option (Nat × Nat) :=
  ((List.range 128).flatMap fun j => (List.range n).map fun k => (j, k)).find? fun p => !slotRecordOk c (imageRecord c l p.1 p.2)

/-- The bytes sampled for a step. -/
def ArrCmd.got (c : ArrCmd) (i : Nat) : List Byte := ((c.data.find? fun p => p.1 == i).map (·.2)).getD []

/-- The slot that an `mload` or `mfill wsW` leaves, and the detail word when a record or the header is bad (R318, R321). -/
def ArrCmd.newSlot (c : ArrCmd) : WSlot × Option Word :=
  match c.op with
  | .mload _ =>
    let code := boxCode c.src
    let ngrp := geoNgrp c.geo
    let column := slotGroups code * blockBytes code
    let image := (List.range (geoNcol c.geo)).flatMap fun j => padBytes column (c.got j)
    let bad := badRecord code ngrp image
    let cols := boxExt c.src 0 - (pathCol c.path 0).toNat
    ({ fmtb := code, ng := if bad.isSome then 0 else ngrp, cols := cols, bytes := memOfBytes image },
      bad.map fun p => BitVec.ofNat 32 (p.1 % 128 * 256 + p.2 % 8))
  | _ =>
    let head := c.got 0
    let code := (head.getD 0 0).toNat
    let ng := (head.getD 1 0).toNat
    let image := (List.range 96).flatMap fun r => padBytes 512 (c.got (r + 1))
    let headOk := isEncoded code && decide (ng ≤ slotGroups code) && (head.drop 2).all (· = 0)
    if !headOk then ({ fmtb := code, ng := 0, bytes := memOfBytes image }, .some 0x8000)
    else
      let bad := badRecord code ng image
      ({ fmtb := code, ng := if bad.isSome then 0 else ng, bytes := memOfBytes image },
        bad.map fun p => BitVec.ofNat 32 (p.1 % 128 * 256 + p.2 % 8))

/-! ### Samples -/

def State.arrCmd? (s : State) (h id : Nat) : Option ArrCmd := (s.herd h).array.cmds.find? fun c => c.id == id && !c.halted

def State.modArr (s : State) (h id : Nat) (f : ArrCmd → ArrCmd) : State :=
  s.modArray h fun a => { a with cmds := a.cmds.map fun c => if c.id == id then f c else c }

/-- A command has performed one more row or group (R310, R325). -/
def State.countRow (s : State) (h id : Nat) : State := s.modArr h id fun c => { c with progress := c.progress + 1 }

/-- Bytes read for a command, kept under a step number; an error that cannot be corrected is fatal (R192). -/
def State.keepBytes (s : State) (h : Nat) (c : ArrCmd) (step a n : Nat) : State :=
  let l := addrRun a n
  if s.anyBad (.hm h) l then s.fatal c.ctx 3 c.addr
  else
    let bytes := s.readBytes (.hm h) l
    s.modArr h c.id fun c => { c with
      data := (step, c.got step ++ bytes) :: c.data.filter fun p => p.1 ≠ step }

/-- What an `mrun` samples (R303, R304). -/
def State.sampleRun (s : State) (h : Nat) (c : ArrCmd) (w step : Nat) : State :=
  let i := step / 3
  if step % 3 = 0 then
    match (runReads (activationCost (boxCode c.src)) c.q (geoNgrp c.geo))[i]? with
    | .none => s
    | .some (_, g, rows) =>
      let col := (pathCol c.path 0).toNat + 32 * g
      rows.foldl (fun s r =>
        let row := (pathRow c.path).toNat + r
        let q := groupSpan c.src row col
        if row < boxRows c.src then s.keepBytes h c (16 * g + r) q.1 q.2 else s) s
  else if step % 3 = 1 then
    let k := (s.regs h c.core).k.getD ((geoK0 c.geo + i / 4) % 8) 0
    let bytes := (leBytes 64 k.toNat).drop (16 * (i % 4)) |>.take 16
    s.modArr h c.id fun c => { c with scales := (i, bytes) :: c.scales }
  else
    let x := (s.herd h).array.ws.getD w {}
    let n := geoKfirst c.geo + i
    let r := blockBytes x.fmtb
    let image := if n < x.ng then x.image else []
    let bytes := (List.range 128).flatMap fun j =>
      if n < x.ng then (image.drop ((j * slotGroups x.fmtb + n) * r)).take r else []
    let cols : Byte := BitVec.ofNat 8 (Nat.min 32 (x.cols - 32 * n))
    s.modArr h c.id fun c => { c with fmtb := x.fmtb, recs := (i, cols :: bytes) :: c.recs }

/-- What `menc` and `mcomp` make of group i (R322, R323): the bytes to write, and the flags. -/
def State.encodeStep (s : State) (h : Nat) (c : ArrCmd) (i : Nat) : List Byte × Flags :=
  let code := boxCode c.src
  let p := (c.groupPlace i).1
  let q := wholeSpan c.src p.1 p.2
  let bytes := s.readRange (.hm h) q.1 q.2
  let b := baseCode code
  let w := 4 * baseWidth b
  let n := groupCols c.src p.2
  let xs := groupElems b n (bytes.take w)
  let scale := if isBlockCode code then bytes.drop w else []
  match c.op with
  | .mcomp top => ((if isBlockCode code then packElems b (compressGroup b n top xs) ++ scale
      else (packElems b (compressGroup b n top xs)).take q.2), 0)
  | .menc top _ =>
    let (r, fl) := encodeGroup b (boxCode c.dst) n top ((scale.map (·.toNat)).headD 127) xs
    (leBytes (blockBytes (boxCode c.dst)) r, fl)
  | _ => ([], 0)

/-- A sample of an array command. -/
def State.sampleArray (s : State) (h id step : Nat) : State :=
  match s.arrCmd? h id with
  | .none => s
  | .some c =>
    match c.op with
    | .mrun _ w _ => s.sampleRun h c w step
    | .mload _ | .fillSlot _ =>
      if step = 1 then
        match c.newSlot.2 with
        | .none => s
        | .some d => s.plan c.fin 0 0 (.asyncDue h c.core { cls := 16, d0 := d, ctx := c.ctx, owner := c.ctx })
      else
        match c.op with
        | .mload _ =>
          match (loadReads c.src c.path (geoNcol c.geo) (geoNgrp c.geo))[step / 3]? with
          | .none => s
          | .some (_, j, a, n) =>
            let s := (if (c.data.any fun p => p.1 == j) then s else s.charge c.ctx 9 1).keepBytes h c j a n
            let more := ((loadReads c.src c.path (geoNcol c.geo) (geoNgrp c.geo))[step / 3 + 1]?).any fun q => q.2.1 == j
            if more then s else s.countRow h c.id
        | _ => ((s.charge c.ctx 9 1).keepBytes h c (step / 3) (c.rowAddr (step / 3)) 512).countRow h c.id
    | .fillAcc _ => ((s.charge c.ctx 9 1).keepBytes h c (step / 3) (c.rowAddr (step / 3)) 512).countRow h c.id
    | .spillAcc n =>
      let acc := (s.herd h).array.acc.getD n []
      let rows := (List.range 16).map fun r => (r, ((acc.drop (128 * r)).take 128).flatMap fun x => leBytes 4 x.toNat)
      s.modArr h id fun c => { c with data := rows }
    | .spillSlot w =>
      let x := (s.herd h).array.ws.getD w {}
      let image := x.image
      let head := padBytes 512 [BitVec.ofNat 8 x.fmtb, BitVec.ofNat 8 x.ng]
      let rows := (List.range 96).map fun r => (r + 1, (image.drop (512 * r)).take 512)
      s.modArr h id fun c => { c with data := (0, head) :: rows }
    | .menc _ _ | .mcomp _ =>
      let i := step / 3
      let p := (c.groupPlace i).1
      let q := wholeSpan c.src p.1 p.2
      if s.anyBad (.hm h) (addrRun q.1 q.2) then s.fatal c.ctx 3 c.addr
      else
        let (bytes, fl) := s.encodeStep h c i
        s.modArr h id fun c => { c with data := (i, bytes) :: c.data, scales := (i, leBytes 1 fl) :: c.scales }

/-! ### Writes -/

/-- A counter that saturates (R309). -/
def bump (b : Bool) (x : Word) : Word := if b && x ≠ BitVec.allOnes 32 then x + 1 else x

/-- The flags of a group: the counters, and xrX of the issuing core unless the command is quiet (R309). -/
def State.arrayFlags (s : State) (h : Nat) (c : ArrCmd) (quiet : Bool) (fl : Flags) : State :=
  let f : BitVec 5 := BitVec.ofNat 5 fl
  let s := s.modArray h fun a => { a with
    cnv := bump (f.getLsbD 4) a.cnv, cof := bump (f.getLsbD 2) a.cof, cuf := bump (f.getLsbD 1) a.cuf
    cnx := bump (f.getLsbD 0) a.cnx }
  if quiet then s else s.modRegs h c.core fun r => r.flagLand (.some 3) 0 0 f c.addr

/-- Group g of an `mrun` on a set as it stood: the new elements, and every flag raised (R301). -/
def ArrCmd.runGroup (c : ArrCmd) (g : Nat) (old : List Word) : List (Word × Flags) :=
  let code := boxCode c.src
  let b := baseCode code
  let col := (pathCol c.path 0).toNat + 32 * g
  let recs := ((c.recs.find? fun p => p.1 == g).map (·.2)).getD []
  let n := (recs.headD 0).toNat
  let size := blockBytes c.fmtb
  let body := recs.drop 1
  let records := (List.range 128).map fun j => leNat ((body.drop (j * size)).take size)
  let scales := ((c.scales.find? fun p => p.1 == g).map (·.2)).getD []
  (List.range 16).flatMap fun r =>
    let a := alignRow b (groupElems b (groupCols c.src col) (c.got (16 * g + r)))
    let sa := if isBlockCode code then (scales.getD r 0).toNat else 127
    (records.zip ((old.drop (128 * r)).take 128)).map fun p =>
      let (v, fl) := groupElement p.2.toNat (groupPartial c.fmtb sa n p.1 a)
      (BitVec.ofNat 32 v, fl)

/-- ARRAY_GROUP_WRITE (R301, R309): group ev.c of command ev.b of herd ev.a lands. -/
def execArrayGroupWrite (s : State) : Out :=
  .next (match s.arrCmd? s.ev.a s.ev.b with
    | .none => s
    | .some c => match c.op with
      | .mrun n _ quiet =>
        if s.dying c.ctx then s else
        let out := c.runGroup s.ev.c ((s.herd s.ev.a).array.acc.getD n [])
        let s1 := s.modArray s.ev.a fun a => { a with acc := a.acc.set n (out.map (·.1)) }
        let s1 := s1.modArr s.ev.a c.id fun c => { c with
          progress := c.progress + 1, data := c.data.filter fun p => p.1 / 16 ≠ s.ev.c }
        (s1.arrayFlags s.ev.a c quiet (out.foldl (fun f p => f ||| p.2) 0)).charge c.ctx 9 1
      | _ => s)

/-- SLOT_LOAD_COMPLETE (R318, R321): the slot of command ev.b of herd ev.a takes its contents. -/
def execSlotLoadComplete (s : State) : Out :=
  .next (match s.arrCmd? s.ev.a s.ev.b with
    | .none => s
    | .some c => match c.writesSlot with
      | .some w => s.modArray s.ev.a fun a => { a with ws := a.ws.set w c.newSlot.1 }
      | .none => s)

/-- Whether a group of a later-issued `mrun` lands on set n in this cycle: it then takes effect, not the fill (R317). -/
def Array.laterGroup (a : Array) (n id t : Nat) : Bool :=
  a.cmds.any fun c => !c.halted && decide (id < c.id) && match c.op with
    | .mrun m _ _ => m == n && (List.range (geoNgrp c.geo)).any fun g => c.at_ + 13 + c.q * (g + 1) == t
    | _ => false

/-- ACCUMULATOR_FILL_COMPLETE (R321): the set of command ev.b of herd ev.a takes all its rows. -/
def execAccumulatorFillComplete (s : State) : Out :=
  .next (match s.arrCmd? s.ev.a s.ev.b with
    | .none => s
    | .some c => match c.op with
      | .fillAcc n =>
        if (s.herd s.ev.a).array.laterGroup n c.id s.tick then s
        else
          let row (r : Nat) : List Word := (List.range 128).map fun j => BitVec.ofNat 32 (leNat (((c.got r).drop (4 * j)).take 4))
          s.modArray s.ev.a fun a => { a with acc := a.acc.set n ((List.range 16).flatMap row) }
      | _ => s)

/-- SPILL_ROW_PERFORM (R321): row ev.c of command ev.b of herd ev.a. -/
def execSpillRowPerform (s : State) : Out :=
  .next (match s.arrCmd? s.ev.a s.ev.b with
    | .none => s
    | .some c =>
      ((s.writeBytes (.hm s.ev.a) 2 (bytesAt (c.rowAddr s.ev.c) (c.got s.ev.c))).countRow s.ev.a c.id).charge c.ctx 9 1)

/-- ENCODE_GROUP_PERFORM (R322, R323): group ev.c of command ev.b of herd ev.a. -/
def execEncodeGroupPerform (s : State) : Out :=
  .next (match s.arrCmd? s.ev.a s.ev.b with
    | .none => s
    | .some c =>
      let fl := leNat (((c.scales.find? fun p => p.1 == s.ev.c).map (·.2)).getD [])
      let quiet := match c.op with | .menc _ q => q | _ => true
      let s1 := (s.writeBytes (.hm s.ev.a) 2 (bytesAt (c.groupTarget s.ev.c).1 (c.got s.ev.c))).countRow s.ev.a c.id
      (s1.arrayFlags s.ev.a c quiet fl).charge c.ctx 10 1)

end Sys2Proof.Machine
end

