-- ==== Sys2Proof/WellFormed.lean ====
section
/-! DEFINITION. WellFormed.lean: the decode-time checks of R119 on one syllable's operands. `Instr.wf` holds of exactly the
syllables that no bundle traps on for their own fields: no reserved variant or format (cause 2), no unused field in use
(cause 6), no destination outside s1..s23 (cause 7), no register pair out of range (cause 10). An event has no word. -/

namespace Sys2Proof

/-- R109, cause 2: a variant, element size, stage or format value that the operation does not define. -/
def Instr.reservedField : Instr → Bool
  | .add _ _ _ v
  | .sub _ _ _ v => v == 3#2
  | .bxok _ _ _ v => v == 3#2
  | .pfirst _ _ _ e
  | .pcnt _ _ _ e => e == 3#2
  | .tadd _ _ _ _ f _ _
  | .taddSat _ _ _ _ f _ _
  | .tsub _ _ _ _ f _ _
  | .tsubSat _ _ _ _ f _ _
  | .tmul _ _ _ _ f _ _
  | .tmulSat _ _ _ _ f _ _
  | .tmulh _ _ _ _ f _ _
  | .tmin _ _ _ _ f _ _
  | .tmax _ _ _ _ f _ _
  | .tand _ _ _ _ f _ _
  | .tor _ _ _ _ f _ _
  | .txor _ _ _ _ f _ _
  | .tshl _ _ _ _ f _ _
  | .tshr _ _ _ _ f _ _
  | .tsra _ _ _ _ f _ _
  | .tfsh _ _ _ _ f _ _
  | .tabs _ _ f _ _
  | .tabsSat _ _ f _ _
  | .tnegSat _ _ f _ _
  | .tcmpEq _ _ _ _ f _ _
  | .tcmpNe _ _ _ _ f _ _
  | .tcmpLt _ _ _ _ f _ _
  | .tcmpLe _ _ _ _ f _ _
  | .tcmpGt _ _ _ _ f _ _
  | .tcmpGe _ _ _ _ f _ _ => f.toNat < 3 || 6 < f.toNat
  | .tfadd _ _ _ _ f _ _
  | .tfsub _ _ _ _ f _ _
  | .tfmul _ _ _ _ f _ _
  | .tfma _ _ _ _ f _ _
  | .tfmin _ _ _ _ f _ _
  | .tfmax _ _ _ _ f _ _
  | .tfabs _ _ f _ _
  | .tfrint _ _ f _ _
  | .tfexp _ _ f _ _
  | .tfins _ _ _ _ f _ _
  | .tfrcp _ _ f _ _
  | .tfrsq _ _ f _ _
  | .tfcmpEq _ _ _ _ f _ _
  | .tfcmpLt _ _ _ _ f _ _
  | .tfcmpLe _ _ _ _ f _ _
  | .tfcmpUn _ _ _ _ f _ _
  | .tfcmpGt _ _ _ _ f _ _
  | .tfcmpGe _ _ _ _ f _ _ => 2 < f.toNat
  | .tquant n _ _ f _ _ => n == 7#3 || !(f == 1#3 || f == 2#3)
  | .tdeq _ _ _ f _ _
  | .tdeqU _ _ _ f _ _ => 2 < f.toNat
  | .tdeqHi _ _ _ f _ _
  | .tdeqUHi _ _ _ f _ _ => f != 0#3
  | .tredMax _ _ _ f _ _
  | .tredMin _ _ _ f _ _
  | .tredAdd _ _ _ f _ _ => f == 7#3
  | .tpack _ _ _ f _ _
  | .tunpk _ _ _ f _ _ => f.toNat < 3 || 6 < f.toNat
  | .gadj _ s => s == 0#3 || s == 4#3
  | _ => false

/-- The number of lanes of a 64-byte row of tile format code `f` (R39). -/
def tileLanes (f : BitVec 3) : Nat :=
  match f.toNat with
  | 0 => 16
  | 1 => 32
  | 2 => 32
  | 3 => 16
  | 4 => 32
  | _ => 64

/-- R118, R116, cause 6: a field that the other fields of the syllable leave unused is not zero, or the part index of `tcvt`
lies outside the range of R230. -/
def Instr.badUnused : Instr → Bool
  | .tadd _ _ s b _ _ _
  | .taddSat _ _ s b _ _ _
  | .tsub _ _ s b _ _ _
  | .tsubSat _ _ s b _ _ _
  | .tmul _ _ s b _ _ _
  | .tmulSat _ _ s b _ _ _
  | .tmulh _ _ s b _ _ _
  | .tmin _ _ s b _ _ _
  | .tmax _ _ s b _ _ _
  | .tand _ _ s b _ _ _
  | .tor _ _ s b _ _ _
  | .txor _ _ s b _ _ _
  | .tshl _ _ s b _ _ _
  | .tshr _ _ s b _ _ _
  | .tsra _ _ s b _ _ _
  | .tfsh _ _ s b _ _ _
  | .tfadd _ _ s b _ _ _
  | .tfsub _ _ s b _ _ _
  | .tfmul _ _ s b _ _ _
  | .tfma _ _ s b _ _ _
  | .tfmin _ _ s b _ _ _
  | .tfmax _ _ s b _ _ _
  | .tfins _ _ s b _ _ _
  | .tcmpEq _ _ s b _ _ _
  | .tcmpNe _ _ s b _ _ _
  | .tcmpLt _ _ s b _ _ _
  | .tcmpLe _ _ s b _ _ _
  | .tcmpGt _ _ s b _ _ _
  | .tcmpGe _ _ s b _ _ _
  | .tfcmpEq _ _ s b _ _ _
  | .tfcmpLt _ _ s b _ _ _
  | .tfcmpLe _ _ s b _ _ _
  | .tfcmpUn _ _ s b _ _ _
  | .tfcmpGt _ _ s b _ _ _
  | .tfcmpGe _ _ s b _ _ _
  | .tsel _ _ s b _ _ _ => s == 0#1 && b.extractLsb' 3 2 != 0#2
  | .lmemTstr _ c _ _ f | .hmemTstr _ c _ _ f => 2 ≤ c.toNat && f.extractLsb' 3 2 != 0#2
  | .tcvt x _ _ k f _ _ | .tcvtSat x _ _ k f _ _ =>
    Nat.max (tileLanes x) (tileLanes f) / Nat.min (tileLanes x) (tileLanes f) ≤ k.toNat
  | _ => false

/-- R111, R110, cause 7: a destination specifier of 24 to 31, or a store source of 31, which claims no literal. -/
def Instr.badDest : Instr → Bool
  | .add d _ _ _
  | .sub d _ _ _
  | .mul d _ _
  | .mulh d _ _
  | .mulhu d _ _
  | .div d _ _ _
  | .divu d _ _ _
  | .and d _ _
  | .or d _ _
  | .xor d _ _
  | .min d _ _
  | .max d _ _
  | .minu d _ _
  | .maxu d _ _
  | .sel d _ _ _
  | .addi d _ _
  | .andi d _ _
  | .ori d _ _
  | .xori d _ _
  | .slti d _ _
  | .sltui d _ _
  | .fadd d _ _ _
  | .fsub d _ _ _
  | .fmul d _ _ _
  | .fma d _ _ _
  | .fmin d _ _
  | .fmax d _ _
  | .fneg d _
  | .fabs d _
  | .f2i d _ _ _
  | .i2f d _ _ _
  | .shl d _ _
  | .shr d _ _
  | .sra d _ _
  | .rol d _ _
  | .fsh d _ _
  | .fshr d _ _
  | .clz d _
  | .ctz d _
  | .popc d _
  | .bext d _ _ _
  | .bins d _ _
  | .bswap d _ _
  | .cpack d _ _
  | .cadd d _ _
  | .crow d _
  | .ccol d _
  | .bxdim d _ _
  | .bxok d _ _ _
  | .lidx d _
  | .rdsr d _
  | .pcnt _ _ d _
  | .wprom d _
  | .llat d _
  | .gcyc d _
  | .gmeas d _
  | .cxpend d _
  | .apq d _
  | .lmemLdb d _ _ _
  | .lmemLdh d _ _ _
  | .lmemLdw d _ _ _
  | .hmemLdb d _ _ _
  | .hmemLdh d _ _ _
  | .hmemLdw d _ _ _
  | .ldwa d _ _ _
  | .ldwc d _ _ _ => 23 < d.toNat
  | .amadd n _ _ _
  | .amswap n _ _ _
  | .amcas n _ _ _
  | .ammin n _ _ _
  | .ammax n _ _ _
  | .amand n _ _ _
  | .amor n _ _ _
  | .amxor n _ _ _ => 23 < n.toNat
  | .lmemStb s _ _ _
  | .lmemSth s _ _ _
  | .lmemStw s _ _ _
  | .hmemStb s _ _ _
  | .hmemSth s _ _ _
  | .hmemStw s _ _ _ => s == 31#5
  | _ => false

/-- R177, R209, cause 10: the low register of a pair lies outside s1..s22. -/
def Instr.badPair : Instr → Bool
  | .fsh _ n _ | .fshr _ n _ | .amcas n _ _ _ => n == 0#5 || 22 < n.toNat
  | _ => false

/-- The slot classes of R104, in the canonical order of R104 but for A and B, which one class serves. -/
inductive SlotClass where
  | c | ab | l | h | v | k | x
deriving DecidableEq, Repr

/-- The slot class of a major opcode (R109); none for the reserved majors 0x1A and 0x1B. -/
def slotClassOf (major : Nat) : Option SlotClass :=
  if major ≤ 3 then some .c
  else if major ≤ 9 then some .ab
  else if major ≤ 11 then some .l
  else if major ≤ 13 then some .h
  else if major ≤ 17 then some .v
  else if major = 18 then some .k
  else if major = 19 then some .v
  else if major ≤ 25 then some .x
  else if major ≤ 27 then none
  else some .ab

/-- The major opcode of a syllable (R109); none for an event, which is no word of a program. -/
def Instr.major : Instr → Option Nat
  | .bset _ _
  | .bsetr _ _
  | .bgo _ _
  | .bgon _ _
  | .blink _ _
  | .bback _ _ => some 0
  | .loop _ _
  | .loopi _ _
  | .lpipe _ _ _
  | .lbreak 
  | .lidx _ _ => some 1
  | .nop 
  | .trap _
  | .eret 
  | .wait _
  | .waiti _
  | .kill _
  | .killt _ _
  | .fenceH 
  | .fenceD 
  | .rdsr _ _
  | .wrsr _ _
  | .phase _
  | .yield 
  | .modeExposed 
  | .modeInterlocked  => some 2
  | .pand _ _ _
  | .por _ _ _
  | .pxor _ _ _
  | .pnot _ _
  | .pmov _ _
  | .vany _ _ _
  | .vall _ _ _
  | .pfirst _ _ _ _
  | .pcnt _ _ _ _ => some 3
  | .add _ _ _ _
  | .sub _ _ _ _
  | .mul _ _ _
  | .mulh _ _ _
  | .mulhu _ _ _
  | .div _ _ _ _
  | .divu _ _ _ _
  | .and _ _ _
  | .or _ _ _
  | .xor _ _ _
  | .min _ _ _
  | .max _ _ _
  | .minu _ _ _
  | .maxu _ _ _
  | .sel _ _ _ _ => some 4
  | .addi _ _ _
  | .andi _ _ _
  | .ori _ _ _
  | .xori _ _ _
  | .slti _ _ _
  | .sltui _ _ _ => some 5
  | .fadd _ _ _ _
  | .fsub _ _ _ _
  | .fmul _ _ _ _
  | .fma _ _ _ _
  | .fmin _ _ _
  | .fmax _ _ _
  | .fneg _ _
  | .fabs _ _
  | .f2i _ _ _ _
  | .i2f _ _ _ _ => some 6
  | .icmpEq _ _ _
  | .icmpNe _ _ _
  | .icmpLt _ _ _
  | .icmpLtu _ _ _
  | .icmpLe _ _ _
  | .icmpLeu _ _ _
  | .fcmpEq _ _ _ _
  | .fcmpLt _ _ _ _
  | .fcmpLe _ _ _ _
  | .fcmpUn _ _ _ _ => some 7
  | .shl _ _ _
  | .shr _ _ _
  | .sra _ _ _
  | .rol _ _ _
  | .fsh _ _ _
  | .fshr _ _ _
  | .clz _ _
  | .ctz _ _
  | .popc _ _
  | .bext _ _ _ _
  | .bins _ _ _
  | .bswap _ _ _ => some 8
  | .cpack _ _ _
  | .cadd _ _ _
  | .crow _ _
  | .ccol _ _
  | .bxdim _ _ _
  | .bxok _ _ _ _ => some 9
  | .lmemLdb _ _ _ _
  | .lmemLdh _ _ _ _
  | .lmemLdw _ _ _ _
  | .lmemStb _ _ _ _
  | .lmemSth _ _ _ _
  | .lmemStw _ _ _ _
  | .lmemTldr _ _ _ _ _
  | .lmemTstr _ _ _ _ _ => some 10
  | .ldwa _ _ _ _
  | .ldwc _ _ _ _
  | .tldra _ _ _ _ _
  | .tldrc _ _ _ _ _
  | .atclr _ _ _
  | .atclrAll  => some 11
  | .hmemLdb _ _ _ _
  | .hmemLdh _ _ _ _
  | .hmemLdw _ _ _ _
  | .hmemStb _ _ _ _
  | .hmemSth _ _ _ _
  | .hmemStw _ _ _ _
  | .hmemTldr _ _ _ _ _
  | .hmemTstr _ _ _ _ _ => some 12
  | .amadd _ _ _ _
  | .amswap _ _ _ _
  | .amcas _ _ _ _
  | .ammin _ _ _ _
  | .ammax _ _ _ _
  | .amand _ _ _ _
  | .amor _ _ _ _
  | .amxor _ _ _ _ => some 13
  | .tadd _ _ _ _ _ _ _
  | .taddSat _ _ _ _ _ _ _
  | .tsub _ _ _ _ _ _ _
  | .tsubSat _ _ _ _ _ _ _
  | .tmul _ _ _ _ _ _ _
  | .tmulSat _ _ _ _ _ _ _
  | .tmulh _ _ _ _ _ _ _
  | .tmin _ _ _ _ _ _ _
  | .tmax _ _ _ _ _ _ _
  | .tand _ _ _ _ _ _ _
  | .tor _ _ _ _ _ _ _
  | .txor _ _ _ _ _ _ _
  | .tshl _ _ _ _ _ _ _
  | .tshr _ _ _ _ _ _ _
  | .tsra _ _ _ _ _ _ _
  | .tfsh _ _ _ _ _ _ _
  | .tabs _ _ _ _ _
  | .tabsSat _ _ _ _ _
  | .tnegSat _ _ _ _ _ => some 14
  | .tfadd _ _ _ _ _ _ _
  | .tfsub _ _ _ _ _ _ _
  | .tfmul _ _ _ _ _ _ _
  | .tfma _ _ _ _ _ _ _
  | .tfmin _ _ _ _ _ _ _
  | .tfmax _ _ _ _ _ _ _
  | .tfabs _ _ _ _ _
  | .tfrint _ _ _ _ _
  | .tfexp _ _ _ _ _
  | .tfins _ _ _ _ _ _ _
  | .tfrcp _ _ _ _ _
  | .tfrsq _ _ _ _ _ => some 15
  | .tcvt _ _ _ _ _ _ _
  | .tcvtSat _ _ _ _ _ _ _
  | .tquant _ _ _ _ _ _
  | .tdeq _ _ _ _ _ _
  | .tdeqHi _ _ _ _ _ _
  | .tscx _ _ _ _ _
  | .tscxHi _ _ _ _ _
  | .tdeqU _ _ _ _ _ _
  | .tdeqUHi _ _ _ _ _ _ => some 16
  | .tmov _ _ _ _ _
  | .tbcast _ _ _ _ _
  | .tbcastL _ _ _ _ _ _
  | .trot _ _ _ _ _ _
  | .tshuf _ _ _ _ _ _
  | .tredMax _ _ _ _ _ _
  | .tredMin _ _ _ _ _ _
  | .tredAdd _ _ _ _ _ _
  | .tsel _ _ _ _ _ _ _
  | .tpack _ _ _ _ _ _
  | .tunpk _ _ _ _ _ _
  | .ttrans _ _ _ _ => some 17
  | .kld _ _ _
  | .kst _ _ _
  | .kbase _
  | .krow _
  | .kset _ _ _
  | .ksetAll _ _ => some 18
  | .tcmpEq _ _ _ _ _ _ _
  | .tcmpNe _ _ _ _ _ _ _
  | .tcmpLt _ _ _ _ _ _ _
  | .tcmpLe _ _ _ _ _ _ _
  | .tcmpGt _ _ _ _ _ _ _
  | .tcmpGe _ _ _ _ _ _ _
  | .tfcmpEq _ _ _ _ _ _ _
  | .tfcmpLt _ _ _ _ _ _ _
  | .tfcmpLe _ _ _ _ _ _ _
  | .tfcmpUn _ _ _ _ _ _ _
  | .tfcmpGt _ _ _ _ _ _ _
  | .tfcmpGe _ _ _ _ _ _ _ => some 19
  | .mload _
  | .mrun _ _ _ _
  | .mzero _
  | .mread _ _ _
  | .mspillAcc _
  | .mspillSlot _
  | .mfillAcc _
  | .mfillSlot _ => some 20
  | .menc _ _
  | .mcomp _
  | .mprog _ _ _ _
  | .mprogOpen _ _ _
  | .mprogClr _
  | .mgeoA _
  | .mgeoW _ _
  | .mgeoD _ _
  | .mgeoN _ _ => some 21
  | .wcopy _ _ _ _
  | .wmcast _ _ _ _
  | .wgath _ _ _ _
  | .wscat _ _ _ _
  | .wprom _ _
  | .wamoAdd _ _ _
  | .wamoSwap _ _ _
  | .wamoCas _ _ _
  | .wamoMax _ _ _
  | .wgeo _ _ _
  | .wgeoHi _ _ _
  | .wgeoTab _ _ _
  | .wsnap _ _
  | .wcall _ _ _
  | .wret 
  | .wjoin  => some 22
  | .lsend _ _ _
  | .lrecv _ _ _
  | .llat _ _
  | .gcyc _ _
  | .gmeas _ _
  | .gadj _ _
  | .lpair _ _ => some 23
  | .cxmk _ _ _
  | .cxgive _ _ _
  | .cxrev _
  | .cxrun _
  | .cxsave _ _
  | .cxload _ _
  | .cxpend _ _
  | .cxq _ _ _ => some 24
  | .apset _ _ _
  | .apclr _
  | .apq _ _ => some 25
  | .fli d _ => some (28 + (d.extractLsb' 2 2).toNat)
  | _ => none

/-- A syllable that no rule of R119 refuses for its own fields. -/
def Instr.wf (i : Instr) : Bool :=
  i.major.isSome && !i.reservedField && !i.badUnused && !i.badDest && !i.badPair

end Sys2Proof
end

