-- ==== Sys2Proof/Decode.lean ====
section
/-! DEFINITION. Decode.lean: the decoder of one syllable word, total on any 32 bits, refusing by the cause of R119; the literal
claims of R105; the encoder, written from the same layouts; and the opcode table's view of the decoder. The framing of a
bundle (R103) and the order of its slots (R104) are in Machine/Frame.lean. -/

namespace Sys2Proof

/-- Why a syllable word is no legal instruction: the causes of R119 that one syllable can have by itself. -/
inductive DecodeErr where
  /-- cause 1: the major opcode is 0x1A or 0x1B -/
  | reservedMajor
  /-- cause 2: a reserved minor, op, variant or format -/
  | reservedOp
  /-- cause 6: a nonzero unused field -/
  | unusedField
  /-- cause 7: a destination of 24 to 31, or a literal where none may be claimed -/
  | badOperand
  /-- cause 10: a register pair out of range -/
  | badPair
deriving DecidableEq, Repr

/-- The cause code of R119. -/
def DecodeErr.cause : DecodeErr → Nat
  | .reservedMajor => 1
  | .reservedOp => 2
  | .unusedField => 6
  | .badOperand => 7
  | .badPair => 10

/-- A row of the opcode table applied to a word: the syllable its fields give, the bits that must hold a fixed value for the word
to use no unused field (mask and value), and the variant bits that must be zero for the variant not to be reserved. -/
structure Row where
  instr : Instr
  fixMask : BitVec 32
  fixVal : BitVec 32
  varMask : BitVec 32

/-- The rows of major 0x00 BR, by its operation field. -/
def rowBr (w : BitVec 32) : Except DecodeErr Row :=
  match (w.extractLsb' 18 4).toNat with
  | 0 => .ok ⟨.bset (w.extractLsb' 16 2) (w.extractLsb' 8 5), 0xE0FF#32, 0x0#32, 0x0#32⟩
  | 1 => .ok ⟨.bsetr (w.extractLsb' 16 2) (w.extractLsb' 8 5), 0xE0FF#32, 0x0#32, 0x0#32⟩
  | 2 => .ok ⟨.bgo (w.extractLsb' 16 2) (w.extractLsb' 13 3), 0x1FFF#32, 0x0#32, 0x0#32⟩
  | 3 => .ok ⟨.bgon (w.extractLsb' 16 2) (w.extractLsb' 13 3), 0x1FFF#32, 0x0#32, 0x0#32⟩
  | 4 => .ok ⟨.blink (w.extractLsb' 16 2) (w.extractLsb' 13 3), 0x1FFF#32, 0x0#32, 0x0#32⟩
  | 5 => .ok ⟨.bback (w.extractLsb' 13 3) (w.extractLsb' 8 5), 0x300FF#32, 0x0#32, 0x0#32⟩
  | _ => .error .reservedOp

/-- The rows of major 0x01 LOOP, by its operation field. -/
def rowLoop (w : BitVec 32) : Except DecodeErr Row :=
  match (w.extractLsb' 18 4).toNat with
  | 0 => .ok ⟨.loop (w.extractLsb' 8 5) (w.extractLsb' 3 5), 0x3E007#32, 0x0#32, 0x0#32⟩
  | 1 => .ok ⟨.loopi (w.extractLsb' 13 5 ++ w.extractLsb' 0 3) (w.extractLsb' 3 5), 0x1F00#32, 0x0#32, 0x0#32⟩
  | 2 => .ok ⟨.lpipe (w.extractLsb' 13 4) (w.extractLsb' 8 5) (w.extractLsb' 3 5), 0x20007#32, 0x0#32, 0x0#32⟩
  | 3 => .ok ⟨.lbreak, 0x3FFFF#32, 0x0#32, 0x0#32⟩
  | 4 => .ok ⟨.lidx (w.extractLsb' 13 5) (w.extractLsb' 0 3), 0x1FF8#32, 0x0#32, 0x0#32⟩
  | _ => .error .reservedOp

/-- The rows of major 0x02 SYS, by its operation field. -/
def rowSys (w : BitVec 32) : Except DecodeErr Row :=
  match (w.extractLsb' 18 4).toNat with
  | 0 => .ok ⟨.nop, 0x3FFFF#32, 0x0#32, 0x0#32⟩
  | 1 => .ok ⟨.trap (w.extractLsb' 13 5 ++ w.extractLsb' 0 3), 0x1FF8#32, 0x0#32, 0x0#32⟩
  | 2 => .ok ⟨.eret, 0x3FFFF#32, 0x0#32, 0x0#32⟩
  | 3 => .ok ⟨.wait (w.extractLsb' 8 5), 0x3E0FF#32, 0x0#32, 0x0#32⟩
  | 4 => .ok ⟨.waiti (w.extractLsb' 13 5 ++ w.extractLsb' 0 3), 0x1FF8#32, 0x0#32, 0x0#32⟩
  | 5 => .ok ⟨.kill (w.extractLsb' 8 5), 0x3E0FF#32, 0x0#32, 0x0#32⟩
  | 6 => .ok ⟨.killt (w.extractLsb' 13 3) (w.extractLsb' 8 5), 0x300FF#32, 0x0#32, 0x0#32⟩
  | 7 =>
    if w &&& 0x7#32 = 0x0#32 then .ok ⟨.fenceH, 0x3FFF8#32, 0x0#32, 0x0#32⟩ else
    if w &&& 0x7#32 = 0x1#32 then .ok ⟨.fenceD, 0x3FFF8#32, 0x0#32, 0x0#32⟩ else
    .error .reservedOp
  | 8 => .ok ⟨.rdsr (w.extractLsb' 13 5) (w.extractLsb' 2 1 ++ w.extractLsb' 8 5), 0xFB#32, 0x0#32, 0x0#32⟩
  | 9 => .ok ⟨.wrsr (w.extractLsb' 2 1 ++ w.extractLsb' 13 5) (w.extractLsb' 8 5), 0xFB#32, 0x0#32, 0x0#32⟩
  | 10 => .ok ⟨.phase (w.extractLsb' 13 5 ++ w.extractLsb' 0 3), 0x1FF8#32, 0x0#32, 0x0#32⟩
  | 11 => .ok ⟨.yield, 0x3FFFF#32, 0x0#32, 0x0#32⟩
  | 12 =>
    if w &&& 0x1#32 = 0x0#32 then .ok ⟨.modeExposed, 0x3FFFE#32, 0x0#32, 0x0#32⟩ else
    if w &&& 0x1#32 = 0x1#32 then .ok ⟨.modeInterlocked, 0x3FFFE#32, 0x0#32, 0x0#32⟩ else
    .error .reservedOp
  | _ => .error .reservedOp

/-- A row of PRED whose minor uses no esz: esz = 3 is reserved with any minor, which is a lower cause than a field that must be zero (R119,
R120, R152; log entry 62). -/
def plainPred (w : BitVec 32) (r : Row) : Except DecodeErr Row := if w.extractLsb' 2 2 = 3#2 then .error .reservedOp else .ok r

/-- The rows of major 0x03 PRED, by its operation field. -/
def rowPred (w : BitVec 32) : Except DecodeErr Row :=
  match (w.extractLsb' 18 4).toNat with
  | 0 => plainPred w ⟨.pand (w.extractLsb' 15 3) (w.extractLsb' 12 3) (w.extractLsb' 9 3), 0x1FF#32, 0x0#32, 0x0#32⟩
  | 1 => plainPred w ⟨.por (w.extractLsb' 15 3) (w.extractLsb' 12 3) (w.extractLsb' 9 3), 0x1FF#32, 0x0#32, 0x0#32⟩
  | 2 => plainPred w ⟨.pxor (w.extractLsb' 15 3) (w.extractLsb' 12 3) (w.extractLsb' 9 3), 0x1FF#32, 0x0#32, 0x0#32⟩
  | 3 => plainPred w ⟨.pnot (w.extractLsb' 15 3) (w.extractLsb' 12 3), 0xFFF#32, 0x0#32, 0x0#32⟩
  | 4 => plainPred w ⟨.pmov (w.extractLsb' 15 3) (w.extractLsb' 12 3), 0xFFF#32, 0x0#32, 0x0#32⟩
  | 5 => plainPred w ⟨.vany (w.extractLsb' 15 3) (w.extractLsb' 12 3) (w.extractLsb' 9 3), 0x1FF#32, 0x0#32, 0x0#32⟩
  | 6 => plainPred w ⟨.vall (w.extractLsb' 15 3) (w.extractLsb' 12 3) (w.extractLsb' 9 3), 0x1FF#32, 0x0#32, 0x0#32⟩
  | 7 => .ok ⟨.pfirst (w.extractLsb' 15 3) (w.extractLsb' 12 3) (w.extractLsb' 9 3) (w.extractLsb' 2 2), 0x1F3#32, 0x0#32, 0x0#32⟩
  | 8 => .ok ⟨.pcnt (w.extractLsb' 12 3) (w.extractLsb' 9 3) (w.extractLsb' 4 5) (w.extractLsb' 2 2), 0x38003#32, 0x0#32, 0x0#32⟩
  | _ => .error .reservedOp

/-- The rows of major 0x04 INT, by its operation field. -/
def rowInt (w : BitVec 32) : Except DecodeErr Row :=
  match (w.extractLsb' 18 4).toNat with
  | 0 => .ok ⟨.add (w.extractLsb' 13 5) (w.extractLsb' 8 5) (w.extractLsb' 3 5) (w.extractLsb' 0 2), 0x4#32, 0x0#32, 0x0#32⟩
  | 1 => .ok ⟨.sub (w.extractLsb' 13 5) (w.extractLsb' 8 5) (w.extractLsb' 3 5) (w.extractLsb' 0 2), 0x4#32, 0x0#32, 0x0#32⟩
  | 2 => .ok ⟨.mul (w.extractLsb' 13 5) (w.extractLsb' 8 5) (w.extractLsb' 3 5), 0x4#32, 0x0#32, 0x3#32⟩
  | 3 => .ok ⟨.mulh (w.extractLsb' 13 5) (w.extractLsb' 8 5) (w.extractLsb' 3 5), 0x4#32, 0x0#32, 0x3#32⟩
  | 4 => .ok ⟨.mulhu (w.extractLsb' 13 5) (w.extractLsb' 8 5) (w.extractLsb' 3 5), 0x4#32, 0x0#32, 0x3#32⟩
  | 5 => .ok ⟨.div (w.extractLsb' 13 5) (w.extractLsb' 8 5) (w.extractLsb' 3 5) (w.extractLsb' 0 1), 0x4#32, 0x0#32, 0x2#32⟩
  | 6 => .ok ⟨.divu (w.extractLsb' 13 5) (w.extractLsb' 8 5) (w.extractLsb' 3 5) (w.extractLsb' 0 1), 0x4#32, 0x0#32, 0x2#32⟩
  | 7 => .ok ⟨.and (w.extractLsb' 13 5) (w.extractLsb' 8 5) (w.extractLsb' 3 5), 0x4#32, 0x0#32, 0x3#32⟩
  | 8 => .ok ⟨.or (w.extractLsb' 13 5) (w.extractLsb' 8 5) (w.extractLsb' 3 5), 0x4#32, 0x0#32, 0x3#32⟩
  | 9 => .ok ⟨.xor (w.extractLsb' 13 5) (w.extractLsb' 8 5) (w.extractLsb' 3 5), 0x4#32, 0x0#32, 0x3#32⟩
  | 10 => .ok ⟨.min (w.extractLsb' 13 5) (w.extractLsb' 8 5) (w.extractLsb' 3 5), 0x4#32, 0x0#32, 0x3#32⟩
  | 11 => .ok ⟨.max (w.extractLsb' 13 5) (w.extractLsb' 8 5) (w.extractLsb' 3 5), 0x4#32, 0x0#32, 0x3#32⟩
  | 12 => .ok ⟨.minu (w.extractLsb' 13 5) (w.extractLsb' 8 5) (w.extractLsb' 3 5), 0x4#32, 0x0#32, 0x3#32⟩
  | 13 => .ok ⟨.maxu (w.extractLsb' 13 5) (w.extractLsb' 8 5) (w.extractLsb' 3 5), 0x4#32, 0x0#32, 0x3#32⟩
  | 14 => .ok ⟨.sel (w.extractLsb' 13 5) (w.extractLsb' 8 5) (w.extractLsb' 3 5) (w.extractLsb' 0 3), 0x0#32, 0x0#32, 0x0#32⟩
  | _ => .error .reservedOp

/-- The rows of major 0x05 INTI, by its operation field. -/
def rowInti (w : BitVec 32) : Except DecodeErr Row :=
  match (w.extractLsb' 9 3).toNat with
  | 0 => .ok ⟨.addi (w.extractLsb' 17 5) (w.extractLsb' 12 5) (w.extractLsb' 0 9), 0x0#32, 0x0#32, 0x0#32⟩
  | 1 => .ok ⟨.andi (w.extractLsb' 17 5) (w.extractLsb' 12 5) (w.extractLsb' 0 9), 0x0#32, 0x0#32, 0x0#32⟩
  | 2 => .ok ⟨.ori (w.extractLsb' 17 5) (w.extractLsb' 12 5) (w.extractLsb' 0 9), 0x0#32, 0x0#32, 0x0#32⟩
  | 3 => .ok ⟨.xori (w.extractLsb' 17 5) (w.extractLsb' 12 5) (w.extractLsb' 0 9), 0x0#32, 0x0#32, 0x0#32⟩
  | 4 => .ok ⟨.slti (w.extractLsb' 17 5) (w.extractLsb' 12 5) (w.extractLsb' 0 9), 0x0#32, 0x0#32, 0x0#32⟩
  | 5 => .ok ⟨.sltui (w.extractLsb' 17 5) (w.extractLsb' 12 5) (w.extractLsb' 0 9), 0x0#32, 0x0#32, 0x0#32⟩
  | _ => .error .reservedOp

/-- The rows of major 0x06 FPS, by its operation field. -/
def rowFps (w : BitVec 32) : Except DecodeErr Row :=
  match (w.extractLsb' 18 4).toNat with
  | 0 => .ok ⟨.fadd (w.extractLsb' 13 5) (w.extractLsb' 8 5) (w.extractLsb' 3 5) (w.extractLsb' 2 1), 0x0#32, 0x0#32, 0x3#32⟩
  | 1 => .ok ⟨.fsub (w.extractLsb' 13 5) (w.extractLsb' 8 5) (w.extractLsb' 3 5) (w.extractLsb' 2 1), 0x0#32, 0x0#32, 0x3#32⟩
  | 2 => .ok ⟨.fmul (w.extractLsb' 13 5) (w.extractLsb' 8 5) (w.extractLsb' 3 5) (w.extractLsb' 2 1), 0x0#32, 0x0#32, 0x3#32⟩
  | 3 => .ok ⟨.fma (w.extractLsb' 13 5) (w.extractLsb' 8 5) (w.extractLsb' 3 5) (w.extractLsb' 2 1), 0x0#32, 0x0#32, 0x3#32⟩
  | 4 => .ok ⟨.fmin (w.extractLsb' 13 5) (w.extractLsb' 8 5) (w.extractLsb' 3 5), 0x4#32, 0x0#32, 0x3#32⟩
  | 5 => .ok ⟨.fmax (w.extractLsb' 13 5) (w.extractLsb' 8 5) (w.extractLsb' 3 5), 0x4#32, 0x0#32, 0x3#32⟩
  | 6 => .ok ⟨.fneg (w.extractLsb' 13 5) (w.extractLsb' 8 5), 0xFC#32, 0x0#32, 0x3#32⟩
  | 7 => .ok ⟨.fabs (w.extractLsb' 13 5) (w.extractLsb' 8 5), 0xFC#32, 0x0#32, 0x3#32⟩
  | 8 => .ok ⟨.f2i (w.extractLsb' 13 5) (w.extractLsb' 8 5) (w.extractLsb' 2 1) (w.extractLsb' 0 2), 0xF8#32, 0x0#32, 0x0#32⟩
  | 9 => .ok ⟨.i2f (w.extractLsb' 13 5) (w.extractLsb' 8 5) (w.extractLsb' 2 1) (w.extractLsb' 0 1), 0xF8#32, 0x0#32, 0x2#32⟩
  | _ => .error .reservedOp

/-- The rows of major 0x07 CMP, by its operation field. -/
def rowCmp (w : BitVec 32) : Except DecodeErr Row :=
  match (w.extractLsb' 18 4).toNat with
  | 0 => .ok ⟨.icmpEq (w.extractLsb' 13 3) (w.extractLsb' 8 5) (w.extractLsb' 3 5), 0x30007#32, 0x0#32, 0x0#32⟩
  | 1 => .ok ⟨.icmpNe (w.extractLsb' 13 3) (w.extractLsb' 8 5) (w.extractLsb' 3 5), 0x30007#32, 0x0#32, 0x0#32⟩
  | 2 => .ok ⟨.icmpLt (w.extractLsb' 13 3) (w.extractLsb' 8 5) (w.extractLsb' 3 5), 0x30007#32, 0x0#32, 0x0#32⟩
  | 3 => .ok ⟨.icmpLtu (w.extractLsb' 13 3) (w.extractLsb' 8 5) (w.extractLsb' 3 5), 0x30007#32, 0x0#32, 0x0#32⟩
  | 4 => .ok ⟨.icmpLe (w.extractLsb' 13 3) (w.extractLsb' 8 5) (w.extractLsb' 3 5), 0x30007#32, 0x0#32, 0x0#32⟩
  | 5 => .ok ⟨.icmpLeu (w.extractLsb' 13 3) (w.extractLsb' 8 5) (w.extractLsb' 3 5), 0x30007#32, 0x0#32, 0x0#32⟩
  | 6 => .ok ⟨.fcmpEq (w.extractLsb' 13 3) (w.extractLsb' 8 5) (w.extractLsb' 3 5) (w.extractLsb' 2 1), 0x30003#32, 0x0#32, 0x0#32⟩
  | 7 => .ok ⟨.fcmpLt (w.extractLsb' 13 3) (w.extractLsb' 8 5) (w.extractLsb' 3 5) (w.extractLsb' 2 1), 0x30003#32, 0x0#32, 0x0#32⟩
  | 8 => .ok ⟨.fcmpLe (w.extractLsb' 13 3) (w.extractLsb' 8 5) (w.extractLsb' 3 5) (w.extractLsb' 2 1), 0x30003#32, 0x0#32, 0x0#32⟩
  | 9 => .ok ⟨.fcmpUn (w.extractLsb' 13 3) (w.extractLsb' 8 5) (w.extractLsb' 3 5) (w.extractLsb' 2 1), 0x30003#32, 0x0#32, 0x0#32⟩
  | _ => .error .reservedOp

/-- The rows of major 0x08 BIT, by its operation field. -/
def rowBit (w : BitVec 32) : Except DecodeErr Row :=
  match (w.extractLsb' 18 4).toNat with
  | 0 => .ok ⟨.shl (w.extractLsb' 13 5) (w.extractLsb' 8 5) (w.extractLsb' 3 5), 0x4#32, 0x0#32, 0x3#32⟩
  | 1 => .ok ⟨.shr (w.extractLsb' 13 5) (w.extractLsb' 8 5) (w.extractLsb' 3 5), 0x4#32, 0x0#32, 0x3#32⟩
  | 2 => .ok ⟨.sra (w.extractLsb' 13 5) (w.extractLsb' 8 5) (w.extractLsb' 3 5), 0x4#32, 0x0#32, 0x3#32⟩
  | 3 => .ok ⟨.rol (w.extractLsb' 13 5) (w.extractLsb' 8 5) (w.extractLsb' 3 5), 0x4#32, 0x0#32, 0x3#32⟩
  | 4 => .ok ⟨.fsh (w.extractLsb' 13 5) (w.extractLsb' 8 5) (w.extractLsb' 3 5), 0x4#32, 0x0#32, 0x3#32⟩
  | 5 => .ok ⟨.fshr (w.extractLsb' 13 5) (w.extractLsb' 8 5) (w.extractLsb' 3 5), 0x4#32, 0x0#32, 0x3#32⟩
  | 6 => .ok ⟨.clz (w.extractLsb' 13 5) (w.extractLsb' 8 5), 0xFC#32, 0x0#32, 0x3#32⟩
  | 7 => .ok ⟨.ctz (w.extractLsb' 13 5) (w.extractLsb' 8 5), 0xFC#32, 0x0#32, 0x3#32⟩
  | 8 => .ok ⟨.popc (w.extractLsb' 13 5) (w.extractLsb' 8 5), 0xFC#32, 0x0#32, 0x3#32⟩
  | 9 => .ok ⟨.bext (w.extractLsb' 13 5) (w.extractLsb' 8 5) (w.extractLsb' 3 5) (w.extractLsb' 0 1), 0x4#32, 0x0#32, 0x2#32⟩
  | 10 => .ok ⟨.bins (w.extractLsb' 13 5) (w.extractLsb' 8 5) (w.extractLsb' 3 5), 0x4#32, 0x0#32, 0x3#32⟩
  | 11 => .ok ⟨.bswap (w.extractLsb' 13 5) (w.extractLsb' 8 5) (w.extractLsb' 0 1), 0xFC#32, 0x0#32, 0x2#32⟩
  | _ => .error .reservedOp

/-- The rows of major 0x09 PATH, by its operation field. -/
def rowPath (w : BitVec 32) : Except DecodeErr Row :=
  match (w.extractLsb' 18 4).toNat with
  | 0 => .ok ⟨.cpack (w.extractLsb' 13 5) (w.extractLsb' 8 5) (w.extractLsb' 3 5), 0x4#32, 0x0#32, 0x3#32⟩
  | 1 => .ok ⟨.cadd (w.extractLsb' 13 5) (w.extractLsb' 8 5) (w.extractLsb' 3 5), 0x4#32, 0x0#32, 0x3#32⟩
  | 2 => .ok ⟨.crow (w.extractLsb' 13 5) (w.extractLsb' 8 5), 0xFC#32, 0x0#32, 0x3#32⟩
  | 3 => .ok ⟨.ccol (w.extractLsb' 13 5) (w.extractLsb' 8 5), 0xFC#32, 0x0#32, 0x3#32⟩
  | 4 => .ok ⟨.bxdim (w.extractLsb' 13 5) (w.extractLsb' 8 4) (w.extractLsb' 0 2), 0x10FC#32, 0x0#32, 0x0#32⟩
  | 5 => .ok ⟨.bxok (w.extractLsb' 13 5) (w.extractLsb' 8 4) (w.extractLsb' 3 5) (w.extractLsb' 0 2), 0x1004#32, 0x0#32, 0x0#32⟩
  | _ => .error .reservedOp

/-- The rows of major 0x0A LMEM, by its operation field. -/
def rowLmem (w : BitVec 32) : Except DecodeErr Row :=
  match (w.extractLsb' 19 3).toNat with
  | 0 => .ok ⟨.lmemLdb (w.extractLsb' 14 5) (w.extractLsb' 10 4) (w.extractLsb' 5 5) (w.extractLsb' 0 5), 0x0#32, 0x0#32, 0x0#32⟩
  | 1 => .ok ⟨.lmemLdh (w.extractLsb' 14 5) (w.extractLsb' 10 4) (w.extractLsb' 5 5) (w.extractLsb' 0 5), 0x0#32, 0x0#32, 0x0#32⟩
  | 2 => .ok ⟨.lmemLdw (w.extractLsb' 14 5) (w.extractLsb' 10 4) (w.extractLsb' 5 5) (w.extractLsb' 0 5), 0x0#32, 0x0#32, 0x0#32⟩
  | 3 => .ok ⟨.lmemStb (w.extractLsb' 14 5) (w.extractLsb' 10 4) (w.extractLsb' 5 5) (w.extractLsb' 0 5), 0x0#32, 0x0#32, 0x0#32⟩
  | 4 => .ok ⟨.lmemSth (w.extractLsb' 14 5) (w.extractLsb' 10 4) (w.extractLsb' 5 5) (w.extractLsb' 0 5), 0x0#32, 0x0#32, 0x0#32⟩
  | 5 => .ok ⟨.lmemStw (w.extractLsb' 14 5) (w.extractLsb' 10 4) (w.extractLsb' 5 5) (w.extractLsb' 0 5), 0x0#32, 0x0#32, 0x0#32⟩
  | 6 => .ok ⟨.lmemTldr (w.extractLsb' 16 3) (w.extractLsb' 14 2) (w.extractLsb' 10 4) (w.extractLsb' 5 5) (w.extractLsb' 0 5), 0x0#32, 0x0#32, 0x0#32⟩
  | 7 => .ok ⟨.lmemTstr (w.extractLsb' 16 3) (w.extractLsb' 14 2) (w.extractLsb' 10 4) (w.extractLsb' 5 5) (w.extractLsb' 0 5), 0x0#32, 0x0#32, 0x0#32⟩
  | _ => .error .reservedOp

/-- The rows of major 0x0B LSPEC, by its operation field. -/
def rowLspec (w : BitVec 32) : Except DecodeErr Row :=
  match (w.extractLsb' 19 3).toNat with
  | 0 => .ok ⟨.ldwa (w.extractLsb' 14 5) (w.extractLsb' 10 4) (w.extractLsb' 5 5) (w.extractLsb' 0 5), 0x0#32, 0x0#32, 0x0#32⟩
  | 1 => .ok ⟨.ldwc (w.extractLsb' 14 5) (w.extractLsb' 10 4) (w.extractLsb' 5 5) (w.extractLsb' 0 5), 0x0#32, 0x0#32, 0x0#32⟩
  | 2 =>
    if w &&& 0x8000#32 = 0x0#32 then .ok ⟨.tldra (w.extractLsb' 16 3) (w.extractLsb' 14 1) (w.extractLsb' 10 4) (w.extractLsb' 5 5) (w.extractLsb' 0 5), 0x0#32, 0x0#32, 0x0#32⟩
    else .error .reservedOp
  | 3 =>
    if w &&& 0x8000#32 = 0x0#32 then .ok ⟨.tldrc (w.extractLsb' 16 3) (w.extractLsb' 14 1) (w.extractLsb' 10 4) (w.extractLsb' 5 5) (w.extractLsb' 0 5), 0x0#32, 0x0#32, 0x0#32⟩
    else .error .reservedOp
  | 4 =>
    if w &&& 0x7C000#32 = 0x0#32 then .ok ⟨.atclr (w.extractLsb' 10 4) (w.extractLsb' 5 5) (w.extractLsb' 0 5), 0x0#32, 0x0#32, 0x0#32⟩ else
    if w &&& 0x7C000#32 = 0x4000#32 then .ok ⟨.atclrAll, 0x3FFF#32, 0x0#32, 0x0#32⟩ else
    .error .reservedOp
  | _ => .error .reservedOp

/-- The rows of major 0x0C HMEM, by its operation field. -/
def rowHmem (w : BitVec 32) : Except DecodeErr Row :=
  match (w.extractLsb' 19 3).toNat with
  | 0 => .ok ⟨.hmemLdb (w.extractLsb' 14 5) (w.extractLsb' 10 4) (w.extractLsb' 5 5) (w.extractLsb' 0 5), 0x0#32, 0x0#32, 0x0#32⟩
  | 1 => .ok ⟨.hmemLdh (w.extractLsb' 14 5) (w.extractLsb' 10 4) (w.extractLsb' 5 5) (w.extractLsb' 0 5), 0x0#32, 0x0#32, 0x0#32⟩
  | 2 => .ok ⟨.hmemLdw (w.extractLsb' 14 5) (w.extractLsb' 10 4) (w.extractLsb' 5 5) (w.extractLsb' 0 5), 0x0#32, 0x0#32, 0x0#32⟩
  | 3 => .ok ⟨.hmemStb (w.extractLsb' 14 5) (w.extractLsb' 10 4) (w.extractLsb' 5 5) (w.extractLsb' 0 5), 0x0#32, 0x0#32, 0x0#32⟩
  | 4 => .ok ⟨.hmemSth (w.extractLsb' 14 5) (w.extractLsb' 10 4) (w.extractLsb' 5 5) (w.extractLsb' 0 5), 0x0#32, 0x0#32, 0x0#32⟩
  | 5 => .ok ⟨.hmemStw (w.extractLsb' 14 5) (w.extractLsb' 10 4) (w.extractLsb' 5 5) (w.extractLsb' 0 5), 0x0#32, 0x0#32, 0x0#32⟩
  | 6 => .ok ⟨.hmemTldr (w.extractLsb' 16 3) (w.extractLsb' 14 2) (w.extractLsb' 10 4) (w.extractLsb' 5 5) (w.extractLsb' 0 5), 0x0#32, 0x0#32, 0x0#32⟩
  | 7 => .ok ⟨.hmemTstr (w.extractLsb' 16 3) (w.extractLsb' 14 2) (w.extractLsb' 10 4) (w.extractLsb' 5 5) (w.extractLsb' 0 5), 0x0#32, 0x0#32, 0x0#32⟩
  | _ => .error .reservedOp

/-- The rows of major 0x0D HATOM, by its operation field. -/
def rowHatom (w : BitVec 32) : Except DecodeErr Row :=
  match (w.extractLsb' 19 3).toNat with
  | 0 => .ok ⟨.amadd (w.extractLsb' 14 5) (w.extractLsb' 10 4) (w.extractLsb' 5 5) (w.extractLsb' 0 5), 0x0#32, 0x0#32, 0x0#32⟩
  | 1 => .ok ⟨.amswap (w.extractLsb' 14 5) (w.extractLsb' 10 4) (w.extractLsb' 5 5) (w.extractLsb' 0 5), 0x0#32, 0x0#32, 0x0#32⟩
  | 2 => .ok ⟨.amcas (w.extractLsb' 14 5) (w.extractLsb' 10 4) (w.extractLsb' 5 5) (w.extractLsb' 0 5), 0x0#32, 0x0#32, 0x0#32⟩
  | 3 => .ok ⟨.ammin (w.extractLsb' 14 5) (w.extractLsb' 10 4) (w.extractLsb' 5 5) (w.extractLsb' 0 5), 0x0#32, 0x0#32, 0x0#32⟩
  | 4 => .ok ⟨.ammax (w.extractLsb' 14 5) (w.extractLsb' 10 4) (w.extractLsb' 5 5) (w.extractLsb' 0 5), 0x0#32, 0x0#32, 0x0#32⟩
  | 5 => .ok ⟨.amand (w.extractLsb' 14 5) (w.extractLsb' 10 4) (w.extractLsb' 5 5) (w.extractLsb' 0 5), 0x0#32, 0x0#32, 0x0#32⟩
  | 6 => .ok ⟨.amor (w.extractLsb' 14 5) (w.extractLsb' 10 4) (w.extractLsb' 5 5) (w.extractLsb' 0 5), 0x0#32, 0x0#32, 0x0#32⟩
  | 7 => .ok ⟨.amxor (w.extractLsb' 14 5) (w.extractLsb' 10 4) (w.extractLsb' 5 5) (w.extractLsb' 0 5), 0x0#32, 0x0#32, 0x0#32⟩
  | _ => .error .reservedOp

/-- The rows of major 0x0E TINT, by its operation field. -/
def rowTint (w : BitVec 32) : Except DecodeErr Row :=
  match (w.extractLsb' 17 5).toNat with
  | 0 => .ok ⟨.tadd (w.extractLsb' 14 3) (w.extractLsb' 11 3) (w.extractLsb' 10 1) (w.extractLsb' 5 5) (w.extractLsb' 2 3) (w.extractLsb' 1 1) (w.extractLsb' 0 1), 0x0#32, 0x0#32, 0x0#32⟩
  | 1 => .ok ⟨.taddSat (w.extractLsb' 14 3) (w.extractLsb' 11 3) (w.extractLsb' 10 1) (w.extractLsb' 5 5) (w.extractLsb' 2 3) (w.extractLsb' 1 1) (w.extractLsb' 0 1), 0x0#32, 0x0#32, 0x0#32⟩
  | 2 => .ok ⟨.tsub (w.extractLsb' 14 3) (w.extractLsb' 11 3) (w.extractLsb' 10 1) (w.extractLsb' 5 5) (w.extractLsb' 2 3) (w.extractLsb' 1 1) (w.extractLsb' 0 1), 0x0#32, 0x0#32, 0x0#32⟩
  | 3 => .ok ⟨.tsubSat (w.extractLsb' 14 3) (w.extractLsb' 11 3) (w.extractLsb' 10 1) (w.extractLsb' 5 5) (w.extractLsb' 2 3) (w.extractLsb' 1 1) (w.extractLsb' 0 1), 0x0#32, 0x0#32, 0x0#32⟩
  | 4 => .ok ⟨.tmul (w.extractLsb' 14 3) (w.extractLsb' 11 3) (w.extractLsb' 10 1) (w.extractLsb' 5 5) (w.extractLsb' 2 3) (w.extractLsb' 1 1) (w.extractLsb' 0 1), 0x0#32, 0x0#32, 0x0#32⟩
  | 5 => .ok ⟨.tmulSat (w.extractLsb' 14 3) (w.extractLsb' 11 3) (w.extractLsb' 10 1) (w.extractLsb' 5 5) (w.extractLsb' 2 3) (w.extractLsb' 1 1) (w.extractLsb' 0 1), 0x0#32, 0x0#32, 0x0#32⟩
  | 6 => .ok ⟨.tmulh (w.extractLsb' 14 3) (w.extractLsb' 11 3) (w.extractLsb' 10 1) (w.extractLsb' 5 5) (w.extractLsb' 2 3) (w.extractLsb' 1 1) (w.extractLsb' 0 1), 0x0#32, 0x0#32, 0x0#32⟩
  | 7 => .ok ⟨.tmin (w.extractLsb' 14 3) (w.extractLsb' 11 3) (w.extractLsb' 10 1) (w.extractLsb' 5 5) (w.extractLsb' 2 3) (w.extractLsb' 1 1) (w.extractLsb' 0 1), 0x0#32, 0x0#32, 0x0#32⟩
  | 8 => .ok ⟨.tmax (w.extractLsb' 14 3) (w.extractLsb' 11 3) (w.extractLsb' 10 1) (w.extractLsb' 5 5) (w.extractLsb' 2 3) (w.extractLsb' 1 1) (w.extractLsb' 0 1), 0x0#32, 0x0#32, 0x0#32⟩
  | 9 => .ok ⟨.tand (w.extractLsb' 14 3) (w.extractLsb' 11 3) (w.extractLsb' 10 1) (w.extractLsb' 5 5) (w.extractLsb' 2 3) (w.extractLsb' 1 1) (w.extractLsb' 0 1), 0x0#32, 0x0#32, 0x0#32⟩
  | 10 => .ok ⟨.tor (w.extractLsb' 14 3) (w.extractLsb' 11 3) (w.extractLsb' 10 1) (w.extractLsb' 5 5) (w.extractLsb' 2 3) (w.extractLsb' 1 1) (w.extractLsb' 0 1), 0x0#32, 0x0#32, 0x0#32⟩
  | 11 => .ok ⟨.txor (w.extractLsb' 14 3) (w.extractLsb' 11 3) (w.extractLsb' 10 1) (w.extractLsb' 5 5) (w.extractLsb' 2 3) (w.extractLsb' 1 1) (w.extractLsb' 0 1), 0x0#32, 0x0#32, 0x0#32⟩
  | 12 => .ok ⟨.tshl (w.extractLsb' 14 3) (w.extractLsb' 11 3) (w.extractLsb' 10 1) (w.extractLsb' 5 5) (w.extractLsb' 2 3) (w.extractLsb' 1 1) (w.extractLsb' 0 1), 0x0#32, 0x0#32, 0x0#32⟩
  | 13 => .ok ⟨.tshr (w.extractLsb' 14 3) (w.extractLsb' 11 3) (w.extractLsb' 10 1) (w.extractLsb' 5 5) (w.extractLsb' 2 3) (w.extractLsb' 1 1) (w.extractLsb' 0 1), 0x0#32, 0x0#32, 0x0#32⟩
  | 14 => .ok ⟨.tsra (w.extractLsb' 14 3) (w.extractLsb' 11 3) (w.extractLsb' 10 1) (w.extractLsb' 5 5) (w.extractLsb' 2 3) (w.extractLsb' 1 1) (w.extractLsb' 0 1), 0x0#32, 0x0#32, 0x0#32⟩
  | 15 => .ok ⟨.tfsh (w.extractLsb' 14 3) (w.extractLsb' 11 3) (w.extractLsb' 10 1) (w.extractLsb' 5 5) (w.extractLsb' 2 3) (w.extractLsb' 1 1) (w.extractLsb' 0 1), 0x0#32, 0x0#32, 0x0#32⟩
  | 16 => .ok ⟨.tabs (w.extractLsb' 14 3) (w.extractLsb' 11 3) (w.extractLsb' 2 3) (w.extractLsb' 1 1) (w.extractLsb' 0 1), 0x7E0#32, 0x0#32, 0x0#32⟩
  | 17 => .ok ⟨.tabsSat (w.extractLsb' 14 3) (w.extractLsb' 11 3) (w.extractLsb' 2 3) (w.extractLsb' 1 1) (w.extractLsb' 0 1), 0x7E0#32, 0x0#32, 0x0#32⟩
  | 18 => .ok ⟨.tnegSat (w.extractLsb' 14 3) (w.extractLsb' 11 3) (w.extractLsb' 2 3) (w.extractLsb' 1 1) (w.extractLsb' 0 1), 0x7E0#32, 0x0#32, 0x0#32⟩
  | _ => .error .reservedOp

/-- The rows of major 0x0F TFP, by its operation field. -/
def rowTfp (w : BitVec 32) : Except DecodeErr Row :=
  match (w.extractLsb' 17 5).toNat with
  | 0 => .ok ⟨.tfadd (w.extractLsb' 14 3) (w.extractLsb' 11 3) (w.extractLsb' 10 1) (w.extractLsb' 5 5) (w.extractLsb' 2 3) (w.extractLsb' 1 1) (w.extractLsb' 0 1), 0x0#32, 0x0#32, 0x0#32⟩
  | 1 => .ok ⟨.tfsub (w.extractLsb' 14 3) (w.extractLsb' 11 3) (w.extractLsb' 10 1) (w.extractLsb' 5 5) (w.extractLsb' 2 3) (w.extractLsb' 1 1) (w.extractLsb' 0 1), 0x0#32, 0x0#32, 0x0#32⟩
  | 2 => .ok ⟨.tfmul (w.extractLsb' 14 3) (w.extractLsb' 11 3) (w.extractLsb' 10 1) (w.extractLsb' 5 5) (w.extractLsb' 2 3) (w.extractLsb' 1 1) (w.extractLsb' 0 1), 0x0#32, 0x0#32, 0x0#32⟩
  | 3 => .ok ⟨.tfma (w.extractLsb' 14 3) (w.extractLsb' 11 3) (w.extractLsb' 10 1) (w.extractLsb' 5 5) (w.extractLsb' 2 3) (w.extractLsb' 1 1) (w.extractLsb' 0 1), 0x0#32, 0x0#32, 0x0#32⟩
  | 4 => .ok ⟨.tfmin (w.extractLsb' 14 3) (w.extractLsb' 11 3) (w.extractLsb' 10 1) (w.extractLsb' 5 5) (w.extractLsb' 2 3) (w.extractLsb' 1 1) (w.extractLsb' 0 1), 0x0#32, 0x0#32, 0x0#32⟩
  | 5 => .ok ⟨.tfmax (w.extractLsb' 14 3) (w.extractLsb' 11 3) (w.extractLsb' 10 1) (w.extractLsb' 5 5) (w.extractLsb' 2 3) (w.extractLsb' 1 1) (w.extractLsb' 0 1), 0x0#32, 0x0#32, 0x0#32⟩
  | 6 => .ok ⟨.tfabs (w.extractLsb' 14 3) (w.extractLsb' 11 3) (w.extractLsb' 2 3) (w.extractLsb' 1 1) (w.extractLsb' 0 1), 0x7E0#32, 0x0#32, 0x0#32⟩
  | 7 => .ok ⟨.tfrint (w.extractLsb' 14 3) (w.extractLsb' 11 3) (w.extractLsb' 2 3) (w.extractLsb' 1 1) (w.extractLsb' 0 1), 0x7E0#32, 0x0#32, 0x0#32⟩
  | 8 => .ok ⟨.tfexp (w.extractLsb' 14 3) (w.extractLsb' 11 3) (w.extractLsb' 2 3) (w.extractLsb' 1 1) (w.extractLsb' 0 1), 0x7E0#32, 0x0#32, 0x0#32⟩
  | 9 => .ok ⟨.tfins (w.extractLsb' 14 3) (w.extractLsb' 11 3) (w.extractLsb' 10 1) (w.extractLsb' 5 5) (w.extractLsb' 2 3) (w.extractLsb' 1 1) (w.extractLsb' 0 1), 0x0#32, 0x0#32, 0x0#32⟩
  | 10 => .ok ⟨.tfrcp (w.extractLsb' 14 3) (w.extractLsb' 11 3) (w.extractLsb' 2 3) (w.extractLsb' 1 1) (w.extractLsb' 0 1), 0x7E0#32, 0x0#32, 0x0#32⟩
  | 11 => .ok ⟨.tfrsq (w.extractLsb' 14 3) (w.extractLsb' 11 3) (w.extractLsb' 2 3) (w.extractLsb' 1 1) (w.extractLsb' 0 1), 0x7E0#32, 0x0#32, 0x0#32⟩
  | _ => .error .reservedOp

/-- The rows of major 0x10 TCVT, by its operation field. -/
def rowTcvt (w : BitVec 32) : Except DecodeErr Row :=
  match (w.extractLsb' 17 5).toNat with
  | 0 => .ok ⟨.tcvt (w.extractLsb' 17 3) (w.extractLsb' 14 3) (w.extractLsb' 11 3) (w.extractLsb' 5 3) (w.extractLsb' 2 3) (w.extractLsb' 1 1) (w.extractLsb' 0 1), 0x700#32, 0x0#32, 0x0#32⟩
  | 1 => .ok ⟨.tcvt (w.extractLsb' 17 3) (w.extractLsb' 14 3) (w.extractLsb' 11 3) (w.extractLsb' 5 3) (w.extractLsb' 2 3) (w.extractLsb' 1 1) (w.extractLsb' 0 1), 0x700#32, 0x0#32, 0x0#32⟩
  | 2 => .ok ⟨.tcvt (w.extractLsb' 17 3) (w.extractLsb' 14 3) (w.extractLsb' 11 3) (w.extractLsb' 5 3) (w.extractLsb' 2 3) (w.extractLsb' 1 1) (w.extractLsb' 0 1), 0x700#32, 0x0#32, 0x0#32⟩
  | 3 => .ok ⟨.tcvt (w.extractLsb' 17 3) (w.extractLsb' 14 3) (w.extractLsb' 11 3) (w.extractLsb' 5 3) (w.extractLsb' 2 3) (w.extractLsb' 1 1) (w.extractLsb' 0 1), 0x700#32, 0x0#32, 0x0#32⟩
  | 4 => .ok ⟨.tcvt (w.extractLsb' 17 3) (w.extractLsb' 14 3) (w.extractLsb' 11 3) (w.extractLsb' 5 3) (w.extractLsb' 2 3) (w.extractLsb' 1 1) (w.extractLsb' 0 1), 0x700#32, 0x0#32, 0x0#32⟩
  | 5 => .ok ⟨.tcvt (w.extractLsb' 17 3) (w.extractLsb' 14 3) (w.extractLsb' 11 3) (w.extractLsb' 5 3) (w.extractLsb' 2 3) (w.extractLsb' 1 1) (w.extractLsb' 0 1), 0x700#32, 0x0#32, 0x0#32⟩
  | 6 => .ok ⟨.tcvt (w.extractLsb' 17 3) (w.extractLsb' 14 3) (w.extractLsb' 11 3) (w.extractLsb' 5 3) (w.extractLsb' 2 3) (w.extractLsb' 1 1) (w.extractLsb' 0 1), 0x700#32, 0x0#32, 0x0#32⟩
  | 7 => .ok ⟨.tcvt (w.extractLsb' 17 3) (w.extractLsb' 14 3) (w.extractLsb' 11 3) (w.extractLsb' 5 3) (w.extractLsb' 2 3) (w.extractLsb' 1 1) (w.extractLsb' 0 1), 0x700#32, 0x0#32, 0x0#32⟩
  | 8 => .ok ⟨.tcvtSat (w.extractLsb' 17 3) (w.extractLsb' 14 3) (w.extractLsb' 11 3) (w.extractLsb' 5 3) (w.extractLsb' 2 3) (w.extractLsb' 1 1) (w.extractLsb' 0 1), 0x700#32, 0x0#32, 0x0#32⟩
  | 9 => .ok ⟨.tcvtSat (w.extractLsb' 17 3) (w.extractLsb' 14 3) (w.extractLsb' 11 3) (w.extractLsb' 5 3) (w.extractLsb' 2 3) (w.extractLsb' 1 1) (w.extractLsb' 0 1), 0x700#32, 0x0#32, 0x0#32⟩
  | 10 => .ok ⟨.tcvtSat (w.extractLsb' 17 3) (w.extractLsb' 14 3) (w.extractLsb' 11 3) (w.extractLsb' 5 3) (w.extractLsb' 2 3) (w.extractLsb' 1 1) (w.extractLsb' 0 1), 0x700#32, 0x0#32, 0x0#32⟩
  | 11 => .ok ⟨.tcvtSat (w.extractLsb' 17 3) (w.extractLsb' 14 3) (w.extractLsb' 11 3) (w.extractLsb' 5 3) (w.extractLsb' 2 3) (w.extractLsb' 1 1) (w.extractLsb' 0 1), 0x700#32, 0x0#32, 0x0#32⟩
  | 12 => .ok ⟨.tcvtSat (w.extractLsb' 17 3) (w.extractLsb' 14 3) (w.extractLsb' 11 3) (w.extractLsb' 5 3) (w.extractLsb' 2 3) (w.extractLsb' 1 1) (w.extractLsb' 0 1), 0x700#32, 0x0#32, 0x0#32⟩
  | 13 => .ok ⟨.tcvtSat (w.extractLsb' 17 3) (w.extractLsb' 14 3) (w.extractLsb' 11 3) (w.extractLsb' 5 3) (w.extractLsb' 2 3) (w.extractLsb' 1 1) (w.extractLsb' 0 1), 0x700#32, 0x0#32, 0x0#32⟩
  | 14 => .ok ⟨.tcvtSat (w.extractLsb' 17 3) (w.extractLsb' 14 3) (w.extractLsb' 11 3) (w.extractLsb' 5 3) (w.extractLsb' 2 3) (w.extractLsb' 1 1) (w.extractLsb' 0 1), 0x700#32, 0x0#32, 0x0#32⟩
  | 15 => .ok ⟨.tcvtSat (w.extractLsb' 17 3) (w.extractLsb' 14 3) (w.extractLsb' 11 3) (w.extractLsb' 5 3) (w.extractLsb' 2 3) (w.extractLsb' 1 1) (w.extractLsb' 0 1), 0x700#32, 0x0#32, 0x0#32⟩
  | 16 => .ok ⟨.tquant (w.extractLsb' 17 3) (w.extractLsb' 14 3) (w.extractLsb' 11 3) (w.extractLsb' 2 3) (w.extractLsb' 1 1) (w.extractLsb' 0 1), 0x7E0#32, 0x0#32, 0x0#32⟩
  | 17 => .ok ⟨.tquant (w.extractLsb' 17 3) (w.extractLsb' 14 3) (w.extractLsb' 11 3) (w.extractLsb' 2 3) (w.extractLsb' 1 1) (w.extractLsb' 0 1), 0x7E0#32, 0x0#32, 0x0#32⟩
  | 18 => .ok ⟨.tquant (w.extractLsb' 17 3) (w.extractLsb' 14 3) (w.extractLsb' 11 3) (w.extractLsb' 2 3) (w.extractLsb' 1 1) (w.extractLsb' 0 1), 0x7E0#32, 0x0#32, 0x0#32⟩
  | 19 => .ok ⟨.tquant (w.extractLsb' 17 3) (w.extractLsb' 14 3) (w.extractLsb' 11 3) (w.extractLsb' 2 3) (w.extractLsb' 1 1) (w.extractLsb' 0 1), 0x7E0#32, 0x0#32, 0x0#32⟩
  | 20 => .ok ⟨.tquant (w.extractLsb' 17 3) (w.extractLsb' 14 3) (w.extractLsb' 11 3) (w.extractLsb' 2 3) (w.extractLsb' 1 1) (w.extractLsb' 0 1), 0x7E0#32, 0x0#32, 0x0#32⟩
  | 21 => .ok ⟨.tquant (w.extractLsb' 17 3) (w.extractLsb' 14 3) (w.extractLsb' 11 3) (w.extractLsb' 2 3) (w.extractLsb' 1 1) (w.extractLsb' 0 1), 0x7E0#32, 0x0#32, 0x0#32⟩
  | 22 => .ok ⟨.tquant (w.extractLsb' 17 3) (w.extractLsb' 14 3) (w.extractLsb' 11 3) (w.extractLsb' 2 3) (w.extractLsb' 1 1) (w.extractLsb' 0 1), 0x7E0#32, 0x0#32, 0x0#32⟩
  | 23 => .ok ⟨.tquant (w.extractLsb' 17 3) (w.extractLsb' 14 3) (w.extractLsb' 11 3) (w.extractLsb' 2 3) (w.extractLsb' 1 1) (w.extractLsb' 0 1), 0x7E0#32, 0x0#32, 0x0#32⟩
  | 24 => .ok ⟨.tdeq (w.extractLsb' 14 3) (w.extractLsb' 11 3) (w.extractLsb' 5 3) (w.extractLsb' 2 3) (w.extractLsb' 1 1) (w.extractLsb' 0 1), 0x700#32, 0x0#32, 0x0#32⟩
  | 25 => .ok ⟨.tdeqHi (w.extractLsb' 14 3) (w.extractLsb' 11 3) (w.extractLsb' 5 3) (w.extractLsb' 2 3) (w.extractLsb' 1 1) (w.extractLsb' 0 1), 0x700#32, 0x0#32, 0x0#32⟩
  | 26 =>
    if w &&& 0x1C#32 = 0x18#32 then .ok ⟨.tscx (w.extractLsb' 14 3) (w.extractLsb' 11 3) (w.extractLsb' 5 3) (w.extractLsb' 1 1) (w.extractLsb' 0 1), 0x700#32, 0x0#32, 0x0#32⟩
    else .error .reservedOp
  | 27 =>
    if w &&& 0x1C#32 = 0x18#32 then .ok ⟨.tscxHi (w.extractLsb' 14 3) (w.extractLsb' 11 3) (w.extractLsb' 5 3) (w.extractLsb' 1 1) (w.extractLsb' 0 1), 0x700#32, 0x0#32, 0x0#32⟩
    else .error .reservedOp
  | 28 => .ok ⟨.tdeqU (w.extractLsb' 14 3) (w.extractLsb' 11 3) (w.extractLsb' 5 3) (w.extractLsb' 2 3) (w.extractLsb' 1 1) (w.extractLsb' 0 1), 0x700#32, 0x0#32, 0x0#32⟩
  | 29 => .ok ⟨.tdeqUHi (w.extractLsb' 14 3) (w.extractLsb' 11 3) (w.extractLsb' 5 3) (w.extractLsb' 2 3) (w.extractLsb' 1 1) (w.extractLsb' 0 1), 0x700#32, 0x0#32, 0x0#32⟩
  | _ => .error .reservedOp

/-- The rows of major 0x11 TMOV, by its operation field. -/
def rowTmov (w : BitVec 32) : Except DecodeErr Row :=
  match (w.extractLsb' 17 5).toNat with
  | 0 => .ok ⟨.tmov (w.extractLsb' 14 3) (w.extractLsb' 11 3) (w.extractLsb' 2 3) (w.extractLsb' 1 1) (w.extractLsb' 0 1), 0x7E0#32, 0x0#32, 0x0#32⟩
  | 1 => .ok ⟨.tbcast (w.extractLsb' 14 3) (w.extractLsb' 5 5) (w.extractLsb' 2 3) (w.extractLsb' 1 1) (w.extractLsb' 0 1), 0x3C00#32, 0x400#32, 0x0#32⟩
  | 2 => .ok ⟨.tbcastL (w.extractLsb' 14 3) (w.extractLsb' 11 3) (w.extractLsb' 5 5) (w.extractLsb' 2 3) (w.extractLsb' 1 1) (w.extractLsb' 0 1), 0x400#32, 0x400#32, 0x0#32⟩
  | 3 => .ok ⟨.trot (w.extractLsb' 14 3) (w.extractLsb' 11 3) (w.extractLsb' 5 5) (w.extractLsb' 2 3) (w.extractLsb' 1 1) (w.extractLsb' 0 1), 0x400#32, 0x400#32, 0x0#32⟩
  | 4 => .ok ⟨.tshuf (w.extractLsb' 14 3) (w.extractLsb' 11 3) (w.extractLsb' 5 3) (w.extractLsb' 2 3) (w.extractLsb' 1 1) (w.extractLsb' 0 1), 0x700#32, 0x0#32, 0x0#32⟩
  | 5 => .ok ⟨.tredMax (w.extractLsb' 14 3) (w.extractLsb' 11 3) (w.extractLsb' 5 5) (w.extractLsb' 2 3) (w.extractLsb' 1 1) (w.extractLsb' 0 1), 0x400#32, 0x400#32, 0x0#32⟩
  | 6 => .ok ⟨.tredMin (w.extractLsb' 14 3) (w.extractLsb' 11 3) (w.extractLsb' 5 5) (w.extractLsb' 2 3) (w.extractLsb' 1 1) (w.extractLsb' 0 1), 0x400#32, 0x400#32, 0x0#32⟩
  | 7 => .ok ⟨.tredAdd (w.extractLsb' 14 3) (w.extractLsb' 11 3) (w.extractLsb' 5 5) (w.extractLsb' 2 3) (w.extractLsb' 1 1) (w.extractLsb' 0 1), 0x400#32, 0x400#32, 0x0#32⟩
  | 8 => .ok ⟨.tsel (w.extractLsb' 14 3) (w.extractLsb' 11 3) (w.extractLsb' 10 1) (w.extractLsb' 5 5) (w.extractLsb' 2 3) (w.extractLsb' 1 1) (w.extractLsb' 0 1), 0x0#32, 0x0#32, 0x0#32⟩
  | 9 => .ok ⟨.tpack (w.extractLsb' 14 3) (w.extractLsb' 11 3) (w.extractLsb' 5 3) (w.extractLsb' 2 3) (w.extractLsb' 1 1) (w.extractLsb' 0 1), 0x700#32, 0x0#32, 0x0#32⟩
  | 10 => .ok ⟨.tunpk (w.extractLsb' 14 3) (w.extractLsb' 11 3) (w.extractLsb' 5 5) (w.extractLsb' 2 3) (w.extractLsb' 1 1) (w.extractLsb' 0 1), 0x400#32, 0x400#32, 0x0#32⟩
  | 11 =>
    if w &&& 0x2#32 = 0x2#32 then .ok ⟨.ttrans (w.extractLsb' 14 3) (w.extractLsb' 11 3) (w.extractLsb' 2 3) (w.extractLsb' 0 1), 0x7E0#32, 0x0#32, 0x0#32⟩
    else .error .reservedOp
  | _ => .error .reservedOp

/-- The rows of major 0x12 SCALE, by its operation field. -/
def rowScale (w : BitVec 32) : Except DecodeErr Row :=
  match (w.extractLsb' 18 4).toNat with
  | 0 => .ok ⟨.kld (w.extractLsb' 14 4) (w.extractLsb' 8 5) (w.extractLsb' 0 3), 0x20F8#32, 0x0#32, 0x0#32⟩
  | 1 => .ok ⟨.kst (w.extractLsb' 14 4) (w.extractLsb' 8 5) (w.extractLsb' 0 3), 0x20F8#32, 0x0#32, 0x0#32⟩
  | 2 => .ok ⟨.kbase (w.extractLsb' 8 5), 0x3E0FF#32, 0x0#32, 0x0#32⟩
  | 3 => .ok ⟨.krow (w.extractLsb' 8 5), 0x3E0FF#32, 0x0#32, 0x0#32⟩
  | 4 =>
    if w &&& 0x2000#32 = 0x0#32 then .ok ⟨.kset (w.extractLsb' 8 5) (w.extractLsb' 3 5) (w.extractLsb' 0 3), 0x3C000#32, 0x0#32, 0x0#32⟩ else
    if w &&& 0x2000#32 = 0x2000#32 then .ok ⟨.ksetAll (w.extractLsb' 8 5) (w.extractLsb' 0 3), 0x3C0F8#32, 0x0#32, 0x0#32⟩ else
    .error .reservedOp
  | _ => .error .reservedOp

/-- The rows of major 0x13 TCMP, by its operation field. -/
def rowTcmp (w : BitVec 32) : Except DecodeErr Row :=
  match (w.extractLsb' 17 5).toNat with
  | 0 => .ok ⟨.tcmpEq (w.extractLsb' 14 3) (w.extractLsb' 11 3) (w.extractLsb' 10 1) (w.extractLsb' 5 5) (w.extractLsb' 2 3) (w.extractLsb' 1 1) (w.extractLsb' 0 1), 0x0#32, 0x0#32, 0x0#32⟩
  | 1 => .ok ⟨.tcmpNe (w.extractLsb' 14 3) (w.extractLsb' 11 3) (w.extractLsb' 10 1) (w.extractLsb' 5 5) (w.extractLsb' 2 3) (w.extractLsb' 1 1) (w.extractLsb' 0 1), 0x0#32, 0x0#32, 0x0#32⟩
  | 2 => .ok ⟨.tcmpLt (w.extractLsb' 14 3) (w.extractLsb' 11 3) (w.extractLsb' 10 1) (w.extractLsb' 5 5) (w.extractLsb' 2 3) (w.extractLsb' 1 1) (w.extractLsb' 0 1), 0x0#32, 0x0#32, 0x0#32⟩
  | 3 => .ok ⟨.tcmpLe (w.extractLsb' 14 3) (w.extractLsb' 11 3) (w.extractLsb' 10 1) (w.extractLsb' 5 5) (w.extractLsb' 2 3) (w.extractLsb' 1 1) (w.extractLsb' 0 1), 0x0#32, 0x0#32, 0x0#32⟩
  | 4 => .ok ⟨.tcmpGt (w.extractLsb' 14 3) (w.extractLsb' 11 3) (w.extractLsb' 10 1) (w.extractLsb' 5 5) (w.extractLsb' 2 3) (w.extractLsb' 1 1) (w.extractLsb' 0 1), 0x0#32, 0x0#32, 0x0#32⟩
  | 5 => .ok ⟨.tcmpGe (w.extractLsb' 14 3) (w.extractLsb' 11 3) (w.extractLsb' 10 1) (w.extractLsb' 5 5) (w.extractLsb' 2 3) (w.extractLsb' 1 1) (w.extractLsb' 0 1), 0x0#32, 0x0#32, 0x0#32⟩
  | 8 => .ok ⟨.tfcmpEq (w.extractLsb' 14 3) (w.extractLsb' 11 3) (w.extractLsb' 10 1) (w.extractLsb' 5 5) (w.extractLsb' 2 3) (w.extractLsb' 1 1) (w.extractLsb' 0 1), 0x0#32, 0x0#32, 0x0#32⟩
  | 9 => .ok ⟨.tfcmpLt (w.extractLsb' 14 3) (w.extractLsb' 11 3) (w.extractLsb' 10 1) (w.extractLsb' 5 5) (w.extractLsb' 2 3) (w.extractLsb' 1 1) (w.extractLsb' 0 1), 0x0#32, 0x0#32, 0x0#32⟩
  | 10 => .ok ⟨.tfcmpLe (w.extractLsb' 14 3) (w.extractLsb' 11 3) (w.extractLsb' 10 1) (w.extractLsb' 5 5) (w.extractLsb' 2 3) (w.extractLsb' 1 1) (w.extractLsb' 0 1), 0x0#32, 0x0#32, 0x0#32⟩
  | 11 => .ok ⟨.tfcmpUn (w.extractLsb' 14 3) (w.extractLsb' 11 3) (w.extractLsb' 10 1) (w.extractLsb' 5 5) (w.extractLsb' 2 3) (w.extractLsb' 1 1) (w.extractLsb' 0 1), 0x0#32, 0x0#32, 0x0#32⟩
  | 12 => .ok ⟨.tfcmpGt (w.extractLsb' 14 3) (w.extractLsb' 11 3) (w.extractLsb' 10 1) (w.extractLsb' 5 5) (w.extractLsb' 2 3) (w.extractLsb' 1 1) (w.extractLsb' 0 1), 0x0#32, 0x0#32, 0x0#32⟩
  | 13 => .ok ⟨.tfcmpGe (w.extractLsb' 14 3) (w.extractLsb' 11 3) (w.extractLsb' 10 1) (w.extractLsb' 5 5) (w.extractLsb' 2 3) (w.extractLsb' 1 1) (w.extractLsb' 0 1), 0x0#32, 0x0#32, 0x0#32⟩
  | _ => .error .reservedOp

/-- The rows of major 0x14 MXA, by its operation field. -/
def rowMxa (w : BitVec 32) : Except DecodeErr Row :=
  match (w.extractLsb' 16 6).toNat with
  | 0 => .ok ⟨.mload (w.extractLsb' 0 1), 0xFFFE#32, 0x0#32, 0x0#32⟩
  | 1 => .ok ⟨.mrun (w.extractLsb' 11 5) (w.extractLsb' 4 2) (w.extractLsb' 3 1) (w.extractLsb' 2 1), 0x7C3#32, 0x0#32, 0x0#32⟩
  | 2 => .ok ⟨.mzero (w.extractLsb' 4 2), 0xFFCF#32, 0x0#32, 0x0#32⟩
  | 3 => .ok ⟨.mread (w.extractLsb' 11 5) (w.extractLsb' 4 2) (w.extractLsb' 0 3), 0x7C8#32, 0x0#32, 0x0#32⟩
  | 4 =>
    if w &&& 0x20#32 = 0x0#32 then .ok ⟨.mspillAcc (w.extractLsb' 3 2), 0xFFC7#32, 0x0#32, 0x0#32⟩ else
    if w &&& 0x20#32 = 0x20#32 then .ok ⟨.mspillSlot (w.extractLsb' 3 1), 0xFFD7#32, 0x0#32, 0x0#32⟩ else
    .error .reservedOp
  | 5 =>
    if w &&& 0x20#32 = 0x0#32 then .ok ⟨.mfillAcc (w.extractLsb' 3 2), 0xFFC7#32, 0x0#32, 0x0#32⟩ else
    if w &&& 0x20#32 = 0x20#32 then .ok ⟨.mfillSlot (w.extractLsb' 3 1), 0xFFD7#32, 0x0#32, 0x0#32⟩ else
    .error .reservedOp
  | _ => .error .reservedOp

/-- The rows of major 0x15 MXB, by its operation field. -/
def rowMxb (w : BitVec 32) : Except DecodeErr Row :=
  match (w.extractLsb' 16 6).toNat with
  | 0 => .ok ⟨.menc (w.extractLsb' 11 5) (w.extractLsb' 0 1), 0x7FE#32, 0x0#32, 0x0#32⟩
  | 1 => .ok ⟨.mcomp (w.extractLsb' 11 5), 0x7FF#32, 0x0#32, 0x0#32⟩
  | 2 =>
    if w &&& 0xC#32 = 0x8#32 then .ok ⟨.mprog (w.extractLsb' 11 5) (w.extractLsb' 6 5) (w.extractLsb' 4 2) (w.extractLsb' 0 2), 0x0#32, 0x0#32, 0x0#32⟩ else
    if w &&& 0xC#32 = 0xC#32 then .ok ⟨.mprogOpen (w.extractLsb' 11 5) (w.extractLsb' 4 2) (w.extractLsb' 0 2), 0x7C0#32, 0x0#32, 0x0#32⟩ else
    if w &&& 0x8#32 = 0x0#32 then .ok ⟨.mprogClr (w.extractLsb' 0 2), 0xFFF4#32, 0x0#32, 0x0#32⟩ else
    .error .reservedOp
  | 3 =>
    if w &&& 0x7#32 = 0x0#32 then .ok ⟨.mgeoA (w.extractLsb' 11 5), 0x7F8#32, 0x0#32, 0x0#32⟩ else
    if w &&& 0x7#32 = 0x1#32 then .ok ⟨.mgeoW (w.extractLsb' 11 5) (w.extractLsb' 6 5), 0x38#32, 0x0#32, 0x0#32⟩ else
    if w &&& 0x7#32 = 0x2#32 then .ok ⟨.mgeoD (w.extractLsb' 11 5) (w.extractLsb' 6 5), 0x38#32, 0x0#32, 0x0#32⟩ else
    if w &&& 0x7#32 = 0x3#32 then .ok ⟨.mgeoN (w.extractLsb' 11 5) (w.extractLsb' 6 5), 0x38#32, 0x0#32, 0x0#32⟩ else
    .error .reservedOp
  | _ => .error .reservedOp

/-- The rows of major 0x16 WALK, by its operation field. -/
def rowWalk (w : BitVec 32) : Except DecodeErr Row :=
  match (w.extractLsb' 16 6).toNat with
  | 0 => .ok ⟨.wcopy (w.extractLsb' 11 5) (w.extractLsb' 6 5) (w.extractLsb' 3 3) (w.extractLsb' 0 3), 0x0#32, 0x0#32, 0x0#32⟩
  | 1 => .ok ⟨.wmcast (w.extractLsb' 11 5) (w.extractLsb' 6 5) (w.extractLsb' 3 3) (w.extractLsb' 0 3), 0x0#32, 0x0#32, 0x0#32⟩
  | 2 => .ok ⟨.wgath (w.extractLsb' 11 5) (w.extractLsb' 6 5) (w.extractLsb' 3 3) (w.extractLsb' 0 3), 0x0#32, 0x0#32, 0x0#32⟩
  | 3 => .ok ⟨.wscat (w.extractLsb' 11 5) (w.extractLsb' 6 5) (w.extractLsb' 3 3) (w.extractLsb' 0 3), 0x0#32, 0x0#32, 0x0#32⟩
  | 4 => .ok ⟨.wprom (w.extractLsb' 11 5) (w.extractLsb' 0 6), 0x7C0#32, 0x0#32, 0x0#32⟩
  | 5 =>
    if w &&& 0x30#32 = 0x0#32 then .ok ⟨.wamoAdd (w.extractLsb' 11 5) (w.extractLsb' 6 5) (w.extractLsb' 0 4), 0x0#32, 0x0#32, 0x0#32⟩ else
    if w &&& 0x30#32 = 0x10#32 then .ok ⟨.wamoSwap (w.extractLsb' 11 5) (w.extractLsb' 6 5) (w.extractLsb' 0 4), 0x0#32, 0x0#32, 0x0#32⟩ else
    if w &&& 0x30#32 = 0x20#32 then .ok ⟨.wamoCas (w.extractLsb' 11 5) (w.extractLsb' 6 5) (w.extractLsb' 0 4), 0x0#32, 0x0#32, 0x0#32⟩ else
    if w &&& 0x30#32 = 0x30#32 then .ok ⟨.wamoMax (w.extractLsb' 11 5) (w.extractLsb' 6 5) (w.extractLsb' 0 4), 0x0#32, 0x0#32, 0x0#32⟩ else
    .error .reservedOp
  | 6 =>
    if w &&& 0x7#32 = 0x0#32 then .ok ⟨.wgeo (w.extractLsb' 11 5) (w.extractLsb' 6 5) (w.extractLsb' 3 3), 0x0#32, 0x0#32, 0x0#32⟩ else
    if w &&& 0x7#32 = 0x1#32 then .ok ⟨.wgeoHi (w.extractLsb' 11 5) (w.extractLsb' 6 5) (w.extractLsb' 3 3), 0x0#32, 0x0#32, 0x0#32⟩ else
    if w &&& 0x7#32 = 0x2#32 then .ok ⟨.wgeoTab (w.extractLsb' 11 5) (w.extractLsb' 6 5) (w.extractLsb' 3 3), 0x0#32, 0x0#32, 0x0#32⟩ else
    .error .reservedOp
  | 7 => .ok ⟨.wsnap (w.extractLsb' 11 5) (w.extractLsb' 6 5), 0x3F#32, 0x0#32, 0x0#32⟩
  | 8 => .ok ⟨.wcall (w.extractLsb' 11 5) (w.extractLsb' 6 5) (w.extractLsb' 0 5), 0x20#32, 0x0#32, 0x0#32⟩
  | 9 => .ok ⟨.wret, 0xFFFF#32, 0x0#32, 0x0#32⟩
  | 10 => .ok ⟨.wjoin, 0xFFFF#32, 0x0#32, 0x0#32⟩
  | _ => .error .reservedOp

/-- The rows of major 0x17 LINK, by its operation field. -/
def rowLink (w : BitVec 32) : Except DecodeErr Row :=
  match (w.extractLsb' 16 6).toNat with
  | 0 => .ok ⟨.lsend (w.extractLsb' 11 5) (w.extractLsb' 6 5) (w.extractLsb' 0 5), 0x20#32, 0x0#32, 0x0#32⟩
  | 1 => .ok ⟨.lrecv (w.extractLsb' 11 5) (w.extractLsb' 6 5) (w.extractLsb' 0 5), 0x20#32, 0x0#32, 0x0#32⟩
  | 2 => .ok ⟨.llat (w.extractLsb' 11 5) (w.extractLsb' 0 5), 0x7E0#32, 0x0#32, 0x0#32⟩
  | 3 => .ok ⟨.gcyc (w.extractLsb' 11 5) (w.extractLsb' 0 1), 0x7FE#32, 0x0#32, 0x0#32⟩
  | 4 => .ok ⟨.gmeas (w.extractLsb' 11 5) (w.extractLsb' 0 5), 0x7E0#32, 0x0#32, 0x0#32⟩
  | 5 => .ok ⟨.gadj (w.extractLsb' 11 5) (w.extractLsb' 0 3), 0x7F8#32, 0x0#32, 0x0#32⟩
  | 6 => .ok ⟨.lpair (w.extractLsb' 11 5) (w.extractLsb' 0 5), 0x7E0#32, 0x0#32, 0x0#32⟩
  | _ => .error .reservedOp

/-- The rows of major 0x18 CTX, by its operation field. -/
def rowCtx (w : BitVec 32) : Except DecodeErr Row :=
  match (w.extractLsb' 16 6).toNat with
  | 0 => .ok ⟨.cxmk (w.extractLsb' 11 5) (w.extractLsb' 6 5) (w.extractLsb' 0 4), 0x30#32, 0x0#32, 0x0#32⟩
  | 1 => .ok ⟨.cxgive (w.extractLsb' 11 5) (w.extractLsb' 6 5) (w.extractLsb' 0 4), 0x30#32, 0x0#32, 0x0#32⟩
  | 2 => .ok ⟨.cxrev (w.extractLsb' 11 5), 0x7FF#32, 0x0#32, 0x0#32⟩
  | 3 => .ok ⟨.cxrun (w.extractLsb' 11 5), 0x7FF#32, 0x0#32, 0x0#32⟩
  | 4 => .ok ⟨.cxsave (w.extractLsb' 11 5) (w.extractLsb' 6 5), 0x3F#32, 0x0#32, 0x0#32⟩
  | 5 => .ok ⟨.cxload (w.extractLsb' 11 5) (w.extractLsb' 6 5), 0x3F#32, 0x0#32, 0x0#32⟩
  | 6 => .ok ⟨.cxpend (w.extractLsb' 11 5) (w.extractLsb' 6 5), 0x3F#32, 0x0#32, 0x0#32⟩
  | 7 => .ok ⟨.cxq (w.extractLsb' 11 5) (w.extractLsb' 6 5) (w.extractLsb' 0 4), 0x30#32, 0x0#32, 0x0#32⟩
  | _ => .error .reservedOp

/-- The rows of major 0x19 XFORM, by its operation field. -/
def rowXform (w : BitVec 32) : Except DecodeErr Row :=
  match (w.extractLsb' 16 6).toNat with
  | 0 => .ok ⟨.apset (w.extractLsb' 11 5) (w.extractLsb' 6 5) (w.extractLsb' 0 4), 0x30#32, 0x0#32, 0x0#32⟩
  | 1 => .ok ⟨.apclr (w.extractLsb' 11 5), 0x7FF#32, 0x0#32, 0x0#32⟩
  | 2 => .ok ⟨.apq (w.extractLsb' 11 5) (w.extractLsb' 6 5), 0x3F#32, 0x0#32, 0x0#32⟩
  | _ => .error .reservedOp

/-- The one row of the majors 0x1C to 0x1F (R114). -/
def rowF20 (w : BitVec 32) : Except DecodeErr Row :=
  .ok ⟨.fli (w.extractLsb' 20 4) (w.extractLsb' 0 20), 0x0#32, 0x0#32, 0x0#32⟩

/-- The row of the opcode table that a syllable word belongs to (R109). -/
def rowOf (w : BitVec 32) : Except DecodeErr Row :=
  match (w.extractLsb' 22 5).toNat with
  | 0 => rowBr w
  | 1 => rowLoop w
  | 2 => rowSys w
  | 3 => rowPred w
  | 4 => rowInt w
  | 5 => rowInti w
  | 6 => rowFps w
  | 7 => rowCmp w
  | 8 => rowBit w
  | 9 => rowPath w
  | 10 => rowLmem w
  | 11 => rowLspec w
  | 12 => rowHmem w
  | 13 => rowHatom w
  | 14 => rowTint w
  | 15 => rowTfp w
  | 16 => rowTcvt w
  | 17 => rowTmov w
  | 18 => rowScale w
  | 19 => rowTcmp w
  | 20 => rowMxa w
  | 21 => rowMxb w
  | 22 => rowWalk w
  | 23 => rowLink w
  | 24 => rowCtx w
  | 25 => rowXform w
  | 26 => .error .reservedMajor
  | 27 => .error .reservedMajor
  | _ => rowF20 w

/-- The syllable that a word stands for, or the lowest cause of R119 that refuses it (R120). POS and GUARD (bits [31:27])
belong to the header that all syllables share (R107) and play no part. -/
def decode (w : BitVec 32) : Except DecodeErr Instr :=
  match rowOf w with
  | .error e => .error e
  | .ok r =>
    if w &&& r.varMask ≠ 0#32 || r.instr.reservedField then .error .reservedOp
    else if w &&& r.fixMask ≠ r.fixVal || r.instr.badUnused then .error .unusedField
    else if r.instr.badDest then .error .badOperand
    else if r.instr.badPair then .error .badPair
    else .ok r.instr

/-- The claim fields of a syllable word that hold 31, as the low bit positions of the fields in the order of R105. A claim counts
whether or not the syllable is legal and whether or not its guard is true. -/
def claimFields (w : BitVec 32) : List Nat :=
  let major := (w.extractLsb' 22 5).toNat
  let fields : List Nat :=
    if major ≤ 2 then [8, 3]
    else if major = 3 then []
    else if major = 5 then [12]
    else if major ≤ 9 then [8, 3]
    else if major ≤ 13 then [5]
    else if major = 18 then [8, 3]
    else if major ≤ 19 then (if w.getLsbD 10 then [5] else [])
    else if major ≤ 25 then [11, 6]
    else []
  fields.filter fun lo => w.extractLsb' lo 5 == 31#5


/-- The 32 bits of a syllable with the position code `pos` and the guard predicate `g` (R107, R112 to R117, R146, R147, R239). An event has no word. -/
def encode (pos : BitVec 2) (g : BitVec 3) : Instr → BitVec 32
  | .bset n a => pos ++ g ++ 0#9 ++ n ++ 0#3 ++ a ++ 0#8
  | .bsetr n a => pos ++ g ++ 1#9 ++ n ++ 0#3 ++ a ++ 0#8
  | .bgo n c => pos ++ g ++ 2#9 ++ n ++ c ++ 0#13
  | .bgon n c => pos ++ g ++ 3#9 ++ n ++ c ++ 0#13
  | .blink n c => pos ++ g ++ 4#9 ++ n ++ c ++ 0#13
  | .bback c a => pos ++ g ++ 20#11 ++ c ++ a ++ 0#8
  | .loop a b => pos ++ g ++ 512#14 ++ a ++ b ++ 0#3
  | .loopi i b => pos ++ g ++ 17#9 ++ i.extractLsb' 3 5 ++ 0#5 ++ b ++ i.extractLsb' 0 3
  | .lpipe s a b => pos ++ g ++ 36#10 ++ s ++ a ++ b ++ 0#3
  | .lbreak => pos ++ g ++ 4980736#27
  | .lidx d k => pos ++ g ++ 20#9 ++ d ++ 0#10 ++ k
  | .nop => pos ++ g ++ 8388608#27
  | .trap n => pos ++ g ++ 33#9 ++ n.extractLsb' 3 5 ++ 0#10 ++ n.extractLsb' 0 3
  | .eret => pos ++ g ++ 8912896#27
  | .wait a => pos ++ g ++ 1120#14 ++ a ++ 0#8
  | .waiti n => pos ++ g ++ 36#9 ++ n.extractLsb' 3 5 ++ 0#10 ++ n.extractLsb' 0 3
  | .kill a => pos ++ g ++ 1184#14 ++ a ++ 0#8
  | .killt t a => pos ++ g ++ 152#11 ++ t ++ a ++ 0#8
  | .fenceH => pos ++ g ++ 10223616#27
  | .fenceD => pos ++ g ++ 10223617#27
  | .rdsr d n => pos ++ g ++ 40#9 ++ d ++ n.extractLsb' 0 5 ++ 0#5 ++ n.extractLsb' 5 1 ++ 0#2
  | .wrsr n a => pos ++ g ++ 41#9 ++ n.extractLsb' 0 5 ++ a ++ 0#5 ++ n.extractLsb' 5 1 ++ 0#2
  | .phase n => pos ++ g ++ 42#9 ++ n.extractLsb' 3 5 ++ 0#10 ++ n.extractLsb' 0 3
  | .yield => pos ++ g ++ 11272192#27
  | .modeExposed => pos ++ g ++ 11534336#27
  | .modeInterlocked => pos ++ g ++ 11534337#27
  | .pand d a b => pos ++ g ++ 48#9 ++ d ++ a ++ b ++ 0#9
  | .por d a b => pos ++ g ++ 49#9 ++ d ++ a ++ b ++ 0#9
  | .pxor d a b => pos ++ g ++ 50#9 ++ d ++ a ++ b ++ 0#9
  | .pnot d a => pos ++ g ++ 51#9 ++ d ++ a ++ 0#12
  | .pmov d a => pos ++ g ++ 52#9 ++ d ++ a ++ 0#12
  | .vany d a b => pos ++ g ++ 53#9 ++ d ++ a ++ b ++ 0#9
  | .vall d a b => pos ++ g ++ 54#9 ++ d ++ a ++ b ++ 0#9
  | .pfirst d a b e => pos ++ g ++ 55#9 ++ d ++ a ++ b ++ 0#5 ++ e ++ 0#2
  | .pcnt a b d e => pos ++ g ++ 448#12 ++ a ++ b ++ d ++ e ++ 0#2
  | .add d a b v => pos ++ g ++ 64#9 ++ d ++ a ++ b ++ 0#1 ++ v
  | .sub d a b v => pos ++ g ++ 65#9 ++ d ++ a ++ b ++ 0#1 ++ v
  | .mul d a b => pos ++ g ++ 66#9 ++ d ++ a ++ b ++ 0#3
  | .mulh d a b => pos ++ g ++ 67#9 ++ d ++ a ++ b ++ 0#3
  | .mulhu d a b => pos ++ g ++ 68#9 ++ d ++ a ++ b ++ 0#3
  | .div d a b v => pos ++ g ++ 69#9 ++ d ++ a ++ b ++ 0#2 ++ v
  | .divu d a b v => pos ++ g ++ 70#9 ++ d ++ a ++ b ++ 0#2 ++ v
  | .and d a b => pos ++ g ++ 71#9 ++ d ++ a ++ b ++ 0#3
  | .or d a b => pos ++ g ++ 72#9 ++ d ++ a ++ b ++ 0#3
  | .xor d a b => pos ++ g ++ 73#9 ++ d ++ a ++ b ++ 0#3
  | .min d a b => pos ++ g ++ 74#9 ++ d ++ a ++ b ++ 0#3
  | .max d a b => pos ++ g ++ 75#9 ++ d ++ a ++ b ++ 0#3
  | .minu d a b => pos ++ g ++ 76#9 ++ d ++ a ++ b ++ 0#3
  | .maxu d a b => pos ++ g ++ 77#9 ++ d ++ a ++ b ++ 0#3
  | .sel d a b c => pos ++ g ++ 78#9 ++ d ++ a ++ b ++ c
  | .addi d a i => pos ++ g ++ 5#5 ++ d ++ a ++ 0#3 ++ i
  | .andi d a i => pos ++ g ++ 5#5 ++ d ++ a ++ 1#3 ++ i
  | .ori d a i => pos ++ g ++ 5#5 ++ d ++ a ++ 2#3 ++ i
  | .xori d a i => pos ++ g ++ 5#5 ++ d ++ a ++ 3#3 ++ i
  | .slti d a i => pos ++ g ++ 5#5 ++ d ++ a ++ 4#3 ++ i
  | .sltui d a i => pos ++ g ++ 5#5 ++ d ++ a ++ 5#3 ++ i
  | .fadd d a b q => pos ++ g ++ 96#9 ++ d ++ a ++ b ++ q ++ 0#2
  | .fsub d a b q => pos ++ g ++ 97#9 ++ d ++ a ++ b ++ q ++ 0#2
  | .fmul d a b q => pos ++ g ++ 98#9 ++ d ++ a ++ b ++ q ++ 0#2
  | .fma d a b q => pos ++ g ++ 99#9 ++ d ++ a ++ b ++ q ++ 0#2
  | .fmin d a b => pos ++ g ++ 100#9 ++ d ++ a ++ b ++ 0#3
  | .fmax d a b => pos ++ g ++ 101#9 ++ d ++ a ++ b ++ 0#3
  | .fneg d a => pos ++ g ++ 102#9 ++ d ++ a ++ 0#8
  | .fabs d a => pos ++ g ++ 103#9 ++ d ++ a ++ 0#8
  | .f2i d a q v => pos ++ g ++ 104#9 ++ d ++ a ++ 0#5 ++ q ++ v
  | .i2f d a q v => pos ++ g ++ 105#9 ++ d ++ a ++ 0#5 ++ q ++ 0#1 ++ v
  | .icmpEq p a b => pos ++ g ++ 448#11 ++ p ++ a ++ b ++ 0#3
  | .icmpNe p a b => pos ++ g ++ 452#11 ++ p ++ a ++ b ++ 0#3
  | .icmpLt p a b => pos ++ g ++ 456#11 ++ p ++ a ++ b ++ 0#3
  | .icmpLtu p a b => pos ++ g ++ 460#11 ++ p ++ a ++ b ++ 0#3
  | .icmpLe p a b => pos ++ g ++ 464#11 ++ p ++ a ++ b ++ 0#3
  | .icmpLeu p a b => pos ++ g ++ 468#11 ++ p ++ a ++ b ++ 0#3
  | .fcmpEq p a b q => pos ++ g ++ 472#11 ++ p ++ a ++ b ++ q ++ 0#2
  | .fcmpLt p a b q => pos ++ g ++ 476#11 ++ p ++ a ++ b ++ q ++ 0#2
  | .fcmpLe p a b q => pos ++ g ++ 480#11 ++ p ++ a ++ b ++ q ++ 0#2
  | .fcmpUn p a b q => pos ++ g ++ 484#11 ++ p ++ a ++ b ++ q ++ 0#2
  | .shl d a b => pos ++ g ++ 128#9 ++ d ++ a ++ b ++ 0#3
  | .shr d a b => pos ++ g ++ 129#9 ++ d ++ a ++ b ++ 0#3
  | .sra d a b => pos ++ g ++ 130#9 ++ d ++ a ++ b ++ 0#3
  | .rol d a b => pos ++ g ++ 131#9 ++ d ++ a ++ b ++ 0#3
  | .fsh d n b => pos ++ g ++ 132#9 ++ d ++ n ++ b ++ 0#3
  | .fshr d n b => pos ++ g ++ 133#9 ++ d ++ n ++ b ++ 0#3
  | .clz d a => pos ++ g ++ 134#9 ++ d ++ a ++ 0#8
  | .ctz d a => pos ++ g ++ 135#9 ++ d ++ a ++ 0#8
  | .popc d a => pos ++ g ++ 136#9 ++ d ++ a ++ 0#8
  | .bext d a b v => pos ++ g ++ 137#9 ++ d ++ a ++ b ++ 0#2 ++ v
  | .bins d a b => pos ++ g ++ 138#9 ++ d ++ a ++ b ++ 0#3
  | .bswap d a v => pos ++ g ++ 139#9 ++ d ++ a ++ 0#7 ++ v
  | .cpack d a b => pos ++ g ++ 144#9 ++ d ++ a ++ b ++ 0#3
  | .cadd d a b => pos ++ g ++ 145#9 ++ d ++ a ++ b ++ 0#3
  | .crow d a => pos ++ g ++ 146#9 ++ d ++ a ++ 0#8
  | .ccol d a => pos ++ g ++ 147#9 ++ d ++ a ++ 0#8
  | .bxdim d h k => pos ++ g ++ 148#9 ++ d ++ 0#1 ++ h ++ 0#6 ++ k
  | .bxok d h b v => pos ++ g ++ 149#9 ++ d ++ 0#1 ++ h ++ b ++ 0#1 ++ v
  | .fli d i => pos ++ g ++ 7#3 ++ d ++ i
  | .lmemLdb d h p f => pos ++ g ++ 80#8 ++ d ++ h ++ p ++ f
  | .lmemLdh d h p f => pos ++ g ++ 81#8 ++ d ++ h ++ p ++ f
  | .lmemLdw d h p f => pos ++ g ++ 82#8 ++ d ++ h ++ p ++ f
  | .lmemStb s h p f => pos ++ g ++ 83#8 ++ s ++ h ++ p ++ f
  | .lmemSth s h p f => pos ++ g ++ 84#8 ++ s ++ h ++ p ++ f
  | .lmemStw s h p f => pos ++ g ++ 85#8 ++ s ++ h ++ p ++ f
  | .lmemTldr t c h p f => pos ++ g ++ 86#8 ++ t ++ c ++ h ++ p ++ f
  | .lmemTstr t c h p f => pos ++ g ++ 87#8 ++ t ++ c ++ h ++ p ++ f
  | .hmemLdb d h p f => pos ++ g ++ 96#8 ++ d ++ h ++ p ++ f
  | .hmemLdh d h p f => pos ++ g ++ 97#8 ++ d ++ h ++ p ++ f
  | .hmemLdw d h p f => pos ++ g ++ 98#8 ++ d ++ h ++ p ++ f
  | .hmemStb s h p f => pos ++ g ++ 99#8 ++ s ++ h ++ p ++ f
  | .hmemSth s h p f => pos ++ g ++ 100#8 ++ s ++ h ++ p ++ f
  | .hmemStw s h p f => pos ++ g ++ 101#8 ++ s ++ h ++ p ++ f
  | .hmemTldr t c h p f => pos ++ g ++ 102#8 ++ t ++ c ++ h ++ p ++ f
  | .hmemTstr t c h p f => pos ++ g ++ 103#8 ++ t ++ c ++ h ++ p ++ f
  | .ldwa d h p f => pos ++ g ++ 88#8 ++ d ++ h ++ p ++ f
  | .ldwc d h p f => pos ++ g ++ 89#8 ++ d ++ h ++ p ++ f
  | .tldra t c h p f => pos ++ g ++ 90#8 ++ t ++ 0#1 ++ c ++ h ++ p ++ f
  | .tldrc t c h p f => pos ++ g ++ 91#8 ++ t ++ 0#1 ++ c ++ h ++ p ++ f
  | .atclr h p f => pos ++ g ++ 2944#13 ++ h ++ p ++ f
  | .atclrAll => pos ++ g ++ 48250880#27
  | .amadd n h p f => pos ++ g ++ 104#8 ++ n ++ h ++ p ++ f
  | .amswap n h p f => pos ++ g ++ 105#8 ++ n ++ h ++ p ++ f
  | .amcas n h p f => pos ++ g ++ 106#8 ++ n ++ h ++ p ++ f
  | .ammin n h p f => pos ++ g ++ 107#8 ++ n ++ h ++ p ++ f
  | .ammax n h p f => pos ++ g ++ 108#8 ++ n ++ h ++ p ++ f
  | .amand n h p f => pos ++ g ++ 109#8 ++ n ++ h ++ p ++ f
  | .amor n h p f => pos ++ g ++ 110#8 ++ n ++ h ++ p ++ f
  | .amxor n h p f => pos ++ g ++ 111#8 ++ n ++ h ++ p ++ f
  | .tadd d a s b f w q => pos ++ g ++ 448#10 ++ d ++ a ++ s ++ b ++ f ++ w ++ q
  | .taddSat d a s b f w q => pos ++ g ++ 449#10 ++ d ++ a ++ s ++ b ++ f ++ w ++ q
  | .tsub d a s b f w q => pos ++ g ++ 450#10 ++ d ++ a ++ s ++ b ++ f ++ w ++ q
  | .tsubSat d a s b f w q => pos ++ g ++ 451#10 ++ d ++ a ++ s ++ b ++ f ++ w ++ q
  | .tmul d a s b f w q => pos ++ g ++ 452#10 ++ d ++ a ++ s ++ b ++ f ++ w ++ q
  | .tmulSat d a s b f w q => pos ++ g ++ 453#10 ++ d ++ a ++ s ++ b ++ f ++ w ++ q
  | .tmulh d a s b f w q => pos ++ g ++ 454#10 ++ d ++ a ++ s ++ b ++ f ++ w ++ q
  | .tmin d a s b f w q => pos ++ g ++ 455#10 ++ d ++ a ++ s ++ b ++ f ++ w ++ q
  | .tmax d a s b f w q => pos ++ g ++ 456#10 ++ d ++ a ++ s ++ b ++ f ++ w ++ q
  | .tand d a s b f w q => pos ++ g ++ 457#10 ++ d ++ a ++ s ++ b ++ f ++ w ++ q
  | .tor d a s b f w q => pos ++ g ++ 458#10 ++ d ++ a ++ s ++ b ++ f ++ w ++ q
  | .txor d a s b f w q => pos ++ g ++ 459#10 ++ d ++ a ++ s ++ b ++ f ++ w ++ q
  | .tshl d a s b f w q => pos ++ g ++ 460#10 ++ d ++ a ++ s ++ b ++ f ++ w ++ q
  | .tshr d a s b f w q => pos ++ g ++ 461#10 ++ d ++ a ++ s ++ b ++ f ++ w ++ q
  | .tsra d a s b f w q => pos ++ g ++ 462#10 ++ d ++ a ++ s ++ b ++ f ++ w ++ q
  | .tfsh d a s b f w q => pos ++ g ++ 463#10 ++ d ++ a ++ s ++ b ++ f ++ w ++ q
  | .tabs d a f w q => pos ++ g ++ 464#10 ++ d ++ a ++ 0#6 ++ f ++ w ++ q
  | .tabsSat d a f w q => pos ++ g ++ 465#10 ++ d ++ a ++ 0#6 ++ f ++ w ++ q
  | .tnegSat d a f w q => pos ++ g ++ 466#10 ++ d ++ a ++ 0#6 ++ f ++ w ++ q
  | .tfadd d a s b f w q => pos ++ g ++ 480#10 ++ d ++ a ++ s ++ b ++ f ++ w ++ q
  | .tfsub d a s b f w q => pos ++ g ++ 481#10 ++ d ++ a ++ s ++ b ++ f ++ w ++ q
  | .tfmul d a s b f w q => pos ++ g ++ 482#10 ++ d ++ a ++ s ++ b ++ f ++ w ++ q
  | .tfma d a s b f w q => pos ++ g ++ 483#10 ++ d ++ a ++ s ++ b ++ f ++ w ++ q
  | .tfmin d a s b f w q => pos ++ g ++ 484#10 ++ d ++ a ++ s ++ b ++ f ++ w ++ q
  | .tfmax d a s b f w q => pos ++ g ++ 485#10 ++ d ++ a ++ s ++ b ++ f ++ w ++ q
  | .tfabs d a f w q => pos ++ g ++ 486#10 ++ d ++ a ++ 0#6 ++ f ++ w ++ q
  | .tfrint d a f w q => pos ++ g ++ 487#10 ++ d ++ a ++ 0#6 ++ f ++ w ++ q
  | .tfexp d a f w q => pos ++ g ++ 488#10 ++ d ++ a ++ 0#6 ++ f ++ w ++ q
  | .tfins d a s b f w q => pos ++ g ++ 489#10 ++ d ++ a ++ s ++ b ++ f ++ w ++ q
  | .tfrcp d a f w q => pos ++ g ++ 490#10 ++ d ++ a ++ 0#6 ++ f ++ w ++ q
  | .tfrsq d a f w q => pos ++ g ++ 491#10 ++ d ++ a ++ 0#6 ++ f ++ w ++ q
  | .tcmpEq d a s b f w q => pos ++ g ++ 608#10 ++ d ++ a ++ s ++ b ++ f ++ w ++ q
  | .tcmpNe d a s b f w q => pos ++ g ++ 609#10 ++ d ++ a ++ s ++ b ++ f ++ w ++ q
  | .tcmpLt d a s b f w q => pos ++ g ++ 610#10 ++ d ++ a ++ s ++ b ++ f ++ w ++ q
  | .tcmpLe d a s b f w q => pos ++ g ++ 611#10 ++ d ++ a ++ s ++ b ++ f ++ w ++ q
  | .tcmpGt d a s b f w q => pos ++ g ++ 612#10 ++ d ++ a ++ s ++ b ++ f ++ w ++ q
  | .tcmpGe d a s b f w q => pos ++ g ++ 613#10 ++ d ++ a ++ s ++ b ++ f ++ w ++ q
  | .tfcmpEq d a s b f w q => pos ++ g ++ 616#10 ++ d ++ a ++ s ++ b ++ f ++ w ++ q
  | .tfcmpLt d a s b f w q => pos ++ g ++ 617#10 ++ d ++ a ++ s ++ b ++ f ++ w ++ q
  | .tfcmpLe d a s b f w q => pos ++ g ++ 618#10 ++ d ++ a ++ s ++ b ++ f ++ w ++ q
  | .tfcmpUn d a s b f w q => pos ++ g ++ 619#10 ++ d ++ a ++ s ++ b ++ f ++ w ++ q
  | .tfcmpGt d a s b f w q => pos ++ g ++ 620#10 ++ d ++ a ++ s ++ b ++ f ++ w ++ q
  | .tfcmpGe d a s b f w q => pos ++ g ++ 621#10 ++ d ++ a ++ s ++ b ++ f ++ w ++ q
  | .tcvt x d a k f w q => pos ++ g ++ 64#7 ++ x ++ d ++ a ++ 0#3 ++ k ++ f ++ w ++ q
  | .tcvtSat x d a k f w q => pos ++ g ++ 65#7 ++ x ++ d ++ a ++ 0#3 ++ k ++ f ++ w ++ q
  | .tquant n d a f w q => pos ++ g ++ 66#7 ++ n ++ d ++ a ++ 0#6 ++ f ++ w ++ q
  | .tdeq d a n f w q => pos ++ g ++ 536#10 ++ d ++ a ++ 0#3 ++ n ++ f ++ w ++ q
  | .tdeqHi d a n f w q => pos ++ g ++ 537#10 ++ d ++ a ++ 0#3 ++ n ++ f ++ w ++ q
  | .tscx k a n w q => pos ++ g ++ 538#10 ++ k ++ a ++ 0#3 ++ n ++ 6#3 ++ w ++ q
  | .tscxHi k a n w q => pos ++ g ++ 539#10 ++ k ++ a ++ 0#3 ++ n ++ 6#3 ++ w ++ q
  | .tdeqU d a n f w q => pos ++ g ++ 540#10 ++ d ++ a ++ 0#3 ++ n ++ f ++ w ++ q
  | .tdeqUHi d a n f w q => pos ++ g ++ 541#10 ++ d ++ a ++ 0#3 ++ n ++ f ++ w ++ q
  | .tmov d a f w q => pos ++ g ++ 544#10 ++ d ++ a ++ 0#6 ++ f ++ w ++ q
  | .tbcast d b f w q => pos ++ g ++ 545#10 ++ d ++ 1#4 ++ b ++ f ++ w ++ q
  | .tbcastL d a b f w q => pos ++ g ++ 546#10 ++ d ++ a ++ 1#1 ++ b ++ f ++ w ++ q
  | .trot d a b f w q => pos ++ g ++ 547#10 ++ d ++ a ++ 1#1 ++ b ++ f ++ w ++ q
  | .tshuf d a b f w q => pos ++ g ++ 548#10 ++ d ++ a ++ 0#3 ++ b ++ f ++ w ++ q
  | .tredMax d a b f w q => pos ++ g ++ 549#10 ++ d ++ a ++ 1#1 ++ b ++ f ++ w ++ q
  | .tredMin d a b f w q => pos ++ g ++ 550#10 ++ d ++ a ++ 1#1 ++ b ++ f ++ w ++ q
  | .tredAdd d a b f w q => pos ++ g ++ 551#10 ++ d ++ a ++ 1#1 ++ b ++ f ++ w ++ q
  | .tsel d a s b f w q => pos ++ g ++ 552#10 ++ d ++ a ++ s ++ b ++ f ++ w ++ q
  | .tpack d a b f w q => pos ++ g ++ 553#10 ++ d ++ a ++ 0#3 ++ b ++ f ++ w ++ q
  | .tunpk d a b f w q => pos ++ g ++ 554#10 ++ d ++ a ++ 1#1 ++ b ++ f ++ w ++ q
  | .ttrans d a f q => pos ++ g ++ 555#10 ++ d ++ a ++ 0#6 ++ f ++ 1#1 ++ q
  | .kld h a k => pos ++ g ++ 288#9 ++ h ++ 0#1 ++ a ++ 0#5 ++ k
  | .kst h a k => pos ++ g ++ 289#9 ++ h ++ 0#1 ++ a ++ 0#5 ++ k
  | .kbase a => pos ++ g ++ 9280#14 ++ a ++ 0#8
  | .krow a => pos ++ g ++ 9312#14 ++ a ++ 0#8
  | .kset a b k => pos ++ g ++ 9344#14 ++ a ++ b ++ k
  | .ksetAll a k => pos ++ g ++ 9345#14 ++ a ++ 0#5 ++ k
  | .mload w => pos ++ g ++ 41943040#26 ++ w
  | .mrun a s w q => pos ++ g ++ 1281#11 ++ a ++ 0#5 ++ s ++ w ++ q ++ 0#2
  | .mzero s => pos ++ g ++ 1312768#21 ++ s ++ 0#4
  | .mread a s d => pos ++ g ++ 1283#11 ++ a ++ 0#5 ++ s ++ 0#1 ++ d
  | .mspillAcc s => pos ++ g ++ 2629632#22 ++ s ++ 0#3
  | .mspillSlot w => pos ++ g ++ 5259266#23 ++ w ++ 0#3
  | .mfillAcc s => pos ++ g ++ 2631680#22 ++ s ++ 0#3
  | .mfillSlot w => pos ++ g ++ 5263362#23 ++ w ++ 0#3
  | .menc a q => pos ++ g ++ 1344#11 ++ a ++ 0#10 ++ q
  | .mcomp a => pos ++ g ++ 1345#11 ++ a ++ 0#11
  | .mprog a b c e => pos ++ g ++ 1346#11 ++ a ++ b ++ c ++ 2#2 ++ e
  | .mprogOpen a c e => pos ++ g ++ 1346#11 ++ a ++ 0#5 ++ c ++ 3#2 ++ e
  | .mprogClr e => pos ++ g ++ 22052864#25 ++ e
  | .mgeoA a => pos ++ g ++ 1347#11 ++ a ++ 0#11
  | .mgeoW a b => pos ++ g ++ 1347#11 ++ a ++ b ++ 1#6
  | .mgeoD a b => pos ++ g ++ 1347#11 ++ a ++ b ++ 2#6
  | .mgeoN a b => pos ++ g ++ 1347#11 ++ a ++ b ++ 3#6
  | .wcopy a b o f => pos ++ g ++ 1408#11 ++ a ++ b ++ o ++ f
  | .wmcast a b o f => pos ++ g ++ 1409#11 ++ a ++ b ++ o ++ f
  | .wgath a b o f => pos ++ g ++ 1410#11 ++ a ++ b ++ o ++ f
  | .wscat a b o f => pos ++ g ++ 1411#11 ++ a ++ b ++ o ++ f
  | .wprom d k => pos ++ g ++ 1412#11 ++ d ++ 0#5 ++ k
  | .wamoAdd n p h => pos ++ g ++ 1413#11 ++ n ++ p ++ 0#2 ++ h
  | .wamoSwap n p h => pos ++ g ++ 1413#11 ++ n ++ p ++ 1#2 ++ h
  | .wamoCas n p h => pos ++ g ++ 1413#11 ++ n ++ p ++ 2#2 ++ h
  | .wamoMax n p h => pos ++ g ++ 1413#11 ++ n ++ p ++ 3#2 ++ h
  | .wgeo a b n => pos ++ g ++ 1414#11 ++ a ++ b ++ n ++ 0#3
  | .wgeoHi a b n => pos ++ g ++ 1414#11 ++ a ++ b ++ n ++ 1#3
  | .wgeoTab a b n => pos ++ g ++ 1414#11 ++ a ++ b ++ n ++ 2#3
  | .wsnap a b => pos ++ g ++ 1415#11 ++ a ++ b ++ 0#6
  | .wcall a b n => pos ++ g ++ 1416#11 ++ a ++ b ++ 0#1 ++ n
  | .wret => pos ++ g ++ 92864512#27
  | .wjoin => pos ++ g ++ 92930048#27
  | .lsend a b p => pos ++ g ++ 1472#11 ++ a ++ b ++ 0#1 ++ p
  | .lrecv a b p => pos ++ g ++ 1473#11 ++ a ++ b ++ 0#1 ++ p
  | .llat d p => pos ++ g ++ 1474#11 ++ d ++ 0#6 ++ p
  | .gcyc d k => pos ++ g ++ 1475#11 ++ d ++ 0#10 ++ k
  | .gmeas d p => pos ++ g ++ 1476#11 ++ d ++ 0#6 ++ p
  | .gadj a s => pos ++ g ++ 1477#11 ++ a ++ 0#8 ++ s
  | .lpair a p => pos ++ g ++ 1478#11 ++ a ++ 0#6 ++ p
  | .cxmk n p h => pos ++ g ++ 1536#11 ++ n ++ p ++ 0#2 ++ h
  | .cxgive a p h => pos ++ g ++ 1537#11 ++ a ++ p ++ 0#2 ++ h
  | .cxrev a => pos ++ g ++ 1538#11 ++ a ++ 0#11
  | .cxrun a => pos ++ g ++ 1539#11 ++ a ++ 0#11
  | .cxsave n b => pos ++ g ++ 1540#11 ++ n ++ b ++ 0#6
  | .cxload n b => pos ++ g ++ 1541#11 ++ n ++ b ++ 0#6
  | .cxpend d b => pos ++ g ++ 1542#11 ++ d ++ b ++ 0#6
  | .cxq n p h => pos ++ g ++ 1543#11 ++ n ++ p ++ 0#2 ++ h
  | .apset n p h => pos ++ g ++ 1600#11 ++ n ++ p ++ 0#2 ++ h
  | .apclr a => pos ++ g ++ 1601#11 ++ a ++ 0#11
  | .apq d b => pos ++ g ++ 1602#11 ++ d ++ b ++ 0#6
  | _ => 0#32

/-- The instruction the decoder reads from a table word: bit 0 is the least significant bit of the one syllable word. A syllable
has 32 bits; a literal it claims stands in a word of its own after the bundle's syllables and is no part of the decoding. -/
def decodeTableWord (nbits w : Nat) : Option Instr :=
  if nbits ≤ 32 then
    match decode (BitVec.ofNat 32 w) with
    | .ok i => some i
    | .error _ => none
  else none

end Sys2Proof
end

