-- ==== Sys2Proof/Machine/Frame.lean ====
section
/-! DEFINITION. Frame.lean: how a core reads the words of its instruction store as bundles (R100 to R106): framing, literal
claims, slot order, and the decoding of a whole bundle with the one cause that R120 reports. -/

namespace Sys2Proof.Machine

/-- A word of a herd's instruction store; words beyond the code read as zero (R100). -/
def Herd.word (x : Herd) (i : Nat) : Word := x.store.getD i 0

/-- The position code of a word (R107). -/
def posOf (w : Word) : Nat := (w >>> 30).toNat

/-- A bundle as its words frame it (R103, R105): the syllables, how many literals they claim, and whether framing is broken. -/
structure Framed where
  sylls : List Word
  claims : Nat
  broken : Bool
deriving DecidableEq, Repr

/-- The words of a run after its first: up to a word of code 01, at most `k` of them; none when framing breaks. -/
def runFrom (word : Nat → Word) : Nat → Nat → Option (List Word)
  | 0, _ => .none
  | k + 1, i =>
    let w := word i
    match posOf w with
    | 0 => (runFrom word k (i + 1)).map (w :: ·)
    | 1 => .some [w]
    | _ => .none

/-- The bundle at word pc (R103). A broken one counts as its first word alone. -/
def frameAt (word : Nat → Word) (pc : Nat) : Framed :=
  let w := word pc
  let sylls : Option (List Word) := match posOf w with
    | 3 => .some [w]
    | 2 => (runFrom word 7 (pc + 1)).map (w :: ·)
    | _ => .none
  match sylls with
  | .none => { sylls := [w], claims := 0, broken := true }
  | .some l =>
    let n := (l.map fun w => (claimFields w).length).sum
    { sylls := l, claims := n, broken := decide (65536 < pc + l.length + min 2 n) }

/-- The word after a bundle (R106). -/
def Framed.next (f : Framed) (pc : Nat) : Nat := pc + f.sylls.length + min 2 f.claims

/-- The place of a slot class in canonical order: C 0, A and B 1, L 3, H 4, V 5, K 6, X 7 (R104, R128). -/
def classRank : SlotClass → Nat
  | .c => 0 | .ab => 1 | .l => 3 | .h => 4 | .v => 5 | .k => 6 | .x => 7

/-- The slot of the next syllable given the slots so far, the latest first; none when it breaks R104. A syllable of a reserved
major has no class and takes part in no order. -/
def slotFor (w : Word) (slots : List Nat) : Option Nat :=
  match slotClassOf (BitVec.extractLsb' 22 5 w).toNat with
  | .none => .some 8
  | .some cl =>
    let r := classRank cl
    let before := slots.filter (· ≠ 8)
    match before with
    | [] => .some r
    | p :: _ =>
      if r = 1 then (if p = 1 then .some 2 else if p < 1 then .some 1 else .none)
      else if p < r then .some r else .none

/-- The least cause of one syllable (R119, R120); 4 for a broken slot order. -/
def syllableCause (w : Word) (slot : Option Nat) : Option Nat :=
  match decode w, slot with
  | .error e, .some _ => .some e.cause
  | .error e, .none => .some (min 4 e.cause)
  | .ok _, .none => .some 4
  | .ok _, .some _ => .none

/-- The syllables of a bundle in slot order with their literals, or the first offending syllable's cause (R120). -/
def decodeSylls : List Word → List Nat → List Word → Except Nat (List Syl)
  | [], _, _ => .ok []
  | w :: l, slots, lits =>
    let slot := slotFor w slots
    match syllableCause w slot, decode w with
    | .none, .ok i =>
      let n := (claimFields w).length
      match decodeSylls l (slot.getD 8 :: slots) (lits.drop n) with
      | .ok rest =>
        .ok ({ slot := slot.getD 8, guard := (BitVec.extractLsb' 27 3 w).toNat, instr := i, lits := lits.take n } :: rest)
      | .error e => .error e
    | .some e, _ => .error e
    | .none, .error e => .error e.cause

/-- The bundle at word pc decoded (R119, R120): causes 3 and 5 first, then the first offending syllable's. -/
def decodeBundle (word : Nat → Word) (pc : Nat) : Except Nat (List Syl) :=
  let f := frameAt word pc
  if f.broken then .error 3
  else if 2 < f.claims then .error 5
  else decodeSylls f.sylls [] ((List.range f.claims).map fun i => word (pc + f.sylls.length + i))

/-- The class of a decode cause: 7 and 10 are illegal operands, the others illegal instructions (R385). -/
def causeClass (c : Nat) : Nat := if c = 7 || c = 10 then 2 else 1

/-- The words that the executing core fetches. -/
def State.word (s : State) (i : Nat) : Word := (s.herd s.cur.herd).word i

/-- The word index after the bundle at pc in the executing core's store. -/
def State.after (s : State) (pc : Nat) : Nat := (frameAt s.word pc).next pc

end Sys2Proof.Machine
end

