-- ==== Sys2Proof/Machine/Control.lean ====
section
/-! DEFINITION. Control.lean: the meanings of slot C (R146 to R170): transfers, predicates, hardware loops and system syllables;
and the end of a bundle, which settles where flow goes (R149, R151, R155, R156), what holds the next bundle (R163, R165), and
takes the software trap or the return that the bundle holds (R162, R386). -/

namespace Sys2Proof.Machine

/-! ### The back-edge (R156, R160) -/

/-- The loop stack, where flow goes next and whether that is a landing, the entry that a clamp saves, and whether a KIND 0 body ended. -/
structure Flow where
  loops : List LoopEntry
  next : BitVec 16
  land : Bool
  saved : Option LoopEntry
  body : Bool
deriving DecidableEq, Repr

/-- The clamp of R160, decided at the entry's first END test after the request. An entry of which an `lbreak` has set CLAMP is not clamped:
its loop is left early all the same (DEDUCED, log entry 51). -/
def clampEntry (e : LoopEntry) (f : Flow) : LoopEntry × Flow :=
  let st := e.sm1.toNat + 1
  if e.ask then
    let e := { e with ask := false }
    if !e.clamp && decide (e.index.toNat + 2 * st ≤ e.count.toNat) then
      ({ e with clamp := true }, { f with saved := .some { e with index := e.index + BitVec.ofNat 32 st, clamp := false, resume := true } })
    else (e, f)
  else (e, f)

/-- The back-edge of the bundle at p: seq follows it in sequence. The stack holds at most six entries. -/
def backEdge : Nat → BitVec 16 → BitVec 16 → Flow → Flow
  | 0, _, _, f => f
  | n + 1, p, seq, f =>
    match f.loops with
    | [] => f
    | e :: l =>
      if e.fin ≠ p then f
      else if !e.kind then
        if e.index.toNat + 1 < e.count.toNat then
          { f with loops := { e with index := e.index + 1 } :: l, next := e.start, land := true, body := true }
        else backEdge n p seq { f with loops := l, next := seq, land := false, body := true }
      else
        let (e, f) := clampEntry e f
        if !e.clamp && e.index.toNat + (e.sm1.toNat + 1) < e.count.toNat then
          { f with loops := { e with index := e.index + 1 } :: l, next := e.start, land := true }
        else backEdge n p seq { f with loops := l, next := e.epi, land := true }

/-- Where flow goes after the bundle at p, whose successor in sequence is seq, with the core's loop stack and clamp. -/
def Core.flow (k : Core) (p seq : BitVec 16) : Flow :=
  backEdge 7 p seq
    { loops := k.r.loops, next := seq, land := false, saved := k.clampSaved, body := false }

/-- The pending transfer counts this bundle (R149, R151): the next word, whether it is a landing, and what stays pending. -/
def transferNext (x : Option Transfer) (f : Flow) : BitVec 16 × Bool × Option Transfer :=
  match x with
  | .none => (f.next, f.land, .none)
  | .some t =>
    if t.fresh then
      if t.left = 0 then (t.target, true, .none) else (f.next, f.land, .some { t with fresh := false })
    else if t.left ≤ 1 then (t.target, true, .none)
    else (f.next, f.land, .some { t with left := t.left - 1 })

/-- The next bundle may issue at cycle t when its gate opens, unless a hold without a known end stands (R377, R418, R395). -/
def State.holdNext (s : State) (h c : Nat) (hold : Hold) (gate : Gate) (t : Nat) : State :=
  let s := s.modCore h c fun k => { k with hold := hold, gate := gate }
  match hold with
  | .none => s.planIssue h c t
  | .wait => (s.planEv t 0 0 .waitExpiry { a := h, b := c }).planIssue h c t
  | .join | .call | .engine | .reflected | .stopped => s.modCore h c fun k => { k with issueAt := t }

/-- The bundle has committed whole: flow is settled, the next bundle planned, and the bundle's software trap or `eret` taken. -/
def State.finishBundle (s : State) : State :=
  let h := s.cur.herd
  let c := s.cur.core
  let fl := s.me.flow s.cur.pc s.cur.next
  let (pc, land, x) := transferNext s.R.xfer fl
  let soft := s.R.softTrap
  let s := s.modMe fun k =>
    { k with
      clampSaved := fl.saved
      r := { k.r with
        loops := fl.loops, pc := pc, landing := land, xfer := x, resume := 0, resumeSeq := 0, ixHold := .none, softTrap := .none
        carry := {} } }
  let s := { s with cur := { s.cur with done := true, endBody := fl.body } }
  let s := s.holdNext h c s.cur.hold s.cur.gate s.cur.nextAt
  match soft with
  | .some n => s.trapHere { cls := 0, cause := n.toNat } 0 s.cur.pc (.some pc)
  | .none => if s.cur.eret then s.returnFromTrap h c (s.tick + 1) else s

/-- The bundle ends here when no syllable of it is left to commit; otherwise its end comes with the last one (R386). -/
def State.endIfLast (s : State) : State := if s.latch.isEmpty then s.finishBundle else s

/-! ### BR (R148 to R151) -/

/-- `bset` (R148). -/
def execBset (n : BitVec 2) (a : BitVec 5) (s : State) : Out :=
  s.answer do
    let x ← s.src a 0
    return (s.notePbnd [a]).put 1 (.branch n.toNat) (wide (x.setWidth 16 |>.setWidth 32))

/-- `bsetr` (R148): relative to the bundle's first word. -/
def execBsetr (n : BitVec 2) (a : BitVec 5) (s : State) : Out :=
  s.answer do
    let x ← s.src a 0
    return (s.notePbnd [a]).put 1 (.branch n.toNat) (((s.cur.pc + x.setWidth 16).setWidth 512))

/-- A taken transfer: two delay bundles, then the target (R149). -/
def State.transfer (s : State) (target : BitVec 16) : State :=
  s.modR fun r => { r with xfer := .some { target := target, left := 2 } }

/-- `bgo` (R149). -/
def execBgo (n : BitVec 2) (c : BitVec 3) (s : State) : Out :=
  .next (if s.predBit c.toNat then s.transfer (s.R.bt.getD n.toNat 0) else s)

/-- `bgon` (R149). -/
def execBgon (n : BitVec 2) (c : BitVec 3) (s : State) : Out :=
  .next (if s.predBit c.toNat then s else s.transfer (s.R.bt.getD n.toNat 0))

/-- The word after the second delay bundle: the two bundles that follow this one, a loop's back-edge among them (R149). -/
def State.returnAddress (s : State) : BitVec 16 :=
  let first := (s.me.flow s.cur.pc s.cur.next).next
  BitVec.ofNat 16 (s.after (s.after first.toNat))

/-- `blink` (R149): when taken, s23 takes the return address with the second delay bundle. -/
def execBlink (n : BitVec 2) (c : BitVec 3) (s : State) : Out :=
  s.answer do
    if s.predBit c.toNat then
      s.room 3 0
      return (s.transfer (s.R.bt.getD n.toNat 0)).put 3 (.scalar 23) (s.returnAddress.setWidth 512)
    else return s

/-- `bback` (R149). -/
def execBback (c : BitVec 3) (a : BitVec 5) (s : State) : Out :=
  s.answer do
    let x ← s.src a 0
    let s := s.notePbnd [a]
    return if s.predBit c.toNat then s.transfer (x.setWidth 16) else s

/-! ### PRED (R152) -/

/-- `pand` (R152). -/
def execPand (d a b : BitVec 3) (s : State) : Out := .next (s.predOp d (s.R.pred a.toNat &&& s.R.pred b.toNat))

/-- `por` (R152). -/
def execPor (d a b : BitVec 3) (s : State) : Out := .next (s.predOp d (s.R.pred a.toNat ||| s.R.pred b.toNat))

/-- `pxor` (R152). -/
def execPxor (d a b : BitVec 3) (s : State) : Out := .next (s.predOp d (s.R.pred a.toNat ^^^ s.R.pred b.toNat))

/-- `pnot` (R152). -/
def execPnot (d a : BitVec 3) (s : State) : Out := .next (s.predOp d (~~~ s.R.pred a.toNat))

/-- `pmov` (R152). -/
def execPmov (d a : BitVec 3) (s : State) : Out := .next (s.predOp d (s.R.pred a.toNat))

/-- `vany` (R152). -/
def execVany (d a b : BitVec 3) (s : State) : Out :=
  .next (s.predOp d (if s.R.pred a.toNat &&& s.R.pred b.toNat = 0 then 0 else BitVec.allOnes 64))

/-- `vall` (R152). -/
def execVall (d a b : BitVec 3) (s : State) : Out :=
  .next (s.predOp d (if s.R.pred a.toNat &&& s.R.pred b.toNat = s.R.pred b.toNat then BitVec.allOnes 64 else 0))

/-- The elements of 2^e bytes that are enabled: those whose lowest byte has its bit (R152, R125). -/
def enabledElems (m : Mask) (e : Nat) : List Nat :=
  (List.range (64 / 2 ^ e)).filter fun i => m.getLsbD (i * 2 ^ e)

/-- `pfirst` (R152). -/
def execPfirst (d a b : BitVec 3) (e : BitVec 2) (s : State) : Out :=
  .next (s.predOp d (match enabledElems (s.R.pred a.toNat &&& s.R.pred b.toNat) e.toNat with
    | i :: _ => BitVec.ofNat 64 ((2 ^ 2 ^ e.toNat - 1) * 2 ^ (i * 2 ^ e.toNat))
    | [] => 0))

/-- `pcnt` (R152). -/
def execPcnt (a b : BitVec 3) (d : BitVec 5) (e : BitVec 2) (s : State) : Out :=
  .next (s.put 1 (.scalar d.toNat)
    (BitVec.ofNat 512 (enabledElems (s.R.pred a.toNat &&& s.R.pred b.toNat) e.toNat).length))

/-! ### LOOP (R153 to R159) -/

/-- A loop entry pushed (R155): the illegal-instruction trap with cause 10 when six are active. -/
def State.pushLoop (s : State) (e : LoopEntry) : Res State :=
  if 6 ≤ s.R.loops.length then raise 1 10
  else .ok (s.modR fun r => { r with loops := e :: r.loops })

/-- A body that does not run: flow passes to the bundle after the END bundle, with no delay bundle (R155). -/
def State.skipLoop (s : State) (fin : BitVec 16) : State :=
  s.modR fun r => { r with xfer := .some { target := BitVec.ofNat 16 (s.after fin.toNat), left := 0 } }

/-- `loop` (R154, R155). -/
def execLoop (a b : BitVec 5) (s : State) : Out :=
  s.answer do
    let (x, y) ← s.src2 a b
    let s := s.notePbnd [a, b]
    if 6 ≤ s.R.loops.length then raise 1 10
    else if y.setWidth 16 < s.cur.next then raise 2 9
    else if x = 0 then return s.skipLoop (y.setWidth 16)
    else s.pushLoop { start := s.cur.next, fin := y.setWidth 16, count := x }

/-- `loopi` (R154): the trip count is imm8 + 1. -/
def execLoopi (i : BitVec 8) (b : BitVec 5) (s : State) : Out :=
  s.answer do
    let y ← s.src b 0
    let s := s.notePbnd [b]
    if 6 ≤ s.R.loops.length then raise 1 10
    else if y.setWidth 16 < s.cur.next then raise 2 9
    else s.pushLoop { start := s.cur.next, fin := y.setWidth 16, count := i.setWidth 32 + 1 }

/-- `lpipe` (R154, R155, R159). -/
def execLpipe (st : BitVec 4) (a b : BitVec 5) (s : State) : Out :=
  s.answer do
    let (x, y) ← s.src2 a b
    let s := s.notePbnd [a, b]
    let start : BitVec 16 := x.setWidth 16
    let fin : BitVec 16 := BitVec.extractLsb' 16 16 x
    if 6 ≤ s.R.loops.length then raise 1 10
    else if fin < start || start < s.cur.next then raise 2 9
    else if (y.setWidth 16 : BitVec 16).toNat < st.toNat + 1 then raise 2 9
    else
      s.pushLoop { pro := s.cur.next, epi := BitVec.extractLsb' 16 16 y, start := start, fin := fin
                   count := (y.setWidth 16 : BitVec 16).setWidth 32, kind := true, sm1 := st }

/-- `lbreak` (R157): pops a KIND 0 entry, sets CLAMP in a KIND 1 entry. -/
def execLbreak (s : State) : Out :=
  .next (s.modR fun r => match r.loops with
    | [] => r
    | e :: l => if e.kind then { r with loops := { e with clamp := true } :: l } else { r with loops := l })

/-- `lidx` (R158); k = 6 and 7 name no entry, and it writes 0 (DEDUCED, log entry 62). -/
def execLidx (d : BitVec 5) (k : BitVec 3) (s : State) : Out :=
  .next (s.put 1 (.scalar d.toNat) (wide ((s.R.loops[k.toNat]?.map (·.index)).getD 0)))

/-! ### SYS (R161 to R169) -/

/-- `nop` (R161). -/
def execNop (s : State) : Out := .next s

/-- `trap n` (R162): taken once the bundle has committed whole (R386). -/
def execTrap (n : BitVec 8) (s : State) : Out :=
  .next (s.modR fun r => { r with softTrap := .some n }).endIfLast

/-- `eret` (R162, R394): the captured frame is resumed once the rest of the bundle has committed. -/
def execEret (s : State) : Out :=
  s.answer <|
    if s.me.inHandler then .ok ({ s with cur := { s.cur with eret := true } } : State).endIfLast
    else raise 1 11

/-- `wait a` (R163): until vcyc[31:0] equals a. -/
def execWait (a : BitVec 5) (s : State) : Out :=
  s.answer do
    let x ← s.src a 0
    let s := s.notePbnd [a]
    let v := BitVec.ofInt 32 (s.vcyc ((s.R.ctx).getD 0) + 1)
    let dt := (x - v).toInt
    return if dt ≤ 0 then s
      else { s with cur := { s.cur with nextAt := max s.cur.nextAt (s.tick + 1 + dt.toNat), hold := .wait } }

/-- `waiti n` (R163). -/
def execWaiti (n : BitVec 8) (s : State) : Out :=
  .next (if n = 0 then s
    else { s with cur := { s.cur with nextAt := max s.cur.nextAt (s.tick + 1 + n.toNat), hold := .wait } })

/-- `kill a` (R164, R143): the marks take effect after this cycle's landings. -/
def execKill (a : BitVec 5) (s : State) : Out :=
  s.answer do
    let x ← s.src a 0
    return (s.notePbnd [a]).plan s.tick 4 1 (.killMarks s.cur.herd s.cur.core (x.setWidth 24 &&& 0xFFFFFE#24) 0 0)

/-- `killt t, a` (R164). -/
def execKillt (t : BitVec 3) (a : BitVec 5) (s : State) : Out :=
  s.answer do
    let x ← s.src a 0
    return (s.notePbnd [a]).plan s.tick 4 1 (.killMarks s.cur.herd s.cur.core 0 t.toNat x)

/-- Dead marks are set (R143). -/
def State.markDead (s : State) (h c : Nat) (scalars : BitVec 24) (t : Nat) (rows : BitVec 32) : State :=
  s.modRegs h c fun r => { r with deadS := r.deadS ||| scalars, deadT := r.deadT.modify t (· ||| rows) }

/-- The cycle after the last perform of the core's stores in flight (R165). -/
def State.storesDone (s : State) : Nat := s.me.stores.foldl (fun m x => max m (x.due + 1)) 0

/-- `fence.h` (R165): the next bundle waits for the core's stores and atomic writes. -/
def execFenceH (s : State) : Out :=
  .next { s with cur := { s.cur with nextAt := max s.cur.nextAt s.storesDone } }

/-- The walker commands that a core issued whose writes have not all performed. -/
def State.openWrites (s : State) (h c : Nat) : List Nat :=
  (s.cmds.filter fun k => k.herd == h && k.core == c && !k.isOutward
    && k.beats.any fun b => !b.performed && !b.abandoned && !b.dst.isEmpty).map (·.id)

/-- `fence.d` (R165): also for every walker write that the core issued earlier. -/
def execFenceD (s : State) : Out :=
  .next { s with cur := { s.cur with
    nextAt := max s.cur.nextAt s.storesDone, gate := { s.cur.gate with writes := s.openWrites s.cur.herd s.cur.core } } }

/-- Special register n as `rdsr` reads it (R127); none where undefined. -/
def State.special (s : State) (n : Nat) : Option Word :=
  let r := s.R
  let x := s.ctx ((r.ctx).getD 0)
  let v := BitVec.ofInt 64 (s.vcyc x.num)
  let eh : Word := BitVec.ofNat 32 (x.ecnt / 2 ^ 32 % 2 ^ 16 + if x.eovf then 2 ^ 16 else 0)
  match n with
  | 0x00 => .some r.sw
  | 0x01 => .some (r.fsr.setWidth 32)
  | 0x02 => .some ((BitVec.extractLsb' 0 30 r.tfsr).setWidth 32)
  | 0x03 => .some ((BitVec.extractLsb' 30 30 r.tfsr).setWidth 32)
  | 0x04 => .some ((BitVec.extractLsb' 60 20 r.tfsr).setWidth 32)
  | 0x08 => .some (r.xr.getD 0 0)
  | 0x09 => .some (r.xr.getD 1 0)
  | 0x0A => .some (r.xr.getD 2 0)
  | 0x0B => .some (r.xr.getD 3 0)
  | 0x10 => .some (v.setWidth 32)
  | 0x11 => .some (r.vcycHi.getD ((v >>> 32).setWidth 32))
  | 0x12 => .some (BitVec.ofNat 32 x.ecnt)
  | 0x13 => .some (r.ecntHi.getD eh)
  | 0x14 => .some (s.wclass.getD 0 0)
  | 0x15 => .some (s.wclass.getD 1 0)
  | 0x16 => .some (s.wclass.getD 2 0)
  | 0x17 => .some (s.wclass.getD 3 0)
  | 0x18 => .some (r.rcur.setWidth 32)
  | 0x19 => .some (s.me.phase.setWidth 32)
  | 0x1A => .some (BitVec.ofNat 32 (x.virtOf s.cur.herd % 128 * 256 + s.cur.core % 4))
  | _ => .none

/-- A read of a low half keeps the high half that goes with it (R131). -/
def State.sampleHigh (s : State) (n : Nat) : State :=
  let x := s.ctx ((s.R.ctx).getD 0)
  match n with
  | 0x10 => s.modR fun r => { r with vcycHi := .some ((BitVec.ofInt 64 (s.vcyc x.num) >>> 32).setWidth 32) }
  | 0x12 => s.modR fun r =>
      { r with ecntHi := .some (BitVec.ofNat 32 (x.ecnt / 2 ^ 32 % 2 ^ 16 + if x.eovf then 2 ^ 16 else 0)) }
  | _ => s

/-- `rdsr` (R127, R166). -/
def execRdsr (d : BitVec 5) (n : BitVec 6) (s : State) : Out :=
  s.answer <|
    match s.special n.toNat with
    | .none => raise 2 8
    | .some v => .ok ((s.sampleHigh n.toNat).put 1 (.scalar d.toNat) (wide v))

/-- Whether the executing context may write special register n (R127). -/
def State.mayWrite (s : State) (n : Nat) : Bool :=
  n ≤ 4 || (8 ≤ n && n ≤ 11) || (0x14 ≤ n && n ≤ 0x17 && s.R.ctx == .some 0)

/-- `wrsr` (R127, R166). -/
def execWrsr (n : BitVec 6) (a : BitVec 5) (s : State) : Out :=
  s.answer <|
    if s.mayWrite n.toNat then do
      let x ← s.src a 0
      return (s.notePbnd [a]).put 1 (.special n.toNat) (wide x)
    else raise 2 8

/-- `phase n` (R167). -/
def execPhase (n : BitVec 8) (s : State) : Out :=
  s.answer <| if n.toNat ≤ 63 then .ok (s.put 1 .phase (n.setWidth 512)) else raise 2 9

/-- `yield` (R168): a drain point, once the bundle commits. -/
def execYield (s : State) : Out := .next { s with cur := { s.cur with yields := true } }

/-- `mode exposed` (R142, R169): the next bundle waits until no write of the core is pending. -/
def execModeExposed (s : State) : Out :=
  .next { (s.put 1 .mode 0) with cur := { s.cur with gate := { s.cur.gate with settled := true } } }

/-- `mode interlocked` (R142, R169). -/
def execModeInterlocked (s : State) : Out := .next (s.put 1 .mode 1)

end Sys2Proof.Machine
end

