-- ==== Sys2Proof/Machine/Hazard.lean ====
section
/-! DEFINITION. Hazard.lean: what each syllable reads and writes among the registers of a core, for the interlocks of R139: scalar
source specifiers, register numbers, predicates, tile rows, scale registers, and destinations. A result of latency 1 has landed
before the next bundle, so branch registers, rcur and special registers never wait. -/

namespace Sys2Proof

open Machine

/-- The scalar source specifiers of a syllable outside the V slot (R110). -/
def Instr.specs : Instr → List (BitVec 5)
  | .bset _ a | .bsetr _ a | .bback _ a | .wait a | .kill a | .killt _ a | .wrsr _ a | .addi _ a _ | .andi _ a _
  | .ori _ a _ | .xori _ a _ | .slti _ a _ | .sltui _ a _ | .fneg _ a | .fabs _ a | .f2i _ a _ _ | .i2f _ a _ _ | .clz _ a
  | .ctz _ a | .popc _ a | .bswap _ a _ | .crow _ a | .ccol _ a | .kld _ a _ | .kst _ a _ | .kbase a | .krow a
  | .ksetAll a _ | .mrun a _ _ _ | .mread a _ _ | .menc a _ | .mcomp a | .mprogOpen a _ _ | .mgeoA a | .gadj a _
  | .lpair a _ | .cxrev a | .cxrun a | .apclr a => [a]
  | .loop a b | .lpipe _ a b | .add _ a b _ | .sub _ a b _ | .mul _ a b | .mulh _ a b | .mulhu _ a b | .div _ a b _
  | .divu _ a b _ | .and _ a b | .or _ a b | .xor _ a b | .min _ a b | .max _ a b | .minu _ a b | .maxu _ a b | .sel _ a b _
  | .fadd _ a b _ | .fsub _ a b _ | .fmul _ a b _ | .fma _ a b _ | .fmin _ a b | .fmax _ a b | .icmpEq _ a b | .icmpNe _ a b
  | .icmpLt _ a b | .icmpLtu _ a b | .icmpLe _ a b | .icmpLeu _ a b | .fcmpEq _ a b _ | .fcmpLt _ a b _ | .fcmpLe _ a b _
  | .fcmpUn _ a b _ | .shl _ a b | .shr _ a b | .sra _ a b | .rol _ a b | .bext _ a b _ | .bins _ a b | .cpack _ a b
  | .cadd _ a b | .kset a b _ | .mprog a b _ _ | .mgeoW a b | .mgeoD a b | .mgeoN a b | .wcopy a b _ _ | .wmcast a b _ _
  | .wgath a b _ _ | .wscat a b _ _ | .wgeo a b _ | .wgeoHi a b _ | .wgeoTab a b _ | .wsnap a b | .wcall a b _
  | .lsend a b _ | .lrecv a b _ => [a, b]
  | .loopi _ b | .fsh _ _ b | .fshr _ _ b | .bxok _ _ b _ | .cxsave _ b | .cxload _ b | .cxpend _ b | .apq _ b => [b]
  | .lmemLdb _ _ p _ | .lmemLdh _ _ p _ | .lmemLdw _ _ p _ | .lmemTldr _ _ _ p _ | .lmemTstr _ _ _ p _ | .hmemLdb _ _ p _
  | .hmemLdh _ _ p _ | .hmemLdw _ _ p _ | .hmemTldr _ _ _ p _ | .hmemTstr _ _ _ p _ | .ldwa _ _ p _ | .ldwc _ _ p _
  | .tldra _ _ _ p _ | .tldrc _ _ _ p _ | .atclr _ p _ | .amadd _ _ p _ | .amswap _ _ p _ | .amcas _ _ p _ | .ammin _ _ p _
  | .ammax _ _ p _ | .amand _ _ p _ | .amor _ _ p _ | .amxor _ _ p _ | .wamoAdd _ p _ | .wamoSwap _ p _ | .wamoCas _ p _
  | .wamoMax _ p _ | .cxmk _ p _ | .cxq _ p _ | .apset _ p _ => [p]
  | .lmemStb s _ p _ | .lmemSth s _ p _ | .lmemStw s _ p _ | .hmemStb s _ p _ | .hmemSth s _ p _ | .hmemStw s _ p _ => [p, s]
  | .cxgive a p _ => [a, p]
  | _ => []

/-- The scalars that a syllable reads by register number. -/
def Instr.numbers : Instr → List Nat
  | .fsh _ n _ | .fshr _ n _ | .amcas n _ _ _ | .wamoCas n _ _ => [n.toNat, n.toNat + 1]
  | .fma d _ _ _ | .bins d _ _ => [d.toNat]
  | .amadd n _ _ _ | .amswap n _ _ _ | .ammin n _ _ _ | .ammax n _ _ _ | .amand n _ _ _ | .amor n _ _ _ | .amxor n _ _ _
  | .wamoAdd n _ _ | .wamoSwap n _ _ | .wamoMax n _ _ | .apset n _ _ => [n.toNat]
  | _ => []

/-- The predicates that a syllable reads, its guard apart. -/
def Instr.predicates : Instr → List (BitVec 3)
  | .bgo _ c | .bgon _ c | .blink _ c | .bback c _ | .sel _ _ _ c => [c]
  | .pand _ a b | .por _ a b | .pxor _ a b | .vany _ a b | .vall _ a b | .pfirst _ a b _ | .pcnt a b _ _ => [a, b]
  | .pnot _ a | .pmov _ a => [a]
  | _ => []

/-- The scalar that a syllable writes. -/
def Instr.scalarDest : Instr → Option Nat
  | .lidx d _ | .rdsr d _ | .pcnt _ _ d _ | .add d _ _ _ | .sub d _ _ _ | .mul d _ _ | .mulh d _ _ | .mulhu d _ _
  | .div d _ _ _ | .divu d _ _ _ | .and d _ _ | .or d _ _ | .xor d _ _ | .min d _ _ | .max d _ _ | .minu d _ _ | .maxu d _ _
  | .sel d _ _ _ | .addi d _ _ | .andi d _ _ | .ori d _ _ | .xori d _ _ | .slti d _ _ | .sltui d _ _ | .fadd d _ _ _
  | .fsub d _ _ _ | .fmul d _ _ _ | .fma d _ _ _ | .fmin d _ _ | .fmax d _ _ | .fneg d _ | .fabs d _ | .f2i d _ _ _
  | .i2f d _ _ _ | .shl d _ _ | .shr d _ _ | .sra d _ _ | .rol d _ _ | .fsh d _ _ | .fshr d _ _ | .clz d _ | .ctz d _
  | .popc d _ | .bext d _ _ _ | .bins d _ _ | .bswap d _ _ | .cpack d _ _ | .cadd d _ _ | .crow d _ | .ccol d _
  | .bxdim d _ _ | .bxok d _ _ _ | .lmemLdb d _ _ _ | .lmemLdh d _ _ _ | .lmemLdw d _ _ _ | .hmemLdb d _ _ _
  | .hmemLdh d _ _ _ | .hmemLdw d _ _ _ | .ldwa d _ _ _ | .ldwc d _ _ _ | .wprom d _ | .llat d _ | .gcyc d _ | .gmeas d _
  | .cxpend d _ | .apq d _ => .some d.toNat
  | .fli d _ => .some (8 + d.toNat)
  | .blink _ _ => .some 23
  | .amadd n _ _ _ | .amswap n _ _ _ | .amcas n _ _ _ | .ammin n _ _ _ | .ammax n _ _ _ | .amand n _ _ _ | .amor n _ _ _
  | .amxor n _ _ _ | .wamoAdd n _ _ | .wamoSwap n _ _ | .wamoCas n _ _ | .wamoMax n _ _ | .cxmk n _ _ | .cxsave n _
  | .cxload n _ | .cxq n _ _ | .apset n _ _ => .some n.toNat
  | _ => .none

/-- The predicate that a syllable outside the V slot writes. -/
def Instr.predDest : Instr → Option (BitVec 3)
  | .icmpEq p _ _ | .icmpNe p _ _ | .icmpLt p _ _ | .icmpLtu p _ _ | .icmpLe p _ _ | .icmpLeu p _ _ | .fcmpEq p _ _ _
  | .fcmpLt p _ _ _ | .fcmpLe p _ _ _ | .fcmpUn p _ _ _ => .some p
  | .pand d _ _ | .por d _ _ | .pxor d _ _ | .pnot d _ | .pmov d _ | .vany d _ _ | .vall d _ _ | .pfirst d _ _ _ => .some d
  | _ => .none

/-- The operands of a V syllable with the specifier field of its second source (R116). -/
def Instr.vform : Instr → Option (VDec × BitVec 5)
  | .tadd d a s b f w q =>
    .some (⟨(.add false), d.toNat, a.toNat, decide (s = 1), b.toNat % 8, f.toNat, decide (w = 1), decide (q = 1)⟩, b)
  | .taddSat d a s b f w q =>
    .some (⟨(.add true), d.toNat, a.toNat, decide (s = 1), b.toNat % 8, f.toNat, decide (w = 1), decide (q = 1)⟩, b)
  | .tsub d a s b f w q =>
    .some (⟨(.sub false), d.toNat, a.toNat, decide (s = 1), b.toNat % 8, f.toNat, decide (w = 1), decide (q = 1)⟩, b)
  | .tsubSat d a s b f w q =>
    .some (⟨(.sub true), d.toNat, a.toNat, decide (s = 1), b.toNat % 8, f.toNat, decide (w = 1), decide (q = 1)⟩, b)
  | .tmul d a s b f w q =>
    .some (⟨(.mul false), d.toNat, a.toNat, decide (s = 1), b.toNat % 8, f.toNat, decide (w = 1), decide (q = 1)⟩, b)
  | .tmulSat d a s b f w q =>
    .some (⟨(.mul true), d.toNat, a.toNat, decide (s = 1), b.toNat % 8, f.toNat, decide (w = 1), decide (q = 1)⟩, b)
  | .tmulh d a s b f w q =>
    .some (⟨.mulh, d.toNat, a.toNat, decide (s = 1), b.toNat % 8, f.toNat, decide (w = 1), decide (q = 1)⟩, b)
  | .tmin d a s b f w q =>
    .some (⟨.min, d.toNat, a.toNat, decide (s = 1), b.toNat % 8, f.toNat, decide (w = 1), decide (q = 1)⟩, b)
  | .tmax d a s b f w q =>
    .some (⟨.max, d.toNat, a.toNat, decide (s = 1), b.toNat % 8, f.toNat, decide (w = 1), decide (q = 1)⟩, b)
  | .tand d a s b f w q =>
    .some (⟨.and, d.toNat, a.toNat, decide (s = 1), b.toNat % 8, f.toNat, decide (w = 1), decide (q = 1)⟩, b)
  | .tor d a s b f w q =>
    .some (⟨.or, d.toNat, a.toNat, decide (s = 1), b.toNat % 8, f.toNat, decide (w = 1), decide (q = 1)⟩, b)
  | .txor d a s b f w q =>
    .some (⟨.xor, d.toNat, a.toNat, decide (s = 1), b.toNat % 8, f.toNat, decide (w = 1), decide (q = 1)⟩, b)
  | .tshl d a s b f w q =>
    .some (⟨.shl, d.toNat, a.toNat, decide (s = 1), b.toNat % 8, f.toNat, decide (w = 1), decide (q = 1)⟩, b)
  | .tshr d a s b f w q =>
    .some (⟨.shr, d.toNat, a.toNat, decide (s = 1), b.toNat % 8, f.toNat, decide (w = 1), decide (q = 1)⟩, b)
  | .tsra d a s b f w q =>
    .some (⟨.sra, d.toNat, a.toNat, decide (s = 1), b.toNat % 8, f.toNat, decide (w = 1), decide (q = 1)⟩, b)
  | .tfsh d a s b f w q =>
    .some (⟨.fsh, d.toNat, a.toNat, decide (s = 1), b.toNat % 8, f.toNat, decide (w = 1), decide (q = 1)⟩, b)
  | .tabs d a f w q =>
    .some (⟨(.abs false), d.toNat, a.toNat, false, 0, f.toNat, decide (w = 1), decide (q = 1)⟩, 0)
  | .tabsSat d a f w q =>
    .some (⟨(.abs true), d.toNat, a.toNat, false, 0, f.toNat, decide (w = 1), decide (q = 1)⟩, 0)
  | .tnegSat d a f w q =>
    .some (⟨.negSat, d.toNat, a.toNat, false, 0, f.toNat, decide (w = 1), decide (q = 1)⟩, 0)
  | .tfadd d a s b f w q =>
    .some (⟨.fadd, d.toNat, a.toNat, decide (s = 1), b.toNat % 8, f.toNat, decide (w = 1), decide (q = 1)⟩, b)
  | .tfsub d a s b f w q =>
    .some (⟨.fsub, d.toNat, a.toNat, decide (s = 1), b.toNat % 8, f.toNat, decide (w = 1), decide (q = 1)⟩, b)
  | .tfmul d a s b f w q =>
    .some (⟨.fmul, d.toNat, a.toNat, decide (s = 1), b.toNat % 8, f.toNat, decide (w = 1), decide (q = 1)⟩, b)
  | .tfma d a s b f w q =>
    .some (⟨.fma, d.toNat, a.toNat, decide (s = 1), b.toNat % 8, f.toNat, decide (w = 1), decide (q = 1)⟩, b)
  | .tfmin d a s b f w q =>
    .some (⟨.fmin, d.toNat, a.toNat, decide (s = 1), b.toNat % 8, f.toNat, decide (w = 1), decide (q = 1)⟩, b)
  | .tfmax d a s b f w q =>
    .some (⟨.fmax, d.toNat, a.toNat, decide (s = 1), b.toNat % 8, f.toNat, decide (w = 1), decide (q = 1)⟩, b)
  | .tfabs d a f w q =>
    .some (⟨.fabs, d.toNat, a.toNat, false, 0, f.toNat, decide (w = 1), decide (q = 1)⟩, 0)
  | .tfrint d a f w q =>
    .some (⟨.frint, d.toNat, a.toNat, false, 0, f.toNat, decide (w = 1), decide (q = 1)⟩, 0)
  | .tfexp d a f w q =>
    .some (⟨.fexp, d.toNat, a.toNat, false, 0, f.toNat, decide (w = 1), decide (q = 1)⟩, 0)
  | .tfins d a s b f w q =>
    .some (⟨.fins, d.toNat, a.toNat, decide (s = 1), b.toNat % 8, f.toNat, decide (w = 1), decide (q = 1)⟩, b)
  | .tfrcp d a f w q =>
    .some (⟨.frcp, d.toNat, a.toNat, false, 0, f.toNat, decide (w = 1), decide (q = 1)⟩, 0)
  | .tfrsq d a f w q =>
    .some (⟨.frsq, d.toNat, a.toNat, false, 0, f.toNat, decide (w = 1), decide (q = 1)⟩, 0)
  | .tcmpEq d a s b f w q =>
    .some (⟨(.icmp 0), d.toNat, a.toNat, decide (s = 1), b.toNat % 8, f.toNat, decide (w = 1), decide (q = 1)⟩, b)
  | .tcmpNe d a s b f w q =>
    .some (⟨(.icmp 1), d.toNat, a.toNat, decide (s = 1), b.toNat % 8, f.toNat, decide (w = 1), decide (q = 1)⟩, b)
  | .tcmpLt d a s b f w q =>
    .some (⟨(.icmp 2), d.toNat, a.toNat, decide (s = 1), b.toNat % 8, f.toNat, decide (w = 1), decide (q = 1)⟩, b)
  | .tcmpLe d a s b f w q =>
    .some (⟨(.icmp 3), d.toNat, a.toNat, decide (s = 1), b.toNat % 8, f.toNat, decide (w = 1), decide (q = 1)⟩, b)
  | .tcmpGt d a s b f w q =>
    .some (⟨(.icmp 4), d.toNat, a.toNat, decide (s = 1), b.toNat % 8, f.toNat, decide (w = 1), decide (q = 1)⟩, b)
  | .tcmpGe d a s b f w q =>
    .some (⟨(.icmp 5), d.toNat, a.toNat, decide (s = 1), b.toNat % 8, f.toNat, decide (w = 1), decide (q = 1)⟩, b)
  | .tfcmpEq d a s b f w q =>
    .some (⟨(.fcmp 0), d.toNat, a.toNat, decide (s = 1), b.toNat % 8, f.toNat, decide (w = 1), decide (q = 1)⟩, b)
  | .tfcmpLt d a s b f w q =>
    .some (⟨(.fcmp 1), d.toNat, a.toNat, decide (s = 1), b.toNat % 8, f.toNat, decide (w = 1), decide (q = 1)⟩, b)
  | .tfcmpLe d a s b f w q =>
    .some (⟨(.fcmp 2), d.toNat, a.toNat, decide (s = 1), b.toNat % 8, f.toNat, decide (w = 1), decide (q = 1)⟩, b)
  | .tfcmpUn d a s b f w q =>
    .some (⟨(.fcmp 3), d.toNat, a.toNat, decide (s = 1), b.toNat % 8, f.toNat, decide (w = 1), decide (q = 1)⟩, b)
  | .tfcmpGt d a s b f w q =>
    .some (⟨(.fcmp 4), d.toNat, a.toNat, decide (s = 1), b.toNat % 8, f.toNat, decide (w = 1), decide (q = 1)⟩, b)
  | .tfcmpGe d a s b f w q =>
    .some (⟨(.fcmp 5), d.toNat, a.toNat, decide (s = 1), b.toNat % 8, f.toNat, decide (w = 1), decide (q = 1)⟩, b)
  | .tcvt x d a k f w q =>
    .some (⟨(.cvt x.toNat k.toNat false), d.toNat, a.toNat, false, 0, f.toNat, decide (w = 1), decide (q = 1)⟩, 0)
  | .tcvtSat x d a k f w q =>
    .some (⟨(.cvt x.toNat k.toNat true), d.toNat, a.toNat, false, 0, f.toNat, decide (w = 1), decide (q = 1)⟩, 0)
  | .tquant n d a f w q =>
    .some (⟨(.quant n.toNat), d.toNat, a.toNat, false, 0, f.toNat, decide (w = 1), decide (q = 1)⟩, 0)
  | .tdeq d a n f w q =>
    .some (⟨(.deq n.toNat false false), d.toNat, a.toNat, false, 0, f.toNat, decide (w = 1), decide (q = 1)⟩, 0)
  | .tdeqHi d a n f w q =>
    .some (⟨(.deq n.toNat true false), d.toNat, a.toNat, false, 0, f.toNat, decide (w = 1), decide (q = 1)⟩, 0)
  | .tscx k a n w q =>
    .some (⟨(.scx n.toNat false), k.toNat, a.toNat, false, 0, 6, decide (w = 1), decide (q = 1)⟩, 0)
  | .tscxHi k a n w q =>
    .some (⟨(.scx n.toNat true), k.toNat, a.toNat, false, 0, 6, decide (w = 1), decide (q = 1)⟩, 0)
  | .tdeqU d a n f w q =>
    .some (⟨(.deq n.toNat false true), d.toNat, a.toNat, false, 0, f.toNat, decide (w = 1), decide (q = 1)⟩, 0)
  | .tdeqUHi d a n f w q =>
    .some (⟨(.deq n.toNat true true), d.toNat, a.toNat, false, 0, f.toNat, decide (w = 1), decide (q = 1)⟩, 0)
  | .tmov d a f w q =>
    .some (⟨.mov, d.toNat, a.toNat, false, 0, f.toNat, decide (w = 1), decide (q = 1)⟩, 0)
  | .tbcast d b f w q =>
    .some (⟨.bcast, d.toNat, 0, true, b.toNat % 8, f.toNat, decide (w = 1), decide (q = 1)⟩, b)
  | .tbcastL d a b f w q =>
    .some (⟨.bcastL, d.toNat, a.toNat, true, b.toNat % 8, f.toNat, decide (w = 1), decide (q = 1)⟩, b)
  | .trot d a b f w q =>
    .some (⟨.rot, d.toNat, a.toNat, true, b.toNat % 8, f.toNat, decide (w = 1), decide (q = 1)⟩, b)
  | .tshuf d a b f w q =>
    .some (⟨.shuf, d.toNat, a.toNat, false, b.toNat, f.toNat, decide (w = 1), decide (q = 1)⟩, (b.setWidth 5))
  | .tredMax d a b f w q =>
    .some (⟨.redMax, d.toNat, a.toNat, true, b.toNat % 8, f.toNat, decide (w = 1), decide (q = 1)⟩, b)
  | .tredMin d a b f w q =>
    .some (⟨.redMin, d.toNat, a.toNat, true, b.toNat % 8, f.toNat, decide (w = 1), decide (q = 1)⟩, b)
  | .tredAdd d a b f w q =>
    .some (⟨.redAdd, d.toNat, a.toNat, true, b.toNat % 8, f.toNat, decide (w = 1), decide (q = 1)⟩, b)
  | .tsel d a s b f w q =>
    .some (⟨.sel, d.toNat, a.toNat, decide (s = 1), b.toNat % 8, f.toNat, decide (w = 1), decide (q = 1)⟩, b)
  | .tpack d a b f w q =>
    .some (⟨.pack, d.toNat, a.toNat, false, b.toNat, f.toNat, decide (w = 1), decide (q = 1)⟩, (b.setWidth 5))
  | .tunpk d a b f w q =>
    .some (⟨.unpk, d.toNat, a.toNat, true, b.toNat % 8, f.toNat, decide (w = 1), decide (q = 1)⟩, b)
  | .ttrans d a f q =>
    .some (⟨.trans, d.toNat, a.toNat, false, 0, f.toNat, true, decide (q = 1)⟩, 0)
  | _ => .none

/-- A tile row at the row cursor, or the tile's 32 rows, that a syllable outside the V slot reads. -/
def Instr.rowReads (rcur : Nat) : Instr → List (Nat × Nat)
  | .lmemTstr t _ _ _ _ | .hmemTstr t _ _ _ _ => [(t.toNat, rcur)]
  | _ => []

/-- The tile rows that a syllable outside the V slot writes. -/
def Instr.rowWrites (rcur : Nat) : Instr → List (Nat × Nat)
  | .lmemTldr t _ _ _ _ | .hmemTldr t _ _ _ _ => [(t.toNat, rcur)]
  | .tldra t _ _ _ _ | .tldrc t _ _ _ _ => [(t.toNat, rcur)]
  | .mread _ _ t => (List.range 32).map fun n => (t.toNat, n)
  | _ => []

/-- The mask predicate of an unaligned row store (R204). -/
def Instr.storeMask : Instr → Option Nat
  | .lmemTstr _ c _ _ f | .hmemTstr _ c _ _ f => if 2 ≤ c.toNat then .some (f.toNat % 8) else .none
  | _ => .none

/-- The scale registers that a syllable outside the V slot reads or writes. -/
def Instr.scales : Instr → List Nat
  | .kld _ _ k | .kst _ _ k | .kset _ _ k | .ksetAll _ k => [k.toNat]
  | _ => []

/-- Whether a syllable needs its slot's divider (R137). -/
def Instr.divides : Instr → Bool
  | .div _ _ _ _ | .divu _ _ _ _ => true
  | _ => false

/-- The C syllables that a delay bundle may hold (R150). -/
def Instr.delayOk : Instr → Bool
  | .nop | .bset _ _ | .bsetr _ _ | .lidx _ _ | .rdsr _ _ | .wrsr _ _ | .kill _ | .killt _ _ | .phase _ | .fenceH | .fenceD
  | .pand _ _ _ | .por _ _ _ | .pxor _ _ _ | .pnot _ _ | .pmov _ _ | .vany _ _ _ | .vall _ _ _ | .pfirst _ _ _ _
  | .pcnt _ _ _ _ => true
  | _ => false

/-- The energy class of a syllable of a slot when it commits (R415); none where its rows or groups are charged instead. -/
def Instr.energy (slot : Nat) (i : Instr) : Option Nat :=
  match slot with
  | 0 => .some 0
  | 1 | 2 => match i with
    | .div _ _ _ _ | .divu _ _ _ _ => .some 3
    | .fadd _ _ _ _ | .fsub _ _ _ _ | .fmul _ _ _ _ | .fma _ _ _ _ | .fmin _ _ _ | .fmax _ _ _ | .fneg _ _ | .fabs _ _
    | .f2i _ _ _ _ | .i2f _ _ _ _ | .fcmpEq _ _ _ _ | .fcmpLt _ _ _ _ | .fcmpLe _ _ _ _ | .fcmpUn _ _ _ _ => .some 2
    | _ => .some 1
  | 3 => .some 4
  | 4 => .some 5
  | 6 => match i with
    | .kld _ _ _ | .kst _ _ _ => .some 5
    | _ => .some 14
  | 7 => match i with
    | .mrun _ _ _ _ | .mload _ | .mspillAcc _ | .mspillSlot _ | .mfillAcc _ | .mfillSlot _ | .menc _ _ | .mcomp _ => .none
    | _ => .some 14
  | _ => .none

end Sys2Proof
end

