-- ==== Sys2Proof/Machine/Tile.lean ====
section
/-! DEFINITION. Tile.lean: the meanings of slot V (TINT, TFP, TCMP, TCVT, TMOV; R211 to R238): one shared operation that reads the
operands, judges dead rows, and queues the writes of a row form or of a whole tile (R136, R212); what an operation does to a
row stands in TileFn.lean. -/

namespace Sys2Proof.Machine

/-- The tiles whose rows an operation reads (R212). -/
def VDec.sources (v : VDec) : List Nat :=
  (if v.op.readsA then [v.a] else []) ++ (if v.op.readsB && !v.s then [v.b] else []) ++ (if v.op.readsD then [v.d] else [])

/-- The cycle after issue in which row n of a whole-tile form is read: `ttrans` reads every row at issue (R136, R238). -/
def VDec.readsAt (v : VDec) (n : Nat) : Nat := match v.op with | .trans => 0 | _ => n / 4

/-- Whether row n of tile t counts as dead for a whole-tile read judged now: its mark stands, and no pending write revives it
before it is read, k cycles from now (R386). -/
def Regs.judgedDead (r : Regs) (now t n k : Nat) : Bool :=
  r.rowDead t n && !r.pend.any fun p => p.dest = .tileRow t n && decide (p.due < now + k)

/-- The rows that an operation reads and that are judged dead at its issue, in the order in which it reaches them (R144, R386). -/
def State.deadReads (s : State) (v : VDec) : List (Nat × Nat) :=
  let rows := if v.w then List.range 32 else [s.R.rcur.toNat]
  (rows.flatMap fun n => v.sources.map fun t => (t, n)).filter fun p =>
    s.R.judgedDead s.tick p.1 p.2 (if v.w then v.readsAt p.2 else 0)

/-- The first dead row that an operation reaches, as the detail word of the dead-read trap (R144, R390). -/
def State.firstDead (s : State) (v : VDec) : Option Nat := (s.deadReads v).head?.map fun p => 256 + p.1 * 32 + p.2

/-- `sw.RM` as its two bits (R128). -/
def Regs.rmBits (r : Regs) : Nat := (r.sw >>> 2).toNat % 4

/-- The rows and scale registers that an operation writes, for R407: a row compare writes none, `tscx` one register. -/
def VDec.rowCount (v : VDec) : Nat :=
  match v.op with
  | .scx _ _ => 1
  | .icmp _ | .fcmp _ => if v.w then 32 else 0
  | _ => if v.w then 32 else 1

/-- A pending write into a core's queue, with its landing. -/
def State.enqAt (s : State) (h c : Nat) (p : Pend) : State :=
  (s.modRegs h c fun r => { r with pend := insertPend p r.pend }).planEv p.due 4 0 .registerWriteLand { a := h, b := c }

/-- Rows processed are charged in the cycle that processes them (R415). -/
def State.chargeRows (s : State) (h c : Nat) (op : VOp) (n : Nat) : State :=
  s.charge (((s.regs h c).ctx).getD 0) op.energyClass n

/-- The row form: row rcur is read now, its result is queued (R212). -/
def State.tileRowForm (s : State) (v : VDec) (x : Word) : State :=
  let n := s.R.rcur.toNat
  let out := vRow v.op v.f false (v.input s.R n x s.R.rmBits (!s.interlocked) (s.R.pred s.cur.guard) [] (s.deadReads v))
  let due := s.tick + v.op.latency - 1
  let s := (tileWrites v due s.cur.seq s.cur.pc true [(n, out)]).foldl (fun s p => s.enq p) s
  s.chargeRows s.cur.herd s.cur.core v.op 1

/-- The whole-tile form: rows 0 to 3 are read now and the others one group of four a cycle (R136, R212). -/
def State.tileWhole (s : State) (v : VDec) (x : Word) : State :=
  let o : TileOp :=
    { dec := v, start := s.tick, group := 0, seq := s.cur.seq, guard := s.R.pred s.cur.guard, bval := x
      rm := s.R.rmBits, interlocked := s.interlocked, addr := s.cur.pc, dead := s.deadReads v
      snap := match v.op with | .trans => (List.range 32).map (s.R.row v.a) | _ => [] }
  let l := o.writes s.R
  let s := l.foldl (fun s p => s.enqAt s.cur.herd s.cur.core p) s
  let s := s.modMe fun k => { k with tile := .some (o.next l) }
  let s := s.chargeRows s.cur.herd s.cur.core v.op 4
  (List.range 7).foldl (fun s g => s.plan (s.tick + 1 + g) 3 0 (.tileRows s.cur.herd s.cur.core)) s

/-- A V syllable (R211 to R215): `b` names a tile, or is a source specifier when S = 1. -/
def State.tileOp (s : State) (op : VOp) (d a : BitVec 3) (sc : Bool) (b : BitVec 5) (f : BitVec 3) (w q : Bool) : Res State := do
  let x ← if sc then s.src b 0 else .ok 0
  let v : VDec := { op := op, d := d.toNat, a := a.toNat, s := sc, b := b.toNat % 8, f := f.toNat, w := w, q := q }
  match s.firstDead v with
  | .some n => if s.R.deadTraps then .error (.trap { cls := 7, d0 := BitVec.ofNat 32 n }) else .ok ()
  | .none => .ok ()
  s.room op.latency v.rowCount
  let s := if sc then s.notePbnd [b] else s
  return if w then s.tileWhole v x else s.tileRowForm v x

/-- The next four rows of a whole-tile operation in progress (R136). -/
def State.nextRows (s : State) (h c : Nat) : State :=
  match (s.core h c).tile with
  | .none => s
  | .some o =>
    if o.start + o.group ≠ s.tick then s
    else
      let l := o.writes (s.regs h c)
      let s := l.foldl (fun s p => s.enqAt h c p) s
      let s := s.modCore h c fun k => { k with tile := if o.group = 7 then .none else .some (o.next l) }
      s.chargeRows h c o.dec.op 4

/-! ### TINT, TFP, TCMP, TCVT, TMOV -/

/-- TADD (R217). -/
def execTadd (d a : BitVec 3) (s1 : BitVec 1) (b : BitVec 5) (f : BitVec 3) (w q : BitVec 1) (s : State) : Out :=
  s.answer (s.tileOp (.add false) d a (s1 = 1) b f (w = 1) (q = 1))

/-- TADD_SAT (R217). -/
def execTaddSat (d a : BitVec 3) (s1 : BitVec 1) (b : BitVec 5) (f : BitVec 3) (w q : BitVec 1) (s : State) : Out :=
  s.answer (s.tileOp (.add true) d a (s1 = 1) b f (w = 1) (q = 1))

/-- TSUB (R217). -/
def execTsub (d a : BitVec 3) (s1 : BitVec 1) (b : BitVec 5) (f : BitVec 3) (w q : BitVec 1) (s : State) : Out :=
  s.answer (s.tileOp (.sub false) d a (s1 = 1) b f (w = 1) (q = 1))

/-- TSUB_SAT (R217). -/
def execTsubSat (d a : BitVec 3) (s1 : BitVec 1) (b : BitVec 5) (f : BitVec 3) (w q : BitVec 1) (s : State) : Out :=
  s.answer (s.tileOp (.sub true) d a (s1 = 1) b f (w = 1) (q = 1))

/-- TMUL (R217). -/
def execTmul (d a : BitVec 3) (s1 : BitVec 1) (b : BitVec 5) (f : BitVec 3) (w q : BitVec 1) (s : State) : Out :=
  s.answer (s.tileOp (.mul false) d a (s1 = 1) b f (w = 1) (q = 1))

/-- TMUL_SAT (R217). -/
def execTmulSat (d a : BitVec 3) (s1 : BitVec 1) (b : BitVec 5) (f : BitVec 3) (w q : BitVec 1) (s : State) : Out :=
  s.answer (s.tileOp (.mul true) d a (s1 = 1) b f (w = 1) (q = 1))

/-- TMULH (R217). -/
def execTmulh (d a : BitVec 3) (s1 : BitVec 1) (b : BitVec 5) (f : BitVec 3) (w q : BitVec 1) (s : State) : Out :=
  s.answer (s.tileOp .mulh d a (s1 = 1) b f (w = 1) (q = 1))

/-- TMIN (R217). -/
def execTmin (d a : BitVec 3) (s1 : BitVec 1) (b : BitVec 5) (f : BitVec 3) (w q : BitVec 1) (s : State) : Out :=
  s.answer (s.tileOp .min d a (s1 = 1) b f (w = 1) (q = 1))

/-- TMAX (R217). -/
def execTmax (d a : BitVec 3) (s1 : BitVec 1) (b : BitVec 5) (f : BitVec 3) (w q : BitVec 1) (s : State) : Out :=
  s.answer (s.tileOp .max d a (s1 = 1) b f (w = 1) (q = 1))

/-- TAND (R217). -/
def execTand (d a : BitVec 3) (s1 : BitVec 1) (b : BitVec 5) (f : BitVec 3) (w q : BitVec 1) (s : State) : Out :=
  s.answer (s.tileOp .and d a (s1 = 1) b f (w = 1) (q = 1))

/-- TOR (R217). -/
def execTor (d a : BitVec 3) (s1 : BitVec 1) (b : BitVec 5) (f : BitVec 3) (w q : BitVec 1) (s : State) : Out :=
  s.answer (s.tileOp .or d a (s1 = 1) b f (w = 1) (q = 1))

/-- TXOR (R217). -/
def execTxor (d a : BitVec 3) (s1 : BitVec 1) (b : BitVec 5) (f : BitVec 3) (w q : BitVec 1) (s : State) : Out :=
  s.answer (s.tileOp .xor d a (s1 = 1) b f (w = 1) (q = 1))

/-- TSHL (R217). -/
def execTshl (d a : BitVec 3) (s1 : BitVec 1) (b : BitVec 5) (f : BitVec 3) (w q : BitVec 1) (s : State) : Out :=
  s.answer (s.tileOp .shl d a (s1 = 1) b f (w = 1) (q = 1))

/-- TSHR (R217). -/
def execTshr (d a : BitVec 3) (s1 : BitVec 1) (b : BitVec 5) (f : BitVec 3) (w q : BitVec 1) (s : State) : Out :=
  s.answer (s.tileOp .shr d a (s1 = 1) b f (w = 1) (q = 1))

/-- TSRA (R217). -/
def execTsra (d a : BitVec 3) (s1 : BitVec 1) (b : BitVec 5) (f : BitVec 3) (w q : BitVec 1) (s : State) : Out :=
  s.answer (s.tileOp .sra d a (s1 = 1) b f (w = 1) (q = 1))

/-- TFSH (R217). -/
def execTfsh (d a : BitVec 3) (s1 : BitVec 1) (b : BitVec 5) (f : BitVec 3) (w q : BitVec 1) (s : State) : Out :=
  s.answer (s.tileOp .fsh d a (s1 = 1) b f (w = 1) (q = 1))

/-- TABS (R217). -/
def execTabs (d a f : BitVec 3) (w q : BitVec 1) (s : State) : Out :=
  s.answer (s.tileOp (.abs false) d a false 0 f (w = 1) (q = 1))

/-- TABS_SAT (R217). -/
def execTabsSat (d a f : BitVec 3) (w q : BitVec 1) (s : State) : Out :=
  s.answer (s.tileOp (.abs true) d a false 0 f (w = 1) (q = 1))

/-- TNEG_SAT (R217). -/
def execTnegSat (d a f : BitVec 3) (w q : BitVec 1) (s : State) : Out :=
  s.answer (s.tileOp .negSat d a false 0 f (w = 1) (q = 1))

/-- TFADD (R219). -/
def execTfadd (d a : BitVec 3) (s1 : BitVec 1) (b : BitVec 5) (f : BitVec 3) (w q : BitVec 1) (s : State) : Out :=
  s.answer (s.tileOp .fadd d a (s1 = 1) b f (w = 1) (q = 1))

/-- TFSUB (R219). -/
def execTfsub (d a : BitVec 3) (s1 : BitVec 1) (b : BitVec 5) (f : BitVec 3) (w q : BitVec 1) (s : State) : Out :=
  s.answer (s.tileOp .fsub d a (s1 = 1) b f (w = 1) (q = 1))

/-- TFMUL (R219). -/
def execTfmul (d a : BitVec 3) (s1 : BitVec 1) (b : BitVec 5) (f : BitVec 3) (w q : BitVec 1) (s : State) : Out :=
  s.answer (s.tileOp .fmul d a (s1 = 1) b f (w = 1) (q = 1))

/-- TFMA (R219). -/
def execTfma (d a : BitVec 3) (s1 : BitVec 1) (b : BitVec 5) (f : BitVec 3) (w q : BitVec 1) (s : State) : Out :=
  s.answer (s.tileOp .fma d a (s1 = 1) b f (w = 1) (q = 1))

/-- TFMIN (R220). -/
def execTfmin (d a : BitVec 3) (s1 : BitVec 1) (b : BitVec 5) (f : BitVec 3) (w q : BitVec 1) (s : State) : Out :=
  s.answer (s.tileOp .fmin d a (s1 = 1) b f (w = 1) (q = 1))

/-- TFMAX (R220). -/
def execTfmax (d a : BitVec 3) (s1 : BitVec 1) (b : BitVec 5) (f : BitVec 3) (w q : BitVec 1) (s : State) : Out :=
  s.answer (s.tileOp .fmax d a (s1 = 1) b f (w = 1) (q = 1))

/-- TFABS (R220). -/
def execTfabs (d a f : BitVec 3) (w q : BitVec 1) (s : State) : Out :=
  s.answer (s.tileOp .fabs d a false 0 f (w = 1) (q = 1))

/-- TFRINT (R221). -/
def execTfrint (d a f : BitVec 3) (w q : BitVec 1) (s : State) : Out :=
  s.answer (s.tileOp .frint d a false 0 f (w = 1) (q = 1))

/-- TFEXP (R222). -/
def execTfexp (d a f : BitVec 3) (w q : BitVec 1) (s : State) : Out :=
  s.answer (s.tileOp .fexp d a false 0 f (w = 1) (q = 1))

/-- TFINS (R223). -/
def execTfins (d a : BitVec 3) (s1 : BitVec 1) (b : BitVec 5) (f : BitVec 3) (w q : BitVec 1) (s : State) : Out :=
  s.answer (s.tileOp .fins d a (s1 = 1) b f (w = 1) (q = 1))

/-- TFRCP (R224). -/
def execTfrcp (d a f : BitVec 3) (w q : BitVec 1) (s : State) : Out :=
  s.answer (s.tileOp .frcp d a false 0 f (w = 1) (q = 1))

/-- TFRSQ (R224). -/
def execTfrsq (d a f : BitVec 3) (w q : BitVec 1) (s : State) : Out :=
  s.answer (s.tileOp .frsq d a false 0 f (w = 1) (q = 1))

/-- TCMP_EQ (R226). -/
def execTcmpEq (d a : BitVec 3) (s1 : BitVec 1) (b : BitVec 5) (f : BitVec 3) (w q : BitVec 1) (s : State) : Out :=
  s.answer (s.tileOp (.icmp 0) d a (s1 = 1) b f (w = 1) (q = 1))

/-- TCMP_NE (R226). -/
def execTcmpNe (d a : BitVec 3) (s1 : BitVec 1) (b : BitVec 5) (f : BitVec 3) (w q : BitVec 1) (s : State) : Out :=
  s.answer (s.tileOp (.icmp 1) d a (s1 = 1) b f (w = 1) (q = 1))

/-- TCMP_LT (R226). -/
def execTcmpLt (d a : BitVec 3) (s1 : BitVec 1) (b : BitVec 5) (f : BitVec 3) (w q : BitVec 1) (s : State) : Out :=
  s.answer (s.tileOp (.icmp 2) d a (s1 = 1) b f (w = 1) (q = 1))

/-- TCMP_LE (R226). -/
def execTcmpLe (d a : BitVec 3) (s1 : BitVec 1) (b : BitVec 5) (f : BitVec 3) (w q : BitVec 1) (s : State) : Out :=
  s.answer (s.tileOp (.icmp 3) d a (s1 = 1) b f (w = 1) (q = 1))

/-- TCMP_GT (R226). -/
def execTcmpGt (d a : BitVec 3) (s1 : BitVec 1) (b : BitVec 5) (f : BitVec 3) (w q : BitVec 1) (s : State) : Out :=
  s.answer (s.tileOp (.icmp 4) d a (s1 = 1) b f (w = 1) (q = 1))

/-- TCMP_GE (R226). -/
def execTcmpGe (d a : BitVec 3) (s1 : BitVec 1) (b : BitVec 5) (f : BitVec 3) (w q : BitVec 1) (s : State) : Out :=
  s.answer (s.tileOp (.icmp 5) d a (s1 = 1) b f (w = 1) (q = 1))

/-- TFCMP_EQ (R226). -/
def execTfcmpEq (d a : BitVec 3) (s1 : BitVec 1) (b : BitVec 5) (f : BitVec 3) (w q : BitVec 1) (s : State) : Out :=
  s.answer (s.tileOp (.fcmp 0) d a (s1 = 1) b f (w = 1) (q = 1))

/-- TFCMP_LT (R226). -/
def execTfcmpLt (d a : BitVec 3) (s1 : BitVec 1) (b : BitVec 5) (f : BitVec 3) (w q : BitVec 1) (s : State) : Out :=
  s.answer (s.tileOp (.fcmp 1) d a (s1 = 1) b f (w = 1) (q = 1))

/-- TFCMP_LE (R226). -/
def execTfcmpLe (d a : BitVec 3) (s1 : BitVec 1) (b : BitVec 5) (f : BitVec 3) (w q : BitVec 1) (s : State) : Out :=
  s.answer (s.tileOp (.fcmp 2) d a (s1 = 1) b f (w = 1) (q = 1))

/-- TFCMP_UN (R226). -/
def execTfcmpUn (d a : BitVec 3) (s1 : BitVec 1) (b : BitVec 5) (f : BitVec 3) (w q : BitVec 1) (s : State) : Out :=
  s.answer (s.tileOp (.fcmp 3) d a (s1 = 1) b f (w = 1) (q = 1))

/-- TFCMP_GT (R226). -/
def execTfcmpGt (d a : BitVec 3) (s1 : BitVec 1) (b : BitVec 5) (f : BitVec 3) (w q : BitVec 1) (s : State) : Out :=
  s.answer (s.tileOp (.fcmp 4) d a (s1 = 1) b f (w = 1) (q = 1))

/-- TFCMP_GE (R226). -/
def execTfcmpGe (d a : BitVec 3) (s1 : BitVec 1) (b : BitVec 5) (f : BitVec 3) (w q : BitVec 1) (s : State) : Out :=
  s.answer (s.tileOp (.fcmp 5) d a (s1 = 1) b f (w = 1) (q = 1))

/-- TCVT (R230). -/
def execTcvt (x d a k f : BitVec 3) (w q : BitVec 1) (s : State) : Out :=
  s.answer (s.tileOp (.cvt x.toNat k.toNat false) d a false 0 f (w = 1) (q = 1))

/-- TCVT_SAT (R230). -/
def execTcvtSat (x d a k f : BitVec 3) (w q : BitVec 1) (s : State) : Out :=
  s.answer (s.tileOp (.cvt x.toNat k.toNat true) d a false 0 f (w = 1) (q = 1))

/-- TQUANT (R232). -/
def execTquant (n d a f : BitVec 3) (w q : BitVec 1) (s : State) : Out :=
  s.answer (s.tileOp (.quant n.toNat) d a false 0 f (w = 1) (q = 1))

/-- TDEQ (R233). -/
def execTdeq (d a n f : BitVec 3) (w q : BitVec 1) (s : State) : Out :=
  s.answer (s.tileOp (.deq n.toNat false false) d a false 0 f (w = 1) (q = 1))

/-- TDEQ_HI (R233). -/
def execTdeqHi (d a n f : BitVec 3) (w q : BitVec 1) (s : State) : Out :=
  s.answer (s.tileOp (.deq n.toNat true false) d a false 0 f (w = 1) (q = 1))

/-- TSCX (R234). -/
def execTscx (k a n : BitVec 3) (w q : BitVec 1) (s : State) : Out :=
  s.answer (s.tileOp (.scx n.toNat false) k a false 0 6 (w = 1) (q = 1))

/-- TSCX_HI (R234). -/
def execTscxHi (k a n : BitVec 3) (w q : BitVec 1) (s : State) : Out :=
  s.answer (s.tileOp (.scx n.toNat true) k a false 0 6 (w = 1) (q = 1))

/-- TDEQ_U (R233). -/
def execTdeqU (d a n f : BitVec 3) (w q : BitVec 1) (s : State) : Out :=
  s.answer (s.tileOp (.deq n.toNat false true) d a false 0 f (w = 1) (q = 1))

/-- TDEQ_U_HI (R233). -/
def execTdeqUHi (d a n f : BitVec 3) (w q : BitVec 1) (s : State) : Out :=
  s.answer (s.tileOp (.deq n.toNat true true) d a false 0 f (w = 1) (q = 1))

/-- TMOV (R236). -/
def execTmov (d a f : BitVec 3) (w q : BitVec 1) (s : State) : Out :=
  s.answer (s.tileOp .mov d a false 0 f (w = 1) (q = 1))

/-- TBCAST (R236). -/
def execTbcast (d : BitVec 3) (b : BitVec 5) (f : BitVec 3) (w q : BitVec 1) (s : State) : Out :=
  s.answer (s.tileOp .bcast d 0 true b f (w = 1) (q = 1))

/-- TBCAST_L (R236). -/
def execTbcastL (d a : BitVec 3) (b : BitVec 5) (f : BitVec 3) (w q : BitVec 1) (s : State) : Out :=
  s.answer (s.tileOp .bcastL d a true b f (w = 1) (q = 1))

/-- TROT (R236). -/
def execTrot (d a : BitVec 3) (b : BitVec 5) (f : BitVec 3) (w q : BitVec 1) (s : State) : Out :=
  s.answer (s.tileOp .rot d a true b f (w = 1) (q = 1))

/-- TSHUF (R236). -/
def execTshuf (d a b f : BitVec 3) (w q : BitVec 1) (s : State) : Out :=
  s.answer (s.tileOp .shuf d a false (b.setWidth 5) f (w = 1) (q = 1))

/-- TRED_MAX (R237). -/
def execTredMax (d a : BitVec 3) (b : BitVec 5) (f : BitVec 3) (w q : BitVec 1) (s : State) : Out :=
  s.answer (s.tileOp .redMax d a true b f (w = 1) (q = 1))

/-- TRED_MIN (R237). -/
def execTredMin (d a : BitVec 3) (b : BitVec 5) (f : BitVec 3) (w q : BitVec 1) (s : State) : Out :=
  s.answer (s.tileOp .redMin d a true b f (w = 1) (q = 1))

/-- TRED_ADD (R237). -/
def execTredAdd (d a : BitVec 3) (b : BitVec 5) (f : BitVec 3) (w q : BitVec 1) (s : State) : Out :=
  s.answer (s.tileOp .redAdd d a true b f (w = 1) (q = 1))

/-- TSEL (R236). -/
def execTsel (d a : BitVec 3) (s1 : BitVec 1) (b : BitVec 5) (f : BitVec 3) (w q : BitVec 1) (s : State) : Out :=
  s.answer (s.tileOp .sel d a (s1 = 1) b f (w = 1) (q = 1))

/-- TPACK (R236). -/
def execTpack (d a b f : BitVec 3) (w q : BitVec 1) (s : State) : Out :=
  s.answer (s.tileOp .pack d a false (b.setWidth 5) f (w = 1) (q = 1))

/-- TUNPK (R236). -/
def execTunpk (d a : BitVec 3) (b : BitVec 5) (f : BitVec 3) (w q : BitVec 1) (s : State) : Out :=
  s.answer (s.tileOp .unpk d a true b f (w = 1) (q = 1))

/-- TTRANS (R238). -/
def execTtrans (d a f : BitVec 3) (q : BitVec 1) (s : State) : Out :=
  s.answer (s.tileOp .trans d a false 0 f true (q = 1))

end Sys2Proof.Machine
end

