-- ==== Sys2Proof/Machine/Issue.lean ====
section
/-! DEFINITION. Issue.lean: how a core issues a bundle (R102 to R108, R119 to R121, R133, R137, R139, R140, R142, R150, R386 to
R388): the nullifier, the interlocks, the one trap that is taken when several are due, the decoded syllables; what the commit of
each syllable adds to its meaning; and the events REGISTER_WRITE_LAND and WAIT_EXPIRY. -/

namespace Sys2Proof.Machine

/-! ### Interlocks (R139) -/

/-- Whether a destination has a pending write. -/
def Regs.waits (r : Regs) (d : Dest) : Bool := r.pend.any fun p => p.dest = d

/-- Whether scalar n has a pending write, an engine's among them (R139, R266). -/
def Regs.scalarWaits (r : Regs) (n : Nat) : Bool := n ≠ 0 && (r.waits (.scalar n) || r.engPend.any fun p => p.2 == n)

def Regs.predWaits (r : Regs) (n : Nat) : Bool := n ≠ 0 && r.waits (.pred n)

/-- Whether a row has a pending write, or is one that a whole-tile operation has still to write (R136). -/
def Core.rowWaits (k : Core) (t n : Nat) : Bool :=
  k.r.waits (.tileRow t n) ||
    match k.tile with
    | .some o => decide (o.dec.dest n = .tileRow t n) && decide (4 * o.group ≤ n)
    | .none => false

/-- Whether a scale register has a pending write. -/
def Core.scaleWaits (k : Core) (n : Nat) : Bool :=
  k.r.waits (.scale n) || match k.tile with | .some o => decide (o.dec.dest 0 = .scale n) | .none => false

/-- Whether a specifier names a scalar that waits (R110). -/
def Regs.specWaits (r : Regs) (f : BitVec 5) : Bool := f.toNat ≤ 23 && r.scalarWaits f.toNat

/-- Whether a V form reads or writes what has a pending write. -/
def Core.vectorWaits (k : Core) (v : VDec) (b : BitVec 5) : Bool :=
  let rows := if v.w then List.range 32 else [k.r.rcur.toNat]
  (v.s && k.r.specWaits b)
    || (rows.any fun n => v.sources.any fun t => k.rowWaits t n)
    || rows.any fun n => match v.dest n with
      | .pred p => k.r.predWaits p
      | .scale q => k.scaleWaits q
      | .tileRow t m => k.rowWaits t m
      | _ => false

/-- The register numbers that hold the argument list of a call (R368). -/
def Regs.callList (r : Regs) (b n : BitVec 5) (lits : List Word) : List Nat :=
  let w : Word := if b.toNat ≤ 23 then r.scalar b.toNat else lits.getLastD 0
  let list := w.toNat / 2 ^ 12 % 32
  if list = 0 then [] else (List.range ((n.toNat + 3) / 4)).map (list + ·)

/-- Whether a syllable with a true guard reads or writes what has a pending write. A flag or a record update still to land holds neither
`rdsr` nor `wrsr` (DEDUCED, log entry 12). -/
def Core.syllableWaits (k : Core) (y : Syl) : Bool :=
  let r := k.r
  let i := y.instr
  let rc := r.rcur.toNat
  (i.specs.any r.specWaits) || (i.numbers.any r.scalarWaits) || (i.predicates.any fun p => r.predWaits p.toNat)
    || (match i.scalarDest with | .some n => r.scalarWaits n | .none => false)
    || (match i.predDest with | .some p => r.predWaits p.toNat | .none => false)
    || (match i.storeMask with | .some p => r.predWaits p | .none => false)
    || ((i.rowReads rc ++ i.rowWrites rc).any fun q => k.rowWaits q.1 q.2)
    || (i.scales.any k.scaleWaits)
    || (match i.vform with | .some (v, b) => k.vectorWaits v b | .none => false)
    || (match i with | .wcall _ b n => (r.callList b n y.lits).any r.scalarWaits | _ => false)

/-- Whether a syllable needs a slot or a divider that is held (R136, R137). -/
def Core.unitHeld (k : Core) (t : Nat) (y : Syl) : Bool :=
  if y.slot = 5 then decide (t < k.vFree)
  else if y.instr.divides then decide (t < if y.slot = 1 then k.divA else k.divB)
  else false

/-- A core as the interlocks see it: in a bundle that resumes part-way, what was issued before its trap holds nothing, since the slots
that resume see the same old values (R394). -/
def Core.sinceTrap (k : Core) : Core :=
  if k.r.resume = 0 then k else { k with r := { k.r with pend := k.r.pend.filter fun p => decide (k.r.resumeSeq ≤ p.seq) } }

/-- Whether a syllable holds its bundle in interlocked mode (R139): by its guard, its unit, or, with a true guard, its
operands. -/
def State.interlockHolds (s : State) (k : Core) (y : Syl) : Bool :=
  k.r.predWaits y.guard || k.unitHeld s.tick y || (s.guardTrue y.slot y.guard && k.syllableWaits y)

/-! ### Fetching (R101 to R103, R119 to R121, R140) -/

/-- The words of a run after its first that are read, of at most k: up to the one that closes it or breaks it (R103). -/
def runReach (word : Nat → Word) : Nat → Nat → Nat
  | 0, _ => 0
  | k + 1, i => if posOf (word i) = 0 then runReach word k (i + 1) + 1 else 1

/-- How many words a core fetches for the bundle at pc, of a bundle that breaks framing those up to the break (R102, R103). -/
def State.fetched (s : State) (pc : Nat) : Nat :=
  Nat.max (s.after pc - pc) (if posOf (s.word pc) = 2 then 1 + runReach s.word 7 (pc + 1) else 1)

/-- The executing core's bundle at pc cannot be fetched: a word of it holds an uncorrectable error (R101). -/
def State.fetchFails (s : State) (pc : Nat) : Bool :=
  let x := s.herd s.cur.herd
  !x.storeBad.isEmpty && (List.range (s.fetched pc)).any fun i => decide (pc + i < 65536) && x.storeBad.contains (pc + i)

/-- A bundle that the nullifier skips (R140): every guard is a predicate other than p0, false, and not pending. -/
def State.nullified (s : State) (l : List Syl) : Bool :=
  l.all fun y => y.guard ≠ 0 && !s.R.predWaits y.guard && !s.guardTrue y.slot y.guard

/-- Whether a delay bundle of a taken transfer holds what R150 forbids. -/
def State.delayBroken (s : State) (l : List Syl) : Bool :=
  match s.R.xfer with
  | .none => false
  | .some t => !t.fresh && s.R.resume = 0 &&
      ((l.any fun y => y.slot = 0 && !y.instr.delayOk) || s.R.loops.any fun e => e.fin = s.R.pc)

/-- The bundle at pc is skipped in zero cycles, its back-edge applied (R140, R156); true when a transfer's target comes next,
which issues in the next cycle (R149). -/
def State.skip (s : State) : State × Bool :=
  let fl := s.me.flow s.R.pc (BitVec.ofNat 16 (s.after s.R.pc.toNat))
  let (pc, land, x) := transferNext s.R.xfer fl
  let took := s.R.xfer.isSome && x.isNone
  (s.modMe fun k => { k with
    clampSaved := fl.saved
    r := { k.r with loops := fl.loops, pc := pc, landing := land, xfer := x } }, took)

/-- Why the bundle at pc does not issue as it stands. -/
inductive Fetch where
  /-- its syllables -/
  | bundle (l : List Syl)
  /-- a trap at the bundle, with the address that it records (R386) -/
  | trap (t : Trap)
  /-- the core waits for the next cycle -/
  | later
deriving DecidableEq, Repr

/-- What the executing core fetches, the skipped bundles before it gone (R140). The first argument bounds the number of skips;
no nest of six loops can exceed it. -/
def State.fetch : Nat → State → State × Fetch
  | 0, s => (s, .later)
  | n + 1, s =>
    let pc := s.R.pc
    if s.fetchFails pc.toNat then (s, .trap { cls := 31, cause := 2 })
    else if s.R.landing && posOf (s.word pc.toNat) < 2 then (s, .trap { cls := 3 })
    else match decodeBundle s.word pc.toNat with
      | .error e => (s, .trap { cls := causeClass e, cause := e })
      | .ok l =>
        if s.delayBroken l then (s, .trap { cls := 1, cause := 9 })
        else if s.interlocked && s.R.resume = 0 && s.nullified l then
          match s.skip with
          | (s, true) => (s, .later)
          | (s, false) => s.fetch n
        else (s, .bundle (l.filter fun y => decide (s.R.resume ≤ y.slot)))

/-! ### Asynchronous traps at a bundle (R387, R388, R393) -/

/-- The class of a trap record. -/
def recordClass (l : List Word) : Nat := (l.headD 0).toNat % 32

/-- The pending asynchronous trap of the lowest class, the first of them noted. -/
def firstAsync : List Async → Option Async
  | [] => .none
  | a :: l => match firstAsync l with
    | .none => .some a
    | .some b => if b.cls < a.cls then .some b else .some a

/-- The entry of a reflected trap that is due at a context, of the lowest class (R395). -/
def firstEntry (t : Nat) : List Entry → Option Entry
  | [] => .none
  | e :: l => match firstEntry t l with
    | .none => if e.due ≤ t then .some e else .none
    | .some f => if e.due ≤ t && decide (recordClass e.record ≤ recordClass f.record) then .some e else .some f

/-- The entry that the executing core, as the lead core of its context, would take. -/
def State.dueEntry (s : State) : Option (Nat × Entry) :=
  match s.R.ctx with
  | .none => .none
  | .some x =>
    let k := s.ctx x
    if s.cur.herd = k.lead && s.cur.core = 0 then (firstEntry s.tick k.entries).map fun e => (x, e) else .none

/-- The executing core takes a pending asynchronous trap at the bundle at pc. -/
def State.takeAsync (s : State) (a : Async) : State :=
  let pc := s.R.pc
  let from_ := s.R.resume
  let s := s.modMe fun k => { k with asyncs := k.asyncs.erase a }
  let tr : Trap := { cls := a.cls, cause := a.cause, d0 := a.d0, d1 := a.d1 }
  s.takeTrap s.cur.herd s.cur.core a.ctx a.owner tr (!a.sync) (a.addr.getD pc) pc 0 from_ .none

/-- The executing core takes a reflected trap of its context at the bundle at pc (R395). -/
def State.takeEntry (s : State) (x : Nat) (e : Entry) : State :=
  let k := s.me
  let f : TrapFrame := { (k.frameAt s.tick k.r.pc k.r.resume .none s.cur.ix0) with carry := k.r.carry }
  let s := s.modCtx x fun c => { c with entries := c.entries.erase e }
  (s.modMe fun k => k.enterHandler f ((s.ctx x).hentry.setWidth 16) e.record (s.tick + 1)).planIssue s.cur.herd s.cur.core
    (s.tick + 1)

/-- The asynchronous trap due at the executing core's bundle, taken; none when there is none or the core runs a handler. -/
def State.asyncTaken (s : State) : Option State :=
  if s.me.inHandler then .none
  else
    match firstAsync s.me.asyncs, s.dueEntry with
    | .none, .none => .none
    | .some a, .none => .some (s.takeAsync a)
    | .none, .some (x, e) => .some (s.takeEntry x e)
    | .some a, .some (x, e) => .some (if a.cls ≤ recordClass e.record then s.takeAsync a else s.takeEntry x e)

/-! ### BUNDLE_ISSUE -/

/-- Whether something without a known end holds the core's next bundle: an event will release it (R163, R371, R377, R395). -/
def Core.held (k : Core) : Bool :=
  match k.hold with
  | .none => false
  | .wait | .join | .call | .engine | .reflected | .stopped => true

/-- Whether the gate before the core's next bundle is still shut (R142, R165): a fence by writes that have not performed before this
cycle, `mode exposed` by pending writes. -/
def State.stillHeld (s : State) (k : Core) : Bool :=
  (s.cmds.any fun c => k.gate.writes.contains c.id &&
      c.beats.any fun b => !b.abandoned && !b.dst.isEmpty && (!b.performed || decide (s.tick ≤ b.performAt)))
    || (k.gate.settled && (!k.r.pend.isEmpty || !k.r.engPend.isEmpty || k.tile.isSome))

/-- Whether core (h, c) has a bundle to issue in this cycle: a frame, no drain, its cycle come. -/
def Core.ready (k : Core) (t : Nat) : Bool :=
  (k.r.frame.isSome || k.inHandler) && k.issueAt == t && k.drainedAt.isNone

/-- The place of the bundle at pc, no syllable of it committed yet. -/
def State.openBundle (s : State) (h c : Nat) : State :=
  let r := s.regs h c
  { s with
    latch := []
    cur := { herd := h, core := c, pc := r.pc, seq := (s.core h c).seq
             nextAt := max (s.tick + 1) r.carry.at_, hold := r.carry.hold, gate := r.carry.gate, yields := r.carry.yields
             ix0 := r.ixHold.getD ((r.loops.head?.map (·.index)).getD 0) } }

/-- The bundle is tried again in the next cycle (R139). -/
def State.holdBundle (s : State) (h c : Nat) : State :=
  ({ s with latch := [], cur := { s.cur with done := true } } : State).planIssue h c (s.tick + 1)

/-- The bundle that core (h, c) fetches in this cycle, the skipped ones before it gone, none of its syllables committed. The word
after a bundle that ends with word 65,535 is word 0 (DESIGN CHOICE, log entry 48). -/
def State.opened (s : State) (h c : Nat) : State × Fetch :=
  let s := (s.modCore h c fun k => { k with hold := .none, gate := {} }).openBundle h c
  let (s, f) := s.fetch (2 ^ 220)
  let s := s.openBundle h c
  ({ s with cur := { s.cur with next := BitVec.ofNat 16 (s.after s.R.pc.toNat) } }, f)

/-- Whether a syllable of the bundle that core (h, c) would issue holds it by a pending write or a unit (R139). -/
def State.interlocks (s : State) (h c : Nat) (l : List Syl) : Bool :=
  s.interlocked && l.any (s.interlockHolds (s.core h c).sinceTrap)

/-- The core issues: the bundle's syllables stand in the latch, or a trap is taken, or the bundle waits (R139, R386 to R388). -/
def State.issueBundle (s : State) (h c : Nat) : State :=
  let k := s.core h c
  if !k.ready s.tick || k.held then s
  else if s.stillHeld k then s.holdBundle h c
  else
    let (s, f) := s.opened h c
    let issued (s : State) : State := s.modCore h c fun k => { k with lastIssue := .some s.tick }
    match f with
    | .later => s.holdBundle h c
    | .trap t => match s.asyncTaken with
      | .some s => { (issued s) with cur := { s.cur with done := true, trapped := true } }
      | .none => { (issued (s.trapHere t 0 s.R.pc .none)) with latch := [] }
    | .bundle l =>
      if s.interlocks h c l then s.holdBundle h c
      else match s.asyncTaken with
        | .some s => { (issued s) with cur := { s.cur with done := true, trapped := true } }
        | .none => { (issued s) with latch := l }

/-- BUNDLE_ISSUE (R102, R133): core ev.b of herd ev.a. -/
def execBundleIssue (s : State) : Out := .next (s.issueBundle s.ev.a s.ev.b)

/-! ### What a commit adds to a syllable's meaning -/

/-- The syllable is the one that executes; what follows it in the bundle stands in the latch. -/
def State.select (s : State) (y : Syl) (l : List Syl) : State :=
  { s with latch := l, cur := { s.cur with slot := y.slot, guard := y.guard, lits := y.lits } }

/-- A unit that the syllable needs is held, in exposed mode (R137). -/
def State.unitFault (s : State) (y : Syl) : Option Trap :=
  if !s.interlocked && s.me.unitHeld s.tick y then .some { cls := 4 } else .none

/-- The V slot is held by a whole-tile form, whatever its guard (R136). -/
def State.holdVector (s : State) (y : Syl) : State :=
  match y.instr.vform with
  | .some (v, _) => if v.w then s.modMe fun k => { k with vFree := s.tick + 8 } else s
  | .none => s

/-- A syllable of context x has committed with a true guard: its energy, and the number of the next one (R134, R415). -/
def State.commit (s : State) (x : Nat) (y : Syl) : State :=
  let s := match Instr.energy y.slot y.instr with
    | .some n => if s.me.waiting.isSome then s else s.charge x n 1
    | .none => s
  let s := s.modMe fun k => { k with seq := k.seq + 1 }
  { s with cur := { s.cur with seq := s.cur.seq + 1 } }

/-- The software trap of a bundle whose `wret` has ended its frame (R162, R374, R386). -/
def State.endedTrap (s : State) : State :=
  match s.cur.ended, s.R.softTrap with
  | .some f, .some n => if s.cur.trapped then s else s.trapEnded f n
  | _, _ => s

/-- A drain point of core (h, c): its context drains, or a clamp that a stop given up has left in effect ends here (R160, R404). -/
def State.drainPoint (s : State) (h c : Nat) (yields : Bool) : State :=
  let draining := match (s.regs h c).ctx with | .some x => (s.ctx x).life == .draining | .none => true
  s.modCore h c fun k =>
    let k := { k with lastDrain := .some s.tick }
    if yields && !draining && k.clampSaved.isSome then k.unclamped else k

/-- The bundle ends: its flow is settled if no syllable did so, and a drain point is noted (R404). -/
def State.closeBundle (s : State) : State :=
  let h := s.cur.herd
  let c := s.cur.core
  let s := if s.cur.done || s.cur.trapped then s else s.finishBundle
  let s := s.endedTrap
  if (s.cur.yields && s.cur.done) || (s.cur.endBody && !(s.core h c).clamped) then s.drainPoint h c s.cur.yields
  else s

/-- The executing bundle stays open until an engine has read what its X syllable asks for (R418). -/
def State.awaitEngine (s : State) : State :=
  let w := s.cur
  let s := s.modMe fun k => { k with hold := .engine, waiting := .some w }
  { s with cur := { w with done := true, yields := false, endBody := false } }

/-- The open bundle of core (h, c) again is the one that executes, its slots before X committed; none when the core holds none. -/
def State.reopen (s : State) (h c : Nat) : Option State :=
  match (s.core h c).waiting with
  | .none => .none
  | .some w =>
    if (s.core h c).hold ≠ .engine then .none
    else
      let s := s.modCore h c fun k => { k with hold := .none, waiting := .none }
      .some { s with cur := { w with done := false, trapped := false }, latch := [] }

/-- The X syllable of an open bundle commits in this cycle with its effect f on the registers; the next bundle issues in cycle t at the
earliest (R418). -/
def State.endEngine (s : State) (h c t : Nat) (f : State → State := id) : State :=
  match s.reopen h c with
  | .none => s
  | .some s =>
    let s := (f s).charge ((s.R.ctx).getD 0) 14 1
    ({ s with cur := { s.cur with nextAt := Nat.max s.cur.nextAt t } }).closeBundle

/-! ### The other events of a core -/

/-- REGISTER_WRITE_LAND (R133): the first pending write of core ev.b of herd ev.a that is due. -/
def execRegisterWriteLand (s : State) : Out := .next (s.landOne s.ev.a s.ev.b)

/-- WAIT_EXPIRY (R163): core ev.b of herd ev.a is held no longer. -/
def execWaitExpiry (s : State) : Out :=
  let k := s.core s.ev.a s.ev.b
  .next (if k.hold = .wait && k.issueAt ≤ s.tick then s.modCore s.ev.a s.ev.b fun k => { k with hold := .none } else s)

end Sys2Proof.Machine
end

