-- ==== Sys2Proof/Machine/Calls.lean ====
section
/-! DEFINITION. Calls.lean: `wcall`, `wjoin` and what a call does: binding, inward copies and entry (R365 to R373), return and
outward copies with their merge (R374 to R376), join (R377, R378); and the events of walker beats and walk faults, whose effect
depends on calls. -/

namespace Sys2Proof.Machine

/-! ### Images and herds -/

def State.image? (s : State) (id : Nat) : Option Image := s.images.find? fun m => m.id == id

/-- The root herd of x's virtual herd v while x itself holds it, else the herd-withheld fault (R71, R380). -/
def State.heldHerd (s : State) (x v : Nat) : Res Nat :=
  match (s.ctx x).herds[v]? with
  | .none => raise 25
  | .some h => if s.givenAway x h then raise 25 else .ok h

/-! ### Arguments (R23, R368) -/

/-- The byte that describes argument k: the own handle and the slot (R368). -/
def State.argByte (s : State) (list k : Nat) : Res Nat :=
  if list = 0 then .ok k
  else do
    let w ← s.reg (list + k / 4)
    return w.toNat / 2 ^ (8 * (k % 4)) % 256

/-- The own sub-box of an argument with an extent for every dimension (R21). -/
def ownGeo (own : BitVec 256) (g : Geo) : Geo :=
  let e (k : Nat) : BitVec 16 := BitVec.ofNat 16 ((usedExtents own g.extents).getD k 1)
  { g with e0 := e 0, e1 := e 1, e2 := e 2, e3 := e 3 }

/-- The child's descriptor: its declaration with the extents of the own sub-box (R23). -/
def childBox (decl : BitVec 256) (g : Geo) : BitVec 256 :=
  let ext := (List.range 4).foldl (fun n k => n + (if k ≤ boxDims decl then g.extents.getD k 1 else 0) * 2 ^ (64 + 16 * k)) 0
  (decl &&& ~~~(BitVec.ofNat 256 (2 ^ 64 - 1) <<< 64)) ||| BitVec.ofNat 256 ext

/-- Whether an argument agrees with its declaration (R23; R380, order 7). -/
def argAgrees (decl own : BitVec 256) (g : Geo) : Bool :=
  ((List.range 4).all fun k => decide (g.extents.getD k 1 ≤ extOf decl k))
    && boxAcc decl != 0 && sameFormat own decl
    && (!boxReads decl || boxReads own) && (!boxWrites decl || boxWrites own)
    && (boxMerge decl < 3 || (boxBase decl % 4 == 0 && boxStr decl 1 % 4 == 0))

/-- A call whose outward copies have all performed before cycle t (R375). -/
def Call.done (k : Call) (t : Nat) : Bool := (k.state == .applying || k.state == .applied) && decide (k.doneAt < t)

/-- Whether the target of a call is occupied (R369, R371). -/
def State.occupied (s : State) (x lvl target : Nat) : Bool :=
  (s.calls.any fun k => k.ctx == x && !k.cores.isEmpty && k.level == lvl && k.target == target
      && (lvl == 2 || k.herd == s.cur.herd) && !k.done s.tick)
    || (lvl == 1 && target != s.cur.core && (s.regs s.cur.herd target).frame.isSome)

/-- The last cycle at whose end a write of the executing core's own syllables lands (R371). -/
def State.lastLanding (s : State) : Nat :=
  let tile := match s.me.tile with | .some o => o.start + o.dec.op.latency + 6 | .none => 0
  s.R.pend.foldl (fun m p => max m p.due) (max s.tick tile)

/-- The parameter block of a child of n words (R370). -/
def State.childParams (s : State) (n : Nat) : List Word :=
  (List.range n).map fun i => match s.R.bank with
    | .some b => b.getD (s.R.winBase.toNat + i) 0
    | .none => 0

/-- The inward copy of argument k (R369): none for a write-only declaration. -/
def inwardMove (own child : Space) (k : Nat) (a : CallArg) : Option Move :=
  if boxReads a.childBox then
    .some { src := own, dst := child, runs := copyRuns false a.ownBox a.childBox a.geo {}, part := k, box := a.ownBox }
  else .none

/-! ### `wcall` (R366 to R372, R380) -/

/-- The call joins the open group of the executing core and becomes the latest command (R365, R265). -/
def State.joinGroup (s : State) (k : Call) (cmd : Nat) : State :=
  let s : State := { s with calls := s.calls ++ [k] }
  let s := (s.modR fun r => { r with group := r.group ++ [k.id] }).noteIssued cmd
  if k.suspends then { s with cur := { s.cur with hold := .call } } else s

/-- The command of a call's inward copies (R369). -/
def State.callCmd (s : State) (k : Call) (bound : Nat) : Cmd :=
  { s.newCmd (.callIn k.id) ((k.space.herd).getD s.cur.herd) with bound := BitVec.ofNat 32 bound }

/-- The schedule of a call's inward copies (R253, R369), argument after argument; or the first fault of its walk. -/
def State.callSchedule (s : State) (k : Call) (cmd : Cmd) : Walk × Except Refused Plan :=
  let moves := (k.args.zipIdx).filterMap fun p => inwardMove s.ownSpace k.space p.2 p.1
  let tlb := (s.herd cmd.walker).tlb
  let (w, r) := s.judgeWalk tlb (s.translateCuts cmd.ctx (moves.flatMap Move.cuts) { tlb := tlb })
  match r with
  | .error f => (w, .error f)
  | .ok l =>
    let s1 := s.modHerd cmd.walker fun h => { h with tlb := w.tlb }
    let (s1, r) := s1.walkReads cmd.ctx cmd.addr w.reads (s.tick + 67)
    (w, .ok (moves.foldl (fun (p : Plan) m => p.placeCuts s.tick r true (l.filter fun q => q.1.mv.part == m.part))
      { s := s1, id := cmd.id, issuing := true, least := 3 }).numbered)

/-- The call with its inward copies scheduled (R369); a fault found by a walk discards it (R254). Without a copy its promise is c + 3. -/
def State.startCall (s : State) (k : Call) (bound : Nat) : Res State := do
  let (_, s) := s.newId
  let cmd := s.callCmd k bound
  let q := s.callSchedule k cmd
  let t ← s.issuePlan cmd 16 q
  match q.2 with
  | .error _ => return t.joinGroup k cmd.id
  | .ok p =>
    let entry := if bound = 0 then p.promise s.tick + 1 else s.tick + 16 * bound + 1
    let entry := if k.suspends then max entry (s.lastLanding + 1) else entry
    return (t.joinGroup { k with entry := entry } cmd.id).planEv entry 0 5 .childEntry { a := k.id, b := cmd.id }

/-- The call that `wcall` opens for a task record, before its entry cycle is known (R366, R371): its cores are the entry cores of a herd
task, or the one that it names, and it suspends its caller when the caller is among them. -/
def State.newCall (s : State) (f : Frame) (t : Task) (task goal : Nat) (args : List CallArg) : Call :=
  let cores := if t.level = 2 then (List.range 4).filter fun c => t.emask.testBit c else [goal]
  { id := s.nextId, ctx := f.ctx, herd := s.cur.herd, core := s.cur.core, sib := s.R.group.length, level := t.level
    task := task, image := f.image, target := goal, cores := cores, entry := 0
    suspends := if t.level = 2 then goal == s.cur.herd && cores.contains s.cur.core else goal == s.cur.core
    params := s.childParams t.nparam, args := args, left := cores }

/-- `wcall` (R366 to R372) with the checks of R380 in their order. -/
def State.wcall (s : State) (a b : BitVec 5) (narg : Nat) : Res State := do
  let (target, word) ← s.src2 a b
  let s := s.notePbnd [a, b]
  let list := word.toNat / 2 ^ 12 % 32
  let task := word.toNat % 2 ^ 12
  let bound := word.toNat / 2 ^ 17
  let lvl := s.level
  if 16 < narg || (target >>> (if lvl = 3 then 7 else 2)) ≠ 0 || (list ≠ 0 && 24 < list + (narg + 3) / 4) then raise 2 11
  let bytes ← (List.range narg).mapM (s.argByte list)
  if bytes.any fun x => 128 ≤ x then raise 2 11
  let f ← match s.R.frame with | .some f => .ok f | .none => raise 2 13
  let img := (s.image? f.image).getD { id := 0, code := [], tasks := [], root := 0 }
  let t ← match img.tasks[task]? with
    | .some t => if lvl < 2 || t.level + 1 ≠ lvl then raise 2 13 else .ok t
    | .none => raise 2 13
  let goal ← if lvl = 3 then s.heldHerd f.ctx target.toNat else .ok target.toNat
  if 128 ≤ s.R.group.length then raise 4
  let walker := if lvl = 3 then goal else s.cur.herd
  if s.occupied f.ctx t.level goal || s.walkerFull walker then s.busy
  let pairs := bytes.map fun x => (x % 16, x / 16)
  let boxes ← pairs.mapM fun p => s.box p.1
  let args := ((pairs.zip boxes).zipIdx).map fun p =>
    let g := s.R.gm.getD p.1.1.2 {}
    let decl := t.boxes.getD p.2 0
    (g, decl, ({ own := p.1.1.1, ownBox := p.1.2, geo := ownGeo p.1.2 g, childBox := childBox decl (ownGeo p.1.2 g) } : CallArg))
  if args.any fun p => !argAgrees p.2.1 p.2.2.ownBox p.2.2.geo then raise 12
  if args.any fun p => !subBoxOk p.2.2.ownBox p.1.origins p.1.extents then raise 10
  if bound ≠ 0 && s.interlocked then raise 6
  s.startCall (s.newCall f t task goal (args.map (·.2.2))) bound

/-- `wcall` (R366). -/
def execWcall (a b n : BitVec 5) (s : State) : Out := s.answer (s.wcall a b n.toNat)

/-! ### Entry (R126, R298, R328, R370, R371) -/

/-- A core starts a task: the state of R126, its frame, its parameter block; a frame that it suspends is set aside. -/
def Core.enterTask (k : Core) (f : Frame) (params : List Word) (pc : BitVec 16) (keep : Bool) : Core :=
  { k with
    r := { ({} : Regs) with frame := .some f, bank := .some params, pc := pc, landing := true }
    susp := if keep then k.r :: k.susp else k.susp
    hold := .none, phase := 0, tile := .none, table := [], xbuf := .none }

/-- The image's code stands in a herd's instruction store (R28, R100). -/
def State.loadStore (s : State) (h : Nat) (m : Image) : State :=
  s.modHerd h fun x => if x.storeImage = m.id + 1 then x else { x with store := m.code, storeImage := m.id + 1, storeBad := [] }

/-- The state of the array at a herd task's entry (R298, R307). -/
def Array.entered (start : Word) : Array := { leases := { v := true, isOpen := true, core := 0, start := start } :: List.replicate 3 {} }

/-- The child's box table: argument k binds handle k; the others stay unbound (R16, R23). -/
def Call.boxes (k : Call) : List (Option (BitVec 256)) := (List.range 16).map fun i => (k.args[i]?).map (·.childBox)

/-- Every entry core of a call enters (R328). -/
def State.enterChild (s : State) (k : Call) : State :=
  let m := (s.image? k.image).getD { id := 0, code := [], tasks := [], root := 0 }
  let t := m.tasks.getD k.task { level := 1, emask := 1, nparam := 0, entries := [], boxes := [] }
  let h := if k.level = 2 then k.target else k.herd
  let queue := match ((s.core k.herd k.core).r :: (s.core k.herd k.core).susp).find? fun r => r.group.contains k.id with
    | .some r => (r.frame.map (·.queue)).getD 0
    | .none => 0
  let f : Frame := { ctx := k.ctx, level := k.level, image := k.image, task := k.task, call := .some k.id, queue := queue, boxes := k.boxes }
  let s := s.modCall k.id fun k => { k with state := .running, masks := [] }
  let s := s.resetWeights.loadStore h m
  let s := if k.level = 2 then s.modHerd h fun x => { x with array := Array.entered (s.vcycAt k.ctx s.tick) } else s
  k.cores.foldl (fun s c =>
    let pc := BitVec.ofNat 16 (t.entries.getD (if k.level = 2 then c else 0) 0)
    (s.modCore h c fun x => x.enterTask f k.params pc (k.suspends && h == k.herd && c == k.core)).planIssue h c s.tick) s

/-- Whether an entry core of a call is not free for its child (R371, R372, R394, R395): it runs a handler or stands stopped with a trap
frame, or, where the call suspends its caller, the caller's own writes have still to land. -/
def State.entryHeld (s : State) (k : Call) : Bool :=
  let h := if k.level = 2 then k.target else k.herd
  (k.cores.any fun c => (s.regs h c).trap.isSome) || (k.suspends && !(s.regs k.herd k.core).pend.isEmpty)

/-- CHILD_ENTRY (R369): call ev.a, whose inward copies are command ev.b; it waits for a promise that has moved (R257), and for an entry core
that a trap holds (DEDUCED, log entry 63). -/
def execChildEntry (s : State) : Out :=
  .next (match s.call? s.ev.a with
    | .none => s
    | .some k =>
      if k.state ≠ .entering || s.tick < k.entry || (s.ctx k.ctx).failed then s
      else
        match s.cmd? s.ev.b with
        | .some c =>
          if c.bound = 0 && c.outstanding && s.tick ≤ c.promise then
            (s.modCall k.id fun k => { k with entry := c.promise + 1 }).planEv (c.promise + 1) 0 5 .childEntry s.ev
          else if s.entryHeld k then (s.modCall k.id fun k => { k with entry := s.tick + 1 }).planEv (s.tick + 1) 0 5 .childEntry s.ev
          else s.enterChild k
        | .none =>
          if s.entryHeld k then (s.modCall k.id fun k => { k with entry := s.tick + 1 }).planEv (s.tick + 1) 0 5 .childEntry s.ev
          else s.enterChild k)

/-! ### Return (R374, R375) -/

/-- The registers of the frame whose open group holds a call. -/
def State.caller (s : State) (k : Call) : Regs :=
  let c := s.core k.herd k.core
  ((c.r :: c.susp).find? fun r => r.group.contains k.id).getD {}

def State.modCaller (s : State) (k : Call) (f : Regs → Regs) : State :=
  s.modCore k.herd k.core fun c =>
    if c.r.group.contains k.id then { c with r := f c.r }
    else { c with susp := c.susp.map fun r => if r.group.contains k.id then f r else r }

/-- The sibling before a call in its group. -/
def State.previous (s : State) (k : Call) : Option Call :=
  if k.sib = 0 then .none else ((s.caller k).group[k.sib - 1]?).bind s.call?

/-- The outward copies of a returned sibling are planned at A once F of its predecessor is known (R375). -/
def State.planApply (s : State) (k : Call) : State :=
  if k.state ≠ .returned then s
  else
    match s.previous k with
    | .none => s.planEv (max s.tick k.retAt) 4 8 .outwardCopyApply { a := k.id }
    | .some q =>
      if q.state = .applying || q.state = .applied then
        s.planEv (max s.tick (max k.retAt q.doneAt)) 4 8 .outwardCopyApply { a := k.id }
      else s

/-- A sibling returns at this cycle: its task's last `wret`, or a walk's fault (R254, R374). -/
def State.returned (s : State) (id : Nat) : State :=
  let s := s.modCall id fun k => { k with state := .returned, retAt := s.tick }
  match s.call? id with
  | .some k => s.planApply k
  | .none => s

/-- The bytes of the marked words that lie in a child box (R375). -/
def Call.markedBytes (k : Call) (b : BitVec 256) : List Nat :=
  ((k.masks.filter fun p => p.1 = k.space && boxBase b / 4 ≤ p.2 && p.2 * 4 < boxEnd b).map (·.2)).flatMap fun w => addrRun (4 * w) 4

/-- Whether the bytes that each row of an outward copy writes through SCALEVIEW cover whole view blocks (R274). -/
def markedWhole (runs : List Run) (only : List Nat) : Bool :=
  runs.all fun r =>
    let dst := ((addrRun r.src r.len).zip (addrRun r.dst r.len)).filterMap fun p => if only.contains p.1 then .some p.2 else .none
    ((dst.map (· / 64)).eraseDups).all fun b => (addrRun (64 * b) 64).all dst.contains

/-- The outward copy of argument i (R375): a command issued at A by no core. It is not outstanding, so its walker does not count as busy
for it (R97); a fault of it names the bundle at which its trap is taken (R79; DESIGN CHOICE, log entry 45). What R267 tests at issue
is pending at A, what its translation finds when the walk's last read is usable (R254, R272). -/
def State.applyArg (s : State) (k : Call) (i : Nat) (a : CallArg) : State :=
  let only := k.markedBytes a.childBox
  let walker := (k.space.herd).getD k.herd
  let own : Space := if k.level = 2 then .dev else .hm k.herd
  let cmd : Cmd :=
    { id := s.nextId, kind := .callOut k.id, ctx := k.ctx, level := k.level + 1, herd := k.herd, core := k.core, walker := walker
      addr := (s.caller k).pc, interlocked := true, issue := s.tick, promise := s.tick, first := s.tick, n := i, outstanding := false }
  let mv : Move :=
    { src := k.space, dst := own, runs := copyRuns true a.ownBox a.childBox a.geo {}, part := i, box := a.ownBox, only := .some only }
  let cuts := mv.cuts.filter fun q => (addrRun q.src q.len).any only.contains
  let refuse (s : State) (t : Nat) (f : Refused) : State :=
    if f.cls = 31 then s.plan t 0 0 (.fatalDue k.ctx 3 cmd.addr)
    else s.plan t 0 0 (.asyncDue k.herd k.core { cls := f.cls, d0 := f.trap.d0, d1 := f.trap.d1, ctx := k.ctx, owner := f.owner })
  let view : Option Aperture := if own = .dev then s.apertureOf a.ownBox else .none
  if cuts.isEmpty then s
  else if view.any fun x => x.xf = 1 then refuse s s.tick { cls := 9, owner := k.ctx, write := true, va := 0 }
  else if view.any fun x => x.xf = 3 && !markedWhole mv.runs only then refuse s s.tick { cls := 10, owner := k.ctx, write := true, va := 0 }
  else
    let tlb := (s.herd walker).tlb
    let (w, r) := s.judgeWalk tlb (s.translateCuts k.ctx cuts { tlb := tlb })
    let s := s.modHerd walker fun h => { h with tlb := w.tlb }
    let (s, t) := s.walkReads k.ctx cmd.addr w.reads (s.tick + 67)
    match r with
    | .error f => refuse s (if s.isRoot k.ctx then s.tick else t) f
    | .ok l =>
      let p := (({ s := s, id := cmd.id, issuing := true } : Plan).placeCuts s.tick t false l).numbered
      s.enterPlan { p with s := p.s.modCall k.id fun k => { k with doneAt := max k.doneAt (p.promise s.tick) } } cmd

/-- What becomes known when F of a sibling is planned: the next sibling's A, the caller's resumption, the join's release (R371,
R375, R377). -/
def State.afterApply (s : State) (k : Call) : State :=
  let s := match ((s.caller k).group[k.sib + 1]?).bind s.call? with | .some q => s.planApply q | .none => s
  let s := if k.suspends then s.planEv (k.doneAt + 1) 0 6 .callerResume { a := k.id } else s
  s.planEv (k.doneAt + 1) 0 7 .joinRelease { a := k.herd, b := k.core }

/-- The write masks of a returned child take in the stores of its last bundles, which perform before any outward copy samples
(R197, R373). -/
def State.markPending (s : State) (k : Call) : Call :=
  let stores := (s.herd ((k.space.herd).getD k.herd)).cores.flatMap (·.stores)
  stores.foldl (fun (k : Call) (x : Store) => k.mark x.space x.level (x.bytes.map (·.1 / 4)).eraseDups) k

/-- OUTWARD_COPY_APPLY (R375): call ev.a at A, unless its predecessor's copies have moved. -/
def execOutwardCopyApply (s : State) : Out :=
  .next (match s.call? s.ev.a with
    | .none => s
    | .some k =>
      let late : Bool := match s.previous k with
        | .none => false
        | .some (q : Call) => !(q.state == .applying || q.state == .applied) || decide (s.tick < q.doneAt)
      if k.state ≠ .returned || (s.ctx k.ctx).failed then s
      else if late then s.planApply k
      else
        let s := match s.previous k with
          | .some q => s.modCall q.id fun q => { q with state := .applied }
          | .none => s
        let k := s.markPending k
        let s := s.modCall k.id fun q => { q with state := .applying, applyAt := s.tick, doneAt := s.tick, masks := k.masks }
        let s := ((k.args.zipIdx).filter fun p => boxWrites p.1.childBox).foldl (fun (s : State) (p : CallArg × Nat) => s.applyArg k p.2 p.1) s
        match s.call? k.id with
        | .some k => s.afterApply k
        | .none => s)

/-- CALLER_RESUME (R371, R372): the caller of ev.a issues its next bundle in this cycle, unless the core runs a handler or stands stopped
after the task that it ran has returned. -/
def execCallerResume (s : State) : Out :=
  .next (match s.call? s.ev.a with
    | .none => s
    | .some k =>
      let c := s.core k.herd k.core
      if !k.done s.tick then s.planEv (k.doneAt + 1) 0 6 .callerResume s.ev
      else
        match c.susp with
        | r :: l =>
          if r.group.contains k.id && c.r.trap.isSome then s.planEv (s.tick + 1) 0 6 .callerResume s.ev
          else if r.group.contains k.id then
            let r : Regs := match r.trap with
              | .some f => if f.carry.hold = .call then { r with trap := .some { f with carry := { f.carry with hold := .none } } } else r
              | .none => r
            (s.modCore k.herd k.core fun c => { c with r := r, susp := l, hold := .none, tile := .none, table := [], xbuf := .none }).planIssue
              k.herd k.core s.tick
          else s
        | [] =>
          if c.hold = .call then (s.modCore k.herd k.core fun c => { c with hold := .none }).planIssue k.herd k.core s.tick else s)

/-! ### The merge (R376) -/

/-- The offset in an own sub-box's stream of a byte of the child box (R250, R378). -/
def CallArg.offset (a : CallArg) (src : Nat) : Nat :=
  let n := rowLength a.childBox a.geo.extents
  let rows := (rowStarts a.childBox [0, 0, 0, 0] a.geo.extents).zipIdx
  match rows.find? fun p => decide (p.1 ≤ src) && decide (src < p.1 + n) with
  | .some p => p.2 * n + (src - p.1)
  | .none => 0

/-- The new value of an element that carries a join mark, in ADD (3) or MAX (4) (R376). R49 is applied in both modes: the rule says so of
ADD, and of MAX it says no mode (DESIGN CHOICE, log entry 42). -/
def mergeElement (f32 : Bool) (mode : Nat) (old new : Word) : Word :=
  if mode = 3 then
    if f32 then BitVec.ofNat 32 (fAdd .fp32 .rne true old.toNat new.toNat).1 else old + new
  else if f32 then BitVec.ofNat 32 (fMax .fp32 true old.toNat new.toNat)
  else if old.toInt < new.toInt then new else old

/-- A conflict is recorded; the first one's place is kept (R378). -/
def noteConflict (k : Call) (i : Nat) (a : CallArg) (n src : Nat) (r : Regs) : Regs :=
  if n = 0 then r
  else
    { r with conflict := match r.conflict with
        | .some c => .some { c with count := Nat.min 255 (c.count + n) }
        | .none => .some { count := Nat.min 255 n, sib := k.sib, ch := i, own := a.own, offset := a.offset src } }

/-- Bytes that arrive under FAULT (0), OVER (1) or KEEP (2). -/
def State.mergeBytes (s : State) (c : Cmd) (k : Call) (a : CallArg) (mode : Nat) (b : Beat) (l : List (Nat × Byte)) : State :=
  let marks := (s.caller k).marks
  let marked (d : Nat) : Bool := marks.contains (b.dstSpace, d)
  let clash := l.filter fun p => mode = 0 && marked p.1 && s.readByte b.dstSpace p.1 ≠ p.2
  let src := match clash with
    | p :: _ => (((b.dst.zip b.src).find? fun q => q.1 == p.1).map (·.2)).getD 0
    | [] => 0
  let s := s.writeBytes b.dstSpace c.level (l.filter fun p => mode = 1 || !marked p.1)
  s.modCaller k fun r => noteConflict k c.n a clash.length src
    { r with marks := ((l.map fun p => (b.dstSpace, p.1)).filter fun m => !marks.contains m) ++ r.marks }

/-- One element of ADD or MAX whose four bytes have arrived: where they go, their values. -/
def State.mergeWord (s : State) (c : Cmd) (k : Call) (a : CallArg) (mode : Nat) (sp : Space) (l : List (Nat × Byte)) : State :=
  let marks := (s.caller k).marks
  let d := l.map (·.1)
  let new : Word := BitVec.ofNat 32 (leNat (l.map (·.2)))
  let v := if d.any fun x => marks.contains (sp, x) then
      mergeElement (boxIsF32 a.childBox) mode (BitVec.ofNat 32 (leNat (s.readBytes sp d))) new
    else new
  (s.writeBytes sp c.level (d.zip (leBytes 4 v.toNat))).modCaller k fun r =>
    { r with marks := ((d.map fun x => (sp, x)).filter fun m => !marks.contains m) ++ r.marks }

/-- Bytes that arrive under ADD or MAX: an element is applied once all four of its bytes have arrived. -/
def State.mergeWords (s : State) (c : Cmd) (k : Call) (a : CallArg) (mode : Nat) (b : Beat) (l : List (Nat × Byte)) : State :=
  let now := (b.dst.zip b.src).filterMap fun q => (l.find? fun p => p.1 == q.1).map fun p => (q.2, p.2)
  let got := c.partials ++ now
  let whole := ((now.map fun p => p.1 / 4).eraseDups).filter fun w => (addrRun (4 * w) 4).all fun x => got.any fun p => p.1 == x
  let dstOf (x : Nat) : Nat :=
    ((c.beats.findSome? fun b => ((b.src.zip b.dst).find? fun q => q.1 == x).map (·.2))).getD 0
  let s := s.modCmd c.id fun c => { c with partials := got.filter fun p => !whole.contains (p.1 / 4) }
  whole.foldl (fun s w => s.mergeWord c k a mode b.dstSpace ((addrRun (4 * w) 4).map fun x => (dstOf x, gotByte got x))) s

/-- The write of a beat: an outward copy merges, every other copy writes its bytes. -/
def State.mergeWrite (s : State) (c : Cmd) (b : Beat) (l : List (Nat × Byte)) : State :=
  match c.kind with
  | .callOut id =>
    match s.call? id with
    | .none => s
    | .some k => match k.args[c.n]? with
      | .none => s
      | .some a =>
        let mode := boxMerge a.childBox
        if mode < 3 then s.mergeBytes c k a mode b l else s.mergeWords c k a mode b l
  | _ => s.writeBeat c b l

/-- Whether every beat of a command has performed. -/
def Cmd.whole (c : Cmd) : Bool := c.beats.all fun b => b.performed

/-- WALKER_BEAT_PERFORM (R253): beat ev.b of command ev.a performs, or its write of line ev.c; the last beat of a `wgeo.tab` loads
the table (R264). -/
def execWalkerBeatPerform (s : State) : Out :=
  let t := s.performBeat State.mergeWrite s.ev.a s.ev.b s.ev.c
  .next (match t.cmd? s.ev.a with
    | .some c => match c.kind with
      | .table n => if c.whole && !((s.cmd? c.id).any Cmd.whole) then t.loadTable c n else t
      | _ => t
    | .none => t)

/-- WALK_FAULT_PENDING (R254): the fault of command ev.a; a call's inward copies take the call with them. -/
def execWalkFaultPending (s : State) : Out :=
  .next (match s.cmd? s.ev.a with
    | .none => s
    | .some c =>
      let t := s.walkFault c.id
      match c.kind with
      | .callIn id => (t.modCall id fun k => { k with args := [], cores := [], left := [] }).returned id
      | .cxmk _ | .cxgive _ | .cxq _ => t.endEngine c.herd c.core s.tick
      | _ => t)

/-! ### `wjoin` (R377, R378) -/

/-- `wjoin` (R377). -/
def execWjoin (s : State) : Out :=
  .next (({ s with cur := { s.cur with hold := .join } } : State).planEv (s.tick + 1) 0 7 .joinRelease
    { a := s.cur.herd, b := s.cur.core })

/-- The overlap-conflict fault of a group (R378). -/
def Conflict.async (c : Conflict) (ctx : Nat) : Async :=
  { cls := 23, d0 := BitVec.ofNat 32 (c.count * 2 ^ 24 + c.sib % 128 * 2 ^ 16 + c.ch % 16 * 2 ^ 8 + c.own % 16)
    d1 := BitVec.ofNat 32 c.offset, ctx := ctx, owner := ctx }

/-- JOIN_RELEASE (R377, R378): core ev.b of herd ev.a, once every copy of its group has performed. -/
def execJoinRelease (s : State) : Out :=
  let h := s.ev.a
  let c := s.ev.b
  let r := s.regs h c
  let calls := r.group.filterMap s.call?
  .next (if (s.core h c).hold ≠ .join then s
    else if calls.all fun k => k.done s.tick then
      let s1 : State := { s with calls := s.calls.filter fun k => !r.group.contains k.id }
      let s1 := s1.modCore h c fun k => { k with hold := .none, r := { k.r with group := [], marks := [], conflict := .none } }
      let s1 := match r.conflict with
        | .some x => s1.raiseAsync h c (x.async ((r.ctx).getD 0))
        | .none => s1
      s1.planIssue h c s.tick
    else if calls.all fun k => k.state == .applying || k.state == .applied then
      s.planEv (calls.foldl (fun m k => max m (k.doneAt + 1)) (s.tick + 1)) 0 7 .joinRelease s.ev
    else s)

/-! ### The checks of `wret` and the end of a called frame (R374, R380) -/

/-- The timing fault of `wret`: an open group, or an engine command of this frame still in flight. -/
def State.mayReturn (s : State) : Res Unit :=
  let walker := s.R.issued.any fun id => match s.cmd? id with
    | .some c => c.outstanding && decide (s.tick < c.promise)
    | .none => false
  let array := s.level = 2 && (s.herd s.cur.herd).array.cmds.any fun c =>
    c.core = s.cur.core && !c.halted && decide (s.tick < c.fin)
  if !s.R.group.isEmpty || walker || array then raise 6 else .ok ()

/-- The executing core's frame ends; with the last entry core the task returns. -/
def State.endFrame (s : State) (f : Frame) : State :=
  let s := s.modMe fun k => { k with hold := .none, r := { k.r with frame := .none, xfer := .none } }
  let s := { s with cur := { s.cur with done := true, ended := .some f }, latch := [] }
  match f.call with
  | .none => s
  | .some id =>
    let s := s.modCall id fun k => { k with left := k.left.filter fun c => c ≠ s.cur.core }
    match s.call? id with
    | .some k => if k.left.isEmpty then s.returned id else s
    | .none => s

end Sys2Proof.Machine
end

