-- ==== Sys2Proof/Machine/Images.lean ====
section
/-! DEFINITION. Images.lean: task images (R26 to R28) as `cxq` and `cxload` check and take them (R62, R64, R420), and queue
descriptors (R422). -/

namespace Sys2Proof.Machine

/-! ### Bytes -/

/-- Whether n bytes from an offset are all zero. -/
def zeroBytes (l : List Byte) (o n : Nat) : Bool := ((l.drop o).take n).all (· = 0)

/-- A list of bytes as little-endian words. -/
def wordsOf : List Byte → List Word
  | a :: b :: c :: d :: l => BitVec.ofNat 32 (leNat [a, b, c, d]) :: wordsOf l
  | _ => []

/-! ### Task records and data records (R27, R28) -/

/-- A byte range of the image, read through the context's translation; none when some byte cannot be read (R28), an uncorrectable line
among them (R454; DEDUCED, log entry 52). -/
def State.imageBytes (s : State) (x base o n : Nat) : Option (List Byte) :=
  if n = 0 then .some []
  else if 2 ^ 48 < base + o + n then .none
  else if s.spaceBad x (base + o) n .read then .none
  else match s.readSpace x (base + o) n with
    | .ok l => .some l
    | .error _ => .none

/-- Whether a box entry of a task of a level passes R14 where it is a descriptor at all (R12, R28). -/
def boxEntryOk (level : Nat) (b : BitVec 256) : Bool := boxAcc b == 0 || boxValid level b

/-- An ENTRY offset that names the first word of a bundle in the code section, as a word index (R28). -/
def entryOk (code : List Word) (off : Nat) : Bool :=
  off % 4 == 0 && decide (off / 4 < code.length) && 2 ≤ posOf (code.getD (off / 4) 0)

/-- A task record with its descriptors; none where it breaks R27, R28 or R14. -/
def State.parseTask (s : State) (x base : Nat) (code : List Word) (l : List Byte) : Option Task :=
  let level := bytesNat l 0 1
  let emask := bytesNat l 1 1
  let nbox := bytesNat l 2 1
  let nparam := bytesNat l 4 2
  let entry (c : Nat) : Nat := bytesNat l (8 + 4 * c) 4
  let ok := 1 ≤ level && level ≤ 3 && emask < 16 && emask != 0 && (level == 2 || emask == 1) && nbox ≤ 16 && nparam ≤ 256
    && zeroBytes l 3 1 && zeroBytes l 6 2 && zeroBytes l 0x1C 4
    && (List.range 4).all fun c => if emask.testBit c then entryOk code (entry c) else entry c == 0
  if !ok then .none
  else match s.imageBytes x base (bytesNat l 0x18 4) (32 * nbox) with
    | .none => .none
    | .some d =>
      let boxes := (List.range nbox).map fun k => BitVec.ofNat 256 (bytesNat d (32 * k) 32)
      if boxes.all (boxEntryOk level) then
        .some { level := level, emask := emask, nparam := nparam, entries := (List.range 4).map fun c => entry c / 4, boxes := boxes
                boxAt := base + bytesNat l 0x18 4 }
      else .none

/-- The data records of a section: address and bytes of each (R28). -/
def parseRecords : Nat → List Byte → Option (List (Nat × List Byte))
  | _, [] => .some []
  | 0, _ => .none
  | k + 1, l =>
    let a := bytesNat l 0 8
    let n := bytesNat l 8 4
    let size := 16 + (n + 15) / 16 * 16
    if l.length < size || 2 ^ 48 < a + n || 2 ^ 48 ≤ a || !zeroBytes l 12 4 || !zeroBytes l (16 + n) (size - 16 - n) then .none
    else match parseRecords k (l.drop size) with
      | .none => .none
      | .some r => .some ((a, (l.drop 16).take n) :: r)

/-- A whole image: its code, tasks and data records; none where it is refused (R26 to R28). -/
def State.parseImage (s : State) (x base : Nat) : Option (Image × List (Nat × List Byte)) := do
  let h ← s.imageBytes x base 0 64
  let ntask := bytesNat h 6 2
  let codelen := bytesNat h 0x10 4
  let datalen := bytesNat h 0x18 4
  let root := bytesNat h 0x1C 2
  if bytesNat h 0 4 ≠ 0x4D49465A || bytesNat h 4 2 ≠ 1 || ntask < 1 || 4096 < ntask || codelen % 4 ≠ 0 || 262144 < codelen
      || datalen % 16 ≠ 0 || ntask ≤ root || !zeroBytes h 0x1E 34 then .none
  let code ← s.imageBytes x base (bytesNat h 0x0C 4) codelen
  let words := wordsOf code
  let records ← s.imageBytes x base (bytesNat h 8 4) (32 * ntask)
  let tasks ← (List.range ntask).mapM fun k => s.parseTask x base words ((records.drop (32 * k)).take 32)
  if (tasks[root]?.map (·.level)) ≠ .some 3 then .none
  let data ← s.imageBytes x base (bytesNat h 0x14 4) datalen
  let recs ← parseRecords (datalen / 16) data
  return ({ id := 0, code := words, tasks := tasks, root := root }, recs)

/-- The data records placed at their addresses, each once; none when some byte cannot be written, and then nothing is placed
(R28). -/
def State.placeRecords (s : State) (x : Nat) (l : List (Nat × List Byte)) : Option State :=
  l.foldlM (fun s p => match s.writeSpace x p.1 p.2 with | .ok t => .some t | .error _ => .none) s

/-! ### Queues (R58, R422) -/

def State.modQueue (s : State) (x q : Nat) (f : Queue → Queue) : State :=
  s.modCtx x fun k => { k with queues := k.queues.modify q f }


/-- Whether a queue descriptor holds only valid fields (R422): otherwise status 2. -/
def queueDescOk (d : List Byte) : Bool :=
  let mlen := bytesNat d 0x10 2
  let drain := bytesNat d 0x16 2
  bytesNat d 8 8 % 4 == 0 && bytesNat d 8 8 < 2 ^ 48 && 1 ≤ mlen && mlen ≤ 256 && bytesNat d 0x12 2 ≤ 256 && bytesNat d 0x14 1 < 16
    && 1 ≤ drain && drain ≤ 256 && bytesNat d 0x18 1 < 4 && zeroBytes d 0x1A 6

/-- The queue slots that a context may still use for its own queues (R73). -/
def State.queueSlots (s : State) (x : Nat) : Nat :=
  (s.ctx x).qslots - ((s.ctxs.filter fun k => k.parent == .some x).map (·.qslots)).sum

def Ctx.configured (x : Ctx) : Nat := (x.queues.filter fun q => q.state ≠ 0).length

/-- An image taken as a queue's own copy (R62, R100): its code, and its task records with the declarations of level-1 and level-2 tasks, as
they stand now (DEDUCED, log entry 54). -/
def State.takeImage (s : State) (x q : Nat) (m : Image) : State :=
  let (id, s) := s.newId
  let s : State := { s with images := s.images ++ [{ m with id := id }] }
  s.modQueue x q fun k => { k with image := id }

/-- The stretches of an image that taking it reads, by its header: address and length of the header, its sections and the descriptors of its
tasks (R26, R27). -/
def State.imageRanges (s : State) (x base : Nat) : List (Nat × Nat) :=
  match s.imageBytes x base 0 64 with
  | .none => [(base, 64)]
  | .some h =>
    let n := bytesNat h 6 2
    let records := (s.imageBytes x base (bytesNat h 8 4) (32 * n)).getD []
    let task (k : Nat) : Nat × Nat := (base + bytesNat records (32 * k + 0x18) 4, 32 * Nat.min 16 (bytesNat records (32 * k + 2) 1))
    ((base, 64) :: (base + bytesNat h 0x0C 4, bytesNat h 0x10 4) :: (base + bytesNat h 8 4, 32 * n)
      :: (base + bytesNat h 0x14 4, bytesNat h 0x18 4) :: (List.range (Nat.min 4096 n)).map task)

/-- `cxq` completes for context x (R422): the new state and the status. -/
def State.configure (s : State) (x : Nat) (d : List Byte) : State × Nat :=
  let q := bytesNat d 0x14 1
  let k := (s.ctx x).queue q
  if !queueDescOk d then (s, 2)
  else if k.state = 2 then (s, 3)
  else if bytesNat d 0x18 1 / 2 = 1 then
    ((s.modQueue x q fun k => { k with state := 0, deficit := 0 }).modCtx x fun c => { c with pend := c.pend &&& ~~~(1#16 <<< q) }, 0)
  else if k.state = 0 && Nat.min 16 (s.queueSlots x) ≤ (s.ctx x).configured then (s, 4)
  else
    let refused := s.modQueue x q fun k => { k with state := 3, desc := d }
    match s.parseImage x (bytesNat d 0 8) with
    | .none => (refused, 1)
    | .some (m, recs) =>
      match s.placeRecords x recs with
      | .none => (refused, 1)
      | .some t => ((t.takeImage x q m).modQueue x q fun k => { k with state := 1, desc := d }, 0)

/-- The queues of a restored context configured again (R420, R64): images checked and taken, no data record placed; none when some
image is refused. -/
def State.reconfigure (s : State) (x : Nat) : Option State :=
  (List.range 16).foldlM (fun s q =>
    let k := (s.ctx x).queue q
    if k.state = 1 || k.state = 2 then
      match s.parseImage x k.imageAddr with
      | .none => Option.none
      | .some (m, recs) => match s.placeRecords x recs with
        | .none => Option.none
        | .some _ => Option.some (s.takeImage x q m)
    else Option.some s) s

end Sys2Proof.Machine
end

