-- ==== Sys2Proof/Machine/SaveArea.lean ====
section
/-! DEFINITION. SaveArea.lean: the layout of a context's save area (R409 to R413): what each place of it holds of a stopped
context, and what a restore takes from a place whose bytes are no longer those that the save wrote. State that the layout has no
place for (box tables, frames set aside by a call) is kept with the context (log entry 30). -/

namespace Sys2Proof.Machine

/-! ### Stretches of memory -/

/-- The bytes of n addresses from a on, by their offsets. -/
def Mem.slice (m : Mem) (a n : Nat) : Mem :=
  (m.filter fun p => decide (a ≤ p.1) && decide (p.1 < a + n)).map fun p => (p.1 - a, p.2)

/-- n addresses from a on overwritten with the bytes listed by offset, zero where none is listed. -/
def Mem.overlay (m : Mem) (a n : Nat) (l : Mem) : Mem :=
  (m.filter fun p => decide (p.1 < a)) ++ ((l.filter fun p => decide (p.1 < n)).map fun p => (a + p.1, p.2))
    ++ m.filter fun p => decide (a + n ≤ p.1)

/-- Bytes at an offset as a memory: zeros are not listed. -/
def Mem.ofBytes (off : Nat) (l : List Byte) : Mem := (bytesAt off l).filter fun p => p.2 ≠ 0

/-- A stretch of a context's space, read through its translation. -/
def State.sliceSpace (s : State) (x a n : Nat) : Except Refused Mem := do
  let (l, _) ← s.spacePieces x a n .read
  return l.flatMap fun p => (s.dev.slice p.2.1 p.2.2).map fun z => (z.1 + p.1, z.2)

/-- A stretch of a context's space overwritten through its translation. -/
def State.overlaySpace (s : State) (x a n : Nat) (l : Mem) : Except Refused State :=
  (s.spacePieces x a n .write).map fun r => r.1.foldl (fun (s : State) p =>
    { s with
      dev := s.dev.overlay p.2.1 p.2.2 (l.slice p.1 p.2.2)
      devBad := s.devBad.filter fun line => !(decide (p.2.1 ≤ line * 64) && decide (line * 64 + 64 ≤ p.2.1 + p.2.2)) }) s

/-! ### Places -/

/-- A place of the area: its offset and length, the bytes that it holds of a thing, and the thing with other bytes taken from it. -/
structure Slot (α : Type) where
  off : Nat
  len : Nat
  get : α → List Byte
  set : List Byte → α → α := fun _ x => x

/-- What the places hold of a thing, from a base on; what no place covers is zero. -/
def encodeSlots {α : Type} (base : Nat) (l : List (Slot α)) (x : α) : Mem :=
  l.flatMap fun q => Mem.ofBytes (base + q.off) ((q.get x).take q.len)

/-- The bytes of a place in an area. -/
def Mem.bytesOf (m : Mem) (a n : Nat) : List Byte :=
  let c := m.slice a n
  (List.range n).map fun i => c.read i

/-- A thing as the area gives it: places that still hold its own bytes change nothing. -/
def decodeSlots {α : Type} (base : Nat) (l : List (Slot α)) (area : Mem) (x : α) : α :=
  l.foldl (fun x q =>
    if area.slice (base + q.off) q.len = Mem.ofBytes 0 ((q.get x).take q.len) then x
    else q.set (area.bytesOf (base + q.off) q.len) x) x

/-- Words as bytes. -/
def wordBytes (l : List Word) : List Byte := l.flatMap fun w => leBytes 4 w.toNat

/-- n little-endian numbers of w bytes. -/
def numbersOf (w n : Nat) (l : List Byte) : List Nat := (List.range n).map fun i => bytesNat l (w * i) w

/-- The cycle after the stop cycle, and its vcyc: distances and virtual cycles in the area count from it (R407, R414). -/
structure AfterStop where
  tick : Nat
  vcyc : Int

/-- The virtual cycle of a cycle. -/
def AfterStop.at_ (z : AfterStop) (t : Nat) : Nat := (z.vcyc + ((t : Int) - z.tick)).toNat

/-! ### A core (R412) -/

/-- A loop-stack entry as the number of R153. -/
def LoopEntry.bits (e : LoopEntry) : Nat :=
  e.pro.toNat * 2 ^ 144 + e.epi.toNat * 2 ^ 128 + e.start.toNat * 2 ^ 112 + e.fin.toNat * 2 ^ 96 + e.count.toNat * 2 ^ 64
    + e.index.toNat * 2 ^ 32 + e.kind.toNat * 2 ^ 31 + e.clamp.toNat * 2 ^ 30 + e.resume.toNat * 2 ^ 29 + e.sm1.toNat * 2 ^ 25

def LoopEntry.ofBits (n : Nat) : LoopEntry :=
  let f (lo w : Nat) : Nat := n / 2 ^ lo % 2 ^ w
  { pro := BitVec.ofNat 16 (f 144 16), epi := BitVec.ofNat 16 (f 128 16), start := BitVec.ofNat 16 (f 112 16)
    fin := BitVec.ofNat 16 (f 96 16), count := BitVec.ofNat 32 (f 64 32), index := BitVec.ofNat 32 (f 32 32)
    kind := n.testBit 31, clamp := n.testBit 30, resume := n.testBit 29, sm1 := BitVec.ofNat 4 (f 25 4) }

/-- A loop stack in six places of 20 bytes. -/
def loopBytes (l : List LoopEntry) : List Byte :=
  (List.range 6).flatMap fun i => leBytes 20 ((l[i]?.map LoopEntry.bits).getD 0)

def loopsOf (depth : Nat) (l : List Byte) : List LoopEntry := ((numbersOf 20 6 l).take depth).map LoopEntry.ofBits

/-- A pending transfer as a word: an interrupted delay bundle is among those left (R151, R389; DEDUCED, log entry 31). -/
def transferWord (x : Option Transfer) : Nat :=
  match x with | .some t => t.target.toNat + t.left % 4 * 2 ^ 16 + 2 ^ 18 | .none => 0

/-- A pending transfer read back: its own bundle has committed (DEDUCED, log entry 31). -/
def transferOf (n : Nat) : Option Transfer :=
  if n.testBit 18 then .some { target := BitVec.ofNat 16 n, left := n / 2 ^ 16 % 4, fresh := false } else .none

/-- The window word: window base, block size in words, block bound. -/
def windowWord (base : BitVec 8) (bank : Option (List Word)) : Nat :=
  base.toNat + (match bank with | .some l => l.length % 512 * 256 + 2 ^ 17 | .none => 0)

/-- A bound block resized as a window word says. -/
def bankOf' (n : Nat) (bank : Option (List Word)) : Option (List Word) :=
  if n.testBit 17 then
    let k := Nat.min 256 (n / 256 % 512)
    .some ((bank.getD [] ++ List.replicate 256 0).take k)
  else .none

/-- A constant bank's words as bytes, and back. -/
def bankBytes (bank : Option (List Word)) : List Byte := wordBytes (bank.getD [])

def bankWords (l : List Byte) (bank : Option (List Word)) : Option (List Word) :=
  bank.map fun old => ((numbersOf 4 256 l).map (BitVec.ofNat 32)).take old.length

/-- A geometry in 16 bytes: four origins, then four extents. -/
def Geo.bytes (g : Geo) : List Byte := [g.o0, g.o1, g.o2, g.o3, g.e0, g.e1, g.e2, g.e3].flatMap fun v => leBytes 2 v.toNat

def Geo.ofBytes (l : List Byte) : Geo :=
  let f (i : Nat) : BitVec 16 := BitVec.ofNat 16 (bytesNat l (2 * i) 2)
  { o0 := f 0, o1 := f 1, o2 := f 2, o3 := f 3, e0 := f 4, e1 := f 5, e2 := f 6, e3 := f 7 }

/-! ### In-flight queues (R389, R407, R412) -/

/-- The kind and the register of a queue entry; a destination that the layout has no kind for has none. -/
def Dest.queueKind : Dest → Option (Nat × Nat)
  | .none => .some (1, 0)
  | .scalar n => .some (1, n)
  | .pred n => .some (2, n)
  | .branch n => .some (3, n)
  | .tileRow t _ => .some (4, t)
  | .scale k => .some (5, k)
  | _ => .none

def Dest.rowOf : Dest → Nat
  | .tileRow _ n => n
  | _ => 0

/-- The row mask of the writes of one entry: the rows, or for a scale register the rows whose scale bytes, at r and 32 + r, are
written one by one (R234, log entry 30); no bit for a whole scale register. -/
def rowMask (kind : Nat) (l : List Pend) : Nat :=
  let bytes := l.map fun p => (List.range 64).filter fun j => p.mask.getLsbD j
  if kind = 4 then l.foldl (fun m p => m ||| 2 ^ p.dest.rowOf) 0
  else if kind = 5 && bytes.all fun b => b.length == 1 then bytes.foldl (fun m b => m ||| 2 ^ (b.headD 0 % 32)) 0
  else 0

/-- A scale register with every byte that pending writes give it. -/
def mergeScale (old : Row512) (l : List Pend) : Row512 := l.foldl (fun v p => mergeRow v p.val p.mask) old

/-- Entries of 24 bytes and the rows that they index, from row `base` of the row data on. -/
def queueBytes (r : Regs) (q : List Pend) (base : Nat) : List (List Byte) × List Row512 :=
  let keys := (q.filterMap fun p => p.dest.queueKind.map fun k => (p.seq, k)).eraseDups
  keys.foldl (fun (acc : List (List Byte) × List Row512) (key : Nat × Nat × Nat) =>
    let l := q.filter fun p => p.seq == key.1 && p.dest.queueKind == .some key.2
    let p := l.headD { due := 0, dest := .none }
    let first := l.foldl (fun m (p : Pend) => Nat.min m p.due) p.due
    let tile := key.2.1 = 4
    let rows : List Row512 :=
      if tile then
        (List.range 32).filterMap fun n => (l.find? fun p => p.dest.rowOf == n).map fun p => mergeRow (r.row key.2.2 n) p.val p.mask
      else if key.2.1 = 5 then [mergeScale (r.k.getD key.2.2 0) l]
      else []
    let mask := rowMask key.2.1 l
    let flags := (if tile then p.cls else p.fflags).toNat + (match p.slot with | .some k => 32 + k % 4 * 64 | .none => 0)
    let value : List Byte :=
      if 4 ≤ key.2.1 then leBytes 8 (base + acc.2.length) else leBytes 8 (p.val.toNat % 2 ^ 64)
    let entry := [BitVec.ofNat 8 key.2.1, BitVec.ofNat 8 key.2.2, BitVec.ofNat 8 first, BitVec.ofNat 8 flags] ++ leBytes 4 mask
      ++ value ++ leBytes 8 p.addr.toNat
    (acc.1 ++ [entry], acc.2 ++ rows)) ([], [])

/-- A whole queue area: the two queues of 32 entries and the row data (R412). -/
def queueArea (r : Regs) (main trap : List Pend) : List Byte :=
  let (e1, rows1) := queueBytes r main 0
  let (e2, rows2) := queueBytes r trap rows1.length
  let pad (l : List (List Byte)) : List Byte := (l.take 32).flatten ++ List.replicate (768 - 24 * Nat.min 32 l.length) 0
  pad e1 ++ pad e2 ++ ((rows1 ++ rows2).take 128).flatMap fun v => leBytes 64 v.toNat

/-- The writes of one entry, its distances counted from cycle `t`. -/
def entryPends (t seq : Nat) (rows : List Byte) (e : List Byte) : List Pend :=
  let kind := bytesNat e 0 1
  let reg := bytesNat e 1 1
  let k := bytesNat e 2 1
  let flags := bytesNat e 3 1
  let mask := bytesNat e 4 4
  let row (i : Nat) : Row512 := BitVec.ofNat 512 (bytesNat rows (64 * (bytesNat e 8 2 + i)) 64)
  let first := ((List.range 32).find? fun n => mask.testBit n).getD 0
  let base : Pend :=
    { due := t + k, seq := seq, dest := .none, val := BitVec.ofNat 512 (bytesNat e 8 8), mask := BitVec.allOnes 64
      fflags := BitVec.ofNat 5 flags, slot := if flags.testBit 5 then .some (flags / 64 % 4) else .none
      cls := BitVec.ofNat 5 flags, addr := BitVec.ofNat 16 (bytesNat e 16 2) }
  match kind with
  | 1 => [{ base with dest := if reg = 0 then .none else .scalar (reg % 24) }]
  | 2 => [{ base with dest := .pred (reg % 8) }]
  | 3 => [{ base with dest := .branch (reg % 4) }]
  | 4 => (((List.range 32).filter fun n => mask.testBit n).zipIdx).map fun p =>
      { base with dest := .tileRow (reg % 8) p.1, due := t + k + (p.1 - first) / 4, val := row p.2, fflags := 0 }
  | 5 =>
    let p : Pend := { base with dest := .scale (reg % 8), val := row 0, fflags := 0 }
    if mask = 0 then [p]
    else ((List.range 32).filter fun n => mask.testBit n).map fun n =>
      { p with due := t + k + (n - first) / 4, mask := BitVec.ofNat 64 (2 ^ n + 2 ^ (32 + n)) }
  | _ => []

/-- A queue of 32 entries read back, its first entry the syllable of number `seq` in issue order. -/
def queueOf (t seq : Nat) (entries rows : List Byte) : List Pend :=
  ((List.range 32).flatMap fun i => entryPends t (seq + i) rows ((entries.drop (24 * i)).take 24)).foldl (fun l p => insertPend p l) []

/-! ### The core block -/

/-- The loop stack of a trap frame as the area holds it: the entry that a clamp in effect saves stands on it, with RESUME (R160; log entry
51). -/
def TrapFrame.stack (f : TrapFrame) : List LoopEntry := (match f.clamp with | .some e => [{ e with resume := true }] | .none => []) ++ f.loops

/-- A trap frame with a loop stack read from the area. -/
def TrapFrame.withStack (f : TrapFrame) (l : List LoopEntry) : TrapFrame :=
  match l with
  | e :: r => if e.resume then { f with clamp := .some e, loops := r } else { f with clamp := .none, loops := l }
  | [] => { f with clamp := .none, loops := [] }

/-- The trap frame's 144 bytes: bundle and first slot, sw, rcur and depth, loop stack, pending transfer, window word, in the order in
which R412 names them (log entry 31). -/
def TrapFrame.bytes (f : TrapFrame) : List Byte :=
  leBytes 4 (f.pc.toNat + f.sres % 8 * 2 ^ 16) ++ leBytes 4 f.sw.toNat ++ leBytes 4 (f.rcur.toNat + f.stack.length % 8 * 2 ^ 16)
    ++ loopBytes f.stack ++ leBytes 4 (transferWord f.xfer) ++ leBytes 4 (windowWord f.winBase f.bank) ++ leBytes 4 0

def TrapFrame.ofBytes (f : TrapFrame) (l : List Byte) : TrapFrame :=
  let w := bytesNat l 136 4
  { f.withStack (loopsOf (bytesNat l 10 1 % 8) (l.drop 12)) with
    pc := BitVec.ofNat 16 (bytesNat l 0 2), sres := bytesNat l 2 1 % 8, sw := BitVec.ofNat 32 (bytesNat l 4 4 % 256)
    rcur := BitVec.ofNat 5 (bytesNat l 8 1)
    xfer := transferOf (bytesNat l 132 4), winBase := BitVec.ofNat 8 w, bank := bankOf' w f.bank }

/-- An empty trap frame, to be filled from the area. -/
def TrapFrame.blank : TrapFrame :=
  { pc := 0, sres := 0, next := .none, sw := 0, rcur := 0, loops := [], xfer := .none, bank := .none, winBase := 0, queue := [], ix0 := 0 }

/-- The word at 0xA8 of a core block: program counter, FRAME, HANDLER, stopped under R395. -/
def Core.stateWord (k : Core) : Nat :=
  k.r.pc.toNat + k.r.frame.isSome.toNat * 2 ^ 16 + k.inHandler.toNat * 2 ^ 17 + (k.hold == .reflected).toNat * 2 ^ 18

/-- A core with the program counter, FRAME, HANDLER and stop mark of a word; a frame that the area gives and the context did not
hold is that of a task with no box bound. -/
def Core.ofStateWord (x : Nat) (n : Nat) (k : Core) : Core :=
  let blank : Frame := { ctx := x, level := 3, image := 0, task := 0, call := .none, queue := 0, boxes := List.replicate 16 .none }
  let frame := if n.testBit 16 then .some (k.r.frame.getD blank) else Option.none
  let stopped := n.testBit 18
  let trap := if n.testBit 17 || stopped then .some (k.r.trap.getD TrapFrame.blank) else Option.none
  { k with
    hold := if stopped then .reflected else if k.hold == .reflected then .none else k.hold
    r := { k.r with pc := BitVec.ofNat 16 n, frame := frame, trap := trap } }

/-- The 36 bytes of dead marks. -/
def Regs.deadBytes (r : Regs) : List Byte := leBytes 4 r.deadS.toNat ++ r.deadT.flatMap fun d => leBytes 4 d.toNat

/-- The places of a core block of context x (R412). -/
def coreSlots (x : Nat) (z : AfterStop) : List (Slot Core) :=
  let R (off len : Nat) (get : Regs → List Byte) (set : List Byte → Regs → Regs) : Slot Core :=
    { off := off, len := len, get := fun k => get k.r, set := fun l k => { k with r := set l k.r } }
  let words (n : Nat) (l : List Byte) : List Word := (numbersOf 4 n l).map (BitVec.ofNat 32)
  [ R 0 96 (fun r => wordBytes (0 :: r.s.drop 1)) (fun l r => { r with s := 0 :: (words 24 l).drop 1 }),
    R 0x60 64 (fun r => (List.range 8).flatMap fun n => leBytes 8 (r.pred n).toNat)
      (fun l r => { r with p := (numbersOf 8 8 l).map (BitVec.ofNat 64) }),
    R 0xA0 8 (fun r => r.bt.flatMap fun v => leBytes 2 v.toNat) (fun l r => { r with bt := (numbersOf 2 4 l).map (BitVec.ofNat 16) }),
    { off := 0xA8, len := 4, get := fun k => leBytes 4 k.stateWord, set := fun l k => k.ofStateWord x (bytesNat l 0 4) },
    { off := 0xAC, len := 124
      get := fun k => leBytes 4 (k.r.rcur.toNat + k.phase.toNat * 256 + k.r.loops.length % 8 * 2 ^ 16) ++ loopBytes k.r.loops
      set := fun l k => { k with
        phase := BitVec.ofNat 6 (bytesNat l 1 1)
        r := { k.r with rcur := BitVec.ofNat 5 (bytesNat l 0 1), loops := loopsOf (bytesNat l 2 1 % 8) (l.drop 4) } } },
    R 0x128 4 (fun r => leBytes 4 (transferWord r.xfer)) (fun l r => { r with xfer := transferOf (bytesNat l 0 4) }),
    R 0x12C 20 (fun r => wordBytes [r.sw, r.fsr.setWidth 32, r.tfsr.setWidth 32 &&& 0x3FFFFFFF#32,
        (r.tfsr >>> 30).setWidth 32 &&& 0x3FFFFFFF#32, (r.tfsr >>> 60).setWidth 32 &&& 0xFFFFF#32])
      (fun l r => { r with
        sw := BitVec.ofNat 32 (bytesNat l 0 4 % 256), fsr := BitVec.ofNat 5 (bytesNat l 4 4)
        tfsr := BitVec.ofNat 80 (bytesNat l 8 4 % 2 ^ 30 + bytesNat l 12 4 % 2 ^ 30 * 2 ^ 30 + bytesNat l 16 4 % 2 ^ 20 * 2 ^ 60) }),
    R 0x14C 16 (fun r => wordBytes r.xr) (fun l r => { r with xr := (words 4 l).map fun w => w &&& 0x801FFFFF#32 }),
    R 0x15C 36 Regs.deadBytes (fun l r => { r with
      deadS := BitVec.ofNat 24 (bytesNat l 0 4) &&& 0xFFFFFE#24, deadT := (numbersOf 4 8 (l.drop 4)).map (BitVec.ofNat 32) }),
    R 0x180 128 (fun r => r.gm.flatMap Geo.bytes) (fun l r => { r with gm := (List.range 8).map fun i => Geo.ofBytes (l.drop (16 * i)) }),
    R 0x200 12 (fun r => leBytes 12 r.mgeo.toNat) (fun l r => { r with mgeo := BitVec.ofNat 96 (leNat l / 4 * 4) }),
    R 0x20C 4 (fun r => leBytes 4 (windowWord r.winBase r.bank))
      (fun l r => let n := leNat l; { r with winBase := BitVec.ofNat 8 n, bank := bankOf' n r.bank }),
    R 0x210 144 (fun r => match r.trap with | .some f => f.bytes | .none => []) (fun l r => { r with trap := r.trap.map fun f => f.ofBytes l }),
    { off := 0x2A0, len := 16
      get := fun k => if k.hold == .wait || k.hold == .join then
          [if k.hold == .join then 3 else 1, 0, 0, 0, 0, 0, 0, 0] ++ leBytes 8 (z.at_ k.issueAt) else []
      set := fun l k =>
        let n := bytesNat l 0 1
        if n % 2 = 0 then (if k.hold == .wait || k.hold == .join then { k with hold := .none } else k)
        else { k with hold := if n / 2 % 2 = 1 then .join else .wait
                      issueAt := z.tick + ((bytesNat l 8 8 : Int) - z.vcyc).toNat } },
    R 0x400 1024 (fun r => bankBytes r.bank) (fun l r => { r with bank := bankWords l r.bank }),
    R 0x800 1024 (fun r => match r.trap with | .some f => bankBytes f.bank | .none => [])
      (fun l r => { r with trap := r.trap.map fun f => { f with bank := bankWords l f.bank } }),
    R 0xC00 1024 (fun r => r.idx.flatMap fun v => leBytes 2 v.toNat) (fun l r => { r with idx := (numbersOf 2 512 l).map (BitVec.ofNat 16) }),
    { off := 0x1000, len := 0x2600
      get := fun k => queueArea k.r (k.inFlight z.tick) (match k.r.trap with | .some f => f.queue | .none => [])
      set := fun l k =>
        let rows := l.drop 1536
        { k with
          seq := Nat.max k.seq 64
          r := { k.r with
            pend := queueOf z.tick 32 l rows
            trap := k.r.trap.map fun f => { f with queue := queueOf 0 0 (l.drop 768) rows, seq := 32 } } } } ]

/-! ### A herd (R411) -/

/-- A lease table entry as the number of R307. -/
def Lease.bits (e : Lease) : Nat :=
  e.fin.toNat * 2 ^ 48 + e.start.toNat * 2 ^ 16 + e.isOpen.toNat * 8 + e.v.toNat * 4 + e.core.toNat

def Lease.ofBits (n : Nat) : Lease :=
  { fin := BitVec.ofNat 32 (n / 2 ^ 48), start := BitVec.ofNat 32 (n / 2 ^ 16), isOpen := n.testBit 3, v := n.testBit 2, core := BitVec.ofNat 2 n }

/-- The op byte of a halted command (log entry 31): the op number of MXA or MXB in [2:0] (R313, R314), [3] set for MXB and for the weight-slot
form of `mspill` and `mfill`, the set in [5:4], the slot in [6], a quiet command in [7]. -/
def ArrOp.number : ArrOp → Nat
  | .mload w => 64 * (w % 2)
  | .mrun s w quiet => 1 + 16 * (s % 4) + 64 * (w % 2) + 128 * quiet.toNat
  | .spillAcc s => 4 + 16 * (s % 4)
  | .spillSlot w => 12 + 64 * (w % 2)
  | .fillAcc s => 5 + 16 * (s % 4)
  | .fillSlot w => 13 + 64 * (w % 2)
  | .menc _ quiet => 8 + 128 * quiet.toNat
  | .mcomp _ => 9

/-- The operation of an op byte, `n` being the count of `menc` and `mcomp`. -/
def ArrOp.ofNumber (b n : Nat) : Option ArrOp :=
  let s := b / 16 % 4
  let w := b / 64 % 2
  let quiet := b.testBit 7
  match b % 16 with
  | 0 => .some (.mload w)
  | 1 => .some (.mrun s w quiet)
  | 4 => .some (.spillAcc s)
  | 5 => .some (.fillAcc s)
  | 8 => .some (.menc n quiet)
  | 9 => .some (.mcomp n)
  | 12 => .some (.spillSlot w)
  | 13 => .some (.fillSlot w)
  | _ => .none

/-- The count that `menc` and `mcomp` name. -/
def ArrOp.count : ArrOp → Nat
  | .menc n _ | .mcomp n => n
  | _ => 0

/-- The record of a halted command: op, core, progress (16 bits, R296), path, issue vcyc, geometry, count (log entry 31). -/
def ArrCmd.record (z : AfterStop) (c : ArrCmd) : List Byte :=
  [BitVec.ofNat 8 c.op.number, BitVec.ofNat 8 c.core] ++ leBytes 2 c.progress ++ leBytes 4 c.path.toNat ++ leBytes 8 (z.at_ c.at_)
    ++ leBytes 12 c.geo.toNat ++ leBytes 4 c.op.count

/-- A cycle by its vcyc. -/
def AfterStop.tickOf (z : AfterStop) (v : Int) : Nat := ((z.tick : Int) + (v - z.vcyc)).toNat

/-- A halted command with what its record says; what it had read before its stop is not in the record, and is read again (log entry 30). -/
def ArrCmd.ofRecord (z : AfterStop) (l : List Byte) (c : ArrCmd) : ArrCmd :=
  let t := z.tickOf (bytesNat l 8 8)
  { c with
    op := (ArrOp.ofNumber (bytesNat l 0 1) (bytesNat l 28 1)).getD c.op, core := bytesNat l 1 1 % 4, progress := bytesNat l 2 2
    path := BitVec.ofNat 32 (bytesNat l 4 4), at_ := t, fin := t + (c.fin - c.at_), geo := BitVec.ofNat 96 (bytesNat l 16 12 / 4 * 4)
    data := [], scales := [], recs := [] }

/-- The n-th of some records of `size` bytes read back into the thing that it was written from: unless it stands as it was written. -/
def readRecord {α : Type} (size : Nat) (write : α → List Byte) (read : List Byte → α → α) (l : List Byte) (n : Nat) (x : α) : α :=
  let now := (l.drop (size * n)).take size
  if now = write x then x else read now x

/-- The places of the array block (R411). -/
def arraySlots (z : AfterStop) : List (Slot Array) :=
  [ { off := 0, len := 4
      get := fun a => (a.ws.take 2).flatMap fun w => [BitVec.ofNat 8 w.fmtb, BitVec.ofNat 8 w.ng]
      set := fun l a => { a with ws := (a.ws.zipIdx).map fun p => { p.1 with fmtb := bytesNat l (2 * p.2) 1, ng := bytesNat l (2 * p.2 + 1) 1 } } },
    { off := 4, len := 16
      get := fun a => wordBytes [a.cnv, a.cof, a.cuf, a.cnx]
      set := fun l a =>
        let w (i : Nat) : Word := BitVec.ofNat 32 (bytesNat l (4 * i) 4)
        { a with cnv := w 0, cof := w 1, cuf := w 2, cnx := w 3 } },
    { off := 0x20, len := 64
      get := fun a => a.leases.flatMap fun e => leBytes 16 e.bits
      set := fun l a => { a with leases := (numbersOf 16 4 l).map Lease.ofBits } },
    { off := 0x60, len := 128
      get := fun a => ((a.cmds.filter (·.halted)).take 4).flatMap fun c => c.record z
      set := fun l a =>
        let halted := ((a.cmds.filter (·.halted)).zipIdx).map fun p =>
          if p.2 < 4 then readRecord 32 (ArrCmd.record z) (ArrCmd.ofRecord z) l p.2 p.1 else p.1
        { a with cmds := a.cmds.map fun c => (halted.find? fun k => k.id == c.id).getD c } } ]

/-- The op number of a walker command (R261, R285, R289, R366). -/
def CmdKind.opNumber : CmdKind → Nat
  | .copy => 0 | .mcast => 1 | .gather => 2 | .scatter => 3
  | .wamo _ _ _ _ _ => 5 | .table _ => 6 | .snap => 7
  | .callIn _ | .callOut _ => 8
  | _ => 63

/-- The number of the first of some beats that has not performed (R258). -/
def firstLeft (l : List Beat) : Nat :=
  ((l.filter fun b => !b.performed).map (·.num)).foldl Nat.min ((l.map fun b => b.num + 1).foldl Nat.max 0)

/-- The progress index of a command (R258, R291, R398): its first beat that has not performed; blocks for `wsnap`. -/
def Cmd.progressIndex (c : Cmd) : Nat :=
  match c.kind with
  | .snap => c.n
  | _ => firstLeft c.beats

/-- A walker record (R411). -/
def Cmd.walkerRecord (z : AfterStop) (c : Cmd) : List Byte :=
  [BitVec.ofNat 8 c.kind.opNumber, BitVec.ofNat 8 c.core] ++ leBytes 2 c.progressIndex ++ leBytes 4 c.route.toNat
    ++ leBytes 8 (z.at_ c.promise) ++ c.own.bytes ++ c.far.bytes ++ leBytes 4 c.bound.toNat ++ leBytes 4 c.changed ++ leBytes 8 0

/-- A command with what its walker record says: the beats before the progress index have performed, the others are still to be moved. -/
def Cmd.ofRecord (z : AfterStop) (l : List Byte) (c : Cmd) : Cmd :=
  let p := bytesNat l 2 2
  let c : Cmd := match c.kind with
    | .snap => { c with n := p }
    | _ => { c with beats := c.beats.map fun b =>
        if b.num < p then { b with performed := true } else { b with performed := false, abandoned := true } }
  { c with
    core := bytesNat l 1 1 % 4, route := BitVec.ofNat 32 (bytesNat l 4 4), promise := z.tick + ((bytesNat l 8 8 : Int) - z.vcyc).toNat
    own := Geo.ofBytes (l.drop 16), far := Geo.ofBytes (l.drop 32), bound := BitVec.ofNat 32 (bytesNat l 48 4)
    changed := bytesNat l 52 4 }

/-- The state codes of a sibling (R411). -/
def CallState.code : CallState → Nat
  | .entering => 1 | .running => 2 | .returned => 3 | .applying => 4 | .applied => 5

def CallState.ofCode (n : Nat) (old : CallState) : CallState :=
  match n with
  | 1 => .entering | 2 => .running | 3 => .returned | 4 => .applying | 5 => .applied | _ => old

/-- The cycle that a call record holds: the entry cycle, or A once the outward copies have begun. -/
def Call.recordAt (k : Call) : Nat := if k.state == .applying || k.state == .applied then k.applyAt else k.entry

/-- The commands whose copies a call has under way: inward before its entry, outward from A on (R369, R375). -/
def Call.copies (k : Call) (cmds : List Cmd) : List Cmd :=
  cmds.filter fun c => c.ofCall k.id && match k.state with
    | .entering => !c.isOutward
    | .applying | .applied => c.isOutward
    | _ => false

/-- The progress index of the copies that some commands move one after another (R258, R379): the first beat that has not performed. -/
def copiesDone : List Cmd → Nat
  | [] => 0
  | c :: l => if c.beats.all (·.performed) then c.progressIndex + copiesDone l else c.progressIndex

/-- Some commands, one after another, with a progress index: for each the beats before it have performed, and no other. -/
def copiesFrom : Nat → List Cmd → List Cmd
  | _, [] => []
  | p, c :: l =>
    let n := (c.beats.map fun b => b.num + 1).foldl Nat.max 0
    { c with beats := c.beats.map fun b =>
        if b.num < p then { b with performed := true } else { b with performed := false, abandoned := true } } :: copiesFrom (p - n) l

/-- A call record (R411): state, argument count, progress index of its copies, entry cycle or A. -/
def Call.record (z : AfterStop) (cmds : List Cmd) (k : Call) : List Byte :=
  [BitVec.ofNat 8 k.state.code, BitVec.ofNat 8 k.args.length] ++ leBytes 2 (copiesDone (k.copies cmds)) ++ leBytes 4 (z.at_ k.recordAt % 2 ^ 32)

/-- A call with what its record says; the cycle is the one nearest to the one it had. -/
def Call.ofRecord (z : AfterStop) (l : List Byte) (k : Call) : Call :=
  let k := { k with state := CallState.ofCode (bytesNat l 0 1) k.state, args := k.args.take (bytesNat l 1 1) }
  let d := (BitVec.ofNat 32 (bytesNat l 4 4) - BitVec.ofNat 32 (z.at_ k.recordAt)).toInt
  let t := ((k.recordAt : Int) + d).toNat
  if k.state == .applying || k.state == .applied then { k with applyAt := t } else { k with entry := t }

/-- A receive window (R411). -/
def Window.record (w : Window) : List Byte :=
  [1, BitVec.ofNat 8 w.port, BitVec.ofNat 8 w.tag, BitVec.ofNat 8 w.tol] ++ leBytes 4 (w.expect % 2 ^ 32) ++ leBytes 2 w.flits
    ++ [BitVec.ofNat 8 w.slot, BitVec.ofNat 8 w.handle, BitVec.ofNat 8 w.core, 0, 0, 0] ++ w.geo.bytes

/-- A receive window with what its record says; none where the record is not valid. -/
def Window.ofRecord (l : List Byte) (w : Window) : Option Window :=
  if bytesNat l 0 1 = 0 then .none
  else .some { w with
    port := bytesNat l 1 1, tag := bytesNat l 2 1, tol := bytesNat l 3 1
    expect := ((w.expect : Int) + (BitVec.ofNat 32 (bytesNat l 4 4) - BitVec.ofNat 32 w.expect).toInt).toNat
    flits := bytesNat l 8 2, slot := bytesNat l 10 1, handle := bytesNat l 11 1, core := bytesNat l 12 1, geo := Geo.ofBytes (l.drop 16) }

/-- A set of small numbers as a bitmap of n bytes. -/
def bitmap (n : Nat) (l : List Nat) : List Byte :=
  let l := (l.filter fun i => decide (i < 8 * n)).eraseDups
  leBytes n (l.foldl (fun m i => m + 2 ^ i) 0)

def bitmapOf (l : List Byte) : List Nat :=
  let n := leNat l
  (List.range (8 * l.length)).filter fun i => n.testBit i

/-- A stretch of an area: offset, length, bytes listed by their place in the area. -/
structure Stretch where
  off : Nat
  len : Nat
  cells : Mem

def Mem.shift (a : Nat) (m : Mem) : Mem := m.map fun p => (a + p.1, p.2)

/-- The tiles of a core: each live row is a stretch of its own; dead rows are not written (R411). -/
def tileStretches (base : Nat) (r : Regs) : List Stretch :=
  (List.range 8).flatMap fun t => (List.range 32).filterMap fun n =>
    if r.rowDead t n then .none
    else
      let off := base + t * 2048 + n * 64
      .some { off := off, len := 64, cells := Mem.ofBytes off (leBytes 64 ((r.t.getD t []).getD n 0).toNat) }

/-- The commands that have records in the frame of root herd h: those in flight, and those that a fatal fault stopped. -/
def Kept.walkerCmds (k : Kept) (h : Nat) : List Cmd :=
  (k.cmds.filter fun c => c.walker == h && c.kind.opNumber < 63 && (c.outstanding || c.stopped)).take 64

/-- The calls that have records for core c of a herd, in sibling order. -/
def Kept.recordedCalls (k : Kept) (x : Herd) (c : Nat) : List Call :=
  let core := x.cores.getD c {}
  ((core.r.group ++ core.susp.flatMap (·.group)).filterMap fun id => k.calls.find? fun q => q.id == id).take 128

/-- The windows that have records in a herd's frame. -/
def Kept.recordedWindows (k : Kept) (x : Herd) : List Window := (x.windows.filter fun w => w.ctx == k.ctx).take 16

/-- What the frame of virtual herd v of a stopped context holds (R411). -/
def frameStretches (k : Kept) (z : AfterStop) (v : Nat) (h : Nat) : List Stretch :=
  let x := k.herds.getD v {}
  let core (c : Nat) : Core := x.cores.getD c {}
  [{ off := 0, len := 0x400000, cells := x.hm }]
    ++ (List.range 4).map (fun c => { off := 0x400000 + c * 0x40000, len := 0x40000, cells := (x.lm.getD c []).shift (0x400000 + c * 0x40000) })
    ++ (List.range 4).flatMap (fun c => tileStretches (0x500000 + c * 16384) (core c).r)
    ++ (List.range 2).map (fun w => { off := 0x510000 + w * 0xC000, len := 0xC000
                                      cells := ((x.array.ws.getD w {}).bytes).shift (0x510000 + w * 0xC000) })
    ++ (List.range 4).map (fun a => { off := 0x528000 + a * 8192, len := 8192
                                      cells := Mem.ofBytes (0x528000 + a * 8192) (wordBytes (x.array.acc.getD a [])) })
    ++ (List.range 4).map (fun c => { off := 0x530000 + c * 0x3600, len := 0x3600
                                      cells := encodeSlots (0x530000 + c * 0x3600) (coreSlots k.ctx z) (core c) })
    ++ [{ off := 0x53D800, len := 1024, cells := encodeSlots 0x53D800 (arraySlots z) x.array },
        { off := 0x53DC00, len := 4096, cells := Mem.ofBytes 0x53DC00 ((k.walkerCmds h).flatMap (Cmd.walkerRecord z)) },
        { off := 0x53EC00, len := 512
          cells := Mem.ofBytes 0x53EC00 ((k.recordedWindows x).flatMap Window.record) },
        { off := 0x53EE00, len := 256
          cells := Mem.ofBytes 0x53EE00 (bitmap 128 x.hmMarks
            ++ (List.range 4).flatMap fun c => bitmap 8 ((x.lmMarks.filter fun m => m.1 == c).map (·.2))) },
        { off := 0x53EF00, len := 4096
          cells := (List.range 4).flatMap fun c => Mem.ofBytes (0x53EF00 + c * 1024) ((k.recordedCalls x c).flatMap (Call.record z k.cmds)) },
        { off := 0x53FF00, len := 256, cells := [] }]

/-- A core's tile rows as an area gives them: dead rows stay as they are. -/
def decodeTiles (base : Nat) (area : Mem) (r : Regs) : Regs :=
  { r with t := (r.t.zipIdx).map fun p => (p.1.zipIdx).map fun q =>
      if r.rowDead p.2 q.2 then q.1 else BitVec.ofNat 512 (leNat (area.bytesOf (base + p.2 * 2048 + q.2 * 64) 64)) }

/-- A herd as its frame in an area gives it; memories, rows and accumulators are taken from the area whatever it holds. -/
def decodeHerd (x : Nat) (z : AfterStop) (area : Mem) (h : Herd) : Herd :=
  let core (p : Core × Nat) : Core :=
    let k := decodeSlots (0x530000 + p.2 * 0x3600) (coreSlots x z) area p.1
    { k with r := decodeTiles (0x500000 + p.2 * 16384) (area.slice 0 0x510000) k.r }
  let a := decodeSlots 0x53D800 (arraySlots z) area h.array
  { h with
    hm := area.slice 0 0x400000
    lm := (List.range 4).map fun c => area.slice (0x400000 + c * 0x40000) 0x40000
    hmBad := [], lmBad := []
    hmMarks := bitmapOf (area.bytesOf 0x53EE00 128)
    lmMarks := (List.range 4).flatMap fun c => (bitmapOf (area.bytesOf (0x53EE80 + 8 * c) 8)).map fun i => (c, i)
    cores := (h.cores.zipIdx).map core
    array := { a with
      ws := (a.ws.zipIdx).map fun p => { p.1 with bytes := area.slice (0x510000 + p.2 * 0xC000) 0xC000 }
      acc := (List.range 4).map fun n => (numbersOf 4 2048 (area.bytesOf (0x528000 + n * 8192) 8192)).map (BitVec.ofNat 32) } }

/-! ### The header (R410) -/

/-- A queue record: the descriptor with TARGET 0, STATE and DONE. -/
def Queue.record (q : Queue) : List Byte :=
  (q.desc.take 0x19) ++ [0, BitVec.ofNat 8 q.state, 0] ++ leBytes 2 q.done.toNat ++ [0, 0]

/-- The RESQ field: the started queue and its valid bit (R410). -/
def Ctx.resq (x : Ctx) : Nat := match x.running with | .some q => q + 16 | .none => 0

/-- The queues with the one that a RESQ field names started, and no other. -/
def Ctx.withResq (n : Nat) (x : Ctx) : Ctx :=
  { x with queues := (x.queues.zipIdx).map fun p =>
      if n.testBit 4 && p.2 == n % 16 then { p.1 with state := 2 } else if p.1.state = 2 then { p.1 with state := 1 } else p.1 }

/-- A queue read back from its record. -/
def Queue.ofRecord (l : List Byte) (q : Queue) : Queue :=
  let flags : Byte := (l.getD 0x18 0) &&& 3#8
  { q with
    state := bytesNat l 0x1A 1 % 4, done := BitVec.ofNat 16 (bytesNat l 0x1C 2)
    desc := (l.take 0x18) ++ flags :: List.replicate 7 0 }

/-- A trap record with its reserved bits zero (R8, R392). -/
def trapWords (l : List Word) : List Word :=
  match l with
  | c0 :: c1 :: r => (c0 &&& 0x0FFFFFFF#32) :: (c1 &&& 0xFFFF#32) :: r
  | _ => l

/-- The places of the header that a restore by the scheduler takes (R410, R414). -/
def headerSlots : List (Slot Ctx) :=
  [ { off := 0x18, len := 8
      get := fun x => leBytes 8 (x.ecnt + x.eovf.toNat * 2 ^ 48)
      set := fun l x => { x with ecnt := leNat l % 2 ^ 48, eovf := (leNat l).testBit 48 } },
    { off := 0x20, len := 8, get := fun x => leBytes 8 x.resq, set := fun l x => x.withResq (leNat l) },
    { off := 0x70, len := 16
      get := fun x => leBytes 4 x.pend.toNat ++ leBytes 4 x.kcoal.toNat ++ leBytes 4 x.note.toNat
      set := fun l x => { x with
        pend := x.pend ||| BitVec.ofNat 16 (bytesNat l 0 4), kcoal := BitVec.ofNat 16 (bytesNat l 4 4)
        note := BitVec.ofNat 16 (bytesNat l 8 4) } },
    { off := 0x80, len := 512
      get := fun x => x.queues.flatMap Queue.record
      set := fun l x => { x with queues := (x.queues.zipIdx).map fun p => Queue.ofRecord ((l.drop (32 * p.2)).take 32) p.1 } },
    { off := 0x280, len := 128
      get := fun x => x.queues.flatMap fun q => leBytes 8 (BitVec.ofInt 64 q.deficit).toNat
      set := fun l x => { x with queues := (x.queues.zipIdx).map fun p =>
        { p.1 with deficit := (BitVec.ofNat 64 (bytesNat l (8 * p.2) 8)).toInt } } },
    { off := 0x300, len := 1540
      get := fun x =>
        let r := (x.ctraps.take 64).flatMap wordBytes
        r ++ List.replicate (1536 - r.length) 0 ++ leBytes 4 (x.ctraps.length % 128 + x.ctrapOvf.toNat * 128)
      set := fun l x =>
        let n := bytesNat l 1536 4
        { x with
          ctraps := (List.range (n % 128)).map fun i => trapWords ((numbersOf 4 6 (l.drop (24 * i))).map (BitVec.ofNat 32))
          ctrapOvf := n.testBit 7 } } ]

/-- The whole header of a context, its stop cycle's vcyc being v (R410). -/
def headerMem (x : Ctx) (v : Int) (msize : Nat) : Mem :=
  let fixed := [0x5A#8, 0x46#8, 0x53#8, 0x41#8, 1, 0] ++ leBytes 2 x.herds.length ++ [BitVec.ofNat 8 x.num, BitVec.ofNat 8 x.depth]
    ++ leBytes 2 (1 + x.failed.toNat * 2) ++ leBytes 4 msize ++ leBytes 8 (BitVec.ofInt 64 v).toNat
  Mem.ofBytes 0 fixed ++ encodeSlots 0 (headerSlots.take 2) x
    ++ Mem.ofBytes 0x30 (x.desc.take 64) ++ encodeSlots 0 (headerSlots.drop 2) x

/-! ### The mark section (R413) -/

/-- A record of write masks of one writable argument. -/
def maskRecord (kind v core sib handle : Nat) (lo hi : Nat) (words : List Nat) : List Byte :=
  let n := (hi - lo + 63) / 64 * 8
  [BitVec.ofNat 8 kind, BitVec.ofNat 8 v, BitVec.ofNat 8 core, BitVec.ofNat 8 sib, BitVec.ofNat 8 handle, 0, 0, 0] ++ leBytes 8 n
    ++ bitmap n ((words.filter fun w => decide (lo ≤ w) && decide (w < hi)).map (· - lo))

/-- One record of the mark section: its kind, its call, the argument and the words that it covers. -/
structure MaskPlace where
  kind : Nat
  call : Call
  handle : Nat
  lo : Nat
  hi : Nat

/-- Its bytes. -/
def MaskPlace.bytes (x : Ctx) (m : MaskPlace) : List Byte :=
  let herd := (m.call.space.herd).getD m.call.herd
  let core := match m.call.space with | .lm _ c => c | _ => 0
  maskRecord m.kind (x.virtOf herd) core m.call.sib m.handle m.lo m.hi ((m.call.masks.filter fun p => p.1 = m.call.space).map (·.2))

/-- The records of the mark section: the masks of running children, then those of applied siblings. -/
def markPlaces (calls : List Call) : List MaskPlace :=
  let places (kind : Call → Nat) (k : Call) : List MaskPlace :=
    ((k.args.zipIdx).filter fun p => boxWrites p.1.childBox).map fun p =>
      { kind := kind k, call := k, handle := p.2, lo := boxBase p.1.childBox / 4, hi := (boxEnd p.1.childBox + 3) / 4 }
  let open_ (k : Call) : Bool := k.state == .running || k.state == .returned || k.state == .applying
  ((calls.filter open_).flatMap (places fun k => if k.level = 2 then 1 else 2))
    ++ (calls.filter fun k => k.state == .applied).flatMap (places fun _ => 3)

/-- The mark section of a stopped context (R413). -/
def markSection (x : Ctx) (calls : List Call) : List Byte := (markPlaces calls).flatMap (MaskPlace.bytes x)

/-- The words that the records of a section give each call, the records standing where they were written. -/
def masksOf : List MaskPlace → List Byte → List (Nat × Space × Nat)
  | [], _ => []
  | m :: ms, l =>
    let n := (m.hi - m.lo + 63) / 64 * 8
    ((bitmapOf ((l.drop 16).take n)).map fun i => (m.call.id, m.call.space, m.lo + i)) ++ masksOf ms (l.drop (16 + n))

/-! ### Records read back (R414) -/

/-- What is kept of a context with what its frames and its mark section say (R258, R379, R414): a record that stands as it was written
changes nothing. -/
def Kept.readBack (x : Ctx) (frames : List Mem) (marks : List Byte) (k : Kept) : Kept :=
  if frames.isEmpty then k
  else
    let z : AfterStop := { tick := k.tick + 1, vcyc := k.vcyc + 1 }
    let herds := frames.zip (x.herds.zip k.herds)
    let cmds := herds.flatMap fun p => ((k.walkerCmds p.2.1).zipIdx).map fun c =>
      readRecord 64 (Cmd.walkerRecord z) (Cmd.ofRecord z) (p.1.bytesOf 0x53DC00 4096) c.2 c.1
    let read := herds.flatMap fun p => (List.range 4).flatMap fun c => ((k.recordedCalls p.2.2 c).zipIdx).map fun q =>
      let l := ((p.1.bytesOf (0x53EF00 + c * 1024) 1024).drop (8 * q.2)).take 8
      (q.1, if l = Call.record z k.cmds q.1 then Option.none else .some l)
    let calls := read.map fun p => match p.2 with | .some l => Call.ofRecord z l p.1 | .none => p.1
    let copies := read.flatMap fun p => match p.2 with
      | .some l => copiesFrom (bytesNat l 2 2) ((Call.ofRecord z l p.1).copies k.cmds)
      | .none => []
    let same := marks = markSection x k.calls
    let masks := if same then [] else masksOf (markPlaces k.calls) marks
    let masked (q : Call) : Call := if same then q else { q with masks := (masks.filter fun m => m.1 = q.id).map (·.2) }
    { k with
      cmds := k.cmds.map fun c => (copies.find? fun q => q.id == c.id).getD ((cmds.find? fun q => q.id == c.id).getD c)
      calls := k.calls.map fun q => masked ((calls.find? fun r => r.id == q.id).getD q) }

/-- The windows of a herd as it stands with what the records of its frame say, the herd having been saved as `old`. -/
def Kept.readWindows (k : Kept) (old : Herd) (area : Mem) (l : List Window) : List Window :=
  let records := area.bytesOf 0x53EC00 512
  let changed := ((k.recordedWindows old).zipIdx).filter fun p => (records.drop (32 * p.2)).take 32 ≠ p.1.record
  l.filterMap fun w => match changed.find? fun p => p.1.id == w.id with
    | .some p => w.ofRecord ((records.drop (32 * p.2)).take 32)
    | .none => .some w

end Sys2Proof.Machine
end

