-- ==== Sys2Proof/Machine/Link.lean ====
section
/-! DEFINITION. Link.lean: the timed group (R342 to R364): ports, the group cycle count and its steps, timed sends and receive
windows, the meanings of LINK, and the events of the links. -/

namespace Sys2Proof.Machine

/-! ### Ports -/

/-- The peer context that a pairing table names for a context (R349). -/
def peerIn (l : List (Option (Nat × Nat))) (x : Nat) : Option Nat :=
  l.findSome? fun e => match e with | .some q => if q.1 == x then .some q.2 else .none | .none => .none

/-- The peer context that a context is paired with on a port (R349). -/
def Port.peer (p : Port) (x : Nat) : Option Nat := peerIn p.pairs x

/-- The pairing table that stood on a port in cycle t. -/
def Port.pairsAt (p : Port) (t : Nat) : List (Option (Nat × Nat)) :=
  ((p.pairsWas.find? fun z => decide (t ≤ z.1)).map (·.2)).getD p.pairs

/-- A flit for context x is discarded on a port (R360). -/
def State.dropFlit (s : State) (p x : Nat) : State :=
  s.modPort p fun q =>
    let n := ((q.drops.find? fun d => d.1 == x).map (·.2)).getD 0
    { q with drops := (x, Nat.min 255 (n + 1)) :: q.drops.filter fun d => d.1 ≠ x }

/-- Whether the device takes part in a timed group and its count is set (R344). -/
def State.grouped (s : State) : Bool := s.plat.cfg.group != 0 && s.gcycSet

/-- The link-state test of R363, order 6. -/
def State.linkUp (s : State) (p x : Nat) : Bool :=
  let q := s.port p
  q.up && !q.deg && decide (0 < s.portShare x) && (q.peer x).isSome && s.grouped

/-- The port field (R363, order 1). -/
def portField (p : BitVec 5) : Res Nat := if 24 ≤ p.toNat then raise 2 11 else .ok p.toNat

/-- How many group cycles ahead a 32-bit operand lies (R358). -/
def State.ahead (s : State) (t : Word) : Nat := (t - BitVec.ofNat 32 s.gcyc).toNat

/-! ### Streams (R350) -/

/-- Chunks of 64. -/
def chunks64 (l : List Nat) : List (List Nat) := (List.range ((l.length + 63) / 64)).map fun k => (l.drop (64 * k)).take 64

/-- The addresses of a sub-box's stream. -/
def streamOf (b : BitVec 256) (g : Geo) : List Nat :=
  (rowStarts b g.origins g.extents).flatMap fun a => addrRun a (rowLength b g.extents)

/-- The bits that are no padding in the last blocks of a sub-box's rows, where a device write stores zero (R36). -/
def streamMask (b : BitVec 256) (g : Geo) : List (Nat × Byte) :=
  (rowStarts b g.origins g.extents).flatMap fun a =>
    Run.mask { src := a, dst := a, len := rowLength b g.extents, keep := rowPadding b g.extents } a

/-- The length of a sub-box's stream. -/
def streamLength (b : BitVec 256) (g : Geo) : Nat :=
  (rowStarts b g.origins g.extents).length * rowLength b g.extents

/-- The box of a send or window word with its geometry: orders 3 to 5 of R363. -/
def State.linkBox (s : State) (w : Word) (recv : Bool) : Res (BitVec 256 × Geo) := do
  let b ← s.box (w.toNat % 16)
  if s.level ≠ 2 || (if recv then !boxWrites b else !boxReads b) then raise 9
  let g := s.R.gm.getD (w.toNat / 16 % 8) {}
  if !subBoxOk b g.origins g.extents || 786432 < streamLength b g then raise 10
  return (b, g)

/-! ### `lsend` (R350) -/

/-- Whether flits at these group cycles find their slots free and the cap kept (R350, R432). -/
def State.slotsOk (s : State) (p x : Nat) (l : List Nat) : Bool :=
  let q := s.port p
  let cap := s.portCap x
  l.all fun g =>
    !(q.slots.any fun z => z.1 == g)
      && decide (q.started x (g / 4096) + (l.filter fun y => y / 4096 == g / 4096).length ≤ cap)

/-- The beats of a send claim their banks in turn; the number of the first that meets a claim (R198, R200). -/
def claimBeats (p : Plan) : List (Beat × Nat) → Plan × Option Nat
  | [] => (p, .none)
  | (b, i) :: l =>
    let banks := banksIn b.srcSpace b.src
    if p.sampleFree b.srcSpace banks b.sampleAt then claimBeats { (p.claim b.srcSpace banks b.sampleAt i) with beats := p.beats ++ [b] } l
    else (p, .some i)

/-- `lsend` with the checks of R363 in their order. -/
def State.lsend (s : State) (a b p : BitVec 5) : Res State := do
  let (t, w) ← s.src2 a b
  let s := s.notePbnd [a, b]
  let port ← portField p
  if w &&& 0xFF800080#32 ≠ 0 then raise 2 11
  let (box, g) ← s.linkBox w false
  let x := (s.R.ctx).getD 0
  if !s.linkUp port x then raise 22
  let d := s.ahead t
  let start := s.gcyc + d
  if s.interlocked || start % 5 ≠ 0 || d < 51 || 2 ^ 20 < d then raise 6
  let parts := chunks64 (streamOf box g)
  let n := (parts.length + 2) / 3
  let flits := (List.range n).map fun f => start + 5 * f
  let h := s.cur.herd
  if !s.slotsOk port x flits || s.walkerFull h then s.busy
  let sp : Space := .hm h
  let beats : List Beat := (parts.zipIdx).map fun q =>
    let at_ := s.tick + d - 48 + 5 * (q.2 / 3) + q.2 % 3
    { srcSpace := sp, src := q.1, dstSpace := sp, dst := [], sampleAt := at_, performAt := at_ }
  let promise := s.tick + d + 5 * (n - 1)
  let cmd : Cmd := { s.newCmd (.send port (w.toNat / 256 % 256) (w.toNat / 2 ^ 16 % 128) (((s.port port).peer x).getD 0)) h with
    promise := promise, first := promise, own := g, beats := beats, t0 := start, route := w }
  let (q, clash) := claimBeats { s := s, id := cmd.id } beats.zipIdx
  let s1 : State := { q.s.prune with nextId := s.nextId + 1 }
  let s1 : State := { s1 with cmds := s1.cmds ++ [cmd] }
  let s1 := (s1.modPort port fun q => { q with
    slots := (flits.map fun g => (g, x)) ++ q.slots.filter fun z => decide (s.gcyc / 4096 ≤ z.1 / 4096) }).noteIssued cmd.id
  match clash with
  | .some i => return s1.endCopy cmd [i]
  | .none =>
    let s1 := (beats.zipIdx).foldl (fun s z => s.plan z.1.sampleAt 1 0 (.beatSample cmd.id z.2 0)) s1
    return (flits.zipIdx).foldl (fun s z => s.planEv (s.tick + (z.1 - s.gcyc)) 2 11 .timedFlitDepart { a := cmd.id, b := z.2 }) s1

/-- `lsend` (R350). -/
def execLsend (a b p : BitVec 5) (s : State) : Out := s.answer (s.lsend a b p)

/-- The bytes of flit f as sampled. -/
def Cmd.flitBytes (c : Cmd) (f : Nat) : List Byte :=
  ((c.beats.drop (3 * f)).take 3).flatMap fun b => b.src.map (gotByte b.got)

/-- TIMED_FLIT_DEPART (R350, R348): flit ev.b of the send ev.a, in the first cycle whose count has reached its own. -/
def execTimedFlitDepart (s : State) : Out :=
  .next (match s.cmd? s.ev.a with
    | .none => s
    | .some c => match c.kind with
      | .send p tag herd peer =>
        let f := s.ev.b
        if !c.outstanding || c.n ≠ f || s.gcyc < c.t0 + 5 * f then s
        else
          let q := s.port p
          let sent := q.up && !q.deg
          let bytes := c.flitBytes f
          let flit : TimedFlit :=
            { herd := herd, tag := tag, index := f, count := bytes.length, srcCtx := c.ctx, dstCtx := peer, data := bytes }
          let last := (c.beats.length + 2) / 3 ≤ f + 1
          let s := s.modCmd c.id fun c => { c with
            n := f + 1, departed := if sent then c.departed + 1 else c.departed, outstanding := !last
            beats := (c.beats.zipIdx).map fun z => if z.2 / 3 = f then { z.1 with performed := true } else z.1 }
          if sent then ({ s with sent := .timed p flit :: s.sent } : State).charge c.ctx 13 1
          else (s.modPort p fun q => { q with slots := q.slots.erase (c.t0 + 5 * f, c.ctx) }).dropFlit p c.ctx
      | _ => s)

/-! ### `lrecv` and arrivals (R351 to R354) -/

/-- The close of a window is planned for the cycle in which the count reaches C. -/
def State.planClose (s : State) (h : Nat) (w : Window) : State :=
  s.planEv (s.tick + (w.close - s.gcyc)) 5 3 .receiveWindowClose { a := h, b := w.id }

/-- `lrecv` with the checks of R363 in their order. -/
def State.lrecv (s : State) (a b p : BitVec 5) : Res State := do
  let (e, w) ← s.src2 a b
  let s := s.notePbnd [a, b]
  let port ← portField p
  if w &&& 0xFF000080#32 ≠ 0 then raise 2 11
  let (box, g) ← s.linkBox w true
  let x := (s.R.ctx).getD 0
  if !s.linkUp port x then raise 22
  let d := s.ahead e
  if d < 1 || 2 ^ 20 < d then raise 6
  let h := s.cur.herd
  let mine := (s.herd h).windows.filter fun v => v.ctx == x
  let tag := w.toNat / 256 % 256
  if mine.any fun v => v.port == port && v.tag == tag then raise 2 12
  if 16 ≤ mine.length then s.busy
  let beats := chunks64 (streamOf box g)
  let n := (beats.length + 2) / 3
  let tol := w.toNat / 2 ^ 16 % 256
  let (id, s) := s.newId
  let v : Window :=
    { id := id, ctx := x, core := s.cur.core, port := port, tag := tag, tol := tol, expect := s.gcyc + d, flits := n
      close := s.gcyc + d + 5 * (n - 1) + 2 + tol, handle := w.toNat % 16, slot := w.toNat / 16 % 8, geo := g, beats := beats
      peer := (s.port port).peer x, mask := streamMask box g }
  return (s.modHerd h fun y => { y with windows := y.windows ++ [v] }).planClose h v

/-- `lrecv` (R351). -/
def execLrecv (a b p : BitVec 5) (s : State) : Out := s.answer (s.lrecv a b p)

/-- Whether a context's frames run on its herds, and whether its memory still stands there (R355, R409). -/
def Ctx.holdsHerds (x : Ctx) : Bool := x.life == .resident || x.life == .draining
def State.inPlace (s : State) (n : Nat) : Bool :=
  let x := s.ctx n
  x.holdsHerds || x.life == .saving || (x.life == .restoring && !s.kept.any fun k => k.ctx == n)

/-- The claims of an arrived beat withdrawn. -/
def Herd.unlink (x : Herd) (id : Nat) : Herd := { x with claims := x.claims.filter fun k => k.agent ≠ .link id }

/-- An arrived beat is placed: it claims the first cycle from its nominal perform on (R353). A window of a context that is not resident
claims no bank (R355). -/
def State.placeArrived (s : State) (h : Nat) (l : LinkBeat) : State :=
  if (s.ctx l.ctx).holdsHerds then s.placeLink h l l.at_ else s.planEv l.at_ 2 10 .linkBeatPerform { a := h, b := l.id }

/-- A beat of a flit enters: its record, and its place two cycles before its nominal perform (R353). `late` is how many clock cycles ago
its flit arrived: a beat that arrived while the device was held is placed as if it had arrived now (R345). -/
def State.enterBeat (s : State) (h : Nat) (w : Window) (flit : TimedFlit) (late b : Nat) : State :=
  let k := 3 * flit.index + b
  let data := ((flit.data.take flit.count).drop (64 * b)).take 64
  let bytes := ((w.beats.getD k []).zip data).map fun p => (p.1, maskByte w.mask p.1 p.2)
  let wait := b - late
  if bytes.isEmpty || w.close < s.gcyc + 2 + wait then s
  else
    let (id, s) := s.newId
    let l : LinkBeat := { id := id, ctx := w.ctx, window := w.id, beat := k, at_ := s.tick + 2 + wait, bytes := bytes }
    let s := s.modHerd h fun x => { x with linkBeats := x.linkBeats ++ [l] }
    if wait = 0 then s.placeArrived h l else s.plan (s.tick + wait) 0 1 (.linkPlace h id)

/-- The claim of a beat that entered with an earlier one. -/
def State.claimLink (s : State) (h id : Nat) : State :=
  match (s.herd h).linkBeats.find? fun l => l.id == id with
  | .none => s
  | .some l => s.placeArrived h l

/-- Beats of flits that have arrived go on arriving while the device is held for n cycles: each then stands as if it had arrived n cycles
sooner, in the first cycle after the hold at the earliest (R345). -/
def State.hastenBeats (s : State) (n : Nat) : State :=
  let due := s.agenda.filter fun d => match d.act with | .linkPlace _ _ => decide (s.tick < d.at_) | _ => false
  let s : State := { s with agenda := s.agenda.filter fun d => !due.contains d }
  due.foldl (fun s d => match d.act with
    | .linkPlace h id =>
      let t := Nat.max (s.tick + 1) (d.at_ - n)
      (s.modHerd h fun x => { x with linkBeats := x.linkBeats.map fun l => if l.id = id then { l with at_ := t + 2 } else l }).plan
        t d.phase d.ord d.act
    | _ => s) s

/-- A timed flit arrives on port p, two cycles before the nominal perform of its first beat (R349, R352), its first beat `late` clock
cycles ago. A flit follows the pairing that stood when it departed, and that of an open window. -/
def State.arrive (s : State) (p : Nat) (flit : TimedFlit) (late : Nat) : State :=
  let q := s.port p
  let x := flit.dstCtx
  let window (h : Nat) : Option Window :=
    (s.herd h).windows.find? fun w => w.ctx == x && w.port == p && w.tag == flit.tag
  let place := (s.ctx x).herds[flit.herd]?
  let opened := (place.bind window).any fun w => w.peer == .some flit.srcCtx
  let paired := opened || peerIn (q.pairsAt (s.tick + 2 - q.lat)) x == .some flit.srcCtx
  if !q.up || q.deg then s
  else if !paired then s.dropFlit p 0
  else if flit.broken then s.dropFlit p x
  else
    match place with
    | .none => s.dropFlit p x
    | .some h =>
      if s.ctxs.any fun k => k.parent == .some x && !k.timeShared && k.herds.contains h then s.dropFlit p x
      else
        match window h with
        | .none => s.dropFlit p x
        | .some w =>
          if w.flits ≤ flit.index || w.close < s.gcyc + 2 then s.dropFlit p x
          else [0, 1, 2].foldl (fun s b => s.enterBeat h w flit late b) s

/-- TIMED_FLIT_ARRIVE (R352): the flit of the event, on port ev.a; it arrived ev.c clock cycles ago, in a hold (R345). -/
def execTimedFlitArrive (s : State) : Out := .next (s.arrive s.ev.a s.ev.flit s.ev.c)

/-- Bit i of a bitmap in a space cleared. -/
def State.clearBit (s : State) (x a i : Nat) : State :=
  match s.readSpace x (a + i / 8) 1 with
  | .ok [b] => match s.writeSpace x (a + i / 8) [b &&& ~~~(1#8 <<< (i % 8))] with | .ok t => t | .error _ => s
  | _ => s

/-- The image of HM of a context that is not resident (R355, R411): bytes written there, their pages no longer marked packed (R277). The
root's image, which has no save area, is kept with it. -/
def State.writeImage (s : State) (x h : Nat) (l : List (Nat × Byte)) : State :=
  let k := s.ctx x
  let v := k.virtOf h
  let pages := (l.map fun q => q.1 / 4096).eraseDups
  let base := k.save + 0x10000 + v * 0x540000
  match k.parent with
  | .none =>
    let write (y : Herd) : Herd := { y with hm := y.hm.writes l, hmMarks := y.hmMarks.filter fun p => !pages.contains p }
    { s with kept := s.kept.map fun q => if q.ctx == x then { q with herds := q.herds.modify v write } else q }
  | .some p =>
    let s := l.foldl (fun s q => match s.writeSpace p (base + q.1) [q.2] with | .ok t => t | .error _ => s) s
    pages.foldl (fun s i => s.clearBit p (base + 0x53EE00) i) s

/-- LINK_BEAT_PERFORM (R353, R355): beat ev.b of herd ev.a performs in the cycle that it has claimed, its window open or closed
meanwhile. One for a herd that its context has given away since moves no byte (R74), as a flit that arrives then is discarded (R352). -/
def execLinkBeatPerform (s : State) : Out :=
  let h := s.ev.a
  .next (match (s.herd h).linkBeats.find? fun l => l.id == s.ev.b with
    | .none => s
    | .some l =>
      if l.at_ ≠ s.tick then s
      else if s.givenAway l.ctx h then
        s.modHerd h fun x => { (x.unlink l.id) with linkBeats := x.linkBeats.filter fun y => y.id ≠ l.id }
      else
        let s := s.modHerd h fun x => { x with
          linkBeats := x.linkBeats.filter fun y => y.id ≠ l.id
          windows := x.windows.map fun v =>
            if v.id = l.window && s.gcyc ≤ v.close then { v with done := l.beat :: v.done.filter (· ≠ l.beat) } else v }
        let s := if s.inPlace l.ctx then s.writeBytes (.hm h) 2 l.bytes else s.writeImage l.ctx h l.bytes
        s.charge l.ctx 11 1)

/-- The detail word of R357. -/
def timedDetail (count tag port : Nat) : Word := BitVec.ofNat 32 (count % 2 ^ 16 * 2 ^ 16 + tag % 256 * 256 + port % 32)

/-- A window closes (R354): quietly, or with the receive-timing trap. -/
def State.closeWindow (s : State) (h : Nat) (w : Window) : State :=
  let s := s.modHerd h fun x => { x with windows := x.windows.filter fun v => v.id ≠ w.id }
  if w.done.length = w.beats.length then s
  else s.plan (s.tick + 1) 0 0 (.asyncDue h w.core
    { cls := 20, d0 := timedDetail w.done.length w.tag w.port, ctx := w.ctx, owner := w.ctx })

/-- RECEIVE_WINDOW_CLOSE (R354): window ev.b of herd ev.a. -/
def execReceiveWindowClose (s : State) : Out :=
  .next (match (s.herd s.ev.a).windows.find? fun w => w.id == s.ev.b with
    | .none => s
    | .some w => if s.gcyc < w.close then s.planClose s.ev.a w else s.closeWindow s.ev.a w)

/-! ### Beacons (R343) -/

/-- The next beacon of a port (R343). -/
def State.planBeacon (s : State) (p : Nat) : State :=
  let s := { s with agenda := s.agenda.filter fun d => d.act ≠ Act.ev .beaconSend { a := p } }
  if (s.port p).up then s.planEv (s.tick + (4096 - s.gcyc % 4096)) 0 2 .beaconSend { a := p } else s

/-- BEACON_SEND (R343): port ev.a, when the count is a multiple of 4,096. -/
def execBeaconSend (s : State) : Out :=
  let p := s.ev.a
  let due := (s.port p).up && s.gcycSet && s.gcyc % 4096 = 0
  let s := if due then { s with sent := .beacon p s.gcyc s.plat.cfg.group :: s.sent } else s
  .next (s.planBeacon p)

/-- PORT_TRAINED (R348): port ev.a comes up with latency ev.b. -/
def execPortTrained (s : State) : Out :=
  .next (if s.plat.cfg.porten.getLsbD s.ev.a then
      (s.modPort s.ev.a fun q => { q with up := true, lat := s.ev.b, offValid := false, off16 := 0 }).planBeacon s.ev.a
    else s)

/-! ### The other LINK instructions (R358 to R362) -/

/-- The status word of a port (R360). -/
def State.portStatus (s : State) (p x : Nat) : Word :=
  let q := s.port p
  let n := ((q.drops.find? fun d => d.1 == x).map (·.2)).getD 0
  BitVec.ofNat 32 ((if q.up then 2 ^ 31 else 0) + (if q.deg then 2 ^ 30 else 0) + n * 2 ^ 16 + if q.up then q.lat % 2 ^ 16 else 0)

/-- `llat` (R360): the read clears DROPS for the reading context. -/
def execLlat (d p : BitVec 5) (s : State) : Out :=
  s.answer do
    let port ← portField p
    s.room 2 0
    let x := (s.R.ctx).getD 0
    let v := s.portStatus port x
    return (s.modPort port fun q => { q with drops := q.drops.filter fun z => z.1 ≠ x }).put 2 (.scalar d.toNat) (wide v)

/-- `gcyc` (R358): the low half, which is sampled, or the high half that goes with it. -/
def execGcyc (d : BitVec 5) (k : BitVec 1) (s : State) : Out :=
  s.answer do
    s.room 2 0
    let hi : Word := BitVec.ofNat 32 (s.gcyc / 2 ^ 32)
    if k = 0 then
      return (s.modR fun r => { r with gcycHi := .some hi }).put 2 (.scalar d.toNat) (wide (BitVec.ofNat 32 s.gcyc))
    else return s.put 2 (.scalar d.toNat) (wide (s.R.gcycHi.getD hi))

/-- The offset word of a port (R361). -/
def State.portOffset (s : State) (p : Nat) : Word :=
  let q := s.port p
  if q.offValid && s.gcycSet then 0x80000000#32 ||| (BitVec.ofInt 16 q.off16).setWidth 32 else 0

/-- `gmeas` (R361). -/
def execGmeas (d p : BitVec 5) (s : State) : Out :=
  s.answer do
    let port ← portField p
    s.room 2 0
    return s.put 2 (.scalar d.toNat) (wide (s.portOffset port))

/-- `gadj` (R362). -/
def execGadj (a : BitVec 5) (n : BitVec 3) (s : State) : Out :=
  s.answer do
    let t ← s.src a 0
    let s := s.notePbnd [a]
    if s.R.ctx ≠ .some 0 then raise 24
    let d := s.ahead t
    if d < 16 || 65535 < d then raise 6
    if s.adjust.isSome then s.busy
    let lead := if 0 < n.toInt then d - 1 else d
    return ({ s with adjust := .some (s.gcyc + d, n.toInt) } : State).planEv (s.tick + lead) 5 99 .gcycStep {}

/-- The pairing table of a port from the next cycle on: with the changes of this cycle (R349). -/
def State.pairsNext (s : State) (p : Nat) : List (Option (Nat × Nat)) :=
  s.agenda.foldl (fun l d => match d.act with | .pairWrite q i e => if q = p then l.set i e else l | _ => l) (s.port p).pairs

/-- `lpair` (R349): it takes effect after this cycle, with those of the bundles before it. -/
def execLpair (a p : BitVec 5) (s : State) : Out :=
  s.answer do
    let w ← s.src a 0
    let s := s.notePbnd [a]
    let port ← portField p
    let i := w.toNat / 2 ^ 16 % 16
    let peer := w.toNat / 2 ^ 8 % 256
    let local_ := w.toNat % 256
    let other := ((s.pairsNext port).zipIdx).any fun z => z.2 != i && match z.1 with | .some e => e.1 == local_ | .none => false
    if w &&& 0x7FF00000#32 ≠ 0 || (w.getLsbD 31 && other) then raise 2 11
    if s.R.ctx ≠ .some 0 then raise 24
    return s.plan s.tick 4 0 (.pairWrite port i (if w.getLsbD 31 then .some (local_, peer) else .none))

/-- An entry of a pairing table takes its value after this cycle; the table as it stood is kept for the flits in flight. -/
def State.writePair (s : State) (p i : Nat) (e : Option (Nat × Nat)) : State :=
  s.modPort p fun q => { q with
    pairs := q.pairs.set i e
    pairsWas := (q.pairsWas.filter fun z => decide (s.tick ≤ z.1 + 65536)) ++ [(s.tick, q.pairs)] }

end Sys2Proof.Machine
end

