-- ==== Sys2Proof/Machine/Sched.lean ====
section
/-! DEFINITION. Sched.lean: the slice scheduler (R400 to R403, R424), the start and the end of stream programs (R63, R65), the
requests that stop a context with the drain that follows (R404 to R406, R356), the end of a device cycle with its counts (R97,
R98), its energy (R415, R416) and its deficits (R402), budgets (R87), and the entry of reflected traps (R395). -/

namespace Sys2Proof.Machine

/-! ### Members (R400 to R403) -/

/-- The existing children of a context, by ascending number. -/
def State.children (s : State) (x : Nat) : List Nat :=
  (List.range 256).filter fun n => s.ctxs.any fun k => k.num == n && k.parent == .some x

def State.tsChildren (s : State) (x : Nat) : List Nat := (s.children x).filter fun n => (s.ctx n).timeShared

/-- Whether a queue is runnable (R63). -/
def Ctx.queueRunnable (x : Ctx) (q : Nat) : Bool :=
  (x.queue q).state == 2 || ((x.queue q).state == 1 && x.pend.getLsbD q)

/-- Whether a context's own queues are runnable (R403). -/
def Ctx.ownRunnable (x : Ctx) : Bool := !x.failed && !x.revoking && (List.range 16).any x.queueRunnable

/-- Whether a context, as a member of its parent, is runnable (R403); no tree is deeper than 4 (R68). -/
def State.liveFrom (s : State) : Nat → Nat → Bool
  | 0, _ => false
  | k + 1, n =>
    let x := s.ctx n
    !x.failed && !x.revoking && !x.budgetStopped && !x.saved && (x.ownRunnable || (s.children n).any (s.liveFrom k))

def State.live (s : State) (n : Nat) : Bool := s.liveFrom 5 n

/-- Whether member m of a scheduler is runnable: 0 stands for its own queues. -/
def State.memberRunnable (s : State) (x m : Nat) : Bool := if m = 0 then (s.ctx x).ownRunnable else s.live m

/-- The weight of member m of a scheduler (R402). -/
def State.memberWeight (s : State) (x m : Nat) : Nat :=
  if m = 0 then 256 - ((s.tsChildren x).map fun n => (s.ctx n).weight).sum else (s.ctx m).weight

/-- A quantum of a weight (R402). -/
def quantum (w : Nat) : Int := (w * 121600 : Nat)

/-- Whether every time-shared ancestor of a context, itself included, is the member chosen (R400). -/
def State.presentFrom (s : State) : Nat → Nat → Bool
  | 0, _ => false
  | k + 1, n =>
    match (s.ctx n).parent with
    | .none => true
    | .some p => s.presentFrom k p && (!(s.ctx n).timeShared || ((s.ctx p).chosen && (s.ctx p).member == n))

def State.present (s : State) (n : Nat) : Bool := s.presentFrom 6 n

/-- Whether the member that a scheduler has chosen is resident. -/
def State.memberIn (s : State) : Nat → Nat → Bool
  | 0, _ => false
  | k + 1, x =>
    let c := s.ctx x
    c.chosen && if c.member = 0 then c.holdsHerds else s.memberIn k c.member

/-- The contexts that a stop of member m of scheduler x stops together: its own queues alone, or the child's subtree. -/
def State.unit (s : State) (x m : Nat) : List Nat := if m = 0 then [x] else s.subtree m

/-- The contexts of a unit that are resident or about to be. -/
def State.unitHere (s : State) (l : List Nat) : List Nat :=
  l.filter fun n => let f := (s.ctx n).life; f == .resident || f == .restoring

/-- Whether a context of a unit is being stopped or saved. -/
def State.unitStopping (s : State) (l : List Nat) : Bool :=
  l.any fun n => let f := (s.ctx n).life; f == .draining || f == .saving

/-! ### Choosing a queue (R401, R402) -/

/-- Members in round-robin order after the one chosen last. -/
def rotate (last : Nat) (l : List Nat) : List Nat := (l.filter (last < ·)) ++ l.filter (· ≤ last)

/-- The queue that a context starts, and whether it gains a quantum: the one that ran goes on while its deficit is positive. -/
def Ctx.nextQueue (x : Ctx) : Option (Nat × Bool) :=
  let l := x.lastQueue
  if x.queueRunnable l && decide (0 < (x.queue l).deficit) then .some (l, false)
  else
    let order := (rotate l (List.range 16)).filter x.queueRunnable
    match order.find? fun q => decide (0 < (x.queue q).weight) with
    | .some q => .some (q, true)
    | .none => order.head?.map fun q => (q, false)

/-- The next group cycle of the grid of R356 at or after cycle t, as a cycle. -/
def State.gridAt (s : State) (t : Nat) : Nat := t + (65536 - (s.gcyc + (t - s.tick)) % 65536) % 65536

/-- The queue rule is applied and the chosen queue's program starts (R63, R401). Residency that begins with the program of a
group-aligned queue begins on the grid (R356, R403). -/
def State.startQueue (s : State) (x : Nat) : State :=
  match (s.ctx x).nextQueue with
  | .none => s
  | .some (q, gain) =>
    let c := s.ctx x
    let w := if gain then quantum (c.queue q).weight else 0
    let s := (s.modQueue x q fun k => { k with deficit := k.deficit + w }).modCtx x fun k => { k with lastQueue := q }
    let (n, s) := s.fresh
    let d := 1 + Config.startDelay n % 1200
    let t := if c.life = .restoring && (c.queue q).aligned then s.gridAt (s.tick + d) - d else s.tick
    s.planEv t 0 3 .streamProgramStart { a := x, b := q, c := 0, words := [BitVec.ofNat 32 d] }

/-! ### Stops (R404 to R406) -/

/-- Whether a context runs a program of a group-aligned queue (R356). -/
def Ctx.onGrid (x : Ctx) : Bool := match x.running with | .some q => (x.queue q).aligned | .none => false

/-- A restore that has not begun is given up: the context stays away. -/
def State.cancelRestore (s : State) (n : Nat) : State :=
  let mine (d : Due) : Bool := match d.act with
    | .ev .contextRestore a => a.a == n && a.b == 0
    | _ => false
  if s.agenda.any mine then
    { s with agenda := s.agenda.filter fun d => !mine d }.modCtx n fun k => { k with life := .away }
  else s

/-- The contexts of a unit begin to drain, the request being made at cycle t0; `grid` is the group cycle that T_s waits for, and `own`
says that the unit is a context's own queues as the member of its scheduler. -/
def State.beginStop (s : State) (u : Nat) (l : List Nat) (own : Bool) (why : StopWhy) (t0 : Nat) (grid : Option Nat) : State :=
  let s := l.foldl State.cancelRestore s
  let here := s.unitHere l
  here.foldl (fun s n => s.modCtx n fun k =>
    { k with life := .draining, stop := .some why, stopUnit := u, stopAt := t0, grid := grid, stopOwn := own }) s

/-- A stop is requested in this cycle (R404): it begins in the next, or at the grid cycle minus the drain bound. -/
def State.requestStop (s : State) (u : Nat) (l : List Nat) (own : Bool) (why : StopWhy) : State :=
  match (s.unitHere l).find? fun n => (s.ctx n).onGrid with
  | .none => s.beginStop u l own why (s.tick + 1) .none
  | .some n =>
    let b := (s.ctx n).drainBound
    let t := s.gridAt (s.tick + 1 + b)
    let g := s.gcyc + (t - s.tick)
    let s := (s.unitHere l).foldl (fun s n => s.modCtx n fun k => { k with grid := .some g }) s
    s.planEv (t - b) 0 4 .gridDrainStart
      { a := u, b := g, c := if own then 1 else 0, word := BitVec.ofNat 64 b, ok := decide (why = .slice) }

/-- A member leaves residency in this cycle with no drain (R424). -/
def State.leaveNow (s : State) (u : Nat) (l : List Nat) (own : Bool) : State :=
  let here := s.unitHere l
  let s := s.beginStop u l own .slice s.tick .none
  let s := here.foldl (fun s n => (s.ownHerds n).foldl (fun s h =>
    s.modHerd h fun x => { x with cores := x.cores.map fun k : Core => { k with drainedAt := .some s.tick } }) s) s
  s.planEv s.tick 5 5 .contextStop { a := u, b := 0 }

/-- The slots that stand reserved for some contexts: of their commands and of the walks of their translations. -/
def State.slotsOf (s : State) (l : List Nat) : List (Nat × Nat) :=
  ((s.cmds.filter fun c => l.contains c.ctx).flatMap fun c =>
      (s.channelOf (c.pa / 64), c.slot) :: (c.beats.flatMap (·.slots)).map fun p => (s.channelOf p.1, p.2))
    ++ s.agenda.filterMap fun d => match d.act with
      | .walkRead x line _ | .slotUse x line => if l.contains x then .some (s.channelOf line, d.at_) else .none
      | _ => .none

/-- The most cycles that a save or a restore of some herds of contexts l takes at 1.9 GHz (R408): 6 µs up to 24 herds, else 16.2 µs, and 11
cycles for each slot that stands reserved for another context (log entry 53: an area lies on every pseudo-channel). -/
def State.moveBound (s : State) (l : List Nat) (herds : Nat) : Nat :=
  let own := s.slotsOf l
  (if herds ≤ 24 then 11400 else 30780) + 11 * (s.calendar.filter fun p => decide (s.tick < p.2 + 11) && !own.contains p).length

/-- A free number of cycles that a save or a restore takes beyond `least`, within the bound of R408 where its mark sections are no
larger than 160 KiB for each herd. -/
def State.moveCycles (s : State) (l : List Nat) (herds marks least free : Nat) : Nat :=
  if marks ≤ 163840 * herds then least + free % (s.moveBound l herds - least + 1) else least + free

/-- The slots of a whole save area, written or read (R409). The root has none. -/
def State.takeArea (s : State) (n lines : Nat) (ask : Ask) : State :=
  match (s.ctx n).parent with
  | .some p => s.takeRange p (s.ctx n).save (64 * lines) ask
  | .none => s

/-- The lines of a save area with the frames of n herds and a mark section (R409, R415). -/
def areaBeats (n marks : Nat) : Nat := 1024 + n * 86016 + (marks + 63) / 64

/-- The lines that a save or a restore of a context moves: none for the root, which has no area. -/
def State.areaLines (s : State) (n marks : Nat) : Nat :=
  if s.isRoot n then 0 else areaBeats (s.ctx n).herds.length marks

/-- A context whose state stands away, or that has never been resident, is to become resident: the restore takes a free number of
cycles (R408). -/
def State.planRestore (s : State) (n : Nat) : State :=
  if (s.ctx n).life ≠ .away || (s.ctx n).failed then s
  else
    let (f, s) := s.fresh
    let (s, d) := match s.kept.find? fun k => k.ctx == n with
      | .some k =>
        let marks := bytesNat k.header 0x0C 4
        let s := s.takeArea n (s.areaLines n marks) .read
        (s, s.moveCycles [n] (s.ctx n).herds.length marks (Nat.max 94 (s.runsEnd - s.tick)) (Config.restoreCycles f))
      | .none => (s, 0)
    (s.modCtx n fun k => { k with life := .restoring }).planEv (s.tick + d) 0 2 .contextRestore { a := n }

/-- Whether a budget, a save or a revocation keeps a context or an ancestor of it out of residency (R87, R88, R420). -/
def State.heldBack (s : State) (n : Nat) : Bool :=
  (s.chain n).any fun y => let k := s.ctx y; k.saved || k.budgetStopped || k.revoking

/-- Whether another context is still being stopped or saved on a herd of context n. -/
def State.herdsBusy (s : State) (n : Nat) : Bool :=
  s.ctxs.any fun k => k.num != n && (k.life == .draining || k.life == .saving) && (s.ownHerds k.num).any (s.ownHerds n).contains

/-- Every context that is present and away begins to be restored (R400, R414), once its herds are left. -/
def State.restorePresent (s : State) : State :=
  (s.ctxs.map (·.num)).foldl (fun s n =>
    let x := s.ctx n
    if s.present n && x.life = .away && !s.heldBack n && x.chosen && x.member = 0 && !s.herdsBusy n then s.planRestore n else s) s

/-- The choice of R402 of scheduler x, which has no member resident. A child that is chosen resumes after a switch, so the entries of its
subtree leave the buffers (R82). -/
def State.choose (s : State) (x : Nat) : State :=
  let c := s.ctx x
  let order := (rotate c.member (0 :: s.tsChildren x)).filter (s.memberRunnable x)
  let pos := order.find? fun m => decide (0 < s.memberWeight x m)
  match pos.orElse fun _ => order.head? with
  | .none => s
  | .some m =>
    let gain := if pos.isSome then quantum (s.memberWeight x m) else 0
    let s := if m = 0 then s.modCtx x fun k => { k with ownDeficit := k.ownDeficit + gain }
      else (s.modCtx m fun k => { k with deficit := k.deficit + gain }).flushTlb (s.subtree m)
    s.modCtx x fun k => { k with member := m, chosen := true }

/-- Whether the member that scheduler x has chosen runs no program and cannot (R424). -/
def State.memberIdle (s : State) (x : Nat) : Bool :=
  let c := s.ctx x
  !s.memberRunnable x c.member && (s.unit x c.member).all fun n => (s.ctx n).running.isNone || (s.ctx n).failed

/-- The scheduling decisions of one context in this cycle (R402, R424): a member that leaves makes room for the next choice at once. -/
def State.scheduleOne (s : State) (x : Nat) : State :=
  let c := s.ctx x
  if c.failed || s.heldBack x || !s.present x then s
  else
    let s := if c.chosen && c.member = 0 && c.life = .resident && c.running.isNone && c.ownRunnable
        && !(s.agenda.any fun d => match d.act with | .ev .streamProgramStart a => a.a == x | _ => false) then s.startQueue x else s
    if (s.tsChildren x).isEmpty && c.chosen then s
    else
      let c := s.ctx x
      let members := 0 :: s.tsChildren x
      if !c.chosen then s.choose x
      else
        let l := s.unit x c.member
        let other := members.any fun m => m ≠ c.member && s.memberRunnable x m
        if !other || !s.memberIdle x || s.unitStopping l then s
        else if (s.unitHere l).isEmpty then (s.modCtx x fun k => { k with chosen := false }).choose x
        else if (s.unitHere l).any fun n => (s.ctx n).failed then s
        else s.leaveNow (if c.member = 0 then x else c.member) l (c.member = 0)

/-- What stops of whole subtrees still wait for (R87, R88, R420): a stop of what is resident, or the completion of the command. -/
def State.pressStops (s : State) : State :=
  (s.ctxs.map (·.num)).foldl (fun s n =>
    let x := s.ctx n
    let top := match x.parent with | .some p => !(s.ctx p).revoking | .none => true
    let l := s.subtree n
    if !(x.revoking && top || x.saved || x.budgetStopped) || s.unitStopping l then s
    else
      let s := l.foldl State.cancelRestore s
      if !(s.unitHere l).isEmpty then
        if (s.unitHere l).any fun k => (s.ctx k).grid.isSome then s
        else s.requestStop n l false (if x.revoking then .revoke else if x.saved then .save else .budget)
      else if x.revoking then
        let due := s.agenda.any fun d => match d.act with | .ev .revocationComplete a => a.a == n | _ => false
        if due then s else s.planEv s.tick 5 8 .revocationComplete { a := n }
      else match x.saveCmd with
        | .some id => (s.modCtx n fun k => { k with saveCmd := .none }).planEv (s.tick + 1) 3 engineOrd .cxsaveComplete { a := id, b := n }
        | .none => s) s

/-- The decisions that follow an event of the scheduler, parents before their children (R402, R403, R424). -/
def State.reschedule (s : State) : State :=
  let s := s.pressStops
  let order := [0, 1, 2, 3, 4].flatMap fun d => (s.ctxs.filter fun k => k.depth == d).map (·.num)
  (order.foldl State.scheduleOne s).restorePresent

/-! ### Draining (R404 to R406) -/

/-- A core of a draining context at the end of cycle t (R404, R160). -/
def Core.drainStep (t0 t : Nat) (k : Core) : Core :=
  let k := if k.drainedAt.isNone && k.drains t then { k with drainedAt := .some t } else k
  if t = t0 && k.drainedAt.isNone then { k with r := k.r.askClamp } else k

/-- Whether every core, array command and store of a context has ended by the end of this cycle (R406). -/
def State.drained (s : State) (n : Nat) : Bool :=
  (s.ownHerds n).all fun h =>
    let x := s.herd h
    (x.cores.all fun k => k.drainedAt.isSome && k.stores.isEmpty)
      && x.array.cmds.all fun c => c.halted || decide (c.fin ≤ s.tick)

/-- The end of a cycle for one draining context: drain points, the watchdog (R405). -/
def State.drainCtx (s : State) (n : Nat) : State :=
  let x := s.ctx n
  if x.life ≠ .draining || s.tick < x.stopAt then s
  else
    let s := (s.ownHerds n).foldl (fun s h => s.modHerd h fun y => { y with cores := y.cores.map (Core.drainStep x.stopAt s.tick) }) s
    let late := (s.ownHerds n).any fun h => (s.herd h).cores.any fun k => k.drainedAt.isNone
    if late && x.stopAt + x.drainBound = s.tick then s.planEv s.tick 5 4 .drainWatchdog { a := n } else s

/-- T_s of each unit that has drained whole (R406); a unit on the grid waits for its group cycle (R356). -/
def State.stopDrained (s : State) : State :=
  let units := ((s.ctxs.filter fun k => k.life == .draining).map (·.stopUnit)).eraseDups
  units.foldl (fun s u =>
    let l := s.ctxs.filter fun k => k.life == .draining && k.stopUnit == u
    let due := s.agenda.any fun d => match d.act with | .ev .contextStop a => a.a == u && a.b == 0 | _ => false
    let ok := l.all fun k => decide (k.stopAt ≤ s.tick) && s.drained k.num
      && match k.grid with | .some g => decide (g ≤ s.gcyc) && s.gcyc % 65536 == 0 | .none => true
    if ok && !due then s.planEv s.tick 5 5 .contextStop { a := u, b := 0 } else s) s

/-! ### Counts of the idle/busy table (R97, R98) -/

/-- One more busy or idle cycle of a unit under a phase. -/
def countCycle (unit phase : Nat) (busy : Bool) : List ((Nat × Nat) × (Nat × Nat)) → List ((Nat × Nat) × (Nat × Nat))
  | [] => [((unit, phase), if busy then (1, 0) else (0, 1))]
  | (k, v) :: l =>
    if k = (unit, phase) then
      (k, if busy then (Nat.min (2 ^ 48 - 1) (v.1 + 1), v.2) else (v.1, Nat.min (2 ^ 48 - 1) (v.2 + 1))) :: l
    else (k, v) :: countCycle unit phase busy l

/-- The phase under which a core counts cycle t: a write of `phase` that lands at its end counts from the next one. -/
def Core.phaseIn (k : Core) (t : Nat) : Nat := (if k.phaseWas.1 = t then k.phaseWas.2 else k.phase).toNat

/-- What the six units of a herd do in this cycle: phase and whether busy. -/
def State.unitsNow (s : State) (x h : Nat) : List (Nat × Bool) :=
  let y := s.herd h
  let t := s.tick
  let ph (c : Nat) : Nat := (y.cores.getD c {}).phaseIn t
  let cores := y.cores.map fun k => (k.phaseIn t, k.lastIssue == .some t)
  let v := s.vcycAt x t
  let holder := (((y.array.leasesIn t).find? fun e => e.holds v).map fun e => e.core.toNat).getD 0
  let array := (ph holder, decide (t < y.array.busyBefore)
    || y.array.cmds.any fun c => !c.halted && decide (c.at_ ≤ t) && decide (t ≤ c.fin))
  let live := s.cmds.filter fun c => c.walker == h && c.live t && decide (c.issue ≤ t)
  let walker := match live with
    | [] => (ph 0, false)
    | c :: l =>
      let o := l.foldl (fun o c => if c.issue < o.issue then c else o) c
      ((s.core o.herd o.core).phaseIn t, true)
  cores ++ [array, walker]

/-- The counts of a resident context advance. -/
def State.countCtx (s : State) (n : Nat) : State :=
  let x := s.ctx n
  let step (old : List ((Nat × Nat) × (Nat × Nat))) (h : Nat) : List ((Nat × Nat) × (Nat × Nat)) :=
    if s.givenAway n h then old
    else (((s.unitsNow n h).zipIdx).foldl (fun l p => countCycle p.2 p.1.1 p.1.2 l) old)
  let counts := (x.herds.zipIdx).map fun p => step (x.counts.getD p.2 []) p.1
  s.modCtx n fun k => { k with counts := counts }

/-! ### The end of a cycle -/

/-- The residency charges of class 15 (R415): the herds on which a context is resident, and those that lie idle under R400. -/
def State.chargeResidency (s : State) : State :=
  (s.ctxs.map (·.num)).foldl (fun s n =>
    let x := s.ctx n
    if x.holdsHerds then s.charge n 15 (s.ownHerds n).length
    else if x.chosen && x.member ≠ 0 && s.memberIn 5 n then
      s.charge n 15 ((s.ownHerds n).filter fun h => !(s.ctx x.member).herds.contains h).length
    else s) s

/-- The charges of the cycle are added; a counter that would pass 2^48 - 1 saturates, and a ceiling passed stops the context (R87,
R416). -/
def State.addCharges (s : State) : State :=
  (s.ctxs.map (·.num)).foldl (fun s n =>
    let x := s.ctx n
    let total := x.ecnt + x.charge
    let s := if total < 2 ^ 48 then s.modCtx n fun k => { k with ecnt := total, charge := 0 }
      else s.planEv s.tick 5 1 .ecntSaturation { a := n }
    if decide (x.eceil < Nat.min total (2 ^ 48 - 1)) && x.parent.isSome && !x.budgetStopped && !x.failed && !x.revoking then
      s.planEv s.tick 5 2 .budgetStop { a := n }
    else s) s

/-- The deficits of one scheduler at the end of a resident cycle, and what they ask (R402). -/
def State.countDeficit (s : State) (n : Nat) : State :=
  let x := s.ctx n
  if !s.present n || !s.memberIn 5 n || x.failed then s
  else
    let m := x.member
    let d := (if m = 0 then x.ownDeficit else (s.ctx m).deficit) - 1
    let s := if m = 0 then s.modCtx n fun k => { k with ownDeficit := d } else s.modCtx m fun k => { k with deficit := d }
    let l := s.unit n m
    let w := s.memberWeight n m
    let other := (0 :: s.tsChildren n).any fun k => k ≠ m && decide (0 < s.memberWeight n k) && s.memberRunnable n k
    let busy := s.unitStopping l || (s.unitHere l).any fun k => (s.ctx k).grid.isSome || (s.ctx k).failed
    if busy then s
    else if (d ≤ 0 || w = 0) && other then s.planEv s.tick 5 6 .sliceEnd { a := n }
    else if d ≤ 0 && 0 < w then s.planEv s.tick 5 6 .deficitRenewal { a := n }
    else s

/-- The deficit of the queue whose program runs counts down too (R401). -/
def State.countQueue (s : State) (n : Nat) : State :=
  let x := s.ctx n
  match x.running with
  | .some q => if x.holdsHerds then s.modQueue n q fun k => { k with deficit := k.deficit - 1 } else s
  | .none => s

/-- A member that has stopped being runnable loses its deficit (R402). -/
def State.dropDeficits (s : State) (n : Nat) : State :=
  let x := s.ctx n
  let own := x.ownRunnable
  let mem := s.live n
  s.modCtx n fun k => { k with
    ownDeficit := if x.ownLive && !own then 0 else k.ownDeficit
    deficit := if x.memberLive && !mem then 0 else k.deficit
    ownLive := own, memberLive := mem }

/-- A reflected trap enters a lead core that holds no frame (R395), in the first cycle in which its context is resident; every register
of R124 stands as R126 sets it, the accumulators among them. -/
def State.enterIdle (s : State) (y : Nat) : State :=
  let x := s.ctx y
  let h := x.lead
  let k := s.core h 0
  let free := k.r.frame.isNone && k.susp.isEmpty && k.r.trap.isNone && k.hold == .none && k.lastIssue ≠ .some s.tick && k.drainedAt.isNone
  match firstEntry s.tick x.entries with
  | .none => s
  | .some e =>
    if !(x.life == .resident && free) || s.givenAway y h || x.failed then s
    else
      let f : TrapFrame := { (k.frameAt s.tick k.r.pc 0 .none 0) with noTask := true }
      let s := s.modCtx y fun c => { c with entries := c.entries.erase e }
      let s := s.modArray h fun a => { a with acc := List.replicate 4 (List.replicate 2048 0) }
      (s.modCore h 0 fun k =>
        ({ k with r := { ({} : Regs) with frame := .some (Frame.idle y) }, phase := 0 } : Core).enterHandler f (x.hentry.setWidth 16) e.record
          (s.tick + 1)).planIssue h 0 (s.tick + 1)

/-- The end of a cycle: energy, counts, deficits, drains, entries. -/
def State.settle (s : State) : State :=
  if s.plat.tripped then { s with settled := true } else
  let all := s.ctxs.map (·.num)
  let here := (s.ctxs.filter Ctx.holdsHerds).map (·.num)
  let s := s.chargeResidency.addCharges
  let s := here.foldl State.countCtx s
  let s := all.foldl State.countDeficit s
  let s := here.foldl State.countQueue s
  let s := all.foldl State.dropDeficits s
  let s := all.foldl State.drainCtx s
  let s := s.stopDrained
  let s := (((s.ctxs.filter fun k => !k.entries.isEmpty).map (·.num)).foldl State.enterIdle s : State)
  { s with settled := true }

/-! ### Slices, budgets and the watchdog -/

/-- SLICE_END (R402): the stop of the member that scheduler ev.a has resident is requested. -/
def execSliceEnd (s : State) : Out :=
  let x := s.ev.a
  let m := (s.ctx x).member
  .next (s.requestStop (if m = 0 then x else m) (s.unit x m) (m = 0) .slice)

/-- DEFICIT_RENEWAL (R402): the member that scheduler ev.a has resident is chosen again. -/
def execDeficitRenewal (s : State) : Out :=
  let x := s.ev.a
  let m := (s.ctx x).member
  let g := quantum (s.memberWeight x m)
  .next (if m = 0 then s.modCtx x fun k => { k with ownDeficit := k.ownDeficit + g }
    else s.modCtx m fun k => { k with deficit := k.deficit + g })

/-- GRID_DRAIN_START (R356): the drain of unit ev.a begins now, so that it stops at group cycle ev.b. A slice that has ended its
program, or whose contest is over, is not stopped. -/
def execGridDrainStart (s : State) : Out :=
  let u := s.ev.a
  let l := if s.ev.c = 1 then [u] else s.subtree u
  let gone := !((s.unitHere l).any fun n => (s.ctx n).grid == .some s.ev.b)
  let clear (s : State) : State := l.foldl (fun s n => s.modCtx n fun k => { k with grid := .none }) s
  .next (if gone then s
    else if s.ev.ok && !((s.unitHere l).any fun n => (s.ctx n).onGrid) then clear s
    else
      let x := s.ctx u
      let why : StopWhy := if x.revoking then .revoke else if x.saved then .save else if x.budgetStopped then .budget else .slice
      s.beginStop u l (s.ev.c = 1) why s.tick (.some s.ev.b))

/-- BUDGET_STOP (R87): context ev.a has passed its ceiling; it is stopped, and the budget trap starts at its parent (R83). -/
def execBudgetStop (s : State) : Out :=
  let x := s.ev.a
  let c := s.ctx x
  .next (if c.budgetStopped || c.failed || c.revoking || c.parent.isNone then s
    else
      let y := s.routeTrap x x 29
      let steps := c.depth - (s.ctx y).depth
      let r := trapRecord true 0 { cls := 29 } x steps (s.regs c.lead 0).pc (s.vcyc x)
      ((s.modCtx x fun k => { k with budgetStopped := true }).reflect y steps r).reschedule)

/-- ECNT_SATURATION (R416): the counter of context ev.a stays at its greatest value and EOVF is set. -/
def execEcntSaturation (s : State) : Out :=
  .next (s.modCtx s.ev.a fun k => { k with ecnt := 2 ^ 48 - 1, eovf := true, charge := 0 })

/-- The contexts of a stop that has been given up go on. -/
def State.endDrain (s : State) (n : Nat) : State :=
  let s := s.modCtx n fun k => { k with life := .resident, stop := .none, grid := .none }
  (s.ownHerds n).foldl (fun s h => [0, 1, 2, 3].foldl (fun s c =>
    let k := s.core h c
    let s := s.modCore h c fun k =>
      let k := { k with r := k.r.unaskClamp }
      { (if k.drainedAt.isSome then k.unclamped else k) with drainedAt := .none }
    if (k.r.frame.isSome || k.inHandler) && !k.held && k.drainedAt.isSome then s.planIssue h c (Nat.max (s.tick + 1) k.issueAt) else s) s) s

/-- DRAIN_WATCHDOG (R405): a core of context ev.a has not drained in time: the fatal class, cause 5. The failed context keeps its
herds; the others of its unit go on, unless a save or a revocation stops them. -/
def execDrainWatchdog (s : State) : Out :=
  let n := s.ev.a
  let x := s.ctx n
  let late := (s.ownHerds n).findSome? fun h => (s.herd h).cores.find? fun k => k.drainedAt.isNone
  .next (if x.life ≠ .draining then s
    else
      let s := s.fatal n 5 ((late.map fun k => k.r.pc).getD 0)
      if x.stop = .some .slice || x.stop = .some .budget then
        ((s.ctxs.filter fun k => k.life == .draining && k.stopUnit == x.stopUnit).map (·.num)).foldl State.endDrain s
      else s)

/-! ### Starts and ends of stream programs (R63, R65) -/

/-- The words of the mailbox box of a queue as they stand. One that the translation refuses is free, and so is one of a line with an
uncorrectable error, of which no byte is delivered (R63, R454; DESIGN CHOICE, log entry 44). -/
def State.mailboxWords (s : State) (x : Nat) (q : Queue) : State × List Word :=
  (List.range (Nat.min q.nparam q.mlen)).foldl (fun (p : State × List Word) i =>
    let a := q.mbox + 4 * i
    match (if p.1.spaceBad x a 4 .read then .none else (p.1.readSpace x a 4).toOption) with
    | .some b => (p.1, p.2 ++ [BitVec.ofNat 32 (leNat b)])
    | .none => let (n, t) := p.1.fresh; (t, p.2 ++ [Config.mailboxWord n])) (s, [])

/-- Every core of a context's partition begins as R126 says; its stores, its asynchronous traps and its own state stay. -/
def State.clearCores (s : State) (x : Nat) : State :=
  State.resetWeights <| (s.ownHerds x).foldl (fun s h => s.modHerd h fun y => { y with
    array := { y.array with acc := List.replicate 4 (List.replicate 2048 0) }
    cores := y.cores.map fun k : Core =>
      if k.inHandler || k.hold == .reflected then k
      else { k with r := {}, susp := [], hold := .none, phase := 0, tile := .none, table := [], xbuf := .none } }) s

/-- Whether the lead core of a context runs a handler that it entered without a task (R63, R395). -/
def State.leadBusy (s : State) (x : Nat) : Bool :=
  match (s.regs (s.ctx x).lead 0).trap with | .some f => f.noTask | .none => false

/-- The root task of a queue's image, and the image. -/
def State.rootTask (s : State) (k : Queue) : Image × Task :=
  let m := (s.image? k.image).getD { id := 0, code := [], tasks := [], root := 0 }
  (m, m.tasks.getD m.root { level := 3, emask := 1, nparam := 0, entries := [], boxes := [] })

/-- What the start of a root task of context x binds (R14, R17, R63): its descriptors as they stand now, and the trap of the first bundle
where one is not valid or the translation refuses them. What is not valid stays unbound; a refused read binds nothing (log entry
54). -/
def State.startBoxes (s : State) (x : Nat) (t : Task) : List (Option (BitVec 256)) × Option Async :=
  let n := Nat.min 16 t.boxes.length
  match s.readSpace x t.boxAt (32 * n) with
  | .error f =>
    (List.replicate 16 .none, .some { cls := f.cls, sync := true, d0 := f.trap.d0, d1 := f.trap.d1, ctx := x, owner := f.owner })
  | .ok d =>
    let l := (List.range n).map fun k => BitVec.ofNat 256 (bytesNat d (32 * k) 32)
    ((l.map fun b => if boxAcc b ≠ 0 && boxEntryOk 3 b then .some b else .none) ++ List.replicate (16 - n) .none,
      if l.all (boxEntryOk 3) then .none else .some { cls := 12, sync := true, ctx := x, owner := x })

/-- The first bundle of a stream program issues in this cycle (R63, steps 3 and 4). -/
def State.enterProgram (s : State) (x q : Nat) (params : List Word) : State :=
  let k := (s.ctx x).queue q
  let (m, t) := s.rootTask k
  let (boxes, bad) := s.startBoxes x t
  let f : Frame := { ctx := x, level := 3, image := k.image, task := m.root, call := .none, queue := q, boxes := boxes }
  let h := (s.ctx x).lead
  let entry := BitVec.ofNat 16 (t.entries.getD 0 0)
  let lost := s.spaceBad x t.boxAt (32 * Nat.min 16 t.boxes.length) .read
  let s := (s.ownHerds x).foldl (fun s h => s.loadStore h m) ((s.clearCores x).takeRange x t.boxAt (32 * Nat.min 16 t.boxes.length) .read)
  let s := s.modCore h 0 fun c =>
    let c := c.enterTask f params entry false
    match bad with | .some a => c.noteAsync a | .none => c
  (if lost then s.fatal x 3 entry else s).planIssue h 0 s.tick

/-- Residency begins in this cycle: after a restore the offset has grown by the cycles since the stop cycle, so that vcyc goes on with its
first bundle; before any residency it has not grown (R94, R95). -/
def State.beginResidency (s : State) (x : Nat) : State :=
  s.modCtx x fun c => { c with
    life := .resident, vresume := .none, offset := match c.vresume with | .some v => (s.gcyc : Int) - v | .none => c.offset }

/-- STREAM_PROGRAM_START (R63): queue ev.b of context ev.a. Stage 0 takes steps 1 and 2; stage 1, a free number of cycles later, the
others. While the lead core runs a handler without a task it is stage 2 that waits, and stage 3 is a free number of cycles after the
cycle that follows the handler's `eret`. Residency that begins with the program begins at its first bundle. -/
def execStreamProgramStart (s : State) : Out :=
  let x := s.ev.a
  let q := s.ev.b
  let c := s.ctx x
  .next (if c.failed || c.revoking then s
    else if s.ev.c = 0 then
      let k := c.queue q
      if k.state ≠ 1 || !(c.life = .resident || c.life = .restoring) then s
      else
        let s := (s.modQueue x q fun k => { k with state := 2, fail := false }).modCtx x fun c => { c with pend := c.pend &&& ~~~(1#16 <<< q) }
        let (s, params) := (s.takeRange x k.mbox (4 * Nat.min k.nparam k.mlen) .read).mailboxWords x k
        let d := (s.ev.words.headD 1).toNat
        s.planEv (s.tick + d) 0 3 .streamProgramStart { a := x, b := q, c := 1, words := params }
    else if s.leadBusy x then s.planEv (s.tick + 1) 0 3 .streamProgramStart { s.ev with c := 2 }
    else if s.ev.c = 2 then
      let (n, s) := s.fresh
      s.planEv (s.tick + Config.startDelay n % 1201) 0 3 .streamProgramStart { s.ev with c := 3 }
    else
      let s := if c.life = .restoring then s.beginResidency x else s
      s.enterProgram x q s.ev.words)

/-- The table of R99 of one herd. -/
def profileBytes (l : List ((Nat × Nat) × (Nat × Nat))) : List Byte :=
  (List.range 64).flatMap fun phase => (List.range 6).flatMap fun unit =>
    let v := ((l.find? fun p => p.1 = (unit, phase)).map (·.2)).getD (0, 0)
    leBytes 8 v.1 ++ leBytes 8 v.2

/-- The profile area of a context is written in its parent's space (R99); the root has none. Where the parent's translation refuses the
table of a herd, that table is not written and no fault is raised (DESIGN CHOICE, log entry 45: R99 names none). -/
def State.writeProfile (s : State) (x : Nat) : State :=
  let c := s.ctx x
  match c.parent with
  | .none => s
  | .some p => (List.range c.herds.length).foldl (fun s v =>
      match s.writeSpace p (c.prof + v * 6144) (profileBytes (c.counts.getD v [])) with
      | .ok t => t
      | .error _ => s) (s.takeRange p c.prof (6144 * c.herds.length) .write)

/-- The completion notice of R66. -/
def completionNotice (x q done : Nat) : List Byte :=
  [0x90, BitVec.ofNat 8 x, 4, 0] ++ List.replicate 12 0 ++ leBytes 4 (done * 2 ^ 16 + q)

/-- The child of a scheduler, highest in the tree, that leaves residency as its member when context x has nothing to run: a chosen member
of which nothing is runnable; none where x's own queues alone are the member that leaves (R424). -/
def State.idleTop (s : State) : Nat → Nat → Option Nat
  | 0, _ => .none
  | k + 1, x =>
    let c := s.ctx x
    match c.parent with
    | .some p =>
      if c.timeShared && (s.ctx p).chosen && (s.ctx p).member == x && !s.live x && (s.subtree x).all fun n => (s.ctx n).running.isNone then
        (s.idleTop k p).orElse fun _ => .some x
      else .none
    | .none => .none

/-- A context whose program has ended, and of which no queue is runnable, leaves residency in this cycle (R424). -/
def State.leaveIdle (s : State) (x : Nat) : State :=
  let c := s.ctx x
  if c.life ≠ .resident || !c.chosen || c.member ≠ 0 then s
  else match s.idleTop 5 x with
    | .some u => s.leaveNow u (s.subtree u) false
    | .none => s.leaveNow x [x] true

/-- A stream program's end takes effect (R65), and what follows for the residency of its context (R401, R424). -/
def State.programEnd (s : State) (x q : Nat) : State :=
  let s := s.writeProfile x
  let s := s.modQueue x q fun k => { k with state := 1, done := k.done + 1 }
  let c := s.ctx x
  let s := if c.queueRunnable q then s else s.modQueue x q fun k => { k with deficit := 0 }
  let s := if c.note.getLsbD q then s.notify x (completionNotice x q (c.queue q).done.toNat) else s
  (if c.ownRunnable then s else s.leaveIdle x).reschedule

/-- The last cycle in which a device write that commands of a context have begun performs; this one where none is left. The data records of a
`cxq` in flight are not waited for (DESIGN CHOICE, log entry 45). -/
def State.lastDevWrite (s : State) (x : Nat) : Nat :=
  (s.cmds.filter fun c => c.ctx == x).foldl (fun m c => c.beats.foldl (fun m b =>
    if b.toDev && !b.performed && !b.abandoned then Nat.max m b.performAt else m) m) s.tick

/-- The chip task of queue q has returned: the program ends once its device writes have performed (R65). -/
def State.endProgram (s : State) (x q : Nat) : State :=
  if (s.ctx x).failed || ((s.ctx x).queue q).state ≠ 2 then s
  else if s.lastDevWrite x ≤ s.tick then s.programEnd x q
  else s.plan (s.lastDevWrite x) 3 engineOrd (.programEnd x q)

/-- `wret` (R374, R65, R380): the executing core's frame ends; the chip task's ends the stream program. -/
def execWret (s : State) : Out :=
  s.answer <| do
    s.mayReturn
    match s.R.frame with
    | .none => return s.endIfLast
    | .some f =>
      let t := s.endFrame f
      return if f.call.isNone && f.level = 3 then t.endProgram f.ctx f.queue else t

/-! ### Reflected traps (R85, R395, R421) -/

/-- REFLECTED_TRAP_ENTRY (R395): the record ev.words becomes pending at context ev.a; at the root without a handler a notice is
sent (R86). A record that finds the list full is lost (R421), and so is its notice (DESIGN CHOICE, log entry 45). -/
def execReflectedTrapEntry (s : State) : Out :=
  let y := s.ev.a
  let r := s.ev.words
  .next (match s.ctx? y with
    | .none => s
    | .some c =>
      if c.revoking then s
      else if 64 ≤ c.ctraps.length then s.modCtx y fun k => { k with ctrapOvf := true }
      else
        let s := s.modCtx y fun k => { k with ctraps := k.ctraps ++ [r] }
        if (s.ctx y).takes (recordClass r) then
          s.modCtx y fun k => { k with entries := k.entries ++ [{ due := s.tick, record := r }] }
        else if y = 0 then s.trapNotice r
        else s)

end Sys2Proof.Machine
end

