-- ==== Sys2Proof/Machine/Sha.lean ====
section
/-! DEFINITION. Sha.lean: SHA-256 of FIPS 180-4, which `wsnap` (R290) and attestation (R438) use. The constants are computed from
their definition: the fractions of the square and cube roots of the first primes. -/

namespace Sys2Proof.Machine

/-- The first 64 primes. -/
def shaPrimes : List Nat :=
  (List.range 312).filter fun n => 2 ≤ n && (List.range n).all fun d => d < 2 || n % d ≠ 0

/-- The cube root of n rounded down: bits from `i` − 1 down, with `r` found so far. -/
def cbrtFrom : Nat → Nat → Nat → Nat
  | 0, _, r => r
  | i + 1, n, r => let t := r + 2 ^ i; if t * t * t ≤ n then cbrtFrom i n t else cbrtFrom i n r

/-- The round constants K. -/
def shaK : List Word := shaPrimes.map fun p => BitVec.ofNat 32 (cbrtFrom 36 (p * 2 ^ 96) 0 % 2 ^ 32)

/-- The initial hash value. -/
def shaInit : List Word := (shaPrimes.take 8).map fun p => BitVec.ofNat 32 (sqrtFrom 37 (p * 2 ^ 64) 0 % 2 ^ 32)

def shaSigma (a b c : Nat) (x : Word) : Word := x.rotateRight a ^^^ x.rotateRight b ^^^ x.rotateRight c
def shaGamma (a b c : Nat) (x : Word) : Word := x.rotateRight a ^^^ x.rotateRight b ^^^ (x >>> c)

/-- The message schedule: `n` more words; the list stands latest first. -/
def shaExpand : Nat → List Word → List Word
  | 0, w => w
  | n + 1, w =>
    shaExpand n ((shaGamma 17 19 10 (w.getD 1 0) + w.getD 6 0 + shaGamma 7 18 3 (w.getD 14 0) + w.getD 15 0) :: w)

/-- One round on the eight working variables. -/
def shaRound (v : List Word) (kw : Word × Word) : List Word :=
  let g (i : Nat) : Word := v.getD i 0
  let t1 := g 7 + shaSigma 6 11 25 (g 4) + ((g 4 &&& g 5) ^^^ (~~~(g 4) &&& g 6)) + kw.1 + kw.2
  let t2 := shaSigma 2 13 22 (g 0) + ((g 0 &&& g 1) ^^^ (g 0 &&& g 2) ^^^ (g 1 &&& g 2))
  [t1 + t2, g 0, g 1, g 2, g 3 + t1, g 4, g 5, g 6]

/-- One 64-byte block. -/
def shaBlock (h : List Word) (block : List Byte) : List Word :=
  let w := (List.range 16).map fun i => BitVec.ofNat 32 (leNat ((block.drop (4 * i)).take 4).reverse)
  let all := (shaExpand 48 w.reverse).reverse
  (h.zip ((shaK.zip all).foldl shaRound h)).map fun p => p.1 + p.2

/-- The padded message: a one bit, zeros, the length in bits. -/
def shaPad (l : List Byte) : List Byte :=
  let n := l.length
  l ++ [0x80] ++ List.replicate ((119 - n % 64) % 64) 0 ++ (leBytes 8 (8 * n)).reverse

/-- All blocks of a padded message, `k` of them. -/
def shaBlocks : Nat → List Word → List Byte → List Word
  | 0, h, _ => h
  | k + 1, h, l => shaBlocks k (shaBlock h (l.take 64)) (l.drop 64)

/-- The digest, in digest order. -/
def sha256 (l : List Byte) : List Byte :=
  let m := shaPad l
  (shaBlocks (m.length / 64) shaInit m).flatMap fun w => (leBytes 4 w.toNat).reverse

end Sys2Proof.Machine
end

