-- ==== Sys2Proof/Machine/Snapshot.lean ====
section
/-! DEFINITION. Snapshot.lean: `wsnap` (R289 to R291): its checks, its schedule, and the completion of a block's hash. Its reads
stand as beats without a destination, numbered by their offset in the source (hash entries from 2^44 on); its writes as beats whose
bytes are given when the block is compared. -/

namespace Sys2Proof.Machine

/-! ### Boxes (R289) -/

/-- Bytes of a dense box. -/
def denseBytes (b : BitVec 256) : Nat := boxEnd b - boxBase b

/-- A dense box (R289): its rows and outer dimensions follow one another without a gap. -/
def boxDense (b : BitVec 256) : Bool :=
  (boxDims b < 1 || boxStr b 1 == runBytes (boxTile b) (boxFmt b) (boxExt b 0))
    && [2, 3].all fun k => decide (boxDims b < k) || boxStr b k == boxStr b (k - 1) * boxExt b (k - 1)

/-- Blocks of 65,536 bytes of a source. -/
def snapBlocks (b : BitVec 256) : Nat := (denseBytes b + 65535) / 65536

/-- The pages of a box translated in order: address, physical address, length; or the first fault, `agrees` being the test of R272
(R254). -/
def State.mapBox (s : State) (agrees : BitVec 256 → Nat → Nat → Bool) (x : Nat) (b : BitVec 256) (k : Ask) :
    List (Nat × Nat) → Walk → Walk × Except Refused (List (Nat × Nat × Nat))
  | [], w => (w, .ok [])
  | (a, n) :: l, w =>
    match s.translate x a k w with
    | (w, .error f) => (w, .error f)
    | (w, .ok q) =>
      if !agrees b q.pa n then (w, .error { cls := 9, owner := x, write := false, va := 0 })
      else match s.mapBox agrees x b k l w with
        | (w, .ok r) => (w, .ok ((a, q.pa, n) :: r))
        | e => e

/-- The pages of several boxes; each with what is asked of it and the bytes that the command reaches. -/
def State.mapBoxes (s : State) (agrees : BitVec 256 → Nat → Nat → Bool) (x : Nat) :
    List (BitVec 256 × Ask × Nat) → Walk → Walk × Except Refused (List (List (Nat × Nat × Nat)))
  | [], w => (w, .ok [])
  | (b, k, n) :: l, w =>
    match s.mapBox agrees x b k (pagePieces (boxBase b) n) w with
    | (w, .error f) => (w, .error f)
    | (w, .ok r) => match s.mapBoxes agrees x l w with
      | (w, .ok rs) => (w, .ok (r :: rs))
      | e => e

/-- Whether two of the boxes share a physical byte. -/
def boxesMeet (l : List (List (Nat × Nat × Nat))) : Bool :=
  (l.zipIdx).any fun p => (l.zipIdx).any fun q =>
    decide (p.2 < q.2) && p.1.any fun a => q.1.any fun b => rangesMeet a.2 b.2

/-- Where an address lies, by the translation made at issue. -/
def Cmd.physical (c : Cmd) (va : Nat) : Nat :=
  ((c.pages.find? fun p => p.1 == va / 65536).map (·.2)).getD 0 + va % 65536

def Cmd.snapBox (c : Cmd) (i : Nat) : BitVec 256 := c.aux.getD i 0

/-- The aperture through which a command sees its box i, as the registers stood at its issue (R269). -/
def Cmd.view (c : Cmd) (i : Nat) : Option Aperture := c.views.getD i .none

/-- What a `wsnap` asks of its boxes and reaches of them, for nb blocks (R289). -/
def Cmd.snapWants (c : Cmd) : List (BitVec 256 × Ask × Nat) :=
  let nb := snapBlocks (c.snapBox 0)
  [(c.snapBox 0, .read, denseBytes (c.snapBox 0)), (c.snapBox 1, .both, 16 * nb), (c.snapBox 2, .write, 4 * (nb + 1)),
    (c.snapBox 3, .write, 65536 * nb)]

/-- The pages of a command's boxes as they were translated (R290). -/
def pagesOf (l : List (List (Nat × Nat × Nat))) : List (Nat × Nat) := l.flatMap fun g => g.map fun p => (p.1 / 65536, p.2.1 - p.1 % 65536)

/-- Where the bytes of a whole box lie, those that the translation refuses left out. -/
def State.boxPlaces (s : State) (x : Nat) (b : BitVec 256) : List (Nat × Nat × Nat) :=
  (pagePieces (boxBase b) (denseBytes b)).filterMap fun p => match (s.translate x p.1 .read { tlb := [] }).2 with
    | .ok q => .some (p.1, q.pa, p.2)
    | .error _ => .none

/-! ### Reads -/

/-- The number of a hash entry's first byte among the reads. -/
def entryTag (i : Nat) : Nat := 2 ^ 44 + 16 * i

/-- Bytes that a read delivers. -/
def Beat.length (b : Beat) : Nat := match b.post with | .scaleRead _ _ n => n | _ => b.src.length

/-- The reads of n bytes of box i of a command from an offset, through the aperture that it saw at issue (R269, R272 to R275). -/
def Plan.snapRead (p : Plan) (c : Cmd) (t r i off n tag : Nat) : Plan :=
  let a := boxBase (c.snapBox i) + off
  p.readView t r (c.view i) ((cutRun a n).map fun q => (a + q.1, c.physical (a + q.1), q.2, tag + q.1))

/-- The reads of some stretch: beats without a destination whose number lies in it. -/
def readsIn (beats : List Beat) (lo n : Nat) : List Beat :=
  beats.filter fun b => b.dst.isEmpty && decide (lo ≤ b.part) && decide (b.part < lo + n)

/-- Bytes of block i of a source of S bytes. -/
def blockLen (size i : Nat) : Nat := Nat.min 65536 (size - 65536 * i)

/-- The cycles in which the chunks of a block are hashed: one a cycle, each when its bytes are usable, none while the unit takes a
chunk of a command issued before (R290; DEDUCED, log entry 22). -/
def chunkCycles (busy : List Nat) (reads : List Beat) (lo n t : Nat) : List Nat :=
  ((List.range ((n + 63) / 64)).foldl (fun (acc : List Nat × Nat) j =>
    let usable := reads.foldl (fun m b =>
      if decide (b.part < lo + 64 * j + 64) && decide (lo + 64 * j < b.part + b.length) then max m b.performAt else m) 0
    let u := searchFrom (fun u => !busy.contains u) busy.length (max (acc.2 + 1) usable)
    (acc.1 ++ [u], u)) ([], t)).1

/-- The blocks of a command with their comparison cycles, none before that of the block before, and the cycles in which its chunks are hashed;
a block with no reads, or with a read that was given up, hashes nothing (R290). -/
def Cmd.hashing (busy : List Nat) (c : Cmd) : List (Nat × Nat) × List Nat :=
  let size := denseBytes (c.snapBox 0)
  (List.range (snapBlocks (c.snapBox 0))).foldl (fun acc i =>
    let reads := readsIn c.beats (65536 * i) (blockLen size i)
    let before := acc.2.getLastD 0
    let cycles := if reads.isEmpty || reads.any (·.abandoned) then [] else chunkCycles busy reads (65536 * i) (blockLen size i) before
    let entry := (readsIn c.beats (entryTag i) 16).foldl (fun m b => max m b.performAt) 0
    let last := (acc.1.getLast?.map (·.2)).getD 0
    (acc.1 ++ [(i, max last (max (cycles.getLastD before + 80) entry))], acc.2 ++ cycles)) ([], [])

/-- The cycles in which the hash unit of a command's walker takes chunks of commands issued before it. -/
def State.hashBusy (s : State) (c : Cmd) : List Nat :=
  (s.cmds.filter fun d => d.kind = .snap && d.walker = c.walker && decide (d.id < c.id)).foldl (fun l d => l ++ (d.hashing l).2) []

/-- The comparison cycle of each block that a command still has to complete. -/
def State.compares (s : State) (c : Cmd) : List (Nat × Nat) := ((c.hashing (s.hashBusy c)).1).drop c.n

/-! ### Writes -/

/-- The writes of some bytes into box i of a command, cut at lines, through the aperture that it saw at issue; `tag` is 0 for index
word 0, else the block's number plus 1. -/
def Cmd.snapWrite (c : Cmd) (i off : Nat) (bytes : List Byte) (tag : Nat) : List Beat :=
  let a := boxBase (c.snapBox i) + off
  (cutRun a bytes.length).flatMap fun q =>
    let pa := c.physical (a + q.1)
    (deviceBeats (c.view i) false .dev (a + q.1) pa pa q.2).map fun b =>
      { b with expanded := true, sampled := true, part := tag, got := bytesAt pa ((bytes.drop q.1).take q.2) }

/-- A write beat with slots from `lo` on. -/
def Plan.placeWrite (p : Plan) (lo : Nat) (b : Beat) : Plan :=
  let (s, slots) := takeSlots p.s lo (linesOf b.dst)
  { p with s := s, beats := p.beats ++ [{ b with slots := slots, performAt := lastSlot slots + 10 }] }

/-- The writes of block i, the n-th that changed, compared at t: data and index word first, then the hash entry (R290). -/
def Plan.placeChange (p : Plan) (c : Cmd) (i n t : Nat) (data hash : List Byte) : Plan :=
  let first := c.snapWrite 3 (65536 * n) data (i + 1) ++ c.snapWrite 2 (4 * (n + 1)) (leBytes 4 i) (i + 1)
  let from_ := p.beats.length
  let p := first.foldl (fun p b => p.placeWrite (t + 1) b) p
  let done := (p.beats.drop from_).foldl (fun m b => max m b.performAt) 0
  (c.snapWrite 1 (16 * i) hash (i + 1)).foldl (fun p b => p.placeWrite (max (t + 1) (done - 9)) b) p

/-- Index word 0, after every other write (R290). -/
def Plan.placeCount (p : Plan) (c : Cmd) (n t : Nat) : Plan :=
  let done := p.beats.foldl (fun m b => if b.toDev then max m b.performAt else m) 0
  (c.snapWrite 2 0 (leBytes 4 n) 0).foldl (fun p b => p.placeWrite (max (t + 1) (done - 9)) b) p

/-- The bytes that a read would deliver from memory as it stands. -/
def State.peek (s : State) (blocks : List PackedBlock) (b : Beat) : List Byte :=
  match b.block with
  | .some k => match blocks[k]? with
    | .some q =>
      let z := expandZ (s.readRange q.space q.addr 4096)
      b.src.map fun o => z.bytes.getD o 0
    | .none => []
  | .none => ({ b with got := b.src.zip (s.readBytes b.srcSpace b.src) } : Beat).bytes

/-- The blocks of a command one after another, as `for i` of R290: block i's reads take slots from cycle r on, its writes, should memory
stay as it stands, follow the comparison, and the next block is read when they have performed, so that a stop in them finds no later block
begun (R291; DEDUCED, log entry 38). -/
def Plan.snapEach (p : Plan) (c : Cmd) (at_ : Nat) : List Nat → Nat → Nat → Nat → Plan
  | [], n, _, t => p.placeCount c n t
  | i :: l, n, r, _ =>
    let size := denseBytes (c.snapBox 0)
    let p := p.snapRead c at_ r 0 (65536 * i) (blockLen size i) (65536 * i)
    let t := (((p.s.compares { c with beats := p.beats }).find? fun q => q.1 == i).map (·.2)).getD r
    let data := (readsIn p.beats (65536 * i) (blockLen size i)).flatMap (p.s.peek p.blocks)
    let entry := (readsIn p.beats (entryTag i) 16).flatMap (p.s.peek p.blocks)
    let hash := (sha256 data).take 16
    if hash = entry then p.snapEach c at_ l n (t + 1) t
    else
      let from_ := p.beats.length
      let p := p.placeChange c i n t data hash
      p.snapEach c at_ l (n + 1) ((p.beats.drop from_).foldl (fun m b => max m b.performAt) t + 1) t

/-- The plan of a `wsnap` from its next block on, its slots from r on: the reads of the stored entries, then the blocks. -/
def Plan.snap (p : Plan) (c : Cmd) (t r : Nat) : Plan :=
  let left := (List.range (snapBlocks (c.snapBox 0))).drop c.n
  (left.foldl (fun p i => p.snapRead c t r 1 (16 * i) 16 (entryTag i)) p).snapEach c t left c.changed r 0

/-- The events that compare the blocks of a command. -/
def State.planCompares (s : State) (c : Cmd) : State :=
  (s.compares c).foldl (fun s p => s.planEv p.2 1 2 .snapBlockHashed { a := c.id, b := p.1 }) s

/-! ### The instruction and its event -/

/-- A `wsnap` as it issues: its boxes, with the apertures through which it sees them (R269). -/
def State.snapCmd (s : State) (handles bound : Word) (boxes : List (BitVec 256)) : Cmd :=
  { s.newCmd .snap s.cur.herd with route := handles, bound := bound, aux := boxes, views := boxes.map s.apertureOf }

/-- The schedule of a `wsnap` and the command with its pages translated (R289, R290); or the first fault of its walk, boxes that overlap
among them (R254). -/
def State.snapSchedule (s : State) (cmd : Cmd) : Walk × Except Refused (Cmd × Plan) :=
  let tlb := (s.herd cmd.walker).tlb
  let (w, r) := s.judgeWalk tlb (s.mapBoxes s.apertureOk cmd.ctx cmd.snapWants { tlb := tlb })
  match r with
  | .error f => (w, .error f)
  | .ok l =>
    if boxesMeet (cmd.aux.map (s.boxPlaces cmd.ctx)) then (w, .error { cls := 12, owner := cmd.ctx, write := false, va := 0 })
    else
      let s1 := s.modHerd cmd.walker fun h => { h with tlb := w.tlb }
      let (s1, r) := s1.walkReads cmd.ctx cmd.addr w.reads (s.tick + 67)
      let cmd := { cmd with pages := pagesOf l }
      (w, .ok (cmd, ({ s := s1, id := cmd.id } : Plan).snap cmd s.tick r))

/-- `wsnap` (R289) with the checks of R267. Its writes may not go through PACK, and through SCALEVIEW they must cover whole view blocks:
entries of the hash and index boxes never do (R274, R275). -/
def execWsnap (a b : BitVec 5) (s : State) : Out :=
  s.answer do
    let (x, bound) ← s.src2 a b
    let s := s.notePbnd [a, b]
    if x &&& 0xFFFF0000#32 ≠ 0 then raise 2 11
    let nib (k : Nat) : Nat := x.toNat / 16 ^ k % 16
    let src ← s.box (nib 0)
    let hash ← s.box (nib 1)
    let index ← s.box (nib 2)
    let data ← s.box (nib 3)
    if s.level ≠ 3 || !boxReads src || boxAcc hash ≠ 3 || !boxWrites index || !boxWrites data || !boxIsI32 hash
        || !boxIsI32 index then raise 9
    let xf (b : BitVec 256) (k : Nat) : Bool := (s.apertureOf b).any fun x => x.xf = k
    if [hash, index, data].any fun b => xf b 1 then raise 9
    if !([src, hash, index, data].all boxDense) then raise 12
    let nb := snapBlocks src
    if denseBytes hash < 16 * nb || denseBytes index < 4 * (nb + 1) || denseBytes data < 65536 * nb then raise 10
    if xf hash 3 || xf index 3 || (xf data 3 && (boxBase data % 64 ≠ 0 || denseBytes src % 64 ≠ 0)) then raise 10
    if bound ≠ 0 && s.interlocked then raise 6
    if s.walkerFull s.cur.herd then s.busy
    let cmd := s.snapCmd x bound [src, hash, index, data]
    let (w, r) := s.snapSchedule cmd
    let t ← s.issuePlan cmd 1 (w, r.map (·.2))
    match r with
    | .error _ => return t.noteIssued cmd.id
    | .ok (c, p) => return ((t.modCmd cmd.id fun k => { k with pages := c.pages }).planCompares { c with beats := p.beats }).noteIssued cmd.id

/-- The writes that a comparison calls for take the place of those that were reserved: a reserved beat to the same bytes keeps its
slots, any other is released. -/
def State.settleWrites (s : State) (id tag : Nat) (want : Plan → Plan) : State :=
  match s.cmd? id with
  | .none => s
  | .some c =>
    let p0 : Plan := { s := s, id := id, beats := c.beats }
    let wanted := ((want p0).beats.drop c.beats.length)
    let old := (c.beats.zipIdx).filter fun p => p.1.toDev && p.1.part == tag && !p.1.abandoned
    let same := old.length = wanted.length && (old.zip wanted).all fun p =>
      p.1.1.dst = p.2.dst && p.1.1.slots.all fun z => decide (s.tick < z.2)
    if same && !(tag = 0 && (old.any fun p => c.beats.any fun b =>
        b.toDev && !b.abandoned && b.part ≠ 0 && decide (p.1.performAt ≤ b.performAt))) then
      (old.zip wanted).foldl (fun s p => s.modBeat id p.1.2 fun b => { b with got := p.2.got }) s
    else
      let s := old.foldl (fun s p => s.abandonBeat id p.2) s
      match s.cmd? id with
      | .none => s
      | .some c =>
        let p := want { s := s, id := id, beats := c.beats }
        let s := p.s.modCmd id fun c => { c with beats := p.beats }
        (((p.beats.zipIdx).drop c.beats.length).foldl (fun s q => s.planBeat id q.2 q.1) s).repromise id

/-- A block's hash is complete and compared (R290). -/
def State.compareBlock (s : State) (id i : Nat) : State :=
  match s.cmd? id with
  | .none => s
  | .some c =>
    match (s.compares c).find? fun p => p.1 == i with
    | .none => s
    | .some (_, t) =>
      if c.n ≠ i then s
      else if s.tick < t then s.planEv t 1 2 .snapBlockHashed { a := id, b := i }
      else
        let size := denseBytes (c.snapBox 0)
        let reads := readsIn c.beats (65536 * i) (blockLen size i) ++ readsIn c.beats (entryTag i) 16
        if reads.any (·.abandoned) then s
        else
          let data := (readsIn c.beats (65536 * i) (blockLen size i)).flatMap Beat.bytes
          let entry := (readsIn c.beats (entryTag i) 16).flatMap Beat.bytes
          let hash := (sha256 data).take 16
          let diff := hash ≠ entry
          let s := s.settleWrites id (i + 1) fun p => if diff then p.placeChange c i c.changed s.tick data hash else p
          let n := if diff then c.changed + 1 else c.changed
          let s := s.modCmd id fun c => { c with n := i + 1, changed := n }
          if i + 1 < snapBlocks (c.snapBox 0) then
            match (s.compares { c with n := i + 1 }).head? with
            | .some (j, u) => s.planEv (max s.tick u) 1 2 .snapBlockHashed { a := id, b := j }
            | .none => s
          else s.settleWrites id 0 fun p => p.placeCount c n s.tick

/-- SNAP_BLOCK_HASHED (R290): block ev.b of command ev.a. -/
def execSnapBlockHashed (s : State) : Out := .next (s.compareBlock s.ev.a s.ev.b)

end Sys2Proof.Machine
end

