-- ==== Sys2Proof/Machine/Save.lean ====
section
/-! DEFINITION. Save.lean: how the engines of a context stop (R258, R291, R355, R396), the events CONTEXT_STOP and CONTEXT_RESTORE
(R404 to R407, R409, R414) with what the save and the restore move, the end of a context (R88), and the stop of a program or a
context at one cycle (R86, R396, R397). -/

namespace Sys2Proof.Machine

/-! ### Commands that stop (R258, R291, R355, R398) -/

/-- Some beats of a command are given up. -/
def State.abandonBeats (s : State) (id : Nat) (gone : Beat → Bool) : State :=
  match s.cmd? id with
  | .none => s
  | .some c => (c.beats.zipIdx).foldl (fun s p =>
      if p.1.performed || p.1.abandoned || !gone p.1 then s else s.abandonBeat id p.2) s

/-- The blocks of a `wsnap` that have begun: a read of their bytes has (R291). The stored entries are read ahead (R290). -/
def Cmd.begunBlocks (c : Cmd) (t : Nat) : Nat :=
  let size := denseBytes (c.snapBox 0)
  let begun (i : Nat) : Bool := (readsIn c.beats (65536 * i) (blockLen size i)).any fun b => c.begun b t
  c.n + ((List.range (snapBlocks (c.snapBox 0) - c.n)).takeWhile fun k => begun (c.n + k)).length

/-- Whether a beat of a `wsnap` belongs to one of its first n blocks, of all its `total` ones. -/
def Beat.inBlocks (n total : Nat) (b : Beat) : Bool :=
  if b.toDev then (if b.part = 0 then n = total else decide (b.part ≤ n))
  else if 2 ^ 44 ≤ b.part then decide ((b.part - 2 ^ 44) / 16 < n)
  else decide (b.part / 65536 < n)

/-- A command stops at its progress index: what has begun by the end of this cycle completes, the rest is abandoned and its
reservations are released. `wamo`, `apset` and the commands that another context's state waits for complete (R258, R398). -/
def State.stopCmd (s : State) (c : Cmd) : State :=
  match c.kind with
  | .wamo _ _ _ _ _ | .apset _ _ _ | .cxmk _ | .cxgive _ | .cxq _ | .cxsave _ _ | .cxload _ _ => s
  | .snap =>
    let n := c.begunBlocks s.tick
    (s.abandonBeats c.id fun b => !b.inBlocks n (snapBlocks (c.snapBox 0))).giveUpBlocks c.id
  | .send _ _ _ _ => ((s.freeSend c).abandonBeats c.id fun _ => true).modCmd c.id fun c => { c with outstanding := false }
  | _ => if c.walkFault.isSome then s else (s.abandonBeats c.id fun b => !c.begun b s.tick).giveUpBlocks c.id

/-- Whether flits of a send have still to depart. -/
def Cmd.unsent (c : Cmd) : Bool :=
  match c.kind with
  | .send _ _ _ _ => c.outstanding && decide (c.n < (c.beats.length + 2) / 3)
  | _ => false

/-- The send-lost trap of a send (R355, R357), at its core. -/
def State.sendLost (s : State) (c : Cmd) : State :=
  match c.kind with
  | .send p tag _ _ =>
    s.modCore c.herd c.core (Core.noteAsync { cls := 21, d0 := timedDetail c.departed tag p, ctx := c.ctx, owner := c.ctx })
  | _ => s

/-- The last cycle in which a stopped command still does something, as far as it is known: a block of a `wsnap` that has begun is compared
first, and then written (R291). -/
def State.busyUntil (s : State) (now : Nat) (c : Cmd) : Nat :=
  match c.kind with
  | .wamo _ _ _ _ _ | .apset _ _ _ => Nat.max now c.promise
  | .snap =>
    let size := denseBytes (c.snapBox 0)
    let reads (i : Nat) : List Beat := readsIn c.beats (65536 * i) (blockLen size i)
    let left := (s.compares c).filter fun p => !(reads p.1).isEmpty && (reads p.1).all fun b => !b.abandoned
    left.foldl (fun m p => Nat.max m p.2) (c.beats.foldl (fun m b => if b.abandoned then m else Nat.max m b.performAt) now)
  | .cxmk _ | .cxgive _ | .cxq _ | .cxsave _ _ | .cxload _ _ | .send _ _ _ _ => now
  | _ => c.beats.foldl (fun m b => if b.abandoned || b.performed then m else Nat.max m b.performAt) now

/-- Whether a command goes on living while its context is away: another context's state, or a fault of a walk, is behind it. -/
def Cmd.stays (c : Cmd) : Bool :=
  c.walkFault.isSome || match c.kind with
    | .cxmk _ | .cxgive _ | .cxq _ | .cxsave _ _ | .cxload _ _ => true
    | _ => false

/-! ### The end of a program or a context at one cycle (R86, R396, R397) -/

/-- The root's own unhandled trap ends the stream program of queue q at the end of its cycle (R86): its cores stop, its commands stop
as at a save, the queue returns to STATE 1 with FAIL. What committed syllables have still to write is written. -/
def State.endRootProgram (s : State) (q : Nat) : State :=
  let stopCore (k : Core) : Core :=
    match k.r.frame with
    | .some f =>
      if f.ctx == 0 && f.queue == q then
        { k with r := { k.r with frame := .none, xfer := .none, trap := .none }, susp := [], hold := .none, asyncs := [], waiting := .none }
      else k
    | .none => k
  let s : State := { s with herds := s.herds.map fun h : Herd => { h with cores := h.cores.map stopCore } }
  let s := (s.cmds.filter fun c => c.ctx == 0).foldl (fun s c =>
    (s.stopCmd c).modCmd c.id fun c => if c.stays then c else { c with outstanding := false }) s
  let s : State := { s with calls := s.calls.filter fun c : Call => c.ctx != 0 }
  (s.modCtx 0 fun x => { x with queues := x.queues.modify q fun k => { k with state := 1, fail := true } }).reschedule

/-- A window ends with no trap. -/
def State.dropWindows (s : State) (x : Nat) : State :=
  { s with herds := s.herds.map fun h : Herd => { h with windows := h.windows.filter fun w => w.ctx ≠ x } }

/-- An array whose commands stop after cycle t (R310, R325): a group that would land in t has not landed; a slot whose writer stops is
empty. -/
def Array.halt (t : Nat) (a : Array) : Array :=
  let stops (c : ArrCmd) : Bool := !c.halted && decide (t ≤ c.fin)
  let lost := a.cmds.filterMap fun c => if stops c then c.writesSlot else .none
  { a with
    cmds := a.cmds.map fun c => if stops c then { c with halted := true } else c
    ws := (a.ws.zipIdx).map fun p => if lost.contains p.2 then { p.1 with ng := 0, bytes := [] } else p.1 }

/-- Whether an entry of the agenda carries the tasks of a context on: waits, calls, starts and ends of programs. -/
def State.carriesOn (s : State) (n : Nat) (herds : List Nat) (a : Act) : Bool :=
  let mine (id : Nat) : Bool := match s.call? id with | .some k => k.ctx == n | .none => false
  match a with
  | .ev i g =>
    match i with
    | .waitExpiry | .joinRelease => herds.contains g.a
    | .childEntry | .outwardCopyApply | .callerResume => mine g.a
    | .streamProgramStart => g.a == n
    | _ => false
  | .programEnd x _ => x == n
  | _ => false

/-- Whether an entry of the agenda ends with the stop: what it does is captured with the core. -/
def dropsWith (herds : List Nat) (a : Act) : Bool :=
  match a with
  | .ev i g => match i with
    | .bundleIssue | .registerWriteLand => herds.contains g.a
    | _ => false
  | .tileRows h _ => herds.contains h
  | _ => false

/-- A command that a fatal fault stops is outstanding no longer; its record goes into the save area (R396, R397). -/
def Cmd.stopForGood (c : Cmd) : Cmd := if c.stays then c else { c with outstanding := false, stopped := c.outstanding || c.isOutward }

/-- What a stopped core had still to write, and the rest of what it had in flight, does not land (R396): it stands in its queue. -/
def State.silence (s : State) (herds : List Nat) : State := { s with agenda := s.agenda.filter fun d => !dropsWith herds d.act }

/-- The stop of R396 over the subtree of context x, after this cycle: cores with their trap frames, which go into the save areas, array
commands part-way, copies at their progress indexes, windows with no trap, flits that have not departed. No call goes on. -/
def State.stopDead (s : State) (x : Nat) : State :=
  (s.subtree x).foldl (fun s n =>
    let c := s.ctx n
    let herds := s.ownHerds n
    let s : State := { s with agenda := s.agenda.filter fun d => !s.carriesOn n herds d.act }
    if !c.holdsHerds then s.dropWindows n
    else
      let s := herds.foldl (fun s h => s.modHerd h fun y : Herd => { y with
        cores := y.cores.map fun k : Core => if k.r.frame.isSome || k.inHandler then k.stopDead s.tick k.nextSlot else k
        array := y.array.halt s.tick }) s
      let s := (s.silence herds).modCtx n fun c => { c with deadAt := .some s.tick }
      let s := (s.cmds.filter fun c => c.ctx == n).foldl (fun s c => (s.stopCmd c).modCmd c.id Cmd.stopForGood) s
      let s := s.dropWindows n
      let s := s.planFrames n (herds.flatMap fun h => ([0, 1, 2, 3].filter fun k => (s.regs h k).trap.isSome).map fun k => (h, k))
      if c.life = .draining && (c.stop = .some .slice || c.stop = .some .budget) then
        ((s.ctxs.filter fun k => k.life == .draining && k.stopUnit == c.stopUnit).map (·.num)).foldl State.endDrain s
      else s) s

/-! ### What a stop sets aside -/

/-- Whether an entry of the agenda waits for a context that is being stopped, and goes on with it after its restore. -/
def State.setsAside (s : State) (n : Nat) (herds : List Nat) (a : Act) : Bool :=
  s.carriesOn n herds a || match a with
  | .mread h _ _ _ _ _ | .leaseWrite h _ _ | .accZero h _ | .killMarks h _ _ _ _ => herds.contains h
  | .asyncDue _ _ b => b.ctx == n
  | .promiseTrap id => match s.cmd? id with | .some c => c.ctx == n | .none => false
  | _ => false

/-- A core as it stands from the cycle after the stop on (R407): what is pending in its in-flight queue, a clamp in effect as the
entry that it saved (R160). -/
def Core.captured (t : Nat) (k : Core) : Core :=
  let q := (k.inFlight t).map fun p => { p with due := p.due + t }
  { k with
    tile := .none, clampSaved := .none, drainedAt := .none, table := [], xbuf := .none
    r := { (k.r.unaskClamp.resumeLoop k.clampSaved) with pend := q } }

/-- Stage 0 of a stop, at the end of T_s: engines stop, what waits is set aside. T_s of a failed context is the cycle of its fault, after which
nothing of it has executed (R88, R94, R396). -/
def State.beginSave (s : State) (n : Nat) : State :=
  let x := s.ctx n
  let herds := s.ownHerds n
  let mine := s.cmds.filter fun c => c.ctx == n
  let s := (mine.filter Cmd.unsent).foldl (fun s c => if x.revoking then s else s.sendLost c) s
  let s := mine.foldl State.stopCmd s
  let last := x.deadAt.getD s.tick
  let t := s.tick + 1
  let now (d : Due) : Bool := decide (d.at_ ≤ t) && match d.act with | .mread h _ _ _ _ _ => herds.contains h | _ => false
  let s := (s.agenda.filter now).foldl (fun s d => match d.act with | .mread h c n q r k => s.sampleRead h c n q r k | _ => s) s
  let s := { s with agenda := s.agenda.filter fun d => !now d }
  let s := herds.foldl (fun s h => s.modHerd h fun y : Herd => { y with cores := y.cores.map (Core.captured (last + 1)) }) s
  let aside := s.agenda.filter fun d => s.setsAside n herds d.act
  let s := { s with agenda := s.agenda.filter fun d => !s.setsAside n herds d.act && !dropsWith herds d.act }
  let k : Kept := { ctx := n, vcyc := s.vcyc n - ((s.tick - last : Nat) : Int), tick := last, herds := [], cmds := [], calls := [], agenda := aside, places := x.herds }
  ({ s with kept := k :: s.kept.filter fun q => q.ctx ≠ n } : State).modCtx n fun c => { c with life := .saving }

/-! ### Writing the area (R409 to R413) -/

/-- A context with the charges of this cycle counted (R416). -/
def Ctx.counted (x : Ctx) : Ctx :=
  { x with ecnt := Nat.min (x.ecnt + x.charge) (2 ^ 48 - 1), eovf := x.eovf || decide (2 ^ 48 ≤ x.ecnt + x.charge) }

/-- The stretches of the whole area of a stopped context, by their offsets from SAVE. -/
def State.areaStretches (s : State) (k : Kept) : List Stretch :=
  let x := (s.ctx k.ctx).counted
  let z : AfterStop := { tick := k.tick + 1, vcyc := k.vcyc + 1 }
  let marks := markSection x k.calls
  let frames := (x.herds.zipIdx).flatMap fun p =>
    (frameStretches k z p.2 p.1).map fun q =>
      let base := 0x10000 + p.2 * 0x540000
      { off := base + q.off, len := q.len, cells := q.cells.shift base : Stretch }
  let end_ := 0x10000 + x.herds.length * 0x540000
  [{ off := 0, len := 0x10000, cells := headerMem x k.vcyc marks.length }] ++ frames
    ++ [{ off := end_, len := marks.length, cells := Mem.ofBytes end_ marks }]

/-- The area written in the space of the parent, or the refused access. -/
def State.writeArea (s : State) (p save : Nat) (l : List Stretch) : Except Refused State :=
  l.foldlM (fun (s : State) q => s.overlaySpace p (save + q.off) q.len (q.cells.slice q.off q.len)) s

/-- The beats that a save or a restore of some stretches moves: one a line. -/
def linesMoved (l : List Stretch) : Nat := (l.map fun q => (q.len + 63) / 64).sum

/-- The first 0x904 bytes of an area as stretches hold them: the header's fields. -/
def headerBytes (l : List Stretch) : List Byte :=
  (List.range 0x904).map fun i => Mem.read ((l.headD { off := 0, len := 0, cells := [] }).cells) i

/-- Whether writing some stretches meets a table line with an uncorrectable error (R454). -/
def State.areaBad (s : State) (p save : Nat) (l : List Stretch) : Bool := l.any fun q => s.spaceBad p (save + q.off) q.len .write

/-- The trap frame of core c of root herd h of context x, with its bank and its queue, in the places that R412 gives them in the save
area (R395, R396). A translation that refuses a place leaves it as it is (DESIGN CHOICE, log entry 45). -/
def State.saveFrame (s : State) (x h c : Nat) : State :=
  let y := s.ctx x
  match y.parent with
  | .none => s
  | .some p =>
    let base := y.save + 0x10000 + y.virtOf h * 0x540000 + 0x530000 + c * 0x3600
    let k := s.core h c
    ((coreSlots x { tick := s.tick + 1, vcyc := s.vcyc x + 1 }).filter fun q => q.off == 0x210 || q.off == 0x800 || q.off == 0x1000).foldl
      (fun s q => match s.overlaySpace p (base + q.off) q.len (Mem.ofBytes 0 ((q.get k).take q.len)) with
        | .ok t => t
        | .error _ => s) s

/-! ### The end of a context (R88) -/

/-- The physical herd that is its die's spare (R90). -/
def State.spareOf (s : State) (die : Nat) : Nat := if die = 0 then s.plat.cfg.spare0 else s.plat.cfg.spare1

/-- Whether some context that has not been saved stands on a herd. -/
def State.stoodOn (s : State) (h : Nat) : Bool := s.ctxs.any fun c => s.inPlace c.num && (s.ownHerds c.num).contains h

/-- The die of a root herd. -/
def State.dieOf (s : State) (h : Nat) : Nat := s.plat.physical.getD h 0 / 49

/-- Whether a root herd is the first of its die to be marked failed: it takes the spare (R441). -/
def State.firstFailed (s : State) (h : Nat) : Bool := (s.plat.failedHerds.find? fun k => s.dieOf k == s.dieOf h) == .some h

/-- Herds that every context standing on them has left, by a save or by its end, fall back on their dies' spares where they are marked
failed (R441); the spare has no retired bank. -/
def State.fallBack (s : State) (herds : List Nat) : State :=
  herds.foldl (fun s h =>
    let die := s.dieOf h
    if !s.firstFailed h || s.plat.spareUsed.getD die true || s.stoodOn h then s
    else ((s.modHerd h fun y => { y with retired := [] }).modPlat fun p => { p with
      failedHerds := p.failedHerds.filter fun k => k ≠ h, spareUsed := p.spareUsed.set die true
      physical := p.physical.set h (s.spareOf die) }).degrade evHerd) s

/-- A failed herd that no spare is left for: the spare of its die is taken, or another failed before it (R441). -/
def State.unusable (s : State) (h : Nat) : Bool :=
  s.plat.failedHerds.contains h && (s.plat.spareUsed.getD (s.dieOf h) true || !s.firstFailed h)

/-- A restored herd stands on a herd of the device: what belongs to the place stays there. -/
def Herd.onto (new old : Herd) : Herd :=
  { new with
    retired := old.retired, tlb := old.tlb, windows := old.windows, linkBeats := old.linkBeats, claims := old.claims, hmBad := [], lmBad := []
    storeBad := [] }

/-- A herd as a context receives it, and as its parent gets it back (R193, R418): memory and state zero; what belongs to the place
stays. -/
def State.freshHerd (s : State) (h : Nat) : State :=
  s.modHerd h fun y => ({ ({} : Herd) with store := y.store, storeImage := y.storeImage } : Herd).onto y

/-- A context and its descendants end: their resources are the parent's once more, and nothing of theirs goes on. What was kept of one
that stands saved stays with its area, under a number that no context has, for the child that loads the area (R420; log entry 30). -/
def State.endContext (s : State) (n : Nat) : State :=
  let l := s.subtree n
  let p := ((s.ctx n).parent).getD 0
  let herds := l.flatMap s.ownHerds
  let gone (d : Due) : Bool := dropsWith herds d.act || l.any fun x => s.setsAside x herds d.act || match d.act with
    | .ev i g => (i == .contextRestore || i == .budgetStop || i == .drainWatchdog || i == .sliceEnd || i == .deficitRenewal) && g.a == x
    | _ => false
  let released := (s.binds.filter fun b => l.contains b.2).map (·.1)
  let idle (k : Core) : Core := { k with r := {}, susp := [], hold := .none, tile := .none, asyncs := [], table := [], xbuf := .none
                                         drainedAt := .none, clampSaved := .none, waiting := .none }
  let used := herds.filter fun h => l.any fun x => (s.ctx x).herds.contains h && s.inPlace x
  let back := (l.filter fun x => !(s.ctx x).timeShared && s.present x).flatMap fun x => (s.ctx x).herds
  let saves := l.filterMap fun x => (s.ctx x).saveCmd.map fun id => (x, id)
  let s := used.foldl (fun s h => s.modHerd h fun y : Herd => { y with cores := y.cores.map idle }) s
  let all := l.flatMap fun x => (s.ctx x).herds
  let s := back.foldl State.freshHerd s
  let s := l.foldl State.dropWindows s
  let s := s.flushTlb l
  let unpair (e : Option (Nat × Nat)) : Option (Nat × Nat) := match e with | .some z => if l.contains z.1 then .none else e | .none => .none
  let s : State := { s with herds := s.herds.map fun h : Herd => { h with linkBeats := h.linkBeats.filter fun b => !l.contains b.ctx } }
  let cleared (q : Port) : Port := { q with
    pairs := q.pairs.map unpair
    pairsWas := q.pairsWas.map fun z => (z.1, z.2.map unpair)
    slots := q.slots.filter fun z => !l.contains z.2
    untimed := q.untimed.filter fun z => !l.contains z.2
    drops := q.drops.filter fun z => !l.contains z.1 }
  let archive (k : Kept) : Option Kept :=
    if !l.contains k.ctx then .some k else if k.herds.isEmpty then .none else .some { k with ctx := 256 + s.nextId + k.ctx }
  let s : State := { s with
    nextId := s.nextId + 256
    agenda := s.agenda.filter fun d => !gone d
    ports := s.ports.map cleared
    binds := s.binds.map fun b => if l.contains b.2 then (b.1, p) else b
    released := released ++ s.released.filter fun b => !released.contains b
    kept := s.kept.filterMap archive
    cmds := s.cmds.filter fun c => !l.contains c.ctx
    calls := s.calls.filter fun c => !l.contains c.ctx
    ctxs := s.ctxs.filter fun c => !l.contains c.num }
  let s := s.fallBack all
  let s := saves.foldl (fun s q => s.planEv (s.tick + 1) 3 engineOrd .cxsaveComplete { a := q.2, b := q.1 }) s
  s.modCtx p fun c => if l.contains c.member then { c with member := 0, chosen := false } else c

/-- A save or restore access that the parent's translation refuses ends the context; the fault is raised at its parent (R409). -/
def State.areaRefused (s : State) (n : Nat) (f : Refused) : State :=
  let c := s.ctx n
  let p := (c.parent).getD 0
  let y := s.firstTaker f.cls (s.chain (if f.owner = n then p else f.owner))
  let steps := c.depth - (s.ctx y).depth
  let t := f.trap
  let r := trapRecord true 0 { cls := f.cls, d0 := t.d0, d1 := t.d1 } n steps (s.regs c.lead 0).pc (s.vcyc n)
  ((s.endContext n).reflect y steps r).reschedule

/-! ### CONTEXT_STOP (R404 to R407, R409) -/

/-- Stage 1 of a stop: the frames are captured, the area and the profile are written; the context is away. -/
def State.finishSave (s : State) (n : Nat) : State :=
  match s.kept.find? fun k => k.ctx == n with
  | .none => s
  | .some k =>
    let x := s.ctx n
    let own := s.ownHerds n
    let herds := x.herds.map fun h => if own.contains h then s.herd h else {}
    let cmds := s.cmds.filter fun c => c.ctx == n && !c.stays
    let k := { k with herds := herds, cmds := cmds, calls := s.calls.filter fun c => c.ctx == n }
    let beats := if x.parent.isSome then linesMoved (s.areaStretches k) else 0
    let s := (s.charge n 11 beats).charge n 12 beats
    let l := s.areaStretches k
    let k := { k with header := headerBytes l }
    let idle (c : Core) : Core := { c with r := {}, susp := [], hold := .none, asyncs := [] }
    let s := own.foldl (fun s h => s.modHerd h fun y : Herd => { y with cores := y.cores.map idle }) s
    let s : State := { s with
      kept := k :: s.kept.filter fun q => q.ctx ≠ n
      cmds := s.cmds.filter fun c => !(c.ctx == n && !c.stays)
      calls := s.calls.filter fun c => c.ctx ≠ n }
    let s := (s.modCtx n fun c => { c with life := .away, stop := .none, grid := .none }).fallBack own
    match x.parent with
    | .none => s
    | .some p =>
      if s.areaBad p x.save l then s.fatal n 3 0
      else match s.writeArea p x.save l with
        | .error f => s.areaRefused n f
        | .ok t => t.writeProfile n

/-- The member whose unit has stopped is chosen no longer (R402, R424); so is, within the unit, a member that can run nothing: its residency has
ended with the unit's, and the scheduler chooses anew in the cycle in which one becomes runnable. -/
def State.unchoose (s : State) (u : Nat) (own : Bool) : State :=
  if own then s.modCtx u fun c => { c with chosen := false }
  else
    let s := (s.subtree u).foldl (fun s n => if s.memberIdle n then s.modCtx n fun c => { c with chosen := false } else s) s
    let x := s.ctx u
    match x.parent with
    | .some p => if x.timeShared && (s.ctx p).member = u then s.modCtx p fun c => { c with chosen := false } else s
    | .none => s

/-- CONTEXT_STOP (R406): the unit of context ev.a; at T_s with ev.b = 0, at the end of the save with ev.b = 1, when
what has begun is complete. The scheduler makes its
next choice at T_s (R424). -/
def execContextStop (s : State) : Out :=
  let u := s.ev.a
  .next (if s.ev.b = 0 then
      let l := (s.ctxs.filter fun k => k.life == .draining && k.stopUnit == u).map (·.num)
      if l.isEmpty then s
      else
        let own := l.any fun n => (s.ctx n).stopOwn
        let herds := (l.flatMap s.ownHerds).length
        let marks := (l.map fun n => (markSection (s.ctx n) (s.calls.filter fun c => c.ctx == n)).length).sum
        let s := l.foldl State.beginSave s
        let (f, s) := s.fresh
        let last := (s.cmds.filter fun c => l.contains c.ctx).foldl s.busyUntil s.tick
        let s := l.foldl (fun s n => s.takeArea n (s.areaLines n ((markSection (s.ctx n) (s.calls.filter fun c => c.ctx == n)).length)) .write) s
        let t := s.tick + s.moveCycles l herds marks (Nat.max 1 (s.runsEnd - s.tick)) (Config.saveCycles f)
        ((s.planEv (Nat.max (last + 1) t) 5 5 .contextStop { a := u, b := 1 }).unchoose u own).reschedule
    else
      let l := (s.ctxs.filter fun k => k.life == .saving && k.stopUnit == u).map (·.num)
      let last := (s.cmds.filter fun c => l.contains c.ctx).foldl s.busyUntil 0
      if s.tick ≤ last then s.planEv (last + 1) 5 5 .contextStop s.ev else (l.foldl State.finishSave s).reschedule)

/-! ### CONTEXT_RESTORE (R414) -/

/-- Cycles moved by d. -/
def moved (d : Int) (t : Nat) : Nat := ((t : Int) + d).toNat

def Regs.later (d : Int) (r : Regs) : Regs :=
  { r with
    pend := r.pend.map fun p => { p with due := moved d p.due }
    tabAt := moved d r.tabAt
    carry := { r.carry with at_ := moved d r.carry.at_ }
    trap := r.trap.map fun f => { f with carry := { f.carry with at_ := moved d f.carry.at_ } } }

def Core.later (d : Int) (k : Core) : Core :=
  { k with
    r := k.r.later d, susp := k.susp.map (Regs.later d), issueAt := moved d k.issueAt
    phaseWas := (moved d k.phaseWas.1, k.phaseWas.2), vFree := moved d k.vFree
    divA := moved d k.divA, divB := moved d k.divB, xbusy := moved d k.xbusy, lastDrain := .none, lastIssue := .none }

def Herd.later (d : Int) (h : Herd) : Herd :=
  { h with
    cores := h.cores.map (Core.later d)
    array := { h.array with cmds := h.array.cmds.map fun c => { c with at_ := moved d c.at_, fin := moved d c.fin } } }

def Call.later (d : Int) (k : Call) : Call :=
  { k with entry := moved d k.entry, retAt := moved d k.retAt, applyAt := moved d k.applyAt, doneAt := moved d k.doneAt }

/-- A beat translated anew; none where the translation refuses it. -/
def State.rebase (s : State) (x : Nat) (b : Beat) (w : Walk) : Walk × Except Refused Beat :=
  match b.va with
  | .none => (w, .ok b)
  | .some va =>
    let down := b.srcSpace = .dev
    match s.translate x va (if down then .read else .write) w with
    | (w, .error f) => (w, .error f)
    | (w, .ok q) => (w, .ok (if down then { b with src := addrRun q.pa b.src.length } else { b with dst := addrRun q.pa b.dst.length }))

/-- A beat as it stood before it was first placed. -/
def Beat.unplaced (b : Beat) : Beat :=
  { b with slots := [], sampleAt := 0, performAt := 0, got := [], sampled := false, performed := false, abandoned := false, shared := false
           written := [] }

/-- The parts of a block that the expanded beats of some list deliver. -/
def blockParts (k : Nat) (l : List Beat) : List BlockPart :=
  (l.filter fun b => b.block == .some k && b.expanded).map fun b =>
    { block := k, off := b.src.headD 0, space := b.dstSpace, addr := b.dst.headD 0, len := b.dst.length, part := b.part
      mask := b.mask, key := b.num }

/-- The earliest perform of a beat of a command after those that it must not pass (R263, R369). -/
def Plan.inOrder (p : Plan) (c : Cmd) (b : Beat) : Nat :=
  match c.kind with
  | .scatter | .callIn _ => p.after b
  | _ => p.afterParts b

/-- The remaining beats of a command placed again from cycle `at_` on: those that move, with what they share (R262); then what is left of
each block that it expands, from what the moves bring, or read anew. -/
def Plan.resume (p : Plan) (c : Cmd) (at_ ready : Nat) (l : List Beat) : Plan :=
  let p := ((l.filter fun b => !b.expanded).map Beat.unplaced).foldl (fun p b => p.placeNext at_ ready (p.inOrder c b) b) p
  ((l.filterMap fun b => if b.expanded then b.block else Option.none).eraseDups).foldl (fun p k =>
    let moves := p.beats.filter fun b => b.block == .some k && !b.expanded
    if moves.isEmpty then
      let q := c.packed.getD k { index := 0, point := 0, space := .dev, addr := 0 }
      p.expandAt at_ ready q.point q.index q.space q.addr [] (blockParts k l)
    else
      let t := moves.foldl (fun m b => max m b.performAt) 0 + 72
      let p := { p with blocks := p.blocks.modify k fun q => { q with deliverAt := t, delivered := false } }
      (l.filter fun b => b.block == .some k && b.expanded).foldl (fun p b =>
        p.place at_ ready (p.afterParts b) .none { b.unplaced with performAt := t }) p) p

/-- The remaining beats of a command placed again from cycle c on (R258, R291): what it becomes, and its new promise. -/
def State.resumeCmd (s : State) (c : Cmd) (at_ : Nat) : State × Cmd :=
  let left := c.beats.filter fun b => !b.performed && b.abandoned
  match c.kind with
  | .snap =>
    if !c.outstanding || c.n = snapBlocks (c.snapBox 0) then (s, c)
    else
      let tlb := (s.herd c.walker).tlb
      let (w, r) := s.judgeWalk tlb (s.mapBoxes (fun _ _ _ => true) c.ctx c.snapWants { tlb := tlb })
      let s := s.modHerd c.walker fun h => { h with tlb := w.tlb }
      let (s, ready) := s.walkReads c.ctx c.addr w.reads (at_ + 67)
      match r with
      | .error f => (s, { c with walkFault := .some (f.cls, f.owner, f.write, f.va), promise := Nat.max c.promise ready })
      | .ok l =>
        let c := { c with pages := pagesOf l }
        let p := ({ s := s, id := c.id } : Plan).snap c at_ ready
        (p.s, { c with beats := p.beats, packed := p.blocks, promise := p.promise c.promise })
  | _ =>
    if left.isEmpty || (!c.outstanding && !c.isOutward) then (s, c)
    else
      let tlb := (s.herd c.walker).tlb
      let (w, r) := s.judgeWalk tlb (left.foldl (fun (acc : Walk × Except Refused (List Beat)) b =>
        match acc with
        | (w, .error f) => (w, .error f)
        | (w, .ok l) => match s.rebase c.ctx b w with
          | (w, .error f) => (w, .error f)
          | (w, .ok b) => (w, .ok (l ++ [b]))) (({ tlb := tlb } : Walk), .ok []))
      let s := s.modHerd c.walker fun h => { h with tlb := w.tlb }
      let (s, ready) := s.walkReads c.ctx c.addr w.reads (at_ + 67)
      match r with
      | .error f => (s, { c with walkFault := .some (f.cls, f.owner, f.write, f.va), promise := Nat.max c.promise ready })
      | .ok l =>
        let p : Plan := { s := s, id := c.id, beats := c.beats.filter (·.performed), blocks := c.packed, mcast := c.kind = .mcast }
        let p := p.resume c at_ ready l
        (p.s, { c with beats := p.beats, packed := p.blocks, promise := p.promise c.promise })

/-- The events of a resumed command: those of its beats that have not performed. -/
def State.planResumed (s : State) (c : Cmd) : State :=
  let s := (c.beats.zipIdx).foldl (fun s p => if p.1.performed || p.1.abandoned then s else s.planBeat c.id p.2 p.1) s
  let s := (c.packed.zipIdx).foldl (fun s p => if p.1.delivered then s else s.planBlock c.id p.2 p.1) s
  let s := match c.kind with | .snap => s.planCompares c | _ => s
  if c.walkFault.isSome then s.planEv (Nat.max s.tick c.promise) 0 0 .walkFaultPending { a := c.id } else s

/-- A command of a restored context with its cycles moved by d; its beats that performed stay as they are. -/
def Cmd.later (d : Int) (c : Cmd) : Cmd :=
  { c with issue := moved d c.issue, promise := moved d c.promise, first := moved d c.first }

/-- The area of a context as its restore reads it (R409): header, a frame for each herd, the mark section. -/
structure Area where
  header : Mem := []
  frames : List Mem := []
  marks : List Byte := []
  deriving DecidableEq

/-- The bytes of a mark section that a header tells. -/
def markSize (header : Mem) : Nat := leNat (header.bytesOf 0x0C 4)

/-- The beats that read an area: one a line (R415). -/
def Area.beats (a : Area) : Nat := areaBeats a.frames.length a.marks.length

/-- The herds of whose frames a header tells. -/
def frameCount (header : Mem) : Nat := leNat (header.bytesOf 6 2)

/-- The area of a context read, or the refused access: a frame for each herd that it held when it was saved (R409, R410). -/
def State.readArea (s : State) (n : Nat) : Except Refused Area :=
  let x := s.ctx n
  match x.parent with
  | .none => .ok {}
  | .some p => do
    let h ← s.sliceSpace p x.save 0x10000
    let frames ← (List.range (Nat.min x.herds.length (frameCount h))).mapM fun v => s.sliceSpace p (x.save + 0x10000 + v * 0x540000) 0x540000
    let marks ← s.readSpace p (x.save + 0x10000 + frameCount h * 0x540000) (markSize h)
    return { header := h, frames := frames, marks := marks }

/-- Whether a restore of a context meets a line with an uncorrectable error, among those of its area and of the tables (R454). -/
def State.areaLost (s : State) (n : Nat) (a : Area) : Bool :=
  let x := s.ctx n
  match x.parent with
  | .none => false
  | .some p => s.spaceBad p x.save (0x10000 + a.frames.length * 0x540000 + a.marks.length) .read

/-- The header fields of a context as a restore takes them (R414): a field that still stands as the save wrote it changes nothing. -/
def Ctx.takeHeader (x : Ctx) (written : List Byte) (area : Mem) : Ctx :=
  headerSlots.foldl (fun x q =>
    let now := area.bytesOf q.off q.len
    if now = (written.drop q.off).take q.len then x else q.set now x) x

/-- The herds that a context is restored to: what was kept of them, with what the area says; zero-filled where there is neither. -/
def State.restoredHerds (s : State) (n : Nat) (k : Option Kept) (frames : List Mem) : List Herd :=
  let x := s.ctx n
  (x.herds.zipIdx).map fun p =>
    match k with
    | .none => {}
    | .some k =>
      let z : AfterStop := { tick := k.tick + 1, vcyc := k.vcyc + 1 }
      let h := k.herds.getD p.2 {}
      match frames[p.2]? with
      | .none => h
      | .some area => decodeHerd n z area h

/-- The bundles and landings of a restored core. -/
def State.planCore (s : State) (h c f : Nat) : State :=
  let k := s.core h c
  let s := s.planLandings h c
  if !(k.r.frame.isSome || k.inHandler) || k.held && k.hold ≠ .wait then s
  else if k.hold = .wait then (s.planEv (Nat.max f k.issueAt) 0 0 .waitExpiry { a := h, b := c }).planIssue h c (Nat.max f k.issueAt)
  else s.planIssue h c (Nat.max f k.issueAt)

/-- An entry set aside, its cycle moved. -/
def State.replan (s : State) (d : Int) (f : Nat) (e : Due) : State :=
  match e.act with
  | .ev .waitExpiry _ => s
  | a => s.plan (Nat.max f (moved d e.at_)) e.phase e.ord a

/-- The context becomes resident: at its first bundle, or when a program that starts on it has its first bundle (R63, R402). -/
def State.enterResidency (s : State) (n : Nat) : State :=
  let x := s.ctx n
  let starting := s.agenda.any fun d => match d.act with | .ev .streamProgramStart g => g.a == n | _ => false
  if x.running.isNone && starting then s
  else if x.running.isNone && x.ownRunnable && x.chosen && x.member = 0 then s.startQueue n
  else (s.beginResidency n).reschedule

/-- The cores of a context that R395 stopped resume, their first bundles in cycle t (R394, R419). -/
def State.resumeStopped (s : State) (n t : Nat) : State :=
  (s.ownHerds n).foldl (fun s h => [0, 1, 2, 3].foldl (fun s c =>
    if (s.core h c).hold = .reflected then s.returnFromTrap h c t else s) s) s

/-- The code of a context's running program stands in the stores of its herds (R28, R100, R414). -/
def State.refill (s : State) (n : Nat) : State :=
  match (s.ctx n).running with
  | .none => s
  | .some q => match s.image? ((s.ctx n).queue q).image with
    | .some m => (s.ownHerds n).foldl (fun s h => s.loadStore h m) s
    | .none => s

/-- The bytes of own memory that the masks of an applied sibling have reached (R375, R376, R413). -/
def State.joinMarks (s : State) (k : Call) : List (Space × Nat) :=
  (k.args.filter fun a => boxWrites a.childBox).flatMap fun a =>
    let words := k.markedBytes a.childBox
    let reached := ((copyRuns true a.ownBox a.childBox a.geo {}).flatMap fun r => (addrRun r.src r.len).zip (addrRun r.dst r.len)).filter
      fun p => words.contains p.1
    if k.level = 2 then reached.filterMap fun p => ((s.translate k.ctx p.2 .write { tlb := [] }).2.toOption).map fun q => (Space.dev, q.pa)
    else reached.map fun p => (Space.hm k.herd, p.2)

/-- The join marks of an open group recomputed from its applied siblings (R413). Those that a sibling whose copies are under way, or an
own box seen through an aperture, has set stay beside them. -/
def Regs.remark (marks : Call → List (Space × Nat)) (calls : List Call) (r : Regs) : Regs :=
  let mine := calls.filter fun k => r.group.contains k.id
  let new := ((mine.filter fun k => k.state == .applied).flatMap marks).eraseDups
  let keep := mine.any fun k => k.state == .applying || k.args.any fun a => boxAv a.ownBox
  { r with marks := if keep then new ++ r.marks.filter fun m => !new.contains m else new }

/-- What a halted command has still to do, its stop having come in cycle t: the writes of the rows and groups from its progress index on, its
completion, and the samples that it had not made (R310, R325). -/
def ArrCmd.left (h t : Nat) (c : ArrCmd) : List Due :=
  (c.events h).filter fun d => match d.act with
    | .arraySample _ _ _ => decide (t < d.at_)
    | .ev i g => match i with
      | .arrayGroupWrite | .spillRowPerform | .encodeGroupPerform => decide (c.progress ≤ g.c)
      | _ => decide (t ≤ d.at_)
    | _ => false

/-- How many cycles before the first bundle of a restored context the first write that its halted commands have left is due: the restore delays
that bundle by them (R310). -/
def Array.lead (h t : Nat) (a : Array) : Nat :=
  (a.cmds.filter (·.halted)).foldl (fun m c => (c.left h t).foldl (fun m d => Nat.max m (t + 1 - d.at_)) m) 0

/-- What a halted command had read before its stop, and no area holds, is read again (R310, R325): of the events before cycle f, the
samples. A command with something sampled needs none (DEDUCED, log entry 30). -/
def State.resample (s : State) (h f : Nat) (c : ArrCmd) : State :=
  if !c.data.isEmpty || !c.recs.isEmpty then s
  else (c.events h).foldl (fun s d => match d.act with
    | .arraySample _ id n => if d.at_ < f && n ≠ 1 then s.sampleArray h id n else s
    | _ => s) (s.modArr h c.id fun c => { c with progress := if c.writesSlot.isSome then 0 else c.progress })

/-- The halted commands of an array go on, the first bundle of the context issuing in cycle f: what they had still to do, they do at the vcyc
at which they would have (R310). -/
def State.resumeArray (s : State) (h f : Nat) : State :=
  let halted := (s.herd h).array.cmds.filter (·.halted)
  let s := s.modArray h fun a => { a with cmds := a.cmds.map fun c => { c with halted := false } }
  halted.foldl (fun s c =>
    let agent : Nat → Agent := match c.op with | .mrun _ _ _ => .arrayA | _ => .arrayB
    let left := c.left h (f - 1)
    let s := (s.claimArray h (agent c.id) (c.touches.filter fun t => left.any fun d => d.at_ == t.at_)).resample h f c
    { s with agenda := left.foldl (fun l d => insertDue d l) s.agenda }) s

/-- A context whose state was kept is restored from its area (R414). -/
def State.restoreFrom (s : State) (n : Nat) (k : Kept) (a : Area) : State :=
  let root := (s.ctx n).parent.isNone
  let v : Int := if root then k.vcyc else (BitVec.ofNat 64 (leNat (a.header.bytesOf 0x10 8))).toInt
  let remark := !root && !k.fromArea && a.marks ≠ markSection (s.ctx n) k.calls
  let s := if root then s else s.modCtx n fun x => x.takeHeader k.header a.header
  let own := s.ownHerds n
  let news := (s.restoredHerds n (.some k) a.frames).zip (s.ctx n).herds
  let s := ((a.frames.zip k.herds).zip (s.ctx n).herds).foldl (fun s p =>
    s.modHerd p.2 fun h => { h with windows := k.readWindows p.1.2 p.1.1 h.windows }) s
  let k := if k.fromArea then k else k.readBack (s.ctx n) a.frames a.marks
  let s := s.flushTlb (s.subtree n)
  -- the remaining beats, from this cycle on
  let d0 : Int := (s.tick : Int) - (k.tick + 1)
  let (s, cmds) := k.cmds.foldl (fun (acc : State × List Cmd) c =>
    let (s, c) := acc.1.resumeCmd (c.later d0) acc.1.tick
    ({ s with cmds := s.cmds ++ [c] }, acc.2 ++ [c])) (s, [])
  let late := (k.cmds.zip cmds).foldl (fun m p => Nat.max m (p.2.promise - moved d0 p.1.promise)) 0
  let late := news.foldl (fun m p => Nat.max m (p.1.array.lead p.2 k.tick)) late
  let x := s.ctx n
  let f := if x.onGrid then s.gridAt (s.tick + late) else s.tick + late
  let d : Int := (f : Int) - (k.tick + 1)
  let s := (k.cmds.zip cmds).foldl (fun s p => s.modCmd p.1.id fun c =>
    { c with promise := Nat.max c.promise (moved d p.1.promise), first := moved d p.1.first, issue := moved d p.1.issue }) s
  let s := news.foldl (fun s p => if own.contains p.2 then s.modHerd p.2 fun h => (p.1.later d).onto h else s) s
  let s : State := { s with
    calls := s.calls ++ k.calls.map (Call.later d)
    kept := s.kept.filter fun q => q.ctx ≠ n }
  let s := if remark then own.foldl (fun s h => s.modHerd h fun y : Herd => { y with cores := y.cores.map fun c : Core =>
      { c with r := c.r.remark s.joinMarks s.calls, susp := c.susp.map (Regs.remark s.joinMarks s.calls) } }) s else s
  let s := own.foldl (fun s h => s.resumeArray h f) (s.refill n)
  let s := s.modCtx n fun c => { c with deadAt := .none, offset := ((s.gcyc + (f - s.tick) : Nat) : Int) - (v + 1), vresume := .some (v + 1) }
  let s := own.foldl (fun s h => [0, 1, 2, 3].foldl (fun s c => (s.modCore h c Core.resumed).planCore h c f) s) s
  let s := (s.cmds.filter fun c => cmds.any fun q => q.id = c.id).foldl State.planResumed s
  let s := k.agenda.foldl (fun s e => s.replan d f e) s
  let s := own.foldl (fun s h => [0, 1, 2, 3].foldl (fun s c => if (s.core h c).hold = .stopped then s.returnFromTrap h c f else s) s) s
  let s := (if x.runNext then s.resumeStopped n f else s).modCtx n fun c => { c with runNext := false }
  if f = s.tick then s.enterResidency n else s.planEv f 0 2 .contextRestore { a := n, b := 1 }

/-- CONTEXT_RESTORE (R414): context ev.a is restored in this cycle; with ev.b = 1 its first bundles issue in it. -/
def execContextRestore (s : State) : Out :=
  let n := s.ev.a
  let x := s.ctx n
  .next (if x.life ≠ .restoring || x.failed then s
    else if s.ev.b = 1 then
      ((if x.runNext then s.resumeStopped n s.tick else s).modCtx n fun c => { c with runNext := false }).enterResidency n
    else
      match s.kept.find? fun k => k.ctx == n with
      | .none =>
        let s := s.modCtx n fun c => { c with runNext := false }
        ((s.ownHerds n).foldl State.freshHerd s).enterResidency n
      | .some k =>
        match s.readArea n with
        | .error f => s.areaRefused n f
        | .ok a =>
          let s := if x.parent.isSome then (s.charge n 11 a.beats).charge n 12 a.beats else s
          if s.areaLost n a then (s.modCtx n fun c => { c with life := .away }).fatal n 3 0
          else s.restoreFrom n k a)

end Sys2Proof.Machine
end

