-- ==== Sys2Proof/Machine/Count.lean ====
section
/-! DEFINITION. Count.lean: the group cycle count when it jumps (R344 to R346): what waits for a group cycle waits for it by the new
count, and what a group-aligned queue does stays on the grid of R356. -/

namespace Sys2Proof.Machine

/-- The cycle of the count after which a scheduled step takes effect (R345, R346). -/
def stepAfter (a : Nat × Int) : Nat := if 0 < a.2 then a.1 - 1 else a.1

/-- Departures, window closes and a scheduled step by the count (R350, R354, R362). A step whose cycle the count has passed takes no
effect. -/
def State.replanTimed (s : State) : State :=
  let s := match s.adjust with
    | .some a => s.planEv (s.tick + (stepAfter a - s.gcyc)) 5 99 .gcycStep {}
    | .none => s
  let s := s.cmds.foldl (fun s c => match c.kind with
    | .send _ _ _ _ =>
      if c.outstanding then
        (List.range ((c.beats.length + 2) / 3)).foldl (fun s f =>
          if c.n ≤ f then s.planEv (s.tick + Nat.max 1 (c.t0 + 5 * f - s.gcyc)) 2 11 .timedFlitDepart { a := c.id, b := f } else s) s
      else s
    | _ => s) s
  (s.herds.zipIdx).foldl (fun s p => p.1.windows.foldl (fun s w => s.planClose p.2 w) s) s

/-- The drain of a unit on the grid, of which B is the bound: at its grid cycle minus B, or, when the count has passed that, for the next
grid cycle (R356). -/
def State.regridDrain (s : State) (d : Due) : State :=
  match d.act with
  | .ev .gridDrainStart g =>
    let b := g.word.toNat
    let far := s.gcyc + 1 + b ≤ g.b
    let t := if far then s.tick + (g.b - s.gcyc) else s.gridAt (s.tick + 1 + b)
    let at_ := s.gcyc + (t - s.tick)
    let s : State := { s with ctxs := s.ctxs.map fun k : Ctx => if k.grid = .some g.b && k.life ≠ .draining then { k with grid := .some at_ } else k }
    s.planEv (t - b) d.phase d.ord .gridDrainStart { g with b := at_ }
  | _ => s

/-- The start of a program of a group-aligned queue with which residency begins stays on the grid (R356, R403). -/
def State.regridStart (s : State) (d : Due) : State :=
  match d.act with
  | .ev .streamProgramStart g =>
    let lead := if g.c = 0 then (g.words.headD 1).toNat else 0
    s.planEv (s.gridAt (s.tick + 1 + lead) - lead) d.phase d.ord .streamProgramStart g
  | _ => s

/-- What is planned of a restored context whose first bundles wait for cycle f moves with them to a grid cycle of the new count (R356):
no promise comes before its command's last beat. -/
def State.regridRestore (s : State) (n f : Nat) : State :=
  let tight := s.cmds.any fun c => c.ctx == n && c.outstanding
  let t := s.gridAt (if tight then f else s.tick + 1)
  let d : Int := (t : Int) - f
  let own := s.ownHerds n
  let aside := s.agenda.filter fun e => s.setsAside n own e.act
  let mine (e : Due) : Bool := s.setsAside n own e.act || dropsWith own e.act
  let s : State := { s with
    agenda := s.agenda.filter fun e => !mine e && e.act ≠ .ev .contextRestore { a := n, b := 1 }
    cmds := s.cmds.map fun c => if c.ctx = n then c.later d else c
    calls := s.calls.map fun c => if c.ctx = n then c.later d else c }
  let s := own.foldl (fun s h => s.modHerd h (Herd.later d)) s
  let s := own.foldl (fun s h => [0, 1, 2, 3].foldl (fun s c => s.planCore h c t) s) s
  let s := aside.foldl (fun s e => s.replan d t e) s
  s.planEv t 0 2 .contextRestore { a := n, b := 1 }

/-- Whether a start of a program waits for the grid, its context not resident yet. -/
def State.startsOnGrid (s : State) (a : Act) : Bool :=
  match a with
  | .ev .streamProgramStart g => (s.ctx g.a).life == .restoring && ((s.ctx g.a).queue g.b).aligned
  | _ => false

/-- What waits for the grid of R356 waits for it by the new count. -/
def State.replanGrid (s : State) : State :=
  let isDrain (a : Act) : Bool := match a with | .ev .gridDrainStart _ => true | _ => false
  let drains := s.agenda.filter fun d => isDrain d.act
  let starts := s.agenda.filter fun d => s.startsOnGrid d.act
  let restores := s.agenda.filterMap fun d => match d.act with
    | .ev .contextRestore g => if g.b = 1 && (s.ctx g.a).life == .restoring && (s.ctx g.a).onGrid && s.tick < d.at_ then .some (g.a, d.at_) else .none
    | _ => .none
  let s : State := { s with agenda := s.agenda.filter fun d => !isDrain d.act && !s.startsOnGrid d.act }
  let s := drains.foldl State.regridDrain s
  let s := starts.foldl State.regridStart s
  restores.foldl (fun s r => s.regridRestore r.1 r.2) s

/-- What is planned by the count, planned anew after the count has jumped. -/
def State.replanCounts (s : State) : State := ((List.range 24).foldl State.planBeacon s).replanTimed.replanGrid

/-- The count jumps by n, and every offset with it, so that vcyc goes on (R95, R344, R346). -/
def State.jump (s : State) (n : Int) : State :=
  let s : State := { s with
    gcyc := ((s.gcyc : Int) + n).toNat
    ctxs := s.ctxs.map fun k : Ctx => { k with offset := k.offset + n } }
  s.replanCounts

/-- BEACON_RECEIVE (R343, R344): on port ev.a, with the peer's count ev.word at departure; ev.b is how many sixteenths of a cycle
after the start of its cycle it arrived. It arrived ev.c clock cycles ago, in a hold, in which the count read one less than now (R345). -/
def execBeaconReceive (s : State) : Out :=
  let p := s.ev.a
  let q := s.port p
  let there : Int := (s.ev.word.toNat : Int) + q.lat
  .next (if !q.up then s
    else if !s.gcycSet && s.plat.cfg.group ≠ 0 && s.plat.cfg.refport = p then
      let s := (s.jump (there + s.ev.c - s.gcyc)).modPort p fun q => { q with offValid := true, off16 := 0 }
      { s with gcycSet := true }
    else s.modPort p fun q => { q with offValid := true, off16 := 16 * (there - (s.gcyc - if s.ev.c = 0 then 0 else 1)) - s.ev.b })

/-- GCYC_STEP (R345, R346): the scheduled step takes effect at the end of the cycle that reads T − 1 (positive) or T (negative). -/
def execGcycStep (s : State) : Out :=
  .next (match s.adjust with
    | .none => s
    | .some (t, n) =>
      let at_ := stepAfter (t, n)
      if s.gcyc < at_ then s.planEv (s.tick + (at_ - s.gcyc)) 5 99 .gcycStep {}
      else
        let s := { s with adjust := .none }
        if at_ < s.gcyc then s
        else if 0 < n then s.jump n
        else ({ s with held := s.held + n.natAbs } : State).hastenBeats n.natAbs)

end Sys2Proof.Machine
end

