-- ==== Sys2Proof/Machine/Mailbox.lean ====
section
/-! DEFINITION. Mailbox.lean: the mailbox engine (R51 to R61, R331): the requests of the host sources in their order of arrival, their
checks, their places in the device-scope order, and the kick page. -/

namespace Sys2Proof.Machine

/-! ### Requests (R53, R54) -/

/-- A malformed request (R53, R54). -/
def MailReq.malformed (q : MailReq) : Bool :=
  !(q.op == 1 || q.op == 2) || !(q.space == 0 || q.space == 1) || q.len == 0 || decide (192 < q.len.toNat)
    || (if q.space = 0 then decide (2 ^ 48 ≤ q.addr.toNat) else decide (4096 ≤ q.addr.toNat) || q.len != 4 || q.addr.toNat % 4 != 0)

/-- The response of R55. -/
def MailReq.response (q : MailReq) (status : Nat) (data : List Byte) : List Byte :=
  let op : Byte := if q.op = 1 then 0x81 else if q.op = 2 then 0x82 else 0x80
  [op, BitVec.ofNat 8 status] ++ leBytes 2 data.length ++ leBytes 4 q.tag.toNat ++ List.replicate 8 0 ++ data

/-- The data of a write: as many bytes as LEN says. -/
def MailReq.payload (q : MailReq) : List Byte := (q.data ++ List.replicate q.len.toNat 0).take q.len.toNat

/-- The event that carries a request out. -/
def MailReq.event (q : MailReq) : Instr :=
  if q.op ≠ 1 then .mailboxRead
  else if q.space ≠ 1 then .mailboxWrite
  else if q.addr = 0 then .kick
  else if q.addr = 8 then .kcoalWrite
  else .kickPageRegisterWrite

/-- The context to whose source a request belongs, or why there is none (R52, R86, R88, R430, R436). -/
def State.mailCtx (s : State) (src : Source) : Option Nat :=
  if s.plat.tripped || s.plat.rootFailed || !s.plat.configured || s.released.contains src then .none
  else match s.binds.find? fun b => b.1 == src with
    | .some b => if (s.ctx? b.2).isSome then .some b.2 else .none
    | .none => .none

/-! ### Order (R56, R57, R331) -/

/-- Whether an event carries a mailbox request out. -/
def isMailEvent (i : Instr) : Bool :=
  i == .mailboxWrite || i == .mailboxRead || i == .kick || i == .kcoalWrite || i == .kickPageRegisterWrite

/-- The cycles of the requests in progress, with their sources. -/
def State.mailInProgress (s : State) : List (Source × Nat) :=
  s.agenda.filterMap fun d => match d.act with
    | .ev i g => if isMailEvent i then .some (g.src, d.at_) else .none
    | _ => .none

/-- The pieces of a request's bytes on the pages of 64 KiB that they touch: physical addresses; or the status that refuses them. Where
both pages are refused, with different statuses, it is that of the lower one, and bytes past 2^48 are refused before either page is tried
(DESIGN CHOICE, log entry 44: R54 gives no order). -/
def State.mailPages (s : State) (x : Nat) (q : MailReq) (w : Walk) : Walk × Except Nat (List Nat) :=
  let a := q.addr.toNat
  let ask : Ask := if q.op = 1 then .write else .read
  if 2 ^ 48 < a + q.len.toNat then (w, .error 1)
  else
    let status (f : Refused) : Nat := if f.cls = 27 then 1 else 2
    match s.translate x a ask w with
    | (w, .error f) => (w, .error (status f))
    | (w, .ok p) =>
      if a / 65536 = (a + q.len.toNat - 1) / 65536 then (w, .ok [p.pa])
      else match s.translate x ((a / 65536 + 1) * 65536) ask w with
        | (w, .error f) => (w, .error (status f))
        | (w, .ok p2) => (w, .ok [p.pa, p2.pa])

/-- The physical addresses of a request's bytes, from those of its pieces. -/
def mailBytes (q : MailReq) (pa pa2 : Nat) : List Nat :=
  let n := q.len.toNat
  let first := Nat.min n (65536 - q.addr.toNat % 65536)
  addrRun pa first ++ addrRun pa2 (n - first)

/-- The first cycle from `t` on in which the slots of some channels may all begin (R331). -/
def State.commonSlot (s : State) (pcs : List Nat) (t : Nat) : Nat :=
  let busy := pcs.flatMap s.slotsOn
  searchFrom (fun t => slotBeside busy t) (21 * busy.length + 1) t

/-- The engine takes a request up, no earlier than cycle t: its checks, its slots, its place in the order. -/
def State.takeMail (s : State) (src : Source) (q : MailReq) (t : Nat) : State :=
  let (f, s) := s.fresh
  let after := s.mailInProgress.foldl (fun m p => Nat.max m p.2) 0
  let b := t + Config.mailboxCycles f
  let now := Nat.max b (if s.mailInProgress.isEmpty then 0 else after + 1)
  let answer (s : State) (at_ status x : Nat) : State := s.planEv at_ 0 0 q.event { a := status, b := x, src := src, req := q }
  match s.mailCtx src with
  | .none => answer s now 4 0
  | .some x =>
    if q.malformed then answer s now 3 x
    else if q.space = 1 then answer s now 0 x
    else
      let (w, r) := s.mailPages x q { tlb := [] }
      let bad := w.reads.any fun a => s.devBad.contains (a / 64)
      let (s, r1) := s.chainReads (fun line => .slotUse x line) w.reads b
      let now := Nat.max now r1
      if bad then answer s now 5 x
      else match r with
        | .error v => answer s now v x
        | .ok l =>
          let lines := linesOf (mailBytes q (l.getD 0 0) (l.getD 1 0))
          let pcs := (lines.map s.channelOf).eraseDups
          let from_ := if q.op = 1 then Nat.max r1 (after - 10) else now
          let t := s.commonSlot pcs from_
          let s := pcs.foldl (fun s pc => s.takeSlot pc t) s
          let s := lines.foldl (fun s line => s.plan t 1 0 (.slotUse x line)) s
          let g : EvArg := { b := x, c := l.getD 1 0, word := BitVec.ofNat 64 (l.getD 0 0), src := src, req := q }
          if q.op = 1 then s.planEv (t + 10) 2 10 .mailboxWrite g else s.planEv t 1 0 .mailboxRead g

/-- The engine takes up every request whose turn has come: in the order of arrival, those of one source one at a time (R56, R57). -/
def State.pumpMail : Nat → Nat → State → State
  | 0, _, s => s
  | k + 1, t, s =>
    match s.mail with
    | [] => s
    | (src, q) :: l =>
      if s.mailInProgress.any fun p => p.1 == src then s
      else State.pumpMail k t (({ s with mail := l } : State).takeMail src q t)

/-- A request arrives at the engine. -/
def State.mailArrive (s : State) (src : Source) (q : MailReq) : State :=
  let s : State := { s with mail := s.mail ++ [(src, q)], routes := (src.node, q.port) :: s.routes.filter fun r => r.1 ≠ src.node }
  s.pumpMail s.mail.length s.tick

/-- The request of the event is answered, and the next ones are taken up (R54, R55). -/
def State.respond (s : State) (status : Nat) (data : List Byte) : State :=
  let s := s.startFlit (s.mailCtx s.ev.src) s.ev.src.node (.response s.ev.src (s.ev.req.response status data))
  s.pumpMail s.mail.length (s.tick + 1)

/-- A request that was refused, or whose source has lost its context meanwhile, is answered so; any other is carried out. -/
def State.applyMail (s : State) (f : State → State) : State :=
  if (s.mailCtx s.ev.src).isNone then s.respond 4 []
  else if s.ev.a ≠ 0 then s.respond s.ev.a []
  else if s.mailCtx s.ev.src ≠ .some s.ev.b then s.respond 4 []
  else f s

/-! ### The kick page (R58 to R61) -/

/-- A queue status word (R60). -/
def Queue.status (q : Queue) : Word := BitVec.ofNat 32 (q.fail.toNat * 2 ^ 18 + q.state % 4 * 2 ^ 16 + q.done.toNat)

/-- A word of the kick page as the host reads it (R58, R8). -/
def Ctx.kickPage (x : Ctx) (off : Nat) : Word :=
  if off = 4 then x.pend.setWidth 32
  else if off = 8 then x.kcoal.setWidth 32
  else if off = 0x0C then x.note.setWidth 32
  else if 0x40 ≤ off && off < 0x80 then (x.queue ((off - 0x40) / 4)).status
  else 0

/-! ### Events -/

/-- MAILBOX_WRITE (R56, R331): the write performs at device scope, all its bytes together. -/
def execMailboxWrite (s : State) : Out :=
  .next (s.applyMail fun s =>
    (s.writeBytes .dev 3 ((mailBytes s.ev.req s.ev.word.toNat s.ev.c).zip s.ev.req.payload)).respond 0 [])

/-- MAILBOX_READ (R57, R331, R454): a read samples at device scope, or reads a register of the kick page. -/
def execMailboxRead (s : State) : Out :=
  .next (s.applyMail fun s =>
    if s.ev.req.space = 1 then s.respond 0 (leBytes 4 ((s.ctx s.ev.b).kickPage s.ev.req.addr.toNat).toNat)
    else
      let l := mailBytes s.ev.req s.ev.word.toNat s.ev.c
      if s.anyBad .dev l then s.respond 5 [] else s.respond 0 (s.readBytes .dev l))

/-- The word that a request writes to the kick page. -/
def State.mailWord (s : State) : Word := BitVec.ofNat 32 (leNat (s.ev.req.payload.take 4))

/-- KICK (R59, R61). -/
def execKick (s : State) : Out :=
  .next (s.applyMail fun s =>
    let v := s.mailWord.toNat
    let x := s.ctx s.ev.b
    if 16 ≤ v then s.respond 3 []
    else
      let q := (x.queue v).state
      let t :=
        if q = 0 || q = 3 then s
        else if x.pend.getLsbD v then
          s.modCtx x.num fun k => { k with kcoal := if k.kcoal = 0xFFFF then 0xFFFF else k.kcoal + 1 }
        else (s.modCtx x.num fun k => { k with pend := k.pend ||| 1#16 <<< v }).reschedule
      t.respond 0 [])

/-- KCOAL_WRITE (R58): any value clears the count. -/
def execKcoalWrite (s : State) : Out :=
  .next (s.applyMail fun s => (s.modCtx s.ev.b fun k => { k with kcoal := 0 }).respond 0 [])

/-- KICK_PAGE_REGISTER_WRITE (R58, R8): NOTE takes its bits; read-only and reserved places ignore the write. -/
def execKickPageRegisterWrite (s : State) : Out :=
  .next (s.applyMail fun s =>
    let t := if s.ev.req.addr = 0x0C then s.modCtx s.ev.b fun k => { k with note := s.mailWord.setWidth 16 } else s
    t.respond 0 [])

end Sys2Proof.Machine
end

