-- ==== Sys2Proof/Machine/Adopt.lean ====
section
/-! DEFINITION. Adopt.lean: the state that this device keeps of a saved context, as it stands for another child that loads its area here
(R96, R420): the context's number and its herds are those of the new child, and its commands and calls are new ones. -/

namespace Sys2Proof.Machine

/-- What changes its name: a context's number, its root herds, in virtual order, and the numbers of its commands and calls, which move up by
`shift`; `cmds` are the commands that were kept with it. -/
structure Renaming where
  old : Nat
  new : Nat
  herds : List (Nat × Nat)
  shift : Nat
  cmds : List Nat

def Renaming.ctx (m : Renaming) (x : Nat) : Nat := if x = m.old then m.new else x

def Renaming.herd (m : Renaming) (h : Nat) : Nat := ((m.herds.find? fun p => p.1 == h).map (·.2)).getD h

def Renaming.space (m : Renaming) : Space → Space
  | .dev => .dev
  | .hm h => .hm (m.herd h)
  | .lm h c => .lm (m.herd h) c

def Renaming.place (m : Renaming) (p : Space × Nat) : Space × Nat := (m.space p.1, p.2)

def Renaming.async (m : Renaming) (a : Async) : Async := { a with ctx := m.ctx a.ctx, owner := m.ctx a.owner }

def Renaming.id (m : Renaming) (n : Nat) : Nat := n + m.shift

def Renaming.gate (m : Renaming) (g : Gate) : Gate := { g with writes := g.writes.map m.id }

def Renaming.carry (m : Renaming) (c : Carry) : Carry := { c with gate := m.gate c.gate }

/-- A scalar waits only for a command that was kept. -/
def Renaming.regs (m : Renaming) (r : Regs) : Regs :=
  { r with
    frame := r.frame.map fun f => { f with ctx := m.ctx f.ctx, call := f.call.map m.id }
    marks := r.marks.map m.place, issued := r.issued.map m.id, group := r.group.map m.id
    engPend := (r.engPend.filter fun p => m.cmds.contains p.1).map fun p => (m.id p.1, p.2)
    carry := m.carry r.carry, trap := r.trap.map fun f => { f with carry := m.carry f.carry } }

/-- A bundle that waited for a descriptor executes its slot X again. -/
def Renaming.core (m : Renaming) (k : Core) : Core :=
  let r := m.regs k.r
  { k with
    r := if k.waiting.isSome then { r with resume := 7 } else r
    hold := if k.waiting.isSome then .none else k.hold, waiting := .none
    susp := k.susp.map m.regs, asyncs := k.asyncs.map m.async, gate := m.gate k.gate }

def Renaming.herdState (m : Renaming) (h : Herd) : Herd :=
  { h with
    cores := h.cores.map m.core
    array := { h.array with cmds := h.array.cmds.map fun c => { c with id := m.id c.id, ctx := m.ctx c.ctx } } }

def Renaming.beat (m : Renaming) (b : Beat) : Beat := { b with srcSpace := m.space b.srcSpace, dstSpace := m.space b.dstSpace }

def Renaming.kind (m : Renaming) : CmdKind → CmdKind
  | .callIn k => .callIn (m.id k)
  | .callOut k => .callOut (m.id k)
  | k => k

def Renaming.cmd (m : Renaming) (c : Cmd) : Cmd :=
  { c with
    id := m.id c.id, kind := m.kind c.kind
    ctx := m.ctx c.ctx, herd := m.herd c.herd, walker := m.herd c.walker, beats := c.beats.map m.beat
    packed := c.packed.map fun q => { q with space := m.space q.space } }

def Renaming.call (m : Renaming) (k : Call) : Call :=
  { k with
    id := m.id k.id, ctx := m.ctx k.ctx, herd := m.herd k.herd, target := if k.level = 2 then m.herd k.target else k.target
    masks := k.masks.map m.place }

/-- What waits for the context; the status of a command that was not kept with it goes to the context that issued it. -/
def Renaming.act (m : Renaming) : Act → Option Act
  | .ev i g =>
    match i with
    | .waitExpiry | .joinRelease => .some (.ev i { g with a := m.herd g.a })
    | .streamProgramStart => .some (.ev i { g with a := m.ctx g.a })
    | .childEntry => .some (.ev i { g with a := m.id g.a, b := m.id g.b })
    | .outwardCopyApply | .callerResume => .some (.ev i { g with a := m.id g.a })
    | .cxqComplete | .cxsaveComplete | .cxloadComplete => .none
    | _ => .some (.ev i g)
  | .mread h c s q t n => .some (.mread (m.herd h) c s q t n)
  | .leaseWrite h e l => .some (.leaseWrite (m.herd h) e l)
  | .accZero h s => .some (.accZero (m.herd h) s)
  | .killMarks h c d t r => .some (.killMarks (m.herd h) c d t r)
  | .asyncDue h c a => .some (.asyncDue (m.herd h) c (m.async a))
  | .programEnd x q => .some (.programEnd (m.ctx x) q)
  | .promiseTrap id => .some (.promiseTrap (m.id id))
  | a => .some a

/-- What was kept of another context, for context n with root herds l; the numbers of its commands and calls move up by `shift`. -/
def Kept.adopt (k : Kept) (n : Nat) (l : List Nat) (shift : Nat) : Kept :=
  let m : Renaming := { old := (k.header.getD 8 0).toNat, new := n, herds := k.places.zip l, shift := shift, cmds := k.cmds.map (·.id) }
  { k with
    ctx := n, places := l, herds := k.herds.map m.herdState, cmds := k.cmds.map m.cmd, calls := k.calls.map m.call
    agenda := k.agenda.filterMap fun d => (m.act d.act).map fun a => { d with act := a } }

/-- Two headers alike but for FLAGS: those of one save (R397, R410). -/
def sameHeader (a b : List Byte) : Bool := a.set 10 0 == b.set 10 0

/-- What is kept of the context whose area is to be loaded (log entry 30): of another one on this device, ended or not, whose header the area
holds; else the child's own, where the area is of its own save, by T_s, whatever software has changed in it. -/
def State.keptOf (s : State) (n : Nat) (header : Mem) : Option Kept :=
  let x := s.ctx n
  let h := (List.range 0x904).map header.read
  let own := s.kept.find? fun k => k.ctx == n
  let other := s.kept.find? fun k => k.ctx ≠ n && !k.herds.isEmpty && k.herds.length == x.herds.length && sameHeader k.header h
  let mine (f : Kept → Bool) : Option Kept := own.filter f
  match mine fun k => sameHeader k.header h, other with
  | .some k, _ => .some k
  | .none, .some k => .some (k.adopt n x.herds s.nextId)
  | .none, .none => mine fun k => (k.header.drop 0x10).take 8 == (h.drop 0x10).take 8

end Sys2Proof.Machine
end

