-- ==== Sys2Proof/Machine/Area.lean ====
section
/-! DEFINITION. Area.lean: a context built from its save area alone (R96, R411 to R414, R420): one that another device wrote, or of which
nothing is kept here. What no field of the layout holds is taken as log entries 20 and 30 say. -/

namespace Sys2Proof.Machine

/-! ### Frames -/

/-- The task of an image in which a bundle of core c lies: the one whose entry of that core stands nearest before it. The root task runs
on the lead core alone. -/
def Image.taskAt (m : Image) (root : Bool) (c pc : Nat) : Option Nat :=
  let entries := (m.tasks.zipIdx).filterMap fun p =>
    let e := p.1.entries.getD (if p.1.level = 2 then c else 0) 0
    if (p.1.level = 3 && !(root && p.2 == m.root)) || (p.1.level = 2 && !p.1.emask.testBit c) || pc < e then Option.none else .some (e, p.2)
  (entries.foldl (fun (best : Option (Nat × Nat)) q => match best with
    | .some b => if b.1 < q.1 then .some q else best
    | .none => .some q) .none).map (·.2)

/-- A task's boxes as its record declares them. -/
def Task.declared (t : Task) : List (Option (BitVec 256)) := (List.range 16).map fun j => (t.boxes[j]?).filter fun b => boxAcc b != 0

/-- The frame of core c of a loaded context: that of the task in which its next bundle, or the one that its trap frame holds, lies. -/
def State.areaFrame (s : State) (n : Nat) (root : Bool) (c : Nat) (r : Regs) : Option Frame := do
  let q ← (s.ctx n).running
  let m ← s.image? ((s.ctx n).queue q).image
  let pc := match r.trap with | .some f => f.pc | .none => r.pc
  let i ← m.taskAt root c pc.toNat
  let t ← m.tasks[i]?
  return { ctx := n, level := t.level, image := m.id, task := i, call := .none, queue := q, boxes := t.declared }

/-- The herds of a loaded context with the frames of their cores. -/
def State.areaFrames (s : State) (n : Nat) (l : List Herd) : List Herd :=
  (l.zipIdx).map fun p => { p.1 with cores := (p.1.cores.zipIdx).map fun q =>
    { q.1 with r := { q.1.r with frame := if q.1.r.frame.isSome then s.areaFrame n (p.2 == 0 && q.2 == 0) q.2 q.1.r else .none } } }

/-! ### Calls -/

/-- A head of the mark section with the words of its bitmap (R413). -/
structure MarkHead where
  kind : Nat
  v : Nat
  core : Nat
  sib : Nat
  handle : Nat
  words : List Nat
deriving DecidableEq

/-- The records of a mark section. -/
def markHeads : Nat → List Byte → List MarkHead
  | 0, _ => []
  | k + 1, l =>
    let n := bytesNat l 8 8
    if l.length < 16 + n || n = 0 then []
    else { kind := bytesNat l 0 1, v := bytesNat l 1 1, core := bytesNat l 2 1, sib := bytesNat l 3 1, handle := bytesNat l 4 1
           words := bitmapOf ((l.drop 16).take n) } :: markHeads k (l.drop (16 + n))

/-- A call record with the place of its caller, virtual herd and core, and the level of the child (R411). -/
structure CallRec where
  v : Nat
  core : Nat
  sib : Nat
  level : Nat
  bytes : List Byte

/-- The level of the frame of core c of a herd; 0 without one. -/
def Herd.levelOf (y : Herd) (c : Nat) : Nat := (((y.cores.getD c {}).r.frame).map (·.level)).getD 0

/-- The call records of a frame's cores. -/
def callRecs (v : Nat) (area : Mem) (y : Herd) : List CallRec :=
  (List.range 4).flatMap fun c =>
    let l := area.bytesOf (0x53EF00 + c * 1024) 1024
    let record (i : Nat) : List Byte := (l.drop (8 * i)).take 8
    if y.levelOf c < 2 then []
    else ((List.range 128).takeWhile fun i => decide (1 ≤ bytesNat (record i) 0 1) && decide (bytesNat (record i) 0 1 ≤ 5)).map fun i =>
      { v := v, core := c, sib := i, level := y.levelOf c - 1, bytes := record i }

/-- The virtual herds in whose frames a call's inward copies have a walker record (R411). -/
def inwardHerds (frames : List Mem) (core : Nat) : List Nat :=
  ((frames.zipIdx).filter fun p =>
    let l := p.1.bytesOf 0x53DC00 4096
    (List.range 64).any fun i => bytesNat l (64 * i) 1 == 8 && bytesNat l (64 * i + 1) 1 == core).map (·.2)

/-- Where the child of a call may stand, virtual herd and core: with `busy` the places that run a frame of its level, else the free ones. -/
def childPlaces (l : List Herd) (r : CallRec) (busy : Bool) : List (Nat × Nat) :=
  if r.level = 2 then
    ((l.zipIdx).filter fun p => ([0, 1, 2, 3].any fun c => p.1.levelOf c = 2) == busy).map fun p => (p.2, 0)
  else
    let level := (l.getD r.v {}).levelOf
    (if busy then [0, 1, 2, 3].filter fun c => level c = 1 else ([0, 1, 2, 3].filter fun c => level c = 0) ++ [r.core]).map fun c => (r.v, c)

/-- The place of each call's child and its heads in the mark section: a head names it; else it is the first place that fits and that no
call before it names. -/
def placeCalls (frames : List Mem) (l : List Herd) : List CallRec → List MarkHead → List (Nat × Nat × Nat) →
    List (CallRec × (Nat × Nat) × List MarkHead)
  | [], _, _ => []
  | r :: rs, heads, used =>
    let here (m : MarkHead) : Bool := m.sib == r.sib && (m.kind == 3 || m.kind == (if r.level = 2 then 1 else 2)) && (r.level = 2 || m.v == r.v)
    let entering := bytesNat r.bytes 0 1 = 1
    let named : List (Nat × Nat) := if entering && r.level = 2 then (inwardHerds frames r.core).map fun v => (v, 0) else []
    let fits := (named ++ childPlaces l r (!entering)).filter fun p => !used.contains (r.level, p)
    let p := match heads.find? here with | .some m => (m.v, m.core) | .none => fits.headD (r.v, r.core)
    let mine (m : MarkHead) : Bool := here m && (m.v, m.core) == p
    (r, p, heads.filter mine) :: placeCalls frames l rs (heads.filter fun m => !mine m) ((r.level, p) :: used)

/-- Argument i of a call, with own handle i and geometry slot 0, as `wcall` takes its arguments with no list (R368; DESIGN CHOICE, log
entry 30); with no access where the caller's state does not agree with the declaration. -/
def State.areaArg (s : State) (t : Task) (i : Nat) : CallArg :=
  let own := (s.box? i).getD 0
  let g := s.R.gm.getD 0 {}
  let decl := t.boxes.getD i 0
  let geo := ownGeo own g
  let fits := (s.box? i).isSome && argAgrees decl own geo && subBoxOk own g.origins g.extents
  { own := i, ownBox := own, geo := geo, childBox := if fits then childBox decl geo else 0 }

/-- The task of a call: that of the frame that runs in its place, else the first of its level with enough boxes, those of its heads
writable. -/
def Image.taskFor (m : Image) (r : CallRec) (heads : List MarkHead) (running : Option Nat) : Nat :=
  let fits (t : Task) : Bool := t.level == r.level && decide (bytesNat r.bytes 1 1 ≤ t.boxes.length)
    && heads.all fun h => boxWrites (t.boxes.getD h.handle 0)
  running.getD (m.tasks.findIdx fits)

/-- The machine with the call that a record says, the caller being the core at work; and its inward or outward copies under way, at their
progress index (R379). -/
def State.areaCall (s : State) (n : Nat) (z : AfterStop) (r : CallRec) (p : Nat × Nat) (heads : List MarkHead) : State :=
  let x := s.ctx n
  let h := x.herds.getD p.1 0
  let y := s.herd h
  match s.R.frame with
  | .none => s
  | .some f =>
    let m := (s.image? f.image).getD { id := 0, code := [], tasks := [], root := 0 }
    let mine (c : Nat) : Bool := y.levelOf c = r.level && (r.level = 2 || c = p.2)
    let state := CallState.ofCode (bytesNat r.bytes 0 1) .entering
    let runs := if state = .running then [0, 1, 2, 3].filter mine else []
    let task := m.taskFor r heads (runs.head?.bind fun c => (y.cores.getD c {}).r.frame.map (·.task))
    let t := m.tasks.getD task { level := r.level, emask := 1, nparam := 0, entries := [], boxes := [] }
    let k := s.newCall f t task (if r.level = 2 then h else p.2) ((List.range (bytesNat r.bytes 1 1)).map (s.areaArg t))
    let at_ := z.tickOf (z.vcyc + (BitVec.ofNat 32 (bytesNat r.bytes 4 4) - BitVec.ofInt 32 z.vcyc).toInt)
    let masks := heads.flatMap fun d => d.words.map fun w => (k.space, boxBase (t.boxes.getD d.handle 0) / 4 + w)
    let k := { k with
      state := state, suspends := false, entry := at_, applyAt := at_, retAt := s.tick, doneAt := s.tick, masks := masks
      left := if state = .running then runs else if state = .entering then k.cores else [] }
    let (id, s) := s.newId
    let s := ({ s with calls := s.calls ++ [k] } : State).modR fun q => { q with group := q.group ++ [id] }
    let s := runs.foldl (fun s c => s.modRegs h c fun q => { q with frame := q.frame.map fun f => { f with call := .some id } }) s
    let copies := bytesNat r.bytes 2 2
    let old := s.cmds.length
    let s : State := match state with
      | .entering =>
        let c := s.callCmd k 0
        match (s.callSchedule k c).2 with
        | .ok q => { s with nextId := s.nextId + 1, cmds := s.cmds ++ [{ c with beats := q.beats, packed := q.blocks, promise := q.promise s.tick }] }
        | .error _ => s
      | .applying =>
        ((k.args.zipIdx).filter fun a => boxWrites a.1.childBox).foldl (fun (s : State) (a : CallArg × Nat) => s.applyArg k a.2 a.1) s
      | _ => s
    { s with cmds := s.cmds.take old ++ copiesFrom copies (s.cmds.drop old) }

/-- The core at work: core c of root herd h. -/
def State.atCore (s : State) (h c : Nat) : State := { s with cur := { s.cur with herd := h, core := c, pc := (s.regs h c).pc, seq := 0 } }

/-! ### Commands -/

/-- A command as a walker record says it, issued by the core at work; none where its route names nothing that is there. -/
def State.areaCmd (s : State) (l : List Byte) : Option Cmd :=
  let route := BitVec.ofNat 32 (bytesNat l 4 4)
  let bound := BitVec.ofNat 32 (bytesNat l 48 4)
  let own := Geo.ofBytes (l.drop 16)
  let far := Geo.ofBytes (l.drop 32)
  let s := s.modR fun r => { r with gm := (r.gm.set 0 own).set 1 far }
  let copy (k : CopyKind) : Option Cmd :=
    match s.box (route.toNat % 16), (routeSiblings k route).mapM (s.routeChild (route.toNat / 16 % 16)) with
    | .ok b, .ok kids => match (s.copySchedule k route bound 0 1 b kids).2 with
      | .ok p => .some { s.copyCmd k route bound 0 1 kids with beats := p.beats, packed := p.blocks, promise := p.promise s.tick }
      | .error _ => .none
    | _, _ => .none
  match bytesNat l 0 1 with
  | 0 => copy .copy
  | 1 => copy .mcast
  | 2 => copy .gather
  | 3 => copy .scatter
  | 6 =>
    let n := far.e0.toNat
    match s.box (route.toNat % 16) with
    | .ok b =>
      let cmd := { s.newCmd (.table n) s.cur.herd with own := own, route := route, far := { e0 := far.e0 } }
      let runs := (rowStarts b own.origins [n, 1, 1, 1]).map fun q => { src := q, dst := q, len := rowLength b [n, 1, 1, 1] : Run }
      match s.issueRead cmd b runs with
      | .ok t => t.cmd? cmd.id
      | .error _ => .none
    | .error _ => .none
  | 7 =>
    match [0, 1, 2, 3].mapM fun k => s.box (route.toNat / 16 ^ k % 16) with
    | .ok boxes => if s.level = 3 then .some (s.snapCmd route bound boxes) else .none
    | .error _ => .none
  | _ => .none

/-- The machine with the command of a walker record of root herd h: issued by the core that it names of that herd, else by the lead herd's
core of that number. -/
def State.areaWalker (s : State) (n h : Nat) (z : AfterStop) (l : List Byte) : State :=
  let c := bytesNat l 1 1 % 4
  let found := [h, (s.ctx n).lead].findSome? fun g =>
    let s := s.atCore g c
    if s.level < 2 then Option.none else (s.areaCmd l).filter fun k => k.walker == h
  match found with
  | .none => s
  | .some k =>
    let k := Cmd.ofRecord z l k
    let s : State := { s with nextId := s.nextId + 1, cmds := s.cmds ++ [{ k with first := k.promise }] }
    s.modRegs k.herd k.core fun r => { r with
      issued := k.id :: r.issued
      tabAt := match k.kind with | .table _ => k.promise | _ => r.tabAt }

/-- A record of a copy into a call that enters gives its promise and its bound to the command that the call record gave. -/
def State.areaInward (s : State) (h : Nat) (z : AfterStop) (l : List Byte) : State :=
  let mine (c : Cmd) : Bool := c.walker == h && c.core == bytesNat l 1 1 % 4 && match c.kind with | .callIn _ => true | _ => false
  match s.cmds.find? mine with
  | .none => s
  | .some c =>
    let t := z.tickOf (bytesNat l 8 8)
    (s.modCmd c.id fun c => { c with promise := t, first := t, bound := BitVec.ofNat 32 (bytesNat l 48 4) }).modRegs c.herd c.core fun r =>
      { r with issued := c.id :: r.issued }

/-! ### The array -/

/-- A halted array command as its record says it (R310, log entry 31): its boxes by the handles of its geometry. -/
def Herd.areaArray (y : Herd) (z : AfterStop) (n id : Nat) (l : List Byte) : Option ArrCmd := do
  let op ← if l.all (· == 0) then Option.none else ArrOp.ofNumber (bytesNat l 0 1) (bytesNat l 28 1)
  let geo : BitVec 96 := BitVec.ofNat 96 (bytesNat l 16 12)
  let core := bytesNat l 1 1 % 4
  let k := y.cores.getD core {}
  let box (h : Nat) : BitVec 256 := ((k.r.frame.bind fun f => f.boxes.getD h .none)).getD 0
  let (src, dst) := match op with
    | .mload _ => (box (geoWh geo), 0)
    | .mrun _ _ _ => (box (geoAh geo), 0)
    | .menc _ _ => (box (geoDh geo), box (geoWh geo))
    | .mcomp _ => (box (geoDh geo), box (geoDh geo))
    | _ => (box (geoDh geo), 0)
  let fmtb := match op with | .mrun _ w _ => (y.array.ws.getD w {}).fmtb | _ => 0
  let q := match op with | .mrun _ _ _ => Nat.max (activationCost (boxCode src)) (weightCost fmtb) | _ => 1
  let path : Word := BitVec.ofNat 32 (bytesNat l 4 4)
  let len := match op with
    | .mload _ => (loadReads src path (Nat.min (geoNcol geo) 128) (geoNgrp geo)).foldl (fun m p => max m p.1) 1 + 2
    | .mrun _ _ _ => 13 + q * geoNgrp geo
    | .spillAcc _ => 18
    | .spillSlot _ => 99
    | .fillAcc _ => 20
    | .fillSlot _ => 101
    | .menc _ _ | .mcomp _ => 5 + geoNcol geo * geoNgrp geo - 1
  return ArrCmd.ofRecord z l
    { id := id, op := op, core := core, ctx := n, at_ := 0, fin := len, addr := k.r.pc, geo := geo, path := path, src := src, dst := dst
      q := q, fmtb := fmtb, halted := true }

/-- The halted commands of a frame's array block. -/
def State.areaHalted (s : State) (n h : Nat) (z : AfterStop) (area : Mem) : State :=
  let l := area.bytesOf 0x53D860 128
  let cmds := ((List.range 4).map fun i => (s.herd h).areaArray z n (s.nextId + i) ((l.drop (32 * i)).take 32)).takeWhile (·.isSome)
  ({ s with nextId := s.nextId + 4 } : State).modArray h fun a => { a with cmds := cmds.filterMap id }

/-! ### Receive windows (R355, R411) -/

/-- A receive window as its record says it, for context n on the herd y; its flits not yet arrived. -/
def State.areaWindow (s : State) (n id : Nat) (y : Herd) (l : List Byte) : Option Window := do
  let core := bytesNat l 12 1 % 4
  let handle := bytesNat l 11 1 % 16
  let b ← if bytesNat l 0 1 = 0 then Option.none else (y.cores.getD core {}).r.frame.bind fun f => f.boxes.getD handle .none
  let geo := Geo.ofBytes (l.drop 16)
  let e := ((s.gcyc : Int) + (BitVec.ofNat 32 (bytesNat l 4 4) - BitVec.ofNat 32 s.gcyc).toInt).toNat
  let port := bytesNat l 1 1 % 24
  let flits := bytesNat l 8 2
  return { id := id, ctx := n, core := core, port := port, tag := bytesNat l 2 1, tol := bytesNat l 3 1, expect := e, flits := flits
           close := e + 5 * (flits - 1) + 2 + bytesNat l 3 1, handle := handle, slot := bytesNat l 10 1 % 8, geo := geo
           beats := chunks64 (streamOf b geo), peer := (s.port port).peer n, mask := streamMask b geo }

/-- The receive windows of a context that was loaded from the area of another one open on its herds. -/
def State.openWindows (s : State) (n : Nat) (k : Kept) (frames : List Mem) : State :=
  ((frames.zip k.herds).zip (s.ctx n).herds).foldl (fun s p =>
    if (s.herd p.2).windows.any fun w => w.ctx == n then s
    else
      let l := p.1.1.bytesOf 0x53EC00 512
      (List.range 16).foldl (fun s i => match s.areaWindow n s.nextId p.1.2 ((l.drop (32 * i)).take 32) with
        | .none => s
        | .some w => (({ s with nextId := s.nextId + 1 } : State).modHerd p.2 fun y => { y with windows := y.windows ++ [w] }).planClose p.2 w) s) s

/-! ### The whole area -/

/-- What the calls and the joins of a loaded context still wait for (R369, R375, R377). -/
def State.areaAgenda (s : State) (n : Nat) (z : AfterStop) : List Due :=
  let due (phase ord : Nat) (i : Instr) (g : EvArg) (t : Nat) : Due := { at_ := t, phase := phase, ord := ord, act := .ev i g }
  let begun (k : Call) : Bool := k.state == .applying || k.state == .applied
  (s.calls.flatMap fun k =>
    let cmd := ((s.cmds.find? fun c => c.ofCall k.id).map (·.id)).getD s.nextId
    match k.state with
    | .entering => [due 0 5 .childEntry { a := k.id, b := cmd } k.entry]
    | .returned => if (s.previous k).all begun then [due 4 8 .outwardCopyApply { a := k.id } z.tick] else []
    | _ => [])
    ++ (s.ctx n).herds.flatMap fun h => ([0, 1, 2, 3].filter fun c => (s.core h c).hold == .join).map fun c =>
      due 0 7 .joinRelease { a := h, b := c } z.tick

/-- A context built from its area alone (R96, R414, R420), its stop standing one cycle before the next one. -/
def State.buildArea (s : State) (n : Nat) (a : Area) : State × Kept :=
  let x := s.ctx n
  let v : Int := (BitVec.ofNat 64 (leNat (a.header.bytesOf 0x10 8))).toInt
  let z : AfterStop := { tick := s.tick + 1, vcyc := v + 1 }
  let herds := s.areaFrames n (a.frames.map fun m => decodeHerd n z m {})
  let places := a.frames.zip x.herds
  let u : State := { (herds.zip x.herds).foldl (fun s p => s.modHerd p.2 fun _ => p.1) s with cmds := [], calls := [], agenda := [] }
  let recs := ((a.frames.zip herds).zipIdx).flatMap fun p => callRecs p.2 p.1.1 p.1.2
  let u := (placeCalls a.frames herds recs (markHeads a.marks.length a.marks) []).foldl (fun u q =>
    (u.atCore (x.herds.getD q.1.v 0) q.1.core).areaCall n z q.1 q.2.1 q.2.2) u
  let u := places.foldl (fun u p =>
    let l := p.1.bytesOf 0x53DC00 4096
    (List.range 64).foldl (fun u i =>
      let r := (l.drop (64 * i)).take 64
      if r.all (· == 0) then u else if bytesNat r 0 1 = 8 then u.areaInward p.2 z r else u.areaWalker n p.2 z r) u) u
  let u := places.foldl (fun u p => u.areaHalted n p.2 z p.1) u
  let marked (k : Core) : Core := { k with r := k.r.remark u.joinMarks u.calls }
  ({ s with nextId := u.nextId },
   { ctx := n, vcyc := v, tick := s.tick, cmds := u.cmds, calls := u.calls, agenda := u.areaAgenda n z, places := x.herds, fromArea := true
     header := (List.range 0x904).map a.header.read
     herds := x.herds.map fun h => let y := u.herd h; { y with cores := y.cores.map marked } })

end Sys2Proof.Machine
end

