-- ==== Sys2Proof/Machine/Context.lean ====
section
/-! DEFINITION. Context.lean: the CTX instructions (R417 to R423) and their completions: creating a context and giving to it (R69 to
R73), its revocation (R88, R89), the resumption of its stopped cores (R419), `cxsave` and `cxload` (R420), pending child traps
(R421), and the configuration of queues (R422). -/

namespace Sys2Proof.Machine

/-! ### Descriptors (R69) -/

/-- The fields of a context descriptor (R69). -/
structure CtxDesc where
  troot : Nat
  save : Nat
  prof : Nat
  eceil : Nat
  hset : List Nat
  deleg : Word
  hentry : Word
  weight : Nat
  kind : Nat
  qslots : Nat
  hsrc : Word
  pshare : Nat

def CtxDesc.ofBytes (l : List Byte) : CtxDesc :=
  { troot := bytesNat l 0 8, save := bytesNat l 8 8, prof := bytesNat l 0x10 8, eceil := bytesNat l 0x18 8
    hset := (List.range 96).filter fun h => (bytesNat l 0x20 12).testBit h
    deleg := BitVec.ofNat 32 (bytesNat l 0x2C 4), hentry := BitVec.ofNat 32 (bytesNat l 0x30 4)
    weight := bytesNat l 0x34 2, kind := bytesNat l 0x36 1, qslots := bytesNat l 0x37 1
    hsrc := BitVec.ofNat 32 (bytesNat l 0x38 4), pshare := bytesNat l 0x3C 1 }

/-- Every field of a descriptor holds a valid value, and every reserved bit is zero (R69, R70, R391). -/
def ctxDescOk (l : List Byte) : Bool :=
  let d := CtxDesc.ofBytes l
  decide (d.troot < 2 ^ 48) && d.troot % 4096 == 0 && decide (d.save < 2 ^ 48) && d.save % 65536 == 0 && decide (d.prof < 2 ^ 48)
    && d.prof % 64 == 0 && decide (d.eceil < 2 ^ 48) && (d.hentry >>> 16).toNat % 2 ^ 15 == 0 && decide (d.weight ≤ 256)
    && decide (d.kind ≤ 1) && decide (d.qslots ≤ 16) && !d.hsrc.getLsbD 30 && decide (d.pshare ≤ 64) && zeroBytes l 0x3D 3

/-- The host source that a descriptor names; none when its valid bit is clear. -/
def CtxDesc.source (d : CtxDesc) : Option Source :=
  if d.hsrc.getLsbD 31 then .some { node := d.hsrc.toNat % 2 ^ 24, num := d.hsrc.toNat / 2 ^ 24 % 64 } else .none

/-! ### What a parent may give (R70 to R73) -/

/-- The context to which a host source is bound. -/
def State.boundTo (s : State) (q : Source) : Option Nat := (s.binds.find? fun b => b.1 == q).map (·.2)

/-- A source that a descriptor names may be bound to a child of p: x itself may hold it already (R70, R418). -/
def State.sourceOk (s : State) (p : Nat) (x : Option Nat) (d : CtxDesc) : Bool :=
  match d.source with
  | .none => true
  | .some q => match s.boundTo q with
    | .none => true
    | .some n => n == p || x == .some n

/-- The queue slots of a context that it neither gave nor uses (R70, R73). -/
def State.freeSlots (s : State) (x : Nat) : Nat := s.queueSlots x - (s.ctx x).configured

/-- The slice domains of a context that hold one of some herds (R72), the time-shared child x left out. -/
def State.domainsWith (s : State) (p : Nat) (x : Option Nat) (l : List Nat) : List (List Nat) :=
  (((s.tsChildren p).filter fun n => x ≠ .some n).map fun n => (s.ctx n).herds).filter fun g => g.any l.contains

/-- The same herds. -/
def sameHerds (a b : List Nat) : Bool := a.all b.contains && b.all a.contains

/-- Whether p may give root herds l to a new child of a kind (R70, R72). -/
def State.mayGive (s : State) (p kind : Nat) (l : List Nat) : Bool :=
  !(l.any (s.givenAway p)) &&
    (if kind = 0 then (s.domainsWith p .none l).isEmpty && !l.contains (s.ctx p).lead
     else (s.domainsWith p .none l).all (sameHerds l))

/-- Whether p may give child x what stands in l beside what x holds (R418, R72). -/
def State.mayAdd (s : State) (p x : Nat) (l : List Nat) : Bool :=
  let c := s.ctx x
  let added := l.filter fun h => !c.herds.contains h
  c.herds.all l.contains && !(added.any (s.givenAway p)) &&
    (if c.timeShared then
       added.isEmpty || (s.domainsWith p (.some x) l).isEmpty
     else (s.domainsWith p .none added).isEmpty && !added.contains (s.ctx p).lead)

/-- The root herds that a descriptor names; none when it names none, one that the parent does not
hold, or one that no spare is left for (R70, R441). -/
def State.namedHerds (s : State) (p : Nat) (d : CtxDesc) : Option (List Nat) :=
  let held := (s.ctx p).herds
  let named := d.hset.filterMap fun v => held[v]?
  if d.hset.isEmpty || (d.hset.any fun v => decide (held.length ≤ v)) || named.any s.unusable then .none else .some named

/-! ### Changes of resources -/

/-- A source is bound to a context. -/
def State.bindSource (s : State) (x : Nat) (d : CtxDesc) : State :=
  match d.source with
  | .none => s
  | .some q =>
    if s.boundTo q = .some x && !s.released.contains q then s
    else { s with binds := (q, x) :: s.binds.filter (fun b => b.1 ≠ q), released := s.released.filter fun z => z ≠ q }

/-- Port shares follow from the descriptors, parents before children (R73). -/
def State.reshare (s : State) : State :=
  [1, 2, 3, 4].foldl (fun s d => (s.ctxs.filter fun k => k.depth == d).foldl (fun s k =>
    s.modCtx k.num fun c => { c with pshare := bytesNat c.desc 0x3C 1 * (s.ctx ((k.parent).getD 0)).pshare }) s) s

/-- The fields of a child that a descriptor sets. -/
def Ctx.describe (x : Ctx) (l : List Byte) : Ctx :=
  let d := CtxDesc.ofBytes l
  { x with
    troot := d.troot, save := d.save, prof := d.prof, eceil := d.eceil, deleg := d.deleg, hentry := d.hentry, weight := d.weight
    qslots := d.qslots, hsrc := d.hsrc, desc := l.take 64 }

/-- A context number that no context has (R68); which one is free. -/
def State.freeNumber (s : State) : Nat × State :=
  let (f, t) := s.fresh
  let l := (List.range 256).filter fun n => !(s.ctxs.any fun k => k.num == n)
  (l.getD (Config.contextNumber f % l.length) 0, t)

/-- `cxmk` creates a child of p from a descriptor (R69 to R73, R95, R418); none when the descriptor is refused. -/
def State.createCtx (s : State) (p : Nat) (l : List Byte) : Option (State × Nat) :=
  let d := CtxDesc.ofBytes l
  let c := s.ctx p
  match s.namedHerds p d with
  | .none => .none
  | .some herds =>
    if !ctxDescOk l || 4 ≤ c.depth || 256 ≤ s.ctxs.length || !s.mayGive p d.kind herds || s.freeSlots p < d.qslots
        || !s.sourceOk p .none d then .none
    else
      let (n, s) := s.freeNumber
      let shared := d.kind = 1
      let x : Ctx := ({ num := n, parent := .some p, depth := c.depth + 1, herds := herds, timeShared := shared, offset := c.offset
                        ownDeficit := quantum 256, life := if shared then .away else .resident } : Ctx).describe l
      let s : State := { s with ctxs := s.ctxs ++ [x] }
      let s := if shared then s else herds.foldl State.freshHerd s
      .some ((s.bindSource n d).reshare.reschedule, n)

/-- `cxgive` adds to child x of p and replaces its fields (R418, R72, R82); none when the descriptor is refused. -/
def State.giveCtx (s : State) (p x : Nat) (l : List Byte) : Option State :=
  let d := CtxDesc.ofBytes l
  let c := s.ctx x
  match s.namedHerds p d with
  | .none => .none
  | .some herds =>
    if !ctxDescOk l || c.failed || d.kind ≠ (if c.timeShared then 1 else 0) || !s.mayAdd p x herds || d.qslots < c.qslots
        || s.freeSlots p + c.qslots < d.qslots || d.pshare < bytesNat c.desc 0x3C 1 || !s.sourceOk p (.some x) d then .none
    else
      let added := herds.filter fun h => !c.herds.contains h
      let s := if c.timeShared then s else added.foldl State.freshHerd s
      let s := s.modCtx x fun k => { k.describe l with
        herds := k.herds ++ added, budgetStopped := k.budgetStopped && !decide (k.ecnt < d.eceil) }
      .some ((((s.bindSource x d).reshare).flushTlb (s.subtree x)).reschedule)

/-! ### Checks (R423) -/

/-- Register N of a status or a number (R417). -/
def ctxReg (n : BitVec 5) : Res Unit := if n.toNat = 0 || 23 < n.toNat then raise 2 10 else .ok ()

/-- A context number operand (R417). -/
def ctxNumber (v : Word) : Res Nat := if 256 ≤ v.toNat then raise 2 11 else .ok v.toNat

/-- The context of the executing task or handler. -/
def State.mine (s : State) : Nat := (s.R.ctx).getD 0

/-- Child n of a context, not under revocation (R423). -/
def State.isChild (s : State) (x n : Nat) : Bool :=
  match s.ctx? n with
  | .some k => k.parent == .some x && !k.revoking
  | .none => false

/-- Descendant n of a context, not under revocation (R423). -/
def State.isDescendant (s : State) (x n : Nat) : Bool :=
  match s.ctx? n with
  | .some k => n ≠ x && s.within x n && !k.revoking
  | .none => false

/-- A CTX command without a fixed end of the issuing context is in flight (R423, order 6). -/
def State.ctxFree (s : State) : Res Unit :=
  if s.cmds.any fun c => c.ctx == s.mine && c.outstanding && c.lasting then s.busy else .ok ()

/-- The level-3 box of a descriptor of n bytes, and the descriptor's address (R418, R423). -/
def State.descriptorAt (s : State) (p : Word) (h : BitVec 4) (align n : Nat) : Res (BitVec 256 × Nat) := do
  let b ← s.box h.toNat
  if s.level ≠ 3 || !boxReads b || !boxIsI32 b then raise 9
  match pathAddr b p with
  | .none => raise 10
  | .some (va, fin) => if va % align ≠ 0 || fin < va + n then raise 10 else return (b, va)

/-- The read of a descriptor, made as `apset` makes its own, its bundle held open until it is usable (R418). -/
def State.readDescriptor (s : State) (kind : CmdKind) (b : BitVec 256) (va : Nat) : Res State := do
  if s.walkerFull s.cur.herd then s.busy
  let cmd := s.newCmd kind s.cur.herd
  match s.recordAt cmd va .read fun pa => s.apertureOk b pa kind.recordBytes with
  | (_, .error r) => return (← r).awaitEngine
  | (s1, .ok (pa, r)) => return (s1.enterRecord cmd b va pa kind.recordBytes r).awaitEngine

/-- A command that has no fixed end begins; its status will land in scalar n (R420). -/
def State.beginLasting (s : State) (kind : CmdKind) (n : Nat) : State :=
  let c := { s.newCmd kind 96 with promise := s.tick }
  let s : State := { s.prune with nextId := s.nextId + 1 }
  ({ s with cmds := s.cmds ++ [c] } : State).awaitScalar c.id n

/-! ### Instructions -/

/-- `cxmk` (R418). -/
def execCxmk (n p : BitVec 5) (h : BitVec 4) (s : State) : Out :=
  s.answer do
    let path ← s.src p 0
    let s := s.notePbnd [p]
    ctxReg n
    let (b, va) ← s.descriptorAt path h 64 64
    s.ctxFree
    s.readDescriptor (.cxmk n.toNat) b va

/-- `cxgive` (R418). -/
def execCxgive (a p : BitVec 5) (h : BitVec 4) (s : State) : Out :=
  s.answer do
    let (v, path) ← s.src2 a p
    let s := s.notePbnd [a, p]
    let n ← ctxNumber v
    let (b, va) ← s.descriptorAt path h 64 64
    if !s.isChild s.mine n then raise 26
    s.ctxFree
    s.readDescriptor (.cxgive n) b va

/-- `cxrev` (R419, R88, R89). -/
def execCxrev (a : BitVec 5) (s : State) : Out :=
  s.answer do
    let v ← s.src a 0
    let s := s.notePbnd [a]
    let n ← ctxNumber v
    if !s.isChild s.mine n then raise 26
    s.ctxFree
    let l := s.subtree n
    let s := l.foldl (fun s k => s.modCtx k fun c => { c with revoking := true, ctraps := [], entries := [] }) s
    return (s.flushTlb l).reschedule

/-- `cxrun` (R419). -/
def execCxrun (a : BitVec 5) (s : State) : Out :=
  s.answer do
    let v ← s.src a 0
    let s := s.notePbnd [a]
    let n ← ctxNumber v
    if !s.isDescendant s.mine n then raise 26
    s.ctxFree
    let c := s.ctx n
    if c.failed then return s
    else if c.holdsHerds then return s.resumeStopped n (s.tick + 1 + 64 * (c.depth - (s.ctx s.mine).depth))
    else
      let stopped (h : Herd) : Bool := h.cores.any fun k => k.hold == .reflected
      let away := s.kept.any fun k => k.ctx == n && !k.herds.isEmpty
      let any := (s.kept.any fun k => k.ctx == n && k.herds.any stopped)
        || ((c.life == .saving || c.life == .restoring && !away) && (s.ownHerds n).any fun h => stopped (s.herd h))
      return if any then s.modCtx n fun k => { k with runNext := true } else s

/-- `cxsave` (R420). -/
def execCxsave (n b : BitVec 5) (s : State) : Out :=
  s.answer do
    let v ← s.src b 0
    let s := s.notePbnd [b]
    ctxReg n
    let x ← ctxNumber v
    if !s.isChild s.mine x then raise 26
    s.ctxFree
    let id := s.nextId
    let t := s.beginLasting (.cxsave n.toNat x) n.toNat
    if (s.ctx x).saved then return t.planEv (s.tick + 1) 3 engineOrd .cxsaveComplete { a := id, b := x, c := 1 }
    else return (t.modCtx x fun k => { k with saved := true, saveCmd := .some id }).reschedule

/-- The slots of the reads of an image. -/
def State.takeImageReads (s : State) (x base : Nat) : State :=
  (s.imageRanges x base).foldl (fun s p => if p.2 = 0 then s else s.takeRange x p.1 p.2 .read) s

/-- The slots in which `cxload` reads the area of context x and the images of its queues (R248, R420). -/
def State.takeLoadSlots (s : State) (x : Nat) : State :=
  match (s.ctx x).parent.map fun p => s.sliceSpace p (s.ctx x).save 0x10000 with
  | .some (.ok h) =>
    (List.range 16).foldl (fun (s : State) q =>
      let r := h.bytesOf (0x80 + 32 * q) 32
      if bytesNat r 0x1A 1 = 1 || bytesNat r 0x1A 1 = 2 then s.takeImageReads x (bytesNat r 0 8) else s)
      (s.takeArea x (s.areaLines x (markSize h)) .read)
  | _ => s

/-- `cxload` (R420): the header is read first, in a slot and with a delay as R418 gives them; the rest takes a free number of cycles. -/
def execCxload (n b : BitVec 5) (s : State) : Out :=
  s.answer do
    let v ← s.src b 0
    let s := s.notePbnd [b]
    ctxReg n
    let x ← ctxNumber v
    if !s.isChild s.mine x then raise 26
    s.ctxFree
    if (s.ctx x).herds.any s.unusable then raise 26
    let id := s.nextId
    let t := s.beginLasting (.cxload n.toNat x) n.toNat
    let (f, t) := t.fresh
    let t := t.takeLoadSlots x
    return t.planEv (Nat.max (s.tick + 161) t.runsEnd + Config.restoreCycles f) 3 engineOrd .cxloadComplete { a := id, b := x }

/-- The word that `cxpend` reads (R421). -/
def Ctx.pendWord (x : Ctx) (k : Nat) : Word :=
  if k = 6 then BitVec.ofNat 32 (x.ctraps.length % 128 + x.ctrapOvf.toNat * 128) else (x.ctraps.headD []).getD k 0

/-- `cxpend` (R421). -/
def execCxpend (d b : BitVec 5) (s : State) : Out :=
  s.answer do
    let v ← s.src b 0
    let s := s.notePbnd [b]
    if v &&& 0xFFFFFEF8#32 ≠ 0 || v.toNat % 8 = 7 then raise 2 11
    s.ctxFree
    s.room 2 0
    let x := s.mine
    let t := s.put 2 (.scalar d.toNat) (wide ((s.ctx x).pendWord (v.toNat % 8)))
    return if v.getLsbD 8 then t.modCtx x fun k => { k with ctraps := k.ctraps.drop 1 } else t

/-- The slots of the reads of an image and of the writes of its data records (R62, R248). -/
def State.takeImageSlots (s : State) (x base : Nat) : State :=
  let records : List (Nat × Nat) := match s.parseImage x base with | .some m => m.2.map fun p => (p.1, p.2.length) | .none => []
  records.foldl (fun s p => if p.2 = 0 then s else s.takeRange x p.1 p.2 .write) (s.takeImageReads x base)

/-- `cxq` (R422). -/
def execCxq (n p : BitVec 5) (h : BitVec 4) (s : State) : Out :=
  s.answer do
    let path ← s.src p 0
    let s := s.notePbnd [p]
    ctxReg n
    let (b, va) ← s.descriptorAt path h 32 32
    s.ctxFree
    s.readDescriptor (.cxq n.toNat) b va

/-! ### Completions -/

/-- The fault at the bundle of a command that reads a descriptor (R418): the bad-context fault, or the herd-withheld one. -/
def State.badContext (s : State) (c : Cmd) (withheld : Bool := false) : State :=
  match s.reopen c.herd c.core with
  | .none => s
  | .some s => (s.trapHere { cls := if withheld then 25 else 26 } 7 s.cur.pc .none).modCmd c.id fun c => { c with outstanding := false }

/-- Whether a descriptor that is refused names a herd given away spatially for which R70 and R72 name no other fault: the herd-withheld
fault (R71; DEDUCED, log entry 55). R70 gives the bad-context fault where `cxmk` makes a spatial child, R72 where `cxgive` adds to a
time-shared one. -/
def State.withheld (s : State) (p : Nat) (spatial : Bool) (has : List Nat) (l : List Byte) : Bool :=
  let held := (s.ctx p).herds
  spatial && ((CtxDesc.ofBytes l).hset.filterMap fun v => held[v]?).any fun h => !has.contains h && s.givenAway p h

/-- Whether the bundle of a command still waits for its descriptor, which has arrived. -/
def State.descriptorHere (s : State) (c : Cmd) : Bool :=
  !c.record.isEmpty && !(s.ctx c.ctx).failed && (s.core c.herd c.core).hold == .engine

/-- CXMK_COMPLETE (R418): the descriptor of command ev.a is usable. -/
def execCxmkComplete (s : State) : Out :=
  .next (match s.cmd? s.ev.a with
    | .none => s
    | .some c => match c.kind with
      | .cxmk n =>
        if !s.descriptorHere c then s
        else match s.createCtx c.ctx c.record with
          | .none => s.badContext c (s.withheld c.ctx ((CtxDesc.ofBytes c.record).kind == 1) [] c.record)
          | .some (t, x) => t.endEngine c.herd c.core (s.tick + 1) fun t => t.put 1 (.scalar n) (BitVec.ofNat 512 x)
      | _ => s)

/-- CXGIVE_COMPLETE (R418): the descriptor of command ev.a is usable. -/
def execCxgiveComplete (s : State) : Out :=
  .next (match s.cmd? s.ev.a with
    | .none => s
    | .some c => match c.kind with
      | .cxgive x =>
        if !s.descriptorHere c then s
        else if !s.isChild c.ctx x then s.badContext c
        else match s.giveCtx c.ctx x c.record with
          | .none => s.badContext c (s.withheld c.ctx (!(s.ctx x).timeShared) (s.ctx x).herds c.record)
          | .some t => t.endEngine c.herd c.core (s.tick + 1)
      | _ => s)

/-- The status of a command lands in its scalar; for a context that is not resident, first of all after its restore (R420, R389). -/
def State.ctxStatus (s : State) (id : Nat) (i : Instr) (v : Word) : State :=
  match s.cmd? id with
  | .none => s
  | .some c =>
    let n := match c.kind with | .cxq n | .cxsave n _ | .cxload n _ => n | _ => 0
    let held (k : Kept) : Bool := k.ctx == c.ctx && !k.herds.isEmpty
    let wait (k : Kept) : Kept :=
      if held k then { k with agenda := k.agenda ++ [{ at_ := k.tick + 1, phase := 3, ord := engineOrd, act := .ev i { a := id, c := 2, words := [v] } }] }
      else k
    if (s.ctx c.ctx).failed then s.modCmd id fun c => { c with outstanding := false }
    else if s.kept.any held then { s with kept := s.kept.map wait }
    else (s.engineScalar c n v).modCmd id fun c => { c with outstanding := false }

/-- A status whose command's context has ended before it completed: the spec gives none. -/
def State.lostStatus (s : State) (id : Nat) (i : Instr) : State :=
  let (f, s) := s.fresh
  s.ctxStatus id i (Config.lostStatus f)

/-- CXQ_COMPLETE (R422): with ev.c = 0 the descriptor of command ev.a is usable; with 1 the configuration completes; with 2 its status
lands after a restore. -/
def execCxqComplete (s : State) : Out :=
  .next (match s.cmd? s.ev.a with
    | .none => s
    | .some c => match c.kind with
      | .cxq n =>
        let b := bytesNat c.record 0x19 1
        let x := if b = 0 then c.ctx else b
        if s.ev.c = 2 then s.ctxStatus c.id .cxqComplete (s.ev.words.headD 0)
        else if s.ev.c = 0 then
          if !s.descriptorHere c then s
          else if b ≠ 0 && !s.isChild c.ctx x then s.badContext c
          else
            let (f, s) := s.fresh
            let s := (s.takeImageSlots x (bytesNat c.record 0 8)).modRegs c.herd c.core fun r => { r with engPend := (c.id, n) :: r.engPend }
            (s.endEngine c.herd c.core (s.tick + 1)).planEv (Nat.max (s.tick + 94) s.runsEnd + Config.configCycles f) 3 engineOrd .cxqComplete
              { a := c.id, c := 1 }
        else if (s.ctx c.ctx).failed then s
        else if (s.ctx? x).isNone || (s.ctx x).revoking then s.lostStatus c.id .cxqComplete
        else
          let (t, v) := s.configure x c.record
          (t.ctxStatus c.id .cxqComplete (BitVec.ofNat 32 v)).reschedule
      | _ => s)

/-- The area of a context that stands away and has never been saved: its state is zero (R409). -/
def State.saveUnused (s : State) (n : Nat) : State :=
  let x := s.ctx n
  if x.life ≠ .away || s.kept.any (fun k => k.ctx == n) then s
  else
    let k : Kept := { ctx := n, vcyc := s.vcyc n, tick := s.tick, herds := x.herds.map fun _ => {}, cmds := [], calls := [], agenda := [] }
    let l := s.areaStretches k
    let s := (s.charge n 11 (linesMoved l)).charge n 12 (linesMoved l)
    let k := { k with header := headerBytes l, places := x.herds }
    match x.parent with
    | .none => s
    | .some p =>
      if s.areaBad p x.save l then s.fatal n 3 0
      else match s.writeArea p x.save l with
        | .error f => s.areaRefused n f
        | .ok t => ({ t with kept := k :: t.kept } : State).writeProfile n

/-- CXSAVE_COMPLETE (R420): the save of context ev.b for command ev.a is whole; with ev.c = 1 it already was; with 2 the status lands
after a restore. -/
def execCxsaveComplete (s : State) : Out :=
  .next (if s.ev.c = 2 then s.ctxStatus s.ev.a .cxsaveComplete (s.ev.words.headD 0)
    else if s.ev.c = 1 && (s.ctx? s.ev.b).isSome then s.ctxStatus s.ev.a .cxsaveComplete 1
    else
      let s := if (s.ctx? s.ev.b).isSome then (s.subtree s.ev.b).foldl State.saveUnused s else s
      if (s.ctx? s.ev.b).isNone then s.lostStatus s.ev.a .cxsaveComplete
      else s.ctxStatus s.ev.a .cxsaveComplete 0)

/-- Whether `cxload` may read a context's area: it is saved, or nothing has been done with it yet (R420). -/
def State.loadable (s : State) (n : Nat) : Bool :=
  let x := s.ctx n
  x.saved || (x.configured == 0 && !(s.kept.any fun k => k.ctx == n) && !x.failed)

/-- A header that `cxload` accepts (R420). -/
def headerOk (x : Ctx) (h : Mem) : Bool :=
  let f := leNat (h.bytesOf 0x0A 2)
  h.bytesOf 0 4 == [0x5A#8, 0x46#8, 0x53#8, 0x41#8] && leNat (h.bytesOf 4 2) == 1 && f % 2 == 1 && f / 2 % 2 == 0
    && leNat (h.bytesOf 6 2) == x.herds.length

/-- The image of a frame after its context's queues have taken their images again. -/
def Frame.reimage (x : Ctx) (f : Frame) : Nat := if (x.queue f.queue).state = 0 then f.image else (x.queue f.queue).image

/-- The image numbers of frames and calls follow the images of their queues. -/
def Regs.reimage (x : Ctx) (r : Regs) : Regs := { r with frame := r.frame.map fun f => { f with image := f.reimage x } }

def Core.reimage (x : Ctx) (k : Core) : Core := { k with r := k.r.reimage x, susp := k.susp.map (Regs.reimage x) }

/-- The state of a loaded context (R420): what was kept of it or of the context that the area is from, or what its area alone says. -/
def State.loadKept (s : State) (n : Nat) (a : Area) : State × Kept :=
  let x := s.ctx n
  match s.keptOf n a.header with
  | .some k =>
    let image (q : Call) : Call :=
      let f := ((k.herds.getD (x.virtOf q.herd) {}).cores.getD q.core {}).r.frame
      { q with image := (f.map fun f => f.reimage x).getD q.image }
    ({ s with nextId := 2 * s.nextId },
     { k with
       herds := k.herds.map fun h => { h with cores := h.cores.map (Core.reimage x) }
       calls := k.calls.map image
       header := (List.range 0x904).map fun i => a.header.read i })
  | .none => s.buildArea n a

/-- CXLOAD_COMPLETE (R420): context ev.b is loaded from its area for command ev.a; with ev.c = 2 the status lands after a restore. -/
def execCxloadComplete (s : State) : Out :=
  let n := s.ev.b
  let done (s : State) (v : Word) : State := s.ctxStatus s.ev.a .cxloadComplete v
  .next (if s.ev.c = 2 then done s (s.ev.words.headD 0)
    else match s.ctx? n with
      | .none => s.lostStatus s.ev.a .cxloadComplete
      | .some x =>
        if x.revoking then s.lostStatus s.ev.a .cxloadComplete
        else if !s.loadable n || x.saveCmd.isSome then done s 1
        else match s.sliceSpace ((x.parent).getD 0) x.save 0x10000 with
          | .error f => (s.areaRefused n f).lostStatus s.ev.a .cxloadComplete
          | .ok header =>
            if !headerOk x header then done s 1
            else match s.readArea n with
              | .error f => (s.areaRefused n f).lostStatus s.ev.a .cxloadComplete
              | .ok a =>
                if s.areaLost n a then (s.fatal n 3 0).lostStatus s.ev.a .cxloadComplete
                else
                  let written := ((s.kept.find? fun k => k.ctx == n).map (·.header)).getD []
                  match (s.modCtx n fun x => x.takeHeader written header).reconfigure n with
                  | .none => done s 2
                  | .some t =>
                    let (t, k) := t.loadKept n a
                    let t : State := { t with kept := k :: t.kept.filter fun q => q.ctx ≠ n }
                    let t := t.openWindows n k a.frames
                    ((done (t.modCtx n fun x => { x with saved := false, life := .away }) 0)).reschedule)

/-- REVOCATION_COMPLETE (R88, R89): the revoked subtree of context ev.a has stopped and stands saved; its contexts end and the
revocation class is raised at the parent. -/
def execRevocationComplete (s : State) : Out :=
  let n := s.ev.a
  .next (match s.ctx? n with
    | .none => s
    | .some _ =>
      let s := (s.subtree n).foldl State.saveUnused s
      match s.ctx? n with
      | .none => s
      | .some x =>
        let p := (x.parent).getD 0
        let y := s.firstTaker 30 (s.chain p)
        let steps := x.depth - (s.ctx y).depth
        let r := trapRecord true 0 { cls := 30 } n steps 0 (s.vcyc n)
        ((s.endContext n).reflect y steps r).reschedule)

end Sys2Proof.Machine
end

