-- ==== Sys2Proof/Machine/Platform.lean ====
section
/-! DEFINITION. Platform.lean: service and management (R192, R428 to R430, R435 to R443): warnings and trips, degraded operation, the
configuration image and reset, attestation, and the SMBus sideband. -/

namespace Sys2Proof.Machine

/-! ### Status -/

/-- The service-request status word (R439). -/
def State.srs (s : State) : Word :=
  let p := s.plat
  let degraded := (s.ports.filter fun q => q.deg).length
  BitVec.ofNat 32 (p.sr.toNat * 2 ^ 31 + p.thw.toNat * 2 ^ 30 + p.cuw.toNat * 2 ^ 29 + Nat.min 255 p.pcret * 2 ^ 16
    + Nat.min 255 p.bankret * 2 ^ 8 + (p.spareUsed.getD 1 false).toNat * 2 ^ 6 + (p.spareUsed.getD 0 false).toNat * 2 ^ 5
    + degraded % 32)

/-! ### Warnings and trips (R428 to R430) -/

/-- CURRENT_WARNING (R429). -/
def execCurrentWarning (s : State) : Out := .next ((s.modPlat fun p => { p with cuw := true }).manage evCurrent)

/-- CURRENT_WARNING_END (R439). -/
def execCurrentWarningEnd (s : State) : Out := .next (s.modPlat fun p => { p with cuw := false })

/-- THERMAL_WARNING (R429). -/
def execThermalWarning (s : State) : Out := .next ((s.modPlat fun p => { p with thw := true }).manage evThermal)

/-- THERMAL_WARNING_END (R439). -/
def execThermalWarningEnd (s : State) : Out := .next (s.modPlat fun p => { p with thw := false })

/-- TRIP (R430): from this cycle on nothing of the device acts but the mailbox engine's answers and the sideband. -/
def execTrip (s : State) : Out :=
  .next (if s.plat.tripped then s else (s.modPlat fun p => { p with tripped := true }).manage evTrip)

/-! ### Degraded operation (R192, R435, R441, R442) -/

/-- HM_BANK_RETIRE (R192): bank ev.b of herd ev.a (18 to a group: 16 data, 2 check). At most one of a group is retired; a second hard
fault leaves the group's reads uncorrectable. -/
def execHmBankRetire (s : State) : Out :=
  let b := s.ev.b
  let known := (s.herd s.ev.a).retired
  .next (if 36 ≤ b || known.contains b then s
    else
      let first := !(known.any fun k => k / 18 == b / 18)
      let s := s.modHerd s.ev.a fun h => { h with retired := b :: h.retired }
      if first then (s.modPlat fun p => { p with bankret := Nat.min 255 (p.bankret + 1) }).degrade evBank else s)

/-- HERD_FAILURE (R441): the herd that root virtual number ev.a stands on is marked failed. -/
def execHerdFailure (s : State) : Out :=
  .next (if s.plat.failedHerds.contains s.ev.a || 96 ≤ s.ev.a then s
    else s.modPlat fun p => { p with failedHerds := p.failedHerds ++ [s.ev.a] })

/-- PSEUDO_CHANNEL_RETIRE (R442): channel ev.a; when RESV holds no room for it, it stays in service and SR alone is set. -/
def execPseudoChannelRetire (s : State) : Out :=
  let pc := s.ev.a
  .next (if s.plat.retired.any fun r => r.channel == pc then s
    else if s.plat.cfg.resv / 64 < linesFilled (s.plat.retired ++ [{ channel := pc, copied := false }]) then
      s.modPlat fun p => { p with sr := true }
    else
      let (f, s) := s.fresh
      let s := s.modPlat fun p => { p with
        retired := p.retired ++ [{ channel := pc, copied := false }], pcret := Nat.min 255 (p.pcret + 1) }
      ((s.degrade evChannel).takeOpen (2 * channelLines pc)).planEv (s.tick + 1 + Config.retireCopyCycles f) 0 0 .resvCopyComplete { a := pc })

/-- The mailbox accesses that hold a slot: the entry, the slot's first cycle, the lines. -/
def State.heldMail (s : State) : List (Due × Nat × List Nat) :=
  s.agenda.filterMap fun d => match d.act with
    | .ev i g =>
      let lines := linesOf (mailBytes g.req g.word.toNat g.c)
      if g.req.space = 1 || g.a ≠ 0 then .none
      else if i = .mailboxRead && d.phase = 1 then .some (d, d.at_, lines)
      else if i = .mailboxWrite && d.phase = 2 then .some (d, d.at_ - 10, lines)
      else .none
    | _ => .none

/-- The slots of mailbox requests that have not begun are reserved again where another channel than `was` says serves a line of theirs now,
with those after them that would overtake them; so are the reads of their table entries (R331, R442). -/
def State.remail (s : State) (was : Nat → Nat) : State :=
  let held := s.heldMail.filter fun p => decide (s.tick < p.2.1)
  let s := s.agenda.foldl (fun s d => match d.act with
    | .slotUse _ line =>
      if was line != s.channelOf line && decide (s.tick < d.at_) && !(held.any fun p => p.2.1 == d.at_ && p.2.2.contains line) then
        let u := s.freeSlot (s.channelOf line) d.at_
        ((({ s with agenda := s.agenda.erase d } : State).dropSlot (was line) d.at_).takeSlot (s.channelOf line) u).plan u 1 0 d.act
      else s
    | _ => s) s
  (held.foldl (fun (acc : State × Nat) p =>
    let (s, after) := acc
    let (d, t, lines) := p
    let write := decide (d.phase = 2)
    let least := if write then after - 10 else after + 1
    if !(lines.any fun line => was line != s.channelOf line) && (after = 0 || decide (least ≤ t)) then (s, Nat.max after d.at_)
    else
      let s := ((lines.map was).eraseDups).foldl (fun s pc => s.dropSlot pc t) s
      let mine (e : Due) : Bool := e.at_ == t && match e.act with | .slotUse _ line => lines.contains line | _ => false
      let uses := s.agenda.filter mine
      let s : State := { s with agenda := (s.agenda.filter fun e => !mine e).erase d }
      let pcs := (lines.map s.channelOf).eraseDups
      let u := s.commonSlot pcs (Nat.max t (if after = 0 then 0 else least))
      let s := pcs.foldl (fun s pc => s.takeSlot pc u) s
      let s := uses.foldl (fun s e => s.plan u e.phase e.ord e.act) s
      (s.plan (u + (d.at_ - t)) d.phase d.ord d.act, Nat.max after (u + (d.at_ - t)))) (s, 0)).1

/-- RESV_COPY_COMPLETE (R442): the lines of channel ev.a are served from RESV, from the end of the slot in progress on, and what is
reserved on the channel from now on is reserved anew (log entry 23). -/
def execResvCopyComplete (s : State) : Out :=
  let t := s.modPlat fun p => { p with
    retired := p.retired.map fun r => if r.channel == s.ev.a then { r with copied := true } else r }
  .next ((t.rechannel s.channelOf).remail s.channelOf)

/-- LANE_FAILURE (R435): port ev.a retrains on 3 lanes; it is down until PORT_TRAINED publishes its new latency. -/
def execLaneFailure (s : State) : Out :=
  .next (if 24 ≤ s.ev.a || (s.port s.ev.a).deg then s
    else (s.modPort s.ev.a fun q => { q with up := false, deg := true, offValid := false }).degrade evLane)

/-! ### The configuration image and reset (R436, R437, R90) -/

/-- A configuration image's fields (R436). -/
def ConfigImage.ofBytes (l : List Byte) : ConfigImage :=
  { spare0 := bytesNat l 8 1, spare1 := bytesNat l 9 1, porten := BitVec.ofNat 24 (bytesNat l 0x0C 3)
    wclass := (List.range 4).map fun i => BitVec.ofNat 32 (bytesNat l (0x10 + 4 * i) 4)
    group := BitVec.ofNat 32 (bytesNat l 0x20 4), refport := bytesNat l 0x24 1, gcyc0 := bytesNat l 0x28 8
    resv := bytesNat l 0x30 8, rdeleg := BitVec.ofNat 32 (bytesNat l 0x38 4), rhentry := BitVec.ofNat 32 (bytesNat l 0x3C 4) &&& 0x8000FFFF#32
    bytes := l }

/-- A body that breaks no rule of R436; REFPORT names a port or is 0x1F. No rule checks its reserved fields, which the device ignores
(R8). -/
def configOk (l : List Byte) : Bool :=
  let c := ConfigImage.ofBytes l
  decide (64 ≤ l.length) && l.take 4 == [0x5A#8, 0x46#8, 0x43#8, 0x46#8] && bytesNat l 4 2 == 1
    && decide (c.spare0 ≤ 48) && decide (49 ≤ c.spare1) && decide (c.spare1 ≤ 97)
    && (decide (c.refport < 24) || c.refport == 31) && c.resv % 2 ^ 21 == 0 && decide (c.resv ≤ deviceBytes)

/-- Where the root's herds lie: the 96 herds that are not spares, in ascending order (R90). -/
def ConfigImage.placement (c : ConfigImage) : List Nat := (List.range 98).filter fun p => p ≠ c.spare0 && p ≠ c.spare1

/-- What comes from outside the device, and outlasts a reset. -/
def Act.outside : Act → Bool
  | .mailArrive _ _ | .upset _ => true
  | .ev i _ => match i with
    | .timedFlitArrive | .beaconReceive | .portTrained | .laneFailure | .currentWarning | .thermalWarning | .trip | .reset
    | .hmBankRetire | .herdFailure | .pseudoChannelRetire | .smbusReadSrs | .smbusClearSr | .smbusReadEvent | .smbusStartReport
    | .smbusReadReport | .smbusReset | .thermalWarningEnd | .currentWarningEnd | .dramRetry => true
    | _ => false
  | _ => false

/-- A reset with a configuration image: the device as at State.reset, with that image applied; memories keep their bytes, and a bank
with a hard fault stays retired; a refused image leaves no root (R436). -/
def State.restart (s : State) (image : List Byte) (signed : Bool) : State :=
  let ok := signed && configOk image
  let c : ConfigImage := if ok then ConfigImage.ofBytes image else { bytes := image }
  let old := s.herds
  let herds := old.map fun h : Herd => { ({} : Herd) with hm := h.hm, lm := h.lm, hmBad := h.hmBad, lmBad := h.lmBad, retired := h.retired }
  let reference := c.group = 0 || c.refport = 31
  { State.reset with
    tick := s.tick
    clock := s.clock
    gcyc := if c.group ≠ 0 && c.refport = 31 then c.gcyc0 else 0
    gcycSet := reference
    agenda := s.agenda.filter fun d => d.act.outside
    inputs := s.inputs
    sent := s.sent
    settled := s.settled
    herds := herds
    dev := s.dev
    devBad := s.devBad
    ctxs := if ok then [Ctx.root c] else []
    plat := { cfg := c, configured := ok, physical := c.placement, resets := s.plat.resets + 1 }
    wclass := c.wclass
    nextId := s.nextId
    freeCount := s.freeCount }

/-- RESET (R436): with the configuration image ev.bytes, whose signature verifies or not (ev.ok). It does not come through the
management controller, so it ends no trip (R430). -/
def execReset (s : State) : Out := .next (if s.plat.tripped then s else s.restart s.ev.bytes s.ev.ok)

/-! ### Attestation (R438) -/

/-- The first n bytes of a list, zeros where it ends before. -/
def field (n : Nat) (l : List Byte) : List Byte := (l ++ List.replicate n 0).take n

/-- The applied image, body and signature (R436, R437); one that was given as its body alone has a free signature. -/
def ConfigImage.whole (c : ConfigImage) : List Byte :=
  if c.bytes.length ≤ 64 then c.bytes ++ field 16224 Config.imageSignature else c.bytes

/-- Bytes 0x00 to 0xA7 of a report, built in this cycle. -/
def State.reportBody (s : State) (nonce : List Byte) : List Byte :=
  [0x5A, 0x46, 0x41, 0x54, 1, 0, 0, 0] ++ field 48 (Config.identityKey s.plat.resets) ++ field 32 nonce ++ field 32 Config.firmwareHash
    ++ sha256 s.plat.cfg.whole ++ leBytes 4 s.srs.toNat ++ [0, 0, 0, 0] ++ leBytes 8 s.gcyc

/-- REPORT_READY (R438): the report that the pending nonce asked for is built and signed. -/
def execReportReady (s : State) : Out :=
  .next (match s.plat.reportPending with
    | .none => s
    | .some nonce =>
      let body := s.reportBody nonce
      let sig := Config.signature s.plat.resets body
      s.modPlat fun p => { p with report := .some (body ++ field 16224 sig), reportPending := .none })

/-! ### The sideband (R443) -/

/-- Bytes that an SMBus read returns. -/
def State.smbus (s : State) (l : List Byte) : State := { s with sent := .smbus l :: s.sent }

/-- SMBUS_READ_SRS (R443). -/
def execSmbusReadSrs (s : State) : Out := .next (s.smbus (leBytes 4 s.srs.toNat))

/-- SMBUS_CLEAR_SR (R443, R439): the word written is the low half of ev.word. -/
def execSmbusClearSr (s : State) : Out := .next (if s.ev.word.getLsbD 31 then s.modPlat fun p => { p with sr := false } else s)

/-- The 8 bytes of a management event: its code, then `gcyc` (R443; the code and how many bytes it takes are free). -/
def eventBytes (kind gcyc : Nat) : List Byte :=
  let w := 1 + Config.eventCodeWidth % 7
  leBytes w (Config.eventCode kind) ++ leBytes (8 - w) gcyc

/-- SMBUS_READ_EVENT (R443). -/
def execSmbusReadEvent (s : State) : Out :=
  .next (match s.plat.events with
    | [] => s.smbus (List.replicate 8 0)
    | e :: l => (s.modPlat fun p => { p with events := l }).smbus (eventBytes e.1 e.2))

/-- SMBUS_START_REPORT (R443, R438): with the nonce ev.bytes; a report that stands ready or is being built is given up. -/
def execSmbusStartReport (s : State) : Out :=
  let (f, s) := s.fresh
  let building (d : Due) : Bool := match d.act with | .ev .reportReady _ => true | _ => false
  let s : State := { s with agenda := s.agenda.filter fun d => !building d }
  let s := s.modPlat fun p => { p with report := .none, reportPending := .some (field 32 s.ev.bytes) }
  .next (s.planEv (s.tick + 1 + Config.reportCycles f) 0 0 .reportReady {})

/-- SMBUS_READ_REPORT (R443): 64 bytes from 64 × ev.a on. -/
def execSmbusReadReport (s : State) : Out :=
  let l := (s.plat.report).getD []
  .next (s.smbus ((List.range 64).map fun i => l.getD (64 * (s.ev.a % 256) + i) 0))

/-- SMBUS_RESET (R443): a trip ends, the identity is derived anew, and the configuration image is applied again. -/
def execSmbusReset (s : State) : Out := .next (s.restart s.plat.cfg.bytes s.plat.configured)

end Sys2Proof.Machine
end

