-- ==== Sys2Proof/Machine/Cycle.lean ====
section
/-! DEFINITION. Cycle.lean: what one step of the machine does around the meaning of an instruction: the agenda of a device cycle,
the commit of a bundle's syllables in canonical order (R386, R388) and its hold as one unit (R139), the end of the cycle, and
the arrival of what comes from outside. The meanings stand as an argument, so that this file does not depend on the dispatch. -/

namespace Sys2Proof.Machine

/-- The meanings of the instructions. -/
abbrev Meaning := Instr → State → Out

/-! ### A bundle -/

/-- Whether a syllable still to commit would hold the bundle (R139): a slot that faults holds it no longer than the others ask. -/
def State.wouldHold (exec : Meaning) : List Syl → State → Bool
  | [], _ => false
  | y :: l, s =>
    let s := s.select y l
    if s.guardTrue y.slot y.guard then
      match exec y.instr s with
      | .next t => t.cur.mustHold || State.wouldHold exec l (if t.cur.trapped then s else t)
      | _ => false
    else State.wouldHold exec l s

/-- The syllables commit one at a time in slot order (R386). `s0` is the state to which the bundle returns when it must be held. -/
def State.commitFrom (exec : Meaning) (s0 : State) (h c : Nat) : List Syl → State → Out
  | [], s => .next s.closeBundle
  | y :: l, s =>
    let s := s.select y l
    match s.unitFault y with
    | .some t => .next (s.trapHere t y.slot s.cur.pc .none).closeBundle
    | .none =>
      if s.guardTrue y.slot y.guard then
        match exec y.instr s with
        | .next t =>
          if t.cur.mustHold then .next (s0.holdBundle h c)
          else if t.cur.trapped then
            if s.interlocked && s.wouldHold exec l then .next (s0.holdBundle h c) else .next t.closeBundle
          else State.commitFrom exec s0 h c l ((t.commit ((s.R.ctx).getD 0) y).holdVector y)
        | e => e
      else State.commitFrom exec s0 h c l (s.holdVector y)

/-- Whether an asynchronous trap that core (h, c) would take at its bundle waits with it, since the bundle would be held: the trap is
taken at the bundle that issues when the hold ends (R387). -/
def State.trapWaits (exec : Meaning) (h c : Nat) (s : State) : Bool :=
  let k := s.core h c
  if k.asyncs.isEmpty && (s.ctx ((k.r.ctx).getD 0)).entries.isEmpty then false
  else if !k.ready s.tick || k.held || s.stillHeld k then false
  else
    let (s, f) := s.opened h c
    match f with
    | .bundle l => s.interlocked && s.asyncTaken.isSome && State.wouldHold exec l s
    | _ => false

/-- A core's bundle, from its issue to its end, in one step (R133, R386). -/
def State.runBundle (exec : Meaning) (h c : Nat) (s0 : State) : Out :=
  if s0.trapWaits exec h c then .next (s0.holdBundle h c)
  else match exec .bundleIssue { s0 with ev := { a := h, b := c } } with
  | .next s =>
    match s.latch with
    | [] =>
      let open_ := (s.core h c).lastIssue == .some s.tick && s.cur.herd == h && s.cur.core == c
      if open_ then .next s.closeBundle else .next s
    | l => State.commitFrom exec s0 h c l s
  | e => e

/-! ### Copies that a bundle of the same cycle ends (R201, R202, R387) -/

/-- How many walker bank conflicts are pending at core (h, c). -/
def State.conflictsAt (s : State) (h c : Nat) : Nat := ((s.core h c).asyncs.filter fun a => a.cls == 5).length

/-- Whether core (h, c) has a copy that a bank conflict would end (R201). -/
def State.exposedCopy (s : State) (h c : Nat) : Bool :=
  s.cmds.any fun k => k.herd == h && k.core == c && !k.interlocked && k.outstanding && k.beats.any fun b => !b.performed && !b.abandoned

/-- Whether the bundle of another core that is due in this cycle ends a copy of core (h, c): its fault is raised in the cycle of the conflict,
so that the bundle which (h, c) issues in this cycle takes it (R201, R387). -/
def State.conflictComes (exec : Meaning) (h c : Nat) (s : State) : Bool :=
  s.exposedCopy h c && s.agenda.any fun d =>
    match d.act with
    | .ev i g => i = .bundleIssue && decide (d.at_ ≤ s.tick) && d.phase = 3 &&
        match s.runBundle exec g.a g.b with
        | .next t => decide (s.conflictsAt h c < t.conflictsAt h c)
        | _ => false
    | _ => false

/-- A core's bundle that is due; once, it lets the other bundles of the cycle go first where one of them ends a copy of the core
(ev.c = 1 says that it has; log entry 16). -/
def State.runDue (exec : Meaning) (g : EvArg) (s : State) : Out :=
  if g.c = 0 && s.conflictComes exec g.a g.b then
    .next (s.planEv s.tick 3 (2 ^ 19 + s.issueOrd g.a g.b) .bundleIssue { g with c := 1 })
  else s.runBundle exec g.a g.b

/-! ### The agenda -/

/-- What a tripped device still does (R430, R443): the mailbox engine answers, sensors and sideband act; a reset through the
management controller ends the trip, and no other. Memories may err. -/
def Act.whenTripped : Act → Bool
  | .mailArrive _ _ | .upset _ => true
  | .ev i _ => isMailEvent i || match i with
    | .currentWarning | .currentWarningEnd | .thermalWarning | .thermalWarningEnd | .smbusReadSrs | .smbusClearSr
    | .smbusReadEvent | .smbusStartReport | .smbusReadReport | .smbusReset | .reportReady => true
    | _ => false
  | _ => false

/-- What an entry of the agenda does. -/
def State.runAct (exec : Meaning) (a : Act) (s : State) : Out :=
  if s.plat.tripped && !a.whenTripped then .next s else
  match a with
  | .ev i arg =>
    match i with
    | .bundleIssue => s.runDue exec arg
    | _ => exec i { s with ev := arg }
  | .tileRows h c => .next (s.nextRows h c)
  | .arraySample h cmd k => .next (s.sampleArray h cmd k)
  | .mread h c n q t seq => .next (s.sampleRead h c n q t seq)
  | .accZero h n => .next (s.zeroAcc h n)
  | .killMarks h c scalars t rows => .next (s.markDead h c scalars t rows)
  | .leaseWrite h e l => .next (s.writeLease h e l)
  | .mailArrive src q => .next (s.mailArrive src q)
  | .upset u => .next (s.upset u)
  | .flitStart item => .next { s with sent := item :: s.sent }
  | .promiseTrap cmd => .next (s.promiseTrap cmd)
  | .beatSample cmd b line => .next (s.sampleBeat cmd b line)
  | .blockSample cmd b line => .next (s.sampleBlock cmd b line)
  | .recSample cmd => .next (s.sampleRecord cmd)
  | .slotUse x _ => .next (s.charge x 12 1)
  | .walkRead x line addr => .next (s.walkSample x line addr)
  | .linkPlace h b => .next (s.claimLink h b)
  | .pairWrite p i e => .next (s.writePair p i e)
  | .asyncDue h c a => .next (s.raiseAsync h c a)
  | .fatalStop x => .next (s.stopDead x)
  | .rootStop q => .next (s.endRootProgram q)
  | .programEnd x q => .next (s.endProgram x q)
  | .frameSave x h c => .next (s.saveFrame x h c)
  | .fatalDue x cause addr => .next (s.fatal x cause addr)

/-- An input that is taken up n clock cycles after it arrived: a timed flit and a beacon say so (R343 to R345). -/
def Act.takenLate (n : Nat) : Act → Act
  | .ev i g => if i = .timedFlitArrive || i = .beaconReceive then .ev i { g with c := n } else .ev i g
  | a => a

/-- The inputs whose clock cycle has come, in the order in which they stand. -/
def State.takeInputs (s : State) : State :=
  let due := s.inputs.filter fun p => decide (p.1 ≤ s.clock)
  let s := { s with inputs := s.inputs.filter fun p => !decide (p.1 ≤ s.clock) }
  due.foldl (fun (s : State) (p : Nat × Act) => s.plan s.tick 0 0 (p.2.takenLate (s.clock - p.1))) s

/-- The next device cycle. -/
def State.nextCycle (s : State) : State :=
  ({ s with tick := s.tick + 1, clock := s.clock + 1, gcyc := s.gcyc + 1, settled := false } : State).takeInputs

/-- One step: a clock cycle in which the device is held; or the first thing due in this cycle; or the end of the cycle, which comes
before the tests that are due at its end (phase 5); or the next cycle. -/
def State.advance (exec : Meaning) (s : State) : Out :=
  if 0 < s.held then .next { s with held := s.held - 1, clock := s.clock + 1 }
  else
    match s.agenda with
    | d :: l =>
      if d.at_ ≤ s.tick && (s.settled || decide (d.phase < 5)) then { s with agenda := l }.runAct exec d.act
      else if s.settled then .next s.nextCycle
      else .next s.settle
    | [] => if s.settled then .next s.nextCycle else .next s.settle

end Sys2Proof.Machine
end

