-- ==== Sys2Proof/Machine/Scalar.lean ====
section
/-! DEFINITION. Scalar.lean: the meanings of the scalar and path syllables of slots A and B: INT, INTI, FPS, CMP, BIT, PATH and
F20 (R171 to R186), each a line over the shared shapes of Flags.lean, and the functions of words they compute. -/

namespace Sys2Proof.Machine

/-! ### Functions of words -/

/-- A signed result clamped to 32 bits (R173). -/
def clampS (v : Int) : Word := BitVec.ofInt 32 (max (-(2 ^ 31)) (min (2 ^ 31 - 1) v))

/-- An unsigned result clamped to 32 bits (R173). -/
def clampU (v : Int) : Word := BitVec.ofInt 32 (max 0 (min (2 ^ 32 - 1) v))

/-- `add` by variant: wrapping, signed-saturating, unsigned-saturating (R173). -/
def addVariant (v : BitVec 2) (x y : Word) : Word :=
  if v = 0 then x + y else if v = 1 then clampS (x.toInt + y.toInt) else clampU ((x.toNat : Int) + y.toNat)

/-- `sub` by variant (R173). -/
def subVariant (v : BitVec 2) (x y : Word) : Word :=
  if v = 0 then x - y else if v = 1 then clampS (x.toInt - y.toInt) else clampU ((x.toNat : Int) - y.toNat)

/-- `div` and `div.rem` with the corners of R174: the quotient truncates, the remainder takes the sign of a. -/
def divSigned (rem : Bool) (x y : Word) : Word :=
  if y = 0 then (if rem then x else BitVec.allOnes 32)
  else if x = 0x80000000#32 && y = BitVec.allOnes 32 then (if rem then 0 else x)
  else BitVec.ofInt 32 (if rem then x.toInt.tmod y.toInt else x.toInt.tdiv y.toInt)

/-- `divu` and `divu.rem` (R174). -/
def divUnsigned (rem : Bool) (x y : Word) : Word :=
  if y = 0 then (if rem then x else BitVec.allOnes 32)
  else BitVec.ofNat 32 (if rem then x.toNat % y.toNat else x.toNat / y.toNat)

/-- Leading zero bits (R176): 32 for zero. -/
def countLead (x : Word) : Nat := if x = 0 then 32 else 31 - Nat.log2 x.toNat

/-- Trailing zero bits (R176): 32 for zero. -/
def countTrail (x : Word) : Nat := ((List.range 32).find? fun i => x.getLsbD i).getD 32

/-- Set bits of a 64-bit number. -/
def popCount (n : Nat) : Nat := ((List.range 64).filter fun i => n.testBit i).length

/-- The pair s(N+1), sN as 64 bits (R177). -/
def pairOf (lo hi : Word) : BitVec 64 := hi.setWidth 64 <<< 32 ||| lo.setWidth 64

/-- 2^w − 1 as a word (R178). -/
def maskW (w : Nat) : Word := BitVec.ofNat 32 (2 ^ w - 1)

/-- The field position and the field width that b gives (R178). -/
def fieldPos (y : Word) : Nat := y.toNat % 32
def fieldWidth (y : Word) : Nat := Nat.min (y.toNat / 32 % 64) 32

/-- `bext` (R178). -/
def bitExtract (v : BitVec 1) (x y : Word) : Word :=
  let w := fieldWidth y
  let f := (x >>> fieldPos y) &&& maskW w
  if v = 1 && 0 < w && f.getLsbD (w - 1) then f ||| ~~~maskW w else f

/-- `bins` (R178). -/
def bitInsert (old x y : Word) : Word :=
  let m := maskW (fieldWidth y) <<< fieldPos y
  (old &&& ~~~m) ||| ((x <<< fieldPos y) &&& m)

/-- `bswap` and `bswap.h` (R176). -/
def byteSwap (v : BitVec 1) (x : Word) : Word :=
  let b (i : Nat) : Byte := BitVec.extractLsb' (8 * i) 8 x
  if v = 0 then b 0 ++ b 1 ++ b 2 ++ b 3 else b 2 ++ b 3 ++ b 0 ++ b 1

/-- `cadd` (R179): the halves are added apart. -/
def coordAdd (x y : Word) : Word :=
  (BitVec.extractLsb' 16 16 x + BitVec.extractLsb' 16 16 y) ++ (BitVec.extractLsb' 0 16 x + BitVec.extractLsb' 0 16 y)

/-- A truth value as 1 or 0. -/
def bit01 (b : Bool) : Word := if b then 1 else 0

/-- imm9, sign-extended (R175). -/
def imm9 (i : BitVec 9) : Word := i.signExtend 32

/-- The bound test of R180. -/
def boxTest (b : BitVec 256) (v : BitVec 2) (p : Word) : Bool :=
  inBox b (pathRow p) (pathCol p 0) && (v ≠ 1 || boxReads b) && (v ≠ 2 || boxWrites b)

/-- Slot A's or slot B's divider is held through cycle c + 17 (R137, R174). -/
def State.holdDivider (s : State) : State :=
  s.modMe fun k => if s.cur.slot = 1 then { k with divA := s.tick + 18 } else { k with divB := s.tick + 18 }

/-- A divide (R174). -/
def State.divide (s : State) (d a b : BitVec 5) (f : Word → Word → Word) : Res State := do
  let (x, y) ← s.src2 a b
  s.room 18 0
  return ((s.notePbnd [a, b]).put 18 (.scalar d.toNat) (wide (f x y))).holdDivider

/-- A funnel shift over the pair that starts at register n (R177). -/
def State.funnelShift (s : State) (d n b : BitVec 5) (f : BitVec 64 → Nat → Word) : Res State := do
  let lo ← s.reg n.toNat
  let hi ← s.reg (n.toNat + 1)
  let y ← s.src b 0
  return (s.notePbnd [b]).put 1 (.scalar d.toNat) (wide (f (pairOf lo hi) (y.toNat % 64)))

/-! ### INT (R173, R174) -/

/-- `add` by variant (R173). -/
def execAdd (d a b : BitVec 5) (v : BitVec 2) (s : State) : Out :=
  s.answer (s.scalar2 1 d a b (addVariant v))

/-- `sub` by variant (R173). -/
def execSub (d a b : BitVec 5) (v : BitVec 2) (s : State) : Out :=
  s.answer (s.scalar2 1 d a b (subVariant v))

/-- `mul`: the low word of the product (R173). -/
def execMul (d a b : BitVec 5) (s : State) : Out :=
  s.answer (s.scalar2 3 d a b (fun x y => x * y))

/-- `mulh`: the high word of the signed product (R173). -/
def execMulh (d a b : BitVec 5) (s : State) : Out :=
  s.answer (s.scalar2 3 d a b (fun x y => BitVec.ofInt 32 (x.toInt * y.toInt / 2 ^ 32)))

/-- `mulhu`: the high word of the unsigned product (R173). -/
def execMulhu (d a b : BitVec 5) (s : State) : Out :=
  s.answer (s.scalar2 3 d a b (fun x y => BitVec.ofNat 32 (x.toNat * y.toNat / 2 ^ 32)))

/-- `div` and `div.rem` (R174). -/
def execDiv (d a b : BitVec 5) (v : BitVec 1) (s : State) : Out :=
  s.answer (s.divide d a b (divSigned (v == 1)))

/-- `divu` and `divu.rem` (R174). -/
def execDivu (d a b : BitVec 5) (v : BitVec 1) (s : State) : Out :=
  s.answer (s.divide d a b (divUnsigned (v == 1)))

/-- `and` (R173). -/
def execAnd (d a b : BitVec 5) (s : State) : Out :=
  s.answer (s.scalar2 1 d a b (fun x y => x &&& y))

/-- `or` (R173). -/
def execOr (d a b : BitVec 5) (s : State) : Out :=
  s.answer (s.scalar2 1 d a b (fun x y => x ||| y))

/-- `xor` (R173). -/
def execXor (d a b : BitVec 5) (s : State) : Out :=
  s.answer (s.scalar2 1 d a b (fun x y => x ^^^ y))

/-- `min`, signed (R173). -/
def execMin (d a b : BitVec 5) (s : State) : Out :=
  s.answer (s.scalar2 1 d a b (fun x y => if x.slt y then x else y))

/-- `max`, signed (R173). -/
def execMax (d a b : BitVec 5) (s : State) : Out :=
  s.answer (s.scalar2 1 d a b (fun x y => if x.slt y then y else x))

/-- `minu` (R173). -/
def execMinu (d a b : BitVec 5) (s : State) : Out :=
  s.answer (s.scalar2 1 d a b (fun x y => if x.ult y then x else y))

/-- `maxu` (R173). -/
def execMaxu (d a b : BitVec 5) (s : State) : Out :=
  s.answer (s.scalar2 1 d a b (fun x y => if x.ult y then y else x))

/-- `sel` (R173): bit 0 of predicate c, read at issue, chooses. -/
def execSel (d a b : BitVec 5) (c : BitVec 3) (s : State) : Out :=
  s.answer (s.scalar2 1 d a b fun x y => if s.predBit c.toNat then x else y)

/-! ### INTI (R175) -/

/-- `addi` (R175). -/
def execAddi (d a : BitVec 5) (i : BitVec 9) (s : State) : Out :=
  s.answer (s.scalar1 1 d a fun x => x + imm9 i)

/-- `andi` (R175). -/
def execAndi (d a : BitVec 5) (i : BitVec 9) (s : State) : Out :=
  s.answer (s.scalar1 1 d a fun x => x &&& imm9 i)

/-- `ori` (R175). -/
def execOri (d a : BitVec 5) (i : BitVec 9) (s : State) : Out :=
  s.answer (s.scalar1 1 d a fun x => x ||| imm9 i)

/-- `xori` (R175). -/
def execXori (d a : BitVec 5) (i : BitVec 9) (s : State) : Out :=
  s.answer (s.scalar1 1 d a fun x => x ^^^ imm9 i)

/-- `slti` (R175). -/
def execSlti (d a : BitVec 5) (i : BitVec 9) (s : State) : Out :=
  s.answer (s.scalar1 1 d a fun x => bit01 (x.slt (imm9 i)))

/-- `sltui` (R175). -/
def execSltui (d a : BitVec 5) (i : BitVec 9) (s : State) : Out :=
  s.answer (s.scalar1 1 d a fun x => bit01 (x.ult (imm9 i)))

/-! ### FPS (R182 to R185) -/

/-- `fadd` (R183). -/
def execFadd (d a b : BitVec 5) (q : BitVec 1) (s : State) : Out :=
  s.answer (s.float2 3 d a b q (fAdd .fp32))

/-- `fsub` (R183). -/
def execFsub (d a b : BitVec 5) (q : BitVec 1) (s : State) : Out :=
  s.answer (s.float2 3 d a b q (fSub .fp32))

/-- `fmul` (R183). -/
def execFmul (d a b : BitVec 5) (q : BitVec 1) (s : State) : Out :=
  s.answer (s.float2 3 d a b q (fMul .fp32))

/-- `fma` (R183): the destination is a third source, zero when d is 0 (R171). -/
def execFma (d a b : BitVec 5) (q : BitVec 1) (s : State) : Out :=
  s.answer do
    let z ← s.reg d.toNat
    s.float2 4 d a b q fun rm fl x y => fFma .fp32 rm fl z.toNat x y

/-- `fmin` (R184). -/
def execFmin (d a b : BitVec 5) (s : State) : Out :=
  s.answer (s.scalar2 1 d a b fun x y => BitVec.ofNat 32 (fMin .fp32 (!s.interlocked) x.toNat y.toNat))

/-- `fmax` (R184). -/
def execFmax (d a b : BitVec 5) (s : State) : Out :=
  s.answer (s.scalar2 1 d a b fun x y => BitVec.ofNat 32 (fMax .fp32 (!s.interlocked) x.toNat y.toNat))

/-- `fneg` (R184). -/
def execFneg (d a : BitVec 5) (s : State) : Out :=
  s.answer (s.scalar1 1 d a fun x => BitVec.ofNat 32 (fNeg .fp32 (!s.interlocked) x.toNat))

/-- `fabs` (R184). -/
def execFabs (d a : BitVec 5) (s : State) : Out :=
  s.answer (s.scalar1 1 d a fun x => BitVec.ofNat 32 (fAbs .fp32 (!s.interlocked) x.toNat))

/-- `f2i` (R185): variants 2 and 3 round toward zero, 1 and 3 saturate. -/
def execF2i (d a : BitVec 5) (q : BitVec 1) (v : BitVec 2) (s : State) : Out :=
  s.answer (s.float1 3 d a q fun rm fl x =>
    convertInt true 32 (if v.getLsbD 1 then .rtz else rm) (v.getLsbD 0) (readFloat fl .fp32 x))

/-- `i2f` (R185): variant 1 reads an unsigned integer. -/
def execI2f (d a : BitVec 5) (q v : BitVec 1) (s : State) : Out :=
  s.answer (s.float1 3 d a q fun rm fl x => writeFloat fl .fp32 rm (valOfInt (intOf (v == 0) 32 x)))

/-! ### CMP (R181) -/

/-- `icmp.eq` (R181). -/
def execIcmpEq (p : BitVec 3) (a b : BitVec 5) (s : State) : Out :=
  s.answer (s.compare p a b fun x y => x == y)

/-- `icmp.ne` (R181). -/
def execIcmpNe (p : BitVec 3) (a b : BitVec 5) (s : State) : Out :=
  s.answer (s.compare p a b fun x y => x != y)

/-- `icmp.lt` (R181). -/
def execIcmpLt (p : BitVec 3) (a b : BitVec 5) (s : State) : Out :=
  s.answer (s.compare p a b fun x y => x.slt y)

/-- `icmp.ltu` (R181). -/
def execIcmpLtu (p : BitVec 3) (a b : BitVec 5) (s : State) : Out :=
  s.answer (s.compare p a b fun x y => x.ult y)

/-- `icmp.le` (R181). -/
def execIcmpLe (p : BitVec 3) (a b : BitVec 5) (s : State) : Out :=
  s.answer (s.compare p a b fun x y => x.sle y)

/-- `icmp.leu` (R181). -/
def execIcmpLeu (p : BitVec 3) (a b : BitVec 5) (s : State) : Out :=
  s.answer (s.compare p a b fun x y => x.ule y)

/-- `fcmp.eq` (R181). -/
def execFcmpEq (p : BitVec 3) (a b : BitVec 5) (q : BitVec 1) (s : State) : Out :=
  s.answer (s.compareF p a b q 0)

/-- `fcmp.lt` (R181). -/
def execFcmpLt (p : BitVec 3) (a b : BitVec 5) (q : BitVec 1) (s : State) : Out :=
  s.answer (s.compareF p a b q 1)

/-- `fcmp.le` (R181). -/
def execFcmpLe (p : BitVec 3) (a b : BitVec 5) (q : BitVec 1) (s : State) : Out :=
  s.answer (s.compareF p a b q 2)

/-- `fcmp.un` (R181). -/
def execFcmpUn (p : BitVec 3) (a b : BitVec 5) (q : BitVec 1) (s : State) : Out :=
  s.answer (s.compareF p a b q 3)

/-! ### BIT (R176 to R178) -/

/-- `shl` (R176). -/
def execShl (d a b : BitVec 5) (s : State) : Out :=
  s.answer (s.scalar2 1 d a b fun x y => x <<< (y.toNat % 32))

/-- `shr` (R176). -/
def execShr (d a b : BitVec 5) (s : State) : Out :=
  s.answer (s.scalar2 1 d a b fun x y => x >>> (y.toNat % 32))

/-- `sra` (R176). -/
def execSra (d a b : BitVec 5) (s : State) : Out :=
  s.answer (s.scalar2 1 d a b fun x y => x.sshiftRight (y.toNat % 32))

/-- `rol` (R176). -/
def execRol (d a b : BitVec 5) (s : State) : Out :=
  s.answer (s.scalar2 1 d a b fun x y => x.rotateLeft (y.toNat % 32))

/-- `fsh` (R177). -/
def execFsh (d n b : BitVec 5) (s : State) : Out :=
  s.answer (s.funnelShift d n b fun p k => BitVec.extractLsb' 32 32 (p <<< k))

/-- `fshr` (R177). -/
def execFshr (d n b : BitVec 5) (s : State) : Out :=
  s.answer (s.funnelShift d n b fun p k => BitVec.extractLsb' 0 32 (p >>> k))

/-- `clz` (R176). -/
def execClz (d a : BitVec 5) (s : State) : Out :=
  s.answer (s.scalar1 1 d a fun x => BitVec.ofNat 32 (countLead x))

/-- `ctz` (R176). -/
def execCtz (d a : BitVec 5) (s : State) : Out :=
  s.answer (s.scalar1 1 d a fun x => BitVec.ofNat 32 (countTrail x))

/-- `popc` (R176). -/
def execPopc (d a : BitVec 5) (s : State) : Out :=
  s.answer (s.scalar1 1 d a fun x => BitVec.ofNat 32 (popCount x.toNat))

/-- `bext` (R178). -/
def execBext (d a b : BitVec 5) (v : BitVec 1) (s : State) : Out :=
  s.answer (s.scalar2 1 d a b (bitExtract v))

/-- `bins` (R178): the destination is a third source, zero when d is 0 (R171). -/
def execBins (d a b : BitVec 5) (s : State) : Out :=
  s.answer do
    let z ← s.reg d.toNat
    s.scalar2 1 d a b (bitInsert z)

/-- `bswap` (R176). -/
def execBswap (d a : BitVec 5) (v : BitVec 1) (s : State) : Out :=
  s.answer (s.scalar1 1 d a (byteSwap v))

/-! ### PATH (R179, R180) -/

/-- `cpack` (R179). -/
def execCpack (d a b : BitVec 5) (s : State) : Out :=
  s.answer (s.scalar2 1 d a b fun x y => BitVec.extractLsb' 0 16 x ++ BitVec.extractLsb' 0 16 y)

/-- `cadd` (R179). -/
def execCadd (d a b : BitVec 5) (s : State) : Out :=
  s.answer (s.scalar2 1 d a b coordAdd)

/-- `crow` (R179). -/
def execCrow (d a : BitVec 5) (s : State) : Out :=
  s.answer (s.scalar1 1 d a fun x => (BitVec.extractLsb' 16 16 x).signExtend 32)

/-- `ccol` (R179). -/
def execCcol (d a : BitVec 5) (s : State) : Out :=
  s.answer (s.scalar1 1 d a fun x => (BitVec.extractLsb' 0 16 x).signExtend 32)

/-- `bxdim` (R179): an extent of the bound box. -/
def execBxdim (d : BitVec 5) (h : BitVec 4) (k : BitVec 2) (s : State) : Out :=
  s.answer do
    let b ← s.box h.toNat
    return s.put 1 (.scalar d.toNat) (wide (BitVec.ofNat 32 (boxExt b k.toNat)))

/-- `bxok` (R180). -/
def execBxok (d : BitVec 5) (h : BitVec 4) (b : BitVec 5) (v : BitVec 2) (s : State) : Out :=
  s.answer do
    let p ← s.src b 0
    let x ← s.box h.toNat
    return (s.notePbnd [b]).put 1 (.scalar d.toNat) (wide (bit01 (boxTest x v p)))

/-- `fli` (R186): the pattern imm20 × 2^12 to s(8 + d). -/
def execFli (d : BitVec 4) (i : BitVec 20) (s : State) : Out :=
  s.answer (.ok (s.put 1 (.scalar (8 + d.toNat)) (wide (i ++ 0#12))))

end Sys2Proof.Machine
end

