-- ==== Sys2Proof/Machine/Dispatch.lean ====
section
/-! DEFINITION. Dispatch.lean: the meaning of each instruction and event of the table. -/

namespace Sys2Proof.Machine

def exec (i : Instr) (s : State) : Host.Outcome State Fault Refusal :=
  match i with
  | .bset n a => Sys2Proof.Machine.execBset n a s
  | .bsetr n a => Sys2Proof.Machine.execBsetr n a s
  | .bgo n c => Sys2Proof.Machine.execBgo n c s
  | .bgon n c => Sys2Proof.Machine.execBgon n c s
  | .blink n c => Sys2Proof.Machine.execBlink n c s
  | .bback c a => Sys2Proof.Machine.execBback c a s
  | .loop a b => Sys2Proof.Machine.execLoop a b s
  | .loopi n b => Sys2Proof.Machine.execLoopi n b s
  | .lpipe st a b => Sys2Proof.Machine.execLpipe st a b s
  | .lidx d k => Sys2Proof.Machine.execLidx d k s
  | .trap n => Sys2Proof.Machine.execTrap n s
  | .wait a => Sys2Proof.Machine.execWait a s
  | .waiti n => Sys2Proof.Machine.execWaiti n s
  | .kill a => Sys2Proof.Machine.execKill a s
  | .killt t a => Sys2Proof.Machine.execKillt t a s
  | .rdsr d n => Sys2Proof.Machine.execRdsr d n s
  | .wrsr n a => Sys2Proof.Machine.execWrsr n a s
  | .phase n => Sys2Proof.Machine.execPhase n s
  | .pand d a b => Sys2Proof.Machine.execPand d a b s
  | .por d a b => Sys2Proof.Machine.execPor d a b s
  | .pxor d a b => Sys2Proof.Machine.execPxor d a b s
  | .pnot d a => Sys2Proof.Machine.execPnot d a s
  | .pmov d a => Sys2Proof.Machine.execPmov d a s
  | .vany d a b => Sys2Proof.Machine.execVany d a b s
  | .vall d a b => Sys2Proof.Machine.execVall d a b s
  | .pfirst d a b e => Sys2Proof.Machine.execPfirst d a b e s
  | .pcnt a b d e => Sys2Proof.Machine.execPcnt a b d e s
  | .add d a b v => Sys2Proof.Machine.execAdd d a b v s
  | .sub d a b v => Sys2Proof.Machine.execSub d a b v s
  | .mul d a b => Sys2Proof.Machine.execMul d a b s
  | .mulh d a b => Sys2Proof.Machine.execMulh d a b s
  | .mulhu d a b => Sys2Proof.Machine.execMulhu d a b s
  | .div d a b v => Sys2Proof.Machine.execDiv d a b v s
  | .divu d a b v => Sys2Proof.Machine.execDivu d a b v s
  | .and d a b => Sys2Proof.Machine.execAnd d a b s
  | .or d a b => Sys2Proof.Machine.execOr d a b s
  | .xor d a b => Sys2Proof.Machine.execXor d a b s
  | .min d a b => Sys2Proof.Machine.execMin d a b s
  | .max d a b => Sys2Proof.Machine.execMax d a b s
  | .minu d a b => Sys2Proof.Machine.execMinu d a b s
  | .maxu d a b => Sys2Proof.Machine.execMaxu d a b s
  | .sel d a b c => Sys2Proof.Machine.execSel d a b c s
  | .addi d a n => Sys2Proof.Machine.execAddi d a n s
  | .andi d a n => Sys2Proof.Machine.execAndi d a n s
  | .ori d a n => Sys2Proof.Machine.execOri d a n s
  | .xori d a n => Sys2Proof.Machine.execXori d a n s
  | .slti d a n => Sys2Proof.Machine.execSlti d a n s
  | .sltui d a n => Sys2Proof.Machine.execSltui d a n s
  | .fadd d a b q => Sys2Proof.Machine.execFadd d a b q s
  | .fsub d a b q => Sys2Proof.Machine.execFsub d a b q s
  | .fmul d a b q => Sys2Proof.Machine.execFmul d a b q s
  | .fma d a b q => Sys2Proof.Machine.execFma d a b q s
  | .fmin d a b => Sys2Proof.Machine.execFmin d a b s
  | .fmax d a b => Sys2Proof.Machine.execFmax d a b s
  | .fneg d a => Sys2Proof.Machine.execFneg d a s
  | .fabs d a => Sys2Proof.Machine.execFabs d a s
  | .f2i d a q v => Sys2Proof.Machine.execF2i d a q v s
  | .i2f d a q v => Sys2Proof.Machine.execI2f d a q v s
  | .icmpEq p a b => Sys2Proof.Machine.execIcmpEq p a b s
  | .icmpNe p a b => Sys2Proof.Machine.execIcmpNe p a b s
  | .icmpLt p a b => Sys2Proof.Machine.execIcmpLt p a b s
  | .icmpLtu p a b => Sys2Proof.Machine.execIcmpLtu p a b s
  | .icmpLe p a b => Sys2Proof.Machine.execIcmpLe p a b s
  | .icmpLeu p a b => Sys2Proof.Machine.execIcmpLeu p a b s
  | .fcmpEq p a b q => Sys2Proof.Machine.execFcmpEq p a b q s
  | .fcmpLt p a b q => Sys2Proof.Machine.execFcmpLt p a b q s
  | .fcmpLe p a b q => Sys2Proof.Machine.execFcmpLe p a b q s
  | .fcmpUn p a b q => Sys2Proof.Machine.execFcmpUn p a b q s
  | .shl d a b => Sys2Proof.Machine.execShl d a b s
  | .shr d a b => Sys2Proof.Machine.execShr d a b s
  | .sra d a b => Sys2Proof.Machine.execSra d a b s
  | .rol d a b => Sys2Proof.Machine.execRol d a b s
  | .fsh d n b => Sys2Proof.Machine.execFsh d n b s
  | .fshr d n b => Sys2Proof.Machine.execFshr d n b s
  | .clz d a => Sys2Proof.Machine.execClz d a s
  | .ctz d a => Sys2Proof.Machine.execCtz d a s
  | .popc d a => Sys2Proof.Machine.execPopc d a s
  | .bext d a b v => Sys2Proof.Machine.execBext d a b v s
  | .bins d a b => Sys2Proof.Machine.execBins d a b s
  | .bswap d a v => Sys2Proof.Machine.execBswap d a v s
  | .cpack d a b => Sys2Proof.Machine.execCpack d a b s
  | .cadd d a b => Sys2Proof.Machine.execCadd d a b s
  | .crow d a => Sys2Proof.Machine.execCrow d a s
  | .ccol d a => Sys2Proof.Machine.execCcol d a s
  | .bxdim d h k => Sys2Proof.Machine.execBxdim d h k s
  | .bxok d h b v => Sys2Proof.Machine.execBxok d h b v s
  | .fli d n => Sys2Proof.Machine.execFli d n s
  | .lmemLdb d h p f => Sys2Proof.Machine.execLmemLdb d h p f s
  | .lmemLdh d h p f => Sys2Proof.Machine.execLmemLdh d h p f s
  | .lmemLdw d h p f => Sys2Proof.Machine.execLmemLdw d h p f s
  | .lmemStb a h p f => Sys2Proof.Machine.execLmemStb a h p f s
  | .lmemSth a h p f => Sys2Proof.Machine.execLmemSth a h p f s
  | .lmemStw a h p f => Sys2Proof.Machine.execLmemStw a h p f s
  | .lmemTldr t c h p f => Sys2Proof.Machine.execLmemTldr t c h p f s
  | .lmemTstr t c h p f => Sys2Proof.Machine.execLmemTstr t c h p f s
  | .hmemLdb d h p f => Sys2Proof.Machine.execHmemLdb d h p f s
  | .hmemLdh d h p f => Sys2Proof.Machine.execHmemLdh d h p f s
  | .hmemLdw d h p f => Sys2Proof.Machine.execHmemLdw d h p f s
  | .hmemStb a h p f => Sys2Proof.Machine.execHmemStb a h p f s
  | .hmemSth a h p f => Sys2Proof.Machine.execHmemSth a h p f s
  | .hmemStw a h p f => Sys2Proof.Machine.execHmemStw a h p f s
  | .hmemTldr t c h p f => Sys2Proof.Machine.execHmemTldr t c h p f s
  | .hmemTstr t c h p f => Sys2Proof.Machine.execHmemTstr t c h p f s
  | .ldwa d h p f => Sys2Proof.Machine.execLdwa d h p f s
  | .ldwc d h p f => Sys2Proof.Machine.execLdwc d h p f s
  | .tldra t c h p f => Sys2Proof.Machine.execTldra t c h p f s
  | .tldrc t c h p f => Sys2Proof.Machine.execTldrc t c h p f s
  | .atclr h p f => Sys2Proof.Machine.execAtclr h p f s
  | .amadd n h p f => Sys2Proof.Machine.execAmadd n h p f s
  | .amswap n h p f => Sys2Proof.Machine.execAmswap n h p f s
  | .amcas n h p f => Sys2Proof.Machine.execAmcas n h p f s
  | .ammin n h p f => Sys2Proof.Machine.execAmmin n h p f s
  | .ammax n h p f => Sys2Proof.Machine.execAmmax n h p f s
  | .amand n h p f => Sys2Proof.Machine.execAmand n h p f s
  | .amor n h p f => Sys2Proof.Machine.execAmor n h p f s
  | .amxor n h p f => Sys2Proof.Machine.execAmxor n h p f s
  | .tadd d a s1 b f w q => Sys2Proof.Machine.execTadd d a s1 b f w q s
  | .taddSat d a s1 b f w q => Sys2Proof.Machine.execTaddSat d a s1 b f w q s
  | .tsub d a s1 b f w q => Sys2Proof.Machine.execTsub d a s1 b f w q s
  | .tsubSat d a s1 b f w q => Sys2Proof.Machine.execTsubSat d a s1 b f w q s
  | .tmul d a s1 b f w q => Sys2Proof.Machine.execTmul d a s1 b f w q s
  | .tmulSat d a s1 b f w q => Sys2Proof.Machine.execTmulSat d a s1 b f w q s
  | .tmulh d a s1 b f w q => Sys2Proof.Machine.execTmulh d a s1 b f w q s
  | .tmin d a s1 b f w q => Sys2Proof.Machine.execTmin d a s1 b f w q s
  | .tmax d a s1 b f w q => Sys2Proof.Machine.execTmax d a s1 b f w q s
  | .tand d a s1 b f w q => Sys2Proof.Machine.execTand d a s1 b f w q s
  | .tor d a s1 b f w q => Sys2Proof.Machine.execTor d a s1 b f w q s
  | .txor d a s1 b f w q => Sys2Proof.Machine.execTxor d a s1 b f w q s
  | .tshl d a s1 b f w q => Sys2Proof.Machine.execTshl d a s1 b f w q s
  | .tshr d a s1 b f w q => Sys2Proof.Machine.execTshr d a s1 b f w q s
  | .tsra d a s1 b f w q => Sys2Proof.Machine.execTsra d a s1 b f w q s
  | .tfsh d a s1 b f w q => Sys2Proof.Machine.execTfsh d a s1 b f w q s
  | .tabs d a f w q => Sys2Proof.Machine.execTabs d a f w q s
  | .tabsSat d a f w q => Sys2Proof.Machine.execTabsSat d a f w q s
  | .tnegSat d a f w q => Sys2Proof.Machine.execTnegSat d a f w q s
  | .tfadd d a s1 b f w q => Sys2Proof.Machine.execTfadd d a s1 b f w q s
  | .tfsub d a s1 b f w q => Sys2Proof.Machine.execTfsub d a s1 b f w q s
  | .tfmul d a s1 b f w q => Sys2Proof.Machine.execTfmul d a s1 b f w q s
  | .tfma d a s1 b f w q => Sys2Proof.Machine.execTfma d a s1 b f w q s
  | .tfmin d a s1 b f w q => Sys2Proof.Machine.execTfmin d a s1 b f w q s
  | .tfmax d a s1 b f w q => Sys2Proof.Machine.execTfmax d a s1 b f w q s
  | .tfabs d a f w q => Sys2Proof.Machine.execTfabs d a f w q s
  | .tfrint d a f w q => Sys2Proof.Machine.execTfrint d a f w q s
  | .tfexp d a f w q => Sys2Proof.Machine.execTfexp d a f w q s
  | .tfins d a s1 b f w q => Sys2Proof.Machine.execTfins d a s1 b f w q s
  | .tfrcp d a f w q => Sys2Proof.Machine.execTfrcp d a f w q s
  | .tfrsq d a f w q => Sys2Proof.Machine.execTfrsq d a f w q s
  | .tcmpEq d a s1 b f w q => Sys2Proof.Machine.execTcmpEq d a s1 b f w q s
  | .tcmpNe d a s1 b f w q => Sys2Proof.Machine.execTcmpNe d a s1 b f w q s
  | .tcmpLt d a s1 b f w q => Sys2Proof.Machine.execTcmpLt d a s1 b f w q s
  | .tcmpLe d a s1 b f w q => Sys2Proof.Machine.execTcmpLe d a s1 b f w q s
  | .tcmpGt d a s1 b f w q => Sys2Proof.Machine.execTcmpGt d a s1 b f w q s
  | .tcmpGe d a s1 b f w q => Sys2Proof.Machine.execTcmpGe d a s1 b f w q s
  | .tfcmpEq d a s1 b f w q => Sys2Proof.Machine.execTfcmpEq d a s1 b f w q s
  | .tfcmpLt d a s1 b f w q => Sys2Proof.Machine.execTfcmpLt d a s1 b f w q s
  | .tfcmpLe d a s1 b f w q => Sys2Proof.Machine.execTfcmpLe d a s1 b f w q s
  | .tfcmpUn d a s1 b f w q => Sys2Proof.Machine.execTfcmpUn d a s1 b f w q s
  | .tfcmpGt d a s1 b f w q => Sys2Proof.Machine.execTfcmpGt d a s1 b f w q s
  | .tfcmpGe d a s1 b f w q => Sys2Proof.Machine.execTfcmpGe d a s1 b f w q s
  | .tcvt x d a k f w q => Sys2Proof.Machine.execTcvt x d a k f w q s
  | .tcvtSat x d a k f w q => Sys2Proof.Machine.execTcvtSat x d a k f w q s
  | .tquant n d a f w q => Sys2Proof.Machine.execTquant n d a f w q s
  | .tdeq d a n f w q => Sys2Proof.Machine.execTdeq d a n f w q s
  | .tdeqHi d a n f w q => Sys2Proof.Machine.execTdeqHi d a n f w q s
  | .tscx k a n w q => Sys2Proof.Machine.execTscx k a n w q s
  | .tscxHi k a n w q => Sys2Proof.Machine.execTscxHi k a n w q s
  | .tdeqU d a n f w q => Sys2Proof.Machine.execTdeqU d a n f w q s
  | .tdeqUHi d a n f w q => Sys2Proof.Machine.execTdeqUHi d a n f w q s
  | .tmov d a f w q => Sys2Proof.Machine.execTmov d a f w q s
  | .tbcast d b f w q => Sys2Proof.Machine.execTbcast d b f w q s
  | .tbcastL d a b f w q => Sys2Proof.Machine.execTbcastL d a b f w q s
  | .trot d a b f w q => Sys2Proof.Machine.execTrot d a b f w q s
  | .tshuf d a b f w q => Sys2Proof.Machine.execTshuf d a b f w q s
  | .tredMax d a b f w q => Sys2Proof.Machine.execTredMax d a b f w q s
  | .tredMin d a b f w q => Sys2Proof.Machine.execTredMin d a b f w q s
  | .tredAdd d a b f w q => Sys2Proof.Machine.execTredAdd d a b f w q s
  | .tsel d a s1 b f w q => Sys2Proof.Machine.execTsel d a s1 b f w q s
  | .tpack d a b f w q => Sys2Proof.Machine.execTpack d a b f w q s
  | .tunpk d a b f w q => Sys2Proof.Machine.execTunpk d a b f w q s
  | .ttrans d a f q => Sys2Proof.Machine.execTtrans d a f q s
  | .kld h a k => Sys2Proof.Machine.execKld h a k s
  | .kst h a k => Sys2Proof.Machine.execKst h a k s
  | .kbase a => Sys2Proof.Machine.execKbase a s
  | .krow a => Sys2Proof.Machine.execKrow a s
  | .kset a b k => Sys2Proof.Machine.execKset a b k s
  | .ksetAll a k => Sys2Proof.Machine.execKsetAll a k s
  | .mload w => Sys2Proof.Machine.execMload w s
  | .mrun a sN w q => Sys2Proof.Machine.execMrun a sN w q s
  | .mzero sN => Sys2Proof.Machine.execMzero sN s
  | .mread a sN t => Sys2Proof.Machine.execMread a sN t s
  | .mspillAcc sN => Sys2Proof.Machine.execMspillAcc sN s
  | .mspillSlot w => Sys2Proof.Machine.execMspillSlot w s
  | .mfillAcc sN => Sys2Proof.Machine.execMfillAcc sN s
  | .mfillSlot w => Sys2Proof.Machine.execMfillSlot w s
  | .menc a q => Sys2Proof.Machine.execMenc a q s
  | .mcomp a => Sys2Proof.Machine.execMcomp a s
  | .mprog a b n e => Sys2Proof.Machine.execMprog a b n e s
  | .mprogOpen a n e => Sys2Proof.Machine.execMprogOpen a n e s
  | .mprogClr e => Sys2Proof.Machine.execMprogClr e s
  | .mgeoA a => Sys2Proof.Machine.execMgeoA a s
  | .mgeoW a b => Sys2Proof.Machine.execMgeoW a b s
  | .mgeoD a b => Sys2Proof.Machine.execMgeoD a b s
  | .mgeoN a b => Sys2Proof.Machine.execMgeoN a b s
  | .wcopy a b o f => Sys2Proof.Machine.execWcopy a b o f s
  | .wmcast a b o f => Sys2Proof.Machine.execWmcast a b o f s
  | .wgath a b o f => Sys2Proof.Machine.execWgath a b o f s
  | .wscat a b o f => Sys2Proof.Machine.execWscat a b o f s
  | .wprom d k => Sys2Proof.Machine.execWprom d k s
  | .wamoAdd n p h => Sys2Proof.Machine.execWamoAdd n p h s
  | .wamoSwap n p h => Sys2Proof.Machine.execWamoSwap n p h s
  | .wamoCas n p h => Sys2Proof.Machine.execWamoCas n p h s
  | .wamoMax n p h => Sys2Proof.Machine.execWamoMax n p h s
  | .wgeo a b n => Sys2Proof.Machine.execWgeo a b n s
  | .wgeoHi a b n => Sys2Proof.Machine.execWgeoHi a b n s
  | .wgeoTab a b n => Sys2Proof.Machine.execWgeoTab a b n s
  | .wsnap a b => Sys2Proof.Machine.execWsnap a b s
  | .wcall a b n => Sys2Proof.Machine.execWcall a b n s
  | .lsend a b p => Sys2Proof.Machine.execLsend a b p s
  | .lrecv a b p => Sys2Proof.Machine.execLrecv a b p s
  | .llat d p => Sys2Proof.Machine.execLlat d p s
  | .gcyc d k => Sys2Proof.Machine.execGcyc d k s
  | .gmeas d p => Sys2Proof.Machine.execGmeas d p s
  | .gadj a n => Sys2Proof.Machine.execGadj a n s
  | .lpair a p => Sys2Proof.Machine.execLpair a p s
  | .cxmk n p h => Sys2Proof.Machine.execCxmk n p h s
  | .cxgive a p h => Sys2Proof.Machine.execCxgive a p h s
  | .cxrev a => Sys2Proof.Machine.execCxrev a s
  | .cxrun a => Sys2Proof.Machine.execCxrun a s
  | .cxsave n b => Sys2Proof.Machine.execCxsave n b s
  | .cxload n b => Sys2Proof.Machine.execCxload n b s
  | .cxpend d b => Sys2Proof.Machine.execCxpend d b s
  | .cxq n p h => Sys2Proof.Machine.execCxq n p h s
  | .apset n p h => Sys2Proof.Machine.execApset n p h s
  | .apclr a => Sys2Proof.Machine.execApclr a s
  | .apq d b => Sys2Proof.Machine.execApq d b s
  | .lbreak => Sys2Proof.Machine.execLbreak s
  | .nop => Sys2Proof.Machine.execNop s
  | .eret => Sys2Proof.Machine.execEret s
  | .fenceH => Sys2Proof.Machine.execFenceH s
  | .fenceD => Sys2Proof.Machine.execFenceD s
  | .yield => Sys2Proof.Machine.execYield s
  | .modeExposed => Sys2Proof.Machine.execModeExposed s
  | .modeInterlocked => Sys2Proof.Machine.execModeInterlocked s
  | .atclrAll => Sys2Proof.Machine.execAtclrAll s
  | .wret => Sys2Proof.Machine.execWret s
  | .wjoin => Sys2Proof.Machine.execWjoin s
  | .mailboxWrite => Sys2Proof.Machine.execMailboxWrite s
  | .mailboxRead => Sys2Proof.Machine.execMailboxRead s
  | .kick => Sys2Proof.Machine.execKick s
  | .kcoalWrite => Sys2Proof.Machine.execKcoalWrite s
  | .kickPageRegisterWrite => Sys2Proof.Machine.execKickPageRegisterWrite s
  | .streamProgramStart => Sys2Proof.Machine.execStreamProgramStart s
  | .bundleIssue => Sys2Proof.Machine.execBundleIssue s
  | .registerWriteLand => Sys2Proof.Machine.execRegisterWriteLand s
  | .memoryPerform => Sys2Proof.Machine.execMemoryPerform s
  | .waitExpiry => Sys2Proof.Machine.execWaitExpiry s
  | .walkerBeatPerform => Sys2Proof.Machine.execWalkerBeatPerform s
  | .dramRetry => Sys2Proof.Machine.execDramRetry s
  | .walkFaultPending => Sys2Proof.Machine.execWalkFaultPending s
  | .wamoComplete => Sys2Proof.Machine.execWamoComplete s
  | .apsetComplete => Sys2Proof.Machine.execApsetComplete s
  | .snapBlockHashed => Sys2Proof.Machine.execSnapBlockHashed s
  | .expanderDeliver => Sys2Proof.Machine.execExpanderDeliver s
  | .arrayGroupWrite => Sys2Proof.Machine.execArrayGroupWrite s
  | .slotLoadComplete => Sys2Proof.Machine.execSlotLoadComplete s
  | .accumulatorFillComplete => Sys2Proof.Machine.execAccumulatorFillComplete s
  | .spillRowPerform => Sys2Proof.Machine.execSpillRowPerform s
  | .encodeGroupPerform => Sys2Proof.Machine.execEncodeGroupPerform s
  | .childEntry => Sys2Proof.Machine.execChildEntry s
  | .outwardCopyApply => Sys2Proof.Machine.execOutwardCopyApply s
  | .callerResume => Sys2Proof.Machine.execCallerResume s
  | .joinRelease => Sys2Proof.Machine.execJoinRelease s
  | .reflectedTrapEntry => Sys2Proof.Machine.execReflectedTrapEntry s
  | .cxmkComplete => Sys2Proof.Machine.execCxmkComplete s
  | .cxgiveComplete => Sys2Proof.Machine.execCxgiveComplete s
  | .cxqComplete => Sys2Proof.Machine.execCxqComplete s
  | .cxsaveComplete => Sys2Proof.Machine.execCxsaveComplete s
  | .cxloadComplete => Sys2Proof.Machine.execCxloadComplete s
  | .revocationComplete => Sys2Proof.Machine.execRevocationComplete s
  | .budgetStop => Sys2Proof.Machine.execBudgetStop s
  | .sliceEnd => Sys2Proof.Machine.execSliceEnd s
  | .drainWatchdog => Sys2Proof.Machine.execDrainWatchdog s
  | .contextStop => Sys2Proof.Machine.execContextStop s
  | .contextRestore => Sys2Proof.Machine.execContextRestore s
  | .beaconSend => Sys2Proof.Machine.execBeaconSend s
  | .beaconReceive => Sys2Proof.Machine.execBeaconReceive s
  | .gcycStep => Sys2Proof.Machine.execGcycStep s
  | .timedFlitDepart => Sys2Proof.Machine.execTimedFlitDepart s
  | .timedFlitArrive => Sys2Proof.Machine.execTimedFlitArrive s
  | .linkBeatPerform => Sys2Proof.Machine.execLinkBeatPerform s
  | .receiveWindowClose => Sys2Proof.Machine.execReceiveWindowClose s
  | .portTrained => Sys2Proof.Machine.execPortTrained s
  | .laneFailure => Sys2Proof.Machine.execLaneFailure s
  | .currentWarning => Sys2Proof.Machine.execCurrentWarning s
  | .thermalWarning => Sys2Proof.Machine.execThermalWarning s
  | .trip => Sys2Proof.Machine.execTrip s
  | .reset => Sys2Proof.Machine.execReset s
  | .reportReady => Sys2Proof.Machine.execReportReady s
  | .hmBankRetire => Sys2Proof.Machine.execHmBankRetire s
  | .herdFailure => Sys2Proof.Machine.execHerdFailure s
  | .pseudoChannelRetire => Sys2Proof.Machine.execPseudoChannelRetire s
  | .resvCopyComplete => Sys2Proof.Machine.execResvCopyComplete s
  | .smbusReadSrs => Sys2Proof.Machine.execSmbusReadSrs s
  | .smbusClearSr => Sys2Proof.Machine.execSmbusClearSr s
  | .smbusReadEvent => Sys2Proof.Machine.execSmbusReadEvent s
  | .smbusStartReport => Sys2Proof.Machine.execSmbusStartReport s
  | .smbusReadReport => Sys2Proof.Machine.execSmbusReadReport s
  | .smbusReset => Sys2Proof.Machine.execSmbusReset s
  | .gridDrainStart => Sys2Proof.Machine.execGridDrainStart s
  | .deficitRenewal => Sys2Proof.Machine.execDeficitRenewal s
  | .ecntSaturation => Sys2Proof.Machine.execEcntSaturation s
  | .thermalWarningEnd => Sys2Proof.Machine.execThermalWarningEnd s
  | .currentWarningEnd => Sys2Proof.Machine.execCurrentWarningEnd s

end Sys2Proof.Machine
end

