-- ==== Sys2Proof/Machine/Step.lean ====
section
/-! DEFINITION. Step.lean: one step of the machine, and a state whose next step fetches and runs a given instruction. -/

namespace Sys2Proof.Machine

/-- One step: `State.advance` with the meanings of Dispatch.lean. -/
def step (s : State) : Host.Outcome State Fault Refusal := s.advance exec

/-- The state with a chip task of the root on its lead core, at word 0, where the instruction stands as a bundle of one syllable
(POS 11; the literals that it claims are zero), and the core due to issue first in this cycle. -/
def State.withFetchWord (s : State) (_nbits w : Nat) : State :=
  let word : Word := BitVec.ofNat 32 w ||| 0xC0000000#32
  let f : Frame := { ctx := 0, level := 3, image := 0, task := 0, call := .none, queue := 0, boxes := List.replicate 16 .none }
  let s := s.modHerd 0 fun x => { x with store := word :: 0 :: 0 :: x.store.drop 3 }
  let s := s.modCore 0 0 fun k => { k with
    r := { k.r with frame := .some f, pc := 0, xfer := .none, landing := false, resume := 0, ixHold := .none, trap := .none,
                    pend := [], engPend := [], carry := {}, softTrap := .none }
    hold := .none, issueAt := s.tick, drainedAt := .none, asyncs := [], tile := .none, vFree := 0, divA := 0, divB := 0 }
  let s := s.modCtx 0 fun x => { x with entries := [] }
  { s with
    held := 0
    agenda := { at_ := s.tick, phase := 3, ord := 0, act := .ev .bundleIssue { a := 0, b := 0 } } :: s.agenda }

end Sys2Proof.Machine
end

