-- ==== Sys2Proof/Safety.lean ====
section
/-! DEFINITION. Safety.lean: what counts as a safe run, and the words in which the claims speak: where an instruction executes, what
a result, a command, a store or a taken trap is, and what stays as it was. -/

namespace Sys2Proof.Machine

/-! ### Safe runs -/

/-- A run of k steps that neither a fault nor a refusal ends. -/
def SafeRun (k : Nat) (s : State) : Prop := ∃ t, Host.Core.run Sys2Proof.core k s = .next t

/-- The byte memories of a herd stand in their canonical form: HM, the LM of each core, and the weight slots of the array. -/
def Herd.Canonical (x : Herd) : Prop :=
  Mem.wf x.hm ∧ (∀ m ∈ x.lm, Mem.wf m) ∧ ∀ w ∈ x.array.ws, Mem.wf w.bytes

/-- Every byte memory of the device stands in its canonical form, those kept with a context that is not resident among them. -/
def State.Canonical (s : State) : Prop :=
  Mem.wf s.dev ∧ (∀ x ∈ s.herds, x.Canonical) ∧ ∀ k ∈ s.kept, ∀ x ∈ k.herds, x.Canonical

/-! ### Where a syllable executes -/

/-- The core that executes exists. -/
def State.Placed (s : State) : Prop := s.cur.herd < s.herds.length ∧ s.cur.core < (s.herd s.cur.herd).cores.length

/-- The registers of a core have the sizes that R124 gives them. -/
def Regs.Sized (r : Regs) : Prop :=
  r.s.length = 24 ∧ r.p.length = 8 ∧ r.t.length = 8 ∧ (∀ x ∈ r.t, x.length = 32) ∧ r.k.length = 8 ∧ r.bt.length = 4 ∧
    r.deadT.length = 8 ∧ r.xr.length = 4

/-- Exception record j of r becomes that of q when a syllable of the bundle at `addr` raises the flags that hold of `raises` (R130): CLASS
and ADDR are written and VALID is set where a flag is raised and VALID is clear, and else the record stays; so do the other records. -/
def Records (r q : Regs) (j : Nat) (raises : Nat → Prop) (addr : BitVec 16) : Prop :=
  let x := r.xr.getD j 0
  let y := q.xr.getD j 0
  ((∃ k < 5, raises k) → x.getLsbD 31 = false →
    y.getLsbD 31 = true ∧ (∀ k < 5, (y.getLsbD (16 + k) = true ↔ raises k)) ∧ y.setWidth 16 = addr ∧ ∀ k, 21 ≤ k → k < 31 → y.getLsbD k = false) ∧
  (((∀ k < 5, ¬ raises k) ∨ x.getLsbD 31 = true) → y = x) ∧ ∀ i, i ≠ j → q.xr.getD i 0 = r.xr.getD i 0

/-- The registers after the write of p to a special register of the core, its flags apart; for another destination as they were. -/
def Pend.special (p : Pend) (r : Regs) : Regs :=
  match p.dest with
  | .special n => r.putSpecial n (p.val.setWidth 32)
  | _ => r

/-! ### Answers -/

/-- The syllable commits with one register write of latency `lat`: it answers the state in which that write is pending, and PBND
too where one of its sources fs reads past the bound block (R25, R133). -/
def Gives (i : Instr) (s : State) (fs : List (BitVec 5)) (lat : Nat) (d : Dest) (v : Row512) : Prop :=
  exec i s = .next ((s.notePbnd fs).put lat d v)

/-- The same with the flags that a scalar result of slot A or B carries (R145). -/
def GivesFlags (i : Instr) (s : State) (fs : List (BitVec 5)) (lat : Nat) (d : Dest) (v : Row512) (q : BitVec 1) (fl : Flags) : Prop :=
  exec i s = .next ((s.notePbnd fs).putFlags lat d v q fl)

/-- The syllable commits nothing and its core takes a trap of this class and cause (R386). -/
def Traps (i : Instr) (s : State) (cls cause : Nat) : Prop :=
  exec i s = .next (s.trapHere { cls := cls, cause := cause } s.cur.slot s.cur.pc .none)

/-- A command is in state u as the executing core of s has issued it (R249, R256). -/
structure Issued (s u : State) (k : CmdKind) (c : Cmd) : Prop where
  here : c ∈ u.cmds
  id : c.id = s.nextId
  kind : c.kind = k
  place : c.herd = s.cur.herd ∧ c.core = s.cur.core ∧ c.addr = s.cur.pc
  time : c.issue = s.tick
  outstanding : c.outstanding = true

/-- The syllable enters a walker or engine command of this kind among those in flight (R249, R256). -/
def Enters (i : Instr) (s : State) (k : CmdKind) : Prop :=
  ∃ (u : State) (c : Cmd), exec i s = .next u ∧ Issued s u k c

/-- A command with the schedule of R253 and a bound word of `unit` cycles a count (R254, R255, R267, R272): with a bound it traps in
interlocked mode; one that its walk refuses enters to report the fault, and traps in the root, which has no walk; and else it traps
where its promise exceeds the bound, and enters with the beats and the promise of its schedule where it does not. `enters P` says that
it enters as a command that P holds of. -/
def JudgesBound (i : Instr) (s : State) (bound unit : Nat) (q : Except Refused Plan) (enters : (Cmd → Prop) → Prop) : Prop :=
  (bound ≠ 0 → s.interlocked = true → Traps i s 6 0) ∧
  (bound = 0 ∨ s.interlocked = false →
    (∀ f, q = .error f → (s.isRoot ((s.R.ctx).getD 0) = true → Traps i s f.cls 0) ∧
      (s.isRoot ((s.R.ctx).getD 0) = false → enters fun c => c.walkFault = .some (f.cls, f.owner, f.write, f.va))) ∧
    ∀ p, q = .ok p →
      (bound ≠ 0 → s.tick + unit * bound < p.promise s.tick → Traps i s 17 0) ∧
      (bound = 0 ∨ p.promise s.tick ≤ s.tick + unit * bound →
        enters fun c => c.walkFault = .none ∧ c.promise = p.promise s.tick ∧ c.beats = p.beats ∧ c.packed = p.blocks))

/-- The same for a command of the executing core of this kind. -/
def EntersBound (i : Instr) (s : State) (k : CmdKind) (bound unit : Nat) (q : Except Refused Plan) : Prop :=
  JudgesBound i s bound unit q fun P => ∃ (u : State) (c : Cmd), exec i s = .next u ∧ Issued s u k c ∧ P c

/-- The syllable enters an array command of this operation in its herd's array, with its events planned (R305, R325). -/
def EntersArray (i : Instr) (s : State) (op : ArrOp) (fin : Nat) : Prop :=
  ∃ (v : State) (c : ArrCmd), exec i s = .next v ∧ c ∈ (v.herd s.cur.herd).array.cmds ∧ c.op = op ∧ c.core = s.cur.core ∧ c.at_ = s.tick ∧
    c.fin = fin ∧ c.id = s.nextId ∧ c.geo = s.R.mgeo ∧ ∀ d ∈ c.events s.cur.herd, d ∈ v.agenda

/-! ### What stays -/

/-- t differs from s in the pending writes of the executing core and in the agenda, and in nothing else. -/
def QueuesOnly (s t : State) : Prop :=
  ∃ (l : List Pend) (a : List Due), t = { (s.modR fun r => { r with pend := l }) with agenda := a }

/-- Every byte of every memory reads as before. -/
def SameMemory (s t : State) : Prop := ∀ (sp : Space) (a : Nat), t.readByte sp a = s.readByte sp a

/-- Every register that a program can name reads as before in every core: no write of the syllable has landed yet. -/
def SameRegisters (s t : State) : Prop :=
  ∀ h c, (∀ n, (t.regs h c).scalar n = (s.regs h c).scalar n) ∧ (∀ n, (t.regs h c).pred n = (s.regs h c).pred n) ∧
    (∀ k n, (t.regs h c).row k n = (s.regs h c).row k n) ∧ (t.regs h c).k = (s.regs h c).k ∧ (t.regs h c).bt = (s.regs h c).bt ∧
    (t.regs h c).rcur = (s.regs h c).rcur ∧ (t.regs h c).sw = (s.regs h c).sw ∧ (t.regs h c).fsr = (s.regs h c).fsr ∧
    (t.regs h c).tfsr = (s.regs h c).tfsr ∧ (t.regs h c).xr = (s.regs h c).xr ∧ (t.regs h c).trap = (s.regs h c).trap

/-- The syllables whose whole effect is register writes that land later: INT and INTI but for the divides, FPS, CMP, BIT, PATH,
F20, PRED, and the syllables of other majors of that shape. -/
def onlyWrites : Instr → Bool
  | .bset _ _ | .bsetr _ _ | .lidx _ _ | .phase _ | .pand _ _ _ | .por _ _ _ | .pxor _ _ _ | .pnot _ _ | .pmov _ _ | .vany _ _ _
  | .vall _ _ _ | .pfirst _ _ _ _ | .pcnt _ _ _ _ | .wrsr _ _ => true
  | .add _ _ _ _ | .sub _ _ _ _ | .mul _ _ _ | .mulh _ _ _ | .mulhu _ _ _ | .and _ _ _ | .or _ _ _ | .xor _ _ _ | .min _ _ _
  | .max _ _ _ | .minu _ _ _ | .maxu _ _ _ | .sel _ _ _ _ | .addi _ _ _ | .andi _ _ _ | .ori _ _ _ | .xori _ _ _ | .slti _ _ _
  | .sltui _ _ _ => true
  | .fadd _ _ _ _ | .fsub _ _ _ _ | .fmul _ _ _ _ | .fma _ _ _ _ | .fmin _ _ _ | .fmax _ _ _ | .fneg _ _ | .fabs _ _ | .f2i _ _ _ _
  | .i2f _ _ _ _ => true
  | .icmpEq _ _ _ | .icmpNe _ _ _ | .icmpLt _ _ _ | .icmpLtu _ _ _ | .icmpLe _ _ _ | .icmpLeu _ _ _ | .fcmpEq _ _ _ _
  | .fcmpLt _ _ _ _ | .fcmpLe _ _ _ _ | .fcmpUn _ _ _ _ => true
  | .shl _ _ _ | .shr _ _ _ | .sra _ _ _ | .rol _ _ _ | .fsh _ _ _ | .fshr _ _ _ | .clz _ _ | .ctz _ _ | .popc _ _ | .bext _ _ _ _
  | .bins _ _ _ | .bswap _ _ _ => true
  | .cpack _ _ _ | .cadd _ _ _ | .crow _ _ | .ccol _ _ | .bxdim _ _ _ | .bxok _ _ _ _ | .fli _ _ => true
  | .kbase _ | .krow _ | .kset _ _ _ | .ksetAll _ _ | .wprom _ _ | .gmeas _ _ | .apq _ _ => true
  | _ => false

/-- The scalar and row stores, with the level that each reaches. -/
def storeLevel : Instr → Option Nat
  | .lmemStb _ _ _ _ | .lmemSth _ _ _ _ | .lmemStw _ _ _ _ | .lmemTstr _ _ _ _ _ => some 1
  | .hmemStb _ _ _ _ | .hmemSth _ _ _ _ | .hmemStw _ _ _ _ | .hmemTstr _ _ _ _ _ => some 2
  | _ => none

/-! ### Conditions that several commands share -/

/-- The conditions of R196 under which an access of `size` bytes at a box passes its checks: its memory, its first byte, and the bytes
of its window that it reaches. -/
def AccessOk (s : State) (b : BitVec 256) (p : Word) (off : Int) (level : Nat) (rd wr scalar : Bool) (size align : Nat)
    (x : Reach) : Prop :=
  (level = 1 ∨ level = 2) ∧ s.level = level ∧ (rd = true → boxReads b = true) ∧ (wr = true → boxWrites b = true) ∧ boxBlocked b = false ∧
    inBox b (pathRow p) (pathCol p off) = true ∧
    (let row := (pathRow p).toNat
     let col := (pathCol p off).toNat
     let a := elemAddr b 0 0 row col
     let fin := elemAddr b 0 0 row 0 + runBytes (boxTile b) (boxFmt b) (boxExt b 0)
     (scalar = true → a + size ≤ fin) ∧ col * boxWidth b % 8 = 0 ∧ a % align = 0 ∧
       x = { space := s.space level, addr := a, count := Nat.min size (fin - a) })

/-- The banks that an HM access of `size` bytes would claim are free in these cycles; LM has none (R187, R198). -/
def BanksFree (s : State) (x : Reach) (size : Nat) (times : List Nat) : Prop :=
  match x.space with
  | .hm _ => ∀ t ∈ times, (s.herd s.cur.herd).freeBanks t (banksOf x.addr size) = true
  | _ => True

/-- The executing core's bank claims stand (R198). -/
def State.claimed (s : State) (x : Reach) (size : Nat) (times : List Nat) : State :=
  match x.space with
  | .hm _ => s.modHerd s.cur.herd fun h =>
      times.foldl (fun h t => h.claimAll s.tick t (banksOf x.addr size) (.core s.cur.core)) h
  | _ => s

/-- No byte of an access holds an error that cannot be corrected (R188, R192). -/
def NoBadByte (s : State) (x : Reach) : Prop := s.anyBad x.space x.addrs = false

/-- Whether an own device box is seen through PACK. -/
def State.packedBox (s : State) (own : BitVec 256) : Bool :=
  match s.apertureOf own with | .some x => x.xf == 1 | .none => false

/-- The own box of a chip task agrees with the apertures where these rows of it lie (R272). -/
def State.agrees (s : State) (own : BitVec 256) (up : Bool) (rows : List Run) : Bool :=
  rows.all fun r => (cutRun (if up then r.dst else r.src) r.len).all fun q => s.apertureOk own ((if up then r.dst else r.src) + q.1) q.2

/-- The executing core runs a chip task of a context without a translation stage (R78). -/
def State.untranslated (s : State) : Bool := s.level == 3 && s.isRoot ((s.R.ctx).getD 0)

/-- The checks of R267 that a copy command passes, with its own box and the children that its route names, in a cycle in which no array
command has issued. -/
structure CopyReady (s : State) (k : CopyKind) (route : Word) (o f : BitVec 3) (own : BitVec 256) (kids : List (Call × BitVec 256)) :
    Prop where
  calm : s.arrayIssues = false
  route_ok : routeOk k route = true
  own_box : s.box (route.toNat % 16) = .ok own
  children : (routeSiblings k route).mapM (s.routeChild ((route >>> 4).toNat % 16)) = .ok kids
  access : (if route.getLsbD 8 then boxWrites own else boxReads own) = true
  not_packed : (route.getLsbD 8 && s.level == 3 && s.packedBox own) = false
  held : (kids.any fun p => (p.1.space.herd).any (s.givenAway ((s.R.ctx).getD 0))) = false
  formats : (kids.all fun p => sameFormat own p.2) = true
  table : k = .gather ∨ k = .scatter → tableOk own (s.R.gm.getD o.toNat {}) s.R.idx = true ∧ s.R.tabAt ≤ s.tick
  inside : subBoxOk own (s.testedGeo k o).origins (s.testedGeo k o).extents = true
  far_inside : (kids.all fun p => subBoxOk p.2 (s.R.gm.getD f.toNat {}).origins (s.R.gm.getD o.toNat {}).extents) = true
  whole : (route.getLsbD 8 && s.level == 3) = true → ∀ p ∈ kids, scaleWhole s own (s.copyRunsTo k true o f own p.2) = true
  room : s.walkerFull (s.copyCmd k route 0 o f kids).walker = false

/-- A copy command moves byte x of its own sub-box to or from byte y of a child's (R21, R250, R263): byte j of the row (i3, i2, i1), or of
one of its groups of 32 columns, which the table places in the own box and their order in the child's. -/
def State.Moves (s : State) (k : CopyKind) (o f : BitVec 3) (own child : BitVec 256) (x y : Nat) : Prop :=
  let g := s.R.gm.getD o.toNat {}
  let c := s.R.gm.getD f.toNat {}
  let rows := runBytes (boxTile own) (boxFmt own)
  ∃ i3 < max 1 g.e3.toNat, ∃ i2 < max 1 g.e2.toNat, ∃ i1 < max 1 g.e1.toNat, ∃ j,
    let at_ (b : BitVec 256) (z : Geo) (col : Nat) : Nat := elemAddr b (z.o3.toNat + i3) (z.o2.toNat + i2) (z.o1.toNat + i1) col + j
    ((k = .copy ∨ k = .mcast) ∧ j < rows g.e0.toNat ∧ x = at_ own g g.o0.toNat ∧ y = at_ child c c.o0.toNat) ∨
    ((k = .gather ∨ k = .scatter) ∧ j < rows 32 ∧ ∃ n < g.e0.toNat / 32,
      x = at_ own g (g.o0.toNat + 32 * (s.R.idx.getD n 0).toNat) ∧ y = at_ child c (c.o0.toNat + 32 * n))

/-- A copy of these rows meets neither a translation, nor a packed page, nor a view (R78, R270, R277): a beat moves each byte that it
samples from where it stands to where it goes. -/
def State.plainCopy (s : State) (up : Bool) (own : BitVec 256) (kids : List (Call × BitVec 256)) : Prop :=
  (s.level = 2 ∧ ∀ p ∈ kids, ∀ n, s.marked (if up then p.1.space else s.ownSpace) n = false) ∨
    (s.untranslated = true ∧ ∀ a, s.apertureOf own = .some a → a.xf = 0)

/-- The first checks of a CTX command that reads a descriptor: its box, its address, and no other such command in flight (R423). -/
structure DescriptorReady (s : State) (p : Word) (h : BitVec 4) (align n : Nat) (b : BitVec 256) (va fin : Nat) : Prop where
  box : s.box h.toNat = .ok b
  level : s.level = 3
  access : boxReads b = true
  format : boxIsI32 b = true
  address : pathAddr b p = .some (va, fin)
  aligned : va % align = 0
  whole : va + n ≤ fin
  free : s.ctxFree = .ok ()
  view : s.untranslated = true → s.apertureOk b va n = true
  room : s.walkerFull s.cur.herd = false

/-- The array lets a command issue (R308, R325): the lease holds now and through its last writes, its unit is free, and no bank rule,
claim or slot hazard stands against it. -/
structure ArrayFree (s : State) (c : ArrCmd) (last : List Nat) (bank hazard busy : Bool) : Prop where
  lease : s.leaseOk last = .ok ()
  bank : bank = false
  clash : s.arrayClash c.touches = false
  hazard : hazard = false
  unit : busy = false

/-- R324 lets the executing core set lease entry e to l: no other core holds the array now, a closed window does not end before it
starts, no two valid windows of the table that results meet, with the changes that earlier bundles of this cycle have made, and every
command in flight stays covered. -/
structure LeaseFree (s : State) (e : Nat) (l : Lease) : Prop where
  mine : ∀ x, s.arr.leaseAt (s.leaseCycle s.tick) = .some x → x.core.toNat = s.cur.core
  ordered : l.v = true → l.isOpen = false → notAfter l.start l.fin = true
  apart : (((s.leasesNext s.cur.herd).set e l).filter (·.v)).Pairwise fun x y => x.holds y.start = false ∧ y.holds x.start = false
  covered : ∀ c ∈ s.arr.cmds, c.halted = false → s.tick ≤ c.fin → ∀ t ∈ c.lastWrites,
    ∃ x ∈ (s.leasesNext s.cur.herd).set e l, x.core.toNat = c.core ∧ x.holds (s.vcycAt c.ctx t) = true

/-! ### Loads and stores -/

/-- A scalar load of n bytes (R203): when its checks pass, the bytes of memory, zero-extended, at the level's latency. -/
def LoadsScalar (i : Instr) (s : State) (level n : Nat) (d : BitVec 5) (h : BitVec 4) (p f : BitVec 5) : Prop :=
  ∀ (path : Word) (b : BitVec 256) (x : Reach), s.src p 0 = .ok path → s.box h.toNat = .ok b →
    AccessOk s b path f.toInt level true false true n n x → s.room (if level = 1 then 3 else 6) 0 = .ok () →
    BanksFree s x n [s.tick + 1] → NoBadByte s x →
    ∃ w : Row512, (∀ k < 64, BitVec.extractLsb' (8 * k) 8 w = if k < n then s.readByte x.space (x.addr + k) else 0) ∧
      exec i s = .next (((s.notePbnd [p]).claimed x n [s.tick + 1]).put (if level = 1 then 3 else 6) (.scalar d.toNat) w)

/-- A scalar store of n bytes (R203, R197): its bytes are queued to perform in the next cycle in LM, the one after that in HM. -/
def StoresScalar (i : Instr) (s : State) (level n : Nat) (a : BitVec 5) (h : BitVec 4) (p f : BitVec 5) : Prop :=
  ∀ (v path : Word) (b : BitVec 256) (x : Reach), s.src2 a p = .ok (v, path) → s.box h.toNat = .ok b →
    AccessOk s b path f.toInt level false true true n n x → BanksFree s x n [s.tick + level] →
    exec i s = .next (((s.notePbnd [a, p]).claimed x n [s.tick + level]).store (s.tick + level) x.space
      ((List.range n).map fun k => (x.addr + k, BitVec.extractLsb' (8 * k) 8 v)))

/-- The row cursor steps at the end of the issue cycle when c is odd (R204). -/
def State.rowStep (s : State) (c : Nat) : State := if c % 2 = 1 then s.put 1 .rcur ((s.R.rcur + 1).setWidth 512) else s

/-- A row load by row-step code c (R204) of a page that is not marked: the bytes that the window reaches, zero beyond. -/
def LoadsRow (i : Instr) (s : State) (level : Nat) (t : BitVec 3) (c : BitVec 2) (h : BitVec 4) (p f : BitVec 5) : Prop :=
  ∀ (path : Word) (b : BitVec 256) (x : Reach), s.src p 0 = .ok path → s.box h.toNat = .ok b →
    AccessOk s b path f.toInt level true false false 64 (if c.toNat < 2 then 64 else 1) x →
    (level = 1 → s.marked x.space (x.addr / 4096) = false ∧ s.marked x.space ((x.addr + 63) / 4096) = false) →
    s.room (if level = 1 then 4 else 7) 1 = .ok () → BanksFree s x 64 [s.tick + 1] → NoBadByte s x →
    ∃ w : Row512, (∀ k < 64, BitVec.extractLsb' (8 * k) 8 w = if k < x.count then s.readByte x.space (x.addr + k) else 0) ∧
      exec i s = .next ((((s.notePbnd [p]).claimed x 64 [s.tick + 1]).enq
        { due := s.tick + (if level = 1 then 3 else 6), dest := .tileRow t.toNat s.R.rcur.toNat, val := w, mask := BitVec.allOnes 64 }).rowStep
          c.toNat)

/-- A row store by row-step code c (R204): the bytes of row rcur that the window reaches, those of the mask when c ≥ 2. -/
def StoresRow (i : Instr) (s : State) (level : Nat) (t : BitVec 3) (c : BitVec 2) (h : BitVec 4) (p f : BitVec 5) : Prop :=
  ∀ (path : Word) (b : BitVec 256) (x : Reach), s.liveRow t.toNat s.R.rcur.toNat = .ok () → s.src p 0 = .ok path →
    s.box h.toNat = .ok b →
    AccessOk s b path (if c.toNat < 2 then f.toInt else 0) level false true false 64 (if c.toNat < 2 then 64 else 1) x →
    BanksFree s x 64 [s.tick + level] →
    let m : Mask := if c.toNat < 2 then BitVec.allOnes 64 else s.R.pred (f.toNat % 8)
    exec i s = .next ((((s.notePbnd [p]).claimed x 64 [s.tick + level]).store (s.tick + level) x.space
      (((List.range x.count).filter fun k => m.getLsbD k).map fun k =>
        (x.addr + k, BitVec.extractLsb' (8 * k) 8 (s.R.row t.toNat s.R.rcur.toNat)))).rowStep c.toNat)

/-- The traps of R196, in their order: an unbound handle, an access or a level that does not fit, a path outside the box or a scalar
window that leaves its row, and an address that is not aligned. -/
def AccessTraps (i : Instr) (s : State) (h : BitVec 4) (p : Word) (off : Int) (level : Nat) (rd scalar : Bool) (size align : Nat) : Prop :=
  (s.box? h.toNat = .none → Traps i s 8 0) ∧
  ∀ b : BitVec 256, s.box? h.toNat = .some b →
    let a := elemAddr b 0 0 (pathRow p).toNat (pathCol p off).toNat
    let fin := elemAddr b 0 0 (pathRow p).toNat 0 + runBytes (boxTile b) (boxFmt b) (boxExt b 0)
    let fits : Prop := (if rd then boxReads b else boxWrites b) = true ∧ boxBlocked b = false ∧ s.level = level
    (¬ fits → Traps i s 9 0) ∧
    (fits → inBox b (pathRow p) (pathCol p off) = false → Traps i s 10 0) ∧
    (fits → inBox b (pathRow p) (pathCol p off) = true →
      (scalar = true → fin < a + size → Traps i s 10 0) ∧
      ((scalar = false ∨ a + size ≤ fin) → ((pathCol p off).toNat * boxWidth b % 8 ≠ 0 ∨ a % align ≠ 0) → Traps i s 11 0))

/-! ### Words that single claims use -/

/-- A scalar result w that satisfies P is given at latency `lat`, the sources being fs. -/
def GivesSome (i : Instr) (s : State) (fs : List (BitVec 5)) (lat : Nat) (d : Dest) (P : Word → Prop) : Prop :=
  ∃ w : Word, P w ∧ Gives i s fs lat d (wide w)

/-- A predicate result: all 64 bits alike (R181). -/
def Decides (i : Instr) (s : State) (fs : List (BitVec 5)) (p : BitVec 3) (q : Prop) : Prop :=
  (q → Gives i s fs 1 (.pred p.toNat) ((BitVec.allOnes 64).setWidth 512)) ∧ (¬ q → Gives i s fs 1 (.pred p.toNat) 0)

/-- A predicate operation gives the mask m at latency 1 (R152). -/
def GivesMask (i : Instr) (s : State) (d : BitVec 3) (m : Mask) : Prop := Gives i s [] 1 (.pred d.toNat) (m.setWidth 512)

/-- A V syllable executes: its row form or its whole-tile form begins (R136, R212), with the scalar operand x when S = 1; with DM = 1 it takes
the dead-read trap instead at the first dead row that it reads (R144). -/
def RunsTile (i : Instr) (s : State) (op : VOp) (d a : BitVec 3) (sc : Bool) (b : BitVec 5) (f : BitVec 3) (w q : Bool) : Prop :=
  ∀ x, (if sc then s.src b 0 else .ok 0) = .ok x →
    let v : VDec := { op := op, d := d.toNat, a := a.toNat, s := sc, b := b.toNat % 8, f := f.toNat, w := w, q := q }
    ((s.firstDead v = .none ∨ s.R.deadTraps = false) → s.room op.latency v.rowCount = .ok () →
      exec i s = .next (let u := if sc then s.notePbnd [b] else s; if w then u.tileWhole v x else u.tileRowForm v x)) ∧
    ∀ n, s.firstDead v = .some n → s.R.deadTraps = true →
      exec i s = .next (s.trapHere { cls := 7, d0 := BitVec.ofNat 32 n } s.cur.slot s.cur.pc .none)

/-- The elements of width w that are on are written with the values g, and no other is (R213). -/
def RowValues (o : VOut) (w n : Nat) (on : Nat → Bool) (g : Nat → Nat) : Prop :=
  ∀ i < n, (∀ k < max 8 w / 8, o.mask.testBit (w * i / 8 + k) = on i) ∧ lane w o.val i = if on i then g i else 0

/-- The flags that a row raises: in each tile lane those of the elements that are on and have their lowest byte there (R129, R214). -/
def RowFlags (o : VOut) (w n : Nat) (on : Nat → Bool) (fl : Nat → Flags) : Prop :=
  ∀ l < 16, ∀ k < 5, o.tfl.testBit (5 * l + k) = true ↔ ∃ i < n, on i = true ∧ w * i / 32 = l ∧ (fl i).testBit k = true

/-- Both, from one function of the element. -/
def RowIs (o : VOut) (w n : Nat) (on : Nat → Bool) (g : Nat → Nat × Flags) : Prop :=
  RowValues o w n on (fun i => (g i).1) ∧ RowFlags o w n on fun i => (g i).2

/-- A row compare gives a predicate with the bits of its true elements, zero for those that are off; a whole-tile compare gives elements of
ones and zeros (R226). -/
def RowCompares (o : VOut) (whole : Bool) (w n : Nat) (on p : Nat → Bool) : Prop :=
  if whole then RowValues o w n on fun i => if p i then 2 ^ w - 1 else 0
  else o.mask = 2 ^ 64 - 1 ∧ ∀ i < n, ∀ k < w / 8, o.val.testBit (w * i / 8 + k) = (p i && on i)

/-- `tred` in groups of 2^g (R237): the tree t, whose leaves are the elements as `read` gives them, gives every element of a group the
value at the group's first one; a group's flags go to its first element's lane, when any of its elements is on. -/
def RowReduces (o : VOut) (w n g : Nat) (on : Nat → Bool) (read : Nat → Nat) (step : Nat → Nat → Nat × Flags) : Prop :=
  ∀ t : Nat → Nat → Nat × Flags, (∀ i < n, t 0 i = (read i, 0)) →
    (∀ l < g, ∀ i < n, i % 2 ^ (l + 1) = 0 → ∃ z, step (t l i).1 (t l (i + 2 ^ l)).1 = z ∧
      t (l + 1) i = (z.1, (t l i).2 ||| (t l (i + 2 ^ l)).2 ||| z.2)) →
    RowValues o w n on (fun i => (t g (i / 2 ^ g * 2 ^ g)).1) ∧
    RowFlags o w n (fun i => i % 2 ^ g == 0 && (List.range (2 ^ g)).any fun j => on (i + j)) fun i => (t g i).2

/-- TINT, TCMP, `tred`, `tpack` and `tunpk` on integer elements (R216, R217, R226, R236, R237). -/
def TileIntegers (f : Nat) (whole : Bool) (v : VIn) (sg : Bool) : Prop :=
  let w := (tileFmt f).width
  let n := 512 / w
  let on (i : Nat) : Bool := v.guard.testBit (w * i / 8)
  let a (i : Nat) : Nat := lane w v.a i
  let b (i : Nat) : Nat := v.bl w i
  let d (i : Nat) : Nat := lane w v.d i
  let row (op : VOp) (g : Nat → Nat × Flags) : Prop := RowIs (vRow op f whole v) w n on g
  let val (z : Nat) : Int := if sg && z.testBit (w - 1) then (z : Int) - 2 ^ w else z
  let x (i : Nat) : Int := val (a i)
  let y (i : Nat) : Int := val (b i)
  let wrap (r : Int) : Nat × Flags := ((r % 2 ^ w).toNat, 0)
  let lo : Int := if sg then -2 ^ (w - 1) else 0
  let hi : Int := if sg then 2 ^ (w - 1) - 1 else 2 ^ w - 1
  let clamp (r : Int) : Nat × Flags := ((wrap (max lo (min hi r))).1, if r < lo ∨ hi < r then flOF else 0)
  let cmp (c : Nat) (p : Nat → Bool) : Prop :=
    RowCompares (vRow (.icmp c) f whole v) whole w n on p ∧ (vRow (.icmp c) f whole v).tfl = 0
  let red (op : VOp) (step : Int → Int → Int) : Prop :=
    RowReduces (vRow op f whole v) w n (min (v.bl 32 0 % 8) (Nat.log2 n)) on a fun p q => wrap (step (val p) (val q))
  (row (.add false) fun i => wrap (x i + y i)) ∧ (row (.sub false) fun i => wrap (x i - y i)) ∧ (row (.mul false) fun i => wrap (x i * y i)) ∧
  (row (.add true) fun i => clamp (x i + y i)) ∧ (row (.sub true) fun i => clamp (x i - y i)) ∧ (row (.mul true) fun i => clamp (x i * y i)) ∧
  (row .mulh fun i => wrap (x i * y i / 2 ^ w)) ∧ (row .min fun i => wrap (min (x i) (y i))) ∧ (row .max fun i => wrap (max (x i) (y i))) ∧
  (row .and fun i => (a i &&& b i, 0)) ∧ (row .or fun i => (a i ||| b i, 0)) ∧ (row .xor fun i => (a i ^^^ b i, 0)) ∧
  (row .shl fun i => (a i * 2 ^ (b i % w) % 2 ^ w, 0)) ∧ (row .shr fun i => (a i / 2 ^ (b i % w), 0)) ∧
  (row .sra fun i => wrap ((if (a i).testBit (w - 1) then (a i : Int) - 2 ^ w else a i) / 2 ^ (b i % w))) ∧
  (row .fsh fun i => ((a i * 2 ^ w + b i) * 2 ^ (d i % (2 * w)) / 2 ^ w % 2 ^ w, 0)) ∧
  (row (.abs false) fun i => wrap (x i).natAbs) ∧ (row (.abs true) fun i => clamp (x i).natAbs) ∧ (row .negSat fun i => clamp (-x i)) ∧
  (cmp 0 fun i => x i = y i) ∧ (cmp 1 fun i => x i ≠ y i) ∧ (cmp 2 fun i => x i < y i) ∧ (cmp 3 fun i => x i ≤ y i) ∧
  (cmp 4 fun i => y i < x i) ∧ (cmp 5 fun i => y i ≤ x i) ∧
  red .redAdd (· + ·) ∧ red .redMax max ∧ red .redMin min ∧
  RowIs (vRow .pack f whole v) (w / 2) (2 * n) (fun i => v.guard.testBit (w / 2 * i / 8))
    (fun i => ((if i < n then a i else lane w v.b (i - n)) % 2 ^ (w / 2), 0)) ∧
  (row .unpk fun i =>
    let c := lane (w / 2) v.a (v.bl 1 0 * n + i)
    (if sg && c.testBit (w / 2 - 1) then 2 ^ w - 2 ^ (w / 2) + c else c, 0))

/-- TFP, the floating-point compares and `tred` on FP32, BF16 and FP16 elements (R218 to R224, R226, R237): inputs are read and results
written under R49, a result is rounded once from its exact value. -/
def TileFloats (f : Nat) (whole : Bool) (v : VIn) (ff : FloatFmt) : Prop :=
  let w := ff.width
  let n := 512 / w
  let on (i : Nat) : Bool := v.guard.testBit (w * i / 8)
  let a (i : Nat) : Nat := lane w v.a i
  let b (i : Nat) : Nat := v.bl w i
  let row (op : VOp) (g : Nat → Nat × Flags) : Prop := RowIs (vRow op f whole v) w n on g
  let rd (x : Nat) : Val := readFloat v.flush ff x
  let out (x : Val × Flags) : Nat × Flags := let r := writeFloat v.flush ff v.rm x.1; (r.1, x.2 ||| r.2)
  let signed (neg : Bool) (x : Nat) : Nat := if neg then 2 ^ (w - 1) + x else x
  let nan (x : Nat) : Prop := ff.infBits < x % 2 ^ (w - 1)
  let raw (x : Nat) : Nat := if v.flush = true ∧ x / 2 ^ ff.mBits % 2 ^ ff.eBits = 0 then x / 2 ^ (w - 1) * 2 ^ (w - 1) else x
  let pass (x : Nat) : Nat := if nan x then ff.nanBits else raw x
  let key (x : Nat) : Int := if x < 2 ^ (w - 1) then x else 2 ^ (w - 1) - 1 - (x : Int)
  let pick (least : Bool) (x y : Nat) : Nat :=
    if nan x then pass y else if nan y then pass x
    else if (least = true ↔ key (raw x) ≤ key (raw y)) then raw x else raw y
  let add (x y : Nat) : Nat × Flags := out (addVal v.rm (rd x) (rd y))
  let cmp (c : Nat) (ordered : Bool) (p : Val → Val → Bool) : Prop :=
    let o := vRow (.fcmp c) f whole v
    (RowCompares o whole w n on fun i => p (rd (a i)) (rd (b i))) ∧
    RowFlags o w n on fun i => if ordered && (isNaN (rd (a i)) || isNaN (rd (b i))) then flNV else 0
  let num (x y : Val) : Bool := !isNaN x && !isNaN y
  let red (op : VOp) (step : Nat → Nat → Nat × Flags) : Prop :=
    RowReduces (vRow op f whole v) w n (min (v.bl 32 0 % 8) (Nat.log2 n)) on (fun i => pass (a i)) step
  (row .fadd fun i => add (a i) (b i)) ∧ (row .fsub fun i => out (addVal v.rm (rd (a i)) (negVal (rd (b i))))) ∧
  (row .fmul fun i => out (mulVal (rd (a i)) (rd (b i)))) ∧
  (row .fma fun i =>
    let p := mulVal (rd (a i)) (rd (b i))
    let z := addVal v.rm (rd (lane w v.d i)) p.1
    out (z.1, p.2 ||| z.2)) ∧
  (row .fmin fun i => (pick true (a i) (b i), 0)) ∧ (row .fmax fun i => (pick false (a i) (b i), 0)) ∧
  (row .fabs fun i => (if nan (a i) then ff.nanBits else raw (a i) % 2 ^ (w - 1), 0)) ∧
  (row .frint fun i => match rd (a i) with
    | .nan => (ff.nanBits, 0)
    | .inf _ => (a i, 0)
    | .fin neg m e => (if 0 ≤ e then raw (a i) else (convertFloat ff .rtz false (.fin neg (roundInt v.rm neg m e).1.natAbs 0)).1, 0)) ∧
  (row .fexp fun i => match rd (a i) with
    | .nan => (ff.nanBits, 0)
    | .inf _ => (ff.nanBits, flNV)
    | .fin neg m e =>
      let q : Int := (if neg then -1 else 0) - ff.mBits + 1
      if m = 0 then (ff.bias * 2 ^ ff.mBits, 0)
      else if ltMag 1 (-1) m e then (ff.nanBits, flNV)
      else ((convertFloat ff .rtz false (.fin false (exp2Scaled neg m e / 2 ^ (320 + q).toNat).toNat q)).1, flNX)) ∧
  (row .fins fun i => match rd (b i), rd (a i) with
    | .nan, _ => (ff.nanBits, 0)
    | .inf neg, _ => (if neg then 0 else ff.infBits, 0)
    | _, .nan => (ff.nanBits, 0)
    | _, .inf neg => (signed neg ff.infBits, 0)
    | .fin s p g, .fin neg m e =>
      let k : Int := min 300 (roundInt .rtz false p g).1
      writeFloat v.flush ff v.rm (.fin neg m (if s then e - k else e + k))) ∧
  (∃ g : Nat → Nat × Flags, row .frcp g ∧ ∀ i < n, match rd (a i) with
    | .nan => g i = (ff.nanBits, 0)
    | .inf neg => g i = (signed neg 0, 0)
    | .fin neg m e =>
      (m = 0 → g i = (signed neg ff.infBits, flDZ)) ∧
      (m ≠ 0 → ∃ q t : Nat, 2 ^ min 12 ff.mBits ≤ q ∧ q < 2 ^ (min 12 ff.mBits + 1) ∧ q * m ≤ 2 ^ t ∧ 2 ^ t < (q + 1) * m ∧
        g i = estimate ff v.flush neg q (-(t : Int) - e) (decide (q * m ≠ 2 ^ t)))) ∧
  (∃ g : Nat → Nat × Flags, row .frsq g ∧ ∀ i < n, match rd (a i) with
    | .nan => g i = (ff.nanBits, 0)
    | .inf neg => g i = if neg then (ff.nanBits, flNV) else (0, 0)
    | .fin neg m e =>
      (m = 0 → g i = (signed neg ff.infBits, flDZ)) ∧ (m ≠ 0 → neg = true → g i = (ff.nanBits, flNV)) ∧
      (m ≠ 0 → neg = false → ∃ (q t m' : Nat) (h : Int), ((m' = m ∧ e = 2 * h) ∨ (m' = 2 * m ∧ e = 2 * h + 1)) ∧
        2 ^ min 12 ff.mBits ≤ q ∧ q < 2 ^ (min 12 ff.mBits + 1) ∧ q * q * m' ≤ 2 ^ (2 * t) ∧ 2 ^ (2 * t) < (q + 1) * (q + 1) * m' ∧
        g i = estimate ff v.flush false q (-(t : Int) - h) (decide (q * q * m' ≠ 2 ^ (2 * t))))) ∧
  cmp 0 false (fun x y => num x y && !ltVal x y && !ltVal y x) ∧ cmp 1 true ltVal ∧ cmp 2 true (fun x y => num x y && !ltVal y x) ∧
  cmp 3 false (fun x y => isNaN x || isNaN y) ∧ cmp 4 true (fun x y => ltVal y x) ∧ cmp 5 true (fun x y => num x y && !ltVal x y) ∧
  red .redAdd add ∧ (red .redMax fun x y => (pick false x y, 0)) ∧ red .redMin fun x y => (pick true x y, 0)

/-- TMOV, which moves patterns (R235, R236, R238); a transposed row reads every row of ta. -/
def TileMoves (f : Nat) (whole : Bool) (v : VIn) : Prop :=
  let w := (tileFmt f).width
  let n := 512 / w
  let a (i : Nat) : Nat := lane w v.a i
  let row (op : VOp) (g : Nat → Nat) : Prop :=
    RowIs (vRow op f whole v) w n (fun i => v.guard.testBit (w * i / 8)) fun i => (g i, 0)
  let of_ (r i : Nat) : Nat := lane w (v.rows.getD r 0).toNat i
  row .mov a ∧ (row .bcast fun i => v.bl w i) ∧ (row .bcastL fun _ => a (v.bl 6 0 % n)) ∧
  (row .rot fun i => a ((i + (n - v.bl 6 0 % n)) % n)) ∧ (row .shuf fun i => a (v.bl w i % 64 % n)) ∧
  (row .sel fun i => if lane w v.d i ≠ 0 then a i else v.bl w i) ∧
  (w = 16 → row .trans fun i => of_ i v.r) ∧
  (w = 8 → row .trans fun i => if i < 32 then of_ i v.r else of_ (i - 32) (32 + v.r)) ∧
  (w = 32 → row .trans fun i => if v.r < 16 then of_ i v.r else of_ (16 + i) (v.r - 16))

/-- `tcvt` (R230, R46, R48, R49): part q of the source, or into part q of the destination, whose other elements stay. -/
def TileConverts (f d q : Nat) (sat whole : Bool) (v : VIn) : Prop :=
  let ws := (tileFmt f).width
  let wd := (tileFmt d).width
  let ns := 512 / ws
  let nd := 512 / wd
  let x (i : Nat) : Nat := lane ws v.a (if ns = nd then i else if nd < ns then q * nd + i else i - q * ns)
  let on (i : Nat) : Bool := v.guard.testBit (wd * i / 8) && (decide (nd ≤ ns) || decide (q * ns ≤ i ∧ i < q * ns + ns))
  let wrap (z : Int) : Nat := (z % 2 ^ wd).toNat
  let whole_ (sg : Bool) (c : Nat) : Int := if sg && c.testBit (ws - 1) then (c : Int) - 2 ^ ws else c
  q < max ns nd / min ns nd →
  RowIs (vRow (.cvt d q sat) f whole v) wd nd on fun i => match tileFmt f, tileFmt d with
    | .flt s, .flt t => flushResult v.flush t (convertFloat t v.rm sat (readFloat v.flush s (x i)))
    | .int sg _, .flt t =>
      let z := whole_ sg (x i)
      flushResult v.flush t (convertFloat t v.rm sat (.fin (decide (z < 0)) z.natAbs 0))
    | .flt s, .int sg _ =>
      let lo : Int := if sg then -2 ^ (wd - 1) else 0
      let hi : Int := if sg then 2 ^ (wd - 1) - 1 else 2 ^ wd - 1
      let out (z : Int) : Nat × Flags := (wrap (if sat then z else if sg then lo else hi), flNV)
      match readFloat v.flush s (x i) with
      | .nan => out 0
      | .inf neg => out (if neg then lo else hi)
      | .fin neg m e =>
        let z := roundInt v.rm neg m e
        if z.1 < lo then out lo else if hi < z.1 then out hi else (wrap z.1, if z.2 then flNX else 0)
    | .int sg _, .int t _ =>
      let lo : Int := if t then -2 ^ (wd - 1) else 0
      let hi : Int := if t then 2 ^ (wd - 1) - 1 else 2 ^ wd - 1
      (wrap (if sat then max lo (min hi (whole_ sg (x i))) else whole_ sg (x i)), 0)

/-- `tquant` (R232): the scale byte, the elements, and the zero bytes above them, of the block image of narrow index k. -/
def TileQuantises (f k : Nat) (whole : Bool) (v : VIn) (ff : FloatFmt) : Prop :=
  let nf := narrowFmt k
  let o := vRow (.quant k) f whole v
  let en (j : Nat) : Bool := v.guard.testBit (2 * j)
  let x (j : Nat) : Val := if en j then readFloat v.flush ff (lane 16 v.a j) else .fin false 0 0
  let special (j : Nat) : Prop := ∀ neg m e, x j ≠ .fin neg m e
  let wrap (z : Int) : Nat := (z % 2 ^ nf.width).toNat
  let top : Int := 2 ^ (nf.width - 1)
  (v.guard % 2 ^ 64 = 0 → o.mask = 0 ∧ o.tfl = 0) ∧
  (v.guard % 2 ^ 64 ≠ 0 → ∃ (e : Nat) (y : Nat → Nat × Flags),
    o.mask = 2 ^ 64 - 1 ∧ o.val < 2 ^ (8 * nf.bytes) ∧ lane 8 o.val (nf.bytes - 1) = e ∧ (∀ j < 32, lane nf.width o.val j = (y j).1) ∧
    RowFlags o 16 32 (fun _ => true) (fun j => (y j).2) ∧
    ((∃ j < 32, special j) → e = 255 ∧ ∀ j < 32, (y j).1 = (match nf with | .flt t => t.nanBits | _ => 0) ∧
      (special j → (y j).2 = flNV) ∧ (¬ special j → (y j).2 = 0)) ∧
    ((∀ j < 32, ¬ special j) →
      (∃ i < 32, ∃ neg m g, x i = .fin neg m g ∧ (∀ j < 32, ∀ s p h, x j = .fin s p h → ltMag m g p h = false) ∧
        e = if m = 0 then 127 else (max 0 (min 254 ((Nat.log2 m : Int) + g - nf.emax + 127))).toNat) ∧
      ∀ j < 32, ∀ s m g, x j = .fin s m g → match nf with
        | .flt t => y j = convertFloat t v.rm true (.fin s m (g + (127 - (e : Int))))
        | _ =>
          let z := roundInt v.rm s m (g + (127 - (e : Int)))
          y j = if top - 1 < z.1 then (wrap (top - 1), flOF + flNX) else if z.1 < -top then (wrap (-top), flOF + flNX)
            else (wrap z.1, if z.2 then flNX else 0)))

/-- `tdeq` and `tdeq.u` (R233, R231): the elements of the lower or the upper half, scaled, TERN code 0b10 reading 0. -/
def TileDequantises (f k : Nat) (hi u whole : Bool) (v : VIn) (ff : FloatFmt) : Prop :=
  let nf := narrowFmt k
  let s := if u then 127 else lane 8 v.a (nf.bytes - 1)
  RowIs (vRow (.deq k hi u) f whole v) ff.width (512 / ff.width) (fun i => v.guard.testBit (ff.width * i / 8)) fun i =>
    let c := lane nf.width v.a (if hi then 16 + i else i)
    let x : Val := match nf with
      | .flt t => decodeFloat t c
      | .int w => let z : Int := if c.testBit (w - 1) then (c : Int) - 2 ^ w else c; .fin (decide (z < 0)) z.natAbs 0
      | .tern => .fin (c == 3) (c % 2) 0
    match x with
    | .fin neg m e => if s = 255 then (ff.nanBits, 0) else writeFloat v.flush ff v.rm (.fin neg m (e + ((s : Int) - 127)))
    | .inf neg => if s = 255 then (ff.nanBits, 0) else writeFloat v.flush ff v.rm (.inf neg)
    | .nan => (ff.nanBits, 0)

/-- `tscx` (R234): the scale byte of the row goes to one byte of the scale register. -/
def TileScales (f k : Nat) (hi whole : Bool) (v : VIn) : Prop :=
  let o := vRow (.scx k hi) f whole v
  let at_ := if hi then 32 + v.r else v.r
  o.tfl = 0 ∧ (v.guard % 2 ^ 64 = 0 → o.mask = 0) ∧
  (v.guard % 2 ^ 64 ≠ 0 → o.mask = 2 ^ at_ ∧ lane 8 o.val at_ = lane 8 v.a ((narrowFmt k).bytes - 1))

/-! ### What the array computes -/

/-- The operands that an `mrun` has sampled for group g: the value of activation i of row r, positions beyond EXT0 reading 0 (R299). -/
def ArrCmd.activation (c : ArrCmd) (g r i : Nat) : Val :=
  let b := baseCode (boxCode c.src)
  readActivation b (if i < groupCols c.src ((pathCol c.path 0).toNat + 32 * g)
    then leNat (c.got (16 * g + r)) / 2 ^ (baseWidth b * i) % 2 ^ baseWidth b else 0)

/-- The scale of row r in group g: its byte of the scale register, or 127 (R301, R303). -/
def ArrCmd.rowScale (c : ArrCmd) (g r : Nat) : Nat :=
  if isBlockCode (boxCode c.src) then (((((c.scales.find? fun p => p.1 == g).map (·.2)).getD []).getD r 0 : Byte)).toNat else 127

/-- The bytes sampled from the slot for group g: the weight positions of each column that are not padding, and then its 128 records. -/
def ArrCmd.slotBytes (c : ArrCmd) (g : Nat) : List Byte := ((c.recs.find? fun p => p.1 == g).map (·.2)).getD []

/-- The record of column j in group g. -/
def ArrCmd.columnRecord (c : ArrCmd) (g j : Nat) : Nat :=
  leNat (((c.slotBytes g).drop (1 + j * blockBytes c.fmtb)).take (blockBytes c.fmtb))

/-- R42: the integer weight of element π(j) in a record r of code c. -/
def recordWeight (c r j : Nat) : Int :=
  let shape := r / 2 ^ 160 % 2 ^ 32
  match diffFormat c with
  | .some (w, _) => ((List.range (j + 1)).map fun (i : Nat) =>
      let d : Nat := r / 2 ^ (224 + w * ((List.range i).filter fun k => shape.testBit k).length) % 2 ^ w
      if shape.testBit i then (if i = 0 ∧ d.testBit (w - 1) then (d : Int) - 2 ^ w else (d : Int)) else (0 : Int)).sum
  | .none => if j < shape % 64 then -1 else if c = 0x18 ∧ j + shape / 256 % 64 < 32 then 0 else 1

/-- R43: a record of code c that may stand in a slot: null or well formed. -/
def RecordFits (c r : Nat) : Prop :=
  let shape := r / 2 ^ 160 % 2 ^ 32
  let k := ((List.range 32).filter fun j => shape.testBit j).length
  r = 0 ∨ (∀ i < 32, ∃ j < 32, r / 2 ^ (5 * j) % 32 = i) ∧ (∀ j < 24, r.testBit (200 + j) = false) ∧
    match diffFormat c with
    | .some (w, n) => k ≤ n ∧ r < 2 ^ (224 + w * k)
    | .none => r < 2 ^ 224 ∧
      (if c = 0x18 then shape % 64 + shape / 256 % 64 ≤ 32 ∧ shape = shape % 64 + 256 * (shape / 256 % 64) else shape ≤ 32)

/-- R299, R300: 32 finite elements x as integers X of unit 2^u, truncated toward zero. The codes of R299 have a fixed unit and lose nothing;
FP32, BF16 and FP16 take the unit from the row's largest element. -/
def RowAligns (b : Nat) (x : Nat → Val) (X : Nat → Int) (u : Int) : Prop :=
  let top (i : Nat) (t : Int) : Prop := ∃ neg m e, x i = .fin neg m e ∧ m ≠ 0 ∧ (Nat.log2 m : Int) + e = t
  (2 < b → u = (([(3, -9), (4, -16), (5, -4), (6, -3), (7, -1)] : List (Nat × Int)).lookup b).getD 0) ∧
  (b ≤ 2 → ((∀ i < 32, ∀ t, ¬ top i t) → u = 0) ∧
    ((∃ i < 32, ∃ t, top i t) → (∃ i < 32, top i (u + 31)) ∧ ∀ i < 32, ∀ t, top i t → t ≤ u + 31)) ∧
  ∀ i < 32, ∀ neg m e, x i = .fin neg m e → ∃ k : Nat, X i = (if neg then -(k : Int) else k) ∧
    k * 2 ^ (u - e).toNat ≤ m * 2 ^ (e - u).toNat ∧ m * 2 ^ (e - u).toNat < (k + 1) * 2 ^ (u - e).toNat ∧
    (2 < b → k * 2 ^ (u - e).toNat = m * 2 ^ (e - u).toNat)

/-- R301: what a group makes of one element of a set, from the values x of its row, the row's scale sa and the column's record r of code
c, of which n weight positions are no padding: the exact sum of weight times activation is rounded once to an FP32 partial, and once more
when the partial is added. -/
def GroupAdds (b c sa n r : Nat) (x : Nat → Val) (old : Nat) (new : Nat × Flags) : Prop :=
  let scale : Nat := if r = 0 then 127 else r / 2 ^ 192 % 256
  ∃ part : Nat × Flags,
    (let z := addVal .rne (readFloat true .fp32 old) (readFloat true .fp32 part.1)
     let y := writeFloat true .fp32 .rne z.1
     new = (y.1, part.2 ||| z.2 ||| y.2)) ∧
    ((scale = 255 ∨ sa = 255 ∨ ∃ i < 32, x i = .nan) → part = (0x7FC00000, 0)) ∧
    (scale ≠ 255 → sa ≠ 255 → (∀ i < 32, x i ≠ .nan) → (∃ i < 32, ∃ neg, x i = .inf neg) → part = (0x7FC00000, flNV)) ∧
    (scale ≠ 255 → sa ≠ 255 → (∀ i < 32, ∃ neg m e, x i = .fin neg m e) → ∃ (X : Nat → Int) (u : Int), RowAligns b x X u ∧
      let p : Int := ((List.range 32).map fun j =>
        let i := r / 2 ^ (5 * j) % 32
        if r ≠ 0 ∧ i < n then recordWeight c r j * X i else 0).sum
      part = writeFloat true .fp32 .rne (.fin (decide (p < 0)) p.natAbs (u + ((sa : Int) - 127) + ((scale : Int) - 127))))

/-- The record of column j, group k, of 48 KiB of slot bytes in code c (R297). -/
def slotRecord (c : Nat) (byte : Nat → Byte) (j k : Nat) : Nat :=
  leNat ((List.range (blockBytes c)).map fun i => byte ((j * slotGroups c + k) * blockBytes c + i))

/-- Whether the records of ng groups in every column may stand in a slot (R318). -/
def RecordsFit (c ng : Nat) (byte : Nat → Byte) : Prop := ∀ j < 128, ∀ k < ng, RecordFits c (slotRecord c byte j k)

/-- R318, R321: a slot takes a format, a group count and 48 KiB; a record or a header that does not fit leaves it empty. -/
def SlotTakes (x : WSlot) (c ng : Nat) (header : Prop) (byte : Nat → Byte) : Prop :=
  x.fmtb = c ∧ (∀ o < 49152, x.image.getD o 0 = byte o) ∧
  (header → RecordsFit c ng byte → x.ng = ng) ∧ (¬ (header ∧ RecordsFit c ng byte) → x.ng = 0)

/-- R318: the detail word of the weight-record fault, if there is one: the first bad record's column and group, or a bad header. -/
def LoadFaults (c ng : Nat) (header : Prop) (byte : Nat → Byte) (d : Option Word) : Prop :=
  (¬ header → d = .some 0x8000) ∧ (header → RecordsFit c ng byte → d = .none) ∧
  (header → ∀ j < 128, ∀ k < ng, k < 8 → ¬ RecordFits c (slotRecord c byte j k) →
    (∀ j' < 128, ∀ k' < ng, (j' < j ∨ j' = j ∧ k' < k) → RecordFits c (slotRecord c byte j' k')) →
    d = .some (BitVec.ofNat 32 (256 * j + k)))

/-- R44, R322: the integer codes of a group's elements, none for NaN; positions beyond the source's EXT0 are zero weights. -/
def GroupWeights (b n : Nat) (x : Nat → Nat) (W : Nat → Option Int) : Prop :=
  let f := (([(7, 1), (6, 3), (5, 4), (3, 9)] : List (Nat × Nat)).lookup b).getD 0
  ∀ i < 32, (n ≤ i → W i = .some 0) ∧ (i < n → match baseValue b (x i) with
    | .fin neg m e => ∃ k : Nat, W i = .some (if neg then -(k : Int) else k) ∧ k * 2 ^ (-e - f).toNat = m * 2 ^ (e + f).toNat
    | _ => W i = .none)

/-- R322: top-N selection keeps element i: fewer than N others are larger, NaN above every number and ties to the lower index. -/
def Keeps (top : Nat) (W : Nat → Option Int) (i : Nat) : Prop :=
  let larger (p q : Nat) : Prop := match W p, W q with
    | .none, .none => p < q
    | .none, .some _ => True
    | .some _, .none => False
    | .some y, .some z => z.natAbs < y.natAbs ∨ y.natAbs = z.natAbs ∧ p < q
  top = 0 ∨ ∃ l : List Nat, l.length < top ∧ ∀ p < 32, larger p i → p ∈ l

/-- R43: r is the canonical record of the integer weights v in code c under a scale. -/
def IsCanonical (c scale : Nat) (v : Nat → Int) (r : Nat) : Prop :=
  let at_ (j : Nat) : Nat := r / 2 ^ (5 * j) % 32
  r ≠ 0 ∧ RecordFits c r ∧ r / 2 ^ 192 % 256 = scale ∧
  (∀ j < 31, v (at_ j) < v (at_ (j + 1)) ∨ v (at_ j) = v (at_ (j + 1)) ∧ at_ j < at_ (j + 1)) ∧
  (∀ j < 32, recordWeight c r j = v (at_ j)) ∧
  (diffFormat c ≠ .none → ∀ j < 32, r.testBit (160 + j) = decide (v (at_ j) ≠ if j = 0 then 0 else v (at_ (j - 1))))

/-- R322: the record that `menc` makes of a group of base code b, its elements x (n of them inside the box) and its scale byte. -/
def GroupEncodes (b c n top scale : Nat) (x : Nat → Nat) (z : Nat × Flags) : Prop :=
  let f := (([(7, 1), (6, 3), (5, 4), (3, 9)] : List (Nat × Nat)).lookup b).getD 0
  ∃ W K : Nat → Option Int, GroupWeights b n x W ∧ (∀ i < 32, (Keeps top W i → K i = W i) ∧ (¬ Keeps top W i → K i = .some 0)) ∧
    let v (i : Nat) : Int := (K i).getD 0
    let bad : Prop := scale = 255 ∨ ∃ i < 32, K i = .none
    (bad → z.2 = 0 ∧ (∀ j < 32, z.1 / 2 ^ (5 * j) % 32 = j) ∧ z.1 / 2 ^ 160 = 255 * 2 ^ 32) ∧
    (¬ bad → scale < f → z = (0, flUF + flNX)) ∧
    (¬ bad → f ≤ scale → (IsCanonical c (scale - f) v z.1 ∧ z.2 = 0) ∨ ((∀ r, ¬ IsCanonical c (scale - f) v r) ∧ z = (0, flNV)))

/-- The next bundle is held by h, and issues in cycle t at the earliest. -/
def State.waitsUntil (s : State) (h : Hold) (t : Nat) : State := { s with cur := { s.cur with nextAt := max s.cur.nextAt t, hold := h } }

/-- What the next bundle waits for, beside its hold. -/
def State.gated (s : State) (g : Gate) : State := { s with cur := { s.cur with gate := g } }

/-- The arguments of a call with their geometry slots and declarations, from the argument bytes and the own boxes (R23, R368). -/
def State.callArgs (s : State) (t : Task) (bytes : List Nat) (boxes : List (BitVec 256)) : List (Geo × BitVec 256 × CallArg) :=
  (((bytes.map fun x => (x % 16, x / 16)).zip boxes).zipIdx).map fun p =>
    let g := s.R.gm.getD p.1.1.2 {}
    let decl := t.boxes.getD p.2 0
    (g, decl, { own := p.1.1.1, ownBox := p.1.2, geo := ownGeo p.1.2 g, childBox := childBox decl (ownGeo p.1.2 g) })

/-- The image whose task a frame runs. -/
def State.imageOf (s : State) (f : Frame) : Image := (s.image? f.image).getD { id := 0, code := [], tasks := [], root := 0 }

/-- The checks of R380 that a `wcall` passes, but for its bound: its frame f, the child's task record t, the target herd or core, the
argument bytes and the own boxes that they name. -/
structure CallReady (s : State) (target word : Word) (narg : Nat) (f : Frame) (t : Task) (goal : Nat) (bytes : List Nat)
    (boxes : List (BitVec 256)) : Prop where
  calm : s.arrayIssues = false
  narg_ok : narg ≤ 16
  target_ok : target >>> (if s.level = 3 then 7 else 2) = 0
  list_ok : word.toNat / 2 ^ 12 % 32 = 0 ∨ word.toNat / 2 ^ 12 % 32 + (narg + 3) / 4 ≤ 24
  bytes_read : (List.range narg).mapM (s.argByte (word.toNat / 2 ^ 12 % 32)) = .ok bytes
  bytes_ok : ∀ x ∈ bytes, x < 128
  frame : s.R.frame = .some f
  record : (s.imageOf f).tasks[word.toNat % 2 ^ 12]? = .some t
  levels : 2 ≤ s.level ∧ t.level + 1 = s.level
  herd : (if s.level = 3 then s.heldHerd f.ctx target.toNat else .ok target.toNat) = .ok goal
  group : s.R.group.length < 128
  free : s.occupied f.ctx t.level goal = false
  room : s.walkerFull (if s.level = 3 then goal else s.cur.herd) = false
  bound_boxes : ((bytes.map fun x => (x % 16, x / 16)).mapM fun p => s.box p.1) = .ok boxes
  agree : ∀ p ∈ s.callArgs t bytes boxes, argAgrees p.2.1 p.2.2.ownBox p.2.2.geo = true
  inside : ∀ p ∈ s.callArgs t bytes boxes, subBoxOk p.2.2.ownBox p.1.origins p.1.extents = true

/-- The bundle of a CTX command is held open until an engine has read its descriptor (R418). -/
def HoldsOpen (i : Instr) (s : State) : Prop :=
  ∃ (u : State) (w : Cur), exec i s = .next u ∧ (u.core s.cur.herd s.cur.core).hold = .engine ∧
    (u.core s.cur.herd s.cur.core).waiting = .some w ∧ u.cur.done = true

/-! ### Events -/

/-- A mailbox request that the engine carries out, not one that it has refused, and whose source still has its context (R55). -/
def MailReady (s : State) : Prop := s.ev.a = 0 ∧ s.mailCtx s.ev.src = .some s.ev.b

/-- In state x an untimed flit of context c for a fabric node leaves, with u as what follows: in this cycle while the context has a start
left in the window of R432 and none of its flits waits, and otherwise at the start of a later window; and never before a flit for that
node which waits. -/
def FlitLeaves (x u : State) (c : Option Nat) (node : Nat) (item : Sent) : Prop :=
  let q := x.port (((x.routes.find? fun r => r.1 == node).map (·.2)).getD 0)
  let now := x.gcyc / 4096
  let room : Prop := ∀ n, c = .some n →
    x.portCap n = 0 ∨ (q.started n now < x.portCap n ∧ ∀ z ∈ q.untimed, z.2 = n → z.1 / 4096 ≤ now)
  let waits (d : Due) : Prop := ∃ i, d.act = .flitStart i ∧ i.untimedNode = .some node
  (room → (∀ d ∈ x.agenda, ¬ waits d) → u.sent = item :: x.sent) ∧
  ((¬ room ∨ ∃ d ∈ x.agenda, waits d) → u.sent = x.sent ∧ ∃ d ∈ u.agenda, d.act = .flitStart item ∧ x.tick ≤ d.at_ ∧
    (¬ room → x.tick < d.at_) ∧ ∀ e ∈ x.agenda, waits e → e.at_ ≤ d.at_)

/-- The event answers its mailbox request with this status and these data (R55), the device then being as x says, but for the requests
that the engine takes up next. -/
def Answers (i : Instr) (s x : State) (status : Nat) (data : List Byte) : Prop :=
  ∃ u, exec i s = .next u ∧ FlitLeaves x u (x.mailCtx s.ev.src) s.ev.src.node (.response s.ev.src (s.ev.req.response status data)) ∧
    u.dev = x.dev ∧ u.ctxs = x.ctxs ∧ u.herds = x.herds ∧ u.calls = x.calls

/-- The frame that issued a command of a resident context still runs on its core (R371, R389). -/
structure IssuerHere (s : State) (c : Cmd) : Prop where
  herd : c.herd < s.herds.length
  core : c.core < (s.herd c.herd).cores.length
  here : (∀ k ∈ s.kept, k.ctx ≠ c.ctx) ∧ (s.ctx c.ctx).life = .resident
  mine : c.id ∈ (s.regs c.herd c.core).issued ∨ ∃ p ∈ (s.regs c.herd c.core).engPend, p.1 = c.id
  sized : (s.regs c.herd c.core).Sized

/-- The word v lands in scalar n of the frame that issued a command at the end of this cycle, in the command's place in issue order
(R134); until then every scalar is as it was, and no other write is added. -/
def ScalarLands (s u : State) (c : Cmd) (n : Nat) (v : Word) : Prop :=
  1 ≤ n → n ≤ 23 → IssuerHere s c →
    (∃ p : Pend, p.dest = .scalar n ∧ p.due = s.tick ∧ p.seq = c.seq ∧ p.val.setWidth 32 = v ∧
      (u.regs c.herd c.core).pend.Perm (p :: (s.regs c.herd c.core).pend)) ∧
    (∃ e ∈ u.agenda, e.at_ = s.tick ∧ e.phase = 4 ∧ e.act = .ev .registerWriteLand { a := c.herd, b := c.core }) ∧
    ∀ m, (u.regs c.herd c.core).scalar m = (s.regs c.herd c.core).scalar m

/-- Command id of s still stands in u, as P says. -/
def CmdBecomes (s u : State) (id : Nat) (P : Cmd → Cmd → Prop) : Prop :=
  ∀ c, s.cmd? id = .some c → ∃ c', u.cmd? id = .some c' ∧ c'.id = c.id ∧ c'.kind = c.kind ∧ P c c'

end Sys2Proof.Machine
end

