-- ==== Sys2Proof/Certificates/Slice0/Obligations.lean ====
section
/-! DEFINITION. Obligations.lean: the statements, in the words of Safety.lean: registers and operands, control flow, memory, the tile
unit, the array, commands, the hardware's events, and the machine. -/

open Sys2Proof Sys2Proof.Machine

/-! ### Reset -/

/-- R126, R127, R124: at reset every register of every core is as R126 says of the start of a program; that it is so before any
program is log entry 4 (DESIGN CHOICE). The memories read zero (DESIGN CHOICE, log entry 4), and are canonical, which
is the invariant of `CanonicalStep`. -/
def Obligations.ResetState : Prop :=
  (∀ h c : Nat, h < 96 → c < 4 →
    (∀ n, (State.reset.regs h c).scalar n = 0) ∧ (∀ n, n ≠ 0 → (State.reset.regs h c).pred n = 0) ∧
    (State.reset.regs h c).pred 0 = BitVec.allOnes 64 ∧ (∀ t n, (State.reset.regs h c).row t n = 0) ∧
    (State.reset.regs h c).k = List.replicate 8 0 ∧ (State.reset.regs h c).bt = List.replicate 4 0 ∧
    (State.reset.regs h c).rcur = 0 ∧ (State.reset.regs h c).loops = [] ∧ (State.reset.regs h c).deadS = 0 ∧
    (State.reset.regs h c).sw = 0 ∧ (State.reset.regs h c).fsr = 0 ∧ (State.reset.regs h c).tfsr = 0 ∧
    (State.reset.regs h c).xr = [0, 0, 0, 0] ∧ (State.reset.regs h c).pend = [] ∧ (State.reset.core h c).phase = 0 ∧
    (State.reset.regs h c).frame = .none ∧ Regs.Sized (State.reset.regs h c)) ∧
  (∀ sp a, State.reset.readByte sp a = 0) ∧ State.reset.herds.length = 96 ∧ (State.reset.ctxs.map (·.num)) = [0] ∧
  State.reset.Canonical

/-! ### Sources and destinations -/

/-- R110, R25, R105, R144: what a source specifier reads: a scalar register, or zero when it is 0 or dead, or the dead-read trap
under DM; the constant window, or the unbound-parameter fault; ix0; a literal. `notePbnd` sets sw.PBND, which lands with the results of
latency 1 (`PutQueuesOneWrite`, `LandingWritesOneRegister`), exactly where one of the specifiers reads past the bound block. -/
def Obligations.SourceSpecifiers : Prop :=
  ∀ (s : State) (f : BitVec 5) (i : Nat),
    (f = 0 → s.src f i = .ok 0) ∧
    (f.toNat ≤ 23 → f ≠ 0 → s.R.deadS.getLsbD f.toNat = false → s.src f i = .ok (s.R.s.getD f.toNat 0)) ∧
    (f.toNat ≤ 23 → f ≠ 0 → s.R.deadS.getLsbD f.toNat = true → s.R.sw.getLsbD 1 = false → s.src f i = .ok 0) ∧
    (f.toNat ≤ 23 → f ≠ 0 → s.R.deadS.getLsbD f.toNat = true → s.R.sw.getLsbD 1 = true →
      s.src f i = .error (.trap { cls := 7, d0 := f.setWidth 32 })) ∧
    (24 ≤ f.toNat → f.toNat ≤ 29 → s.R.bank = .none → s.src f i = .error (.trap { cls := 13 })) ∧
    (24 ≤ f.toNat → f.toNat ≤ 29 → ∀ b, s.R.bank = .some b →
      s.src f i = .ok (b.getD (s.R.winBase.toNat + (f.toNat - 24)) 0)) ∧
    (f = 30 → s.src f i = .ok s.cur.ix0) ∧ (f = 31 → s.src f i = .ok (s.cur.lits.getD i 0)) ∧
    ∀ fs : List (BitVec 5),
      let past : Prop := ∃ g ∈ fs, 24 ≤ g.toNat ∧ g.toNat ≤ 29 ∧ ∃ b, s.R.bank = .some b ∧ b.length ≤ s.R.winBase.toNat + (g.toNat - 24)
      (past → s.notePbnd fs = s.put 1 .pbnd 0) ∧ (¬ past → s.notePbnd fs = s)

/-- R133, R134: a result of latency L is queued to land at the end of cycle c + L − 1, with its landing planned, and the syllable
changes nothing else. -/
def Obligations.PutQueuesOneWrite : Prop :=
  ∀ (s : State) (lat : Nat) (d : Dest) (v : Row512), s.Placed →
    QueuesOnly s (s.put lat d v) ∧
    (s.put lat d v).R.pend.Perm ({ due := s.tick + lat - 1, seq := s.cur.seq, dest := d, val := v, addr := s.cur.pc } :: s.R.pend) ∧
    ∃ e ∈ (s.put lat d v).agenda, e.at_ = s.tick + lat - 1 ∧ e.phase = 4 ∧
      e.act = .ev .registerWriteLand { a := s.cur.herd, b := s.cur.core }

/-- R133, R134, R124, R111, R143, R128, R130: REGISTER_WRITE_LAND lands the pending write of the core that is due first, the later-issued one of
one cycle last; scalar 0 and p0 discard what is written to them, flags are ORed in, the exception record of the syllable's slot takes its
flags and its bundle's address where VALID is clear, and every other register keeps its value. -/
def Obligations.LandingWritesOneRegister : Prop :=
  ∀ (s : State) (p : Pend), s.ev.a < s.herds.length → s.ev.b < (s.herd s.ev.a).cores.length → Regs.Sized (s.regs s.ev.a s.ev.b) →
    firstPend (s.regs s.ev.a s.ev.b).pend = .some p → p.due ≤ s.tick →
    ∃ t, exec .registerWriteLand s = .next t ∧
      let r := s.regs s.ev.a s.ev.b
      let q := t.regs s.ev.a s.ev.b
      let b := p.special r
      q.pend = r.pend.erase p ∧
      (p.dest ≠ .phase → q.fsr = b.fsr ||| p.fflags ∧ q.tfsr = b.tfsr ||| p.tflags ∧ (p.slot = .none → q.xr = b.xr) ∧
        ∀ j < 4, p.slot = .some j → Records b q j (fun k => p.cls.getLsbD k = true) p.addr) ∧
      (p.dest = .phase → q.fsr = r.fsr ∧ q.tfsr = r.tfsr ∧ q.xr = r.xr ∧ (t.core s.ev.a s.ev.b).phase.toNat = p.val.toNat % 64) ∧
      (p.dest ≠ .phase → (t.core s.ev.a s.ev.b).phase = (s.core s.ev.a s.ev.b).phase) ∧
      (∀ n, p.dest = .special n → q.sw = b.sw) ∧
      (p.dest = .mode → ∀ k < 32, q.sw.getLsbD k = if k = 0 then p.val.getLsbD 0 else r.sw.getLsbD k) ∧
      (p.dest = .pbnd → ∀ k < 32, q.sw.getLsbD k = (k == 7 || r.sw.getLsbD k)) ∧
      (∀ n, p.dest = .scalar n → 0 < n → n < 24 → q.scalar n = p.val.setWidth 32) ∧ q.scalar 0 = 0 ∧
      (∀ n, p.dest = .pred n → 0 < n → n < 8 → q.pred n = p.val.setWidth 64) ∧ q.pred 0 = BitVec.allOnes 64 ∧
      (∀ k n, p.dest = .tileRow k n → k < 8 → n < 32 → q.row k n = mergeRow (r.row k n) p.val p.mask) ∧
      (∀ n, p.dest = .scale n → n < 8 → q.k.getD n 0 = mergeRow (r.k.getD n 0) p.val p.mask) ∧
      (∀ n, p.dest = .branch n → n < 4 → q.bt.getD n 0 = p.val.setWidth 16) ∧
      (p.dest = .rcur → q.rcur = p.val.setWidth 5) ∧ (p.dest = .winBase → q.winBase = p.val.setWidth 8) ∧
      (∀ m, p.dest ≠ .scalar m → q.scalar m = r.scalar m) ∧ (∀ m, p.dest ≠ .pred m → q.pred m = r.pred m) ∧
      (∀ k m, p.dest ≠ .tileRow k m → q.row k m = r.row k m) ∧ (∀ m, p.dest ≠ .scale m → q.k.getD m 0 = r.k.getD m 0) ∧
      (∀ m, p.dest ≠ .branch m → q.bt.getD m 0 = r.bt.getD m 0) ∧ (p.dest ≠ .rcur → q.rcur = r.rcur) ∧
      (p.dest ≠ .winBase → q.winBase = r.winBase) ∧
      (p.dest ≠ .mode → p.dest ≠ .pbnd → (∀ n, p.dest ≠ .special n) → q.sw = r.sw)

/-- R171, R133 and the memory rules: a syllable whose whole effect is register writes changes no register before its landing and
no byte of memory; it changes nothing but the executing core's pending writes and their landings. -/
def Obligations.RegisterSyllablesOnlyQueue : Prop :=
  ∀ (i : Instr) (s t : State), onlyWrites i = true → s.cur.trapped = false → s.cur.mustHold = false → exec i s = .next t →
    t.cur.trapped = false → t.cur.mustHold = false → QueuesOnly s t ∧ SameMemory s t ∧ SameRegisters s t

/-! ### INT, INTI, BIT, PATH, F20 -/

/-- R173: `add` and `sub` wrap, or clamp to the signed or the unsigned range. -/
def Obligations.AddAndSubtract : Prop :=
  ∀ (s : State) (d a b : BitVec 5) (x y : Word), s.src2 a b = .ok (x, y) →
    let gives (i : Instr) (P : Word → Prop) : Prop := GivesSome i s [a, b] 1 (.scalar d.toNat) P
    gives (.add d a b 0) (fun r => r.toNat = (x.toNat + y.toNat) % 2 ^ 32) ∧
    gives (.add d a b 1) (fun r => r.toInt = max (-2 ^ 31) (min (2 ^ 31 - 1) (x.toInt + y.toInt))) ∧
    gives (.add d a b 2) (fun r => r.toNat = min (2 ^ 32 - 1) (x.toNat + y.toNat)) ∧
    gives (.sub d a b 0) (fun r => r.toNat = (x.toNat + (2 ^ 32 - y.toNat)) % 2 ^ 32) ∧
    gives (.sub d a b 1) (fun r => r.toInt = max (-2 ^ 31) (min (2 ^ 31 - 1) (x.toInt - y.toInt))) ∧
    gives (.sub d a b 2) (fun r => r.toNat = x.toNat - y.toNat)

/-- R173, R135: the products, with latency 3: bits [31:0], and bits [63:32] of the signed and of the unsigned product. -/
def Obligations.Multiplications : Prop :=
  ∀ (s : State) (d a b : BitVec 5) (x y : Word), s.src2 a b = .ok (x, y) → s.room 3 0 = .ok () →
    GivesSome (.mul d a b) s [a, b] 3 (.scalar d.toNat) (fun r => r.toNat = x.toNat * y.toNat % 2 ^ 32) ∧
    GivesSome (.mulh d a b) s [a, b] 3 (.scalar d.toNat) (fun r => r.toInt = x.toInt * y.toInt / 2 ^ 32) ∧
    GivesSome (.mulhu d a b) s [a, b] 3 (.scalar d.toNat) (fun r => r.toNat = x.toNat * y.toNat / 2 ^ 32)

/-- R173: the bitwise operations, the four minima and maxima, and `sel` by bit 0 of its predicate as read at issue. -/
def Obligations.LogicAndSelection : Prop :=
  ∀ (s : State) (d a b : BitVec 5) (x y : Word), s.src2 a b = .ok (x, y) →
    let gives (i : Instr) (P : Word → Prop) : Prop := GivesSome i s [a, b] 1 (.scalar d.toNat) P
    gives (.and d a b) (fun r => ∀ k < 32, r.getLsbD k = (x.getLsbD k && y.getLsbD k)) ∧
    gives (.or d a b) (fun r => ∀ k < 32, r.getLsbD k = (x.getLsbD k || y.getLsbD k)) ∧
    gives (.xor d a b) (fun r => ∀ k < 32, r.getLsbD k = (x.getLsbD k != y.getLsbD k)) ∧
    gives (.min d a b) (fun r => r.toInt = min x.toInt y.toInt) ∧ gives (.max d a b) (fun r => r.toInt = max x.toInt y.toInt) ∧
    gives (.minu d a b) (fun r => r.toNat = min x.toNat y.toNat) ∧ gives (.maxu d a b) (fun r => r.toNat = max x.toNat y.toNat) ∧
    ∀ c : BitVec 3, gives (.sel d a b c) (fun r => r = if (s.R.pred c.toNat).getLsbD 0 then x else y)

/-- R175, R186: INTI with its immediate sign-extended from 9 bits; `fli` writes imm20 × 2^12 to s(8 + dst). -/
def Obligations.ImmediateArithmetic : Prop :=
  (∀ (s : State) (d a : BitVec 5) (i : BitVec 9) (x : Word), s.src a 0 = .ok x →
     let gives (j : Instr) (P : Word → Prop) : Prop := GivesSome j s [a] 1 (.scalar d.toNat) P
     let y : Word := BitVec.ofInt 32 i.toInt
     gives (.addi d a i) (fun r => r.toNat = (x.toNat + y.toNat) % 2 ^ 32) ∧
     gives (.andi d a i) (fun r => r = x &&& y) ∧ gives (.ori d a i) (fun r => r = x ||| y) ∧ gives (.xori d a i) (fun r => r = x ^^^ y) ∧
     gives (.slti d a i) (fun r => r.toNat = if x.toInt < i.toInt then 1 else 0) ∧
     gives (.sltui d a i) (fun r => r.toNat = if x.toNat < y.toNat then 1 else 0)) ∧
  (∀ (s : State) (d : BitVec 4) (i : BitVec 20),
     GivesSome (.fli d i) s [] 1 (.scalar (8 + d.toNat)) (fun r => r.toNat = i.toNat * 2 ^ 12))

/-- R174, R137: the quotient truncates, the remainder takes the sign of a, division by zero and the one overflow as the table of
R174 has them; the slot's divider is held through cycle c + 17. -/
def Obligations.Divisions : Prop :=
  ∀ (s : State) (d a b : BitVec 5) (x y : Word), s.src2 a b = .ok (x, y) → s.room 18 0 = .ok () →
    let gives (i : Instr) (P : Word → Prop) : Prop :=
      ∃ w : Word, P w ∧ exec i s = .next (((s.notePbnd [a, b]).put 18 (.scalar d.toNat) (wide w)).modMe fun k =>
        if s.cur.slot = 1 then { k with divA := s.tick + 18 } else { k with divB := s.tick + 18 })
    let wraps : Prop := x = 0x80000000#32 ∧ y = 0xFFFFFFFF#32
    gives (.div d a b 0) (fun q => (y = 0 → q = 0xFFFFFFFF#32) ∧ (wraps → q = 0x80000000#32) ∧
      (y ≠ 0 → ¬ wraps → q.toInt = x.toInt.tdiv y.toInt)) ∧
    gives (.div d a b 1) (fun r => (y = 0 → r = x) ∧ (wraps → r = 0) ∧ (y ≠ 0 → ¬ wraps → r.toInt = x.toInt.tmod y.toInt)) ∧
    gives (.divu d a b 0) (fun q => (y = 0 → q = 0xFFFFFFFF#32) ∧ (y ≠ 0 → q.toNat = x.toNat / y.toNat)) ∧
    gives (.divu d a b 1) (fun r => (y = 0 → r = x) ∧ (y ≠ 0 → r.toNat = x.toNat % y.toNat))

/-- R176, R177: shifts and rotation by b[4:0], the counts, and the reversals of bytes; the funnel shifts of the pair s(N+1):sN by
b[5:0]. -/
def Obligations.ShiftsAndCounts : Prop :=
  (∀ (s : State) (d a b : BitVec 5) (x y : Word),
     let gives (i : Instr) (l : List (BitVec 5)) (P : Word → Prop) : Prop := GivesSome i s l 1 (.scalar d.toNat) P
     let n := y.toNat % 32
     let byte (w : Word) (k : Nat) : Byte := BitVec.extractLsb' (8 * k) 8 w
     (s.src2 a b = .ok (x, y) →
       gives (.shl d a b) [a, b] (fun r => r.toNat = x.toNat * 2 ^ n % 2 ^ 32) ∧
       gives (.shr d a b) [a, b] (fun r => r.toNat = x.toNat / 2 ^ n) ∧
       gives (.sra d a b) [a, b] (fun r => r.toInt = x.toInt / 2 ^ n) ∧
       gives (.rol d a b) [a, b] (fun r => ∀ k < 32, r.getLsbD ((k + n) % 32) = x.getLsbD k)) ∧
     (s.src a 0 = .ok x →
       gives (.clz d a) [a] (fun r => if x = 0 then r = 32 else r.toNat ≤ 31 ∧ 2 ^ (31 - r.toNat) ≤ x.toNat ∧ x.toNat < 2 ^ (32 - r.toNat)) ∧
       gives (.ctz d a) [a] (fun r => if x = 0 then r = 32 else x.getLsbD r.toNat = true ∧ ∀ k < r.toNat, x.getLsbD k = false) ∧
       gives (.popc d a) [a] (fun r => r.toNat = ((List.range 32).filter fun k => x.getLsbD k).length) ∧
       gives (.bswap d a 0) [a] (fun r => ∀ k < 4, byte r k = byte x (3 - k)) ∧
       gives (.bswap d a 1) [a] (fun r => byte r 0 = byte x 1 ∧ byte r 1 = byte x 0 ∧ byte r 2 = byte x 3 ∧ byte r 3 = byte x 2))) ∧
  (∀ (s : State) (d n b : BitVec 5) (lo hi y : Word), (Instr.fsh d n b).wf = true →
     s.reg n.toNat = .ok lo → s.reg (n.toNat + 1) = .ok hi → s.src b 0 = .ok y →
     let pair := hi.toNat * 2 ^ 32 + lo.toNat
     let k := y.toNat % 64
     GivesSome (.fsh d n b) s [b] 1 (.scalar d.toNat) (fun r => r.toNat = pair * 2 ^ k % 2 ^ 64 / 2 ^ 32) ∧
     GivesSome (.fshr d n b) s [b] 1 (.scalar d.toNat) (fun r => r.toNat = pair / 2 ^ k % 2 ^ 32))

/-- R178: field extract and field insert, with pos = b[4:0] and w = min(b[10:5], 32). -/
def Obligations.BitFields : Prop :=
  ∀ (s : State) (d a b : BitVec 5) (x y old : Word), s.src2 a b = .ok (x, y) →
    let pos := y.toNat % 32
    let w := min (y.toNat / 32 % 64) 32
    GivesSome (.bext d a b 0) s [a, b] 1 (.scalar d.toNat) (fun r => r.toNat = x.toNat / 2 ^ pos % 2 ^ w) ∧
    GivesSome (.bext d a b 1) s [a, b] 1 (.scalar d.toNat) (fun r =>
      let f := x.toNat / 2 ^ pos % 2 ^ w
      if 0 < w ∧ f.testBit (w - 1) then r.toInt = (f : Int) - 2 ^ w else r.toNat = f) ∧
    (s.reg d.toNat = .ok old →
      GivesSome (.bins d a b) s [a, b] 1 (.scalar d.toNat) (fun r => ∀ k < 32,
        r.getLsbD k = if pos ≤ k ∧ k < pos + w then x.getLsbD (k - pos) else old.getLsbD k))

/-- R179: the PATH operations on 16-bit halves, and the extent of a bound box. -/
def Obligations.PathArithmetic : Prop :=
  ∀ (s : State) (d a b : BitVec 5) (x y : Word),
    let gives (i : Instr) (l : List (BitVec 5)) (P : Word → Prop) : Prop := GivesSome i s l 1 (.scalar d.toNat) P
    (s.src2 a b = .ok (x, y) →
      gives (.cpack d a b) [a, b] (fun r => r.toNat = x.toNat % 2 ^ 16 * 2 ^ 16 + y.toNat % 2 ^ 16) ∧
      gives (.cadd d a b) [a, b] (fun r => r.toNat / 2 ^ 16 = (x.toNat / 2 ^ 16 + y.toNat / 2 ^ 16) % 2 ^ 16 ∧
        r.toNat % 2 ^ 16 = (x.toNat + y.toNat) % 2 ^ 16)) ∧
    (s.src a 0 = .ok x →
      gives (.crow d a) [a] (fun r => r.toInt = (x.extractLsb' 16 16).toInt) ∧
      gives (.ccol d a) [a] (fun r => r.toInt = (x.extractLsb' 0 16).toInt)) ∧
    ∀ (h : BitVec 4) (k : BitVec 2) (z : BitVec 256), s.box? h.toNat = .some z →
      gives (.bxdim d h k) [] (fun r => r.toNat = z.toNat / 2 ^ (64 + 16 * k.toNat) % 2 ^ 16)

/-- R180: `bxok` returns 1 exactly when the path passes the tests of R19 and R20 with offset 0 and, for `.r` and `.w`, the access
kind agrees; an unbound handle raises the unbound-box fault in `bxdim` and in `bxok`; the format plays no part. -/
def Obligations.BoundTest : Prop :=
  ∀ (s : State) (d : BitVec 5) (h : BitVec 4) (b : BitVec 5) (v : BitVec 2) (p : Word), s.src b 0 = .ok p →
    (∀ z, s.box? h.toNat = .some z →
      let row : Int := (p.extractLsb' 16 16).toInt
      let col : Int := (p.extractLsb' 0 16).toInt
      let rows : Int := if z.toNat / 2 ^ 53 % 4 = 0 then 1 else (z.toNat / 2 ^ 80 % 2 ^ 16 : Nat)
      let acc := z.toNat / 2 ^ 55 % 4
      let holds : Prop := 0 ≤ row ∧ row < rows ∧ 0 ≤ col ∧ col < (z.toNat / 2 ^ 64 % 2 ^ 16 : Nat) ∧
        (v = 1 → acc = 1 ∨ acc = 3) ∧ (v = 2 → acc = 2 ∨ acc = 3)
      (holds → Gives (.bxok d h b v) s [b] 1 (.scalar d.toNat) (wide 1)) ∧
      (¬ holds → Gives (.bxok d h b v) s [b] 1 (.scalar d.toNat) (wide 0))) ∧
    (s.box? h.toNat = .none → Traps (.bxok d h b v) s 8 0 ∧ ∀ k : BitVec 2, Traps (.bxdim d h k) s 8 0)

/-! ### CMP and FPS -/

/-- R181, R172, R145: the integer compares write all 64 bits of pd with their result; the FP32 compares too, under the input rule of
R49: `fcmp.lt` and `fcmp.le` raise NV on a NaN, the others raise no flag, and with Q = 1 none is kept. Values are those of
`readFloat`, which reads a subnormal as zero in exposed mode. -/
def Obligations.Compares : Prop :=
  (∀ (s : State) (p : BitVec 3) (a b : BitVec 5) (x y : Word), s.src2 a b = .ok (x, y) →
     Decides (.icmpEq p a b) s [a, b] p (x = y) ∧ Decides (.icmpNe p a b) s [a, b] p (x ≠ y) ∧
     Decides (.icmpLt p a b) s [a, b] p (x.toInt < y.toInt) ∧ Decides (.icmpLtu p a b) s [a, b] p (x.toNat < y.toNat) ∧
     Decides (.icmpLe p a b) s [a, b] p (x.toInt ≤ y.toInt) ∧ Decides (.icmpLeu p a b) s [a, b] p (x.toNat ≤ y.toNat)) ∧
  (∀ (s : State) (p : BitVec 3) (a b : BitVec 5) (q : BitVec 1) (x y : Word), s.src2 a b = .ok (x, y) →
     let u := readFloat (!s.R.interlocked) .fp32 x.toNat
     let v := readFloat (!s.R.interlocked) .fp32 y.toNat
     let nan := isNaN u || isNaN v
     let gives (i : Instr) (r : Bool) (fl : Flags) : Prop :=
       GivesFlags i s [a, b] 1 (.pred p.toNat) (if r then (BitVec.allOnes 64).setWidth 512 else 0) q fl
     gives (.fcmpEq p a b q) (!nan && !ltVal u v && !ltVal v u) 0 ∧
     gives (.fcmpLt p a b q) (!nan && ltVal u v) (if nan then flNV else 0) ∧
     gives (.fcmpLe p a b q) (!nan && !ltVal v u) (if nan then flNV else 0) ∧
     gives (.fcmpUn p a b q) nan 0)

/-- R182, R183, R135: the FP32 arithmetic rounds its exact result once under `sw.RM`; its flags go with the result; `fma` reads its
destination as a third source; a NaN input gives 0x7FC00000 and no flag in `fadd`, `fsub` and `fmul`, ∞ − ∞ and 0 × ∞ give it with NV. -/
def Obligations.FloatArithmetic : Prop :=
  (∀ (s : State) (d a b : BitVec 5) (q : BitVec 1) (x y z : Word), s.src2 a b = .ok (x, y) →
     let fl := !s.R.interlocked
     let rd (w : Word) : Val := readFloat fl .fp32 w.toNat
     let out (v : Val × Flags) : Nat × Flags := let r := writeFloat fl .fp32 s.R.rm v.1; (r.1, r.2 ||| v.2)
     let gives (i : Instr) (lat : Nat) (r : Nat × Flags) : Prop :=
       s.room lat 0 = .ok () → GivesFlags i s [a, b] lat (.scalar d.toNat) (BitVec.ofNat 512 r.1) q r.2
     gives (.fadd d a b q) 3 (out (addVal s.R.rm (rd x) (rd y))) ∧
     gives (.fsub d a b q) 3 (out (addVal s.R.rm (rd x) (negVal (rd y)))) ∧
     gives (.fmul d a b q) 3 (out (mulVal (rd x) (rd y))) ∧
     (s.reg d.toNat = .ok z →
       gives (.fma d a b q) 4 (let m := mulVal (rd x) (rd y); let v := addVal s.R.rm (rd z) m.1; out (v.1, v.2 ||| m.2)))) ∧
  (∀ (rm : Round) (fl : Bool) (x y : Nat), x < 2 ^ 32 → y < 2 ^ 32 →
     let u := decodeFloat .fp32 x
     let v := decodeFloat .fp32 y
     ((u = .nan ∨ v = .nan) → fAdd .fp32 rm fl x y = (0x7FC00000, 0) ∧ fSub .fp32 rm fl x y = (0x7FC00000, 0) ∧
       fMul .fp32 rm fl x y = (0x7FC00000, 0)) ∧
     (∀ n : Bool, u = .inf n → v = .inf (!n) → fAdd .fp32 rm fl x y = (0x7FC00000, flNV)) ∧
     (∀ n : Bool, u = .inf n → v = .inf n → fSub .fp32 rm fl x y = (0x7FC00000, flNV) ∧ fAdd .fp32 rm fl x y = (x, 0)) ∧
     (∀ n : Bool, x % 2 ^ 31 = 0 → v = .inf n → fMul .fp32 rm fl x y = (0x7FC00000, flNV)) ∧
     (∀ n : Bool, u = .inf n → y % 2 ^ 31 = 0 → fMul .fp32 rm fl x y = (0x7FC00000, flNV)))

/-- R184, R49: minimum, maximum, negation and magnitude of FP32: a subnormal counts as a zero of its sign in exposed mode, one NaN
gives the other input, two give 0x7FC00000, −0 orders below +0, and the signs change nothing else. -/
def Obligations.FloatMinMaxAndSigns : Prop :=
  ∀ (s : State) (d a b : BitVec 5) (x y : Word),
    let read (w : Word) : Word := if !s.R.interlocked ∧ w.toNat / 2 ^ 23 % 256 = 0 then w &&& 0x80000000#32 else w
    let nan (w : Word) : Prop := 0x7F800000 < w.toNat % 2 ^ 31
    let key (w : Word) : Int := if w.toNat < 2 ^ 31 then w.toNat else 2 ^ 31 - 1 - (w.toNat : Int)
    let x' := read x
    let y' := read y
    let pick (i : Instr) (l : Word) : Prop :=
      GivesSome i s [a, b] 1 (.scalar d.toNat) (fun r =>
        (nan x → nan y → r = 0x7FC00000#32) ∧ (nan x → ¬ nan y → r = y') ∧ (¬ nan x → nan y → r = x') ∧ (¬ nan x → ¬ nan y → r = l))
    (s.src2 a b = .ok (x, y) →
      pick (.fmin d a b) (if key x' ≤ key y' then x' else y') ∧ pick (.fmax d a b) (if key x' ≤ key y' then y' else x')) ∧
    (s.src a 0 = .ok x →
      GivesSome (.fneg d a) s [a] 1 (.scalar d.toNat) (fun r =>
        (nan x → r = 0x7FC00000#32) ∧ (¬ nan x → r = x' ^^^ 0x80000000#32)) ∧
      GivesSome (.fabs d a) s [a] 1 (.scalar d.toNat) (fun r =>
        (nan x → r = 0x7FC00000#32) ∧ (¬ nan x → r = x' &&& 0x7FFFFFFF#32)))

/-- R185, R48: FP32 to INT32 by `sw.RM` or toward zero, saturating or with the integer indefinite; integers to FP32. -/
def Obligations.FloatConversions : Prop :=
  ∀ (s : State) (d a : BitVec 5) (q : BitVec 1) (x : Word), s.src a 0 = .ok x → s.room 3 0 = .ok () →
    (∀ v : BitVec 2,
      let rm : Round := if v = 2 ∨ v = 3 then .rtz else s.R.rm
      let sat : Bool := v = 1 ∨ v = 3
      let gives (r : Nat) (fl : Flags) : Prop := GivesFlags (.f2i d a q v) s [a] 3 (.scalar d.toNat) (BitVec.ofNat 512 r) q fl
      match readFloat (!s.R.interlocked) .fp32 x.toNat with
      | .nan => gives (if sat then 0 else 0x80000000) flNV
      | .inf neg => gives (if sat ∧ neg = false then 0x7FFFFFFF else 0x80000000) flNV
      | .fin neg m e =>
        let z : Int := (roundInt rm neg m e).1
        (z < -2 ^ 31 → gives 0x80000000 flNV) ∧ (2 ^ 31 ≤ z → gives (if sat then 0x7FFFFFFF else 0x80000000) flNV) ∧
          (-2 ^ 31 ≤ z → z < 2 ^ 31 → gives (z % 2 ^ 32).toNat (if (roundInt rm neg m e).2 then flNX else 0))) ∧
    (∀ v : BitVec 1,
      let z : Int := if v = 0 then x.toInt else x.toNat
      let r := writeFloat (!s.R.interlocked) .fp32 s.R.rm (.fin (decide (z < 0)) z.natAbs 0)
      GivesFlags (.i2f d a q v) s [a] 3 (.scalar d.toNat) (BitVec.ofNat 512 r.1) q r.2)

/-! ### BR, PRED, LOOP -/

/-- R148, R149, R151: `bset` and `bsetr` write a branch target with latency 1, the latter relative to the bundle's first word. A
transfer is taken by bit 0 of its condition as read at issue; taken, it leaves two delay bundles to issue before the target, which
is a landing (f0, f1 and f2 are where flow would go without it); `blink` gives s23 the word after the second delay bundle, at
latency 3; not taken, it has no effect. -/
def Obligations.Transfers : Prop :=
  (∀ (s : State) (n : BitVec 2) (a : BitVec 5) (x : Word), s.src a 0 = .ok x →
     GivesSome (.bset n a) s [a] 1 (.branch n.toNat) (fun w => w.toNat = x.toNat % 2 ^ 16) ∧
     GivesSome (.bsetr n a) s [a] 1 (.branch n.toNat) (fun w => w.toNat = (s.cur.pc.toNat + x.toNat) % 2 ^ 16)) ∧
  (∀ (s : State) (n : BitVec 2) (c : BitVec 3) (a : BitVec 5) (x : Word),
     let holds : Prop := (s.R.pred c.toNat).getLsbD 0 = true
     let goes (u : State) (target : BitVec 16) : State := u.modR fun r => { r with xfer := .some { target := target, left := 2, fresh := true } }
     let bt := s.R.bt.getD n.toNat 0
     (holds → exec (.bgo n c) s = .next (goes s bt) ∧ exec (.bgon n c) s = .next s) ∧
     (¬ holds → exec (.bgo n c) s = .next s ∧ exec (.bgon n c) s = .next (goes s bt) ∧ exec (.blink n c) s = .next s) ∧
     (holds → s.room 3 0 = .ok () →
       exec (.blink n c) s = .next ((goes s bt).put 3 (.scalar 23) (s.returnAddress.setWidth 512))) ∧
     (s.R.loops = [] → s.returnAddress.toNat = s.after (s.after s.cur.next.toNat) % 2 ^ 16) ∧
     (s.src a 0 = .ok x →
       (holds → exec (.bback c a) s = .next (goes (s.notePbnd [a]) (x.setWidth 16))) ∧
       (¬ holds → exec (.bback c a) s = .next (s.notePbnd [a])))) ∧
  (∀ (target : BitVec 16) (f0 f1 f2 : Flow), ∃ x1 x2,
     transferNext (.some { target := target, left := 2, fresh := true }) f0 = (f0.next, f0.land, x1) ∧
     transferNext x1 f1 = (f1.next, f1.land, x2) ∧ x1 ≠ .none ∧ x2 ≠ .none ∧ transferNext x2 f2 = (target, true, .none))

/-- R152: PRED, all sources read at issue, all results at latency 1. -/
def Obligations.PredicateOperations : Prop :=
  ∀ (s : State) (d a b : BitVec 3) (e : BitVec 2) (k : BitVec 5),
    let x := s.R.pred a.toNat
    let y := s.R.pred b.toNat
    let on (i : Nat) : Bool := (x &&& y).getLsbD (i * 2 ^ e.toNat)
    let n := 64 / 2 ^ e.toNat
    GivesMask (.pand d a b) s d (x &&& y) ∧ GivesMask (.por d a b) s d (x ||| y) ∧ GivesMask (.pxor d a b) s d (x ^^^ y) ∧
    GivesMask (.pnot d a) s d (~~~ x) ∧ GivesMask (.pmov d a) s d x ∧
    GivesMask (.vany d a b) s d (if x &&& y = 0 then 0 else BitVec.allOnes 64) ∧
    GivesMask (.vall d a b) s d (if x &&& y = y then BitVec.allOnes 64 else 0) ∧
    (∃ m, GivesMask (.pfirst d a b e) s d m ∧ ((∀ i < n, on i = false) → m = 0) ∧
      ∀ i < n, on i = true → (∀ j < i, on j = false) → ∀ l < 64, m.getLsbD l = decide (l / 2 ^ e.toNat = i)) ∧
    GivesSome (.pcnt a b k e) s [] 1 (.scalar k.toNat) (fun r => r.toNat = ((List.range n).filter on).length)

/-- R154, R155, R157: `loop`, `loopi` and `lpipe` push their entries, and the cases of R155 trap or skip; `lbreak` pops a KIND 0
entry, sets CLAMP in a KIND 1 entry, and has no effect on an empty stack. -/
def Obligations.LoopPushes : Prop :=
  (∀ (s : State) (a b : BitVec 5) (i : BitVec 8) (st : BitVec 4) (x y : Word),
     let np := s.cur.next
     let push (u : State) (e : LoopEntry) : State := u.modR fun r => { r with loops := e :: r.loops }
     let fin : BitVec 16 := y.setWidth 16
     let kStart : BitVec 16 := x.setWidth 16
     let kEnd : BitVec 16 := x.extractLsb' 16 16
     (s.src2 a b = .ok (x, y) →
       (6 ≤ s.R.loops.length → Traps (.loop a b) s 1 10 ∧ Traps (.lpipe st a b) s 1 10) ∧
       (s.R.loops.length < 6 →
         (fin < np → Traps (.loop a b) s 2 9) ∧
         (np ≤ fin → x = 0 → exec (.loop a b) s = .next ((s.notePbnd [a, b]).modR fun r =>
           { r with xfer := .some { target := BitVec.ofNat 16 (s.after fin.toNat), left := 0, fresh := true } })) ∧
         (np ≤ fin → x ≠ 0 → exec (.loop a b) s = .next (push (s.notePbnd [a, b])
           { start := np, fin := fin, count := x, index := 0, kind := false })) ∧
         ((kEnd < kStart ∨ kStart < np ∨ y.toNat % 2 ^ 16 < st.toNat + 1) → Traps (.lpipe st a b) s 2 9) ∧
         (kStart ≤ kEnd → np ≤ kStart → st.toNat + 1 ≤ y.toNat % 2 ^ 16 →
           exec (.lpipe st a b) s = .next (push (s.notePbnd [a, b])
             { pro := np, epi := y.extractLsb' 16 16, start := kStart, fin := kEnd, count := BitVec.ofNat 32 (y.toNat % 2 ^ 16)
               index := 0, kind := true, sm1 := st })))) ∧
     (s.src b 0 = .ok y →
       (6 ≤ s.R.loops.length → Traps (.loopi i b) s 1 10) ∧
       (s.R.loops.length < 6 → fin < np → Traps (.loopi i b) s 2 9) ∧
       (s.R.loops.length < 6 → np ≤ fin → exec (.loopi i b) s = .next (push (s.notePbnd [b])
         { start := np, fin := fin, count := BitVec.ofNat 32 (i.toNat + 1), index := 0, kind := false })))) ∧
  (∀ s : State, ∃ t, exec .lbreak s = .next t ∧
     (s.R.loops = [] → t = s) ∧
     ∀ e l, s.R.loops = e :: l →
       (e.kind = false → t = s.modR fun r => { r with loops := l }) ∧
       (e.kind = true → t = s.modR fun r => { r with loops := { e with clamp := true } :: l }))

/-- R158: `lidx` writes INDEX of entry k, and 0 when fewer than k + 1 are active; specifier 30 reads INDEX of ix0, and 0 with an
empty stack. -/
def Obligations.LoopIndex : Prop :=
  (∀ (s : State) (d : BitVec 5) (k : BitVec 3), k.toNat ≤ 5 →
    (∀ e, s.R.loops[k.toNat]? = .some e → Gives (.lidx d k) s [] 1 (.scalar d.toNat) (wide e.index)) ∧
    (s.R.loops.length < k.toNat + 1 → Gives (.lidx d k) s [] 1 (.scalar d.toNat) (wide 0))) ∧
  (∀ (s : State) (h c i : Nat), (s.regs h c).ixHold = .none →
    ((s.regs h c).loops = [] → (s.openBundle h c).src 30 i = .ok 0) ∧
    (∀ e l, (s.regs h c).loops = e :: l → (s.openBundle h c).src 30 i = .ok e.index))

/-- R156, R160: the back-edge of the bundle at p whose successor is `seq`; where it pops an entry, the back-edge of the next one with the same
END; a requested clamp, which is applied where INDEX ≤ COUNT − 2S, saves the entry with INDEX + S, CLAMP = 0 and RESUME = 1, and is not applied
to an entry of which an `lbreak` has set CLAMP (DEDUCED, log entry 51); the resumption at PRO; and what the end of a bundle makes of all this. -/
def Obligations.BackEdge : Prop :=
  (∀ (k : Core) (p seq : BitVec 16) (e : LoopEntry) (l : List LoopEntry),
    k.r.loops = e :: l → e.ask = false → e.fin = p → (∀ e' ∈ l.head?, e'.fin ≠ p) →
    let st := e.sm1.toNat + 1
    (e.kind = false → e.index.toNat + 1 < e.count.toNat →
      (k.flow p seq).loops = { e with index := e.index + 1 } :: l ∧ (k.flow p seq).next = e.start) ∧
    (e.kind = false → e.count.toNat ≤ e.index.toNat + 1 → (k.flow p seq).loops = l ∧ (k.flow p seq).next = seq) ∧
    (e.kind = true → e.clamp = false → e.index.toNat + st < e.count.toNat →
      (k.flow p seq).loops = { e with index := e.index + 1 } :: l ∧ (k.flow p seq).next = e.start) ∧
    (e.kind = true → (e.clamp = true ∨ e.count.toNat ≤ e.index.toNat + st) →
      (k.flow p seq).loops = l ∧ (k.flow p seq).next = e.epi)) ∧
  (∀ (k : Core) (p seq : BitVec 16) (e e' : LoopEntry) (l : List LoopEntry),
    k.r.loops = e :: e' :: l → k.r.loops.length ≤ 6 → e.ask = false → e.fin = p → e'.fin = p →
    (if e.kind then e.clamp = true ∨ e.count.toNat ≤ e.index.toNat + (e.sm1.toNat + 1) else e.count.toNat ≤ e.index.toNat + 1) →
    let k' : Core := { k with r := { k.r with loops := e' :: l } }
    (k.flow p seq).loops = (k'.flow p seq).loops ∧ (k.flow p seq).next = (k'.flow p seq).next ∧ (k.flow p seq).saved = (k'.flow p seq).saved) ∧
  (∀ (k : Core) (p seq : BitVec 16) (e : LoopEntry) (l : List LoopEntry),
    k.r.loops = e :: l → e.kind = true → e.ask = true → e.fin = p → (∀ e' ∈ l.head?, e'.fin ≠ p) →
    let st := e.sm1.toNat + 1
    (e.clamp = false → e.index.toNat + 2 * st ≤ e.count.toNat → (k.flow p seq).loops = l ∧ (k.flow p seq).next = e.epi ∧
      ∃ f, (k.flow p seq).saved = .some f ∧ f = { e with ask := false, index := f.index, clamp := false, resume := true } ∧
        f.index.toNat = e.index.toNat + st) ∧
    ((e.clamp = true ∨ e.count.toNat < e.index.toNat + 2 * st) → (k.flow p seq).saved = k.clampSaved ∧
      let k' : Core := { k with r := { k.r with loops := { e with ask := false } :: l } }
      (k.flow p seq).loops = (k'.flow p seq).loops ∧ (k.flow p seq).next = (k'.flow p seq).next)) ∧
  (∀ (k : Core) (e : LoopEntry) (l : List LoopEntry), k.r.loops = e :: l →
    (e.resume = true → k.resumed.r.loops = { e with resume := false } :: l ∧ k.resumed.r.pc = e.pro) ∧ (e.resume = false → k.resumed = k)) ∧
  (∀ (k : Core) (p seq : BitVec 16), (∀ e ∈ k.r.loops.head?, e.fin ≠ p) →
    (k.flow p seq).loops = k.r.loops ∧ (k.flow p seq).next = seq) ∧
  (∀ s : State, s.Placed → s.R.softTrap = .none → s.cur.eret = false →
    s.finishBundle.R.loops = (s.me.flow s.cur.pc s.cur.next).loops ∧
    s.finishBundle.me.clampSaved = (s.me.flow s.cur.pc s.cur.next).saved ∧
    s.finishBundle.R.pc = (transferNext s.R.xfer (s.me.flow s.cur.pc s.cur.next)).1)

/-! ### SYS -/

/-- R161, R163, R168, R165, R142, R169: `nop` has no effect; `yield` marks a drain point; the fences hold the next bundle until the
cycle after the last perform of the writes they order (DEDUCED, log entry 14; R165 says until they have performed), `fence.d` also by its gate,
which lists the core's walker commands with a write still to perform and opens in the cycle after the last of these performs; `mode` sets
sw.MODE for the bundles after it, `mode exposed` once no write is pending; after `wait a` and `waiti n` the next bundle issues at
c + 1 + Δ for a positive Δ, else at c + 1. -/
def Obligations.SystemSyllables : Prop :=
  (∀ s : State,
     exec .nop s = .next s ∧
     exec .yield s = .next { s with cur := { s.cur with yields := true } } ∧
     (let after (t : Nat) : Prop := (∀ x ∈ s.me.stores, x.due < t) ∧ (t = 0 ∨ ∃ x ∈ s.me.stores, t = x.due + 1)
      (∃ t, exec .fenceH s = .next (s.waitsUntil s.cur.hold t) ∧ after t) ∧
      ∃ t l, exec .fenceD s = .next ((s.waitsUntil s.cur.hold t).gated { s.cur.gate with writes := l }) ∧ after t ∧
        ∀ id, id ∈ l ↔ ∃ k ∈ s.cmds, k.id = id ∧ k.herd = s.cur.herd ∧ k.core = s.cur.core ∧ (∀ i, k.kind ≠ .callOut i) ∧
          ∃ b ∈ k.beats, b.performed = false ∧ b.abandoned = false ∧ b.dst ≠ []) ∧
     (∀ k : Core, k.gate.settled = false → (s.stillHeld k = true ↔ ∃ c ∈ s.cmds, c.id ∈ k.gate.writes ∧
       ∃ b ∈ c.beats, b.abandoned = false ∧ b.dst ≠ [] ∧ (b.performed = false ∨ s.tick ≤ b.performAt))) ∧
     exec .modeExposed s = .next ((s.put 1 .mode 0).gated { s.cur.gate with settled := true }) ∧
     exec .modeInterlocked s = .next (s.put 1 .mode 1)) ∧
  (∀ (s : State) (a : BitVec 5) (n : BitVec 8) (x : Word),
     (s.src a 0 = .ok x →
       let delta : Int := (x - BitVec.ofInt 32 (s.vcyc ((s.R.ctx).getD 0) + 1)).toInt
       (delta ≤ 0 → exec (.wait a) s = .next (s.notePbnd [a])) ∧
       (0 < delta → exec (.wait a) s = .next ((s.notePbnd [a]).waitsUntil .wait (s.tick + 1 + delta.toNat)))) ∧
     (n = 0 → exec (.waiti n) s = .next s) ∧
     (n ≠ 0 → exec (.waiti n) s = .next (s.waitsUntil .wait (s.tick + 1 + n.toNat)))) ∧
  (∀ s : State,
     let k := s.core s.ev.a s.ev.b
     (k.hold = .wait → k.issueAt ≤ s.tick → exec .waitExpiry s = .next (s.modCore s.ev.a s.ev.b fun k => { k with hold := .none })) ∧
     ((k.hold ≠ .wait ∨ s.tick < k.issueAt) → exec .waitExpiry s = .next s))

/-- R164: `kill` marks dead the scalars 1 to 23 that its value names, `killt` the rows of a tile, from the next cycle on (R143). -/
def Obligations.KillMarks : Prop :=
  (∀ (s : State) (a : BitVec 5) (t : BitVec 3) (x : Word), s.src a 0 = .ok x →
    (∃ m : BitVec 24, (∀ n < 24, m.getLsbD n = (decide (n ≠ 0) && x.getLsbD n)) ∧
      exec (.kill a) s = .next ((s.notePbnd [a]).plan s.tick 4 1 (.killMarks s.cur.herd s.cur.core m 0 0))) ∧
    exec (.killt t a) s = .next ((s.notePbnd [a]).plan s.tick 4 1 (.killMarks s.cur.herd s.cur.core 0 t.toNat x))) ∧
  (∀ (s : State) (h c t : Nat) (m : BitVec 24) (rows : BitVec 32), h < s.herds.length → c < (s.herd h).cores.length →
    Regs.Sized (s.regs h c) → t < 8 →
    ∃ u, s.runAct exec (.killMarks h c m t rows) = .next u ∧ (s.plat.tripped = false →
      (∀ n < 24, (u.regs h c).deadS.getLsbD n = ((s.regs h c).deadS.getLsbD n || m.getLsbD n)) ∧
      (∀ r < 32, (u.regs h c).rowDead t r = ((s.regs h c).rowDead t r || rows.getLsbD r)) ∧
      ∀ j r, j ≠ t → (u.regs h c).rowDead j r = (s.regs h c).rowDead j r))

/-- R127, R131, R166: `rdsr` reads each special register as it stands at issue; a read of a low half keeps the high half that goes
with it; `wrsr` queues its write where the executing context may write the register; a number that names no register, or one that
may not be written, traps; the landing keeps MODE and the reserved bits. -/
def Obligations.SpecialRegisters : Prop :=
  (∀ (s : State) (d : BitVec 5) (n : BitVec 6),
     let x := s.ctx ((s.R.ctx).getD 0)
     let v := BitVec.ofInt 64 (s.vcyc x.num)
     let eh := x.ecnt / 2 ^ 32 % 2 ^ 16 + x.eovf.toNat * 2 ^ 16
     let gives (k : BitVec 6) (w : Word) : Prop := n = k →
       exec (.rdsr d n) s = .next ((s.sampleHigh n.toNat).put 1 (.scalar d.toNat) (wide w))
     gives 0x00 s.R.sw ∧ gives 0x01 (s.R.fsr.setWidth 32) ∧
     gives 0x02 (BitVec.ofNat 32 (s.R.tfsr.toNat % 2 ^ 30)) ∧ gives 0x03 (BitVec.ofNat 32 (s.R.tfsr.toNat / 2 ^ 30 % 2 ^ 30)) ∧
     gives 0x04 (BitVec.ofNat 32 (s.R.tfsr.toNat / 2 ^ 60)) ∧
     gives 0x08 (s.R.xr.getD 0 0) ∧ gives 0x09 (s.R.xr.getD 1 0) ∧ gives 0x0A (s.R.xr.getD 2 0) ∧ gives 0x0B (s.R.xr.getD 3 0) ∧
     gives 0x10 (v.setWidth 32) ∧ gives 0x11 (s.R.vcycHi.getD (v.extractLsb' 32 32)) ∧
     gives 0x12 (BitVec.ofNat 32 x.ecnt) ∧ gives 0x13 (s.R.ecntHi.getD (BitVec.ofNat 32 eh)) ∧
     gives 0x14 (s.wclass.getD 0 0) ∧ gives 0x15 (s.wclass.getD 1 0) ∧ gives 0x16 (s.wclass.getD 2 0) ∧ gives 0x17 (s.wclass.getD 3 0) ∧
     gives 0x18 (s.R.rcur.setWidth 32) ∧ gives 0x19 (s.me.phase.setWidth 32) ∧
     gives 0x1A (BitVec.ofNat 32 (x.virtOf s.cur.herd % 128 * 256 + s.cur.core % 4)) ∧
     ((4 < n.toNat ∧ n.toNat < 8 ∨ 11 < n.toNat ∧ n.toNat < 16 ∨ 26 < n.toNat) → Traps (.rdsr d n) s 2 8) ∧
     (s.sampleHigh 0x10 = s.modR fun r => { r with vcycHi := .some (v.extractLsb' 32 32) }) ∧
     (s.sampleHigh 0x12 = s.modR fun r => { r with ecntHi := .some (BitVec.ofNat 32 eh) }) ∧
     (n ≠ 0x10 → n ≠ 0x12 → s.sampleHigh n.toNat = s)) ∧
  ((∀ (s : State) (n : BitVec 6) (a : BitVec 5) (x : Word), s.src a 0 = .ok x →
     let may : Prop := n.toNat ≤ 4 ∨ (8 ≤ n.toNat ∧ n.toNat ≤ 11) ∨ (20 ≤ n.toNat ∧ n.toNat ≤ 23 ∧ s.R.ctx = .some 0)
     (may → Gives (.wrsr n a) s [a] 1 (.special n.toNat) (wide x)) ∧ (¬ may → Traps (.wrsr n a) s 2 8)) ∧
   (∀ (r : Regs) (x : Word), r.xr.length = 4 →
     ((r.putSpecial 0 x).sw = (r.sw &&& 1#32) ||| (x &&& 0xFE#32)) ∧ (r.putSpecial 1 x).fsr = x.setWidth 5 ∧
     (r.putSpecial 2 x).tfsr.toNat = r.tfsr.toNat / 2 ^ 30 * 2 ^ 30 + x.toNat % 2 ^ 30 ∧
     (r.putSpecial 3 x).tfsr.toNat = r.tfsr.toNat / 2 ^ 60 * 2 ^ 60 + x.toNat % 2 ^ 30 * 2 ^ 30 + r.tfsr.toNat % 2 ^ 30 ∧
     (r.putSpecial 4 x).tfsr.toNat = r.tfsr.toNat % 2 ^ 60 + x.toNat % 2 ^ 20 * 2 ^ 60 ∧
     (∀ k < 4, (r.putSpecial (8 + k) x).xr.getD k 0 = x &&& 0x801FFFFF#32 ∧ ∀ j, j ≠ k → (r.putSpecial (8 + k) x).xr.getD j 0 = r.xr.getD j 0) ∧
     ∀ n : Nat, let q := r.putSpecial n x
       (n ≠ 0 → q.sw = r.sw) ∧ (n ≠ 1 → q.fsr = r.fsr) ∧ (n ∉ [2, 3, 4] → q.tfsr = r.tfsr) ∧ (n ∉ [8, 9, 10, 11] → q.xr = r.xr)))

/-- R167: `phase n` makes n the core's phase from the next cycle on, its own cycle counts under the old one, and 64 to 255 trap. -/
def Obligations.PhaseChange : Prop :=
  (∀ (s : State) (n : BitVec 8),
    (n.toNat ≤ 63 → Gives (.phase n) s [] 1 .phase (n.setWidth 512)) ∧ (64 ≤ n.toNat → Traps (.phase n) s 2 9)) ∧
  (∀ (k : Core) (p : Pend) (n : BitVec 8), p.dest = .phase → p.val = n.setWidth 512 → n.toNat ≤ 63 →
    (k.land p).phase.toNat = n.toNat ∧ (k.land p).phaseIn p.due = k.phase.toNat ∧
    ∀ t, t ≠ p.due → (k.land p).phaseIn t = n.toNat)

/-! ### Traps -/

/-- R162, R386: a software trap is taken once its bundle has committed whole: at once when no syllable is left, else it is kept for
the bundle's end; `eret` marks the bundle for the return in a handler, and is illegal elsewhere (cause 11). -/
def Obligations.SoftwareTrapAndReturn : Prop :=
  ∀ (s : State) (n : BitVec 8),
    (s.latch ≠ [] → exec (.trap n) s = .next (s.modR fun r => { r with softTrap := .some n })) ∧
    (s.latch = [] → exec (.trap n) s = .next (s.modR fun r => { r with softTrap := .some n }).finishBundle) ∧
    (s.me.inHandler = true → s.latch ≠ [] → exec .eret s = .next { s with cur := { s.cur with eret := true } }) ∧
    (s.me.inHandler = true → s.latch = [] →
      exec .eret s = .next ({ s with cur := { s.cur with eret := true } } : State).finishBundle) ∧
    (s.me.inHandler = false → Traps .eret s 1 11) ∧
    (s.Placed → s.R.softTrap = .some n → s.me.inHandler = false → ∃ u : State, s.finishBundle =
      u.trapHere { cls := 0, cause := n.toNat } 0 s.cur.pc (.some (transferNext s.R.xfer (s.me.flow s.cur.pc s.cur.next)).1) ∧
      u.tick = s.tick ∧ u.cur.herd = s.cur.herd ∧ u.cur.core = s.cur.core) ∧
    (s.Placed → s.R.softTrap = .none → s.cur.eret = true → ∃ u : State, s.finishBundle =
      u.returnFromTrap s.cur.herd s.cur.core (s.tick + 1) ∧ u.tick = s.tick ∧ (u.regs s.cur.herd s.cur.core).trap = s.R.trap)

/-- R386, R389, R391, R392: a trap that the executing context itself takes: the handler's entry, its status word, an empty loop
stack, no pending write, the record as the bound block; the frame captures what the core had, with its in-flight writes. -/
def Obligations.TrapEntry : Prop :=
  ∀ (s : State) (h c x : Nat) (tr : Trap) (addr pc : BitVec 16) (sres : Nat) (next : Option (BitVec 16)),
    h < s.herds.length → c < (s.herd h).cores.length → sres < 8 →
    (s.ctx x).revoking = false → s.routeTrap x x tr.cls = x → s.handled x x tr.cls = true →
    let k := s.core h c
    let t := s.takeTrap h c x x tr false addr pc sres sres next
    let q := t.regs h c
    q.pc = (s.ctx x).hentry.setWidth 16 ∧ q.loops = [] ∧ q.pend = [] ∧ q.xfer = .none ∧ q.winBase = 0 ∧ q.landing = true ∧
    q.sw = (k.r.sw &&& 0x80#32) ||| 1#32 ∧ (t.core h c).hold = .none ∧ (t.core h c).clampSaved = .none ∧ (t.core h c).issueAt = s.tick + 1 ∧
    q.bank = .some (trapRecord false sres tr x 0 addr (s.vcyc x)) ∧
    q.s = k.r.s ∧ q.p = k.r.p ∧ q.t = k.r.t ∧ q.k = k.r.k ∧ q.bt = k.r.bt ∧
    ∃ f, q.trap = .some f ∧ f.pc = pc ∧ f.sres = sres ∧ f.next = next ∧ f.loops = k.r.loops ∧ f.xfer = k.r.xfer ∧ f.bank = k.r.bank ∧
      f.clamp = k.clampSaved ∧ f.winBase = k.r.winBase ∧ f.rcur = k.r.rcur ∧ f.sw = (k.r.sw &&& ~~~0x70#32) ||| BitVec.ofNat 32 (sres * 16) ∧
      (k.tile = .none → f.queue = (k.r.pend.filter fun p => decide (s.tick ≤ p.due)).map fun p => { p with due := p.due - s.tick })

/-- R394: the return from a trap restores the captured frame, and each queued write lands at its old distance from the bundle
that resumes, beside the handler's own writes that are still pending. -/
def Obligations.TrapReturn : Prop :=
  ∀ (s : State) (h c e : Nat) (f : TrapFrame), h < s.herds.length → c < (s.herd h).cores.length →
    (s.regs h c).trap = .some f → f.noTask = false →
    let q := (s.returnFromTrap h c e).regs h c
    q.trap = .none ∧ q.pc = f.next.getD f.pc ∧ q.sw = f.sw ∧ q.rcur = f.rcur ∧ q.loops = f.loops ∧ q.xfer = f.xfer ∧ q.bank = f.bank ∧
    q.winBase = f.winBase ∧ q.landing = true ∧ q.pend.Perm ((f.queue.map fun p => { p with due := p.due + e }) ++ (s.regs h c).pend) ∧
    (f.next = .none → q.resume = f.sres) ∧ (f.next ≠ .none → q.resume = 0) ∧ ((s.returnFromTrap h c e).core h c).clampSaved = f.clamp

/-- R83, R84, R391, R79: where a trap of class n raised in x goes, owned by x or by an ancestor: to x itself when it owns and takes the
class and the class is not reserved, and past x when it does not take it, or the class is reserved; from there, or from its owner, to
the first context on the way to the root with the DELEG bit of the class and HENTRY.V, and to the root where there is none. -/
def Obligations.TrapRouting : Prop :=
  (∀ (s : State) (x p n : Nat), (s.ctx x).parent = .some p →
    (n < 27 → (s.ctx x).takes n = true → s.routeTrap x x n = x) ∧
    (n < 27 → (s.ctx x).takes n = false → (s.chain p).length < 5 → s.routeTrap x x n = s.firstTaker n (s.chain p)) ∧
    (27 ≤ n → s.routeTrap x x n = s.firstTaker n (s.chain p)) ∧
    ((s.ctx x).takes n = ((s.ctx x).deleg.getLsbD n && (s.ctx x).hentry.getLsbD 31))) ∧
  (∀ (s : State) (x owner n : Nat) (way : List Nat), way.length ≤ 5 →
    way.head? = .some (if owner = x ∧ 27 ≤ n then ((s.ctx x).parent).getD x else owner) →
    (∀ k y z, way[k]? = .some y → way[k + 1]? = .some z → (s.ctx y).parent = .some z) →
    (∀ y, way.getLast? = .some y → (s.ctx y).parent = .none) →
    ∃ k y, way[k]? = .some y ∧ s.routeTrap x owner n = y ∧
      (∀ j < k, ∀ z, way[j]? = .some z → ((s.ctx z).deleg.getLsbD n = false ∨ (s.ctx z).hentry.getLsbD 31 = false)) ∧
      (((s.ctx y).deleg.getLsbD n = true ∧ (s.ctx y).hentry.getLsbD 31 = true) ∨ k + 1 = way.length))

/-! ### LMEM, HMEM, LSPEC, HATOM, SCALE -/

/-- R203, R197, R135, R187, R190: the scalar loads, zero-extended, with latency 3 in LM and 6 in HM; the scalar stores, which perform in
c + 1 in LM and in c + 2 in HM; both with their bank claims in HM (R198). -/
def Obligations.ScalarLoadsAndStores : Prop :=
  ∀ (s : State) (d : BitVec 5) (h : BitVec 4) (p f : BitVec 5),
    LoadsScalar (.lmemLdb d h p f) s 1 1 d h p f ∧ LoadsScalar (.lmemLdh d h p f) s 1 2 d h p f ∧
    LoadsScalar (.lmemLdw d h p f) s 1 4 d h p f ∧ LoadsScalar (.hmemLdb d h p f) s 2 1 d h p f ∧
    LoadsScalar (.hmemLdh d h p f) s 2 2 d h p f ∧ LoadsScalar (.hmemLdw d h p f) s 2 4 d h p f ∧
    StoresScalar (.lmemStb d h p f) s 1 1 d h p f ∧ StoresScalar (.lmemSth d h p f) s 1 2 d h p f ∧
    StoresScalar (.lmemStw d h p f) s 1 4 d h p f ∧ StoresScalar (.hmemStb d h p f) s 2 1 d h p f ∧
    StoresScalar (.hmemSth d h p f) s 2 2 d h p f ∧ StoresScalar (.hmemStw d h p f) s 2 4 d h p f

/-- R204, R195, R135, R279: the row loads and stores by row-step code, with the step of the row cursor; a load of a marked page that
the expansion buffer holds reads the expanded bytes, and a window over two pages of which one is marked raises the alignment trap. -/
def Obligations.RowLoadsAndStores : Prop :=
  ∀ (s : State) (t : BitVec 3) (c : BitVec 2) (h : BitVec 4) (p f : BitVec 5),
    LoadsRow (.lmemTldr t c h p f) s 1 t c h p f ∧ LoadsRow (.hmemTldr t c h p f) s 2 t c h p f ∧
    StoresRow (.lmemTstr t c h p f) s 1 t c h p f ∧ StoresRow (.hmemTstr t c h p f) s 2 t c h p f ∧
    ∀ (path : Word) (b : BitVec 256) (x : Reach) (l : List Byte), s.src p 0 = .ok path → s.box h.toNat = .ok b →
      AccessOk s b path f.toInt 1 true false false 64 (if c.toNat < 2 then 64 else 1) x →
      (x.addr % 4096 ≤ 4032 → s.marked x.space (x.addr / 4096) = true → s.me.xbusy ≤ s.tick →
        s.me.xbuf = .some (x.addr / 4096, l) → s.room 4 1 = .ok () →
        exec (.lmemTldr t c h p f) s = .next (((s.notePbnd [p]).enq
          { due := s.tick + 3, dest := .tileRow t.toNat s.R.rcur.toNat, val := rowOf ((l.drop (x.addr % 4096)).take x.count)
            mask := BitVec.allOnes 64 }).rowStep c.toNat)) ∧
      (4032 < x.addr % 4096 → (s.marked x.space (x.addr / 4096) = true ∨ s.marked x.space (x.addr / 4096 + 1) = true) →
        Traps (.lmemTldr t c h p f) s 11 0)

/-- R196, R18, R19, R20: the traps of the scalar and row accesses of LMEM and HMEM, in the order in which they are judged. -/
def Obligations.AccessFaults : Prop :=
  ∀ (s : State) (a : BitVec 5) (t : BitVec 3) (c : BitVec 2) (h : BitVec 4) (p f : BitVec 5) (v path : Word),
    let align := if c.toNat < 2 then 64 else 1
    (s.src p 0 = .ok path →
      AccessTraps (.lmemLdb a h p f) s h path f.toInt 1 true true 1 1 ∧ AccessTraps (.lmemLdh a h p f) s h path f.toInt 1 true true 2 2 ∧
      AccessTraps (.lmemLdw a h p f) s h path f.toInt 1 true true 4 4 ∧ AccessTraps (.hmemLdb a h p f) s h path f.toInt 2 true true 1 1 ∧
      AccessTraps (.hmemLdh a h p f) s h path f.toInt 2 true true 2 2 ∧ AccessTraps (.hmemLdw a h p f) s h path f.toInt 2 true true 4 4 ∧
      AccessTraps (.lmemTldr t c h p f) s h path f.toInt 1 true false 64 align ∧
      AccessTraps (.hmemTldr t c h p f) s h path f.toInt 2 true false 64 align ∧
      (s.liveRow t.toNat s.R.rcur.toNat = .ok () →
        let off := if c.toNat < 2 then f.toInt else 0
        AccessTraps (.lmemTstr t c h p f) s h path off 1 false false 64 align ∧
        AccessTraps (.hmemTstr t c h p f) s h path off 2 false false 64 align)) ∧
    (s.src2 a p = .ok (v, path) →
      AccessTraps (.lmemStb a h p f) s h path f.toInt 1 false true 1 1 ∧ AccessTraps (.lmemSth a h p f) s h path f.toInt 1 false true 2 2 ∧
      AccessTraps (.lmemStw a h p f) s h path f.toInt 1 false true 4 4 ∧ AccessTraps (.hmemStb a h p f) s h path f.toInt 2 false true 1 1 ∧
      AccessTraps (.hmemSth a h p f) s h path f.toInt 2 false true 2 2 ∧ AccessTraps (.hmemStw a h p f) s h path f.toInt 2 false true 4 4)

/-- R205 to R208: an advanced load reads memory and enters its destination in the address table; a check load takes the bytes of the
entry that stands for its destination, address and width, else reads memory, and removes the entry; `atclr` removes the entries that
overlap its window, `atclr.all` every entry. -/
def Obligations.SpeculativeLoads : Prop :=
  (∀ (s : State) (d : BitVec 5) (t : BitVec 3) (c : BitVec 1) (h : BitVec 4) (p f : BitVec 5) (path : Word) (b : BitVec 256) (x : Reach),
    s.src p 0 = .ok path → s.box h.toNat = .ok b →
    let u := s.notePbnd [p]
    let word : Dest := .scalar d.toNat
    let row : Dest := .tileRow t.toNat s.R.rcur.toNat
    let drop (y : State) (e : Dest) : State := y.modMe fun k => { k with table := k.table.filter fun z => z.dest ≠ e }
    let mem : Row512 := rowOf (s.readRange x.space x.addr x.count)
    let entry (e : Dest) (n : Nat) : AdvLoad := { dest := e, addr := x.addr, width := n, reach := x.addrs, bytes := mem }
    let last (y : State) (e : Dest) (v : Row512) : State :=
      (y.enq { due := s.tick + 3, dest := e, val := v, mask := BitVec.allOnes 64 }).rowStep c.toNat
    let found (e : Dest) (n : Nat) : Option AdvLoad := s.me.table.find? fun z => z.dest = e && z.addr == x.addr && z.width == n
    (AccessOk s b path f.toInt 1 true false true 4 4 x → s.room 3 0 = .ok () →
      (NoBadByte s x →
        (exec (.ldwa d h p f) s = .next ((u.modMe fun k => k.enterLoad (entry word 4)).put 3 word mem)) ∧
        (found word 4 = .none → exec (.ldwc d h p f) s = .next ((drop u word).put 3 word mem))) ∧
      (∀ e, found word 4 = .some e → exec (.ldwc d h p f) s = .next ((drop u word).put 3 word e.bytes))) ∧
    (AccessOk s b path f.toInt 1 true false false 64 64 x → s.room 4 1 = .ok () →
      (s.marked x.space (x.addr / 4096) = true → Traps (.tldra t c h p f) s 9 0 ∧ Traps (.tldrc t c h p f) s 9 0) ∧
      (s.marked x.space (x.addr / 4096) = false →
        (NoBadByte s x →
          (exec (.tldra t c h p f) s = .next (last (u.modMe fun k => k.enterLoad (entry row 64)) row mem)) ∧
          (found row 64 = .none → exec (.tldrc t c h p f) s = .next (last (drop u row) row mem))) ∧
        (∀ e, found row 64 = .some e → exec (.tldrc t c h p f) s = .next (last (drop u row) row e.bytes)))) ∧
    (inBox b (pathRow path) (pathCol path f.toInt) = false → Traps (.atclr h p f) s 10 0) ∧
    (inBox b (pathRow path) (pathCol path f.toInt) = true →
      let a := elemAddr b 0 0 (pathRow path).toNat (pathCol path f.toInt).toNat
      let fin := elemAddr b 0 0 (pathRow path).toNat 0 + runBytes (boxTile b) (boxFmt b) (boxExt b 0)
      ∃ l, exec (.atclr h p f) s = .next (u.modMe fun k => { k with table := l }) ∧
        ∀ e, e ∈ l ↔ e ∈ s.me.table ∧ ∀ q ∈ e.reach, ¬ (a ≤ q ∧ q < min (a + 64) fin))) ∧
  (∀ s : State, exec .atclrAll s = .next (s.modMe fun k => { k with table := [] })) ∧
  (∀ (k : Core) (e : AdvLoad), (e.dest = .scalar 0 → k.enterLoad e = k) ∧
    (e.dest ≠ .scalar 0 → k.table.length ≤ 16 → e ∈ (k.enterLoad e).table ∧ (k.enterLoad e).table.length ≤ 16 ∧
      ∀ z ∈ (k.enterLoad e).table, z = e ∨ (z ∈ k.table ∧ z.dest ≠ e.dest)))

/-- R209, R210: the eight atomics: the old word to sN with latency 6, the new word stored at c + 2, the banks of both cycles. -/
def Obligations.Atomics : Prop :=
  ∀ (s : State) (n : BitVec 5) (h : BitVec 4) (p f : BitVec 5) (v v2 path : Word) (b : BitVec 256) (x : Reach),
    s.reg n.toNat = .ok v → s.src p 0 = .ok path → s.box h.toNat = .ok b → AccessOk s b path f.toInt 2 true true true 4 4 x →
    s.room 6 0 = .ok () → BanksFree s x 4 [s.tick + 1, s.tick + 2] → NoBadByte s x →
    ∃ old : Word, (∀ k < 4, BitVec.extractLsb' (8 * k) 8 old = s.readByte x.space (x.addr + k)) ∧
      let gives (i : Instr) (P : Word → Prop) : Prop := ∃ new : Word, P new ∧
        exec i s = .next ((((s.notePbnd [p]).claimed x 4 [s.tick + 1, s.tick + 2]).store (s.tick + 2) x.space
          ((List.range 4).map fun k => (x.addr + k, BitVec.extractLsb' (8 * k) 8 new))).put 6 (.scalar n.toNat) (wide old))
      gives (.amadd n h p f) (fun w => w.toNat = (old.toNat + v.toNat) % 2 ^ 32) ∧ gives (.amswap n h p f) (fun w => w = v) ∧
      (s.reg (n.toNat + 1) = .ok v2 → gives (.amcas n h p f) (fun w => w = if old = v then v2 else old)) ∧
      gives (.ammin n h p f) (fun w => w.toInt = min old.toInt v.toInt) ∧
      gives (.ammax n h p f) (fun w => w.toInt = max old.toInt v.toInt) ∧ gives (.amand n h p f) (fun w => w = old &&& v) ∧
      gives (.amor n h p f) (fun w => w = old ||| v) ∧ gives (.amxor n h p f) (fun w => w = old ^^^ v)

/-- R239 to R242: `kbase` and `krow` write the window base and the row cursor, `kset` one byte of kN, `kset.all` all of them; `kld` and
`kst` move 64 bytes between kN and the memory of the task's own level; a chip task has none. -/
def Obligations.ScaleSyllables : Prop :=
  ∀ (s : State) (h : BitVec 4) (a b : BitVec 5) (k : BitVec 3) (x y : Word),
    (s.src a 0 = .ok x →
      GivesSome (.kbase a) s [a] 1 .winBase (fun w => w.toNat = x.toNat % 256) ∧
      GivesSome (.krow a) s [a] 1 .rcur (fun w => w.toNat = x.toNat % 32) ∧
      (∃ w : Row512, (∀ j < 64, BitVec.extractLsb' (8 * j) 8 w = x.setWidth 8) ∧
        exec (.ksetAll a k) s = .next ((s.notePbnd [a]).enq { due := s.tick, dest := .scale k.toNat, val := w, mask := BitVec.allOnes 64 }))) ∧
    (s.src2 a b = .ok (x, y) → ∃ (w : Row512) (m : Mask),
      BitVec.extractLsb' (8 * (y.toNat % 64)) 8 w = x.setWidth 8 ∧ (∀ j < 64, m.getLsbD j = decide (j = y.toNat % 64)) ∧
      exec (.kset a b k) s = .next ((s.notePbnd [a, b]).enq { due := s.tick, dest := .scale k.toNat, val := w, mask := m })) ∧
    ∀ (z : BitVec 256) (q : Reach), s.src a 0 = .ok x → s.box h.toNat = .ok z →
      (s.level = 3 → Traps (.kld h a k) s 9 0 ∧ Traps (.kst h a k) s 9 0) ∧
      (AccessOk s z x 0 s.level true false false 64 1 q → s.room 5 1 = .ok () → BanksFree s q 64 [s.tick + 1] → NoBadByte s q →
        ∃ w : Row512, (∀ j < 64, BitVec.extractLsb' (8 * j) 8 w = if j < q.count then s.readByte q.space (q.addr + j) else 0) ∧
          exec (.kld h a k) s = .next (((s.notePbnd [a]).claimed q 64 [s.tick + 1]).enq
            { due := s.tick + 4, dest := .scale k.toNat, val := w, mask := BitVec.allOnes 64 })) ∧
      (AccessOk s z x 0 s.level false true false 64 1 q → BanksFree s q 64 [s.tick + s.level] →
        exec (.kst h a k) s = .next (((s.notePbnd [a]).claimed q 64 [s.tick + s.level]).store (s.tick + s.level) q.space
          ((List.range q.count).map fun j => (q.addr + j, BitVec.extractLsb' (8 * j) 8 (s.R.k.getD k.toNat 0)))))

/-- R197, R203, R204 and the frame of a store: until it performs, a store changes no byte and no register; MEMORY_PERFORM writes the
bytes of the core's first store that is due, where `StoresScalar` and `StoresRow` say they lie, and no other byte of any memory; the
memories are canonical (`CanonicalStep`). -/
def Obligations.StoresPerform : Prop :=
  (∀ (i : Instr) (s t : State) (l : Nat), s.Placed → storeLevel i = .some l → s.cur.trapped = false → s.cur.mustHold = false →
    exec i s = .next t → t.cur.trapped = false → t.cur.mustHold = false →
    SameMemory s t ∧ SameRegisters s t ∧ ∃ x : Store, t.me.stores = s.me.stores ++ [x] ∧ x.due = s.tick + l ∧ x.space = s.space l ∧
      x.level = s.level) ∧
  (∀ (s : State) (x : Store), s.Canonical → s.ev.a < s.herds.length → s.ev.b < (s.herd s.ev.a).cores.length →
    ((s.core s.ev.a s.ev.b).stores.find? fun y => decide (y.due ≤ s.tick)) = .some x →
    (match x.space with
      | .dev => True
      | .hm h => h < s.herds.length
      | .lm h c => h < s.herds.length ∧ c < (s.herd h).lm.length) →
    ∃ t, exec .memoryPerform s = .next t ∧ SameRegisters s t ∧
      (∀ sp a, (sp ≠ x.space ∨ ∀ v, (a, v) ∉ x.bytes) → t.readByte sp a = s.readByte sp a) ∧
      ((x.bytes.map (·.1)).Nodup → ∀ p ∈ x.bytes, t.readByte x.space p.1 = p.2))

/-! ### TINT, TFP, TCMP, TCVT, TMOV -/

/-- R211 to R214, R136, R116, R144: every V syllable begins its row form or its whole-tile form, or, with DM = 1, takes the dead-read trap at
the first row that it reads dead, which no write lands in before its cycle. The row form reads row rcur now and queues
one write; the whole-tile form reads four rows a cycle from the issue on, and each group lands L − 1 cycles after its cycle. Neither
changes a register before a landing, nor any byte of memory. -/
def Obligations.TileSyllables : Prop :=
  (∀ (s : State) (d a k n x f b3 : BitVec 3) (b : BitVec 5) (s1 w q : BitVec 1),
    RunsTile (.tadd d a s1 b f w q) s (.add false) d a (s1 = 1) b f (w = 1) (q = 1) ∧
    RunsTile (.taddSat d a s1 b f w q) s (.add true) d a (s1 = 1) b f (w = 1) (q = 1) ∧
    RunsTile (.tsub d a s1 b f w q) s (.sub false) d a (s1 = 1) b f (w = 1) (q = 1) ∧
    RunsTile (.tsubSat d a s1 b f w q) s (.sub true) d a (s1 = 1) b f (w = 1) (q = 1) ∧
    RunsTile (.tmul d a s1 b f w q) s (.mul false) d a (s1 = 1) b f (w = 1) (q = 1) ∧
    RunsTile (.tmulSat d a s1 b f w q) s (.mul true) d a (s1 = 1) b f (w = 1) (q = 1) ∧
    RunsTile (.tmulh d a s1 b f w q) s .mulh d a (s1 = 1) b f (w = 1) (q = 1) ∧
    RunsTile (.tmin d a s1 b f w q) s .min d a (s1 = 1) b f (w = 1) (q = 1) ∧
    RunsTile (.tmax d a s1 b f w q) s .max d a (s1 = 1) b f (w = 1) (q = 1) ∧
    RunsTile (.tand d a s1 b f w q) s .and d a (s1 = 1) b f (w = 1) (q = 1) ∧
    RunsTile (.tor d a s1 b f w q) s .or d a (s1 = 1) b f (w = 1) (q = 1) ∧
    RunsTile (.txor d a s1 b f w q) s .xor d a (s1 = 1) b f (w = 1) (q = 1) ∧
    RunsTile (.tshl d a s1 b f w q) s .shl d a (s1 = 1) b f (w = 1) (q = 1) ∧
    RunsTile (.tshr d a s1 b f w q) s .shr d a (s1 = 1) b f (w = 1) (q = 1) ∧
    RunsTile (.tsra d a s1 b f w q) s .sra d a (s1 = 1) b f (w = 1) (q = 1) ∧
    RunsTile (.tfsh d a s1 b f w q) s .fsh d a (s1 = 1) b f (w = 1) (q = 1) ∧
    RunsTile (.tabs d a f w q) s (.abs false) d a false 0 f (w = 1) (q = 1) ∧
    RunsTile (.tabsSat d a f w q) s (.abs true) d a false 0 f (w = 1) (q = 1) ∧
    RunsTile (.tnegSat d a f w q) s .negSat d a false 0 f (w = 1) (q = 1) ∧
    RunsTile (.tfadd d a s1 b f w q) s .fadd d a (s1 = 1) b f (w = 1) (q = 1) ∧
    RunsTile (.tfsub d a s1 b f w q) s .fsub d a (s1 = 1) b f (w = 1) (q = 1) ∧
    RunsTile (.tfmul d a s1 b f w q) s .fmul d a (s1 = 1) b f (w = 1) (q = 1) ∧
    RunsTile (.tfma d a s1 b f w q) s .fma d a (s1 = 1) b f (w = 1) (q = 1) ∧
    RunsTile (.tfmin d a s1 b f w q) s .fmin d a (s1 = 1) b f (w = 1) (q = 1) ∧
    RunsTile (.tfmax d a s1 b f w q) s .fmax d a (s1 = 1) b f (w = 1) (q = 1) ∧
    RunsTile (.tfabs d a f w q) s .fabs d a false 0 f (w = 1) (q = 1) ∧
    RunsTile (.tfrint d a f w q) s .frint d a false 0 f (w = 1) (q = 1) ∧
    RunsTile (.tfexp d a f w q) s .fexp d a false 0 f (w = 1) (q = 1) ∧
    RunsTile (.tfins d a s1 b f w q) s .fins d a (s1 = 1) b f (w = 1) (q = 1) ∧
    RunsTile (.tfrcp d a f w q) s .frcp d a false 0 f (w = 1) (q = 1) ∧
    RunsTile (.tfrsq d a f w q) s .frsq d a false 0 f (w = 1) (q = 1) ∧
    RunsTile (.tcmpEq d a s1 b f w q) s (.icmp 0) d a (s1 = 1) b f (w = 1) (q = 1) ∧
    RunsTile (.tcmpNe d a s1 b f w q) s (.icmp 1) d a (s1 = 1) b f (w = 1) (q = 1) ∧
    RunsTile (.tcmpLt d a s1 b f w q) s (.icmp 2) d a (s1 = 1) b f (w = 1) (q = 1) ∧
    RunsTile (.tcmpLe d a s1 b f w q) s (.icmp 3) d a (s1 = 1) b f (w = 1) (q = 1) ∧
    RunsTile (.tcmpGt d a s1 b f w q) s (.icmp 4) d a (s1 = 1) b f (w = 1) (q = 1) ∧
    RunsTile (.tcmpGe d a s1 b f w q) s (.icmp 5) d a (s1 = 1) b f (w = 1) (q = 1) ∧
    RunsTile (.tfcmpEq d a s1 b f w q) s (.fcmp 0) d a (s1 = 1) b f (w = 1) (q = 1) ∧
    RunsTile (.tfcmpLt d a s1 b f w q) s (.fcmp 1) d a (s1 = 1) b f (w = 1) (q = 1) ∧
    RunsTile (.tfcmpLe d a s1 b f w q) s (.fcmp 2) d a (s1 = 1) b f (w = 1) (q = 1) ∧
    RunsTile (.tfcmpUn d a s1 b f w q) s (.fcmp 3) d a (s1 = 1) b f (w = 1) (q = 1) ∧
    RunsTile (.tfcmpGt d a s1 b f w q) s (.fcmp 4) d a (s1 = 1) b f (w = 1) (q = 1) ∧
    RunsTile (.tfcmpGe d a s1 b f w q) s (.fcmp 5) d a (s1 = 1) b f (w = 1) (q = 1) ∧
    RunsTile (.tcvt x d a k f w q) s (.cvt x.toNat k.toNat false) d a false 0 f (w = 1) (q = 1) ∧
    RunsTile (.tcvtSat x d a k f w q) s (.cvt x.toNat k.toNat true) d a false 0 f (w = 1) (q = 1) ∧
    RunsTile (.tquant n d a f w q) s (.quant n.toNat) d a false 0 f (w = 1) (q = 1) ∧
    RunsTile (.tdeq d a n f w q) s (.deq n.toNat false false) d a false 0 f (w = 1) (q = 1) ∧
    RunsTile (.tdeqHi d a n f w q) s (.deq n.toNat true false) d a false 0 f (w = 1) (q = 1) ∧
    RunsTile (.tscx k a n w q) s (.scx n.toNat false) k a false 0 6 (w = 1) (q = 1) ∧
    RunsTile (.tscxHi k a n w q) s (.scx n.toNat true) k a false 0 6 (w = 1) (q = 1) ∧
    RunsTile (.tdeqU d a n f w q) s (.deq n.toNat false true) d a false 0 f (w = 1) (q = 1) ∧
    RunsTile (.tdeqUHi d a n f w q) s (.deq n.toNat true true) d a false 0 f (w = 1) (q = 1) ∧
    RunsTile (.tmov d a f w q) s .mov d a false 0 f (w = 1) (q = 1) ∧
    RunsTile (.tbcast d b f w q) s .bcast d 0 true b f (w = 1) (q = 1) ∧
    RunsTile (.tbcastL d a b f w q) s .bcastL d a true b f (w = 1) (q = 1) ∧
    RunsTile (.trot d a b f w q) s .rot d a true b f (w = 1) (q = 1) ∧
    RunsTile (.tshuf d a b3 f w q) s .shuf d a false (b3.setWidth 5) f (w = 1) (q = 1) ∧
    RunsTile (.tredMax d a b f w q) s .redMax d a true b f (w = 1) (q = 1) ∧
    RunsTile (.tredMin d a b f w q) s .redMin d a true b f (w = 1) (q = 1) ∧
    RunsTile (.tredAdd d a b f w q) s .redAdd d a true b f (w = 1) (q = 1) ∧
    RunsTile (.tsel d a s1 b f w q) s .sel d a (s1 = 1) b f (w = 1) (q = 1) ∧
    RunsTile (.tpack d a b3 f w q) s .pack d a false (b3.setWidth 5) f (w = 1) (q = 1) ∧
    RunsTile (.tunpk d a b f w q) s .unpk d a true b f (w = 1) (q = 1) ∧
    RunsTile (.ttrans d a f q) s .trans d a false 0 f true (q = 1)) ∧
  (∀ (s : State) (v : VDec),
    let rows := if v.w then List.range 32 else [s.R.rcur.toNat]
    let dead (t n : Nat) : Prop := s.R.rowDead t n = true ∧
      ∀ p ∈ s.R.pend, p.dest = .tileRow t n → s.tick + (if v.w = true ∧ v.op ≠ .trans then n / 4 else 0) ≤ p.due
    (s.firstDead v = .none ↔ ∀ n ∈ rows, ∀ t ∈ v.sources, ¬ dead t n) ∧
    ∀ x, s.firstDead v = .some x → ∃ n ∈ rows, ∃ t ∈ v.sources, x = 256 + 32 * t + n ∧ dead t n ∧
      ∀ m ∈ rows, m < n → ∀ u ∈ v.sources, ¬ dead u m) ∧
  (∀ (s : State) (v : VDec) (x : Word), s.Placed →
    let n := s.R.rcur.toNat
    let o := vRow v.op v.f false (v.input s.R n x s.R.rmBits (!s.interlocked) (s.R.pred s.cur.guard) [] (s.deadReads v))
    (let t := s.tileRowForm v x
     SameRegisters s t ∧ SameMemory s t ∧ ∃ p : Pend, t.R.pend.Perm (p :: s.R.pend) ∧ p.due = s.tick + v.op.latency - 1 ∧ p.dest = v.dest n ∧
        p.val = BitVec.ofNat 512 o.val ∧ p.mask = BitVec.ofNat 64 o.mask ∧ p.tflags = (if v.q then 0 else BitVec.ofNat 80 o.tfl)) ∧
    (let t := s.tileWhole v x
     SameRegisters s t ∧ SameMemory s t ∧ ∃ r : TileOp, t.me.tile = .some (r.next (r.writes s.R)) ∧ r.dec = v ∧ r.start = s.tick ∧
        r.group = 0 ∧ r.flagged = false ∧ r.bval = x ∧ r.guard = s.R.pred s.cur.guard ∧ r.dead = s.deadReads v ∧
        t.R.pend.Perm (r.writes s.R ++ s.R.pend) ∧
        ∀ g < 7, ∃ e ∈ t.agenda, e.at_ = s.tick + 1 + g ∧ e.act = .tileRows s.cur.herd s.cur.core)) ∧
  (∀ (s : State) (h c : Nat) (r : TileOp), h < s.herds.length → c < (s.herd h).cores.length → (s.core h c).tile = .some r →
    r.start + r.group = s.tick →
    let t := s.nextRows h c
    (t.regs h c).pend.Perm (r.writes (s.regs h c) ++ (s.regs h c).pend) ∧
    (t.core h c).tile = if r.group = 7 then .none else .some (r.next (r.writes (s.regs h c)))) ∧
  (∀ (o : TileOp) (r : Regs) (l : List Pend),
    (o.next l).group = o.group + 1 ∧ ((o.next l).flagged = true ↔ o.flagged = true ∨ ∃ p ∈ l, p.cls ≠ 0) ∧
    ∀ p ∈ o.writes r, (p.slot = if o.flagged then .none else .some 2) ∧
      ∃ k < 4, p.dest = o.dec.dest (4 * o.group + k) ∧ p.due = o.start + o.dec.op.latency - 1 + o.group)

/-- R213, R214, R216 to R224, R226, R230, R232 to R238: what each V operation makes of one row, element by element: TINT with the OF of
its saturating forms, TFP, the compares of both kinds, `tcvt`, `tquant`, `tdeq`, `tscx`, the moves, `tred`, `tpack`, `tunpk` and
`ttrans`. Elements that the guard disables are not written and raise no flag; flags gather in the tile lanes. `tfexp` is as far exact as
`exp2Scaled`, the model's value of 2^a to 240 bits; `estimate` writes the truncated value of R224. -/
def Obligations.TileElements : Prop :=
  (∀ (f : Nat) (whole : Bool) (v : VIn),
    (∀ sg : Bool, tileFmt f = .int sg (tileFmt f).width → TileIntegers f whole v sg) ∧
    (∀ ff : FloatFmt, tileFmt f = .flt ff → ff.flushes = true → TileFloats f whole v ff) ∧
    TileMoves f whole v) ∧
  (∀ (f k q : Nat) (hi u sat whole : Bool) (v : VIn),
    TileConverts f k q sat whole v ∧
    (∀ ff : FloatFmt, tileFmt f = .flt ff → ff.width = 16 → k < 7 → TileQuantises f k whole v ff) ∧
    (∀ ff : FloatFmt, tileFmt f = .flt ff → ff.flushes = true → TileDequantises f k hi u whole v ff) ∧
    (v.r < 32 → TileScales f k hi whole v))

/-! ### MXA, MXB, MXC -/

/-- R311, R312, R307, R308, R324, R320: the geometry register's fields; the lease table and its judgement, an `mprog` with the changes of
earlier bundles of its cycle (DEDUCED, log entry 24); `mzero`, and `mread`, whose
32 rows land at the end of c + 3. -/
def Obligations.ArrayState : Prop :=
  (∀ (s : State) (a b : BitVec 5) (x y : Word),
    let sets (i : Instr) (fs : List (BitVec 5)) (f : Nat → Option Bool) : Prop := ∃ g : BitVec 96,
      (∀ k < 96, g.getLsbD k = (f k).getD (s.R.mgeo.getLsbD k)) ∧ exec i s = .next ((s.notePbnd fs).modR fun r => { r with mgeo := g })
    let field (lo n : Nat) (v : Word) (from_ k : Nat) : Option Bool :=
      if lo ≤ k ∧ k < lo + n then .some (v.getLsbD (from_ + (k - lo))) else .none
    (s.src a 0 = .ok x →
      (x.toNat < 16 → sets (.mgeoA a) [a] (field 28 4 x 0)) ∧ (16 ≤ x.toNat → Traps (.mgeoA a) s 2 11)) ∧
    (s.src2 a b = .ok (x, y) →
      (x.toNat < 16 → sets (.mgeoW a b) [a, b] (fun k => (field 24 4 x 0 k).or (field 64 32 y 0 k)) ∧
        sets (.mgeoD a b) [a, b] (fun k => (field 20 4 x 0 k).or (field 32 32 y 0 k))) ∧
      (16 ≤ x.toNat → Traps (.mgeoW a b) s 2 11 ∧ Traps (.mgeoD a b) s 2 11) ∧
      (x.toNat < 256 → y &&& 0xFFFFF880#32 = 0 → sets (.mgeoN a b) [a, b] (fun k =>
        (((field 12 8 x 0 k).or (field 8 4 y 0 k)).or (field 5 3 y 4 k)).or (field 2 3 y 8 k))) ∧
      ((256 ≤ x.toNat ∨ y &&& 0xFFFFF880#32 ≠ 0) → Traps (.mgeoN a b) s 2 11))) ∧
  (∀ (s : State) (a b : BitVec 5) (n e : BitVec 2) (x y : Word),
    let judged (i : Instr) (fs : List (BitVec 5)) (l : Lease) : Prop :=
      (LeaseFree s e.toNat l → exec i s = .next ((s.notePbnd fs).plan s.tick 4 0 (.leaseWrite s.cur.herd e.toNat l))) ∧
      (¬ LeaseFree s e.toNat l → Traps i s 15 0)
    (s.src2 a b = .ok (x, y) → judged (.mprog a b n e) [a, b] { fin := y, start := x, isOpen := false, v := true, core := n }) ∧
    (s.src a 0 = .ok x → judged (.mprogOpen a n e) [a] { fin := 0, start := x, isOpen := true, v := true, core := n }) ∧
    judged (.mprogClr e) [] {}) ∧
  (∀ (s : State) (h e : Nat) (l : Lease), h < s.herds.length → e < (s.herd h).array.leases.length →
    ((s.writeLease h e l).herd h).array.leases = (s.herd h).array.leases.set e l) ∧
  (∀ (s : State) (sN : BitVec 2) (last : List Nat),
    (s.leaseOk last = .ok () ↔ ∃ l, s.arr.leaseAt (s.leaseCycle s.tick) = .some l ∧ l.core.toNat = s.cur.core ∧
      ∀ t ∈ last, l.holds (s.leaseCycle t) = true) ∧
    (s.leaseOk [s.tick] = .ok () → exec (.mzero sN) s = .next ((s.arrayBusyTo s.tick).plan s.tick 4 2 (.accZero s.cur.herd sN.toNat))) ∧
    (s.leaseOk [s.tick] ≠ .ok () → Traps (.mzero sN) s 15 0) ∧
    ∀ h n : Nat, h < s.herds.length → n < (s.herd h).array.acc.length →
      ((s.zeroAcc h n).herd h).array.acc = (s.herd h).array.acc.set n (List.replicate 2048 0)) ∧
  (∀ (s : State) (a : BitVec 5) (sN : BitVec 2) (t : BitVec 3) (x : Word), s.Placed → s.src a 0 = .ok x →
    (4 ≤ x.toNat → Traps (.mread a sN t) s 2 11) ∧
    (x.toNat < 4 → s.leaseOk [] = .ok () → s.room 4 32 = .ok () → ∃ u : State, exec (.mread a sN t) s = .next u ∧
      SameRegisters s u ∧ SameMemory s u ∧
      (∀ i < 32, ∃ p ∈ u.R.pend, p.due = s.tick + 3 ∧ p.seq = s.cur.seq ∧ p.dest = .tileRow t.toNat i ∧ p.mask = BitVec.allOnes 64) ∧
      ∃ e ∈ u.agenda, e.at_ = s.tick + 1 ∧ e.act = .mread s.cur.herd s.cur.core sN.toNat x.toNat t.toNat s.cur.seq)) ∧
  (∀ (s : State) (h c n q t seq : Nat), h < s.herds.length → c < (s.herd h).cores.length → ∀ p ∈ (s.regs h c).pend, ∀ i < 32,
    p.seq = seq → p.dest = .tileRow t i → ((s.herd h).array.acc.getD n []).length = 2048 → q < 4 →
    ∃ w : Row512, { p with val := w } ∈ ((s.sampleRead h c n q t seq).regs h c).pend ∧
      ∀ j < 16, BitVec.extractLsb' (32 * j) 32 w = ((s.herd h).array.acc.getD n []).getD (128 * (4 * q + i / 8) + 16 * (i % 8) + j) 0)

/-- R313 to R325, R304: the commands that hold a unit of the array enter it, with their end cycle, when the checks of R325 pass. The four
`mspill` and `mfill` accept a box of either kind (DEDUCED, log entry 56). -/
def Obligations.ArrayCommands : Prop :=
  ∀ (s : State), s.Placed →
    let g := s.R.mgeo
    let n := geoNgrp g
    let cols := geoNcol g
    let dpath := geoDpath g
    let transfer := s.arr.cmds.any fun k => k.holdsTransfer s.tick
    let encode := s.arr.cmds.any fun k => k.holdsEncode s.tick
    s.level = 2 →
    (∀ (a : BitVec 5) (sN : BitVec 2) (w q : BitVec 1) (path : Word) (b : BitVec 256), s.src a 0 = .ok path →
      s.box? (geoAh g) = .some b → boxReads b = true → boxTile b = false → isActivation (boxCode b) = true →
      let fmtb := (s.slotAhead w.toNat).1
      let cost := max (activationCost (boxCode b)) (weightCost fmtb)
      let fin := s.tick + 13 + cost * n
      let c := { s.newArr (.mrun sN.toNat w.toNat (q = 1)) fin path b 0 with q := cost, fmtb := fmtb }
      1 ≤ n → n ≤ 8 → n ≤ slotGroups fmtb → geoKfirst g + n ≤ (s.slotAhead w.toNat).2 → inBox b (pathRow path) (pathCol path 0) = true →
      (pathCol path 0).toNat % 32 = 0 → (∀ x, s.arr.writerOf w.toNat s.tick = .some x → x.fin < s.tick + 3) →
      ArrayFree s c [fin] c.breaksBankRule false (s.arr.cmds.any fun k => k.holdsRun s.tick) →
      EntersArray (.mrun a sN w q) s (.mrun sN.toNat w.toNat (q = 1)) fin) ∧
    (∀ (w : BitVec 1) (b : BitVec 256), s.box? (geoWh g) = .some b → boxReads b = true → boxTile b = false → isEncoded (boxCode b) = true →
      let reads := loadReads b (geoWpath g) cols n
      let fin := s.tick + (reads.foldl (fun m p => max m p.1) 1) + 2
      countsOk cols n (slotGroups (boxCode b)) = true → groupsFit b (geoWpath g) cols n = true →
      ArrayFree s (s.newArr (.mload w.toNat) fin (geoWpath g) b 0) [fin] (reads.any fun p => decide (p.2.2.1 < 2 ^ 21))
        (s.arr.cmds.any fun k => k.readsSlot w.toNat (s.tick + 3)) transfer →
      EntersArray (.mload w) s (.mload w.toNat) fin) ∧
    (∀ (sN : BitVec 2) (w : BitVec 1) (b : BitVec 256), s.box? (geoDh g) = .some b →
      let moves (i : Instr) (op : ArrOp) (fill : Bool) (rows width len code : Nat) (hazard : Bool) : Prop :=
        (if fill then boxReads b else boxWrites b) = true → boxCode b = code → blockFits b dpath rows width = true →
        ArrayFree s (s.newArr op (s.tick + len) dpath b 0) (if fill then [s.tick + len] else []) false hazard transfer →
        EntersArray i s op (s.tick + len)
      moves (.mspillAcc sN) (.spillAcc sN.toNat) false 16 128 18 0 false ∧
      moves (.mspillSlot w) (.spillSlot w.toNat) false 97 512 99 10 false ∧
      moves (.mfillAcc sN) (.fillAcc sN.toNat) true 16 128 20 0 false ∧
      moves (.mfillSlot w) (.fillSlot w.toNat) true 97 512 101 10 (s.arr.cmds.any fun k => k.readsSlot w.toNat (s.tick + 3))) ∧
    (∀ (a : BitVec 5) (q : BitVec 1) (x : Word) (src dst : BitVec 256), s.src a 0 = .ok x → x.toNat ≤ 32 → s.box? (geoDh g) = .some src →
      let fin := s.tick + 5 + cols * n - 1
      boxReads src = true → boxTile src = false → isDenseWeight (boxCode src) = true → groupsFit src dpath cols n = true →
      (s.box? (geoWh g) = .some dst → boxWrites dst = true → boxTile dst = false → isEncoded (boxCode dst) = true →
        countsOk cols n (slotGroups (boxCode dst)) = true → groupsFit dst (geoWpath g) cols n = true →
        let c := s.newArr (.menc x.toNat (q = 1)) fin dpath src dst
        ArrayFree s c [] c.encodeClash false encode → EntersArray (.menc a q) s (.menc x.toNat (q = 1)) fin) ∧
      (x ≠ 0 → boxWrites src = true → boxCode src ≠ 15 → countsOk cols n 8 = true →
        let c := s.newArr (.mcomp x.toNat) fin dpath src src
        ArrayFree s c [] c.encodeClash false encode → EntersArray (.mcomp a) s (.mcomp x.toNat) fin))

/-! ### WALK, CALL, XFORM, LINK, CTX -/

/-- R262, R263, R267, R249 to R256: a copy command whose checks pass enters the walker of its child's herd (a `wmcast` that of its first
receiver's: DESIGN CHOICE, log entry 45) with the beats and the promise of its schedule; a bound word is refused in interlocked mode, and in exposed mode the command traps exactly where its promise
exceeds the bound. Where no translation, packed page or view stands between, the beats move the bytes of the own and the child's
sub-box that the geometry slots and the table pair, and no others. -/
def Obligations.WalkerCopies : Prop :=
  ∀ (s : State) (k : CopyKind) (a b : BitVec 5) (o f : BitVec 3) (route bound : Word) (own : BitVec 256) (kids : List (Call × BitVec 256)),
    s.src2 a b = .ok (route, bound) → CopyReady s k route o f own kids →
    let up := route.getLsbD 8
    let q := ((s.notePbnd [a, b]).copySchedule k route bound o f own kids).2
    let i : Instr := match k with
      | .copy => .wcopy a b o f
      | .mcast => .wmcast a b o f
      | .gather => .wgath a b o f
      | .scatter => .wscat a b o f
    (JudgesBound i s bound.toNat 1 q fun P => ∃ (u : State) (c : Cmd), exec i s = .next u ∧ Issued s u k.cmd c ∧ P c ∧
      ∀ p ∈ kids.head?, ∀ h ∈ p.1.space.herd, c.walker = h) ∧
    ∀ p, q = .ok p → s.plainCopy up own kids → ∀ (n : Nat) (c : Call) (child : BitVec 256), kids[n]? = .some (c, child) → ∀ x y : Nat,
      (s.Moves k o f own child x y ↔ ∃ e ∈ p.beats, e.part = n ∧
        e.srcSpace = (if up then c.space else s.ownSpace) ∧ e.dstSpace = (if up then s.ownSpace else c.space) ∧
        (if up then (y, x) else (x, y)) ∈ e.src.zip e.dst)

/-- R264 to R266, R289, R272, R274, R275: the geometry slots and the index table, with a count outside R264's range raising the box-bound
fault (DEDUCED, log entry 26), `wprom`, the four `wamo`, and `wsnap` with its traps,
which enters with the schedule of its reads and of the writes that it would make (the rest of it: `WalkerEvents`). -/
def Obligations.WalkerOthers : Prop :=
  (∀ (s : State) (a b : BitVec 5) (n : BitVec 3) (x y : Word), s.src2 a b = .ok (x, y) →
    (∃ g : Geo, g.o0.toNat = x.toNat % 2 ^ 16 ∧ g.o1.toNat = x.toNat / 2 ^ 16 ∧ g.e0.toNat = y.toNat % 2 ^ 16 ∧
      g.e1.toNat = y.toNat / 2 ^ 16 ∧ g.o2 = 0 ∧ g.o3 = 0 ∧ g.e2 = 1 ∧ g.e3 = 1 ∧
      exec (.wgeo a b n) s = .next ((s.notePbnd [a, b]).modR fun r => { r with gm := r.gm.set n.toNat g })) ∧
    exec (.wgeoHi a b n) s = .next ((s.notePbnd [a, b]).modR fun r => { r with
      gm := r.gm.modify n.toNat fun g => { g with
        o2 := x.setWidth 16, o3 := (x >>> 16).setWidth 16, e2 := y.setWidth 16, e3 := (y >>> 16).setWidth 16 } }) ∧
    (∀ own : BitVec 256, s.box (x.toNat % 16) = .ok own → boxReads own = true → boxIsI16 own = true →
      s.walkerFull s.cur.herd = false →
      let g := s.R.gm.getD n.toNat {}
      let e := [y.toNat, 1, 1, 1]
      let agrees : Bool := s.agrees own false ((rowStarts own g.origins e).map fun z => { src := z, dst := z, len := rowLength own e })
      (x.toNat < 16 → 1 ≤ y.toNat → y.toNat ≤ 512 → subBoxOk own g.origins e = true →
        (s.untranslated = true → agrees = false → Traps (.wgeoTab a b n) s 9 0) ∧
        ((s.untranslated = true → agrees = true) → (s.level ≠ 2 ∨ s.arrayIssues = false ∨ s.interlocked = true) →
          Enters (.wgeoTab a b n) s (.table y.toNat))) ∧
      (16 ≤ x.toNat → Traps (.wgeoTab a b n) s 2 11) ∧
      (x.toNat < 16 → (y.toNat = 0 ∨ 512 < y.toNat) → Traps (.wgeoTab a b n) s 10 0))) ∧
  (∀ (s : State) (d : BitVec 5) (k : BitVec 6), s.room 2 0 = .ok () →
    GivesSome (.wprom d k) s [] 2 (.scalar d.toNat) fun w =>
      (s.R.issued[k.toNat]? = .none → w = 0) ∧
      ∀ id c, s.R.issued[k.toNat]? = .some id → s.cmd? id = .some c →
        w = BitVec.ofInt 32 (s.vcyc c.ctx + ((c.promise : Int) - s.tick))) ∧
  (∀ (s : State) (n p : BitVec 5) (h : BitVec 4) (v path : Word) (b : BitVec 256) (va fin : Nat),
    (n.toNat = 0 ∨ 23 < n.toNat → Traps (.wamoAdd n p h) s 2 10 ∧ Traps (.wamoSwap n p h) s 2 10 ∧ Traps (.wamoMax n p h) s 2 10) ∧
    (n.toNat = 0 ∨ 22 < n.toNat → Traps (.wamoCas n p h) s 2 10) ∧
    (1 ≤ n.toNat → n.toNat ≤ 23 → s.reg n.toNat = .ok v → s.src p 0 = .ok path → s.box h.toNat = .ok b → s.level = 3 → boxAcc b = 3 →
      (boxIsF32 b || boxIsI32 b) = true → pathAddr b path = .some (va, fin) → va % 4 = 0 → s.walkerFull s.cur.herd = false →
      Enters (.wamoAdd n p h) s (.wamo 0 n.toNat v 0 va) ∧ Enters (.wamoSwap n p h) s (.wamo 1 n.toNat v 0 va) ∧
      Enters (.wamoMax n p h) s (.wamo 3 n.toNat v 0 va) ∧
      ∀ v2, n.toNat ≤ 22 → s.reg (n.toNat + 1) = .ok v2 → Enters (.wamoCas n p h) s (.wamo 2 n.toNat v v2 va))) ∧
  (∀ (s : State) (a b : BitVec 5) (x bound : Word) (src hash index data : BitVec 256), s.src2 a b = .ok (x, bound) →
    (2 ^ 16 ≤ x.toNat → Traps (.wsnap a b) s 2 11) ∧
    (x.toNat < 2 ^ 16 → s.box (x.toNat % 16) = .ok src → s.box (x.toNat / 16 % 16) = .ok hash → s.box (x.toNat / 256 % 16) = .ok index →
      s.box (x.toNat / 4096 % 16) = .ok data →
      let fits := s.level = 3 ∧ boxReads src = true ∧ boxAcc hash = 3 ∧ boxWrites index = true ∧ boxWrites data = true ∧
        boxIsI32 hash = true ∧ boxIsI32 index = true
      let view (z : BitVec 256) (k : Nat) : Bool := (s.apertureOf z).any fun v => v.xf = k
      let packed : Bool := [hash, index, data].any fun z => view z 1
      let parts : Prop := view hash 3 = true ∨ view index 3 = true ∨
        (view data 3 = true ∧ (boxBase data % 64 ≠ 0 ∨ denseBytes src % 64 ≠ 0))
      ((¬ fits ∨ packed = true) → Traps (.wsnap a b) s 9 0) ∧
      (fits → packed = false → ¬ (boxDense src = true ∧ boxDense hash = true ∧ boxDense index = true ∧ boxDense data = true) → Traps (.wsnap a b) s 12 0) ∧
      (fits → packed = false → boxDense src = true → boxDense hash = true → boxDense index = true → boxDense data = true →
        let n := snapBlocks src
        let u := s.notePbnd [a, b]
        ((denseBytes hash < 16 * n ∨ denseBytes index < 4 * (n + 1) ∨ denseBytes data < 65536 * n ∨ parts) → Traps (.wsnap a b) s 10 0) ∧
        (16 * n ≤ denseBytes hash → 4 * (n + 1) ≤ denseBytes index → 65536 * n ≤ denseBytes data → ¬ parts →
          s.walkerFull s.cur.herd = false → EntersBound (.wsnap a b) s .snap bound.toNat 1
            ((u.snapSchedule (u.snapCmd x bound [src, hash, index, data])).2.map (·.2))))))

/-- R366 to R372, R374, R377, R380: `wcall` opens a sibling with its inward copies and its entry cycle, and traps where a bound stands that
its promise exceeds; `wret` ends its frame once the
group is joined and no engine command of it is in flight; `wjoin` holds the next bundle until the release. -/
def Obligations.CallsAndReturns : Prop :=
  (∀ (s : State) (a b n : BitVec 5) (target word : Word) (f : Frame) (t : Task) (goal : Nat) (bytes : List Nat)
      (boxes : List (BitVec 256)), s.Placed → s.src2 a b = .ok (target, word) →
    CallReady s target word n.toNat f t goal bytes boxes →
    let bound := word.toNat / 2 ^ 17
    let here := s.notePbnd [a, b]
    let call := here.newCall f t (word.toNat % 2 ^ 12) goal ((s.callArgs t bytes boxes).map (·.2.2))
    let v := here.newId.2
    JudgesBound (.wcall a b n) s bound 16 (v.callSchedule call (v.callCmd call bound)).2 fun P =>
      ∃ (u : State) (k : Call) (c : Cmd), exec (.wcall a b n) s = .next u ∧ k ∈ u.calls ∧ k = { call with entry := k.entry } ∧
        u.R.group = s.R.group ++ [k.id] ∧ Issued v u (.callIn k.id) c ∧ P c ∧ (k.suspends = true → u.cur.hold = .call) ∧
        (c.walkFault = .none → k.entry = max (if bound = 0 then c.promise + 1 else s.tick + 16 * bound + 1)
          (if k.suspends then here.lastLanding + 1 else 0))) ∧
  (∀ s : State,
    (s.mayReturn = .ok () ↔ s.R.group = [] ∧
      (∀ id ∈ s.R.issued, ∀ c, s.cmd? id = .some c → c.outstanding = true → c.promise ≤ s.tick) ∧
      (s.level = 2 → ∀ c ∈ s.arr.cmds, c.core = s.cur.core → c.halted = false → c.fin ≤ s.tick)) ∧
    (s.mayReturn ≠ .ok () → Traps .wret s 6 0) ∧
    (s.mayReturn = .ok () → s.R.frame = .none → exec .wret s = .next s.endIfLast) ∧
    ∀ f, s.mayReturn = .ok () → s.R.frame = .some f →
      let t := s.endFrame f
      (f.call = .none → f.level = 3 → exec .wret s = .next (t.endProgram f.ctx f.queue) ∧
        ((t.ctx f.ctx).failed = false → ((t.ctx f.ctx).queue f.queue).state = 2 → t.lastDevWrite f.ctx ≤ t.tick →
          t.endProgram f.ctx f.queue = t.programEnd f.ctx f.queue)) ∧
      ((f.call ≠ .none ∨ f.level ≠ 3) → exec .wret s = .next t) ∧
      (s.Placed → t.R.frame = .none ∧ t.me.hold = .none ∧ t.cur.done = true) ∧
      ∀ id k, f.call = .some id → s.call? id = .some k → ∃ q, t.call? id = .some q ∧ q.left = k.left.filter (· ≠ s.cur.core) ∧
        (q.left = [] → q.state = .returned ∧ q.retAt = s.tick)) ∧
  (∀ s : State, exec .wjoin s = .next (({ s with cur := { s.cur with hold := .join } } : State).planEv (s.tick + 1) 0 7 .joinRelease
    { a := s.cur.herd, b := s.cur.core }))

/-- R349 to R351, R358 to R363: `lsend` plans its beats and flits, `lrecv` opens a window, `lpair` and `gadj` schedule their changes,
and `llat`, `gcyc` and `gmeas` read; with the traps of R363 that these instructions share. The open windows of a herd are counted per
context (DEDUCED, log entry 28). An `lpair` is judged with those of earlier bundles of its cycle, which take effect with it. -/
def Obligations.LinkSyllables : Prop :=
  (∀ (s : State) (a b p : BitVec 5) (t w : Word) (box : BitVec 256) (g : Geo), s.src2 a b = .ok (t, w) →
    let x := (s.R.ctx).getD 0
    let d := s.ahead t
    let n := ((chunks64 (streamOf box g)).length + 2) / 3
    let tag := w.toNat / 256 % 256
    (24 ≤ p.toNat → Traps (.lsend a b p) s 2 11 ∧ Traps (.lrecv a b p) s 2 11) ∧
    (p.toNat < 24 → w &&& 0xFF800080#32 = 0 → s.linkBox w false = .ok (box, g) →
      (s.linkUp p.toNat x = false → Traps (.lsend a b p) s 22 0) ∧
      (s.linkUp p.toNat x = true → (s.interlocked = true ∨ (s.gcyc + d) % 5 ≠ 0 ∨ d < 51 ∨ 2 ^ 20 < d) → Traps (.lsend a b p) s 6 0) ∧
      (s.linkUp p.toNat x = true → s.interlocked = false → (s.gcyc + d) % 5 = 0 → 51 ≤ d → d ≤ 2 ^ 20 →
        s.slotsOk p.toNat x ((List.range n).map fun f => s.gcyc + d + 5 * f) = true → s.walkerFull s.cur.herd = false →
        ∃ (u : State) (c : Cmd), exec (.lsend a b p) s = .next u ∧ c ∈ u.cmds ∧ c.id = s.nextId ∧
          c.kind = .send p.toNat tag (w.toNat / 2 ^ 16 % 128) (((s.port p.toNat).peer x).getD 0) ∧ c.t0 = s.gcyc + d ∧
          c.beats.length = (chunks64 (streamOf box g)).length ∧
          ∀ k q, c.beats[k]? = .some q → q.sampleAt = s.tick + d - 48 + 5 * (k / 3) + k % 3)) ∧
    (p.toNat < 24 → w &&& 0xFF000080#32 = 0 → s.linkBox w true = .ok (box, g) →
      (s.linkUp p.toNat x = false → Traps (.lrecv a b p) s 22 0) ∧
      (s.linkUp p.toNat x = true → (d = 0 ∨ 2 ^ 20 < d) → Traps (.lrecv a b p) s 6 0) ∧
      (s.linkUp p.toNat x = true → 1 ≤ d → d ≤ 2 ^ 20 → s.cur.herd < s.herds.length →
        let mine := (s.herd s.cur.herd).windows.filter fun v => v.ctx == x
        ((∃ v ∈ mine, v.port = p.toNat ∧ v.tag = tag) → Traps (.lrecv a b p) s 2 12) ∧
        ((∀ v ∈ mine, v.port = p.toNat → v.tag ≠ tag) → mine.length < 16 →
          ∃ (u : State) (v : Window), exec (.lrecv a b p) s = .next u ∧ v ∈ (u.herd s.cur.herd).windows ∧ v.id = s.nextId ∧ v.ctx = x ∧
            v.core = s.cur.core ∧ v.port = p.toNat ∧ v.tag = tag ∧ v.tol = w.toNat / 2 ^ 16 % 256 ∧ v.expect = s.gcyc + d ∧
            v.flits = n ∧ v.close = s.gcyc + d + 5 * (n - 1) + 2 + v.tol ∧ v.beats = chunks64 (streamOf box g) ∧ v.done = [])))) ∧
  (∀ (s : State) (d p : BitVec 5) (k : BitVec 1),
    (24 ≤ p.toNat → Traps (.llat d p) s 2 11 ∧ Traps (.gmeas d p) s 2 11) ∧
    (s.room 2 0 = .ok () →
      let q := s.port p.toNat
      let x := (s.R.ctx).getD 0
      let hi : Word := BitVec.ofNat 32 (s.gcyc / 2 ^ 32)
      (p.toNat < 24 → ∃ w : Word,
        w.toNat = ((if q.up then 2 ^ 31 + q.lat % 2 ^ 16 else 0) + (if q.deg then 2 ^ 30 else 0) +
          ((q.drops.find? fun z => z.1 == x).map (·.2)).getD 0 * 2 ^ 16) % 2 ^ 32 ∧
        exec (.llat d p) s = .next ((s.modPort p.toNat fun q => { q with drops := q.drops.filter fun z => z.1 ≠ x }).put 2
          (.scalar d.toNat) (wide w))) ∧
      (p.toNat < 24 → GivesSome (.gmeas d p) s [] 2 (.scalar d.toNat) fun w =>
        ((q.offValid = false ∨ s.gcycSet = false) → w = 0) ∧
        (q.offValid = true → s.gcycSet = true → w.toNat = 2 ^ 31 + (BitVec.ofInt 16 q.off16).toNat)) ∧
      (k = 0 → exec (.gcyc d k) s = .next ((s.modR fun r => { r with gcycHi := .some hi }).put 2 (.scalar d.toNat)
        (wide (BitVec.ofNat 32 s.gcyc)))) ∧
      (k = 1 → Gives (.gcyc d k) s [] 2 (.scalar d.toNat) (wide (s.R.gcycHi.getD hi))))) ∧
  (∀ (s : State) (a p : BitVec 5) (n : BitVec 3) (w : Word), s.src a 0 = .ok w →
    let d := s.ahead w
    (s.R.ctx ≠ .some 0 → Traps (.gadj a n) s 24 0) ∧
    (s.R.ctx = .some 0 → (d < 16 ∨ 65535 < d) → Traps (.gadj a n) s 6 0) ∧
    (s.R.ctx = .some 0 → 16 ≤ d → d ≤ 65535 → s.adjust = .none → exec (.gadj a n) s =
      .next (({ s.notePbnd [a] with adjust := .some (s.gcyc + d, n.toInt) } : State).planEv
        (s.tick + if 0 < n.toInt then d - 1 else d) 5 99 .gcycStep {})) ∧
    (24 ≤ p.toNat → Traps (.lpair a p) s 2 11) ∧
    (p.toNat < 24 →
      let e := w.toNat / 2 ^ 16 % 16
      let pair : Option (Nat × Nat) := if w.getLsbD 31 then .some (w.toNat % 256, w.toNat / 2 ^ 8 % 256) else .none
      let clash : Prop := ∃ k q, k ≠ e ∧ (s.pairsNext p.toNat)[k]? = .some (.some q) ∧ q.1 = w.toNat % 256
      ((w &&& 0x7FF00000#32 ≠ 0 ∨ (w.getLsbD 31 = true ∧ clash)) → Traps (.lpair a p) s 2 11) ∧
      (w &&& 0x7FF00000#32 = 0 → (w.getLsbD 31 = true → ¬ clash) →
        (s.R.ctx ≠ .some 0 → Traps (.lpair a p) s 24 0) ∧
        (s.R.ctx = .some 0 → exec (.lpair a p) s = .next ((s.notePbnd [a]).plan s.tick 4 0 (.pairWrite p.toNat e pair)))))) ∧
  (∀ (s : State) (p : Nat), (∀ d ∈ s.agenda, ∀ i e, d.act ≠ .pairWrite p i e) → s.pairsNext p = (s.port p).pairs) ∧
  (∀ (s : State) (p i : Nat) (e : Option (Nat × Nat)) (d : Due), s.agenda = [d] → d.act = .pairWrite p i e →
    s.pairsNext p = (s.port p).pairs.set i e)

/-- R286 to R288, R417 to R423: `cxmk`, `cxgive` and `cxq` enter a command whose bundle stays open until the descriptor has been read;
`cxrev` marks a child's subtree as revoked, `cxrun` resumes what stopped or notes that it is to run, `cxsave` and `cxload` begin,
`cxpend` reads and takes pending child traps; `apset`, `apclr` and `apq` on the aperture registers; each with the traps that R288 and
R423 name for its operands. -/
def Obligations.ContextAndApertureSyllables : Prop :=
  (∀ (s : State) (n a p : BitVec 5) (h : BitVec 4) (v path : Word) (b : BitVec 256) (va fin : Nat), s.Placed →
    (s.src p 0 = .ok path →
      ((n.toNat = 0 ∨ 23 < n.toNat) → Traps (.cxmk n p h) s 2 10 ∧ Traps (.cxq n p h) s 2 10) ∧
      (1 ≤ n.toNat → n.toNat ≤ 23 →
        (DescriptorReady s path h 64 64 b va fin → Enters (.cxmk n p h) s (.cxmk n.toNat) ∧ HoldsOpen (.cxmk n p h) s) ∧
        (DescriptorReady s path h 32 32 b va fin → Enters (.cxq n p h) s (.cxq n.toNat) ∧ HoldsOpen (.cxq n p h) s))) ∧
    (s.src2 a p = .ok (v, path) →
      (256 ≤ v.toNat → Traps (.cxgive a p h) s 2 11) ∧
      (v.toNat < 256 → DescriptorReady s path h 64 64 b va fin →
        (s.isChild s.mine v.toNat = true → Enters (.cxgive a p h) s (.cxgive v.toNat) ∧ HoldsOpen (.cxgive a p h) s) ∧
        (s.isChild s.mine v.toNat = false → Traps (.cxgive a p h) s 26 0)))) ∧
  (∀ (s : State) (a : BitVec 5) (v : Word), s.src a 0 = .ok v →
    let u := s.notePbnd [a]
    let n := v.toNat
    (256 ≤ n → Traps (.cxrev a) s 2 11 ∧ Traps (.cxrun a) s 2 11) ∧
    (n < 256 → s.isChild s.mine n = false → Traps (.cxrev a) s 26 0) ∧
    (n < 256 → s.isDescendant s.mine n = false → Traps (.cxrun a) s 26 0) ∧
    (n < 256 → s.ctxFree = .ok () →
      (s.isChild s.mine n = true → ∃ l : List Ctx,
        exec (.cxrev a) s = .next ((({ u with ctxs := l } : State).flushTlb (s.subtree n)).reschedule) ∧ l.length = s.ctxs.length ∧
        ∀ k x : Ctx, (x, k) ∈ s.ctxs.zip l → (x.num ∉ s.subtree n → k = x) ∧
          (x.num ∈ s.subtree n → k.num = x.num ∧ k.revoking = true ∧ k.ctraps = [] ∧ k.entries = [])) ∧
      (s.isDescendant s.mine n = true →
        let c := s.ctx n
        (c.failed = true → exec (.cxrun a) s = .next u) ∧
        (c.failed = false → c.holdsHerds = true →
          exec (.cxrun a) s = .next (u.resumeStopped n (s.tick + 1 + 64 * (c.depth - (s.ctx s.mine).depth)))) ∧
        (c.failed = false → c.holdsHerds = false →
          let away : Prop := ∃ k ∈ s.kept, k.ctx = n ∧ k.herds ≠ []
          let waits : Prop := (∃ k ∈ s.kept, k.ctx = n ∧ ∃ y ∈ k.herds, ∃ q ∈ y.cores, q.hold = .reflected) ∨
            ((c.life = .saving ∨ (c.life = .restoring ∧ ¬ away)) ∧ ∃ h ∈ s.ownHerds n, ∃ q ∈ (s.herd h).cores, q.hold = .reflected)
          (waits → exec (.cxrun a) s = .next (u.modCtx n fun k => { k with runNext := true })) ∧
          (¬ waits → exec (.cxrun a) s = .next u))))) ∧
  (∀ (s : State) (n b : BitVec 5) (v : Word), s.src b 0 = .ok v →
    let x := v.toNat
    ((n.toNat = 0 ∨ 23 < n.toNat) → Traps (.cxsave n b) s 2 10 ∧ Traps (.cxload n b) s 2 10) ∧
    (1 ≤ n.toNat → n.toNat ≤ 23 →
      (256 ≤ x → Traps (.cxsave n b) s 2 11 ∧ Traps (.cxload n b) s 2 11) ∧
      (x < 256 → s.isChild s.mine x = false → Traps (.cxsave n b) s 26 0 ∧ Traps (.cxload n b) s 26 0) ∧
      (x < 256 → s.isChild s.mine x = true → s.ctxFree = .ok () →
        ((s.ctx x).saved = true → Enters (.cxsave n b) s (.cxsave n.toNat x)) ∧
        ((s.ctx x).saved = false → ∃ (t : State) (c : Cmd), exec (.cxsave n b) s = .next t.reschedule ∧ c ∈ t.cmds ∧ c.id = s.nextId ∧
          c.kind = .cxsave n.toNat x ∧ (t.ctx x).saved = true ∧ (t.ctx x).saveCmd = .some s.nextId) ∧
        ((∃ h ∈ (s.ctx x).herds, s.unusable h = true) → Traps (.cxload n b) s 26 0) ∧
        ((∀ h ∈ (s.ctx x).herds, s.unusable h = false) → Enters (.cxload n b) s (.cxload n.toNat x))))) ∧
  (∀ (s : State) (d b : BitVec 5) (v : Word), s.src b 0 = .ok v →
    let x := s.ctx s.mine
    let w := v.toNat % 8
    ((v &&& 0xFFFFFEF8#32 ≠ 0 ∨ w = 7) → Traps (.cxpend d b) s 2 11) ∧
    (v &&& 0xFFFFFEF8#32 = 0 → w ≠ 7 → s.ctxFree = .ok () → s.room 2 0 = .ok () → ∃ r : Word,
      (w < 6 → r = (x.ctraps.headD []).getD w 0) ∧ (w = 6 → r.toNat = x.ctraps.length % 128 + if x.ctrapOvf then 128 else 0) ∧
      let u := (s.notePbnd [b]).put 2 (.scalar d.toNat) (wide r)
      exec (.cxpend d b) s = .next (if v.getLsbD 8 then u.modCtx s.mine fun k => { k with ctraps := k.ctraps.drop 1 } else u))) ∧
  (∀ (s : State) (n p d : BitVec 5) (h : BitVec 4) (v path : Word) (b : BitVec 256) (va fin : Nat),
    (s.R.ctx ≠ .some 0 → Traps (.apset n p h) s 24 0 ∧ Traps (.apclr p) s 24 0) ∧
    (s.R.ctx = .some 0 → 1 ≤ n.toNat → n.toNat ≤ 23 → s.reg n.toNat = .ok v → s.src p 0 = .ok path → s.box h.toNat = .ok b →
      s.level = 3 → boxReads b = true → boxIsI32 b = true → pathAddr b path = .some (va, fin) → va % 32 = 0 → va + 32 ≤ fin →
      s.apertureBusy (v.toNat % 64) = false → s.walkerFull s.cur.herd = false →
      (s.untranslated = true → s.apertureOk b va 32 = false → Traps (.apset n p h) s 9 0) ∧
      ((s.untranslated = true → s.apertureOk b va 32 = true) → Enters (.apset n p h) s (.apset n.toNat (v.toNat % 64) va))) ∧
    (s.src p 0 = .ok path → s.R.ctx = .some 0 → s.apertureBusy (path.toNat % 64) = false →
      ∃ u, exec (.apclr p) s = .next u ∧ u = { s.notePbnd [p] with apertures := u.apertures, aperturesWas := u.aperturesWas } ∧
        u.apertures = s.apertures.set (path.toNat % 64) .none ∧ u.aperturesSeen = s.aperturesSeen) ∧
    (s.src p 0 = .ok path → s.room 2 0 = .ok () →
      GivesSome (.apq d p) s [p] 2 (.scalar d.toNat) fun w =>
        let e := s.apertures.getD (path.toNat % 64) .none
        w.getLsbD 31 = e.isSome ∧ w.getLsbD 30 = s.apertureBusy (path.toNat % 64) ∧
        (∀ k < 2, w.getLsbD (28 + k) = match e with | .some z => z.xf.testBit k | .none => false) ∧
        ∀ k < 28, w.getLsbD k = false))

/-- R251, R256, R258, R264 to R268, R305, R363, R417, R422: what these commands write to memory and to registers they write later, at
their own cycles: until then, from exec's next state, every byte of every memory and every register reads as before. -/
def Obligations.CommandsWriteLater : Prop :=
  ∀ (i : Instr) (s t : State), s.Placed → s.cur.trapped = false → s.cur.mustHold = false →
    (match i with
      | .wcopy _ _ _ _ | .wmcast _ _ _ _ | .wgath _ _ _ _ | .wscat _ _ _ _ | .wgeo _ _ _ | .wgeoHi _ _ _ | .wgeoTab _ _ _
      | .wamoAdd _ _ _ | .wamoSwap _ _ _ | .wamoCas _ _ _ | .wamoMax _ _ _ | .wsnap _ _ | .wcall _ _ _ | .wjoin
      | .lsend _ _ _ | .lrecv _ _ _ | .llat _ _ | .gcyc _ _ | .gadj _ _ | .lpair _ _ | .cxmk _ _ _ | .cxgive _ _ _ | .cxq _ _ _
      | .cxload _ _ | .cxpend _ _ | .apset _ _ _ | .apclr _ | .mgeoA _ | .mgeoW _ _ | .mgeoD _ _ | .mgeoN _ _ | .mprog _ _ _ _
      | .mprogOpen _ _ _ | .mprogClr _ | .mzero _ | .mrun _ _ _ _ | .mload _ | .mspillAcc _ | .mspillSlot _ | .mfillAcc _ | .mfillSlot _
      | .menc _ _ | .mcomp _ => True
      | _ => False) →
    exec i s = .next t → t.cur.trapped = false → t.cur.mustHold = false → SameMemory s t ∧ SameRegisters s t

/-! ### Hardware events -/

/-- R55 to R61, R331: what the mailbox events answer and change; a request that was refused, or whose source has lost its context, is
answered so and changes nothing. Which port a response takes, and when one of a context without a share starts, is log entry 47 (DESIGN
CHOICE), and the windows of R432 start at multiples of 4,096 (DEDUCED, log entry 28). -/
def Obligations.MailboxEvents : Prop :=
  (∀ (q : MailReq) (status : Nat) (data : List Byte), status < 256 → data.length < 2 ^ 16 →
    let r := q.response status data
    r.length = 16 + data.length ∧ (r.getD 0 0).toNat = (if q.op = 1 then 0x81 else if q.op = 2 then 0x82 else 0x80) ∧
      (r.getD 1 0).toNat = status ∧ leNat ((r.drop 2).take 2) = data.length ∧ leNat ((r.drop 4).take 4) = q.tag.toNat ∧
      (∀ k < 8, r.getD (8 + k) 0 = 0) ∧ r.drop 16 = data) ∧
  (∀ (i : Instr) (s : State), isMailEvent i = true →
    (s.mailCtx s.ev.src = .none → Answers i s s 4 []) ∧ (s.mailCtx s.ev.src ≠ .none → s.ev.a ≠ 0 → Answers i s s s.ev.a []) ∧
    (s.ev.a = 0 → s.mailCtx s.ev.src ≠ .some s.ev.b → Answers i s s 4 [])) ∧
  (∀ s : State, MailReady s →
    let l := mailBytes s.ev.req s.ev.word.toNat s.ev.c
    let x := s.ctx s.ev.b
    let v := leNat (s.ev.req.payload.take 4)
    let q := (x.queue v).state
    Answers .mailboxWrite s (s.writeBytes .dev 3 (l.zip s.ev.req.payload)) 0 [] ∧
    (s.ev.req.space = 1 → ∃ w : Word, Answers .mailboxRead s s 0 (leBytes 4 w.toNat) ∧
      (s.ev.req.addr.toNat = 4 → w = x.pend.setWidth 32) ∧ (s.ev.req.addr.toNat = 8 → w = x.kcoal.setWidth 32) ∧
      (s.ev.req.addr.toNat = 12 → w = x.note.setWidth 32) ∧
      (∀ k < 16, s.ev.req.addr.toNat = 0x40 + 4 * k → (x.queue k).state < 4 →
        w.toNat = (x.queue k).fail.toNat * 2 ^ 18 + (x.queue k).state * 2 ^ 16 + (x.queue k).done.toNat)) ∧
    (s.ev.req.space ≠ 1 → s.anyBad .dev l = true → Answers .mailboxRead s s 5 []) ∧
    (s.ev.req.space ≠ 1 → s.anyBad .dev l = false → Answers .mailboxRead s s 0 (l.map (s.readByte .dev))) ∧
    (16 ≤ v → Answers .kick s s 3 []) ∧
    (v < 16 → (q = 0 ∨ q = 3) → Answers .kick s s 0 []) ∧
    (v < 16 → q ≠ 0 → q ≠ 3 → x.pend.getLsbD v = true →
      Answers .kick s (s.modCtx s.ev.b fun k => { k with kcoal := BitVec.ofNat 16 (min (k.kcoal.toNat + 1) 65535) }) 0 []) ∧
    (v < 16 → q ≠ 0 → q ≠ 3 → x.pend.getLsbD v = false →
      Answers .kick s (s.modCtx s.ev.b fun k => { k with pend := k.pend ||| 1#16 <<< v }).reschedule 0 []) ∧
    Answers .kcoalWrite s (s.modCtx s.ev.b fun k => { k with kcoal := 0 }) 0 [] ∧
    (s.ev.req.addr.toNat = 12 → Answers .kickPageRegisterWrite s (s.modCtx s.ev.b fun k => { k with note := BitVec.ofNat 16 v }) 0 []) ∧
    (s.ev.req.addr.toNat ≠ 12 → Answers .kickPageRegisterWrite s s 0 []))

/-- R248, R253, R254, R257, R264, R266, R278, R286, R290: the walker's events: a beat that performs writes what it sampled and nothing
else (of a `wscat` or a call's inward copies, not what a later beat has written there); a retried slot moves to a later cycle; a walk's fault becomes a pending trap of its core; the results of `wamo` and `apset` land
in the scalars that wait for them; a block's hash decides whether it counts as changed; an expanded block is handed to its beats. -/
def Obligations.WalkerEvents : Prop :=
  (∀ (s : State) (c : Cmd) (b : Beat), s.cmd? s.ev.a = .some c → c.beats[s.ev.b]? = .some b → (∀ k, c.kind ≠ .callOut k) →
    b.abandoned = false → b.performed = false → s.ev.c ∉ b.written → (∀ h, b.dstSpace.herd = .some h → s.givenAway c.ctx h = false) →
    let performs (l : List (Nat × Byte)) : Prop := ∃ u, exec .walkerBeatPerform s = .next u ∧
      ∀ sp a, u.readByte sp a = (s.writeBytes b.dstSpace c.level (l.filter fun p => !c.overtaken b p.1)).readByte sp a
    (b.toDev = false → b.performAt = s.tick → performs b.output) ∧
    (b.toDev = true → ∀ line t, b.slots[s.ev.c]? = .some (line, t) → t + 10 = s.tick → performs (b.output.filter fun p => p.1 / 64 == line))) ∧
  (∀ (c : Cmd) (b : Beat) (a : Nat), c.overtaken b a = true ↔ (c.kind = .scatter ∨ ∃ k, c.kind = .callIn k) ∧
    ∃ q ∈ c.beats, b.num < q.num ∧ q.performed = true ∧ q.abandoned = false ∧ q.dstSpace = b.dstSpace ∧ a ∈ q.dst) ∧
  (∀ b : Beat, b.post = .none → b.mask = [] → ∀ p ∈ b.output, ∃ a, (a, p.1) ∈ b.src.zip b.dst ∧ p.2 = gotByte b.got a) ∧
  (∀ (s : State) (c : Cmd) (b : Beat) (line t : Nat), s.cmd? s.ev.a = .some c → s.ev.b < 65536 → c.beats[s.ev.b]? = .some b →
    b.slots[s.ev.c]? = .some (line, t) → (∀ j, b.slots[j]? = .some (line, t) → j = s.ev.c) → b.performed = false →
    b.abandoned = false → s.tick < t + 11 →
    ∃ (u : State) (t' : Nat), exec .dramRetry s = .next u ∧ s.tick < t' ∧ t < t' ∧ CmdBecomes s u s.ev.a fun _ c' =>
      ∃ b', c'.beats[s.ev.b]? = .some b' ∧ b'.slots = b.slots.set s.ev.c (line, t') ∧ b'.performed = false) ∧
  (∀ (s : State) (c : Cmd) (cls owner va : Nat) (w : Bool), s.cmd? s.ev.a = .some c → c.walkFault = .some (cls, owner, w, va) →
    (match c.kind with | .callIn _ | .cxmk _ | .cxgive _ | .cxq _ => False | _ => True) → cls ≠ 31 →
    (s.ctx c.ctx).failed = false → (s.ctx c.ctx).revoking = false → s.kept = [] → (s.core c.herd c.core).runs c.ctx = true →
    ∃ u, exec .walkFaultPending s = .next u ∧
      (let r := ({ cls := cls, owner := owner, write := w, va := va } : Refused).trap
       (u.core c.herd c.core).asyncs = (s.core c.herd c.core).asyncs ++
         [{ cls := cls, d0 := r.d0, d1 := r.d1, addr := .some c.addr, ctx := c.ctx, owner := owner }]) ∧
      CmdBecomes s u s.ev.a fun _ c' => c'.outstanding = false ∧ c'.walkFault = .none) ∧
  (∀ (s : State) (c : Cmd), s.cmd? s.ev.a = .some c → c.record ≠ [] →
    (∀ op n v v2 va, c.kind = .wamo op n v v2 va → c.promise ≤ s.tick →
      ∃ u, exec .wamoComplete s = .next u ∧ ScalarLands s u c n (BitVec.ofNat 32 (leNat c.record))) ∧
    (∀ n reg va, c.kind = .apset n reg va → ∃ u, exec .apsetComplete s = .next u ∧
      let e := apertureOfRecord c.record
      (apertureWellFormed c.record = false → u.apertures = s.apertures ∧ ScalarLands s u c n 2) ∧
      (apertureWellFormed c.record = true → s.apertureClash reg e = true → u.apertures = s.apertures ∧ ScalarLands s u c n 1) ∧
      (apertureWellFormed c.record = true → s.apertureClash reg e = false →
        u.apertures = s.apertures.set reg (.some e) ∧ ScalarLands s u c n 0))) ∧
  (∀ (s : State) (c : Cmd) (j t : Nat), s.cmd? s.ev.a = .some c → c.n = s.ev.b →
    (s.compares c).find? (fun p => p.1 == s.ev.b) = .some (j, t) → t ≤ s.tick →
    let size := denseBytes (c.snapBox 0)
    let reads := readsIn c.beats (65536 * s.ev.b) (blockLen size s.ev.b)
    let entry := readsIn c.beats (entryTag s.ev.b) 16
    (∀ b ∈ reads ++ entry, b.abandoned = false) →
    ∃ u, exec .snapBlockHashed s = .next u ∧ CmdBecomes s u s.ev.a fun _ c' => c'.n = s.ev.b + 1 ∧
      c'.changed = c.changed + if (sha256 (reads.flatMap Beat.bytes)).take 16 = entry.flatMap Beat.bytes then 0 else 1) ∧
  (∀ (s : State) (c : Cmd) (q : PackedBlock), s.cmd? s.ev.a = .some c → c.packed[s.ev.b]? = .some q → q.delivered = false →
    q.deliverAt = s.tick →
    let z := expandZ ((List.range 4096).map (gotByte q.got))
    ∃ u, exec .expanderDeliver s = .next u ∧ CmdBecomes s u s.ev.a fun _ c' =>
      c'.packed[s.ev.b]? = .some { q with err := z.err, delivered := true } ∧
      ∀ (k : Nat) (b : Beat), c.beats[k]? = .some b → b.expanded = true → b.block = .some s.ev.b →
        c'.beats[k]? = .some { b with got := b.src.map fun o => (o, z.bytes.getD o 0), sampled := true })

/-- R299 to R303, R309, R317, R318, R321 to R323: the array's samples and events: what an `mrun` reads; its group adds to every element
of the set the rounded sum of weight times activation, with its counters; a slot takes the records of its load, or is left empty with
the weight-record fault; a set takes its fill; `menc` makes canonical records and `mcomp` keeps the largest elements; and the rows and
groups that `mspill`, `menc` and `mcomp` write stand in HM and nowhere else. A slot that is left empty still holds the bytes loaded, the
NaN test looks at all 32 activations, and padding weights add nothing (DEDUCED, log entry 24). -/
def Obligations.ArrayEvents : Prop :=
  ∀ (s : State) (c : ArrCmd), s.ev.a < s.herds.length → s.arrCmd? s.ev.a s.ev.b = .some c →
    let a := (s.herd s.ev.a).array
    let code := boxCode c.src
    let b := baseCode code
    let counts (u : State) (fl : Nat → Prop) : Prop :=
      let z := (u.herd s.ev.a).array
      let up (x y : Word) (k : Nat) : Prop := (fl k → y.toNat = min (x.toNat + 1) (2 ^ 32 - 1)) ∧ (¬ fl k → y = x)
      up a.cnv z.cnv 4 ∧ up a.cof z.cof 2 ∧ up a.cuf z.cuf 1 ∧ up a.cnx z.cnx 0
    let samples (k : Nat) (P : ArrCmd → Prop) : Prop := ∃ c', (s.sampleArray s.ev.a s.ev.b k).arrCmd? s.ev.a s.ev.b = .some c' ∧ P c'
    let memory (a n : Nat) : List Byte := (List.range n).map fun k => s.readByte (.hm s.ev.a) (a + k)
    let intact (a n : Nat) : Prop := ∀ k < n, s.badByte (.hm s.ev.a) (a + k) = false
    let ncol := geoNcol c.geo
    let ngrp := geoNgrp c.geo
    let column := slotGroups code * blockBytes code
    let loaded (o : Nat) : Byte := if o / column < ncol then (c.got (o / column)).getD (o % column) 0 else 0
    let filled (o : Nat) : Byte := (c.got (o / 512 + 1)).getD (o % 512) 0
    let fmtb := ((c.got 0).getD 0 0).toNat
    let ng := ((c.got 0).getD 1 0).toNat
    let header : Prop := 0x18 ≤ fmtb ∧ fmtb ≤ 0x1F ∧ ng ≤ slotGroups fmtb ∧ ∀ x ∈ (c.got 0).drop 2, x = 0
    let takes (w n ng : Nat) (header : Prop) (byte : Nat → Byte) (P : WSlot → Prop) : Prop :=
      w < a.ws.length →
      (∃ u, exec .slotLoadComplete s = .next u ∧ (u.herd s.ev.a).array.acc = a.acc ∧
        (∀ v, v ≠ w → (u.herd s.ev.a).array.ws.getD v {} = a.ws.getD v {}) ∧
        SlotTakes ((u.herd s.ev.a).array.ws.getD w {}) n ng header byte ∧ P ((u.herd s.ev.a).array.ws.getD w {})) ∧
      ∃ d : Option Word, LoadFaults n ng header byte d ∧ s.sampleArray s.ev.a s.ev.b 1 = match d with
        | .some d => s.plan c.fin 0 0 (.asyncDue s.ev.a c.core { cls := 16, d0 := d, ctx := c.ctx, owner := c.ctx })
        | .none => s
    let writes (i : Instr) (at_ : Nat) : Prop := ∃ u, exec i s = .next u ∧
      (∀ sp x, (sp ≠ .hm s.ev.a ∨ x < at_ ∨ at_ + (c.got s.ev.c).length ≤ x) → s.Canonical → u.readByte sp x = s.readByte sp x) ∧
      (s.Canonical → ∀ k < (c.got s.ev.c).length, u.readByte (.hm s.ev.a) (at_ + k) = (c.got s.ev.c).getD k 0)
    (∀ n w quiet, c.op = .mrun n w quiet → s.dying c.ctx = false → n < a.acc.length → (a.acc.getD n []).length = 2048 →
      let g := s.ev.c
      ∃ (u : State) (out : Nat → Nat → Nat × Flags), exec .arrayGroupWrite s = .next u ∧
        (∀ m, m ≠ n → (u.herd s.ev.a).array.acc.getD m [] = a.acc.getD m []) ∧
        (∀ r < 16, ∀ j < 128, ((u.herd s.ev.a).array.acc.getD n []).getD (128 * r + j) 0 = BitVec.ofNat 32 (out r j).1 ∧
          (RecordFits c.fmtb (c.columnRecord g j) → GroupAdds b c.fmtb (c.rowScale g r) ((c.slotBytes g).headD 0).toNat (c.columnRecord g j) (c.activation g r)
            ((a.acc.getD n []).getD (128 * r + j) 0).toNat (out r j))) ∧
        (let raises (k : Nat) : Prop := ∃ r < 16, ∃ j < 128, (out r j).2.testBit k = true
         counts u raises ∧ (∀ h k, (h ≠ s.ev.a ∨ k ≠ c.core) → u.regs h k = s.regs h k) ∧
         (quiet = true → u.regs s.ev.a c.core = s.regs s.ev.a c.core) ∧
         (quiet = false → c.core < (s.herd s.ev.a).cores.length → Regs.Sized (s.regs s.ev.a c.core) →
           Records (s.regs s.ev.a c.core) (u.regs s.ev.a c.core) 3 raises c.addr ∧
           u.regs s.ev.a c.core = { s.regs s.ev.a c.core with xr := (u.regs s.ev.a c.core).xr }))) ∧
    (∀ n w quiet, c.op = .mrun n w quiet → ∀ i,
      (∀ t g rows, (runReads (activationCost code) c.q ngrp)[i]? = .some (t, g, rows) →
        let col := (pathCol c.path 0).toNat + 32 * g
        let span (r : Nat) : Nat × Nat := groupSpan c.src ((pathRow c.path).toNat + r) col
        (∀ r ∈ rows, c.got (16 * g + r) = [] ∧ ((pathRow c.path).toNat + r < boxRows c.src → intact (span r).1 (span r).2)) →
        samples (3 * i) fun c' => ∀ r ∈ rows,
          c'.got (16 * g + r) = if (pathRow c.path).toNat + r < boxRows c.src then memory (span r).1 (span r).2 else []) ∧
      (samples (3 * i + 1) fun c' => isBlockCode code = true → ∀ r < 16,
        c'.rowScale i r = (BitVec.extractLsb' (8 * (16 * (i % 4) + r)) 8 ((s.regs s.ev.a c.core).k.getD ((geoK0 c.geo + i / 4) % 8) 0)).toNat) ∧
      samples (3 * i + 2) fun c' =>
        let x := a.ws.getD w {}
        let k := geoKfirst c.geo + i
        c'.fmtb = x.fmtb ∧ ((c'.slotBytes i).headD 0).toNat = min 32 (x.cols - 32 * k) ∧
        (isEncoded x.fmtb = true → k < slotGroups x.fmtb → ∀ j < 128,
          c'.columnRecord i j = if k < x.ng then slotRecord x.fmtb (fun o => x.image.getD o 0) j k else 0)) ∧
    (∀ w, c.op = .mload w → ncol ≤ 128 → ngrp ≤ slotGroups code → (∀ j < ncol, (c.got j).length ≤ column) →
      takes w code ngrp True loaded fun x => x.cols = boxExt c.src 0 - (pathCol c.path 0).toNat) ∧
    (∀ w, c.op = .fillSlot w → (∀ r < 97, (c.got r).length ≤ 512) → takes w fmtb ng header filled fun _ => True) ∧
    (∀ i, let q := wholeSpan c.src (c.groupPlace i).1.1 (c.groupPlace i).1.2
      let l := memory q.1 q.2
      let n := groupCols c.src (c.groupPlace i).1.2
      let element (j : Nat) : Nat := if j < n then leNat (l.take (4 * baseWidth b)) / 2 ^ (baseWidth b * j) % 2 ^ baseWidth b else 0
      intact q.1 q.2 → isDenseWeight code = true →
      (∀ top quiet, c.op = .menc top quiet → top ≤ 32 → isEncoded (boxCode c.dst) = true → samples (3 * i) fun c' => ∃ fl : Flags,
        (c'.got i).length = blockBytes (boxCode c.dst) ∧ c'.scales.head? = .some (i, leBytes 1 fl) ∧
        GroupEncodes b (boxCode c.dst) n top (if isBlockCode code then ((l.drop (4 * baseWidth b)).headD 127).toNat else 127) element
          (leNat (c'.got i), fl)) ∧
      (∀ top, c.op = .mcomp top → 1 ≤ top → top ≤ 32 → samples (3 * i) fun c' =>
        (c'.got i).length = l.length ∧
        (isBlockCode code = true → (c'.got i).drop (4 * baseWidth b) = l.drop (4 * baseWidth b)) ∧
        ∃ W, GroupWeights b n element W ∧ ∀ j < 32, (isBlockCode code = true ∨ j < n) →
          let z := leNat ((c'.got i).take (4 * baseWidth b)) / 2 ^ (baseWidth b * j) % 2 ^ baseWidth b
          (j < n ∧ Keeps top W j ∧ ¬ (b = 14 ∧ element j = 2) → z = element j) ∧
          (¬ (j < n ∧ Keeps top W j ∧ ¬ (b = 14 ∧ element j = 2)) → z = 0))) ∧
    (∀ n, c.op = .fillAcc n → a.laterGroup n c.id s.tick = false → n < a.acc.length →
      ∃ u, exec .accumulatorFillComplete s = .next u ∧ (u.herd s.ev.a).array.ws = a.ws ∧
        (∀ m, m ≠ n → (u.herd s.ev.a).array.acc.getD m [] = a.acc.getD m []) ∧
        ∀ r < 16, ∀ j < 128, (((u.herd s.ev.a).array.acc.getD n []).getD (128 * r + j) 0).toNat = leNat (((c.got r).drop (4 * j)).take 4)) ∧
    (∀ n, (c.op = .spillAcc n ∨ c.op = .spillSlot n) → writes .spillRowPerform (c.rowAddr s.ev.c)) ∧
    (∀ n quiet, (c.op = .menc n quiet ∨ c.op = .mcomp n) → writes .encodeGroupPerform (c.groupTarget s.ev.c).1)

/-- R254, R328, R369 to R378, R395: the events of calls: an entry core starts with the state of R126, its frame and its parameters;
it waits for an entry core that a trap holds, and the caller for a handler on its core (DEDUCED, log entry 63); outward copies begin in
sibling order; the caller and the join are released once every copy has performed; a byte that FAULT, OVER
or KEEP merges; a reflected trap's record becomes pending. -/
def Obligations.CallEvents : Prop :=
  (∀ (s : State) (k : Call) (c : Cmd), s.call? s.ev.a = .some k → k.state = .entering → k.entry ≤ s.tick → s.cmd? s.ev.b = .some c →
    (s.ctx k.ctx).failed = false →
    (c.bound = 0 → c.outstanding = true → s.tick ≤ c.promise → ∃ u, exec .childEntry s = .next u ∧ SameRegisters s u ∧
      ∃ q, u.call? s.ev.a = .some q ∧ q.state = .entering ∧ q.entry = c.promise + 1) ∧
    ((c.bound ≠ 0 ∨ c.outstanding = false ∨ c.promise < s.tick) →
      let h := if k.level = 2 then k.target else k.herd
      let held : Prop := (∃ x ∈ k.cores, (s.regs h x).trap ≠ .none) ∨ (k.suspends = true ∧ (s.regs k.herd k.core).pend ≠ [])
      (held → ∃ u, exec .childEntry s = .next u ∧ SameRegisters s u ∧ ∃ q, u.call? s.ev.a = .some q ∧ q.state = .entering ∧ q.entry = s.tick + 1) ∧
      (¬ held → ∃ u, exec .childEntry s = .next u ∧ (∃ q, u.call? s.ev.a = .some q ∧ q.state = .running ∧ q.masks = []) ∧
        ∀ x ∈ k.cores, k.cores.Nodup → h < s.herds.length → x < (s.herd h).cores.length →
          (∃ f, (u.regs h x).frame = .some f ∧ f.ctx = k.ctx ∧ f.level = k.level ∧ f.task = k.task ∧ f.call = .some k.id ∧
            f.boxes = (List.range 16).map fun j => (k.args[j]?).map (·.childBox)) ∧
          (u.regs h x).bank = .some k.params ∧ (∀ n, (u.regs h x).scalar n = 0) ∧ (u.regs h x).loops = [] ∧ (u.regs h x).sw = 0 ∧
          (u.core h x).issueAt = s.tick ∧ (u.core h x).hold = .none))) ∧
  (∀ (s : State) (k : Call), s.call? s.ev.a = .some k → k.state = .returned → (s.ctx k.ctx).failed = false →
    ((∃ q, s.previous k = .some q ∧ ((q.state ≠ .applying ∧ q.state ≠ .applied) ∨ s.tick < q.doneAt)) →
      exec .outwardCopyApply s = .next (s.planApply k)) ∧
    ((∀ q, s.previous k = .some q → (q.state = .applying ∨ q.state = .applied) ∧ q.doneAt ≤ s.tick) →
      ∃ u, exec .outwardCopyApply s = .next u ∧ SameMemory s u ∧ SameRegisters s u ∧
        ∃ q, u.call? s.ev.a = .some q ∧ q.state = .applying ∧ q.applyAt = s.tick ∧ s.tick ≤ q.doneAt)) ∧
  (∀ (s : State) (k : Call), s.call? s.ev.a = .some k → k.herd < s.herds.length → k.core < (s.herd k.herd).cores.length →
    let c := s.core k.herd k.core
    (k.done s.tick = false → exec .callerResume s = .next (s.planEv (k.doneAt + 1) 0 6 .callerResume s.ev)) ∧
    (k.done s.tick = true → ∀ r l, c.susp = r :: l → k.id ∈ r.group → c.r.trap ≠ .none →
      exec .callerResume s = .next (s.planEv (s.tick + 1) 0 6 .callerResume s.ev)) ∧
    (k.done s.tick = true → ∀ r l, c.susp = r :: l → k.id ∈ r.group → c.r.trap = .none → r.trap = .none →
      ∃ u, exec .callerResume s = .next u ∧ u.regs k.herd k.core = r ∧ (u.core k.herd k.core).susp = l ∧
        (u.core k.herd k.core).hold = .none ∧ (u.core k.herd k.core).issueAt = s.tick)) ∧
  (∀ s : State, s.ev.a < s.herds.length → s.ev.b < (s.herd s.ev.a).cores.length → (s.core s.ev.a s.ev.b).hold = .join →
    (∀ id ∈ (s.regs s.ev.a s.ev.b).group, ∀ k, s.call? id = .some k → k.done s.tick = true) →
    ∃ u, exec .joinRelease s = .next u ∧ SameMemory s u ∧ SameRegisters s u ∧ (u.regs s.ev.a s.ev.b).group = [] ∧
      (u.core s.ev.a s.ev.b).hold = .none ∧ (u.core s.ev.a s.ev.b).issueAt = s.tick ∧
      ∀ k ∈ u.calls, k ∈ s.calls ∧ k.id ∉ (s.regs s.ev.a s.ev.b).group) ∧
  (∀ (s : State) (c : Cmd) (b : Beat) (l : List (Nat × Byte)) (k : Call) (a : CallArg), c.kind = .callOut k.id → s.call? k.id = .some k →
    k.args[c.n]? = .some a → boxMerge a.childBox < 3 →
    let fresh (x : Nat) : Bool := !(s.caller k).marks.contains (b.dstSpace, x)
    let kept := if boxMerge a.childBox = 1 then l else l.filter fun p => fresh p.1
    ∀ sp x, (s.mergeWrite c b l).readByte sp x = (s.writeBytes b.dstSpace c.level kept).readByte sp x) ∧
  (∀ (s : State) (x : Ctx), s.ctx? s.ev.a = .some x → x.revoking = false →
    (64 ≤ x.ctraps.length → ∃ u, exec .reflectedTrapEntry s = .next u ∧ (u.ctx s.ev.a).ctrapOvf = true ∧
      (u.ctx s.ev.a).ctraps = x.ctraps) ∧
    (x.ctraps.length < 64 → ∃ u, exec .reflectedTrapEntry s = .next u ∧ (u.ctx s.ev.a).ctraps = x.ctraps ++ [s.ev.words] ∧
      (x.takes (recordClass s.ev.words) = true → (u.ctx s.ev.a).entries = x.entries ++ [{ due := s.tick, record := s.ev.words }]) ∧
      (x.takes (recordClass s.ev.words) = false → (u.ctx s.ev.a).entries = x.entries)))

/-- R63, R87 to R89, R356, R402 to R409, R414, R416, R418, R420, R422: the completions of the CTX commands with their statuses, the end
of a revocation, the budget stop, the saturation of ECNT, the slice end and the deficit renewal, the drain on the grid and its
watchdog, stage 0 of a stop, a first residency, and the two stages of a program's start. Status 1 of `cxload` for a child that is neither
saved nor fresh is log entry 20 (DEDUCED), and the ADDR 0 of a revocation's record log entry 33 (DEDUCED). -/
def Obligations.ContextEvents : Prop :=
  (∀ (s : State) (c : Cmd), s.cmd? s.ev.a = .some c → s.descriptorHere c = true →
    (∀ n, c.kind = .cxmk n →
      (s.createCtx c.ctx c.record = .none → exec .cxmkComplete s =
        .next (s.badContext c (s.withheld c.ctx ((CtxDesc.ofBytes c.record).kind == 1) [] c.record))) ∧
      ∀ t x, s.createCtx c.ctx c.record = .some (t, x) → exec .cxmkComplete s =
        .next (t.endEngine c.herd c.core (s.tick + 1) fun t => t.put 1 (.scalar n) (BitVec.ofNat 512 x))) ∧
    (∀ x, c.kind = .cxgive x →
      (s.isChild c.ctx x = false → exec .cxgiveComplete s = .next (s.badContext c)) ∧
      (s.isChild c.ctx x = true → s.giveCtx c.ctx x c.record = .none → exec .cxgiveComplete s =
        .next (s.badContext c (s.withheld c.ctx (!(s.ctx x).timeShared) (s.ctx x).herds c.record))) ∧
      ∀ t, s.isChild c.ctx x = true → s.giveCtx c.ctx x c.record = .some t →
        exec .cxgiveComplete s = .next (t.endEngine c.herd c.core (s.tick + 1)))) ∧
  (∀ (s t : State) (p x : Nat) (l : List Byte), s.createCtx p l = .some (t, x) → ctxDescOk l = true ∧ (s.ctx p).depth < 4 ∧
    s.ctxs.length < 256 ∧ (CtxDesc.ofBytes l).qslots ≤ s.freeSlots p) ∧
  (∀ (s : State) (c : Cmd) (n : Nat), s.cmd? s.ev.a = .some c → c.kind = .cxq n → s.ev.c = 1 → (s.ctx c.ctx).failed = false →
    bytesNat c.record 0x19 1 = 0 → (s.ctx c.ctx).revoking = false → (∃ x, s.ctx? c.ctx = .some x) →
    exec .cxqComplete s = .next (((s.configure c.ctx c.record).1.ctxStatus c.id .cxqComplete
      (BitVec.ofNat 32 (s.configure c.ctx c.record).2)).reschedule)) ∧
  (∀ (s : State), (∃ x, s.ctx? s.ev.b = .some x) →
    (s.ev.c = 1 → exec .cxsaveComplete s = .next (s.ctxStatus s.ev.a .cxsaveComplete 1)) ∧
    (s.ev.c = 0 → (s.subtree s.ev.b).all (fun n => (s.ctx n).life != .away || s.kept.any fun k => k.ctx == n) = true →
      exec .cxsaveComplete s = .next (s.ctxStatus s.ev.a .cxsaveComplete 0))) ∧
  (∀ (s : State) (x : Ctx), s.ev.c = 0 → s.ctx? s.ev.b = .some x → x.revoking = false →
    ((s.loadable s.ev.b = false ∨ x.saveCmd ≠ .none) → exec .cxloadComplete s = .next (s.ctxStatus s.ev.a .cxloadComplete 1)) ∧
    (s.loadable s.ev.b = true → x.saveCmd = .none → ∀ header, s.sliceSpace (x.parent.getD 0) x.save 0x10000 = .ok header →
      (headerOk x header = false → exec .cxloadComplete s = .next (s.ctxStatus s.ev.a .cxloadComplete 1)) ∧
      (headerOk x header = true → ∀ area, s.readArea s.ev.b = .ok area → s.areaLost s.ev.b area = false →
        let was := ((s.kept.find? fun k => k.ctx == s.ev.b).map (·.header)).getD []
        let y := s.modCtx s.ev.b fun x => x.takeHeader was header
        (y.reconfigure s.ev.b = .none → exec .cxloadComplete s = .next (s.ctxStatus s.ev.a .cxloadComplete 2)) ∧
        ∀ t, y.reconfigure s.ev.b = .some t → ∃ v : State, exec .cxloadComplete s = .next v.reschedule ∧
          (∃ k ∈ v.kept, k.ctx = s.ev.b) ∧ (∀ z ∈ v.ctxs, z.num = s.ev.b → z.saved = false ∧ z.life = .away)))) ∧
  (∀ (s : State) (c : Cmd) (n : Nat) (i : Instr) (v : Word), s.cmd? s.ev.a = .some c → (s.ctx c.ctx).failed = false →
    (c.kind = .cxq n ∨ ∃ x, c.kind = .cxsave n x ∨ c.kind = .cxload n x) → s.kept = [] →
    ScalarLands s (s.ctxStatus s.ev.a i v) c n v ∧ CmdBecomes s (s.ctxStatus s.ev.a i v) s.ev.a fun _ c' => c'.outstanding = false) ∧
  (∀ s : State, (s.ctx? s.ev.a = .none → exec .revocationComplete s = .next s) ∧
    ∀ x, s.ctx? s.ev.a = .some x → (s.subtree s.ev.a).all (fun n => (s.ctx n).life != .away || s.kept.any fun k => k.ctx == n) = true →
      let y := s.firstTaker 30 (s.chain (x.parent.getD 0))
      let steps := x.depth - (s.ctx y).depth
      exec .revocationComplete s = .next ((((s.endContext s.ev.a).reflect y steps
        (trapRecord true 0 { cls := 30 } s.ev.a steps 0 (s.vcyc s.ev.a))).reschedule)) ∧
      ∀ z ∈ (s.endContext s.ev.a).ctxs, z.num ∉ s.subtree s.ev.a) ∧
  (∀ s : State,
    let x := s.ctx s.ev.a
    let m := x.member
    (x.budgetStopped = false → x.failed = false → x.revoking = false → x.parent ≠ .none →
      let y := s.routeTrap s.ev.a s.ev.a 29
      let steps := x.depth - (s.ctx y).depth
      exec .budgetStop s = .next (((s.modCtx s.ev.a fun k => { k with budgetStopped := true }).reflect y steps
        (trapRecord true 0 { cls := 29 } s.ev.a steps (s.regs x.lead 0).pc (s.vcyc s.ev.a))).reschedule)) ∧
    exec .ecntSaturation s = .next (s.modCtx s.ev.a fun k => { k with ecnt := 2 ^ 48 - 1, eovf := true, charge := 0 }) ∧
    exec .sliceEnd s = .next (s.requestStop (if m = 0 then s.ev.a else m) (s.unit s.ev.a m) (m = 0) .slice) ∧
    (m = 0 → exec .deficitRenewal s = .next (s.modCtx s.ev.a fun k => { k with
      ownDeficit := k.ownDeficit + ((s.memberWeight s.ev.a 0 * 121600 : Nat) : Int) })) ∧
    (m ≠ 0 → exec .deficitRenewal s = .next (s.modCtx m fun k => { k with
      deficit := k.deficit + ((s.memberWeight s.ev.a m * 121600 : Nat) : Int) })) ∧
    (s.ev.c = 1 → x.life = .resident → x.onGrid = true → x.grid = .some s.ev.b → s.ev.ok = true → x.revoking = false → x.saved = false →
      x.budgetStopped = false → exec .gridDrainStart s = .next (s.beginStop s.ev.a [s.ev.a] true .slice s.tick (.some s.ev.b))) ∧
    (x.life = .draining → x.stop = .some .save → ∃ addr, exec .drainWatchdog s = .next (s.fatal s.ev.a 5 addr)) ∧
    (x.life ≠ .draining → exec .drainWatchdog s = .next s) ∧
    (s.ev.b = 0 → ∀ k ∈ s.ctxs, k.life = .draining → k.stopUnit = s.ev.a → s.ctx k.num = k → ∃ u : State, exec .contextStop s = .next u.reschedule ∧
      (u.ctx k.num).life = .saving ∧ ∃ d ∈ u.agenda, s.tick < d.at_ ∧ d.act = .ev .contextStop { a := s.ev.a, b := 1 }) ∧
    (s.ev.b = 0 → x.life = .restoring → x.failed = false → (∀ k ∈ s.kept, k.ctx ≠ s.ev.a) →
      let y := s.modCtx s.ev.a fun c => { c with runNext := false }
      exec .contextRestore s = .next (((y.ownHerds s.ev.a).foldl State.freshHerd y).enterResidency s.ev.a)) ∧
    (s.ev.b = 1 → x.life = .restoring → x.failed = false → exec .contextRestore s =
      .next (((if x.runNext then s.resumeStopped s.ev.a s.tick else s).modCtx s.ev.a fun c => { c with runNext := false }).enterResidency s.ev.a))) ∧
  (∀ s : State,
    let x := s.ctx s.ev.a
    x.failed = false → x.revoking = false →
    (s.ev.c = 0 → (x.queue s.ev.b).state = 1 → x.life = .resident → s.ev.b < x.queues.length → (∃ z, s.ctx? s.ev.a = .some z) →
      ∃ u, exec .streamProgramStart s = .next u ∧ ((u.ctx s.ev.a).queue s.ev.b).state = 2 ∧
        ((u.ctx s.ev.a).queue s.ev.b).fail = false ∧ (s.ev.b < 16 → (u.ctx s.ev.a).pend.getLsbD s.ev.b = false) ∧
        ∃ d ∈ u.agenda, ∃ words, d.at_ = s.tick + (s.ev.words.headD 1).toNat ∧
          d.act = .ev .streamProgramStart { a := s.ev.a, b := s.ev.b, c := 1, words := words }) ∧
    (s.ev.c = 1 → s.leadBusy s.ev.a = false → x.life = .resident →
      exec .streamProgramStart s = .next (s.enterProgram s.ev.a s.ev.b s.ev.words)))

/-- R343 to R346, R348, R350 to R355, R360, R435: what a port sends and receives: beacons (ev.c clock cycles ago, in a hold, whose count read one
less than now), the count's jump with every offset, a
scheduled step, a departing and an arriving timed flit, the perform of a beat into HM, which is dropped where the herd has been given away, the close of a window, training and the
failure of a lane. A beacon of any group sets offset and count (DEDUCED, log entry 28), and a broken flit counts in DROPS of the context that
its header names (DESIGN CHOICE, log entry 49). -/
def Obligations.LinkEvents : Prop :=
  (∀ s : State, (s.port s.ev.a).up = true → s.gcycSet = true → s.gcyc % 4096 = 0 →
    ∃ u, exec .beaconSend s = .next u ∧ u.sent = .beacon s.ev.a s.gcyc s.plat.cfg.group :: s.sent ∧
      ∃ d ∈ u.agenda, d.at_ = s.tick + 4096 ∧ d.act = .ev .beaconSend { a := s.ev.a }) ∧
  (∀ s : State, s.ev.a < s.ports.length → (s.port s.ev.a).up = true →
    let there : Int := (s.ev.word.toNat : Int) + (s.port s.ev.a).lat
    let here : Int := s.gcyc - if s.ev.c = 0 then 0 else 1
    ((s.gcycSet = true ∨ s.plat.cfg.group = 0 ∨ s.plat.cfg.refport ≠ s.ev.a) → ∃ u, exec .beaconReceive s = .next u ∧
      (u.port s.ev.a).offValid = true ∧ (u.port s.ev.a).off16 = 16 * (there - here) - s.ev.b ∧ u.gcyc = s.gcyc) ∧
    (s.gcycSet = false → s.plat.cfg.group ≠ 0 → s.plat.cfg.refport = s.ev.a → ∃ u, exec .beaconReceive s = .next u ∧
      u.gcycSet = true ∧ (u.gcyc : Int) = there + s.ev.c ∧ (u.port s.ev.a).offValid = true ∧ (u.port s.ev.a).off16 = 0 ∧
      ∀ k ∈ s.ctxs, ∃ k' ∈ u.ctxs, k'.num = k.num ∧ (u.gcyc : Int) - k'.offset = s.gcyc - k.offset)) ∧
  (∀ (s : State) (t : Nat) (n : Int), s.adjust = .some (t, n) →
    (0 < n → s.gcyc + 1 = t → ∃ u, exec .gcycStep s = .next u ∧ u.adjust = .none ∧ (u.gcyc : Int) = s.gcyc + n ∧ u.held = s.held ∧
      ∀ k ∈ s.ctxs, ∃ k' ∈ u.ctxs, k'.num = k.num ∧ (u.gcyc : Int) - k'.offset = s.gcyc - k.offset) ∧
    (n ≤ 0 → s.gcyc = t → ∃ u, exec .gcycStep s = .next u ∧ u.adjust = .none ∧ u.held = s.held + n.natAbs ∧ u.gcyc = s.gcyc ∧
      u.ctxs = s.ctxs ∧ SameMemory s u ∧ SameRegisters s u ∧
      ∀ d ∈ s.agenda, ∀ h id, d.act = .linkPlace h id → s.tick < d.at_ →
        ∃ e ∈ u.agenda, e.act = d.act ∧ e.at_ = max (s.tick + 1) (d.at_ - n.natAbs))) ∧
  (∀ (s : State) (c : Cmd) (p tag herd peer : Nat), s.cmd? s.ev.a = .some c → c.kind = .send p tag herd peer → c.outstanding = true →
    c.n = s.ev.b → c.t0 + 5 * s.ev.b ≤ s.gcyc →
    ∃ u, exec .timedFlitDepart s = .next u ∧
      CmdBecomes s u s.ev.a (fun _ c' => c'.n = s.ev.b + 1 ∧ c'.outstanding = decide (s.ev.b + 1 < (c.beats.length + 2) / 3)) ∧
      ((s.port p).up = true → (s.port p).deg = false → ∃ f : TimedFlit, u.sent = .timed p f :: s.sent ∧ f.herd = herd ∧ f.tag = tag ∧
        f.index = s.ev.b ∧ f.srcCtx = c.ctx ∧ f.dstCtx = peer ∧ f.data = c.flitBytes s.ev.b ∧ f.count = f.data.length) ∧
      (((s.port p).up = false ∨ (s.port p).deg = true) → u.sent = s.sent)) ∧
  (∀ (s : State) (h : Nat) (w : Window),
    let q := s.port s.ev.a
    let f := s.ev.flit
    let paired : Prop := w.peer = .some f.srcCtx ∨ peerIn (q.pairsAt (s.tick + 2 - q.lat)) f.dstCtx = .some f.srcCtx
    q.up = true → q.deg = false → paired → (s.ctx f.dstCtx).herds[f.herd]? = .some h → h < s.herds.length →
    (s.ctxs.any fun k => k.parent == .some f.dstCtx && !k.timeShared && k.herds.contains h) = false →
    (s.herd h).windows.find? (fun w => w.ctx == f.dstCtx && w.port == s.ev.a && w.tag == f.tag) = .some w →
    (f.broken = true → exec .timedFlitArrive s = .next (s.dropFlit s.ev.a f.dstCtx)) ∧
    (f.broken = false → f.index < w.flits → s.gcyc + 2 ≤ w.close → (w.beats.getD (3 * f.index) []) ≠ [] → f.count ≠ 0 → f.data ≠ [] →
      ∃ u, exec .timedFlitArrive s = .next u ∧ SameMemory s u ∧ SameRegisters s u ∧
        ∃ l ∈ (u.herd h).linkBeats, l.ctx = w.ctx ∧ l.window = w.id ∧ l.beat = 3 * f.index ∧ s.tick + 2 ≤ l.at_ ∧
          l.bytes = ((w.beats.getD (3 * f.index) []).zip (((f.data.take f.count)).take 64)).map fun p => (p.1, maskByte w.mask p.1 p.2))) ∧
  (∀ (m : List (Nat × Byte)) (a : Nat) (v : Byte), ((∀ p ∈ m, p.1 ≠ a) → maskByte m a v = v) ∧
    ∀ k, m.head? = .some (a, k) → maskByte m a v = v &&& k) ∧
  (∀ (s : State) (l : LinkBeat),
    (s.herd s.ev.a).linkBeats.find? (fun l => l.id == s.ev.b) = .some l → l.at_ = s.tick →
    s.ev.a < s.herds.length →
    (s.givenAway l.ctx s.ev.a = true → ∃ u, exec .linkBeatPerform s = .next u ∧ SameMemory s u ∧ SameRegisters s u ∧
      ∀ k ∈ (u.herd s.ev.a).linkBeats, k ∈ (s.herd s.ev.a).linkBeats ∧ k.id ≠ l.id) ∧
    (s.givenAway l.ctx s.ev.a = false → s.inPlace l.ctx = true → ∃ u, exec .linkBeatPerform s = .next u ∧
      (∀ sp a, u.readByte sp a = (s.writeBytes (.hm s.ev.a) 2 l.bytes).readByte sp a) ∧
      (∀ k ∈ (u.herd s.ev.a).linkBeats, k ∈ (s.herd s.ev.a).linkBeats ∧ k.id ≠ l.id) ∧
      (∀ w ∈ (s.herd s.ev.a).windows, w.id = l.window → s.gcyc ≤ w.close →
        ∃ v ∈ (u.herd s.ev.a).windows, v.id = w.id ∧ l.beat ∈ v.done))) ∧
  (∀ (s : State) (w : Window), s.ev.a < s.herds.length → (s.herd s.ev.a).windows.find? (fun w => w.id == s.ev.b) = .some w →
    (s.gcyc < w.close → exec .receiveWindowClose s = .next (s.planEv (s.tick + (w.close - s.gcyc)) 5 3 .receiveWindowClose
      { a := s.ev.a, b := w.id })) ∧
    (w.close ≤ s.gcyc → ∃ u, exec .receiveWindowClose s = .next u ∧ (∀ v ∈ (u.herd s.ev.a).windows, v.id ≠ w.id) ∧
      (w.done.length = w.beats.length → u.agenda = s.agenda) ∧
      (w.done.length ≠ w.beats.length → ∃ d ∈ u.agenda, d.at_ = s.tick + 1 ∧ ∃ a : Async, d.act = .asyncDue s.ev.a w.core a ∧
        a.cls = 20 ∧ a.ctx = w.ctx ∧
        a.d0.toNat = w.done.length % 2 ^ 16 * 2 ^ 16 + w.tag % 256 * 256 + w.port % 32))) ∧
  (∀ s : State, s.ev.a < s.ports.length →
    (s.plat.cfg.porten.getLsbD s.ev.a = false → exec .portTrained s = .next s) ∧
    (s.plat.cfg.porten.getLsbD s.ev.a = true → ∃ u, exec .portTrained s = .next u ∧ (u.port s.ev.a).up = true ∧
      (u.port s.ev.a).lat = s.ev.b ∧ (u.port s.ev.a).deg = (s.port s.ev.a).deg ∧ (u.port s.ev.a).offValid = false) ∧
    (s.ev.a < 24 → (s.port s.ev.a).deg = false → ∃ u, exec .laneFailure s = .next u ∧ (u.port s.ev.a).up = false ∧
      (u.port s.ev.a).deg = true ∧ u.plat.sr = true))

/-- R192, R428 to R430, R436 to R443: the events of service and management: the status bits, the events that are sent, units that
retire, the words of the sideband, the report, and a reset, which keeps every byte of memory and leaves no task on any core. The
code of an event and its width are free values (Config.eventCode, Config.eventCodeWidth); that a reset keeps memory is log entry 35, and how
RESV is filled, for which its room is counted, log entry 23 (DEDUCED). -/
def Obligations.PlatformEvents : Prop :=
  ∀ s : State,
    let p := s.plat
    let sends (i : Instr) (q : Platform) (kind : Nat) : Prop :=
      exec i s = .next { s with plat := { q with events := p.events ++ [(kind, s.gcyc)] } }
    sends .currentWarning { p with cuw := true } 0 ∧ exec .currentWarningEnd s = .next { s with plat := { p with cuw := false } } ∧
    sends .thermalWarning { p with thw := true } 1 ∧ exec .thermalWarningEnd s = .next { s with plat := { p with thw := false } } ∧
    (p.tripped = false → sends .trip { p with tripped := true } 2) ∧
    (s.ev.a < s.herds.length → s.ev.b < 36 → s.ev.b ∉ (s.herd s.ev.a).retired → ∃ u, exec .hmBankRetire s = .next u ∧
      (u.herd s.ev.a).retired = s.ev.b :: (s.herd s.ev.a).retired ∧
      ((∀ k ∈ (s.herd s.ev.a).retired, k / 18 ≠ s.ev.b / 18) → u.plat.bankret = min 255 (p.bankret + 1) ∧ u.plat.sr = true) ∧
      ((∃ k ∈ (s.herd s.ev.a).retired, k / 18 = s.ev.b / 18) → u.plat = p ∧ (u.herd s.ev.a).groupLost (s.ev.b / 18) = true)) ∧
    (s.ev.a < 96 → s.ev.a ∉ p.failedHerds → exec .herdFailure s = .next { s with plat := { p with failedHerds := p.failedHerds ++ [s.ev.a] } }) ∧
    ((∀ r ∈ p.retired, r.channel ≠ s.ev.a) →
      let lines := (((p.retired.map (·.channel) ++ [s.ev.a]).zipIdx).map fun q => 3072 * (((9 * 10 ^ 9 + 3071 - q.1) / 3072 + 3070 - q.2) / (3071 - q.2))).sum
      (p.cfg.resv / 64 < lines → exec .pseudoChannelRetire s = .next { s with plat := { p with sr := true } }) ∧
      (lines ≤ p.cfg.resv / 64 → ∃ u, exec .pseudoChannelRetire s = .next u ∧ u.plat.sr = true ∧
        u.plat.pcret = min 255 (p.pcret + 1) ∧ u.plat.retired = p.retired ++ [{ channel := s.ev.a, copied := false }] ∧
        ∃ d ∈ u.agenda, s.tick < d.at_ ∧ d.act = .ev .resvCopyComplete { a := s.ev.a })) ∧
    (∃ u, exec .resvCopyComplete s = .next u ∧ u.plat.retired.map (·.channel) = p.retired.map (·.channel) ∧
      ∀ r ∈ u.plat.retired, r.channel = s.ev.a → r.copied = true) ∧
    exec .smbusReadSrs s = .next { s with sent := .smbus (leBytes 4 s.srs.toNat) :: s.sent } ∧
    (s.srs.getLsbD 31 = p.sr ∧ s.srs.getLsbD 30 = p.thw ∧ s.srs.getLsbD 29 = p.cuw ∧ (s.srs.toNat / 2 ^ 16) % 256 = min 255 p.pcret ∧
      (s.srs.toNat / 2 ^ 8) % 256 = min 255 p.bankret) ∧
    (s.ev.word.getLsbD 31 = true → exec .smbusClearSr s = .next { s with plat := { p with sr := false } }) ∧
    (s.ev.word.getLsbD 31 = false → exec .smbusClearSr s = .next s) ∧
    (p.events = [] → exec .smbusReadEvent s = .next { s with sent := .smbus (List.replicate 8 0) :: s.sent }) ∧
    (∀ e l, p.events = e :: l →
      exec .smbusReadEvent s = .next { s with plat := { p with events := l }, sent := .smbus (eventBytes e.1 e.2) :: s.sent }) ∧
    (∀ kind gcyc, ∃ w, 1 ≤ w ∧ w ≤ 7 ∧ (eventBytes kind gcyc).length = 8 ∧ (eventBytes kind gcyc).drop w = leBytes (8 - w) gcyc) ∧
    (s.ev.bytes.length = 32 → ∃ u, exec .smbusStartReport s = .next u ∧ u.plat.report = .none ∧ u.plat.reportPending = .some s.ev.bytes ∧
      ∃ d ∈ u.agenda, s.tick < d.at_ ∧ d.act = .ev .reportReady {}) ∧
    (∀ nonce, p.reportPending = .some nonce → nonce.length = 32 → ∃ (u : State) (r : List Byte), exec .reportReady s = .next u ∧
      u.plat.report = .some r ∧ u.plat.reportPending = .none ∧ r.length = 168 + 16224 ∧
      r.take 8 = [0x5A, 0x46, 0x41, 0x54, 1, 0, 0, 0] ∧ (r.drop 56).take 32 = nonce ∧ leNat ((r.drop 152).take 4) = s.srs.toNat) ∧
    (∃ l : List Byte, exec .smbusReadReport s = .next { s with sent := .smbus l :: s.sent } ∧ l.length = 64 ∧
      ∀ k < 64, l.getD k 0 = (p.report.getD []).getD (64 * (s.ev.a % 256) + k) 0) ∧
    (let resets (i : Instr) (image : List Byte) (ok : Bool) : Prop := ∃ u, exec i s = .next u ∧
        u.plat.configured = (ok && configOk image) ∧ u.plat.resets = p.resets + 1 ∧ u.plat.tripped = false ∧ u.cmds = [] ∧ u.calls = [] ∧
        u.ctxs = (if ok && configOk image then [Ctx.root (ConfigImage.ofBytes image)] else []) ∧
        (∀ sp a, u.readByte sp a = s.readByte sp a) ∧ ∀ h c, (u.regs h c).frame = .none ∧ ∀ n, (u.regs h c).scalar n = 0
     (p.tripped = false → resets .reset s.ev.bytes s.ev.ok) ∧ (p.tripped = true → exec .reset s = .next s) ∧ resets .smbusReset p.cfg.bytes p.configured)

/-! ### The machine -/

/-- R100 to R108, R133, R386, R139: when the bundle of a core is due, and no other bundle of the cycle that ends a copy of the core is to go
first (R201, R387; where one is, the step leaves the bundle due in this cycle and does nothing else), the step runs the syllables that its words decode to, one after
another, each by its meaning: a syllable whose guard is false does nothing; one that must wait holds the whole bundle; a trap ends
it; a bundle of one word holds exactly the instruction that this word decodes to. In interlocked mode the core holds a bundle of which a
syllable needs what has a pending write, or a slot or divider that is held (R139); a delay bundle that holds what R150 forbids traps at itself
with cause 9, its transfer still pending. -/
def Obligations.StepRunsDecoded : Prop :=
  (∀ (s : State) (d : Due) (rest : List Due) (g : EvArg) (l : List Syl),
    let k := s.core g.a g.b
    let here : State := { s with cur := { s.cur with herd := g.a, core := g.b } }
    let pc := k.r.pc.toNat
    s.held = 0 → s.plat.tripped = false → s.agenda = d :: rest → d.act = .ev .bundleIssue g → d.at_ ≤ s.tick → d.phase = 3 →
    g.a < s.herds.length → g.b < (s.herd g.a).cores.length → k.ready s.tick = true → k.hold = .none → k.inHandler = false →
    s.stillHeld k = false → k.asyncs = [] → here.dueEntry = .none → k.r.interlocked = false → k.r.xfer = .none → k.r.resume = 0 →
    here.fetchFails pc = false → (k.r.landing = true → 2 ≤ posOf (here.word pc)) → decodeBundle here.word pc = .ok l → l ≠ [] →
    let s0 : State := { s with agenda := rest }
    (g.c = 0 → s0.conflictComes exec g.a g.b = true →
      step s = .next (s0.planEv s.tick 3 (2 ^ 19 + s0.issueOrd g.a g.b) .bundleIssue { g with c := 1 })) ∧
    ((g.c = 0 → s0.conflictComes exec g.a g.b = false) → ∃ u, exec .bundleIssue { s0 with ev := { a := g.a, b := g.b } } = .next u ∧ step s = State.commitFrom exec s0 g.a g.b l u ∧
      u.latch = l ∧ u.tick = s.tick ∧ u.cur.herd = g.a ∧ u.cur.core = g.b ∧ u.cur.pc = k.r.pc ∧ u.cur.trapped = false ∧
      u.cur.mustHold = false ∧ u.cur.ix0 = k.r.ixHold.getD ((k.r.loops.head?.map (·.index)).getD 0) ∧ SameMemory s u ∧ SameRegisters s u)) ∧
  (∀ (s0 u t : State) (h c : Nat) (y : Syl) (l : List Syl),
    let v := u.select y l
    (v.unitFault y = .none → v.guardTrue y.slot y.guard = true → exec y.instr v = .next t →
      (t.cur.mustHold = true → State.commitFrom exec s0 h c (y :: l) u = .next (s0.holdBundle h c)) ∧
      (t.cur.mustHold = false → t.cur.trapped = true → v.interlocked = false →
        State.commitFrom exec s0 h c (y :: l) u = .next t.closeBundle) ∧
      (t.cur.mustHold = false → t.cur.trapped = false → State.commitFrom exec s0 h c (y :: l) u =
        State.commitFrom exec s0 h c l ((t.commit ((v.R.ctx).getD 0) y).holdVector y))) ∧
    (v.unitFault y = .none → v.guardTrue y.slot y.guard = false → State.commitFrom exec s0 h c (y :: l) u =
      State.commitFrom exec s0 h c l (v.holdVector y)) ∧
    State.commitFrom exec s0 h c [] u = .next u.closeBundle) ∧
  (∀ (word : Nat → Word) (pc : Nat) (i : Instr), posOf (word pc) = 3 → decode (word pc) = .ok i → pc + 3 ≤ 65536 →
    (claimFields (word pc)).length ≤ 2 → ∃ y : Syl, decodeBundle word pc = .ok [y] ∧ y.instr = i ∧ i.wf = true ∧
      y.guard = (word pc).toNat / 2 ^ 27 % 8 ∧ y.lits = (List.range (claimFields (word pc)).length).map fun k => word (pc + 1 + k)) ∧
  (∀ (s : State) (h c : Nat) (l : List Syl),
    let k := s.core h c
    let here : State := { s with cur := { s.cur with herd := h, core := c } }
    let pc := k.r.pc.toNat
    let issues : Out := exec .bundleIssue { s with ev := { a := h, b := c } }
    h < s.herds.length → c < (s.herd h).cores.length → k.ready s.tick = true → k.hold = .none → s.stillHeld k = false →
    (k.inHandler = true ∨ (k.asyncs = [] ∧ here.dueEntry = .none)) → k.r.resume = 0 → here.fetchFails pc = false →
    (k.r.landing = true → 2 ≤ posOf (here.word pc)) → decodeBundle here.word pc = .ok l →
    (k.r.interlocked = true → k.r.xfer = .none → here.nullified l = false →
      ∃ u, issues = .next u ∧ SameMemory s u ∧ SameRegisters s u ∧ (u.regs h c).pend = k.r.pend ∧
        ((∃ y ∈ l, here.interlockHolds k y = true) → u.latch = [] ∧ (u.core h c).issueAt = s.tick + 1 ∧
          ∃ e ∈ u.agenda, e.at_ = s.tick + 1 ∧ e.phase = 3 ∧ e.act = .ev .bundleIssue { a := h, b := c }) ∧
        ((∀ y ∈ l, here.interlockHolds k y = false) → u.latch = l)) ∧
    (∀ x, k.r.xfer = .some x → x.fresh = false →
      ((∃ y ∈ l, y.slot = 0 ∧ y.instr.delayOk = false) ∨ ∃ e ∈ k.r.loops, e.fin = k.r.pc) →
      ∃ u v : State, v = u.trapHere { cls := 1, cause := 9 } 0 k.r.pc .none ∧ u.tick = s.tick ∧ u.cur.herd = h ∧ u.cur.core = c ∧
        (u.regs h c).xfer = .some x ∧ SameMemory s u ∧ SameRegisters s u ∧
        issues = .next { (v.modCore h c fun k => { k with lastIssue := .some v.tick }) with latch := [] })) ∧
  (∀ i : Instr, i.delayOk = true ↔ i = .nop ∨ i = .fenceH ∨ i = .fenceD ∨ (∃ n a, i = .bset n a ∨ i = .bsetr n a) ∨ (∃ d k, i = .lidx d k) ∨
    (∃ d n, i = .rdsr d n) ∨ (∃ n a, i = .wrsr n a) ∨ (∃ a, i = .kill a) ∨ (∃ t a, i = .killt t a) ∨ (∃ n, i = .phase n) ∨
    (∃ d a b, i = .pand d a b ∨ i = .por d a b ∨ i = .pxor d a b ∨ i = .vany d a b ∨ i = .vall d a b) ∨ (∃ d a, i = .pnot d a ∨ i = .pmov d a) ∨
    (∃ d a b e, i = .pfirst d a b e) ∨ ∃ a b k e, i = .pcnt a b k e) ∧
  (∀ (s : State) (k : Core) (y : Syl),
    let pending (d : Dest) : Prop := ∃ p ∈ k.r.pend, p.dest = d
    let scalar (n : Nat) : Prop := n ≠ 0 ∧ (pending (.scalar n) ∨ ∃ p ∈ k.r.engPend, p.2 = n)
    let guard : Prop := y.guard ≠ 0 ∧ pending (.pred y.guard)
    let on : Prop := s.guardTrue y.slot y.guard = true
    let holds : Prop := s.interlockHolds k y = true
    (guard → holds) ∧ (y.slot = 5 → s.tick < k.vFree → holds) ∧
    (y.slot ≠ 5 → y.instr.divides = true → s.tick < (if y.slot = 1 then k.divA else k.divB) → holds) ∧
    (∀ d a b m, y.instr = .add d a b m → y.slot ≠ 5 →
      (holds ↔ guard ∨ (on ∧ ((a.toNat ≤ 23 ∧ scalar a.toNat) ∨ (b.toNat ≤ 23 ∧ scalar b.toNat) ∨ scalar d.toNat)))) ∧
    (∀ d a b c, y.instr = .pand d a b → c = d ∨ c = a ∨ c = b → c ≠ 0 → pending (.pred c.toNat) → on → holds) ∧
    ∀ d a s1 b f q t, ∀ n < 32, y.instr = .tadd d a s1 b f 1 q → t = d.toNat ∨ t = a.toNat ∨ (s1 = 0 ∧ t = b.toNat % 8) →
      pending (.tileRow t n) → on → holds)

/-- Words that the spec prints with the syllables that they encode (in its tables of encodings): each decodes to its instruction; a word of
a reserved major (R119) is refused. -/
def Obligations.DecodeWords : Prop :=
  decode 0xC0B00001#32 = .ok .modeInterlocked ∧ decode 0xC0141700#32 = .ok (.bback 0 23) ∧
  decode 0x804400FF#32 = .ok (.loopi 7 31) ∧ decode 0xC14411FD#32 = .ok (.addi 2 1 0x1FD#9) ∧
  decode 0xC1388113#32 = .ok (.sel 4 1 2 3) ∧ decode 0xC1C82310#32 = .ok (.icmpLt 1 3 2) ∧ decode 0xC2552230#32 = .ok (.bxok 9 2 6 0) ∧
  decode 0xC31108C4#32 = .ok (.hmemLdw 4 2 6 4) ∧ decode 0xC58521A3#32 = .ok (.wamoCas 4 6 3) ∧
  decode 0xC5C55007#32 = .ok (.gadj 10 7) ∧ decode 0xC6063FC0#32 = .ok (.cxpend 7 31) ∧ decode 0xC4840502#32 = .ok (.kst 0 5 2) ∧
  decode 0xC0880000#32 = .ok .eret ∧ decode 0xC6C00000#32 = .error .reservedMajor

/-- Decode and encode agree (R107 to R119 and the encoding tables): for every well-formed instruction that has a word, every POS and
every guard, the encoder's word decodes to it. -/
def Obligations.DecodeEncode : Prop :=
  ∀ (i : Instr) (pos : BitVec 2) (guard : BitVec 3), i.wf = true → decode (encode pos guard i) = .ok i

/-- Nothing that the device does ends a run: every fault of the spec is a trap that the machine takes (R384 to R397), and a tripped
device goes on counting (R430). -/
def Obligations.StepNeverStops : Prop :=
  (∀ (i : Instr) (s : State), ∃ t, exec i s = .next t) ∧ (∀ s : State, ∃ t, step s = .next t) ∧ ∀ (k : Nat) (s : State), SafeRun k s

/-- The invariant of the byte memories (log entry 4): if every memory of the device stands in its canonical form, the next
state's memories do; `ResetState` says that they do at reset. -/
def Obligations.CanonicalStep : Prop :=
  ∀ s t : State, s.Canonical → step s = .next t → t.Canonical
end

