-- ==== Sys2Proof/Laws/State.lean ====
section
/-! SUPPORT. Laws/State.lean: for each named update of the state, what every field of the result is; and what reads of registers and
memories see of the updates that leave the herds alone. -/

namespace Sys2Proof.Machine

/-! ### modHerd -/

@[simp] theorem State.modHerd_tick (s : State) (h : Nat) (f : Herd → Herd) : (s.modHerd h f).tick = s.tick := rfl
@[simp] theorem State.modHerd_clock (s : State) (h : Nat) (f : Herd → Herd) : (s.modHerd h f).clock = s.clock := rfl
@[simp] theorem State.modHerd_gcyc (s : State) (h : Nat) (f : Herd → Herd) : (s.modHerd h f).gcyc = s.gcyc := rfl
@[simp] theorem State.modHerd_held (s : State) (h : Nat) (f : Herd → Herd) : (s.modHerd h f).held = s.held := rfl
@[simp] theorem State.modHerd_adjust (s : State) (h : Nat) (f : Herd → Herd) : (s.modHerd h f).adjust = s.adjust := rfl
@[simp] theorem State.modHerd_gcycSet (s : State) (h : Nat) (f : Herd → Herd) : (s.modHerd h f).gcycSet = s.gcycSet := rfl
@[simp] theorem State.modHerd_agenda (s : State) (h : Nat) (f : Herd → Herd) : (s.modHerd h f).agenda = s.agenda := rfl
@[simp] theorem State.modHerd_settled (s : State) (h : Nat) (f : Herd → Herd) : (s.modHerd h f).settled = s.settled := rfl
@[simp] theorem State.modHerd_inputs (s : State) (h : Nat) (f : Herd → Herd) : (s.modHerd h f).inputs = s.inputs := rfl
@[simp] theorem State.modHerd_mail (s : State) (h : Nat) (f : Herd → Herd) : (s.modHerd h f).mail = s.mail := rfl
@[simp] theorem State.modHerd_sent (s : State) (h : Nat) (f : Herd → Herd) : (s.modHerd h f).sent = s.sent := rfl
@[simp] theorem State.modHerd_ev (s : State) (h : Nat) (f : Herd → Herd) : (s.modHerd h f).ev = s.ev := rfl
@[simp] theorem State.modHerd_cur (s : State) (h : Nat) (f : Herd → Herd) : (s.modHerd h f).cur = s.cur := rfl
@[simp] theorem State.modHerd_latch (s : State) (h : Nat) (f : Herd → Herd) : (s.modHerd h f).latch = s.latch := rfl
@[simp] theorem State.modHerd_dev (s : State) (h : Nat) (f : Herd → Herd) : (s.modHerd h f).dev = s.dev := rfl
@[simp] theorem State.modHerd_devBad (s : State) (h : Nat) (f : Herd → Herd) : (s.modHerd h f).devBad = s.devBad := rfl
@[simp] theorem State.modHerd_calendar (s : State) (h : Nat) (f : Herd → Herd) : (s.modHerd h f).calendar = s.calendar := rfl
@[simp] theorem State.modHerd_runs (s : State) (h : Nat) (f : Herd → Herd) : (s.modHerd h f).runs = s.runs := rfl
@[simp] theorem State.modHerd_ctxs (s : State) (h : Nat) (f : Herd → Herd) : (s.modHerd h f).ctxs = s.ctxs := rfl
@[simp] theorem State.modHerd_binds (s : State) (h : Nat) (f : Herd → Herd) : (s.modHerd h f).binds = s.binds := rfl
@[simp] theorem State.modHerd_released (s : State) (h : Nat) (f : Herd → Herd) : (s.modHerd h f).released = s.released := rfl
@[simp] theorem State.modHerd_images (s : State) (h : Nat) (f : Herd → Herd) : (s.modHerd h f).images = s.images := rfl
@[simp] theorem State.modHerd_kept (s : State) (h : Nat) (f : Herd → Herd) : (s.modHerd h f).kept = s.kept := rfl
@[simp] theorem State.modHerd_cmds (s : State) (h : Nat) (f : Herd → Herd) : (s.modHerd h f).cmds = s.cmds := rfl
@[simp] theorem State.modHerd_calls (s : State) (h : Nat) (f : Herd → Herd) : (s.modHerd h f).calls = s.calls := rfl
@[simp] theorem State.modHerd_apertures (s : State) (h : Nat) (f : Herd → Herd) : (s.modHerd h f).apertures = s.apertures := rfl
@[simp] theorem State.modHerd_routes (s : State) (h : Nat) (f : Herd → Herd) : (s.modHerd h f).routes = s.routes := rfl
@[simp] theorem State.modHerd_aperturesWas (s : State) (h : Nat) (f : Herd → Herd) : (s.modHerd h f).aperturesWas = s.aperturesWas := rfl
@[simp] theorem State.modHerd_ports (s : State) (h : Nat) (f : Herd → Herd) : (s.modHerd h f).ports = s.ports := rfl
@[simp] theorem State.modHerd_plat (s : State) (h : Nat) (f : Herd → Herd) : (s.modHerd h f).plat = s.plat := rfl
@[simp] theorem State.modHerd_wclass (s : State) (h : Nat) (f : Herd → Herd) : (s.modHerd h f).wclass = s.wclass := rfl
@[simp] theorem State.modHerd_nextId (s : State) (h : Nat) (f : Herd → Herd) : (s.modHerd h f).nextId = s.nextId := rfl
@[simp] theorem State.modHerd_freeCount (s : State) (h : Nat) (f : Herd → Herd) : (s.modHerd h f).freeCount = s.freeCount := rfl

/-! ### modCore -/

@[simp] theorem State.modCore_tick (s : State) (h c : Nat) (f : Core → Core) : (s.modCore h c f).tick = s.tick := rfl
@[simp] theorem State.modCore_clock (s : State) (h c : Nat) (f : Core → Core) : (s.modCore h c f).clock = s.clock := rfl
@[simp] theorem State.modCore_gcyc (s : State) (h c : Nat) (f : Core → Core) : (s.modCore h c f).gcyc = s.gcyc := rfl
@[simp] theorem State.modCore_held (s : State) (h c : Nat) (f : Core → Core) : (s.modCore h c f).held = s.held := rfl
@[simp] theorem State.modCore_adjust (s : State) (h c : Nat) (f : Core → Core) : (s.modCore h c f).adjust = s.adjust := rfl
@[simp] theorem State.modCore_gcycSet (s : State) (h c : Nat) (f : Core → Core) : (s.modCore h c f).gcycSet = s.gcycSet := rfl
@[simp] theorem State.modCore_agenda (s : State) (h c : Nat) (f : Core → Core) : (s.modCore h c f).agenda = s.agenda := rfl
@[simp] theorem State.modCore_settled (s : State) (h c : Nat) (f : Core → Core) : (s.modCore h c f).settled = s.settled := rfl
@[simp] theorem State.modCore_inputs (s : State) (h c : Nat) (f : Core → Core) : (s.modCore h c f).inputs = s.inputs := rfl
@[simp] theorem State.modCore_mail (s : State) (h c : Nat) (f : Core → Core) : (s.modCore h c f).mail = s.mail := rfl
@[simp] theorem State.modCore_sent (s : State) (h c : Nat) (f : Core → Core) : (s.modCore h c f).sent = s.sent := rfl
@[simp] theorem State.modCore_ev (s : State) (h c : Nat) (f : Core → Core) : (s.modCore h c f).ev = s.ev := rfl
@[simp] theorem State.modCore_cur (s : State) (h c : Nat) (f : Core → Core) : (s.modCore h c f).cur = s.cur := rfl
@[simp] theorem State.modCore_latch (s : State) (h c : Nat) (f : Core → Core) : (s.modCore h c f).latch = s.latch := rfl
@[simp] theorem State.modCore_dev (s : State) (h c : Nat) (f : Core → Core) : (s.modCore h c f).dev = s.dev := rfl
@[simp] theorem State.modCore_devBad (s : State) (h c : Nat) (f : Core → Core) : (s.modCore h c f).devBad = s.devBad := rfl
@[simp] theorem State.modCore_calendar (s : State) (h c : Nat) (f : Core → Core) : (s.modCore h c f).calendar = s.calendar := rfl
@[simp] theorem State.modCore_runs (s : State) (h c : Nat) (f : Core → Core) : (s.modCore h c f).runs = s.runs := rfl
@[simp] theorem State.modCore_ctxs (s : State) (h c : Nat) (f : Core → Core) : (s.modCore h c f).ctxs = s.ctxs := rfl
@[simp] theorem State.modCore_binds (s : State) (h c : Nat) (f : Core → Core) : (s.modCore h c f).binds = s.binds := rfl
@[simp] theorem State.modCore_released (s : State) (h c : Nat) (f : Core → Core) : (s.modCore h c f).released = s.released := rfl
@[simp] theorem State.modCore_images (s : State) (h c : Nat) (f : Core → Core) : (s.modCore h c f).images = s.images := rfl
@[simp] theorem State.modCore_kept (s : State) (h c : Nat) (f : Core → Core) : (s.modCore h c f).kept = s.kept := rfl
@[simp] theorem State.modCore_cmds (s : State) (h c : Nat) (f : Core → Core) : (s.modCore h c f).cmds = s.cmds := rfl
@[simp] theorem State.modCore_calls (s : State) (h c : Nat) (f : Core → Core) : (s.modCore h c f).calls = s.calls := rfl
@[simp] theorem State.modCore_apertures (s : State) (h c : Nat) (f : Core → Core) : (s.modCore h c f).apertures = s.apertures := rfl
@[simp] theorem State.modCore_routes (s : State) (h c : Nat) (f : Core → Core) : (s.modCore h c f).routes = s.routes := rfl
@[simp] theorem State.modCore_aperturesWas (s : State) (h c : Nat) (f : Core → Core) : (s.modCore h c f).aperturesWas = s.aperturesWas := rfl
@[simp] theorem State.modCore_ports (s : State) (h c : Nat) (f : Core → Core) : (s.modCore h c f).ports = s.ports := rfl
@[simp] theorem State.modCore_plat (s : State) (h c : Nat) (f : Core → Core) : (s.modCore h c f).plat = s.plat := rfl
@[simp] theorem State.modCore_wclass (s : State) (h c : Nat) (f : Core → Core) : (s.modCore h c f).wclass = s.wclass := rfl
@[simp] theorem State.modCore_nextId (s : State) (h c : Nat) (f : Core → Core) : (s.modCore h c f).nextId = s.nextId := rfl
@[simp] theorem State.modCore_freeCount (s : State) (h c : Nat) (f : Core → Core) : (s.modCore h c f).freeCount = s.freeCount := rfl

/-! ### modRegs -/

@[simp] theorem State.modRegs_tick (s : State) (h c : Nat) (f : Regs → Regs) : (s.modRegs h c f).tick = s.tick := rfl
@[simp] theorem State.modRegs_clock (s : State) (h c : Nat) (f : Regs → Regs) : (s.modRegs h c f).clock = s.clock := rfl
@[simp] theorem State.modRegs_gcyc (s : State) (h c : Nat) (f : Regs → Regs) : (s.modRegs h c f).gcyc = s.gcyc := rfl
@[simp] theorem State.modRegs_held (s : State) (h c : Nat) (f : Regs → Regs) : (s.modRegs h c f).held = s.held := rfl
@[simp] theorem State.modRegs_adjust (s : State) (h c : Nat) (f : Regs → Regs) : (s.modRegs h c f).adjust = s.adjust := rfl
@[simp] theorem State.modRegs_gcycSet (s : State) (h c : Nat) (f : Regs → Regs) : (s.modRegs h c f).gcycSet = s.gcycSet := rfl
@[simp] theorem State.modRegs_agenda (s : State) (h c : Nat) (f : Regs → Regs) : (s.modRegs h c f).agenda = s.agenda := rfl
@[simp] theorem State.modRegs_settled (s : State) (h c : Nat) (f : Regs → Regs) : (s.modRegs h c f).settled = s.settled := rfl
@[simp] theorem State.modRegs_inputs (s : State) (h c : Nat) (f : Regs → Regs) : (s.modRegs h c f).inputs = s.inputs := rfl
@[simp] theorem State.modRegs_mail (s : State) (h c : Nat) (f : Regs → Regs) : (s.modRegs h c f).mail = s.mail := rfl
@[simp] theorem State.modRegs_sent (s : State) (h c : Nat) (f : Regs → Regs) : (s.modRegs h c f).sent = s.sent := rfl
@[simp] theorem State.modRegs_ev (s : State) (h c : Nat) (f : Regs → Regs) : (s.modRegs h c f).ev = s.ev := rfl
@[simp] theorem State.modRegs_cur (s : State) (h c : Nat) (f : Regs → Regs) : (s.modRegs h c f).cur = s.cur := rfl
@[simp] theorem State.modRegs_latch (s : State) (h c : Nat) (f : Regs → Regs) : (s.modRegs h c f).latch = s.latch := rfl
@[simp] theorem State.modRegs_dev (s : State) (h c : Nat) (f : Regs → Regs) : (s.modRegs h c f).dev = s.dev := rfl
@[simp] theorem State.modRegs_devBad (s : State) (h c : Nat) (f : Regs → Regs) : (s.modRegs h c f).devBad = s.devBad := rfl
@[simp] theorem State.modRegs_calendar (s : State) (h c : Nat) (f : Regs → Regs) : (s.modRegs h c f).calendar = s.calendar := rfl
@[simp] theorem State.modRegs_runs (s : State) (h c : Nat) (f : Regs → Regs) : (s.modRegs h c f).runs = s.runs := rfl
@[simp] theorem State.modRegs_ctxs (s : State) (h c : Nat) (f : Regs → Regs) : (s.modRegs h c f).ctxs = s.ctxs := rfl
@[simp] theorem State.modRegs_binds (s : State) (h c : Nat) (f : Regs → Regs) : (s.modRegs h c f).binds = s.binds := rfl
@[simp] theorem State.modRegs_released (s : State) (h c : Nat) (f : Regs → Regs) : (s.modRegs h c f).released = s.released := rfl
@[simp] theorem State.modRegs_images (s : State) (h c : Nat) (f : Regs → Regs) : (s.modRegs h c f).images = s.images := rfl
@[simp] theorem State.modRegs_kept (s : State) (h c : Nat) (f : Regs → Regs) : (s.modRegs h c f).kept = s.kept := rfl
@[simp] theorem State.modRegs_cmds (s : State) (h c : Nat) (f : Regs → Regs) : (s.modRegs h c f).cmds = s.cmds := rfl
@[simp] theorem State.modRegs_calls (s : State) (h c : Nat) (f : Regs → Regs) : (s.modRegs h c f).calls = s.calls := rfl
@[simp] theorem State.modRegs_apertures (s : State) (h c : Nat) (f : Regs → Regs) : (s.modRegs h c f).apertures = s.apertures := rfl
@[simp] theorem State.modRegs_routes (s : State) (h c : Nat) (f : Regs → Regs) : (s.modRegs h c f).routes = s.routes := rfl
@[simp] theorem State.modRegs_aperturesWas (s : State) (h c : Nat) (f : Regs → Regs) : (s.modRegs h c f).aperturesWas = s.aperturesWas := rfl
@[simp] theorem State.modRegs_ports (s : State) (h c : Nat) (f : Regs → Regs) : (s.modRegs h c f).ports = s.ports := rfl
@[simp] theorem State.modRegs_plat (s : State) (h c : Nat) (f : Regs → Regs) : (s.modRegs h c f).plat = s.plat := rfl
@[simp] theorem State.modRegs_wclass (s : State) (h c : Nat) (f : Regs → Regs) : (s.modRegs h c f).wclass = s.wclass := rfl
@[simp] theorem State.modRegs_nextId (s : State) (h c : Nat) (f : Regs → Regs) : (s.modRegs h c f).nextId = s.nextId := rfl
@[simp] theorem State.modRegs_freeCount (s : State) (h c : Nat) (f : Regs → Regs) : (s.modRegs h c f).freeCount = s.freeCount := rfl

/-! ### modMe -/

@[simp] theorem State.modMe_tick (s : State) (f : Core → Core) : (s.modMe f).tick = s.tick := rfl
@[simp] theorem State.modMe_clock (s : State) (f : Core → Core) : (s.modMe f).clock = s.clock := rfl
@[simp] theorem State.modMe_gcyc (s : State) (f : Core → Core) : (s.modMe f).gcyc = s.gcyc := rfl
@[simp] theorem State.modMe_held (s : State) (f : Core → Core) : (s.modMe f).held = s.held := rfl
@[simp] theorem State.modMe_adjust (s : State) (f : Core → Core) : (s.modMe f).adjust = s.adjust := rfl
@[simp] theorem State.modMe_gcycSet (s : State) (f : Core → Core) : (s.modMe f).gcycSet = s.gcycSet := rfl
@[simp] theorem State.modMe_agenda (s : State) (f : Core → Core) : (s.modMe f).agenda = s.agenda := rfl
@[simp] theorem State.modMe_settled (s : State) (f : Core → Core) : (s.modMe f).settled = s.settled := rfl
@[simp] theorem State.modMe_inputs (s : State) (f : Core → Core) : (s.modMe f).inputs = s.inputs := rfl
@[simp] theorem State.modMe_mail (s : State) (f : Core → Core) : (s.modMe f).mail = s.mail := rfl
@[simp] theorem State.modMe_sent (s : State) (f : Core → Core) : (s.modMe f).sent = s.sent := rfl
@[simp] theorem State.modMe_ev (s : State) (f : Core → Core) : (s.modMe f).ev = s.ev := rfl
@[simp] theorem State.modMe_cur (s : State) (f : Core → Core) : (s.modMe f).cur = s.cur := rfl
@[simp] theorem State.modMe_latch (s : State) (f : Core → Core) : (s.modMe f).latch = s.latch := rfl
@[simp] theorem State.modMe_dev (s : State) (f : Core → Core) : (s.modMe f).dev = s.dev := rfl
@[simp] theorem State.modMe_devBad (s : State) (f : Core → Core) : (s.modMe f).devBad = s.devBad := rfl
@[simp] theorem State.modMe_calendar (s : State) (f : Core → Core) : (s.modMe f).calendar = s.calendar := rfl
@[simp] theorem State.modMe_runs (s : State) (f : Core → Core) : (s.modMe f).runs = s.runs := rfl
@[simp] theorem State.modMe_ctxs (s : State) (f : Core → Core) : (s.modMe f).ctxs = s.ctxs := rfl
@[simp] theorem State.modMe_binds (s : State) (f : Core → Core) : (s.modMe f).binds = s.binds := rfl
@[simp] theorem State.modMe_released (s : State) (f : Core → Core) : (s.modMe f).released = s.released := rfl
@[simp] theorem State.modMe_images (s : State) (f : Core → Core) : (s.modMe f).images = s.images := rfl
@[simp] theorem State.modMe_kept (s : State) (f : Core → Core) : (s.modMe f).kept = s.kept := rfl
@[simp] theorem State.modMe_cmds (s : State) (f : Core → Core) : (s.modMe f).cmds = s.cmds := rfl
@[simp] theorem State.modMe_calls (s : State) (f : Core → Core) : (s.modMe f).calls = s.calls := rfl
@[simp] theorem State.modMe_apertures (s : State) (f : Core → Core) : (s.modMe f).apertures = s.apertures := rfl
@[simp] theorem State.modMe_routes (s : State) (f : Core → Core) : (s.modMe f).routes = s.routes := rfl
@[simp] theorem State.modMe_aperturesWas (s : State) (f : Core → Core) : (s.modMe f).aperturesWas = s.aperturesWas := rfl
@[simp] theorem State.modMe_ports (s : State) (f : Core → Core) : (s.modMe f).ports = s.ports := rfl
@[simp] theorem State.modMe_plat (s : State) (f : Core → Core) : (s.modMe f).plat = s.plat := rfl
@[simp] theorem State.modMe_wclass (s : State) (f : Core → Core) : (s.modMe f).wclass = s.wclass := rfl
@[simp] theorem State.modMe_nextId (s : State) (f : Core → Core) : (s.modMe f).nextId = s.nextId := rfl
@[simp] theorem State.modMe_freeCount (s : State) (f : Core → Core) : (s.modMe f).freeCount = s.freeCount := rfl

/-! ### modR -/

@[simp] theorem State.modR_tick (s : State) (f : Regs → Regs) : (s.modR f).tick = s.tick := rfl
@[simp] theorem State.modR_clock (s : State) (f : Regs → Regs) : (s.modR f).clock = s.clock := rfl
@[simp] theorem State.modR_gcyc (s : State) (f : Regs → Regs) : (s.modR f).gcyc = s.gcyc := rfl
@[simp] theorem State.modR_held (s : State) (f : Regs → Regs) : (s.modR f).held = s.held := rfl
@[simp] theorem State.modR_adjust (s : State) (f : Regs → Regs) : (s.modR f).adjust = s.adjust := rfl
@[simp] theorem State.modR_gcycSet (s : State) (f : Regs → Regs) : (s.modR f).gcycSet = s.gcycSet := rfl
@[simp] theorem State.modR_agenda (s : State) (f : Regs → Regs) : (s.modR f).agenda = s.agenda := rfl
@[simp] theorem State.modR_settled (s : State) (f : Regs → Regs) : (s.modR f).settled = s.settled := rfl
@[simp] theorem State.modR_inputs (s : State) (f : Regs → Regs) : (s.modR f).inputs = s.inputs := rfl
@[simp] theorem State.modR_mail (s : State) (f : Regs → Regs) : (s.modR f).mail = s.mail := rfl
@[simp] theorem State.modR_sent (s : State) (f : Regs → Regs) : (s.modR f).sent = s.sent := rfl
@[simp] theorem State.modR_ev (s : State) (f : Regs → Regs) : (s.modR f).ev = s.ev := rfl
@[simp] theorem State.modR_cur (s : State) (f : Regs → Regs) : (s.modR f).cur = s.cur := rfl
@[simp] theorem State.modR_latch (s : State) (f : Regs → Regs) : (s.modR f).latch = s.latch := rfl
@[simp] theorem State.modR_dev (s : State) (f : Regs → Regs) : (s.modR f).dev = s.dev := rfl
@[simp] theorem State.modR_devBad (s : State) (f : Regs → Regs) : (s.modR f).devBad = s.devBad := rfl
@[simp] theorem State.modR_calendar (s : State) (f : Regs → Regs) : (s.modR f).calendar = s.calendar := rfl
@[simp] theorem State.modR_runs (s : State) (f : Regs → Regs) : (s.modR f).runs = s.runs := rfl
@[simp] theorem State.modR_ctxs (s : State) (f : Regs → Regs) : (s.modR f).ctxs = s.ctxs := rfl
@[simp] theorem State.modR_binds (s : State) (f : Regs → Regs) : (s.modR f).binds = s.binds := rfl
@[simp] theorem State.modR_released (s : State) (f : Regs → Regs) : (s.modR f).released = s.released := rfl
@[simp] theorem State.modR_images (s : State) (f : Regs → Regs) : (s.modR f).images = s.images := rfl
@[simp] theorem State.modR_kept (s : State) (f : Regs → Regs) : (s.modR f).kept = s.kept := rfl
@[simp] theorem State.modR_cmds (s : State) (f : Regs → Regs) : (s.modR f).cmds = s.cmds := rfl
@[simp] theorem State.modR_calls (s : State) (f : Regs → Regs) : (s.modR f).calls = s.calls := rfl
@[simp] theorem State.modR_apertures (s : State) (f : Regs → Regs) : (s.modR f).apertures = s.apertures := rfl
@[simp] theorem State.modR_routes (s : State) (f : Regs → Regs) : (s.modR f).routes = s.routes := rfl
@[simp] theorem State.modR_aperturesWas (s : State) (f : Regs → Regs) : (s.modR f).aperturesWas = s.aperturesWas := rfl
@[simp] theorem State.modR_ports (s : State) (f : Regs → Regs) : (s.modR f).ports = s.ports := rfl
@[simp] theorem State.modR_plat (s : State) (f : Regs → Regs) : (s.modR f).plat = s.plat := rfl
@[simp] theorem State.modR_wclass (s : State) (f : Regs → Regs) : (s.modR f).wclass = s.wclass := rfl
@[simp] theorem State.modR_nextId (s : State) (f : Regs → Regs) : (s.modR f).nextId = s.nextId := rfl
@[simp] theorem State.modR_freeCount (s : State) (f : Regs → Regs) : (s.modR f).freeCount = s.freeCount := rfl

/-! ### plan -/

@[simp] theorem State.plan_tick (s : State) (t p o : Nat) (a : Act) : (s.plan t p o a).tick = s.tick := rfl
@[simp] theorem State.plan_clock (s : State) (t p o : Nat) (a : Act) : (s.plan t p o a).clock = s.clock := rfl
@[simp] theorem State.plan_gcyc (s : State) (t p o : Nat) (a : Act) : (s.plan t p o a).gcyc = s.gcyc := rfl
@[simp] theorem State.plan_held (s : State) (t p o : Nat) (a : Act) : (s.plan t p o a).held = s.held := rfl
@[simp] theorem State.plan_adjust (s : State) (t p o : Nat) (a : Act) : (s.plan t p o a).adjust = s.adjust := rfl
@[simp] theorem State.plan_gcycSet (s : State) (t p o : Nat) (a : Act) : (s.plan t p o a).gcycSet = s.gcycSet := rfl
@[simp] theorem State.plan_settled (s : State) (t p o : Nat) (a : Act) : (s.plan t p o a).settled = s.settled := rfl
@[simp] theorem State.plan_inputs (s : State) (t p o : Nat) (a : Act) : (s.plan t p o a).inputs = s.inputs := rfl
@[simp] theorem State.plan_mail (s : State) (t p o : Nat) (a : Act) : (s.plan t p o a).mail = s.mail := rfl
@[simp] theorem State.plan_sent (s : State) (t p o : Nat) (a : Act) : (s.plan t p o a).sent = s.sent := rfl
@[simp] theorem State.plan_ev (s : State) (t p o : Nat) (a : Act) : (s.plan t p o a).ev = s.ev := rfl
@[simp] theorem State.plan_cur (s : State) (t p o : Nat) (a : Act) : (s.plan t p o a).cur = s.cur := rfl
@[simp] theorem State.plan_latch (s : State) (t p o : Nat) (a : Act) : (s.plan t p o a).latch = s.latch := rfl
@[simp] theorem State.plan_herds (s : State) (t p o : Nat) (a : Act) : (s.plan t p o a).herds = s.herds := rfl
@[simp] theorem State.plan_dev (s : State) (t p o : Nat) (a : Act) : (s.plan t p o a).dev = s.dev := rfl
@[simp] theorem State.plan_devBad (s : State) (t p o : Nat) (a : Act) : (s.plan t p o a).devBad = s.devBad := rfl
@[simp] theorem State.plan_calendar (s : State) (t p o : Nat) (a : Act) : (s.plan t p o a).calendar = s.calendar := rfl
@[simp] theorem State.plan_runs (s : State) (t p o : Nat) (a : Act) : (s.plan t p o a).runs = s.runs := rfl
@[simp] theorem State.plan_ctxs (s : State) (t p o : Nat) (a : Act) : (s.plan t p o a).ctxs = s.ctxs := rfl
@[simp] theorem State.plan_binds (s : State) (t p o : Nat) (a : Act) : (s.plan t p o a).binds = s.binds := rfl
@[simp] theorem State.plan_released (s : State) (t p o : Nat) (a : Act) : (s.plan t p o a).released = s.released := rfl
@[simp] theorem State.plan_images (s : State) (t p o : Nat) (a : Act) : (s.plan t p o a).images = s.images := rfl
@[simp] theorem State.plan_kept (s : State) (t p o : Nat) (a : Act) : (s.plan t p o a).kept = s.kept := rfl
@[simp] theorem State.plan_cmds (s : State) (t p o : Nat) (a : Act) : (s.plan t p o a).cmds = s.cmds := rfl
@[simp] theorem State.plan_calls (s : State) (t p o : Nat) (a : Act) : (s.plan t p o a).calls = s.calls := rfl
@[simp] theorem State.plan_apertures (s : State) (t p o : Nat) (a : Act) : (s.plan t p o a).apertures = s.apertures := rfl
@[simp] theorem State.plan_routes (s : State) (t p o : Nat) (a : Act) : (s.plan t p o a).routes = s.routes := rfl
@[simp] theorem State.plan_aperturesWas (s : State) (t p o : Nat) (a : Act) : (s.plan t p o a).aperturesWas = s.aperturesWas := rfl
@[simp] theorem State.plan_ports (s : State) (t p o : Nat) (a : Act) : (s.plan t p o a).ports = s.ports := rfl
@[simp] theorem State.plan_plat (s : State) (t p o : Nat) (a : Act) : (s.plan t p o a).plat = s.plat := rfl
@[simp] theorem State.plan_wclass (s : State) (t p o : Nat) (a : Act) : (s.plan t p o a).wclass = s.wclass := rfl
@[simp] theorem State.plan_nextId (s : State) (t p o : Nat) (a : Act) : (s.plan t p o a).nextId = s.nextId := rfl
@[simp] theorem State.plan_freeCount (s : State) (t p o : Nat) (a : Act) : (s.plan t p o a).freeCount = s.freeCount := rfl

/-! ### planEv -/

@[simp] theorem State.planEv_tick (s : State) (t p o : Nat) (i : Instr) (g : EvArg) : (s.planEv t p o i g).tick = s.tick := rfl
@[simp] theorem State.planEv_clock (s : State) (t p o : Nat) (i : Instr) (g : EvArg) : (s.planEv t p o i g).clock = s.clock := rfl
@[simp] theorem State.planEv_gcyc (s : State) (t p o : Nat) (i : Instr) (g : EvArg) : (s.planEv t p o i g).gcyc = s.gcyc := rfl
@[simp] theorem State.planEv_held (s : State) (t p o : Nat) (i : Instr) (g : EvArg) : (s.planEv t p o i g).held = s.held := rfl
@[simp] theorem State.planEv_adjust (s : State) (t p o : Nat) (i : Instr) (g : EvArg) : (s.planEv t p o i g).adjust = s.adjust := rfl
@[simp] theorem State.planEv_gcycSet (s : State) (t p o : Nat) (i : Instr) (g : EvArg) : (s.planEv t p o i g).gcycSet = s.gcycSet := rfl
@[simp] theorem State.planEv_settled (s : State) (t p o : Nat) (i : Instr) (g : EvArg) : (s.planEv t p o i g).settled = s.settled := rfl
@[simp] theorem State.planEv_inputs (s : State) (t p o : Nat) (i : Instr) (g : EvArg) : (s.planEv t p o i g).inputs = s.inputs := rfl
@[simp] theorem State.planEv_mail (s : State) (t p o : Nat) (i : Instr) (g : EvArg) : (s.planEv t p o i g).mail = s.mail := rfl
@[simp] theorem State.planEv_sent (s : State) (t p o : Nat) (i : Instr) (g : EvArg) : (s.planEv t p o i g).sent = s.sent := rfl
@[simp] theorem State.planEv_ev (s : State) (t p o : Nat) (i : Instr) (g : EvArg) : (s.planEv t p o i g).ev = s.ev := rfl
@[simp] theorem State.planEv_cur (s : State) (t p o : Nat) (i : Instr) (g : EvArg) : (s.planEv t p o i g).cur = s.cur := rfl
@[simp] theorem State.planEv_latch (s : State) (t p o : Nat) (i : Instr) (g : EvArg) : (s.planEv t p o i g).latch = s.latch := rfl
@[simp] theorem State.planEv_herds (s : State) (t p o : Nat) (i : Instr) (g : EvArg) : (s.planEv t p o i g).herds = s.herds := rfl
@[simp] theorem State.planEv_dev (s : State) (t p o : Nat) (i : Instr) (g : EvArg) : (s.planEv t p o i g).dev = s.dev := rfl
@[simp] theorem State.planEv_devBad (s : State) (t p o : Nat) (i : Instr) (g : EvArg) : (s.planEv t p o i g).devBad = s.devBad := rfl
@[simp] theorem State.planEv_calendar (s : State) (t p o : Nat) (i : Instr) (g : EvArg) : (s.planEv t p o i g).calendar = s.calendar := rfl
@[simp] theorem State.planEv_runs (s : State) (t p o : Nat) (i : Instr) (g : EvArg) : (s.planEv t p o i g).runs = s.runs := rfl
@[simp] theorem State.planEv_ctxs (s : State) (t p o : Nat) (i : Instr) (g : EvArg) : (s.planEv t p o i g).ctxs = s.ctxs := rfl
@[simp] theorem State.planEv_binds (s : State) (t p o : Nat) (i : Instr) (g : EvArg) : (s.planEv t p o i g).binds = s.binds := rfl
@[simp] theorem State.planEv_released (s : State) (t p o : Nat) (i : Instr) (g : EvArg) : (s.planEv t p o i g).released = s.released := rfl
@[simp] theorem State.planEv_images (s : State) (t p o : Nat) (i : Instr) (g : EvArg) : (s.planEv t p o i g).images = s.images := rfl
@[simp] theorem State.planEv_kept (s : State) (t p o : Nat) (i : Instr) (g : EvArg) : (s.planEv t p o i g).kept = s.kept := rfl
@[simp] theorem State.planEv_cmds (s : State) (t p o : Nat) (i : Instr) (g : EvArg) : (s.planEv t p o i g).cmds = s.cmds := rfl
@[simp] theorem State.planEv_calls (s : State) (t p o : Nat) (i : Instr) (g : EvArg) : (s.planEv t p o i g).calls = s.calls := rfl
@[simp] theorem State.planEv_apertures (s : State) (t p o : Nat) (i : Instr) (g : EvArg) : (s.planEv t p o i g).apertures = s.apertures := rfl
@[simp] theorem State.planEv_routes (s : State) (t p o : Nat) (i : Instr) (g : EvArg) : (s.planEv t p o i g).routes = s.routes := rfl
@[simp] theorem State.planEv_aperturesWas (s : State) (t p o : Nat) (i : Instr) (g : EvArg) : (s.planEv t p o i g).aperturesWas = s.aperturesWas := rfl
@[simp] theorem State.planEv_ports (s : State) (t p o : Nat) (i : Instr) (g : EvArg) : (s.planEv t p o i g).ports = s.ports := rfl
@[simp] theorem State.planEv_plat (s : State) (t p o : Nat) (i : Instr) (g : EvArg) : (s.planEv t p o i g).plat = s.plat := rfl
@[simp] theorem State.planEv_wclass (s : State) (t p o : Nat) (i : Instr) (g : EvArg) : (s.planEv t p o i g).wclass = s.wclass := rfl
@[simp] theorem State.planEv_nextId (s : State) (t p o : Nat) (i : Instr) (g : EvArg) : (s.planEv t p o i g).nextId = s.nextId := rfl
@[simp] theorem State.planEv_freeCount (s : State) (t p o : Nat) (i : Instr) (g : EvArg) : (s.planEv t p o i g).freeCount = s.freeCount := rfl

/-! ### modCtx -/

@[simp] theorem State.modCtx_tick (s : State) (n : Nat) (f : Ctx → Ctx) : (s.modCtx n f).tick = s.tick := rfl
@[simp] theorem State.modCtx_clock (s : State) (n : Nat) (f : Ctx → Ctx) : (s.modCtx n f).clock = s.clock := rfl
@[simp] theorem State.modCtx_gcyc (s : State) (n : Nat) (f : Ctx → Ctx) : (s.modCtx n f).gcyc = s.gcyc := rfl
@[simp] theorem State.modCtx_held (s : State) (n : Nat) (f : Ctx → Ctx) : (s.modCtx n f).held = s.held := rfl
@[simp] theorem State.modCtx_adjust (s : State) (n : Nat) (f : Ctx → Ctx) : (s.modCtx n f).adjust = s.adjust := rfl
@[simp] theorem State.modCtx_gcycSet (s : State) (n : Nat) (f : Ctx → Ctx) : (s.modCtx n f).gcycSet = s.gcycSet := rfl
@[simp] theorem State.modCtx_agenda (s : State) (n : Nat) (f : Ctx → Ctx) : (s.modCtx n f).agenda = s.agenda := rfl
@[simp] theorem State.modCtx_settled (s : State) (n : Nat) (f : Ctx → Ctx) : (s.modCtx n f).settled = s.settled := rfl
@[simp] theorem State.modCtx_inputs (s : State) (n : Nat) (f : Ctx → Ctx) : (s.modCtx n f).inputs = s.inputs := rfl
@[simp] theorem State.modCtx_mail (s : State) (n : Nat) (f : Ctx → Ctx) : (s.modCtx n f).mail = s.mail := rfl
@[simp] theorem State.modCtx_sent (s : State) (n : Nat) (f : Ctx → Ctx) : (s.modCtx n f).sent = s.sent := rfl
@[simp] theorem State.modCtx_ev (s : State) (n : Nat) (f : Ctx → Ctx) : (s.modCtx n f).ev = s.ev := rfl
@[simp] theorem State.modCtx_cur (s : State) (n : Nat) (f : Ctx → Ctx) : (s.modCtx n f).cur = s.cur := rfl
@[simp] theorem State.modCtx_latch (s : State) (n : Nat) (f : Ctx → Ctx) : (s.modCtx n f).latch = s.latch := rfl
@[simp] theorem State.modCtx_herds (s : State) (n : Nat) (f : Ctx → Ctx) : (s.modCtx n f).herds = s.herds := rfl
@[simp] theorem State.modCtx_dev (s : State) (n : Nat) (f : Ctx → Ctx) : (s.modCtx n f).dev = s.dev := rfl
@[simp] theorem State.modCtx_devBad (s : State) (n : Nat) (f : Ctx → Ctx) : (s.modCtx n f).devBad = s.devBad := rfl
@[simp] theorem State.modCtx_calendar (s : State) (n : Nat) (f : Ctx → Ctx) : (s.modCtx n f).calendar = s.calendar := rfl
@[simp] theorem State.modCtx_runs (s : State) (n : Nat) (f : Ctx → Ctx) : (s.modCtx n f).runs = s.runs := rfl
@[simp] theorem State.modCtx_binds (s : State) (n : Nat) (f : Ctx → Ctx) : (s.modCtx n f).binds = s.binds := rfl
@[simp] theorem State.modCtx_released (s : State) (n : Nat) (f : Ctx → Ctx) : (s.modCtx n f).released = s.released := rfl
@[simp] theorem State.modCtx_images (s : State) (n : Nat) (f : Ctx → Ctx) : (s.modCtx n f).images = s.images := rfl
@[simp] theorem State.modCtx_kept (s : State) (n : Nat) (f : Ctx → Ctx) : (s.modCtx n f).kept = s.kept := rfl
@[simp] theorem State.modCtx_cmds (s : State) (n : Nat) (f : Ctx → Ctx) : (s.modCtx n f).cmds = s.cmds := rfl
@[simp] theorem State.modCtx_calls (s : State) (n : Nat) (f : Ctx → Ctx) : (s.modCtx n f).calls = s.calls := rfl
@[simp] theorem State.modCtx_apertures (s : State) (n : Nat) (f : Ctx → Ctx) : (s.modCtx n f).apertures = s.apertures := rfl
@[simp] theorem State.modCtx_routes (s : State) (n : Nat) (f : Ctx → Ctx) : (s.modCtx n f).routes = s.routes := rfl
@[simp] theorem State.modCtx_aperturesWas (s : State) (n : Nat) (f : Ctx → Ctx) : (s.modCtx n f).aperturesWas = s.aperturesWas := rfl
@[simp] theorem State.modCtx_ports (s : State) (n : Nat) (f : Ctx → Ctx) : (s.modCtx n f).ports = s.ports := rfl
@[simp] theorem State.modCtx_plat (s : State) (n : Nat) (f : Ctx → Ctx) : (s.modCtx n f).plat = s.plat := rfl
@[simp] theorem State.modCtx_wclass (s : State) (n : Nat) (f : Ctx → Ctx) : (s.modCtx n f).wclass = s.wclass := rfl
@[simp] theorem State.modCtx_nextId (s : State) (n : Nat) (f : Ctx → Ctx) : (s.modCtx n f).nextId = s.nextId := rfl
@[simp] theorem State.modCtx_freeCount (s : State) (n : Nat) (f : Ctx → Ctx) : (s.modCtx n f).freeCount = s.freeCount := rfl

/-! ### modPlat -/

@[simp] theorem State.modPlat_tick (s : State) (f : Platform → Platform) : (s.modPlat f).tick = s.tick := rfl
@[simp] theorem State.modPlat_clock (s : State) (f : Platform → Platform) : (s.modPlat f).clock = s.clock := rfl
@[simp] theorem State.modPlat_gcyc (s : State) (f : Platform → Platform) : (s.modPlat f).gcyc = s.gcyc := rfl
@[simp] theorem State.modPlat_held (s : State) (f : Platform → Platform) : (s.modPlat f).held = s.held := rfl
@[simp] theorem State.modPlat_adjust (s : State) (f : Platform → Platform) : (s.modPlat f).adjust = s.adjust := rfl
@[simp] theorem State.modPlat_gcycSet (s : State) (f : Platform → Platform) : (s.modPlat f).gcycSet = s.gcycSet := rfl
@[simp] theorem State.modPlat_agenda (s : State) (f : Platform → Platform) : (s.modPlat f).agenda = s.agenda := rfl
@[simp] theorem State.modPlat_settled (s : State) (f : Platform → Platform) : (s.modPlat f).settled = s.settled := rfl
@[simp] theorem State.modPlat_inputs (s : State) (f : Platform → Platform) : (s.modPlat f).inputs = s.inputs := rfl
@[simp] theorem State.modPlat_mail (s : State) (f : Platform → Platform) : (s.modPlat f).mail = s.mail := rfl
@[simp] theorem State.modPlat_sent (s : State) (f : Platform → Platform) : (s.modPlat f).sent = s.sent := rfl
@[simp] theorem State.modPlat_ev (s : State) (f : Platform → Platform) : (s.modPlat f).ev = s.ev := rfl
@[simp] theorem State.modPlat_cur (s : State) (f : Platform → Platform) : (s.modPlat f).cur = s.cur := rfl
@[simp] theorem State.modPlat_latch (s : State) (f : Platform → Platform) : (s.modPlat f).latch = s.latch := rfl
@[simp] theorem State.modPlat_herds (s : State) (f : Platform → Platform) : (s.modPlat f).herds = s.herds := rfl
@[simp] theorem State.modPlat_dev (s : State) (f : Platform → Platform) : (s.modPlat f).dev = s.dev := rfl
@[simp] theorem State.modPlat_devBad (s : State) (f : Platform → Platform) : (s.modPlat f).devBad = s.devBad := rfl
@[simp] theorem State.modPlat_calendar (s : State) (f : Platform → Platform) : (s.modPlat f).calendar = s.calendar := rfl
@[simp] theorem State.modPlat_runs (s : State) (f : Platform → Platform) : (s.modPlat f).runs = s.runs := rfl
@[simp] theorem State.modPlat_ctxs (s : State) (f : Platform → Platform) : (s.modPlat f).ctxs = s.ctxs := rfl
@[simp] theorem State.modPlat_binds (s : State) (f : Platform → Platform) : (s.modPlat f).binds = s.binds := rfl
@[simp] theorem State.modPlat_released (s : State) (f : Platform → Platform) : (s.modPlat f).released = s.released := rfl
@[simp] theorem State.modPlat_images (s : State) (f : Platform → Platform) : (s.modPlat f).images = s.images := rfl
@[simp] theorem State.modPlat_kept (s : State) (f : Platform → Platform) : (s.modPlat f).kept = s.kept := rfl
@[simp] theorem State.modPlat_cmds (s : State) (f : Platform → Platform) : (s.modPlat f).cmds = s.cmds := rfl
@[simp] theorem State.modPlat_calls (s : State) (f : Platform → Platform) : (s.modPlat f).calls = s.calls := rfl
@[simp] theorem State.modPlat_apertures (s : State) (f : Platform → Platform) : (s.modPlat f).apertures = s.apertures := rfl
@[simp] theorem State.modPlat_routes (s : State) (f : Platform → Platform) : (s.modPlat f).routes = s.routes := rfl
@[simp] theorem State.modPlat_aperturesWas (s : State) (f : Platform → Platform) : (s.modPlat f).aperturesWas = s.aperturesWas := rfl
@[simp] theorem State.modPlat_ports (s : State) (f : Platform → Platform) : (s.modPlat f).ports = s.ports := rfl
@[simp] theorem State.modPlat_wclass (s : State) (f : Platform → Platform) : (s.modPlat f).wclass = s.wclass := rfl
@[simp] theorem State.modPlat_nextId (s : State) (f : Platform → Platform) : (s.modPlat f).nextId = s.nextId := rfl
@[simp] theorem State.modPlat_freeCount (s : State) (f : Platform → Platform) : (s.modPlat f).freeCount = s.freeCount := rfl

/-! ### modPort -/

@[simp] theorem State.modPort_tick (s : State) (n : Nat) (f : Port → Port) : (s.modPort n f).tick = s.tick := rfl
@[simp] theorem State.modPort_clock (s : State) (n : Nat) (f : Port → Port) : (s.modPort n f).clock = s.clock := rfl
@[simp] theorem State.modPort_gcyc (s : State) (n : Nat) (f : Port → Port) : (s.modPort n f).gcyc = s.gcyc := rfl
@[simp] theorem State.modPort_held (s : State) (n : Nat) (f : Port → Port) : (s.modPort n f).held = s.held := rfl
@[simp] theorem State.modPort_adjust (s : State) (n : Nat) (f : Port → Port) : (s.modPort n f).adjust = s.adjust := rfl
@[simp] theorem State.modPort_gcycSet (s : State) (n : Nat) (f : Port → Port) : (s.modPort n f).gcycSet = s.gcycSet := rfl
@[simp] theorem State.modPort_agenda (s : State) (n : Nat) (f : Port → Port) : (s.modPort n f).agenda = s.agenda := rfl
@[simp] theorem State.modPort_settled (s : State) (n : Nat) (f : Port → Port) : (s.modPort n f).settled = s.settled := rfl
@[simp] theorem State.modPort_inputs (s : State) (n : Nat) (f : Port → Port) : (s.modPort n f).inputs = s.inputs := rfl
@[simp] theorem State.modPort_mail (s : State) (n : Nat) (f : Port → Port) : (s.modPort n f).mail = s.mail := rfl
@[simp] theorem State.modPort_sent (s : State) (n : Nat) (f : Port → Port) : (s.modPort n f).sent = s.sent := rfl
@[simp] theorem State.modPort_ev (s : State) (n : Nat) (f : Port → Port) : (s.modPort n f).ev = s.ev := rfl
@[simp] theorem State.modPort_cur (s : State) (n : Nat) (f : Port → Port) : (s.modPort n f).cur = s.cur := rfl
@[simp] theorem State.modPort_latch (s : State) (n : Nat) (f : Port → Port) : (s.modPort n f).latch = s.latch := rfl
@[simp] theorem State.modPort_herds (s : State) (n : Nat) (f : Port → Port) : (s.modPort n f).herds = s.herds := rfl
@[simp] theorem State.modPort_dev (s : State) (n : Nat) (f : Port → Port) : (s.modPort n f).dev = s.dev := rfl
@[simp] theorem State.modPort_devBad (s : State) (n : Nat) (f : Port → Port) : (s.modPort n f).devBad = s.devBad := rfl
@[simp] theorem State.modPort_calendar (s : State) (n : Nat) (f : Port → Port) : (s.modPort n f).calendar = s.calendar := rfl
@[simp] theorem State.modPort_runs (s : State) (n : Nat) (f : Port → Port) : (s.modPort n f).runs = s.runs := rfl
@[simp] theorem State.modPort_ctxs (s : State) (n : Nat) (f : Port → Port) : (s.modPort n f).ctxs = s.ctxs := rfl
@[simp] theorem State.modPort_binds (s : State) (n : Nat) (f : Port → Port) : (s.modPort n f).binds = s.binds := rfl
@[simp] theorem State.modPort_released (s : State) (n : Nat) (f : Port → Port) : (s.modPort n f).released = s.released := rfl
@[simp] theorem State.modPort_images (s : State) (n : Nat) (f : Port → Port) : (s.modPort n f).images = s.images := rfl
@[simp] theorem State.modPort_kept (s : State) (n : Nat) (f : Port → Port) : (s.modPort n f).kept = s.kept := rfl
@[simp] theorem State.modPort_cmds (s : State) (n : Nat) (f : Port → Port) : (s.modPort n f).cmds = s.cmds := rfl
@[simp] theorem State.modPort_calls (s : State) (n : Nat) (f : Port → Port) : (s.modPort n f).calls = s.calls := rfl
@[simp] theorem State.modPort_apertures (s : State) (n : Nat) (f : Port → Port) : (s.modPort n f).apertures = s.apertures := rfl
@[simp] theorem State.modPort_routes (s : State) (n : Nat) (f : Port → Port) : (s.modPort n f).routes = s.routes := rfl
@[simp] theorem State.modPort_aperturesWas (s : State) (n : Nat) (f : Port → Port) : (s.modPort n f).aperturesWas = s.aperturesWas := rfl
@[simp] theorem State.modPort_plat (s : State) (n : Nat) (f : Port → Port) : (s.modPort n f).plat = s.plat := rfl
@[simp] theorem State.modPort_wclass (s : State) (n : Nat) (f : Port → Port) : (s.modPort n f).wclass = s.wclass := rfl
@[simp] theorem State.modPort_nextId (s : State) (n : Nat) (f : Port → Port) : (s.modPort n f).nextId = s.nextId := rfl
@[simp] theorem State.modPort_freeCount (s : State) (n : Nat) (f : Port → Port) : (s.modPort n f).freeCount = s.freeCount := rfl

/-! ### modCmd -/

@[simp] theorem State.modCmd_tick (s : State) (n : Nat) (f : Cmd → Cmd) : (s.modCmd n f).tick = s.tick := rfl
@[simp] theorem State.modCmd_clock (s : State) (n : Nat) (f : Cmd → Cmd) : (s.modCmd n f).clock = s.clock := rfl
@[simp] theorem State.modCmd_gcyc (s : State) (n : Nat) (f : Cmd → Cmd) : (s.modCmd n f).gcyc = s.gcyc := rfl
@[simp] theorem State.modCmd_held (s : State) (n : Nat) (f : Cmd → Cmd) : (s.modCmd n f).held = s.held := rfl
@[simp] theorem State.modCmd_adjust (s : State) (n : Nat) (f : Cmd → Cmd) : (s.modCmd n f).adjust = s.adjust := rfl
@[simp] theorem State.modCmd_gcycSet (s : State) (n : Nat) (f : Cmd → Cmd) : (s.modCmd n f).gcycSet = s.gcycSet := rfl
@[simp] theorem State.modCmd_agenda (s : State) (n : Nat) (f : Cmd → Cmd) : (s.modCmd n f).agenda = s.agenda := rfl
@[simp] theorem State.modCmd_settled (s : State) (n : Nat) (f : Cmd → Cmd) : (s.modCmd n f).settled = s.settled := rfl
@[simp] theorem State.modCmd_inputs (s : State) (n : Nat) (f : Cmd → Cmd) : (s.modCmd n f).inputs = s.inputs := rfl
@[simp] theorem State.modCmd_mail (s : State) (n : Nat) (f : Cmd → Cmd) : (s.modCmd n f).mail = s.mail := rfl
@[simp] theorem State.modCmd_sent (s : State) (n : Nat) (f : Cmd → Cmd) : (s.modCmd n f).sent = s.sent := rfl
@[simp] theorem State.modCmd_ev (s : State) (n : Nat) (f : Cmd → Cmd) : (s.modCmd n f).ev = s.ev := rfl
@[simp] theorem State.modCmd_cur (s : State) (n : Nat) (f : Cmd → Cmd) : (s.modCmd n f).cur = s.cur := rfl
@[simp] theorem State.modCmd_latch (s : State) (n : Nat) (f : Cmd → Cmd) : (s.modCmd n f).latch = s.latch := rfl
@[simp] theorem State.modCmd_herds (s : State) (n : Nat) (f : Cmd → Cmd) : (s.modCmd n f).herds = s.herds := rfl
@[simp] theorem State.modCmd_dev (s : State) (n : Nat) (f : Cmd → Cmd) : (s.modCmd n f).dev = s.dev := rfl
@[simp] theorem State.modCmd_devBad (s : State) (n : Nat) (f : Cmd → Cmd) : (s.modCmd n f).devBad = s.devBad := rfl
@[simp] theorem State.modCmd_calendar (s : State) (n : Nat) (f : Cmd → Cmd) : (s.modCmd n f).calendar = s.calendar := rfl
@[simp] theorem State.modCmd_runs (s : State) (n : Nat) (f : Cmd → Cmd) : (s.modCmd n f).runs = s.runs := rfl
@[simp] theorem State.modCmd_ctxs (s : State) (n : Nat) (f : Cmd → Cmd) : (s.modCmd n f).ctxs = s.ctxs := rfl
@[simp] theorem State.modCmd_binds (s : State) (n : Nat) (f : Cmd → Cmd) : (s.modCmd n f).binds = s.binds := rfl
@[simp] theorem State.modCmd_released (s : State) (n : Nat) (f : Cmd → Cmd) : (s.modCmd n f).released = s.released := rfl
@[simp] theorem State.modCmd_images (s : State) (n : Nat) (f : Cmd → Cmd) : (s.modCmd n f).images = s.images := rfl
@[simp] theorem State.modCmd_kept (s : State) (n : Nat) (f : Cmd → Cmd) : (s.modCmd n f).kept = s.kept := rfl
@[simp] theorem State.modCmd_calls (s : State) (n : Nat) (f : Cmd → Cmd) : (s.modCmd n f).calls = s.calls := rfl
@[simp] theorem State.modCmd_apertures (s : State) (n : Nat) (f : Cmd → Cmd) : (s.modCmd n f).apertures = s.apertures := rfl
@[simp] theorem State.modCmd_routes (s : State) (n : Nat) (f : Cmd → Cmd) : (s.modCmd n f).routes = s.routes := rfl
@[simp] theorem State.modCmd_aperturesWas (s : State) (n : Nat) (f : Cmd → Cmd) : (s.modCmd n f).aperturesWas = s.aperturesWas := rfl
@[simp] theorem State.modCmd_ports (s : State) (n : Nat) (f : Cmd → Cmd) : (s.modCmd n f).ports = s.ports := rfl
@[simp] theorem State.modCmd_plat (s : State) (n : Nat) (f : Cmd → Cmd) : (s.modCmd n f).plat = s.plat := rfl
@[simp] theorem State.modCmd_wclass (s : State) (n : Nat) (f : Cmd → Cmd) : (s.modCmd n f).wclass = s.wclass := rfl
@[simp] theorem State.modCmd_nextId (s : State) (n : Nat) (f : Cmd → Cmd) : (s.modCmd n f).nextId = s.nextId := rfl
@[simp] theorem State.modCmd_freeCount (s : State) (n : Nat) (f : Cmd → Cmd) : (s.modCmd n f).freeCount = s.freeCount := rfl

/-! ### modCall -/

@[simp] theorem State.modCall_tick (s : State) (n : Nat) (f : Call → Call) : (s.modCall n f).tick = s.tick := rfl
@[simp] theorem State.modCall_clock (s : State) (n : Nat) (f : Call → Call) : (s.modCall n f).clock = s.clock := rfl
@[simp] theorem State.modCall_gcyc (s : State) (n : Nat) (f : Call → Call) : (s.modCall n f).gcyc = s.gcyc := rfl
@[simp] theorem State.modCall_held (s : State) (n : Nat) (f : Call → Call) : (s.modCall n f).held = s.held := rfl
@[simp] theorem State.modCall_adjust (s : State) (n : Nat) (f : Call → Call) : (s.modCall n f).adjust = s.adjust := rfl
@[simp] theorem State.modCall_gcycSet (s : State) (n : Nat) (f : Call → Call) : (s.modCall n f).gcycSet = s.gcycSet := rfl
@[simp] theorem State.modCall_agenda (s : State) (n : Nat) (f : Call → Call) : (s.modCall n f).agenda = s.agenda := rfl
@[simp] theorem State.modCall_settled (s : State) (n : Nat) (f : Call → Call) : (s.modCall n f).settled = s.settled := rfl
@[simp] theorem State.modCall_inputs (s : State) (n : Nat) (f : Call → Call) : (s.modCall n f).inputs = s.inputs := rfl
@[simp] theorem State.modCall_mail (s : State) (n : Nat) (f : Call → Call) : (s.modCall n f).mail = s.mail := rfl
@[simp] theorem State.modCall_sent (s : State) (n : Nat) (f : Call → Call) : (s.modCall n f).sent = s.sent := rfl
@[simp] theorem State.modCall_ev (s : State) (n : Nat) (f : Call → Call) : (s.modCall n f).ev = s.ev := rfl
@[simp] theorem State.modCall_cur (s : State) (n : Nat) (f : Call → Call) : (s.modCall n f).cur = s.cur := rfl
@[simp] theorem State.modCall_latch (s : State) (n : Nat) (f : Call → Call) : (s.modCall n f).latch = s.latch := rfl
@[simp] theorem State.modCall_herds (s : State) (n : Nat) (f : Call → Call) : (s.modCall n f).herds = s.herds := rfl
@[simp] theorem State.modCall_dev (s : State) (n : Nat) (f : Call → Call) : (s.modCall n f).dev = s.dev := rfl
@[simp] theorem State.modCall_devBad (s : State) (n : Nat) (f : Call → Call) : (s.modCall n f).devBad = s.devBad := rfl
@[simp] theorem State.modCall_calendar (s : State) (n : Nat) (f : Call → Call) : (s.modCall n f).calendar = s.calendar := rfl
@[simp] theorem State.modCall_runs (s : State) (n : Nat) (f : Call → Call) : (s.modCall n f).runs = s.runs := rfl
@[simp] theorem State.modCall_ctxs (s : State) (n : Nat) (f : Call → Call) : (s.modCall n f).ctxs = s.ctxs := rfl
@[simp] theorem State.modCall_binds (s : State) (n : Nat) (f : Call → Call) : (s.modCall n f).binds = s.binds := rfl
@[simp] theorem State.modCall_released (s : State) (n : Nat) (f : Call → Call) : (s.modCall n f).released = s.released := rfl
@[simp] theorem State.modCall_images (s : State) (n : Nat) (f : Call → Call) : (s.modCall n f).images = s.images := rfl
@[simp] theorem State.modCall_kept (s : State) (n : Nat) (f : Call → Call) : (s.modCall n f).kept = s.kept := rfl
@[simp] theorem State.modCall_cmds (s : State) (n : Nat) (f : Call → Call) : (s.modCall n f).cmds = s.cmds := rfl
@[simp] theorem State.modCall_apertures (s : State) (n : Nat) (f : Call → Call) : (s.modCall n f).apertures = s.apertures := rfl
@[simp] theorem State.modCall_routes (s : State) (n : Nat) (f : Call → Call) : (s.modCall n f).routes = s.routes := rfl
@[simp] theorem State.modCall_aperturesWas (s : State) (n : Nat) (f : Call → Call) : (s.modCall n f).aperturesWas = s.aperturesWas := rfl
@[simp] theorem State.modCall_ports (s : State) (n : Nat) (f : Call → Call) : (s.modCall n f).ports = s.ports := rfl
@[simp] theorem State.modCall_plat (s : State) (n : Nat) (f : Call → Call) : (s.modCall n f).plat = s.plat := rfl
@[simp] theorem State.modCall_wclass (s : State) (n : Nat) (f : Call → Call) : (s.modCall n f).wclass = s.wclass := rfl
@[simp] theorem State.modCall_nextId (s : State) (n : Nat) (f : Call → Call) : (s.modCall n f).nextId = s.nextId := rfl
@[simp] theorem State.modCall_freeCount (s : State) (n : Nat) (f : Call → Call) : (s.modCall n f).freeCount = s.freeCount := rfl

/-! ### enq -/

@[simp] theorem State.enq_tick (s : State) (p : Pend) : (s.enq p).tick = s.tick := rfl
@[simp] theorem State.enq_clock (s : State) (p : Pend) : (s.enq p).clock = s.clock := rfl
@[simp] theorem State.enq_gcyc (s : State) (p : Pend) : (s.enq p).gcyc = s.gcyc := rfl
@[simp] theorem State.enq_held (s : State) (p : Pend) : (s.enq p).held = s.held := rfl
@[simp] theorem State.enq_adjust (s : State) (p : Pend) : (s.enq p).adjust = s.adjust := rfl
@[simp] theorem State.enq_gcycSet (s : State) (p : Pend) : (s.enq p).gcycSet = s.gcycSet := rfl
@[simp] theorem State.enq_settled (s : State) (p : Pend) : (s.enq p).settled = s.settled := rfl
@[simp] theorem State.enq_inputs (s : State) (p : Pend) : (s.enq p).inputs = s.inputs := rfl
@[simp] theorem State.enq_mail (s : State) (p : Pend) : (s.enq p).mail = s.mail := rfl
@[simp] theorem State.enq_sent (s : State) (p : Pend) : (s.enq p).sent = s.sent := rfl
@[simp] theorem State.enq_ev (s : State) (p : Pend) : (s.enq p).ev = s.ev := rfl
@[simp] theorem State.enq_cur (s : State) (p : Pend) : (s.enq p).cur = s.cur := rfl
@[simp] theorem State.enq_latch (s : State) (p : Pend) : (s.enq p).latch = s.latch := rfl
@[simp] theorem State.enq_dev (s : State) (p : Pend) : (s.enq p).dev = s.dev := rfl
@[simp] theorem State.enq_devBad (s : State) (p : Pend) : (s.enq p).devBad = s.devBad := rfl
@[simp] theorem State.enq_calendar (s : State) (p : Pend) : (s.enq p).calendar = s.calendar := rfl
@[simp] theorem State.enq_runs (s : State) (p : Pend) : (s.enq p).runs = s.runs := rfl
@[simp] theorem State.enq_ctxs (s : State) (p : Pend) : (s.enq p).ctxs = s.ctxs := rfl
@[simp] theorem State.enq_binds (s : State) (p : Pend) : (s.enq p).binds = s.binds := rfl
@[simp] theorem State.enq_released (s : State) (p : Pend) : (s.enq p).released = s.released := rfl
@[simp] theorem State.enq_images (s : State) (p : Pend) : (s.enq p).images = s.images := rfl
@[simp] theorem State.enq_kept (s : State) (p : Pend) : (s.enq p).kept = s.kept := rfl
@[simp] theorem State.enq_cmds (s : State) (p : Pend) : (s.enq p).cmds = s.cmds := rfl
@[simp] theorem State.enq_calls (s : State) (p : Pend) : (s.enq p).calls = s.calls := rfl
@[simp] theorem State.enq_apertures (s : State) (p : Pend) : (s.enq p).apertures = s.apertures := rfl
@[simp] theorem State.enq_routes (s : State) (p : Pend) : (s.enq p).routes = s.routes := rfl
@[simp] theorem State.enq_aperturesWas (s : State) (p : Pend) : (s.enq p).aperturesWas = s.aperturesWas := rfl
@[simp] theorem State.enq_ports (s : State) (p : Pend) : (s.enq p).ports = s.ports := rfl
@[simp] theorem State.enq_plat (s : State) (p : Pend) : (s.enq p).plat = s.plat := rfl
@[simp] theorem State.enq_wclass (s : State) (p : Pend) : (s.enq p).wclass = s.wclass := rfl
@[simp] theorem State.enq_nextId (s : State) (p : Pend) : (s.enq p).nextId = s.nextId := rfl
@[simp] theorem State.enq_freeCount (s : State) (p : Pend) : (s.enq p).freeCount = s.freeCount := rfl

/-! ### put -/

@[simp] theorem State.put_tick (s : State) (l : Nat) (d : Dest) (v : Row512) : (s.put l d v).tick = s.tick := rfl
@[simp] theorem State.put_clock (s : State) (l : Nat) (d : Dest) (v : Row512) : (s.put l d v).clock = s.clock := rfl
@[simp] theorem State.put_gcyc (s : State) (l : Nat) (d : Dest) (v : Row512) : (s.put l d v).gcyc = s.gcyc := rfl
@[simp] theorem State.put_held (s : State) (l : Nat) (d : Dest) (v : Row512) : (s.put l d v).held = s.held := rfl
@[simp] theorem State.put_adjust (s : State) (l : Nat) (d : Dest) (v : Row512) : (s.put l d v).adjust = s.adjust := rfl
@[simp] theorem State.put_gcycSet (s : State) (l : Nat) (d : Dest) (v : Row512) : (s.put l d v).gcycSet = s.gcycSet := rfl
@[simp] theorem State.put_settled (s : State) (l : Nat) (d : Dest) (v : Row512) : (s.put l d v).settled = s.settled := rfl
@[simp] theorem State.put_inputs (s : State) (l : Nat) (d : Dest) (v : Row512) : (s.put l d v).inputs = s.inputs := rfl
@[simp] theorem State.put_mail (s : State) (l : Nat) (d : Dest) (v : Row512) : (s.put l d v).mail = s.mail := rfl
@[simp] theorem State.put_sent (s : State) (l : Nat) (d : Dest) (v : Row512) : (s.put l d v).sent = s.sent := rfl
@[simp] theorem State.put_ev (s : State) (l : Nat) (d : Dest) (v : Row512) : (s.put l d v).ev = s.ev := rfl
@[simp] theorem State.put_cur (s : State) (l : Nat) (d : Dest) (v : Row512) : (s.put l d v).cur = s.cur := rfl
@[simp] theorem State.put_latch (s : State) (l : Nat) (d : Dest) (v : Row512) : (s.put l d v).latch = s.latch := rfl
@[simp] theorem State.put_dev (s : State) (l : Nat) (d : Dest) (v : Row512) : (s.put l d v).dev = s.dev := rfl
@[simp] theorem State.put_devBad (s : State) (l : Nat) (d : Dest) (v : Row512) : (s.put l d v).devBad = s.devBad := rfl
@[simp] theorem State.put_calendar (s : State) (l : Nat) (d : Dest) (v : Row512) : (s.put l d v).calendar = s.calendar := rfl
@[simp] theorem State.put_runs (s : State) (l : Nat) (d : Dest) (v : Row512) : (s.put l d v).runs = s.runs := rfl
@[simp] theorem State.put_ctxs (s : State) (l : Nat) (d : Dest) (v : Row512) : (s.put l d v).ctxs = s.ctxs := rfl
@[simp] theorem State.put_binds (s : State) (l : Nat) (d : Dest) (v : Row512) : (s.put l d v).binds = s.binds := rfl
@[simp] theorem State.put_released (s : State) (l : Nat) (d : Dest) (v : Row512) : (s.put l d v).released = s.released := rfl
@[simp] theorem State.put_images (s : State) (l : Nat) (d : Dest) (v : Row512) : (s.put l d v).images = s.images := rfl
@[simp] theorem State.put_kept (s : State) (l : Nat) (d : Dest) (v : Row512) : (s.put l d v).kept = s.kept := rfl
@[simp] theorem State.put_cmds (s : State) (l : Nat) (d : Dest) (v : Row512) : (s.put l d v).cmds = s.cmds := rfl
@[simp] theorem State.put_calls (s : State) (l : Nat) (d : Dest) (v : Row512) : (s.put l d v).calls = s.calls := rfl
@[simp] theorem State.put_apertures (s : State) (l : Nat) (d : Dest) (v : Row512) : (s.put l d v).apertures = s.apertures := rfl
@[simp] theorem State.put_routes (s : State) (l : Nat) (d : Dest) (v : Row512) : (s.put l d v).routes = s.routes := rfl
@[simp] theorem State.put_aperturesWas (s : State) (l : Nat) (d : Dest) (v : Row512) : (s.put l d v).aperturesWas = s.aperturesWas := rfl
@[simp] theorem State.put_ports (s : State) (l : Nat) (d : Dest) (v : Row512) : (s.put l d v).ports = s.ports := rfl
@[simp] theorem State.put_plat (s : State) (l : Nat) (d : Dest) (v : Row512) : (s.put l d v).plat = s.plat := rfl
@[simp] theorem State.put_wclass (s : State) (l : Nat) (d : Dest) (v : Row512) : (s.put l d v).wclass = s.wclass := rfl
@[simp] theorem State.put_nextId (s : State) (l : Nat) (d : Dest) (v : Row512) : (s.put l d v).nextId = s.nextId := rfl
@[simp] theorem State.put_freeCount (s : State) (l : Nat) (d : Dest) (v : Row512) : (s.put l d v).freeCount = s.freeCount := rfl

/-! ### planIssue -/

@[simp] theorem State.planIssue_tick (s : State) (h c t : Nat) : (s.planIssue h c t).tick = s.tick := rfl
@[simp] theorem State.planIssue_clock (s : State) (h c t : Nat) : (s.planIssue h c t).clock = s.clock := rfl
@[simp] theorem State.planIssue_gcyc (s : State) (h c t : Nat) : (s.planIssue h c t).gcyc = s.gcyc := rfl
@[simp] theorem State.planIssue_held (s : State) (h c t : Nat) : (s.planIssue h c t).held = s.held := rfl
@[simp] theorem State.planIssue_adjust (s : State) (h c t : Nat) : (s.planIssue h c t).adjust = s.adjust := rfl
@[simp] theorem State.planIssue_gcycSet (s : State) (h c t : Nat) : (s.planIssue h c t).gcycSet = s.gcycSet := rfl
@[simp] theorem State.planIssue_settled (s : State) (h c t : Nat) : (s.planIssue h c t).settled = s.settled := rfl
@[simp] theorem State.planIssue_inputs (s : State) (h c t : Nat) : (s.planIssue h c t).inputs = s.inputs := rfl
@[simp] theorem State.planIssue_mail (s : State) (h c t : Nat) : (s.planIssue h c t).mail = s.mail := rfl
@[simp] theorem State.planIssue_sent (s : State) (h c t : Nat) : (s.planIssue h c t).sent = s.sent := rfl
@[simp] theorem State.planIssue_ev (s : State) (h c t : Nat) : (s.planIssue h c t).ev = s.ev := rfl
@[simp] theorem State.planIssue_cur (s : State) (h c t : Nat) : (s.planIssue h c t).cur = s.cur := rfl
@[simp] theorem State.planIssue_latch (s : State) (h c t : Nat) : (s.planIssue h c t).latch = s.latch := rfl
@[simp] theorem State.planIssue_dev (s : State) (h c t : Nat) : (s.planIssue h c t).dev = s.dev := rfl
@[simp] theorem State.planIssue_devBad (s : State) (h c t : Nat) : (s.planIssue h c t).devBad = s.devBad := rfl
@[simp] theorem State.planIssue_calendar (s : State) (h c t : Nat) : (s.planIssue h c t).calendar = s.calendar := rfl
@[simp] theorem State.planIssue_runs (s : State) (h c t : Nat) : (s.planIssue h c t).runs = s.runs := rfl
@[simp] theorem State.planIssue_ctxs (s : State) (h c t : Nat) : (s.planIssue h c t).ctxs = s.ctxs := rfl
@[simp] theorem State.planIssue_binds (s : State) (h c t : Nat) : (s.planIssue h c t).binds = s.binds := rfl
@[simp] theorem State.planIssue_released (s : State) (h c t : Nat) : (s.planIssue h c t).released = s.released := rfl
@[simp] theorem State.planIssue_images (s : State) (h c t : Nat) : (s.planIssue h c t).images = s.images := rfl
@[simp] theorem State.planIssue_kept (s : State) (h c t : Nat) : (s.planIssue h c t).kept = s.kept := rfl
@[simp] theorem State.planIssue_cmds (s : State) (h c t : Nat) : (s.planIssue h c t).cmds = s.cmds := rfl
@[simp] theorem State.planIssue_calls (s : State) (h c t : Nat) : (s.planIssue h c t).calls = s.calls := rfl
@[simp] theorem State.planIssue_apertures (s : State) (h c t : Nat) : (s.planIssue h c t).apertures = s.apertures := rfl
@[simp] theorem State.planIssue_routes (s : State) (h c t : Nat) : (s.planIssue h c t).routes = s.routes := rfl
@[simp] theorem State.planIssue_aperturesWas (s : State) (h c t : Nat) : (s.planIssue h c t).aperturesWas = s.aperturesWas := rfl
@[simp] theorem State.planIssue_ports (s : State) (h c t : Nat) : (s.planIssue h c t).ports = s.ports := rfl
@[simp] theorem State.planIssue_plat (s : State) (h c t : Nat) : (s.planIssue h c t).plat = s.plat := rfl
@[simp] theorem State.planIssue_wclass (s : State) (h c t : Nat) : (s.planIssue h c t).wclass = s.wclass := rfl
@[simp] theorem State.planIssue_nextId (s : State) (h c t : Nat) : (s.planIssue h c t).nextId = s.nextId := rfl
@[simp] theorem State.planIssue_freeCount (s : State) (h c t : Nat) : (s.planIssue h c t).freeCount = s.freeCount := rfl

/-! ### The fields that change -/

@[simp] theorem State.modHerd_herds (s : State) (h : Nat) (f : Herd → Herd) : (s.modHerd h f).herds = s.herds.modify h f := rfl
@[simp] theorem State.plan_agenda (s : State) (t p o : Nat) (a : Act) :
    (s.plan t p o a).agenda = insertDue { at_ := t, phase := p, ord := o, act := a } s.agenda := rfl
@[simp] theorem State.planEv_agenda (s : State) (t p o : Nat) (i : Instr) (g : EvArg) :
    (s.planEv t p o i g).agenda = insertDue { at_ := t, phase := p, ord := o, act := .ev i g } s.agenda := rfl
@[simp] theorem State.modCtx_ctxs (s : State) (n : Nat) (f : Ctx → Ctx) :
    (s.modCtx n f).ctxs = s.ctxs.map fun x => if x.num == n then f x else x := rfl
@[simp] theorem State.modPlat_plat (s : State) (f : Platform → Platform) : (s.modPlat f).plat = f s.plat := rfl
@[simp] theorem State.modPort_ports (s : State) (n : Nat) (f : Port → Port) : (s.modPort n f).ports = s.ports.modify n f := rfl
@[simp] theorem State.modCmd_cmds (s : State) (n : Nat) (f : Cmd → Cmd) :
    (s.modCmd n f).cmds = s.cmds.map fun c => if c.id == n then f c else c := rfl
@[simp] theorem State.modCall_calls (s : State) (n : Nat) (f : Call → Call) :
    (s.modCall n f).calls = s.calls.map fun k => if k.id == n then f k else k := rfl

/-! ### Reads through updates that leave the herds and the device memory alone -/

@[simp] theorem State.plan_herd_read (s : State) (t p o : Nat) (a : Act) (x : Nat) : (s.plan t p o a).herd x = s.herd x := rfl
@[simp] theorem State.plan_core_read (s : State) (t p o : Nat) (a : Act) (x y : Nat) : (s.plan t p o a).core x y = s.core x y := rfl
@[simp] theorem State.plan_regs_read (s : State) (t p o : Nat) (a : Act) (x y : Nat) : (s.plan t p o a).regs x y = s.regs x y := rfl
@[simp] theorem State.plan_me_read (s : State) (t p o : Nat) (a : Act) : (s.plan t p o a).me = s.me := rfl
@[simp] theorem State.plan_R_read (s : State) (t p o : Nat) (a : Act) : (s.plan t p o a).R = s.R := rfl
@[simp] theorem State.plan_memOf_read (s : State) (t p o : Nat) (a : Act) (x : Space) : (s.plan t p o a).memOf x = s.memOf x := rfl
@[simp] theorem State.plan_readByte_read (s : State) (t p o : Nat) (a : Act) (x : Space) (y : Nat) : (s.plan t p o a).readByte x y = s.readByte x y := rfl
@[simp] theorem State.plan_interlocked_read (s : State) (t p o : Nat) (a : Act) : (s.plan t p o a).interlocked = s.interlocked := rfl
@[simp] theorem State.plan_reg_read (s : State) (t p o : Nat) (a : Act) (x : Nat) : (s.plan t p o a).reg x = s.reg x := rfl
@[simp] theorem State.plan_src_read (s : State) (t p o : Nat) (a : Act) (x : BitVec 5) (y : Nat) : (s.plan t p o a).src x y = s.src x y := rfl
@[simp] theorem State.plan_box_read (s : State) (t p o : Nat) (a : Act) (x : Nat) : (s.plan t p o a).box? x = s.box? x := rfl
@[simp] theorem State.plan_level_read (s : State) (t p o : Nat) (a : Act) : (s.plan t p o a).level = s.level := rfl

@[simp] theorem State.planEv_herd_read (s : State) (t p o : Nat) (i : Instr) (g : EvArg) (x : Nat) : (s.planEv t p o i g).herd x = s.herd x := rfl
@[simp] theorem State.planEv_core_read (s : State) (t p o : Nat) (i : Instr) (g : EvArg) (x y : Nat) : (s.planEv t p o i g).core x y = s.core x y := rfl
@[simp] theorem State.planEv_regs_read (s : State) (t p o : Nat) (i : Instr) (g : EvArg) (x y : Nat) : (s.planEv t p o i g).regs x y = s.regs x y := rfl
@[simp] theorem State.planEv_me_read (s : State) (t p o : Nat) (i : Instr) (g : EvArg) : (s.planEv t p o i g).me = s.me := rfl
@[simp] theorem State.planEv_R_read (s : State) (t p o : Nat) (i : Instr) (g : EvArg) : (s.planEv t p o i g).R = s.R := rfl
@[simp] theorem State.planEv_memOf_read (s : State) (t p o : Nat) (i : Instr) (g : EvArg) (x : Space) : (s.planEv t p o i g).memOf x = s.memOf x := rfl
@[simp] theorem State.planEv_readByte_read (s : State) (t p o : Nat) (i : Instr) (g : EvArg) (x : Space) (y : Nat) : (s.planEv t p o i g).readByte x y = s.readByte x y := rfl
@[simp] theorem State.planEv_interlocked_read (s : State) (t p o : Nat) (i : Instr) (g : EvArg) : (s.planEv t p o i g).interlocked = s.interlocked := rfl
@[simp] theorem State.planEv_reg_read (s : State) (t p o : Nat) (i : Instr) (g : EvArg) (x : Nat) : (s.planEv t p o i g).reg x = s.reg x := rfl
@[simp] theorem State.planEv_src_read (s : State) (t p o : Nat) (i : Instr) (g : EvArg) (x : BitVec 5) (y : Nat) : (s.planEv t p o i g).src x y = s.src x y := rfl
@[simp] theorem State.planEv_box_read (s : State) (t p o : Nat) (i : Instr) (g : EvArg) (x : Nat) : (s.planEv t p o i g).box? x = s.box? x := rfl
@[simp] theorem State.planEv_level_read (s : State) (t p o : Nat) (i : Instr) (g : EvArg) : (s.planEv t p o i g).level = s.level := rfl

@[simp] theorem State.modCtx_herd_read (s : State) (n : Nat) (f : Ctx → Ctx) (x : Nat) : (s.modCtx n f).herd x = s.herd x := rfl
@[simp] theorem State.modCtx_core_read (s : State) (n : Nat) (f : Ctx → Ctx) (x y : Nat) : (s.modCtx n f).core x y = s.core x y := rfl
@[simp] theorem State.modCtx_regs_read (s : State) (n : Nat) (f : Ctx → Ctx) (x y : Nat) : (s.modCtx n f).regs x y = s.regs x y := rfl
@[simp] theorem State.modCtx_me_read (s : State) (n : Nat) (f : Ctx → Ctx) : (s.modCtx n f).me = s.me := rfl
@[simp] theorem State.modCtx_R_read (s : State) (n : Nat) (f : Ctx → Ctx) : (s.modCtx n f).R = s.R := rfl
@[simp] theorem State.modCtx_memOf_read (s : State) (n : Nat) (f : Ctx → Ctx) (x : Space) : (s.modCtx n f).memOf x = s.memOf x := rfl
@[simp] theorem State.modCtx_readByte_read (s : State) (n : Nat) (f : Ctx → Ctx) (x : Space) (y : Nat) : (s.modCtx n f).readByte x y = s.readByte x y := rfl
@[simp] theorem State.modCtx_interlocked_read (s : State) (n : Nat) (f : Ctx → Ctx) : (s.modCtx n f).interlocked = s.interlocked := rfl
@[simp] theorem State.modCtx_reg_read (s : State) (n : Nat) (f : Ctx → Ctx) (x : Nat) : (s.modCtx n f).reg x = s.reg x := rfl
@[simp] theorem State.modCtx_src_read (s : State) (n : Nat) (f : Ctx → Ctx) (x : BitVec 5) (y : Nat) : (s.modCtx n f).src x y = s.src x y := rfl
@[simp] theorem State.modCtx_box_read (s : State) (n : Nat) (f : Ctx → Ctx) (x : Nat) : (s.modCtx n f).box? x = s.box? x := rfl
@[simp] theorem State.modCtx_level_read (s : State) (n : Nat) (f : Ctx → Ctx) : (s.modCtx n f).level = s.level := rfl

@[simp] theorem State.modPlat_herd_read (s : State) (f : Platform → Platform) (x : Nat) : (s.modPlat f).herd x = s.herd x := rfl
@[simp] theorem State.modPlat_core_read (s : State) (f : Platform → Platform) (x y : Nat) : (s.modPlat f).core x y = s.core x y := rfl
@[simp] theorem State.modPlat_regs_read (s : State) (f : Platform → Platform) (x y : Nat) : (s.modPlat f).regs x y = s.regs x y := rfl
@[simp] theorem State.modPlat_me_read (s : State) (f : Platform → Platform) : (s.modPlat f).me = s.me := rfl
@[simp] theorem State.modPlat_R_read (s : State) (f : Platform → Platform) : (s.modPlat f).R = s.R := rfl
@[simp] theorem State.modPlat_memOf_read (s : State) (f : Platform → Platform) (x : Space) : (s.modPlat f).memOf x = s.memOf x := rfl
@[simp] theorem State.modPlat_readByte_read (s : State) (f : Platform → Platform) (x : Space) (y : Nat) : (s.modPlat f).readByte x y = s.readByte x y := rfl
@[simp] theorem State.modPlat_interlocked_read (s : State) (f : Platform → Platform) : (s.modPlat f).interlocked = s.interlocked := rfl
@[simp] theorem State.modPlat_reg_read (s : State) (f : Platform → Platform) (x : Nat) : (s.modPlat f).reg x = s.reg x := rfl
@[simp] theorem State.modPlat_src_read (s : State) (f : Platform → Platform) (x : BitVec 5) (y : Nat) : (s.modPlat f).src x y = s.src x y := rfl
@[simp] theorem State.modPlat_box_read (s : State) (f : Platform → Platform) (x : Nat) : (s.modPlat f).box? x = s.box? x := rfl
@[simp] theorem State.modPlat_level_read (s : State) (f : Platform → Platform) : (s.modPlat f).level = s.level := rfl

@[simp] theorem State.modPort_herd_read (s : State) (n : Nat) (f : Port → Port) (x : Nat) : (s.modPort n f).herd x = s.herd x := rfl
@[simp] theorem State.modPort_core_read (s : State) (n : Nat) (f : Port → Port) (x y : Nat) : (s.modPort n f).core x y = s.core x y := rfl
@[simp] theorem State.modPort_regs_read (s : State) (n : Nat) (f : Port → Port) (x y : Nat) : (s.modPort n f).regs x y = s.regs x y := rfl
@[simp] theorem State.modPort_me_read (s : State) (n : Nat) (f : Port → Port) : (s.modPort n f).me = s.me := rfl
@[simp] theorem State.modPort_R_read (s : State) (n : Nat) (f : Port → Port) : (s.modPort n f).R = s.R := rfl
@[simp] theorem State.modPort_memOf_read (s : State) (n : Nat) (f : Port → Port) (x : Space) : (s.modPort n f).memOf x = s.memOf x := rfl
@[simp] theorem State.modPort_readByte_read (s : State) (n : Nat) (f : Port → Port) (x : Space) (y : Nat) : (s.modPort n f).readByte x y = s.readByte x y := rfl
@[simp] theorem State.modPort_interlocked_read (s : State) (n : Nat) (f : Port → Port) : (s.modPort n f).interlocked = s.interlocked := rfl
@[simp] theorem State.modPort_reg_read (s : State) (n : Nat) (f : Port → Port) (x : Nat) : (s.modPort n f).reg x = s.reg x := rfl
@[simp] theorem State.modPort_src_read (s : State) (n : Nat) (f : Port → Port) (x : BitVec 5) (y : Nat) : (s.modPort n f).src x y = s.src x y := rfl
@[simp] theorem State.modPort_box_read (s : State) (n : Nat) (f : Port → Port) (x : Nat) : (s.modPort n f).box? x = s.box? x := rfl
@[simp] theorem State.modPort_level_read (s : State) (n : Nat) (f : Port → Port) : (s.modPort n f).level = s.level := rfl

@[simp] theorem State.modCmd_herd_read (s : State) (n : Nat) (f : Cmd → Cmd) (x : Nat) : (s.modCmd n f).herd x = s.herd x := rfl
@[simp] theorem State.modCmd_core_read (s : State) (n : Nat) (f : Cmd → Cmd) (x y : Nat) : (s.modCmd n f).core x y = s.core x y := rfl
@[simp] theorem State.modCmd_regs_read (s : State) (n : Nat) (f : Cmd → Cmd) (x y : Nat) : (s.modCmd n f).regs x y = s.regs x y := rfl
@[simp] theorem State.modCmd_me_read (s : State) (n : Nat) (f : Cmd → Cmd) : (s.modCmd n f).me = s.me := rfl
@[simp] theorem State.modCmd_R_read (s : State) (n : Nat) (f : Cmd → Cmd) : (s.modCmd n f).R = s.R := rfl
@[simp] theorem State.modCmd_memOf_read (s : State) (n : Nat) (f : Cmd → Cmd) (x : Space) : (s.modCmd n f).memOf x = s.memOf x := rfl
@[simp] theorem State.modCmd_readByte_read (s : State) (n : Nat) (f : Cmd → Cmd) (x : Space) (y : Nat) : (s.modCmd n f).readByte x y = s.readByte x y := rfl
@[simp] theorem State.modCmd_interlocked_read (s : State) (n : Nat) (f : Cmd → Cmd) : (s.modCmd n f).interlocked = s.interlocked := rfl
@[simp] theorem State.modCmd_reg_read (s : State) (n : Nat) (f : Cmd → Cmd) (x : Nat) : (s.modCmd n f).reg x = s.reg x := rfl
@[simp] theorem State.modCmd_src_read (s : State) (n : Nat) (f : Cmd → Cmd) (x : BitVec 5) (y : Nat) : (s.modCmd n f).src x y = s.src x y := rfl
@[simp] theorem State.modCmd_box_read (s : State) (n : Nat) (f : Cmd → Cmd) (x : Nat) : (s.modCmd n f).box? x = s.box? x := rfl
@[simp] theorem State.modCmd_level_read (s : State) (n : Nat) (f : Cmd → Cmd) : (s.modCmd n f).level = s.level := rfl

@[simp] theorem State.modCall_herd_read (s : State) (n : Nat) (f : Call → Call) (x : Nat) : (s.modCall n f).herd x = s.herd x := rfl
@[simp] theorem State.modCall_core_read (s : State) (n : Nat) (f : Call → Call) (x y : Nat) : (s.modCall n f).core x y = s.core x y := rfl
@[simp] theorem State.modCall_regs_read (s : State) (n : Nat) (f : Call → Call) (x y : Nat) : (s.modCall n f).regs x y = s.regs x y := rfl
@[simp] theorem State.modCall_me_read (s : State) (n : Nat) (f : Call → Call) : (s.modCall n f).me = s.me := rfl
@[simp] theorem State.modCall_R_read (s : State) (n : Nat) (f : Call → Call) : (s.modCall n f).R = s.R := rfl
@[simp] theorem State.modCall_memOf_read (s : State) (n : Nat) (f : Call → Call) (x : Space) : (s.modCall n f).memOf x = s.memOf x := rfl
@[simp] theorem State.modCall_readByte_read (s : State) (n : Nat) (f : Call → Call) (x : Space) (y : Nat) : (s.modCall n f).readByte x y = s.readByte x y := rfl
@[simp] theorem State.modCall_interlocked_read (s : State) (n : Nat) (f : Call → Call) : (s.modCall n f).interlocked = s.interlocked := rfl
@[simp] theorem State.modCall_reg_read (s : State) (n : Nat) (f : Call → Call) (x : Nat) : (s.modCall n f).reg x = s.reg x := rfl
@[simp] theorem State.modCall_src_read (s : State) (n : Nat) (f : Call → Call) (x : BitVec 5) (y : Nat) : (s.modCall n f).src x y = s.src x y := rfl
@[simp] theorem State.modCall_box_read (s : State) (n : Nat) (f : Call → Call) (x : Nat) : (s.modCall n f).box? x = s.box? x := rfl
@[simp] theorem State.modCall_level_read (s : State) (n : Nat) (f : Call → Call) : (s.modCall n f).level = s.level := rfl

/-! ### The herds, cores and registers that an update reaches -/

theorem getD_modify {α : Type} (l : List α) (n : Nat) (f : α → α) (d : α) (h : n < l.length) :
    (l.modify n f).getD n d = f (l.getD n d) := by simp [List.getD, h]

theorem getD_modify_ne {α : Type} (l : List α) {n m : Nat} (f : α → α) (d : α) (h : n ≠ m) : (l.modify n f).getD m d = l.getD m d := by
  simp [List.getD, h]

theorem getD_of_le {α : Type} (l : List α) {n : Nat} (d : α) (h : l.length ≤ n) : l.getD n d = d := by
  simp [List.getD, List.getElem?_eq_none h]

theorem State.modHerd_herd (s : State) (h : Nat) (f : Herd → Herd) (hh : h < s.herds.length) : (s.modHerd h f).herd h = f (s.herd h) :=
  getD_modify _ _ _ _ hh

theorem State.modHerd_herd_ne (s : State) {h k : Nat} (f : Herd → Herd) (hk : h ≠ k) : (s.modHerd h f).herd k = s.herd k :=
  getD_modify_ne _ _ _ hk

theorem State.modHerd_herd_out (s : State) {h : Nat} (f : Herd → Herd) (hh : s.herds.length ≤ h) : (s.modHerd h f).herd h = s.herd h :=
  (getD_of_le _ _ (Nat.le_trans (Nat.le_of_eq (List.length_modify ..)) hh)).trans (getD_of_le _ _ hh).symm

theorem State.modCore_core (s : State) (h c : Nat) (f : Core → Core) (hh : h < s.herds.length) (hc : c < (s.herd h).cores.length) :
    (s.modCore h c f).core h c = f (s.core h c) := by
  rw [State.core, State.modCore, State.modHerd_herd _ _ _ hh]
  exact getD_modify _ _ _ _ hc

theorem State.modCore_core_ne (s : State) {h c x y : Nat} (f : Core → Core) (hn : h ≠ x ∨ c ≠ y) :
    (s.modCore h c f).core x y = s.core x y := by
  by_cases e : h = x
  · subst e
    rw [State.core, State.modCore]
    by_cases hh : h < s.herds.length
    · rw [State.modHerd_herd _ _ _ hh]
      exact getD_modify_ne _ _ _ (hn.resolve_left fun n => n rfl)
    · rw [State.modHerd_herd_out _ _ (Nat.le_of_not_lt hh)]; rfl
  · rw [State.core, State.modCore, State.modHerd_herd_ne _ _ e]; rfl

theorem State.modRegs_regs (s : State) (h c : Nat) (f : Regs → Regs) (hh : h < s.herds.length) (hc : c < (s.herd h).cores.length) :
    (s.modRegs h c f).regs h c = f (s.regs h c) := by
  rw [State.regs, State.modRegs, State.modCore_core _ _ _ _ hh hc]; rfl

theorem State.modR_R (s : State) (f : Regs → Regs) (hp : s.Placed) : (s.modR f).R = f s.R :=
  s.modRegs_regs _ _ f hp.1 hp.2

@[simp] theorem State.modHerd_length (s : State) (h : Nat) (f : Herd → Herd) : (s.modHerd h f).herds.length = s.herds.length :=
  List.length_modify ..

end Sys2Proof.Machine
end

