-- ==== Sys2Proof/Laws/Mem.lean ====
section
/-! SUPPORT. Laws/Mem.lean: the byte memories: a read after a write, and that every operation on a memory keeps its canonical form. -/

namespace Sys2Proof.Machine

/-! ### Reads and writes -/

theorem Mem.read_of_lt {m : Mem} {a : Nat} (h : ∀ c ∈ m, a < c.1) : m.read a = 0 := by
  cases m with
  | nil => rfl
  | cons c m =>
    have := h c (List.mem_cons_self ..)
    simp [Mem.read, this, Nat.ne_of_gt this]

/-- A canonical memory after one entry: the entry's byte is not zero, what follows is canonical and lies higher. -/
theorem Mem.wf_cons {c : Host.Cell} {m : Mem} : Mem.wf (c :: m) ↔ c.2 ≠ 0#8 ∧ (∀ d ∈ m, c.1 < d.1) ∧ Mem.wf m := by
  simp only [Mem.wf, List.pairwise_cons, List.forall_mem_cons]
  constructor
  · rintro ⟨⟨a, b⟩, c, d⟩; exact ⟨c, a, b, d⟩
  · rintro ⟨c, a, b, d⟩; exact ⟨⟨a, b⟩, c, d⟩

/-- Every entry of a written memory is the written one or an old one. -/
theorem Mem.mem_write {m : Mem} {a : Nat} {b : Byte} {c : Host.Cell} (h : c ∈ m.write a b) : c = (a, b) ∨ c ∈ m := by
  induction m with
  | nil => unfold Mem.write at h; split at h <;> simp_all
  | cons d m ih =>
    obtain ⟨k, v⟩ := d
    unfold Mem.write at h
    split at h
    · split at h <;> simp_all
      rcases h with h | h <;> simp [h]
    · split at h
      · split at h <;> simp_all
      · rcases List.mem_cons.1 h with h | h
        · simp [h]
        · exact (ih h).imp id (List.mem_cons_of_mem _)

theorem Mem.write_wf {m : Mem} (a : Nat) (b : Byte) (h : m.wf) : (m.write a b).wf := by
  induction m with
  | nil => unfold Mem.write; split <;> simp_all [Mem.wf]
  | cons d m ih =>
    obtain ⟨k, v⟩ := d
    obtain ⟨h0, h1, h2⟩ := Mem.wf_cons.1 h
    unfold Mem.write
    split
    · next e =>
      split
      · exact h2
      · next hb => exact Mem.wf_cons.2 ⟨hb, fun c hc => e ▸ h1 c hc, h2⟩
    · split
      · next ha =>
        split
        · exact h
        · next hb =>
          refine Mem.wf_cons.2 ⟨hb, ?_, h⟩
          rintro c hc
          rcases List.mem_cons.1 hc with rfl | hc
          · exact ha
          · exact Nat.lt_trans ha (h1 c hc)
      · next ne ge =>
        refine Mem.wf_cons.2 ⟨h0, ?_, ih h2⟩
        intro c hc
        rcases Mem.mem_write hc with rfl | hc
        · exact Nat.lt_of_le_of_ne (Nat.le_of_not_lt ge) ne
        · exact h1 c hc

theorem Mem.writes_wf {m : Mem} (l : List (Nat × Byte)) (h : m.wf) : (m.writes l).wf := by
  induction l generalizing m with
  | nil => exact h
  | cons p l ih => exact ih (Mem.write_wf p.1 p.2 h)

theorem Mem.read_write_same {m : Mem} (a : Nat) (b : Byte) (h : m.wf) : (m.write a b).read a = b := by
  induction m with
  | nil => unfold Mem.write; split <;> simp_all [Mem.read]
  | cons d m ih =>
    obtain ⟨k, v⟩ := d
    obtain ⟨-, h1, h2⟩ := Mem.wf_cons.1 h
    unfold Mem.write
    split
    · next e =>
      split
      · next hb => rw [hb]; exact Mem.read_of_lt fun c hc => e ▸ h1 c hc
      · simp [Mem.read]
    · split
      · next ne ha =>
        split
        · next hb => simp [Mem.read, ne, ha, hb]
        · simp [Mem.read]
      · next ne ge => simp [Mem.read, ne, ge, ih h2]

theorem Mem.read_write_ne {m : Mem} {a x : Nat} (b : Byte) (h : m.wf) (hx : x ≠ a) : (m.write a b).read x = m.read x := by
  induction m with
  | nil => unfold Mem.write; split <;> simp [Mem.read, Ne.symm hx]
  | cons d m ih =>
    obtain ⟨k, v⟩ := d
    obtain ⟨-, h1, h2⟩ := Mem.wf_cons.1 h
    unfold Mem.write
    split
    · next e =>
      subst e
      have hm : x < k → Mem.read m x = 0#8 := fun hl => Mem.read_of_lt fun c hc => Nat.lt_trans hl (h1 c hc)
      split
      · by_cases hl : x < k
        · simp [Mem.read, Ne.symm hx, hl, hm hl]
        · simp [Mem.read, Ne.symm hx, hl]
      · simp [Mem.read, Ne.symm hx]
    · split
      · next ne ha =>
        split
        · rfl
        · by_cases hl : x < a
          · have : x < k := Nat.lt_trans hl ha
            simp [Mem.read, Ne.symm hx, hl, this, Nat.ne_of_gt this]
          · simp [Mem.read, Ne.symm hx, hl]
      · simp only [Mem.read]; rw [ih h2]

theorem Mem.read_writes_of_not_mem {m : Mem} {l : List (Nat × Byte)} {x : Nat} (h : m.wf) (hx : ∀ p ∈ l, p.1 ≠ x) :
    (m.writes l).read x = m.read x := by
  induction l generalizing m with
  | nil => rfl
  | cons p l ih =>
    have hp := hx p (List.mem_cons_self ..)
    exact (ih (Mem.write_wf _ _ h) fun q hq => hx q (List.mem_cons_of_mem _ hq)).trans (Mem.read_write_ne _ h hp.symm)

theorem Mem.read_writes_of_mem {m : Mem} {l : List (Nat × Byte)} {p : Nat × Byte} (h : m.wf) (hn : (l.map (·.1)).Nodup) (hp : p ∈ l) :
    (m.writes l).read p.1 = p.2 := by
  induction l generalizing m with
  | nil => simp at hp
  | cons q l ih =>
    obtain ⟨hq, hl⟩ := List.nodup_cons.1 hn
    rcases List.mem_cons.1 hp with rfl | hp
    · exact (Mem.read_writes_of_not_mem (Mem.write_wf _ _ h) fun r hr e =>
        hq (List.mem_map.2 ⟨r, hr, e⟩)).trans (Mem.read_write_same _ _ h)
    · exact ih (Mem.write_wf _ _ h) hl hp

/-! ### Stretches -/

theorem Mem.filter_wf {m : Mem} (f : Host.Cell → Bool) (h : m.wf) : Mem.wf (m.filter f) :=
  ⟨h.1.sublist (List.filter_sublist), fun c hc => h.2 c (List.mem_of_mem_filter hc)⟩

theorem Mem.slice_wf {m : Mem} (a n : Nat) (h : m.wf) : (m.slice a n).wf := by
  refine ⟨List.pairwise_map.2 ?_, ?_⟩
  · refine ((Mem.filter_wf _ h).1).imp_of_mem ?_
    intro p q hp hq hl
    have := (List.mem_filter.1 hp).2
    simp only [Bool.and_eq_true, decide_eq_true_eq] at this
    exact Nat.sub_lt_sub_right this.1 hl
  · intro c hc
    obtain ⟨p, hp, rfl⟩ := List.mem_map.1 hc
    exact h.2 p (List.mem_of_mem_filter hp)

theorem Mem.shift_wf {m : Mem} (a : Nat) (h : m.wf) : (Mem.shift a m).wf := by
  refine ⟨List.pairwise_map.2 (h.1.imp fun hl => Nat.add_lt_add_left hl a), ?_⟩
  intro c hc
  obtain ⟨p, hp, rfl⟩ := List.mem_map.1 hc
  exact h.2 p hp

theorem Mem.append_wf {l m : Mem} (hl : l.wf) (hm : m.wf) (h : ∀ a ∈ l, ∀ b ∈ m, a.1 < b.1) : Mem.wf (l ++ m) :=
  ⟨List.pairwise_append.2 ⟨hl.1, hm.1, h⟩, fun c hc => (List.mem_append.1 hc).elim (hl.2 c) (hm.2 c)⟩

theorem Mem.overlay_wf {m l : Mem} (a n : Nat) (hm : m.wf) (hl : l.wf) : (m.overlay a n l).wf := by
  unfold Mem.overlay
  refine Mem.append_wf (Mem.append_wf (Mem.filter_wf _ hm) (Mem.shift_wf a (Mem.filter_wf _ hl)) ?_) (Mem.filter_wf _ hm) ?_
  · intro p hp q hq
    obtain ⟨z, -, rfl⟩ := List.mem_map.1 hq
    have := of_decide_eq_true (List.mem_filter.1 hp).2
    exact Nat.lt_of_lt_of_le this (Nat.le_add_right ..)
  · intro p hp q hq
    have hq := of_decide_eq_true (List.mem_filter.1 hq).2
    rcases List.mem_append.1 hp with hp | hp
    · exact Nat.lt_of_lt_of_le (of_decide_eq_true (List.mem_filter.1 hp).2) (Nat.le_trans (Nat.le_add_right ..) hq)
    · obtain ⟨z, hz, rfl⟩ := List.mem_map.1 hp
      have := of_decide_eq_true (List.mem_filter.1 hz).2
      exact Nat.lt_of_lt_of_le (Nat.add_lt_add_left this a) hq

/-- Bytes listed from an address on are in order, and only the nonzero ones are kept. -/
theorem Mem.ofBytes_wf (off : Nat) (l : List Byte) : (Mem.ofBytes off l).wf := by
  refine ⟨?_, fun c hc => by simpa using (List.mem_filter.1 hc).2⟩
  have key : ∀ (l : List Byte) (k : Nat), ((l.zipIdx k).map fun p => (off + p.2, p.1)).Pairwise fun a b : Host.Cell => a.1 < b.1 := by
    intro l
    induction l with
    | nil => intro k; exact List.Pairwise.nil
    | cons b l ih =>
      intro k
      refine List.pairwise_cons.2 ⟨?_, ih (k + 1)⟩
      intro q hq
      obtain ⟨p, hp, rfl⟩ := List.mem_map.1 hq
      have := (List.mem_zipIdx hp).1
      exact Nat.add_lt_add_left this off
  exact (key l 0).sublist List.filter_sublist

/-! ### The memories of the state -/

theorem State.reset_canonical : State.reset.Canonical := by
  refine ⟨⟨List.Pairwise.nil, by intro c h; cases h⟩, ?_, by intro k h; cases h⟩
  intro x hx
  obtain rfl := List.eq_of_mem_replicate hx
  refine ⟨⟨List.Pairwise.nil, by intro c h; cases h⟩, ?_, ?_⟩
  · intro m hm
    obtain rfl := List.eq_of_mem_replicate hm
    exact ⟨List.Pairwise.nil, by intro c h; cases h⟩
  · intro w hw
    obtain rfl := List.eq_of_mem_replicate hw
    exact ⟨List.Pairwise.nil, by intro c h; cases h⟩

/-- A memory of a canonical device is canonical. -/
theorem State.memOf_wf {s : State} (h : s.Canonical) (sp : Space) : (s.memOf sp).wf := by
  have nil : Mem.wf [] := ⟨List.Pairwise.nil, by intro c h; cases h⟩
  have herd : ∀ k, s.herd k = {} ∨ s.herd k ∈ s.herds := by
    intro k
    by_cases hk : k < s.herds.length
    · right; unfold State.herd; rw [List.getD, List.getElem?_eq_getElem hk]; exact List.getElem_mem hk
    · left; exact getD_of_le _ _ (Nat.le_of_not_lt hk)
  cases sp with
  | dev => exact h.1
  | hm k =>
    rcases herd k with e | e
    · show Mem.wf (s.herd k).hm; rw [e]; exact nil
    · exact (h.2.1 _ e).1
  | lm k c =>
    show Mem.wf ((s.herd k).lm.getD c [])
    rcases herd k with e | e
    · rw [e]
      by_cases hc : c < 4
      · rw [show (({} : Herd).lm.getD c []) = [] from by
          rcases c with _ | _ | _ | _ | c <;> rfl]
        exact nil
      · rw [getD_of_le _ _ (by show (4 : Nat) ≤ c; omega)]; exact nil
    · by_cases hc : c < (s.herd k).lm.length
      · rw [List.getD, List.getElem?_eq_getElem hc]; exact (h.2.1 _ e).2.1 _ (List.getElem_mem hc)
      · rw [getD_of_le _ _ (Nat.le_of_not_lt hc)]; exact nil

/-- What a write to a memory does to every byte that it does not name. -/
theorem State.readByte_writeBytes_dev {s : State} (h : s.Canonical) (lvl : Nat) (l : List (Nat × Byte)) (x : Nat) :
    ((∀ p ∈ l, p.1 ≠ x) → (s.writeBytes .dev lvl l).readByte .dev x = s.readByte .dev x) ∧
      ((l.map (·.1)).Nodup → ∀ p ∈ l, (s.writeBytes .dev lvl l).readByte .dev p.1 = p.2) :=
  ⟨fun hx => Mem.read_writes_of_not_mem h.1 hx, fun hn _ hp => Mem.read_writes_of_mem h.1 hn hp⟩

end Sys2Proof.Machine
end

