-- ==== Sys2Proof/Laws/Ops.lean ====
section
/-! SUPPORT. Laws/Ops.lean: for each shared operation of the meanings, the one lemma that says what it answers. -/

namespace Sys2Proof.Machine

@[simp] theorem answer_ok (s t : State) : s.answer (.ok t) = .next t := rfl

@[simp] theorem answer_hold (s : State) :
    s.answer (.error .hold) = .next { s with cur := { s.cur with mustHold := true } } := rfl

@[simp] theorem answer_trap (s : State) (t : Trap) :
    s.answer (.error (.trap t)) = .next (s.trapHere t s.cur.slot s.cur.pc .none) := rfl

/-- A meaning of the form `s.answer r` always gives a next state. -/
theorem answer_next (s : State) (r : Res State) : ∃ t, s.answer r = .next t := by
  cases r with
  | ok t => exact ⟨t, rfl⟩
  | error e => cases e <;> exact ⟨_, rfl⟩

/-- A result of latency 1 needs no room in the queue (R390). -/
theorem room_short (s : State) {lat : Nat} (rows : Nat) (h : lat ≤ 1) : s.room lat rows = .ok () := by
  simp [State.room, h]

@[simp] theorem room_one (s : State) (rows : Nat) : s.room 1 rows = .ok () := room_short s rows (Nat.le_refl 1)

theorem scalar1_gives (s : State) {lat : Nat} (d a : BitVec 5) (f : Word → Word) {x : Word} (h : s.src a 0 = .ok x)
    (hr : s.room lat 0 = .ok ()) :
    s.scalar1 lat d a f = .ok ((s.notePbnd [a]).put lat (.scalar d.toNat) (wide (f x))) := by
  simp [State.scalar1, h, hr, bind, Except.bind, pure, Except.pure]

theorem scalar2_gives (s : State) {lat : Nat} (d a b : BitVec 5) (f : Word → Word → Word) {x y : Word} (h : s.src2 a b = .ok (x, y))
    (hr : s.room lat 0 = .ok ()) :
    s.scalar2 lat d a b f = .ok ((s.notePbnd [a, b]).put lat (.scalar d.toNat) (wide (f x y))) := by
  simp [State.scalar2, h, hr, bind, Except.bind, pure, Except.pure]

theorem float1_gives (s : State) {lat : Nat} (d a : BitVec 5) (q : BitVec 1) (f : Round → Bool → Nat → Nat × Flags) {x : Word}
    (h : s.src a 0 = .ok x) (hr : s.room lat 0 = .ok ()) :
    s.float1 lat d a q f = .ok ((s.notePbnd [a]).putFlags lat (.scalar d.toNat)
      (BitVec.ofNat 512 (f s.R.rm (!s.interlocked) x.toNat).1) q (f s.R.rm (!s.interlocked) x.toNat).2) := by
  simp [State.float1, h, hr, bind, Except.bind, pure, Except.pure]

theorem float2_gives (s : State) {lat : Nat} (d a b : BitVec 5) (q : BitVec 1) (f : Round → Bool → Nat → Nat → Nat × Flags)
    {x y : Word} (h : s.src2 a b = .ok (x, y)) (hr : s.room lat 0 = .ok ()) :
    s.float2 lat d a b q f = .ok ((s.notePbnd [a, b]).putFlags lat (.scalar d.toNat)
      (BitVec.ofNat 512 (f s.R.rm (!s.interlocked) x.toNat y.toNat).1) q (f s.R.rm (!s.interlocked) x.toNat y.toNat).2) := by
  simp [State.float2, h, hr, bind, Except.bind, pure, Except.pure]

theorem compare_gives (s : State) (p : BitVec 3) (a b : BitVec 5) (f : Word → Word → Bool) {x y : Word} (h : s.src2 a b = .ok (x, y)) :
    s.compare p a b f = .ok ((s.notePbnd [a, b]).put 1 (.pred p.toNat) (predOf (f x y))) := by
  simp [State.compare, h, bind, Except.bind, pure, Except.pure]

theorem compareF_gives (s : State) (p : BitVec 3) (a b : BitVec 5) (q : BitVec 1) (c : Nat) {x y : Word}
    (h : s.src2 a b = .ok (x, y)) :
    s.compareF p a b q c = .ok ((s.notePbnd [a, b]).putFlags 1 (.pred p.toNat)
      (predOf (fcmpElem c .fp32 (!s.interlocked) x.toNat y.toNat).1) q (fcmpElem c .fp32 (!s.interlocked) x.toNat y.toNat).2) := by
  simp [State.compareF, h, bind, Except.bind, pure, Except.pure]

theorem divide_gives (s : State) (d a b : BitVec 5) (f : Word → Word → Word) {x y : Word} (h : s.src2 a b = .ok (x, y))
    (hr : s.room 18 0 = .ok ()) :
    s.divide d a b f = .ok ((s.notePbnd [a, b]).put 18 (.scalar d.toNat) (wide (f x y))).holdDivider := by
  simp [State.divide, h, hr, bind, Except.bind, pure, Except.pure]

theorem box_bound {s : State} {h : Nat} {b : BitVec 256} (hb : s.box? h = .some b) : s.box h = .ok b := by simp [State.box, hb]

theorem box_unbound {s : State} {h : Nat} (hb : s.box? h = .none) : s.box h = raise 8 := by simp [State.box, hb]

/-! ### Slots, schedules and bounds -/

/-- The accesses that copy a retired channel take slots of the calendar, by a free value, and change nothing else (R248). -/
theorem takeOpen_only (s : State) (n : Nat) : ∃ c, s.takeOpen n = { s with calendar := c, freeCount := s.freeCount + 1 } := ⟨_, rfl⟩

/-- A run of lines that is accessed without a schedule stands in the runs, from its cycle on, and nothing else changes (R248). -/
theorem takeRun_only (s : State) (t first count : Nat) :
    ∃ (b : SlotRun) (l : List SlotRun), b.from_ = t ∧ b.first = first ∧ b.count = count ∧ s.takeRun t first count = { s with runs := b :: l } :=
  ⟨_, _, rfl, rfl, rfl, rfl⟩

/-- The lines of some bytes of a space take runs of slots, by a free value, and nothing else changes (R248). -/
theorem takeRange_only (s : State) (x a n : Nat) (ask : Ask) :
    ∃ l, s.takeRange x a n ask = { s with runs := l, freeCount := s.freeCount + 1 } := by
  have step (p : List (Nat × Nat × Nat)) (f : State → Nat × Nat × Nat → State) (hf : ∀ s q, ∃ l, f s q = { s with runs := l }) :
      ∀ s : State, ∃ l, p.foldl f s = { s with runs := l } := by
    induction p with
    | nil => exact fun s => ⟨s.runs, rfl⟩
    | cons q p ih =>
      intro s
      obtain ⟨l, h⟩ := hf s q
      obtain ⟨l', h'⟩ := ih { s with runs := l }
      exact ⟨l', by rw [List.foldl_cons, h, h']⟩
  unfold State.takeRange
  simp only [State.fresh]
  split
  · exact ⟨s.runs, rfl⟩
  · exact step _ _ (fun _ _ => ⟨_, rfl⟩) _

/-- A slot taken stands in the calendar, and nothing else changes (R248). -/
theorem takeSlot_only (s : State) (pc t : Nat) : ∃ c, (pc, t) ∈ c ∧ s.takeSlot pc t = { s with calendar := c } :=
  ⟨_, List.mem_cons_self, rfl⟩

/-- The root has no translation: what refuses a command of it is raised at issue. -/
theorem refuse_root {s : State} {c : Cmd} (f : Refused) (w : Walk) (h : s.isRoot c.ctx = true) : s.refuse c f w = raise f.cls := by
  simp [State.refuse, h]

theorem issuePlan_refused (s : State) (c : Cmd) (unit : Nat) (w : Walk) (f : Refused) : s.issuePlan c unit (w, .error f) = s.refuse c f w := rfl

/-- A command whose promise is within its bound, or that has none, enters (R255). -/
theorem issuePlan_enters {s : State} {c : Cmd} {unit : Nat} (w : Walk) {p : Plan}
    (h : c.bound = 0 ∨ p.promise s.tick ≤ s.tick + unit * c.bound.toNat) : s.issuePlan c unit (w, .ok p) = .ok (s.enterPlan p c) := by
  have : ¬ (c.bound ≠ 0 ∧ unit * c.bound.toNat < p.promise s.tick - s.tick) := by
    rintro ⟨h0, h1⟩
    rcases h with h | h
    · exact h0 h
    · omega
  simp only [State.issuePlan, Bool.and_eq_true, decide_eq_true_eq]
  rw [if_neg this]

/-- One whose promise exceeds its bound traps, and nothing of it enters (R255). -/
theorem issuePlan_bound {s : State} {c : Cmd} {unit : Nat} (w : Walk) {p : Plan} (h0 : c.bound ≠ 0)
    (h : s.tick + unit * c.bound.toNat < p.promise s.tick) : s.issuePlan c unit (w, .ok p) = raise 17 := by
  have : unit * c.bound.toNat < p.promise s.tick - s.tick := by omega
  simp only [State.issuePlan, Bool.and_eq_true, decide_eq_true_eq]
  rw [if_pos ⟨h0, this⟩]

/-! ### Errors of memories -/

/-- An error that arises marks bytes as lost and changes no byte (R101, R188, R192, R454). -/
theorem upset_dev (s : State) (u : Upset) : (s.upset u).dev = s.dev := by
  cases u <;> simp only [State.upset, State.modHerd]
  split <;> rfl

end Sys2Proof.Machine
end

