-- ==== Sys2Proof/Laws/PerInstr.lean ====
section
/-! SUPPORT. PerInstr.lean: what the layouts of encoder and decoder agree on, said per syllable (the family Encode of LAWS.json): the
word of a syllable belongs to the row of the opcode table that gives the same syllable back, and its variant bits and its
unused bits hold what that row asks for. The decoder's other checks are those of WellFormed.lean. -/

namespace Sys2Proof

/-- The word `w` belongs to a row that gives the syllable `i`, and keeps to the fixed bits of that row. -/
def Laws.Encode.Fits (w : BitVec 32) (i : Instr) : Prop :=
  ∃ r, rowOf w = .ok r ∧ r.instr = i ∧ w &&& r.varMask = 0#32 ∧ w &&& r.fixMask = r.fixVal

/-- The encoder's word of a well-formed syllable fits that syllable, whatever its position and its guard. -/
def Laws.Encode.Statement (i : Instr) : Prop :=
  i.wf = true → ∀ (pos : BitVec 2) (g : BitVec 3), Fits (encode pos g i) i

namespace Laws.Encode

open HAppend (hAppend)

set_option linter.unusedSimpArgs false
set_option Elab.async false

/-! ### Fields of a word written as a row of fields -/

theorem and_app {k n : Nat} {a c x : BitVec k} {b d : BitVec n} (y : BitVec n) (h : a &&& c = x) (h' : b &&& d = y) : (a ++ b) &&& (c ++ d) = x ++ y := by
  rw [BitVec.and_append, h, h']

theorem and_mask {w m m' v v' : BitVec 32} (hm : m' = m) (h : w &&& m = v) (hv : v = v' := by decide) : w &&& m' = v' := by
  rw [hm, h, hv]

theorem split8 (x : BitVec 8) : x.extractLsb' 3 5 ++ x.extractLsb' 0 3 = x := by revert x; decide

theorem split6 (x : BitVec 6) : x.extractLsb' 5 1 ++ x.extractLsb' 0 5 = x := by revert x; decide

theorem fli_major (pos : BitVec 2) (g : BitVec 3) (d : BitVec 4) (i : BitVec 20) :
   (pos ++ g ++ 7#3 ++ d ++ i).extractLsb' 22 5 = 7#3 ++ d.extractLsb' 2 2 := by
  refine BitVec.eq_of_getElem_eq fun j hj => ?_
  rcases j with _ | _ | _ | _ | _ | j
  all_goals first | omega | (simp only [BitVec.getElem_extractLsb', BitVec.getLsbD_append]; simp; revert hj; revert d; decide)

theorem major_f20 : ∀ x : BitVec 2, 28 ≤ (7#3 ++ x).toNat := by decide

theorem rowOf_f20 {w : BitVec 32} (h : 28 ≤ (w.extractLsb' 22 5).toNat) : rowOf w = rowF20 w := by
  unfold rowOf
  generalize (w.extractLsb' 22 5).toNat = k at h
  obtain ⟨k, rfl⟩ := Nat.exists_eq_add_of_le' h
  rfl

theorem rowOf_Br {w : BitVec 32} (h : w.extractLsb' 22 5 = 0#5) : rowOf w = rowBr w := by unfold rowOf; rw [h]; rfl

theorem rowOf_Loop {w : BitVec 32} (h : w.extractLsb' 22 5 = 1#5) : rowOf w = rowLoop w := by unfold rowOf; rw [h]; rfl

theorem rowOf_Sys {w : BitVec 32} (h : w.extractLsb' 22 5 = 2#5) : rowOf w = rowSys w := by unfold rowOf; rw [h]; rfl

theorem rowOf_Pred {w : BitVec 32} (h : w.extractLsb' 22 5 = 3#5) : rowOf w = rowPred w := by unfold rowOf; rw [h]; rfl

theorem plainPred_zero {w : BitVec 32} {r : Row} (h : w.extractLsb' 2 2 = 0#2) : plainPred w r = .ok r := by rw [plainPred, h]; rfl

theorem rowOf_Int {w : BitVec 32} (h : w.extractLsb' 22 5 = 4#5) : rowOf w = rowInt w := by unfold rowOf; rw [h]; rfl

theorem rowOf_Inti {w : BitVec 32} (h : w.extractLsb' 22 5 = 5#5) : rowOf w = rowInti w := by unfold rowOf; rw [h]; rfl

theorem rowOf_Fps {w : BitVec 32} (h : w.extractLsb' 22 5 = 6#5) : rowOf w = rowFps w := by unfold rowOf; rw [h]; rfl

theorem rowOf_Cmp {w : BitVec 32} (h : w.extractLsb' 22 5 = 7#5) : rowOf w = rowCmp w := by unfold rowOf; rw [h]; rfl

theorem rowOf_Bit {w : BitVec 32} (h : w.extractLsb' 22 5 = 8#5) : rowOf w = rowBit w := by unfold rowOf; rw [h]; rfl

theorem rowOf_Path {w : BitVec 32} (h : w.extractLsb' 22 5 = 9#5) : rowOf w = rowPath w := by unfold rowOf; rw [h]; rfl

theorem rowOf_Lmem {w : BitVec 32} (h : w.extractLsb' 22 5 = 10#5) : rowOf w = rowLmem w := by unfold rowOf; rw [h]; rfl

theorem rowOf_Lspec {w : BitVec 32} (h : w.extractLsb' 22 5 = 11#5) : rowOf w = rowLspec w := by unfold rowOf; rw [h]; rfl

theorem rowOf_Hmem {w : BitVec 32} (h : w.extractLsb' 22 5 = 12#5) : rowOf w = rowHmem w := by unfold rowOf; rw [h]; rfl

theorem rowOf_Hatom {w : BitVec 32} (h : w.extractLsb' 22 5 = 13#5) : rowOf w = rowHatom w := by unfold rowOf; rw [h]; rfl

theorem rowOf_Tint {w : BitVec 32} (h : w.extractLsb' 22 5 = 14#5) : rowOf w = rowTint w := by unfold rowOf; rw [h]; rfl

theorem rowOf_Tfp {w : BitVec 32} (h : w.extractLsb' 22 5 = 15#5) : rowOf w = rowTfp w := by unfold rowOf; rw [h]; rfl

theorem rowOf_Tcvt {w : BitVec 32} (h : w.extractLsb' 22 5 = 16#5) : rowOf w = rowTcvt w := by unfold rowOf; rw [h]; rfl

theorem rowOf_Tmov {w : BitVec 32} (h : w.extractLsb' 22 5 = 17#5) : rowOf w = rowTmov w := by unfold rowOf; rw [h]; rfl

theorem rowOf_Scale {w : BitVec 32} (h : w.extractLsb' 22 5 = 18#5) : rowOf w = rowScale w := by unfold rowOf; rw [h]; rfl

theorem rowOf_Tcmp {w : BitVec 32} (h : w.extractLsb' 22 5 = 19#5) : rowOf w = rowTcmp w := by unfold rowOf; rw [h]; rfl

theorem rowOf_Mxa {w : BitVec 32} (h : w.extractLsb' 22 5 = 20#5) : rowOf w = rowMxa w := by unfold rowOf; rw [h]; rfl

theorem rowOf_Mxb {w : BitVec 32} (h : w.extractLsb' 22 5 = 21#5) : rowOf w = rowMxb w := by unfold rowOf; rw [h]; rfl

theorem rowOf_Walk {w : BitVec 32} (h : w.extractLsb' 22 5 = 22#5) : rowOf w = rowWalk w := by unfold rowOf; rw [h]; rfl

theorem rowOf_Link {w : BitVec 32} (h : w.extractLsb' 22 5 = 23#5) : rowOf w = rowLink w := by unfold rowOf; rw [h]; rfl

theorem rowOf_Ctx {w : BitVec 32} (h : w.extractLsb' 22 5 = 24#5) : rowOf w = rowCtx w := by unfold rowOf; rw [h]; rfl

theorem rowOf_Xform {w : BitVec 32} (h : w.extractLsb' 22 5 = 25#5) : rowOf w = rowXform w := by unfold rowOf; rw [h]; rfl

theorem low_op (p : BitVec 5) (c : BitVec 7) (x : BitVec 3) : (p ++ c ++ x).extractLsb' 0 5 = c.extractLsb' 0 2 ++ x := by
  refine BitVec.eq_of_getElem_eq fun j hj => ?_
  rcases j with _ | _ | _ | _ | _ | j
  all_goals first | omega | 
    (rw [show ∀ (a : BitVec 2) (b : BitVec 3) (j : Nat) (h : j < 5), (a ++ b)[j]'h = if h' : j < 3 then b[j] else a[j - 3]
      from fun a b j h => BitVec.getElem_append ..]; simp only [BitVec.getElem_extractLsb', BitVec.getLsbD_append]; simp)

theorem three_bits : ∀ x : BitVec 3, x = 0#3 ∨ x = 1#3 ∨ x = 2#3 ∨ x = 3#3 ∨ x = 4#3 ∨ x = 5#3 ∨ x = 6#3 ∨ x = 7#3 := by decide

/-! ### One lemma per syllable and per event -/

theorem bset (n : BitVec 2) (a : BitVec 5) : Statement (.bset n a) := by
  intro _ pos g
  show Fits (hAppend (hAppend (hAppend (hAppend (hAppend (hAppend pos g) 0#9) n) 0#3) a) 0#8) _
  refine ⟨⟨.bset n a, 0xE0FF#32, 0x0#32, 0x0#32⟩, ?_, rfl, ?_, ?_⟩
  · rw [rowOf_Br (by simp (disch := decide) only [BitVec.extractLsb'_append_eq_of_add_le, BitVec.extractLsb'_append_eq_of_le]; rfl)]
    unfold rowBr
    rw [show (hAppend (hAppend (hAppend (hAppend (hAppend (hAppend pos g) 0#9) n) 0#3) a) 0#8).extractLsb' 18 4 = 0#4 from by simp (disch := decide) only [BitVec.extractLsb'_append_eq_of_add_le, BitVec.extractLsb'_append_eq_of_le]; rfl]
    show Except.ok _ = _
    simp (disch := decide) only [BitVec.extractLsb'_append_eq_of_add_le, BitVec.extractLsb'_append_eq_of_le]
    simp
  · exact BitVec.and_zero
  · exact and_mask (m := (hAppend (hAppend (hAppend 0#16 7#3) 0#5) 255#8)) (m' := 0xE0FF#32) (v' := 0x0#32) (by decide) (@and_app 24 8 _ _ _ _ _ (0#8) (@and_app 19 5 _ _ _ _ _ (0#5) (@and_app 16 3 _ _ _ _ _ (0#3) BitVec.and_zero rfl) BitVec.and_zero) rfl)

theorem bsetr (n : BitVec 2) (a : BitVec 5) : Statement (.bsetr n a) := by
  intro _ pos g
  show Fits (hAppend (hAppend (hAppend (hAppend (hAppend (hAppend pos g) 1#9) n) 0#3) a) 0#8) _
  refine ⟨⟨.bsetr n a, 0xE0FF#32, 0x0#32, 0x0#32⟩, ?_, rfl, ?_, ?_⟩
  · rw [rowOf_Br (by simp (disch := decide) only [BitVec.extractLsb'_append_eq_of_add_le, BitVec.extractLsb'_append_eq_of_le]; rfl)]
    unfold rowBr
    rw [show (hAppend (hAppend (hAppend (hAppend (hAppend (hAppend pos g) 1#9) n) 0#3) a) 0#8).extractLsb' 18 4 = 1#4 from by simp (disch := decide) only [BitVec.extractLsb'_append_eq_of_add_le, BitVec.extractLsb'_append_eq_of_le]; rfl]
    show Except.ok _ = _
    simp (disch := decide) only [BitVec.extractLsb'_append_eq_of_add_le, BitVec.extractLsb'_append_eq_of_le]
    simp
  · exact BitVec.and_zero
  · exact and_mask (m := (hAppend (hAppend (hAppend 0#16 7#3) 0#5) 255#8)) (m' := 0xE0FF#32) (v' := 0x0#32) (by decide) (@and_app 24 8 _ _ _ _ _ (0#8) (@and_app 19 5 _ _ _ _ _ (0#5) (@and_app 16 3 _ _ _ _ _ (0#3) BitVec.and_zero rfl) BitVec.and_zero) rfl)

theorem bgo (n : BitVec 2) (c : BitVec 3) : Statement (.bgo n c) := by
  intro _ pos g
  show Fits (hAppend (hAppend (hAppend (hAppend (hAppend pos g) 2#9) n) c) 0#13) _
  refine ⟨⟨.bgo n c, 0x1FFF#32, 0x0#32, 0x0#32⟩, ?_, rfl, ?_, ?_⟩
  · rw [rowOf_Br (by simp (disch := decide) only [BitVec.extractLsb'_append_eq_of_add_le, BitVec.extractLsb'_append_eq_of_le]; rfl)]
    unfold rowBr
    rw [show (hAppend (hAppend (hAppend (hAppend (hAppend pos g) 2#9) n) c) 0#13).extractLsb' 18 4 = 2#4 from by simp (disch := decide) only [BitVec.extractLsb'_append_eq_of_add_le, BitVec.extractLsb'_append_eq_of_le]; rfl]
    show Except.ok _ = _
    simp (disch := decide) only [BitVec.extractLsb'_append_eq_of_add_le, BitVec.extractLsb'_append_eq_of_le]
    simp
  · exact BitVec.and_zero
  · exact and_mask (m := (hAppend 0#19 8191#13)) (m' := 0x1FFF#32) (v' := 0x0#32) (by decide) (@and_app 19 13 _ _ _ _ _ (0#13) BitVec.and_zero rfl)

theorem bgon (n : BitVec 2) (c : BitVec 3) : Statement (.bgon n c) := by
  intro _ pos g
  show Fits (hAppend (hAppend (hAppend (hAppend (hAppend pos g) 3#9) n) c) 0#13) _
  refine ⟨⟨.bgon n c, 0x1FFF#32, 0x0#32, 0x0#32⟩, ?_, rfl, ?_, ?_⟩
  · rw [rowOf_Br (by simp (disch := decide) only [BitVec.extractLsb'_append_eq_of_add_le, BitVec.extractLsb'_append_eq_of_le]; rfl)]
    unfold rowBr
    rw [show (hAppend (hAppend (hAppend (hAppend (hAppend pos g) 3#9) n) c) 0#13).extractLsb' 18 4 = 3#4 from by simp (disch := decide) only [BitVec.extractLsb'_append_eq_of_add_le, BitVec.extractLsb'_append_eq_of_le]; rfl]
    show Except.ok _ = _
    simp (disch := decide) only [BitVec.extractLsb'_append_eq_of_add_le, BitVec.extractLsb'_append_eq_of_le]
    simp
  · exact BitVec.and_zero
  · exact and_mask (m := (hAppend 0#19 8191#13)) (m' := 0x1FFF#32) (v' := 0x0#32) (by decide) (@and_app 19 13 _ _ _ _ _ (0#13) BitVec.and_zero rfl)

theorem blink (n : BitVec 2) (c : BitVec 3) : Statement (.blink n c) := by
  intro _ pos g
  show Fits (hAppend (hAppend (hAppend (hAppend (hAppend pos g) 4#9) n) c) 0#13) _
  refine ⟨⟨.blink n c, 0x1FFF#32, 0x0#32, 0x0#32⟩, ?_, rfl, ?_, ?_⟩
  · rw [rowOf_Br (by simp (disch := decide) only [BitVec.extractLsb'_append_eq_of_add_le, BitVec.extractLsb'_append_eq_of_le]; rfl)]
    unfold rowBr
    rw [show (hAppend (hAppend (hAppend (hAppend (hAppend pos g) 4#9) n) c) 0#13).extractLsb' 18 4 = 4#4 from by simp (disch := decide) only [BitVec.extractLsb'_append_eq_of_add_le, BitVec.extractLsb'_append_eq_of_le]; rfl]
    show Except.ok _ = _
    simp (disch := decide) only [BitVec.extractLsb'_append_eq_of_add_le, BitVec.extractLsb'_append_eq_of_le]
    simp
  · exact BitVec.and_zero
  · exact and_mask (m := (hAppend 0#19 8191#13)) (m' := 0x1FFF#32) (v' := 0x0#32) (by decide) (@and_app 19 13 _ _ _ _ _ (0#13) BitVec.and_zero rfl)

theorem bback (c : BitVec 3) (a : BitVec 5) : Statement (.bback c a) := by
  intro _ pos g
  show Fits (hAppend (hAppend (hAppend (hAppend (hAppend pos g) 20#11) c) a) 0#8) _
  refine ⟨⟨.bback c a, 0x300FF#32, 0x0#32, 0x0#32⟩, ?_, rfl, ?_, ?_⟩
  · rw [rowOf_Br (by simp (disch := decide) only [BitVec.extractLsb'_append_eq_of_add_le, BitVec.extractLsb'_append_eq_of_le]; rfl)]
    unfold rowBr
    rw [show (hAppend (hAppend (hAppend (hAppend (hAppend pos g) 20#11) c) a) 0#8).extractLsb' 18 4 = 5#4 from by simp (disch := decide) only [BitVec.extractLsb'_append_eq_of_add_le, BitVec.extractLsb'_append_eq_of_le]; rfl]
    show Except.ok _ = _
    simp (disch := decide) only [BitVec.extractLsb'_append_eq_of_add_le, BitVec.extractLsb'_append_eq_of_le]
    simp
  · exact BitVec.and_zero
  · exact and_mask (m := (hAppend (hAppend (hAppend (hAppend 0#5 3#11) 0#3) 0#5) 255#8)) (m' := 0x300FF#32) (v' := 0x0#32) (by decide) (@and_app 24 8 _ _ _ _ _ (0#8) (@and_app 19 5 _ _ _ _ _ (0#5) (@and_app 16 3 _ _ _ _ _ (0#3) (@and_app 5 11 _ _ _ _ _ (0#11) BitVec.and_zero rfl) BitVec.and_zero) BitVec.and_zero) rfl)

theorem loop (a : BitVec 5) (b : BitVec 5) : Statement (.loop a b) := by
  intro _ pos g
  show Fits (hAppend (hAppend (hAppend (hAppend (hAppend pos g) 512#14) a) b) 0#3) _
  refine ⟨⟨.loop a b, 0x3E007#32, 0x0#32, 0x0#32⟩, ?_, rfl, ?_, ?_⟩
  · rw [rowOf_Loop (by simp (disch := decide) only [BitVec.extractLsb'_append_eq_of_add_le, BitVec.extractLsb'_append_eq_of_le]; rfl)]
    unfold rowLoop
    rw [show (hAppend (hAppend (hAppend (hAppend (hAppend pos g) 512#14) a) b) 0#3).extractLsb' 18 4 = 0#4 from by simp (disch := decide) only [BitVec.extractLsb'_append_eq_of_add_le, BitVec.extractLsb'_append_eq_of_le]; rfl]
    show Except.ok _ = _
    simp (disch := decide) only [BitVec.extractLsb'_append_eq_of_add_le, BitVec.extractLsb'_append_eq_of_le]
    simp
  · exact BitVec.and_zero
  · exact and_mask (m := (hAppend (hAppend (hAppend (hAppend 0#5 31#14) 0#5) 0#5) 7#3)) (m' := 0x3E007#32) (v' := 0x0#32) (by decide) (@and_app 29 3 _ _ _ _ _ (0#3) (@and_app 24 5 _ _ _ _ _ (0#5) (@and_app 19 5 _ _ _ _ _ (0#5) (@and_app 5 14 _ _ _ _ _ (0#14) BitVec.and_zero rfl) BitVec.and_zero) BitVec.and_zero) rfl)

theorem loopi (i : BitVec 8) (b : BitVec 5) : Statement (.loopi i b) := by
  intro _ pos g
  show Fits (hAppend (hAppend (hAppend (hAppend (hAppend (hAppend pos g) 17#9) (i.extractLsb' 3 5)) 0#5) b) (i.extractLsb' 0 3)) _
  refine ⟨⟨.loopi i b, 0x1F00#32, 0x0#32, 0x0#32⟩, ?_, rfl, ?_, ?_⟩
  · rw [rowOf_Loop (by simp (disch := decide) only [BitVec.extractLsb'_append_eq_of_add_le, BitVec.extractLsb'_append_eq_of_le]; rfl)]
    unfold rowLoop
    rw [show (hAppend (hAppend (hAppend (hAppend (hAppend (hAppend pos g) 17#9) (i.extractLsb' 3 5)) 0#5) b) (i.extractLsb' 0 3)).extractLsb' 18 4 = 1#4 from by simp (disch := decide) only [BitVec.extractLsb'_append_eq_of_add_le, BitVec.extractLsb'_append_eq_of_le]; rfl]
    show Except.ok _ = _
    simp (disch := decide) only [BitVec.extractLsb'_append_eq_of_add_le, BitVec.extractLsb'_append_eq_of_le]
    simp [split8]
  · exact BitVec.and_zero
  · exact and_mask (m := (hAppend (hAppend (hAppend 0#19 31#5) 0#5) 0#3)) (m' := 0x1F00#32) (v' := 0x0#32) (by decide) (@and_app 29 3 _ _ _ _ _ (0#3) (@and_app 24 5 _ _ _ _ _ (0#5) (@and_app 19 5 _ _ _ _ _ (0#5) BitVec.and_zero rfl) BitVec.and_zero) BitVec.and_zero)

theorem lpipe (s : BitVec 4) (a : BitVec 5) (b : BitVec 5) : Statement (.lpipe s a b) := by
  intro _ pos g
  show Fits (hAppend (hAppend (hAppend (hAppend (hAppend (hAppend pos g) 36#10) s) a) b) 0#3) _
  refine ⟨⟨.lpipe s a b, 0x20007#32, 0x0#32, 0x0#32⟩, ?_, rfl, ?_, ?_⟩
  · rw [rowOf_Loop (by simp (disch := decide) only [BitVec.extractLsb'_append_eq_of_add_le, BitVec.extractLsb'_append_eq_of_le]; rfl)]
    unfold rowLoop
    rw [show (hAppend (hAppend (hAppend (hAppend (hAppend (hAppend pos g) 36#10) s) a) b) 0#3).extractLsb' 18 4 = 2#4 from by simp (disch := decide) only [BitVec.extractLsb'_append_eq_of_add_le, BitVec.extractLsb'_append_eq_of_le]; rfl]
    show Except.ok _ = _
    simp (disch := decide) only [BitVec.extractLsb'_append_eq_of_add_le, BitVec.extractLsb'_append_eq_of_le]
    simp
  · exact BitVec.and_zero
  · exact and_mask (m := (hAppend (hAppend (hAppend (hAppend (hAppend 0#5 1#10) 0#4) 0#5) 0#5) 7#3)) (m' := 0x20007#32) (v' := 0x0#32) (by decide) (@and_app 29 3 _ _ _ _ _ (0#3) (@and_app 24 5 _ _ _ _ _ (0#5) (@and_app 19 5 _ _ _ _ _ (0#5) (@and_app 15 4 _ _ _ _ _ (0#4) (@and_app 5 10 _ _ _ _ _ (0#10) BitVec.and_zero rfl) BitVec.and_zero) BitVec.and_zero) BitVec.and_zero) rfl)

theorem lidx (d : BitVec 5) (k : BitVec 3) : Statement (.lidx d k) := by
  intro _ pos g
  show Fits (hAppend (hAppend (hAppend (hAppend (hAppend pos g) 20#9) d) 0#10) k) _
  refine ⟨⟨.lidx d k, 0x1FF8#32, 0x0#32, 0x0#32⟩, ?_, rfl, ?_, ?_⟩
  · rw [rowOf_Loop (by simp (disch := decide) only [BitVec.extractLsb'_append_eq_of_add_le, BitVec.extractLsb'_append_eq_of_le]; rfl)]
    unfold rowLoop
    rw [show (hAppend (hAppend (hAppend (hAppend (hAppend pos g) 20#9) d) 0#10) k).extractLsb' 18 4 = 4#4 from by simp (disch := decide) only [BitVec.extractLsb'_append_eq_of_add_le, BitVec.extractLsb'_append_eq_of_le]; rfl]
    show Except.ok _ = _
    simp (disch := decide) only [BitVec.extractLsb'_append_eq_of_add_le, BitVec.extractLsb'_append_eq_of_le]
    simp
  · exact BitVec.and_zero
  · exact and_mask (m := (hAppend (hAppend 0#19 1023#10) 0#3)) (m' := 0x1FF8#32) (v' := 0x0#32) (by decide) (@and_app 29 3 _ _ _ _ _ (0#3) (@and_app 19 10 _ _ _ _ _ (0#10) BitVec.and_zero rfl) BitVec.and_zero)

theorem trap (n : BitVec 8) : Statement (.trap n) := by
  intro _ pos g
  show Fits (hAppend (hAppend (hAppend (hAppend (hAppend pos g) 33#9) (n.extractLsb' 3 5)) 0#10) (n.extractLsb' 0 3)) _
  refine ⟨⟨.trap n, 0x1FF8#32, 0x0#32, 0x0#32⟩, ?_, rfl, ?_, ?_⟩
  · rw [rowOf_Sys (by simp (disch := decide) only [BitVec.extractLsb'_append_eq_of_add_le, BitVec.extractLsb'_append_eq_of_le]; rfl)]
    unfold rowSys
    rw [show (hAppend (hAppend (hAppend (hAppend (hAppend pos g) 33#9) (n.extractLsb' 3 5)) 0#10) (n.extractLsb' 0 3)).extractLsb' 18 4 = 1#4 from by simp (disch := decide) only [BitVec.extractLsb'_append_eq_of_add_le, BitVec.extractLsb'_append_eq_of_le]; rfl]
    show Except.ok _ = _
    simp (disch := decide) only [BitVec.extractLsb'_append_eq_of_add_le, BitVec.extractLsb'_append_eq_of_le]
    simp [split8]
  · exact BitVec.and_zero
  · exact and_mask (m := (hAppend (hAppend 0#19 1023#10) 0#3)) (m' := 0x1FF8#32) (v' := 0x0#32) (by decide) (@and_app 29 3 _ _ _ _ _ (0#3) (@and_app 19 10 _ _ _ _ _ (0#10) BitVec.and_zero rfl) BitVec.and_zero)

theorem wait (a : BitVec 5) : Statement (.wait a) := by
  intro _ pos g
  show Fits (hAppend (hAppend (hAppend (hAppend pos g) 1120#14) a) 0#8) _
  refine ⟨⟨.wait a, 0x3E0FF#32, 0x0#32, 0x0#32⟩, ?_, rfl, ?_, ?_⟩
  · rw [rowOf_Sys (by simp (disch := decide) only [BitVec.extractLsb'_append_eq_of_add_le, BitVec.extractLsb'_append_eq_of_le]; rfl)]
    unfold rowSys
    rw [show (hAppend (hAppend (hAppend (hAppend pos g) 1120#14) a) 0#8).extractLsb' 18 4 = 3#4 from by simp (disch := decide) only [BitVec.extractLsb'_append_eq_of_add_le, BitVec.extractLsb'_append_eq_of_le]; rfl]
    show Except.ok _ = _
    simp (disch := decide) only [BitVec.extractLsb'_append_eq_of_add_le, BitVec.extractLsb'_append_eq_of_le]
    simp
  · exact BitVec.and_zero
  · exact and_mask (m := (hAppend (hAppend (hAppend 0#5 31#14) 0#5) 255#8)) (m' := 0x3E0FF#32) (v' := 0x0#32) (by decide) (@and_app 24 8 _ _ _ _ _ (0#8) (@and_app 19 5 _ _ _ _ _ (0#5) (@and_app 5 14 _ _ _ _ _ (0#14) BitVec.and_zero rfl) BitVec.and_zero) rfl)

theorem waiti (n : BitVec 8) : Statement (.waiti n) := by
  intro _ pos g
  show Fits (hAppend (hAppend (hAppend (hAppend (hAppend pos g) 36#9) (n.extractLsb' 3 5)) 0#10) (n.extractLsb' 0 3)) _
  refine ⟨⟨.waiti n, 0x1FF8#32, 0x0#32, 0x0#32⟩, ?_, rfl, ?_, ?_⟩
  · rw [rowOf_Sys (by simp (disch := decide) only [BitVec.extractLsb'_append_eq_of_add_le, BitVec.extractLsb'_append_eq_of_le]; rfl)]
    unfold rowSys
    rw [show (hAppend (hAppend (hAppend (hAppend (hAppend pos g) 36#9) (n.extractLsb' 3 5)) 0#10) (n.extractLsb' 0 3)).extractLsb' 18 4 = 4#4 from by simp (disch := decide) only [BitVec.extractLsb'_append_eq_of_add_le, BitVec.extractLsb'_append_eq_of_le]; rfl]
    show Except.ok _ = _
    simp (disch := decide) only [BitVec.extractLsb'_append_eq_of_add_le, BitVec.extractLsb'_append_eq_of_le]
    simp [split8]
  · exact BitVec.and_zero
  · exact and_mask (m := (hAppend (hAppend 0#19 1023#10) 0#3)) (m' := 0x1FF8#32) (v' := 0x0#32) (by decide) (@and_app 29 3 _ _ _ _ _ (0#3) (@and_app 19 10 _ _ _ _ _ (0#10) BitVec.and_zero rfl) BitVec.and_zero)

theorem kill (a : BitVec 5) : Statement (.kill a) := by
  intro _ pos g
  show Fits (hAppend (hAppend (hAppend (hAppend pos g) 1184#14) a) 0#8) _
  refine ⟨⟨.kill a, 0x3E0FF#32, 0x0#32, 0x0#32⟩, ?_, rfl, ?_, ?_⟩
  · rw [rowOf_Sys (by simp (disch := decide) only [BitVec.extractLsb'_append_eq_of_add_le, BitVec.extractLsb'_append_eq_of_le]; rfl)]
    unfold rowSys
    rw [show (hAppend (hAppend (hAppend (hAppend pos g) 1184#14) a) 0#8).extractLsb' 18 4 = 5#4 from by simp (disch := decide) only [BitVec.extractLsb'_append_eq_of_add_le, BitVec.extractLsb'_append_eq_of_le]; rfl]
    show Except.ok _ = _
    simp (disch := decide) only [BitVec.extractLsb'_append_eq_of_add_le, BitVec.extractLsb'_append_eq_of_le]
    simp
  · exact BitVec.and_zero
  · exact and_mask (m := (hAppend (hAppend (hAppend 0#5 31#14) 0#5) 255#8)) (m' := 0x3E0FF#32) (v' := 0x0#32) (by decide) (@and_app 24 8 _ _ _ _ _ (0#8) (@and_app 19 5 _ _ _ _ _ (0#5) (@and_app 5 14 _ _ _ _ _ (0#14) BitVec.and_zero rfl) BitVec.and_zero) rfl)

theorem killt (t : BitVec 3) (a : BitVec 5) : Statement (.killt t a) := by
  intro _ pos g
  show Fits (hAppend (hAppend (hAppend (hAppend (hAppend pos g) 152#11) t) a) 0#8) _
  refine ⟨⟨.killt t a, 0x300FF#32, 0x0#32, 0x0#32⟩, ?_, rfl, ?_, ?_⟩
  · rw [rowOf_Sys (by simp (disch := decide) only [BitVec.extractLsb'_append_eq_of_add_le, BitVec.extractLsb'_append_eq_of_le]; rfl)]
    unfold rowSys
    rw [show (hAppend (hAppend (hAppend (hAppend (hAppend pos g) 152#11) t) a) 0#8).extractLsb' 18 4 = 6#4 from by simp (disch := decide) only [BitVec.extractLsb'_append_eq_of_add_le, BitVec.extractLsb'_append_eq_of_le]; rfl]
    show Except.ok _ = _
    simp (disch := decide) only [BitVec.extractLsb'_append_eq_of_add_le, BitVec.extractLsb'_append_eq_of_le]
    simp
  · exact BitVec.and_zero
  · exact and_mask (m := (hAppend (hAppend (hAppend (hAppend 0#5 3#11) 0#3) 0#5) 255#8)) (m' := 0x300FF#32) (v' := 0x0#32) (by decide) (@and_app 24 8 _ _ _ _ _ (0#8) (@and_app 19 5 _ _ _ _ _ (0#5) (@and_app 16 3 _ _ _ _ _ (0#3) (@and_app 5 11 _ _ _ _ _ (0#11) BitVec.and_zero rfl) BitVec.and_zero) BitVec.and_zero) rfl)

theorem rdsr (d : BitVec 5) (n : BitVec 6) : Statement (.rdsr d n) := by
  intro _ pos g
  show Fits (hAppend (hAppend (hAppend (hAppend (hAppend (hAppend (hAppend pos g) 40#9) d) (n.extractLsb' 0 5)) 0#5) (n.extractLsb' 5 1)) 0#2) _
  refine ⟨⟨.rdsr d n, 0xFB#32, 0x0#32, 0x0#32⟩, ?_, rfl, ?_, ?_⟩
  · rw [rowOf_Sys (by simp (disch := decide) only [BitVec.extractLsb'_append_eq_of_add_le, BitVec.extractLsb'_append_eq_of_le]; rfl)]
    unfold rowSys
    rw [show (hAppend (hAppend (hAppend (hAppend (hAppend (hAppend (hAppend pos g) 40#9) d) (n.extractLsb' 0 5)) 0#5) (n.extractLsb' 5 1)) 0#2).extractLsb' 18 4 = 8#4 from by simp (disch := decide) only [BitVec.extractLsb'_append_eq_of_add_le, BitVec.extractLsb'_append_eq_of_le]; rfl]
    show Except.ok _ = _
    simp (disch := decide) only [BitVec.extractLsb'_append_eq_of_add_le, BitVec.extractLsb'_append_eq_of_le]
    simp [split6]
  · exact BitVec.and_zero
  · exact and_mask (m := (hAppend (hAppend (hAppend 0#24 31#5) 0#1) 3#2)) (m' := 0xFB#32) (v' := 0x0#32) (by decide) (@and_app 30 2 _ _ _ _ _ (0#2) (@and_app 29 1 _ _ _ _ _ (0#1) (@and_app 24 5 _ _ _ _ _ (0#5) BitVec.and_zero rfl) BitVec.and_zero) rfl)

theorem wrsr (n : BitVec 6) (a : BitVec 5) : Statement (.wrsr n a) := by
  intro _ pos g
  show Fits (hAppend (hAppend (hAppend (hAppend (hAppend (hAppend (hAppend pos g) 41#9) (n.extractLsb' 0 5)) a) 0#5) (n.extractLsb' 5 1)) 0#2) _
  refine ⟨⟨.wrsr n a, 0xFB#32, 0x0#32, 0x0#32⟩, ?_, rfl, ?_, ?_⟩
  · rw [rowOf_Sys (by simp (disch := decide) only [BitVec.extractLsb'_append_eq_of_add_le, BitVec.extractLsb'_append_eq_of_le]; rfl)]
    unfold rowSys
    rw [show (hAppend (hAppend (hAppend (hAppend (hAppend (hAppend (hAppend pos g) 41#9) (n.extractLsb' 0 5)) a) 0#5) (n.extractLsb' 5 1)) 0#2).extractLsb' 18 4 = 9#4 from by simp (disch := decide) only [BitVec.extractLsb'_append_eq_of_add_le, BitVec.extractLsb'_append_eq_of_le]; rfl]
    show Except.ok _ = _
    simp (disch := decide) only [BitVec.extractLsb'_append_eq_of_add_le, BitVec.extractLsb'_append_eq_of_le]
    simp [split6]
  · exact BitVec.and_zero
  · exact and_mask (m := (hAppend (hAppend (hAppend 0#24 31#5) 0#1) 3#2)) (m' := 0xFB#32) (v' := 0x0#32) (by decide) (@and_app 30 2 _ _ _ _ _ (0#2) (@and_app 29 1 _ _ _ _ _ (0#1) (@and_app 24 5 _ _ _ _ _ (0#5) BitVec.and_zero rfl) BitVec.and_zero) rfl)

theorem phase (n : BitVec 8) : Statement (.phase n) := by
  intro _ pos g
  show Fits (hAppend (hAppend (hAppend (hAppend (hAppend pos g) 42#9) (n.extractLsb' 3 5)) 0#10) (n.extractLsb' 0 3)) _
  refine ⟨⟨.phase n, 0x1FF8#32, 0x0#32, 0x0#32⟩, ?_, rfl, ?_, ?_⟩
  · rw [rowOf_Sys (by simp (disch := decide) only [BitVec.extractLsb'_append_eq_of_add_le, BitVec.extractLsb'_append_eq_of_le]; rfl)]
    unfold rowSys
    rw [show (hAppend (hAppend (hAppend (hAppend (hAppend pos g) 42#9) (n.extractLsb' 3 5)) 0#10) (n.extractLsb' 0 3)).extractLsb' 18 4 = 10#4 from by simp (disch := decide) only [BitVec.extractLsb'_append_eq_of_add_le, BitVec.extractLsb'_append_eq_of_le]; rfl]
    show Except.ok _ = _
    simp (disch := decide) only [BitVec.extractLsb'_append_eq_of_add_le, BitVec.extractLsb'_append_eq_of_le]
    simp [split8]
  · exact BitVec.and_zero
  · exact and_mask (m := (hAppend (hAppend 0#19 1023#10) 0#3)) (m' := 0x1FF8#32) (v' := 0x0#32) (by decide) (@and_app 29 3 _ _ _ _ _ (0#3) (@and_app 19 10 _ _ _ _ _ (0#10) BitVec.and_zero rfl) BitVec.and_zero)

theorem pand (d : BitVec 3) (a : BitVec 3) (b : BitVec 3) : Statement (.pand d a b) := by
  intro _ pos g
  show Fits (hAppend (hAppend (hAppend (hAppend (hAppend (hAppend pos g) 48#9) d) a) b) 0#9) _
  refine ⟨⟨.pand d a b, 0x1FF#32, 0x0#32, 0x0#32⟩, ?_, rfl, ?_, ?_⟩
  · rw [rowOf_Pred (by simp (disch := decide) only [BitVec.extractLsb'_append_eq_of_add_le, BitVec.extractLsb'_append_eq_of_le]; rfl)]
    unfold rowPred
    rw [show (hAppend (hAppend (hAppend (hAppend (hAppend (hAppend pos g) 48#9) d) a) b) 0#9).extractLsb' 18 4 = 0#4 from by simp (disch := decide) only [BitVec.extractLsb'_append_eq_of_add_le, BitVec.extractLsb'_append_eq_of_le]; rfl]
    show plainPred _ _ = _
    rw [plainPred_zero (by simp (disch := decide) only [BitVec.extractLsb'_append_eq_of_add_le, BitVec.extractLsb'_append_eq_of_le]; rfl)]
    simp (disch := decide) only [BitVec.extractLsb'_append_eq_of_add_le, BitVec.extractLsb'_append_eq_of_le]
    simp
  · exact BitVec.and_zero
  · exact and_mask (m := (hAppend 0#23 511#9)) (m' := 0x1FF#32) (v' := 0x0#32) (by decide) (@and_app 23 9 _ _ _ _ _ (0#9) BitVec.and_zero rfl)

theorem por (d : BitVec 3) (a : BitVec 3) (b : BitVec 3) : Statement (.por d a b) := by
  intro _ pos g
  show Fits (hAppend (hAppend (hAppend (hAppend (hAppend (hAppend pos g) 49#9) d) a) b) 0#9) _
  refine ⟨⟨.por d a b, 0x1FF#32, 0x0#32, 0x0#32⟩, ?_, rfl, ?_, ?_⟩
  · rw [rowOf_Pred (by simp (disch := decide) only [BitVec.extractLsb'_append_eq_of_add_le, BitVec.extractLsb'_append_eq_of_le]; rfl)]
    unfold rowPred
    rw [show (hAppend (hAppend (hAppend (hAppend (hAppend (hAppend pos g) 49#9) d) a) b) 0#9).extractLsb' 18 4 = 1#4 from by simp (disch := decide) only [BitVec.extractLsb'_append_eq_of_add_le, BitVec.extractLsb'_append_eq_of_le]; rfl]
    show plainPred _ _ = _
    rw [plainPred_zero (by simp (disch := decide) only [BitVec.extractLsb'_append_eq_of_add_le, BitVec.extractLsb'_append_eq_of_le]; rfl)]
    simp (disch := decide) only [BitVec.extractLsb'_append_eq_of_add_le, BitVec.extractLsb'_append_eq_of_le]
    simp
  · exact BitVec.and_zero
  · exact and_mask (m := (hAppend 0#23 511#9)) (m' := 0x1FF#32) (v' := 0x0#32) (by decide) (@and_app 23 9 _ _ _ _ _ (0#9) BitVec.and_zero rfl)

theorem pxor (d : BitVec 3) (a : BitVec 3) (b : BitVec 3) : Statement (.pxor d a b) := by
  intro _ pos g
  show Fits (hAppend (hAppend (hAppend (hAppend (hAppend (hAppend pos g) 50#9) d) a) b) 0#9) _
  refine ⟨⟨.pxor d a b, 0x1FF#32, 0x0#32, 0x0#32⟩, ?_, rfl, ?_, ?_⟩
  · rw [rowOf_Pred (by simp (disch := decide) only [BitVec.extractLsb'_append_eq_of_add_le, BitVec.extractLsb'_append_eq_of_le]; rfl)]
    unfold rowPred
    rw [show (hAppend (hAppend (hAppend (hAppend (hAppend (hAppend pos g) 50#9) d) a) b) 0#9).extractLsb' 18 4 = 2#4 from by simp (disch := decide) only [BitVec.extractLsb'_append_eq_of_add_le, BitVec.extractLsb'_append_eq_of_le]; rfl]
    show plainPred _ _ = _
    rw [plainPred_zero (by simp (disch := decide) only [BitVec.extractLsb'_append_eq_of_add_le, BitVec.extractLsb'_append_eq_of_le]; rfl)]
    simp (disch := decide) only [BitVec.extractLsb'_append_eq_of_add_le, BitVec.extractLsb'_append_eq_of_le]
    simp
  · exact BitVec.and_zero
  · exact and_mask (m := (hAppend 0#23 511#9)) (m' := 0x1FF#32) (v' := 0x0#32) (by decide) (@and_app 23 9 _ _ _ _ _ (0#9) BitVec.and_zero rfl)

theorem pnot (d : BitVec 3) (a : BitVec 3) : Statement (.pnot d a) := by
  intro _ pos g
  show Fits (hAppend (hAppend (hAppend (hAppend (hAppend pos g) 51#9) d) a) 0#12) _
  refine ⟨⟨.pnot d a, 0xFFF#32, 0x0#32, 0x0#32⟩, ?_, rfl, ?_, ?_⟩
  · rw [rowOf_Pred (by simp (disch := decide) only [BitVec.extractLsb'_append_eq_of_add_le, BitVec.extractLsb'_append_eq_of_le]; rfl)]
    unfold rowPred
    rw [show (hAppend (hAppend (hAppend (hAppend (hAppend pos g) 51#9) d) a) 0#12).extractLsb' 18 4 = 3#4 from by simp (disch := decide) only [BitVec.extractLsb'_append_eq_of_add_le, BitVec.extractLsb'_append_eq_of_le]; rfl]
    show plainPred _ _ = _
    rw [plainPred_zero (by simp (disch := decide) only [BitVec.extractLsb'_append_eq_of_add_le, BitVec.extractLsb'_append_eq_of_le]; rfl)]
    simp (disch := decide) only [BitVec.extractLsb'_append_eq_of_add_le, BitVec.extractLsb'_append_eq_of_le]
    simp
  · exact BitVec.and_zero
  · exact and_mask (m := (hAppend 0#20 4095#12)) (m' := 0xFFF#32) (v' := 0x0#32) (by decide) (@and_app 20 12 _ _ _ _ _ (0#12) BitVec.and_zero rfl)

theorem pmov (d : BitVec 3) (a : BitVec 3) : Statement (.pmov d a) := by
  intro _ pos g
  show Fits (hAppend (hAppend (hAppend (hAppend (hAppend pos g) 52#9) d) a) 0#12) _
  refine ⟨⟨.pmov d a, 0xFFF#32, 0x0#32, 0x0#32⟩, ?_, rfl, ?_, ?_⟩
  · rw [rowOf_Pred (by simp (disch := decide) only [BitVec.extractLsb'_append_eq_of_add_le, BitVec.extractLsb'_append_eq_of_le]; rfl)]
    unfold rowPred
    rw [show (hAppend (hAppend (hAppend (hAppend (hAppend pos g) 52#9) d) a) 0#12).extractLsb' 18 4 = 4#4 from by simp (disch := decide) only [BitVec.extractLsb'_append_eq_of_add_le, BitVec.extractLsb'_append_eq_of_le]; rfl]
    show plainPred _ _ = _
    rw [plainPred_zero (by simp (disch := decide) only [BitVec.extractLsb'_append_eq_of_add_le, BitVec.extractLsb'_append_eq_of_le]; rfl)]
    simp (disch := decide) only [BitVec.extractLsb'_append_eq_of_add_le, BitVec.extractLsb'_append_eq_of_le]
    simp
  · exact BitVec.and_zero
  · exact and_mask (m := (hAppend 0#20 4095#12)) (m' := 0xFFF#32) (v' := 0x0#32) (by decide) (@and_app 20 12 _ _ _ _ _ (0#12) BitVec.and_zero rfl)

theorem vany (d : BitVec 3) (a : BitVec 3) (b : BitVec 3) : Statement (.vany d a b) := by
  intro _ pos g
  show Fits (hAppend (hAppend (hAppend (hAppend (hAppend (hAppend pos g) 53#9) d) a) b) 0#9) _
  refine ⟨⟨.vany d a b, 0x1FF#32, 0x0#32, 0x0#32⟩, ?_, rfl, ?_, ?_⟩
  · rw [rowOf_Pred (by simp (disch := decide) only [BitVec.extractLsb'_append_eq_of_add_le, BitVec.extractLsb'_append_eq_of_le]; rfl)]
    unfold rowPred
    rw [show (hAppend (hAppend (hAppend (hAppend (hAppend (hAppend pos g) 53#9) d) a) b) 0#9).extractLsb' 18 4 = 5#4 from by simp (disch := decide) only [BitVec.extractLsb'_append_eq_of_add_le, BitVec.extractLsb'_append_eq_of_le]; rfl]
    show plainPred _ _ = _
    rw [plainPred_zero (by simp (disch := decide) only [BitVec.extractLsb'_append_eq_of_add_le, BitVec.extractLsb'_append_eq_of_le]; rfl)]
    simp (disch := decide) only [BitVec.extractLsb'_append_eq_of_add_le, BitVec.extractLsb'_append_eq_of_le]
    simp
  · exact BitVec.and_zero
  · exact and_mask (m := (hAppend 0#23 511#9)) (m' := 0x1FF#32) (v' := 0x0#32) (by decide) (@and_app 23 9 _ _ _ _ _ (0#9) BitVec.and_zero rfl)

theorem vall (d : BitVec 3) (a : BitVec 3) (b : BitVec 3) : Statement (.vall d a b) := by
  intro _ pos g
  show Fits (hAppend (hAppend (hAppend (hAppend (hAppend (hAppend pos g) 54#9) d) a) b) 0#9) _
  refine ⟨⟨.vall d a b, 0x1FF#32, 0x0#32, 0x0#32⟩, ?_, rfl, ?_, ?_⟩
  · rw [rowOf_Pred (by simp (disch := decide) only [BitVec.extractLsb'_append_eq_of_add_le, BitVec.extractLsb'_append_eq_of_le]; rfl)]
    unfold rowPred
    rw [show (hAppend (hAppend (hAppend (hAppend (hAppend (hAppend pos g) 54#9) d) a) b) 0#9).extractLsb' 18 4 = 6#4 from by simp (disch := decide) only [BitVec.extractLsb'_append_eq_of_add_le, BitVec.extractLsb'_append_eq_of_le]; rfl]
    show plainPred _ _ = _
    rw [plainPred_zero (by simp (disch := decide) only [BitVec.extractLsb'_append_eq_of_add_le, BitVec.extractLsb'_append_eq_of_le]; rfl)]
    simp (disch := decide) only [BitVec.extractLsb'_append_eq_of_add_le, BitVec.extractLsb'_append_eq_of_le]
    simp
  · exact BitVec.and_zero
  · exact and_mask (m := (hAppend 0#23 511#9)) (m' := 0x1FF#32) (v' := 0x0#32) (by decide) (@and_app 23 9 _ _ _ _ _ (0#9) BitVec.and_zero rfl)

theorem pfirst (d : BitVec 3) (a : BitVec 3) (b : BitVec 3) (e : BitVec 2) : Statement (.pfirst d a b e) := by
  intro _ pos g
  show Fits (hAppend (hAppend (hAppend (hAppend (hAppend (hAppend (hAppend (hAppend pos g) 55#9) d) a) b) 0#5) e) 0#2) _
  refine ⟨⟨.pfirst d a b e, 0x1F3#32, 0x0#32, 0x0#32⟩, ?_, rfl, ?_, ?_⟩
  · rw [rowOf_Pred (by simp (disch := decide) only [BitVec.extractLsb'_append_eq_of_add_le, BitVec.extractLsb'_append_eq_of_le]; rfl)]
    unfold rowPred
    rw [show (hAppend (hAppend (hAppend (hAppend (hAppend (hAppend (hAppend (hAppend pos g) 55#9) d) a) b) 0#5) e) 0#2).extractLsb' 18 4 = 7#4 from by simp (disch := decide) only [BitVec.extractLsb'_append_eq_of_add_le, BitVec.extractLsb'_append_eq_of_le]; rfl]
    show Except.ok _ = _
    simp (disch := decide) only [BitVec.extractLsb'_append_eq_of_add_le, BitVec.extractLsb'_append_eq_of_le]
    simp
  · exact BitVec.and_zero
  · exact and_mask (m := (hAppend (hAppend (hAppend 0#23 31#5) 0#2) 3#2)) (m' := 0x1F3#32) (v' := 0x0#32) (by decide) (@and_app 30 2 _ _ _ _ _ (0#2) (@and_app 28 2 _ _ _ _ _ (0#2) (@and_app 23 5 _ _ _ _ _ (0#5) BitVec.and_zero rfl) BitVec.and_zero) rfl)

theorem pcnt (a : BitVec 3) (b : BitVec 3) (d : BitVec 5) (e : BitVec 2) : Statement (.pcnt a b d e) := by
  intro _ pos g
  show Fits (hAppend (hAppend (hAppend (hAppend (hAppend (hAppend (hAppend pos g) 448#12) a) b) d) e) 0#2) _
  refine ⟨⟨.pcnt a b d e, 0x38003#32, 0x0#32, 0x0#32⟩, ?_, rfl, ?_, ?_⟩
  · rw [rowOf_Pred (by simp (disch := decide) only [BitVec.extractLsb'_append_eq_of_add_le, BitVec.extractLsb'_append_eq_of_le]; rfl)]
    unfold rowPred
    rw [show (hAppend (hAppend (hAppend (hAppend (hAppend (hAppend (hAppend pos g) 448#12) a) b) d) e) 0#2).extractLsb' 18 4 = 8#4 from by simp (disch := decide) only [BitVec.extractLsb'_append_eq_of_add_le, BitVec.extractLsb'_append_eq_of_le]; rfl]
    show Except.ok _ = _
    simp (disch := decide) only [BitVec.extractLsb'_append_eq_of_add_le, BitVec.extractLsb'_append_eq_of_le]
    simp
  · exact BitVec.and_zero
  · exact and_mask (m := (hAppend (hAppend (hAppend (hAppend (hAppend (hAppend 0#5 7#12) 0#3) 0#3) 0#5) 0#2) 3#2)) (m' := 0x38003#32) (v' := 0x0#32) (by decide) (@and_app 30 2 _ _ _ _ _ (0#2) (@and_app 28 2 _ _ _ _ _ (0#2) (@and_app 23 5 _ _ _ _ _ (0#5) (@and_app 20 3 _ _ _ _ _ (0#3) (@and_app 17 3 _ _ _ _ _ (0#3) (@and_app 5 12 _ _ _ _ _ (0#12) BitVec.and_zero rfl) BitVec.and_zero) BitVec.and_zero) BitVec.and_zero) BitVec.and_zero) rfl)

theorem add (d : BitVec 5) (a : BitVec 5) (b : BitVec 5) (v : BitVec 2) : Statement (.add d a b v) := by
  intro _ pos g
  show Fits (hAppend (hAppend (hAppend (hAppend (hAppend (hAppend (hAppend pos g) 64#9) d) a) b) 0#1) v) _
  refine ⟨⟨.add d a b v, 0x4#32, 0x0#32, 0x0#32⟩, ?_, rfl, ?_, ?_⟩
  · rw [rowOf_Int (by simp (disch := decide) only [BitVec.extractLsb'_append_eq_of_add_le, BitVec.extractLsb'_append_eq_of_le]; rfl)]
    unfold rowInt
    rw [show (hAppend (hAppend (hAppend (hAppend (hAppend (hAppend (hAppend pos g) 64#9) d) a) b) 0#1) v).extractLsb' 18 4 = 0#4 from by simp (disch := decide) only [BitVec.extractLsb'_append_eq_of_add_le, BitVec.extractLsb'_append_eq_of_le]; rfl]
    show Except.ok _ = _
    simp (disch := decide) only [BitVec.extractLsb'_append_eq_of_add_le, BitVec.extractLsb'_append_eq_of_le]
    simp
  · exact BitVec.and_zero
  · exact and_mask (m := (hAppend (hAppend 0#29 1#1) 0#2)) (m' := 0x4#32) (v' := 0x0#32) (by decide) (@and_app 30 2 _ _ _ _ _ (0#2) (@and_app 29 1 _ _ _ _ _ (0#1) BitVec.and_zero rfl) BitVec.and_zero)

theorem sub (d : BitVec 5) (a : BitVec 5) (b : BitVec 5) (v : BitVec 2) : Statement (.sub d a b v) := by
  intro _ pos g
  show Fits (hAppend (hAppend (hAppend (hAppend (hAppend (hAppend (hAppend pos g) 65#9) d) a) b) 0#1) v) _
  refine ⟨⟨.sub d a b v, 0x4#32, 0x0#32, 0x0#32⟩, ?_, rfl, ?_, ?_⟩
  · rw [rowOf_Int (by simp (disch := decide) only [BitVec.extractLsb'_append_eq_of_add_le, BitVec.extractLsb'_append_eq_of_le]; rfl)]
    unfold rowInt
    rw [show (hAppend (hAppend (hAppend (hAppend (hAppend (hAppend (hAppend pos g) 65#9) d) a) b) 0#1) v).extractLsb' 18 4 = 1#4 from by simp (disch := decide) only [BitVec.extractLsb'_append_eq_of_add_le, BitVec.extractLsb'_append_eq_of_le]; rfl]
    show Except.ok _ = _
    simp (disch := decide) only [BitVec.extractLsb'_append_eq_of_add_le, BitVec.extractLsb'_append_eq_of_le]
    simp
  · exact BitVec.and_zero
  · exact and_mask (m := (hAppend (hAppend 0#29 1#1) 0#2)) (m' := 0x4#32) (v' := 0x0#32) (by decide) (@and_app 30 2 _ _ _ _ _ (0#2) (@and_app 29 1 _ _ _ _ _ (0#1) BitVec.and_zero rfl) BitVec.and_zero)

theorem mul (d : BitVec 5) (a : BitVec 5) (b : BitVec 5) : Statement (.mul d a b) := by
  intro _ pos g
  show Fits (hAppend (hAppend (hAppend (hAppend (hAppend (hAppend pos g) 66#9) d) a) b) 0#3) _
  refine ⟨⟨.mul d a b, 0x4#32, 0x0#32, 0x3#32⟩, ?_, rfl, ?_, ?_⟩
  · rw [rowOf_Int (by simp (disch := decide) only [BitVec.extractLsb'_append_eq_of_add_le, BitVec.extractLsb'_append_eq_of_le]; rfl)]
    unfold rowInt
    rw [show (hAppend (hAppend (hAppend (hAppend (hAppend (hAppend pos g) 66#9) d) a) b) 0#3).extractLsb' 18 4 = 2#4 from by simp (disch := decide) only [BitVec.extractLsb'_append_eq_of_add_le, BitVec.extractLsb'_append_eq_of_le]; rfl]
    show Except.ok _ = _
    simp (disch := decide) only [BitVec.extractLsb'_append_eq_of_add_le, BitVec.extractLsb'_append_eq_of_le]
    simp
  · exact and_mask (m := (hAppend 0#29 3#3)) (m' := 0x3#32) (v' := 0x0#32) (by decide) (@and_app 29 3 _ _ _ _ _ (0#3) BitVec.and_zero rfl)
  · exact and_mask (m := (hAppend 0#29 4#3)) (m' := 0x4#32) (v' := 0x0#32) (by decide) (@and_app 29 3 _ _ _ _ _ (0#3) BitVec.and_zero rfl)

theorem mulh (d : BitVec 5) (a : BitVec 5) (b : BitVec 5) : Statement (.mulh d a b) := by
  intro _ pos g
  show Fits (hAppend (hAppend (hAppend (hAppend (hAppend (hAppend pos g) 67#9) d) a) b) 0#3) _
  refine ⟨⟨.mulh d a b, 0x4#32, 0x0#32, 0x3#32⟩, ?_, rfl, ?_, ?_⟩
  · rw [rowOf_Int (by simp (disch := decide) only [BitVec.extractLsb'_append_eq_of_add_le, BitVec.extractLsb'_append_eq_of_le]; rfl)]
    unfold rowInt
    rw [show (hAppend (hAppend (hAppend (hAppend (hAppend (hAppend pos g) 67#9) d) a) b) 0#3).extractLsb' 18 4 = 3#4 from by simp (disch := decide) only [BitVec.extractLsb'_append_eq_of_add_le, BitVec.extractLsb'_append_eq_of_le]; rfl]
    show Except.ok _ = _
    simp (disch := decide) only [BitVec.extractLsb'_append_eq_of_add_le, BitVec.extractLsb'_append_eq_of_le]
    simp
  · exact and_mask (m := (hAppend 0#29 3#3)) (m' := 0x3#32) (v' := 0x0#32) (by decide) (@and_app 29 3 _ _ _ _ _ (0#3) BitVec.and_zero rfl)
  · exact and_mask (m := (hAppend 0#29 4#3)) (m' := 0x4#32) (v' := 0x0#32) (by decide) (@and_app 29 3 _ _ _ _ _ (0#3) BitVec.and_zero rfl)

theorem mulhu (d : BitVec 5) (a : BitVec 5) (b : BitVec 5) : Statement (.mulhu d a b) := by
  intro _ pos g
  show Fits (hAppend (hAppend (hAppend (hAppend (hAppend (hAppend pos g) 68#9) d) a) b) 0#3) _
  refine ⟨⟨.mulhu d a b, 0x4#32, 0x0#32, 0x3#32⟩, ?_, rfl, ?_, ?_⟩
  · rw [rowOf_Int (by simp (disch := decide) only [BitVec.extractLsb'_append_eq_of_add_le, BitVec.extractLsb'_append_eq_of_le]; rfl)]
    unfold rowInt
    rw [show (hAppend (hAppend (hAppend (hAppend (hAppend (hAppend pos g) 68#9) d) a) b) 0#3).extractLsb' 18 4 = 4#4 from by simp (disch := decide) only [BitVec.extractLsb'_append_eq_of_add_le, BitVec.extractLsb'_append_eq_of_le]; rfl]
    show Except.ok _ = _
    simp (disch := decide) only [BitVec.extractLsb'_append_eq_of_add_le, BitVec.extractLsb'_append_eq_of_le]
    simp
  · exact and_mask (m := (hAppend 0#29 3#3)) (m' := 0x3#32) (v' := 0x0#32) (by decide) (@and_app 29 3 _ _ _ _ _ (0#3) BitVec.and_zero rfl)
  · exact and_mask (m := (hAppend 0#29 4#3)) (m' := 0x4#32) (v' := 0x0#32) (by decide) (@and_app 29 3 _ _ _ _ _ (0#3) BitVec.and_zero rfl)

theorem div (d : BitVec 5) (a : BitVec 5) (b : BitVec 5) (v : BitVec 1) : Statement (.div d a b v) := by
  intro _ pos g
  show Fits (hAppend (hAppend (hAppend (hAppend (hAppend (hAppend (hAppend pos g) 69#9) d) a) b) 0#2) v) _
  refine ⟨⟨.div d a b v, 0x4#32, 0x0#32, 0x2#32⟩, ?_, rfl, ?_, ?_⟩
  · rw [rowOf_Int (by simp (disch := decide) only [BitVec.extractLsb'_append_eq_of_add_le, BitVec.extractLsb'_append_eq_of_le]; rfl)]
    unfold rowInt
    rw [show (hAppend (hAppend (hAppend (hAppend (hAppend (hAppend (hAppend pos g) 69#9) d) a) b) 0#2) v).extractLsb' 18 4 = 5#4 from by simp (disch := decide) only [BitVec.extractLsb'_append_eq_of_add_le, BitVec.extractLsb'_append_eq_of_le]; rfl]
    show Except.ok _ = _
    simp (disch := decide) only [BitVec.extractLsb'_append_eq_of_add_le, BitVec.extractLsb'_append_eq_of_le]
    simp
  · exact and_mask (m := (hAppend (hAppend 0#29 1#2) 0#1)) (m' := 0x2#32) (v' := 0x0#32) (by decide) (@and_app 31 1 _ _ _ _ _ (0#1) (@and_app 29 2 _ _ _ _ _ (0#2) BitVec.and_zero rfl) BitVec.and_zero)
  · exact and_mask (m := (hAppend (hAppend 0#29 2#2) 0#1)) (m' := 0x4#32) (v' := 0x0#32) (by decide) (@and_app 31 1 _ _ _ _ _ (0#1) (@and_app 29 2 _ _ _ _ _ (0#2) BitVec.and_zero rfl) BitVec.and_zero)

theorem divu (d : BitVec 5) (a : BitVec 5) (b : BitVec 5) (v : BitVec 1) : Statement (.divu d a b v) := by
  intro _ pos g
  show Fits (hAppend (hAppend (hAppend (hAppend (hAppend (hAppend (hAppend pos g) 70#9) d) a) b) 0#2) v) _
  refine ⟨⟨.divu d a b v, 0x4#32, 0x0#32, 0x2#32⟩, ?_, rfl, ?_, ?_⟩
  · rw [rowOf_Int (by simp (disch := decide) only [BitVec.extractLsb'_append_eq_of_add_le, BitVec.extractLsb'_append_eq_of_le]; rfl)]
    unfold rowInt
    rw [show (hAppend (hAppend (hAppend (hAppend (hAppend (hAppend (hAppend pos g) 70#9) d) a) b) 0#2) v).extractLsb' 18 4 = 6#4 from by simp (disch := decide) only [BitVec.extractLsb'_append_eq_of_add_le, BitVec.extractLsb'_append_eq_of_le]; rfl]
    show Except.ok _ = _
    simp (disch := decide) only [BitVec.extractLsb'_append_eq_of_add_le, BitVec.extractLsb'_append_eq_of_le]
    simp
  · exact and_mask (m := (hAppend (hAppend 0#29 1#2) 0#1)) (m' := 0x2#32) (v' := 0x0#32) (by decide) (@and_app 31 1 _ _ _ _ _ (0#1) (@and_app 29 2 _ _ _ _ _ (0#2) BitVec.and_zero rfl) BitVec.and_zero)
  · exact and_mask (m := (hAppend (hAppend 0#29 2#2) 0#1)) (m' := 0x4#32) (v' := 0x0#32) (by decide) (@and_app 31 1 _ _ _ _ _ (0#1) (@and_app 29 2 _ _ _ _ _ (0#2) BitVec.and_zero rfl) BitVec.and_zero)

theorem and (d : BitVec 5) (a : BitVec 5) (b : BitVec 5) : Statement (.and d a b) := by
  intro _ pos g
  show Fits (hAppend (hAppend (hAppend (hAppend (hAppend (hAppend pos g) 71#9) d) a) b) 0#3) _
  refine ⟨⟨.and d a b, 0x4#32, 0x0#32, 0x3#32⟩, ?_, rfl, ?_, ?_⟩
  · rw [rowOf_Int (by simp (disch := decide) only [BitVec.extractLsb'_append_eq_of_add_le, BitVec.extractLsb'_append_eq_of_le]; rfl)]
    unfold rowInt
    rw [show (hAppend (hAppend (hAppend (hAppend (hAppend (hAppend pos g) 71#9) d) a) b) 0#3).extractLsb' 18 4 = 7#4 from by simp (disch := decide) only [BitVec.extractLsb'_append_eq_of_add_le, BitVec.extractLsb'_append_eq_of_le]; rfl]
    show Except.ok _ = _
    simp (disch := decide) only [BitVec.extractLsb'_append_eq_of_add_le, BitVec.extractLsb'_append_eq_of_le]
    simp
  · exact and_mask (m := (hAppend 0#29 3#3)) (m' := 0x3#32) (v' := 0x0#32) (by decide) (@and_app 29 3 _ _ _ _ _ (0#3) BitVec.and_zero rfl)
  · exact and_mask (m := (hAppend 0#29 4#3)) (m' := 0x4#32) (v' := 0x0#32) (by decide) (@and_app 29 3 _ _ _ _ _ (0#3) BitVec.and_zero rfl)

theorem or (d : BitVec 5) (a : BitVec 5) (b : BitVec 5) : Statement (.or d a b) := by
  intro _ pos g
  show Fits (hAppend (hAppend (hAppend (hAppend (hAppend (hAppend pos g) 72#9) d) a) b) 0#3) _
  refine ⟨⟨.or d a b, 0x4#32, 0x0#32, 0x3#32⟩, ?_, rfl, ?_, ?_⟩
  · rw [rowOf_Int (by simp (disch := decide) only [BitVec.extractLsb'_append_eq_of_add_le, BitVec.extractLsb'_append_eq_of_le]; rfl)]
    unfold rowInt
    rw [show (hAppend (hAppend (hAppend (hAppend (hAppend (hAppend pos g) 72#9) d) a) b) 0#3).extractLsb' 18 4 = 8#4 from by simp (disch := decide) only [BitVec.extractLsb'_append_eq_of_add_le, BitVec.extractLsb'_append_eq_of_le]; rfl]
    show Except.ok _ = _
    simp (disch := decide) only [BitVec.extractLsb'_append_eq_of_add_le, BitVec.extractLsb'_append_eq_of_le]
    simp
  · exact and_mask (m := (hAppend 0#29 3#3)) (m' := 0x3#32) (v' := 0x0#32) (by decide) (@and_app 29 3 _ _ _ _ _ (0#3) BitVec.and_zero rfl)
  · exact and_mask (m := (hAppend 0#29 4#3)) (m' := 0x4#32) (v' := 0x0#32) (by decide) (@and_app 29 3 _ _ _ _ _ (0#3) BitVec.and_zero rfl)

theorem xor (d : BitVec 5) (a : BitVec 5) (b : BitVec 5) : Statement (.xor d a b) := by
  intro _ pos g
  show Fits (hAppend (hAppend (hAppend (hAppend (hAppend (hAppend pos g) 73#9) d) a) b) 0#3) _
  refine ⟨⟨.xor d a b, 0x4#32, 0x0#32, 0x3#32⟩, ?_, rfl, ?_, ?_⟩
  · rw [rowOf_Int (by simp (disch := decide) only [BitVec.extractLsb'_append_eq_of_add_le, BitVec.extractLsb'_append_eq_of_le]; rfl)]
    unfold rowInt
    rw [show (hAppend (hAppend (hAppend (hAppend (hAppend (hAppend pos g) 73#9) d) a) b) 0#3).extractLsb' 18 4 = 9#4 from by simp (disch := decide) only [BitVec.extractLsb'_append_eq_of_add_le, BitVec.extractLsb'_append_eq_of_le]; rfl]
    show Except.ok _ = _
    simp (disch := decide) only [BitVec.extractLsb'_append_eq_of_add_le, BitVec.extractLsb'_append_eq_of_le]
    simp
  · exact and_mask (m := (hAppend 0#29 3#3)) (m' := 0x3#32) (v' := 0x0#32) (by decide) (@and_app 29 3 _ _ _ _ _ (0#3) BitVec.and_zero rfl)
  · exact and_mask (m := (hAppend 0#29 4#3)) (m' := 0x4#32) (v' := 0x0#32) (by decide) (@and_app 29 3 _ _ _ _ _ (0#3) BitVec.and_zero rfl)

theorem min (d : BitVec 5) (a : BitVec 5) (b : BitVec 5) : Statement (.min d a b) := by
  intro _ pos g
  show Fits (hAppend (hAppend (hAppend (hAppend (hAppend (hAppend pos g) 74#9) d) a) b) 0#3) _
  refine ⟨⟨.min d a b, 0x4#32, 0x0#32, 0x3#32⟩, ?_, rfl, ?_, ?_⟩
  · rw [rowOf_Int (by simp (disch := decide) only [BitVec.extractLsb'_append_eq_of_add_le, BitVec.extractLsb'_append_eq_of_le]; rfl)]
    unfold rowInt
    rw [show (hAppend (hAppend (hAppend (hAppend (hAppend (hAppend pos g) 74#9) d) a) b) 0#3).extractLsb' 18 4 = 10#4 from by simp (disch := decide) only [BitVec.extractLsb'_append_eq_of_add_le, BitVec.extractLsb'_append_eq_of_le]; rfl]
    show Except.ok _ = _
    simp (disch := decide) only [BitVec.extractLsb'_append_eq_of_add_le, BitVec.extractLsb'_append_eq_of_le]
    simp
  · exact and_mask (m := (hAppend 0#29 3#3)) (m' := 0x3#32) (v' := 0x0#32) (by decide) (@and_app 29 3 _ _ _ _ _ (0#3) BitVec.and_zero rfl)
  · exact and_mask (m := (hAppend 0#29 4#3)) (m' := 0x4#32) (v' := 0x0#32) (by decide) (@and_app 29 3 _ _ _ _ _ (0#3) BitVec.and_zero rfl)

theorem max (d : BitVec 5) (a : BitVec 5) (b : BitVec 5) : Statement (.max d a b) := by
  intro _ pos g
  show Fits (hAppend (hAppend (hAppend (hAppend (hAppend (hAppend pos g) 75#9) d) a) b) 0#3) _
  refine ⟨⟨.max d a b, 0x4#32, 0x0#32, 0x3#32⟩, ?_, rfl, ?_, ?_⟩
  · rw [rowOf_Int (by simp (disch := decide) only [BitVec.extractLsb'_append_eq_of_add_le, BitVec.extractLsb'_append_eq_of_le]; rfl)]
    unfold rowInt
    rw [show (hAppend (hAppend (hAppend (hAppend (hAppend (hAppend pos g) 75#9) d) a) b) 0#3).extractLsb' 18 4 = 11#4 from by simp (disch := decide) only [BitVec.extractLsb'_append_eq_of_add_le, BitVec.extractLsb'_append_eq_of_le]; rfl]
    show Except.ok _ = _
    simp (disch := decide) only [BitVec.extractLsb'_append_eq_of_add_le, BitVec.extractLsb'_append_eq_of_le]
    simp
  · exact and_mask (m := (hAppend 0#29 3#3)) (m' := 0x3#32) (v' := 0x0#32) (by decide) (@and_app 29 3 _ _ _ _ _ (0#3) BitVec.and_zero rfl)
  · exact and_mask (m := (hAppend 0#29 4#3)) (m' := 0x4#32) (v' := 0x0#32) (by decide) (@and_app 29 3 _ _ _ _ _ (0#3) BitVec.and_zero rfl)

theorem minu (d : BitVec 5) (a : BitVec 5) (b : BitVec 5) : Statement (.minu d a b) := by
  intro _ pos g
  show Fits (hAppend (hAppend (hAppend (hAppend (hAppend (hAppend pos g) 76#9) d) a) b) 0#3) _
  refine ⟨⟨.minu d a b, 0x4#32, 0x0#32, 0x3#32⟩, ?_, rfl, ?_, ?_⟩
  · rw [rowOf_Int (by simp (disch := decide) only [BitVec.extractLsb'_append_eq_of_add_le, BitVec.extractLsb'_append_eq_of_le]; rfl)]
    unfold rowInt
    rw [show (hAppend (hAppend (hAppend (hAppend (hAppend (hAppend pos g) 76#9) d) a) b) 0#3).extractLsb' 18 4 = 12#4 from by simp (disch := decide) only [BitVec.extractLsb'_append_eq_of_add_le, BitVec.extractLsb'_append_eq_of_le]; rfl]
    show Except.ok _ = _
    simp (disch := decide) only [BitVec.extractLsb'_append_eq_of_add_le, BitVec.extractLsb'_append_eq_of_le]
    simp
  · exact and_mask (m := (hAppend 0#29 3#3)) (m' := 0x3#32) (v' := 0x0#32) (by decide) (@and_app 29 3 _ _ _ _ _ (0#3) BitVec.and_zero rfl)
  · exact and_mask (m := (hAppend 0#29 4#3)) (m' := 0x4#32) (v' := 0x0#32) (by decide) (@and_app 29 3 _ _ _ _ _ (0#3) BitVec.and_zero rfl)

theorem maxu (d : BitVec 5) (a : BitVec 5) (b : BitVec 5) : Statement (.maxu d a b) := by
  intro _ pos g
  show Fits (hAppend (hAppend (hAppend (hAppend (hAppend (hAppend pos g) 77#9) d) a) b) 0#3) _
  refine ⟨⟨.maxu d a b, 0x4#32, 0x0#32, 0x3#32⟩, ?_, rfl, ?_, ?_⟩
  · rw [rowOf_Int (by simp (disch := decide) only [BitVec.extractLsb'_append_eq_of_add_le, BitVec.extractLsb'_append_eq_of_le]; rfl)]
    unfold rowInt
    rw [show (hAppend (hAppend (hAppend (hAppend (hAppend (hAppend pos g) 77#9) d) a) b) 0#3).extractLsb' 18 4 = 13#4 from by simp (disch := decide) only [BitVec.extractLsb'_append_eq_of_add_le, BitVec.extractLsb'_append_eq_of_le]; rfl]
    show Except.ok _ = _
    simp (disch := decide) only [BitVec.extractLsb'_append_eq_of_add_le, BitVec.extractLsb'_append_eq_of_le]
    simp
  · exact and_mask (m := (hAppend 0#29 3#3)) (m' := 0x3#32) (v' := 0x0#32) (by decide) (@and_app 29 3 _ _ _ _ _ (0#3) BitVec.and_zero rfl)
  · exact and_mask (m := (hAppend 0#29 4#3)) (m' := 0x4#32) (v' := 0x0#32) (by decide) (@and_app 29 3 _ _ _ _ _ (0#3) BitVec.and_zero rfl)

theorem sel (d : BitVec 5) (a : BitVec 5) (b : BitVec 5) (c : BitVec 3) : Statement (.sel d a b c) := by
  intro _ pos g
  show Fits (hAppend (hAppend (hAppend (hAppend (hAppend (hAppend pos g) 78#9) d) a) b) c) _
  refine ⟨⟨.sel d a b c, 0x0#32, 0x0#32, 0x0#32⟩, ?_, rfl, ?_, ?_⟩
  · rw [rowOf_Int (by simp (disch := decide) only [BitVec.extractLsb'_append_eq_of_add_le, BitVec.extractLsb'_append_eq_of_le]; rfl)]
    unfold rowInt
    rw [show (hAppend (hAppend (hAppend (hAppend (hAppend (hAppend pos g) 78#9) d) a) b) c).extractLsb' 18 4 = 14#4 from by simp (disch := decide) only [BitVec.extractLsb'_append_eq_of_add_le, BitVec.extractLsb'_append_eq_of_le]; rfl]
    show Except.ok _ = _
    simp (disch := decide) only [BitVec.extractLsb'_append_eq_of_add_le, BitVec.extractLsb'_append_eq_of_le]
    simp
  · exact BitVec.and_zero
  · exact BitVec.and_zero

theorem addi (d : BitVec 5) (a : BitVec 5) (i : BitVec 9) : Statement (.addi d a i) := by
  intro _ pos g
  show Fits (hAppend (hAppend (hAppend (hAppend (hAppend (hAppend pos g) 5#5) d) a) 0#3) i) _
  refine ⟨⟨.addi d a i, 0x0#32, 0x0#32, 0x0#32⟩, ?_, rfl, ?_, ?_⟩
  · rw [rowOf_Inti (by simp (disch := decide) only [BitVec.extractLsb'_append_eq_of_add_le, BitVec.extractLsb'_append_eq_of_le]; rfl)]
    unfold rowInti
    rw [show (hAppend (hAppend (hAppend (hAppend (hAppend (hAppend pos g) 5#5) d) a) 0#3) i).extractLsb' 9 3 = 0#3 from by simp (disch := decide) only [BitVec.extractLsb'_append_eq_of_add_le, BitVec.extractLsb'_append_eq_of_le]; rfl]
    show Except.ok _ = _
    simp (disch := decide) only [BitVec.extractLsb'_append_eq_of_add_le, BitVec.extractLsb'_append_eq_of_le]
    simp
  · exact BitVec.and_zero
  · exact BitVec.and_zero

theorem andi (d : BitVec 5) (a : BitVec 5) (i : BitVec 9) : Statement (.andi d a i) := by
  intro _ pos g
  show Fits (hAppend (hAppend (hAppend (hAppend (hAppend (hAppend pos g) 5#5) d) a) 1#3) i) _
  refine ⟨⟨.andi d a i, 0x0#32, 0x0#32, 0x0#32⟩, ?_, rfl, ?_, ?_⟩
  · rw [rowOf_Inti (by simp (disch := decide) only [BitVec.extractLsb'_append_eq_of_add_le, BitVec.extractLsb'_append_eq_of_le]; rfl)]
    unfold rowInti
    rw [show (hAppend (hAppend (hAppend (hAppend (hAppend (hAppend pos g) 5#5) d) a) 1#3) i).extractLsb' 9 3 = 1#3 from by simp (disch := decide) only [BitVec.extractLsb'_append_eq_of_add_le, BitVec.extractLsb'_append_eq_of_le]; rfl]
    show Except.ok _ = _
    simp (disch := decide) only [BitVec.extractLsb'_append_eq_of_add_le, BitVec.extractLsb'_append_eq_of_le]
    simp
  · exact BitVec.and_zero
  · exact BitVec.and_zero

theorem ori (d : BitVec 5) (a : BitVec 5) (i : BitVec 9) : Statement (.ori d a i) := by
  intro _ pos g
  show Fits (hAppend (hAppend (hAppend (hAppend (hAppend (hAppend pos g) 5#5) d) a) 2#3) i) _
  refine ⟨⟨.ori d a i, 0x0#32, 0x0#32, 0x0#32⟩, ?_, rfl, ?_, ?_⟩
  · rw [rowOf_Inti (by simp (disch := decide) only [BitVec.extractLsb'_append_eq_of_add_le, BitVec.extractLsb'_append_eq_of_le]; rfl)]
    unfold rowInti
    rw [show (hAppend (hAppend (hAppend (hAppend (hAppend (hAppend pos g) 5#5) d) a) 2#3) i).extractLsb' 9 3 = 2#3 from by simp (disch := decide) only [BitVec.extractLsb'_append_eq_of_add_le, BitVec.extractLsb'_append_eq_of_le]; rfl]
    show Except.ok _ = _
    simp (disch := decide) only [BitVec.extractLsb'_append_eq_of_add_le, BitVec.extractLsb'_append_eq_of_le]
    simp
  · exact BitVec.and_zero
  · exact BitVec.and_zero

theorem xori (d : BitVec 5) (a : BitVec 5) (i : BitVec 9) : Statement (.xori d a i) := by
  intro _ pos g
  show Fits (hAppend (hAppend (hAppend (hAppend (hAppend (hAppend pos g) 5#5) d) a) 3#3) i) _
  refine ⟨⟨.xori d a i, 0x0#32, 0x0#32, 0x0#32⟩, ?_, rfl, ?_, ?_⟩
  · rw [rowOf_Inti (by simp (disch := decide) only [BitVec.extractLsb'_append_eq_of_add_le, BitVec.extractLsb'_append_eq_of_le]; rfl)]
    unfold rowInti
    rw [show (hAppend (hAppend (hAppend (hAppend (hAppend (hAppend pos g) 5#5) d) a) 3#3) i).extractLsb' 9 3 = 3#3 from by simp (disch := decide) only [BitVec.extractLsb'_append_eq_of_add_le, BitVec.extractLsb'_append_eq_of_le]; rfl]
    show Except.ok _ = _
    simp (disch := decide) only [BitVec.extractLsb'_append_eq_of_add_le, BitVec.extractLsb'_append_eq_of_le]
    simp
  · exact BitVec.and_zero
  · exact BitVec.and_zero

theorem slti (d : BitVec 5) (a : BitVec 5) (i : BitVec 9) : Statement (.slti d a i) := by
  intro _ pos g
  show Fits (hAppend (hAppend (hAppend (hAppend (hAppend (hAppend pos g) 5#5) d) a) 4#3) i) _
  refine ⟨⟨.slti d a i, 0x0#32, 0x0#32, 0x0#32⟩, ?_, rfl, ?_, ?_⟩
  · rw [rowOf_Inti (by simp (disch := decide) only [BitVec.extractLsb'_append_eq_of_add_le, BitVec.extractLsb'_append_eq_of_le]; rfl)]
    unfold rowInti
    rw [show (hAppend (hAppend (hAppend (hAppend (hAppend (hAppend pos g) 5#5) d) a) 4#3) i).extractLsb' 9 3 = 4#3 from by simp (disch := decide) only [BitVec.extractLsb'_append_eq_of_add_le, BitVec.extractLsb'_append_eq_of_le]; rfl]
    show Except.ok _ = _
    simp (disch := decide) only [BitVec.extractLsb'_append_eq_of_add_le, BitVec.extractLsb'_append_eq_of_le]
    simp
  · exact BitVec.and_zero
  · exact BitVec.and_zero

theorem sltui (d : BitVec 5) (a : BitVec 5) (i : BitVec 9) : Statement (.sltui d a i) := by
  intro _ pos g
  show Fits (hAppend (hAppend (hAppend (hAppend (hAppend (hAppend pos g) 5#5) d) a) 5#3) i) _
  refine ⟨⟨.sltui d a i, 0x0#32, 0x0#32, 0x0#32⟩, ?_, rfl, ?_, ?_⟩
  · rw [rowOf_Inti (by simp (disch := decide) only [BitVec.extractLsb'_append_eq_of_add_le, BitVec.extractLsb'_append_eq_of_le]; rfl)]
    unfold rowInti
    rw [show (hAppend (hAppend (hAppend (hAppend (hAppend (hAppend pos g) 5#5) d) a) 5#3) i).extractLsb' 9 3 = 5#3 from by simp (disch := decide) only [BitVec.extractLsb'_append_eq_of_add_le, BitVec.extractLsb'_append_eq_of_le]; rfl]
    show Except.ok _ = _
    simp (disch := decide) only [BitVec.extractLsb'_append_eq_of_add_le, BitVec.extractLsb'_append_eq_of_le]
    simp
  · exact BitVec.and_zero
  · exact BitVec.and_zero

theorem fadd (d : BitVec 5) (a : BitVec 5) (b : BitVec 5) (q : BitVec 1) : Statement (.fadd d a b q) := by
  intro _ pos g
  show Fits (hAppend (hAppend (hAppend (hAppend (hAppend (hAppend (hAppend pos g) 96#9) d) a) b) q) 0#2) _
  refine ⟨⟨.fadd d a b q, 0x0#32, 0x0#32, 0x3#32⟩, ?_, rfl, ?_, ?_⟩
  · rw [rowOf_Fps (by simp (disch := decide) only [BitVec.extractLsb'_append_eq_of_add_le, BitVec.extractLsb'_append_eq_of_le]; rfl)]
    unfold rowFps
    rw [show (hAppend (hAppend (hAppend (hAppend (hAppend (hAppend (hAppend pos g) 96#9) d) a) b) q) 0#2).extractLsb' 18 4 = 0#4 from by simp (disch := decide) only [BitVec.extractLsb'_append_eq_of_add_le, BitVec.extractLsb'_append_eq_of_le]; rfl]
    show Except.ok _ = _
    simp (disch := decide) only [BitVec.extractLsb'_append_eq_of_add_le, BitVec.extractLsb'_append_eq_of_le]
    simp
  · exact and_mask (m := (hAppend 0#30 3#2)) (m' := 0x3#32) (v' := 0x0#32) (by decide) (@and_app 30 2 _ _ _ _ _ (0#2) BitVec.and_zero rfl)
  · exact BitVec.and_zero

theorem fsub (d : BitVec 5) (a : BitVec 5) (b : BitVec 5) (q : BitVec 1) : Statement (.fsub d a b q) := by
  intro _ pos g
  show Fits (hAppend (hAppend (hAppend (hAppend (hAppend (hAppend (hAppend pos g) 97#9) d) a) b) q) 0#2) _
  refine ⟨⟨.fsub d a b q, 0x0#32, 0x0#32, 0x3#32⟩, ?_, rfl, ?_, ?_⟩
  · rw [rowOf_Fps (by simp (disch := decide) only [BitVec.extractLsb'_append_eq_of_add_le, BitVec.extractLsb'_append_eq_of_le]; rfl)]
    unfold rowFps
    rw [show (hAppend (hAppend (hAppend (hAppend (hAppend (hAppend (hAppend pos g) 97#9) d) a) b) q) 0#2).extractLsb' 18 4 = 1#4 from by simp (disch := decide) only [BitVec.extractLsb'_append_eq_of_add_le, BitVec.extractLsb'_append_eq_of_le]; rfl]
    show Except.ok _ = _
    simp (disch := decide) only [BitVec.extractLsb'_append_eq_of_add_le, BitVec.extractLsb'_append_eq_of_le]
    simp
  · exact and_mask (m := (hAppend 0#30 3#2)) (m' := 0x3#32) (v' := 0x0#32) (by decide) (@and_app 30 2 _ _ _ _ _ (0#2) BitVec.and_zero rfl)
  · exact BitVec.and_zero

theorem fmul (d : BitVec 5) (a : BitVec 5) (b : BitVec 5) (q : BitVec 1) : Statement (.fmul d a b q) := by
  intro _ pos g
  show Fits (hAppend (hAppend (hAppend (hAppend (hAppend (hAppend (hAppend pos g) 98#9) d) a) b) q) 0#2) _
  refine ⟨⟨.fmul d a b q, 0x0#32, 0x0#32, 0x3#32⟩, ?_, rfl, ?_, ?_⟩
  · rw [rowOf_Fps (by simp (disch := decide) only [BitVec.extractLsb'_append_eq_of_add_le, BitVec.extractLsb'_append_eq_of_le]; rfl)]
    unfold rowFps
    rw [show (hAppend (hAppend (hAppend (hAppend (hAppend (hAppend (hAppend pos g) 98#9) d) a) b) q) 0#2).extractLsb' 18 4 = 2#4 from by simp (disch := decide) only [BitVec.extractLsb'_append_eq_of_add_le, BitVec.extractLsb'_append_eq_of_le]; rfl]
    show Except.ok _ = _
    simp (disch := decide) only [BitVec.extractLsb'_append_eq_of_add_le, BitVec.extractLsb'_append_eq_of_le]
    simp
  · exact and_mask (m := (hAppend 0#30 3#2)) (m' := 0x3#32) (v' := 0x0#32) (by decide) (@and_app 30 2 _ _ _ _ _ (0#2) BitVec.and_zero rfl)
  · exact BitVec.and_zero

theorem fma (d : BitVec 5) (a : BitVec 5) (b : BitVec 5) (q : BitVec 1) : Statement (.fma d a b q) := by
  intro _ pos g
  show Fits (hAppend (hAppend (hAppend (hAppend (hAppend (hAppend (hAppend pos g) 99#9) d) a) b) q) 0#2) _
  refine ⟨⟨.fma d a b q, 0x0#32, 0x0#32, 0x3#32⟩, ?_, rfl, ?_, ?_⟩
  · rw [rowOf_Fps (by simp (disch := decide) only [BitVec.extractLsb'_append_eq_of_add_le, BitVec.extractLsb'_append_eq_of_le]; rfl)]
    unfold rowFps
    rw [show (hAppend (hAppend (hAppend (hAppend (hAppend (hAppend (hAppend pos g) 99#9) d) a) b) q) 0#2).extractLsb' 18 4 = 3#4 from by simp (disch := decide) only [BitVec.extractLsb'_append_eq_of_add_le, BitVec.extractLsb'_append_eq_of_le]; rfl]
    show Except.ok _ = _
    simp (disch := decide) only [BitVec.extractLsb'_append_eq_of_add_le, BitVec.extractLsb'_append_eq_of_le]
    simp
  · exact and_mask (m := (hAppend 0#30 3#2)) (m' := 0x3#32) (v' := 0x0#32) (by decide) (@and_app 30 2 _ _ _ _ _ (0#2) BitVec.and_zero rfl)
  · exact BitVec.and_zero

theorem fmin (d : BitVec 5) (a : BitVec 5) (b : BitVec 5) : Statement (.fmin d a b) := by
  intro _ pos g
  show Fits (hAppend (hAppend (hAppend (hAppend (hAppend (hAppend pos g) 100#9) d) a) b) 0#3) _
  refine ⟨⟨.fmin d a b, 0x4#32, 0x0#32, 0x3#32⟩, ?_, rfl, ?_, ?_⟩
  · rw [rowOf_Fps (by simp (disch := decide) only [BitVec.extractLsb'_append_eq_of_add_le, BitVec.extractLsb'_append_eq_of_le]; rfl)]
    unfold rowFps
    rw [show (hAppend (hAppend (hAppend (hAppend (hAppend (hAppend pos g) 100#9) d) a) b) 0#3).extractLsb' 18 4 = 4#4 from by simp (disch := decide) only [BitVec.extractLsb'_append_eq_of_add_le, BitVec.extractLsb'_append_eq_of_le]; rfl]
    show Except.ok _ = _
    simp (disch := decide) only [BitVec.extractLsb'_append_eq_of_add_le, BitVec.extractLsb'_append_eq_of_le]
    simp
  · exact and_mask (m := (hAppend 0#29 3#3)) (m' := 0x3#32) (v' := 0x0#32) (by decide) (@and_app 29 3 _ _ _ _ _ (0#3) BitVec.and_zero rfl)
  · exact and_mask (m := (hAppend 0#29 4#3)) (m' := 0x4#32) (v' := 0x0#32) (by decide) (@and_app 29 3 _ _ _ _ _ (0#3) BitVec.and_zero rfl)

theorem fmax (d : BitVec 5) (a : BitVec 5) (b : BitVec 5) : Statement (.fmax d a b) := by
  intro _ pos g
  show Fits (hAppend (hAppend (hAppend (hAppend (hAppend (hAppend pos g) 101#9) d) a) b) 0#3) _
  refine ⟨⟨.fmax d a b, 0x4#32, 0x0#32, 0x3#32⟩, ?_, rfl, ?_, ?_⟩
  · rw [rowOf_Fps (by simp (disch := decide) only [BitVec.extractLsb'_append_eq_of_add_le, BitVec.extractLsb'_append_eq_of_le]; rfl)]
    unfold rowFps
    rw [show (hAppend (hAppend (hAppend (hAppend (hAppend (hAppend pos g) 101#9) d) a) b) 0#3).extractLsb' 18 4 = 5#4 from by simp (disch := decide) only [BitVec.extractLsb'_append_eq_of_add_le, BitVec.extractLsb'_append_eq_of_le]; rfl]
    show Except.ok _ = _
    simp (disch := decide) only [BitVec.extractLsb'_append_eq_of_add_le, BitVec.extractLsb'_append_eq_of_le]
    simp
  · exact and_mask (m := (hAppend 0#29 3#3)) (m' := 0x3#32) (v' := 0x0#32) (by decide) (@and_app 29 3 _ _ _ _ _ (0#3) BitVec.and_zero rfl)
  · exact and_mask (m := (hAppend 0#29 4#3)) (m' := 0x4#32) (v' := 0x0#32) (by decide) (@and_app 29 3 _ _ _ _ _ (0#3) BitVec.and_zero rfl)

theorem fneg (d : BitVec 5) (a : BitVec 5) : Statement (.fneg d a) := by
  intro _ pos g
  show Fits (hAppend (hAppend (hAppend (hAppend (hAppend pos g) 102#9) d) a) 0#8) _
  refine ⟨⟨.fneg d a, 0xFC#32, 0x0#32, 0x3#32⟩, ?_, rfl, ?_, ?_⟩
  · rw [rowOf_Fps (by simp (disch := decide) only [BitVec.extractLsb'_append_eq_of_add_le, BitVec.extractLsb'_append_eq_of_le]; rfl)]
    unfold rowFps
    rw [show (hAppend (hAppend (hAppend (hAppend (hAppend pos g) 102#9) d) a) 0#8).extractLsb' 18 4 = 6#4 from by simp (disch := decide) only [BitVec.extractLsb'_append_eq_of_add_le, BitVec.extractLsb'_append_eq_of_le]; rfl]
    show Except.ok _ = _
    simp (disch := decide) only [BitVec.extractLsb'_append_eq_of_add_le, BitVec.extractLsb'_append_eq_of_le]
    simp
  · exact and_mask (m := (hAppend 0#24 3#8)) (m' := 0x3#32) (v' := 0x0#32) (by decide) (@and_app 24 8 _ _ _ _ _ (0#8) BitVec.and_zero rfl)
  · exact and_mask (m := (hAppend 0#24 252#8)) (m' := 0xFC#32) (v' := 0x0#32) (by decide) (@and_app 24 8 _ _ _ _ _ (0#8) BitVec.and_zero rfl)

theorem fabs (d : BitVec 5) (a : BitVec 5) : Statement (.fabs d a) := by
  intro _ pos g
  show Fits (hAppend (hAppend (hAppend (hAppend (hAppend pos g) 103#9) d) a) 0#8) _
  refine ⟨⟨.fabs d a, 0xFC#32, 0x0#32, 0x3#32⟩, ?_, rfl, ?_, ?_⟩
  · rw [rowOf_Fps (by simp (disch := decide) only [BitVec.extractLsb'_append_eq_of_add_le, BitVec.extractLsb'_append_eq_of_le]; rfl)]
    unfold rowFps
    rw [show (hAppend (hAppend (hAppend (hAppend (hAppend pos g) 103#9) d) a) 0#8).extractLsb' 18 4 = 7#4 from by simp (disch := decide) only [BitVec.extractLsb'_append_eq_of_add_le, BitVec.extractLsb'_append_eq_of_le]; rfl]
    show Except.ok _ = _
    simp (disch := decide) only [BitVec.extractLsb'_append_eq_of_add_le, BitVec.extractLsb'_append_eq_of_le]
    simp
  · exact and_mask (m := (hAppend 0#24 3#8)) (m' := 0x3#32) (v' := 0x0#32) (by decide) (@and_app 24 8 _ _ _ _ _ (0#8) BitVec.and_zero rfl)
  · exact and_mask (m := (hAppend 0#24 252#8)) (m' := 0xFC#32) (v' := 0x0#32) (by decide) (@and_app 24 8 _ _ _ _ _ (0#8) BitVec.and_zero rfl)

theorem f2i (d : BitVec 5) (a : BitVec 5) (q : BitVec 1) (v : BitVec 2) : Statement (.f2i d a q v) := by
  intro _ pos g
  show Fits (hAppend (hAppend (hAppend (hAppend (hAppend (hAppend (hAppend pos g) 104#9) d) a) 0#5) q) v) _
  refine ⟨⟨.f2i d a q v, 0xF8#32, 0x0#32, 0x0#32⟩, ?_, rfl, ?_, ?_⟩
  · rw [rowOf_Fps (by simp (disch := decide) only [BitVec.extractLsb'_append_eq_of_add_le, BitVec.extractLsb'_append_eq_of_le]; rfl)]
    unfold rowFps
    rw [show (hAppend (hAppend (hAppend (hAppend (hAppend (hAppend (hAppend pos g) 104#9) d) a) 0#5) q) v).extractLsb' 18 4 = 8#4 from by simp (disch := decide) only [BitVec.extractLsb'_append_eq_of_add_le, BitVec.extractLsb'_append_eq_of_le]; rfl]
    show Except.ok _ = _
    simp (disch := decide) only [BitVec.extractLsb'_append_eq_of_add_le, BitVec.extractLsb'_append_eq_of_le]
    simp
  · exact BitVec.and_zero
  · exact and_mask (m := (hAppend (hAppend (hAppend 0#24 31#5) 0#1) 0#2)) (m' := 0xF8#32) (v' := 0x0#32) (by decide) (@and_app 30 2 _ _ _ _ _ (0#2) (@and_app 29 1 _ _ _ _ _ (0#1) (@and_app 24 5 _ _ _ _ _ (0#5) BitVec.and_zero rfl) BitVec.and_zero) BitVec.and_zero)

theorem i2f (d : BitVec 5) (a : BitVec 5) (q : BitVec 1) (v : BitVec 1) : Statement (.i2f d a q v) := by
  intro _ pos g
  show Fits (hAppend (hAppend (hAppend (hAppend (hAppend (hAppend (hAppend (hAppend pos g) 105#9) d) a) 0#5) q) 0#1) v) _
  refine ⟨⟨.i2f d a q v, 0xF8#32, 0x0#32, 0x2#32⟩, ?_, rfl, ?_, ?_⟩
  · rw [rowOf_Fps (by simp (disch := decide) only [BitVec.extractLsb'_append_eq_of_add_le, BitVec.extractLsb'_append_eq_of_le]; rfl)]
    unfold rowFps
    rw [show (hAppend (hAppend (hAppend (hAppend (hAppend (hAppend (hAppend (hAppend pos g) 105#9) d) a) 0#5) q) 0#1) v).extractLsb' 18 4 = 9#4 from by simp (disch := decide) only [BitVec.extractLsb'_append_eq_of_add_le, BitVec.extractLsb'_append_eq_of_le]; rfl]
    show Except.ok _ = _
    simp (disch := decide) only [BitVec.extractLsb'_append_eq_of_add_le, BitVec.extractLsb'_append_eq_of_le]
    simp
  · exact and_mask (m := (hAppend (hAppend 0#30 1#1) 0#1)) (m' := 0x2#32) (v' := 0x0#32) (by decide) (@and_app 31 1 _ _ _ _ _ (0#1) (@and_app 30 1 _ _ _ _ _ (0#1) BitVec.and_zero rfl) BitVec.and_zero)
  · exact and_mask (m := (hAppend (hAppend (hAppend (hAppend 0#24 31#5) 0#1) 0#1) 0#1)) (m' := 0xF8#32) (v' := 0x0#32) (by decide) (@and_app 31 1 _ _ _ _ _ (0#1) (@and_app 30 1 _ _ _ _ _ (0#1) (@and_app 29 1 _ _ _ _ _ (0#1) (@and_app 24 5 _ _ _ _ _ (0#5) BitVec.and_zero rfl) BitVec.and_zero) BitVec.and_zero) BitVec.and_zero)

theorem icmpEq (p : BitVec 3) (a : BitVec 5) (b : BitVec 5) : Statement (.icmpEq p a b) := by
  intro _ pos g
  show Fits (hAppend (hAppend (hAppend (hAppend (hAppend (hAppend pos g) 448#11) p) a) b) 0#3) _
  refine ⟨⟨.icmpEq p a b, 0x30007#32, 0x0#32, 0x0#32⟩, ?_, rfl, ?_, ?_⟩
  · rw [rowOf_Cmp (by simp (disch := decide) only [BitVec.extractLsb'_append_eq_of_add_le, BitVec.extractLsb'_append_eq_of_le]; rfl)]
    unfold rowCmp
    rw [show (hAppend (hAppend (hAppend (hAppend (hAppend (hAppend pos g) 448#11) p) a) b) 0#3).extractLsb' 18 4 = 0#4 from by simp (disch := decide) only [BitVec.extractLsb'_append_eq_of_add_le, BitVec.extractLsb'_append_eq_of_le]; rfl]
    show Except.ok _ = _
    simp (disch := decide) only [BitVec.extractLsb'_append_eq_of_add_le, BitVec.extractLsb'_append_eq_of_le]
    simp
  · exact BitVec.and_zero
  · exact and_mask (m := (hAppend (hAppend (hAppend (hAppend (hAppend 0#5 3#11) 0#3) 0#5) 0#5) 7#3)) (m' := 0x30007#32) (v' := 0x0#32) (by decide) (@and_app 29 3 _ _ _ _ _ (0#3) (@and_app 24 5 _ _ _ _ _ (0#5) (@and_app 19 5 _ _ _ _ _ (0#5) (@and_app 16 3 _ _ _ _ _ (0#3) (@and_app 5 11 _ _ _ _ _ (0#11) BitVec.and_zero rfl) BitVec.and_zero) BitVec.and_zero) BitVec.and_zero) rfl)

theorem icmpNe (p : BitVec 3) (a : BitVec 5) (b : BitVec 5) : Statement (.icmpNe p a b) := by
  intro _ pos g
  show Fits (hAppend (hAppend (hAppend (hAppend (hAppend (hAppend pos g) 452#11) p) a) b) 0#3) _
  refine ⟨⟨.icmpNe p a b, 0x30007#32, 0x0#32, 0x0#32⟩, ?_, rfl, ?_, ?_⟩
  · rw [rowOf_Cmp (by simp (disch := decide) only [BitVec.extractLsb'_append_eq_of_add_le, BitVec.extractLsb'_append_eq_of_le]; rfl)]
    unfold rowCmp
    rw [show (hAppend (hAppend (hAppend (hAppend (hAppend (hAppend pos g) 452#11) p) a) b) 0#3).extractLsb' 18 4 = 1#4 from by simp (disch := decide) only [BitVec.extractLsb'_append_eq_of_add_le, BitVec.extractLsb'_append_eq_of_le]; rfl]
    show Except.ok _ = _
    simp (disch := decide) only [BitVec.extractLsb'_append_eq_of_add_le, BitVec.extractLsb'_append_eq_of_le]
    simp
  · exact BitVec.and_zero
  · exact and_mask (m := (hAppend (hAppend (hAppend (hAppend (hAppend 0#5 3#11) 0#3) 0#5) 0#5) 7#3)) (m' := 0x30007#32) (v' := 0x0#32) (by decide) (@and_app 29 3 _ _ _ _ _ (0#3) (@and_app 24 5 _ _ _ _ _ (0#5) (@and_app 19 5 _ _ _ _ _ (0#5) (@and_app 16 3 _ _ _ _ _ (0#3) (@and_app 5 11 _ _ _ _ _ (0#11) BitVec.and_zero rfl) BitVec.and_zero) BitVec.and_zero) BitVec.and_zero) rfl)

theorem icmpLt (p : BitVec 3) (a : BitVec 5) (b : BitVec 5) : Statement (.icmpLt p a b) := by
  intro _ pos g
  show Fits (hAppend (hAppend (hAppend (hAppend (hAppend (hAppend pos g) 456#11) p) a) b) 0#3) _
  refine ⟨⟨.icmpLt p a b, 0x30007#32, 0x0#32, 0x0#32⟩, ?_, rfl, ?_, ?_⟩
  · rw [rowOf_Cmp (by simp (disch := decide) only [BitVec.extractLsb'_append_eq_of_add_le, BitVec.extractLsb'_append_eq_of_le]; rfl)]
    unfold rowCmp
    rw [show (hAppend (hAppend (hAppend (hAppend (hAppend (hAppend pos g) 456#11) p) a) b) 0#3).extractLsb' 18 4 = 2#4 from by simp (disch := decide) only [BitVec.extractLsb'_append_eq_of_add_le, BitVec.extractLsb'_append_eq_of_le]; rfl]
    show Except.ok _ = _
    simp (disch := decide) only [BitVec.extractLsb'_append_eq_of_add_le, BitVec.extractLsb'_append_eq_of_le]
    simp
  · exact BitVec.and_zero
  · exact and_mask (m := (hAppend (hAppend (hAppend (hAppend (hAppend 0#5 3#11) 0#3) 0#5) 0#5) 7#3)) (m' := 0x30007#32) (v' := 0x0#32) (by decide) (@and_app 29 3 _ _ _ _ _ (0#3) (@and_app 24 5 _ _ _ _ _ (0#5) (@and_app 19 5 _ _ _ _ _ (0#5) (@and_app 16 3 _ _ _ _ _ (0#3) (@and_app 5 11 _ _ _ _ _ (0#11) BitVec.and_zero rfl) BitVec.and_zero) BitVec.and_zero) BitVec.and_zero) rfl)

theorem icmpLtu (p : BitVec 3) (a : BitVec 5) (b : BitVec 5) : Statement (.icmpLtu p a b) := by
  intro _ pos g
  show Fits (hAppend (hAppend (hAppend (hAppend (hAppend (hAppend pos g) 460#11) p) a) b) 0#3) _
  refine ⟨⟨.icmpLtu p a b, 0x30007#32, 0x0#32, 0x0#32⟩, ?_, rfl, ?_, ?_⟩
  · rw [rowOf_Cmp (by simp (disch := decide) only [BitVec.extractLsb'_append_eq_of_add_le, BitVec.extractLsb'_append_eq_of_le]; rfl)]
    unfold rowCmp
    rw [show (hAppend (hAppend (hAppend (hAppend (hAppend (hAppend pos g) 460#11) p) a) b) 0#3).extractLsb' 18 4 = 3#4 from by simp (disch := decide) only [BitVec.extractLsb'_append_eq_of_add_le, BitVec.extractLsb'_append_eq_of_le]; rfl]
    show Except.ok _ = _
    simp (disch := decide) only [BitVec.extractLsb'_append_eq_of_add_le, BitVec.extractLsb'_append_eq_of_le]
    simp
  · exact BitVec.and_zero
  · exact and_mask (m := (hAppend (hAppend (hAppend (hAppend (hAppend 0#5 3#11) 0#3) 0#5) 0#5) 7#3)) (m' := 0x30007#32) (v' := 0x0#32) (by decide) (@and_app 29 3 _ _ _ _ _ (0#3) (@and_app 24 5 _ _ _ _ _ (0#5) (@and_app 19 5 _ _ _ _ _ (0#5) (@and_app 16 3 _ _ _ _ _ (0#3) (@and_app 5 11 _ _ _ _ _ (0#11) BitVec.and_zero rfl) BitVec.and_zero) BitVec.and_zero) BitVec.and_zero) rfl)

theorem icmpLe (p : BitVec 3) (a : BitVec 5) (b : BitVec 5) : Statement (.icmpLe p a b) := by
  intro _ pos g
  show Fits (hAppend (hAppend (hAppend (hAppend (hAppend (hAppend pos g) 464#11) p) a) b) 0#3) _
  refine ⟨⟨.icmpLe p a b, 0x30007#32, 0x0#32, 0x0#32⟩, ?_, rfl, ?_, ?_⟩
  · rw [rowOf_Cmp (by simp (disch := decide) only [BitVec.extractLsb'_append_eq_of_add_le, BitVec.extractLsb'_append_eq_of_le]; rfl)]
    unfold rowCmp
    rw [show (hAppend (hAppend (hAppend (hAppend (hAppend (hAppend pos g) 464#11) p) a) b) 0#3).extractLsb' 18 4 = 4#4 from by simp (disch := decide) only [BitVec.extractLsb'_append_eq_of_add_le, BitVec.extractLsb'_append_eq_of_le]; rfl]
    show Except.ok _ = _
    simp (disch := decide) only [BitVec.extractLsb'_append_eq_of_add_le, BitVec.extractLsb'_append_eq_of_le]
    simp
  · exact BitVec.and_zero
  · exact and_mask (m := (hAppend (hAppend (hAppend (hAppend (hAppend 0#5 3#11) 0#3) 0#5) 0#5) 7#3)) (m' := 0x30007#32) (v' := 0x0#32) (by decide) (@and_app 29 3 _ _ _ _ _ (0#3) (@and_app 24 5 _ _ _ _ _ (0#5) (@and_app 19 5 _ _ _ _ _ (0#5) (@and_app 16 3 _ _ _ _ _ (0#3) (@and_app 5 11 _ _ _ _ _ (0#11) BitVec.and_zero rfl) BitVec.and_zero) BitVec.and_zero) BitVec.and_zero) rfl)

theorem icmpLeu (p : BitVec 3) (a : BitVec 5) (b : BitVec 5) : Statement (.icmpLeu p a b) := by
  intro _ pos g
  show Fits (hAppend (hAppend (hAppend (hAppend (hAppend (hAppend pos g) 468#11) p) a) b) 0#3) _
  refine ⟨⟨.icmpLeu p a b, 0x30007#32, 0x0#32, 0x0#32⟩, ?_, rfl, ?_, ?_⟩
  · rw [rowOf_Cmp (by simp (disch := decide) only [BitVec.extractLsb'_append_eq_of_add_le, BitVec.extractLsb'_append_eq_of_le]; rfl)]
    unfold rowCmp
    rw [show (hAppend (hAppend (hAppend (hAppend (hAppend (hAppend pos g) 468#11) p) a) b) 0#3).extractLsb' 18 4 = 5#4 from by simp (disch := decide) only [BitVec.extractLsb'_append_eq_of_add_le, BitVec.extractLsb'_append_eq_of_le]; rfl]
    show Except.ok _ = _
    simp (disch := decide) only [BitVec.extractLsb'_append_eq_of_add_le, BitVec.extractLsb'_append_eq_of_le]
    simp
  · exact BitVec.and_zero
  · exact and_mask (m := (hAppend (hAppend (hAppend (hAppend (hAppend 0#5 3#11) 0#3) 0#5) 0#5) 7#3)) (m' := 0x30007#32) (v' := 0x0#32) (by decide) (@and_app 29 3 _ _ _ _ _ (0#3) (@and_app 24 5 _ _ _ _ _ (0#5) (@and_app 19 5 _ _ _ _ _ (0#5) (@and_app 16 3 _ _ _ _ _ (0#3) (@and_app 5 11 _ _ _ _ _ (0#11) BitVec.and_zero rfl) BitVec.and_zero) BitVec.and_zero) BitVec.and_zero) rfl)

theorem fcmpEq (p : BitVec 3) (a : BitVec 5) (b : BitVec 5) (q : BitVec 1) : Statement (.fcmpEq p a b q) := by
  intro _ pos g
  show Fits (hAppend (hAppend (hAppend (hAppend (hAppend (hAppend (hAppend pos g) 472#11) p) a) b) q) 0#2) _
  refine ⟨⟨.fcmpEq p a b q, 0x30003#32, 0x0#32, 0x0#32⟩, ?_, rfl, ?_, ?_⟩
  · rw [rowOf_Cmp (by simp (disch := decide) only [BitVec.extractLsb'_append_eq_of_add_le, BitVec.extractLsb'_append_eq_of_le]; rfl)]
    unfold rowCmp
    rw [show (hAppend (hAppend (hAppend (hAppend (hAppend (hAppend (hAppend pos g) 472#11) p) a) b) q) 0#2).extractLsb' 18 4 = 6#4 from by simp (disch := decide) only [BitVec.extractLsb'_append_eq_of_add_le, BitVec.extractLsb'_append_eq_of_le]; rfl]
    show Except.ok _ = _
    simp (disch := decide) only [BitVec.extractLsb'_append_eq_of_add_le, BitVec.extractLsb'_append_eq_of_le]
    simp
  · exact BitVec.and_zero
  · exact and_mask (m := (hAppend (hAppend (hAppend (hAppend (hAppend (hAppend 0#5 3#11) 0#3) 0#5) 0#5) 0#1) 3#2)) (m' := 0x30003#32) (v' := 0x0#32) (by decide) (@and_app 30 2 _ _ _ _ _ (0#2) (@and_app 29 1 _ _ _ _ _ (0#1) (@and_app 24 5 _ _ _ _ _ (0#5) (@and_app 19 5 _ _ _ _ _ (0#5) (@and_app 16 3 _ _ _ _ _ (0#3) (@and_app 5 11 _ _ _ _ _ (0#11) BitVec.and_zero rfl) BitVec.and_zero) BitVec.and_zero) BitVec.and_zero) BitVec.and_zero) rfl)

theorem fcmpLt (p : BitVec 3) (a : BitVec 5) (b : BitVec 5) (q : BitVec 1) : Statement (.fcmpLt p a b q) := by
  intro _ pos g
  show Fits (hAppend (hAppend (hAppend (hAppend (hAppend (hAppend (hAppend pos g) 476#11) p) a) b) q) 0#2) _
  refine ⟨⟨.fcmpLt p a b q, 0x30003#32, 0x0#32, 0x0#32⟩, ?_, rfl, ?_, ?_⟩
  · rw [rowOf_Cmp (by simp (disch := decide) only [BitVec.extractLsb'_append_eq_of_add_le, BitVec.extractLsb'_append_eq_of_le]; rfl)]
    unfold rowCmp
    rw [show (hAppend (hAppend (hAppend (hAppend (hAppend (hAppend (hAppend pos g) 476#11) p) a) b) q) 0#2).extractLsb' 18 4 = 7#4 from by simp (disch := decide) only [BitVec.extractLsb'_append_eq_of_add_le, BitVec.extractLsb'_append_eq_of_le]; rfl]
    show Except.ok _ = _
    simp (disch := decide) only [BitVec.extractLsb'_append_eq_of_add_le, BitVec.extractLsb'_append_eq_of_le]
    simp
  · exact BitVec.and_zero
  · exact and_mask (m := (hAppend (hAppend (hAppend (hAppend (hAppend (hAppend 0#5 3#11) 0#3) 0#5) 0#5) 0#1) 3#2)) (m' := 0x30003#32) (v' := 0x0#32) (by decide) (@and_app 30 2 _ _ _ _ _ (0#2) (@and_app 29 1 _ _ _ _ _ (0#1) (@and_app 24 5 _ _ _ _ _ (0#5) (@and_app 19 5 _ _ _ _ _ (0#5) (@and_app 16 3 _ _ _ _ _ (0#3) (@and_app 5 11 _ _ _ _ _ (0#11) BitVec.and_zero rfl) BitVec.and_zero) BitVec.and_zero) BitVec.and_zero) BitVec.and_zero) rfl)

theorem fcmpLe (p : BitVec 3) (a : BitVec 5) (b : BitVec 5) (q : BitVec 1) : Statement (.fcmpLe p a b q) := by
  intro _ pos g
  show Fits (hAppend (hAppend (hAppend (hAppend (hAppend (hAppend (hAppend pos g) 480#11) p) a) b) q) 0#2) _
  refine ⟨⟨.fcmpLe p a b q, 0x30003#32, 0x0#32, 0x0#32⟩, ?_, rfl, ?_, ?_⟩
  · rw [rowOf_Cmp (by simp (disch := decide) only [BitVec.extractLsb'_append_eq_of_add_le, BitVec.extractLsb'_append_eq_of_le]; rfl)]
    unfold rowCmp
    rw [show (hAppend (hAppend (hAppend (hAppend (hAppend (hAppend (hAppend pos g) 480#11) p) a) b) q) 0#2).extractLsb' 18 4 = 8#4 from by simp (disch := decide) only [BitVec.extractLsb'_append_eq_of_add_le, BitVec.extractLsb'_append_eq_of_le]; rfl]
    show Except.ok _ = _
    simp (disch := decide) only [BitVec.extractLsb'_append_eq_of_add_le, BitVec.extractLsb'_append_eq_of_le]
    simp
  · exact BitVec.and_zero
  · exact and_mask (m := (hAppend (hAppend (hAppend (hAppend (hAppend (hAppend 0#5 3#11) 0#3) 0#5) 0#5) 0#1) 3#2)) (m' := 0x30003#32) (v' := 0x0#32) (by decide) (@and_app 30 2 _ _ _ _ _ (0#2) (@and_app 29 1 _ _ _ _ _ (0#1) (@and_app 24 5 _ _ _ _ _ (0#5) (@and_app 19 5 _ _ _ _ _ (0#5) (@and_app 16 3 _ _ _ _ _ (0#3) (@and_app 5 11 _ _ _ _ _ (0#11) BitVec.and_zero rfl) BitVec.and_zero) BitVec.and_zero) BitVec.and_zero) BitVec.and_zero) rfl)

theorem fcmpUn (p : BitVec 3) (a : BitVec 5) (b : BitVec 5) (q : BitVec 1) : Statement (.fcmpUn p a b q) := by
  intro _ pos g
  show Fits (hAppend (hAppend (hAppend (hAppend (hAppend (hAppend (hAppend pos g) 484#11) p) a) b) q) 0#2) _
  refine ⟨⟨.fcmpUn p a b q, 0x30003#32, 0x0#32, 0x0#32⟩, ?_, rfl, ?_, ?_⟩
  · rw [rowOf_Cmp (by simp (disch := decide) only [BitVec.extractLsb'_append_eq_of_add_le, BitVec.extractLsb'_append_eq_of_le]; rfl)]
    unfold rowCmp
    rw [show (hAppend (hAppend (hAppend (hAppend (hAppend (hAppend (hAppend pos g) 484#11) p) a) b) q) 0#2).extractLsb' 18 4 = 9#4 from by simp (disch := decide) only [BitVec.extractLsb'_append_eq_of_add_le, BitVec.extractLsb'_append_eq_of_le]; rfl]
    show Except.ok _ = _
    simp (disch := decide) only [BitVec.extractLsb'_append_eq_of_add_le, BitVec.extractLsb'_append_eq_of_le]
    simp
  · exact BitVec.and_zero
  · exact and_mask (m := (hAppend (hAppend (hAppend (hAppend (hAppend (hAppend 0#5 3#11) 0#3) 0#5) 0#5) 0#1) 3#2)) (m' := 0x30003#32) (v' := 0x0#32) (by decide) (@and_app 30 2 _ _ _ _ _ (0#2) (@and_app 29 1 _ _ _ _ _ (0#1) (@and_app 24 5 _ _ _ _ _ (0#5) (@and_app 19 5 _ _ _ _ _ (0#5) (@and_app 16 3 _ _ _ _ _ (0#3) (@and_app 5 11 _ _ _ _ _ (0#11) BitVec.and_zero rfl) BitVec.and_zero) BitVec.and_zero) BitVec.and_zero) BitVec.and_zero) rfl)

theorem shl (d : BitVec 5) (a : BitVec 5) (b : BitVec 5) : Statement (.shl d a b) := by
  intro _ pos g
  show Fits (hAppend (hAppend (hAppend (hAppend (hAppend (hAppend pos g) 128#9) d) a) b) 0#3) _
  refine ⟨⟨.shl d a b, 0x4#32, 0x0#32, 0x3#32⟩, ?_, rfl, ?_, ?_⟩
  · rw [rowOf_Bit (by simp (disch := decide) only [BitVec.extractLsb'_append_eq_of_add_le, BitVec.extractLsb'_append_eq_of_le]; rfl)]
    unfold rowBit
    rw [show (hAppend (hAppend (hAppend (hAppend (hAppend (hAppend pos g) 128#9) d) a) b) 0#3).extractLsb' 18 4 = 0#4 from by simp (disch := decide) only [BitVec.extractLsb'_append_eq_of_add_le, BitVec.extractLsb'_append_eq_of_le]; rfl]
    show Except.ok _ = _
    simp (disch := decide) only [BitVec.extractLsb'_append_eq_of_add_le, BitVec.extractLsb'_append_eq_of_le]
    simp
  · exact and_mask (m := (hAppend 0#29 3#3)) (m' := 0x3#32) (v' := 0x0#32) (by decide) (@and_app 29 3 _ _ _ _ _ (0#3) BitVec.and_zero rfl)
  · exact and_mask (m := (hAppend 0#29 4#3)) (m' := 0x4#32) (v' := 0x0#32) (by decide) (@and_app 29 3 _ _ _ _ _ (0#3) BitVec.and_zero rfl)

theorem shr (d : BitVec 5) (a : BitVec 5) (b : BitVec 5) : Statement (.shr d a b) := by
  intro _ pos g
  show Fits (hAppend (hAppend (hAppend (hAppend (hAppend (hAppend pos g) 129#9) d) a) b) 0#3) _
  refine ⟨⟨.shr d a b, 0x4#32, 0x0#32, 0x3#32⟩, ?_, rfl, ?_, ?_⟩
  · rw [rowOf_Bit (by simp (disch := decide) only [BitVec.extractLsb'_append_eq_of_add_le, BitVec.extractLsb'_append_eq_of_le]; rfl)]
    unfold rowBit
    rw [show (hAppend (hAppend (hAppend (hAppend (hAppend (hAppend pos g) 129#9) d) a) b) 0#3).extractLsb' 18 4 = 1#4 from by simp (disch := decide) only [BitVec.extractLsb'_append_eq_of_add_le, BitVec.extractLsb'_append_eq_of_le]; rfl]
    show Except.ok _ = _
    simp (disch := decide) only [BitVec.extractLsb'_append_eq_of_add_le, BitVec.extractLsb'_append_eq_of_le]
    simp
  · exact and_mask (m := (hAppend 0#29 3#3)) (m' := 0x3#32) (v' := 0x0#32) (by decide) (@and_app 29 3 _ _ _ _ _ (0#3) BitVec.and_zero rfl)
  · exact and_mask (m := (hAppend 0#29 4#3)) (m' := 0x4#32) (v' := 0x0#32) (by decide) (@and_app 29 3 _ _ _ _ _ (0#3) BitVec.and_zero rfl)

theorem sra (d : BitVec 5) (a : BitVec 5) (b : BitVec 5) : Statement (.sra d a b) := by
  intro _ pos g
  show Fits (hAppend (hAppend (hAppend (hAppend (hAppend (hAppend pos g) 130#9) d) a) b) 0#3) _
  refine ⟨⟨.sra d a b, 0x4#32, 0x0#32, 0x3#32⟩, ?_, rfl, ?_, ?_⟩
  · rw [rowOf_Bit (by simp (disch := decide) only [BitVec.extractLsb'_append_eq_of_add_le, BitVec.extractLsb'_append_eq_of_le]; rfl)]
    unfold rowBit
    rw [show (hAppend (hAppend (hAppend (hAppend (hAppend (hAppend pos g) 130#9) d) a) b) 0#3).extractLsb' 18 4 = 2#4 from by simp (disch := decide) only [BitVec.extractLsb'_append_eq_of_add_le, BitVec.extractLsb'_append_eq_of_le]; rfl]
    show Except.ok _ = _
    simp (disch := decide) only [BitVec.extractLsb'_append_eq_of_add_le, BitVec.extractLsb'_append_eq_of_le]
    simp
  · exact and_mask (m := (hAppend 0#29 3#3)) (m' := 0x3#32) (v' := 0x0#32) (by decide) (@and_app 29 3 _ _ _ _ _ (0#3) BitVec.and_zero rfl)
  · exact and_mask (m := (hAppend 0#29 4#3)) (m' := 0x4#32) (v' := 0x0#32) (by decide) (@and_app 29 3 _ _ _ _ _ (0#3) BitVec.and_zero rfl)

theorem rol (d : BitVec 5) (a : BitVec 5) (b : BitVec 5) : Statement (.rol d a b) := by
  intro _ pos g
  show Fits (hAppend (hAppend (hAppend (hAppend (hAppend (hAppend pos g) 131#9) d) a) b) 0#3) _
  refine ⟨⟨.rol d a b, 0x4#32, 0x0#32, 0x3#32⟩, ?_, rfl, ?_, ?_⟩
  · rw [rowOf_Bit (by simp (disch := decide) only [BitVec.extractLsb'_append_eq_of_add_le, BitVec.extractLsb'_append_eq_of_le]; rfl)]
    unfold rowBit
    rw [show (hAppend (hAppend (hAppend (hAppend (hAppend (hAppend pos g) 131#9) d) a) b) 0#3).extractLsb' 18 4 = 3#4 from by simp (disch := decide) only [BitVec.extractLsb'_append_eq_of_add_le, BitVec.extractLsb'_append_eq_of_le]; rfl]
    show Except.ok _ = _
    simp (disch := decide) only [BitVec.extractLsb'_append_eq_of_add_le, BitVec.extractLsb'_append_eq_of_le]
    simp
  · exact and_mask (m := (hAppend 0#29 3#3)) (m' := 0x3#32) (v' := 0x0#32) (by decide) (@and_app 29 3 _ _ _ _ _ (0#3) BitVec.and_zero rfl)
  · exact and_mask (m := (hAppend 0#29 4#3)) (m' := 0x4#32) (v' := 0x0#32) (by decide) (@and_app 29 3 _ _ _ _ _ (0#3) BitVec.and_zero rfl)

theorem fsh (d : BitVec 5) (n : BitVec 5) (b : BitVec 5) : Statement (.fsh d n b) := by
  intro _ pos g
  show Fits (hAppend (hAppend (hAppend (hAppend (hAppend (hAppend pos g) 132#9) d) n) b) 0#3) _
  refine ⟨⟨.fsh d n b, 0x4#32, 0x0#32, 0x3#32⟩, ?_, rfl, ?_, ?_⟩
  · rw [rowOf_Bit (by simp (disch := decide) only [BitVec.extractLsb'_append_eq_of_add_le, BitVec.extractLsb'_append_eq_of_le]; rfl)]
    unfold rowBit
    rw [show (hAppend (hAppend (hAppend (hAppend (hAppend (hAppend pos g) 132#9) d) n) b) 0#3).extractLsb' 18 4 = 4#4 from by simp (disch := decide) only [BitVec.extractLsb'_append_eq_of_add_le, BitVec.extractLsb'_append_eq_of_le]; rfl]
    show Except.ok _ = _
    simp (disch := decide) only [BitVec.extractLsb'_append_eq_of_add_le, BitVec.extractLsb'_append_eq_of_le]
    simp
  · exact and_mask (m := (hAppend 0#29 3#3)) (m' := 0x3#32) (v' := 0x0#32) (by decide) (@and_app 29 3 _ _ _ _ _ (0#3) BitVec.and_zero rfl)
  · exact and_mask (m := (hAppend 0#29 4#3)) (m' := 0x4#32) (v' := 0x0#32) (by decide) (@and_app 29 3 _ _ _ _ _ (0#3) BitVec.and_zero rfl)

theorem fshr (d : BitVec 5) (n : BitVec 5) (b : BitVec 5) : Statement (.fshr d n b) := by
  intro _ pos g
  show Fits (hAppend (hAppend (hAppend (hAppend (hAppend (hAppend pos g) 133#9) d) n) b) 0#3) _
  refine ⟨⟨.fshr d n b, 0x4#32, 0x0#32, 0x3#32⟩, ?_, rfl, ?_, ?_⟩
  · rw [rowOf_Bit (by simp (disch := decide) only [BitVec.extractLsb'_append_eq_of_add_le, BitVec.extractLsb'_append_eq_of_le]; rfl)]
    unfold rowBit
    rw [show (hAppend (hAppend (hAppend (hAppend (hAppend (hAppend pos g) 133#9) d) n) b) 0#3).extractLsb' 18 4 = 5#4 from by simp (disch := decide) only [BitVec.extractLsb'_append_eq_of_add_le, BitVec.extractLsb'_append_eq_of_le]; rfl]
    show Except.ok _ = _
    simp (disch := decide) only [BitVec.extractLsb'_append_eq_of_add_le, BitVec.extractLsb'_append_eq_of_le]
    simp
  · exact and_mask (m := (hAppend 0#29 3#3)) (m' := 0x3#32) (v' := 0x0#32) (by decide) (@and_app 29 3 _ _ _ _ _ (0#3) BitVec.and_zero rfl)
  · exact and_mask (m := (hAppend 0#29 4#3)) (m' := 0x4#32) (v' := 0x0#32) (by decide) (@and_app 29 3 _ _ _ _ _ (0#3) BitVec.and_zero rfl)

theorem clz (d : BitVec 5) (a : BitVec 5) : Statement (.clz d a) := by
  intro _ pos g
  show Fits (hAppend (hAppend (hAppend (hAppend (hAppend pos g) 134#9) d) a) 0#8) _
  refine ⟨⟨.clz d a, 0xFC#32, 0x0#32, 0x3#32⟩, ?_, rfl, ?_, ?_⟩
  · rw [rowOf_Bit (by simp (disch := decide) only [BitVec.extractLsb'_append_eq_of_add_le, BitVec.extractLsb'_append_eq_of_le]; rfl)]
    unfold rowBit
    rw [show (hAppend (hAppend (hAppend (hAppend (hAppend pos g) 134#9) d) a) 0#8).extractLsb' 18 4 = 6#4 from by simp (disch := decide) only [BitVec.extractLsb'_append_eq_of_add_le, BitVec.extractLsb'_append_eq_of_le]; rfl]
    show Except.ok _ = _
    simp (disch := decide) only [BitVec.extractLsb'_append_eq_of_add_le, BitVec.extractLsb'_append_eq_of_le]
    simp
  · exact and_mask (m := (hAppend 0#24 3#8)) (m' := 0x3#32) (v' := 0x0#32) (by decide) (@and_app 24 8 _ _ _ _ _ (0#8) BitVec.and_zero rfl)
  · exact and_mask (m := (hAppend 0#24 252#8)) (m' := 0xFC#32) (v' := 0x0#32) (by decide) (@and_app 24 8 _ _ _ _ _ (0#8) BitVec.and_zero rfl)

theorem ctz (d : BitVec 5) (a : BitVec 5) : Statement (.ctz d a) := by
  intro _ pos g
  show Fits (hAppend (hAppend (hAppend (hAppend (hAppend pos g) 135#9) d) a) 0#8) _
  refine ⟨⟨.ctz d a, 0xFC#32, 0x0#32, 0x3#32⟩, ?_, rfl, ?_, ?_⟩
  · rw [rowOf_Bit (by simp (disch := decide) only [BitVec.extractLsb'_append_eq_of_add_le, BitVec.extractLsb'_append_eq_of_le]; rfl)]
    unfold rowBit
    rw [show (hAppend (hAppend (hAppend (hAppend (hAppend pos g) 135#9) d) a) 0#8).extractLsb' 18 4 = 7#4 from by simp (disch := decide) only [BitVec.extractLsb'_append_eq_of_add_le, BitVec.extractLsb'_append_eq_of_le]; rfl]
    show Except.ok _ = _
    simp (disch := decide) only [BitVec.extractLsb'_append_eq_of_add_le, BitVec.extractLsb'_append_eq_of_le]
    simp
  · exact and_mask (m := (hAppend 0#24 3#8)) (m' := 0x3#32) (v' := 0x0#32) (by decide) (@and_app 24 8 _ _ _ _ _ (0#8) BitVec.and_zero rfl)
  · exact and_mask (m := (hAppend 0#24 252#8)) (m' := 0xFC#32) (v' := 0x0#32) (by decide) (@and_app 24 8 _ _ _ _ _ (0#8) BitVec.and_zero rfl)

theorem popc (d : BitVec 5) (a : BitVec 5) : Statement (.popc d a) := by
  intro _ pos g
  show Fits (hAppend (hAppend (hAppend (hAppend (hAppend pos g) 136#9) d) a) 0#8) _
  refine ⟨⟨.popc d a, 0xFC#32, 0x0#32, 0x3#32⟩, ?_, rfl, ?_, ?_⟩
  · rw [rowOf_Bit (by simp (disch := decide) only [BitVec.extractLsb'_append_eq_of_add_le, BitVec.extractLsb'_append_eq_of_le]; rfl)]
    unfold rowBit
    rw [show (hAppend (hAppend (hAppend (hAppend (hAppend pos g) 136#9) d) a) 0#8).extractLsb' 18 4 = 8#4 from by simp (disch := decide) only [BitVec.extractLsb'_append_eq_of_add_le, BitVec.extractLsb'_append_eq_of_le]; rfl]
    show Except.ok _ = _
    simp (disch := decide) only [BitVec.extractLsb'_append_eq_of_add_le, BitVec.extractLsb'_append_eq_of_le]
    simp
  · exact and_mask (m := (hAppend 0#24 3#8)) (m' := 0x3#32) (v' := 0x0#32) (by decide) (@and_app 24 8 _ _ _ _ _ (0#8) BitVec.and_zero rfl)
  · exact and_mask (m := (hAppend 0#24 252#8)) (m' := 0xFC#32) (v' := 0x0#32) (by decide) (@and_app 24 8 _ _ _ _ _ (0#8) BitVec.and_zero rfl)

theorem bext (d : BitVec 5) (a : BitVec 5) (b : BitVec 5) (v : BitVec 1) : Statement (.bext d a b v) := by
  intro _ pos g
  show Fits (hAppend (hAppend (hAppend (hAppend (hAppend (hAppend (hAppend pos g) 137#9) d) a) b) 0#2) v) _
  refine ⟨⟨.bext d a b v, 0x4#32, 0x0#32, 0x2#32⟩, ?_, rfl, ?_, ?_⟩
  · rw [rowOf_Bit (by simp (disch := decide) only [BitVec.extractLsb'_append_eq_of_add_le, BitVec.extractLsb'_append_eq_of_le]; rfl)]
    unfold rowBit
    rw [show (hAppend (hAppend (hAppend (hAppend (hAppend (hAppend (hAppend pos g) 137#9) d) a) b) 0#2) v).extractLsb' 18 4 = 9#4 from by simp (disch := decide) only [BitVec.extractLsb'_append_eq_of_add_le, BitVec.extractLsb'_append_eq_of_le]; rfl]
    show Except.ok _ = _
    simp (disch := decide) only [BitVec.extractLsb'_append_eq_of_add_le, BitVec.extractLsb'_append_eq_of_le]
    simp
  · exact and_mask (m := (hAppend (hAppend 0#29 1#2) 0#1)) (m' := 0x2#32) (v' := 0x0#32) (by decide) (@and_app 31 1 _ _ _ _ _ (0#1) (@and_app 29 2 _ _ _ _ _ (0#2) BitVec.and_zero rfl) BitVec.and_zero)
  · exact and_mask (m := (hAppend (hAppend 0#29 2#2) 0#1)) (m' := 0x4#32) (v' := 0x0#32) (by decide) (@and_app 31 1 _ _ _ _ _ (0#1) (@and_app 29 2 _ _ _ _ _ (0#2) BitVec.and_zero rfl) BitVec.and_zero)

theorem bins (d : BitVec 5) (a : BitVec 5) (b : BitVec 5) : Statement (.bins d a b) := by
  intro _ pos g
  show Fits (hAppend (hAppend (hAppend (hAppend (hAppend (hAppend pos g) 138#9) d) a) b) 0#3) _
  refine ⟨⟨.bins d a b, 0x4#32, 0x0#32, 0x3#32⟩, ?_, rfl, ?_, ?_⟩
  · rw [rowOf_Bit (by simp (disch := decide) only [BitVec.extractLsb'_append_eq_of_add_le, BitVec.extractLsb'_append_eq_of_le]; rfl)]
    unfold rowBit
    rw [show (hAppend (hAppend (hAppend (hAppend (hAppend (hAppend pos g) 138#9) d) a) b) 0#3).extractLsb' 18 4 = 10#4 from by simp (disch := decide) only [BitVec.extractLsb'_append_eq_of_add_le, BitVec.extractLsb'_append_eq_of_le]; rfl]
    show Except.ok _ = _
    simp (disch := decide) only [BitVec.extractLsb'_append_eq_of_add_le, BitVec.extractLsb'_append_eq_of_le]
    simp
  · exact and_mask (m := (hAppend 0#29 3#3)) (m' := 0x3#32) (v' := 0x0#32) (by decide) (@and_app 29 3 _ _ _ _ _ (0#3) BitVec.and_zero rfl)
  · exact and_mask (m := (hAppend 0#29 4#3)) (m' := 0x4#32) (v' := 0x0#32) (by decide) (@and_app 29 3 _ _ _ _ _ (0#3) BitVec.and_zero rfl)

theorem bswap (d : BitVec 5) (a : BitVec 5) (v : BitVec 1) : Statement (.bswap d a v) := by
  intro _ pos g
  show Fits (hAppend (hAppend (hAppend (hAppend (hAppend (hAppend pos g) 139#9) d) a) 0#7) v) _
  refine ⟨⟨.bswap d a v, 0xFC#32, 0x0#32, 0x2#32⟩, ?_, rfl, ?_, ?_⟩
  · rw [rowOf_Bit (by simp (disch := decide) only [BitVec.extractLsb'_append_eq_of_add_le, BitVec.extractLsb'_append_eq_of_le]; rfl)]
    unfold rowBit
    rw [show (hAppend (hAppend (hAppend (hAppend (hAppend (hAppend pos g) 139#9) d) a) 0#7) v).extractLsb' 18 4 = 11#4 from by simp (disch := decide) only [BitVec.extractLsb'_append_eq_of_add_le, BitVec.extractLsb'_append_eq_of_le]; rfl]
    show Except.ok _ = _
    simp (disch := decide) only [BitVec.extractLsb'_append_eq_of_add_le, BitVec.extractLsb'_append_eq_of_le]
    simp
  · exact and_mask (m := (hAppend (hAppend 0#24 1#7) 0#1)) (m' := 0x2#32) (v' := 0x0#32) (by decide) (@and_app 31 1 _ _ _ _ _ (0#1) (@and_app 24 7 _ _ _ _ _ (0#7) BitVec.and_zero rfl) BitVec.and_zero)
  · exact and_mask (m := (hAppend (hAppend 0#24 126#7) 0#1)) (m' := 0xFC#32) (v' := 0x0#32) (by decide) (@and_app 31 1 _ _ _ _ _ (0#1) (@and_app 24 7 _ _ _ _ _ (0#7) BitVec.and_zero rfl) BitVec.and_zero)

theorem cpack (d : BitVec 5) (a : BitVec 5) (b : BitVec 5) : Statement (.cpack d a b) := by
  intro _ pos g
  show Fits (hAppend (hAppend (hAppend (hAppend (hAppend (hAppend pos g) 144#9) d) a) b) 0#3) _
  refine ⟨⟨.cpack d a b, 0x4#32, 0x0#32, 0x3#32⟩, ?_, rfl, ?_, ?_⟩
  · rw [rowOf_Path (by simp (disch := decide) only [BitVec.extractLsb'_append_eq_of_add_le, BitVec.extractLsb'_append_eq_of_le]; rfl)]
    unfold rowPath
    rw [show (hAppend (hAppend (hAppend (hAppend (hAppend (hAppend pos g) 144#9) d) a) b) 0#3).extractLsb' 18 4 = 0#4 from by simp (disch := decide) only [BitVec.extractLsb'_append_eq_of_add_le, BitVec.extractLsb'_append_eq_of_le]; rfl]
    show Except.ok _ = _
    simp (disch := decide) only [BitVec.extractLsb'_append_eq_of_add_le, BitVec.extractLsb'_append_eq_of_le]
    simp
  · exact and_mask (m := (hAppend 0#29 3#3)) (m' := 0x3#32) (v' := 0x0#32) (by decide) (@and_app 29 3 _ _ _ _ _ (0#3) BitVec.and_zero rfl)
  · exact and_mask (m := (hAppend 0#29 4#3)) (m' := 0x4#32) (v' := 0x0#32) (by decide) (@and_app 29 3 _ _ _ _ _ (0#3) BitVec.and_zero rfl)

theorem cadd (d : BitVec 5) (a : BitVec 5) (b : BitVec 5) : Statement (.cadd d a b) := by
  intro _ pos g
  show Fits (hAppend (hAppend (hAppend (hAppend (hAppend (hAppend pos g) 145#9) d) a) b) 0#3) _
  refine ⟨⟨.cadd d a b, 0x4#32, 0x0#32, 0x3#32⟩, ?_, rfl, ?_, ?_⟩
  · rw [rowOf_Path (by simp (disch := decide) only [BitVec.extractLsb'_append_eq_of_add_le, BitVec.extractLsb'_append_eq_of_le]; rfl)]
    unfold rowPath
    rw [show (hAppend (hAppend (hAppend (hAppend (hAppend (hAppend pos g) 145#9) d) a) b) 0#3).extractLsb' 18 4 = 1#4 from by simp (disch := decide) only [BitVec.extractLsb'_append_eq_of_add_le, BitVec.extractLsb'_append_eq_of_le]; rfl]
    show Except.ok _ = _
    simp (disch := decide) only [BitVec.extractLsb'_append_eq_of_add_le, BitVec.extractLsb'_append_eq_of_le]
    simp
  · exact and_mask (m := (hAppend 0#29 3#3)) (m' := 0x3#32) (v' := 0x0#32) (by decide) (@and_app 29 3 _ _ _ _ _ (0#3) BitVec.and_zero rfl)
  · exact and_mask (m := (hAppend 0#29 4#3)) (m' := 0x4#32) (v' := 0x0#32) (by decide) (@and_app 29 3 _ _ _ _ _ (0#3) BitVec.and_zero rfl)

theorem crow (d : BitVec 5) (a : BitVec 5) : Statement (.crow d a) := by
  intro _ pos g
  show Fits (hAppend (hAppend (hAppend (hAppend (hAppend pos g) 146#9) d) a) 0#8) _
  refine ⟨⟨.crow d a, 0xFC#32, 0x0#32, 0x3#32⟩, ?_, rfl, ?_, ?_⟩
  · rw [rowOf_Path (by simp (disch := decide) only [BitVec.extractLsb'_append_eq_of_add_le, BitVec.extractLsb'_append_eq_of_le]; rfl)]
    unfold rowPath
    rw [show (hAppend (hAppend (hAppend (hAppend (hAppend pos g) 146#9) d) a) 0#8).extractLsb' 18 4 = 2#4 from by simp (disch := decide) only [BitVec.extractLsb'_append_eq_of_add_le, BitVec.extractLsb'_append_eq_of_le]; rfl]
    show Except.ok _ = _
    simp (disch := decide) only [BitVec.extractLsb'_append_eq_of_add_le, BitVec.extractLsb'_append_eq_of_le]
    simp
  · exact and_mask (m := (hAppend 0#24 3#8)) (m' := 0x3#32) (v' := 0x0#32) (by decide) (@and_app 24 8 _ _ _ _ _ (0#8) BitVec.and_zero rfl)
  · exact and_mask (m := (hAppend 0#24 252#8)) (m' := 0xFC#32) (v' := 0x0#32) (by decide) (@and_app 24 8 _ _ _ _ _ (0#8) BitVec.and_zero rfl)

theorem ccol (d : BitVec 5) (a : BitVec 5) : Statement (.ccol d a) := by
  intro _ pos g
  show Fits (hAppend (hAppend (hAppend (hAppend (hAppend pos g) 147#9) d) a) 0#8) _
  refine ⟨⟨.ccol d a, 0xFC#32, 0x0#32, 0x3#32⟩, ?_, rfl, ?_, ?_⟩
  · rw [rowOf_Path (by simp (disch := decide) only [BitVec.extractLsb'_append_eq_of_add_le, BitVec.extractLsb'_append_eq_of_le]; rfl)]
    unfold rowPath
    rw [show (hAppend (hAppend (hAppend (hAppend (hAppend pos g) 147#9) d) a) 0#8).extractLsb' 18 4 = 3#4 from by simp (disch := decide) only [BitVec.extractLsb'_append_eq_of_add_le, BitVec.extractLsb'_append_eq_of_le]; rfl]
    show Except.ok _ = _
    simp (disch := decide) only [BitVec.extractLsb'_append_eq_of_add_le, BitVec.extractLsb'_append_eq_of_le]
    simp
  · exact and_mask (m := (hAppend 0#24 3#8)) (m' := 0x3#32) (v' := 0x0#32) (by decide) (@and_app 24 8 _ _ _ _ _ (0#8) BitVec.and_zero rfl)
  · exact and_mask (m := (hAppend 0#24 252#8)) (m' := 0xFC#32) (v' := 0x0#32) (by decide) (@and_app 24 8 _ _ _ _ _ (0#8) BitVec.and_zero rfl)

theorem bxdim (d : BitVec 5) (h : BitVec 4) (k : BitVec 2) : Statement (.bxdim d h k) := by
  intro _ pos g
  show Fits (hAppend (hAppend (hAppend (hAppend (hAppend (hAppend (hAppend pos g) 148#9) d) 0#1) h) 0#6) k) _
  refine ⟨⟨.bxdim d h k, 0x10FC#32, 0x0#32, 0x0#32⟩, ?_, rfl, ?_, ?_⟩
  · rw [rowOf_Path (by simp (disch := decide) only [BitVec.extractLsb'_append_eq_of_add_le, BitVec.extractLsb'_append_eq_of_le]; rfl)]
    unfold rowPath
    rw [show (hAppend (hAppend (hAppend (hAppend (hAppend (hAppend (hAppend pos g) 148#9) d) 0#1) h) 0#6) k).extractLsb' 18 4 = 4#4 from by simp (disch := decide) only [BitVec.extractLsb'_append_eq_of_add_le, BitVec.extractLsb'_append_eq_of_le]; rfl]
    show Except.ok _ = _
    simp (disch := decide) only [BitVec.extractLsb'_append_eq_of_add_le, BitVec.extractLsb'_append_eq_of_le]
    simp
  · exact BitVec.and_zero
  · exact and_mask (m := (hAppend (hAppend (hAppend (hAppend 0#19 1#1) 0#4) 63#6) 0#2)) (m' := 0x10FC#32) (v' := 0x0#32) (by decide) (@and_app 30 2 _ _ _ _ _ (0#2) (@and_app 24 6 _ _ _ _ _ (0#6) (@and_app 20 4 _ _ _ _ _ (0#4) (@and_app 19 1 _ _ _ _ _ (0#1) BitVec.and_zero rfl) BitVec.and_zero) rfl) BitVec.and_zero)

theorem bxok (d : BitVec 5) (h : BitVec 4) (b : BitVec 5) (v : BitVec 2) : Statement (.bxok d h b v) := by
  intro _ pos g
  show Fits (hAppend (hAppend (hAppend (hAppend (hAppend (hAppend (hAppend (hAppend pos g) 149#9) d) 0#1) h) b) 0#1) v) _
  refine ⟨⟨.bxok d h b v, 0x1004#32, 0x0#32, 0x0#32⟩, ?_, rfl, ?_, ?_⟩
  · rw [rowOf_Path (by simp (disch := decide) only [BitVec.extractLsb'_append_eq_of_add_le, BitVec.extractLsb'_append_eq_of_le]; rfl)]
    unfold rowPath
    rw [show (hAppend (hAppend (hAppend (hAppend (hAppend (hAppend (hAppend (hAppend pos g) 149#9) d) 0#1) h) b) 0#1) v).extractLsb' 18 4 = 5#4 from by simp (disch := decide) only [BitVec.extractLsb'_append_eq_of_add_le, BitVec.extractLsb'_append_eq_of_le]; rfl]
    show Except.ok _ = _
    simp (disch := decide) only [BitVec.extractLsb'_append_eq_of_add_le, BitVec.extractLsb'_append_eq_of_le]
    simp
  · exact BitVec.and_zero
  · exact and_mask (m := (hAppend (hAppend (hAppend (hAppend (hAppend 0#19 1#1) 0#4) 0#5) 1#1) 0#2)) (m' := 0x1004#32) (v' := 0x0#32) (by decide) (@and_app 30 2 _ _ _ _ _ (0#2) (@and_app 29 1 _ _ _ _ _ (0#1) (@and_app 24 5 _ _ _ _ _ (0#5) (@and_app 20 4 _ _ _ _ _ (0#4) (@and_app 19 1 _ _ _ _ _ (0#1) BitVec.and_zero rfl) BitVec.and_zero) BitVec.and_zero) rfl) BitVec.and_zero)

theorem fli (d : BitVec 4) (i : BitVec 20) : Statement (.fli d i) := by
  intro _ pos g
  show Fits (hAppend (hAppend (hAppend (hAppend pos g) 7#3) d) i) _
  refine ⟨⟨.fli d i, 0x0#32, 0x0#32, 0x0#32⟩, ?_, rfl, ?_, ?_⟩
  · rw [rowOf_f20 (by rw [fli_major]; exact major_f20 _)]
    simp (disch := decide) only [rowF20, BitVec.extractLsb'_append_eq_of_add_le, BitVec.extractLsb'_append_eq_of_le]
    simp
  · exact BitVec.and_zero
  · exact BitVec.and_zero

theorem lmemLdb (d : BitVec 5) (h : BitVec 4) (p : BitVec 5) (f : BitVec 5) : Statement (.lmemLdb d h p f) := by
  intro _ pos g
  show Fits (hAppend (hAppend (hAppend (hAppend (hAppend (hAppend pos g) 80#8) d) h) p) f) _
  refine ⟨⟨.lmemLdb d h p f, 0x0#32, 0x0#32, 0x0#32⟩, ?_, rfl, ?_, ?_⟩
  · rw [rowOf_Lmem (by simp (disch := decide) only [BitVec.extractLsb'_append_eq_of_add_le, BitVec.extractLsb'_append_eq_of_le]; rfl)]
    unfold rowLmem
    rw [show (hAppend (hAppend (hAppend (hAppend (hAppend (hAppend pos g) 80#8) d) h) p) f).extractLsb' 19 3 = 0#3 from by simp (disch := decide) only [BitVec.extractLsb'_append_eq_of_add_le, BitVec.extractLsb'_append_eq_of_le]; rfl]
    show Except.ok _ = _
    simp (disch := decide) only [BitVec.extractLsb'_append_eq_of_add_le, BitVec.extractLsb'_append_eq_of_le]
    simp
  · exact BitVec.and_zero
  · exact BitVec.and_zero

theorem lmemLdh (d : BitVec 5) (h : BitVec 4) (p : BitVec 5) (f : BitVec 5) : Statement (.lmemLdh d h p f) := by
  intro _ pos g
  show Fits (hAppend (hAppend (hAppend (hAppend (hAppend (hAppend pos g) 81#8) d) h) p) f) _
  refine ⟨⟨.lmemLdh d h p f, 0x0#32, 0x0#32, 0x0#32⟩, ?_, rfl, ?_, ?_⟩
  · rw [rowOf_Lmem (by simp (disch := decide) only [BitVec.extractLsb'_append_eq_of_add_le, BitVec.extractLsb'_append_eq_of_le]; rfl)]
    unfold rowLmem
    rw [show (hAppend (hAppend (hAppend (hAppend (hAppend (hAppend pos g) 81#8) d) h) p) f).extractLsb' 19 3 = 1#3 from by simp (disch := decide) only [BitVec.extractLsb'_append_eq_of_add_le, BitVec.extractLsb'_append_eq_of_le]; rfl]
    show Except.ok _ = _
    simp (disch := decide) only [BitVec.extractLsb'_append_eq_of_add_le, BitVec.extractLsb'_append_eq_of_le]
    simp
  · exact BitVec.and_zero
  · exact BitVec.and_zero

theorem lmemLdw (d : BitVec 5) (h : BitVec 4) (p : BitVec 5) (f : BitVec 5) : Statement (.lmemLdw d h p f) := by
  intro _ pos g
  show Fits (hAppend (hAppend (hAppend (hAppend (hAppend (hAppend pos g) 82#8) d) h) p) f) _
  refine ⟨⟨.lmemLdw d h p f, 0x0#32, 0x0#32, 0x0#32⟩, ?_, rfl, ?_, ?_⟩
  · rw [rowOf_Lmem (by simp (disch := decide) only [BitVec.extractLsb'_append_eq_of_add_le, BitVec.extractLsb'_append_eq_of_le]; rfl)]
    unfold rowLmem
    rw [show (hAppend (hAppend (hAppend (hAppend (hAppend (hAppend pos g) 82#8) d) h) p) f).extractLsb' 19 3 = 2#3 from by simp (disch := decide) only [BitVec.extractLsb'_append_eq_of_add_le, BitVec.extractLsb'_append_eq_of_le]; rfl]
    show Except.ok _ = _
    simp (disch := decide) only [BitVec.extractLsb'_append_eq_of_add_le, BitVec.extractLsb'_append_eq_of_le]
    simp
  · exact BitVec.and_zero
  · exact BitVec.and_zero

theorem lmemStb (s : BitVec 5) (h : BitVec 4) (p : BitVec 5) (f : BitVec 5) : Statement (.lmemStb s h p f) := by
  intro _ pos g
  show Fits (hAppend (hAppend (hAppend (hAppend (hAppend (hAppend pos g) 83#8) s) h) p) f) _
  refine ⟨⟨.lmemStb s h p f, 0x0#32, 0x0#32, 0x0#32⟩, ?_, rfl, ?_, ?_⟩
  · rw [rowOf_Lmem (by simp (disch := decide) only [BitVec.extractLsb'_append_eq_of_add_le, BitVec.extractLsb'_append_eq_of_le]; rfl)]
    unfold rowLmem
    rw [show (hAppend (hAppend (hAppend (hAppend (hAppend (hAppend pos g) 83#8) s) h) p) f).extractLsb' 19 3 = 3#3 from by simp (disch := decide) only [BitVec.extractLsb'_append_eq_of_add_le, BitVec.extractLsb'_append_eq_of_le]; rfl]
    show Except.ok _ = _
    simp (disch := decide) only [BitVec.extractLsb'_append_eq_of_add_le, BitVec.extractLsb'_append_eq_of_le]
    simp
  · exact BitVec.and_zero
  · exact BitVec.and_zero

theorem lmemSth (s : BitVec 5) (h : BitVec 4) (p : BitVec 5) (f : BitVec 5) : Statement (.lmemSth s h p f) := by
  intro _ pos g
  show Fits (hAppend (hAppend (hAppend (hAppend (hAppend (hAppend pos g) 84#8) s) h) p) f) _
  refine ⟨⟨.lmemSth s h p f, 0x0#32, 0x0#32, 0x0#32⟩, ?_, rfl, ?_, ?_⟩
  · rw [rowOf_Lmem (by simp (disch := decide) only [BitVec.extractLsb'_append_eq_of_add_le, BitVec.extractLsb'_append_eq_of_le]; rfl)]
    unfold rowLmem
    rw [show (hAppend (hAppend (hAppend (hAppend (hAppend (hAppend pos g) 84#8) s) h) p) f).extractLsb' 19 3 = 4#3 from by simp (disch := decide) only [BitVec.extractLsb'_append_eq_of_add_le, BitVec.extractLsb'_append_eq_of_le]; rfl]
    show Except.ok _ = _
    simp (disch := decide) only [BitVec.extractLsb'_append_eq_of_add_le, BitVec.extractLsb'_append_eq_of_le]
    simp
  · exact BitVec.and_zero
  · exact BitVec.and_zero

theorem lmemStw (s : BitVec 5) (h : BitVec 4) (p : BitVec 5) (f : BitVec 5) : Statement (.lmemStw s h p f) := by
  intro _ pos g
  show Fits (hAppend (hAppend (hAppend (hAppend (hAppend (hAppend pos g) 85#8) s) h) p) f) _
  refine ⟨⟨.lmemStw s h p f, 0x0#32, 0x0#32, 0x0#32⟩, ?_, rfl, ?_, ?_⟩
  · rw [rowOf_Lmem (by simp (disch := decide) only [BitVec.extractLsb'_append_eq_of_add_le, BitVec.extractLsb'_append_eq_of_le]; rfl)]
    unfold rowLmem
    rw [show (hAppend (hAppend (hAppend (hAppend (hAppend (hAppend pos g) 85#8) s) h) p) f).extractLsb' 19 3 = 5#3 from by simp (disch := decide) only [BitVec.extractLsb'_append_eq_of_add_le, BitVec.extractLsb'_append_eq_of_le]; rfl]
    show Except.ok _ = _
    simp (disch := decide) only [BitVec.extractLsb'_append_eq_of_add_le, BitVec.extractLsb'_append_eq_of_le]
    simp
  · exact BitVec.and_zero
  · exact BitVec.and_zero

theorem lmemTldr (t : BitVec 3) (c : BitVec 2) (h : BitVec 4) (p : BitVec 5) (f : BitVec 5) : Statement (.lmemTldr t c h p f) := by
  intro _ pos g
  show Fits (hAppend (hAppend (hAppend (hAppend (hAppend (hAppend (hAppend pos g) 86#8) t) c) h) p) f) _
  refine ⟨⟨.lmemTldr t c h p f, 0x0#32, 0x0#32, 0x0#32⟩, ?_, rfl, ?_, ?_⟩
  · rw [rowOf_Lmem (by simp (disch := decide) only [BitVec.extractLsb'_append_eq_of_add_le, BitVec.extractLsb'_append_eq_of_le]; rfl)]
    unfold rowLmem
    rw [show (hAppend (hAppend (hAppend (hAppend (hAppend (hAppend (hAppend pos g) 86#8) t) c) h) p) f).extractLsb' 19 3 = 6#3 from by simp (disch := decide) only [BitVec.extractLsb'_append_eq_of_add_le, BitVec.extractLsb'_append_eq_of_le]; rfl]
    show Except.ok _ = _
    simp (disch := decide) only [BitVec.extractLsb'_append_eq_of_add_le, BitVec.extractLsb'_append_eq_of_le]
    simp
  · exact BitVec.and_zero
  · exact BitVec.and_zero

theorem lmemTstr (t : BitVec 3) (c : BitVec 2) (h : BitVec 4) (p : BitVec 5) (f : BitVec 5) : Statement (.lmemTstr t c h p f) := by
  intro _ pos g
  show Fits (hAppend (hAppend (hAppend (hAppend (hAppend (hAppend (hAppend pos g) 87#8) t) c) h) p) f) _
  refine ⟨⟨.lmemTstr t c h p f, 0x0#32, 0x0#32, 0x0#32⟩, ?_, rfl, ?_, ?_⟩
  · rw [rowOf_Lmem (by simp (disch := decide) only [BitVec.extractLsb'_append_eq_of_add_le, BitVec.extractLsb'_append_eq_of_le]; rfl)]
    unfold rowLmem
    rw [show (hAppend (hAppend (hAppend (hAppend (hAppend (hAppend (hAppend pos g) 87#8) t) c) h) p) f).extractLsb' 19 3 = 7#3 from by simp (disch := decide) only [BitVec.extractLsb'_append_eq_of_add_le, BitVec.extractLsb'_append_eq_of_le]; rfl]
    show Except.ok _ = _
    simp (disch := decide) only [BitVec.extractLsb'_append_eq_of_add_le, BitVec.extractLsb'_append_eq_of_le]
    simp
  · exact BitVec.and_zero
  · exact BitVec.and_zero

theorem hmemLdb (d : BitVec 5) (h : BitVec 4) (p : BitVec 5) (f : BitVec 5) : Statement (.hmemLdb d h p f) := by
  intro _ pos g
  show Fits (hAppend (hAppend (hAppend (hAppend (hAppend (hAppend pos g) 96#8) d) h) p) f) _
  refine ⟨⟨.hmemLdb d h p f, 0x0#32, 0x0#32, 0x0#32⟩, ?_, rfl, ?_, ?_⟩
  · rw [rowOf_Hmem (by simp (disch := decide) only [BitVec.extractLsb'_append_eq_of_add_le, BitVec.extractLsb'_append_eq_of_le]; rfl)]
    unfold rowHmem
    rw [show (hAppend (hAppend (hAppend (hAppend (hAppend (hAppend pos g) 96#8) d) h) p) f).extractLsb' 19 3 = 0#3 from by simp (disch := decide) only [BitVec.extractLsb'_append_eq_of_add_le, BitVec.extractLsb'_append_eq_of_le]; rfl]
    show Except.ok _ = _
    simp (disch := decide) only [BitVec.extractLsb'_append_eq_of_add_le, BitVec.extractLsb'_append_eq_of_le]
    simp
  · exact BitVec.and_zero
  · exact BitVec.and_zero

theorem hmemLdh (d : BitVec 5) (h : BitVec 4) (p : BitVec 5) (f : BitVec 5) : Statement (.hmemLdh d h p f) := by
  intro _ pos g
  show Fits (hAppend (hAppend (hAppend (hAppend (hAppend (hAppend pos g) 97#8) d) h) p) f) _
  refine ⟨⟨.hmemLdh d h p f, 0x0#32, 0x0#32, 0x0#32⟩, ?_, rfl, ?_, ?_⟩
  · rw [rowOf_Hmem (by simp (disch := decide) only [BitVec.extractLsb'_append_eq_of_add_le, BitVec.extractLsb'_append_eq_of_le]; rfl)]
    unfold rowHmem
    rw [show (hAppend (hAppend (hAppend (hAppend (hAppend (hAppend pos g) 97#8) d) h) p) f).extractLsb' 19 3 = 1#3 from by simp (disch := decide) only [BitVec.extractLsb'_append_eq_of_add_le, BitVec.extractLsb'_append_eq_of_le]; rfl]
    show Except.ok _ = _
    simp (disch := decide) only [BitVec.extractLsb'_append_eq_of_add_le, BitVec.extractLsb'_append_eq_of_le]
    simp
  · exact BitVec.and_zero
  · exact BitVec.and_zero

theorem hmemLdw (d : BitVec 5) (h : BitVec 4) (p : BitVec 5) (f : BitVec 5) : Statement (.hmemLdw d h p f) := by
  intro _ pos g
  show Fits (hAppend (hAppend (hAppend (hAppend (hAppend (hAppend pos g) 98#8) d) h) p) f) _
  refine ⟨⟨.hmemLdw d h p f, 0x0#32, 0x0#32, 0x0#32⟩, ?_, rfl, ?_, ?_⟩
  · rw [rowOf_Hmem (by simp (disch := decide) only [BitVec.extractLsb'_append_eq_of_add_le, BitVec.extractLsb'_append_eq_of_le]; rfl)]
    unfold rowHmem
    rw [show (hAppend (hAppend (hAppend (hAppend (hAppend (hAppend pos g) 98#8) d) h) p) f).extractLsb' 19 3 = 2#3 from by simp (disch := decide) only [BitVec.extractLsb'_append_eq_of_add_le, BitVec.extractLsb'_append_eq_of_le]; rfl]
    show Except.ok _ = _
    simp (disch := decide) only [BitVec.extractLsb'_append_eq_of_add_le, BitVec.extractLsb'_append_eq_of_le]
    simp
  · exact BitVec.and_zero
  · exact BitVec.and_zero

theorem hmemStb (s : BitVec 5) (h : BitVec 4) (p : BitVec 5) (f : BitVec 5) : Statement (.hmemStb s h p f) := by
  intro _ pos g
  show Fits (hAppend (hAppend (hAppend (hAppend (hAppend (hAppend pos g) 99#8) s) h) p) f) _
  refine ⟨⟨.hmemStb s h p f, 0x0#32, 0x0#32, 0x0#32⟩, ?_, rfl, ?_, ?_⟩
  · rw [rowOf_Hmem (by simp (disch := decide) only [BitVec.extractLsb'_append_eq_of_add_le, BitVec.extractLsb'_append_eq_of_le]; rfl)]
    unfold rowHmem
    rw [show (hAppend (hAppend (hAppend (hAppend (hAppend (hAppend pos g) 99#8) s) h) p) f).extractLsb' 19 3 = 3#3 from by simp (disch := decide) only [BitVec.extractLsb'_append_eq_of_add_le, BitVec.extractLsb'_append_eq_of_le]; rfl]
    show Except.ok _ = _
    simp (disch := decide) only [BitVec.extractLsb'_append_eq_of_add_le, BitVec.extractLsb'_append_eq_of_le]
    simp
  · exact BitVec.and_zero
  · exact BitVec.and_zero

theorem hmemSth (s : BitVec 5) (h : BitVec 4) (p : BitVec 5) (f : BitVec 5) : Statement (.hmemSth s h p f) := by
  intro _ pos g
  show Fits (hAppend (hAppend (hAppend (hAppend (hAppend (hAppend pos g) 100#8) s) h) p) f) _
  refine ⟨⟨.hmemSth s h p f, 0x0#32, 0x0#32, 0x0#32⟩, ?_, rfl, ?_, ?_⟩
  · rw [rowOf_Hmem (by simp (disch := decide) only [BitVec.extractLsb'_append_eq_of_add_le, BitVec.extractLsb'_append_eq_of_le]; rfl)]
    unfold rowHmem
    rw [show (hAppend (hAppend (hAppend (hAppend (hAppend (hAppend pos g) 100#8) s) h) p) f).extractLsb' 19 3 = 4#3 from by simp (disch := decide) only [BitVec.extractLsb'_append_eq_of_add_le, BitVec.extractLsb'_append_eq_of_le]; rfl]
    show Except.ok _ = _
    simp (disch := decide) only [BitVec.extractLsb'_append_eq_of_add_le, BitVec.extractLsb'_append_eq_of_le]
    simp
  · exact BitVec.and_zero
  · exact BitVec.and_zero

theorem hmemStw (s : BitVec 5) (h : BitVec 4) (p : BitVec 5) (f : BitVec 5) : Statement (.hmemStw s h p f) := by
  intro _ pos g
  show Fits (hAppend (hAppend (hAppend (hAppend (hAppend (hAppend pos g) 101#8) s) h) p) f) _
  refine ⟨⟨.hmemStw s h p f, 0x0#32, 0x0#32, 0x0#32⟩, ?_, rfl, ?_, ?_⟩
  · rw [rowOf_Hmem (by simp (disch := decide) only [BitVec.extractLsb'_append_eq_of_add_le, BitVec.extractLsb'_append_eq_of_le]; rfl)]
    unfold rowHmem
    rw [show (hAppend (hAppend (hAppend (hAppend (hAppend (hAppend pos g) 101#8) s) h) p) f).extractLsb' 19 3 = 5#3 from by simp (disch := decide) only [BitVec.extractLsb'_append_eq_of_add_le, BitVec.extractLsb'_append_eq_of_le]; rfl]
    show Except.ok _ = _
    simp (disch := decide) only [BitVec.extractLsb'_append_eq_of_add_le, BitVec.extractLsb'_append_eq_of_le]
    simp
  · exact BitVec.and_zero
  · exact BitVec.and_zero

theorem hmemTldr (t : BitVec 3) (c : BitVec 2) (h : BitVec 4) (p : BitVec 5) (f : BitVec 5) : Statement (.hmemTldr t c h p f) := by
  intro _ pos g
  show Fits (hAppend (hAppend (hAppend (hAppend (hAppend (hAppend (hAppend pos g) 102#8) t) c) h) p) f) _
  refine ⟨⟨.hmemTldr t c h p f, 0x0#32, 0x0#32, 0x0#32⟩, ?_, rfl, ?_, ?_⟩
  · rw [rowOf_Hmem (by simp (disch := decide) only [BitVec.extractLsb'_append_eq_of_add_le, BitVec.extractLsb'_append_eq_of_le]; rfl)]
    unfold rowHmem
    rw [show (hAppend (hAppend (hAppend (hAppend (hAppend (hAppend (hAppend pos g) 102#8) t) c) h) p) f).extractLsb' 19 3 = 6#3 from by simp (disch := decide) only [BitVec.extractLsb'_append_eq_of_add_le, BitVec.extractLsb'_append_eq_of_le]; rfl]
    show Except.ok _ = _
    simp (disch := decide) only [BitVec.extractLsb'_append_eq_of_add_le, BitVec.extractLsb'_append_eq_of_le]
    simp
  · exact BitVec.and_zero
  · exact BitVec.and_zero

theorem hmemTstr (t : BitVec 3) (c : BitVec 2) (h : BitVec 4) (p : BitVec 5) (f : BitVec 5) : Statement (.hmemTstr t c h p f) := by
  intro _ pos g
  show Fits (hAppend (hAppend (hAppend (hAppend (hAppend (hAppend (hAppend pos g) 103#8) t) c) h) p) f) _
  refine ⟨⟨.hmemTstr t c h p f, 0x0#32, 0x0#32, 0x0#32⟩, ?_, rfl, ?_, ?_⟩
  · rw [rowOf_Hmem (by simp (disch := decide) only [BitVec.extractLsb'_append_eq_of_add_le, BitVec.extractLsb'_append_eq_of_le]; rfl)]
    unfold rowHmem
    rw [show (hAppend (hAppend (hAppend (hAppend (hAppend (hAppend (hAppend pos g) 103#8) t) c) h) p) f).extractLsb' 19 3 = 7#3 from by simp (disch := decide) only [BitVec.extractLsb'_append_eq_of_add_le, BitVec.extractLsb'_append_eq_of_le]; rfl]
    show Except.ok _ = _
    simp (disch := decide) only [BitVec.extractLsb'_append_eq_of_add_le, BitVec.extractLsb'_append_eq_of_le]
    simp
  · exact BitVec.and_zero
  · exact BitVec.and_zero

theorem ldwa (d : BitVec 5) (h : BitVec 4) (p : BitVec 5) (f : BitVec 5) : Statement (.ldwa d h p f) := by
  intro _ pos g
  show Fits (hAppend (hAppend (hAppend (hAppend (hAppend (hAppend pos g) 88#8) d) h) p) f) _
  refine ⟨⟨.ldwa d h p f, 0x0#32, 0x0#32, 0x0#32⟩, ?_, rfl, ?_, ?_⟩
  · rw [rowOf_Lspec (by simp (disch := decide) only [BitVec.extractLsb'_append_eq_of_add_le, BitVec.extractLsb'_append_eq_of_le]; rfl)]
    unfold rowLspec
    rw [show (hAppend (hAppend (hAppend (hAppend (hAppend (hAppend pos g) 88#8) d) h) p) f).extractLsb' 19 3 = 0#3 from by simp (disch := decide) only [BitVec.extractLsb'_append_eq_of_add_le, BitVec.extractLsb'_append_eq_of_le]; rfl]
    show Except.ok _ = _
    simp (disch := decide) only [BitVec.extractLsb'_append_eq_of_add_le, BitVec.extractLsb'_append_eq_of_le]
    simp
  · exact BitVec.and_zero
  · exact BitVec.and_zero

theorem ldwc (d : BitVec 5) (h : BitVec 4) (p : BitVec 5) (f : BitVec 5) : Statement (.ldwc d h p f) := by
  intro _ pos g
  show Fits (hAppend (hAppend (hAppend (hAppend (hAppend (hAppend pos g) 89#8) d) h) p) f) _
  refine ⟨⟨.ldwc d h p f, 0x0#32, 0x0#32, 0x0#32⟩, ?_, rfl, ?_, ?_⟩
  · rw [rowOf_Lspec (by simp (disch := decide) only [BitVec.extractLsb'_append_eq_of_add_le, BitVec.extractLsb'_append_eq_of_le]; rfl)]
    unfold rowLspec
    rw [show (hAppend (hAppend (hAppend (hAppend (hAppend (hAppend pos g) 89#8) d) h) p) f).extractLsb' 19 3 = 1#3 from by simp (disch := decide) only [BitVec.extractLsb'_append_eq_of_add_le, BitVec.extractLsb'_append_eq_of_le]; rfl]
    show Except.ok _ = _
    simp (disch := decide) only [BitVec.extractLsb'_append_eq_of_add_le, BitVec.extractLsb'_append_eq_of_le]
    simp
  · exact BitVec.and_zero
  · exact BitVec.and_zero

theorem tldra (t : BitVec 3) (c : BitVec 1) (h : BitVec 4) (p : BitVec 5) (f : BitVec 5) : Statement (.tldra t c h p f) := by
  intro _ pos g
  show Fits (hAppend (hAppend (hAppend (hAppend (hAppend (hAppend (hAppend (hAppend pos g) 90#8) t) 0#1) c) h) p) f) _
  have h8000 : (hAppend (hAppend (hAppend (hAppend (hAppend (hAppend (hAppend (hAppend pos g) 90#8) t) 0#1) c) h) p) f) &&& 0x8000#32 = 0x0#32 := and_mask (m := (hAppend (hAppend (hAppend (hAppend (hAppend 0#16 1#1) 0#1) 0#4) 0#5) 0#5)) (by decide) (@and_app 27 5 _ _ _ _ _ (0#5) (@and_app 22 5 _ _ _ _ _ (0#5) (@and_app 18 4 _ _ _ _ _ (0#4) (@and_app 17 1 _ _ _ _ _ (0#1) (@and_app 16 1 _ _ _ _ _ (0#1) BitVec.and_zero rfl) BitVec.and_zero) BitVec.and_zero) BitVec.and_zero) BitVec.and_zero)
  refine ⟨⟨.tldra t c h p f, 0x0#32, 0x0#32, 0x0#32⟩, ?_, rfl, ?_, ?_⟩
  · rw [rowOf_Lspec (by simp (disch := decide) only [BitVec.extractLsb'_append_eq_of_add_le, BitVec.extractLsb'_append_eq_of_le]; rfl)]
    simp (disch := decide) only [rowLspec, BitVec.extractLsb'_append_eq_of_add_le, BitVec.extractLsb'_append_eq_of_le, h8000]
    simp
  · exact BitVec.and_zero
  · exact BitVec.and_zero

theorem tldrc (t : BitVec 3) (c : BitVec 1) (h : BitVec 4) (p : BitVec 5) (f : BitVec 5) : Statement (.tldrc t c h p f) := by
  intro _ pos g
  show Fits (hAppend (hAppend (hAppend (hAppend (hAppend (hAppend (hAppend (hAppend pos g) 91#8) t) 0#1) c) h) p) f) _
  have h8000 : (hAppend (hAppend (hAppend (hAppend (hAppend (hAppend (hAppend (hAppend pos g) 91#8) t) 0#1) c) h) p) f) &&& 0x8000#32 = 0x0#32 := and_mask (m := (hAppend (hAppend (hAppend (hAppend (hAppend 0#16 1#1) 0#1) 0#4) 0#5) 0#5)) (by decide) (@and_app 27 5 _ _ _ _ _ (0#5) (@and_app 22 5 _ _ _ _ _ (0#5) (@and_app 18 4 _ _ _ _ _ (0#4) (@and_app 17 1 _ _ _ _ _ (0#1) (@and_app 16 1 _ _ _ _ _ (0#1) BitVec.and_zero rfl) BitVec.and_zero) BitVec.and_zero) BitVec.and_zero) BitVec.and_zero)
  refine ⟨⟨.tldrc t c h p f, 0x0#32, 0x0#32, 0x0#32⟩, ?_, rfl, ?_, ?_⟩
  · rw [rowOf_Lspec (by simp (disch := decide) only [BitVec.extractLsb'_append_eq_of_add_le, BitVec.extractLsb'_append_eq_of_le]; rfl)]
    simp (disch := decide) only [rowLspec, BitVec.extractLsb'_append_eq_of_add_le, BitVec.extractLsb'_append_eq_of_le, h8000]
    simp
  · exact BitVec.and_zero
  · exact BitVec.and_zero

theorem atclr (h : BitVec 4) (p : BitVec 5) (f : BitVec 5) : Statement (.atclr h p f) := by
  intro _ pos g
  show Fits (hAppend (hAppend (hAppend (hAppend (hAppend pos g) 2944#13) h) p) f) _
  have h7c000 : (hAppend (hAppend (hAppend (hAppend (hAppend pos g) 2944#13) h) p) f) &&& 0x7C000#32 = 0x0#32 := and_mask (m := (hAppend (hAppend (hAppend (hAppend 0#5 31#13) 0#4) 0#5) 0#5)) (by decide) (@and_app 27 5 _ _ _ _ _ (0#5) (@and_app 22 5 _ _ _ _ _ (0#5) (@and_app 18 4 _ _ _ _ _ (0#4) (@and_app 5 13 _ _ _ _ _ (0#13) BitVec.and_zero rfl) BitVec.and_zero) BitVec.and_zero) BitVec.and_zero)
  refine ⟨⟨.atclr h p f, 0x0#32, 0x0#32, 0x0#32⟩, ?_, rfl, ?_, ?_⟩
  · rw [rowOf_Lspec (by simp (disch := decide) only [BitVec.extractLsb'_append_eq_of_add_le, BitVec.extractLsb'_append_eq_of_le]; rfl)]
    simp (disch := decide) only [rowLspec, BitVec.extractLsb'_append_eq_of_add_le, BitVec.extractLsb'_append_eq_of_le, h7c000]
    simp
  · exact BitVec.and_zero
  · exact BitVec.and_zero

theorem amadd (n : BitVec 5) (h : BitVec 4) (p : BitVec 5) (f : BitVec 5) : Statement (.amadd n h p f) := by
  intro _ pos g
  show Fits (hAppend (hAppend (hAppend (hAppend (hAppend (hAppend pos g) 104#8) n) h) p) f) _
  refine ⟨⟨.amadd n h p f, 0x0#32, 0x0#32, 0x0#32⟩, ?_, rfl, ?_, ?_⟩
  · rw [rowOf_Hatom (by simp (disch := decide) only [BitVec.extractLsb'_append_eq_of_add_le, BitVec.extractLsb'_append_eq_of_le]; rfl)]
    unfold rowHatom
    rw [show (hAppend (hAppend (hAppend (hAppend (hAppend (hAppend pos g) 104#8) n) h) p) f).extractLsb' 19 3 = 0#3 from by simp (disch := decide) only [BitVec.extractLsb'_append_eq_of_add_le, BitVec.extractLsb'_append_eq_of_le]; rfl]
    show Except.ok _ = _
    simp (disch := decide) only [BitVec.extractLsb'_append_eq_of_add_le, BitVec.extractLsb'_append_eq_of_le]
    simp
  · exact BitVec.and_zero
  · exact BitVec.and_zero

theorem amswap (n : BitVec 5) (h : BitVec 4) (p : BitVec 5) (f : BitVec 5) : Statement (.amswap n h p f) := by
  intro _ pos g
  show Fits (hAppend (hAppend (hAppend (hAppend (hAppend (hAppend pos g) 105#8) n) h) p) f) _
  refine ⟨⟨.amswap n h p f, 0x0#32, 0x0#32, 0x0#32⟩, ?_, rfl, ?_, ?_⟩
  · rw [rowOf_Hatom (by simp (disch := decide) only [BitVec.extractLsb'_append_eq_of_add_le, BitVec.extractLsb'_append_eq_of_le]; rfl)]
    unfold rowHatom
    rw [show (hAppend (hAppend (hAppend (hAppend (hAppend (hAppend pos g) 105#8) n) h) p) f).extractLsb' 19 3 = 1#3 from by simp (disch := decide) only [BitVec.extractLsb'_append_eq_of_add_le, BitVec.extractLsb'_append_eq_of_le]; rfl]
    show Except.ok _ = _
    simp (disch := decide) only [BitVec.extractLsb'_append_eq_of_add_le, BitVec.extractLsb'_append_eq_of_le]
    simp
  · exact BitVec.and_zero
  · exact BitVec.and_zero

theorem amcas (n : BitVec 5) (h : BitVec 4) (p : BitVec 5) (f : BitVec 5) : Statement (.amcas n h p f) := by
  intro _ pos g
  show Fits (hAppend (hAppend (hAppend (hAppend (hAppend (hAppend pos g) 106#8) n) h) p) f) _
  refine ⟨⟨.amcas n h p f, 0x0#32, 0x0#32, 0x0#32⟩, ?_, rfl, ?_, ?_⟩
  · rw [rowOf_Hatom (by simp (disch := decide) only [BitVec.extractLsb'_append_eq_of_add_le, BitVec.extractLsb'_append_eq_of_le]; rfl)]
    unfold rowHatom
    rw [show (hAppend (hAppend (hAppend (hAppend (hAppend (hAppend pos g) 106#8) n) h) p) f).extractLsb' 19 3 = 2#3 from by simp (disch := decide) only [BitVec.extractLsb'_append_eq_of_add_le, BitVec.extractLsb'_append_eq_of_le]; rfl]
    show Except.ok _ = _
    simp (disch := decide) only [BitVec.extractLsb'_append_eq_of_add_le, BitVec.extractLsb'_append_eq_of_le]
    simp
  · exact BitVec.and_zero
  · exact BitVec.and_zero

theorem ammin (n : BitVec 5) (h : BitVec 4) (p : BitVec 5) (f : BitVec 5) : Statement (.ammin n h p f) := by
  intro _ pos g
  show Fits (hAppend (hAppend (hAppend (hAppend (hAppend (hAppend pos g) 107#8) n) h) p) f) _
  refine ⟨⟨.ammin n h p f, 0x0#32, 0x0#32, 0x0#32⟩, ?_, rfl, ?_, ?_⟩
  · rw [rowOf_Hatom (by simp (disch := decide) only [BitVec.extractLsb'_append_eq_of_add_le, BitVec.extractLsb'_append_eq_of_le]; rfl)]
    unfold rowHatom
    rw [show (hAppend (hAppend (hAppend (hAppend (hAppend (hAppend pos g) 107#8) n) h) p) f).extractLsb' 19 3 = 3#3 from by simp (disch := decide) only [BitVec.extractLsb'_append_eq_of_add_le, BitVec.extractLsb'_append_eq_of_le]; rfl]
    show Except.ok _ = _
    simp (disch := decide) only [BitVec.extractLsb'_append_eq_of_add_le, BitVec.extractLsb'_append_eq_of_le]
    simp
  · exact BitVec.and_zero
  · exact BitVec.and_zero

theorem ammax (n : BitVec 5) (h : BitVec 4) (p : BitVec 5) (f : BitVec 5) : Statement (.ammax n h p f) := by
  intro _ pos g
  show Fits (hAppend (hAppend (hAppend (hAppend (hAppend (hAppend pos g) 108#8) n) h) p) f) _
  refine ⟨⟨.ammax n h p f, 0x0#32, 0x0#32, 0x0#32⟩, ?_, rfl, ?_, ?_⟩
  · rw [rowOf_Hatom (by simp (disch := decide) only [BitVec.extractLsb'_append_eq_of_add_le, BitVec.extractLsb'_append_eq_of_le]; rfl)]
    unfold rowHatom
    rw [show (hAppend (hAppend (hAppend (hAppend (hAppend (hAppend pos g) 108#8) n) h) p) f).extractLsb' 19 3 = 4#3 from by simp (disch := decide) only [BitVec.extractLsb'_append_eq_of_add_le, BitVec.extractLsb'_append_eq_of_le]; rfl]
    show Except.ok _ = _
    simp (disch := decide) only [BitVec.extractLsb'_append_eq_of_add_le, BitVec.extractLsb'_append_eq_of_le]
    simp
  · exact BitVec.and_zero
  · exact BitVec.and_zero

theorem amand (n : BitVec 5) (h : BitVec 4) (p : BitVec 5) (f : BitVec 5) : Statement (.amand n h p f) := by
  intro _ pos g
  show Fits (hAppend (hAppend (hAppend (hAppend (hAppend (hAppend pos g) 109#8) n) h) p) f) _
  refine ⟨⟨.amand n h p f, 0x0#32, 0x0#32, 0x0#32⟩, ?_, rfl, ?_, ?_⟩
  · rw [rowOf_Hatom (by simp (disch := decide) only [BitVec.extractLsb'_append_eq_of_add_le, BitVec.extractLsb'_append_eq_of_le]; rfl)]
    unfold rowHatom
    rw [show (hAppend (hAppend (hAppend (hAppend (hAppend (hAppend pos g) 109#8) n) h) p) f).extractLsb' 19 3 = 5#3 from by simp (disch := decide) only [BitVec.extractLsb'_append_eq_of_add_le, BitVec.extractLsb'_append_eq_of_le]; rfl]
    show Except.ok _ = _
    simp (disch := decide) only [BitVec.extractLsb'_append_eq_of_add_le, BitVec.extractLsb'_append_eq_of_le]
    simp
  · exact BitVec.and_zero
  · exact BitVec.and_zero

theorem amor (n : BitVec 5) (h : BitVec 4) (p : BitVec 5) (f : BitVec 5) : Statement (.amor n h p f) := by
  intro _ pos g
  show Fits (hAppend (hAppend (hAppend (hAppend (hAppend (hAppend pos g) 110#8) n) h) p) f) _
  refine ⟨⟨.amor n h p f, 0x0#32, 0x0#32, 0x0#32⟩, ?_, rfl, ?_, ?_⟩
  · rw [rowOf_Hatom (by simp (disch := decide) only [BitVec.extractLsb'_append_eq_of_add_le, BitVec.extractLsb'_append_eq_of_le]; rfl)]
    unfold rowHatom
    rw [show (hAppend (hAppend (hAppend (hAppend (hAppend (hAppend pos g) 110#8) n) h) p) f).extractLsb' 19 3 = 6#3 from by simp (disch := decide) only [BitVec.extractLsb'_append_eq_of_add_le, BitVec.extractLsb'_append_eq_of_le]; rfl]
    show Except.ok _ = _
    simp (disch := decide) only [BitVec.extractLsb'_append_eq_of_add_le, BitVec.extractLsb'_append_eq_of_le]
    simp
  · exact BitVec.and_zero
  · exact BitVec.and_zero

theorem amxor (n : BitVec 5) (h : BitVec 4) (p : BitVec 5) (f : BitVec 5) : Statement (.amxor n h p f) := by
  intro _ pos g
  show Fits (hAppend (hAppend (hAppend (hAppend (hAppend (hAppend pos g) 111#8) n) h) p) f) _
  refine ⟨⟨.amxor n h p f, 0x0#32, 0x0#32, 0x0#32⟩, ?_, rfl, ?_, ?_⟩
  · rw [rowOf_Hatom (by simp (disch := decide) only [BitVec.extractLsb'_append_eq_of_add_le, BitVec.extractLsb'_append_eq_of_le]; rfl)]
    unfold rowHatom
    rw [show (hAppend (hAppend (hAppend (hAppend (hAppend (hAppend pos g) 111#8) n) h) p) f).extractLsb' 19 3 = 7#3 from by simp (disch := decide) only [BitVec.extractLsb'_append_eq_of_add_le, BitVec.extractLsb'_append_eq_of_le]; rfl]
    show Except.ok _ = _
    simp (disch := decide) only [BitVec.extractLsb'_append_eq_of_add_le, BitVec.extractLsb'_append_eq_of_le]
    simp
  · exact BitVec.and_zero
  · exact BitVec.and_zero

theorem tadd (d : BitVec 3) (a : BitVec 3) (s : BitVec 1) (b : BitVec 5) (f : BitVec 3) (w : BitVec 1) (q : BitVec 1) : Statement (.tadd d a s b f w q) := by
  intro _ pos g
  show Fits (hAppend (hAppend (hAppend (hAppend (hAppend (hAppend (hAppend (hAppend (hAppend pos g) 448#10) d) a) s) b) f) w) q) _
  refine ⟨⟨.tadd d a s b f w q, 0x0#32, 0x0#32, 0x0#32⟩, ?_, rfl, ?_, ?_⟩
  · rw [rowOf_Tint (by simp (disch := decide) only [BitVec.extractLsb'_append_eq_of_add_le, BitVec.extractLsb'_append_eq_of_le]; rfl)]
    unfold rowTint
    rw [show (hAppend (hAppend (hAppend (hAppend (hAppend (hAppend (hAppend (hAppend (hAppend pos g) 448#10) d) a) s) b) f) w) q).extractLsb' 17 5 = 0#5 from by simp (disch := decide) only [BitVec.extractLsb'_append_eq_of_add_le, BitVec.extractLsb'_append_eq_of_le]; rfl]
    show Except.ok _ = _
    simp (disch := decide) only [BitVec.extractLsb'_append_eq_of_add_le, BitVec.extractLsb'_append_eq_of_le]
    simp
  · exact BitVec.and_zero
  · exact BitVec.and_zero

theorem taddSat (d : BitVec 3) (a : BitVec 3) (s : BitVec 1) (b : BitVec 5) (f : BitVec 3) (w : BitVec 1) (q : BitVec 1) : Statement (.taddSat d a s b f w q) := by
  intro _ pos g
  show Fits (hAppend (hAppend (hAppend (hAppend (hAppend (hAppend (hAppend (hAppend (hAppend pos g) 449#10) d) a) s) b) f) w) q) _
  refine ⟨⟨.taddSat d a s b f w q, 0x0#32, 0x0#32, 0x0#32⟩, ?_, rfl, ?_, ?_⟩
  · rw [rowOf_Tint (by simp (disch := decide) only [BitVec.extractLsb'_append_eq_of_add_le, BitVec.extractLsb'_append_eq_of_le]; rfl)]
    unfold rowTint
    rw [show (hAppend (hAppend (hAppend (hAppend (hAppend (hAppend (hAppend (hAppend (hAppend pos g) 449#10) d) a) s) b) f) w) q).extractLsb' 17 5 = 1#5 from by simp (disch := decide) only [BitVec.extractLsb'_append_eq_of_add_le, BitVec.extractLsb'_append_eq_of_le]; rfl]
    show Except.ok _ = _
    simp (disch := decide) only [BitVec.extractLsb'_append_eq_of_add_le, BitVec.extractLsb'_append_eq_of_le]
    simp
  · exact BitVec.and_zero
  · exact BitVec.and_zero

theorem tsub (d : BitVec 3) (a : BitVec 3) (s : BitVec 1) (b : BitVec 5) (f : BitVec 3) (w : BitVec 1) (q : BitVec 1) : Statement (.tsub d a s b f w q) := by
  intro _ pos g
  show Fits (hAppend (hAppend (hAppend (hAppend (hAppend (hAppend (hAppend (hAppend (hAppend pos g) 450#10) d) a) s) b) f) w) q) _
  refine ⟨⟨.tsub d a s b f w q, 0x0#32, 0x0#32, 0x0#32⟩, ?_, rfl, ?_, ?_⟩
  · rw [rowOf_Tint (by simp (disch := decide) only [BitVec.extractLsb'_append_eq_of_add_le, BitVec.extractLsb'_append_eq_of_le]; rfl)]
    unfold rowTint
    rw [show (hAppend (hAppend (hAppend (hAppend (hAppend (hAppend (hAppend (hAppend (hAppend pos g) 450#10) d) a) s) b) f) w) q).extractLsb' 17 5 = 2#5 from by simp (disch := decide) only [BitVec.extractLsb'_append_eq_of_add_le, BitVec.extractLsb'_append_eq_of_le]; rfl]
    show Except.ok _ = _
    simp (disch := decide) only [BitVec.extractLsb'_append_eq_of_add_le, BitVec.extractLsb'_append_eq_of_le]
    simp
  · exact BitVec.and_zero
  · exact BitVec.and_zero

theorem tsubSat (d : BitVec 3) (a : BitVec 3) (s : BitVec 1) (b : BitVec 5) (f : BitVec 3) (w : BitVec 1) (q : BitVec 1) : Statement (.tsubSat d a s b f w q) := by
  intro _ pos g
  show Fits (hAppend (hAppend (hAppend (hAppend (hAppend (hAppend (hAppend (hAppend (hAppend pos g) 451#10) d) a) s) b) f) w) q) _
  refine ⟨⟨.tsubSat d a s b f w q, 0x0#32, 0x0#32, 0x0#32⟩, ?_, rfl, ?_, ?_⟩
  · rw [rowOf_Tint (by simp (disch := decide) only [BitVec.extractLsb'_append_eq_of_add_le, BitVec.extractLsb'_append_eq_of_le]; rfl)]
    unfold rowTint
    rw [show (hAppend (hAppend (hAppend (hAppend (hAppend (hAppend (hAppend (hAppend (hAppend pos g) 451#10) d) a) s) b) f) w) q).extractLsb' 17 5 = 3#5 from by simp (disch := decide) only [BitVec.extractLsb'_append_eq_of_add_le, BitVec.extractLsb'_append_eq_of_le]; rfl]
    show Except.ok _ = _
    simp (disch := decide) only [BitVec.extractLsb'_append_eq_of_add_le, BitVec.extractLsb'_append_eq_of_le]
    simp
  · exact BitVec.and_zero
  · exact BitVec.and_zero

theorem tmul (d : BitVec 3) (a : BitVec 3) (s : BitVec 1) (b : BitVec 5) (f : BitVec 3) (w : BitVec 1) (q : BitVec 1) : Statement (.tmul d a s b f w q) := by
  intro _ pos g
  show Fits (hAppend (hAppend (hAppend (hAppend (hAppend (hAppend (hAppend (hAppend (hAppend pos g) 452#10) d) a) s) b) f) w) q) _
  refine ⟨⟨.tmul d a s b f w q, 0x0#32, 0x0#32, 0x0#32⟩, ?_, rfl, ?_, ?_⟩
  · rw [rowOf_Tint (by simp (disch := decide) only [BitVec.extractLsb'_append_eq_of_add_le, BitVec.extractLsb'_append_eq_of_le]; rfl)]
    unfold rowTint
    rw [show (hAppend (hAppend (hAppend (hAppend (hAppend (hAppend (hAppend (hAppend (hAppend pos g) 452#10) d) a) s) b) f) w) q).extractLsb' 17 5 = 4#5 from by simp (disch := decide) only [BitVec.extractLsb'_append_eq_of_add_le, BitVec.extractLsb'_append_eq_of_le]; rfl]
    show Except.ok _ = _
    simp (disch := decide) only [BitVec.extractLsb'_append_eq_of_add_le, BitVec.extractLsb'_append_eq_of_le]
    simp
  · exact BitVec.and_zero
  · exact BitVec.and_zero

theorem tmulSat (d : BitVec 3) (a : BitVec 3) (s : BitVec 1) (b : BitVec 5) (f : BitVec 3) (w : BitVec 1) (q : BitVec 1) : Statement (.tmulSat d a s b f w q) := by
  intro _ pos g
  show Fits (hAppend (hAppend (hAppend (hAppend (hAppend (hAppend (hAppend (hAppend (hAppend pos g) 453#10) d) a) s) b) f) w) q) _
  refine ⟨⟨.tmulSat d a s b f w q, 0x0#32, 0x0#32, 0x0#32⟩, ?_, rfl, ?_, ?_⟩
  · rw [rowOf_Tint (by simp (disch := decide) only [BitVec.extractLsb'_append_eq_of_add_le, BitVec.extractLsb'_append_eq_of_le]; rfl)]
    unfold rowTint
    rw [show (hAppend (hAppend (hAppend (hAppend (hAppend (hAppend (hAppend (hAppend (hAppend pos g) 453#10) d) a) s) b) f) w) q).extractLsb' 17 5 = 5#5 from by simp (disch := decide) only [BitVec.extractLsb'_append_eq_of_add_le, BitVec.extractLsb'_append_eq_of_le]; rfl]
    show Except.ok _ = _
    simp (disch := decide) only [BitVec.extractLsb'_append_eq_of_add_le, BitVec.extractLsb'_append_eq_of_le]
    simp
  · exact BitVec.and_zero
  · exact BitVec.and_zero

theorem tmulh (d : BitVec 3) (a : BitVec 3) (s : BitVec 1) (b : BitVec 5) (f : BitVec 3) (w : BitVec 1) (q : BitVec 1) : Statement (.tmulh d a s b f w q) := by
  intro _ pos g
  show Fits (hAppend (hAppend (hAppend (hAppend (hAppend (hAppend (hAppend (hAppend (hAppend pos g) 454#10) d) a) s) b) f) w) q) _
  refine ⟨⟨.tmulh d a s b f w q, 0x0#32, 0x0#32, 0x0#32⟩, ?_, rfl, ?_, ?_⟩
  · rw [rowOf_Tint (by simp (disch := decide) only [BitVec.extractLsb'_append_eq_of_add_le, BitVec.extractLsb'_append_eq_of_le]; rfl)]
    unfold rowTint
    rw [show (hAppend (hAppend (hAppend (hAppend (hAppend (hAppend (hAppend (hAppend (hAppend pos g) 454#10) d) a) s) b) f) w) q).extractLsb' 17 5 = 6#5 from by simp (disch := decide) only [BitVec.extractLsb'_append_eq_of_add_le, BitVec.extractLsb'_append_eq_of_le]; rfl]
    show Except.ok _ = _
    simp (disch := decide) only [BitVec.extractLsb'_append_eq_of_add_le, BitVec.extractLsb'_append_eq_of_le]
    simp
  · exact BitVec.and_zero
  · exact BitVec.and_zero

theorem tmin (d : BitVec 3) (a : BitVec 3) (s : BitVec 1) (b : BitVec 5) (f : BitVec 3) (w : BitVec 1) (q : BitVec 1) : Statement (.tmin d a s b f w q) := by
  intro _ pos g
  show Fits (hAppend (hAppend (hAppend (hAppend (hAppend (hAppend (hAppend (hAppend (hAppend pos g) 455#10) d) a) s) b) f) w) q) _
  refine ⟨⟨.tmin d a s b f w q, 0x0#32, 0x0#32, 0x0#32⟩, ?_, rfl, ?_, ?_⟩
  · rw [rowOf_Tint (by simp (disch := decide) only [BitVec.extractLsb'_append_eq_of_add_le, BitVec.extractLsb'_append_eq_of_le]; rfl)]
    unfold rowTint
    rw [show (hAppend (hAppend (hAppend (hAppend (hAppend (hAppend (hAppend (hAppend (hAppend pos g) 455#10) d) a) s) b) f) w) q).extractLsb' 17 5 = 7#5 from by simp (disch := decide) only [BitVec.extractLsb'_append_eq_of_add_le, BitVec.extractLsb'_append_eq_of_le]; rfl]
    show Except.ok _ = _
    simp (disch := decide) only [BitVec.extractLsb'_append_eq_of_add_le, BitVec.extractLsb'_append_eq_of_le]
    simp
  · exact BitVec.and_zero
  · exact BitVec.and_zero

theorem tmax (d : BitVec 3) (a : BitVec 3) (s : BitVec 1) (b : BitVec 5) (f : BitVec 3) (w : BitVec 1) (q : BitVec 1) : Statement (.tmax d a s b f w q) := by
  intro _ pos g
  show Fits (hAppend (hAppend (hAppend (hAppend (hAppend (hAppend (hAppend (hAppend (hAppend pos g) 456#10) d) a) s) b) f) w) q) _
  refine ⟨⟨.tmax d a s b f w q, 0x0#32, 0x0#32, 0x0#32⟩, ?_, rfl, ?_, ?_⟩
  · rw [rowOf_Tint (by simp (disch := decide) only [BitVec.extractLsb'_append_eq_of_add_le, BitVec.extractLsb'_append_eq_of_le]; rfl)]
    unfold rowTint
    rw [show (hAppend (hAppend (hAppend (hAppend (hAppend (hAppend (hAppend (hAppend (hAppend pos g) 456#10) d) a) s) b) f) w) q).extractLsb' 17 5 = 8#5 from by simp (disch := decide) only [BitVec.extractLsb'_append_eq_of_add_le, BitVec.extractLsb'_append_eq_of_le]; rfl]
    show Except.ok _ = _
    simp (disch := decide) only [BitVec.extractLsb'_append_eq_of_add_le, BitVec.extractLsb'_append_eq_of_le]
    simp
  · exact BitVec.and_zero
  · exact BitVec.and_zero

theorem tand (d : BitVec 3) (a : BitVec 3) (s : BitVec 1) (b : BitVec 5) (f : BitVec 3) (w : BitVec 1) (q : BitVec 1) : Statement (.tand d a s b f w q) := by
  intro _ pos g
  show Fits (hAppend (hAppend (hAppend (hAppend (hAppend (hAppend (hAppend (hAppend (hAppend pos g) 457#10) d) a) s) b) f) w) q) _
  refine ⟨⟨.tand d a s b f w q, 0x0#32, 0x0#32, 0x0#32⟩, ?_, rfl, ?_, ?_⟩
  · rw [rowOf_Tint (by simp (disch := decide) only [BitVec.extractLsb'_append_eq_of_add_le, BitVec.extractLsb'_append_eq_of_le]; rfl)]
    unfold rowTint
    rw [show (hAppend (hAppend (hAppend (hAppend (hAppend (hAppend (hAppend (hAppend (hAppend pos g) 457#10) d) a) s) b) f) w) q).extractLsb' 17 5 = 9#5 from by simp (disch := decide) only [BitVec.extractLsb'_append_eq_of_add_le, BitVec.extractLsb'_append_eq_of_le]; rfl]
    show Except.ok _ = _
    simp (disch := decide) only [BitVec.extractLsb'_append_eq_of_add_le, BitVec.extractLsb'_append_eq_of_le]
    simp
  · exact BitVec.and_zero
  · exact BitVec.and_zero

theorem tor (d : BitVec 3) (a : BitVec 3) (s : BitVec 1) (b : BitVec 5) (f : BitVec 3) (w : BitVec 1) (q : BitVec 1) : Statement (.tor d a s b f w q) := by
  intro _ pos g
  show Fits (hAppend (hAppend (hAppend (hAppend (hAppend (hAppend (hAppend (hAppend (hAppend pos g) 458#10) d) a) s) b) f) w) q) _
  refine ⟨⟨.tor d a s b f w q, 0x0#32, 0x0#32, 0x0#32⟩, ?_, rfl, ?_, ?_⟩
  · rw [rowOf_Tint (by simp (disch := decide) only [BitVec.extractLsb'_append_eq_of_add_le, BitVec.extractLsb'_append_eq_of_le]; rfl)]
    unfold rowTint
    rw [show (hAppend (hAppend (hAppend (hAppend (hAppend (hAppend (hAppend (hAppend (hAppend pos g) 458#10) d) a) s) b) f) w) q).extractLsb' 17 5 = 10#5 from by simp (disch := decide) only [BitVec.extractLsb'_append_eq_of_add_le, BitVec.extractLsb'_append_eq_of_le]; rfl]
    show Except.ok _ = _
    simp (disch := decide) only [BitVec.extractLsb'_append_eq_of_add_le, BitVec.extractLsb'_append_eq_of_le]
    simp
  · exact BitVec.and_zero
  · exact BitVec.and_zero

theorem txor (d : BitVec 3) (a : BitVec 3) (s : BitVec 1) (b : BitVec 5) (f : BitVec 3) (w : BitVec 1) (q : BitVec 1) : Statement (.txor d a s b f w q) := by
  intro _ pos g
  show Fits (hAppend (hAppend (hAppend (hAppend (hAppend (hAppend (hAppend (hAppend (hAppend pos g) 459#10) d) a) s) b) f) w) q) _
  refine ⟨⟨.txor d a s b f w q, 0x0#32, 0x0#32, 0x0#32⟩, ?_, rfl, ?_, ?_⟩
  · rw [rowOf_Tint (by simp (disch := decide) only [BitVec.extractLsb'_append_eq_of_add_le, BitVec.extractLsb'_append_eq_of_le]; rfl)]
    unfold rowTint
    rw [show (hAppend (hAppend (hAppend (hAppend (hAppend (hAppend (hAppend (hAppend (hAppend pos g) 459#10) d) a) s) b) f) w) q).extractLsb' 17 5 = 11#5 from by simp (disch := decide) only [BitVec.extractLsb'_append_eq_of_add_le, BitVec.extractLsb'_append_eq_of_le]; rfl]
    show Except.ok _ = _
    simp (disch := decide) only [BitVec.extractLsb'_append_eq_of_add_le, BitVec.extractLsb'_append_eq_of_le]
    simp
  · exact BitVec.and_zero
  · exact BitVec.and_zero

theorem tshl (d : BitVec 3) (a : BitVec 3) (s : BitVec 1) (b : BitVec 5) (f : BitVec 3) (w : BitVec 1) (q : BitVec 1) : Statement (.tshl d a s b f w q) := by
  intro _ pos g
  show Fits (hAppend (hAppend (hAppend (hAppend (hAppend (hAppend (hAppend (hAppend (hAppend pos g) 460#10) d) a) s) b) f) w) q) _
  refine ⟨⟨.tshl d a s b f w q, 0x0#32, 0x0#32, 0x0#32⟩, ?_, rfl, ?_, ?_⟩
  · rw [rowOf_Tint (by simp (disch := decide) only [BitVec.extractLsb'_append_eq_of_add_le, BitVec.extractLsb'_append_eq_of_le]; rfl)]
    unfold rowTint
    rw [show (hAppend (hAppend (hAppend (hAppend (hAppend (hAppend (hAppend (hAppend (hAppend pos g) 460#10) d) a) s) b) f) w) q).extractLsb' 17 5 = 12#5 from by simp (disch := decide) only [BitVec.extractLsb'_append_eq_of_add_le, BitVec.extractLsb'_append_eq_of_le]; rfl]
    show Except.ok _ = _
    simp (disch := decide) only [BitVec.extractLsb'_append_eq_of_add_le, BitVec.extractLsb'_append_eq_of_le]
    simp
  · exact BitVec.and_zero
  · exact BitVec.and_zero

theorem tshr (d : BitVec 3) (a : BitVec 3) (s : BitVec 1) (b : BitVec 5) (f : BitVec 3) (w : BitVec 1) (q : BitVec 1) : Statement (.tshr d a s b f w q) := by
  intro _ pos g
  show Fits (hAppend (hAppend (hAppend (hAppend (hAppend (hAppend (hAppend (hAppend (hAppend pos g) 461#10) d) a) s) b) f) w) q) _
  refine ⟨⟨.tshr d a s b f w q, 0x0#32, 0x0#32, 0x0#32⟩, ?_, rfl, ?_, ?_⟩
  · rw [rowOf_Tint (by simp (disch := decide) only [BitVec.extractLsb'_append_eq_of_add_le, BitVec.extractLsb'_append_eq_of_le]; rfl)]
    unfold rowTint
    rw [show (hAppend (hAppend (hAppend (hAppend (hAppend (hAppend (hAppend (hAppend (hAppend pos g) 461#10) d) a) s) b) f) w) q).extractLsb' 17 5 = 13#5 from by simp (disch := decide) only [BitVec.extractLsb'_append_eq_of_add_le, BitVec.extractLsb'_append_eq_of_le]; rfl]
    show Except.ok _ = _
    simp (disch := decide) only [BitVec.extractLsb'_append_eq_of_add_le, BitVec.extractLsb'_append_eq_of_le]
    simp
  · exact BitVec.and_zero
  · exact BitVec.and_zero

theorem tsra (d : BitVec 3) (a : BitVec 3) (s : BitVec 1) (b : BitVec 5) (f : BitVec 3) (w : BitVec 1) (q : BitVec 1) : Statement (.tsra d a s b f w q) := by
  intro _ pos g
  show Fits (hAppend (hAppend (hAppend (hAppend (hAppend (hAppend (hAppend (hAppend (hAppend pos g) 462#10) d) a) s) b) f) w) q) _
  refine ⟨⟨.tsra d a s b f w q, 0x0#32, 0x0#32, 0x0#32⟩, ?_, rfl, ?_, ?_⟩
  · rw [rowOf_Tint (by simp (disch := decide) only [BitVec.extractLsb'_append_eq_of_add_le, BitVec.extractLsb'_append_eq_of_le]; rfl)]
    unfold rowTint
    rw [show (hAppend (hAppend (hAppend (hAppend (hAppend (hAppend (hAppend (hAppend (hAppend pos g) 462#10) d) a) s) b) f) w) q).extractLsb' 17 5 = 14#5 from by simp (disch := decide) only [BitVec.extractLsb'_append_eq_of_add_le, BitVec.extractLsb'_append_eq_of_le]; rfl]
    show Except.ok _ = _
    simp (disch := decide) only [BitVec.extractLsb'_append_eq_of_add_le, BitVec.extractLsb'_append_eq_of_le]
    simp
  · exact BitVec.and_zero
  · exact BitVec.and_zero

theorem tfsh (d : BitVec 3) (a : BitVec 3) (s : BitVec 1) (b : BitVec 5) (f : BitVec 3) (w : BitVec 1) (q : BitVec 1) : Statement (.tfsh d a s b f w q) := by
  intro _ pos g
  show Fits (hAppend (hAppend (hAppend (hAppend (hAppend (hAppend (hAppend (hAppend (hAppend pos g) 463#10) d) a) s) b) f) w) q) _
  refine ⟨⟨.tfsh d a s b f w q, 0x0#32, 0x0#32, 0x0#32⟩, ?_, rfl, ?_, ?_⟩
  · rw [rowOf_Tint (by simp (disch := decide) only [BitVec.extractLsb'_append_eq_of_add_le, BitVec.extractLsb'_append_eq_of_le]; rfl)]
    unfold rowTint
    rw [show (hAppend (hAppend (hAppend (hAppend (hAppend (hAppend (hAppend (hAppend (hAppend pos g) 463#10) d) a) s) b) f) w) q).extractLsb' 17 5 = 15#5 from by simp (disch := decide) only [BitVec.extractLsb'_append_eq_of_add_le, BitVec.extractLsb'_append_eq_of_le]; rfl]
    show Except.ok _ = _
    simp (disch := decide) only [BitVec.extractLsb'_append_eq_of_add_le, BitVec.extractLsb'_append_eq_of_le]
    simp
  · exact BitVec.and_zero
  · exact BitVec.and_zero

theorem tabs (d : BitVec 3) (a : BitVec 3) (f : BitVec 3) (w : BitVec 1) (q : BitVec 1) : Statement (.tabs d a f w q) := by
  intro _ pos g
  show Fits (hAppend (hAppend (hAppend (hAppend (hAppend (hAppend (hAppend (hAppend pos g) 464#10) d) a) 0#6) f) w) q) _
  refine ⟨⟨.tabs d a f w q, 0x7E0#32, 0x0#32, 0x0#32⟩, ?_, rfl, ?_, ?_⟩
  · rw [rowOf_Tint (by simp (disch := decide) only [BitVec.extractLsb'_append_eq_of_add_le, BitVec.extractLsb'_append_eq_of_le]; rfl)]
    unfold rowTint
    rw [show (hAppend (hAppend (hAppend (hAppend (hAppend (hAppend (hAppend (hAppend pos g) 464#10) d) a) 0#6) f) w) q).extractLsb' 17 5 = 16#5 from by simp (disch := decide) only [BitVec.extractLsb'_append_eq_of_add_le, BitVec.extractLsb'_append_eq_of_le]; rfl]
    show Except.ok _ = _
    simp (disch := decide) only [BitVec.extractLsb'_append_eq_of_add_le, BitVec.extractLsb'_append_eq_of_le]
    simp
  · exact BitVec.and_zero
  · exact and_mask (m := (hAppend (hAppend (hAppend (hAppend 0#21 63#6) 0#3) 0#1) 0#1)) (m' := 0x7E0#32) (v' := 0x0#32) (by decide) (@and_app 31 1 _ _ _ _ _ (0#1) (@and_app 30 1 _ _ _ _ _ (0#1) (@and_app 27 3 _ _ _ _ _ (0#3) (@and_app 21 6 _ _ _ _ _ (0#6) BitVec.and_zero rfl) BitVec.and_zero) BitVec.and_zero) BitVec.and_zero)

theorem tabsSat (d : BitVec 3) (a : BitVec 3) (f : BitVec 3) (w : BitVec 1) (q : BitVec 1) : Statement (.tabsSat d a f w q) := by
  intro _ pos g
  show Fits (hAppend (hAppend (hAppend (hAppend (hAppend (hAppend (hAppend (hAppend pos g) 465#10) d) a) 0#6) f) w) q) _
  refine ⟨⟨.tabsSat d a f w q, 0x7E0#32, 0x0#32, 0x0#32⟩, ?_, rfl, ?_, ?_⟩
  · rw [rowOf_Tint (by simp (disch := decide) only [BitVec.extractLsb'_append_eq_of_add_le, BitVec.extractLsb'_append_eq_of_le]; rfl)]
    unfold rowTint
    rw [show (hAppend (hAppend (hAppend (hAppend (hAppend (hAppend (hAppend (hAppend pos g) 465#10) d) a) 0#6) f) w) q).extractLsb' 17 5 = 17#5 from by simp (disch := decide) only [BitVec.extractLsb'_append_eq_of_add_le, BitVec.extractLsb'_append_eq_of_le]; rfl]
    show Except.ok _ = _
    simp (disch := decide) only [BitVec.extractLsb'_append_eq_of_add_le, BitVec.extractLsb'_append_eq_of_le]
    simp
  · exact BitVec.and_zero
  · exact and_mask (m := (hAppend (hAppend (hAppend (hAppend 0#21 63#6) 0#3) 0#1) 0#1)) (m' := 0x7E0#32) (v' := 0x0#32) (by decide) (@and_app 31 1 _ _ _ _ _ (0#1) (@and_app 30 1 _ _ _ _ _ (0#1) (@and_app 27 3 _ _ _ _ _ (0#3) (@and_app 21 6 _ _ _ _ _ (0#6) BitVec.and_zero rfl) BitVec.and_zero) BitVec.and_zero) BitVec.and_zero)

theorem tnegSat (d : BitVec 3) (a : BitVec 3) (f : BitVec 3) (w : BitVec 1) (q : BitVec 1) : Statement (.tnegSat d a f w q) := by
  intro _ pos g
  show Fits (hAppend (hAppend (hAppend (hAppend (hAppend (hAppend (hAppend (hAppend pos g) 466#10) d) a) 0#6) f) w) q) _
  refine ⟨⟨.tnegSat d a f w q, 0x7E0#32, 0x0#32, 0x0#32⟩, ?_, rfl, ?_, ?_⟩
  · rw [rowOf_Tint (by simp (disch := decide) only [BitVec.extractLsb'_append_eq_of_add_le, BitVec.extractLsb'_append_eq_of_le]; rfl)]
    unfold rowTint
    rw [show (hAppend (hAppend (hAppend (hAppend (hAppend (hAppend (hAppend (hAppend pos g) 466#10) d) a) 0#6) f) w) q).extractLsb' 17 5 = 18#5 from by simp (disch := decide) only [BitVec.extractLsb'_append_eq_of_add_le, BitVec.extractLsb'_append_eq_of_le]; rfl]
    show Except.ok _ = _
    simp (disch := decide) only [BitVec.extractLsb'_append_eq_of_add_le, BitVec.extractLsb'_append_eq_of_le]
    simp
  · exact BitVec.and_zero
  · exact and_mask (m := (hAppend (hAppend (hAppend (hAppend 0#21 63#6) 0#3) 0#1) 0#1)) (m' := 0x7E0#32) (v' := 0x0#32) (by decide) (@and_app 31 1 _ _ _ _ _ (0#1) (@and_app 30 1 _ _ _ _ _ (0#1) (@and_app 27 3 _ _ _ _ _ (0#3) (@and_app 21 6 _ _ _ _ _ (0#6) BitVec.and_zero rfl) BitVec.and_zero) BitVec.and_zero) BitVec.and_zero)

theorem tfadd (d : BitVec 3) (a : BitVec 3) (s : BitVec 1) (b : BitVec 5) (f : BitVec 3) (w : BitVec 1) (q : BitVec 1) : Statement (.tfadd d a s b f w q) := by
  intro _ pos g
  show Fits (hAppend (hAppend (hAppend (hAppend (hAppend (hAppend (hAppend (hAppend (hAppend pos g) 480#10) d) a) s) b) f) w) q) _
  refine ⟨⟨.tfadd d a s b f w q, 0x0#32, 0x0#32, 0x0#32⟩, ?_, rfl, ?_, ?_⟩
  · rw [rowOf_Tfp (by simp (disch := decide) only [BitVec.extractLsb'_append_eq_of_add_le, BitVec.extractLsb'_append_eq_of_le]; rfl)]
    unfold rowTfp
    rw [show (hAppend (hAppend (hAppend (hAppend (hAppend (hAppend (hAppend (hAppend (hAppend pos g) 480#10) d) a) s) b) f) w) q).extractLsb' 17 5 = 0#5 from by simp (disch := decide) only [BitVec.extractLsb'_append_eq_of_add_le, BitVec.extractLsb'_append_eq_of_le]; rfl]
    show Except.ok _ = _
    simp (disch := decide) only [BitVec.extractLsb'_append_eq_of_add_le, BitVec.extractLsb'_append_eq_of_le]
    simp
  · exact BitVec.and_zero
  · exact BitVec.and_zero

theorem tfsub (d : BitVec 3) (a : BitVec 3) (s : BitVec 1) (b : BitVec 5) (f : BitVec 3) (w : BitVec 1) (q : BitVec 1) : Statement (.tfsub d a s b f w q) := by
  intro _ pos g
  show Fits (hAppend (hAppend (hAppend (hAppend (hAppend (hAppend (hAppend (hAppend (hAppend pos g) 481#10) d) a) s) b) f) w) q) _
  refine ⟨⟨.tfsub d a s b f w q, 0x0#32, 0x0#32, 0x0#32⟩, ?_, rfl, ?_, ?_⟩
  · rw [rowOf_Tfp (by simp (disch := decide) only [BitVec.extractLsb'_append_eq_of_add_le, BitVec.extractLsb'_append_eq_of_le]; rfl)]
    unfold rowTfp
    rw [show (hAppend (hAppend (hAppend (hAppend (hAppend (hAppend (hAppend (hAppend (hAppend pos g) 481#10) d) a) s) b) f) w) q).extractLsb' 17 5 = 1#5 from by simp (disch := decide) only [BitVec.extractLsb'_append_eq_of_add_le, BitVec.extractLsb'_append_eq_of_le]; rfl]
    show Except.ok _ = _
    simp (disch := decide) only [BitVec.extractLsb'_append_eq_of_add_le, BitVec.extractLsb'_append_eq_of_le]
    simp
  · exact BitVec.and_zero
  · exact BitVec.and_zero

theorem tfmul (d : BitVec 3) (a : BitVec 3) (s : BitVec 1) (b : BitVec 5) (f : BitVec 3) (w : BitVec 1) (q : BitVec 1) : Statement (.tfmul d a s b f w q) := by
  intro _ pos g
  show Fits (hAppend (hAppend (hAppend (hAppend (hAppend (hAppend (hAppend (hAppend (hAppend pos g) 482#10) d) a) s) b) f) w) q) _
  refine ⟨⟨.tfmul d a s b f w q, 0x0#32, 0x0#32, 0x0#32⟩, ?_, rfl, ?_, ?_⟩
  · rw [rowOf_Tfp (by simp (disch := decide) only [BitVec.extractLsb'_append_eq_of_add_le, BitVec.extractLsb'_append_eq_of_le]; rfl)]
    unfold rowTfp
    rw [show (hAppend (hAppend (hAppend (hAppend (hAppend (hAppend (hAppend (hAppend (hAppend pos g) 482#10) d) a) s) b) f) w) q).extractLsb' 17 5 = 2#5 from by simp (disch := decide) only [BitVec.extractLsb'_append_eq_of_add_le, BitVec.extractLsb'_append_eq_of_le]; rfl]
    show Except.ok _ = _
    simp (disch := decide) only [BitVec.extractLsb'_append_eq_of_add_le, BitVec.extractLsb'_append_eq_of_le]
    simp
  · exact BitVec.and_zero
  · exact BitVec.and_zero

theorem tfma (d : BitVec 3) (a : BitVec 3) (s : BitVec 1) (b : BitVec 5) (f : BitVec 3) (w : BitVec 1) (q : BitVec 1) : Statement (.tfma d a s b f w q) := by
  intro _ pos g
  show Fits (hAppend (hAppend (hAppend (hAppend (hAppend (hAppend (hAppend (hAppend (hAppend pos g) 483#10) d) a) s) b) f) w) q) _
  refine ⟨⟨.tfma d a s b f w q, 0x0#32, 0x0#32, 0x0#32⟩, ?_, rfl, ?_, ?_⟩
  · rw [rowOf_Tfp (by simp (disch := decide) only [BitVec.extractLsb'_append_eq_of_add_le, BitVec.extractLsb'_append_eq_of_le]; rfl)]
    unfold rowTfp
    rw [show (hAppend (hAppend (hAppend (hAppend (hAppend (hAppend (hAppend (hAppend (hAppend pos g) 483#10) d) a) s) b) f) w) q).extractLsb' 17 5 = 3#5 from by simp (disch := decide) only [BitVec.extractLsb'_append_eq_of_add_le, BitVec.extractLsb'_append_eq_of_le]; rfl]
    show Except.ok _ = _
    simp (disch := decide) only [BitVec.extractLsb'_append_eq_of_add_le, BitVec.extractLsb'_append_eq_of_le]
    simp
  · exact BitVec.and_zero
  · exact BitVec.and_zero

theorem tfmin (d : BitVec 3) (a : BitVec 3) (s : BitVec 1) (b : BitVec 5) (f : BitVec 3) (w : BitVec 1) (q : BitVec 1) : Statement (.tfmin d a s b f w q) := by
  intro _ pos g
  show Fits (hAppend (hAppend (hAppend (hAppend (hAppend (hAppend (hAppend (hAppend (hAppend pos g) 484#10) d) a) s) b) f) w) q) _
  refine ⟨⟨.tfmin d a s b f w q, 0x0#32, 0x0#32, 0x0#32⟩, ?_, rfl, ?_, ?_⟩
  · rw [rowOf_Tfp (by simp (disch := decide) only [BitVec.extractLsb'_append_eq_of_add_le, BitVec.extractLsb'_append_eq_of_le]; rfl)]
    unfold rowTfp
    rw [show (hAppend (hAppend (hAppend (hAppend (hAppend (hAppend (hAppend (hAppend (hAppend pos g) 484#10) d) a) s) b) f) w) q).extractLsb' 17 5 = 4#5 from by simp (disch := decide) only [BitVec.extractLsb'_append_eq_of_add_le, BitVec.extractLsb'_append_eq_of_le]; rfl]
    show Except.ok _ = _
    simp (disch := decide) only [BitVec.extractLsb'_append_eq_of_add_le, BitVec.extractLsb'_append_eq_of_le]
    simp
  · exact BitVec.and_zero
  · exact BitVec.and_zero

theorem tfmax (d : BitVec 3) (a : BitVec 3) (s : BitVec 1) (b : BitVec 5) (f : BitVec 3) (w : BitVec 1) (q : BitVec 1) : Statement (.tfmax d a s b f w q) := by
  intro _ pos g
  show Fits (hAppend (hAppend (hAppend (hAppend (hAppend (hAppend (hAppend (hAppend (hAppend pos g) 485#10) d) a) s) b) f) w) q) _
  refine ⟨⟨.tfmax d a s b f w q, 0x0#32, 0x0#32, 0x0#32⟩, ?_, rfl, ?_, ?_⟩
  · rw [rowOf_Tfp (by simp (disch := decide) only [BitVec.extractLsb'_append_eq_of_add_le, BitVec.extractLsb'_append_eq_of_le]; rfl)]
    unfold rowTfp
    rw [show (hAppend (hAppend (hAppend (hAppend (hAppend (hAppend (hAppend (hAppend (hAppend pos g) 485#10) d) a) s) b) f) w) q).extractLsb' 17 5 = 5#5 from by simp (disch := decide) only [BitVec.extractLsb'_append_eq_of_add_le, BitVec.extractLsb'_append_eq_of_le]; rfl]
    show Except.ok _ = _
    simp (disch := decide) only [BitVec.extractLsb'_append_eq_of_add_le, BitVec.extractLsb'_append_eq_of_le]
    simp
  · exact BitVec.and_zero
  · exact BitVec.and_zero

theorem tfabs (d : BitVec 3) (a : BitVec 3) (f : BitVec 3) (w : BitVec 1) (q : BitVec 1) : Statement (.tfabs d a f w q) := by
  intro _ pos g
  show Fits (hAppend (hAppend (hAppend (hAppend (hAppend (hAppend (hAppend (hAppend pos g) 486#10) d) a) 0#6) f) w) q) _
  refine ⟨⟨.tfabs d a f w q, 0x7E0#32, 0x0#32, 0x0#32⟩, ?_, rfl, ?_, ?_⟩
  · rw [rowOf_Tfp (by simp (disch := decide) only [BitVec.extractLsb'_append_eq_of_add_le, BitVec.extractLsb'_append_eq_of_le]; rfl)]
    unfold rowTfp
    rw [show (hAppend (hAppend (hAppend (hAppend (hAppend (hAppend (hAppend (hAppend pos g) 486#10) d) a) 0#6) f) w) q).extractLsb' 17 5 = 6#5 from by simp (disch := decide) only [BitVec.extractLsb'_append_eq_of_add_le, BitVec.extractLsb'_append_eq_of_le]; rfl]
    show Except.ok _ = _
    simp (disch := decide) only [BitVec.extractLsb'_append_eq_of_add_le, BitVec.extractLsb'_append_eq_of_le]
    simp
  · exact BitVec.and_zero
  · exact and_mask (m := (hAppend (hAppend (hAppend (hAppend 0#21 63#6) 0#3) 0#1) 0#1)) (m' := 0x7E0#32) (v' := 0x0#32) (by decide) (@and_app 31 1 _ _ _ _ _ (0#1) (@and_app 30 1 _ _ _ _ _ (0#1) (@and_app 27 3 _ _ _ _ _ (0#3) (@and_app 21 6 _ _ _ _ _ (0#6) BitVec.and_zero rfl) BitVec.and_zero) BitVec.and_zero) BitVec.and_zero)

theorem tfrint (d : BitVec 3) (a : BitVec 3) (f : BitVec 3) (w : BitVec 1) (q : BitVec 1) : Statement (.tfrint d a f w q) := by
  intro _ pos g
  show Fits (hAppend (hAppend (hAppend (hAppend (hAppend (hAppend (hAppend (hAppend pos g) 487#10) d) a) 0#6) f) w) q) _
  refine ⟨⟨.tfrint d a f w q, 0x7E0#32, 0x0#32, 0x0#32⟩, ?_, rfl, ?_, ?_⟩
  · rw [rowOf_Tfp (by simp (disch := decide) only [BitVec.extractLsb'_append_eq_of_add_le, BitVec.extractLsb'_append_eq_of_le]; rfl)]
    unfold rowTfp
    rw [show (hAppend (hAppend (hAppend (hAppend (hAppend (hAppend (hAppend (hAppend pos g) 487#10) d) a) 0#6) f) w) q).extractLsb' 17 5 = 7#5 from by simp (disch := decide) only [BitVec.extractLsb'_append_eq_of_add_le, BitVec.extractLsb'_append_eq_of_le]; rfl]
    show Except.ok _ = _
    simp (disch := decide) only [BitVec.extractLsb'_append_eq_of_add_le, BitVec.extractLsb'_append_eq_of_le]
    simp
  · exact BitVec.and_zero
  · exact and_mask (m := (hAppend (hAppend (hAppend (hAppend 0#21 63#6) 0#3) 0#1) 0#1)) (m' := 0x7E0#32) (v' := 0x0#32) (by decide) (@and_app 31 1 _ _ _ _ _ (0#1) (@and_app 30 1 _ _ _ _ _ (0#1) (@and_app 27 3 _ _ _ _ _ (0#3) (@and_app 21 6 _ _ _ _ _ (0#6) BitVec.and_zero rfl) BitVec.and_zero) BitVec.and_zero) BitVec.and_zero)

theorem tfexp (d : BitVec 3) (a : BitVec 3) (f : BitVec 3) (w : BitVec 1) (q : BitVec 1) : Statement (.tfexp d a f w q) := by
  intro _ pos g
  show Fits (hAppend (hAppend (hAppend (hAppend (hAppend (hAppend (hAppend (hAppend pos g) 488#10) d) a) 0#6) f) w) q) _
  refine ⟨⟨.tfexp d a f w q, 0x7E0#32, 0x0#32, 0x0#32⟩, ?_, rfl, ?_, ?_⟩
  · rw [rowOf_Tfp (by simp (disch := decide) only [BitVec.extractLsb'_append_eq_of_add_le, BitVec.extractLsb'_append_eq_of_le]; rfl)]
    unfold rowTfp
    rw [show (hAppend (hAppend (hAppend (hAppend (hAppend (hAppend (hAppend (hAppend pos g) 488#10) d) a) 0#6) f) w) q).extractLsb' 17 5 = 8#5 from by simp (disch := decide) only [BitVec.extractLsb'_append_eq_of_add_le, BitVec.extractLsb'_append_eq_of_le]; rfl]
    show Except.ok _ = _
    simp (disch := decide) only [BitVec.extractLsb'_append_eq_of_add_le, BitVec.extractLsb'_append_eq_of_le]
    simp
  · exact BitVec.and_zero
  · exact and_mask (m := (hAppend (hAppend (hAppend (hAppend 0#21 63#6) 0#3) 0#1) 0#1)) (m' := 0x7E0#32) (v' := 0x0#32) (by decide) (@and_app 31 1 _ _ _ _ _ (0#1) (@and_app 30 1 _ _ _ _ _ (0#1) (@and_app 27 3 _ _ _ _ _ (0#3) (@and_app 21 6 _ _ _ _ _ (0#6) BitVec.and_zero rfl) BitVec.and_zero) BitVec.and_zero) BitVec.and_zero)

theorem tfins (d : BitVec 3) (a : BitVec 3) (s : BitVec 1) (b : BitVec 5) (f : BitVec 3) (w : BitVec 1) (q : BitVec 1) : Statement (.tfins d a s b f w q) := by
  intro _ pos g
  show Fits (hAppend (hAppend (hAppend (hAppend (hAppend (hAppend (hAppend (hAppend (hAppend pos g) 489#10) d) a) s) b) f) w) q) _
  refine ⟨⟨.tfins d a s b f w q, 0x0#32, 0x0#32, 0x0#32⟩, ?_, rfl, ?_, ?_⟩
  · rw [rowOf_Tfp (by simp (disch := decide) only [BitVec.extractLsb'_append_eq_of_add_le, BitVec.extractLsb'_append_eq_of_le]; rfl)]
    unfold rowTfp
    rw [show (hAppend (hAppend (hAppend (hAppend (hAppend (hAppend (hAppend (hAppend (hAppend pos g) 489#10) d) a) s) b) f) w) q).extractLsb' 17 5 = 9#5 from by simp (disch := decide) only [BitVec.extractLsb'_append_eq_of_add_le, BitVec.extractLsb'_append_eq_of_le]; rfl]
    show Except.ok _ = _
    simp (disch := decide) only [BitVec.extractLsb'_append_eq_of_add_le, BitVec.extractLsb'_append_eq_of_le]
    simp
  · exact BitVec.and_zero
  · exact BitVec.and_zero

theorem tfrcp (d : BitVec 3) (a : BitVec 3) (f : BitVec 3) (w : BitVec 1) (q : BitVec 1) : Statement (.tfrcp d a f w q) := by
  intro _ pos g
  show Fits (hAppend (hAppend (hAppend (hAppend (hAppend (hAppend (hAppend (hAppend pos g) 490#10) d) a) 0#6) f) w) q) _
  refine ⟨⟨.tfrcp d a f w q, 0x7E0#32, 0x0#32, 0x0#32⟩, ?_, rfl, ?_, ?_⟩
  · rw [rowOf_Tfp (by simp (disch := decide) only [BitVec.extractLsb'_append_eq_of_add_le, BitVec.extractLsb'_append_eq_of_le]; rfl)]
    unfold rowTfp
    rw [show (hAppend (hAppend (hAppend (hAppend (hAppend (hAppend (hAppend (hAppend pos g) 490#10) d) a) 0#6) f) w) q).extractLsb' 17 5 = 10#5 from by simp (disch := decide) only [BitVec.extractLsb'_append_eq_of_add_le, BitVec.extractLsb'_append_eq_of_le]; rfl]
    show Except.ok _ = _
    simp (disch := decide) only [BitVec.extractLsb'_append_eq_of_add_le, BitVec.extractLsb'_append_eq_of_le]
    simp
  · exact BitVec.and_zero
  · exact and_mask (m := (hAppend (hAppend (hAppend (hAppend 0#21 63#6) 0#3) 0#1) 0#1)) (m' := 0x7E0#32) (v' := 0x0#32) (by decide) (@and_app 31 1 _ _ _ _ _ (0#1) (@and_app 30 1 _ _ _ _ _ (0#1) (@and_app 27 3 _ _ _ _ _ (0#3) (@and_app 21 6 _ _ _ _ _ (0#6) BitVec.and_zero rfl) BitVec.and_zero) BitVec.and_zero) BitVec.and_zero)

theorem tfrsq (d : BitVec 3) (a : BitVec 3) (f : BitVec 3) (w : BitVec 1) (q : BitVec 1) : Statement (.tfrsq d a f w q) := by
  intro _ pos g
  show Fits (hAppend (hAppend (hAppend (hAppend (hAppend (hAppend (hAppend (hAppend pos g) 491#10) d) a) 0#6) f) w) q) _
  refine ⟨⟨.tfrsq d a f w q, 0x7E0#32, 0x0#32, 0x0#32⟩, ?_, rfl, ?_, ?_⟩
  · rw [rowOf_Tfp (by simp (disch := decide) only [BitVec.extractLsb'_append_eq_of_add_le, BitVec.extractLsb'_append_eq_of_le]; rfl)]
    unfold rowTfp
    rw [show (hAppend (hAppend (hAppend (hAppend (hAppend (hAppend (hAppend (hAppend pos g) 491#10) d) a) 0#6) f) w) q).extractLsb' 17 5 = 11#5 from by simp (disch := decide) only [BitVec.extractLsb'_append_eq_of_add_le, BitVec.extractLsb'_append_eq_of_le]; rfl]
    show Except.ok _ = _
    simp (disch := decide) only [BitVec.extractLsb'_append_eq_of_add_le, BitVec.extractLsb'_append_eq_of_le]
    simp
  · exact BitVec.and_zero
  · exact and_mask (m := (hAppend (hAppend (hAppend (hAppend 0#21 63#6) 0#3) 0#1) 0#1)) (m' := 0x7E0#32) (v' := 0x0#32) (by decide) (@and_app 31 1 _ _ _ _ _ (0#1) (@and_app 30 1 _ _ _ _ _ (0#1) (@and_app 27 3 _ _ _ _ _ (0#3) (@and_app 21 6 _ _ _ _ _ (0#6) BitVec.and_zero rfl) BitVec.and_zero) BitVec.and_zero) BitVec.and_zero)

theorem tcmpEq (d : BitVec 3) (a : BitVec 3) (s : BitVec 1) (b : BitVec 5) (f : BitVec 3) (w : BitVec 1) (q : BitVec 1) : Statement (.tcmpEq d a s b f w q) := by
  intro _ pos g
  show Fits (hAppend (hAppend (hAppend (hAppend (hAppend (hAppend (hAppend (hAppend (hAppend pos g) 608#10) d) a) s) b) f) w) q) _
  refine ⟨⟨.tcmpEq d a s b f w q, 0x0#32, 0x0#32, 0x0#32⟩, ?_, rfl, ?_, ?_⟩
  · rw [rowOf_Tcmp (by simp (disch := decide) only [BitVec.extractLsb'_append_eq_of_add_le, BitVec.extractLsb'_append_eq_of_le]; rfl)]
    unfold rowTcmp
    rw [show (hAppend (hAppend (hAppend (hAppend (hAppend (hAppend (hAppend (hAppend (hAppend pos g) 608#10) d) a) s) b) f) w) q).extractLsb' 17 5 = 0#5 from by simp (disch := decide) only [BitVec.extractLsb'_append_eq_of_add_le, BitVec.extractLsb'_append_eq_of_le]; rfl]
    show Except.ok _ = _
    simp (disch := decide) only [BitVec.extractLsb'_append_eq_of_add_le, BitVec.extractLsb'_append_eq_of_le]
    simp
  · exact BitVec.and_zero
  · exact BitVec.and_zero

theorem tcmpNe (d : BitVec 3) (a : BitVec 3) (s : BitVec 1) (b : BitVec 5) (f : BitVec 3) (w : BitVec 1) (q : BitVec 1) : Statement (.tcmpNe d a s b f w q) := by
  intro _ pos g
  show Fits (hAppend (hAppend (hAppend (hAppend (hAppend (hAppend (hAppend (hAppend (hAppend pos g) 609#10) d) a) s) b) f) w) q) _
  refine ⟨⟨.tcmpNe d a s b f w q, 0x0#32, 0x0#32, 0x0#32⟩, ?_, rfl, ?_, ?_⟩
  · rw [rowOf_Tcmp (by simp (disch := decide) only [BitVec.extractLsb'_append_eq_of_add_le, BitVec.extractLsb'_append_eq_of_le]; rfl)]
    unfold rowTcmp
    rw [show (hAppend (hAppend (hAppend (hAppend (hAppend (hAppend (hAppend (hAppend (hAppend pos g) 609#10) d) a) s) b) f) w) q).extractLsb' 17 5 = 1#5 from by simp (disch := decide) only [BitVec.extractLsb'_append_eq_of_add_le, BitVec.extractLsb'_append_eq_of_le]; rfl]
    show Except.ok _ = _
    simp (disch := decide) only [BitVec.extractLsb'_append_eq_of_add_le, BitVec.extractLsb'_append_eq_of_le]
    simp
  · exact BitVec.and_zero
  · exact BitVec.and_zero

theorem tcmpLt (d : BitVec 3) (a : BitVec 3) (s : BitVec 1) (b : BitVec 5) (f : BitVec 3) (w : BitVec 1) (q : BitVec 1) : Statement (.tcmpLt d a s b f w q) := by
  intro _ pos g
  show Fits (hAppend (hAppend (hAppend (hAppend (hAppend (hAppend (hAppend (hAppend (hAppend pos g) 610#10) d) a) s) b) f) w) q) _
  refine ⟨⟨.tcmpLt d a s b f w q, 0x0#32, 0x0#32, 0x0#32⟩, ?_, rfl, ?_, ?_⟩
  · rw [rowOf_Tcmp (by simp (disch := decide) only [BitVec.extractLsb'_append_eq_of_add_le, BitVec.extractLsb'_append_eq_of_le]; rfl)]
    unfold rowTcmp
    rw [show (hAppend (hAppend (hAppend (hAppend (hAppend (hAppend (hAppend (hAppend (hAppend pos g) 610#10) d) a) s) b) f) w) q).extractLsb' 17 5 = 2#5 from by simp (disch := decide) only [BitVec.extractLsb'_append_eq_of_add_le, BitVec.extractLsb'_append_eq_of_le]; rfl]
    show Except.ok _ = _
    simp (disch := decide) only [BitVec.extractLsb'_append_eq_of_add_le, BitVec.extractLsb'_append_eq_of_le]
    simp
  · exact BitVec.and_zero
  · exact BitVec.and_zero

theorem tcmpLe (d : BitVec 3) (a : BitVec 3) (s : BitVec 1) (b : BitVec 5) (f : BitVec 3) (w : BitVec 1) (q : BitVec 1) : Statement (.tcmpLe d a s b f w q) := by
  intro _ pos g
  show Fits (hAppend (hAppend (hAppend (hAppend (hAppend (hAppend (hAppend (hAppend (hAppend pos g) 611#10) d) a) s) b) f) w) q) _
  refine ⟨⟨.tcmpLe d a s b f w q, 0x0#32, 0x0#32, 0x0#32⟩, ?_, rfl, ?_, ?_⟩
  · rw [rowOf_Tcmp (by simp (disch := decide) only [BitVec.extractLsb'_append_eq_of_add_le, BitVec.extractLsb'_append_eq_of_le]; rfl)]
    unfold rowTcmp
    rw [show (hAppend (hAppend (hAppend (hAppend (hAppend (hAppend (hAppend (hAppend (hAppend pos g) 611#10) d) a) s) b) f) w) q).extractLsb' 17 5 = 3#5 from by simp (disch := decide) only [BitVec.extractLsb'_append_eq_of_add_le, BitVec.extractLsb'_append_eq_of_le]; rfl]
    show Except.ok _ = _
    simp (disch := decide) only [BitVec.extractLsb'_append_eq_of_add_le, BitVec.extractLsb'_append_eq_of_le]
    simp
  · exact BitVec.and_zero
  · exact BitVec.and_zero

theorem tcmpGt (d : BitVec 3) (a : BitVec 3) (s : BitVec 1) (b : BitVec 5) (f : BitVec 3) (w : BitVec 1) (q : BitVec 1) : Statement (.tcmpGt d a s b f w q) := by
  intro _ pos g
  show Fits (hAppend (hAppend (hAppend (hAppend (hAppend (hAppend (hAppend (hAppend (hAppend pos g) 612#10) d) a) s) b) f) w) q) _
  refine ⟨⟨.tcmpGt d a s b f w q, 0x0#32, 0x0#32, 0x0#32⟩, ?_, rfl, ?_, ?_⟩
  · rw [rowOf_Tcmp (by simp (disch := decide) only [BitVec.extractLsb'_append_eq_of_add_le, BitVec.extractLsb'_append_eq_of_le]; rfl)]
    unfold rowTcmp
    rw [show (hAppend (hAppend (hAppend (hAppend (hAppend (hAppend (hAppend (hAppend (hAppend pos g) 612#10) d) a) s) b) f) w) q).extractLsb' 17 5 = 4#5 from by simp (disch := decide) only [BitVec.extractLsb'_append_eq_of_add_le, BitVec.extractLsb'_append_eq_of_le]; rfl]
    show Except.ok _ = _
    simp (disch := decide) only [BitVec.extractLsb'_append_eq_of_add_le, BitVec.extractLsb'_append_eq_of_le]
    simp
  · exact BitVec.and_zero
  · exact BitVec.and_zero

theorem tcmpGe (d : BitVec 3) (a : BitVec 3) (s : BitVec 1) (b : BitVec 5) (f : BitVec 3) (w : BitVec 1) (q : BitVec 1) : Statement (.tcmpGe d a s b f w q) := by
  intro _ pos g
  show Fits (hAppend (hAppend (hAppend (hAppend (hAppend (hAppend (hAppend (hAppend (hAppend pos g) 613#10) d) a) s) b) f) w) q) _
  refine ⟨⟨.tcmpGe d a s b f w q, 0x0#32, 0x0#32, 0x0#32⟩, ?_, rfl, ?_, ?_⟩
  · rw [rowOf_Tcmp (by simp (disch := decide) only [BitVec.extractLsb'_append_eq_of_add_le, BitVec.extractLsb'_append_eq_of_le]; rfl)]
    unfold rowTcmp
    rw [show (hAppend (hAppend (hAppend (hAppend (hAppend (hAppend (hAppend (hAppend (hAppend pos g) 613#10) d) a) s) b) f) w) q).extractLsb' 17 5 = 5#5 from by simp (disch := decide) only [BitVec.extractLsb'_append_eq_of_add_le, BitVec.extractLsb'_append_eq_of_le]; rfl]
    show Except.ok _ = _
    simp (disch := decide) only [BitVec.extractLsb'_append_eq_of_add_le, BitVec.extractLsb'_append_eq_of_le]
    simp
  · exact BitVec.and_zero
  · exact BitVec.and_zero

theorem tfcmpEq (d : BitVec 3) (a : BitVec 3) (s : BitVec 1) (b : BitVec 5) (f : BitVec 3) (w : BitVec 1) (q : BitVec 1) : Statement (.tfcmpEq d a s b f w q) := by
  intro _ pos g
  show Fits (hAppend (hAppend (hAppend (hAppend (hAppend (hAppend (hAppend (hAppend (hAppend pos g) 616#10) d) a) s) b) f) w) q) _
  refine ⟨⟨.tfcmpEq d a s b f w q, 0x0#32, 0x0#32, 0x0#32⟩, ?_, rfl, ?_, ?_⟩
  · rw [rowOf_Tcmp (by simp (disch := decide) only [BitVec.extractLsb'_append_eq_of_add_le, BitVec.extractLsb'_append_eq_of_le]; rfl)]
    unfold rowTcmp
    rw [show (hAppend (hAppend (hAppend (hAppend (hAppend (hAppend (hAppend (hAppend (hAppend pos g) 616#10) d) a) s) b) f) w) q).extractLsb' 17 5 = 8#5 from by simp (disch := decide) only [BitVec.extractLsb'_append_eq_of_add_le, BitVec.extractLsb'_append_eq_of_le]; rfl]
    show Except.ok _ = _
    simp (disch := decide) only [BitVec.extractLsb'_append_eq_of_add_le, BitVec.extractLsb'_append_eq_of_le]
    simp
  · exact BitVec.and_zero
  · exact BitVec.and_zero

theorem tfcmpLt (d : BitVec 3) (a : BitVec 3) (s : BitVec 1) (b : BitVec 5) (f : BitVec 3) (w : BitVec 1) (q : BitVec 1) : Statement (.tfcmpLt d a s b f w q) := by
  intro _ pos g
  show Fits (hAppend (hAppend (hAppend (hAppend (hAppend (hAppend (hAppend (hAppend (hAppend pos g) 617#10) d) a) s) b) f) w) q) _
  refine ⟨⟨.tfcmpLt d a s b f w q, 0x0#32, 0x0#32, 0x0#32⟩, ?_, rfl, ?_, ?_⟩
  · rw [rowOf_Tcmp (by simp (disch := decide) only [BitVec.extractLsb'_append_eq_of_add_le, BitVec.extractLsb'_append_eq_of_le]; rfl)]
    unfold rowTcmp
    rw [show (hAppend (hAppend (hAppend (hAppend (hAppend (hAppend (hAppend (hAppend (hAppend pos g) 617#10) d) a) s) b) f) w) q).extractLsb' 17 5 = 9#5 from by simp (disch := decide) only [BitVec.extractLsb'_append_eq_of_add_le, BitVec.extractLsb'_append_eq_of_le]; rfl]
    show Except.ok _ = _
    simp (disch := decide) only [BitVec.extractLsb'_append_eq_of_add_le, BitVec.extractLsb'_append_eq_of_le]
    simp
  · exact BitVec.and_zero
  · exact BitVec.and_zero

theorem tfcmpLe (d : BitVec 3) (a : BitVec 3) (s : BitVec 1) (b : BitVec 5) (f : BitVec 3) (w : BitVec 1) (q : BitVec 1) : Statement (.tfcmpLe d a s b f w q) := by
  intro _ pos g
  show Fits (hAppend (hAppend (hAppend (hAppend (hAppend (hAppend (hAppend (hAppend (hAppend pos g) 618#10) d) a) s) b) f) w) q) _
  refine ⟨⟨.tfcmpLe d a s b f w q, 0x0#32, 0x0#32, 0x0#32⟩, ?_, rfl, ?_, ?_⟩
  · rw [rowOf_Tcmp (by simp (disch := decide) only [BitVec.extractLsb'_append_eq_of_add_le, BitVec.extractLsb'_append_eq_of_le]; rfl)]
    unfold rowTcmp
    rw [show (hAppend (hAppend (hAppend (hAppend (hAppend (hAppend (hAppend (hAppend (hAppend pos g) 618#10) d) a) s) b) f) w) q).extractLsb' 17 5 = 10#5 from by simp (disch := decide) only [BitVec.extractLsb'_append_eq_of_add_le, BitVec.extractLsb'_append_eq_of_le]; rfl]
    show Except.ok _ = _
    simp (disch := decide) only [BitVec.extractLsb'_append_eq_of_add_le, BitVec.extractLsb'_append_eq_of_le]
    simp
  · exact BitVec.and_zero
  · exact BitVec.and_zero

theorem tfcmpUn (d : BitVec 3) (a : BitVec 3) (s : BitVec 1) (b : BitVec 5) (f : BitVec 3) (w : BitVec 1) (q : BitVec 1) : Statement (.tfcmpUn d a s b f w q) := by
  intro _ pos g
  show Fits (hAppend (hAppend (hAppend (hAppend (hAppend (hAppend (hAppend (hAppend (hAppend pos g) 619#10) d) a) s) b) f) w) q) _
  refine ⟨⟨.tfcmpUn d a s b f w q, 0x0#32, 0x0#32, 0x0#32⟩, ?_, rfl, ?_, ?_⟩
  · rw [rowOf_Tcmp (by simp (disch := decide) only [BitVec.extractLsb'_append_eq_of_add_le, BitVec.extractLsb'_append_eq_of_le]; rfl)]
    unfold rowTcmp
    rw [show (hAppend (hAppend (hAppend (hAppend (hAppend (hAppend (hAppend (hAppend (hAppend pos g) 619#10) d) a) s) b) f) w) q).extractLsb' 17 5 = 11#5 from by simp (disch := decide) only [BitVec.extractLsb'_append_eq_of_add_le, BitVec.extractLsb'_append_eq_of_le]; rfl]
    show Except.ok _ = _
    simp (disch := decide) only [BitVec.extractLsb'_append_eq_of_add_le, BitVec.extractLsb'_append_eq_of_le]
    simp
  · exact BitVec.and_zero
  · exact BitVec.and_zero

theorem tfcmpGt (d : BitVec 3) (a : BitVec 3) (s : BitVec 1) (b : BitVec 5) (f : BitVec 3) (w : BitVec 1) (q : BitVec 1) : Statement (.tfcmpGt d a s b f w q) := by
  intro _ pos g
  show Fits (hAppend (hAppend (hAppend (hAppend (hAppend (hAppend (hAppend (hAppend (hAppend pos g) 620#10) d) a) s) b) f) w) q) _
  refine ⟨⟨.tfcmpGt d a s b f w q, 0x0#32, 0x0#32, 0x0#32⟩, ?_, rfl, ?_, ?_⟩
  · rw [rowOf_Tcmp (by simp (disch := decide) only [BitVec.extractLsb'_append_eq_of_add_le, BitVec.extractLsb'_append_eq_of_le]; rfl)]
    unfold rowTcmp
    rw [show (hAppend (hAppend (hAppend (hAppend (hAppend (hAppend (hAppend (hAppend (hAppend pos g) 620#10) d) a) s) b) f) w) q).extractLsb' 17 5 = 12#5 from by simp (disch := decide) only [BitVec.extractLsb'_append_eq_of_add_le, BitVec.extractLsb'_append_eq_of_le]; rfl]
    show Except.ok _ = _
    simp (disch := decide) only [BitVec.extractLsb'_append_eq_of_add_le, BitVec.extractLsb'_append_eq_of_le]
    simp
  · exact BitVec.and_zero
  · exact BitVec.and_zero

theorem tfcmpGe (d : BitVec 3) (a : BitVec 3) (s : BitVec 1) (b : BitVec 5) (f : BitVec 3) (w : BitVec 1) (q : BitVec 1) : Statement (.tfcmpGe d a s b f w q) := by
  intro _ pos g
  show Fits (hAppend (hAppend (hAppend (hAppend (hAppend (hAppend (hAppend (hAppend (hAppend pos g) 621#10) d) a) s) b) f) w) q) _
  refine ⟨⟨.tfcmpGe d a s b f w q, 0x0#32, 0x0#32, 0x0#32⟩, ?_, rfl, ?_, ?_⟩
  · rw [rowOf_Tcmp (by simp (disch := decide) only [BitVec.extractLsb'_append_eq_of_add_le, BitVec.extractLsb'_append_eq_of_le]; rfl)]
    unfold rowTcmp
    rw [show (hAppend (hAppend (hAppend (hAppend (hAppend (hAppend (hAppend (hAppend (hAppend pos g) 621#10) d) a) s) b) f) w) q).extractLsb' 17 5 = 13#5 from by simp (disch := decide) only [BitVec.extractLsb'_append_eq_of_add_le, BitVec.extractLsb'_append_eq_of_le]; rfl]
    show Except.ok _ = _
    simp (disch := decide) only [BitVec.extractLsb'_append_eq_of_add_le, BitVec.extractLsb'_append_eq_of_le]
    simp
  · exact BitVec.and_zero
  · exact BitVec.and_zero

theorem tcvt (x : BitVec 3) (d : BitVec 3) (a : BitVec 3) (k : BitVec 3) (f : BitVec 3) (w : BitVec 1) (q : BitVec 1) : Statement (.tcvt x d a k f w q) := by
  intro _ pos g
  show Fits (hAppend (hAppend (hAppend (hAppend (hAppend (hAppend (hAppend (hAppend (hAppend (hAppend pos g) 64#7) x) d) a) 0#3) k) f) w) q) _
  refine ⟨⟨.tcvt x d a k f w q, 0x700#32, 0x0#32, 0x0#32⟩, ?_, rfl, ?_, ?_⟩
  · simp (disch := decide) only [rowOf, rowTcvt, BitVec.extractLsb'_append_eq_of_add_le, BitVec.extractLsb'_append_eq_of_le]
    simp only [show ∀ p : BitVec 5, (p ++ 64#7 ++ x).extractLsb' 0 5 = (64#7).extractLsb' 0 2 ++ x from fun p => low_op p _ _]
    obtain rfl | rfl | rfl | rfl | rfl | rfl | rfl | rfl := three_bits x <;> simp
  · exact BitVec.and_zero
  · exact and_mask (m := (hAppend (hAppend (hAppend (hAppend (hAppend 0#21 7#3) 0#3) 0#3) 0#1) 0#1)) (m' := 0x700#32) (v' := 0x0#32) (by decide) (@and_app 31 1 _ _ _ _ _ (0#1) (@and_app 30 1 _ _ _ _ _ (0#1) (@and_app 27 3 _ _ _ _ _ (0#3) (@and_app 24 3 _ _ _ _ _ (0#3) (@and_app 21 3 _ _ _ _ _ (0#3) BitVec.and_zero rfl) BitVec.and_zero) BitVec.and_zero) BitVec.and_zero) BitVec.and_zero)

theorem tcvtSat (x : BitVec 3) (d : BitVec 3) (a : BitVec 3) (k : BitVec 3) (f : BitVec 3) (w : BitVec 1) (q : BitVec 1) : Statement (.tcvtSat x d a k f w q) := by
  intro _ pos g
  show Fits (hAppend (hAppend (hAppend (hAppend (hAppend (hAppend (hAppend (hAppend (hAppend (hAppend pos g) 65#7) x) d) a) 0#3) k) f) w) q) _
  refine ⟨⟨.tcvtSat x d a k f w q, 0x700#32, 0x0#32, 0x0#32⟩, ?_, rfl, ?_, ?_⟩
  · simp (disch := decide) only [rowOf, rowTcvt, BitVec.extractLsb'_append_eq_of_add_le, BitVec.extractLsb'_append_eq_of_le]
    simp only [show ∀ p : BitVec 5, (p ++ 65#7 ++ x).extractLsb' 0 5 = (65#7).extractLsb' 0 2 ++ x from fun p => low_op p _ _]
    obtain rfl | rfl | rfl | rfl | rfl | rfl | rfl | rfl := three_bits x <;> simp
  · exact BitVec.and_zero
  · exact and_mask (m := (hAppend (hAppend (hAppend (hAppend (hAppend 0#21 7#3) 0#3) 0#3) 0#1) 0#1)) (m' := 0x700#32) (v' := 0x0#32) (by decide) (@and_app 31 1 _ _ _ _ _ (0#1) (@and_app 30 1 _ _ _ _ _ (0#1) (@and_app 27 3 _ _ _ _ _ (0#3) (@and_app 24 3 _ _ _ _ _ (0#3) (@and_app 21 3 _ _ _ _ _ (0#3) BitVec.and_zero rfl) BitVec.and_zero) BitVec.and_zero) BitVec.and_zero) BitVec.and_zero)

theorem tquant (n : BitVec 3) (d : BitVec 3) (a : BitVec 3) (f : BitVec 3) (w : BitVec 1) (q : BitVec 1) : Statement (.tquant n d a f w q) := by
  intro _ pos g
  show Fits (hAppend (hAppend (hAppend (hAppend (hAppend (hAppend (hAppend (hAppend (hAppend pos g) 66#7) n) d) a) 0#6) f) w) q) _
  refine ⟨⟨.tquant n d a f w q, 0x7E0#32, 0x0#32, 0x0#32⟩, ?_, rfl, ?_, ?_⟩
  · simp (disch := decide) only [rowOf, rowTcvt, BitVec.extractLsb'_append_eq_of_add_le, BitVec.extractLsb'_append_eq_of_le]
    simp only [show ∀ p : BitVec 5, (p ++ 66#7 ++ n).extractLsb' 0 5 = (66#7).extractLsb' 0 2 ++ n from fun p => low_op p _ _]
    obtain rfl | rfl | rfl | rfl | rfl | rfl | rfl | rfl := three_bits n <;> simp
  · exact BitVec.and_zero
  · exact and_mask (m := (hAppend (hAppend (hAppend (hAppend 0#21 63#6) 0#3) 0#1) 0#1)) (m' := 0x7E0#32) (v' := 0x0#32) (by decide) (@and_app 31 1 _ _ _ _ _ (0#1) (@and_app 30 1 _ _ _ _ _ (0#1) (@and_app 27 3 _ _ _ _ _ (0#3) (@and_app 21 6 _ _ _ _ _ (0#6) BitVec.and_zero rfl) BitVec.and_zero) BitVec.and_zero) BitVec.and_zero)

theorem tdeq (d : BitVec 3) (a : BitVec 3) (n : BitVec 3) (f : BitVec 3) (w : BitVec 1) (q : BitVec 1) : Statement (.tdeq d a n f w q) := by
  intro _ pos g
  show Fits (hAppend (hAppend (hAppend (hAppend (hAppend (hAppend (hAppend (hAppend (hAppend pos g) 536#10) d) a) 0#3) n) f) w) q) _
  refine ⟨⟨.tdeq d a n f w q, 0x700#32, 0x0#32, 0x0#32⟩, ?_, rfl, ?_, ?_⟩
  · rw [rowOf_Tcvt (by simp (disch := decide) only [BitVec.extractLsb'_append_eq_of_add_le, BitVec.extractLsb'_append_eq_of_le]; rfl)]
    unfold rowTcvt
    rw [show (hAppend (hAppend (hAppend (hAppend (hAppend (hAppend (hAppend (hAppend (hAppend pos g) 536#10) d) a) 0#3) n) f) w) q).extractLsb' 17 5 = 24#5 from by simp (disch := decide) only [BitVec.extractLsb'_append_eq_of_add_le, BitVec.extractLsb'_append_eq_of_le]; rfl]
    show Except.ok _ = _
    simp (disch := decide) only [BitVec.extractLsb'_append_eq_of_add_le, BitVec.extractLsb'_append_eq_of_le]
    simp
  · exact BitVec.and_zero
  · exact and_mask (m := (hAppend (hAppend (hAppend (hAppend (hAppend 0#21 7#3) 0#3) 0#3) 0#1) 0#1)) (m' := 0x700#32) (v' := 0x0#32) (by decide) (@and_app 31 1 _ _ _ _ _ (0#1) (@and_app 30 1 _ _ _ _ _ (0#1) (@and_app 27 3 _ _ _ _ _ (0#3) (@and_app 24 3 _ _ _ _ _ (0#3) (@and_app 21 3 _ _ _ _ _ (0#3) BitVec.and_zero rfl) BitVec.and_zero) BitVec.and_zero) BitVec.and_zero) BitVec.and_zero)

theorem tdeqHi (d : BitVec 3) (a : BitVec 3) (n : BitVec 3) (f : BitVec 3) (w : BitVec 1) (q : BitVec 1) : Statement (.tdeqHi d a n f w q) := by
  intro _ pos g
  show Fits (hAppend (hAppend (hAppend (hAppend (hAppend (hAppend (hAppend (hAppend (hAppend pos g) 537#10) d) a) 0#3) n) f) w) q) _
  refine ⟨⟨.tdeqHi d a n f w q, 0x700#32, 0x0#32, 0x0#32⟩, ?_, rfl, ?_, ?_⟩
  · rw [rowOf_Tcvt (by simp (disch := decide) only [BitVec.extractLsb'_append_eq_of_add_le, BitVec.extractLsb'_append_eq_of_le]; rfl)]
    unfold rowTcvt
    rw [show (hAppend (hAppend (hAppend (hAppend (hAppend (hAppend (hAppend (hAppend (hAppend pos g) 537#10) d) a) 0#3) n) f) w) q).extractLsb' 17 5 = 25#5 from by simp (disch := decide) only [BitVec.extractLsb'_append_eq_of_add_le, BitVec.extractLsb'_append_eq_of_le]; rfl]
    show Except.ok _ = _
    simp (disch := decide) only [BitVec.extractLsb'_append_eq_of_add_le, BitVec.extractLsb'_append_eq_of_le]
    simp
  · exact BitVec.and_zero
  · exact and_mask (m := (hAppend (hAppend (hAppend (hAppend (hAppend 0#21 7#3) 0#3) 0#3) 0#1) 0#1)) (m' := 0x700#32) (v' := 0x0#32) (by decide) (@and_app 31 1 _ _ _ _ _ (0#1) (@and_app 30 1 _ _ _ _ _ (0#1) (@and_app 27 3 _ _ _ _ _ (0#3) (@and_app 24 3 _ _ _ _ _ (0#3) (@and_app 21 3 _ _ _ _ _ (0#3) BitVec.and_zero rfl) BitVec.and_zero) BitVec.and_zero) BitVec.and_zero) BitVec.and_zero)

theorem tscx (k : BitVec 3) (a : BitVec 3) (n : BitVec 3) (w : BitVec 1) (q : BitVec 1) : Statement (.tscx k a n w q) := by
  intro _ pos g
  show Fits (hAppend (hAppend (hAppend (hAppend (hAppend (hAppend (hAppend (hAppend (hAppend pos g) 538#10) k) a) 0#3) n) 6#3) w) q) _
  have h1c : (hAppend (hAppend (hAppend (hAppend (hAppend (hAppend (hAppend (hAppend (hAppend pos g) 538#10) k) a) 0#3) n) 6#3) w) q) &&& 0x1C#32 = 0x18#32 := and_mask (m := (hAppend (hAppend (hAppend 0#27 7#3) 0#1) 0#1)) (by decide) (@and_app 31 1 _ _ _ _ _ (0#1) (@and_app 30 1 _ _ _ _ _ (0#1) (@and_app 27 3 _ _ _ _ _ (6#3) BitVec.and_zero rfl) BitVec.and_zero) BitVec.and_zero)
  refine ⟨⟨.tscx k a n w q, 0x700#32, 0x0#32, 0x0#32⟩, ?_, rfl, ?_, ?_⟩
  · rw [rowOf_Tcvt (by simp (disch := decide) only [BitVec.extractLsb'_append_eq_of_add_le, BitVec.extractLsb'_append_eq_of_le]; rfl)]
    simp (disch := decide) only [rowTcvt, BitVec.extractLsb'_append_eq_of_add_le, BitVec.extractLsb'_append_eq_of_le, h1c]
    simp
  · exact BitVec.and_zero
  · exact and_mask (m := (hAppend (hAppend (hAppend (hAppend (hAppend 0#21 7#3) 0#3) 0#3) 0#1) 0#1)) (m' := 0x700#32) (v' := 0x0#32) (by decide) (@and_app 31 1 _ _ _ _ _ (0#1) (@and_app 30 1 _ _ _ _ _ (0#1) (@and_app 27 3 _ _ _ _ _ (0#3) (@and_app 24 3 _ _ _ _ _ (0#3) (@and_app 21 3 _ _ _ _ _ (0#3) BitVec.and_zero rfl) BitVec.and_zero) BitVec.and_zero) BitVec.and_zero) BitVec.and_zero)

theorem tscxHi (k : BitVec 3) (a : BitVec 3) (n : BitVec 3) (w : BitVec 1) (q : BitVec 1) : Statement (.tscxHi k a n w q) := by
  intro _ pos g
  show Fits (hAppend (hAppend (hAppend (hAppend (hAppend (hAppend (hAppend (hAppend (hAppend pos g) 539#10) k) a) 0#3) n) 6#3) w) q) _
  have h1c : (hAppend (hAppend (hAppend (hAppend (hAppend (hAppend (hAppend (hAppend (hAppend pos g) 539#10) k) a) 0#3) n) 6#3) w) q) &&& 0x1C#32 = 0x18#32 := and_mask (m := (hAppend (hAppend (hAppend 0#27 7#3) 0#1) 0#1)) (by decide) (@and_app 31 1 _ _ _ _ _ (0#1) (@and_app 30 1 _ _ _ _ _ (0#1) (@and_app 27 3 _ _ _ _ _ (6#3) BitVec.and_zero rfl) BitVec.and_zero) BitVec.and_zero)
  refine ⟨⟨.tscxHi k a n w q, 0x700#32, 0x0#32, 0x0#32⟩, ?_, rfl, ?_, ?_⟩
  · rw [rowOf_Tcvt (by simp (disch := decide) only [BitVec.extractLsb'_append_eq_of_add_le, BitVec.extractLsb'_append_eq_of_le]; rfl)]
    simp (disch := decide) only [rowTcvt, BitVec.extractLsb'_append_eq_of_add_le, BitVec.extractLsb'_append_eq_of_le, h1c]
    simp
  · exact BitVec.and_zero
  · exact and_mask (m := (hAppend (hAppend (hAppend (hAppend (hAppend 0#21 7#3) 0#3) 0#3) 0#1) 0#1)) (m' := 0x700#32) (v' := 0x0#32) (by decide) (@and_app 31 1 _ _ _ _ _ (0#1) (@and_app 30 1 _ _ _ _ _ (0#1) (@and_app 27 3 _ _ _ _ _ (0#3) (@and_app 24 3 _ _ _ _ _ (0#3) (@and_app 21 3 _ _ _ _ _ (0#3) BitVec.and_zero rfl) BitVec.and_zero) BitVec.and_zero) BitVec.and_zero) BitVec.and_zero)

theorem tdeqU (d : BitVec 3) (a : BitVec 3) (n : BitVec 3) (f : BitVec 3) (w : BitVec 1) (q : BitVec 1) : Statement (.tdeqU d a n f w q) := by
  intro _ pos g
  show Fits (hAppend (hAppend (hAppend (hAppend (hAppend (hAppend (hAppend (hAppend (hAppend pos g) 540#10) d) a) 0#3) n) f) w) q) _
  refine ⟨⟨.tdeqU d a n f w q, 0x700#32, 0x0#32, 0x0#32⟩, ?_, rfl, ?_, ?_⟩
  · rw [rowOf_Tcvt (by simp (disch := decide) only [BitVec.extractLsb'_append_eq_of_add_le, BitVec.extractLsb'_append_eq_of_le]; rfl)]
    unfold rowTcvt
    rw [show (hAppend (hAppend (hAppend (hAppend (hAppend (hAppend (hAppend (hAppend (hAppend pos g) 540#10) d) a) 0#3) n) f) w) q).extractLsb' 17 5 = 28#5 from by simp (disch := decide) only [BitVec.extractLsb'_append_eq_of_add_le, BitVec.extractLsb'_append_eq_of_le]; rfl]
    show Except.ok _ = _
    simp (disch := decide) only [BitVec.extractLsb'_append_eq_of_add_le, BitVec.extractLsb'_append_eq_of_le]
    simp
  · exact BitVec.and_zero
  · exact and_mask (m := (hAppend (hAppend (hAppend (hAppend (hAppend 0#21 7#3) 0#3) 0#3) 0#1) 0#1)) (m' := 0x700#32) (v' := 0x0#32) (by decide) (@and_app 31 1 _ _ _ _ _ (0#1) (@and_app 30 1 _ _ _ _ _ (0#1) (@and_app 27 3 _ _ _ _ _ (0#3) (@and_app 24 3 _ _ _ _ _ (0#3) (@and_app 21 3 _ _ _ _ _ (0#3) BitVec.and_zero rfl) BitVec.and_zero) BitVec.and_zero) BitVec.and_zero) BitVec.and_zero)

theorem tdeqUHi (d : BitVec 3) (a : BitVec 3) (n : BitVec 3) (f : BitVec 3) (w : BitVec 1) (q : BitVec 1) : Statement (.tdeqUHi d a n f w q) := by
  intro _ pos g
  show Fits (hAppend (hAppend (hAppend (hAppend (hAppend (hAppend (hAppend (hAppend (hAppend pos g) 541#10) d) a) 0#3) n) f) w) q) _
  refine ⟨⟨.tdeqUHi d a n f w q, 0x700#32, 0x0#32, 0x0#32⟩, ?_, rfl, ?_, ?_⟩
  · rw [rowOf_Tcvt (by simp (disch := decide) only [BitVec.extractLsb'_append_eq_of_add_le, BitVec.extractLsb'_append_eq_of_le]; rfl)]
    unfold rowTcvt
    rw [show (hAppend (hAppend (hAppend (hAppend (hAppend (hAppend (hAppend (hAppend (hAppend pos g) 541#10) d) a) 0#3) n) f) w) q).extractLsb' 17 5 = 29#5 from by simp (disch := decide) only [BitVec.extractLsb'_append_eq_of_add_le, BitVec.extractLsb'_append_eq_of_le]; rfl]
    show Except.ok _ = _
    simp (disch := decide) only [BitVec.extractLsb'_append_eq_of_add_le, BitVec.extractLsb'_append_eq_of_le]
    simp
  · exact BitVec.and_zero
  · exact and_mask (m := (hAppend (hAppend (hAppend (hAppend (hAppend 0#21 7#3) 0#3) 0#3) 0#1) 0#1)) (m' := 0x700#32) (v' := 0x0#32) (by decide) (@and_app 31 1 _ _ _ _ _ (0#1) (@and_app 30 1 _ _ _ _ _ (0#1) (@and_app 27 3 _ _ _ _ _ (0#3) (@and_app 24 3 _ _ _ _ _ (0#3) (@and_app 21 3 _ _ _ _ _ (0#3) BitVec.and_zero rfl) BitVec.and_zero) BitVec.and_zero) BitVec.and_zero) BitVec.and_zero)

theorem tmov (d : BitVec 3) (a : BitVec 3) (f : BitVec 3) (w : BitVec 1) (q : BitVec 1) : Statement (.tmov d a f w q) := by
  intro _ pos g
  show Fits (hAppend (hAppend (hAppend (hAppend (hAppend (hAppend (hAppend (hAppend pos g) 544#10) d) a) 0#6) f) w) q) _
  refine ⟨⟨.tmov d a f w q, 0x7E0#32, 0x0#32, 0x0#32⟩, ?_, rfl, ?_, ?_⟩
  · rw [rowOf_Tmov (by simp (disch := decide) only [BitVec.extractLsb'_append_eq_of_add_le, BitVec.extractLsb'_append_eq_of_le]; rfl)]
    unfold rowTmov
    rw [show (hAppend (hAppend (hAppend (hAppend (hAppend (hAppend (hAppend (hAppend pos g) 544#10) d) a) 0#6) f) w) q).extractLsb' 17 5 = 0#5 from by simp (disch := decide) only [BitVec.extractLsb'_append_eq_of_add_le, BitVec.extractLsb'_append_eq_of_le]; rfl]
    show Except.ok _ = _
    simp (disch := decide) only [BitVec.extractLsb'_append_eq_of_add_le, BitVec.extractLsb'_append_eq_of_le]
    simp
  · exact BitVec.and_zero
  · exact and_mask (m := (hAppend (hAppend (hAppend (hAppend 0#21 63#6) 0#3) 0#1) 0#1)) (m' := 0x7E0#32) (v' := 0x0#32) (by decide) (@and_app 31 1 _ _ _ _ _ (0#1) (@and_app 30 1 _ _ _ _ _ (0#1) (@and_app 27 3 _ _ _ _ _ (0#3) (@and_app 21 6 _ _ _ _ _ (0#6) BitVec.and_zero rfl) BitVec.and_zero) BitVec.and_zero) BitVec.and_zero)

theorem tbcast (d : BitVec 3) (b : BitVec 5) (f : BitVec 3) (w : BitVec 1) (q : BitVec 1) : Statement (.tbcast d b f w q) := by
  intro _ pos g
  show Fits (hAppend (hAppend (hAppend (hAppend (hAppend (hAppend (hAppend (hAppend pos g) 545#10) d) 1#4) b) f) w) q) _
  refine ⟨⟨.tbcast d b f w q, 0x3C00#32, 0x400#32, 0x0#32⟩, ?_, rfl, ?_, ?_⟩
  · rw [rowOf_Tmov (by simp (disch := decide) only [BitVec.extractLsb'_append_eq_of_add_le, BitVec.extractLsb'_append_eq_of_le]; rfl)]
    unfold rowTmov
    rw [show (hAppend (hAppend (hAppend (hAppend (hAppend (hAppend (hAppend (hAppend pos g) 545#10) d) 1#4) b) f) w) q).extractLsb' 17 5 = 1#5 from by simp (disch := decide) only [BitVec.extractLsb'_append_eq_of_add_le, BitVec.extractLsb'_append_eq_of_le]; rfl]
    show Except.ok _ = _
    simp (disch := decide) only [BitVec.extractLsb'_append_eq_of_add_le, BitVec.extractLsb'_append_eq_of_le]
    simp
  · exact BitVec.and_zero
  · exact and_mask (m := (hAppend (hAppend (hAppend (hAppend (hAppend 0#18 15#4) 0#5) 0#3) 0#1) 0#1)) (m' := 0x3C00#32) (v' := 0x400#32) (by decide) (@and_app 31 1 _ _ _ _ _ (0#1) (@and_app 30 1 _ _ _ _ _ (0#1) (@and_app 27 3 _ _ _ _ _ (0#3) (@and_app 22 5 _ _ _ _ _ (0#5) (@and_app 18 4 _ _ _ _ _ (1#4) BitVec.and_zero rfl) BitVec.and_zero) BitVec.and_zero) BitVec.and_zero) BitVec.and_zero)

theorem tbcastL (d : BitVec 3) (a : BitVec 3) (b : BitVec 5) (f : BitVec 3) (w : BitVec 1) (q : BitVec 1) : Statement (.tbcastL d a b f w q) := by
  intro _ pos g
  show Fits (hAppend (hAppend (hAppend (hAppend (hAppend (hAppend (hAppend (hAppend (hAppend pos g) 546#10) d) a) 1#1) b) f) w) q) _
  refine ⟨⟨.tbcastL d a b f w q, 0x400#32, 0x400#32, 0x0#32⟩, ?_, rfl, ?_, ?_⟩
  · rw [rowOf_Tmov (by simp (disch := decide) only [BitVec.extractLsb'_append_eq_of_add_le, BitVec.extractLsb'_append_eq_of_le]; rfl)]
    unfold rowTmov
    rw [show (hAppend (hAppend (hAppend (hAppend (hAppend (hAppend (hAppend (hAppend (hAppend pos g) 546#10) d) a) 1#1) b) f) w) q).extractLsb' 17 5 = 2#5 from by simp (disch := decide) only [BitVec.extractLsb'_append_eq_of_add_le, BitVec.extractLsb'_append_eq_of_le]; rfl]
    show Except.ok _ = _
    simp (disch := decide) only [BitVec.extractLsb'_append_eq_of_add_le, BitVec.extractLsb'_append_eq_of_le]
    simp
  · exact BitVec.and_zero
  · exact and_mask (m := (hAppend (hAppend (hAppend (hAppend (hAppend 0#21 1#1) 0#5) 0#3) 0#1) 0#1)) (m' := 0x400#32) (v' := 0x400#32) (by decide) (@and_app 31 1 _ _ _ _ _ (0#1) (@and_app 30 1 _ _ _ _ _ (0#1) (@and_app 27 3 _ _ _ _ _ (0#3) (@and_app 22 5 _ _ _ _ _ (0#5) (@and_app 21 1 _ _ _ _ _ (1#1) BitVec.and_zero rfl) BitVec.and_zero) BitVec.and_zero) BitVec.and_zero) BitVec.and_zero)

theorem trot (d : BitVec 3) (a : BitVec 3) (b : BitVec 5) (f : BitVec 3) (w : BitVec 1) (q : BitVec 1) : Statement (.trot d a b f w q) := by
  intro _ pos g
  show Fits (hAppend (hAppend (hAppend (hAppend (hAppend (hAppend (hAppend (hAppend (hAppend pos g) 547#10) d) a) 1#1) b) f) w) q) _
  refine ⟨⟨.trot d a b f w q, 0x400#32, 0x400#32, 0x0#32⟩, ?_, rfl, ?_, ?_⟩
  · rw [rowOf_Tmov (by simp (disch := decide) only [BitVec.extractLsb'_append_eq_of_add_le, BitVec.extractLsb'_append_eq_of_le]; rfl)]
    unfold rowTmov
    rw [show (hAppend (hAppend (hAppend (hAppend (hAppend (hAppend (hAppend (hAppend (hAppend pos g) 547#10) d) a) 1#1) b) f) w) q).extractLsb' 17 5 = 3#5 from by simp (disch := decide) only [BitVec.extractLsb'_append_eq_of_add_le, BitVec.extractLsb'_append_eq_of_le]; rfl]
    show Except.ok _ = _
    simp (disch := decide) only [BitVec.extractLsb'_append_eq_of_add_le, BitVec.extractLsb'_append_eq_of_le]
    simp
  · exact BitVec.and_zero
  · exact and_mask (m := (hAppend (hAppend (hAppend (hAppend (hAppend 0#21 1#1) 0#5) 0#3) 0#1) 0#1)) (m' := 0x400#32) (v' := 0x400#32) (by decide) (@and_app 31 1 _ _ _ _ _ (0#1) (@and_app 30 1 _ _ _ _ _ (0#1) (@and_app 27 3 _ _ _ _ _ (0#3) (@and_app 22 5 _ _ _ _ _ (0#5) (@and_app 21 1 _ _ _ _ _ (1#1) BitVec.and_zero rfl) BitVec.and_zero) BitVec.and_zero) BitVec.and_zero) BitVec.and_zero)

theorem tshuf (d : BitVec 3) (a : BitVec 3) (b : BitVec 3) (f : BitVec 3) (w : BitVec 1) (q : BitVec 1) : Statement (.tshuf d a b f w q) := by
  intro _ pos g
  show Fits (hAppend (hAppend (hAppend (hAppend (hAppend (hAppend (hAppend (hAppend (hAppend pos g) 548#10) d) a) 0#3) b) f) w) q) _
  refine ⟨⟨.tshuf d a b f w q, 0x700#32, 0x0#32, 0x0#32⟩, ?_, rfl, ?_, ?_⟩
  · rw [rowOf_Tmov (by simp (disch := decide) only [BitVec.extractLsb'_append_eq_of_add_le, BitVec.extractLsb'_append_eq_of_le]; rfl)]
    unfold rowTmov
    rw [show (hAppend (hAppend (hAppend (hAppend (hAppend (hAppend (hAppend (hAppend (hAppend pos g) 548#10) d) a) 0#3) b) f) w) q).extractLsb' 17 5 = 4#5 from by simp (disch := decide) only [BitVec.extractLsb'_append_eq_of_add_le, BitVec.extractLsb'_append_eq_of_le]; rfl]
    show Except.ok _ = _
    simp (disch := decide) only [BitVec.extractLsb'_append_eq_of_add_le, BitVec.extractLsb'_append_eq_of_le]
    simp
  · exact BitVec.and_zero
  · exact and_mask (m := (hAppend (hAppend (hAppend (hAppend (hAppend 0#21 7#3) 0#3) 0#3) 0#1) 0#1)) (m' := 0x700#32) (v' := 0x0#32) (by decide) (@and_app 31 1 _ _ _ _ _ (0#1) (@and_app 30 1 _ _ _ _ _ (0#1) (@and_app 27 3 _ _ _ _ _ (0#3) (@and_app 24 3 _ _ _ _ _ (0#3) (@and_app 21 3 _ _ _ _ _ (0#3) BitVec.and_zero rfl) BitVec.and_zero) BitVec.and_zero) BitVec.and_zero) BitVec.and_zero)

theorem tredMax (d : BitVec 3) (a : BitVec 3) (b : BitVec 5) (f : BitVec 3) (w : BitVec 1) (q : BitVec 1) : Statement (.tredMax d a b f w q) := by
  intro _ pos g
  show Fits (hAppend (hAppend (hAppend (hAppend (hAppend (hAppend (hAppend (hAppend (hAppend pos g) 549#10) d) a) 1#1) b) f) w) q) _
  refine ⟨⟨.tredMax d a b f w q, 0x400#32, 0x400#32, 0x0#32⟩, ?_, rfl, ?_, ?_⟩
  · rw [rowOf_Tmov (by simp (disch := decide) only [BitVec.extractLsb'_append_eq_of_add_le, BitVec.extractLsb'_append_eq_of_le]; rfl)]
    unfold rowTmov
    rw [show (hAppend (hAppend (hAppend (hAppend (hAppend (hAppend (hAppend (hAppend (hAppend pos g) 549#10) d) a) 1#1) b) f) w) q).extractLsb' 17 5 = 5#5 from by simp (disch := decide) only [BitVec.extractLsb'_append_eq_of_add_le, BitVec.extractLsb'_append_eq_of_le]; rfl]
    show Except.ok _ = _
    simp (disch := decide) only [BitVec.extractLsb'_append_eq_of_add_le, BitVec.extractLsb'_append_eq_of_le]
    simp
  · exact BitVec.and_zero
  · exact and_mask (m := (hAppend (hAppend (hAppend (hAppend (hAppend 0#21 1#1) 0#5) 0#3) 0#1) 0#1)) (m' := 0x400#32) (v' := 0x400#32) (by decide) (@and_app 31 1 _ _ _ _ _ (0#1) (@and_app 30 1 _ _ _ _ _ (0#1) (@and_app 27 3 _ _ _ _ _ (0#3) (@and_app 22 5 _ _ _ _ _ (0#5) (@and_app 21 1 _ _ _ _ _ (1#1) BitVec.and_zero rfl) BitVec.and_zero) BitVec.and_zero) BitVec.and_zero) BitVec.and_zero)

theorem tredMin (d : BitVec 3) (a : BitVec 3) (b : BitVec 5) (f : BitVec 3) (w : BitVec 1) (q : BitVec 1) : Statement (.tredMin d a b f w q) := by
  intro _ pos g
  show Fits (hAppend (hAppend (hAppend (hAppend (hAppend (hAppend (hAppend (hAppend (hAppend pos g) 550#10) d) a) 1#1) b) f) w) q) _
  refine ⟨⟨.tredMin d a b f w q, 0x400#32, 0x400#32, 0x0#32⟩, ?_, rfl, ?_, ?_⟩
  · rw [rowOf_Tmov (by simp (disch := decide) only [BitVec.extractLsb'_append_eq_of_add_le, BitVec.extractLsb'_append_eq_of_le]; rfl)]
    unfold rowTmov
    rw [show (hAppend (hAppend (hAppend (hAppend (hAppend (hAppend (hAppend (hAppend (hAppend pos g) 550#10) d) a) 1#1) b) f) w) q).extractLsb' 17 5 = 6#5 from by simp (disch := decide) only [BitVec.extractLsb'_append_eq_of_add_le, BitVec.extractLsb'_append_eq_of_le]; rfl]
    show Except.ok _ = _
    simp (disch := decide) only [BitVec.extractLsb'_append_eq_of_add_le, BitVec.extractLsb'_append_eq_of_le]
    simp
  · exact BitVec.and_zero
  · exact and_mask (m := (hAppend (hAppend (hAppend (hAppend (hAppend 0#21 1#1) 0#5) 0#3) 0#1) 0#1)) (m' := 0x400#32) (v' := 0x400#32) (by decide) (@and_app 31 1 _ _ _ _ _ (0#1) (@and_app 30 1 _ _ _ _ _ (0#1) (@and_app 27 3 _ _ _ _ _ (0#3) (@and_app 22 5 _ _ _ _ _ (0#5) (@and_app 21 1 _ _ _ _ _ (1#1) BitVec.and_zero rfl) BitVec.and_zero) BitVec.and_zero) BitVec.and_zero) BitVec.and_zero)

theorem tredAdd (d : BitVec 3) (a : BitVec 3) (b : BitVec 5) (f : BitVec 3) (w : BitVec 1) (q : BitVec 1) : Statement (.tredAdd d a b f w q) := by
  intro _ pos g
  show Fits (hAppend (hAppend (hAppend (hAppend (hAppend (hAppend (hAppend (hAppend (hAppend pos g) 551#10) d) a) 1#1) b) f) w) q) _
  refine ⟨⟨.tredAdd d a b f w q, 0x400#32, 0x400#32, 0x0#32⟩, ?_, rfl, ?_, ?_⟩
  · rw [rowOf_Tmov (by simp (disch := decide) only [BitVec.extractLsb'_append_eq_of_add_le, BitVec.extractLsb'_append_eq_of_le]; rfl)]
    unfold rowTmov
    rw [show (hAppend (hAppend (hAppend (hAppend (hAppend (hAppend (hAppend (hAppend (hAppend pos g) 551#10) d) a) 1#1) b) f) w) q).extractLsb' 17 5 = 7#5 from by simp (disch := decide) only [BitVec.extractLsb'_append_eq_of_add_le, BitVec.extractLsb'_append_eq_of_le]; rfl]
    show Except.ok _ = _
    simp (disch := decide) only [BitVec.extractLsb'_append_eq_of_add_le, BitVec.extractLsb'_append_eq_of_le]
    simp
  · exact BitVec.and_zero
  · exact and_mask (m := (hAppend (hAppend (hAppend (hAppend (hAppend 0#21 1#1) 0#5) 0#3) 0#1) 0#1)) (m' := 0x400#32) (v' := 0x400#32) (by decide) (@and_app 31 1 _ _ _ _ _ (0#1) (@and_app 30 1 _ _ _ _ _ (0#1) (@and_app 27 3 _ _ _ _ _ (0#3) (@and_app 22 5 _ _ _ _ _ (0#5) (@and_app 21 1 _ _ _ _ _ (1#1) BitVec.and_zero rfl) BitVec.and_zero) BitVec.and_zero) BitVec.and_zero) BitVec.and_zero)

theorem tsel (d : BitVec 3) (a : BitVec 3) (s : BitVec 1) (b : BitVec 5) (f : BitVec 3) (w : BitVec 1) (q : BitVec 1) : Statement (.tsel d a s b f w q) := by
  intro _ pos g
  show Fits (hAppend (hAppend (hAppend (hAppend (hAppend (hAppend (hAppend (hAppend (hAppend pos g) 552#10) d) a) s) b) f) w) q) _
  refine ⟨⟨.tsel d a s b f w q, 0x0#32, 0x0#32, 0x0#32⟩, ?_, rfl, ?_, ?_⟩
  · rw [rowOf_Tmov (by simp (disch := decide) only [BitVec.extractLsb'_append_eq_of_add_le, BitVec.extractLsb'_append_eq_of_le]; rfl)]
    unfold rowTmov
    rw [show (hAppend (hAppend (hAppend (hAppend (hAppend (hAppend (hAppend (hAppend (hAppend pos g) 552#10) d) a) s) b) f) w) q).extractLsb' 17 5 = 8#5 from by simp (disch := decide) only [BitVec.extractLsb'_append_eq_of_add_le, BitVec.extractLsb'_append_eq_of_le]; rfl]
    show Except.ok _ = _
    simp (disch := decide) only [BitVec.extractLsb'_append_eq_of_add_le, BitVec.extractLsb'_append_eq_of_le]
    simp
  · exact BitVec.and_zero
  · exact BitVec.and_zero

theorem tpack (d : BitVec 3) (a : BitVec 3) (b : BitVec 3) (f : BitVec 3) (w : BitVec 1) (q : BitVec 1) : Statement (.tpack d a b f w q) := by
  intro _ pos g
  show Fits (hAppend (hAppend (hAppend (hAppend (hAppend (hAppend (hAppend (hAppend (hAppend pos g) 553#10) d) a) 0#3) b) f) w) q) _
  refine ⟨⟨.tpack d a b f w q, 0x700#32, 0x0#32, 0x0#32⟩, ?_, rfl, ?_, ?_⟩
  · rw [rowOf_Tmov (by simp (disch := decide) only [BitVec.extractLsb'_append_eq_of_add_le, BitVec.extractLsb'_append_eq_of_le]; rfl)]
    unfold rowTmov
    rw [show (hAppend (hAppend (hAppend (hAppend (hAppend (hAppend (hAppend (hAppend (hAppend pos g) 553#10) d) a) 0#3) b) f) w) q).extractLsb' 17 5 = 9#5 from by simp (disch := decide) only [BitVec.extractLsb'_append_eq_of_add_le, BitVec.extractLsb'_append_eq_of_le]; rfl]
    show Except.ok _ = _
    simp (disch := decide) only [BitVec.extractLsb'_append_eq_of_add_le, BitVec.extractLsb'_append_eq_of_le]
    simp
  · exact BitVec.and_zero
  · exact and_mask (m := (hAppend (hAppend (hAppend (hAppend (hAppend 0#21 7#3) 0#3) 0#3) 0#1) 0#1)) (m' := 0x700#32) (v' := 0x0#32) (by decide) (@and_app 31 1 _ _ _ _ _ (0#1) (@and_app 30 1 _ _ _ _ _ (0#1) (@and_app 27 3 _ _ _ _ _ (0#3) (@and_app 24 3 _ _ _ _ _ (0#3) (@and_app 21 3 _ _ _ _ _ (0#3) BitVec.and_zero rfl) BitVec.and_zero) BitVec.and_zero) BitVec.and_zero) BitVec.and_zero)

theorem tunpk (d : BitVec 3) (a : BitVec 3) (b : BitVec 5) (f : BitVec 3) (w : BitVec 1) (q : BitVec 1) : Statement (.tunpk d a b f w q) := by
  intro _ pos g
  show Fits (hAppend (hAppend (hAppend (hAppend (hAppend (hAppend (hAppend (hAppend (hAppend pos g) 554#10) d) a) 1#1) b) f) w) q) _
  refine ⟨⟨.tunpk d a b f w q, 0x400#32, 0x400#32, 0x0#32⟩, ?_, rfl, ?_, ?_⟩
  · rw [rowOf_Tmov (by simp (disch := decide) only [BitVec.extractLsb'_append_eq_of_add_le, BitVec.extractLsb'_append_eq_of_le]; rfl)]
    unfold rowTmov
    rw [show (hAppend (hAppend (hAppend (hAppend (hAppend (hAppend (hAppend (hAppend (hAppend pos g) 554#10) d) a) 1#1) b) f) w) q).extractLsb' 17 5 = 10#5 from by simp (disch := decide) only [BitVec.extractLsb'_append_eq_of_add_le, BitVec.extractLsb'_append_eq_of_le]; rfl]
    show Except.ok _ = _
    simp (disch := decide) only [BitVec.extractLsb'_append_eq_of_add_le, BitVec.extractLsb'_append_eq_of_le]
    simp
  · exact BitVec.and_zero
  · exact and_mask (m := (hAppend (hAppend (hAppend (hAppend (hAppend 0#21 1#1) 0#5) 0#3) 0#1) 0#1)) (m' := 0x400#32) (v' := 0x400#32) (by decide) (@and_app 31 1 _ _ _ _ _ (0#1) (@and_app 30 1 _ _ _ _ _ (0#1) (@and_app 27 3 _ _ _ _ _ (0#3) (@and_app 22 5 _ _ _ _ _ (0#5) (@and_app 21 1 _ _ _ _ _ (1#1) BitVec.and_zero rfl) BitVec.and_zero) BitVec.and_zero) BitVec.and_zero) BitVec.and_zero)

theorem ttrans (d : BitVec 3) (a : BitVec 3) (f : BitVec 3) (q : BitVec 1) : Statement (.ttrans d a f q) := by
  intro _ pos g
  show Fits (hAppend (hAppend (hAppend (hAppend (hAppend (hAppend (hAppend (hAppend pos g) 555#10) d) a) 0#6) f) 1#1) q) _
  have h2 : (hAppend (hAppend (hAppend (hAppend (hAppend (hAppend (hAppend (hAppend pos g) 555#10) d) a) 0#6) f) 1#1) q) &&& 0x2#32 = 0x2#32 := and_mask (m := (hAppend (hAppend 0#30 1#1) 0#1)) (by decide) (@and_app 31 1 _ _ _ _ _ (0#1) (@and_app 30 1 _ _ _ _ _ (1#1) BitVec.and_zero rfl) BitVec.and_zero)
  refine ⟨⟨.ttrans d a f q, 0x7E0#32, 0x0#32, 0x0#32⟩, ?_, rfl, ?_, ?_⟩
  · rw [rowOf_Tmov (by simp (disch := decide) only [BitVec.extractLsb'_append_eq_of_add_le, BitVec.extractLsb'_append_eq_of_le]; rfl)]
    simp (disch := decide) only [rowTmov, BitVec.extractLsb'_append_eq_of_add_le, BitVec.extractLsb'_append_eq_of_le, h2]
    simp
  · exact BitVec.and_zero
  · exact and_mask (m := (hAppend (hAppend (hAppend (hAppend 0#21 63#6) 0#3) 0#1) 0#1)) (m' := 0x7E0#32) (v' := 0x0#32) (by decide) (@and_app 31 1 _ _ _ _ _ (0#1) (@and_app 30 1 _ _ _ _ _ (0#1) (@and_app 27 3 _ _ _ _ _ (0#3) (@and_app 21 6 _ _ _ _ _ (0#6) BitVec.and_zero rfl) BitVec.and_zero) BitVec.and_zero) BitVec.and_zero)

theorem kld (h : BitVec 4) (a : BitVec 5) (k : BitVec 3) : Statement (.kld h a k) := by
  intro _ pos g
  show Fits (hAppend (hAppend (hAppend (hAppend (hAppend (hAppend (hAppend pos g) 288#9) h) 0#1) a) 0#5) k) _
  refine ⟨⟨.kld h a k, 0x20F8#32, 0x0#32, 0x0#32⟩, ?_, rfl, ?_, ?_⟩
  · rw [rowOf_Scale (by simp (disch := decide) only [BitVec.extractLsb'_append_eq_of_add_le, BitVec.extractLsb'_append_eq_of_le]; rfl)]
    unfold rowScale
    rw [show (hAppend (hAppend (hAppend (hAppend (hAppend (hAppend (hAppend pos g) 288#9) h) 0#1) a) 0#5) k).extractLsb' 18 4 = 0#4 from by simp (disch := decide) only [BitVec.extractLsb'_append_eq_of_add_le, BitVec.extractLsb'_append_eq_of_le]; rfl]
    show Except.ok _ = _
    simp (disch := decide) only [BitVec.extractLsb'_append_eq_of_add_le, BitVec.extractLsb'_append_eq_of_le]
    simp
  · exact BitVec.and_zero
  · exact and_mask (m := (hAppend (hAppend (hAppend (hAppend 0#18 1#1) 0#5) 31#5) 0#3)) (m' := 0x20F8#32) (v' := 0x0#32) (by decide) (@and_app 29 3 _ _ _ _ _ (0#3) (@and_app 24 5 _ _ _ _ _ (0#5) (@and_app 19 5 _ _ _ _ _ (0#5) (@and_app 18 1 _ _ _ _ _ (0#1) BitVec.and_zero rfl) BitVec.and_zero) rfl) BitVec.and_zero)

theorem kst (h : BitVec 4) (a : BitVec 5) (k : BitVec 3) : Statement (.kst h a k) := by
  intro _ pos g
  show Fits (hAppend (hAppend (hAppend (hAppend (hAppend (hAppend (hAppend pos g) 289#9) h) 0#1) a) 0#5) k) _
  refine ⟨⟨.kst h a k, 0x20F8#32, 0x0#32, 0x0#32⟩, ?_, rfl, ?_, ?_⟩
  · rw [rowOf_Scale (by simp (disch := decide) only [BitVec.extractLsb'_append_eq_of_add_le, BitVec.extractLsb'_append_eq_of_le]; rfl)]
    unfold rowScale
    rw [show (hAppend (hAppend (hAppend (hAppend (hAppend (hAppend (hAppend pos g) 289#9) h) 0#1) a) 0#5) k).extractLsb' 18 4 = 1#4 from by simp (disch := decide) only [BitVec.extractLsb'_append_eq_of_add_le, BitVec.extractLsb'_append_eq_of_le]; rfl]
    show Except.ok _ = _
    simp (disch := decide) only [BitVec.extractLsb'_append_eq_of_add_le, BitVec.extractLsb'_append_eq_of_le]
    simp
  · exact BitVec.and_zero
  · exact and_mask (m := (hAppend (hAppend (hAppend (hAppend 0#18 1#1) 0#5) 31#5) 0#3)) (m' := 0x20F8#32) (v' := 0x0#32) (by decide) (@and_app 29 3 _ _ _ _ _ (0#3) (@and_app 24 5 _ _ _ _ _ (0#5) (@and_app 19 5 _ _ _ _ _ (0#5) (@and_app 18 1 _ _ _ _ _ (0#1) BitVec.and_zero rfl) BitVec.and_zero) rfl) BitVec.and_zero)

theorem kbase (a : BitVec 5) : Statement (.kbase a) := by
  intro _ pos g
  show Fits (hAppend (hAppend (hAppend (hAppend pos g) 9280#14) a) 0#8) _
  refine ⟨⟨.kbase a, 0x3E0FF#32, 0x0#32, 0x0#32⟩, ?_, rfl, ?_, ?_⟩
  · rw [rowOf_Scale (by simp (disch := decide) only [BitVec.extractLsb'_append_eq_of_add_le, BitVec.extractLsb'_append_eq_of_le]; rfl)]
    unfold rowScale
    rw [show (hAppend (hAppend (hAppend (hAppend pos g) 9280#14) a) 0#8).extractLsb' 18 4 = 2#4 from by simp (disch := decide) only [BitVec.extractLsb'_append_eq_of_add_le, BitVec.extractLsb'_append_eq_of_le]; rfl]
    show Except.ok _ = _
    simp (disch := decide) only [BitVec.extractLsb'_append_eq_of_add_le, BitVec.extractLsb'_append_eq_of_le]
    simp
  · exact BitVec.and_zero
  · exact and_mask (m := (hAppend (hAppend (hAppend 0#5 31#14) 0#5) 255#8)) (m' := 0x3E0FF#32) (v' := 0x0#32) (by decide) (@and_app 24 8 _ _ _ _ _ (0#8) (@and_app 19 5 _ _ _ _ _ (0#5) (@and_app 5 14 _ _ _ _ _ (0#14) BitVec.and_zero rfl) BitVec.and_zero) rfl)

theorem krow (a : BitVec 5) : Statement (.krow a) := by
  intro _ pos g
  show Fits (hAppend (hAppend (hAppend (hAppend pos g) 9312#14) a) 0#8) _
  refine ⟨⟨.krow a, 0x3E0FF#32, 0x0#32, 0x0#32⟩, ?_, rfl, ?_, ?_⟩
  · rw [rowOf_Scale (by simp (disch := decide) only [BitVec.extractLsb'_append_eq_of_add_le, BitVec.extractLsb'_append_eq_of_le]; rfl)]
    unfold rowScale
    rw [show (hAppend (hAppend (hAppend (hAppend pos g) 9312#14) a) 0#8).extractLsb' 18 4 = 3#4 from by simp (disch := decide) only [BitVec.extractLsb'_append_eq_of_add_le, BitVec.extractLsb'_append_eq_of_le]; rfl]
    show Except.ok _ = _
    simp (disch := decide) only [BitVec.extractLsb'_append_eq_of_add_le, BitVec.extractLsb'_append_eq_of_le]
    simp
  · exact BitVec.and_zero
  · exact and_mask (m := (hAppend (hAppend (hAppend 0#5 31#14) 0#5) 255#8)) (m' := 0x3E0FF#32) (v' := 0x0#32) (by decide) (@and_app 24 8 _ _ _ _ _ (0#8) (@and_app 19 5 _ _ _ _ _ (0#5) (@and_app 5 14 _ _ _ _ _ (0#14) BitVec.and_zero rfl) BitVec.and_zero) rfl)

theorem kset (a : BitVec 5) (b : BitVec 5) (k : BitVec 3) : Statement (.kset a b k) := by
  intro _ pos g
  show Fits (hAppend (hAppend (hAppend (hAppend (hAppend pos g) 9344#14) a) b) k) _
  have h2000 : (hAppend (hAppend (hAppend (hAppend (hAppend pos g) 9344#14) a) b) k) &&& 0x2000#32 = 0x0#32 := and_mask (m := (hAppend (hAppend (hAppend (hAppend 0#5 1#14) 0#5) 0#5) 0#3)) (by decide) (@and_app 29 3 _ _ _ _ _ (0#3) (@and_app 24 5 _ _ _ _ _ (0#5) (@and_app 19 5 _ _ _ _ _ (0#5) (@and_app 5 14 _ _ _ _ _ (0#14) BitVec.and_zero rfl) BitVec.and_zero) BitVec.and_zero) BitVec.and_zero)
  refine ⟨⟨.kset a b k, 0x3C000#32, 0x0#32, 0x0#32⟩, ?_, rfl, ?_, ?_⟩
  · rw [rowOf_Scale (by simp (disch := decide) only [BitVec.extractLsb'_append_eq_of_add_le, BitVec.extractLsb'_append_eq_of_le]; rfl)]
    simp (disch := decide) only [rowScale, BitVec.extractLsb'_append_eq_of_add_le, BitVec.extractLsb'_append_eq_of_le, h2000]
    simp
  · exact BitVec.and_zero
  · exact and_mask (m := (hAppend (hAppend (hAppend (hAppend 0#5 30#14) 0#5) 0#5) 0#3)) (m' := 0x3C000#32) (v' := 0x0#32) (by decide) (@and_app 29 3 _ _ _ _ _ (0#3) (@and_app 24 5 _ _ _ _ _ (0#5) (@and_app 19 5 _ _ _ _ _ (0#5) (@and_app 5 14 _ _ _ _ _ (0#14) BitVec.and_zero rfl) BitVec.and_zero) BitVec.and_zero) BitVec.and_zero)

theorem ksetAll (a : BitVec 5) (k : BitVec 3) : Statement (.ksetAll a k) := by
  intro _ pos g
  show Fits (hAppend (hAppend (hAppend (hAppend (hAppend pos g) 9345#14) a) 0#5) k) _
  have h2000 : (hAppend (hAppend (hAppend (hAppend (hAppend pos g) 9345#14) a) 0#5) k) &&& 0x2000#32 = 0x2000#32 := and_mask (m := (hAppend (hAppend (hAppend (hAppend 0#5 1#14) 0#5) 0#5) 0#3)) (by decide) (@and_app 29 3 _ _ _ _ _ (0#3) (@and_app 24 5 _ _ _ _ _ (0#5) (@and_app 19 5 _ _ _ _ _ (0#5) (@and_app 5 14 _ _ _ _ _ (1#14) BitVec.and_zero rfl) BitVec.and_zero) BitVec.and_zero) BitVec.and_zero)
  refine ⟨⟨.ksetAll a k, 0x3C0F8#32, 0x0#32, 0x0#32⟩, ?_, rfl, ?_, ?_⟩
  · rw [rowOf_Scale (by simp (disch := decide) only [BitVec.extractLsb'_append_eq_of_add_le, BitVec.extractLsb'_append_eq_of_le]; rfl)]
    simp (disch := decide) only [rowScale, BitVec.extractLsb'_append_eq_of_add_le, BitVec.extractLsb'_append_eq_of_le, h2000]
    simp
  · exact BitVec.and_zero
  · exact and_mask (m := (hAppend (hAppend (hAppend (hAppend 0#5 30#14) 0#5) 31#5) 0#3)) (m' := 0x3C0F8#32) (v' := 0x0#32) (by decide) (@and_app 29 3 _ _ _ _ _ (0#3) (@and_app 24 5 _ _ _ _ _ (0#5) (@and_app 19 5 _ _ _ _ _ (0#5) (@and_app 5 14 _ _ _ _ _ (0#14) BitVec.and_zero rfl) BitVec.and_zero) rfl) BitVec.and_zero)

theorem mload (w : BitVec 1) : Statement (.mload w) := by
  intro _ pos g
  show Fits (hAppend (hAppend (hAppend pos g) 41943040#26) w) _
  refine ⟨⟨.mload w, 0xFFFE#32, 0x0#32, 0x0#32⟩, ?_, rfl, ?_, ?_⟩
  · rw [rowOf_Mxa (by simp (disch := decide) only [BitVec.extractLsb'_append_eq_of_add_le, BitVec.extractLsb'_append_eq_of_le]; rfl)]
    unfold rowMxa
    rw [show (hAppend (hAppend (hAppend pos g) 41943040#26) w).extractLsb' 16 6 = 0#6 from by simp (disch := decide) only [BitVec.extractLsb'_append_eq_of_add_le, BitVec.extractLsb'_append_eq_of_le]; rfl]
    show Except.ok _ = _
    simp (disch := decide) only [BitVec.extractLsb'_append_eq_of_add_le, BitVec.extractLsb'_append_eq_of_le]
    simp
  · exact BitVec.and_zero
  · exact and_mask (m := (hAppend (hAppend 0#5 32767#26) 0#1)) (m' := 0xFFFE#32) (v' := 0x0#32) (by decide) (@and_app 31 1 _ _ _ _ _ (0#1) (@and_app 5 26 _ _ _ _ _ (0#26) BitVec.and_zero rfl) BitVec.and_zero)

theorem mrun (a : BitVec 5) (s : BitVec 2) (w : BitVec 1) (q : BitVec 1) : Statement (.mrun a s w q) := by
  intro _ pos g
  show Fits (hAppend (hAppend (hAppend (hAppend (hAppend (hAppend (hAppend (hAppend pos g) 1281#11) a) 0#5) s) w) q) 0#2) _
  refine ⟨⟨.mrun a s w q, 0x7C3#32, 0x0#32, 0x0#32⟩, ?_, rfl, ?_, ?_⟩
  · rw [rowOf_Mxa (by simp (disch := decide) only [BitVec.extractLsb'_append_eq_of_add_le, BitVec.extractLsb'_append_eq_of_le]; rfl)]
    unfold rowMxa
    rw [show (hAppend (hAppend (hAppend (hAppend (hAppend (hAppend (hAppend (hAppend pos g) 1281#11) a) 0#5) s) w) q) 0#2).extractLsb' 16 6 = 1#6 from by simp (disch := decide) only [BitVec.extractLsb'_append_eq_of_add_le, BitVec.extractLsb'_append_eq_of_le]; rfl]
    show Except.ok _ = _
    simp (disch := decide) only [BitVec.extractLsb'_append_eq_of_add_le, BitVec.extractLsb'_append_eq_of_le]
    simp
  · exact BitVec.and_zero
  · exact and_mask (m := (hAppend (hAppend (hAppend (hAppend (hAppend 0#21 31#5) 0#2) 0#1) 0#1) 3#2)) (m' := 0x7C3#32) (v' := 0x0#32) (by decide) (@and_app 30 2 _ _ _ _ _ (0#2) (@and_app 29 1 _ _ _ _ _ (0#1) (@and_app 28 1 _ _ _ _ _ (0#1) (@and_app 26 2 _ _ _ _ _ (0#2) (@and_app 21 5 _ _ _ _ _ (0#5) BitVec.and_zero rfl) BitVec.and_zero) BitVec.and_zero) BitVec.and_zero) rfl)

theorem mzero (s : BitVec 2) : Statement (.mzero s) := by
  intro _ pos g
  show Fits (hAppend (hAppend (hAppend (hAppend pos g) 1312768#21) s) 0#4) _
  refine ⟨⟨.mzero s, 0xFFCF#32, 0x0#32, 0x0#32⟩, ?_, rfl, ?_, ?_⟩
  · rw [rowOf_Mxa (by simp (disch := decide) only [BitVec.extractLsb'_append_eq_of_add_le, BitVec.extractLsb'_append_eq_of_le]; rfl)]
    unfold rowMxa
    rw [show (hAppend (hAppend (hAppend (hAppend pos g) 1312768#21) s) 0#4).extractLsb' 16 6 = 2#6 from by simp (disch := decide) only [BitVec.extractLsb'_append_eq_of_add_le, BitVec.extractLsb'_append_eq_of_le]; rfl]
    show Except.ok _ = _
    simp (disch := decide) only [BitVec.extractLsb'_append_eq_of_add_le, BitVec.extractLsb'_append_eq_of_le]
    simp
  · exact BitVec.and_zero
  · exact and_mask (m := (hAppend (hAppend (hAppend 0#5 1023#21) 0#2) 15#4)) (m' := 0xFFCF#32) (v' := 0x0#32) (by decide) (@and_app 28 4 _ _ _ _ _ (0#4) (@and_app 26 2 _ _ _ _ _ (0#2) (@and_app 5 21 _ _ _ _ _ (0#21) BitVec.and_zero rfl) BitVec.and_zero) rfl)

theorem mread (a : BitVec 5) (s : BitVec 2) (d : BitVec 3) : Statement (.mread a s d) := by
  intro _ pos g
  show Fits (hAppend (hAppend (hAppend (hAppend (hAppend (hAppend (hAppend pos g) 1283#11) a) 0#5) s) 0#1) d) _
  refine ⟨⟨.mread a s d, 0x7C8#32, 0x0#32, 0x0#32⟩, ?_, rfl, ?_, ?_⟩
  · rw [rowOf_Mxa (by simp (disch := decide) only [BitVec.extractLsb'_append_eq_of_add_le, BitVec.extractLsb'_append_eq_of_le]; rfl)]
    unfold rowMxa
    rw [show (hAppend (hAppend (hAppend (hAppend (hAppend (hAppend (hAppend pos g) 1283#11) a) 0#5) s) 0#1) d).extractLsb' 16 6 = 3#6 from by simp (disch := decide) only [BitVec.extractLsb'_append_eq_of_add_le, BitVec.extractLsb'_append_eq_of_le]; rfl]
    show Except.ok _ = _
    simp (disch := decide) only [BitVec.extractLsb'_append_eq_of_add_le, BitVec.extractLsb'_append_eq_of_le]
    simp
  · exact BitVec.and_zero
  · exact and_mask (m := (hAppend (hAppend (hAppend (hAppend 0#21 31#5) 0#2) 1#1) 0#3)) (m' := 0x7C8#32) (v' := 0x0#32) (by decide) (@and_app 29 3 _ _ _ _ _ (0#3) (@and_app 28 1 _ _ _ _ _ (0#1) (@and_app 26 2 _ _ _ _ _ (0#2) (@and_app 21 5 _ _ _ _ _ (0#5) BitVec.and_zero rfl) BitVec.and_zero) rfl) BitVec.and_zero)

theorem mspillAcc (s : BitVec 2) : Statement (.mspillAcc s) := by
  intro _ pos g
  show Fits (hAppend (hAppend (hAppend (hAppend pos g) 2629632#22) s) 0#3) _
  have h20 : (hAppend (hAppend (hAppend (hAppend pos g) 2629632#22) s) 0#3) &&& 0x20#32 = 0x0#32 := and_mask (m := (hAppend (hAppend (hAppend 0#5 1#22) 0#2) 0#3)) (by decide) (@and_app 29 3 _ _ _ _ _ (0#3) (@and_app 27 2 _ _ _ _ _ (0#2) (@and_app 5 22 _ _ _ _ _ (0#22) BitVec.and_zero rfl) BitVec.and_zero) BitVec.and_zero)
  refine ⟨⟨.mspillAcc s, 0xFFC7#32, 0x0#32, 0x0#32⟩, ?_, rfl, ?_, ?_⟩
  · rw [rowOf_Mxa (by simp (disch := decide) only [BitVec.extractLsb'_append_eq_of_add_le, BitVec.extractLsb'_append_eq_of_le]; rfl)]
    simp (disch := decide) only [rowMxa, BitVec.extractLsb'_append_eq_of_add_le, BitVec.extractLsb'_append_eq_of_le, h20]
    simp
  · exact BitVec.and_zero
  · exact and_mask (m := (hAppend (hAppend (hAppend 0#5 2046#22) 0#2) 7#3)) (m' := 0xFFC7#32) (v' := 0x0#32) (by decide) (@and_app 29 3 _ _ _ _ _ (0#3) (@and_app 27 2 _ _ _ _ _ (0#2) (@and_app 5 22 _ _ _ _ _ (0#22) BitVec.and_zero rfl) BitVec.and_zero) rfl)

theorem mspillSlot (w : BitVec 1) : Statement (.mspillSlot w) := by
  intro _ pos g
  show Fits (hAppend (hAppend (hAppend (hAppend pos g) 5259266#23) w) 0#3) _
  have h20 : (hAppend (hAppend (hAppend (hAppend pos g) 5259266#23) w) 0#3) &&& 0x20#32 = 0x20#32 := and_mask (m := (hAppend (hAppend (hAppend 0#5 2#23) 0#1) 0#3)) (by decide) (@and_app 29 3 _ _ _ _ _ (0#3) (@and_app 28 1 _ _ _ _ _ (0#1) (@and_app 5 23 _ _ _ _ _ (2#23) BitVec.and_zero rfl) BitVec.and_zero) BitVec.and_zero)
  refine ⟨⟨.mspillSlot w, 0xFFD7#32, 0x0#32, 0x0#32⟩, ?_, rfl, ?_, ?_⟩
  · rw [rowOf_Mxa (by simp (disch := decide) only [BitVec.extractLsb'_append_eq_of_add_le, BitVec.extractLsb'_append_eq_of_le]; rfl)]
    simp (disch := decide) only [rowMxa, BitVec.extractLsb'_append_eq_of_add_le, BitVec.extractLsb'_append_eq_of_le, h20]
    simp
  · exact BitVec.and_zero
  · exact and_mask (m := (hAppend (hAppend (hAppend 0#5 4093#23) 0#1) 7#3)) (m' := 0xFFD7#32) (v' := 0x0#32) (by decide) (@and_app 29 3 _ _ _ _ _ (0#3) (@and_app 28 1 _ _ _ _ _ (0#1) (@and_app 5 23 _ _ _ _ _ (0#23) BitVec.and_zero rfl) BitVec.and_zero) rfl)

theorem mfillAcc (s : BitVec 2) : Statement (.mfillAcc s) := by
  intro _ pos g
  show Fits (hAppend (hAppend (hAppend (hAppend pos g) 2631680#22) s) 0#3) _
  have h20 : (hAppend (hAppend (hAppend (hAppend pos g) 2631680#22) s) 0#3) &&& 0x20#32 = 0x0#32 := and_mask (m := (hAppend (hAppend (hAppend 0#5 1#22) 0#2) 0#3)) (by decide) (@and_app 29 3 _ _ _ _ _ (0#3) (@and_app 27 2 _ _ _ _ _ (0#2) (@and_app 5 22 _ _ _ _ _ (0#22) BitVec.and_zero rfl) BitVec.and_zero) BitVec.and_zero)
  refine ⟨⟨.mfillAcc s, 0xFFC7#32, 0x0#32, 0x0#32⟩, ?_, rfl, ?_, ?_⟩
  · rw [rowOf_Mxa (by simp (disch := decide) only [BitVec.extractLsb'_append_eq_of_add_le, BitVec.extractLsb'_append_eq_of_le]; rfl)]
    simp (disch := decide) only [rowMxa, BitVec.extractLsb'_append_eq_of_add_le, BitVec.extractLsb'_append_eq_of_le, h20]
    simp
  · exact BitVec.and_zero
  · exact and_mask (m := (hAppend (hAppend (hAppend 0#5 2046#22) 0#2) 7#3)) (m' := 0xFFC7#32) (v' := 0x0#32) (by decide) (@and_app 29 3 _ _ _ _ _ (0#3) (@and_app 27 2 _ _ _ _ _ (0#2) (@and_app 5 22 _ _ _ _ _ (0#22) BitVec.and_zero rfl) BitVec.and_zero) rfl)

theorem mfillSlot (w : BitVec 1) : Statement (.mfillSlot w) := by
  intro _ pos g
  show Fits (hAppend (hAppend (hAppend (hAppend pos g) 5263362#23) w) 0#3) _
  have h20 : (hAppend (hAppend (hAppend (hAppend pos g) 5263362#23) w) 0#3) &&& 0x20#32 = 0x20#32 := and_mask (m := (hAppend (hAppend (hAppend 0#5 2#23) 0#1) 0#3)) (by decide) (@and_app 29 3 _ _ _ _ _ (0#3) (@and_app 28 1 _ _ _ _ _ (0#1) (@and_app 5 23 _ _ _ _ _ (2#23) BitVec.and_zero rfl) BitVec.and_zero) BitVec.and_zero)
  refine ⟨⟨.mfillSlot w, 0xFFD7#32, 0x0#32, 0x0#32⟩, ?_, rfl, ?_, ?_⟩
  · rw [rowOf_Mxa (by simp (disch := decide) only [BitVec.extractLsb'_append_eq_of_add_le, BitVec.extractLsb'_append_eq_of_le]; rfl)]
    simp (disch := decide) only [rowMxa, BitVec.extractLsb'_append_eq_of_add_le, BitVec.extractLsb'_append_eq_of_le, h20]
    simp
  · exact BitVec.and_zero
  · exact and_mask (m := (hAppend (hAppend (hAppend 0#5 4093#23) 0#1) 7#3)) (m' := 0xFFD7#32) (v' := 0x0#32) (by decide) (@and_app 29 3 _ _ _ _ _ (0#3) (@and_app 28 1 _ _ _ _ _ (0#1) (@and_app 5 23 _ _ _ _ _ (0#23) BitVec.and_zero rfl) BitVec.and_zero) rfl)

theorem menc (a : BitVec 5) (q : BitVec 1) : Statement (.menc a q) := by
  intro _ pos g
  show Fits (hAppend (hAppend (hAppend (hAppend (hAppend pos g) 1344#11) a) 0#10) q) _
  refine ⟨⟨.menc a q, 0x7FE#32, 0x0#32, 0x0#32⟩, ?_, rfl, ?_, ?_⟩
  · rw [rowOf_Mxb (by simp (disch := decide) only [BitVec.extractLsb'_append_eq_of_add_le, BitVec.extractLsb'_append_eq_of_le]; rfl)]
    unfold rowMxb
    rw [show (hAppend (hAppend (hAppend (hAppend (hAppend pos g) 1344#11) a) 0#10) q).extractLsb' 16 6 = 0#6 from by simp (disch := decide) only [BitVec.extractLsb'_append_eq_of_add_le, BitVec.extractLsb'_append_eq_of_le]; rfl]
    show Except.ok _ = _
    simp (disch := decide) only [BitVec.extractLsb'_append_eq_of_add_le, BitVec.extractLsb'_append_eq_of_le]
    simp
  · exact BitVec.and_zero
  · exact and_mask (m := (hAppend (hAppend 0#21 1023#10) 0#1)) (m' := 0x7FE#32) (v' := 0x0#32) (by decide) (@and_app 31 1 _ _ _ _ _ (0#1) (@and_app 21 10 _ _ _ _ _ (0#10) BitVec.and_zero rfl) BitVec.and_zero)

theorem mcomp (a : BitVec 5) : Statement (.mcomp a) := by
  intro _ pos g
  show Fits (hAppend (hAppend (hAppend (hAppend pos g) 1345#11) a) 0#11) _
  refine ⟨⟨.mcomp a, 0x7FF#32, 0x0#32, 0x0#32⟩, ?_, rfl, ?_, ?_⟩
  · rw [rowOf_Mxb (by simp (disch := decide) only [BitVec.extractLsb'_append_eq_of_add_le, BitVec.extractLsb'_append_eq_of_le]; rfl)]
    unfold rowMxb
    rw [show (hAppend (hAppend (hAppend (hAppend pos g) 1345#11) a) 0#11).extractLsb' 16 6 = 1#6 from by simp (disch := decide) only [BitVec.extractLsb'_append_eq_of_add_le, BitVec.extractLsb'_append_eq_of_le]; rfl]
    show Except.ok _ = _
    simp (disch := decide) only [BitVec.extractLsb'_append_eq_of_add_le, BitVec.extractLsb'_append_eq_of_le]
    simp
  · exact BitVec.and_zero
  · exact and_mask (m := (hAppend 0#21 2047#11)) (m' := 0x7FF#32) (v' := 0x0#32) (by decide) (@and_app 21 11 _ _ _ _ _ (0#11) BitVec.and_zero rfl)

theorem mprog (a : BitVec 5) (b : BitVec 5) (c : BitVec 2) (e : BitVec 2) : Statement (.mprog a b c e) := by
  intro _ pos g
  show Fits (hAppend (hAppend (hAppend (hAppend (hAppend (hAppend (hAppend pos g) 1346#11) a) b) c) 2#2) e) _
  have hc : (hAppend (hAppend (hAppend (hAppend (hAppend (hAppend (hAppend pos g) 1346#11) a) b) c) 2#2) e) &&& 0xC#32 = 0x8#32 := and_mask (m := (hAppend (hAppend 0#28 3#2) 0#2)) (by decide) (@and_app 30 2 _ _ _ _ _ (0#2) (@and_app 28 2 _ _ _ _ _ (2#2) BitVec.and_zero rfl) BitVec.and_zero)
  refine ⟨⟨.mprog a b c e, 0x0#32, 0x0#32, 0x0#32⟩, ?_, rfl, ?_, ?_⟩
  · rw [rowOf_Mxb (by simp (disch := decide) only [BitVec.extractLsb'_append_eq_of_add_le, BitVec.extractLsb'_append_eq_of_le]; rfl)]
    simp (disch := decide) only [rowMxb, BitVec.extractLsb'_append_eq_of_add_le, BitVec.extractLsb'_append_eq_of_le, hc]
    simp
  · exact BitVec.and_zero
  · exact BitVec.and_zero

theorem mprogOpen (a : BitVec 5) (c : BitVec 2) (e : BitVec 2) : Statement (.mprogOpen a c e) := by
  intro _ pos g
  show Fits (hAppend (hAppend (hAppend (hAppend (hAppend (hAppend (hAppend pos g) 1346#11) a) 0#5) c) 3#2) e) _
  have hc : (hAppend (hAppend (hAppend (hAppend (hAppend (hAppend (hAppend pos g) 1346#11) a) 0#5) c) 3#2) e) &&& 0xC#32 = 0xc#32 := and_mask (m := (hAppend (hAppend 0#28 3#2) 0#2)) (by decide) (@and_app 30 2 _ _ _ _ _ (0#2) (@and_app 28 2 _ _ _ _ _ (3#2) BitVec.and_zero rfl) BitVec.and_zero)
  refine ⟨⟨.mprogOpen a c e, 0x7C0#32, 0x0#32, 0x0#32⟩, ?_, rfl, ?_, ?_⟩
  · rw [rowOf_Mxb (by simp (disch := decide) only [BitVec.extractLsb'_append_eq_of_add_le, BitVec.extractLsb'_append_eq_of_le]; rfl)]
    simp (disch := decide) only [rowMxb, BitVec.extractLsb'_append_eq_of_add_le, BitVec.extractLsb'_append_eq_of_le, hc]
    simp
  · exact BitVec.and_zero
  · exact and_mask (m := (hAppend (hAppend (hAppend (hAppend 0#21 31#5) 0#2) 0#2) 0#2)) (m' := 0x7C0#32) (v' := 0x0#32) (by decide) (@and_app 30 2 _ _ _ _ _ (0#2) (@and_app 28 2 _ _ _ _ _ (0#2) (@and_app 26 2 _ _ _ _ _ (0#2) (@and_app 21 5 _ _ _ _ _ (0#5) BitVec.and_zero rfl) BitVec.and_zero) BitVec.and_zero) BitVec.and_zero)

theorem mprogClr (e : BitVec 2) : Statement (.mprogClr e) := by
  intro _ pos g
  show Fits (hAppend (hAppend (hAppend pos g) 22052864#25) e) _
  have h8 : (hAppend (hAppend (hAppend pos g) 22052864#25) e) &&& 0x8#32 = 0x0#32 := and_mask (m := (hAppend (hAppend 0#5 2#25) 0#2)) (by decide) (@and_app 30 2 _ _ _ _ _ (0#2) (@and_app 5 25 _ _ _ _ _ (0#25) BitVec.and_zero rfl) BitVec.and_zero)
  have hc : (hAppend (hAppend (hAppend pos g) 22052864#25) e) &&& 0xC#32 = 0x0#32 := and_mask (m := (hAppend (hAppend 0#5 3#25) 0#2)) (by decide) (@and_app 30 2 _ _ _ _ _ (0#2) (@and_app 5 25 _ _ _ _ _ (0#25) BitVec.and_zero rfl) BitVec.and_zero)
  refine ⟨⟨.mprogClr e, 0xFFF4#32, 0x0#32, 0x0#32⟩, ?_, rfl, ?_, ?_⟩
  · rw [rowOf_Mxb (by simp (disch := decide) only [BitVec.extractLsb'_append_eq_of_add_le, BitVec.extractLsb'_append_eq_of_le]; rfl)]
    simp (disch := decide) only [rowMxb, BitVec.extractLsb'_append_eq_of_add_le, BitVec.extractLsb'_append_eq_of_le, h8, hc]
    simp
  · exact BitVec.and_zero
  · exact and_mask (m := (hAppend (hAppend 0#5 16381#25) 0#2)) (m' := 0xFFF4#32) (v' := 0x0#32) (by decide) (@and_app 30 2 _ _ _ _ _ (0#2) (@and_app 5 25 _ _ _ _ _ (0#25) BitVec.and_zero rfl) BitVec.and_zero)

theorem mgeoA (a : BitVec 5) : Statement (.mgeoA a) := by
  intro _ pos g
  show Fits (hAppend (hAppend (hAppend (hAppend pos g) 1347#11) a) 0#11) _
  have h7 : (hAppend (hAppend (hAppend (hAppend pos g) 1347#11) a) 0#11) &&& 0x7#32 = 0x0#32 := and_mask (m := (hAppend 0#21 7#11)) (by decide) (@and_app 21 11 _ _ _ _ _ (0#11) BitVec.and_zero rfl)
  refine ⟨⟨.mgeoA a, 0x7F8#32, 0x0#32, 0x0#32⟩, ?_, rfl, ?_, ?_⟩
  · rw [rowOf_Mxb (by simp (disch := decide) only [BitVec.extractLsb'_append_eq_of_add_le, BitVec.extractLsb'_append_eq_of_le]; rfl)]
    simp (disch := decide) only [rowMxb, BitVec.extractLsb'_append_eq_of_add_le, BitVec.extractLsb'_append_eq_of_le, h7]
    simp
  · exact BitVec.and_zero
  · exact and_mask (m := (hAppend 0#21 2040#11)) (m' := 0x7F8#32) (v' := 0x0#32) (by decide) (@and_app 21 11 _ _ _ _ _ (0#11) BitVec.and_zero rfl)

theorem mgeoW (a : BitVec 5) (b : BitVec 5) : Statement (.mgeoW a b) := by
  intro _ pos g
  show Fits (hAppend (hAppend (hAppend (hAppend (hAppend pos g) 1347#11) a) b) 1#6) _
  have h7 : (hAppend (hAppend (hAppend (hAppend (hAppend pos g) 1347#11) a) b) 1#6) &&& 0x7#32 = 0x1#32 := and_mask (m := (hAppend 0#26 7#6)) (by decide) (@and_app 26 6 _ _ _ _ _ (1#6) BitVec.and_zero rfl)
  refine ⟨⟨.mgeoW a b, 0x38#32, 0x0#32, 0x0#32⟩, ?_, rfl, ?_, ?_⟩
  · rw [rowOf_Mxb (by simp (disch := decide) only [BitVec.extractLsb'_append_eq_of_add_le, BitVec.extractLsb'_append_eq_of_le]; rfl)]
    simp (disch := decide) only [rowMxb, BitVec.extractLsb'_append_eq_of_add_le, BitVec.extractLsb'_append_eq_of_le, h7]
    simp
  · exact BitVec.and_zero
  · exact and_mask (m := (hAppend 0#26 56#6)) (m' := 0x38#32) (v' := 0x0#32) (by decide) (@and_app 26 6 _ _ _ _ _ (0#6) BitVec.and_zero rfl)

theorem mgeoD (a : BitVec 5) (b : BitVec 5) : Statement (.mgeoD a b) := by
  intro _ pos g
  show Fits (hAppend (hAppend (hAppend (hAppend (hAppend pos g) 1347#11) a) b) 2#6) _
  have h7 : (hAppend (hAppend (hAppend (hAppend (hAppend pos g) 1347#11) a) b) 2#6) &&& 0x7#32 = 0x2#32 := and_mask (m := (hAppend 0#26 7#6)) (by decide) (@and_app 26 6 _ _ _ _ _ (2#6) BitVec.and_zero rfl)
  refine ⟨⟨.mgeoD a b, 0x38#32, 0x0#32, 0x0#32⟩, ?_, rfl, ?_, ?_⟩
  · rw [rowOf_Mxb (by simp (disch := decide) only [BitVec.extractLsb'_append_eq_of_add_le, BitVec.extractLsb'_append_eq_of_le]; rfl)]
    simp (disch := decide) only [rowMxb, BitVec.extractLsb'_append_eq_of_add_le, BitVec.extractLsb'_append_eq_of_le, h7]
    simp
  · exact BitVec.and_zero
  · exact and_mask (m := (hAppend 0#26 56#6)) (m' := 0x38#32) (v' := 0x0#32) (by decide) (@and_app 26 6 _ _ _ _ _ (0#6) BitVec.and_zero rfl)

theorem mgeoN (a : BitVec 5) (b : BitVec 5) : Statement (.mgeoN a b) := by
  intro _ pos g
  show Fits (hAppend (hAppend (hAppend (hAppend (hAppend pos g) 1347#11) a) b) 3#6) _
  have h7 : (hAppend (hAppend (hAppend (hAppend (hAppend pos g) 1347#11) a) b) 3#6) &&& 0x7#32 = 0x3#32 := and_mask (m := (hAppend 0#26 7#6)) (by decide) (@and_app 26 6 _ _ _ _ _ (3#6) BitVec.and_zero rfl)
  refine ⟨⟨.mgeoN a b, 0x38#32, 0x0#32, 0x0#32⟩, ?_, rfl, ?_, ?_⟩
  · rw [rowOf_Mxb (by simp (disch := decide) only [BitVec.extractLsb'_append_eq_of_add_le, BitVec.extractLsb'_append_eq_of_le]; rfl)]
    simp (disch := decide) only [rowMxb, BitVec.extractLsb'_append_eq_of_add_le, BitVec.extractLsb'_append_eq_of_le, h7]
    simp
  · exact BitVec.and_zero
  · exact and_mask (m := (hAppend 0#26 56#6)) (m' := 0x38#32) (v' := 0x0#32) (by decide) (@and_app 26 6 _ _ _ _ _ (0#6) BitVec.and_zero rfl)

theorem wcopy (a : BitVec 5) (b : BitVec 5) (o : BitVec 3) (f : BitVec 3) : Statement (.wcopy a b o f) := by
  intro _ pos g
  show Fits (hAppend (hAppend (hAppend (hAppend (hAppend (hAppend pos g) 1408#11) a) b) o) f) _
  refine ⟨⟨.wcopy a b o f, 0x0#32, 0x0#32, 0x0#32⟩, ?_, rfl, ?_, ?_⟩
  · rw [rowOf_Walk (by simp (disch := decide) only [BitVec.extractLsb'_append_eq_of_add_le, BitVec.extractLsb'_append_eq_of_le]; rfl)]
    unfold rowWalk
    rw [show (hAppend (hAppend (hAppend (hAppend (hAppend (hAppend pos g) 1408#11) a) b) o) f).extractLsb' 16 6 = 0#6 from by simp (disch := decide) only [BitVec.extractLsb'_append_eq_of_add_le, BitVec.extractLsb'_append_eq_of_le]; rfl]
    show Except.ok _ = _
    simp (disch := decide) only [BitVec.extractLsb'_append_eq_of_add_le, BitVec.extractLsb'_append_eq_of_le]
    simp
  · exact BitVec.and_zero
  · exact BitVec.and_zero

theorem wmcast (a : BitVec 5) (b : BitVec 5) (o : BitVec 3) (f : BitVec 3) : Statement (.wmcast a b o f) := by
  intro _ pos g
  show Fits (hAppend (hAppend (hAppend (hAppend (hAppend (hAppend pos g) 1409#11) a) b) o) f) _
  refine ⟨⟨.wmcast a b o f, 0x0#32, 0x0#32, 0x0#32⟩, ?_, rfl, ?_, ?_⟩
  · rw [rowOf_Walk (by simp (disch := decide) only [BitVec.extractLsb'_append_eq_of_add_le, BitVec.extractLsb'_append_eq_of_le]; rfl)]
    unfold rowWalk
    rw [show (hAppend (hAppend (hAppend (hAppend (hAppend (hAppend pos g) 1409#11) a) b) o) f).extractLsb' 16 6 = 1#6 from by simp (disch := decide) only [BitVec.extractLsb'_append_eq_of_add_le, BitVec.extractLsb'_append_eq_of_le]; rfl]
    show Except.ok _ = _
    simp (disch := decide) only [BitVec.extractLsb'_append_eq_of_add_le, BitVec.extractLsb'_append_eq_of_le]
    simp
  · exact BitVec.and_zero
  · exact BitVec.and_zero

theorem wgath (a : BitVec 5) (b : BitVec 5) (o : BitVec 3) (f : BitVec 3) : Statement (.wgath a b o f) := by
  intro _ pos g
  show Fits (hAppend (hAppend (hAppend (hAppend (hAppend (hAppend pos g) 1410#11) a) b) o) f) _
  refine ⟨⟨.wgath a b o f, 0x0#32, 0x0#32, 0x0#32⟩, ?_, rfl, ?_, ?_⟩
  · rw [rowOf_Walk (by simp (disch := decide) only [BitVec.extractLsb'_append_eq_of_add_le, BitVec.extractLsb'_append_eq_of_le]; rfl)]
    unfold rowWalk
    rw [show (hAppend (hAppend (hAppend (hAppend (hAppend (hAppend pos g) 1410#11) a) b) o) f).extractLsb' 16 6 = 2#6 from by simp (disch := decide) only [BitVec.extractLsb'_append_eq_of_add_le, BitVec.extractLsb'_append_eq_of_le]; rfl]
    show Except.ok _ = _
    simp (disch := decide) only [BitVec.extractLsb'_append_eq_of_add_le, BitVec.extractLsb'_append_eq_of_le]
    simp
  · exact BitVec.and_zero
  · exact BitVec.and_zero

theorem wscat (a : BitVec 5) (b : BitVec 5) (o : BitVec 3) (f : BitVec 3) : Statement (.wscat a b o f) := by
  intro _ pos g
  show Fits (hAppend (hAppend (hAppend (hAppend (hAppend (hAppend pos g) 1411#11) a) b) o) f) _
  refine ⟨⟨.wscat a b o f, 0x0#32, 0x0#32, 0x0#32⟩, ?_, rfl, ?_, ?_⟩
  · rw [rowOf_Walk (by simp (disch := decide) only [BitVec.extractLsb'_append_eq_of_add_le, BitVec.extractLsb'_append_eq_of_le]; rfl)]
    unfold rowWalk
    rw [show (hAppend (hAppend (hAppend (hAppend (hAppend (hAppend pos g) 1411#11) a) b) o) f).extractLsb' 16 6 = 3#6 from by simp (disch := decide) only [BitVec.extractLsb'_append_eq_of_add_le, BitVec.extractLsb'_append_eq_of_le]; rfl]
    show Except.ok _ = _
    simp (disch := decide) only [BitVec.extractLsb'_append_eq_of_add_le, BitVec.extractLsb'_append_eq_of_le]
    simp
  · exact BitVec.and_zero
  · exact BitVec.and_zero

theorem wprom (d : BitVec 5) (k : BitVec 6) : Statement (.wprom d k) := by
  intro _ pos g
  show Fits (hAppend (hAppend (hAppend (hAppend (hAppend pos g) 1412#11) d) 0#5) k) _
  refine ⟨⟨.wprom d k, 0x7C0#32, 0x0#32, 0x0#32⟩, ?_, rfl, ?_, ?_⟩
  · rw [rowOf_Walk (by simp (disch := decide) only [BitVec.extractLsb'_append_eq_of_add_le, BitVec.extractLsb'_append_eq_of_le]; rfl)]
    unfold rowWalk
    rw [show (hAppend (hAppend (hAppend (hAppend (hAppend pos g) 1412#11) d) 0#5) k).extractLsb' 16 6 = 4#6 from by simp (disch := decide) only [BitVec.extractLsb'_append_eq_of_add_le, BitVec.extractLsb'_append_eq_of_le]; rfl]
    show Except.ok _ = _
    simp (disch := decide) only [BitVec.extractLsb'_append_eq_of_add_le, BitVec.extractLsb'_append_eq_of_le]
    simp
  · exact BitVec.and_zero
  · exact and_mask (m := (hAppend (hAppend 0#21 31#5) 0#6)) (m' := 0x7C0#32) (v' := 0x0#32) (by decide) (@and_app 26 6 _ _ _ _ _ (0#6) (@and_app 21 5 _ _ _ _ _ (0#5) BitVec.and_zero rfl) BitVec.and_zero)

theorem wamoAdd (n : BitVec 5) (p : BitVec 5) (h : BitVec 4) : Statement (.wamoAdd n p h) := by
  intro _ pos g
  show Fits (hAppend (hAppend (hAppend (hAppend (hAppend (hAppend pos g) 1413#11) n) p) 0#2) h) _
  have h30 : (hAppend (hAppend (hAppend (hAppend (hAppend (hAppend pos g) 1413#11) n) p) 0#2) h) &&& 0x30#32 = 0x0#32 := and_mask (m := (hAppend (hAppend 0#26 3#2) 0#4)) (by decide) (@and_app 28 4 _ _ _ _ _ (0#4) (@and_app 26 2 _ _ _ _ _ (0#2) BitVec.and_zero rfl) BitVec.and_zero)
  refine ⟨⟨.wamoAdd n p h, 0x0#32, 0x0#32, 0x0#32⟩, ?_, rfl, ?_, ?_⟩
  · rw [rowOf_Walk (by simp (disch := decide) only [BitVec.extractLsb'_append_eq_of_add_le, BitVec.extractLsb'_append_eq_of_le]; rfl)]
    simp (disch := decide) only [rowWalk, BitVec.extractLsb'_append_eq_of_add_le, BitVec.extractLsb'_append_eq_of_le, h30]
    simp
  · exact BitVec.and_zero
  · exact BitVec.and_zero

theorem wamoSwap (n : BitVec 5) (p : BitVec 5) (h : BitVec 4) : Statement (.wamoSwap n p h) := by
  intro _ pos g
  show Fits (hAppend (hAppend (hAppend (hAppend (hAppend (hAppend pos g) 1413#11) n) p) 1#2) h) _
  have h30 : (hAppend (hAppend (hAppend (hAppend (hAppend (hAppend pos g) 1413#11) n) p) 1#2) h) &&& 0x30#32 = 0x10#32 := and_mask (m := (hAppend (hAppend 0#26 3#2) 0#4)) (by decide) (@and_app 28 4 _ _ _ _ _ (0#4) (@and_app 26 2 _ _ _ _ _ (1#2) BitVec.and_zero rfl) BitVec.and_zero)
  refine ⟨⟨.wamoSwap n p h, 0x0#32, 0x0#32, 0x0#32⟩, ?_, rfl, ?_, ?_⟩
  · rw [rowOf_Walk (by simp (disch := decide) only [BitVec.extractLsb'_append_eq_of_add_le, BitVec.extractLsb'_append_eq_of_le]; rfl)]
    simp (disch := decide) only [rowWalk, BitVec.extractLsb'_append_eq_of_add_le, BitVec.extractLsb'_append_eq_of_le, h30]
    simp
  · exact BitVec.and_zero
  · exact BitVec.and_zero

theorem wamoCas (n : BitVec 5) (p : BitVec 5) (h : BitVec 4) : Statement (.wamoCas n p h) := by
  intro _ pos g
  show Fits (hAppend (hAppend (hAppend (hAppend (hAppend (hAppend pos g) 1413#11) n) p) 2#2) h) _
  have h30 : (hAppend (hAppend (hAppend (hAppend (hAppend (hAppend pos g) 1413#11) n) p) 2#2) h) &&& 0x30#32 = 0x20#32 := and_mask (m := (hAppend (hAppend 0#26 3#2) 0#4)) (by decide) (@and_app 28 4 _ _ _ _ _ (0#4) (@and_app 26 2 _ _ _ _ _ (2#2) BitVec.and_zero rfl) BitVec.and_zero)
  refine ⟨⟨.wamoCas n p h, 0x0#32, 0x0#32, 0x0#32⟩, ?_, rfl, ?_, ?_⟩
  · rw [rowOf_Walk (by simp (disch := decide) only [BitVec.extractLsb'_append_eq_of_add_le, BitVec.extractLsb'_append_eq_of_le]; rfl)]
    simp (disch := decide) only [rowWalk, BitVec.extractLsb'_append_eq_of_add_le, BitVec.extractLsb'_append_eq_of_le, h30]
    simp
  · exact BitVec.and_zero
  · exact BitVec.and_zero

theorem wamoMax (n : BitVec 5) (p : BitVec 5) (h : BitVec 4) : Statement (.wamoMax n p h) := by
  intro _ pos g
  show Fits (hAppend (hAppend (hAppend (hAppend (hAppend (hAppend pos g) 1413#11) n) p) 3#2) h) _
  have h30 : (hAppend (hAppend (hAppend (hAppend (hAppend (hAppend pos g) 1413#11) n) p) 3#2) h) &&& 0x30#32 = 0x30#32 := and_mask (m := (hAppend (hAppend 0#26 3#2) 0#4)) (by decide) (@and_app 28 4 _ _ _ _ _ (0#4) (@and_app 26 2 _ _ _ _ _ (3#2) BitVec.and_zero rfl) BitVec.and_zero)
  refine ⟨⟨.wamoMax n p h, 0x0#32, 0x0#32, 0x0#32⟩, ?_, rfl, ?_, ?_⟩
  · rw [rowOf_Walk (by simp (disch := decide) only [BitVec.extractLsb'_append_eq_of_add_le, BitVec.extractLsb'_append_eq_of_le]; rfl)]
    simp (disch := decide) only [rowWalk, BitVec.extractLsb'_append_eq_of_add_le, BitVec.extractLsb'_append_eq_of_le, h30]
    simp
  · exact BitVec.and_zero
  · exact BitVec.and_zero

theorem wgeo (a : BitVec 5) (b : BitVec 5) (n : BitVec 3) : Statement (.wgeo a b n) := by
  intro _ pos g
  show Fits (hAppend (hAppend (hAppend (hAppend (hAppend (hAppend pos g) 1414#11) a) b) n) 0#3) _
  have h7 : (hAppend (hAppend (hAppend (hAppend (hAppend (hAppend pos g) 1414#11) a) b) n) 0#3) &&& 0x7#32 = 0x0#32 := and_mask (m := (hAppend 0#29 7#3)) (by decide) (@and_app 29 3 _ _ _ _ _ (0#3) BitVec.and_zero rfl)
  refine ⟨⟨.wgeo a b n, 0x0#32, 0x0#32, 0x0#32⟩, ?_, rfl, ?_, ?_⟩
  · rw [rowOf_Walk (by simp (disch := decide) only [BitVec.extractLsb'_append_eq_of_add_le, BitVec.extractLsb'_append_eq_of_le]; rfl)]
    simp (disch := decide) only [rowWalk, BitVec.extractLsb'_append_eq_of_add_le, BitVec.extractLsb'_append_eq_of_le, h7]
    simp
  · exact BitVec.and_zero
  · exact BitVec.and_zero

theorem wgeoHi (a : BitVec 5) (b : BitVec 5) (n : BitVec 3) : Statement (.wgeoHi a b n) := by
  intro _ pos g
  show Fits (hAppend (hAppend (hAppend (hAppend (hAppend (hAppend pos g) 1414#11) a) b) n) 1#3) _
  have h7 : (hAppend (hAppend (hAppend (hAppend (hAppend (hAppend pos g) 1414#11) a) b) n) 1#3) &&& 0x7#32 = 0x1#32 := and_mask (m := (hAppend 0#29 7#3)) (by decide) (@and_app 29 3 _ _ _ _ _ (1#3) BitVec.and_zero rfl)
  refine ⟨⟨.wgeoHi a b n, 0x0#32, 0x0#32, 0x0#32⟩, ?_, rfl, ?_, ?_⟩
  · rw [rowOf_Walk (by simp (disch := decide) only [BitVec.extractLsb'_append_eq_of_add_le, BitVec.extractLsb'_append_eq_of_le]; rfl)]
    simp (disch := decide) only [rowWalk, BitVec.extractLsb'_append_eq_of_add_le, BitVec.extractLsb'_append_eq_of_le, h7]
    simp
  · exact BitVec.and_zero
  · exact BitVec.and_zero

theorem wgeoTab (a : BitVec 5) (b : BitVec 5) (n : BitVec 3) : Statement (.wgeoTab a b n) := by
  intro _ pos g
  show Fits (hAppend (hAppend (hAppend (hAppend (hAppend (hAppend pos g) 1414#11) a) b) n) 2#3) _
  have h7 : (hAppend (hAppend (hAppend (hAppend (hAppend (hAppend pos g) 1414#11) a) b) n) 2#3) &&& 0x7#32 = 0x2#32 := and_mask (m := (hAppend 0#29 7#3)) (by decide) (@and_app 29 3 _ _ _ _ _ (2#3) BitVec.and_zero rfl)
  refine ⟨⟨.wgeoTab a b n, 0x0#32, 0x0#32, 0x0#32⟩, ?_, rfl, ?_, ?_⟩
  · rw [rowOf_Walk (by simp (disch := decide) only [BitVec.extractLsb'_append_eq_of_add_le, BitVec.extractLsb'_append_eq_of_le]; rfl)]
    simp (disch := decide) only [rowWalk, BitVec.extractLsb'_append_eq_of_add_le, BitVec.extractLsb'_append_eq_of_le, h7]
    simp
  · exact BitVec.and_zero
  · exact BitVec.and_zero

theorem wsnap (a : BitVec 5) (b : BitVec 5) : Statement (.wsnap a b) := by
  intro _ pos g
  show Fits (hAppend (hAppend (hAppend (hAppend (hAppend pos g) 1415#11) a) b) 0#6) _
  refine ⟨⟨.wsnap a b, 0x3F#32, 0x0#32, 0x0#32⟩, ?_, rfl, ?_, ?_⟩
  · rw [rowOf_Walk (by simp (disch := decide) only [BitVec.extractLsb'_append_eq_of_add_le, BitVec.extractLsb'_append_eq_of_le]; rfl)]
    unfold rowWalk
    rw [show (hAppend (hAppend (hAppend (hAppend (hAppend pos g) 1415#11) a) b) 0#6).extractLsb' 16 6 = 7#6 from by simp (disch := decide) only [BitVec.extractLsb'_append_eq_of_add_le, BitVec.extractLsb'_append_eq_of_le]; rfl]
    show Except.ok _ = _
    simp (disch := decide) only [BitVec.extractLsb'_append_eq_of_add_le, BitVec.extractLsb'_append_eq_of_le]
    simp
  · exact BitVec.and_zero
  · exact and_mask (m := (hAppend 0#26 63#6)) (m' := 0x3F#32) (v' := 0x0#32) (by decide) (@and_app 26 6 _ _ _ _ _ (0#6) BitVec.and_zero rfl)

theorem wcall (a : BitVec 5) (b : BitVec 5) (n : BitVec 5) : Statement (.wcall a b n) := by
  intro _ pos g
  show Fits (hAppend (hAppend (hAppend (hAppend (hAppend (hAppend pos g) 1416#11) a) b) 0#1) n) _
  refine ⟨⟨.wcall a b n, 0x20#32, 0x0#32, 0x0#32⟩, ?_, rfl, ?_, ?_⟩
  · rw [rowOf_Walk (by simp (disch := decide) only [BitVec.extractLsb'_append_eq_of_add_le, BitVec.extractLsb'_append_eq_of_le]; rfl)]
    unfold rowWalk
    rw [show (hAppend (hAppend (hAppend (hAppend (hAppend (hAppend pos g) 1416#11) a) b) 0#1) n).extractLsb' 16 6 = 8#6 from by simp (disch := decide) only [BitVec.extractLsb'_append_eq_of_add_le, BitVec.extractLsb'_append_eq_of_le]; rfl]
    show Except.ok _ = _
    simp (disch := decide) only [BitVec.extractLsb'_append_eq_of_add_le, BitVec.extractLsb'_append_eq_of_le]
    simp
  · exact BitVec.and_zero
  · exact and_mask (m := (hAppend (hAppend 0#26 1#1) 0#5)) (m' := 0x20#32) (v' := 0x0#32) (by decide) (@and_app 27 5 _ _ _ _ _ (0#5) (@and_app 26 1 _ _ _ _ _ (0#1) BitVec.and_zero rfl) BitVec.and_zero)

theorem lsend (a : BitVec 5) (b : BitVec 5) (p : BitVec 5) : Statement (.lsend a b p) := by
  intro _ pos g
  show Fits (hAppend (hAppend (hAppend (hAppend (hAppend (hAppend pos g) 1472#11) a) b) 0#1) p) _
  refine ⟨⟨.lsend a b p, 0x20#32, 0x0#32, 0x0#32⟩, ?_, rfl, ?_, ?_⟩
  · rw [rowOf_Link (by simp (disch := decide) only [BitVec.extractLsb'_append_eq_of_add_le, BitVec.extractLsb'_append_eq_of_le]; rfl)]
    unfold rowLink
    rw [show (hAppend (hAppend (hAppend (hAppend (hAppend (hAppend pos g) 1472#11) a) b) 0#1) p).extractLsb' 16 6 = 0#6 from by simp (disch := decide) only [BitVec.extractLsb'_append_eq_of_add_le, BitVec.extractLsb'_append_eq_of_le]; rfl]
    show Except.ok _ = _
    simp (disch := decide) only [BitVec.extractLsb'_append_eq_of_add_le, BitVec.extractLsb'_append_eq_of_le]
    simp
  · exact BitVec.and_zero
  · exact and_mask (m := (hAppend (hAppend 0#26 1#1) 0#5)) (m' := 0x20#32) (v' := 0x0#32) (by decide) (@and_app 27 5 _ _ _ _ _ (0#5) (@and_app 26 1 _ _ _ _ _ (0#1) BitVec.and_zero rfl) BitVec.and_zero)

theorem lrecv (a : BitVec 5) (b : BitVec 5) (p : BitVec 5) : Statement (.lrecv a b p) := by
  intro _ pos g
  show Fits (hAppend (hAppend (hAppend (hAppend (hAppend (hAppend pos g) 1473#11) a) b) 0#1) p) _
  refine ⟨⟨.lrecv a b p, 0x20#32, 0x0#32, 0x0#32⟩, ?_, rfl, ?_, ?_⟩
  · rw [rowOf_Link (by simp (disch := decide) only [BitVec.extractLsb'_append_eq_of_add_le, BitVec.extractLsb'_append_eq_of_le]; rfl)]
    unfold rowLink
    rw [show (hAppend (hAppend (hAppend (hAppend (hAppend (hAppend pos g) 1473#11) a) b) 0#1) p).extractLsb' 16 6 = 1#6 from by simp (disch := decide) only [BitVec.extractLsb'_append_eq_of_add_le, BitVec.extractLsb'_append_eq_of_le]; rfl]
    show Except.ok _ = _
    simp (disch := decide) only [BitVec.extractLsb'_append_eq_of_add_le, BitVec.extractLsb'_append_eq_of_le]
    simp
  · exact BitVec.and_zero
  · exact and_mask (m := (hAppend (hAppend 0#26 1#1) 0#5)) (m' := 0x20#32) (v' := 0x0#32) (by decide) (@and_app 27 5 _ _ _ _ _ (0#5) (@and_app 26 1 _ _ _ _ _ (0#1) BitVec.and_zero rfl) BitVec.and_zero)

theorem llat (d : BitVec 5) (p : BitVec 5) : Statement (.llat d p) := by
  intro _ pos g
  show Fits (hAppend (hAppend (hAppend (hAppend (hAppend pos g) 1474#11) d) 0#6) p) _
  refine ⟨⟨.llat d p, 0x7E0#32, 0x0#32, 0x0#32⟩, ?_, rfl, ?_, ?_⟩
  · rw [rowOf_Link (by simp (disch := decide) only [BitVec.extractLsb'_append_eq_of_add_le, BitVec.extractLsb'_append_eq_of_le]; rfl)]
    unfold rowLink
    rw [show (hAppend (hAppend (hAppend (hAppend (hAppend pos g) 1474#11) d) 0#6) p).extractLsb' 16 6 = 2#6 from by simp (disch := decide) only [BitVec.extractLsb'_append_eq_of_add_le, BitVec.extractLsb'_append_eq_of_le]; rfl]
    show Except.ok _ = _
    simp (disch := decide) only [BitVec.extractLsb'_append_eq_of_add_le, BitVec.extractLsb'_append_eq_of_le]
    simp
  · exact BitVec.and_zero
  · exact and_mask (m := (hAppend (hAppend 0#21 63#6) 0#5)) (m' := 0x7E0#32) (v' := 0x0#32) (by decide) (@and_app 27 5 _ _ _ _ _ (0#5) (@and_app 21 6 _ _ _ _ _ (0#6) BitVec.and_zero rfl) BitVec.and_zero)

theorem gcyc (d : BitVec 5) (k : BitVec 1) : Statement (.gcyc d k) := by
  intro _ pos g
  show Fits (hAppend (hAppend (hAppend (hAppend (hAppend pos g) 1475#11) d) 0#10) k) _
  refine ⟨⟨.gcyc d k, 0x7FE#32, 0x0#32, 0x0#32⟩, ?_, rfl, ?_, ?_⟩
  · rw [rowOf_Link (by simp (disch := decide) only [BitVec.extractLsb'_append_eq_of_add_le, BitVec.extractLsb'_append_eq_of_le]; rfl)]
    unfold rowLink
    rw [show (hAppend (hAppend (hAppend (hAppend (hAppend pos g) 1475#11) d) 0#10) k).extractLsb' 16 6 = 3#6 from by simp (disch := decide) only [BitVec.extractLsb'_append_eq_of_add_le, BitVec.extractLsb'_append_eq_of_le]; rfl]
    show Except.ok _ = _
    simp (disch := decide) only [BitVec.extractLsb'_append_eq_of_add_le, BitVec.extractLsb'_append_eq_of_le]
    simp
  · exact BitVec.and_zero
  · exact and_mask (m := (hAppend (hAppend 0#21 1023#10) 0#1)) (m' := 0x7FE#32) (v' := 0x0#32) (by decide) (@and_app 31 1 _ _ _ _ _ (0#1) (@and_app 21 10 _ _ _ _ _ (0#10) BitVec.and_zero rfl) BitVec.and_zero)

theorem gmeas (d : BitVec 5) (p : BitVec 5) : Statement (.gmeas d p) := by
  intro _ pos g
  show Fits (hAppend (hAppend (hAppend (hAppend (hAppend pos g) 1476#11) d) 0#6) p) _
  refine ⟨⟨.gmeas d p, 0x7E0#32, 0x0#32, 0x0#32⟩, ?_, rfl, ?_, ?_⟩
  · rw [rowOf_Link (by simp (disch := decide) only [BitVec.extractLsb'_append_eq_of_add_le, BitVec.extractLsb'_append_eq_of_le]; rfl)]
    unfold rowLink
    rw [show (hAppend (hAppend (hAppend (hAppend (hAppend pos g) 1476#11) d) 0#6) p).extractLsb' 16 6 = 4#6 from by simp (disch := decide) only [BitVec.extractLsb'_append_eq_of_add_le, BitVec.extractLsb'_append_eq_of_le]; rfl]
    show Except.ok _ = _
    simp (disch := decide) only [BitVec.extractLsb'_append_eq_of_add_le, BitVec.extractLsb'_append_eq_of_le]
    simp
  · exact BitVec.and_zero
  · exact and_mask (m := (hAppend (hAppend 0#21 63#6) 0#5)) (m' := 0x7E0#32) (v' := 0x0#32) (by decide) (@and_app 27 5 _ _ _ _ _ (0#5) (@and_app 21 6 _ _ _ _ _ (0#6) BitVec.and_zero rfl) BitVec.and_zero)

theorem gadj (a : BitVec 5) (s : BitVec 3) : Statement (.gadj a s) := by
  intro _ pos g
  show Fits (hAppend (hAppend (hAppend (hAppend (hAppend pos g) 1477#11) a) 0#8) s) _
  refine ⟨⟨.gadj a s, 0x7F8#32, 0x0#32, 0x0#32⟩, ?_, rfl, ?_, ?_⟩
  · rw [rowOf_Link (by simp (disch := decide) only [BitVec.extractLsb'_append_eq_of_add_le, BitVec.extractLsb'_append_eq_of_le]; rfl)]
    unfold rowLink
    rw [show (hAppend (hAppend (hAppend (hAppend (hAppend pos g) 1477#11) a) 0#8) s).extractLsb' 16 6 = 5#6 from by simp (disch := decide) only [BitVec.extractLsb'_append_eq_of_add_le, BitVec.extractLsb'_append_eq_of_le]; rfl]
    show Except.ok _ = _
    simp (disch := decide) only [BitVec.extractLsb'_append_eq_of_add_le, BitVec.extractLsb'_append_eq_of_le]
    simp
  · exact BitVec.and_zero
  · exact and_mask (m := (hAppend (hAppend 0#21 255#8) 0#3)) (m' := 0x7F8#32) (v' := 0x0#32) (by decide) (@and_app 29 3 _ _ _ _ _ (0#3) (@and_app 21 8 _ _ _ _ _ (0#8) BitVec.and_zero rfl) BitVec.and_zero)

theorem lpair (a : BitVec 5) (p : BitVec 5) : Statement (.lpair a p) := by
  intro _ pos g
  show Fits (hAppend (hAppend (hAppend (hAppend (hAppend pos g) 1478#11) a) 0#6) p) _
  refine ⟨⟨.lpair a p, 0x7E0#32, 0x0#32, 0x0#32⟩, ?_, rfl, ?_, ?_⟩
  · rw [rowOf_Link (by simp (disch := decide) only [BitVec.extractLsb'_append_eq_of_add_le, BitVec.extractLsb'_append_eq_of_le]; rfl)]
    unfold rowLink
    rw [show (hAppend (hAppend (hAppend (hAppend (hAppend pos g) 1478#11) a) 0#6) p).extractLsb' 16 6 = 6#6 from by simp (disch := decide) only [BitVec.extractLsb'_append_eq_of_add_le, BitVec.extractLsb'_append_eq_of_le]; rfl]
    show Except.ok _ = _
    simp (disch := decide) only [BitVec.extractLsb'_append_eq_of_add_le, BitVec.extractLsb'_append_eq_of_le]
    simp
  · exact BitVec.and_zero
  · exact and_mask (m := (hAppend (hAppend 0#21 63#6) 0#5)) (m' := 0x7E0#32) (v' := 0x0#32) (by decide) (@and_app 27 5 _ _ _ _ _ (0#5) (@and_app 21 6 _ _ _ _ _ (0#6) BitVec.and_zero rfl) BitVec.and_zero)

theorem cxmk (n : BitVec 5) (p : BitVec 5) (h : BitVec 4) : Statement (.cxmk n p h) := by
  intro _ pos g
  show Fits (hAppend (hAppend (hAppend (hAppend (hAppend (hAppend pos g) 1536#11) n) p) 0#2) h) _
  refine ⟨⟨.cxmk n p h, 0x30#32, 0x0#32, 0x0#32⟩, ?_, rfl, ?_, ?_⟩
  · rw [rowOf_Ctx (by simp (disch := decide) only [BitVec.extractLsb'_append_eq_of_add_le, BitVec.extractLsb'_append_eq_of_le]; rfl)]
    unfold rowCtx
    rw [show (hAppend (hAppend (hAppend (hAppend (hAppend (hAppend pos g) 1536#11) n) p) 0#2) h).extractLsb' 16 6 = 0#6 from by simp (disch := decide) only [BitVec.extractLsb'_append_eq_of_add_le, BitVec.extractLsb'_append_eq_of_le]; rfl]
    show Except.ok _ = _
    simp (disch := decide) only [BitVec.extractLsb'_append_eq_of_add_le, BitVec.extractLsb'_append_eq_of_le]
    simp
  · exact BitVec.and_zero
  · exact and_mask (m := (hAppend (hAppend 0#26 3#2) 0#4)) (m' := 0x30#32) (v' := 0x0#32) (by decide) (@and_app 28 4 _ _ _ _ _ (0#4) (@and_app 26 2 _ _ _ _ _ (0#2) BitVec.and_zero rfl) BitVec.and_zero)

theorem cxgive (a : BitVec 5) (p : BitVec 5) (h : BitVec 4) : Statement (.cxgive a p h) := by
  intro _ pos g
  show Fits (hAppend (hAppend (hAppend (hAppend (hAppend (hAppend pos g) 1537#11) a) p) 0#2) h) _
  refine ⟨⟨.cxgive a p h, 0x30#32, 0x0#32, 0x0#32⟩, ?_, rfl, ?_, ?_⟩
  · rw [rowOf_Ctx (by simp (disch := decide) only [BitVec.extractLsb'_append_eq_of_add_le, BitVec.extractLsb'_append_eq_of_le]; rfl)]
    unfold rowCtx
    rw [show (hAppend (hAppend (hAppend (hAppend (hAppend (hAppend pos g) 1537#11) a) p) 0#2) h).extractLsb' 16 6 = 1#6 from by simp (disch := decide) only [BitVec.extractLsb'_append_eq_of_add_le, BitVec.extractLsb'_append_eq_of_le]; rfl]
    show Except.ok _ = _
    simp (disch := decide) only [BitVec.extractLsb'_append_eq_of_add_le, BitVec.extractLsb'_append_eq_of_le]
    simp
  · exact BitVec.and_zero
  · exact and_mask (m := (hAppend (hAppend 0#26 3#2) 0#4)) (m' := 0x30#32) (v' := 0x0#32) (by decide) (@and_app 28 4 _ _ _ _ _ (0#4) (@and_app 26 2 _ _ _ _ _ (0#2) BitVec.and_zero rfl) BitVec.and_zero)

theorem cxrev (a : BitVec 5) : Statement (.cxrev a) := by
  intro _ pos g
  show Fits (hAppend (hAppend (hAppend (hAppend pos g) 1538#11) a) 0#11) _
  refine ⟨⟨.cxrev a, 0x7FF#32, 0x0#32, 0x0#32⟩, ?_, rfl, ?_, ?_⟩
  · rw [rowOf_Ctx (by simp (disch := decide) only [BitVec.extractLsb'_append_eq_of_add_le, BitVec.extractLsb'_append_eq_of_le]; rfl)]
    unfold rowCtx
    rw [show (hAppend (hAppend (hAppend (hAppend pos g) 1538#11) a) 0#11).extractLsb' 16 6 = 2#6 from by simp (disch := decide) only [BitVec.extractLsb'_append_eq_of_add_le, BitVec.extractLsb'_append_eq_of_le]; rfl]
    show Except.ok _ = _
    simp (disch := decide) only [BitVec.extractLsb'_append_eq_of_add_le, BitVec.extractLsb'_append_eq_of_le]
    simp
  · exact BitVec.and_zero
  · exact and_mask (m := (hAppend 0#21 2047#11)) (m' := 0x7FF#32) (v' := 0x0#32) (by decide) (@and_app 21 11 _ _ _ _ _ (0#11) BitVec.and_zero rfl)

theorem cxrun (a : BitVec 5) : Statement (.cxrun a) := by
  intro _ pos g
  show Fits (hAppend (hAppend (hAppend (hAppend pos g) 1539#11) a) 0#11) _
  refine ⟨⟨.cxrun a, 0x7FF#32, 0x0#32, 0x0#32⟩, ?_, rfl, ?_, ?_⟩
  · rw [rowOf_Ctx (by simp (disch := decide) only [BitVec.extractLsb'_append_eq_of_add_le, BitVec.extractLsb'_append_eq_of_le]; rfl)]
    unfold rowCtx
    rw [show (hAppend (hAppend (hAppend (hAppend pos g) 1539#11) a) 0#11).extractLsb' 16 6 = 3#6 from by simp (disch := decide) only [BitVec.extractLsb'_append_eq_of_add_le, BitVec.extractLsb'_append_eq_of_le]; rfl]
    show Except.ok _ = _
    simp (disch := decide) only [BitVec.extractLsb'_append_eq_of_add_le, BitVec.extractLsb'_append_eq_of_le]
    simp
  · exact BitVec.and_zero
  · exact and_mask (m := (hAppend 0#21 2047#11)) (m' := 0x7FF#32) (v' := 0x0#32) (by decide) (@and_app 21 11 _ _ _ _ _ (0#11) BitVec.and_zero rfl)

theorem cxsave (n : BitVec 5) (b : BitVec 5) : Statement (.cxsave n b) := by
  intro _ pos g
  show Fits (hAppend (hAppend (hAppend (hAppend (hAppend pos g) 1540#11) n) b) 0#6) _
  refine ⟨⟨.cxsave n b, 0x3F#32, 0x0#32, 0x0#32⟩, ?_, rfl, ?_, ?_⟩
  · rw [rowOf_Ctx (by simp (disch := decide) only [BitVec.extractLsb'_append_eq_of_add_le, BitVec.extractLsb'_append_eq_of_le]; rfl)]
    unfold rowCtx
    rw [show (hAppend (hAppend (hAppend (hAppend (hAppend pos g) 1540#11) n) b) 0#6).extractLsb' 16 6 = 4#6 from by simp (disch := decide) only [BitVec.extractLsb'_append_eq_of_add_le, BitVec.extractLsb'_append_eq_of_le]; rfl]
    show Except.ok _ = _
    simp (disch := decide) only [BitVec.extractLsb'_append_eq_of_add_le, BitVec.extractLsb'_append_eq_of_le]
    simp
  · exact BitVec.and_zero
  · exact and_mask (m := (hAppend 0#26 63#6)) (m' := 0x3F#32) (v' := 0x0#32) (by decide) (@and_app 26 6 _ _ _ _ _ (0#6) BitVec.and_zero rfl)

theorem cxload (n : BitVec 5) (b : BitVec 5) : Statement (.cxload n b) := by
  intro _ pos g
  show Fits (hAppend (hAppend (hAppend (hAppend (hAppend pos g) 1541#11) n) b) 0#6) _
  refine ⟨⟨.cxload n b, 0x3F#32, 0x0#32, 0x0#32⟩, ?_, rfl, ?_, ?_⟩
  · rw [rowOf_Ctx (by simp (disch := decide) only [BitVec.extractLsb'_append_eq_of_add_le, BitVec.extractLsb'_append_eq_of_le]; rfl)]
    unfold rowCtx
    rw [show (hAppend (hAppend (hAppend (hAppend (hAppend pos g) 1541#11) n) b) 0#6).extractLsb' 16 6 = 5#6 from by simp (disch := decide) only [BitVec.extractLsb'_append_eq_of_add_le, BitVec.extractLsb'_append_eq_of_le]; rfl]
    show Except.ok _ = _
    simp (disch := decide) only [BitVec.extractLsb'_append_eq_of_add_le, BitVec.extractLsb'_append_eq_of_le]
    simp
  · exact BitVec.and_zero
  · exact and_mask (m := (hAppend 0#26 63#6)) (m' := 0x3F#32) (v' := 0x0#32) (by decide) (@and_app 26 6 _ _ _ _ _ (0#6) BitVec.and_zero rfl)

theorem cxpend (d : BitVec 5) (b : BitVec 5) : Statement (.cxpend d b) := by
  intro _ pos g
  show Fits (hAppend (hAppend (hAppend (hAppend (hAppend pos g) 1542#11) d) b) 0#6) _
  refine ⟨⟨.cxpend d b, 0x3F#32, 0x0#32, 0x0#32⟩, ?_, rfl, ?_, ?_⟩
  · rw [rowOf_Ctx (by simp (disch := decide) only [BitVec.extractLsb'_append_eq_of_add_le, BitVec.extractLsb'_append_eq_of_le]; rfl)]
    unfold rowCtx
    rw [show (hAppend (hAppend (hAppend (hAppend (hAppend pos g) 1542#11) d) b) 0#6).extractLsb' 16 6 = 6#6 from by simp (disch := decide) only [BitVec.extractLsb'_append_eq_of_add_le, BitVec.extractLsb'_append_eq_of_le]; rfl]
    show Except.ok _ = _
    simp (disch := decide) only [BitVec.extractLsb'_append_eq_of_add_le, BitVec.extractLsb'_append_eq_of_le]
    simp
  · exact BitVec.and_zero
  · exact and_mask (m := (hAppend 0#26 63#6)) (m' := 0x3F#32) (v' := 0x0#32) (by decide) (@and_app 26 6 _ _ _ _ _ (0#6) BitVec.and_zero rfl)

theorem cxq (n : BitVec 5) (p : BitVec 5) (h : BitVec 4) : Statement (.cxq n p h) := by
  intro _ pos g
  show Fits (hAppend (hAppend (hAppend (hAppend (hAppend (hAppend pos g) 1543#11) n) p) 0#2) h) _
  refine ⟨⟨.cxq n p h, 0x30#32, 0x0#32, 0x0#32⟩, ?_, rfl, ?_, ?_⟩
  · rw [rowOf_Ctx (by simp (disch := decide) only [BitVec.extractLsb'_append_eq_of_add_le, BitVec.extractLsb'_append_eq_of_le]; rfl)]
    unfold rowCtx
    rw [show (hAppend (hAppend (hAppend (hAppend (hAppend (hAppend pos g) 1543#11) n) p) 0#2) h).extractLsb' 16 6 = 7#6 from by simp (disch := decide) only [BitVec.extractLsb'_append_eq_of_add_le, BitVec.extractLsb'_append_eq_of_le]; rfl]
    show Except.ok _ = _
    simp (disch := decide) only [BitVec.extractLsb'_append_eq_of_add_le, BitVec.extractLsb'_append_eq_of_le]
    simp
  · exact BitVec.and_zero
  · exact and_mask (m := (hAppend (hAppend 0#26 3#2) 0#4)) (m' := 0x30#32) (v' := 0x0#32) (by decide) (@and_app 28 4 _ _ _ _ _ (0#4) (@and_app 26 2 _ _ _ _ _ (0#2) BitVec.and_zero rfl) BitVec.and_zero)

theorem apset (n : BitVec 5) (p : BitVec 5) (h : BitVec 4) : Statement (.apset n p h) := by
  intro _ pos g
  show Fits (hAppend (hAppend (hAppend (hAppend (hAppend (hAppend pos g) 1600#11) n) p) 0#2) h) _
  refine ⟨⟨.apset n p h, 0x30#32, 0x0#32, 0x0#32⟩, ?_, rfl, ?_, ?_⟩
  · rw [rowOf_Xform (by simp (disch := decide) only [BitVec.extractLsb'_append_eq_of_add_le, BitVec.extractLsb'_append_eq_of_le]; rfl)]
    unfold rowXform
    rw [show (hAppend (hAppend (hAppend (hAppend (hAppend (hAppend pos g) 1600#11) n) p) 0#2) h).extractLsb' 16 6 = 0#6 from by simp (disch := decide) only [BitVec.extractLsb'_append_eq_of_add_le, BitVec.extractLsb'_append_eq_of_le]; rfl]
    show Except.ok _ = _
    simp (disch := decide) only [BitVec.extractLsb'_append_eq_of_add_le, BitVec.extractLsb'_append_eq_of_le]
    simp
  · exact BitVec.and_zero
  · exact and_mask (m := (hAppend (hAppend 0#26 3#2) 0#4)) (m' := 0x30#32) (v' := 0x0#32) (by decide) (@and_app 28 4 _ _ _ _ _ (0#4) (@and_app 26 2 _ _ _ _ _ (0#2) BitVec.and_zero rfl) BitVec.and_zero)

theorem apclr (a : BitVec 5) : Statement (.apclr a) := by
  intro _ pos g
  show Fits (hAppend (hAppend (hAppend (hAppend pos g) 1601#11) a) 0#11) _
  refine ⟨⟨.apclr a, 0x7FF#32, 0x0#32, 0x0#32⟩, ?_, rfl, ?_, ?_⟩
  · rw [rowOf_Xform (by simp (disch := decide) only [BitVec.extractLsb'_append_eq_of_add_le, BitVec.extractLsb'_append_eq_of_le]; rfl)]
    unfold rowXform
    rw [show (hAppend (hAppend (hAppend (hAppend pos g) 1601#11) a) 0#11).extractLsb' 16 6 = 1#6 from by simp (disch := decide) only [BitVec.extractLsb'_append_eq_of_add_le, BitVec.extractLsb'_append_eq_of_le]; rfl]
    show Except.ok _ = _
    simp (disch := decide) only [BitVec.extractLsb'_append_eq_of_add_le, BitVec.extractLsb'_append_eq_of_le]
    simp
  · exact BitVec.and_zero
  · exact and_mask (m := (hAppend 0#21 2047#11)) (m' := 0x7FF#32) (v' := 0x0#32) (by decide) (@and_app 21 11 _ _ _ _ _ (0#11) BitVec.and_zero rfl)

theorem apq (d : BitVec 5) (b : BitVec 5) : Statement (.apq d b) := by
  intro _ pos g
  show Fits (hAppend (hAppend (hAppend (hAppend (hAppend pos g) 1602#11) d) b) 0#6) _
  refine ⟨⟨.apq d b, 0x3F#32, 0x0#32, 0x0#32⟩, ?_, rfl, ?_, ?_⟩
  · rw [rowOf_Xform (by simp (disch := decide) only [BitVec.extractLsb'_append_eq_of_add_le, BitVec.extractLsb'_append_eq_of_le]; rfl)]
    unfold rowXform
    rw [show (hAppend (hAppend (hAppend (hAppend (hAppend pos g) 1602#11) d) b) 0#6).extractLsb' 16 6 = 2#6 from by simp (disch := decide) only [BitVec.extractLsb'_append_eq_of_add_le, BitVec.extractLsb'_append_eq_of_le]; rfl]
    show Except.ok _ = _
    simp (disch := decide) only [BitVec.extractLsb'_append_eq_of_add_le, BitVec.extractLsb'_append_eq_of_le]
    simp
  · exact BitVec.and_zero
  · exact and_mask (m := (hAppend 0#26 63#6)) (m' := 0x3F#32) (v' := 0x0#32) (by decide) (@and_app 26 6 _ _ _ _ _ (0#6) BitVec.and_zero rfl)

theorem lbreak : Statement (.lbreak) := by
  intro _ pos g
  show Fits (hAppend (hAppend pos g) 4980736#27) _
  refine ⟨⟨.lbreak, 0x3FFFF#32, 0x0#32, 0x0#32⟩, ?_, rfl, ?_, ?_⟩
  · rw [rowOf_Loop (by simp (disch := decide) only [BitVec.extractLsb'_append_eq_of_add_le, BitVec.extractLsb'_append_eq_of_le]; rfl)]
    unfold rowLoop
    rw [show (hAppend (hAppend pos g) 4980736#27).extractLsb' 18 4 = 3#4 from by simp (disch := decide) only [BitVec.extractLsb'_append_eq_of_add_le, BitVec.extractLsb'_append_eq_of_le]; rfl]
    show Except.ok _ = _
    simp (disch := decide) only [BitVec.extractLsb'_append_eq_of_add_le, BitVec.extractLsb'_append_eq_of_le]
  · exact BitVec.and_zero
  · exact and_mask (m := (hAppend 0#5 262143#27)) (m' := 0x3FFFF#32) (v' := 0x0#32) (by decide) (@and_app 5 27 _ _ _ _ _ (0#27) BitVec.and_zero rfl)

theorem nop : Statement (.nop) := by
  intro _ pos g
  show Fits (hAppend (hAppend pos g) 8388608#27) _
  refine ⟨⟨.nop, 0x3FFFF#32, 0x0#32, 0x0#32⟩, ?_, rfl, ?_, ?_⟩
  · rw [rowOf_Sys (by simp (disch := decide) only [BitVec.extractLsb'_append_eq_of_add_le, BitVec.extractLsb'_append_eq_of_le]; rfl)]
    unfold rowSys
    rw [show (hAppend (hAppend pos g) 8388608#27).extractLsb' 18 4 = 0#4 from by simp (disch := decide) only [BitVec.extractLsb'_append_eq_of_add_le, BitVec.extractLsb'_append_eq_of_le]; rfl]
    show Except.ok _ = _
    simp (disch := decide) only [BitVec.extractLsb'_append_eq_of_add_le, BitVec.extractLsb'_append_eq_of_le]
  · exact BitVec.and_zero
  · exact and_mask (m := (hAppend 0#5 262143#27)) (m' := 0x3FFFF#32) (v' := 0x0#32) (by decide) (@and_app 5 27 _ _ _ _ _ (0#27) BitVec.and_zero rfl)

theorem eret : Statement (.eret) := by
  intro _ pos g
  show Fits (hAppend (hAppend pos g) 8912896#27) _
  refine ⟨⟨.eret, 0x3FFFF#32, 0x0#32, 0x0#32⟩, ?_, rfl, ?_, ?_⟩
  · rw [rowOf_Sys (by simp (disch := decide) only [BitVec.extractLsb'_append_eq_of_add_le, BitVec.extractLsb'_append_eq_of_le]; rfl)]
    unfold rowSys
    rw [show (hAppend (hAppend pos g) 8912896#27).extractLsb' 18 4 = 2#4 from by simp (disch := decide) only [BitVec.extractLsb'_append_eq_of_add_le, BitVec.extractLsb'_append_eq_of_le]; rfl]
    show Except.ok _ = _
    simp (disch := decide) only [BitVec.extractLsb'_append_eq_of_add_le, BitVec.extractLsb'_append_eq_of_le]
  · exact BitVec.and_zero
  · exact and_mask (m := (hAppend 0#5 262143#27)) (m' := 0x3FFFF#32) (v' := 0x0#32) (by decide) (@and_app 5 27 _ _ _ _ _ (0#27) BitVec.and_zero rfl)

theorem fenceH : Statement (.fenceH) := by
  intro _ pos g
  show Fits (hAppend (hAppend pos g) 10223616#27) _
  have h7 : (hAppend (hAppend pos g) 10223616#27) &&& 0x7#32 = 0x0#32 := and_mask (m := (hAppend 0#5 7#27)) (by decide) (@and_app 5 27 _ _ _ _ _ (0#27) BitVec.and_zero rfl)
  refine ⟨⟨.fenceH, 0x3FFF8#32, 0x0#32, 0x0#32⟩, ?_, rfl, ?_, ?_⟩
  · rw [rowOf_Sys (by simp (disch := decide) only [BitVec.extractLsb'_append_eq_of_add_le, BitVec.extractLsb'_append_eq_of_le]; rfl)]
    simp (disch := decide) only [rowSys, BitVec.extractLsb'_append_eq_of_add_le, BitVec.extractLsb'_append_eq_of_le, h7]
    simp
  · exact BitVec.and_zero
  · exact and_mask (m := (hAppend 0#5 262136#27)) (m' := 0x3FFF8#32) (v' := 0x0#32) (by decide) (@and_app 5 27 _ _ _ _ _ (0#27) BitVec.and_zero rfl)

theorem fenceD : Statement (.fenceD) := by
  intro _ pos g
  show Fits (hAppend (hAppend pos g) 10223617#27) _
  have h7 : (hAppend (hAppend pos g) 10223617#27) &&& 0x7#32 = 0x1#32 := and_mask (m := (hAppend 0#5 7#27)) (by decide) (@and_app 5 27 _ _ _ _ _ (1#27) BitVec.and_zero rfl)
  refine ⟨⟨.fenceD, 0x3FFF8#32, 0x0#32, 0x0#32⟩, ?_, rfl, ?_, ?_⟩
  · rw [rowOf_Sys (by simp (disch := decide) only [BitVec.extractLsb'_append_eq_of_add_le, BitVec.extractLsb'_append_eq_of_le]; rfl)]
    simp (disch := decide) only [rowSys, BitVec.extractLsb'_append_eq_of_add_le, BitVec.extractLsb'_append_eq_of_le, h7]
    simp
  · exact BitVec.and_zero
  · exact and_mask (m := (hAppend 0#5 262136#27)) (m' := 0x3FFF8#32) (v' := 0x0#32) (by decide) (@and_app 5 27 _ _ _ _ _ (0#27) BitVec.and_zero rfl)

theorem yield : Statement (.yield) := by
  intro _ pos g
  show Fits (hAppend (hAppend pos g) 11272192#27) _
  refine ⟨⟨.yield, 0x3FFFF#32, 0x0#32, 0x0#32⟩, ?_, rfl, ?_, ?_⟩
  · rw [rowOf_Sys (by simp (disch := decide) only [BitVec.extractLsb'_append_eq_of_add_le, BitVec.extractLsb'_append_eq_of_le]; rfl)]
    unfold rowSys
    rw [show (hAppend (hAppend pos g) 11272192#27).extractLsb' 18 4 = 11#4 from by simp (disch := decide) only [BitVec.extractLsb'_append_eq_of_add_le, BitVec.extractLsb'_append_eq_of_le]; rfl]
    show Except.ok _ = _
    simp (disch := decide) only [BitVec.extractLsb'_append_eq_of_add_le, BitVec.extractLsb'_append_eq_of_le]
  · exact BitVec.and_zero
  · exact and_mask (m := (hAppend 0#5 262143#27)) (m' := 0x3FFFF#32) (v' := 0x0#32) (by decide) (@and_app 5 27 _ _ _ _ _ (0#27) BitVec.and_zero rfl)

theorem modeExposed : Statement (.modeExposed) := by
  intro _ pos g
  show Fits (hAppend (hAppend pos g) 11534336#27) _
  have h1 : (hAppend (hAppend pos g) 11534336#27) &&& 0x1#32 = 0x0#32 := and_mask (m := (hAppend 0#5 1#27)) (by decide) (@and_app 5 27 _ _ _ _ _ (0#27) BitVec.and_zero rfl)
  refine ⟨⟨.modeExposed, 0x3FFFE#32, 0x0#32, 0x0#32⟩, ?_, rfl, ?_, ?_⟩
  · rw [rowOf_Sys (by simp (disch := decide) only [BitVec.extractLsb'_append_eq_of_add_le, BitVec.extractLsb'_append_eq_of_le]; rfl)]
    simp (disch := decide) only [rowSys, BitVec.extractLsb'_append_eq_of_add_le, BitVec.extractLsb'_append_eq_of_le, h1]
    simp
  · exact BitVec.and_zero
  · exact and_mask (m := (hAppend 0#5 262142#27)) (m' := 0x3FFFE#32) (v' := 0x0#32) (by decide) (@and_app 5 27 _ _ _ _ _ (0#27) BitVec.and_zero rfl)

theorem modeInterlocked : Statement (.modeInterlocked) := by
  intro _ pos g
  show Fits (hAppend (hAppend pos g) 11534337#27) _
  have h1 : (hAppend (hAppend pos g) 11534337#27) &&& 0x1#32 = 0x1#32 := and_mask (m := (hAppend 0#5 1#27)) (by decide) (@and_app 5 27 _ _ _ _ _ (1#27) BitVec.and_zero rfl)
  refine ⟨⟨.modeInterlocked, 0x3FFFE#32, 0x0#32, 0x0#32⟩, ?_, rfl, ?_, ?_⟩
  · rw [rowOf_Sys (by simp (disch := decide) only [BitVec.extractLsb'_append_eq_of_add_le, BitVec.extractLsb'_append_eq_of_le]; rfl)]
    simp (disch := decide) only [rowSys, BitVec.extractLsb'_append_eq_of_add_le, BitVec.extractLsb'_append_eq_of_le, h1]
    simp
  · exact BitVec.and_zero
  · exact and_mask (m := (hAppend 0#5 262142#27)) (m' := 0x3FFFE#32) (v' := 0x0#32) (by decide) (@and_app 5 27 _ _ _ _ _ (0#27) BitVec.and_zero rfl)

theorem atclrAll : Statement (.atclrAll) := by
  intro _ pos g
  show Fits (hAppend (hAppend pos g) 48250880#27) _
  have h7c000 : (hAppend (hAppend pos g) 48250880#27) &&& 0x7C000#32 = 0x4000#32 := and_mask (m := (hAppend 0#5 507904#27)) (by decide) (@and_app 5 27 _ _ _ _ _ (16384#27) BitVec.and_zero rfl)
  refine ⟨⟨.atclrAll, 0x3FFF#32, 0x0#32, 0x0#32⟩, ?_, rfl, ?_, ?_⟩
  · rw [rowOf_Lspec (by simp (disch := decide) only [BitVec.extractLsb'_append_eq_of_add_le, BitVec.extractLsb'_append_eq_of_le]; rfl)]
    simp (disch := decide) only [rowLspec, BitVec.extractLsb'_append_eq_of_add_le, BitVec.extractLsb'_append_eq_of_le, h7c000]
    simp
  · exact BitVec.and_zero
  · exact and_mask (m := (hAppend 0#5 16383#27)) (m' := 0x3FFF#32) (v' := 0x0#32) (by decide) (@and_app 5 27 _ _ _ _ _ (0#27) BitVec.and_zero rfl)

theorem wret : Statement (.wret) := by
  intro _ pos g
  show Fits (hAppend (hAppend pos g) 92864512#27) _
  refine ⟨⟨.wret, 0xFFFF#32, 0x0#32, 0x0#32⟩, ?_, rfl, ?_, ?_⟩
  · rw [rowOf_Walk (by simp (disch := decide) only [BitVec.extractLsb'_append_eq_of_add_le, BitVec.extractLsb'_append_eq_of_le]; rfl)]
    unfold rowWalk
    rw [show (hAppend (hAppend pos g) 92864512#27).extractLsb' 16 6 = 9#6 from by simp (disch := decide) only [BitVec.extractLsb'_append_eq_of_add_le, BitVec.extractLsb'_append_eq_of_le]; rfl]
    show Except.ok _ = _
    simp (disch := decide) only [BitVec.extractLsb'_append_eq_of_add_le, BitVec.extractLsb'_append_eq_of_le]
  · exact BitVec.and_zero
  · exact and_mask (m := (hAppend 0#5 65535#27)) (m' := 0xFFFF#32) (v' := 0x0#32) (by decide) (@and_app 5 27 _ _ _ _ _ (0#27) BitVec.and_zero rfl)

theorem wjoin : Statement (.wjoin) := by
  intro _ pos g
  show Fits (hAppend (hAppend pos g) 92930048#27) _
  refine ⟨⟨.wjoin, 0xFFFF#32, 0x0#32, 0x0#32⟩, ?_, rfl, ?_, ?_⟩
  · rw [rowOf_Walk (by simp (disch := decide) only [BitVec.extractLsb'_append_eq_of_add_le, BitVec.extractLsb'_append_eq_of_le]; rfl)]
    unfold rowWalk
    rw [show (hAppend (hAppend pos g) 92930048#27).extractLsb' 16 6 = 10#6 from by simp (disch := decide) only [BitVec.extractLsb'_append_eq_of_add_le, BitVec.extractLsb'_append_eq_of_le]; rfl]
    show Except.ok _ = _
    simp (disch := decide) only [BitVec.extractLsb'_append_eq_of_add_le, BitVec.extractLsb'_append_eq_of_le]
  · exact BitVec.and_zero
  · exact and_mask (m := (hAppend 0#5 65535#27)) (m' := 0xFFFF#32) (v' := 0x0#32) (by decide) (@and_app 5 27 _ _ _ _ _ (0#27) BitVec.and_zero rfl)

theorem mailboxWrite : Statement (.mailboxWrite) := fun h => absurd h (by decide)

theorem mailboxRead : Statement (.mailboxRead) := fun h => absurd h (by decide)

theorem kick : Statement (.kick) := fun h => absurd h (by decide)

theorem kcoalWrite : Statement (.kcoalWrite) := fun h => absurd h (by decide)

theorem kickPageRegisterWrite : Statement (.kickPageRegisterWrite) := fun h => absurd h (by decide)

theorem streamProgramStart : Statement (.streamProgramStart) := fun h => absurd h (by decide)

theorem bundleIssue : Statement (.bundleIssue) := fun h => absurd h (by decide)

theorem registerWriteLand : Statement (.registerWriteLand) := fun h => absurd h (by decide)

theorem memoryPerform : Statement (.memoryPerform) := fun h => absurd h (by decide)

theorem waitExpiry : Statement (.waitExpiry) := fun h => absurd h (by decide)

theorem walkerBeatPerform : Statement (.walkerBeatPerform) := fun h => absurd h (by decide)

theorem dramRetry : Statement (.dramRetry) := fun h => absurd h (by decide)

theorem walkFaultPending : Statement (.walkFaultPending) := fun h => absurd h (by decide)

theorem wamoComplete : Statement (.wamoComplete) := fun h => absurd h (by decide)

theorem apsetComplete : Statement (.apsetComplete) := fun h => absurd h (by decide)

theorem snapBlockHashed : Statement (.snapBlockHashed) := fun h => absurd h (by decide)

theorem expanderDeliver : Statement (.expanderDeliver) := fun h => absurd h (by decide)

theorem arrayGroupWrite : Statement (.arrayGroupWrite) := fun h => absurd h (by decide)

theorem slotLoadComplete : Statement (.slotLoadComplete) := fun h => absurd h (by decide)

theorem accumulatorFillComplete : Statement (.accumulatorFillComplete) := fun h => absurd h (by decide)

theorem spillRowPerform : Statement (.spillRowPerform) := fun h => absurd h (by decide)

theorem encodeGroupPerform : Statement (.encodeGroupPerform) := fun h => absurd h (by decide)

theorem childEntry : Statement (.childEntry) := fun h => absurd h (by decide)

theorem outwardCopyApply : Statement (.outwardCopyApply) := fun h => absurd h (by decide)

theorem callerResume : Statement (.callerResume) := fun h => absurd h (by decide)

theorem joinRelease : Statement (.joinRelease) := fun h => absurd h (by decide)

theorem reflectedTrapEntry : Statement (.reflectedTrapEntry) := fun h => absurd h (by decide)

theorem cxmkComplete : Statement (.cxmkComplete) := fun h => absurd h (by decide)

theorem cxgiveComplete : Statement (.cxgiveComplete) := fun h => absurd h (by decide)

theorem cxqComplete : Statement (.cxqComplete) := fun h => absurd h (by decide)

theorem cxsaveComplete : Statement (.cxsaveComplete) := fun h => absurd h (by decide)

theorem cxloadComplete : Statement (.cxloadComplete) := fun h => absurd h (by decide)

theorem revocationComplete : Statement (.revocationComplete) := fun h => absurd h (by decide)

theorem budgetStop : Statement (.budgetStop) := fun h => absurd h (by decide)

theorem sliceEnd : Statement (.sliceEnd) := fun h => absurd h (by decide)

theorem drainWatchdog : Statement (.drainWatchdog) := fun h => absurd h (by decide)

theorem contextStop : Statement (.contextStop) := fun h => absurd h (by decide)

theorem contextRestore : Statement (.contextRestore) := fun h => absurd h (by decide)

theorem beaconSend : Statement (.beaconSend) := fun h => absurd h (by decide)

theorem beaconReceive : Statement (.beaconReceive) := fun h => absurd h (by decide)

theorem gcycStep : Statement (.gcycStep) := fun h => absurd h (by decide)

theorem timedFlitDepart : Statement (.timedFlitDepart) := fun h => absurd h (by decide)

theorem timedFlitArrive : Statement (.timedFlitArrive) := fun h => absurd h (by decide)

theorem linkBeatPerform : Statement (.linkBeatPerform) := fun h => absurd h (by decide)

theorem receiveWindowClose : Statement (.receiveWindowClose) := fun h => absurd h (by decide)

theorem portTrained : Statement (.portTrained) := fun h => absurd h (by decide)

theorem laneFailure : Statement (.laneFailure) := fun h => absurd h (by decide)

theorem currentWarning : Statement (.currentWarning) := fun h => absurd h (by decide)

theorem thermalWarning : Statement (.thermalWarning) := fun h => absurd h (by decide)

theorem trip : Statement (.trip) := fun h => absurd h (by decide)

theorem reset : Statement (.reset) := fun h => absurd h (by decide)

theorem reportReady : Statement (.reportReady) := fun h => absurd h (by decide)

theorem hmBankRetire : Statement (.hmBankRetire) := fun h => absurd h (by decide)

theorem herdFailure : Statement (.herdFailure) := fun h => absurd h (by decide)

theorem pseudoChannelRetire : Statement (.pseudoChannelRetire) := fun h => absurd h (by decide)

theorem resvCopyComplete : Statement (.resvCopyComplete) := fun h => absurd h (by decide)

theorem smbusReadSrs : Statement (.smbusReadSrs) := fun h => absurd h (by decide)

theorem smbusClearSr : Statement (.smbusClearSr) := fun h => absurd h (by decide)

theorem smbusReadEvent : Statement (.smbusReadEvent) := fun h => absurd h (by decide)

theorem smbusStartReport : Statement (.smbusStartReport) := fun h => absurd h (by decide)

theorem smbusReadReport : Statement (.smbusReadReport) := fun h => absurd h (by decide)

theorem smbusReset : Statement (.smbusReset) := fun h => absurd h (by decide)

theorem gridDrainStart : Statement (.gridDrainStart) := fun h => absurd h (by decide)

theorem deficitRenewal : Statement (.deficitRenewal) := fun h => absurd h (by decide)

theorem ecntSaturation : Statement (.ecntSaturation) := fun h => absurd h (by decide)

theorem thermalWarningEnd : Statement (.thermalWarningEnd) := fun h => absurd h (by decide)

theorem currentWarningEnd : Statement (.currentWarningEnd) := fun h => absurd h (by decide)

end Laws.Encode
end Sys2Proof
end

