-- ==== Sys2Proof/Tests/Slice0.lean ====
section
/-! SUPPORT. Tests/Slice0.lean: words of the spec's encoding tables and what they decode to, the terms that WellFormed refuses, the
spec's worked results, and for every statement of Certificates/Slice0 a state that meets its hypotheses. Expected results come from
the files of spec/ (08, 09, 10, 12, 23 and the encoding tables), not from a run. -/

set_option Elab.async false

namespace Sys2Proof.Tests

open Sys2Proof Sys2Proof.Machine

/-! ### Decoding: the words that the spec prints in its tables of encodings, by family -/

/-- From 05 (worked bundle), 12 (words 0 to 8) and 07 (the call example, the loop example). -/
theorem test_decode_br_loop :
    decode 0xC0011F00#32 = .ok (.bset 1 31) ∧ decode 0xC0110000#32 = .ok (.blink 1 0) ∧ decode 0xC0141700#32 = .ok (.bback 0 23) ∧
    decode 0xC0090000#32 = .ok (.bgo 1 0) ∧ decode 0x80011900#32 = .ok (.bset 1 25) ∧ decode 0x804018F8#32 = .ok (.loop 24 31) ∧
    decode 0x804420FF#32 = .ok (.loopi 15 31) ∧ decode 0xC0483F38#32 = .ok (.lpipe 1 31 7) ∧ decode 0xC84C0000#32 = .ok .lbreak := by decide

/-- From R169 and the tables of 18, 23 and 15. -/
theorem test_decode_sys_pred :
    decode 0xC0B00000#32 = .ok .modeExposed ∧ decode 0xC0B00001#32 = .ok .modeInterlocked ∧ decode 0xC09C0000#32 = .ok .fenceH ∧
    decode 0xC09C0001#32 = .ok .fenceD ∧ decode 0xC0840005#32 = .ok (.trap 5) ∧ decode 0xC0880000#32 = .ok .eret ∧
    decode 0x80902006#32 = .ok (.waiti 14) ∧ decode 0x80AC0000#32 = .ok .yield ∧ decode 0x80DD0008#32 = .ok (.pfirst 2 0 0 2) := by decide

/-- From the table of six syllables of 08, and the words of 05, 12, 15 and 25. -/
theorem test_decode_scalar :
    decode 0x810061F8#32 = .ok (.add 3 1 31 0) ∧ decode 0xC14411FD#32 = .ok (.addi 2 1 0x1FD) ∧ decode 0xC1388113#32 = .ok (.sel 4 1 2 3) ∧
    decode 0x41895AD0#32 = .ok (.fmul 10 26 26 0) ∧ decode 0xC1C82310#32 = .ok (.icmpLt 1 3 2) ∧ decode 0xC210A6F8#32 = .ok (.fsh 5 6 31) ∧
    decode 0x82405E00#32 = .ok (.cpack 2 30 0) ∧ decode 0xC2552230#32 = .ok (.bxok 9 2 6 0) ∧ decode 0xC723EAAA#32 = .ok (.fli 2 0x3EAAA) := by
  decide

/-- From 09, 11 and 12. -/
theorem test_decode_memory :
    decode 0xC2B98C45#32 = .ok (.lmemTstr 1 2 3 2 5) ∧ decode 0xC2E04000#32 = .ok .atclrAll ∧ decode 0xC31108C4#32 = .ok (.hmemLdw 4 2 6 4) ∧
    decode 0x43311000#32 = .ok (.hmemTldr 1 0 4 0 0) ∧ decode 0xC35104C0#32 = .ok (.amcas 4 1 6 0) ∧ decode 0xC4840502#32 = .ok (.kst 0 5 2) ∧
    decode 0x44881F00#32 = .ok (.kbase 31) := by decide

/-- From 10, 11, 12, 15 and 22. -/
theorem test_decode_tile :
    decode 0xD38227F4#32 = .ok (.taddSat 0 4 1 31 5 0 0) ∧ decode 0xC3C6C842#32 = .ok (.tfma 3 1 0 2 0 1 0) ∧
    decode 0xC4D250A0#32 = .ok (.tfcmpLt 1 2 0 5 0 0 0) ∧ decode 0xC4030820#32 = .ok (.tcvt 1 4 1 1 0 0 0) ∧
    decode 0xC4208804#32 = .ok (.tquant 0 2 1 1 0 0) ∧ decode 0xC4349018#32 = .ok (.tscx 2 2 0 0 0) ∧
    decode 0xC430D000#32 = .ok (.tdeq 3 2 0 0 0 0) ∧ decode 0x4442C7E0#32 = .ok (.tbcast 3 31 0 0 0) ∧
    decode 0xD444C7EC#32 = .ok (.tbcastL 3 0 31 3 0 0) ∧ decode 0x444B97EC#32 = .ok (.tredMax 6 2 31 3 0 0) ∧
    decode 0xC44647E0#32 = .ok (.trot 1 0 31 0 0 0) := by decide

/-- From 17 (the matrix-vector program of 19), 13, 21, 20, 24 and 14. -/
theorem test_decode_engines :
    decode 0xC5430000#32 = .ok (.mgeoA 0) ∧ decode 0xC543F801#32 = .ok (.mgeoW 31 0) ∧ decode 0xC543C7C3#32 = .ok (.mgeoN 24 31) ∧
    decode 0xC5000000#32 = .ok (.mload 0) ∧ decode 0x45010000#32 = .ok (.mrun 0 0 0 0) ∧ decode 0x45400000#32 = .ok (.menc 0 0) ∧
    decode 0x45040000#32 = .ok (.mspillAcc 0) ∧ decode 0xC58607C0#32 = .ok (.wgeo 0 31 0) ∧ decode 0xC5843000#32 = .ok (.wprom 6 0) ∧
    decode 0xC58521A3#32 = .ok (.wamoCas 4 6 3) ∧ decode 0xC58819C2#32 = .ok (.wcall 3 7 2) ∧ decode 0xC5890000#32 = .ok .wret ∧
    decode 0xC58A0000#32 = .ok .wjoin := by decide

theorem test_decode_links_contexts :
    decode 0xC5C02143#32 = .ok (.lsend 4 5 3) ∧ decode 0xC5C24803#32 = .ok (.llat 9 3) ∧ decode 0xC5C34000#32 = .ok (.gcyc 8 0) ∧
    decode 0xC5C55007#32 = .ok (.gadj 10 7) ∧ decode 0xC5C62003#32 = .ok (.lpair 4 3) ∧ decode 0xC6002002#32 = .ok (.cxmk 4 0 2) ∧
    decode 0xC6043140#32 = .ok (.cxsave 6 5) ∧ decode 0xC6063FC0#32 = .ok (.cxpend 7 31) ∧ decode 0xC6074243#32 = .ok (.cxq 8 9 3) ∧
    decode 0xC6412000#32 = .ok (.apclr 4) ∧ decode 0xC6422900#32 = .ok (.apq 5 4) := by decide

/-- Each cause of R119 that one word can show: a reserved major, a reserved minor and a reserved variant, a nonzero unused field, a
destination of 24, a pair that starts at s23. -/
theorem test_decode_refuses :
    decode 0xC6800000#32 = .error .reservedMajor ∧ decode 0xC0F40000#32 = .error .reservedOp ∧ decode 0xC1002003#32 = .error .reservedOp ∧
    decode 0xC0800001#32 = .error .unusedField ∧ decode 0xC1030000#32 = .error .badOperand ∧ decode 0xC2102000#32 = .error .badPair := by
  decide

/-! ### Well-formedness: for each check a term that it refuses, and a term that all checks pass -/

theorem test_wf_refuses_reserved_fields :
    (Instr.add 1 1 1 3).wf = false ∧ (Instr.bxok 1 0 1 3).wf = false ∧ (Instr.pfirst 1 0 0 3).wf = false ∧ (Instr.tadd 0 0 0 0 2 0 0).wf = false ∧
    (Instr.tfadd 0 0 0 0 3 0 0).wf = false ∧ (Instr.tquant 7 0 0 1 0 0).wf = false ∧ (Instr.tdeq 0 0 0 3 0 0).wf = false ∧
    (Instr.tdeqHi 0 0 0 1 0 0).wf = false ∧ (Instr.tredMax 0 0 0 7 0 0).wf = false ∧ (Instr.tpack 0 0 0 2 0 0).wf = false ∧
    (Instr.gadj 0 4).wf = false := by decide

theorem test_wf_refuses_unused_fields :
    (Instr.tadd 0 0 0 8 3 0 0).wf = false ∧ (Instr.lmemTstr 0 2 0 0 8).wf = false ∧ (Instr.tcvt 3 0 0 1 0 0 0).wf = false := by decide

theorem test_wf_refuses_operands :
    (Instr.add 24 0 0 0).wf = false ∧ (Instr.amadd 24 0 0 0).wf = false ∧ (Instr.lmemStb 31 0 0 0).wf = false ∧
    (Instr.fsh 1 0 0).wf = false ∧ (Instr.amcas 23 0 0 0).wf = false ∧ Instr.registerWriteLand.wf = false := by decide

theorem test_wf_holds :
    (Instr.add 23 31 31 2).wf = true ∧ (Instr.fsh 1 22 31).wf = true ∧ (Instr.tadd 0 0 1 31 6 1 1).wf = true ∧
    (Instr.tcvt 1 0 0 1 0 0 0).wf = true ∧ (Instr.gadj 0 7).wf = true := by decide

/-- The encoder on the word of 09 for `H: ldw s4, b2[s6 + 4]`, and on that of 10 for `(p2) tadd.sat.i8 t0.r, t4.r, =5`. -/
theorem test_encode : encode 3 0 (.hmemLdw 4 2 6 4) = 0xC31108C4#32 ∧ encode 3 2 (.taddSat 0 4 1 31 5 0 0) = 0xD38227F4#32 := by decide

/-! ### Small states -/

/-- A frame of the root context at a level, with these boxes bound from b0 on. -/
def frame (level : Nat) (boxes : List (BitVec 256)) : Frame :=
  { ctx := 0, level := level, image := 0, task := 0, call := .none, queue := 0
    boxes := boxes.map .some ++ List.replicate (16 - boxes.length) .none }

/-- One herd with one core, that executes slot A of the bundle at 0; the root takes every class that it may, at word 0x40. -/
def small (r : Regs) : State :=
  { State.reset with
    herds := [{ cores := [{ r := r }] }], cur := { slot := 1, next := 1 }
    ctxs := [{ Ctx.root {} with deleg := 0xFFFFFFFF, hentry := 0x80000040 }] }

/-- The registers of a herd task with s1, s2 and s3. -/
def regs (x y z : Word) : Regs := { s := [0, x, y, z] ++ List.replicate 20 0, frame := .some (frame 2 []) }

/-- The one write that an instruction queues: its destination, the end of the cycle that it lands in, its value, its flags. -/
def gives (i : Instr) (s : State) : Option (Dest × Nat × Nat × BitVec 5) :=
  match exec i s with
  | .next t => match t.R.pend with
    | [p] => .some (p.dest, p.due, p.val.toNat, p.fflags)
    | _ => .none
  | _ => .none

/-- The trap that an instruction takes: its class and its cause, as the record of its frame has them. -/
def trapOf (i : Instr) (s : State) : Option (Nat × Nat) :=
  match exec i s with
  | .next t => match t.R.trap, t.R.bank with
    | .some _, .some (w :: _) => .some (w.toNat % 2 ^ 5, w.toNat / 2 ^ 16 % 2 ^ 8)
    | _, _ => .none
  | _ => .none

/-! ### Results at the borders (the table of 08) and single operations -/

def two (x y : Word) : State := small (regs x y 0)

theorem test_div : gives (.div 5 1 2 0) (two 7 0xFFFFFFFE) = .some (.scalar 5, 17, 0xFFFFFFFD, 0) ∧
    gives (.div 5 1 2 1) (two 7 0xFFFFFFFE) = .some (.scalar 5, 17, 1, 0) := by decide +kernel

theorem test_div_borders : gives (.div 5 1 2 1) (two 7 0) = .some (.scalar 5, 17, 7, 0) ∧
    gives (.div 5 1 2 0) (two 0x80000000 0xFFFFFFFF) = .some (.scalar 5, 17, 0x80000000, 0) := by decide +kernel

theorem test_add : gives (.add 5 1 2 0) (two 0x7FFFFFFF 1) = .some (.scalar 5, 0, 0x80000000, 0) ∧
    gives (.add 5 1 2 1) (two 0x7FFFFFFF 1) = .some (.scalar 5, 0, 0x7FFFFFFF, 0) := by decide +kernel

theorem test_sub_us : gives (.sub 5 1 2 2) (two 3 5) = .some (.scalar 5, 0, 0, 0) := by decide +kernel

theorem test_mulh : gives (.mulh 5 1 2) (two 0xFFFFFFFF 0xFFFFFFFF) = .some (.scalar 5, 2, 0, 0) ∧
    gives (.mulhu 5 1 2) (two 0xFFFFFFFF 0xFFFFFFFF) = .some (.scalar 5, 2, 0xFFFFFFFE, 0) := by decide +kernel

/-- The pair s3:s2 of the table's s7:s6, shifted by 12 and by 40. -/
theorem test_fsh : gives (.fsh 5 2 1) (small (regs 12 0x89ABCDEF 0x01234567)) = .some (.scalar 5, 0, 0x3456789A, 0) ∧
    gives (.fsh 5 2 1) (small (regs 40 0x89ABCDEF 0x01234567)) = .some (.scalar 5, 0, 0xABCDEF00, 0) := by decide +kernel

theorem test_fshr : gives (.fshr 5 2 1) (small (regs 12 0x89ABCDEF 0x01234567)) = .some (.scalar 5, 0, 0x56789ABC, 0) ∧
    gives (.fshr 5 2 1) (small (regs 40 0x89ABCDEF 0x01234567)) = .some (.scalar 5, 0, 0x00012345, 0) := by decide +kernel

theorem test_clz : gives (.clz 5 1) (two 0 0) = .some (.scalar 5, 0, 32, 0) ∧ gives (.clz 5 1) (two 0x10000 0) = .some (.scalar 5, 0, 15, 0) := by
  decide +kernel

theorem test_bext : gives (.bext 5 1 2 0) (two 0xDEADBEEF 0x108) = .some (.scalar 5, 0, 0xBE, 0) ∧
    gives (.bext 5 1 2 1) (two 0xDEADBEEF 0x108) = .some (.scalar 5, 0, 0xFFFFFFBE, 0) := by decide +kernel

theorem test_fadd : gives (.fadd 5 1 2 0) (two 0x7F7FFFFF 0x7F7FFFFF) = .some (.scalar 5, 2, 0x7F800000, 0b00101) ∧
    gives (.fadd 5 1 2 0) (two 0x7F800000 0xFF800000) = .some (.scalar 5, 2, 0x7FC00000, 0b10000) := by decide +kernel

theorem test_fmul : gives (.fmul 5 1 2 0) (two 0x00800000 0x3F000000) = .some (.scalar 5, 2, 0, 0b00011) ∧
    gives (.fmul 5 1 2 0) (small { regs 0x00800000 0x3F000000 0 with sw := 1 }) = .some (.scalar 5, 2, 0x00400000, 0) := by decide +kernel

theorem test_fmin : gives (.fmin 5 1 2) (two 0x7FC00000 0x3F800000) = .some (.scalar 5, 0, 0x3F800000, 0) ∧
    gives (.fmin 5 1 2) (two 0x80000000 0) = .some (.scalar 5, 0, 0x80000000, 0) := by decide +kernel

theorem test_f2i : gives (.f2i 5 1 0 1) (two 0x4F32D05E 0) = .some (.scalar 5, 2, 0x7FFFFFFF, 0b10000) ∧
    gives (.f2i 5 1 0 0) (two 0x40200000 0) = .some (.scalar 5, 2, 2, 0b00001) := by decide +kernel

theorem test_i2f : gives (.i2f 5 1 0 0) (two 0x01000001 0) = .some (.scalar 5, 2, 0x4B800000, 0b00001) := by decide +kernel

theorem test_fcmp : gives (.fcmpEq 3 1 2 0) (two 1 0) = .some (.pred 3, 0, 2 ^ 64 - 1, 0) ∧
    gives (.fcmpLt 3 1 2 0) (two 0x7FC00000 0x3F800000) = .some (.pred 3, 0, 0, 0b10000) := by decide +kernel

/-- The immediate of `addi` is signed (R175), and `fli` writes s(8 + dst) (R186; the table of encodings of 08). -/
theorem test_immediates : gives (.addi 2 1 0x1FD) (two 2 0) = .some (.scalar 2, 0, 0xFFFFFFFF, 0) ∧
    gives (.fli 2 0x3EAAA) (two 0 0) = .some (.scalar 10, 0, 0x3EAAA000, 0) := by decide +kernel

/-! ### Paths and boxes: the worked case of 01 -/

/-- The HM box of 01: read-write, FP32, six rows of ten columns, row stride 64, base 0x10000; its four words as stored. -/
def hmBox : BitVec 256 := 0#64 ++ 0x40#64 ++ 0x6000A#64 ++ 0x01A0000000010000#64

def atBox (level : Nat) (path : Word) : State := small { regs path 0x11223344 0 with frame := .some (frame level [hmBox, hmBox, hmBox]) }

/-- `stw s2, b2[s1 + 4]` at path (3, 2) reaches HM byte 0x100D8, from its low byte on, in cycle c + 2. -/
theorem test_store : (match exec (.hmemStw 2 2 1 4) (atBox 2 0x00030002) with
    | .next t => t.me.stores
    | _ => []) = [{ due := 2, space := .hm 0, level := 2, bytes := [(0x100D8, 0x44), (0x100D9, 0x33), (0x100DA, 0x22), (0x100DB, 0x11)] }] := by
  decide +kernel

/-- Column 11 and row −1 are outside the box (R20). -/
theorem test_box_bound : trapOf (.hmemLdw 4 2 1 9) (atBox 2 0x00030002) = .some (10, 0) ∧
    trapOf (.hmemLdw 4 2 1 0) (atBox 2 0xFFFF0002) = .some (10, 0) := by decide +kernel

/-- From the fragment of 08: the path (5, 8) lies in the box, (6, 10) does not, and neither does column −1. -/
theorem test_bxok : gives (.bxok 9 2 1 0) (atBox 2 0x00050008) = .some (.scalar 9, 0, 1, 0) ∧
    gives (.bxok 10 2 1 2) (atBox 2 0x0006000A) = .some (.scalar 10, 0, 0, 0) := by decide +kernel

theorem test_cadd : gives (.cadd 11 1 2) (two 0x00050008 0x0000FFF7) = .some (.scalar 11, 0, 0x0005FFFF, 0) := by decide +kernel

/-! ### Tile elements: the table of 10, and conversions of 02 -/

/-- Element 0 and its flags, all lanes enabled, RNE, exposed. -/
def elem (op : VOp) (f w a b d : Nat) : Nat × Nat :=
  let o := vRow op f false { a := a, b := b, d := d, guard := 1 }
  (o.val % 2 ^ w, o.tfl % 32)

theorem test_tint : elem (.add true) 5 8 100 50 0 = (0x7F, 0b00100) ∧ elem (.add true) 5 8 0x9C 0xCE 0 = (0x80, 0b00100) ∧
    elem (.sub true) 6 8 3 5 0 = (0, 0b00100) ∧ elem .mulh 4 16 0x4000 0x4000 0 = (0x1000, 0) ∧ elem .mulh 4 16 0xFFFF 2 0 = (0xFFFF, 0) ∧
    elem .sra 5 8 0x80 9 0 = (0xC0, 0) ∧ elem .fsh 5 8 0x12 0x34 4 = (0x23, 0) ∧ elem (.abs true) 3 32 0x80000000 0 0 = (0x7FFFFFFF, 0b00100) := by
  decide +kernel

theorem test_tcvt : elem (.cvt 7 0 false) 0 8 0x43960000 0 0 = (0x79, 0b00001) ∧ elem (.cvt 7 0 true) 0 8 0x43FA0000 0 0 = (0x7E, 0b00101) ∧
    elem (.cvt 1 0 false) 0 16 0x3F818000 0 0 = (0x3F82, 0b00001) ∧ elem (.cvt 2 0 false) 0 16 0x47800000 0 0 = (0x7C00, 0b00101) ∧
    elem (.cvt 5 0 false) 0 8 0xC02C0000 0 0 = (0xFD, 0b00001) ∧ elem (.cvt 6 0 true) 0 8 0xC3800000 0 0 = (0, 0b10000) := by decide +kernel

/-- The fault in the middle of a bundle of 23: core 0 of context 5, cycle 101, slot H of the bundle at 0x140. -/
theorem test_trap_record : (match exec (.hmemLdw 4 2 6 4)
      { State.reset with
        tick := 101, gcyc := 101, cur := { slot := 4, pc := 0x140 }
        herds := [{ cores := [{ r := { s := List.replicate 6 0 ++ [0x00030008] ++ List.replicate 17 0
                                       frame := .some { frame 2 [hmBox, hmBox, hmBox] with ctx := 5 } } }] }]
        ctxs := [{ Ctx.root {} with num := 5, parent := .some 0, depth := 1, deleg := 0x400, hentry := 0x80000200 }] } with
    | .next t => (t.R.bank, t.R.pc)
    | _ => (.none, 0)) = (.some [0x0400050A, 0x00000140, 0, 0, 0x65, 0], 0x0200) := by decide +kernel

/-! ### Witnesses: for each statement with hypotheses, a state and operands that meet all of them together -/

theorem witness_ResetState : (95 < 96 ∧ 3 < 4) ∧ (1 : Nat) ≠ 0 := by decide

theorem witness_SourceSpecifiers :
    let s := small { regs 7 8 9 with deadS := 2, sw := 2, bank := .some [5] }
    let u := small { regs 7 8 9 with deadS := 2 }
    let l : BitVec 5 := 23
    let f : BitVec 5 := 1
    let c : BitVec 5 := 24
    let e : BitVec 5 := 29
    (l.toNat ≤ 23 ∧ l ≠ 0 ∧ s.R.deadS.getLsbD l.toNat = false) ∧ (f.toNat ≤ 23 ∧ f ≠ 0 ∧ u.R.deadS.getLsbD f.toNat = true ∧ u.R.sw.getLsbD 1 = false) ∧
    (s.R.deadS.getLsbD f.toNat = true ∧ s.R.sw.getLsbD 1 = true) ∧ (24 ≤ c.toNat ∧ c.toNat ≤ 29 ∧ u.R.bank = .none) ∧
    (24 ≤ e.toNat ∧ e.toNat ≤ 29 ∧ s.R.bank = .some [5]) := by decide

/-- A specifier past the bound block of one word, the first of the window inside it, and a block that is not bound. -/
theorem witness_SourceSpecifiers_past :
    (let s := small { regs 7 8 9 with bank := .some [5] }
     s.R.bank = .some [5] ∧ [5].length ≤ s.R.winBase.toNat + ((29 : BitVec 5).toNat - 24) ∧ ¬ [5].length ≤ s.R.winBase.toNat + ((24 : BitVec 5).toNat - 24)) ∧
    (two 1 2).R.bank = .none := by decide +kernel

theorem placed_small (r : Regs) : (small r).Placed := ⟨Nat.zero_lt_one, Nat.zero_lt_one⟩

theorem witness_PutQueuesOneWrite : (two 1 2).Placed := placed_small _

/-- Core 0 of herd 0 with this pending write, due now. -/
def landing (d : Dest) : State := small { regs 1 2 3 with pend := [{ due := 0, dest := d, val := 5, mask := 1, fflags := 1 }] }

theorem witness_LandingWritesOneRegister :
    ∀ d ∈ [Dest.scalar 0, .scalar 23, .pred 0, .pred 7, .tileRow 7 31, .scale 7, .branch 3, .rcur, .winBase, .mode, .pbnd, .special 0, .phase],
    let s := landing d
    s.ev.a < s.herds.length ∧ s.ev.b < (s.herd s.ev.a).cores.length ∧
      firstPend (s.regs s.ev.a s.ev.b).pend = .some { due := 0, dest := d, val := 5, mask := 1, fflags := 1 } ∧ 0 ≤ s.tick := by decide +kernel

theorem sized_landing (d : Dest) : Regs.Sized ((landing d).regs 0 0) := 
  ⟨rfl, rfl, rfl, fun _ h => (List.eq_of_mem_replicate h) ▸ List.length_replicate, rfl, rfl, rfl, rfl⟩

/-- A write of slot 3 that raises class bit 1, into a record that is free and into one that is not; one of slot 3 that raises nothing. -/
theorem witness_LandingWritesOneRegister_record :
    let p (c : BitVec 5) : Pend := { due := 0, dest := .scalar 5, val := 5, fflags := c, cls := c, slot := .some 3, addr := 9 }
    let s (q : Pend) (v : Word) : State := small { regs 1 2 3 with pend := [q], xr := [0, 0, 0, v] }
    (∀ q v, firstPend ((s q v).regs 0 0).pend = .some q) ∧ (p 2).slot = .some 3 ∧ (p 0).slot = .some 3 ∧ (3 : Nat) < 4 ∧
    (p 2).cls.getLsbD 1 = true ∧ (∀ k < 5, (p 0).cls.getLsbD k = false) ∧
    ((s (p 2) 0).regs 0 0).xr.getD 3 0 = 0#32 ∧ (((s (p 2) 0x80000000).regs 0 0).xr.getD 3 0).getLsbD 31 = true := by
  intro p s
  refine ⟨fun _ _ => rfl, rfl, rfl, ?_, ?_, ?_, rfl, ?_⟩ <;> decide

theorem witness_RegisterSyllablesOnlyQueue :
    let s := two 1 2
    onlyWrites (.add 5 1 2 0) = true ∧ s.cur.trapped = false ∧ s.cur.mustHold = false ∧
      ∃ t, exec (.add 5 1 2 0) s = .next t ∧ t.cur.trapped = false ∧ t.cur.mustHold = false := ⟨rfl, rfl, rfl, _, rfl, rfl, rfl⟩

theorem witness_AddAndSubtract : (two 1 2).src2 1 2 = .ok (1, 2) := rfl

theorem witness_Multiplications : (two 1 2).src2 1 2 = .ok (1, 2) ∧ (two 1 2).room 3 0 = .ok () := ⟨rfl, rfl⟩

/-- Both sources literals (R105), and a literal beside a register. -/
theorem witness_LogicAndSelection :
    ({ two 1 2 with cur := { lits := [7, 8] } } : State).src2 31 31 = .ok (7, 8) ∧
    ({ two 1 2 with cur := { lits := [7] } } : State).src2 1 31 = .ok (1, 7) := ⟨rfl, rfl⟩

theorem witness_ImmediateArithmetic : (two 1 2).src 1 0 = .ok 1 ∧ (two 1 2).src 0 0 = .ok 0 := ⟨rfl, rfl⟩

theorem witness_Divisions :
    (∀ p ∈ [((7, 2) : Word × Word), (7, 0), (0x80000000, 0xFFFFFFFF)], (two p.1 p.2).src2 1 2 = .ok p ∧ (two p.1 p.2).room 18 0 = .ok ()) ∧
    ((7 : Word) = 0x80000000#32 ∧ (2 : Word) = 0xFFFFFFFF#32 → False) := by
  refine ⟨?_, by decide⟩
  intro p hp
  simp only [List.mem_cons, List.not_mem_nil, or_false] at hp
  rcases hp with rfl | rfl | rfl <;> exact ⟨rfl, rfl⟩

theorem witness_ShiftsAndCounts :
    let s := small (regs 12 0x89ABCDEF 0x01234567)
    (s.src2 1 2 = .ok (12, 0x89ABCDEF)) ∧ s.src 1 0 = .ok 12 ∧ (Instr.fsh 5 1 1).wf = true ∧ (Instr.fsh 5 22 1).wf = true ∧
      s.reg (2 : BitVec 5).toNat = .ok 0x89ABCDEF ∧ s.reg ((2 : BitVec 5).toNat + 1) = .ok 0x01234567 := ⟨rfl, rfl, rfl, rfl, rfl, rfl⟩

theorem witness_BitFields : (two 0xDEADBEEF 0x7E0).src2 1 2 = .ok (0xDEADBEEF, 0x7E0) ∧ (two 1 2).reg (2 : BitVec 5).toNat = .ok 2 := ⟨rfl, rfl⟩

theorem witness_PathArithmetic : (two 1 2).src2 1 2 = .ok (1, 2) ∧ (two 1 2).src 1 0 = .ok 1 ∧ (atBox 2 0).box? (2 : BitVec 4).toNat = .some hmBox :=
  ⟨rfl, rfl, rfl⟩

/-- The last element of the box, the column after it, and an unbound handle. -/
theorem witness_BoundTest :
    (atBox 2 0x00050009).src 1 0 = .ok 0x00050009 ∧ (atBox 2 0x0005000A).src 1 0 = .ok 0x0005000A ∧
      (atBox 2 0x00050009).box? (2 : BitVec 4).toNat = .some hmBox ∧ (atBox 2 0).box? (15 : BitVec 4).toNat = .none ∧
      ((0 : Int) ≤ 5 ∧ (5 : Int) < (hmBox.toNat / 2 ^ 80 % 2 ^ 16 : Nat) ∧ (0 : Int) ≤ 9 ∧ (9 : Int) < (hmBox.toNat / 2 ^ 64 % 2 ^ 16 : Nat)) ∧
      ¬ (10 : Int) < (hmBox.toNat / 2 ^ 64 % 2 ^ 16 : Nat) := by and_intros <;> first | rfl | decide

theorem witness_Compares : (two 0x7FC00000 0x3F800000).src2 1 2 = .ok (0x7FC00000, 0x3F800000) := rfl

theorem witness_FloatArithmetic :
    (two 1 2).src2 1 2 = .ok (1, 2) ∧ (two 1 2).room 3 0 = .ok () ∧ (two 1 2).room 4 0 = .ok () ∧ (two 1 2).reg (3 : BitVec 5).toNat = .ok 0 ∧
    decodeFloat .fp32 0x7FC00000 = .nan ∧ decodeFloat .fp32 0x7F800000 = .inf false ∧ decodeFloat .fp32 0xFF800000 = .inf true ∧
    (0x80000000 : Nat) % 2 ^ 31 = 0 ∧ 0xFF800000 < 2 ^ 32 := by and_intros <;> first | rfl | decide +kernel

theorem witness_FloatMinMaxAndSigns : (two 0x7FC00000 0x3F800000).src2 1 2 = .ok (0x7FC00000, 0x3F800000) ∧ (two 1 2).src 1 0 = .ok 1 := ⟨rfl, rfl⟩

/-- One value for each branch: a NaN, an infinity, a value out of range on each side, and one in range. -/
theorem witness_FloatConversions :
    (∀ w ∈ [(0x7FC00000 : Word), 0xFF800000, 0x4F32D05E, 0xCF32D05E, 0x40200000], (two w 0).src 1 0 = .ok w ∧ (two w 0).room 3 0 = .ok ()) ∧
    2 ^ 31 ≤ (roundInt .rne false 3000000000 0).1 ∧ (roundInt .rne true 3000000000 0).1 < -2 ^ 31 ∧
    -2 ^ 31 ≤ (roundInt .rne false 2 0).1 ∧ (roundInt .rne false 2 0).1 < 2 ^ 31 := by
  refine ⟨?_, by decide +kernel, by decide +kernel, by decide +kernel, by decide +kernel⟩
  intro w hw
  simp only [List.mem_cons, List.not_mem_nil, or_false] at hw
  rcases hw with rfl | rfl | rfl | rfl | rfl <;> exact ⟨rfl, rfl⟩

theorem witness_Transfers :
    (two 1 2).src 1 0 = .ok 1 ∧ ((two 1 2).R.pred (0 : BitVec 3).toNat).getLsbD 0 = true ∧ ¬ ((two 1 2).R.pred (1 : BitVec 3).toNat).getLsbD 0 = true ∧
      (two 1 2).room 3 0 = .ok () ∧ (two 1 2).R.loops = [] := by and_intros <;> first | rfl | decide

/-- Element 1 is the first that is on, and no element is. -/
theorem witness_PredicateOperations :
    let s := small { regs 0 0 0 with p := [0, 0xFFFF0, 0xFFFFF] ++ List.replicate 5 0 }
    let on (a b : BitVec 3) (i : Nat) : Bool := (s.R.pred a.toNat &&& s.R.pred b.toNat).getLsbD (i * 2 ^ 2)
    (on 1 2 1 = true ∧ on 1 2 0 = false) ∧ (List.range 16).all (fun i => !on 3 1 i) = true := by decide +kernel

/-- A core with n loop-stack entries. -/
def looping (n : Nat) (x y : Word) : State := small { regs x y 0 with loops := List.replicate n { start := 1, fin := 4, count := 2 } }

/-- An end before the next bundle, and at it; a count of 0 and of 1; a kernel of `lpipe` that is good, ends before it starts, starts
too early, and has fewer iterations than stages; six entries and five. -/
theorem witness_LoopPushes :
    ((looping 6 1 1).src2 1 2 = .ok (1, 1) ∧ 6 ≤ (looping 6 1 1).R.loops.length) ∧
    (looping 5 0 1).src2 1 2 = .ok (0, 1) ∧ (looping 5 1 1).src2 1 2 = .ok (1, 1) ∧ (looping 5 1 1).R.loops.length < 6 ∧
    ((0 : BitVec 16) < (looping 5 0 0).cur.next ∧ (looping 5 0 1).cur.next ≤ (1 : BitVec 16)) ∧ (looping 5 1 1).src 2 0 = .ok 1 ∧
    (looping 5 0x00040002 0x00050003).src2 1 2 = .ok (0x00040002, 0x00050003) ∧
    ((0x00040002#32).setWidth 16 : BitVec 16) ≤ (0x00040002#32).extractLsb' 16 16 ∧ (looping 5 1 1).cur.next ≤ (2 : BitVec 16) ∧
    (2 : BitVec 4).toNat + 1 ≤ (0x00050003#32).toNat % 2 ^ 16 ∧
    ((0x00010002#32).extractLsb' 16 16 < ((0x00010002#32).setWidth 16 : BitVec 16)) ∧ ((0 : BitVec 16) < (looping 5 1 1).cur.next) ∧
    (0x00050002#32).toNat % 2 ^ 16 < (2 : BitVec 4).toNat + 1 := by and_intros <;> first | rfl | decide

theorem witness_LoopPushes_lbreak :
    (two 0 0).R.loops = [] ∧ (looping 2 0 0).R.loops = { start := 1, fin := 4, count := 2 } :: [{ start := 1, fin := 4, count := 2 }] ∧
    (small { regs 0 0 0 with loops := [{ kind := true }] }).R.loops = { kind := true } :: [] := ⟨rfl, rfl, rfl⟩

/-- The last k, with six entries and with five; ix0 with a loop and without. -/
theorem witness_LoopIndex :
    (5 : BitVec 3).toNat ≤ 5 ∧ (looping 6 0 0).R.loops[(5 : BitVec 3).toNat]? = .some { start := 1, fin := 4, count := 2 } ∧
    (looping 5 0 0).R.loops.length < (5 : BitVec 3).toNat + 1 ∧
    ((two 0 0).regs 0 0).ixHold = .none ∧ ((two 0 0).regs 0 0).loops = [] ∧ ((looping 1 0 0).regs 0 0).loops = { start := 1, fin := 4, count := 2 } :: [] := by
  decide +kernel

/-- One entry of each kind at its back-edge, before the last iteration, in it, and clamped. -/
theorem witness_BackEdge :
    let at_ (e : LoopEntry) : Core := { r := { loops := [e] } }
    let a : LoopEntry := { start := 1, fin := 4, count := 2 }
    let b : LoopEntry := { a with kind := true, sm1 := 1, count := 3, epi := 9 }
    (∀ e ∈ [a, { a with index := 1 }, b, { b with index := 1 }, { b with clamp := true }],
      (at_ e).r.loops = e :: [] ∧ e.ask = false ∧ e.fin = 4 ∧ ([] : List LoopEntry).head? = .none) ∧
    (a.kind = false ∧ a.index.toNat + 1 < a.count.toNat) ∧ a.count.toNat ≤ (1 : Word).toNat + 1 ∧
    (b.kind = true ∧ b.clamp = false ∧ b.index.toNat + (b.sm1.toNat + 1) < b.count.toNat) ∧ b.count.toNat ≤ (1 : Word).toNat + (b.sm1.toNat + 1) ∧
    ({} : Core).r.loops.head? = .none := by decide +kernel

theorem witness_BackEdge_finish : (two 1 2).Placed ∧ (two 1 2).R.softTrap = .none ∧ (two 1 2).cur.eret = false := ⟨placed_small _, rfl, rfl⟩

/-- Two entries that end with the same bundle, the inner one in its last iteration; a clamp that is asked of an entry with stages to go, of
one without, and of one that an `lbreak` has clamped; an entry that resumes. -/
theorem witness_BackEdge_nested :
    let a : LoopEntry := { start := 1, fin := 4, count := 2, index := 1 }
    let b : LoopEntry := { start := 1, fin := 4, kind := true, sm1 := 1, count := 5, index := 1, epi := 9, pro := 3 }
    let at_ (l : List LoopEntry) : Core := { r := { loops := l } }
    ((at_ [a, b]).r.loops = a :: b :: [] ∧ (at_ [a, b]).r.loops.length ≤ 6 ∧ a.ask = false ∧ a.fin = 4 ∧ b.fin = 4 ∧
      (if a.kind then a.clamp = true ∨ a.count.toNat ≤ a.index.toNat + (a.sm1.toNat + 1) else a.count.toNat ≤ a.index.toNat + 1)) ∧
    (∀ e ∈ [{ b with ask := true }, { b with ask := true, index := 2 }, { b with ask := true, clamp := true }],
      (at_ [e]).r.loops = e :: [] ∧ e.kind = true ∧ e.ask = true ∧ e.fin = 4) ∧
    (b.clamp = false ∧ b.index.toNat + 2 * (b.sm1.toNat + 1) ≤ b.count.toNat) ∧ b.count.toNat < (2 : Word).toNat + 2 * (b.sm1.toNat + 1) ∧
    ({ b with resume := true } : LoopEntry).resume = true ∧ b.resume = false := by decide +kernel

/-- vcyc + 1 = 1 at cycle 0: an operand of 1 is not after it, an operand of 2 is. -/
theorem witness_SystemSyllables :
    ((two 1 0).src 1 0 = .ok 1 ∧ (two 2 0).src 1 0 = .ok 2 ∧ (two 2 0).vcyc (((two 2 0).R.ctx).getD 0) = 0) ∧
    (1#32 - BitVec.ofInt 32 (0 + 1)).toInt ≤ 0 ∧ 0 < (2#32 - BitVec.ofInt 32 (0 + 1)).toInt ∧
    (let s : State := { State.reset with tick := 5, herds := [{ cores := [{ hold := .wait, issueAt := 5 }] }] }
     (s.core s.ev.a s.ev.b).hold = .wait ∧ (s.core s.ev.a s.ev.b).issueAt ≤ s.tick) ∧
    (let s : State := { State.reset with tick := 4, herds := [{ cores := [{ hold := .wait, issueAt := 5 }] }] }
     s.tick < (s.core s.ev.a s.ev.b).issueAt) ∧
    (let s : State := { State.reset with
       cmds := [{ id := 7, kind := .copy, ctx := 0, herd := 0, core := 0, walker := 0, addr := 0, interlocked := true, issue := 0, promise := 9
                  beats := [{ srcSpace := .dev, src := [0], dstSpace := .hm 0, dst := [0] }] }] }
     ∀ k ∈ s.cmds, k.herd = s.cur.herd ∧ k.core = s.cur.core ∧ ∃ b ∈ k.beats, b.performed = false ∧ b.abandoned = false ∧ b.dst ≠ []) := by
  and_intros <;> first | rfl | decide

theorem witness_SystemSyllables_gate : ({} : Core).gate.settled = false := rfl

theorem witness_KillMarks :
    (two 0xFFFFFFFF 0).src 1 0 = .ok 0xFFFFFFFF ∧ 0 < (landing .none).herds.length ∧ 0 < ((landing .none).herd 0).cores.length ∧
      Regs.Sized ((landing .none).regs 0 0) ∧ 7 < 8 ∧ (landing .none).plat.tripped = false := by
  and_intros <;> first | exact sized_landing _ | rfl | decide

/-- The numbers at the edges of the ranges of R127 that `rdsr` and `wrsr` tell apart, and what each says of them. -/
theorem witness_SpecialRegisters :
    (two 5 0).src 1 0 = .ok 5 ∧ (two 5 0).R.ctx = .some 0 ∧
    (let bad (n : BitVec 6) : Bool := decide (4 < n.toNat ∧ n.toNat < 8 ∨ 11 < n.toNat ∧ n.toNat < 16 ∨ 26 < n.toNat)
     let may (n : BitVec 6) : Bool := decide (n.toNat ≤ 4 ∨ (8 ≤ n.toNat ∧ n.toNat ≤ 11) ∨ (20 ≤ n.toNat ∧ n.toNat ≤ 23 ∧ (two 5 0).R.ctx = .some 0))
     ([4, 8, 11, 16, 26].all fun n => !bad n) = true ∧ ([5, 7, 12, 15, 27, 63].all bad) = true ∧
     ([0, 4, 8, 11, 20, 23].all may) = true ∧ ([5, 7, 12, 19, 24].all fun n => !may n) = true) ∧ ({} : Regs).xr.length = 4 := by decide +kernel

theorem witness_PhaseChange :
    (63 : BitVec 8).toNat ≤ 63 ∧ 64 ≤ (64 : BitVec 8).toNat ∧ 64 ≤ (255 : BitVec 8).toNat ∧
    (let p : Pend := { due := 3, dest := .phase, val := (63 : BitVec 8).setWidth 512 }
     p.dest = .phase ∧ p.val = (63 : BitVec 8).setWidth 512) ∧ (4 : Nat) ≠ 3 := by decide

/-- In a handler, and outside; with a slot still to commit, and with none. -/
def handling : Regs :=
  { regs 1 2 3 with trap := .some { pc := 7, sres := 4, next := .none, sw := 0, rcur := 0, loops := [], xfer := .none, bank := .none, winBase := 0,
                                    queue := [{ due := 2, dest := .scalar 5, val := 9 }], ix0 := 0 } }

theorem witness_SoftwareTrapAndReturn :
    ({ two 1 2 with latch := [⟨1, 0, .nop, []⟩] } : State).latch ≠ [] ∧ (two 1 2).latch = [] ∧ (small handling).me.inHandler = true ∧
    (two 1 2).me.inHandler = false ∧ (small { regs 1 2 3 with softTrap := .some 5 }).R.softTrap = .some 5 ∧ (small { regs 1 2 3 with softTrap := .some 5 }).Placed ∧
    (small { regs 1 2 3 with softTrap := .some 5 }).me.inHandler = false ∧
    ({ small handling with cur := { eret := true } } : State).cur.eret = true ∧ (small handling).R.softTrap = .none := by
  and_intros <;> first | exact placed_small _ | rfl | decide

theorem witness_TrapEntry :
    let s := two 1 2
    0 < s.herds.length ∧ 0 < (s.herd 0).cores.length ∧ 7 < 8 ∧ (s.ctx 0).revoking = false ∧ s.routeTrap 0 0 10 = 0 ∧ s.handled 0 0 10 = true ∧
      (s.core 0 0).tile = .none := by decide +kernel

theorem witness_TrapReturn :
    let s := small handling
    0 < s.herds.length ∧ 0 < (s.herd 0).cores.length ∧ (∃ f, (s.regs 0 0).trap = .some f ∧ f.noTask = false ∧ f.next = .none) ∧
      (s.regs 0 0).pend = [] := ⟨Nat.zero_lt_one, Nat.zero_lt_one, ⟨_, rfl, rfl, rfl⟩, rfl⟩

/-- A handler with a write of its own still pending. -/
theorem witness_TrapReturn_pending :
    let s := small { handling with pend := [{ due := 1, dest := .scalar 6, val := 3 }] }
    0 < s.herds.length ∧ 0 < (s.herd 0).cores.length ∧ (∃ f, (s.regs 0 0).trap = .some f ∧ f.noTask = false) ∧ (s.regs 0 0).pend ≠ [] :=
  ⟨Nat.zero_lt_one, Nat.zero_lt_one, ⟨_, rfl, rfl⟩, nofun⟩

/-- A child context that takes class 26, the last that is not reserved; class 27 goes past it. -/
theorem witness_TrapRouting :
    let s : State := { State.reset with
      ctxs := [Ctx.root {}, { Ctx.root {} with num := 1, parent := .some 0, depth := 1, deleg := 0x04000000, hentry := 0x80000000 }] }
    (s.ctx 1).parent = .some 0 ∧ 26 < 27 ∧ (s.ctx 1).takes 26 = true ∧ 27 ≤ 27 ∧ (s.ctx 1).takes 25 = false ∧ (s.chain 0).length < 5 := by decide +kernel

/-- The way to the root of a class that x owns, and of a reserved one, which starts at x's parent. -/
theorem witness_TrapRouting_way :
    let s : State := { State.reset with
      ctxs := [Ctx.root {}, { Ctx.root {} with num := 1, parent := .some 0, depth := 1, deleg := 0x04000000, hentry := 0x80000000 }] }
    ([1, 0].head? = .some (if 1 = 1 ∧ 27 ≤ 26 then ((s.ctx 1).parent).getD 1 else 1) ∧ (s.ctx 1).parent = .some 0 ∧
      [1, 0].getLast? = .some 0 ∧ (s.ctx 0).parent = .none ∧ [1, 0].length ≤ 5) ∧
    ([0].head? = .some (if 1 = 1 ∧ 27 ≤ 27 then ((s.ctx 1).parent).getD 1 else 1)) ∧ s.routeTrap 1 1 26 = 1 ∧ s.routeTrap 1 1 27 = 0 ∧
    s.routeTrap 1 1 25 = 0 := by decide +kernel

/-! ### Memory -/

/-- Read-write boxes of four rows of 16 FP32 columns, 64 bytes apart: one on a multiple of 64, one that is not aligned and lies over
the end of a page, and one that is read-only. -/
def rowBox : BitVec 256 := 0#64 ++ 0x40#64 ++ 0x40010#64 ++ 0x01A0000000000100#64
def crossBox : BitVec 256 := 0#64 ++ 0x40#64 ++ 0x40010#64 ++ 0x01A0000000000FC4#64
def readBox : BitVec 256 := 0#64 ++ 0x40#64 ++ 0x40010#64 ++ 0x00A0000000000100#64
def chipBox : BitVec 256 := 0#64 ++ 0x40#64 ++ 0x40010#64 ++ 0x41A3000000000100#64

/-- A task of this level with s1 a path, s2 and s3 data, and b0 to b3 as above. -/
def memTask (level : Nat) (path : Word) (page : Bool := false) : State :=
  let s := small { regs path 5 6 with frame := .some (frame level [rowBox, crossBox, readBox, chipBox]) }
  { s with herds := s.herds.map fun h => { h with
      lmMarks := if page then [(0, 0)] else []
      cores := h.cores.map fun k => { k with xbuf := .some (0, List.replicate 4096 7) } } }

/-- The accesses of each size that the claims about loads and stores speak of, at path (3, 15) or (3, 0). -/
theorem witness_ScalarLoadsAndStores :
    (memTask 1 0x0003000F).src 1 0 = .ok 0x0003000F ∧ (memTask 1 0x0003000F).src2 2 1 = .ok (5, 0x0003000F) ∧
    (memTask 1 0x0003000F).box (0 : BitVec 4).toNat = .ok rowBox ∧
    AccessOk (memTask 1 0x0003000F) rowBox 0x0003000F (0 : BitVec 5).toInt 1 true false true 4 4 { space := .lm 0 0, addr := 0x1FC, count := 4 } ∧
    AccessOk (memTask 2 0x0003000F) rowBox 0x0003000F (0 : BitVec 5).toInt 2 false true true 1 1 { space := .hm 0, addr := 0x1FC, count := 1 } ∧
    (memTask 1 0).room 3 0 = .ok () ∧ (memTask 2 0).room 6 0 = .ok () ∧
    NoBadByte (memTask 2 0) { space := .hm 0, addr := 0x1FC, count := 4 } := by
  unfold AccessOk NoBadByte
  and_intros <;> first | rfl | decide +kernel

theorem witness_banks : BanksFree (memTask 1 0) { space := .lm 0 0, addr := 0x1FC, count := 4 } 4 [1] ∧
    BanksFree (memTask 2 0) { space := .hm 0, addr := 0x1FC, count := 4 } 64 [1, 2] :=
  ⟨trivial, by show ∀ t ∈ [1, 2], _ = true; decide +kernel⟩

theorem witness_RowLoadsAndStores :
    AccessOk (memTask 1 0x00030000) rowBox 0x00030000 (0 : BitVec 5).toInt 1 true false false 64 64 { space := .lm 0 0, addr := 0x1C0, count := 64 } ∧
    AccessOk (memTask 2 0x00030008) rowBox 0x00030008 0 2 false true false 64 1 { space := .hm 0, addr := 0x1E0, count := 32 } ∧
    (memTask 1 0).marked (.lm 0 0) (0x1C0 / 4096) = false ∧ (memTask 1 0).marked (.lm 0 0) ((0x1C0 + 63) / 4096) = false ∧
    (memTask 1 0).room 4 1 = .ok () ∧ (memTask 2 0).room 7 1 = .ok () ∧ (memTask 1 0).liveRow (7 : BitVec 3).toNat (memTask 1 0).R.rcur.toNat = .ok () ∧
    (0x1C0 % 4096 ≤ 4032 ∧ (memTask 1 0 true).marked (.lm 0 0) (0x1C0 / 4096) = true ∧ (memTask 1 0 true).me.xbusy ≤ (memTask 1 0 true).tick) ∧
    (memTask 1 0 true).me.xbuf = .some (0x1C0 / 4096, List.replicate 4096 7) ∧
    AccessOk (memTask 1 0 true) crossBox 0 (0 : BitVec 5).toInt 1 true false false 64 1 { space := .lm 0 0, addr := 0xFC4, count := 64 } ∧
    (4032 < 0xFC4 % 4096 ∧ (memTask 1 0 true).marked (.lm 0 0) (0xFC4 / 4096) = true) := by
  unfold AccessOk
  and_intros <;> first | rfl | decide +kernel

/-- For each trap of R196 an access that reaches it: an unbound handle; a read-only box and another level; a row past the last; a window
that leaves its row; a window that is not aligned. -/
theorem witness_AccessFaults :
    (memTask 1 0).box? (15 : BitVec 4).toNat = .none ∧ boxWrites readBox = false ∧ (memTask 2 0).level ≠ 1 ∧
    (boxReads rowBox = true ∧ boxBlocked rowBox = false ∧ (memTask 1 0).level = 1) ∧ inBox rowBox (pathRow 0x00040000) (pathCol 0x00040000 0) = false ∧
    inBox crossBox (pathRow 0x00030000) (pathCol 0x00030000 0) = true ∧
    (let odd : BitVec 256 := 0#64 ++ 0x40#64 ++ 0x4000F#64 ++ 0x01A3000000000100#64
     elemAddr odd 0 0 0 0 + runBytes (boxTile odd) (boxFmt odd) (boxExt odd 0) < elemAddr odd 0 0 0 13 + 4) ∧
    elemAddr crossBox 0 0 3 0 % 64 ≠ 0 := by and_intros <;> first | rfl | decide +kernel

/-- A core whose address table holds an advanced load of s4 at 0x1FC. -/
def advanced : State :=
  let s := memTask 1 0x0003000F
  { s with herds := s.herds.map fun h => { h with
      cores := h.cores.map fun k => { k with
        table := [{ dest := .scalar 4, addr := 0x1FC, width := 4, reach := [0x1FC, 0x1FD, 0x1FE, 0x1FF], bytes := 9 },
                  { dest := .tileRow 1 0, addr := 0x1C0, width := 64, reach := (List.range 64).map (· + 0x1C0), bytes := 9 }] } } }

theorem witness_SpeculativeLoads :
    advanced.src 1 0 = .ok 0x0003000F ∧ advanced.box (0 : BitVec 4).toNat = .ok rowBox ∧
    AccessOk advanced rowBox 0x0003000F (0 : BitVec 5).toInt 1 true false true 4 4 { space := .lm 0 0, addr := 0x1FC, count := 4 } ∧
    (advanced.room 3 0 = .ok () ∧ NoBadByte advanced { space := .lm 0 0, addr := 0x1FC, count := 4 }) ∧
    (advanced.me.table.find? fun z => z.dest = .scalar 5 && z.addr == 0x1FC && z.width == 4) = .none ∧
    ((advanced.me.table.find? fun z => z.dest = .scalar 4 && z.addr == 0x1FC && z.width == 4).isSome = true) ∧
    AccessOk (memTask 1 0x00030000 true) rowBox 0x00030000 (0 : BitVec 5).toInt 1 true false false 64 64 { space := .lm 0 0, addr := 0x1C0, count := 64 } ∧
    (memTask 1 0 true).marked (.lm 0 0) (0x1C0 / 4096) = true ∧ advanced.marked (.lm 0 0) (0x1C0 / 4096) = false ∧ advanced.room 4 1 = .ok () ∧
    (advanced.me.table.find? fun z => z.dest = .tileRow 2 0 && z.addr == 0x1C0 && z.width == 64) = .none ∧
    ((advanced.me.table.find? fun z => z.dest = .tileRow 1 0 && z.addr == 0x1C0 && z.width == 64).isSome = true) ∧
    inBox rowBox (pathRow 0x0003000F) (pathCol 0x0003000F (1 : BitVec 5).toInt) = false ∧
    inBox rowBox (pathRow 0x0003000F) (pathCol 0x0003000F (0 : BitVec 5).toInt) = true ∧ advanced.me.table.length ≤ 16 ∧
    (Dest.scalar 4 ≠ .scalar 0) := by
  unfold AccessOk NoBadByte
  and_intros <;> first | rfl | decide +kernel

theorem witness_Atomics :
    let s := memTask 2 0x0003000F
    s.reg (2 : BitVec 5).toNat = .ok 5 ∧ s.reg ((2 : BitVec 5).toNat + 1) = .ok 6 ∧ s.src 1 0 = .ok 0x0003000F ∧ s.box (0 : BitVec 4).toNat = .ok rowBox ∧
    AccessOk s rowBox 0x0003000F (0 : BitVec 5).toInt 2 true true true 4 4 { space := .hm 0, addr := 0x1FC, count := 4 } ∧ s.room 6 0 = .ok () ∧
    BanksFree s { space := .hm 0, addr := 0x1FC, count := 4 } 4 [s.tick + 1, s.tick + 2] ∧ NoBadByte s { space := .hm 0, addr := 0x1FC, count := 4 } := by
  unfold AccessOk NoBadByte
  refine ⟨rfl, rfl, rfl, rfl, by decide +kernel, rfl, ?_, rfl⟩
  show ∀ t ∈ [1, 2], _ = true
  decide +kernel

theorem witness_ScaleSyllables :
    (memTask 2 0x00030000).src 1 0 = .ok 0x00030000 ∧ (memTask 2 0x00030000).src2 1 2 = .ok (0x00030000, 5) ∧
    (memTask 2 0x00030000).box (0 : BitVec 4).toNat = .ok rowBox ∧ (memTask 3 0).level = 3 ∧
    AccessOk (memTask 2 0x00030000) rowBox 0x00030000 0 2 true false false 64 1 { space := .hm 0, addr := 0x1C0, count := 64 } ∧
    AccessOk (memTask 2 0x00030000) rowBox 0x00030000 0 (memTask 2 0x00030000).level false true false 64 1 { space := .hm 0, addr := 0x1C0, count := 64 } ∧
    (memTask 2 0).room 5 1 = .ok () := by
  unfold AccessOk
  and_intros <;> first | rfl | decide +kernel

/-- A device whose one herd is fresh but for its cores and its store has its memories in canonical form. -/
theorem canonical_one {s : State} {k : List Core} {w : List Word} (hd : s.dev = []) (hh : s.herds = [{ cores := k, store := w }]) (hk : s.kept = []) : s.Canonical := by
  have hx : Herd.Canonical { cores := k, store := w } :=
    ⟨⟨.nil, nofun⟩, fun m hm => by rw [List.eq_of_mem_replicate hm]; exact ⟨.nil, nofun⟩,
     fun w hw => by rw [List.eq_of_mem_replicate hw]; exact ⟨.nil, nofun⟩⟩
  refine ⟨?_, ?_, ?_⟩
  · rw [hd]; exact ⟨.nil, nofun⟩
  · rw [hh]; intro x h; rw [List.mem_singleton.1 h]; exact hx
  · rw [hk]; exact nofun

/-- A store that is due. -/
def storing : State :=
  { State.reset with tick := 7, herds := [{ cores := [{ stores := [{ due := 7, space := .hm 0, level := 2, bytes := [(5, 1), (6, 2)] }] }] }] }

theorem witness_StoresPerform :
    storing.Canonical ∧ storing.ev.a < storing.herds.length ∧ storing.ev.b < (storing.herd storing.ev.a).cores.length ∧
    ((storing.core storing.ev.a storing.ev.b).stores.find? fun y => decide (y.due ≤ storing.tick)) =
      .some { due := 7, space := .hm 0, level := 2, bytes := [(5, 1), (6, 2)] } ∧
    ([(5, (1 : Byte)), (6, 2)].map (·.1)).Nodup :=
  ⟨canonical_one (w := []) rfl rfl rfl, Nat.zero_lt_one, Nat.zero_lt_one, rfl, by decide⟩

theorem witness_StoresPerform_issue :
    (atBox 2 0x00030002).Placed ∧ storeLevel (.hmemStw 2 2 1 4) = .some 2 ∧ (atBox 2 0x00030002).cur.trapped = false ∧
    (atBox 2 0x00030002).cur.mustHold = false ∧
    ∃ t, exec (.hmemStw 2 2 1 4) (atBox 2 0x00030002) = .next t ∧ t.cur.trapped = false ∧ t.cur.mustHold = false :=
  ⟨placed_small _, rfl, rfl, rfl, _, rfl, by decide +kernel, by decide +kernel⟩

/-! ### The tile unit -/

theorem witness_TileSyllables :
    let s := two 5 0
    (if false then s.src 1 0 else .ok 0) = (.ok 0 : Res Word) ∧ (if true then s.src 1 0 else .ok 0) = .ok 5 ∧
    (let v : VDec := { op := .add false, d := 1, a := 2, s := true, b := 1, f := 3, w := true, q := false }
     s.firstDead v = .none ∧ s.room v.op.latency v.rowCount = .ok ()) ∧ s.Placed ∧ s.R.deadTraps = false := by
  and_intros <;> first | exact placed_small _ | rfl | decide +kernel

/-- With DM = 1 the operation of the witness above reads row 0 of tile 2 dead. -/
theorem witness_TileSyllables_dead :
    let s := small { regs 5 0 0 with sw := 2, deadT := List.replicate 8 1 }
    let v : VDec := { op := .add false, d := 1, a := 2, s := true, b := 1, f := 3, w := true, q := false }
    s.src 1 0 = .ok 5 ∧ s.firstDead v = .some (256 + 32 * 2 + 0) ∧ s.R.deadTraps = true := by decide +kernel

def tileOp : TileOp :=
  { dec := { op := .add false, d := 1, a := 2, f := 3, w := true, q := false }, start := 0, group := 7, seq := 0, guard := BitVec.allOnes 64
    bval := 0, rm := 0, interlocked := false, addr := 0, snap := [] }

theorem witness_TileSyllables_rows :
    let s : State := { State.reset with tick := 7, herds := [{ cores := [{ tile := .some tileOp }] }] }
    0 < s.herds.length ∧ 0 < (s.herd 0).cores.length ∧ (s.core 0 0).tile = .some tileOp ∧ tileOp.start + tileOp.group = s.tick ∧
      (tileOp.writes {}).length = 4 := by and_intros <;> first | rfl | decide +kernel

/-- The last element of a signed and of an unsigned format of 8 bits, and of one of 32 bits. -/
theorem witness_TileElements :
    (63 < 512 / (tileFmt 5).width ∧ tileFmt 5 = .int true (tileFmt 5).width) ∧ (63 < 512 / (tileFmt 6).width ∧ tileFmt 6 = .int false (tileFmt 6).width) ∧
    (15 < 512 / (tileFmt 3).width ∧ tileFmt 3 = .int true (tileFmt 3).width) := ⟨⟨by decide, rfl⟩, ⟨by decide, rfl⟩, by decide, rfl⟩

theorem witness_TileElements_floats :
    (tileFmt 0 = .flt .fp32 ∧ FloatFmt.fp32.flushes = true) ∧ (tileFmt 1 = .flt .bf16 ∧ FloatFmt.bf16.flushes = true ∧ FloatFmt.bf16.width = 16) ∧
    (tileFmt 2 = .flt .fp16 ∧ FloatFmt.fp16.flushes = true ∧ FloatFmt.fp16.width = 16) := ⟨⟨rfl, rfl⟩, ⟨rfl, rfl, rfl⟩, rfl, rfl, rfl⟩

/-- `tcvt` from INT8 to FP32 takes parts 0 to 3, and between formats of one width part 0 alone; `tquant` of all and of no elements;
`tscx` of the last row. -/
theorem witness_TileElements_parts :
    (3 < max (512 / (tileFmt 5).width) (512 / (tileFmt 0).width) / min (512 / (tileFmt 5).width) (512 / (tileFmt 0).width)) ∧
    (0 < max (512 / (tileFmt 1).width) (512 / (tileFmt 2).width) / min (512 / (tileFmt 1).width) (512 / (tileFmt 2).width)) ∧
    ({ a := 0 } : VIn).guard % 2 ^ 64 ≠ 0 ∧ ({ a := 0, guard := 0 } : VIn).guard % 2 ^ 64 = 0 ∧ ({ a := 0, r := 31 } : VIn).r < 32 := by
  decide

/-- A row of zeros holds no NaN and no infinity, and a row of ones holds NaNs. -/
theorem witness_TileElements_special :
    readFloat true .bf16 (lane 16 0 0) = .fin false 0 (-133) ∧ readFloat true .bf16 (lane 16 (2 ^ 512 - 1) 31) = .nan := by decide +kernel

/-! ### The array -/

/-- Boxes of HM by format code, element width aside: a dense FP32 accumulator image, a slot image of INT8, encoded groups in G1,
one activation row of E4M3, and dense weights of E4M3. -/
def accBox : BitVec 256 := 0#64 ++ 0x200#64 ++ 0x100080#64 ++ 0x01A0000000000000#64
def slotBox : BitVec 256 := 0#64 ++ 0x200#64 ++ 0x610200#64 ++ 0x01AA000000000000#64
def encBox : BitVec 256 := 0#64 ++ 0x200#64 ++ 0x100080#64 ++ 0x01B8000000200000#64
def actBox : BitVec 256 := 0#64 ++ 0#64 ++ 0x80#64 ++ 0x0183000000001000#64
def denseBox : BitVec 256 := 0#64 ++ 0x200#64 ++ 0x100080#64 ++ 0x01A3000000002000#64

/-- A herd task with the data box in b1, the weight box in b2 and the activations in b3, one column and one group, and an open lease. -/
def arrayTask (data : BitVec 256) (leases : List Lease := [{ isOpen := true, v := true }, {}, {}, {}]) : State :=
  let s := small { regs 0 20 0 with frame := .some (frame 2 [0, data, encBox, actBox]), mgeo := 0x32101100 }
  { s with herds := s.herds.map fun h => { h with
      array := { ws := [{ fmtb := 0x18, ng := 1 }, {}], leases := leases } } }

theorem arrayFree_of {s : State} {c : ArrCmd} {last : List Nat} (h : s.leaseOk last = .ok ()) (g : s.arrayClash c.touches = false) :
    ArrayFree s c last false false false := ⟨h, rfl, g, rfl, rfl⟩

theorem witness_ArrayState :
    (two 15 0).src 1 0 = .ok 15 ∧ (two 15 0x770).src2 1 2 = .ok (15, 0x770) ∧ ((15 : Word).toNat < 16 ∧ 16 ≤ (16 : Word).toNat) ∧
    ((255 : Word).toNat < 256 ∧ 256 ≤ (256 : Word).toNat ∧ 0x77F#32 &&& 0xFFFFF880#32 = 0 ∧ 0x80#32 &&& 0xFFFFF880#32 ≠ 0) ∧
    ((arrayTask accBox).leaseOk [(arrayTask accBox).tick] = .ok () ∧ (arrayTask accBox [{}, {}, {}, {}]).leaseOk [0] ≠ .ok ()) ∧
    (0 < ((arrayTask accBox).herd 0).array.acc.length ∧ 3 < ((arrayTask accBox).herd 0).array.leases.length) ∧
    ((3 : Word).toNat < 4 ∧ 4 ≤ (4 : Word).toNat) ∧ (arrayTask accBox).leaseOk [] = .ok () ∧ (arrayTask accBox).room 4 32 = .ok () ∧
    (∃ l, (arrayTask accBox).arr.leaseAt ((arrayTask accBox).leaseCycle 0) = .some l ∧ l.core.toNat = 0) := by
  and_intros <;> first | rfl | decide

theorem witness_ArrayState_placed : (two 3 0).Placed ∧ (two 3 0).src 1 0 = .ok 3 := ⟨placed_small _, rfl⟩

/-- Entry 1 may take a window after that of entry 0; a window that ends before it starts may not. -/
theorem witness_ArrayState_lease :
    LeaseFree (arrayTask accBox [{ fin := 9, start := 0, v := true }, {}, {}, {}]) 1 { fin := 20, start := 10, v := true } ∧
    ¬ LeaseFree (arrayTask accBox) 1 { fin := 9, start := 10, v := true } := by
  refine ⟨⟨?_, by decide +kernel, by decide +kernel, nofun⟩, fun h => absurd (h.ordered rfl rfl) (by decide +kernel)⟩
  intro x hx
  obtain rfl := Option.some.inj (hx.symm.trans (show _ = some { fin := 9, start := 0, v := true } from rfl))
  rfl

theorem witness_ArrayState_read :
    let p : Pend := { due := 3, seq := 4, dest := .tileRow 1 31 }
    let s := small { regs 0 0 0 with pend := [p] }
    0 < s.herds.length ∧ 0 < (s.herd 0).cores.length ∧ p ∈ (s.regs 0 0).pend ∧ p.seq = 4 ∧ p.dest = .tileRow 1 31 ∧ 3 < 4 ∧
      ((s.herd 0).array.acc.getD 3 []).length = 2048 := by and_intros <;> decide +kernel

theorem witness_ArrayCommands_mrun :
    let s := arrayTask accBox
    let c := { s.newArr (.mrun 0 0 false) (s.tick + 14) 0 actBox 0 with q := 1, fmtb := 0x18 }
    s.Placed ∧ s.level = 2 ∧ s.src 1 0 = .ok 0 ∧ s.box? (geoAh s.R.mgeo) = .some actBox ∧ boxReads actBox = true ∧ boxTile actBox = false ∧
    isActivation (boxCode actBox) = true ∧ (s.slotAhead 0).1 = 0x18 ∧ max (activationCost (boxCode actBox)) (weightCost 0x18) = 1 ∧
    1 ≤ geoNgrp s.R.mgeo ∧ geoNgrp s.R.mgeo ≤ 8 ∧ geoNgrp s.R.mgeo ≤ slotGroups 0x18 ∧ geoKfirst s.R.mgeo + geoNgrp s.R.mgeo ≤ (s.slotAhead 0).2 ∧
    inBox actBox (pathRow 0) (pathCol 0 0) = true ∧ (pathCol 0 0).toNat % 32 = 0 ∧ s.arr.writerOf 0 s.tick = .none ∧
    (c.breaksBankRule = false ∧ (s.arr.cmds.any fun k => k.holdsRun s.tick) = false) ∧
    (s.leaseOk [s.tick + 14] = .ok () ∧ s.arrayClash c.touches = false) := by
  and_intros <;> first | exact Nat.zero_lt_one | decide +kernel

theorem witness_ArrayCommands_mload :
    let s := arrayTask accBox
    let reads := loadReads encBox 0 1 1
    let fin := s.tick + (reads.foldl (fun m p => max m p.1) 1) + 2
    s.box? (geoWh s.R.mgeo) = .some encBox ∧ boxReads encBox = true ∧ boxTile encBox = false ∧ isEncoded (boxCode encBox) = true ∧
    countsOk (geoNcol s.R.mgeo) (geoNgrp s.R.mgeo) (slotGroups (boxCode encBox)) = true ∧ groupsFit encBox (geoWpath s.R.mgeo) 1 1 = true ∧
    (reads.any fun p => decide (p.2.2.1 < 2 ^ 21)) = false ∧ (s.arr.cmds.any fun k => k.readsSlot 0 (s.tick + 3)) = false ∧
    (s.leaseOk [fin] = .ok () ∧ s.arrayClash (s.newArr (.mload 0) fin 0 encBox 0).touches = false) := by
  and_intros <;> decide +kernel

theorem witness_ArrayCommands_moves :
    (let s := arrayTask accBox
     s.box? (geoDh s.R.mgeo) = .some accBox ∧ boxWrites accBox = true ∧ boxReads accBox = true ∧ boxCode accBox = 0 ∧
       blockFits accBox (geoDpath s.R.mgeo) 16 128 = true ∧ s.leaseOk [] = .ok () ∧ s.leaseOk [s.tick + 20] = .ok () ∧
       s.arrayClash (s.newArr (.spillAcc 0) (s.tick + 18) 0 accBox 0).touches = false ∧
       s.arrayClash (s.newArr (.fillAcc 0) (s.tick + 20) 0 accBox 0).touches = false) ∧
    (let s := arrayTask slotBox
     s.box? (geoDh s.R.mgeo) = .some slotBox ∧ boxWrites slotBox = true ∧ boxReads slotBox = true ∧ boxCode slotBox = 10 ∧
       blockFits slotBox (geoDpath s.R.mgeo) 97 512 = true ∧ s.leaseOk [s.tick + 101] = .ok () ∧
       s.arrayClash (s.newArr (.spillSlot 0) (s.tick + 99) 0 slotBox 0).touches = false ∧
       s.arrayClash (s.newArr (.fillSlot 0) (s.tick + 101) 0 slotBox 0).touches = false) := by
  and_intros <;> decide +kernel

theorem witness_ArrayCommands_encode :
    let s := arrayTask denseBox
    let c := s.newArr (.menc 20 false) (s.tick + 5) 0 denseBox encBox
    let k := s.newArr (.mcomp 20) (s.tick + 5) 0 denseBox denseBox
    s.src 2 0 = .ok 20 ∧ (32 : Word).toNat ≤ 32 ∧ s.box? (geoDh s.R.mgeo) = .some denseBox ∧ boxReads denseBox = true ∧ boxTile denseBox = false ∧
    isDenseWeight (boxCode denseBox) = true ∧ groupsFit denseBox 0 1 1 = true ∧ s.box? (geoWh s.R.mgeo) = .some encBox ∧ boxWrites encBox = true ∧
    isEncoded (boxCode encBox) = true ∧ groupsFit encBox 0 1 1 = true ∧ (c.encodeClash = false ∧ s.arrayClash c.touches = false) ∧
    ((20 : Word) ≠ 0 ∧ boxWrites denseBox = true ∧ boxCode denseBox ≠ 15 ∧ countsOk 1 1 8 = true) ∧
    (k.encodeClash = false ∧ s.arrayClash k.touches = false ∧ s.leaseOk [] = .ok ()) := by
  and_intros <;> decide +kernel

/-! ### Walkers, calls, links, contexts -/

/-- A chip task in exposed or interlocked mode with s1 and s2, these boxes, and an open group of one sibling on herd 0 whose one
argument is the accumulator box; geometry slot 0 takes 32 columns of one row. -/
def chip (x y : Word) (boxes : List (BitVec 256)) (interlocked : Bool := false) : State :=
  let s := small { regs x y 9 with
    frame := .some (frame 3 boxes), group := [5], sw := if interlocked then 1 else 0
    gm := { e0 := 32, e1 := 1, e2 := 1, e3 := 1 } :: List.replicate 7 {} }
  { s with
    nextId := 6
    calls := [{ id := 5, ctx := 0, herd := 0, core := 0, sib := 0, level := 2, task := 0, image := 0, target := 0, cores := [], entry := 0
                suspends := false, params := [], args := [{ own := 0, ownBox := accBox, geo := {}, childBox := accBox }], state := .running, left := [] }] }

def theCall : Call := (chip 0 0 []).calls.headD
  { id := 0, ctx := 0, herd := 0, core := 0, sib := 0, level := 2, task := 0, image := 0, target := 0, cores := [], entry := 0
    suspends := false, params := [], args := [], left := [] }

theorem witness_WalkerCopies :
    CopyReady (chip 0 0 [accBox]) .copy 0 0 0 accBox [(theCall, accBox)] ∧ CopyReady (chip 0x10000 0 [accBox]) .mcast 0x10000 0 0 accBox [(theCall, accBox)] ∧
    CopyReady (chip 0 0 [accBox]) .gather 0 0 0 accBox [(theCall, accBox)] ∧ CopyReady (chip 0x100 0 [accBox]) .scatter 0x100 0 0 accBox [(theCall, accBox)] ∧
    CopyReady (chip 0x100 0 [accBox]) .copy 0x100 0 0 accBox [(theCall, accBox)] := by
  refine ⟨⟨?_, ?_, ?_, ?_, ?_, ?_, ?_, ?_, ?_, ?_, ?_, ?_, ?_⟩,
    ⟨?_, ?_, ?_, ?_, ?_, ?_, ?_, ?_, ?_, ?_, ?_, ?_, ?_⟩,
    ⟨?_, ?_, ?_, ?_, ?_, ?_, ?_, ?_, ?_, ?_, ?_, ?_, ?_⟩,
    ⟨?_, ?_, ?_, ?_, ?_, ?_, ?_, ?_, ?_, ?_, ?_, ?_, ?_⟩,
    ⟨?_, ?_, ?_, ?_, ?_, ?_, ?_, ?_, ?_, ?_, ?_, ?_, ?_⟩⟩ <;> decide +kernel

/-- Without a bound, and with one in each mode. -/
theorem witness_WalkerCopies_bound :
    (chip 0 0 [accBox]).src2 1 2 = .ok (0, 0) ∧ ((chip 0 64 [accBox]).src2 1 2 = .ok (0, 64) ∧ (64 : Word) ≠ 0) ∧
    (chip 0 64 [accBox]).interlocked = false ∧ (chip 0 64 [accBox] true).interlocked = true := by and_intros <;> decide +kernel

/-- The last perform of a schedule made in cycle 0; none where the walk refuses it. -/
def promised (q : Except Refused Plan) : Option Nat := q.toOption.map (·.promise 0)

/-- A copy's promise, above a bound of 64 and not above one of 161; the root's refused where its box does not agree with an aperture, a
child's by a walk that finds no table. Neither meets a view. -/
theorem witness_WalkerCopies_schedule :
    let s := chip 0 64 [accBox]
    let root : State := { s with apertures := s.apertures.set 0 (.some { vbase := 0, vlen := 4096, sbase := 0, xf := 1, param0 := 0, param1 := 0 }) }
    let child : State := { s with ctxs := s.ctxs.map fun x => { x with parent := .some 1 } }
    let q (s : State) := (s.copySchedule .copy 0 0 0 0 accBox [(theCall, accBox)]).2
    (promised (q s) = .some 161 ∧ (64 : Word).toNat < 161) ∧ (promised (q root) = .none ∧ root.isRoot 0 = true) ∧
    (promised (q child) = .none ∧ child.isRoot 0 = false) ∧ s.untranslated = true ∧ s.apertureOf accBox = .none := by
  and_intros <;> decide +kernel

/-- Both arms of `State.plainCopy`: the chip task of the root, and a herd task with no marked page. -/
theorem witness_WalkerCopies_plain :
    (chip 0 0 [accBox]).plainCopy false accBox [(theCall, accBox)] ∧ (small (regs 0 0 0)).plainCopy false accBox [(theCall, accBox)] := by
  have h : (chip 0 0 [accBox]).apertureOf accBox = .none := by decide +kernel
  refine ⟨.inr ⟨by decide +kernel, by rw [h]; nofun⟩, .inl ⟨by decide +kernel, ?_⟩⟩
  intro p _ n
  rfl

/-- Level-3 boxes: a row of 512 INT16, one of 16 INT32, and four that `wsnap` may use for one block. -/
def tabBox : BitVec 256 := 0#64 ++ 0#64 ++ 0x200#64 ++ 0x4184000000000000#64
def wordBox : BitVec 256 := 0#64 ++ 0#64 ++ 0x10#64 ++ 0x4183000000000000#64
def dataBox : BitVec 256 := 0#64 ++ 0#64 ++ 0x4000#64 ++ 0x4183000000010000#64

theorem witness_WalkerOthers_tables :
    (chip 0 512 [tabBox]).src2 1 2 = .ok (0, 512) ∧ (chip 0 512 [tabBox]).box ((0 : Word).toNat % 16) = .ok tabBox ∧ boxReads tabBox = true ∧ boxIsI16 tabBox = true ∧
    (chip 0 512 [tabBox]).walkerFull 0 = false ∧ ((512 : Word).toNat ≤ 512 ∧ 512 < (513 : Word).toNat ∧ (15 : Word).toNat < 16 ∧ 16 ≤ (16 : Word).toNat) ∧
    subBoxOk tabBox ((chip 0 512 [tabBox]).R.gm.getD (0 : BitVec 3).toNat {}).origins [512, 1, 1, 1] = true := by and_intros <;> decide +kernel

theorem witness_WalkerOthers_wprom :
    let c : Cmd := { id := 7, kind := .copy, ctx := 0, herd := 0, core := 0, walker := 0, addr := 0, interlocked := true, issue := 0, promise := 9 }
    let s : State := { small { regs 0 0 0 with issued := [7] } with cmds := [c] }
    s.room 2 0 = .ok () ∧ s.R.issued[(0 : BitVec 6).toNat]? = .some 7 ∧ s.cmd? 7 = .some c ∧ s.R.issued[(63 : BitVec 6).toNat]? = .none := by
  decide +kernel

theorem witness_WalkerOthers_wamo :
    let s := chip 0x00000001 7 [wordBox]
    ((0 : BitVec 5).toNat = 0 ∧ 23 < (24 : BitVec 5).toNat ∧ (23 : BitVec 5).toNat ≤ 23 ∧ 22 < (23 : BitVec 5).toNat ∧ (22 : BitVec 5).toNat ≤ 22) ∧
    s.reg (2 : BitVec 5).toNat = .ok 7 ∧ s.reg ((2 : BitVec 5).toNat + 1) = .ok 9 ∧ s.src 1 0 = .ok 1 ∧ s.box (0 : BitVec 4).toNat = .ok wordBox ∧
    s.level = 3 ∧ boxAcc wordBox = 3 ∧ (boxIsF32 wordBox || boxIsI32 wordBox) = true ∧ pathAddr wordBox 1 = .some (4, 64) ∧ 4 % 4 = 0 ∧
    s.walkerFull s.cur.herd = false := by and_intros <;> decide +kernel

/-- The data box and the word box seen through aperture 0, and the chip task with a view there. -/
def dataSeen : BitVec 256 := 0x4000000000000000#64 ++ 0#64 ++ 0x4000#64 ++ 0x4183000000010000#64
def wordSeen : BitVec 256 := 0x4000000000000000#64 ++ 0#64 ++ 0x10#64 ++ 0x4183000000000000#64
def snapSeen (xf : Nat) : State :=
  let s := chip 0x3210 0 []
  { s with apertures := s.apertures.set 0 (.some { vbase := 0, vlen := 4096, sbase := 0, xf := xf, param0 := 0, param1 := 0 }) }

theorem witness_WalkerOthers_wsnap :
    let s := chip 0x3210 0 [dataBox, wordBox, wordBox, dataBox]
    let u := chip 0x3210 0 [dataBox, dataBox, dataBox, dataBox]
    s.src2 1 2 = .ok (0x3210, 0) ∧ ((0x3210 : Word).toNat < 2 ^ 16 ∧ 2 ^ 16 ≤ (0x10000 : Word).toNat) ∧
    (s.box (0x3210 % 16) = .ok dataBox ∧ s.box (0x3210 / 16 % 16) = .ok wordBox ∧ s.box (0x3210 / 256 % 16) = .ok wordBox ∧
      s.box (0x3210 / 4096 % 16) = .ok dataBox) ∧
    (s.level = 3 ∧ boxReads dataBox = true ∧ boxAcc wordBox = 3 ∧ boxWrites wordBox = true ∧ boxWrites dataBox = true ∧ boxIsI32 wordBox = true) ∧
    (boxDense dataBox = true ∧ boxDense wordBox = true) ∧ snapBlocks dataBox = 1 ∧ 16 * 1 ≤ denseBytes wordBox ∧ 4 * (1 + 1) ≤ denseBytes wordBox ∧
    65536 * 1 ≤ denseBytes dataBox ∧ denseBytes wordBox < 65536 * 1 ∧
    (s.apertureOf wordBox = .none ∧ s.apertureOf dataBox = .none) ∧ ((snapSeen 1).apertureOf dataSeen).any (·.xf == 1) = true ∧
    ((snapSeen 3).apertureOf wordSeen).any (·.xf == 3) = true ∧ u.src2 1 2 = .ok (0x3210, 0) ∧ s.walkerFull s.cur.herd = false ∧
    ¬ boxReads 0 = true ∧ ¬ boxDense (0#64 ++ 0x80#64 ++ 0x20010#64 ++ 0x41A3000000000000#64) = true := by and_intros <;> decide +kernel

/-- A chip task that calls task 1 of its image on herd 0, with one argument; the child declares that box read-write. -/
def caller (word : Word) (interlocked : Bool := false) : State :=
  let s := small { regs 0 word 9 with
    frame := .some (frame 3 [accBox]), sw := if interlocked then 1 else 0
    gm := { e0 := 32, e1 := 1, e2 := 1, e3 := 1 } :: List.replicate 7 {} }
  { s with
    cur := { s.cur with core := 0 }
    images := [{ id := 0, code := [], root := 0
                 tasks := [{ level := 3, emask := 0, nparam := 0, entries := [], boxes := [] }, { level := 2, emask := 1, nparam := 2, entries := [0], boxes := [accBox] }] }] }

theorem witness_CallsAndReturns_wcall :
    CallReady (caller 1) 0 1 1 (frame 3 [accBox]) { level := 2, emask := 1, nparam := 2, entries := [0], boxes := [accBox] } 0 [0] [accBox] := by
  refine ⟨?_, ?_, ?_, ?_, ?_, ?_, ?_, ?_, ?_, ?_, ?_, ?_, ?_, ?_, ?_, ?_⟩ <;> decide +kernel

/-- The promise of a call's copy of one row, above 16 cycles and below 16 × 11. -/
theorem witness_CallsAndReturns_schedule :
    let v := (caller 1).newId.2
    let t : Task := { level := 2, emask := 1, nparam := 2, entries := [0], boxes := [accBox] }
    let k := (caller 1).newCall (frame 3 [accBox]) t 1 0 (((caller 1).callArgs t [0] [accBox]).map (·.2.2))
    promised (v.callSchedule k (v.callCmd k 0)).2 = .some 161 ∧ 16 * 1 < 161 ∧ 161 ≤ 16 * 11 := by decide +kernel

theorem witness_CallsAndReturns_bound :
    (caller 1).Placed ∧ (caller 1).src2 0 2 = .ok (0, 1) ∧ (1 : Word).toNat / 2 ^ 17 = 0 ∧ (0x00020001 : Word).toNat / 2 ^ 17 ≠ 0 ∧
    (caller 0x00020001).interlocked = false ∧ (caller 0x00020001 true).interlocked = true ∧ (caller 0x00020001).src2 0 2 = .ok (0, 0x00020001) := by
  refine ⟨⟨Nat.zero_lt_one, Nat.zero_lt_one⟩, ?_⟩
  and_intros <;> decide +kernel

/-- A chip task, a child task, and a core between frames may return; a task with an open group may not. -/
theorem witness_CallsAndReturns_wret :
    (caller 0).mayReturn = .ok () ∧ (caller 0).R.frame = .some (frame 3 [accBox]) ∧ (frame 3 [accBox]).call = .none ∧ (frame 3 [accBox]).level = 3 ∧
    (chip 0 0 []).mayReturn ≠ .ok () ∧ (small {}).mayReturn = .ok () ∧ (small {}).R.frame = .none ∧
    (let f : Frame := { frame 2 [] with call := .some 5 }
     let s : State := { small { frame := .some f } with calls := [theCall] }
     s.mayReturn = .ok () ∧ s.R.frame = .some f ∧ f.call ≠ .none ∧ s.call? 5 = .some theCall) := by and_intros <;> decide +kernel

/-- A port that is up, paired with the root of another device, in a group whose count stands at 0. -/
def linked (x y : Word) (up : Bool := true) : State :=
  let s := small { regs x y 9 with frame := .some (frame 2 [accBox]), gm := { e0 := 32, e1 := 1, e2 := 1, e3 := 1 } :: List.replicate 7 {} }
  { s with
    ports := s.ports.set 3 { up := up, lat := 40, offValid := true, pairs := .some (0, 1) :: List.replicate 15 .none }
    plat := { s.plat with cfg := { s.plat.cfg with group := 1, porten := 8 } } }

/-- The nearest departure that R350 allows (d = 55, the first multiple of 5 from 51 on), and 54 and 50, which trap. -/
theorem witness_LinkSyllables_send :
    let g : Geo := { e0 := 32, e1 := 1, e2 := 1, e3 := 1 }
    ((linked 55 0x100).src2 1 2 = .ok (55, 0x100) ∧ 24 ≤ (24 : BitVec 5).toNat ∧ (23 : BitVec 5).toNat < 24) ∧
    (0x100#32 &&& 0xFF800080#32 = 0 ∧ (linked 55 0x100).linkBox 0x100 false = .ok (accBox, g) ∧ (linked 55 0x100).linkBox 0x100 true = .ok (accBox, g)) ∧
    ((linked 55 0x100).linkUp 3 0 = true ∧ (linked 55 0x100 false).linkUp 3 0 = false) ∧
    ((linked 55 0x100).interlocked = false ∧ ((linked 55 0x100).gcyc + (linked 55 0x100).ahead 55) % 5 = 0 ∧ 51 ≤ (linked 55 0x100).ahead 55 ∧
      (linked 55 0x100).ahead 55 ≤ 2 ^ 20 ∧ ((linked 54 0x100).gcyc + (linked 54 0x100).ahead 54) % 5 ≠ 0 ∧ (linked 50 0x100).ahead 50 < 51) ∧
    ((linked 55 0x100).slotsOk 3 0 ((List.range 1).map fun f => 0 + 55 + 5 * f) = true ∧ (linked 55 0x100).walkerFull 0 = false) := by
  and_intros <;> decide +kernel

theorem witness_LinkSyllables_receive :
    (0x00FF0100#32 &&& 0xFF000080#32 = 0) ∧ (1 ≤ (linked 1 0x100).ahead 1 ∧ (linked 0 0x100).ahead 0 = 0 ∧ 2 ^ 20 < (linked 0x100001 0).ahead 0x100001) ∧
    (linked 1 0x100).cur.herd < (linked 1 0x100).herds.length ∧
    (((linked 1 0x100).herd 0).windows.filter fun v => v.ctx == 0) = [] ∧
    (let w : Window := { id := 1, ctx := 0, core := 0, port := 3, tag := 1, tol := 0, expect := 9, flits := 1, close := 20, handle := 0, slot := 0, geo := {}, beats := [] }
     ∃ v ∈ [w], v.port = (3 : BitVec 5).toNat ∧ v.tag = (0x100 : Word).toNat / 256 % 256) := by and_intros <;> decide +kernel

theorem witness_LinkSyllables_counts :
    ((linked 0 0).room 2 0 = .ok () ∧ ((linked 0 0).port 3).offValid = true ∧ (linked 0 0).gcycSet = true ∧ ((linked 0 0).port 4).offValid = false) ∧
    (((0 : BitVec 1) = 0 ∧ (1 : BitVec 1) = 1) ∧ (linked 16 0).src 1 0 = .ok 16) ∧
    ((linked 16 0).R.ctx = .some 0 ∧ 16 ≤ (linked 16 0).ahead 16 ∧ (linked 65535 0).ahead 65535 ≤ 65535 ∧ (linked 15 0).ahead 15 < 16 ∧
      65535 < (linked 65536 0).ahead 65536 ∧ (linked 16 0).adjust = .none) ∧
    ((small { frame := .some { frame 3 [] with ctx := 1 } }).R.ctx ≠ .some 0) ∧
    (0x800F0201#32 &&& 0x7FF00000#32 = 0 ∧ (0x800F0201#32).getLsbD 31 = true ∧ 0x00100000#32 &&& 0x7FF00000#32 ≠ 0) ∧
    (∃ k q, k ≠ 15 ∧ ((linked 0 0).port 3).pairs[k]? = .some (.some q) ∧ q.1 = (0x800F0100 : Word).toNat % 256) ∧
    ¬ (∃ k q, k ≠ 15 ∧ ((linked 0 0).port 4).pairs[k]? = .some (.some q) ∧ q.1 = (0x800F0201 : Word).toNat % 256) := by
  refine ⟨by decide +kernel, by decide +kernel, by decide +kernel, by decide +kernel, by decide +kernel, ⟨0, (0, 1), by decide, rfl, rfl⟩, ?_⟩
  rintro ⟨k, q, -, h, -⟩
  have : ((linked 0 0).port 4).pairs = List.replicate 16 .none := rfl
  rw [this, List.getElem?_replicate] at h
  split at h <;> simp at h

/-! ### Contexts, mailbox, events -/

/-- A chip task of the root with s1 and s2 and its boxes; context 1 is a child of the root and holds herd 1, context 2 a child of 1. -/
def family (x y : Word) (boxes : List (BitVec 256)) (own : Nat := 0) : State :=
  let f : Frame := frame 3 boxes
  let s := small { regs x y 9 with frame := .some { f with ctx := own } }
  { s with
    ctxs := [{ Ctx.root {} with herds := [0] }, { num := 1, parent := .some 0, depth := 1, herds := [1] },
             { num := 2, parent := .some 1, depth := 2, herds := [], life := .away, saved := true },
             { num := 3, parent := .some 0, depth := 1, herds := [2], failed := true }]
    plat := { s.plat with failedHerds := [2], spareUsed := [true, true] } }

theorem witness_ContextAndApertureSyllables_descriptor :
    (family 0 0 [wordBox]).Placed ∧ (family 0 0 [wordBox]).src 1 0 = .ok 0 ∧
    ((0 : BitVec 5).toNat = 0 ∧ 23 < (24 : BitVec 5).toNat ∧ 1 ≤ (1 : BitVec 5).toNat ∧ (23 : BitVec 5).toNat ≤ 23) ∧
    DescriptorReady (family 0 0 [wordBox]) 0 0 64 64 wordBox 0 64 ∧ DescriptorReady (family 0 8 [wordBox]) 8 0 32 32 wordBox 32 64 := by
  refine ⟨⟨Nat.zero_lt_one, Nat.zero_lt_one⟩, ?_, ?_, ⟨?_, ?_, ?_, ?_, ?_, ?_, ?_, ?_, ?_, ?_⟩, ⟨?_, ?_, ?_, ?_, ?_, ?_, ?_, ?_, ?_, ?_⟩⟩ <;> decide +kernel

theorem witness_ContextAndApertureSyllables_cxgive :
    (family 256 0 [wordBox]).src2 1 2 = .ok (256, 0) ∧ (256 ≤ (256 : Word).toNat ∧ (255 : Word).toNat < 256) ∧
    (family 1 0 [wordBox]).src2 1 2 = .ok (1, 0) ∧ (family 1 0 [wordBox]).isChild (family 1 0 [wordBox]).mine 1 = true ∧
    (family 2 0 [wordBox]).isChild (family 2 0 [wordBox]).mine 2 = false := by and_intros <;> decide +kernel

theorem witness_ContextAndApertureSyllables_cxrev_cxrun :
    let s := family 1 0 [wordBox]
    s.src 1 0 = .ok 1 ∧ s.ctxFree = .ok () ∧ s.isChild s.mine 1 = true ∧ s.isChild s.mine 2 = false ∧ s.isDescendant s.mine 2 = true ∧
    s.isDescendant s.mine 4 = false ∧ (s.ctx 3).failed = true ∧ s.isDescendant s.mine 3 = true ∧
    ((s.ctx 1).failed = false ∧ (s.ctx 1).holdsHerds = true) ∧ ((s.ctx 2).failed = false ∧ (s.ctx 2).holdsHerds = false) ∧
    (s.kept = [] ∧ (s.ctx 2).life ≠ .saving) ∧
    (let u : State := { s with kept := [{ ctx := 2, vcyc := 0, tick := 0, herds := [{ cores := [{ hold := .reflected }] }], cmds := [], calls := [], agenda := [] }] }
     u.src 1 0 = .ok 1 ∧ ∃ k ∈ u.kept, k.ctx = 2 ∧ ∃ y ∈ k.herds, ∃ q ∈ y.cores, q.hold = .reflected) := by
  and_intros <;> decide +kernel

/-- A child in its save, a core of whose herd a reflected trap has stopped, and one whose core runs. -/
theorem witness_ContextAndApertureSyllables_saving :
    let s (h : Hold) : State := { family 1 0 [wordBox] with
      herds := [{ cores := [{ r := { regs 1 0 9 with frame := .some (frame 3 [wordBox]) } }] }, { cores := [{ hold := h }] }]
      ctxs := [{ Ctx.root {} with herds := [0] }, { num := 1, parent := .some 0, depth := 1, herds := [1], life := .saving }] }
    (s .reflected).src 1 0 = .ok 1 ∧ (s .reflected).isDescendant (s .reflected).mine 1 = true ∧ ((s .reflected).ctx 1).holdsHerds = false ∧ ((s .reflected).ctx 1).failed = false ∧
    ((s .reflected).ctx 1).life = .saving ∧ 1 ∈ (s .reflected).ownHerds 1 ∧ (∃ q ∈ ((s .reflected).herd 1).cores, q.hold = .reflected) ∧
    ∀ h ∈ (s .none).ownHerds 1, ∀ q ∈ ((s .none).herd h).cores, q.hold ≠ .reflected := by
  and_intros <;> decide +kernel

theorem witness_ContextAndApertureSyllables_cxsave_cxload :
    let s := family 1 0 [wordBox]
    let u := family 1 0 [wordBox] 1
    s.src 1 0 = .ok 1 ∧ s.ctxFree = .ok () ∧ (s.isChild s.mine 1 = true ∧ (s.ctx 1).saved = false) ∧
    (u.isChild u.mine 2 = true ∧ (u.ctx 2).saved = true ∧ u.ctxFree = .ok ()) ∧
    ((∃ h ∈ (s.ctx 3).herds, s.unusable h = true) ∧ s.isChild s.mine 3 = true) ∧ ∀ h ∈ (s.ctx 1).herds, s.unusable h = false := by
  and_intros <;> decide +kernel

theorem witness_ContextAndApertureSyllables_cxpend :
    let s := family 0x106 0 []
    s.src 1 0 = .ok 0x106 ∧ s.ctxFree = .ok () ∧ s.room 2 0 = .ok () ∧
    (0x106#32 &&& 0xFFFFFEF8#32 = 0 ∧ (0x106#32).toNat % 8 = 6 ∧ (0x106#32).getLsbD 8 = true) ∧ (0x105#32).toNat % 8 < 6 ∧
    (0x007#32).toNat % 8 = 7 ∧ 0x008#32 &&& 0xFFFFFEF8#32 ≠ 0 := by and_intros <;> decide +kernel

theorem witness_ContextAndApertureSyllables_apertures :
    let s := family 8 63 [wordBox]
    (family 0 0 [wordBox] 1).R.ctx ≠ .some 0 ∧ s.R.ctx = .some 0 ∧ s.reg (2 : BitVec 5).toNat = .ok 63 ∧ s.src 1 0 = .ok 8 ∧
    s.box (0 : BitVec 4).toNat = .ok wordBox ∧ s.level = 3 ∧ boxReads wordBox = true ∧ boxIsI32 wordBox = true ∧
    pathAddr wordBox 8 = .some (32, 64) ∧ (32 % 32 = 0 ∧ 32 + 32 ≤ 64) ∧ s.apertureBusy ((63 : Word).toNat % 64) = false ∧
    s.walkerFull s.cur.herd = false ∧ s.room 2 0 = .ok () ∧ s.apertureBusy ((8 : Word).toNat % 64) = false := by
  and_intros <;> decide +kernel

/-- An instruction that answers with a next state, in which nothing has trapped and nothing must wait. -/
def settles (i : Instr) (s : State) : Bool :=
  match exec i s with
  | .next t => !t.cur.trapped && !t.cur.mustHold
  | _ => false

theorem witness_CommandsWriteLater :
    (family 0x106 0 []).Placed ∧ (family 0x106 0 []).cur.trapped = false ∧ (family 0x106 0 []).cur.mustHold = false ∧
    settles (.cxpend 5 1) (family 0x106 0 []) = true := by
  refine ⟨⟨Nat.zero_lt_one, Nat.zero_lt_one⟩, ?_, ?_, ?_⟩ <;> decide +kernel

/-- A request of source 5 of node 1, bound to the root, that the engine carries out; queue 1 is configured, queue 2 has a run. -/
def mailed (q : MailReq) (pend : BitVec 16 := 0) (refused : Nat := 0) : State :=
  { small {} with
    ctxs := [{ Ctx.root {} with queues := ({} : Queue) :: { state := 1 } :: { state := 2 } :: List.replicate 13 {}, pend := pend }]
    binds := [({ node := 1, num := 5 }, 0)]
    ev := { a := refused, b := 0, c := 65536, src := { node := 1, num := 5 }, req := q, word := 0 } }

def kickOf (v : Byte) : MailReq := { op := 1, space := 1, len := 4, addr := 0, data := [v, 0, 0, 0] }

theorem witness_MailboxEvents :
    MailReady (mailed (kickOf 1)) ∧ (isMailEvent .kick = true ∧ (mailed (kickOf 1) 0 2).ev.a ≠ 0) ∧
    (let s : State := { mailed (kickOf 1) with binds := [] }
     s.ev.a = 0 ∧ s.mailCtx s.ev.src ≠ .some s.ev.b) ∧ (255 < 256 ∧ ([] : List Byte).length < 2 ^ 16) := by
  refine ⟨⟨?_, ?_⟩, ?_, ?_, ?_⟩ <;> decide +kernel

/-- Kicks of queues 0 (free), 1 (configured, pending or not), 15 and of no queue; reads of each register. -/
theorem witness_MailboxEvents_clauses :
    leNat ((kickOf 16).payload.take 4) = 16 ∧ leNat ((kickOf 15).payload.take 4) = 15 ∧
    (((mailed (kickOf 0)).ctx 0).queue 0).state = 0 ∧ (((mailed (kickOf 1)).ctx 0).queue 1).state = 1 ∧ (((mailed (kickOf 1) 2).ctx 0).pend).getLsbD 1 = true ∧
    (((mailed (kickOf 1)).ctx 0).pend).getLsbD 1 = false ∧ MailReady (mailed (kickOf 1) 2) ∧
    ((mailed { space := 1, addr := 4 }).ev.req.space = 1 ∧ (mailed { space := 1, addr := 0x7C }).ev.req.addr.toNat = 0x40 + 4 * 15) ∧
    ((mailed { space := 0, len := 8 }).ev.req.space ≠ 1 ∧
      (mailed { space := 0, len := 8 }).anyBad .dev (mailBytes { space := 0, len := 8 } 0 65536) = false ∧
      ({ mailed { space := 0, len := 8 } with devBad := [0] } : State).anyBad .dev (mailBytes { space := 0, len := 8 } 0 65536) = true) := by
  refine ⟨?_, ?_, ?_, ?_, ?_, ?_, ⟨?_, ?_⟩, ?_, ?_⟩ <;> decide +kernel

/-- A walker command of the root's task, the one of event operand 7, with these beats. -/
def command (kind : CmdKind) (beats : List Beat) (ev : EvArg) (record : List Byte := []) : State :=
  let s := small { regs 0 0 0 with issued := [7] }
  { s with
    tick := 20, ev := ev
    cmds := [{ id := 7, kind := kind, ctx := 0, herd := 0, core := 0, walker := 0, addr := 0, interlocked := true, issue := 0, promise := 90
               beats := beats, record := record, walkFault := if record = [] then .some (10, 0, true, 0x1000) else .none }] }

def aBeat : Beat :=
  { srcSpace := .dev, src := [0, 1], dstSpace := .hm 0, dst := [64, 65], slots := [(0, 9)], performAt := 20, got := [(0, 5), (1, 6)], sampled := true }
def outBeat : Beat :=
  { srcSpace := .hm 0, src := [64, 65], dstSpace := .dev, dst := [0, 1], slots := [(0, 10)], got := [(64, 5), (65, 6)], sampled := true }

theorem witness_WalkerEvents_beats :
    let s := command .copy [aBeat, outBeat] { a := 7, b := 0 }
    (∃ c, s.cmd? s.ev.a = .some c ∧ c.beats[s.ev.b]? = .some aBeat ∧ c.walkFault = .some (10, 0, true, 0x1000)) ∧ (∀ k, CmdKind.copy ≠ .callOut k) ∧
    (aBeat.abandoned = false ∧ aBeat.performed = false ∧ aBeat.toDev = false ∧ aBeat.performAt = s.tick ∧ aBeat.post = .none) ∧
    (outBeat.toDev = true ∧ outBeat.slots[0]? = .some (0, 10) ∧ 10 + 10 = s.tick) ∧ (65535 < 65536 ∧ aBeat.slots[0]? = .some (0, 9)) ∧
    (∀ j, aBeat.slots[j]? = .some (0, 9) → j = 0) ∧ (s.givenAway 0 0 = false ∧ aBeat.dstSpace.herd = .some 0 ∧ outBeat.dstSpace.herd = .none) ∧
    s.tick < 10 + 11 ∧ ((s.ctx 0).failed = false ∧ (s.ctx 0).revoking = false ∧ s.kept = [] ∧ (s.core 0 0).runs 0 = true) := by
  refine ⟨⟨_, rfl, rfl, rfl⟩, nofun, ?_, ?_, ?_, ?_, ?_, ?_, ?_⟩
  case refine_4 => intro j h; match j, h with | 0, _ => rfl
  all_goals decide +kernel

theorem witness_WalkerEvents_first :
    0 ∉ aBeat.written ∧ 0 ∉ outBeat.written ∧ (10 : Nat) ≠ 31 ∧ aBeat.mask = [] := by decide

theorem witness_WalkerEvents_results :
    let s : State := { command (.wamo 0 3 1 0 0) [] { a := 7 } [1, 0, 0, 0] with tick := 90 }
    let r : List Byte := List.replicate 9 0 ++ [0x10] ++ List.replicate 22 0
    let u := command (.apset 3 9 0) [] { a := 7 } r
    let v := command (.apset 3 9 0) [] { a := 7 } [1]
    (∃ c, s.cmd? s.ev.a = .some c ∧ c.record ≠ [] ∧ c.kind = .wamo 0 3 1 0 0 ∧ c.promise ≤ s.tick) ∧ (∃ c, u.cmd? u.ev.a = .some c ∧ c.record = r) ∧
    apertureWellFormed r = true ∧ u.apertureClash 9 (apertureOfRecord r) = false ∧ apertureWellFormed [1] = false ∧ v.cmds.length = 1 ∧
    ({ u with apertures := .some (apertureOfRecord r) :: List.replicate 63 .none } : State).apertureClash 9 (apertureOfRecord r) = true ∧
    IssuerHere s (s.cmds.headD { id := 0, kind := .copy, ctx := 0, herd := 0, core := 0, walker := 0, addr := 0, interlocked := true, issue := 0, promise := 0 }) := by
  refine ⟨⟨_, rfl, by decide, rfl, by decide⟩, ⟨_, rfl, rfl⟩, ?_, ?_, ?_, ?_, ?_, ⟨?_, ?_, ?_, .inl ?_, ?_⟩⟩ <;> (try unfold Regs.Sized) <;> decide +kernel

/-- The block whose hash has been due since cycle 80, and the packed block whose bytes are handed on then. -/
theorem witness_WalkerEvents_blocks :
    let c : Cmd := { id := 7, kind := .snap, ctx := 0, herd := 0, core := 0, walker := 0, addr := 0, interlocked := true, issue := 0, promise := 90
                     packed := [{ index := 0, point := 0, space := .dev, addr := 0, deliverAt := 100 }], aux := [wordBox] }
    let s : State := { small {} with tick := 100, cmds := [c], ev := { a := 7, b := 0 } }
    s.cmd? s.ev.a = .some c ∧ c.n = s.ev.b ∧ (s.compares c).find? (fun p => p.1 == s.ev.b) = .some (0, 80) ∧ 80 ≤ s.tick ∧
    (∀ b ∈ readsIn c.beats (65536 * s.ev.b) (blockLen (denseBytes (c.snapBox 0)) s.ev.b) ++ readsIn c.beats (entryTag s.ev.b) 16, b.abandoned = false) ∧
    (∃ q, c.packed[s.ev.b]? = .some q ∧ q.delivered = false ∧ q.deliverAt = s.tick) := by
  refine ⟨rfl, ?_, ?_, ?_, ?_, ⟨_, rfl, ?_, ?_⟩⟩ <;> decide +kernel

/-- A herd that runs this array command, number 3, with its group or row 0 sampled. -/
def arrayRuns (op : ArrOp) (box : BitVec 256) (data : List (Nat × List Byte) := [(0, List.replicate 512 1)]) : State :=
  let c : ArrCmd := { id := 3, op := op, core := 0, ctx := 0, at_ := 0, fin := 40, addr := 0, geo := 0x32101100, path := 0, src := box
                      dst := encBox, q := 1, fmtb := 0x18, data := data }
  let s := small (regs 0 0 0)
  { s with tick := 20, ev := { a := 0, b := 3, c := 0 }, herds := s.herds.map fun h => { h with array := { h.array with cmds := [c] } } }

theorem witness_ArrayEvents :
    (let s := arrayRuns (.mrun 0 0 false) actBox
     s.ev.a < s.herds.length ∧ (∃ c, s.arrCmd? s.ev.a s.ev.b = .some c ∧ c.op = .mrun 0 0 false ∧ s.dying c.ctx = false) ∧ 0 < (s.herd 0).array.acc.length) ∧
    (let s := arrayRuns (.mload 1) denseBox
     ∃ c, s.arrCmd? s.ev.a s.ev.b = .some c ∧ (c.op = .mload 1 ∨ c.op = .fillSlot 1)) ∧
    (let s := arrayRuns (.fillAcc 3) accBox
     (∃ c, s.arrCmd? s.ev.a s.ev.b = .some c ∧ c.op = .fillAcc 3 ∧ (s.herd 0).array.laterGroup 3 c.id s.tick = false) ∧ 3 < (s.herd 0).array.acc.length) := by
  refine ⟨⟨?_, ⟨_, rfl, rfl, ?_⟩, ?_⟩, ⟨_, rfl, .inl rfl⟩, ⟨_, rfl, rfl, ?_⟩, ?_⟩ <;> decide +kernel

/-- A quiet group and one that is not, of a core that is there. -/
theorem witness_ArrayEvents_quiet :
    ∀ q ∈ [true, false], let s := arrayRuns (.mrun 0 0 q) actBox
      ∃ c, s.arrCmd? s.ev.a s.ev.b = .some c ∧ c.op = .mrun 0 0 q ∧ c.core < (s.herd s.ev.a).cores.length ∧ Regs.Sized (s.regs s.ev.a c.core) :=
  fun _ _ => ⟨_, rfl, rfl, Nat.zero_lt_one, sized_landing .none⟩

/-- A group of a whole set; the reads of an `mrun` from an intact box; a slot that is loaded with one record or filled with an image; and
the samples of `menc` and `mcomp`. -/
theorem witness_ArrayEvents_group :
    (let s := arrayRuns (.mrun 0 0 false) actBox []
     ∃ c, s.arrCmd? s.ev.a s.ev.b = .some c ∧ c.op = .mrun 0 0 false ∧ ((s.herd 0).array.acc.getD 0 []).length = 2048 ∧ RecordFits c.fmtb (c.columnRecord 0 127) ∧
       ∃ t g rows, (runReads (activationCost (boxCode c.src)) c.q (geoNgrp c.geo))[0]? = .some (t, g, rows) ∧
         ∀ r ∈ rows, c.got (16 * g + r) = [] ∧ ((List.range 32).all fun k => !s.badByte (.hm 0) (4096 + 128 * r + k)) = true) ∧
    (isEncoded 0x18 = true ∧ 0 < slotGroups 0x18) := by
  refine ⟨⟨_, rfl, rfl, ?_, .inl ?_, ?_⟩, by decide⟩
  · decide +kernel
  · decide +kernel
  · exact ⟨3, 0, List.range 16, rfl, by decide +kernel⟩

theorem witness_ArrayEvents_slot :
    (let s := arrayRuns (.mload 1) encBox [(0, List.replicate 32 0)]
     1 < (s.herd s.ev.a).array.ws.length ∧ ∃ c, s.arrCmd? s.ev.a s.ev.b = .some c ∧ c.op = .mload 1 ∧ geoNcol c.geo ≤ 128 ∧
       geoNgrp c.geo ≤ slotGroups (boxCode c.src) ∧ ∀ j < geoNcol c.geo, (c.got j).length ≤ slotGroups (boxCode c.src) * blockBytes (boxCode c.src)) ∧
    (let s := arrayRuns (.fillSlot 0) slotBox
     ∃ c, s.arrCmd? s.ev.a s.ev.b = .some c ∧ c.op = .fillSlot 0 ∧ ∀ r < 97, (c.got r).length ≤ 512) ∧
    (∀ op ∈ [ArrOp.menc 1 false, .mcomp 1], let s := arrayRuns op denseBox
     ∃ c, s.arrCmd? s.ev.a s.ev.b = .some c ∧ c.op = op ∧ isDenseWeight (boxCode c.src) = true ∧ isEncoded (boxCode c.dst) = true ∧
       ((List.range 32).all fun k => !s.badByte (.hm 0) ((wholeSpan c.src (c.groupPlace 0).1.1 (c.groupPlace 0).1.2).1 + k)) = true) := by
  refine ⟨⟨?_, _, rfl, rfl, ?_, ?_, ?_⟩, ⟨_, rfl, rfl, ?_⟩, fun op h => ⟨_, rfl, rfl, ?_⟩⟩
  all_goals first | decide +kernel | skip
  revert op; decide +kernel

/-- A null record fits, and one whose indices are all 0 does not: clauses of a slot with records that fit and with one that does not. -/
theorem witness_ArrayEvents_records : RecordFits 0x18 0 ∧ ¬ RecordFits 0x18 (2 ^ 192) := by
  refine ⟨.inl rfl, fun h => ?_⟩
  rcases h with h | ⟨h, -⟩
  · exact absurd h (by decide)
  · obtain ⟨j, hj, e⟩ := h 1 (by decide)
    have : ∀ j < 32, 2 ^ 192 / 2 ^ (5 * j) % 32 ≠ 1 := by decide +kernel
    exact this j hj e

/-- A spill's row and an encoder's group write at the addresses that their boxes give. -/
theorem witness_ArrayEvents_writes :
    (let s := arrayRuns (.spillAcc 0) accBox
     ∃ c, s.arrCmd? s.ev.a s.ev.b = .some c ∧ (c.op = .spillAcc 0 ∨ c.op = .spillSlot 0) ∧ c.rowAddr s.ev.c = 0 ∧ (c.got s.ev.c).length = 512) ∧
    (let s := arrayRuns (.menc 1 false) denseBox [(0, List.replicate 17 1)]
     ∃ c, s.arrCmd? s.ev.a s.ev.b = .some c ∧ (c.op = .menc 1 false ∨ c.op = .mcomp 1) ∧ (c.got s.ev.c).length = 17) := by
  refine ⟨⟨_, rfl, .inl rfl, ?_, ?_⟩, ⟨_, rfl, .inl rfl, ?_⟩⟩ <;> decide +kernel

/-- A call of sibling 0 of the chip task's group in this state, whose copies are command 7. -/
def called (state : CallState) (bound : Word := 0) (outstanding : Bool := true) (sib : Nat := 0) : State :=
  let s := chip 0 0 []
  let c : Cmd := { id := 7, kind := .callIn 5, ctx := 0, herd := 0, core := 0, walker := 0, addr := 0, interlocked := true, issue := 0
                   promise := 25, bound := bound, outstanding := outstanding }
  { s with
    tick := 20, ev := { a := 5, b := 7 }, cmds := [c]
    calls := s.calls.map fun k => { k with state := state, cores := [0], sib := sib, doneAt := if state = .applied then 19 else 0 } }

theorem witness_CallEvents_childEntry :
    (let s := called .entering
     ∃ k c, s.call? s.ev.a = .some k ∧ (s.ctx k.ctx).failed = false ∧ k.state = .entering ∧ k.entry ≤ s.tick ∧ s.cmd? s.ev.b = .some c ∧ c.bound = 0 ∧ c.outstanding = true ∧ s.tick ≤ c.promise) ∧
    (let s := called .entering 30 false
     ∃ k c, s.call? s.ev.a = .some k ∧ (s.ctx k.ctx).failed = false ∧ k.state = .entering ∧ k.entry ≤ s.tick ∧ s.cmd? s.ev.b = .some c ∧ c.outstanding = false ∧
       0 ∈ k.cores ∧ k.cores.Nodup ∧ k.target < s.herds.length ∧ 0 < (s.herd k.target).cores.length) := by
  refine ⟨⟨_, _, rfl, rfl, rfl, ?_, rfl, rfl, rfl, ?_⟩, ⟨_, _, rfl, rfl, rfl, ?_, rfl, rfl, ?_, ?_, ?_, ?_⟩⟩ <;> decide +kernel

/-- Sibling 0 has no earlier sibling; sibling 1 of a group of two waits for one that runs. -/
theorem witness_CallEvents_outward :
    (let s := called .returned
     ∃ k, s.call? s.ev.a = .some k ∧ (s.ctx k.ctx).failed = false ∧ k.state = .returned ∧ s.previous k = .none) ∧
    (let s : State := { small { frame := .some (frame 3 []), group := [4, 5] } with
       ev := { a := 5 }, calls := [{ theCall with id := 4 }, { theCall with sib := 1, state := .returned }] }
     ∃ k q, s.call? s.ev.a = .some k ∧ (s.ctx k.ctx).failed = false ∧ k.state = .returned ∧ s.previous k = .some q ∧ q.state ≠ .applying ∧ q.state ≠ .applied) := by
  refine ⟨⟨_, rfl, rfl, rfl, rfl⟩, ⟨_, _, rfl, rfl, rfl, rfl, ?_, ?_⟩⟩ <;> decide

theorem witness_CallEvents_releases :
    (let s := called .running
     ∃ k, s.call? s.ev.a = .some k ∧ k.done s.tick = false ∧ k.herd < s.herds.length ∧ k.core < (s.herd k.herd).cores.length) ∧
    (let s := called .applied
     let u : State := { s with herds := [{ cores := [{ susp := [{ group := [5] }], hold := .join, r := { group := [5] } }] }] }
     ∃ k, u.call? u.ev.a = .some k ∧ k.done u.tick = true ∧ (u.core k.herd k.core).susp = [{ group := [5] }] ∧ k.id ∈ [5]) ∧
    (let s := called .applied
     let u : State := { s with ev := { a := 0, b := 0 }, herds := [{ cores := [{ hold := .join, r := { group := [5] } }] }] }
     u.ev.a < u.herds.length ∧ u.ev.b < (u.herd u.ev.a).cores.length ∧ (u.core u.ev.a u.ev.b).hold = .join ∧
       (u.regs u.ev.a u.ev.b).group = [5] ∧ ∃ k, u.call? 5 = .some k ∧ k.done u.tick = true) := by
  refine ⟨⟨_, rfl, ?_, ?_, ?_⟩, ⟨_, rfl, ?_, rfl, ?_⟩, ?_, ?_, rfl, rfl, ⟨_, rfl, ?_⟩⟩ <;> decide +kernel

/-- An entry core that a trap holds, beside the free one of the witness above; a caller that resumes behind its handler. -/
theorem witness_CallEvents_held :
    (let s := called .entering 30 false
     let u : State := { s with herds := [{ cores := [{ r := handling }] }] }
     ∃ k c, u.call? u.ev.a = .some k ∧ (u.ctx k.ctx).failed = false ∧ k.state = .entering ∧ k.entry ≤ u.tick ∧ u.cmd? u.ev.b = .some c ∧
       c.outstanding = false ∧ (∃ x ∈ k.cores, (u.regs (if k.level = 2 then k.target else k.herd) x).trap ≠ .none) ∧
       ∀ x ∈ k.cores, (s.regs (if k.level = 2 then k.target else k.herd) x).trap = .none ∧ k.suspends = false) ∧
    (let s := called .applied
     let r : Regs := { group := [5] }
     let u (z : Regs) : State := { s with herds := [{ cores := [{ susp := [r], hold := .join, r := z }] }] }
     (∃ k, (u handling).call? (u handling).ev.a = .some k ∧ k.done (u handling).tick = true ∧ ((u handling).core k.herd k.core).r.trap ≠ .none ∧ k.id ∈ r.group) ∧
     (∃ k, (u r).call? (u r).ev.a = .some k ∧ k.done (u r).tick = true ∧ ((u r).core k.herd k.core).r.trap = .none ∧ r.trap = .none)) := by
  refine ⟨⟨_, _, rfl, ?_, rfl, ?_, rfl, rfl, ⟨0, ?_, ?_⟩, ?_⟩, ⟨_, rfl, ?_, ?_, ?_⟩, ⟨_, rfl, ?_, ?_, ?_⟩⟩ <;> decide +kernel

theorem witness_CallEvents_merge :
    let s := called .applying
    let c : Cmd := { id := 7, kind := .callOut 5, ctx := 0, herd := 0, core := 0, walker := 0, addr := 0, interlocked := true, issue := 0, promise := 25 }
    c.kind = .callOut 5 ∧ ∃ k a, s.call? 5 = .some k ∧ k.id = 5 ∧ k.args[c.n]? = .some a ∧ boxMerge a.childBox < 3 := by
  refine ⟨rfl, _, _, rfl, rfl, rfl, by decide⟩

theorem witness_CallEvents_reflected :
    (let s : State := { family 0 0 [] with ev := { a := 1, words := [10] } }
     ∃ x, s.ctx? s.ev.a = .some x ∧ x.revoking = false ∧ x.ctraps.length < 64 ∧ x.takes (recordClass s.ev.words) = false) ∧
    (let s : State := { family 0 0 [] with ev := { a := 0, words := [10] } }
     ∃ x, s.ctx? s.ev.a = .some x ∧ x.revoking = false ∧ x.ctraps.length < 64 ∧ x.deleg = 0) ∧
    (let s : State := { small {} with ctxs := [{ Ctx.root {} with ctraps := List.replicate 64 [] }] }
     ∃ x, s.ctx? 0 = .some x ∧ x.revoking = false ∧ 64 ≤ x.ctraps.length) := by
  refine ⟨⟨_, rfl, rfl, ?_, ?_⟩, ⟨_, rfl, rfl, ?_, ?_⟩, ⟨_, rfl, rfl, ?_⟩⟩ <;> decide +kernel

/-- A command of the root's task that has read this descriptor, its bundle being held open; the root holds herds 0 and 1. -/
def described (kind : CmdKind) (record : List Byte) (flag : Nat := 0) : State :=
  let s := command kind [] { a := 7, c := flag } record
  { s with
    ctxs := [{ Ctx.root {} with herds := [0, 1], desc := List.replicate 64 0 }]
    herds := (s.herds.map fun h => { h with cores := h.cores.map fun k => { k with hold := .engine } }) ++ [{}] }

/-- A descriptor of a dedicated child on virtual herd 1, and one that names no herd. -/
def childDesc : List Byte := List.replicate 32 0 ++ [2] ++ List.replicate 31 0

theorem witness_ContextEvents_create :
    (let s := described (.cxmk 3) childDesc
     ∃ c, s.cmd? s.ev.a = .some c ∧ s.descriptorHere c = true ∧ c.kind = .cxmk 3 ∧ (s.createCtx c.ctx c.record).isSome = true) ∧
    (let s := described (.cxmk 3) (List.replicate 64 0)
     ∃ c, s.cmd? s.ev.a = .some c ∧ s.descriptorHere c = true ∧ c.kind = .cxmk 3 ∧ (s.createCtx c.ctx c.record).isNone = true) := by
  refine ⟨⟨_, rfl, ?_, rfl, ?_⟩, ⟨_, rfl, ?_, rfl, ?_⟩⟩ <;> decide +kernel

theorem witness_ContextEvents_give :
    (let s := described (.cxgive 1) childDesc
     ∃ c, s.cmd? s.ev.a = .some c ∧ s.descriptorHere c = true ∧ c.kind = .cxgive 1 ∧ s.isChild c.ctx 1 = false) ∧
    (let s := described (.cxgive 1) childDesc
     let u : State := { s with ctxs := s.ctxs ++ [{ num := 1, parent := .some 0, depth := 1, herds := [] }] }
     ∃ c, u.cmd? u.ev.a = .some c ∧ u.isChild c.ctx 1 = true ∧ (u.giveCtx c.ctx 1 c.record).isSome = true) := by
  refine ⟨⟨_, rfl, ?_, rfl, ?_⟩, ⟨_, rfl, ?_, ?_⟩⟩ <;> decide +kernel

theorem witness_ContextEvents_status :
    (let s := described (.cxq 3) (List.replicate 32 0) 1
     ∃ c x, s.cmd? s.ev.a = .some c ∧ c.kind = .cxq 3 ∧ s.ev.c = 1 ∧ s.ctx? c.ctx = .some x ∧ (s.ctx c.ctx).failed = false ∧
       bytesNat c.record 0x19 1 = 0 ∧ (s.ctx c.ctx).revoking = false ∧ s.kept = []) ∧
    (let s : State := { family 0 0 [] with ev := { a := 7, b := 2, c := 0 } }
     (∃ x, s.ctx? s.ev.b = .some x) ∧ (s.subtree s.ev.b).all (fun n => (s.ctx n).life != .away || s.kept.any fun k => k.ctx == n) = false) ∧
    (let s : State := { family 0 0 [] with ev := { a := 7, b := 1, c := 1 } }
     (∃ x, s.ctx? s.ev.b = .some x) ∧ s.ev.c = 1) ∧
    (let s : State := { family 0 0 [] with ev := { a := 7, b := 3, c := 0 } }
     (∃ x, s.ctx? s.ev.b = .some x) ∧ (s.subtree s.ev.b).all (fun n => (s.ctx n).life != .away || s.kept.any fun k => k.ctx == n) = true) := by
  refine ⟨⟨_, _, rfl, rfl, rfl, rfl, ?_, ?_, ?_, rfl⟩, ⟨⟨_, rfl⟩, ?_⟩, ⟨⟨_, rfl⟩, rfl⟩, ⟨⟨_, rfl⟩, ?_⟩⟩ <;> decide +kernel

/-- Child 1 of the root, saved at 0, where a header with its herd count stands; and the same with nothing there. -/
def loading (mem : Mem) : State :=
  { family 0 0 [] with
    dev := mem, ev := { a := 7, b := 1, c := 0 }
    ctxs := [{ Ctx.root {} with herds := [0] }, { num := 1, parent := .some 0, depth := 1, herds := [], saved := true, life := .away }] }

def header : Mem := [(0, 0x5A), (1, 0x46), (2, 0x53), (3, 0x41), (4, 1), (10, 1)]

theorem witness_ContextEvents_load :
    (let s := loading header
     ∃ x, s.ctx? s.ev.b = .some x ∧ s.ev.c = 0 ∧ x.revoking = false ∧ s.loadable s.ev.b = true ∧ x.saveCmd = .none ∧
       s.sliceSpace (x.parent.getD 0) x.save 0x10000 = .ok header ∧ s.readArea s.ev.b = .ok { header := header } ∧
       s.areaLost s.ev.b { header := header } = false ∧ headerOk x header = true ∧
       ((s.modCtx s.ev.b fun x => x.takeHeader [] header).reconfigure s.ev.b).isSome = true) ∧
    (let s := loading []
     ∃ x, s.ctx? s.ev.b = .some x ∧ s.sliceSpace (x.parent.getD 0) x.save 0x10000 = .ok [] ∧ headerOk x [] = false) ∧
    (let s := loading []
     let u : State := { s with ctxs := s.ctxs.map fun k => { k with saved := false, queues := [{ state := 1 }] } }
     u.loadable u.ev.b = false) := by
  refine ⟨⟨_, rfl, rfl, rfl, ?_, rfl, ?_, ?_, ?_, ?_, ?_⟩, ⟨_, rfl, ?_, ?_⟩, ?_⟩ <;> decide +kernel

theorem witness_ContextEvents_ends :
    (let s : State := { family 0 0 [] with ev := { a := 3 } }
     s.ctx? 4 = .none ∧ ∃ x, s.ctx? s.ev.a = .some x ∧ (s.subtree s.ev.a).all (fun n => (s.ctx n).life != .away || s.kept.any fun k => k.ctx == n) = true) ∧
    (let x := (family 0 0 []).ctx 1
     x.budgetStopped = false ∧ x.failed = false ∧ x.revoking = false ∧ x.parent ≠ .none ∧ x.member = 0 ∧ x.life ≠ .draining) := by
  refine ⟨⟨rfl, _, rfl, ?_⟩, ?_⟩ <;> decide +kernel

/-- A context in some stage of its life, its queue 0 being that of a running program on a grid. -/
def staged (life : Life) (ev : EvArg) (stop : Option StopWhy := .none) : State :=
  let q : Queue := { state := 2, desc := List.replicate 0x18 0 ++ [1] ++ List.replicate 7 0 }
  { small {} with ctxs := [{ Ctx.root {} with life := life, stop := stop, grid := .some 8, queues := q :: { state := 1 } :: List.replicate 14 {} }], ev := ev }

theorem witness_ContextEvents_stages :
    (let s := staged .resident { a := 0, b := 8, c := 1, ok := true }
     (s.ctx 0).onGrid = true ∧ (s.ctx 0).grid = .some s.ev.b ∧ s.ev.ok = true ∧ (s.ctx 0).revoking = false ∧ (s.ctx 0).saved = false ∧
       (s.ctx 0).budgetStopped = false ∧ (s.ctx 0).life = .resident) ∧
    (let s := staged .draining { a := 0 } (.some .save)
     (s.ctx 0).life = .draining ∧ (s.ctx 0).stop = .some .save ∧ ∃ k ∈ s.ctxs, k.life = .draining ∧ k.stopUnit = s.ev.a ∧ s.ctx k.num = k) ∧
    (let s := staged .restoring { a := 0 }
     (s.ctx 0).life = .restoring ∧ (s.ctx 0).failed = false ∧ ∀ k ∈ s.kept, k.ctx ≠ s.ev.a) ∧
    (let s := staged .resident { a := 0, b := 1 }
     ((s.ctx 0).queue s.ev.b).state = 1 ∧ (s.ctx 0).life = .resident ∧ s.ev.b < (s.ctx 0).queues.length ∧ (∃ z, s.ctx? s.ev.a = .some z) ∧
       s.leadBusy s.ev.a = false) := by
  refine ⟨?_, ⟨?_, ?_, ⟨_, .head _, rfl, rfl, rfl⟩⟩, ⟨?_, ?_, nofun⟩, ?_, ?_, ?_, ⟨_, rfl⟩, ?_⟩ <;> decide +kernel

theorem witness_ContextEvents_resumed :
    let s := staged .restoring { a := 0, b := 1 }
    s.ev.b = 1 ∧ (s.ctx s.ev.a).life = .restoring ∧ (s.ctx s.ev.a).failed = false := by decide +kernel

/-- The linked chip task with an event of port 3. -/
def event (ev : EvArg) : State := { linked 0 0 with ev := { ev with a := 3 } }

theorem witness_LinkEvents_beacons :
    (let s := event {}
     (s.port s.ev.a).up = true ∧ s.gcycSet = true ∧ s.gcyc % 4096 = 0 ∧ s.ev.a < s.ports.length ∧ s.plat.cfg.group ≠ 0 ∧ s.plat.cfg.refport ≠ s.ev.a) ∧
    (let s := event {}
     let u : State := { s with gcycSet := false, plat := { s.plat with cfg := { s.plat.cfg with refport := 3 } } }
     u.gcycSet = false ∧ u.plat.cfg.group ≠ 0 ∧ u.plat.cfg.refport = u.ev.a ∧ (u.port u.ev.a).up = true) ∧
    (let s : State := { event {} with gcyc := 99, adjust := .some (100, 5) }
     s.adjust = .some (100, 5) ∧ (0 : Int) < 5 ∧ s.gcyc + 1 = 100) ∧
    (let s : State := { event {} with gcyc := 100, adjust := .some (100, 0) }
     s.adjust = .some (100, 0) ∧ (0 : Int) ≤ 0 ∧ s.gcyc = 100) := by
  decide +kernel

/-- Flit 0 of a send whose first departure is cycle 50, and the arrival of one in a window that expects it. -/
theorem witness_LinkEvents_flits :
    (let c : Cmd := { id := 7, kind := .send 3 1 0 1, ctx := 0, herd := 0, core := 0, walker := 0, addr := 0, interlocked := true, issue := 0
                      promise := 90, t0 := 50, beats := [aBeat] }
     let s : State := { linked 0 0 with gcyc := 50, cmds := [c], ev := { a := 7, b := 0 } }
     s.cmd? s.ev.a = .some c ∧ c.outstanding = true ∧ c.n = s.ev.b ∧ c.t0 + 5 * s.ev.b ≤ s.gcyc ∧ (s.port 3).up = true ∧ (s.port 3).deg = false) ∧
    (let w : Window := { id := 1, ctx := 0, core := 0, port := 3, tag := 1, tol := 0, expect := 9, flits := 1, close := 20, handle := 0, slot := 0, geo := {}, beats := [[64, 65]] }
     let f : TimedFlit := { herd := 0, tag := 1, index := 0, count := 2, srcCtx := 1, dstCtx := 0, data := [5, 6] }
     let s := event { flit := f }
     let u : State := { s with ctxs := [{ Ctx.root {} with herds := [0] }], herds := s.herds.map fun h => { h with windows := [w] } }
     peerIn ((u.port u.ev.a).pairsAt (u.tick + 2 - (u.port u.ev.a).lat)) f.dstCtx = .some f.srcCtx ∧ f.broken = false ∧ (u.ctx f.dstCtx).herds[f.herd]? = .some 0 ∧ 0 < u.herds.length ∧
       (u.ctxs.any fun k => k.parent == .some f.dstCtx && !k.timeShared && k.herds.contains 0) = false ∧
       (u.herd 0).windows.find? (fun w => w.ctx == f.dstCtx && w.port == u.ev.a && w.tag == f.tag) = .some w ∧
       f.index < w.flits ∧ u.gcyc + 2 ≤ w.close ∧ w.beats.getD (3 * f.index) [] ≠ [] ∧ f.count ≠ 0 ∧ f.data ≠ []) := by
  refine ⟨⟨rfl, ?_⟩, ?_⟩ <;> decide +kernel

theorem witness_LinkEvents_windows :
    (let w : Window := { id := 1, ctx := 0, core := 0, port := 3, tag := 1, tol := 0, expect := 9, flits := 1, close := 20, handle := 0, slot := 0, geo := {}, beats := [[64, 65]] }
     let l : LinkBeat := { id := 2, ctx := 0, window := 1, beat := 0, at_ := 11, bytes := [(64, 5), (65, 6)] }
     let s : State := { linked 0 0 with tick := 11, gcyc := 11, ev := { a := 0, b := 2 } }
     let u : State := { s with herds := s.herds.map fun h => { h with windows := [w], linkBeats := [l] } }
     (u.herd u.ev.a).linkBeats.find? (fun l => l.id == u.ev.b) = .some l ∧ l.at_ = u.tick ∧
       (u.herd u.ev.a).windows.find? (fun w => w.id == l.window) = .some w ∧ u.inPlace l.ctx = true ∧ u.ev.a < u.herds.length ∧ u.gcyc ≤ w.close ∧
       ((({ u with ev := { a := 0, b := 1 } } : State).herd 0).windows.find? (fun w => w.id == 1) = .some w ∧ u.gcyc < w.close ∧ w.close ≤ 20)) ∧
    (let s := event {}
     s.ev.a < s.ports.length ∧ s.plat.cfg.porten.getLsbD s.ev.a = true ∧ s.ev.a < 24 ∧ (s.port s.ev.a).deg = false ∧ s.plat.cfg.porten.getLsbD 4 = false) := by
  decide +kernel

/-- A link beat for a herd that is the context's, and for one that it has given to a child; a byte that a mask names and one that it does not. -/
theorem witness_LinkEvents_given :
    (let l : LinkBeat := { id := 2, ctx := 0, window := 1, beat := 0, at_ := 11, bytes := [(64, 5)] }
     let s : State := { linked 0 0 with tick := 11, ev := { a := 0, b := 2 } }
     let u : State := { s with herds := s.herds.map fun h => { h with linkBeats := [l] } }
     let v : State := { u with ctxs := u.ctxs ++ [{ num := 1, parent := .some 0, depth := 1, herds := [0] }] }
     (u.herd 0).linkBeats.find? (fun l => l.id == u.ev.b) = .some l ∧ l.at_ = u.tick ∧ 0 < u.herds.length ∧ u.givenAway 0 0 = false ∧
       (v.herd 0).linkBeats.find? (fun l => l.id == v.ev.b) = .some l ∧ v.givenAway 0 0 = true) ∧
    ((∀ p ∈ [((5 : Nat), (0x0F : Byte))], p.1 ≠ 6) ∧ [((5 : Nat), (0x0F : Byte))].head? = .some (5, 0x0F)) := by decide +kernel

theorem witness_PlatformEvents :
    let lines (s : State) : Nat := (((s.plat.retired.map (·.channel) ++ [s.ev.a]).zipIdx).map fun q =>
      3072 * (((9 * 10 ^ 9 + 3071 - q.1) / 3072 + 3070 - q.2) / (3071 - q.2))).sum
    (let s : State := { small {} with ev := { a := 0, b := 35, word := 0x80000000, bytes := List.replicate 32 7 } }
     s.plat.tripped = false ∧ s.ev.a < s.herds.length ∧ s.ev.b < 36 ∧ s.ev.b ∉ (s.herd s.ev.a).retired ∧ (∀ k ∈ (s.herd s.ev.a).retired, k / 18 ≠ s.ev.b / 18) ∧
       s.ev.a < 96 ∧ s.ev.a ∉ s.plat.failedHerds ∧ (∀ r ∈ s.plat.retired, r.channel ≠ s.ev.a) ∧
       s.plat.cfg.resv / 64 < lines s ∧ s.ev.word.getLsbD 31 = true ∧ s.plat.events = [] ∧ s.ev.bytes.length = 32) ∧
    (let s : State := { small {} with ev := { a := 0, b := 35 } }
     let u : State := { s with
       herds := s.herds.map fun h => { h with retired := [18] }
       plat := { s.plat with cfg := { s.plat.cfg with resv := 192 * 2 ^ 20 }, events := [(1, 5)], reportPending := .some (List.replicate 32 7) } }
     (∃ k ∈ (u.herd u.ev.a).retired, k / 18 = u.ev.b / 18) ∧ u.ev.b ∉ (u.herd u.ev.a).retired ∧ lines u ≤ u.plat.cfg.resv / 64 ∧
       u.plat.events = (1, 5) :: [] ∧ u.plat.reportPending = .some (List.replicate 32 7) ∧ u.ev.word.getLsbD 31 = false) := by
  decide +kernel

/-- A core whose bundle at 0, the word of `addi`, is due in this cycle. -/
def due : State :=
  { small (regs 5 0 0) with
    herds := [{ cores := [{ r := regs 5 0 0 }], store := [0xC14411FD] }]
    agenda := [{ at_ := 0, phase := 3, ord := 0, act := .ev .bundleIssue { a := 0, b := 0 } }] }

theorem witness_StepRunsDecoded :
    let k := due.core 0 0
    due.held = 0 ∧ due.plat.tripped = false ∧ due.agenda.length = 1 ∧ k.ready due.tick = true ∧ k.hold = .none ∧ k.inHandler = false ∧ k.asyncs = [] ∧
    due.dueEntry = .none ∧ k.r.interlocked = false ∧ k.r.xfer = .none ∧ k.r.resume = 0 ∧ due.fetchFails 0 = false ∧ k.r.landing = false ∧
    (decodeBundle due.word 0).map (·.map (·.instr)) = .ok [.addi 2 1 0x1FD] := by
  and_intros <;> decide +kernel

/-- A syllable whose guard holds, one whose guard does not, and a word that ends its bundle without a long literal. -/
theorem witness_StepRunsDecoded_commit :
    (let y : Syl := { slot := 1, guard := 0, instr := .addi 2 1 0x1FD, lits := [] }
     let v := due.select y []
     v.unitFault y = .none ∧ v.guardTrue y.slot y.guard = true ∧ settles y.instr v = true) ∧
    (let y : Syl := { slot := 1, guard := 3, instr := .addi 2 1 0x1FD, lits := [] }
     let v := due.select y []
     v.unitFault y = .none ∧ v.guardTrue y.slot y.guard = false) ∧
    (posOf (0xC14411FD : Word) = 3 ∧ decode 0xC14411FD = .ok (.addi 2 1 0x1FD) ∧ 0 + 3 ≤ 65536 ∧ (claimFields 0xC14411FD).length ≤ 2) := by
  and_intros <;> decide +kernel

/-- Two cores of a herd whose bundles are due; the `mload` of core 1 reads HM in the cycle and the bank of a beat of core 0's exposed copy. -/
def ending : State :=
  let k : Core := { r := regs 0 20 0 }
  let m : Core := { r := { regs 0 20 0 with frame := .some (frame 2 [0, accBox, encBox, actBox]), mgeo := 0x32101100 } }
  let c : Cmd := { id := 7, kind := .copy, ctx := 0, herd := 0, core := 0, walker := 0, addr := 0, interlocked := false, issue := 0, promise := 9
                   beats := [{ srcSpace := .dev, src := [0], dstSpace := .hm 0, dst := [0x200000], performAt := 3 }] }
  { small {} with
    cmds := [c]
    herds := [{ cores := [k, m], store := [0xC5000000], claims := [{ at_ := 3, bank := 16, agent := .walker 7 0 }], array := ((arrayTask accBox [{ core := 1, isOpen := true, v := true }, {}, {}, {}]).herd 0).array }]
    agenda := [{ at_ := 0, phase := 3, ord := 0, act := .ev .bundleIssue { a := 0, b := 0 } }, { at_ := 0, phase := 3, ord := 1, act := .ev .bundleIssue { a := 0, b := 1 } }] }

/-- The bundle due, which no other ends a copy of, and one whose core has a copy that another core's bundle of the cycle ends. -/
theorem witness_StepRunsDecoded_gate :
    due.stillHeld (due.core 0 0) = false ∧ due.conflictComes exec 0 0 = false ∧ ending.conflictComes exec 0 0 = true := by decide +kernel

/-- An interlocked core at the `addi` of s1, with a write of s1 pending and without; a transfer whose delay bundle is `trap`, and one
whose delay bundle ends a loop. -/
theorem witness_StepRunsDecoded_holds :
    let at_ (r : Regs) (w : Word) : State := { small {} with herds := [{ cores := [{ r := r }], store := [w] }] }
    let ready (s : State) (n : Nat) (i : Instr) : Bool :=
      let k := s.core 0 0
      k.ready s.tick && k.hold == .none && !s.stillHeld k && k.asyncs.isEmpty && s.dueEntry.isNone && k.r.resume == 0 && !s.fetchFails 0 &&
        !k.r.landing && ((decodeBundle s.word 0).toOption.map (·.map fun y => (y.slot, y.instr))) == .some [(n, i)]
    (let r := { regs 5 0 0 with sw := 1 }
     let p := { r with pend := [{ due := 3, dest := .scalar 1, val := 5 }] }
     let y : Syl := { slot := 1, guard := 0, instr := .addi 2 1 0x1FD, lits := [] }
     (∀ q ∈ [r, p], ready (at_ q 0xC14411FD) 1 (.addi 2 1 0x1FD) = true ∧ q.interlocked = true ∧ q.xfer = .none ∧ (at_ q 0).nullified [y] = false) ∧
     (at_ r 0).interlockHolds { r := r } y = false ∧ (at_ p 0).interlockHolds { r := p } y = true) ∧
    (let r := { regs 5 0 0 with xfer := .some { target := 9, left := 1, fresh := false } }
     let e := { r with loops := [{ start := 0, fin := 0, count := 2 }] }
     (ready (at_ r 0xC0840005) 0 (.trap 5) = true ∧ (Instr.trap 5).delayOk = false) ∧
     (ready (at_ e 0xC14411FD) 1 (.addi 2 1 0x1FD) = true ∧ ∃ x ∈ e.loops, x.fin = e.pc)) := by
  decide +kernel

theorem witness_DecodeEncode : (Instr.addi 2 1 0x1FD).wf = true ∧ (Instr.hmemLdw 4 2 6 4).wf = true := by decide

/-- The step that runs the bundle due: the write of s2 that `addi` queues, 5 + (-3). -/
theorem test_step : (match step due with
    | .next t => (t.regs 0 0).pend.map fun p => (p.dest, p.val.toNat)
    | _ => []) = [(.scalar 2, 2)] := by decide +kernel

theorem witness_CanonicalStep : due.Canonical ∧ (match step due with | .next _ => true | _ => false) = true :=
  ⟨canonical_one (k := [{ r := regs 5 0 0 }]) (w := [0xC14411FD]) rfl rfl rfl, by decide +kernel⟩

end Sys2Proof.Tests
end

namespace Sys2Proof.Machine

/-! ## Launch and host: facts about shared operations

Folds over the state, little-endian bytes, and what the operations that mailbox requests and contexts share leave as it was. -/

/-- A fold keeps every projection of the state that each of its steps keeps. -/
theorem foldl_keeps {α β : Type} (π : State → β) {f : State → α → State} (h : ∀ s a, π (f s a) = π s) (l : List α) (s : State) :
    π (l.foldl f s) = π s := by
  induction l generalizing s with
  | nil => rfl
  | cons a l ih => exact (ih (f s a)).trans (h s a)

/-- A fold whose every step leaves the state alone leaves it alone. -/
theorem foldl_idle {α : Type} {f : State → α → State} {s : State} {l : List α} (h : ∀ a ∈ l, f s a = s) : l.foldl f s = s := by
  induction l with
  | nil => rfl
  | cons a l ih =>
    rw [List.foldl_cons, h a (List.mem_cons_self ..)]
    exact ih fun b hb => h b (List.mem_cons_of_mem _ hb)

/-- A running maximum is at most b where its start and every value are. -/
theorem foldl_max_le {α : Type} {f : α → Nat} {l : List α} {a b : Nat} :
    l.foldl (fun m z => Nat.max m (f z)) a ≤ b ↔ a ≤ b ∧ ∀ z ∈ l, f z ≤ b := by
  induction l generalizing a with
  | nil => simp
  | cons z l ih =>
    rw [List.foldl_cons, ih]
    simp only [List.forall_mem_cons, Nat.max_le, and_assoc]

/-! ### Little-endian bytes (R4) -/

@[simp] theorem leBytes_length (n v : Nat) : (leBytes n v).length = n := by
  induction n generalizing v with
  | zero => rfl
  | succ n ih => simp [leBytes, ih]

theorem leNat_leBytes {n v : Nat} (h : v < 256 ^ n) : leNat (leBytes n v) = v := by
  induction n generalizing v with
  | zero => rw [Nat.lt_one_iff.1 h]; rfl
  | succ n ih =>
    have hv : v / 256 < 256 ^ n := Nat.div_lt_of_lt_mul (by rwa [Nat.pow_succ, Nat.mul_comm] at h)
    rw [leBytes, leNat, ih hv, BitVec.toNat_ofNat]
    omega

theorem leNat_lt (l : List Byte) : leNat l < 256 ^ l.length := by
  induction l with
  | nil => exact Nat.one_pos
  | cons b l ih =>
    have := b.isLt
    rw [leNat, List.length_cons, Nat.pow_succ]
    omega

/-! ### What leaves the operands of the event alone

`reschedule` decides for the whole tree of contexts; a request that it follows is answered with the operands it came with. -/

@[simp] theorem flushTlb_ev (s : State) (l : List Nat) : (s.flushTlb l).ev = s.ev := rfl

@[simp] theorem takeRange_ev (s : State) (x a n : Nat) (ask : Ask) : (s.takeRange x a n ask).ev = s.ev := by
  obtain ⟨l, h⟩ := takeRange_only s x a n ask
  rw [h]

@[simp] theorem takeArea_ev (s : State) (n lines : Nat) (ask : Ask) : (s.takeArea n lines ask).ev = s.ev := by
  unfold State.takeArea
  split
  · exact takeRange_ev ..
  · rfl

@[simp] theorem cancelRestore_ev (s : State) (n : Nat) : (s.cancelRestore n).ev = s.ev := by
  unfold State.cancelRestore
  dsimp only
  split <;> rfl

@[simp] theorem beginStop_ev (s : State) (u : Nat) (l : List Nat) (own : Bool) (why : StopWhy) (t : Nat) (g : Option Nat) :
    (s.beginStop u l own why t g).ev = s.ev :=
  (foldl_keeps State.ev (by intros; rfl) _ _).trans (foldl_keeps State.ev cancelRestore_ev _ _)

@[simp] theorem requestStop_ev (s : State) (u : Nat) (l : List Nat) (own : Bool) (why : StopWhy) : (s.requestStop u l own why).ev = s.ev := by
  unfold State.requestStop
  split
  · exact beginStop_ev ..
  · exact foldl_keeps State.ev (by intros; rfl) _ _

@[simp] theorem leaveNow_ev (s : State) (u : Nat) (l : List Nat) (own : Bool) : (s.leaveNow u l own).ev = s.ev :=
  (foldl_keeps State.ev (by intros; exact foldl_keeps State.ev (by intros; rfl) _ _) _ _).trans (beginStop_ev ..)

@[simp] theorem startQueue_ev (s : State) (x : Nat) : (s.startQueue x).ev = s.ev := by
  unfold State.startQueue
  split <;> rfl

@[simp] theorem choose_ev (s : State) (x : Nat) : (s.choose x).ev = s.ev := by
  unfold State.choose
  dsimp only
  split
  · rfl
  · split <;> rfl

@[simp] theorem scheduleOne_ev (s : State) (x : Nat) : (s.scheduleOne x).ev = s.ev := by
  unfold State.scheduleOne
  dsimp only
  repeat' split
  all_goals simp

@[simp] theorem pressStops_ev (s : State) : s.pressStops.ev = s.ev := by
  refine foldl_keeps State.ev (fun s n => ?_) _ _
  dsimp only
  have cancelled (l : List Nat) : (l.foldl State.cancelRestore s).ev = s.ev := foldl_keeps State.ev cancelRestore_ev l s
  repeat' split
  all_goals simp [cancelled]

@[simp] theorem planRestore_ev (s : State) (n : Nat) : (s.planRestore n).ev = s.ev := by
  unfold State.planRestore
  simp only [State.fresh]
  split
  · rfl
  · split <;> simp

@[simp] theorem restorePresent_ev (s : State) : s.restorePresent.ev = s.ev :=
  foldl_keeps State.ev (fun s n => by dsimp only; split <;> simp) _ _

@[simp] theorem reschedule_ev (s : State) : s.reschedule.ev = s.ev := by
  have scheduled (l : List Nat) (s : State) : (l.foldl State.scheduleOne s).ev = s.ev := foldl_keeps State.ev scheduleOne_ev l s
  simp [State.reschedule, scheduled]


/-! ### The agenda -/

theorem mem_insertDue {d e : Due} {l : List Due} : e ∈ insertDue d l ↔ e = d ∨ e ∈ l := by
  induction l with
  | nil => simp [insertDue]
  | cons a l ih =>
    unfold insertDue
    split
    · simp
    · simp [ih, or_left_comm]

/-! ### Untimed flits (R55, R432) -/

/-- An agenda entry is an untimed flit for a fabric node that waits to start. -/
def Due.waitsFor (node : Nat) (d : Due) : Prop := ∃ i, d.act = .flitStart i ∧ i.untimedNode = .some node

/-- The cycle in which an agenda entry starts an untimed flit for a fabric node. -/
def Due.startsFor (node : Nat) (d : Due) : Option Nat :=
  match d.act with
  | .flitStart i => if i.untimedNode = .some node then .some d.at_ else .none
  | _ => .none

theorem startsFor_eq_some {node t : Nat} {d : Due} : d.startsFor node = .some t ↔ d.waitsFor node ∧ d.at_ = t := by
  unfold Due.waitsFor Due.startsFor
  split
  · next i e => simp [e]
  · next h => simp; exact fun i e => absurd e (h i)

theorem startAt_eq (s : State) (node t : Nat) (item : Sent) : s.startAt node t item =
    if t ≤ s.tick && (s.agenda.filterMap (Due.startsFor node)).isEmpty then { s with sent := item :: s.sent }
    else s.plan ((s.agenda.filterMap (Due.startsFor node)).foldl Nat.max t) 0 6 (.flitStart item) := rfl

/-- The first window from w on with room is not before w. -/
theorem roomFrom_ge (q : Port) (x cap k w : Nat) : w ≤ q.roomFrom x cap k w := by
  induction k generalizing w with
  | zero => exact Nat.le_refl w
  | succ k ih =>
    unfold Port.roomFrom
    split
    · exact Nat.le_refl w
    · exact Nat.le_trans (Nat.le_succ w) (ih (w + 1))

/-- A window with room is the first one with room. -/
theorem roomFrom_of_room {q : Port} {x cap w : Nat} (k : Nat) (h : q.started x w < cap) : q.roomFrom x cap k w = w := by
  cases k with
  | zero => rfl
  | succ k => rw [Port.roomFrom, if_pos h]

/-- A full window is not the one, where the search covers as many windows as flits stand. -/
theorem roomFrom_of_full {q : Port} {x cap w : Nat} (h0 : cap ≠ 0) (h : cap ≤ q.started x w) :
    w < q.roomFrom x cap (q.slots.length + q.untimed.length) w := by
  have flits : q.started x w ≤ q.slots.length + q.untimed.length := by
    rw [← List.length_append]
    exact List.length_filter_le ..
  obtain ⟨k, hk⟩ : ∃ k, q.slots.length + q.untimed.length = k + 1 := Nat.exists_eq_succ_of_ne_zero (by omega)
  rw [hk, Port.roomFrom, if_neg (by omega)]
  exact roomFrom_ge q x cap k (w + 1)

/-- The cycles in which the flits for a node that wait are to start. -/
theorem mem_filterMap_startsFor {l : List Due} {node t : Nat} :
    t ∈ l.filterMap (Due.startsFor node) ↔ ∃ d ∈ l, d.waitsFor node ∧ d.at_ = t := by
  simp only [List.mem_filterMap, startsFor_eq_some]

/-- A flit leaves at once where its cycle has come and none waits for its node. -/
theorem startAt_leaves {s : State} {node t : Nat} {item : Sent} (ht : t ≤ s.tick) (hw : ∀ d ∈ s.agenda, ¬ d.waitsFor node) :
    s.startAt node t item = { s with sent := item :: s.sent } := by
  rw [startAt_eq, if_pos]
  rw [Bool.and_eq_true, decide_eq_true_eq, List.isEmpty_iff]
  refine ⟨ht, List.eq_nil_iff_forall_not_mem.2 fun x hx => ?_⟩
  obtain ⟨d, hd, w, -⟩ := mem_filterMap_startsFor.1 hx
  exact hw d hd w

/-- Else it waits: for its cycle, and behind those that wait for its node. -/
theorem startAt_waits {s : State} {node t : Nat} (item : Sent) (h : s.tick < t ∨ ∃ d ∈ s.agenda, d.waitsFor node) :
    ∃ t', s.startAt node t item = s.plan t' 0 6 (.flitStart item) ∧ t ≤ t' ∧ ∀ d ∈ s.agenda, d.waitsFor node → d.at_ ≤ t' := by
  rw [startAt_eq, if_neg]
  · refine ⟨_, rfl, ?_⟩
    obtain ⟨h1, h2⟩ := (foldl_max_le (f := id)).1 (Nat.le_refl _)
    exact ⟨h1, fun d hd w => h2 _ (mem_filterMap_startsFor.2 ⟨d, hd, w, rfl⟩)⟩
  · rw [Bool.and_eq_true, decide_eq_true_eq, List.isEmpty_iff]
    rintro ⟨ht, hn⟩
    rcases h with h | ⟨d, hd, w⟩
    · omega
    · exact List.not_mem_nil (hn ▸ mem_filterMap_startsFor.2 ⟨d, hd, w, rfl⟩)

/-- The last window in which a context has a start on the port, or the present one. -/
def Port.lastWindow (q : Port) (n now : Nat) : Nat := (q.untimed.filter fun z => z.2 == n).foldl (fun m z => Nat.max m (z.1 / 4096)) now

/-- The window found is the present one where that has room and no flit of the context waits for a later one. -/
theorem roomFrom_lastWindow {q : Port} {n cap now : Nat} (h0 : cap ≠ 0) :
    now ≤ q.roomFrom n cap (q.slots.length + q.untimed.length) (q.lastWindow n now) ∧
    (q.roomFrom n cap (q.slots.length + q.untimed.length) (q.lastWindow n now) = now ↔
      q.started n now < cap ∧ ∀ z ∈ q.untimed, z.2 = n → z.1 / 4096 ≤ now) := by
  have ge := roomFrom_ge q n cap (q.slots.length + q.untimed.length) (q.lastWindow n now)
  have last : now ≤ q.lastWindow n now := (foldl_max_le.1 (Nat.le_refl _)).1
  have none_later : q.lastWindow n now ≤ now ↔ ∀ z ∈ q.untimed, z.2 = n → z.1 / 4096 ≤ now := by
    rw [Port.lastWindow, foldl_max_le]
    simp
  refine ⟨Nat.le_trans last ge, fun e => ?_, fun ⟨h1, h2⟩ => ?_⟩
  · have le : q.lastWindow n now = now := Nat.le_antisymm (Nat.le_trans ge (Nat.le_of_eq e)) last
    rw [le] at e
    exact ⟨Nat.lt_of_not_le fun full => Nat.lt_irrefl now (Nat.lt_of_lt_of_eq (roomFrom_of_full h0 full) e),
      none_later.1 (Nat.le_of_eq le)⟩
  · rw [Nat.le_antisymm (none_later.2 h2) last]
    exact roomFrom_of_room _ h1

/-- What `startAt` makes of a flit, by whether it has room in this cycle. -/
theorem startAt_answers {s : State} (node t : Nat) (item : Sent) {room : Prop} (h1 : room → t = s.tick) (h2 : ¬ room → s.tick < t) :
    let u := s.startAt node t item
    (room → (∀ d ∈ s.agenda, ¬ d.waitsFor node) → u.sent = item :: s.sent) ∧
    ((¬ room ∨ ∃ d ∈ s.agenda, d.waitsFor node) → u.sent = s.sent ∧ ∃ d ∈ u.agenda, d.act = .flitStart item ∧ s.tick ≤ d.at_ ∧
      (¬ room → s.tick < d.at_) ∧ ∀ e ∈ s.agenda, e.waitsFor node → e.at_ ≤ d.at_) := by
  refine ⟨fun r hw => by rw [startAt_leaves (Nat.le_of_eq (h1 r)) hw], fun h => ?_⟩
  obtain ⟨t', e, ht, after⟩ := startAt_waits item (h.imp_left h2)
  have le : s.tick ≤ t := (Classical.em room).elim (fun r => Nat.le_of_eq (h1 r).symm) fun r => Nat.le_of_lt (h2 r)
  simp only [e, State.plan_sent, State.plan_agenda, true_and]
  exact ⟨_, mem_insertDue.2 (.inl rfl), rfl, Nat.le_trans le ht, fun r => Nat.lt_of_lt_of_le (h2 r) ht, after⟩

/-- The port by which untimed flits for a fabric node leave. -/
def State.flitPort (s : State) (node : Nat) : Nat := ((s.routes.find? fun r => r.1 == node).map (·.2)).getD 0

/-- The group cycle in which the next untimed flit of context n for a fabric node may start. -/
def State.flitCount (s : State) (n node : Nat) : Nat :=
  let q := s.port (s.flitPort node)
  let w := q.roomFrom n (s.portCap n) (q.slots.length + q.untimed.length) (q.lastWindow n (s.gcyc / 4096))
  if w = s.gcyc / 4096 then s.gcyc else w * 4096

/-- A flit of a context with a share of the port takes a start on it. -/
theorem startFlit_some {s : State} {n : Nat} (node : Nat) (item : Sent) (h0 : s.portCap n ≠ 0) :
    ∃ f, s.startFlit (.some n) node item = (s.modPort (s.flitPort node) f).startAt node (s.tick + (s.flitCount n node - s.gcyc)) item := by
  unfold State.startFlit
  dsimp only
  rw [if_neg h0]
  exact ⟨_, rfl⟩

/-- That group cycle is the present one where the present window has room, and else a later one. -/
theorem flitCount_room {s : State} {n : Nat} (node : Nat) (h0 : s.portCap n ≠ 0) :
    let q := s.port (s.flitPort node)
    let room := q.started n (s.gcyc / 4096) < s.portCap n ∧ ∀ z ∈ q.untimed, z.2 = n → z.1 / 4096 ≤ s.gcyc / 4096
    (room → s.flitCount n node = s.gcyc) ∧ (¬ room → s.gcyc < s.flitCount n node) := by
  intro q room
  obtain ⟨ge, now⟩ := roomFrom_lastWindow (q := q) (n := n) (now := s.gcyc / 4096) h0
  refine ⟨fun r => if_pos (now.2 r), fun r => ?_⟩
  have later : s.gcyc / 4096 < _ := Nat.lt_of_le_of_ne ge fun e => r (now.1 e.symm)
  have := Nat.mul_le_mul_right 4096 (Nat.succ_le_of_lt later)
  have count : s.flitCount n node = q.roomFrom n (s.portCap n) (q.slots.length + q.untimed.length) (q.lastWindow n (s.gcyc / 4096)) * 4096 :=
    if_neg fun e => r (now.1 e)
  omega

/-- An untimed flit leaves as R432 says: in this cycle, or it waits for a later window or behind others (R55). -/
theorem startFlit_leaves (s : State) (c : Option Nat) (node : Nat) (item : Sent) : FlitLeaves s (s.startFlit c node item) c node item := by
  unfold FlitLeaves
  cases c with
  | none => exact startAt_answers node s.tick item (fun _ => rfl) fun h => absurd (fun n hn => nomatch hn) h
  | some n =>
    by_cases h0 : s.portCap n = 0
    · rw [show s.startFlit (.some n) node item = s.startAt node s.tick item from if_pos h0]
      exact startAt_answers node s.tick item (fun _ => rfl) fun h => absurd (fun m hm => by cases hm; exact .inl h0) h
    · obtain ⟨f, e⟩ := startFlit_some node item h0
      obtain ⟨now, later⟩ := flitCount_room node h0
      rw [e]
      refine startAt_answers (s := s.modPort _ f) node _ item (fun r => ?_) fun r => ?_
      · rw [now ((r n rfl).resolve_left h0), Nat.sub_self]
        rfl
      · have := later fun room => r fun m hm => by cases hm; exact .inr room
        exact Nat.lt_add_of_pos_right (Nat.sub_pos_of_lt this)

/-! ### The mailbox engine takes requests up (R56, R57, R331) -/

/-- What taking mailbox requests up leaves as it was: what has been sent, device memory, contexts, herds and calls, and every entry of
the agenda. -/
structure TakesUp (s t : State) : Prop where
  sent : t.sent = s.sent
  dev : t.dev = s.dev
  ctxs : t.ctxs = s.ctxs
  herds : t.herds = s.herds
  calls : t.calls = s.calls
  agenda : ∀ d ∈ s.agenda, d ∈ t.agenda

theorem TakesUp.refl (s : State) : TakesUp s s := ⟨rfl, rfl, rfl, rfl, rfl, fun _ h => h⟩

theorem TakesUp.trans {s t u : State} (h : TakesUp s t) (k : TakesUp t u) : TakesUp s u :=
  ⟨k.sent.trans h.sent, k.dev.trans h.dev, k.ctxs.trans h.ctxs, k.herds.trans h.herds, k.calls.trans h.calls,
    fun d hd => k.agenda d (h.agenda d hd)⟩

theorem TakesUp.plan (s : State) (t p o : Nat) (a : Act) : TakesUp s (s.plan t p o a) :=
  ⟨rfl, rfl, rfl, rfl, rfl, fun _ h => mem_insertDue.2 (.inr h)⟩

theorem TakesUp.foldl {α : Type} {f : State → α → State} (h : ∀ s a, TakesUp s (f s a)) (l : List α) (s : State) :
    TakesUp s (l.foldl f s) := by
  induction l generalizing s with
  | nil => exact TakesUp.refl s
  | cons a l ih => exact (h s a).trans (ih (f s a))

theorem TakesUp.takeSlot (s : State) (pc t : Nat) : TakesUp s (s.takeSlot pc t) := ⟨rfl, rfl, rfl, rfl, rfl, fun _ h => h⟩

theorem TakesUp.chainReads (use : Nat → Act) (l : List Nat) (s : State) (r : Nat) : TakesUp s (s.chainReads use l r).1 := by
  induction l generalizing s r with
  | nil => exact TakesUp.refl s
  | cons a l ih =>
    rw [State.chainReads]
    exact ((TakesUp.takeSlot s _ _).trans (TakesUp.plan _ _ _ _ _)).trans (ih ..)

/-- A request whose source has no context, which is malformed, or which names the kick page, is answered by an event that is planned; a
request for device memory takes slots first. -/
theorem TakesUp.takeMail (s : State) (src : Source) (q : MailReq) (t : Nat) : TakesUp s (s.takeMail src q t) := by
  have counted : TakesUp s s.fresh.2 := ⟨rfl, rfl, rfl, rfl, rfl, fun _ h => h⟩
  unfold State.takeMail
  generalize s.fresh = p at counted ⊢
  obtain ⟨f, u⟩ := p
  refine TakesUp.trans counted ?_
  dsimp only
  split
  · exact TakesUp.plan ..
  · next x _ =>
    split
    · exact TakesUp.plan ..
    · split
      · exact TakesUp.plan ..
      · obtain ⟨w, r⟩ := u.mailPages x q { tlb := [] }
        have reads := TakesUp.chainReads (fun line => .slotUse x line) w.reads u (t + Config.mailboxCycles f)
        dsimp only
        generalize u.chainReads (fun line => .slotUse x line) w.reads (t + Config.mailboxCycles f) = p at reads ⊢
        obtain ⟨v, r1⟩ := p
        refine TakesUp.trans reads ?_
        dsimp only
        split
        · exact TakesUp.plan ..
        · split
          · exact TakesUp.plan ..
          · next l =>
            have slots (m n : List Nat) (t : Nat) : TakesUp v
                (n.foldl (fun s line => s.plan t 1 0 (.slotUse x line)) (m.foldl (fun s pc => s.takeSlot pc t) v)) :=
              (TakesUp.foldl (fun s pc => TakesUp.takeSlot s pc t) m v).trans (TakesUp.foldl (fun s line => TakesUp.plan s t 1 0 _) n _)
            split
            · exact (slots ..).trans (TakesUp.plan ..)
            · exact (slots ..).trans (TakesUp.plan ..)

theorem TakesUp.pumpMail (k t : Nat) (s : State) : TakesUp s (State.pumpMail k t s) := by
  induction k generalizing s with
  | zero => exact TakesUp.refl s
  | succ k ih =>
    unfold State.pumpMail
    split
    · exact TakesUp.refl s
    · next src q l _ =>
      split
      · exact TakesUp.refl s
      · have popped : TakesUp s { s with mail := l } := ⟨rfl, rfl, rfl, rfl, rfl, fun _ h => h⟩
        exact (popped.trans (TakesUp.takeMail ..)).trans (ih _)

/-- What leaves has left or waits still when the engine has taken requests up. -/
theorem FlitLeaves.takesUp {x u v : State} {c : Option Nat} {node : Nat} {item : Sent} (h : FlitLeaves x u c node item) (k : TakesUp u v) :
    FlitLeaves x v c node item := by
  obtain ⟨now, later⟩ := h
  refine ⟨fun r w => k.sent.trans (now r w), fun r => ?_⟩
  obtain ⟨sent, d, hd, due⟩ := later r
  exact ⟨k.sent.trans sent, d, k.agenda d hd, due⟩

/-- A start of a flit leaves device memory, contexts, herds and calls. -/
theorem startFlit_frame (s : State) (c : Option Nat) (node : Nat) (item : Sent) :
    let t := s.startFlit c node item
    t.dev = s.dev ∧ t.ctxs = s.ctxs ∧ t.herds = s.herds ∧ t.calls = s.calls := by
  have started (y : State) (t : Nat) :
      let u := y.startAt node t item
      u.dev = y.dev ∧ u.ctxs = y.ctxs ∧ u.herds = y.herds ∧ u.calls = y.calls := by
    rw [startAt_eq]
    split <;> exact ⟨rfl, rfl, rfl, rfl⟩
  cases c with
  | none => exact started s s.tick
  | some n =>
    by_cases h0 : s.portCap n = 0
    · rw [show s.startFlit (.some n) node item = s.startAt node s.tick item from if_pos h0]
      exact started s s.tick
    · obtain ⟨f, e⟩ := startFlit_some node item h0
      rw [e]
      exact started (s.modPort _ f) _

theorem respond_eq (x : State) (status : Nat) (data : List Byte) : ∃ k t, x.respond status data =
    State.pumpMail k t (x.startFlit (x.mailCtx x.ev.src) x.ev.src.node (.response x.ev.src (x.ev.req.response status data))) :=
  ⟨_, _, rfl⟩

/-- An event answers with a status and data, the device standing as x says, when it responds from x. -/
theorem answers_of_respond {i : Instr} {s x : State} {status : Nat} {data : List Byte} (h : exec i s = .next (x.respond status data))
    (he : x.ev = s.ev) : Answers i s x status data := by
  obtain ⟨k, t, e⟩ := respond_eq x status data
  have leaves := startFlit_leaves x (x.mailCtx x.ev.src) x.ev.src.node (.response x.ev.src (x.ev.req.response status data))
  have frame := startFlit_frame x (x.mailCtx x.ev.src) x.ev.src.node (.response x.ev.src (x.ev.req.response status data))
  generalize x.startFlit _ _ _ = u at e leaves frame
  have up := TakesUp.pumpMail k t u
  obtain ⟨dev, ctxs, herds, calls⟩ := frame
  rw [he] at leaves
  exact ⟨_, h.trans (congrArg _ e), leaves.takesUp up, up.dev.trans dev, up.ctxs.trans ctxs, up.herds.trans herds, up.calls.trans calls⟩

/-! ### Requests and responses (R53 to R55) -/

theorem response_parts (q : MailReq) (status : Nat) {data : List Byte} (hs : status < 256) (hd : data.length < 2 ^ 16) :
    let r := q.response status data
    r.length = 16 + data.length ∧ (r.getD 0 0).toNat = (if q.op = 1 then 0x81 else if q.op = 2 then 0x82 else 0x80) ∧
      (r.getD 1 0).toNat = status ∧ leNat ((r.drop 2).take 2) = data.length ∧ leNat ((r.drop 4).take 4) = q.tag.toNat ∧
      (∀ k < 8, r.getD (8 + k) 0 = 0) ∧ r.drop 16 = data := by
  intro r
  have reserved : r.drop 8 = List.replicate 8 0 ++ data := rfl
  have count : (r.drop 2).take 2 = leBytes 2 data.length := rfl
  have tag : (r.drop 4).take 4 = leBytes 4 q.tag.toNat := rfl
  refine ⟨?_, ?_, ?_, count ▸ leNat_leBytes hd, tag ▸ leNat_leBytes q.tag.isLt, fun k hk => ?_, rfl⟩
  · simp [r, MailReq.response]
    omega
  · show (if q.op = 1 then (0x81 : Byte) else if q.op = 2 then 0x82 else 0x80).toNat = _
    split
    · rfl
    · split <;> rfl
  · exact Nat.mod_eq_of_lt hs
  · rw [List.getD_eq_getElem?_getD, ← List.getElem?_drop, reserved, List.getElem?_append_left (by simpa using hk),
      List.getElem?_replicate, if_pos hk]
    rfl

theorem mailWord_toNat (s : State) : s.mailWord.toNat = leNat (s.ev.req.payload.take 4) := by
  have lt := leNat_lt (s.ev.req.payload.take 4)
  have : 256 ^ (s.ev.req.payload.take 4).length ≤ 256 ^ 4 := Nat.pow_le_pow_right (by decide) (List.length_take_le ..)
  rw [State.mailWord, BitVec.toNat_ofNat, Nat.mod_eq_of_lt (by omega)]

theorem applyMail_ready {s : State} (f : State → State) (h : MailReady s) : s.applyMail f = f s := by
  obtain ⟨ha, hc⟩ := h
  simp [State.applyMail, ha, hc]

/-- A request that was refused, or whose source has lost its context, is answered so, whatever it asks. -/
theorem applyMail_refused (s : State) (f : State → State) :
    (s.mailCtx s.ev.src = .none → s.applyMail f = s.respond 4 []) ∧
    (s.mailCtx s.ev.src ≠ .none → s.ev.a ≠ 0 → s.applyMail f = s.respond s.ev.a []) ∧
    (s.ev.a = 0 → s.mailCtx s.ev.src ≠ .some s.ev.b → s.applyMail f = s.respond 4 []) := by
  unfold State.applyMail
  refine ⟨fun h => by simp [h], fun h ha => by simp [h, ha], fun ha h => ?_⟩
  split <;> simp_all

/-- Every event that carries a mailbox request out is `applyMail` of what the request asks. -/
theorem exec_mailEvent {i : Instr} (h : isMailEvent i = true) (s : State) : ∃ f, exec i s = .next (s.applyMail f) := by
  unfold isMailEvent at h
  simp only [Bool.or_eq_true, beq_iff_eq] at h
  rcases h with (((rfl | rfl) | rfl) | rfl) | rfl <;> exact ⟨_, rfl⟩

theorem mailboxWrite_answers {s : State} (h : MailReady s) :
    Answers .mailboxWrite s (s.writeBytes .dev 3 ((mailBytes s.ev.req s.ev.word.toNat s.ev.c).zip s.ev.req.payload)) 0 [] :=
  answers_of_respond (congrArg _ (applyMail_ready _ h)) rfl

theorem kcoalWrite_answers {s : State} (h : MailReady s) :
    Answers .kcoalWrite s (s.modCtx s.ev.b fun k => { k with kcoal := 0 }) 0 [] :=
  answers_of_respond (congrArg _ (applyMail_ready _ h)) rfl

theorem mailboxRead_answers {s : State} (h : MailReady s) :
    let l := mailBytes s.ev.req s.ev.word.toNat s.ev.c
    (s.ev.req.space = 1 → Answers .mailboxRead s s 0 (leBytes 4 ((s.ctx s.ev.b).kickPage s.ev.req.addr.toNat).toNat)) ∧
    (s.ev.req.space ≠ 1 → s.anyBad .dev l = true → Answers .mailboxRead s s 5 []) ∧
    (s.ev.req.space ≠ 1 → s.anyBad .dev l = false → Answers .mailboxRead s s 0 (l.map (s.readByte .dev))) := by
  have read : exec .mailboxRead s = .next (s.applyMail _) := rfl
  rw [applyMail_ready _ h] at read
  refine ⟨fun hs => ?_, fun hs hb => ?_, fun hs hb => ?_⟩ <;> refine answers_of_respond (read.trans ?_) rfl
  · rw [if_pos hs]
  · rw [if_neg hs, if_pos hb]
  · rw [if_neg hs, if_neg (by simp [hb])]
    rfl

theorem kickPage_parts (x : Ctx) :
    x.kickPage 4 = x.pend.setWidth 32 ∧ x.kickPage 8 = x.kcoal.setWidth 32 ∧ x.kickPage 12 = x.note.setWidth 32 ∧
    ∀ k < 16, x.kickPage (0x40 + 4 * k) = (x.queue k).status := by
  refine ⟨rfl, rfl, rfl, fun k hk => ?_⟩
  have here : (0x40 ≤ 0x40 + 4 * k && 0x40 + 4 * k < 0x80) = true := by simp; omega
  have index : (0x40 + 4 * k - 0x40) / 4 = k := by omega
  rw [Ctx.kickPage, if_neg (by omega), if_neg (by omega), if_neg (by omega), if_pos here, index]

theorem status_toNat {q : Queue} (h : q.state < 4) : q.status.toNat = q.fail.toNat * 2 ^ 18 + q.state * 2 ^ 16 + q.done.toNat := by
  have := q.done.isLt
  have := Bool.toNat_lt q.fail
  rw [Queue.status, Nat.mod_eq_of_lt h, BitVec.toNat_ofNat]
  omega

theorem ctx_num (s : State) (n : Nat) : (s.ctx n).num = n := by
  unfold State.ctx State.ctx?
  cases e : s.ctxs.find? fun x => x.num == n with
  | none => rfl
  | some x =>
    have := List.find?_some e
    exact beq_iff_eq.1 this

theorem kick_answers {s : State} (h : MailReady s) :
    let x := s.ctx s.ev.b
    let v := leNat (s.ev.req.payload.take 4)
    let q := (x.queue v).state
    (16 ≤ v → Answers .kick s s 3 []) ∧
    (v < 16 → (q = 0 ∨ q = 3) → Answers .kick s s 0 []) ∧
    (v < 16 → q ≠ 0 → q ≠ 3 → x.pend.getLsbD v = true →
      Answers .kick s (s.modCtx s.ev.b fun k => { k with kcoal := BitVec.ofNat 16 (min (k.kcoal.toNat + 1) 65535) }) 0 []) ∧
    (v < 16 → q ≠ 0 → q ≠ 3 → x.pend.getLsbD v = false →
      Answers .kick s (s.modCtx s.ev.b fun k => { k with pend := k.pend ||| 1#16 <<< v }).reschedule 0 []) := by
  intro x v q
  have coalesce (k : BitVec 16) : (if k = 0xFFFF then 0xFFFF else k + 1) = BitVec.ofNat 16 (min (k.toNat + 1) 65535) := by
    have := k.isLt
    apply BitVec.eq_of_toNat_eq
    split
    · next e => subst e; rfl
    · next e =>
      have : k.toNat ≠ 65535 := fun t => e (BitVec.eq_of_toNat_eq t)
      rw [BitVec.toNat_ofNat]
      change (k.toNat + 1) % 2 ^ 16 = _
      omega
  have kick : exec .kick s = .next (s.applyMail _) := rfl
  rw [applyMail_ready _ h] at kick
  simp only [mailWord_toNat, ctx_num, coalesce] at kick
  refine ⟨fun hv => ?_, fun hv hq => ?_, fun hv h0 h3 hp => ?_, fun hv h0 h3 hp => ?_⟩
  · rw [if_pos hv] at kick
    exact answers_of_respond kick rfl
  all_goals rw [if_neg (Nat.not_le_of_lt hv)] at kick
  · rw [if_pos (by simpa [x, q, v] using hq)] at kick
    exact answers_of_respond kick rfl
  · rw [if_neg (by simpa [x, q, v] using ⟨h0, h3⟩), if_pos hp] at kick
    exact answers_of_respond kick rfl
  · rw [if_neg (by simpa [x, q, v] using ⟨h0, h3⟩), if_neg (by rw [hp]; exact Bool.false_ne_true)] at kick
    exact answers_of_respond kick (by simp)

theorem kickPageRegisterWrite_answers {s : State} (h : MailReady s) :
    (s.ev.req.addr.toNat = 12 → Answers .kickPageRegisterWrite s
      (s.modCtx s.ev.b fun k => { k with note := BitVec.ofNat 16 (leNat (s.ev.req.payload.take 4)) }) 0 []) ∧
    (s.ev.req.addr.toNat ≠ 12 → Answers .kickPageRegisterWrite s s 0 []) := by
  have note : s.mailWord.setWidth 16 = BitVec.ofNat 16 (leNat (s.ev.req.payload.take 4)) := by
    rw [← mailWord_toNat]
    rfl
  have at_ : s.ev.req.addr = 0x0C ↔ s.ev.req.addr.toNat = 12 := BitVec.toNat_inj.symm
  have write : exec .kickPageRegisterWrite s = .next (s.applyMail _) := rfl
  rw [applyMail_ready _ h] at write
  simp only [note] at write
  refine ⟨fun ha => ?_, fun ha => ?_⟩
  · rw [if_pos (at_.2 ha)] at write
    exact answers_of_respond write rfl
  · rw [if_neg fun e => ha (at_.1 e)] at write
    exact answers_of_respond write rfl

/-- Settles O49. Each event is `applyMail` of what its request asks, which ends in a response: one that was refused or has lost its
context responds at once, and one that is ready is carried out first. -/
theorem mailboxEvents : Obligations.MailboxEvents := by
  refine ⟨fun q status data hs hd => response_parts q status hs hd, fun i s hi => ?_, fun s h => ?_⟩
  · obtain ⟨f, e⟩ := exec_mailEvent hi s
    obtain ⟨unbound, refused, lost⟩ := applyMail_refused s f
    exact ⟨fun hc => answers_of_respond (e.trans (congrArg _ (unbound hc))) rfl,
      fun hc ha => answers_of_respond (e.trans (congrArg _ (refused hc ha))) rfl,
      fun ha hc => answers_of_respond (e.trans (congrArg _ (lost ha hc))) rfl⟩
  · obtain ⟨register, bad, sampled⟩ := mailboxRead_answers h
    obtain ⟨noQueue, idle, again, newly⟩ := kick_answers h
    obtain ⟨note, ignored⟩ := kickPageRegisterWrite_answers h
    obtain ⟨pend, kcoal, page, queue⟩ := kickPage_parts (s.ctx s.ev.b)
    refine ⟨mailboxWrite_answers h, fun hs => ⟨_, register hs, fun ha => ?_, fun ha => ?_, fun ha => ?_, fun k hk ha hq => ?_⟩, bad, sampled,
      noQueue, idle, again, newly, kcoalWrite_answers h, note, ignored⟩
    · rw [ha, pend]
    · rw [ha, kcoal]
    · rw [ha, page]
    · rw [ha, queue k hk, status_toNat hq]


/-! ## Completions of CTX commands and events of the scheduler -/

/-! ### Reading contexts and commands -/

theorem ctx?_modCtx_any (s : State) (n m : Nat) {f : Ctx → Ctx} (hf : ∀ x, (f x).num = x.num) :
    (s.modCtx n f).ctx? m = (s.ctx? m).map fun x => if m = n then f x else x := by
  have same (x : Ctx) : ((if x.num == n then f x else x).num == m) = (x.num == m) := by split <;> simp [hf]
  rw [State.ctx?, State.modCtx_ctxs, List.find?_map]
  simp only [Function.comp_def, same]
  rw [State.ctx?]
  cases e : s.ctxs.find? fun x => x.num == m with
  | none => rfl
  | some x =>
    have hx : x.num = m := by simpa using List.find?_some e
    simp [hx]

theorem ctx?_modCtx (s : State) (n : Nat) {f : Ctx → Ctx} (hf : ∀ x, (f x).num = x.num) : (s.modCtx n f).ctx? n = (s.ctx? n).map f := by
  rw [ctx?_modCtx_any s n n hf]
  simp

theorem ctx_of_ctx? {s : State} {n : Nat} {x : Ctx} (h : s.ctx? n = .some x) : s.ctx n = x := by rw [State.ctx, h]; rfl

theorem cmd?_modCmd (s : State) (id : Nat) {f : Cmd → Cmd} (hf : ∀ c, (f c).id = c.id) : (s.modCmd id f).cmd? id = (s.cmd? id).map f := by
  have same (c : Cmd) : ((if c.id == id then f c else c).id == id) = (c.id == id) := by split <;> simp [hf]
  rw [State.cmd?, State.modCmd_cmds, List.find?_map]
  simp only [Function.comp_def, same]
  rw [State.cmd?]
  cases e : s.cmds.find? fun c => c.id == id with
  | none => rfl
  | some c =>
    have hc := List.find?_some e
    exact congrArg some (if_pos hc)

/-! ### Descriptors: `cxmk` and `cxgive` (R418) -/

theorem cxmkComplete_next {s : State} {c : Cmd} {n : Nat} (hc : s.cmd? s.ev.a = .some c) (here : s.descriptorHere c = true)
    (hk : c.kind = .cxmk n) :
    (s.createCtx c.ctx c.record = .none → exec .cxmkComplete s =
      .next (s.badContext c (s.withheld c.ctx ((CtxDesc.ofBytes c.record).kind == 1) [] c.record))) ∧
    ∀ t x, s.createCtx c.ctx c.record = .some (t, x) → exec .cxmkComplete s =
      .next (t.endEngine c.herd c.core (s.tick + 1) fun t => t.put 1 (.scalar n) (BitVec.ofNat 512 x)) := by
  have run : exec .cxmkComplete s = execCxmkComplete s := rfl
  rw [run, execCxmkComplete]
  simp only [hc, hk, here]
  exact ⟨fun e => by rw [e]; rfl, fun t x e => by rw [e]; rfl⟩

theorem cxgiveComplete_next {s : State} {c : Cmd} {x : Nat} (hc : s.cmd? s.ev.a = .some c) (here : s.descriptorHere c = true)
    (hk : c.kind = .cxgive x) :
    (s.isChild c.ctx x = false → exec .cxgiveComplete s = .next (s.badContext c)) ∧
    (s.isChild c.ctx x = true → s.giveCtx c.ctx x c.record = .none → exec .cxgiveComplete s =
      .next (s.badContext c (s.withheld c.ctx (!(s.ctx x).timeShared) (s.ctx x).herds c.record))) ∧
    ∀ t, s.isChild c.ctx x = true → s.giveCtx c.ctx x c.record = .some t →
      exec .cxgiveComplete s = .next (t.endEngine c.herd c.core (s.tick + 1)) := by
  have run : exec .cxgiveComplete s = execCxgiveComplete s := rfl
  rw [run, execCxgiveComplete]
  simp only [hc, hk, here]
  exact ⟨fun hx => by rw [hx]; rfl, fun hx e => by rw [hx, e]; rfl, fun t hx e => by rw [hx, e]; rfl⟩

/-- `cxmk` creates a child only from a valid descriptor, below depth 4 and number 256, and within the free queue slots (R68 to R70). -/
theorem createCtx_valid {s t : State} {p x : Nat} {l : List Byte} (h : s.createCtx p l = .some (t, x)) :
    ctxDescOk l = true ∧ (s.ctx p).depth < 4 ∧ s.ctxs.length < 256 ∧ (CtxDesc.ofBytes l).qslots ≤ s.freeSlots p := by
  unfold State.createCtx at h
  dsimp only at h
  split at h
  · cases h
  · split at h
    · cases h
    · next ok =>
      simp only [Bool.or_eq_true, not_or] at ok
      obtain ⟨⟨⟨⟨⟨desc, depth⟩, room⟩, -⟩, slots⟩, -⟩ := ok
      exact ⟨by simpa using desc, Nat.lt_of_not_le (by simpa using depth), Nat.lt_of_not_le (by simpa using room),
        Nat.le_of_not_lt (by simpa using slots)⟩

/-! ### Statuses (R420, R422) -/

theorem cxqComplete_next {s : State} {c : Cmd} {n : Nat} (hc : s.cmd? s.ev.a = .some c) (hk : c.kind = .cxq n) (h1 : s.ev.c = 1)
    (hf : (s.ctx c.ctx).failed = false) (own : bytesNat c.record 0x19 1 = 0) (hr : (s.ctx c.ctx).revoking = false)
    (hx : ∃ x, s.ctx? c.ctx = .some x) :
    exec .cxqComplete s = .next (((s.configure c.ctx c.record).1.ctxStatus c.id .cxqComplete
      (BitVec.ofNat 32 (s.configure c.ctx c.record).2)).reschedule) := by
  obtain ⟨x, hx⟩ := hx
  have run : exec .cxqComplete s = execCxqComplete s := rfl
  rw [run, execCxqComplete]
  simp [hc, hk, h1, hf, own, hr, hx]

/-- A context that is not away, or whose state is kept, has nothing left to save. -/
theorem saveUnused_idle {s : State} {n : Nat} (h : ((s.ctx n).life != .away || s.kept.any fun k => k.ctx == n) = true) :
    s.saveUnused n = s :=
  if_pos (by simpa using h)

theorem foldl_saveUnused_idle {s : State} {l : List Nat} (h : l.all (fun n => (s.ctx n).life != .away || s.kept.any fun k => k.ctx == n) = true) :
    l.foldl State.saveUnused s = s :=
  foldl_idle fun n hn => saveUnused_idle (List.all_eq_true.1 h n hn)

theorem cxsaveComplete_next {s : State} (hx : ∃ x, s.ctx? s.ev.b = .some x) :
    (s.ev.c = 1 → exec .cxsaveComplete s = .next (s.ctxStatus s.ev.a .cxsaveComplete 1)) ∧
    (s.ev.c = 0 → (s.subtree s.ev.b).all (fun n => (s.ctx n).life != .away || s.kept.any fun k => k.ctx == n) = true →
      exec .cxsaveComplete s = .next (s.ctxStatus s.ev.a .cxsaveComplete 0)) := by
  obtain ⟨x, hx⟩ := hx
  have run : exec .cxsaveComplete s = execCxsaveComplete s := rfl
  rw [run, execCxsaveComplete]
  refine ⟨fun h => by simp [h, hx], fun h idle => ?_⟩
  simp [h, hx, foldl_saveUnused_idle idle]


/-! ### What the status of a command leaves (R420) -/

/-- The contexts, and those whose state is kept, as they stand: what results of commands leave alone. -/
def State.contexts (s : State) : List Ctx × List Nat := (s.ctxs, s.kept.map (·.ctx))

theorem kept_map_ctx {l : List Kept} {f : Kept → Kept} (hf : ∀ k, (f k).ctx = k.ctx) : (l.map f).map (·.ctx) = l.map (·.ctx) := by
  rw [List.map_map]
  exact List.map_congr_left fun k _ => hf k

theorem modIssuer_contexts (s : State) (c : Cmd) (f : Regs → Regs) : (s.modIssuer c f).contexts = s.contexts := by
  unfold State.modIssuer
  dsimp only
  split
  · exact Prod.ext rfl (kept_map_ctx fun k => by split <;> rfl)
  · rfl

/-- An engine's result changes the frame that issued its command, and may plan its landing. -/
theorem engineScalar_cases (s : State) (c : Cmd) (n : Nat) (v : Word) : ∃ f, let t := s.modIssuer c f
    s.engineScalar c n v = t.planEv t.tick 4 0 .registerWriteLand { a := c.herd, b := c.core } ∨ s.engineScalar c n v = t :=
  ⟨_, ite_eq_or_eq _ _ _⟩

theorem engineScalar_contexts (s : State) (c : Cmd) (n : Nat) (v : Word) : (s.engineScalar c n v).contexts = s.contexts := by
  obtain ⟨f, e | e⟩ := engineScalar_cases s c n v
  · rw [e]; exact modIssuer_contexts s c f
  · rw [e]; exact modIssuer_contexts s c f

theorem ctxStatus_contexts (s : State) (id : Nat) (i : Instr) (v : Word) : (s.ctxStatus id i v).contexts = s.contexts := by
  unfold State.ctxStatus
  split
  · rfl
  · dsimp only
    split
    · rfl
    · split
      · exact Prod.ext rfl (kept_map_ctx fun k => by split <;> rfl)
      · exact engineScalar_contexts ..

theorem openWindows_contexts (s : State) (n : Nat) (k : Kept) (frames : List Mem) : (s.openWindows n k frames).contexts = s.contexts := by
  refine foldl_keeps State.contexts (fun s p => ?_) _ _
  dsimp only
  split
  · rfl
  · refine foldl_keeps State.contexts (fun s i => ?_) _ _
    split <;> rfl

/-! ### `cxload` (R420) -/

/-- What is kept for the area of a context is kept under its number. -/
theorem keptOf_ctx {s : State} {n : Nat} {header : Mem} {k : Kept} (h : s.keptOf n header = .some k) : k.ctx = n := by
  have own {f : Kept → Bool} {k : Kept} (h : (s.kept.find? fun k => k.ctx == n).filter f = .some k) : k.ctx = n := by
    have found := (Option.filter_eq_some_iff.1 h).1
    have := List.find?_some found
    exact beq_iff_eq.1 this
  unfold State.keptOf at h
  dsimp only at h
  split at h
  · next e => cases h; exact own e
  · cases h; rfl
  · exact own h

theorem loadKept_ctx (s : State) (n : Nat) (a : Area) : (s.loadKept n a).2.ctx = n := by
  unfold State.loadKept
  split
  · next k e =>
    have := keptOf_ctx e
    exact this
  · rfl

/-- A loaded context stands away, its state kept and no save in progress. -/
theorem loaded_contexts {s : State} {n id : Nat} {i : Instr} {v : Word} {k : Kept} {frames : List Mem} (hk : k.ctx = n)
    (here : k ∈ s.kept) :
    let t := ((s.openWindows n k frames).modCtx n fun x => { x with saved := false, life := .away }).ctxStatus id i v
    (∃ k ∈ t.kept, k.ctx = n) ∧ ∀ z ∈ t.ctxs, z.num = n → z.saved = false ∧ z.life = .away := by
  intro t
  have same : t.contexts = _ := ctxStatus_contexts ..
  have opened := openWindows_contexts s n k frames
  obtain ⟨ctxs, kept⟩ := Prod.ext_iff.1 same
  obtain ⟨-, before⟩ := Prod.ext_iff.1 opened
  refine ⟨?_, fun z hz hn => ?_⟩
  · have : n ∈ t.kept.map (·.ctx) := by
      rw [show t.kept.map (·.ctx) = s.kept.map (·.ctx) from kept.trans before]
      exact List.mem_map.2 ⟨k, here, hk⟩
    obtain ⟨k', h, e⟩ := List.mem_map.1 this
    exact ⟨k', h, e⟩
  · rw [show t.ctxs = _ from ctxs] at hz
    obtain ⟨x, -, rfl⟩ := List.mem_map.1 hz
    by_cases hx : x.num == n
    · rw [if_pos hx]
      exact ⟨rfl, rfl⟩
    · rw [if_neg hx] at hn
      exact absurd (beq_iff_eq.2 hn) hx

theorem cxloadComplete_next {s : State} {x : Ctx} (h0 : s.ev.c = 0) (hx : s.ctx? s.ev.b = .some x) (hr : x.revoking = false) :
    ((s.loadable s.ev.b = false ∨ x.saveCmd ≠ .none) → exec .cxloadComplete s = .next (s.ctxStatus s.ev.a .cxloadComplete 1)) ∧
    (s.loadable s.ev.b = true → x.saveCmd = .none → ∀ header, s.sliceSpace (x.parent.getD 0) x.save 0x10000 = .ok header →
      (headerOk x header = false → exec .cxloadComplete s = .next (s.ctxStatus s.ev.a .cxloadComplete 1)) ∧
      (headerOk x header = true → ∀ area, s.readArea s.ev.b = .ok area → s.areaLost s.ev.b area = false →
        let was := ((s.kept.find? fun k => k.ctx == s.ev.b).map (·.header)).getD []
        let y := s.modCtx s.ev.b fun x => x.takeHeader was header
        (y.reconfigure s.ev.b = .none → exec .cxloadComplete s = .next (s.ctxStatus s.ev.a .cxloadComplete 2)) ∧
        ∀ t, y.reconfigure s.ev.b = .some t → ∃ v : State, exec .cxloadComplete s = .next v.reschedule ∧
          (∃ k ∈ v.kept, k.ctx = s.ev.b) ∧ (∀ z ∈ v.ctxs, z.num = s.ev.b → z.saved = false ∧ z.life = .away))) := by
  have run : exec .cxloadComplete s = execCxloadComplete s := rfl
  have zero : ¬ s.ev.c = 2 := by omega
  rw [run, execCxloadComplete]
  simp only [hx, hr, zero, if_false, Bool.false_eq_true]
  refine ⟨fun h => ?_, fun hl hs header hh => ⟨fun bad => ?_, fun good area ha lost => ⟨fun hn => ?_, fun t ht => ?_⟩⟩⟩
  · rw [if_pos]
    rcases h with h | h
    · simp [h]
    · simp [Option.isSome_iff_ne_none.2 h]
  all_goals rw [if_neg (by simp [hl, hs])]; simp only [hh]
  · simp [bad]
  all_goals simp only [good, ha, lost, Bool.not_true, Bool.false_eq_true, if_false]
  · rw [hn]
  · rw [ht]
    exact ⟨_, rfl, loaded_contexts (loadKept_ctx t s.ev.b area) (List.mem_cons_self ..)⟩


/-! ### The landing of a status (R134, R420) -/

theorem insertPend_perm (p : Pend) (l : List Pend) : (insertPend p l).Perm (p :: l) := by
  induction l with
  | nil => exact .refl _
  | cons q l ih =>
    unfold insertPend
    split
    · exact .refl _
    · exact (ih.cons q).trans (.swap p q l)

theorem issuer_of_mem {r : Regs} {id : Nat} (h : id ∈ r.issued ∨ ∃ p ∈ r.engPend, p.1 = id) : r.issuer id = true := by
  simpa [Regs.issuer] using h

/-- While no context is away, the frame that issued a command is changed on its core. -/
theorem modIssuer_regs {s : State} {c : Cmd} (f : Regs → Regs) (hk : s.kept = []) (h : IssuerHere s c) :
    (s.modIssuer c f).regs c.herd c.core = f (s.regs c.herd c.core) := by
  have issuer := issuer_of_mem h.mine
  have here : s.modIssuer c f = s.modCore c.herd c.core (Core.modIssuer c.id f) := if_neg (by simp [hk])
  rw [here, State.regs, State.modCore_core _ _ _ _ h.herd h.core]
  exact congrArg Core.r (if_pos issuer)

/-- The write of an engine's result at the end of this cycle. -/
def State.resultPend (s : State) (c : Cmd) (n : Nat) (v : Word) : Pend :=
  { due := s.tick, seq := c.seq, dest := .scalar n, val := v.setWidth 512, addr := c.addr }

/-- A frame whose scalar waits no longer for command `id`: the result p is pending. -/
def Regs.takeResult (r : Regs) (id : Nat) (p : Pend) : Regs :=
  { r with engPend := r.engPend.filter fun p => p.1 ≠ id, pend := insertPend p r.pend }

/-- The result of an engine for a frame that runs on its core is a pending write of this cycle. -/
theorem engineScalar_here {s : State} {c : Cmd} (n : Nat) (v : Word) (h : IssuerHere s c) :
    let t := s.modIssuer c fun r => r.takeResult c.id (s.resultPend c n v)
    s.engineScalar c n v = t.planEv t.tick 4 0 .registerWriteLand { a := c.herd, b := c.core } := by
  unfold State.engineScalar
  simp only [h.here.2, issuer_of_mem h.mine]
  rfl

theorem modIssuer_tick (s : State) (c : Cmd) (f : Regs → Regs) : (s.modIssuer c f).tick = s.tick := by
  unfold State.modIssuer
  dsimp only
  split <;> rfl

theorem modIssuer_cmds (s : State) (c : Cmd) (f : Regs → Regs) : (s.modIssuer c f).cmds = s.cmds := by
  unfold State.modIssuer
  dsimp only
  split <;> rfl

theorem engineScalar_cmds (s : State) (c : Cmd) (n : Nat) (v : Word) : (s.engineScalar c n v).cmds = s.cmds := by
  obtain ⟨f, e | e⟩ := engineScalar_cases s c n v
  · rw [e]; exact modIssuer_cmds s c f
  · rw [e]; exact modIssuer_cmds s c f

theorem engineScalar_lands {s : State} {c : Cmd} (n : Nat) (v : Word) (hk : s.kept = []) : ScalarLands s (s.engineScalar c n v) c n v := by
  intro _ _ h
  rw [engineScalar_here n v h]
  have regs (t p o : Nat) (i : Instr) (g : EvArg) :
      ((s.modIssuer c fun r => r.takeResult c.id (s.resultPend c n v)).planEv t p o i g).regs c.herd c.core =
        (s.regs c.herd c.core).takeResult c.id (s.resultPend c n v) := modIssuer_regs _ hk h
  refine ⟨⟨s.resultPend c n v, rfl, rfl, rfl, ?_, ?_⟩, ⟨_, mem_insertDue.2 (.inl rfl), modIssuer_tick .., rfl, rfl⟩, fun m => ?_⟩
  · show (v.setWidth 512).setWidth 32 = v
    simp
  · rw [regs]
    exact insertPend_perm ..
  · rw [regs]
    rfl

/-- The status of a CTX command lands in its register, and the command is outstanding no longer. -/
theorem ctxStatus_lands {s : State} {c : Cmd} {n : Nat} (i : Instr) (v : Word) (hc : s.cmd? s.ev.a = .some c)
    (hf : (s.ctx c.ctx).failed = false) (kind : c.kind = .cxq n ∨ ∃ x, c.kind = .cxsave n x ∨ c.kind = .cxload n x) (hk : s.kept = []) :
    ScalarLands s (s.ctxStatus s.ev.a i v) c n v ∧ CmdBecomes s (s.ctxStatus s.ev.a i v) s.ev.a fun _ c' => c'.outstanding = false := by
  have done : s.ctxStatus s.ev.a i v = (s.engineScalar c n v).modCmd s.ev.a fun c => { c with outstanding := false } := by
    unfold State.ctxStatus
    simp only [hc, hf, hk, List.any_nil, Bool.false_eq_true, if_false]
    rcases kind with e | ⟨x, e | e⟩ <;> rw [e]
  rw [done]
  refine ⟨engineScalar_lands n v hk, fun d hd => ?_⟩
  have after : (s.engineScalar c n v).cmd? s.ev.a = .some d := by rw [State.cmd?, engineScalar_cmds]; exact hd
  exact ⟨{ d with outstanding := false },
    (cmd?_modCmd (f := fun c => { c with outstanding := false }) _ _ fun _ => rfl).trans (by rw [after]; rfl), rfl, rfl, rfl⟩

/-! ### The end of a revocation (R88, R89) -/

theorem fallBack_ctxs (s : State) (l : List Nat) : (s.fallBack l).ctxs = s.ctxs := by
  refine foldl_keeps State.ctxs (fun s h => ?_) _ _
  dsimp only
  split <;> rfl

/-- What stands once herds have fallen back on spares stood before, whatever is planned after. -/
theorem mem_ctxs_of_fallBack {α : Type} {f : State → α → State} {s : State} {herds : List Nat} {l : List α} {x : Ctx}
    (hf : ∀ s a, (f s a).ctxs = s.ctxs) (h : x ∈ (l.foldl f (s.fallBack herds)).ctxs) : x ∈ s.ctxs := by
  rwa [foldl_keeps State.ctxs hf, fallBack_ctxs] at h

/-- No context of the subtree that ends stands any longer. -/
theorem endContext_ends (s : State) (n : Nat) : ∀ z ∈ (s.endContext n).ctxs, z.num ∉ s.subtree n := by
  intro z hz
  obtain ⟨x, hx, rfl⟩ := List.mem_map.1 hz
  have left := (List.mem_filter.1 (mem_ctxs_of_fallBack (by intros; rfl) hx)).2
  have same (p : Nat) (g : Ctx → Ctx) (hg : (g x).num = x.num) : (if x.num == p then g x else x).num = x.num := by
    split
    · exact hg
    · rfl
  rw [same]
  · simpa using left
  · split <;> rfl

theorem revocationComplete_next (s : State) :
    (s.ctx? s.ev.a = .none → exec .revocationComplete s = .next s) ∧
    ∀ x, s.ctx? s.ev.a = .some x → (s.subtree s.ev.a).all (fun n => (s.ctx n).life != .away || s.kept.any fun k => k.ctx == n) = true →
      let y := s.firstTaker 30 (s.chain (x.parent.getD 0))
      let steps := x.depth - (s.ctx y).depth
      exec .revocationComplete s = .next ((((s.endContext s.ev.a).reflect y steps
        (trapRecord true 0 { cls := 30 } s.ev.a steps 0 (s.vcyc s.ev.a))).reschedule)) := by
  have run : exec .revocationComplete s = execRevocationComplete s := rfl
  rw [run, execRevocationComplete]
  refine ⟨fun h => by simp [h], fun x h idle => ?_⟩
  simp only [h, foldl_saveUnused_idle idle]


/-! ### The stop of a unit (R404, R406, R407) -/

/-- The cycle and the contexts, which commands that stop and lines that an area takes leave alone. -/
def State.cycleAndCtxs (s : State) : Nat × List Ctx := (s.tick, s.ctxs)

theorem dropReads_cycleAndCtxs (s : State) (id k n : Nat) : (s.dropReads id k n).cycleAndCtxs = s.cycleAndCtxs := by
  unfold State.dropReads
  split
  · rfl
  · exact foldl_keeps State.cycleAndCtxs (fun s p => by split <;> rfl) _ _

theorem releaseBlock_cycleAndCtxs (s : State) (id k : Nat) : (s.releaseBlock id k).cycleAndCtxs = s.cycleAndCtxs := by
  unfold State.releaseBlock
  split
  · rfl
  · split
    · rfl
    · exact dropReads_cycleAndCtxs ..

theorem giveUpBlocks_cycleAndCtxs (s : State) (id : Nat) : (s.giveUpBlocks id).cycleAndCtxs = s.cycleAndCtxs := by
  unfold State.giveUpBlocks
  split
  · rfl
  · refine foldl_keeps State.cycleAndCtxs (fun s k => ?_) _ _
    split
    · rfl
    · exact releaseBlock_cycleAndCtxs s id k

theorem unclaimIn_cycleAndCtxs (s : State) (sp : Space) (id i : Nat) : (s.unclaimIn sp id i).cycleAndCtxs = s.cycleAndCtxs := by
  cases sp <;> rfl

theorem abandonBeat_cycleAndCtxs (s : State) (id i : Nat) : (s.abandonBeat id i).cycleAndCtxs = s.cycleAndCtxs := by
  unfold State.abandonBeat
  split
  · rfl
  · split
    · rfl
    · refine (unclaimIn_cycleAndCtxs ..).trans ((unclaimIn_cycleAndCtxs ..).trans ?_)
      exact foldl_keeps State.cycleAndCtxs (fun s p => by split <;> rfl) _ _

theorem abandonBeats_cycleAndCtxs (s : State) (id : Nat) (gone : Beat → Bool) : (s.abandonBeats id gone).cycleAndCtxs = s.cycleAndCtxs := by
  unfold State.abandonBeats
  split
  · rfl
  · refine foldl_keeps State.cycleAndCtxs (fun s p => ?_) _ _
    split
    · rfl
    · exact abandonBeat_cycleAndCtxs ..

theorem freeSend_cycleAndCtxs (s : State) (c : Cmd) : (s.freeSend c).cycleAndCtxs = s.cycleAndCtxs := by
  unfold State.freeSend
  split <;> rfl

theorem stopCmd_cycleAndCtxs (s : State) (c : Cmd) : (s.stopCmd c).cycleAndCtxs = s.cycleAndCtxs := by
  have given (gone : Beat → Bool) : ((s.abandonBeats c.id gone).giveUpBlocks c.id).cycleAndCtxs = s.cycleAndCtxs :=
    (giveUpBlocks_cycleAndCtxs ..).trans (abandonBeats_cycleAndCtxs ..)
  unfold State.stopCmd
  split
  case h_8 => exact given _
  case h_9 => exact (abandonBeats_cycleAndCtxs ..).trans (freeSend_cycleAndCtxs ..)
  case h_10 =>
    split
    · rfl
    · exact given _
  all_goals rfl

theorem sendLost_cycleAndCtxs (s : State) (c : Cmd) : (s.sendLost c).cycleAndCtxs = s.cycleAndCtxs := by
  unfold State.sendLost
  split <;> rfl

theorem takeArea_cycleAndCtxs (s : State) (n lines : Nat) (ask : Ask) : (s.takeArea n lines ask).cycleAndCtxs = s.cycleAndCtxs := by
  unfold State.takeArea
  split
  · next p _ =>
    obtain ⟨l, h⟩ := takeRange_only s p (s.ctx n).save (64 * lines) ask
    rw [h]
    rfl
  · rfl

/-- An update of one context has the same outcome wherever the contexts are the same. -/
theorem modCtx_cycleAndCtxs {s t : State} (h : t.cycleAndCtxs = s.cycleAndCtxs) (n : Nat) (f : Ctx → Ctx) :
    (t.modCtx n f).cycleAndCtxs = (s.modCtx n f).cycleAndCtxs :=
  congrArg (fun p : Nat × List Ctx => (p.1, p.2.map fun x : Ctx => if x.num == n then f x else x)) h

theorem ctx_of_cycleAndCtxs {s t : State} (h : t.cycleAndCtxs = s.cycleAndCtxs) (n : Nat) : t.ctx n = s.ctx n := by
  have ctxs : t.ctxs = s.ctxs := congrArg Prod.snd h
  rw [State.ctx, State.ctx?, ctxs]
  rfl

/-- Stage 0 of a stop changes no context but its own, which is being saved. -/
theorem beginSave_cycleAndCtxs (s : State) (n : Nat) :
    (s.beginSave n).cycleAndCtxs = (s.modCtx n fun c => { c with life := .saving }).cycleAndCtxs := by
  have saved (t : State) (a : List Due) (k : List Kept) (h : t.cycleAndCtxs = s.cycleAndCtxs) :
      ({ t with agenda := a, kept := k } : State).cycleAndCtxs = s.cycleAndCtxs := h
  unfold State.beginSave
  dsimp only
  refine modCtx_cycleAndCtxs (saved _ _ _ ?_) _ _
  refine (foldl_keeps State.cycleAndCtxs (by intros; rfl) _ _).trans ?_
  refine (foldl_keeps State.cycleAndCtxs (fun t d => by split <;> rfl) _ _).trans ?_
  refine (foldl_keeps State.cycleAndCtxs stopCmd_cycleAndCtxs _ _).trans (foldl_keeps State.cycleAndCtxs (fun t c => ?_) _ _)
  split
  · rfl
  · exact sendLost_cycleAndCtxs t c

theorem beginSave_tick (s : State) (n : Nat) : (s.beginSave n).tick = s.tick := congrArg Prod.fst (beginSave_cycleAndCtxs s n)

theorem beginSave_ctx? (s : State) (n m : Nat) :
    (s.beginSave n).ctx? m = (s.ctx? m).map fun x => if m = n then { x with life := .saving } else x := by
  have same : (s.beginSave n).ctxs = _ := congrArg Prod.snd (beginSave_cycleAndCtxs s n)
  rw [State.ctx?, same]
  exact ctx?_modCtx_any (f := fun c => { c with life := .saving }) s n m fun _ => rfl

/-- Stage 0 of a stop: each of the contexts that stop is being saved. -/
theorem foldl_beginSave_life {s : State} {l : List Nat} {m : Nat} {x : Ctx} (hx : s.ctx? m = .some x) (hm : m ∈ l ∨ x.life = .saving) :
    ((l.foldl State.beginSave s).ctx m).life = .saving := by
  induction l generalizing s x with
  | nil => rw [List.foldl_nil, ctx_of_ctx? hx]; simpa using hm
  | cons n l ih =>
    have next := beginSave_ctx? s n m
    rw [hx] at next
    refine ih next ?_
    by_cases e : m = n
    · simp [e]
    · simpa [e] using hm

/-- What changes no context's life leaves every life. -/
theorem modCtx_life (s : State) (n m : Nat) {f : Ctx → Ctx} (hn : ∀ x, (f x).num = x.num) (hf : ∀ x, (f x).life = x.life) :
    ((s.modCtx n f).ctx m).life = (s.ctx m).life := by
  rw [State.ctx, State.ctx, ctx?_modCtx_any s n m hn]
  cases s.ctx? m with
  | none => rfl
  | some x =>
    dsimp only [Option.map_some, Option.getD_some]
    split
    · exact hf x
    · rfl

theorem unchoose_keeps {α : Type} (π : State → α) (h : ∀ s n, π (s.modCtx n fun c => { c with chosen := false }) = π s)
    (s : State) (u : Nat) (own : Bool) : π (s.unchoose u own) = π s := by
  have left : π ((s.subtree u).foldl (fun s n => if s.memberIdle n then s.modCtx n fun c => { c with chosen := false } else s) s) = π s := by
    refine foldl_keeps π (fun t n => ?_) _ _
    split
    · exact h t n
    · rfl
  unfold State.unchoose
  split
  · exact h s u
  · dsimp only
    split
    · split
      · exact (h _ _).trans left
      · exact left
    · exact left

theorem unchoose_life (s : State) (u : Nat) (own : Bool) (m : Nat) : ((s.unchoose u own).ctx m).life = (s.ctx m).life :=
  unchoose_keeps (fun s => (s.ctx m).life) (fun s n => modCtx_life s n m (fun _ => rfl) fun _ => rfl) s u own

theorem unchoose_agenda (s : State) (u : Nat) (own : Bool) : (s.unchoose u own).agenda = s.agenda :=
  unchoose_keeps State.agenda (fun _ _ => rfl) s u own

theorem moveCycles_ge (s : State) (l : List Nat) (herds marks least free : Nat) : least ≤ s.moveCycles l herds marks least free := by
  unfold State.moveCycles
  split <;> exact Nat.le_add_right ..

theorem ctx?_of_mem {s : State} {k : Ctx} (hk : k ∈ s.ctxs) (h : s.ctx k.num = k) : s.ctx? k.num = .some k := by
  have found : (s.ctx? k.num).isSome := List.find?_isSome.2 ⟨k, hk, beq_self_eq_true _⟩
  obtain ⟨x, hx⟩ := Option.isSome_iff_exists.1 found
  rw [hx, ← ctx_of_ctx? hx, h]

/-- Stage 0 of a stop: every context of the unit is being saved, and the end of the save is planned. -/
theorem contextStop_saves {s : State} {k : Ctx} (h0 : s.ev.b = 0) (hk : k ∈ s.ctxs) (life : k.life = .draining)
    (unit : k.stopUnit = s.ev.a) (own : s.ctx k.num = k) : ∃ u : State, exec .contextStop s = .next u.reschedule ∧
      (u.ctx k.num).life = .saving ∧ ∃ d ∈ u.agenda, s.tick < d.at_ ∧ d.act = .ev .contextStop { a := s.ev.a, b := 1 } := by
  have mine : k.num ∈ (s.ctxs.filter fun k => k.life == .draining && k.stopUnit == s.ev.a).map (·.num) :=
    List.mem_map_of_mem (List.mem_filter.2 ⟨hk, by simp [life, unit]⟩)
  have some : ((s.ctxs.filter fun k => k.life == .draining && k.stopUnit == s.ev.a).map (·.num)).isEmpty = false :=
    List.isEmpty_eq_false_iff.2 (List.ne_nil_of_mem mine)
  have run : exec .contextStop s = execContextStop s := rfl
  rw [run, execContextStop]
  dsimp only
  rw [if_pos h0, some]
  generalize (s.ctxs.filter fun k => k.life == .draining && k.stopUnit == s.ev.a).map (·.num) = l at mine ⊢
  have saving := foldl_beginSave_life (ctx?_of_mem hk own) (.inl mine)
  have tick : (l.foldl State.beginSave s).tick = s.tick := foldl_keeps State.tick beginSave_tick l s
  generalize l.foldl State.beginSave s = t at saving tick ⊢
  have moved (areas : State → Nat → Nat) : (l.foldl (fun s n => s.takeArea n (areas s n) .write) t.fresh.2).cycleAndCtxs = t.cycleAndCtxs :=
    (foldl_keeps State.cycleAndCtxs (by intros; exact takeArea_cycleAndCtxs ..) _ _).trans rfl
  refine ⟨_, rfl, ?_, ?_⟩
  · rw [unchoose_life]
    exact (congrArg Ctx.life (ctx_of_cycleAndCtxs (moved _) k.num)).trans saving
  · rw [unchoose_agenda]
    refine ⟨_, mem_insertDue.2 (.inl rfl), ?_, rfl⟩
    refine Nat.lt_of_lt_of_le ?_ (Nat.le_max_right ..)
    refine Nat.lt_of_lt_of_le (Nat.lt_succ_of_le (Nat.le_of_eq ?_)) (Nat.add_le_add_left ((Nat.le_max_left 1 _).trans (moveCycles_ge ..)) _)
    exact tick.symm.trans (congrArg Prod.fst (moved _)).symm


/-! ### Slices, budgets, drains and restores (R87, R356, R402, R405, R414, R416) -/

theorem budgetStop_next {s : State} (hb : (s.ctx s.ev.a).budgetStopped = false) (hf : (s.ctx s.ev.a).failed = false)
    (hr : (s.ctx s.ev.a).revoking = false) (hp : (s.ctx s.ev.a).parent ≠ .none) :
    let x := s.ctx s.ev.a
    let y := s.routeTrap s.ev.a s.ev.a 29
    let steps := x.depth - (s.ctx y).depth
    exec .budgetStop s = .next (((s.modCtx s.ev.a fun k => { k with budgetStopped := true }).reflect y steps
      (trapRecord true 0 { cls := 29 } s.ev.a steps (s.regs x.lead 0).pc (s.vcyc s.ev.a))).reschedule) := by
  have run : exec .budgetStop s = execBudgetStop s := rfl
  rw [run, execBudgetStop]
  simp [hb, hf, hr, hp]

theorem deficitRenewal_next (s : State) :
    ((s.ctx s.ev.a).member = 0 → exec .deficitRenewal s = .next (s.modCtx s.ev.a fun k => { k with
      ownDeficit := k.ownDeficit + ((s.memberWeight s.ev.a 0 * 121600 : Nat) : Int) })) ∧
    ((s.ctx s.ev.a).member ≠ 0 → exec .deficitRenewal s = .next (s.modCtx (s.ctx s.ev.a).member fun k => { k with
      deficit := k.deficit + ((s.memberWeight s.ev.a (s.ctx s.ev.a).member * 121600 : Nat) : Int) })) := by
  have run : exec .deficitRenewal s = execDeficitRenewal s := rfl
  rw [run, execDeficitRenewal]
  exact ⟨fun h => by simp [h, quantum], fun h => by simp [h, quantum]⟩

theorem gridDrainStart_next {s : State} (h1 : s.ev.c = 1) (life : (s.ctx s.ev.a).life = .resident) (on : (s.ctx s.ev.a).onGrid = true)
    (grid : (s.ctx s.ev.a).grid = .some s.ev.b) (ok : s.ev.ok = true) (hr : (s.ctx s.ev.a).revoking = false)
    (hs : (s.ctx s.ev.a).saved = false) (hb : (s.ctx s.ev.a).budgetStopped = false) :
    exec .gridDrainStart s = .next (s.beginStop s.ev.a [s.ev.a] true .slice s.tick (.some s.ev.b)) := by
  have run : exec .gridDrainStart s = execGridDrainStart s := rfl
  rw [run, execGridDrainStart]
  simp [h1, on, grid, hr, hs, hb, State.unitHere, life, ok]

theorem drainWatchdog_next (s : State) :
    ((s.ctx s.ev.a).life = .draining → (s.ctx s.ev.a).stop = .some .save → ∃ addr, exec .drainWatchdog s = .next (s.fatal s.ev.a 5 addr)) ∧
    ((s.ctx s.ev.a).life ≠ .draining → exec .drainWatchdog s = .next s) := by
  have run : exec .drainWatchdog s = execDrainWatchdog s := rfl
  rw [run, execDrainWatchdog]
  refine ⟨fun life stop => ?_, fun life => by simp [life]⟩
  simp only [life, stop]
  exact ⟨_, rfl⟩

theorem contextRestore_next {s : State} (life : (s.ctx s.ev.a).life = .restoring) (hf : (s.ctx s.ev.a).failed = false) :
    (s.ev.b = 0 → (∀ k ∈ s.kept, k.ctx ≠ s.ev.a) →
      let y := s.modCtx s.ev.a fun c => { c with runNext := false }
      exec .contextRestore s = .next (((y.ownHerds s.ev.a).foldl State.freshHerd y).enterResidency s.ev.a)) ∧
    (s.ev.b = 1 → exec .contextRestore s = .next (((if (s.ctx s.ev.a).runNext then s.resumeStopped s.ev.a s.tick else s).modCtx
      s.ev.a fun c => { c with runNext := false }).enterResidency s.ev.a)) := by
  have run : exec .contextRestore s = execContextRestore s := rfl
  rw [run, execContextRestore]
  refine ⟨fun h0 fresh => ?_, fun h1 => by simp [life, hf, h1]⟩
  have none : (s.kept.find? fun k => k.ctx == s.ev.a) = .none := by simpa using fresh
  simp [life, hf, h0, none]

/-! ### The start of a stream program (R63) -/

/-- Each word of a mailbox box is read or is a free value. The predicate stays abstract here, so that nothing evaluates a translation. -/
theorem mailboxWords_rule {P : State × List Word → Prop} (s : State) (x : Nat) (q : Queue) (start : P (s, []))
    (read : ∀ t l w, P (t, l) → P (t, l ++ [w])) (free : ∀ (t : State) l w, P (t, l) → P (t.fresh.2, l ++ [w])) :
    P (s.mailboxWords x q) := by
  unfold State.mailboxWords
  refine List.foldlRecOn _ _ start fun p h i _ => ?_
  extract_lets a
  cases (if p.1.spaceBad x a 4 .read then .none else (p.1.readSpace x a 4).toOption) with
  | none => exact free _ _ _ h
  | some b => exact read _ _ _ h

/-- What a free value leaves, the words of a mailbox box leave. -/
theorem mailboxWords_keeps {α : Type} (π : State → α) (h : ∀ t, π t.fresh.2 = π t) (s : State) (x : Nat) (q : Queue) :
    π (s.mailboxWords x q).1 = π s :=
  mailboxWords_rule (P := fun p => π p.1 = π s) s x q rfl (fun _ _ _ kept => kept) fun t _ _ kept => (h t).trans kept

theorem takeRange_cycleAndCtxs (s : State) (x a n : Nat) (ask : Ask) : (s.takeRange x a n ask).cycleAndCtxs = s.cycleAndCtxs := by
  obtain ⟨l, h⟩ := takeRange_only s x a n ask
  rw [h]
  rfl

/-- A context whose queue q starts a program (R63, steps 1 and 2). -/
def Ctx.startProgram (x : Ctx) (q : Nat) : Ctx :=
  { x with queues := x.queues.modify q fun k => { k with state := 2, fail := false }, pend := x.pend &&& ~~~(1#16 <<< q) }

theorem queue_startProgram {x : Ctx} {q : Nat} (h : q < x.queues.length) :
    (x.startProgram q).queue q = { x.queue q with state := 2, fail := false } := by
  simp [Ctx.queue, Ctx.startProgram, List.getD_eq_getElem?_getD, h]

theorem pend_startProgram (x : Ctx) {q : Nat} (h : q < 16) : (x.startProgram q).pend.getLsbD q = false := by
  simp [Ctx.startProgram, h]

/-- Steps 1 and 2 of a program's start. -/
def State.startProgram (s : State) (x q : Nat) : State :=
  (s.modQueue x q fun k => { k with state := 2, fail := false }).modCtx x fun c => { c with pend := c.pend &&& ~~~(1#16 <<< q) }

theorem ctx_startProgram {s : State} {x : Nat} (q : Nat) (h : ∃ z, s.ctx? x = .some z) :
    (s.startProgram x q).ctx x = (s.ctx x).startProgram q := by
  obtain ⟨z, h⟩ := h
  have queued : (s.modQueue x q fun k => { k with state := 2, fail := false }).ctx? x = _ := ctx?_modCtx s x fun _ => rfl
  have started : (s.startProgram x q).ctx? x = _ := ctx?_modCtx _ x fun _ => rfl
  rw [queued, h] at started
  rw [ctx_of_ctx? started, ctx_of_ctx? h]
  rfl

theorem streamProgramStart_first {s : State} (hf : (s.ctx s.ev.a).failed = false) (hr : (s.ctx s.ev.a).revoking = false)
    (h0 : s.ev.c = 0) (waits : ((s.ctx s.ev.a).queue s.ev.b).state = 1) (life : (s.ctx s.ev.a).life = .resident)
    (hx : ∃ z, s.ctx? s.ev.a = .some z) :
    ∃ u, exec .streamProgramStart s = .next u ∧ u.ctx s.ev.a = (s.ctx s.ev.a).startProgram s.ev.b ∧
      ∃ d ∈ u.agenda, ∃ words, d.at_ = s.tick + (s.ev.words.headD 1).toNat ∧
        d.act = .ev .streamProgramStart { a := s.ev.a, b := s.ev.b, c := 1, words := words } := by
  let k := (s.ctx s.ev.a).queue s.ev.b
  have words : (((s.startProgram s.ev.a s.ev.b).takeRange s.ev.a k.mbox (4 * Nat.min k.nparam k.mlen) .read).mailboxWords s.ev.a k).1.cycleAndCtxs =
      (s.startProgram s.ev.a s.ev.b).cycleAndCtxs :=
    (mailboxWords_keeps State.cycleAndCtxs (fun _ => rfl) ..).trans (takeRange_cycleAndCtxs ..)
  have ev : (((s.startProgram s.ev.a s.ev.b).takeRange s.ev.a k.mbox (4 * Nat.min k.nparam k.mlen) .read).mailboxWords s.ev.a k).1.ev = s.ev :=
    (mailboxWords_keeps State.ev (fun _ => rfl) ..).trans (takeRange_ev ..)
  have run : exec .streamProgramStart s = execStreamProgramStart s := rfl
  rw [run, execStreamProgramStart]
  simp only [hf, hr, h0, waits, life]
  refine ⟨_, rfl, ?_, _, mem_insertDue.2 (.inl rfl), _, ?_, rfl⟩
  · exact (ctx_of_cycleAndCtxs words s.ev.a).trans (ctx_startProgram s.ev.b hx)
  · exact congrArg₂ (fun (t : Nat) (e : EvArg) => t + (e.words.headD 1).toNat) (congrArg Prod.fst words) ev

theorem streamProgramStart_last {s : State} (hf : (s.ctx s.ev.a).failed = false) (hr : (s.ctx s.ev.a).revoking = false) (h1 : s.ev.c = 1)
    (free : s.leadBusy s.ev.a = false) (life : (s.ctx s.ev.a).life = .resident) :
    exec .streamProgramStart s = .next (s.enterProgram s.ev.a s.ev.b s.ev.words) := by
  have run : exec .streamProgramStart s = execStreamProgramStart s := rfl
  rw [run, execStreamProgramStart]
  simp [hf, hr, h1, free, life]

/-- Settles O53: each event once its guards are decided; `foldl_beginSave_life` (every context of the unit is being saved) carries the
stop, `engineScalar_lands` the statuses. -/
theorem contextEvents : Obligations.ContextEvents := by
  refine ⟨fun s c hc here => ⟨fun n hk => cxmkComplete_next hc here hk, fun x hk => cxgiveComplete_next hc here hk⟩,
    fun s t p x l h => createCtx_valid h,
    fun s c n hc hk h1 hf own hr hx => cxqComplete_next hc hk h1 hf own hr hx,
    fun s hx => cxsaveComplete_next hx,
    fun s x h0 hx hr => cxloadComplete_next h0 hx hr,
    fun s c n i v hc hf kind hk => ctxStatus_lands i v hc hf kind hk,
    fun s => ⟨(revocationComplete_next s).1, fun x hx idle =>
      ⟨(revocationComplete_next s).2 x hx idle, endContext_ends s s.ev.a⟩⟩,
    fun s => ⟨budgetStop_next, rfl, rfl, (deficitRenewal_next s).1, (deficitRenewal_next s).2, gridDrainStart_next,
      (drainWatchdog_next s).1, (drainWatchdog_next s).2, fun h0 k hk => contextStop_saves h0 hk,
      fun h0 life hf => (contextRestore_next life hf).1 h0, fun h1 life hf => (contextRestore_next life hf).2 h1⟩,
    fun s => ?_⟩
  intro x hf hr
  refine ⟨fun h0 waits life hq hx => ?_, fun h1 free life => streamProgramStart_last hf hr h1 free life⟩
  obtain ⟨u, next, ctx, planned⟩ := streamProgramStart_first hf hr h0 waits life hx
  refine ⟨u, next, ?_, ?_, fun h16 => ?_, planned⟩
  · rw [ctx, queue_startProgram hq]
  · rw [ctx, queue_startProgram hq]
  · rw [ctx, pend_startProgram _ h16]

end Sys2Proof.Machine

/-! ## Where a trap goes (R83, R84, R391)

The chain of a context is the way up to the root; a trap goes to the first of it that takes the class. -/

namespace Sys2Proof.Machine

/-! ### The chain of a context (R68) -/

theorem chainFrom_root {s : State} {n : Nat} (k : Nat) (h : (s.ctx n).parent = .none) : s.chainFrom (k + 1) n = [n] := by
  rw [State.chainFrom, h]

theorem chainFrom_child {s : State} {n p : Nat} (k : Nat) (h : (s.ctx n).parent = .some p) :
    s.chainFrom (k + 1) n = n :: s.chainFrom k p := by
  rw [State.chainFrom, h]

theorem chainFrom_ne_nil (s : State) (k n : Nat) : s.chainFrom (k + 1) n ≠ [] := by
  cases h : (s.ctx n).parent with
  | none => simp [chainFrom_root k h]
  | some p => simp [chainFrom_child k h]

/-- A chain that ends below its bound ends at the root, so that the next bound gives no more of it. -/
theorem chainFrom_succ_of_length_le {s : State} {k n : Nat} (short : (s.chainFrom (k + 1) n).length ≤ k) :
    s.chainFrom (k + 1) n = s.chainFrom k n := by
  induction k generalizing n with
  | zero => exact absurd (List.length_eq_zero_iff.1 (Nat.le_zero.1 short)) (chainFrom_ne_nil s 0 n)
  | succ k ih =>
    cases h : (s.ctx n).parent with
    | none => rw [chainFrom_root _ h, chainFrom_root _ h]
    | some p =>
      rw [chainFrom_child _ h, List.length_cons] at short
      rw [chainFrom_child _ h, chainFrom_child _ h, ih (Nat.le_of_succ_le_succ short)]

/-- The only way from a context over its parents to the root, where it is no longer than the bound, is its chain. -/
theorem chainFrom_eq_way {s : State} {k a : Nat} {l : List Nat} (short : (a :: l).length ≤ k)
    (up : ∀ i y z, (a :: l)[i]? = .some y → (a :: l)[i + 1]? = .some z → (s.ctx y).parent = .some z)
    (root : ∀ y, (a :: l).getLast? = .some y → (s.ctx y).parent = .none) : s.chainFrom k a = a :: l := by
  induction l generalizing a k with
  | nil =>
    obtain ⟨k, rfl⟩ := Nat.exists_eq_add_of_le' short
    exact chainFrom_root k (root a rfl)
  | cons b l ih =>
    obtain ⟨k, rfl⟩ := Nat.exists_eq_add_of_le' (Nat.le_of_add_left_le short)
    have rest : s.chainFrom k b = b :: l :=
      ih (Nat.le_of_succ_le_succ short) (fun i => up (i + 1)) fun y last => root y (by rwa [List.getLast?_cons_cons])
    rw [chainFrom_child k (up 0 a b rfl rfl), rest]

/-! ### The first of a chain that takes a class (R83) -/

theorem takes_eq_false_iff {y : Ctx} {n : Nat} : y.takes n = false ↔ y.deleg.getLsbD n = false ∨ y.hentry.getLsbD 31 = false :=
  Bool.and_eq_false_iff

theorem takes_eq_true_iff {y : Ctx} {n : Nat} : y.takes n = true ↔ y.deleg.getLsbD n = true ∧ y.hentry.getLsbD 31 = true :=
  Bool.and_eq_true_iff

theorem firstTaker_cons_of_takes {s : State} {y n : Nat} (l : List Nat) (h : (s.ctx y).takes n = true) :
    s.firstTaker n (y :: l) = y := by
  cases l with
  | nil => rfl
  | cons z l => rw [State.firstTaker, if_pos h]; exact nofun

theorem firstTaker_cons_of_not_takes {s : State} {y n : Nat} {l : List Nat} (h : (s.ctx y).takes n = false) (more : l ≠ []) :
    s.firstTaker n (y :: l) = s.firstTaker n l := by
  rw [State.firstTaker, h]
  · exact if_neg Bool.false_ne_true
  · exact more

/-- The first taker of a list stands in it past contexts that do not take the class, and it takes the class or is the last. -/
theorem firstTaker_stands (s : State) (n a : Nat) (l : List Nat) :
    ∃ k y, (a :: l)[k]? = .some y ∧ s.firstTaker n (a :: l) = y ∧
      (∀ j < k, ∀ z, (a :: l)[j]? = .some z → (s.ctx z).takes n = false) ∧ ((s.ctx y).takes n = true ∨ k + 1 = (a :: l).length) := by
  induction l generalizing a with
  | nil => exact ⟨0, a, rfl, rfl, nofun, .inr rfl⟩
  | cons b l ih =>
    cases h : (s.ctx a).takes n with
    | true => exact ⟨0, a, rfl, firstTaker_cons_of_takes _ h, nofun, .inl h⟩
    | false =>
      obtain ⟨k, y, at_k, taker, before, ends⟩ := ih b
      refine ⟨k + 1, y, at_k, (firstTaker_cons_of_not_takes h (List.cons_ne_nil b l)).trans taker, fun j lt z at_j => ?_,
        ends.imp_right (congrArg (· + 1))⟩
      cases j with
      | zero => cases at_j; exact h
      | succ j => exact before j (Nat.lt_of_succ_lt_succ lt) z at_j

/-! ### The context that takes a trap (R83, R84) -/

/-- A trap goes to the first taker on the chain of its owner, or of x's parent where the class is reserved and x's own; a context
without a parent is the whole of its chain. -/
theorem routeTrap_eq_firstTaker (s : State) (x owner n : Nat) :
    s.routeTrap x owner n =
      s.firstTaker n (s.chain (if owner = x ∧ 27 ≤ n then ((s.ctx x).parent).getD x else owner)) := by
  by_cases own : owner = x ∧ 27 ≤ n
  · cases h : (s.ctx x).parent with
    | none => simp [State.routeTrap, own, h, State.chain, chainFrom_root, State.firstTaker]
    | some p => simp [State.routeTrap, own, h]
  · simp [State.routeTrap, own]

theorem routeTrap_reserved {s : State} {x p n : Nat} (h : (s.ctx x).parent = .some p) (reserved : 27 ≤ n) :
    s.routeTrap x x n = s.firstTaker n (s.chain p) := by
  rw [routeTrap_eq_firstTaker, if_pos ⟨rfl, reserved⟩, h, Option.getD_some]

theorem routeTrap_own {s : State} {x p n : Nat} (h : (s.ctx x).parent = .some p) (unreserved : n < 27) :
    s.routeTrap x x n = s.firstTaker n (x :: s.chainFrom 4 p) := by
  rw [routeTrap_eq_firstTaker, if_neg fun own => Nat.not_le_of_lt unreserved own.2, State.chain, chainFrom_child 4 h]

/-- Settles O31: the way to the root is the chain from where the trap starts (`chainFrom_eq_way`), and `firstTaker_stands` says where
on it the trap stops. -/
theorem trapRouting : Obligations.TrapRouting := by
  refine ⟨fun s x p n parent => ⟨fun lt takes => ?_, fun lt takes short => ?_, routeTrap_reserved parent, rfl⟩,
    fun s x owner n way short head up root => ?_⟩
  · rw [routeTrap_own parent lt, firstTaker_cons_of_takes _ takes]
  · rw [routeTrap_own parent lt, firstTaker_cons_of_not_takes takes (chainFrom_ne_nil s 3 p), State.chain,
      chainFrom_succ_of_length_le (Nat.le_of_lt_succ short)]
  · cases way with
    | nil => cases head
    | cons a l =>
      obtain ⟨k, y, at_k, taker, before, ends⟩ := firstTaker_stands s n a l
      have goes : s.routeTrap x owner n = y := by
        rw [routeTrap_eq_firstTaker, ← Option.some.inj head, State.chain, chainFrom_eq_way short up root, taker]
      exact ⟨k, y, at_k, goes, fun j lt z at_j => takes_eq_false_iff.1 (before j lt z at_j), ends.imp_left takes_eq_true_iff.1⟩

end Sys2Proof.Machine

/-! ## Bundles and encoding: decoder and encoder agree (R107 to R119) -/

namespace Sys2Proof.Laws.Encode

/-- The law of each syllable and of each event, put together along the constructors. -/
theorem statement (i : Instr) : Statement i :=
  i.rec (motive := Statement)
    bset bsetr bgo bgon blink bback loop loopi lpipe lidx trap wait waiti kill killt rdsr wrsr phase pand por pxor pnot pmov vany vall
    pfirst pcnt add sub mul mulh mulhu div divu and or xor min max minu maxu sel addi andi ori xori slti sltui fadd fsub fmul fma fmin
    fmax fneg fabs f2i i2f icmpEq icmpNe icmpLt icmpLtu icmpLe icmpLeu fcmpEq fcmpLt fcmpLe fcmpUn shl shr sra rol fsh fshr clz ctz popc
    bext bins bswap cpack cadd crow ccol bxdim bxok fli lmemLdb lmemLdh lmemLdw lmemStb lmemSth lmemStw lmemTldr lmemTstr hmemLdb hmemLdh
    hmemLdw hmemStb hmemSth hmemStw hmemTldr hmemTstr ldwa ldwc tldra tldrc atclr amadd amswap amcas ammin ammax amand amor amxor tadd
    taddSat tsub tsubSat tmul tmulSat tmulh tmin tmax tand tor txor tshl tshr tsra tfsh tabs tabsSat tnegSat tfadd tfsub tfmul tfma tfmin
    tfmax tfabs tfrint tfexp tfins tfrcp tfrsq tcmpEq tcmpNe tcmpLt tcmpLe tcmpGt tcmpGe tfcmpEq tfcmpLt tfcmpLe tfcmpUn tfcmpGt tfcmpGe
    tcvt tcvtSat tquant tdeq tdeqHi tscx tscxHi tdeqU tdeqUHi tmov tbcast tbcastL trot tshuf tredMax tredMin tredAdd tsel tpack tunpk
    ttrans kld kst kbase krow kset ksetAll mload mrun mzero mread mspillAcc mspillSlot mfillAcc mfillSlot menc mcomp mprog mprogOpen
    mprogClr mgeoA mgeoW mgeoD mgeoN wcopy wmcast wgath wscat wprom wamoAdd wamoSwap wamoCas wamoMax wgeo wgeoHi wgeoTab wsnap wcall
    lsend lrecv llat gcyc gmeas gadj lpair cxmk cxgive cxrev cxrun cxsave cxload cxpend cxq apset apclr apq lbreak nop eret fenceH fenceD
    yield modeExposed modeInterlocked atclrAll wret wjoin mailboxWrite mailboxRead kick kcoalWrite kickPageRegisterWrite
    streamProgramStart bundleIssue registerWriteLand memoryPerform waitExpiry walkerBeatPerform dramRetry walkFaultPending wamoComplete
    apsetComplete snapBlockHashed expanderDeliver arrayGroupWrite slotLoadComplete accumulatorFillComplete spillRowPerform
    encodeGroupPerform childEntry outwardCopyApply callerResume joinRelease reflectedTrapEntry cxmkComplete cxgiveComplete cxqComplete
    cxsaveComplete cxloadComplete revocationComplete budgetStop sliceEnd drainWatchdog contextStop contextRestore beaconSend
    beaconReceive gcycStep timedFlitDepart timedFlitArrive linkBeatPerform receiveWindowClose portTrained laneFailure currentWarning
    thermalWarning trip reset reportReady hmBankRetire herdFailure pseudoChannelRetire resvCopyComplete smbusReadSrs smbusClearSr
    smbusReadEvent smbusStartReport smbusReadReport smbusReset gridDrainStart deficitRenewal ecntSaturation thermalWarningEnd
    currentWarningEnd

/-- A word that fits a well-formed syllable passes every check of the decoder, in the order of their causes (R119, R120). -/
theorem Fits.decode_eq {w : BitVec 32} {i : Instr} (fits : Fits w i) (wf : i.wf = true) : decode w = .ok i := by
  obtain ⟨r, row, rfl, variant, fixed⟩ := fits
  simp only [Instr.wf, Bool.and_eq_true, Bool.not_eq_true'] at wf
  obtain ⟨⟨⟨⟨-, reserved⟩, unused⟩, dest⟩, pair⟩ := wf
  simp [decode, row, variant, fixed, reserved, unused, dest, pair]

end Sys2Proof.Laws.Encode

namespace Sys2Proof.Machine

/-- Settles O58: the encoder's word fits its syllable (`Laws.Encode.statement`), and what fits decodes to it. -/
theorem decodeEncode : Obligations.DecodeEncode :=
  fun i pos guard wf => (Laws.Encode.statement i wf pos guard).decode_eq wf

/-- Settles O57: the decoder run on each word that the tables print. -/
theorem decodeWords : Obligations.DecodeWords := by
  unfold Obligations.DecodeWords
  decide

end Sys2Proof.Machine

namespace Sys2Proof.Machine

/-! ### Source specifiers (R110, R25, R105, R144) -/

section
variable (s : State) {f : BitVec 5} (i : Nat)

theorem src_register (h : f.toNat ≤ 23) : s.src f i = s.reg f.toNat := if_pos h

theorem src_window (h : 24 ≤ f.toNat) (h' : f.toNat ≤ 29) : s.src f i = s.constant (f.toNat - 24) := by
  rw [State.src, if_neg (Nat.not_le_of_lt h), if_pos h']

end

/-- A register that does not trap as a dead one reads its value. -/
theorem reg_eq_scalar {s : State} {n : Nat} (h : n = 0 ∨ s.R.deadS.getLsbD n = false ∨ s.R.deadTraps = false) :
    s.reg n = .ok (s.R.scalar n) := by
  rcases h with h | h | h <;> simp [State.reg, h]

theorem reg_dead_traps {s : State} {n : Nat} (h0 : n ≠ 0) (dead : s.R.deadS.getLsbD n = true) (dm : s.R.deadTraps = true) :
    s.reg n = .error (.trap { cls := 7, d0 := BitVec.ofNat 32 n }) := by
  simp [State.reg, h0, dead, dm]

theorem scalar_live {r : Regs} {n : Nat} (h0 : n ≠ 0) (live : r.deadS.getLsbD n = false) : r.scalar n = r.s.getD n 0 := by
  simp [Regs.scalar, h0, live]

theorem scalar_dead {r : Regs} {n : Nat} (dead : r.deadS.getLsbD n = true) : r.scalar n = 0 := by
  simp [Regs.scalar, dead]

theorem pastBlock_iff {s : State} {f : BitVec 5} : s.pastBlock f = true ↔
    24 ≤ f.toNat ∧ f.toNat ≤ 29 ∧ ∃ b, s.R.bank = .some b ∧ b.length ≤ s.R.winBase.toNat + (f.toNat - 24) := by
  cases bank : s.R.bank <;> simp [State.pastBlock, bank, and_assoc]

/-- Settles O2, specifier by specifier: a register by `src_register`, the window by `src_window`, and PBND by `pastBlock_iff`. -/
theorem sourceSpecifiers : Obligations.SourceSpecifiers := by
  intro s f i
  have nonzero (h0 : f ≠ 0) : f.toNat ≠ 0 := fun h => h0 (BitVec.eq_of_toNat_eq h)
  refine ⟨fun h => ?_, fun le h0 live => ?_, fun le h0 dead off => ?_, fun le h0 dead on => ?_, fun ge le unbound => ?_,
    fun ge le b bound => ?_, fun h => ?_, fun h => ?_, fun fs => ⟨fun past => if_pos ?_, fun within => if_neg ?_⟩⟩
  · subst h
    exact reg_eq_scalar (.inl rfl)
  · rw [src_register s i le, reg_eq_scalar (.inr (.inl live)), scalar_live (nonzero h0) live]
  · rw [src_register s i le, reg_eq_scalar (.inr (.inr off)), scalar_dead dead]
  · rw [src_register s i le, reg_dead_traps (nonzero h0) dead on, BitVec.ofNat_toNat]
  · rw [src_window s i ge le, State.constant, unbound]
    rfl
  · rw [src_window s i ge le, State.constant, bound]
  · subst h; rfl
  · subst h; rfl
  · simpa only [List.any_eq_true, pastBlock_iff] using past
  · simpa only [List.any_eq_true, pastBlock_iff] using within

end Sys2Proof.Machine

namespace Sys2Proof

/-! ### What the decoder answers is well-formed (R119) -/

/-- A row of the opcode table, where there is one, gives a syllable of some major. -/
def Syllabic (e : Except DecodeErr Row) : Prop := ∀ r, e = .ok r → r.instr.major.isSome = true

theorem syllabic_ok {i : Instr} {m v u : BitVec 32} (h : i.major.isSome = true) : Syllabic (.ok ⟨i, m, v, u⟩) := by
  rintro _ ⟨⟩
  exact h

theorem syllabic_error (e : DecodeErr) : Syllabic (.error e) := by rintro _ ⟨⟩

theorem syllabic_ite {p : Prop} [Decidable p] {a b : Except DecodeErr Row} (ha : Syllabic a) (hb : Syllabic b) :
    Syllabic (if p then a else b) := by
  split <;> assumption

theorem syllabic_plainPred {w : BitVec 32} {r : Row} (h : Syllabic (.ok r)) : Syllabic (plainPred w r) :=
  syllabic_ite (syllabic_error _) h

section
variable (w : BitVec 32)

/-- The rows of slot C. -/
theorem syllabic_control : Syllabic (rowBr w) ∧ Syllabic (rowLoop w) ∧ Syllabic (rowSys w) ∧ Syllabic (rowPred w) := by
  simp only [rowBr, rowLoop, rowSys, rowPred]
  and_intros <;> split <;> apply_rules [syllabic_plainPred, syllabic_ite, syllabic_ok, syllabic_error, rfl]

/-- The rows of slots A and B. -/
theorem syllabic_scalar : Syllabic (rowInt w) ∧ Syllabic (rowInti w) ∧ Syllabic (rowFps w) ∧ Syllabic (rowCmp w) ∧ Syllabic (rowBit w) ∧
    Syllabic (rowPath w) ∧ Syllabic (rowF20 w) := by
  simp only [rowInt, rowInti, rowFps, rowCmp, rowBit, rowPath]
  refine ⟨?_, ?_, ?_, ?_, ?_, ?_, syllabic_ok rfl⟩ <;> split <;> apply_rules [syllabic_ok, syllabic_error, rfl]

/-- The rows of slots L, H and K. -/
theorem syllabic_memory : Syllabic (rowLmem w) ∧ Syllabic (rowLspec w) ∧ Syllabic (rowHmem w) ∧ Syllabic (rowHatom w) ∧ Syllabic (rowScale w) := by
  simp only [rowLmem, rowLspec, rowHmem, rowHatom, rowScale]
  and_intros <;> split <;> apply_rules [syllabic_ite, syllabic_ok, syllabic_error, rfl]

/-- The rows of slot V. -/
theorem syllabic_tile : Syllabic (rowTint w) ∧ Syllabic (rowTfp w) ∧ Syllabic (rowTcvt w) ∧ Syllabic (rowTmov w) ∧ Syllabic (rowTcmp w) := by
  simp only [rowTint, rowTfp, rowTcvt, rowTmov, rowTcmp]
  and_intros <;> split <;> apply_rules [syllabic_ite, syllabic_ok, syllabic_error, rfl]

/-- The rows of slot X. -/
theorem syllabic_engine : Syllabic (rowMxa w) ∧ Syllabic (rowMxb w) ∧ Syllabic (rowWalk w) ∧ Syllabic (rowLink w) ∧ Syllabic (rowCtx w) ∧
    Syllabic (rowXform w) := by
  simp only [rowMxa, rowMxb, rowWalk, rowLink, rowCtx, rowXform]
  and_intros <;> split <;> apply_rules [syllabic_ite, syllabic_ok, syllabic_error, rfl]

theorem syllabic_rowOf : Syllabic (rowOf w) := by
  obtain ⟨br, loop, sys, pred⟩ := syllabic_control w
  obtain ⟨int, inti, fps, cmp, bit, path, f20⟩ := syllabic_scalar w
  obtain ⟨lmem, lspec, hmem, hatom, scale⟩ := syllabic_memory w
  obtain ⟨tint, tfp, tcvt, tmov, tcmp⟩ := syllabic_tile w
  obtain ⟨mxa, mxb, walk, link, ctx, xform⟩ := syllabic_engine w
  have reserved := syllabic_error .reservedMajor
  unfold rowOf
  split <;> assumption

end

/-- The checks of the decoder are those of well-formedness. -/
theorem wf_of_decode {w : BitVec 32} {i : Instr} (h : decode w = .ok i) : i.wf = true := by
  unfold decode at h
  split at h
  · cases h
  · next r row =>
    repeat' split at h
    all_goals cases h
    next reserved unused dest pair =>
      simp only [Bool.or_eq_true, not_or, Bool.not_eq_true] at reserved unused dest pair
      simp [Instr.wf, syllabic_rowOf w r row, reserved.2, unused.2, dest, pair]

end Sys2Proof

namespace Sys2Proof.Machine

/-! ### A bundle of one word (R103 to R108) -/

/-- The first syllable of a bundle has a slot, whatever its class (R104). -/
theorem slotFor_first (w : Word) : ∃ n, slotFor w [] = .some n := by
  unfold slotFor
  split <;> exact ⟨_, rfl⟩

theorem frameAt_single {word : Nat → Word} {pc : Nat} (single : posOf (word pc) = 3) (fits : pc + 3 ≤ 65536) :
    frameAt word pc = { sylls := [word pc], claims := (claimFields (word pc)).length, broken := false } := by
  have : ¬ 65536 < pc + 1 + min 2 (claimFields (word pc)).length := by omega
  simp [frameAt, single, this]

theorem decodeSylls_single {w : Word} {i : Instr} {lits : List Word} (h : decode w = .ok i) (claims : lits.length = (claimFields w).length) :
    ∃ y : Syl, decodeSylls [w] [] lits = .ok [y] ∧ y.instr = i ∧ y.guard = w.toNat / 2 ^ 27 % 8 ∧ y.lits = lits := by
  obtain ⟨n, slot⟩ := slotFor_first w
  refine ⟨{ slot := n, guard := (w.extractLsb' 27 3).toNat, instr := i, lits := lits }, ?_, rfl, ?_, rfl⟩
  · simp [decodeSylls, syllableCause, h, slot, ← claims]
  · rw [BitVec.extractLsb'_toNat, Nat.shiftRight_eq_div_pow]

theorem decodeBundle_single {word : Nat → Word} {pc : Nat} {i : Instr} (single : posOf (word pc) = 3) (h : decode (word pc) = .ok i)
    (fits : pc + 3 ≤ 65536) (claims : (claimFields (word pc)).length ≤ 2) :
    ∃ y : Syl, decodeBundle word pc = .ok [y] ∧ y.instr = i ∧ i.wf = true ∧ y.guard = (word pc).toNat / 2 ^ 27 % 8 ∧
      y.lits = (List.range (claimFields (word pc)).length).map fun k => word (pc + 1 + k) := by
  obtain ⟨y, sylls, instr, guard, lits⟩ :=
    decodeSylls_single h (lits := (List.range (claimFields (word pc)).length).map fun k => word (pc + 1 + k)) (by simp)
  refine ⟨y, ?_, instr, wf_of_decode h, guard, lits⟩
  simp only [decodeBundle, frameAt_single single fits, Nat.not_lt.2 claims, if_false, List.length_singleton]
  exact sylls

/-! ### The syllables of a bundle, one after another (R133, R386) -/

section
variable {s0 u t : State} {h c : Nat} {y : Syl} {l : List Syl}

theorem commitFrom_runs (free : (u.select y l).unitFault y = .none) (on : (u.select y l).guardTrue y.slot y.guard = true)
    (run : exec y.instr (u.select y l) = .next t) :
    (t.cur.mustHold = true → State.commitFrom exec s0 h c (y :: l) u = .next (s0.holdBundle h c)) ∧
    (t.cur.mustHold = false → t.cur.trapped = true → (u.select y l).interlocked = false →
      State.commitFrom exec s0 h c (y :: l) u = .next t.closeBundle) ∧
    (t.cur.mustHold = false → t.cur.trapped = false → State.commitFrom exec s0 h c (y :: l) u =
      State.commitFrom exec s0 h c l ((t.commit (((u.select y l).R.ctx).getD 0) y).holdVector y)) := by
  simp only [State.commitFrom, free, on, run, if_true]
  exact ⟨fun hold => by simp [hold], fun go trap exposed => by simp [go, trap, exposed], fun go on => by simp [go, on]⟩

theorem commitFrom_skips (free : (u.select y l).unitFault y = .none) (off : (u.select y l).guardTrue y.slot y.guard = false) :
    State.commitFrom exec s0 h c (y :: l) u = State.commitFrom exec s0 h c l ((u.select y l).holdVector y) := by
  simp [State.commitFrom, free, off]

end

/-! ### What a delay bundle may hold of slot C (R150) -/

theorem delayOk_iff (i : Instr) : i.delayOk = true ↔
    i = .nop ∨ i = .fenceH ∨ i = .fenceD ∨ (∃ n a, i = .bset n a ∨ i = .bsetr n a) ∨ (∃ d k, i = .lidx d k) ∨
    (∃ d n, i = .rdsr d n) ∨ (∃ n a, i = .wrsr n a) ∨ (∃ a, i = .kill a) ∨ (∃ t a, i = .killt t a) ∨ (∃ n, i = .phase n) ∨
    (∃ d a b, i = .pand d a b ∨ i = .por d a b ∨ i = .pxor d a b ∨ i = .vany d a b ∨ i = .vall d a b) ∨ (∃ d a, i = .pnot d a ∨ i = .pmov d a) ∨
    (∃ d a b e, i = .pfirst d a b e) ∨ ∃ a b k e, i = .pcnt a b k e := by
  constructor
  · intro ok
    cases i <;> cases ok
    all_goals simp
  · rintro (rfl | rfl | rfl | ⟨_, _, rfl | rfl⟩ | ⟨_, _, rfl⟩ | ⟨_, _, rfl⟩ | ⟨_, _, rfl⟩ | ⟨_, rfl⟩ | ⟨_, _, rfl⟩ | ⟨_, rfl⟩ |
      ⟨_, _, _, rfl | rfl | rfl | rfl | rfl⟩ | ⟨_, _, rfl | rfl⟩ | ⟨_, _, _, _, rfl⟩ | ⟨_, _, _, _, rfl⟩) <;> rfl

end Sys2Proof.Machine

namespace Sys2Proof.Machine

/-! ### What holds a bundle in interlocked mode (R139) -/

theorem waits_iff {r : Regs} {d : Dest} : r.waits d = true ↔ ∃ p ∈ r.pend, p.dest = d := by simp [Regs.waits]

theorem predWaits_iff {r : Regs} {n : Nat} : r.predWaits n = true ↔ n ≠ 0 ∧ ∃ p ∈ r.pend, p.dest = .pred n := by
  simp [Regs.predWaits, waits_iff]

theorem scalarWaits_iff {r : Regs} {n : Nat} : r.scalarWaits n = true ↔
    n ≠ 0 ∧ ((∃ p ∈ r.pend, p.dest = .scalar n) ∨ ∃ p ∈ r.engPend, p.2 = n) := by
  simp [Regs.scalarWaits, waits_iff]

theorem specWaits_iff {r : Regs} {f : BitVec 5} : r.specWaits f = true ↔ f.toNat ≤ 23 ∧ r.scalarWaits f.toNat = true := by
  simp [Regs.specWaits]

section
variable {s : State} {k : Core} {y : Syl}

theorem interlockHolds_iff : s.interlockHolds k y = true ↔
    k.r.predWaits y.guard = true ∨ k.unitHeld s.tick y = true ∨ (s.guardTrue y.slot y.guard = true ∧ k.syllableWaits y = true) := by
  simp [State.interlockHolds, or_assoc]

theorem unitHeld_vector (v : y.slot = 5) (busy : s.tick < k.vFree) : k.unitHeld s.tick y = true := by
  simp [Core.unitHeld, v, busy]

theorem unitHeld_divider (other : y.slot ≠ 5) (div : y.instr.divides = true)
    (busy : s.tick < if y.slot = 1 then k.divA else k.divB) : k.unitHeld s.tick y = true := by
  simp [Core.unitHeld, other, div, busy]

theorem unitHeld_none (other : y.slot ≠ 5) (div : y.instr.divides = false) : k.unitHeld s.tick y = false := by
  simp [Core.unitHeld, other, div]

/-- An `add` has operands in two of the ten lists alone. -/
theorem syllableWaits_add {d a b : BitVec 5} {m : BitVec 2} (add : y.instr = .add d a b m) : k.syllableWaits y = true ↔
    k.r.specWaits a = true ∨ k.r.specWaits b = true ∨ k.r.scalarWaits d.toNat = true := by
  obtain ⟨slot, guard, i, lits⟩ := y
  cases add
  show ([a, b].any k.r.specWaits || false || false || k.r.scalarWaits d.toNat || false || false || false || false || false || false) = true ↔ _
  simp [or_assoc]

theorem interlockHolds_add {d a b : BitVec 5} {m : BitVec 2} (add : y.instr = .add d a b m) (other : y.slot ≠ 5) :
    s.interlockHolds k y = true ↔ k.r.predWaits y.guard = true ∨ (s.guardTrue y.slot y.guard = true ∧
      (k.r.specWaits a = true ∨ k.r.specWaits b = true ∨ k.r.scalarWaits d.toNat = true)) := by
  have free : k.unitHeld s.tick y = false := unitHeld_none other (by rw [add]; rfl)
  simp [interlockHolds_iff, free, syllableWaits_add add]

theorem syllableWaits_pand {d a b c : BitVec 3} (pand : y.instr = .pand d a b) (named : c = d ∨ c = a ∨ c = b)
    (waits : k.r.predWaits c.toNat = true) : k.syllableWaits y = true := by
  obtain ⟨slot, guard, i, lits⟩ := y
  cases pand
  show (false || false || [a, b].any (fun p => k.r.predWaits p.toNat) || false || k.r.predWaits d.toNat || false || false || false ||
    false || false) = true
  rcases named with rfl | rfl | rfl <;> simp [waits]

theorem rowWaits_of_waits {t n : Nat} (waits : k.r.waits (.tileRow t n) = true) : k.rowWaits t n = true := by
  simp [Core.rowWaits, waits]

theorem syllableWaits_of_vform {v : VDec} {b : BitVec 5} (form : y.instr.vform = .some (v, b)) (waits : k.vectorWaits v b = true) :
    k.syllableWaits y = true := by
  simp only [Core.syllableWaits, form, waits, Bool.or_true, Bool.true_or]

/-- A whole-tile form waits for each row of the tiles that it reads or writes (R136). -/
theorem vectorWaits_of_row {v : VDec} {b : BitVec 5} {t n : Nat} (whole : v.w = true) (row : n < 32) (waits : k.rowWaits t n = true)
    (named : t ∈ v.sources ∨ v.dest n = .tileRow t n) : k.vectorWaits v b = true := by
  simp only [Core.vectorWaits, whole, if_true, Bool.or_eq_true, List.any_eq_true, List.mem_range]
  rcases named with source | dest
  · exact .inl (.inr ⟨n, row, t, source, waits⟩)
  · exact .inr ⟨n, row, by rw [dest]; exact waits⟩

theorem syllableWaits_tadd {d a f : BitVec 3} {s1 q : BitVec 1} {b : BitVec 5} {t n : Nat} (tadd : y.instr = .tadd d a s1 b f 1 q)
    (named : t = d.toNat ∨ t = a.toNat ∨ (s1 = 0 ∧ t = b.toNat % 8)) (row : n < 32) (waits : k.rowWaits t n = true) :
    k.syllableWaits y = true := by
  refine syllableWaits_of_vform (congrArg Instr.vform tadd) (vectorWaits_of_row rfl row waits ?_)
  rcases named with rfl | rfl | ⟨rfl, rfl⟩
  · exact .inr rfl
  · exact .inl (by simp [VDec.sources, VOp.readsA])
  · exact .inl (by simp [VDec.sources, VOp.readsB])

end

end Sys2Proof.Machine

namespace Sys2Proof.Machine

/-! ### What a change of a core leaves as it was

A change of a core that keeps its registers changes no register of any core, and no change of a core changes a memory. -/

theorem getD_modify_keeps {α β : Type} (π : α → β) {f : α → α} (h : ∀ a, π (f a) = π a) (l : List α) (n m : Nat) (d : α) :
    π ((l.modify n f).getD m d) = π (l.getD m d) := by
  by_cases e : n = m
  · subst e
    by_cases len : n < l.length
    · rw [getD_modify _ _ _ _ len, h]
    · have len := Nat.le_of_not_lt len
      rw [getD_of_le _ _ (by rwa [List.length_modify]), getD_of_le _ _ len]
  · rw [getD_modify_ne _ _ _ e]

section
variable (s : State) (h c : Nat) (f : Core → Core)

theorem modCore_herd_keeps {β : Type} (π : Herd → β) (keeps : ∀ (x : Herd) l, π { x with cores := l } = π x) (x : Nat) :
    π ((s.modCore h c f).herd x) = π (s.herd x) :=
  getD_modify_keeps π (fun _ => keeps _ _) s.herds h x {}

theorem modCore_core_keeps {β : Type} (π : Core → β) (keeps : ∀ k, π (f k) = π k) (x y : Nat) :
    π ((s.modCore h c f).core x y) = π (s.core x y) :=
  getD_modify_keeps (fun z : Herd => π (z.cores.getD y {})) (fun z => getD_modify_keeps π keeps z.cores c y {}) s.herds h x {}

@[simp] theorem modCore_cores_length (x : Nat) : ((s.modCore h c f).herd x).cores.length = (s.herd x).cores.length :=
  getD_modify_keeps (fun z : Herd => z.cores.length) (fun _ => List.length_modify ..) s.herds h x {}

theorem modCore_memory : SameMemory s (s.modCore h c f) := by
  intro sp a
  have mem : (s.modCore h c f).memOf sp = s.memOf sp := by
    cases sp with
    | dev => rfl
    | hm x => exact modCore_herd_keeps s h c f Herd.hm (fun _ _ => rfl) x
    | lm x y => exact modCore_herd_keeps s h c f (fun z => z.lm.getD y []) (fun _ _ => rfl) x
  rw [State.readByte, mem, State.readByte]

end

theorem sameRegisters_of_regs {s t : State} (h : ∀ x y, t.regs x y = s.regs x y) : SameRegisters s t := by
  intro x y
  rw [h x y]
  exact ⟨fun _ => rfl, fun _ => rfl, fun _ _ => rfl, rfl, rfl, rfl, rfl, rfl, rfl, rfl, rfl⟩

/-! ### The state in which a core fetches its bundle (R102, R103) -/

/-- The state as core (h, c), executing, sees it. -/
def State.standingAt (s : State) (h c : Nat) : State := { s with cur := { s.cur with herd := h, core := c } }

/-- A core that neither a hold nor a gate keeps from its next bundle. -/
def Core.freed (k : Core) : Core := { k with hold := .none, gate := {} }

/-- Core (h, c) at its bundle, nothing holding it: where `State.opened` fetches from. -/
def State.fetching (s : State) (h c : Nat) : State := (s.modCore h c Core.freed).openBundle h c

/-- The same once its bundle is found: what follows the bundle is known. -/
def State.opening (s : State) (h c : Nat) : State :=
  let t := s.fetching h c
  { t with cur := { t.cur with next := BitVec.ofNat 16 (t.after t.R.pc.toNat) } }

/-- The core's latest bundle is that of this cycle (R97). -/
def State.noteIssue (s : State) (h c : Nat) : State := s.modCore h c fun k => { k with lastIssue := .some s.tick }

/-- The state in which core (h, c) has issued a bundle of the syllables `l`, none of them committed. -/
def State.latched (s : State) (h c : Nat) (l : List Syl) : State := { (s.opening h c).noteIssue h c with latch := l }

theorem opened_of_fetch {s : State} {h c : Nat} {f : Fetch} (found : (s.fetching h c).fetch (2 ^ 220) = (s.fetching h c, f)) :
    s.opened h c = (s.opening h c, f) := by
  have found : ((s.modCore h c fun k => { k with hold := .none, gate := {} }).openBundle h c).fetch (2 ^ 220) =
      (s.fetching h c, f) := found
  simp only [State.opened, found]
  rfl

theorem fetching_regs (s : State) (h c x y : Nat) : (s.fetching h c).regs x y = s.regs x y :=
  modCore_core_keeps s h c Core.freed Core.r (fun _ => rfl) x y

theorem fetching_R (s : State) (h c : Nat) : (s.fetching h c).R = s.regs h c := fetching_regs s h c h c

theorem fetching_word (s : State) (h c : Nat) : (s.fetching h c).word = (s.standingAt h c).word := by
  funext i
  exact modCore_herd_keeps s h c _ (fun x => x.word i) (fun _ _ => rfl) h

theorem fetching_fetchFails (s : State) (h c pc : Nat) : (s.fetching h c).fetchFails pc = (s.standingAt h c).fetchFails pc := by
  have bad : ((s.fetching h c).herd h).storeBad = (s.herd h).storeBad := modCore_herd_keeps s h c _ Herd.storeBad (fun _ _ => rfl) h
  have reach : (s.fetching h c).fetched pc = (s.standingAt h c).fetched pc := by
    simp only [State.fetched, State.after, fetching_word]
  simp only [State.fetchFails, reach]
  rw [show (s.fetching h c).cur.herd = h from rfl, bad]
  rfl

theorem fetching_dueEntry (s : State) (h c : Nat) : (s.fetching h c).dueEntry = (s.standingAt h c).dueEntry := by
  simp only [State.dueEntry, fetching_R]
  rfl

theorem guardTrue_congr {s t : State} (same : t.R = s.R) (slot g : Nat) : t.guardTrue slot g = s.guardTrue slot g := by
  simp only [State.guardTrue, State.predBit, same]

theorem fetching_nullified (s : State) (h c : Nat) (l : List Syl) : (s.fetching h c).nullified l = (s.standingAt h c).nullified l := by
  have same : (s.fetching h c).R = (s.standingAt h c).R := fetching_R s h c
  simp only [State.nullified, guardTrue_congr same, same]

/-! ### What a fetch finds (R101 to R103, R121, R140, R150) -/

/-- The words at pc decode: the delay bundle may still be broken, and else it is skipped or it issues. -/
theorem fetch_decoded {s : State} {l : List Syl} (n : Nat) (words : s.fetchFails s.R.pc.toNat = false)
    (lands : s.R.landing = true → 2 ≤ posOf (s.word s.R.pc.toNat)) (decodes : decodeBundle s.word s.R.pc.toNat = .ok l)
    (first : s.R.resume = 0) :
    (s.delayBroken l = true → s.fetch (n + 1) = (s, .trap { cls := 1, cause := 9 })) ∧
    (s.delayBroken l = false → (s.interlocked = true → s.nullified l = false) → s.fetch (n + 1) = (s, .bundle l)) := by
  have pos : (s.R.landing && decide (posOf (s.word s.R.pc.toNat) < 2)) = false := by
    rw [Bool.and_eq_false_imp]
    exact fun h => decide_eq_false (Nat.not_lt.2 (lands h))
  simp only [State.fetch, words, pos, decodes, first, Bool.false_eq_true, if_false]
  refine ⟨fun broken => ?_, fun sound issues => ?_⟩
  · simp [broken]
  · have stays : (s.interlocked && s.nullified l) = false := by rwa [Bool.and_eq_false_imp]
    simp [sound, stays]

theorem delayBroken_none {s : State} (l : List Syl) (h : s.R.xfer = .none) : s.delayBroken l = false := by simp [State.delayBroken, h]

theorem delayBroken_of {s : State} {l : List Syl} {x : Transfer} (h : s.R.xfer = .some x) (fresh : x.fresh = false) (first : s.R.resume = 0)
    (holds : (∃ y ∈ l, y.slot = 0 ∧ y.instr.delayOk = false) ∨ ∃ e ∈ s.R.loops, e.fin = s.R.pc) : s.delayBroken l = true := by
  simpa [State.delayBroken, h, fresh, first] using holds

/-! ### The issue of a bundle (R102, R133, R387) -/

/-- Core (h, c) issues in this cycle: its cycle has come, nothing holds it, no asynchronous trap is to be taken, and the words of its
bundle decode to `l`. -/
structure IssuesAt (s : State) (h c : Nat) (l : List Syl) : Prop where
  herd : h < s.herds.length
  core : c < (s.herd h).cores.length
  ready : (s.core h c).ready s.tick = true
  hold : (s.core h c).hold = .none
  gate : s.stillHeld (s.core h c) = false
  quiet : (s.core h c).inHandler = true ∨ ((s.core h c).asyncs = [] ∧ (s.standingAt h c).dueEntry = .none)
  first : (s.regs h c).resume = 0
  words : (s.standingAt h c).fetchFails (s.regs h c).pc.toNat = false
  lands : (s.regs h c).landing = true → 2 ≤ posOf ((s.standingAt h c).word (s.regs h c).pc.toNat)
  decodes : decodeBundle (s.standingAt h c).word (s.regs h c).pc.toNat = .ok l

theorem asyncTaken_none {s : State} (quiet : s.me.inHandler = true ∨ (s.me.asyncs = [] ∧ s.dueEntry = .none)) : s.asyncTaken = .none := by
  rcases quiet with handler | ⟨none, entry⟩
  · simp [State.asyncTaken, handler]
  · simp [State.asyncTaken, none, firstAsync, entry]

/-! What the opening bundle sees: the registers, the core and the memories as they were, its own place, and no write of its own. -/

section
variable (s : State) (h c : Nat)

theorem opening_regs (x y : Nat) : (s.opening h c).regs x y = s.regs x y := fetching_regs s h c x y

theorem opening_R : (s.opening h c).R = s.regs h c := fetching_R s h c

theorem opening_memory : SameMemory s (s.opening h c) := modCore_memory s h c Core.freed

@[simp] theorem opening_herds_length : (s.opening h c).herds.length = s.herds.length := List.length_modify ..

theorem opening_cores_length : ((s.opening h c).herd h).cores.length = (s.herd h).cores.length :=
  modCore_cores_length s h c Core.freed h

end

namespace IssuesAt

variable {s : State} {h c : Nat} {l : List Syl}

theorem core_opening (at_ : IssuesAt s h c l) : (s.opening h c).core h c = (s.core h c).freed :=
  State.modCore_core _ _ _ _ at_.herd at_.core

theorem asyncTaken (at_ : IssuesAt s h c l) : (s.opening h c).asyncTaken = .none := by
  have me : (s.opening h c).me = (s.core h c).freed := at_.core_opening
  refine asyncTaken_none ?_
  rw [me, show (s.opening h c).dueEntry = (s.standingAt h c).dueEntry from fetching_dueEntry s h c]
  have handler : (s.core h c).freed.inHandler = (s.core h c).inHandler := by
    simp [Core.inHandler, Core.freed, at_.hold]
  rw [handler]
  exact at_.quiet

/-- `fetch_decoded` from where the core fetches, said of the state before. -/
theorem fetched (at_ : IssuesAt s h c l) :
    ((s.fetching h c).delayBroken l = true → s.opened h c = (s.opening h c, .trap { cls := 1, cause := 9 })) ∧
    ((s.fetching h c).delayBroken l = false → ((s.regs h c).interlocked = true → (s.standingAt h c).nullified l = false) →
      s.opened h c = (s.opening h c, .bundle l)) := by
  obtain ⟨n, fuel⟩ : ∃ n, 2 ^ 220 = n + 1 := Nat.exists_eq_add_one.2 (Nat.two_pow_pos 220)
  have R := fetching_R s h c
  obtain ⟨trap, bundle⟩ := fetch_decoded (s := s.fetching h c) (l := l) n
    (by rw [R, fetching_fetchFails]; exact at_.words) (by rw [R, fetching_word]; exact at_.lands)
    (by rw [R, fetching_word]; exact at_.decodes) (by rw [R]; exact at_.first)
  rw [← fuel, fetching_nullified, State.interlocked, R] at bundle
  rw [← fuel] at trap
  exact ⟨fun broken => opened_of_fetch (trap broken), fun sound issues => opened_of_fetch (bundle sound issues)⟩

theorem not_held (at_ : IssuesAt s h c l) : (!(s.core h c).ready s.tick || (s.core h c).held) = false := by
  simp [at_.ready, Core.held, at_.hold]

theorem issue_trap (at_ : IssuesAt s h c l) {t : Trap} (found : s.opened h c = (s.opening h c, .trap t)) :
    s.issueBundle h c = { ((s.opening h c).trapHere t 0 (s.regs h c).pc .none).noteIssue h c with latch := [] } := by
  rw [State.issueBundle]
  simp only [at_.not_held, at_.gate, found, at_.asyncTaken, opening_R]
  rfl

theorem issue_bundle (at_ : IssuesAt s h c l) (found : s.opened h c = (s.opening h c, .bundle l)) :
    s.issueBundle h c = if (s.opening h c).interlocks h c l then (s.opening h c).holdBundle h c
      else s.latched h c l := by
  rw [State.issueBundle]
  simp only [at_.not_held, at_.gate, found, at_.asyncTaken]
  rfl

end IssuesAt

/-! ### The step (R133, R201, R387) -/

theorem step_bundleDue {s : State} {d : Due} {rest : List Due} {g : EvArg} (held : s.held = 0) (on : s.plat.tripped = false)
    (agenda : s.agenda = d :: rest) (act : d.act = .ev .bundleIssue g) (due : d.at_ ≤ s.tick) (phase : d.phase = 3) :
    step s = State.runDue exec g { s with agenda := rest } := by
  simp [step, State.advance, held, agenda, due, phase, State.runAct, on, act]

theorem runDue_waits {s : State} {g : EvArg} (c : g.c = 0) (comes : s.conflictComes exec g.a g.b = true) :
    s.runDue exec g = .next (s.planEv s.tick 3 (2 ^ 19 + s.issueOrd g.a g.b) .bundleIssue { g with c := 1 }) := by
  simp [State.runDue, c, comes]

theorem runDue_runs {s : State} {g : EvArg} (alone : g.c = 0 → s.conflictComes exec g.a g.b = false) :
    s.runDue exec g = s.runBundle exec g.a g.b := by
  refine if_neg ?_
  simpa using alone

/-- A trap waits with its bundle in interlocked mode alone (R387). -/
theorem trapWaits_exposed {s : State} {h c : Nat} {f : Fetch} (found : s.opened h c = (s.opening h c, f))
    (exposed : (s.regs h c).interlocked = false) : s.trapWaits exec h c = false := by
  have mode : (s.opening h c).interlocked = false := by rw [State.interlocked, opening_R]; exact exposed
  simp only [State.trapWaits, found, mode]
  repeat' split
  all_goals rfl

theorem runBundle_commits {s u : State} {h c : Nat} (quiet : s.trapWaits exec h c = false)
    (issues : exec .bundleIssue { s with ev := { a := h, b := c } } = .next u) (nonempty : u.latch ≠ []) :
    s.runBundle exec h c = State.commitFrom exec s h c u.latch u := by
  rw [State.runBundle, quiet, issues]
  simp only [Bool.false_eq_true, if_false]

/-! The bundle latched: what its first syllable finds (R133, R155). -/

section
variable (s : State) (h c : Nat) (l : List Syl)

theorem latched_regs (x y : Nat) : (s.latched h c l).regs x y = s.regs x y :=
  (modCore_core_keeps (s.opening h c) h c (fun k => { k with lastIssue := .some s.tick }) Core.r (fun _ => rfl) x y).trans
    (opening_regs s h c x y)

theorem latched_memory : SameMemory s (s.latched h c l) := fun sp a =>
  (modCore_memory (s.opening h c) h c (fun k => { k with lastIssue := .some s.tick }) sp a).trans (opening_memory s h c sp a)

theorem opening_pc : (s.opening h c).cur.pc = (s.regs h c).pc := congrArg Regs.pc (opening_regs s h c h c)

theorem opening_ix0 : (s.opening h c).cur.ix0 = (s.regs h c).ixHold.getD (((s.regs h c).loops.head?.map (·.index)).getD 0) :=
  congrArg (fun r : Regs => r.ixHold.getD ((r.loops.head?.map LoopEntry.index).getD 0)) (opening_regs s h c h c)

end

/-- In exposed mode a bundle that is due issues, whatever its operands wait for. -/
theorem IssuesAt.exposed_issue {s : State} {h c : Nat} {l : List Syl} (at_ : IssuesAt s h c l) (mode : (s.regs h c).interlocked = false)
    (straight : (s.regs h c).xfer = .none) : s.opened h c = (s.opening h c, .bundle l) ∧ s.issueBundle h c = s.latched h c l := by
  have found := at_.fetched.2 (delayBroken_none l (by rw [fetching_R]; exact straight)) (by simp [mode])
  have exposed : (s.opening h c).interlocks h c l = false := by simp [State.interlocks, State.interlocked, opening_R, mode]
  exact ⟨found, (at_.issue_bundle found).trans (if_neg (by simp [exposed]))⟩

end Sys2Proof.Machine

namespace Sys2Proof.Machine

/-! ### A bundle that is held (R139) -/

theorem IssuesAt.opening_interlocks {s : State} {h c : Nat} {l : List Syl} (at_ : IssuesAt s h c l) (mode : (s.regs h c).interlocked = true) :
    (s.opening h c).interlocks h c l = l.any ((s.standingAt h c).interlockHolds (s.core h c)) := by
  have same : (s.opening h c).R = (s.standingAt h c).R := opening_R s h c
  have sees : ((s.opening h c).core h c).sinceTrap = (s.core h c).freed := by
    rw [at_.core_opening]
    exact if_pos at_.first
  rw [State.interlocks, State.interlocked, opening_R, mode, Bool.true_and, sees]
  refine congrArg l.any (funext fun y => ?_)
  simp only [State.interlockHolds, guardTrue_congr same]
  rfl

/-- A held bundle is due again in the next cycle, its core otherwise as it was. -/
theorem holdBundle_waits {s : State} {h c : Nat} (herd : h < s.herds.length) (core : c < (s.herd h).cores.length) :
    let u := s.holdBundle h c
    SameMemory s u ∧ (∀ x y, u.regs x y = s.regs x y) ∧ u.latch = [] ∧ (u.core h c).issueAt = s.tick + 1 ∧
      ∃ e ∈ u.agenda, e.at_ = s.tick + 1 ∧ e.phase = 3 ∧ e.act = .ev .bundleIssue { a := h, b := c } := by
  intro u
  refine ⟨modCore_memory s h c fun k => { k with issueAt := s.tick + 1 },
    modCore_core_keeps s h c (fun k => { k with issueAt := s.tick + 1 }) Core.r (fun _ => rfl), rfl, ?_,
    _, mem_insertDue.2 (.inl rfl), rfl, rfl, rfl⟩
  exact congrArg Core.issueAt (State.modCore_core s h c (fun k => { k with issueAt := s.tick + 1 }) herd core)

/-- In interlocked mode a bundle that is not skipped is held, or stands in the latch (R139). -/
theorem IssuesAt.interlocked_issue {s : State} {h c : Nat} {l : List Syl} (at_ : IssuesAt s h c l) (mode : (s.regs h c).interlocked = true)
    (straight : (s.regs h c).xfer = .none) (issues : (s.standingAt h c).nullified l = false) :
    let u := s.issueBundle h c
    SameMemory s u ∧ (∀ x y, u.regs x y = s.regs x y) ∧
      ((∃ y ∈ l, (s.standingAt h c).interlockHolds (s.core h c) y = true) → u.latch = [] ∧ (u.core h c).issueAt = s.tick + 1 ∧
        ∃ e ∈ u.agenda, e.at_ = s.tick + 1 ∧ e.phase = 3 ∧ e.act = .ev .bundleIssue { a := h, b := c }) ∧
      ((∀ y ∈ l, (s.standingAt h c).interlockHolds (s.core h c) y = false) → u.latch = l) := by
  have found := at_.fetched.2 (delayBroken_none l (by rw [fetching_R]; exact straight)) fun _ => issues
  intro u
  have runs : u = _ := at_.issue_bundle found
  rw [at_.opening_interlocks mode] at runs
  by_cases waits : ∃ y ∈ l, (s.standingAt h c).interlockHolds (s.core h c) y = true
  · rw [if_pos (List.any_eq_true.2 waits)] at runs
    obtain ⟨memory, regs, again⟩ := holdBundle_waits (s := s.opening h c) (h := h) (c := c) (by simpa using at_.herd)
      (by rw [opening_cores_length]; exact at_.core)
    rw [runs]
    refine ⟨fun sp a => (memory sp a).trans (opening_memory s h c sp a), fun x y => (regs x y).trans (opening_regs s h c x y),
      fun _ => again, fun free => ?_⟩
    obtain ⟨y, mem, held⟩ := waits
    exact absurd held (by simp [free y mem])
  · rw [if_neg fun any => waits (List.any_eq_true.1 any)] at runs
    rw [runs]
    exact ⟨latched_memory s h c l, latched_regs s h c l, fun held => absurd held waits, fun _ => rfl⟩

/-- A delay bundle that holds what R150 forbids traps at itself, its transfer still pending. -/
theorem IssuesAt.delay_trap {s : State} {h c : Nat} {l : List Syl} (at_ : IssuesAt s h c l) {x : Transfer}
    (taken : (s.regs h c).xfer = .some x) (fresh : x.fresh = false)
    (holds : (∃ y ∈ l, y.slot = 0 ∧ y.instr.delayOk = false) ∨ ∃ e ∈ (s.regs h c).loops, e.fin = (s.regs h c).pc) :
    s.issueBundle h c = { ((s.opening h c).trapHere { cls := 1, cause := 9 } 0 (s.regs h c).pc .none).noteIssue h c with latch := [] } := by
  have R := fetching_R s h c
  exact at_.issue_trap (at_.fetched.1 (delayBroken_of (by rw [R]; exact taken) fresh (by rw [R]; exact at_.first) (by rw [R]; exact holds)))

/-- A bundle due in exposed mode, which no other bundle of the cycle goes before: its syllables run in the state that latches them. -/
theorem step_commits {s : State} {g : EvArg} {l : List Syl} (at_ : IssuesAt s g.a g.b l)
    (issuing : IssuesAt { s with ev := { a := g.a, b := g.b } } g.a g.b l) (mode : (s.regs g.a g.b).interlocked = false)
    (straight : (s.regs g.a g.b).xfer = .none) (nonempty : l ≠ []) (alone : g.c = 0 → s.conflictComes exec g.a g.b = false) :
    let u := State.latched { s with ev := { a := g.a, b := g.b } } g.a g.b l
    exec .bundleIssue { s with ev := { a := g.a, b := g.b } } = .next u ∧ s.runDue exec g = State.commitFrom exec s g.a g.b l u := by
  intro u
  have issues : exec .bundleIssue { s with ev := { a := g.a, b := g.b } } = .next u := congrArg _ (issuing.exposed_issue mode straight).2
  refine ⟨issues, ?_⟩
  rw [runDue_runs alone, runBundle_commits (trapWaits_exposed (at_.exposed_issue mode straight).1 mode) issues nonempty]
  rfl

/-- Settles O56. A bundle due in exposed mode goes through `step_bundleDue` to `step_commits`; its syllables, by `commitFrom_runs` and
`commitFrom_skips`; one word, by `decodeBundle_single`; holds and the delay trap, by what the core finds where it fetches. -/
theorem stepRunsDecoded : Obligations.StepRunsDecoded := by
  refine ⟨?_, ?_, ?_, ?_, delayOk_iff, ?_⟩
  · intro s d rest g l k here pc held on agenda act due phase herd core ready hold handler gate asyncs entry mode straight first words
      lands decodes nonempty s0
    have at_ (v : EvArg) : IssuesAt { s with agenda := rest, ev := v } g.a g.b l :=
      ⟨herd, core, ready, hold, gate, .inr ⟨asyncs, entry⟩, first, words, lands, decodes⟩
    have run : step s = s0.runDue exec g := step_bundleDue held on agenda act due phase
    refine ⟨fun c comes => run.trans (runDue_waits c comes), fun alone => ?_⟩
    obtain ⟨issues, commits⟩ := step_commits (s := s0) (at_ s.ev) (at_ _) mode straight nonempty alone
    exact ⟨_, issues, run.trans commits, rfl, rfl, rfl, rfl, opening_pc .., rfl, rfl, opening_ix0 .., latched_memory _ _ _ _,
      sameRegisters_of_regs (latched_regs _ _ _ _)⟩
  · intro s0 u t h c y l v
    exact ⟨fun free on run => commitFrom_runs free on run, commitFrom_skips, rfl⟩
  · intro word pc i single h fits claims
    exact decodeBundle_single single h fits claims
  · intro s h c l k here pc issues herd core ready hold gate quiet first words lands decodes
    have at_ : IssuesAt { s with ev := { a := h, b := c } } h c l :=
      ⟨herd, core, ready, hold, gate, quiet, first, words, lands, decodes⟩
    refine ⟨fun mode straight goes => ?_, fun x taken fresh holds => ?_⟩
    · obtain ⟨memory, regs, waits, latched⟩ := at_.interlocked_issue mode straight goes
      exact ⟨_, rfl, memory, sameRegisters_of_regs regs, congrArg Regs.pend (regs h c), waits, latched⟩
    · refine ⟨State.opening { s with ev := { a := h, b := c } } h c, _, rfl, rfl, rfl, rfl, ?_, opening_memory _ _ _,
        sameRegisters_of_regs (opening_regs _ _ _), congrArg _ (at_.delay_trap taken fresh holds)⟩
      rw [opening_regs]
      exact taken
  · intro s k y
    refine ⟨fun guard => ?_, fun vector busy => ?_, fun other div busy => ?_, fun d a b m add other => ?_,
      fun d a b c pand named nonzero waits on => ?_, fun d a s1 b f q t n row tadd named waits on => ?_⟩
    · exact interlockHolds_iff.2 (.inl (predWaits_iff.2 guard))
    · exact interlockHolds_iff.2 (.inr (.inl (unitHeld_vector vector busy)))
    · exact interlockHolds_iff.2 (.inr (.inl (unitHeld_divider other div busy)))
    · rw [interlockHolds_add add other]
      simp only [specWaits_iff, scalarWaits_iff, predWaits_iff]
    · have nonzero : c.toNat ≠ 0 := fun h => nonzero (BitVec.eq_of_toNat_eq h)
      exact interlockHolds_iff.2 (.inr (.inr ⟨on, syllableWaits_pand pand named (predWaits_iff.2 ⟨nonzero, waits⟩)⟩))
    · exact interlockHolds_iff.2 (.inr (.inr ⟨on, syllableWaits_tadd tadd named row (rowWaits_of_waits (waits_iff.2 waits))⟩))

end Sys2Proof.Machine

namespace Sys2Proof.Machine

/-! ### Reset (R126, R127, log entry 4) -/

/-- Every herd reads as one that nothing has touched, those that do not exist among them. -/
theorem reset_herd (h : Nat) : State.reset.herd h = {} := List.getElem?_getD_replicate_default_eq ({} : Herd) 96 h

theorem reset_core (h c : Nat) : State.reset.core h c = {} := by
  rw [State.core, reset_herd]
  exact List.getElem?_getD_replicate_default_eq ({} : Core) 4 c

theorem reset_regs (h c : Nat) : State.reset.regs h c = {} := congrArg Core.r (reset_core h c)

theorem reset_memOf (sp : Space) : State.reset.memOf sp = [] := by
  cases sp with
  | dev => rfl
  | hm h => exact congrArg Herd.hm (reset_herd h)
  | lm h c =>
    rw [State.memOf, reset_herd]
    exact List.getElem?_getD_replicate_default_eq [] 4 c

theorem blank_scalar (n : Nat) : ({} : Regs).scalar n = 0 := by
  rw [Regs.scalar, show ({} : Regs).s.getD n 0 = 0 from List.getElem?_getD_replicate_default_eq 0 24 n, ite_self]

theorem blank_pred {n : Nat} (h : n ≠ 0) : ({} : Regs).pred n = 0 :=
  (if_neg h).trans (List.getElem?_getD_replicate_default_eq 0 8 n)

theorem blank_row (t n : Nat) : ({} : Regs).row t n = 0 := by
  have raw : ({} : Regs).rawRow t n = 0 := by
    unfold Regs.rawRow
    by_cases inside : t < 8
    · rw [show ({} : Regs).t.getD t [] = List.replicate 32 0 from List.getD_replicate (y := []) _ inside]
      exact List.getElem?_getD_replicate_default_eq 0 32 n
    · rw [getD_of_le ({} : Regs).t [] (Nat.le_of_not_lt inside)]
      rfl
  rw [Regs.row, raw, ite_self]

theorem blank_sized : ({} : Regs).Sized :=
  ⟨rfl, rfl, rfl, fun _ mem => List.eq_of_mem_replicate mem ▸ List.length_replicate, rfl, rfl, rfl, rfl⟩

/-- Settles O1: every core is as `{}` has it, by `reset_core`, and every memory lists nothing, by `reset_memOf`. -/
theorem resetState : Obligations.ResetState := by
  refine ⟨fun h c _ _ => ?_, fun sp a => ?_, List.length_replicate, rfl, State.reset_canonical⟩
  · rw [reset_regs, reset_core]
    exact ⟨blank_scalar, fun _ => blank_pred, rfl, blank_row, rfl, rfl, rfl, rfl, rfl, rfl, rfl, rfl, rfl, rfl, rfl, rfl, blank_sized⟩
  · rw [State.readByte, reset_memOf]
    rfl

/-! ### A result is queued (R133, R134) -/

/-- Two changes of entry n that agree on the entry that stands there change the list alike. -/
theorem modify_eq_of_getD {α : Type} {l : List α} {n : Nat} {f g : α → α} (d : α) (same : f (l.getD n d) = g (l.getD n d)) :
    l.modify n f = l.modify n g := by
  refine List.ext_getElem? fun m => ?_
  simp only [List.getElem?_modify]
  by_cases at_ : n = m
  · subst at_
    cases here : l[n]? with
    | none => rfl
    | some a => simpa [List.getD, here] using same
  · simp [at_]

/-- A change of a core is what it makes of the core that stands there. -/
theorem modCore_eq_of_core {s : State} {h c : Nat} {f g : Core → Core} (same : f (s.core h c) = g (s.core h c)) :
    s.modCore h c f = s.modCore h c g := by
  have herd : s.herds.modify h (fun x => { x with cores := x.cores.modify c f }) =
      s.herds.modify h fun x => { x with cores := x.cores.modify c g } :=
    modify_eq_of_getD {} (congrArg (fun l => { s.herd h with cores := l }) (modify_eq_of_getD {} same))
  exact congrArg (fun l => { s with herds := l }) herd

theorem modR_eq_of_R {s : State} {f g : Regs → Regs} (same : f s.R = g s.R) : s.modR f = s.modR g :=
  modCore_eq_of_core (congrArg (fun r => { s.me with r := r }) same)

/-- The write of latency `lat` that the executing syllable queues. -/
def State.written (s : State) (lat : Nat) (d : Dest) (v : Row512) : Pend :=
  { due := s.tick + lat - 1, seq := s.cur.seq, dest := d, val := v, addr := s.cur.pc }

/-- The registers with one write more in their queue. -/
def Regs.queue (r : Regs) (p : Pend) : Regs := { r with pend := insertPend p r.pend }

theorem put_eq (s : State) (lat : Nat) (d : Dest) (v : Row512) : s.put lat d v =
    (s.modR fun r => r.queue (s.written lat d v)).planEv (s.tick + lat - 1) 4 0 .registerWriteLand { a := s.cur.herd, b := s.cur.core } := rfl

theorem plan_R (s : State) (t p o : Nat) (a : Act) : (s.plan t p o a).R = s.R := rfl

theorem put_R {s : State} (lat : Nat) (d : Dest) (v : Row512) (placed : s.Placed) : (s.put lat d v).R = s.R.queue (s.written lat d v) := by
  rw [put_eq, State.planEv, plan_R]
  exact State.modR_R s (fun r => r.queue (s.written lat d v)) placed

theorem put_queuesOnly (s : State) (lat : Nat) (d : Dest) (v : Row512) : QueuesOnly s (s.put lat d v) := by
  refine ⟨insertPend (s.written lat d v) s.R.pend, (s.put lat d v).agenda, ?_⟩
  rw [← modR_eq_of_R (s := s) (f := fun r => r.queue (s.written lat d v)) rfl]
  rfl

/-- Settles O3: the queue by `put_R`, of which `insertPend` makes one write more, and the rest by `put_queuesOnly`. -/
theorem putQueuesOneWrite : Obligations.PutQueuesOneWrite := by
  intro s lat d v placed
  refine ⟨put_queuesOnly s lat d v, ?_, _, mem_insertDue.2 (.inl rfl), rfl, rfl, rfl⟩
  rw [put_R lat d v placed]
  exact insertPend_perm ..

end Sys2Proof.Machine

namespace Sys2Proof.Machine

/-! ### The writes of the registers (R124, R143)

What each write makes of the register that it names and of the others of its file. -/

theorem getLsbD_clear {w : Nat} (x : BitVec w) (n m : Nat) : (x &&& ~~~(1#w <<< n)).getLsbD m = (x.getLsbD m && decide (n ≠ m)) := by
  rw [← BitVec.twoPow_eq, BitVec.getLsbD_and, BitVec.getLsbD_not, BitVec.getLsbD_twoPow]
  by_cases inside : m < w
  · rcases eq_or_ne n m with rfl | other <;> simp [*]
  · simp [BitVec.getLsbD_of_ge x m (Nat.le_of_not_lt inside)]

theorem getD_set {α : Type} {l : List α} {n : Nat} (a d : α) (inside : n < l.length) : (l.set n a).getD n d = a := by
  simp [List.getD, inside]

theorem getD_set_ne {α : Type} (l : List α) {n m : Nat} (a d : α) (other : n ≠ m) : (l.set n a).getD m d = l.getD m d := by
  simp [List.getD, List.getElem?_set_ne other]

section
variable {r : Regs} {n m : Nat}

theorem putScalar_only (r : Regs) (n : Nat) (v : Word) : ∃ s d, r.putScalar n v = { r with s := s, deadS := d } := by
  unfold Regs.putScalar
  split
  · exact ⟨r.s, r.deadS, rfl⟩
  · exact ⟨_, _, rfl⟩

theorem putScalar_of_ne_zero (v : Word) (h0 : n ≠ 0) :
    r.putScalar n v = { r with s := r.s.set n v, deadS := r.deadS &&& ~~~(1#24 <<< n) } := if_neg h0

/-- A scalar that is written is live, with its new value. -/
theorem putScalar_scalar (v : Word) (h0 : n ≠ 0) (inside : n < r.s.length) : (r.putScalar n v).scalar n = v := by
  have live : (r.deadS &&& ~~~(1#24 <<< n)).getLsbD n = false := by simp
  rw [putScalar_of_ne_zero v h0, scalar_live h0 live]
  exact getD_set v 0 inside

theorem putScalar_scalar_ne (v : Word) (other : n ≠ m) : (r.putScalar n v).scalar m = r.scalar m := by
  by_cases h0 : n = 0
  · rw [Regs.putScalar, if_pos h0]
  · simp only [putScalar_of_ne_zero v h0, Regs.scalar, getLsbD_clear, getD_set_ne _ _ _ other, other, ne_eq, not_false_eq_true,
      decide_true, Bool.and_true]

theorem putPred_only (r : Regs) (n : Nat) (v : Mask) : ∃ p, r.putPred n v = { r with p := p } := by
  unfold Regs.putPred
  split
  · exact ⟨r.p, rfl⟩
  · exact ⟨_, rfl⟩

theorem putPred_pred (v : Mask) (h0 : n ≠ 0) (inside : n < r.p.length) : (r.putPred n v).pred n = v := by
  rw [Regs.putPred, if_neg h0, Regs.pred, if_neg h0]
  exact getD_set v 0 inside

theorem putPred_pred_ne (v : Mask) (other : n ≠ m) : (r.putPred n v).pred m = r.pred m := by
  unfold Regs.putPred
  split
  · rfl
  · simp only [Regs.pred, getD_set_ne _ _ _ other]

/-- The dead marks of a tile after a write of its row n, and of the tiles beside it. -/
theorem putRow_rowDead (t : Nat) (v : Row512) (w : Mask) (k m : Nat) :
    (r.putRow t n v w).rowDead k m = (r.rowDead k m && decide (¬ (t = k ∧ n = m))) := by
  unfold Regs.rowDead Regs.putRow
  by_cases tile : t = k
  · subst tile
    by_cases inside : t < r.deadT.length
    · simp only [getD_modify _ _ _ _ inside, getLsbD_clear, true_and, ne_eq]
    · simp [Nat.le_of_not_lt inside]
  · simp [tile]

/-- A row that is written is live, its other bytes as a reader saw them before. -/
theorem putRow_row {t : Nat} (v : Row512) (w : Mask) (tile : t < r.t.length) (row : n < (r.t.getD t []).length) :
    (r.putRow t n v w).row t n = mergeRow (r.row t n) v w := by
  rw [Regs.row, putRow_rowDead]
  simp only [Regs.rawRow, Regs.putRow, getD_modify _ _ _ _ tile, getD_set _ _ row, and_self, not_true, decide_false, Bool.and_false,
    Bool.false_eq_true, if_false]

theorem putRow_row_ne {t k : Nat} (v : Row512) (w : Mask) (other : ¬ (t = k ∧ n = m)) : (r.putRow t n v w).row k m = r.row k m := by
  have raw : (r.putRow t n v w).rawRow k m = r.rawRow k m := by
    unfold Regs.rawRow Regs.putRow
    by_cases tile : t = k
    · subst tile
      exact getD_modify_keeps (fun rows : List Row512 => rows.getD m 0) (fun rows => getD_set_ne _ _ _ fun row => other ⟨rfl, row⟩) r.t t t []
    · rw [getD_modify_ne _ _ _ tile]
  rw [Regs.row, Regs.row, putRow_rowDead, raw, decide_eq_true other, Bool.and_true]

theorem putSpecial_only (r : Regs) (n : Nat) (v : Word) :
    ∃ sw fsr tfsr xr, r.putSpecial n v = { r with sw := sw, fsr := fsr, tfsr := tfsr, xr := xr } := by
  unfold Regs.putSpecial
  split <;> exact ⟨_, _, _, _, rfl⟩

theorem putSpecial_xr_length (r : Regs) (n : Nat) (v : Word) : (r.putSpecial n v).xr.length = r.xr.length := by
  unfold Regs.putSpecial
  split <;> simp

end

/-! ### Flags and exception records (R129, R130) -/

/-- The exception record of a syllable at `addr` that raises these flags. -/
def recordWord (cls : BitVec 5) (addr : BitVec 16) : Word := 0x80000000#32 ||| (cls.setWidth 32 <<< 16) ||| addr.setWidth 32

theorem recordWord_getLsbD (cls : BitVec 5) (addr : BitVec 16) {k : Nat} (inside : k < 32) :
    (recordWord cls addr).getLsbD k = (decide (k = 31) || (decide (16 ≤ k) && cls.getLsbD (k - 16)) || addr.getLsbD k) := by
  have valid : (0x80000000#32).getLsbD k = decide (31 = k) := by
    rw [show 0x80000000#32 = BitVec.twoPow 32 31 from rfl, BitVec.getLsbD_twoPow]
    simp
  have small : k - 16 < 32 := by omega
  simp only [recordWord, valid, BitVec.getLsbD_or, BitVec.getLsbD_shiftLeft, BitVec.getLsbD_setWidth, inside, small, decide_true,
    Bool.true_and, eq_comm (a := k), ← Nat.not_le, decide_not, Bool.not_not]

section
variable {r : Regs} {ff cls : BitVec 5} {tf : BitVec 80} {addr : BitVec 16}

theorem flagLand_only (r : Regs) (slot : Option Nat) (ff cls : BitVec 5) (tf : BitVec 80) (addr : BitVec 16) :
    ∃ xr, r.flagLand slot ff tf cls addr = { r with fsr := r.fsr ||| ff, tfsr := r.tfsr ||| tf, xr := xr } := by
  cases slot with
  | none => exact ⟨_, rfl⟩
  | some j =>
    simp only [Regs.flagLand]
    split <;> exact ⟨_, rfl⟩

theorem flagLand_xr (r : Regs) (j : Nat) (ff cls : BitVec 5) (tf : BitVec 80) (addr : BitVec 16) :
    (r.flagLand (.some j) ff tf cls addr).xr =
      if cls = 0 ∨ (r.xr.getD j 0).getLsbD 31 = true then r.xr else r.xr.set j (recordWord cls addr) := by
  simp only [Regs.flagLand, Bool.or_eq_true, decide_eq_true_eq]
  split <;> rfl

theorem flagLand_records {j : Nat} (inside : j < r.xr.length) :
    Records r (r.flagLand (.some j) ff tf cls addr) j (fun k => cls.getLsbD k = true) addr := by
  unfold Records
  rw [flagLand_xr]
  refine ⟨fun ⟨k, _, raised⟩ free => ?_, fun keeps => ?_, fun i other => ?_⟩
  · have taken : ¬ (cls = 0 ∨ (r.xr.getD j 0).getLsbD 31 = true) := by
      rintro (none | full)
      · simp [none] at raised
      · exact Bool.false_ne_true (free.symm.trans full)
    rw [if_neg taken, getD_set _ _ inside]
    refine ⟨?_, fun k five => ?_, ?_, fun k ge lt => ?_⟩
    · rw [recordWord_getLsbD _ _ (by decide)]
      rfl
    · rw [recordWord_getLsbD _ _ (by omega)]
      simp [show ¬ 16 + k = 31 by omega]
    · refine BitVec.eq_of_getLsbD_eq fun k lt => ?_
      rw [BitVec.getLsbD_setWidth, recordWord_getLsbD _ _ (by omega)]
      simp [lt, Nat.not_le_of_lt lt, show ¬ k = 31 by omega]
    · rw [recordWord_getLsbD _ _ (by omega), BitVec.getLsbD_of_ge cls _ (by omega), BitVec.getLsbD_of_ge addr _ (by omega)]
      simp [show ¬ k = 31 by omega]
  · rw [if_pos]
    exact keeps.imp_left fun none => BitVec.eq_of_getLsbD_eq fun k lt => by simpa using none k lt
  · split
    · rfl
    · exact getD_set_ne _ _ _ (Ne.symm other)

theorem records_congr {r r' q q' : Regs} {j : Nat} {raises : Nat → Prop} (before : r.xr = r'.xr) (after : q.xr = q'.xr)
    (h : Records r q j raises addr) : Records r' q' j raises addr := by
  unfold Records at h ⊢
  rwa [← before, ← after]

end

/-! ### A landing write (R133) -/

/-- The registers after the write of p to its destination, its flags apart (`land_eq`). -/
def Regs.write (r : Regs) (p : Pend) : Regs :=
  match p.dest with
  | .none | .phase => r
  | .scalar n => r.putScalar n (p.val.setWidth 32)
  | .pred n => r.putPred n (p.val.setWidth 64)
  | .branch n => { r with bt := r.bt.set n (p.val.setWidth 16) }
  | .tileRow t n => r.putRow t n p.val p.mask
  | .scale k => { r with k := r.k.set k (mergeRow (r.k.getD k 0) p.val p.mask) }
  | .rcur => { r with rcur := p.val.setWidth 5 }
  | .winBase => { r with winBase := p.val.setWidth 8 }
  | .special n => r.putSpecial n (p.val.setWidth 32)
  | .mode => { r with sw := (r.sw &&& ~~~1#32) ||| (p.val.setWidth 32 &&& 1#32) }
  | .pbnd => { r with sw := r.sw ||| 0x80#32 }

/-- q has what r has in every register file that the destination d is not of; flags and exception records apart. -/
structure Regs.Keeps (r q : Regs) (d : Dest) : Prop where
  scalars : (∀ n, d ≠ .scalar n) → q.s = r.s ∧ q.deadS = r.deadS
  preds : (∀ n, d ≠ .pred n) → q.p = r.p
  rows : (∀ t n, d ≠ .tileRow t n) → q.t = r.t ∧ q.deadT = r.deadT
  scales : (∀ k, d ≠ .scale k) → q.k = r.k
  branches : (∀ n, d ≠ .branch n) → q.bt = r.bt
  rcur : d ≠ .rcur → q.rcur = r.rcur
  winBase : d ≠ .winBase → q.winBase = r.winBase
  sw : d ≠ .mode → d ≠ .pbnd → (∀ n, d ≠ .special n) → q.sw = r.sw
  pend : q.pend = r.pend

section
variable {r : Regs} {p : Pend}

theorem land_eq (r : Regs) (p : Pend) : r.land p = (r.write p).flagLand p.slot p.fflags p.tflags p.cls p.addr := by
  unfold Regs.land Regs.write
  cases p.dest <;> rfl

theorem write_keeps (r : Regs) (p : Pend) : r.Keeps (r.write p) p.dest := by
  unfold Regs.write
  cases p.dest with
  | scalar n =>
    obtain ⟨s, d, e⟩ := putScalar_only r n (p.val.setWidth 32)
    simp only [e]
    constructor <;> simp
  | pred n =>
    obtain ⟨l, e⟩ := putPred_only r n (p.val.setWidth 64)
    simp only [e]
    constructor <;> simp
  | special n =>
    obtain ⟨a, b, c, d, e⟩ := putSpecial_only r n (p.val.setWidth 32)
    simp only [e]
    constructor <;> simp
  | _ => constructor <;> simp [Regs.putRow]

/-- The flags and the records that the flags of a write are added to: only a write to a special register changes them. -/
theorem write_special (r : Regs) (p : Pend) :
    (r.write p).fsr = (p.special r).fsr ∧ (r.write p).tfsr = (p.special r).tfsr ∧ (r.write p).xr = (p.special r).xr := by
  unfold Regs.write Pend.special
  cases p.dest with
  | scalar n =>
    obtain ⟨s, d, e⟩ := putScalar_only r n (p.val.setWidth 32)
    simp only [e, and_self]
  | pred n =>
    obtain ⟨l, e⟩ := putPred_only r n (p.val.setWidth 64)
    simp only [e, and_self]
  | _ => exact ⟨rfl, rfl, rfl⟩

theorem special_pend (r : Regs) (p : Pend) (l : List Pend) : p.special { r with pend := l } = { p.special r with pend := l } := by
  unfold Pend.special Regs.putSpecial
  split
  · split <;> rfl
  · rfl

theorem special_xr_length (r : Regs) (p : Pend) : (p.special r).xr.length = r.xr.length := by
  unfold Pend.special
  split
  · exact putSpecial_xr_length ..
  · rfl

theorem write_scalar_ne {m : Nat} (other : p.dest ≠ .scalar m) : (r.write p).scalar m = r.scalar m := by
  by_cases named : ∃ n, p.dest = .scalar n
  · obtain ⟨n, d⟩ := named
    unfold Regs.write
    rw [d]
    exact putScalar_scalar_ne _ fun e => other (e ▸ d)
  · obtain ⟨s, dead⟩ := (write_keeps r p).scalars (not_exists.1 named)
    rw [Regs.scalar, s, dead, Regs.scalar]

theorem write_pred_ne {m : Nat} (other : p.dest ≠ .pred m) : (r.write p).pred m = r.pred m := by
  by_cases named : ∃ n, p.dest = .pred n
  · obtain ⟨n, d⟩ := named
    unfold Regs.write
    rw [d]
    exact putPred_pred_ne _ fun e => other (e ▸ d)
  · rw [Regs.pred, (write_keeps r p).preds (not_exists.1 named), Regs.pred]

theorem write_row_ne {k m : Nat} (other : p.dest ≠ .tileRow k m) : (r.write p).row k m = r.row k m := by
  by_cases named : ∃ t n, p.dest = .tileRow t n
  · obtain ⟨t, n, d⟩ := named
    unfold Regs.write
    rw [d]
    exact putRow_row_ne _ _ fun ⟨tile, row⟩ => other (tile ▸ row ▸ d)
  · obtain ⟨t, dead⟩ := (write_keeps r p).rows fun t n d => named ⟨t, n, d⟩
    rw [Regs.row, Regs.rowDead, Regs.rawRow, t, dead]
    rfl

theorem write_scale_ne {m : Nat} (other : p.dest ≠ .scale m) : (r.write p).k.getD m 0 = r.k.getD m 0 := by
  by_cases named : ∃ n, p.dest = .scale n
  · obtain ⟨n, d⟩ := named
    unfold Regs.write
    rw [d]
    exact getD_set_ne _ _ _ fun e => other (e ▸ d)
  · rw [(write_keeps r p).scales (not_exists.1 named)]

theorem write_branch_ne {m : Nat} (other : p.dest ≠ .branch m) : (r.write p).bt.getD m 0 = r.bt.getD m 0 := by
  by_cases named : ∃ n, p.dest = .branch n
  · obtain ⟨n, d⟩ := named
    unfold Regs.write
    rw [d]
    exact getD_set_ne _ _ _ fun e => other (e ▸ d)
  · rw [(write_keeps r p).branches (not_exists.1 named)]

theorem write_scalar {n : Nat} (d : p.dest = .scalar n) (h0 : n ≠ 0) (inside : n < r.s.length) :
    (r.write p).scalar n = p.val.setWidth 32 := by
  unfold Regs.write
  rw [d]
  exact putScalar_scalar _ h0 inside

theorem write_pred {n : Nat} (d : p.dest = .pred n) (h0 : n ≠ 0) (inside : n < r.p.length) : (r.write p).pred n = p.val.setWidth 64 := by
  unfold Regs.write
  rw [d]
  exact putPred_pred _ h0 inside

theorem write_row {k n : Nat} (d : p.dest = .tileRow k n) (tile : k < r.t.length) (row : n < (r.t.getD k []).length) :
    (r.write p).row k n = mergeRow (r.row k n) p.val p.mask := by
  unfold Regs.write
  rw [d]
  exact putRow_row _ _ tile row

theorem write_scale {n : Nat} (d : p.dest = .scale n) (inside : n < r.k.length) :
    (r.write p).k.getD n 0 = mergeRow (r.k.getD n 0) p.val p.mask := by
  unfold Regs.write
  rw [d]
  exact getD_set _ _ inside

theorem write_branch {n : Nat} (d : p.dest = .branch n) (inside : n < r.bt.length) : (r.write p).bt.getD n 0 = p.val.setWidth 16 := by
  unfold Regs.write
  rw [d]
  exact getD_set _ _ inside

theorem write_rcur (d : p.dest = .rcur) : (r.write p).rcur = p.val.setWidth 5 := by
  unfold Regs.write
  rw [d]

theorem write_winBase (d : p.dest = .winBase) : (r.write p).winBase = p.val.setWidth 8 := by
  unfold Regs.write
  rw [d]

theorem write_of_special {n : Nat} (d : p.dest = .special n) : r.write p = p.special r := by
  unfold Regs.write Pend.special
  rw [d]

/-- A write of MODE changes bit 0 of sw alone (R128). -/
theorem write_mode (d : p.dest = .mode) {k : Nat} (inside : k < 32) :
    (r.write p).sw.getLsbD k = if k = 0 then p.val.getLsbD 0 else r.sw.getLsbD k := by
  unfold Regs.write
  rw [d]
  simp only [BitVec.getLsbD_or, BitVec.getLsbD_and, BitVec.getLsbD_not, BitVec.getLsbD_setWidth, BitVec.getLsbD_one]
  by_cases h0 : k = 0 <;> simp [h0, inside]

theorem write_pbnd (d : p.dest = .pbnd) {k : Nat} (inside : k < 32) : (r.write p).sw.getLsbD k = (k == 7 || r.sw.getLsbD k) := by
  unfold Regs.write
  rw [d]
  show (r.sw ||| BitVec.twoPow 32 7).getLsbD k = _
  rw [BitVec.getLsbD_or, BitVec.getLsbD_twoPow, Bool.or_comm]
  simp [inside, beq_eq_decide, eq_comm]

/-! ### The core that a write lands in (R134, R167) -/

theorem core_land_phase (k : Core) (d : p.dest = .phase) :
    k.land p = { k with phaseWas := (p.due, k.phase), phase := p.val.setWidth 6 } := by
  unfold Core.land
  rw [d]

theorem core_land_of_ne_phase (k : Core) (d : p.dest ≠ .phase) : k.land p = { k with r := k.r.land p } := by
  unfold Core.land
  split
  · contradiction
  · rfl

/-- But for flags and exception records, the registers after a landing are those that its write leaves. -/
theorem core_land_r (k : Core) (p : Pend) : ∃ f t x, (k.land p).r = { k.r.write p with fsr := f, tfsr := t, xr := x } := by
  by_cases d : p.dest = .phase
  · rw [core_land_phase k d]
    unfold Regs.write
    rw [d]
    exact ⟨_, _, _, rfl⟩
  · obtain ⟨x, e⟩ := flagLand_only (k.r.write p) p.slot p.fflags p.cls p.tflags p.addr
    rw [core_land_of_ne_phase k d, land_eq, e]
    exact ⟨_, _, _, rfl⟩

/-- A core with p taken from its queue. -/
def Core.unqueue (k : Core) (p : Pend) : Core := { k with r := { k.r with pend := k.r.pend.erase p } }

theorem landOne_core {s : State} {h c : Nat} (first : firstPend (s.regs h c).pend = .some p) (due : p.due ≤ s.tick)
    (herd : h < s.herds.length) (core : c < (s.herd h).cores.length) :
    (s.landOne h c).core h c = ((s.core h c).unqueue p).land p := by
  unfold State.landOne
  rw [first]
  simp only [if_neg (Nat.not_lt_of_le due)]
  rw [← State.modCore_core s h c (fun k => (k.unqueue p).land p) herd core]
  split
  · split <;> rfl
  · rfl

/-- What a landing that is no change of phase adds to the flags and the records, those of a write to a special register first. -/
theorem unqueue_land_flags (k : Core) (d : p.dest ≠ .phase) (length : k.r.xr.length = 4) :
    let q := ((k.unqueue p).land p).r
    let b := p.special k.r
    q.fsr = b.fsr ||| p.fflags ∧ q.tfsr = b.tfsr ||| p.tflags ∧ (p.slot = .none → q.xr = b.xr) ∧
      ∀ j < 4, p.slot = .some j → Records b q j (fun k => p.cls.getLsbD k = true) p.addr := by
  intro q b
  have q_eq : q = ((k.unqueue p).r.write p).flagLand p.slot p.fflags p.tflags p.cls p.addr := by
    rw [← land_eq]
    exact congrArg Core.r (core_land_of_ne_phase _ d)
  obtain ⟨fsr, tfsr, xr⟩ := write_special (k.unqueue p).r p
  rw [show p.special (k.unqueue p).r = { b with pend := _ } from special_pend ..] at fsr tfsr xr
  obtain ⟨x, only⟩ := flagLand_only ((k.unqueue p).r.write p) p.slot p.fflags p.cls p.tflags p.addr
  refine ⟨?_, ?_, fun slot => ?_, fun j inside slot => ?_⟩
  · rw [q_eq, only, ← fsr]
  · rw [q_eq, only, ← tfsr]
  · rw [q_eq, slot]
    exact xr
  · rw [q_eq, slot]
    refine records_congr xr rfl (flagLand_records ?_)
    rw [xr]
    exact inside.trans_eq ((special_xr_length k.r p).trans length).symm

end

/-- Settles O4. The landing writes its register as `Regs.write` says (`landOne_core`, `core_land_r`), one lemma for the register it names and
one for the others of a file; flags and records by `unqueue_land_flags`. -/
theorem landingWritesOneRegister : Obligations.LandingWritesOneRegister := by
  intro s p herd core sized first due
  refine ⟨_, rfl, ?_⟩
  intro r q b
  obtain ⟨s_len, p_len, t_len, row_len, k_len, bt_len, -, xr_len⟩ := sized
  have land := landOne_core first due herd core
  have q_land : q = (((s.core s.ev.a s.ev.b).unqueue p).land p).r := congrArg Core.r land
  obtain ⟨f, t, x, q_eq⟩ := core_land_r ((s.core s.ev.a s.ev.b).unqueue p) p
  rw [← q_land] at q_eq
  have keeps := write_keeps ((s.core s.ev.a s.ev.b).unqueue p).r p
  refine ⟨?pend, ?flags, ?phase, ?other, ?files⟩
  case pend => rw [q_eq]; exact keeps.pend
  case flags =>
    intro d
    rw [q_land]
    exact unqueue_land_flags _ d xr_len
  case phase =>
    intro d
    rw [land, q_land, core_land_phase _ d]
    exact ⟨rfl, rfl, rfl, BitVec.toNat_setWidth ..⟩
  case other =>
    intro d
    rw [land, core_land_of_ne_phase _ d]
    rfl
  case files =>
    rw [q_eq]
    refine ⟨?special, fun d _ => write_mode d, fun d _ => write_pbnd d,
      fun _ d pos inside => write_scalar d (Nat.ne_of_gt pos) (inside.trans_eq s_len.symm), rfl,
      fun _ d pos inside => write_pred d (Nat.ne_of_gt pos) (inside.trans_eq p_len.symm), rfl, ?row,
      fun _ d inside => write_scale d (inside.trans_eq k_len.symm), fun _ d inside => write_branch d (inside.trans_eq bt_len.symm),
      write_rcur, write_winBase, fun _ => write_scalar_ne, fun _ => write_pred_ne, fun _ _ => write_row_ne, fun _ => write_scale_ne,
      fun _ => write_branch_ne, keeps.rcur, keeps.winBase, keeps.sw⟩
    case special =>
      intro n d
      show (Regs.write _ p).sw = b.sw
      rw [write_of_special d, Core.unqueue, special_pend]
      rfl
    case row =>
      intro k n d tile row
      have tile := tile.trans_eq t_len.symm
      exact write_row d tile (row.trans_eq (row_len _ (List.getD_eq_getElem r.t [] tile ▸ List.getElem_mem tile)).symm)

end Sys2Proof.Machine

namespace Sys2Proof.Machine

/-! ### Reads of special registers (R127, R131, R166) -/

/-- A field of a register, as the word that `rdsr` gives. -/
theorem extract_word {n : Nat} (x : BitVec n) (lo w : Nat) :
    (x.extractLsb' lo w).setWidth 32 = BitVec.ofNat 32 (x.toNat / 2 ^ lo % 2 ^ w) := by
  rw [← Nat.shiftRight_eq_div_pow, ← BitVec.extractLsb'_toNat]
  exact (BitVec.ofNat_toNat ..).symm

theorem high_half (v : BitVec 64) : (v >>> 32).setWidth 32 = v.extractLsb' 32 32 := by
  ext k
  simp

/-- The high half of `ecnt`, with its overflow bit. -/
theorem ecnt_high (x : Ctx) :
    x.ecnt / 2 ^ 32 % 2 ^ 16 + (if x.eovf then 2 ^ 16 else 0) = x.ecnt / 2 ^ 32 % 2 ^ 16 + x.eovf.toNat * 2 ^ 16 := by
  cases x.eovf <;> rfl

section
variable {s : State} {d : BitVec 5} {n : BitVec 6}

theorem exec_rdsr : exec (.rdsr d n) s = execRdsr d n s := rfl

theorem rdsr_reads {k : BitVec 6} {w : Word} (reads : s.special k.toNat = .some w) (named : n = k) :
    exec (.rdsr d n) s = .next ((s.sampleHigh n.toNat).put 1 (.scalar d.toNat) (wide w)) := by
  rw [exec_rdsr, execRdsr, named, reads]
  rfl

theorem special_undefined {n : Nat} (undefined : 4 < n ∧ n < 8 ∨ 11 < n ∧ n < 16 ∨ 26 < n) : s.special n = .none := by
  unfold State.special
  split
  rotate_right
  · rfl
  all_goals omega

theorem rdsr_traps (undefined : s.special n.toNat = .none) : Traps (.rdsr d n) s 2 8 := by
  rw [Traps, exec_rdsr, execRdsr, undefined]
  rfl

theorem sampleHigh_idle {n : Nat} (vcyc : n ≠ 0x10) (ecnt : n ≠ 0x12) : s.sampleHigh n = s := by
  unfold State.sampleHigh
  split
  · contradiction
  · contradiction
  · rfl

/-! ### Writes of special registers (R127 to R130) -/

theorem mayWrite_iff {n : Nat} :
    s.mayWrite n = true ↔ n ≤ 4 ∨ (8 ≤ n ∧ n ≤ 11) ∨ (20 ≤ n ∧ n ≤ 23 ∧ s.R.ctx = .some 0) := by
  simp [State.mayWrite, and_assoc, or_assoc]

theorem exec_wrsr (a : BitVec 5) : exec (.wrsr n a) s = execWrsr n a s := rfl

theorem wrsr_gives {a : BitVec 5} {x : Word} (may : s.mayWrite n.toNat = true) (src : s.src a 0 = .ok x) :
    Gives (.wrsr n a) s [a] 1 (.special n.toNat) (wide x) := by
  rw [Gives, exec_wrsr, execWrsr, if_pos may, src]
  rfl

theorem wrsr_traps (a : BitVec 5) (may : ¬ s.mayWrite n.toNat = true) : Traps (.wrsr n a) s 2 8 := by
  rw [Traps, exec_wrsr, execWrsr, if_neg may]
  rfl

end

/-- The low w bits of a word. -/
theorem toNat_low (x : Word) (w : Nat) (inside : w ≤ 32) : (x &&& BitVec.ofNat 32 (2 ^ w - 1)).toNat = x.toNat % 2 ^ w := by
  have le : 2 ^ w ≤ 2 ^ 32 := Nat.pow_le_pow_right (by decide) inside
  rw [BitVec.toNat_and, BitVec.toNat_ofNat, Nat.mod_eq_of_lt (by omega), Nat.and_two_pow_sub_one_eq_mod]

/-- A field of w bits from bit lo of t, written with v. -/
theorem toNat_putField (t v : BitVec 80) {lo w : Nat} (small : v.toNat < 2 ^ w) (inside : lo + w ≤ 80) :
    ((t &&& ~~~(BitVec.ofNat 80 (2 ^ w - 1) <<< lo)) ||| (v <<< lo)).toNat =
      t.toNat / 2 ^ (lo + w) * 2 ^ (lo + w) + v.toNat * 2 ^ lo + t.toNat % 2 ^ lo := by
  have low : t.toNat % 2 ^ lo < 2 ^ lo := Nat.mod_lt _ (Nat.two_pow_pos lo)
  have fields : t.toNat / 2 ^ (lo + w) * 2 ^ (lo + w) + v.toNat * 2 ^ lo + t.toNat % 2 ^ lo =
      2 ^ lo * (2 ^ w * (t.toNat / 2 ^ (lo + w)) + v.toNat) + t.toNat % 2 ^ lo := by
    rw [Nat.pow_add]
    ring
  refine Nat.eq_of_testBit_eq fun k => ?_
  rw [fields, Nat.testBit_two_pow_mul_add _ low, Nat.testBit_two_pow_mul_add _ small, BitVec.testBit_toNat, Nat.testBit_mod_two_pow,
    Nat.testBit_div_two_pow, BitVec.testBit_toNat, BitVec.testBit_toNat, BitVec.getLsbD_or, BitVec.getLsbD_and, BitVec.getLsbD_not,
    BitVec.getLsbD_shiftLeft, BitVec.getLsbD_shiftLeft, BitVec.getLsbD_ofNat, Nat.testBit_two_pow_sub_one]
  by_cases below : k < lo
  · have width : k < 80 := by omega
    simp [below, width]
  by_cases field : k - lo < w
  · have width : k < 80 := by omega
    have width' : k - lo < 80 := by omega
    simp [below, field, width, width']
  · have above : k - lo - w + (lo + w) = k := by omega
    have zero : v.getLsbD (k - lo) = false := by
      rw [← BitVec.testBit_toNat]
      exact Nat.testBit_lt_two_pow (small.trans_le (Nat.pow_le_pow_right (by decide) (Nat.le_of_not_lt field)))
    by_cases width : k < 80
    · simp [below, field, above, zero, width, BitVec.testBit_toNat]
    · simp [below, field, above, zero, width, BitVec.testBit_toNat, BitVec.getLsbD_of_ge t k (Nat.le_of_not_lt width)]

theorem putSpecial_xr (r : Regs) (x : Word) {k : Nat} (inside : k < 4) :
    (r.putSpecial (8 + k) x).xr = r.xr.set k (x &&& 0x801FFFFF#32) := by
  match k, inside with
  | 0, _ | 1, _ | 2, _ | 3, _ => rfl

/-- A write to a special register keeps the others. -/
theorem putSpecial_keeps (r : Regs) (n : Nat) (x : Word) :
    let q := r.putSpecial n x
    (n ≠ 0 → q.sw = r.sw) ∧ (n ≠ 1 → q.fsr = r.fsr) ∧ (n ∉ [2, 3, 4] → q.tfsr = r.tfsr) ∧ (n ∉ [8, 9, 10, 11] → q.xr = r.xr) := by
  intro q
  simp only [q, Regs.putSpecial]
  split <;> simp

theorem putSpecial_tfsr_low (r : Regs) (x : Word) :
    (r.putSpecial 2 x).tfsr.toNat = r.tfsr.toNat / 2 ^ 30 * 2 ^ 30 + x.toNat % 2 ^ 30 := by
  have small : (x &&& 0x3FFFFFFF#32).toNat = x.toNat % 2 ^ 30 := toNat_low x 30 (by decide)
  have lt := r.tfsr.isLt
  have shifted : r.tfsr.toNat / 2 ^ 30 * 2 ^ 30 < 2 ^ 80 := by omega
  show ((r.tfsr >>> 30 <<< 30) ||| (x &&& 0x3FFFFFFF#32).setWidth 80).toNat = _
  rw [BitVec.toNat_or, BitVec.toNat_shiftLeft, BitVec.toNat_ushiftRight, BitVec.toNat_setWidth, small, Nat.shiftRight_eq_div_pow,
    Nat.shiftLeft_eq, Nat.mod_eq_of_lt shifted, Nat.mod_eq_of_lt (by omega : x.toNat % 2 ^ 30 < 2 ^ 80), Nat.mul_comm,
    Nat.two_pow_add_eq_or_of_lt (Nat.mod_lt _ (Nat.two_pow_pos 30))]

theorem putSpecial_tfsr_mid (r : Regs) (x : Word) : (r.putSpecial 3 x).tfsr.toNat =
    r.tfsr.toNat / 2 ^ 60 * 2 ^ 60 + x.toNat % 2 ^ 30 * 2 ^ 30 + r.tfsr.toNat % 2 ^ 30 := by
  have value : ((x &&& 0x3FFFFFFF#32).setWidth 80).toNat = x.toNat % 2 ^ 30 := by
    rw [BitVec.toNat_setWidth, show (x &&& 0x3FFFFFFF#32).toNat = _ from toNat_low x 30 (by decide)]
    omega
  rw [← value]
  exact toNat_putField r.tfsr _ (lo := 30) (w := 30) (by omega) (by decide)

theorem putSpecial_tfsr_high (r : Regs) (x : Word) :
    (r.putSpecial 4 x).tfsr.toNat = r.tfsr.toNat % 2 ^ 60 + x.toNat % 2 ^ 20 * 2 ^ 60 := by
  have value : ((x &&& 0xFFFFF#32).setWidth 80).toNat = x.toNat % 2 ^ 20 := by
    rw [BitVec.toNat_setWidth, show (x &&& 0xFFFFF#32).toNat = _ from toNat_low x 20 (by decide)]
    omega
  have above : r.tfsr.toNat / 2 ^ (60 + 20) = 0 := Nat.div_eq_of_lt r.tfsr.isLt
  refine (toNat_putField r.tfsr ((x &&& 0xFFFFF#32).setWidth 80) (lo := 60) (w := 20) (by omega) (by decide)).trans ?_
  rw [above, value, Nat.zero_mul, Nat.zero_add, Nat.add_comm]

/-- Settles O26: reads by `rdsr_reads` and `special_undefined`, writes by `mayWrite_iff`, and what a landing makes of each register
by the lemmas on `putSpecial`. -/
theorem specialRegisters : Obligations.SpecialRegisters := by
  refine ⟨fun s d n => ?_, fun s n a x src => ?_, fun r x length => ?_⟩
  · intro x v eh gives
    have eh_eq := congrArg (BitVec.ofNat 32) (ecnt_high x)
    have field (lo w : Nat) := extract_word s.R.tfsr lo w
    have top : s.R.tfsr.toNat / 2 ^ 60 % 2 ^ 20 = s.R.tfsr.toNat / 2 ^ 60 := Nat.mod_eq_of_lt (Nat.div_lt_of_lt_mul s.R.tfsr.isLt)
    rw [← top]
    refine ⟨rdsr_reads rfl, rdsr_reads rfl, rdsr_reads ?_, rdsr_reads ?_, rdsr_reads ?_, rdsr_reads rfl, rdsr_reads rfl, rdsr_reads rfl,
      rdsr_reads rfl, rdsr_reads rfl, rdsr_reads ?_, rdsr_reads rfl, rdsr_reads ?_, rdsr_reads rfl, rdsr_reads rfl, rdsr_reads rfl,
      rdsr_reads rfl, rdsr_reads rfl, rdsr_reads rfl, rdsr_reads rfl, fun undefined => rdsr_traps (special_undefined undefined), ?_, ?_, ?_⟩
    · exact congrArg Option.some ((field 0 30).trans (by rw [Nat.pow_zero, Nat.div_one]))
    · exact congrArg Option.some (field 30 30)
    · exact congrArg Option.some (field 60 20)
    · exact congrArg (fun w => Option.some (s.R.vcycHi.getD w)) (high_half v)
    · exact congrArg (fun w => Option.some (s.R.ecntHi.getD w)) eh_eq
    · exact congrArg (fun w => s.modR fun r => { r with vcycHi := .some w }) (high_half v)
    · exact congrArg (fun w => s.modR fun r => { r with ecntHi := .some w }) eh_eq
    · exact fun vcyc ecnt => sampleHigh_idle (fun e => vcyc (BitVec.eq_of_toNat_eq e)) fun e => ecnt (BitVec.eq_of_toNat_eq e)
  · rw [← mayWrite_iff]
    exact ⟨fun may => wrsr_gives may src, wrsr_traps a⟩
  · refine ⟨rfl, rfl, putSpecial_tfsr_low r x, putSpecial_tfsr_mid r x, putSpecial_tfsr_high r x, fun k inside => ?_,
      fun n => putSpecial_keeps r n x⟩
    rw [putSpecial_xr r x inside]
    exact ⟨getD_set _ _ (inside.trans_eq length.symm), fun j other => getD_set_ne _ _ _ (Ne.symm other)⟩

end Sys2Proof.Machine

namespace Sys2Proof.Machine

/-! ## Control instructions

### What noting a read past the block leaves (R25)

`notePbnd` at most queues the write of PBND: the executing core reads its registers, its context and its instruction store as before. -/

section
variable (s : State) (fs : List (BitVec 5))

theorem notePbnd_cases : s.notePbnd fs = s ∨ s.notePbnd fs = s.put 1 .pbnd 0 := by
  unfold State.notePbnd
  split
  · exact .inr rfl
  · exact .inl rfl

@[simp] theorem notePbnd_cur : (s.notePbnd fs).cur = s.cur := by
  rcases notePbnd_cases s fs with e | e <;> rw [e]
  rfl

@[simp] theorem notePbnd_tick : (s.notePbnd fs).tick = s.tick := by
  rcases notePbnd_cases s fs with e | e <;> rw [e]
  rfl

theorem notePbnd_R_keeps {β : Type} (π : Regs → β) (keeps : ∀ r l, π { r with pend := l } = π r) : π (s.notePbnd fs).R = π s.R := by
  rcases notePbnd_cases s fs with e | e <;> rw [e]
  exact modCore_core_keeps s s.cur.herd s.cur.core (fun k => { k with r := k.r.queue (s.written 1 .pbnd 0) }) (fun k => π k.r)
    (fun _ => keeps _ _) s.cur.herd s.cur.core

@[simp] theorem notePbnd_loops : (s.notePbnd fs).R.loops = s.R.loops := notePbnd_R_keeps s fs Regs.loops fun _ _ => rfl

@[simp] theorem notePbnd_predBit (p : Nat) : (s.notePbnd fs).predBit p = s.predBit p :=
  notePbnd_R_keeps s fs (fun r => (r.pred p).getLsbD 0) fun _ _ => rfl

@[simp] theorem notePbnd_vcyc : (s.notePbnd fs).vcyc ((s.notePbnd fs).R.ctx.getD 0) = s.vcyc (s.R.ctx.getD 0) := by
  rw [notePbnd_R_keeps s fs Regs.ctx fun _ _ => rfl]
  rcases notePbnd_cases s fs with e | e <;> rw [e]
  rfl

@[simp] theorem notePbnd_after (pc : Nat) : (s.notePbnd fs).after pc = s.after pc := by
  have word : (s.notePbnd fs).word = s.word := by
    rcases notePbnd_cases s fs with e | e <;> rw [e]
    funext i
    exact modCore_herd_keeps s s.cur.herd s.cur.core _ (fun x => x.word i) (fun _ _ => rfl) s.cur.herd
  rw [State.after, word, State.after]

end

/-- A field that a word holds, as a result. -/
theorem wide_setWidth {w : Nat} (x : BitVec w) (fits : w ≤ 32) : wide (x.setWidth 32) = x.setWidth 512 := by
  refine BitVec.eq_of_getLsbD_eq fun i _ => ?_
  simp only [wide, BitVec.getLsbD_setWidth]
  by_cases inside : i < 32
  · simp [inside]
  · simp [BitVec.getLsbD_of_ge x i (by omega)]

/-! ### Transfers (R148, R149, R151) -/

section
variable {s : State}

theorem bset_gives (n : BitVec 2) {a : BitVec 5} {x : Word} (src : s.src a 0 = .ok x) :
    Gives (.bset n a) s [a] 1 (.branch n.toNat) (wide ((x.setWidth 16).setWidth 32)) := by
  show execBset n a s = _
  rw [execBset, src]
  rfl

theorem bsetr_gives (n : BitVec 2) {a : BitVec 5} {x : Word} (src : s.src a 0 = .ok x) :
    Gives (.bsetr n a) s [a] 1 (.branch n.toNat) (wide ((s.cur.pc + x.setWidth 16).setWidth 32)) := by
  show execBsetr n a s = _
  rw [execBsetr, src, wide_setWidth _ (by decide)]
  rfl

theorem exec_bgo (n : BitVec 2) (c : BitVec 3) :
    exec (.bgo n c) s = .next (if s.predBit c.toNat then s.transfer (s.R.bt.getD n.toNat 0) else s) := rfl

theorem exec_bgon (n : BitVec 2) (c : BitVec 3) :
    exec (.bgon n c) s = .next (if s.predBit c.toNat then s else s.transfer (s.R.bt.getD n.toNat 0)) := rfl

theorem blink_idle (n : BitVec 2) {c : BitVec 3} (off : s.predBit c.toNat = false) : exec (.blink n c) s = .next s := by
  show execBlink n c s = _
  rw [execBlink, off]
  rfl

theorem blink_taken (n : BitVec 2) {c : BitVec 3} (on : s.predBit c.toNat = true) (room : s.room 3 0 = .ok ()) :
    exec (.blink n c) s =
      .next ((s.transfer (s.R.bt.getD n.toNat 0)).put 3 (.scalar 23) (s.returnAddress.setWidth 512)) := by
  show execBlink n c s = _
  rw [execBlink, on, room]
  rfl

theorem exec_bback (c : BitVec 3) {a : BitVec 5} {x : Word} (src : s.src a 0 = .ok x) :
    exec (.bback c a) s = .next (if s.predBit c.toNat then (s.notePbnd [a]).transfer (x.setWidth 16) else s.notePbnd [a]) := by
  show execBback c a s = _
  rw [execBback, src, ← notePbnd_predBit s [a]]
  rfl

end

/-- Without a back-edge at p, flow stays in sequence and nothing of the stack changes (R156). -/
theorem backEdge_idle {n : Nat} {p seq : BitVec 16} {f : Flow} (other : ∀ e ∈ f.loops.head?, e.fin ≠ p) : backEdge n p seq f = f := by
  cases n with
  | zero => rfl
  | succ n =>
    unfold backEdge
    cases here : f.loops with
    | nil => rfl
    | cons e l => exact if_pos (other e (by simp [here]))

theorem flow_idle {k : Core} {p seq : BitVec 16} (other : ∀ e ∈ k.r.loops.head?, e.fin ≠ p) :
    k.flow p seq = { loops := k.r.loops, next := seq, land := false, saved := k.clampSaved, body := false } := backEdge_idle other

theorem returnAddress_straight {s : State} (empty : s.R.loops = []) :
    s.returnAddress = BitVec.ofNat 16 (s.after (s.after s.cur.next.toNat)) := by
  have none : ∀ e ∈ s.me.r.loops.head?, e.fin ≠ s.cur.pc := by
    rw [show s.me.r.loops = [] from empty]
    exact fun _ h => nomatch h
  rw [State.returnAddress, flow_idle none]

/-- Settles O19: each transfer by what its condition makes of it, and the delay bundles by running `transferNext`. -/
theorem transfers : Obligations.Transfers := by
  refine ⟨fun s n a x src => ⟨?_, ?_⟩, fun s n c a x => ?_, fun target f0 f1 f2 => ?_⟩
  · exact ⟨_, by simp; omega, bset_gives n src⟩
  · exact ⟨_, by simp; omega, bsetr_gives n src⟩
  · intro holds goes bt
    refine ⟨fun on => ?_, fun off => ?_, fun on room => blink_taken n on room, fun empty => ?_, fun src => ⟨fun on => ?_, fun off => ?_⟩⟩
    · have on : s.predBit c.toNat = true := on
      rw [exec_bgo, exec_bgon, on]
      exact ⟨rfl, rfl⟩
    · have off : s.predBit c.toNat = false := Bool.eq_false_of_not_eq_true off
      rw [exec_bgo, exec_bgon, off]
      exact ⟨rfl, rfl, blink_idle n off⟩
    · rw [returnAddress_straight empty, BitVec.toNat_ofNat]
    · have on : s.predBit c.toNat = true := on
      rw [exec_bback c src, on]
      rfl
    · have off : s.predBit c.toNat = false := Bool.eq_false_of_not_eq_true off
      rw [exec_bback c src, off]
      rfl
  · exact ⟨_, _, rfl, rfl, nofun, nofun, rfl⟩

end Sys2Proof.Machine

namespace Sys2Proof.Machine

/-! ### Predicate operations (R152) -/

/-- The bytes of element i, of 2^e bytes, as `pfirst` marks them. -/
def elemBytes (e i : Nat) : Mask := BitVec.ofNat 64 ((2 ^ 2 ^ e - 1) * 2 ^ (i * 2 ^ e))

theorem elemBytes_getLsbD (e i : Nat) {l : Nat} (inside : l < 64) : (elemBytes e i).getLsbD l = decide (l / 2 ^ e = i) := by
  have size : 0 < 2 ^ e := Nat.two_pow_pos e
  rw [elemBytes, BitVec.getLsbD_ofNat, Nat.testBit_mul_two_pow, Nat.testBit_two_pow_sub_one, decide_eq_true inside, Bool.true_and,
    ← Bool.decide_and]
  rw [decide_eq_decide, Nat.div_eq_iff size]
  omega

/-- The bytes of the first enabled element of 2^e bytes; none when no element is enabled. -/
def firstMask (m : Mask) (e : Nat) : Mask := ((enabledElems m e).head?.map (elemBytes e)).getD 0

theorem enabledElems_head? (m : Mask) (e : Nat) :
    (enabledElems m e).head? = (List.range (64 / 2 ^ e)).find? fun i => m.getLsbD (i * 2 ^ e) := List.head?_filter

theorem firstMask_none {m : Mask} {e : Nat} (off : ∀ i < 64 / 2 ^ e, m.getLsbD (i * 2 ^ e) = false) : firstMask m e = 0 := by
  have none : (enabledElems m e).head? = .none := by
    rw [enabledElems_head?, List.find?_range_eq_none]
    exact fun i inside => by simp [off i inside]
  rw [firstMask, none]
  rfl

theorem firstMask_some {m : Mask} {e i : Nat} (inside : i < 64 / 2 ^ e) (on : m.getLsbD (i * 2 ^ e) = true)
    (first : ∀ j < i, m.getLsbD (j * 2 ^ e) = false) : firstMask m e = elemBytes e i := by
  have here : (enabledElems m e).head? = .some i := by
    rw [enabledElems_head?, List.find?_range_eq_some]
    exact ⟨on, List.mem_range.2 inside, fun j before => by simp [first j before]⟩
  rw [firstMask, here]
  rfl

theorem pfirst_gives (s : State) (d a b : BitVec 3) (e : BitVec 2) :
    GivesMask (.pfirst d a b e) s d (firstMask (s.R.pred a.toNat &&& s.R.pred b.toNat) e.toNat) := by
  show execPfirst d a b e s = .next (s.predOp d _)
  rw [execPfirst, firstMask]
  cases enabledElems (s.R.pred a.toNat &&& s.R.pred b.toNat) e.toNat <;> rfl

theorem enabledElems_length_le (m : Mask) (e : Nat) : (enabledElems m e).length ≤ 64 :=
  calc (enabledElems m e).length ≤ (List.range (64 / 2 ^ e)).length := List.length_filter_le ..
    _ = 64 / 2 ^ e := List.length_range
    _ ≤ 64 := Nat.div_le_self ..

/-- A number that a word holds, as a result. -/
theorem wide_ofNat {n : Nat} (fits : n < 2 ^ 32) : wide (BitVec.ofNat 32 n) = BitVec.ofNat 512 n := by
  refine BitVec.eq_of_getLsbD_eq fun i inside => ?_
  rw [wide, BitVec.getLsbD_setWidth, BitVec.getLsbD_ofNat, BitVec.getLsbD_ofNat]
  by_cases low : i < 32
  · simp [low]
  · have none : n.testBit i = false := Nat.testBit_lt_two_pow (fits.trans_le (Nat.pow_le_pow_right (by decide) (Nat.le_of_not_lt low)))
    simp [none]

theorem pcnt_gives (s : State) (a b : BitVec 3) (k : BitVec 5) (e : BitVec 2) :
    Gives (.pcnt a b k e) s [] 1 (.scalar k.toNat)
      (BitVec.ofNat 512 (enabledElems (s.R.pred a.toNat &&& s.R.pred b.toNat) e.toNat).length) := rfl

/-- Settles O20: what each operation gives is written in its meaning, but for the mask of `pfirst` and the count of `pcnt`. -/
theorem predicateOperations : Obligations.PredicateOperations := by
  intro s d a b e k x y on n
  refine ⟨rfl, rfl, rfl, rfl, rfl, rfl, rfl, ⟨_, pfirst_gives s d a b e, firstMask_none, fun i inside here first l small => ?_⟩, ?_⟩
  · rw [firstMask_some inside here first, elemBytes_getLsbD _ _ small]
  · have small := Nat.lt_of_le_of_lt (enabledElems_length_le (x &&& y) e.toNat) (by decide : 64 < 2 ^ 32)
    refine ⟨BitVec.ofNat 32 (enabledElems (x &&& y) e.toNat).length, Nat.mod_eq_of_lt small, ?_⟩
    rw [wide_ofNat small]
    exact pcnt_gives s a b k e

end Sys2Proof.Machine

namespace Sys2Proof.Machine

/-! ### The loop stack (R154 to R158) -/

/-- The executing core's loop stack with one entry more (R155). -/
def State.pushed (s : State) (e : LoopEntry) : State := s.modR fun r => { r with loops := e :: r.loops }

theorem pushLoop_room {s : State} (e : LoopEntry) (room : s.R.loops.length < 6) : s.pushLoop e = .ok (s.pushed e) :=
  if_neg (Nat.not_le_of_lt room)

section
variable {s : State} {a b : BitVec 5} {x y : Word}

theorem exec_loop (src : s.src2 a b = .ok (x, y)) : exec (.loop a b) s = s.answer (
    if 6 ≤ s.R.loops.length then raise 1 10
    else if y.setWidth 16 < s.cur.next then raise 2 9
    else if x = 0 then .ok ((s.notePbnd [a, b]).skipLoop (y.setWidth 16))
    else (s.notePbnd [a, b]).pushLoop { start := s.cur.next, fin := y.setWidth 16, count := x }) := by
  show execLoop a b s = _
  simp only [execLoop, src, bind, Except.bind, notePbnd_loops, notePbnd_cur]
  rfl

theorem exec_loopi (i : BitVec 8) (src : s.src b 0 = .ok y) : exec (.loopi i b) s = s.answer (
    if 6 ≤ s.R.loops.length then raise 1 10
    else if y.setWidth 16 < s.cur.next then raise 2 9
    else (s.notePbnd [b]).pushLoop { start := s.cur.next, fin := y.setWidth 16, count := i.setWidth 32 + 1 }) := by
  show execLoopi i b s = _
  simp only [execLoopi, src, bind, Except.bind, notePbnd_loops, notePbnd_cur]

/-- The entry that `lpipe` pushes (R154). -/
def pipeEntry (np : BitVec 16) (st : BitVec 4) (x y : Word) : LoopEntry :=
  { pro := np, epi := y.extractLsb' 16 16, start := x.setWidth 16, fin := x.extractLsb' 16 16
    count := (y.setWidth 16 : BitVec 16).setWidth 32, index := 0, kind := true, sm1 := st }

theorem exec_lpipe (st : BitVec 4) (src : s.src2 a b = .ok (x, y)) : exec (.lpipe st a b) s = s.answer (
    if 6 ≤ s.R.loops.length then raise 1 10
    else if x.extractLsb' 16 16 < x.setWidth 16 || x.setWidth 16 < s.cur.next then raise 2 9
    else if (y.setWidth 16 : BitVec 16).toNat < st.toNat + 1 then raise 2 9
    else (s.notePbnd [a, b]).pushLoop (pipeEntry s.cur.next st x y)) := by
  show execLpipe st a b s = _
  simp only [execLpipe, src, bind, Except.bind, notePbnd_loops, notePbnd_cur]
  rfl

/-! What a push answers: with six entries active, and with fewer, when the place of its body does not fit, and else. -/

theorem push_full {i : Instr} {r : Res State} (run : exec i s = s.answer (if 6 ≤ s.R.loops.length then raise 1 10 else r))
    (full : 6 ≤ s.R.loops.length) : Traps i s 1 10 := run.trans (congrArg s.answer (if_pos full))

theorem push_room {i : Instr} {r : Res State} (run : exec i s = s.answer (if 6 ≤ s.R.loops.length then raise 1 10 else r))
    (room : s.R.loops.length < 6) : exec i s = s.answer r := run.trans (congrArg s.answer (if_neg (Nat.not_le_of_lt room)))

theorem loop_backward (src : s.src2 a b = .ok (x, y)) (room : s.R.loops.length < 6) (backward : y.setWidth 16 < s.cur.next) :
    Traps (.loop a b) s 2 9 := (push_room (exec_loop src) room).trans (congrArg s.answer (if_pos backward))

theorem loop_skips (src : s.src2 a b = .ok (x, y)) (room : s.R.loops.length < 6) (forward : s.cur.next ≤ y.setWidth 16) (zero : x = 0) :
    exec (.loop a b) s = .next ((s.notePbnd [a, b]).skipLoop (y.setWidth 16)) := by
  rw [push_room (exec_loop src) room, if_neg (BitVec.not_lt.2 forward), if_pos zero]
  rfl

theorem loop_pushes (src : s.src2 a b = .ok (x, y)) (room : s.R.loops.length < 6) (forward : s.cur.next ≤ y.setWidth 16)
    (nonzero : x ≠ 0) :
    exec (.loop a b) s = .next ((s.notePbnd [a, b]).pushed { start := s.cur.next, fin := y.setWidth 16, count := x }) := by
  rw [push_room (exec_loop src) room, if_neg (BitVec.not_lt.2 forward), if_neg nonzero, pushLoop_room _ (by simpa using room)]
  rfl

theorem loopi_backward (i : BitVec 8) (src : s.src b 0 = .ok y) (room : s.R.loops.length < 6) (backward : y.setWidth 16 < s.cur.next) :
    Traps (.loopi i b) s 2 9 := (push_room (exec_loopi i src) room).trans (congrArg s.answer (if_pos backward))

theorem loopi_pushes (i : BitVec 8) (src : s.src b 0 = .ok y) (room : s.R.loops.length < 6) (forward : s.cur.next ≤ y.setWidth 16) :
    exec (.loopi i b) s =
      .next ((s.notePbnd [b]).pushed { start := s.cur.next, fin := y.setWidth 16, count := i.setWidth 32 + 1 }) := by
  rw [push_room (exec_loopi i src) room, if_neg (BitVec.not_lt.2 forward), pushLoop_room _ (by simpa using room)]
  rfl

theorem lpipe_unfit (st : BitVec 4) (src : s.src2 a b = .ok (x, y)) (room : s.R.loops.length < 6)
    (unfit : x.extractLsb' 16 16 < x.setWidth 16 ∨ x.setWidth 16 < s.cur.next ∨ (y.setWidth 16 : BitVec 16).toNat < st.toNat + 1) :
    Traps (.lpipe st a b) s 2 9 := by
  rw [Traps, push_room (exec_lpipe st src) room]
  rw [← or_assoc] at unfit
  split
  · rfl
  · next fits =>
    rw [if_pos (unfit.resolve_left (by simpa using fits))]
    rfl

theorem lpipe_pushes (st : BitVec 4) (src : s.src2 a b = .ok (x, y)) (room : s.R.loops.length < 6)
    (ends : x.setWidth 16 ≤ x.extractLsb' 16 16) (starts : s.cur.next ≤ x.setWidth 16)
    (enough : st.toNat + 1 ≤ (y.setWidth 16 : BitVec 16).toNat) :
    exec (.lpipe st a b) s = .next ((s.notePbnd [a, b]).pushed (pipeEntry s.cur.next st x y)) := by
  rw [push_room (exec_lpipe st src) room, if_neg (by simpa using ⟨ends, starts⟩), if_neg (Nat.not_lt_of_le enough),
    pushLoop_room _ (by simpa using room)]
  rfl

end

/-- A change of the executing core's registers that leaves them as they are changes nothing. -/
theorem modR_idle {s : State} {f : Regs → Regs} (same : f s.R = s.R) : s.modR f = s := by
  have herd : (fun x : Herd => { x with cores := x.cores.modify s.cur.core fun k => { k with r := k.r } }) = id :=
    funext fun x => congrArg (fun l => { x with cores := l }) (List.modify_id ..)
  have herds : s.herds.modify s.cur.herd
      (fun x => { x with cores := x.cores.modify s.cur.core fun k => { k with r := k.r } }) = s.herds := by
    rw [herd, List.modify_id]
  rw [modR_eq_of_R (g := fun r => r) same]
  exact congrArg (fun l => { s with herds := l }) herds

/-- Settles O21: the lemmas on each push say which case of R155 answers; `lbreak` by what it makes of each stack. -/
theorem loopPushes : Obligations.LoopPushes := by
  refine ⟨fun s a b i st x y => ?_, fun s => ⟨_, rfl, fun empty => ?_, fun e l here => ⟨fun kind => ?_, fun kind => ?_⟩⟩⟩
  · intro np push fin kStart kEnd
    have low : (y.setWidth 16 : BitVec 16).toNat = y.toNat % 2 ^ 16 := BitVec.toNat_setWidth ..
    refine ⟨fun src => ⟨fun full => ⟨push_full (exec_loop src) full, push_full (exec_lpipe st src) full⟩, fun room =>
      ⟨loop_backward src room, fun forward zero => ?_, loop_pushes src room, fun unfit => ?_, fun ends starts enough => ?_⟩⟩,
      fun src => ⟨push_full (exec_loopi i src), loopi_backward i src, ?_⟩⟩
    · rw [loop_skips src room forward zero, State.skipLoop, notePbnd_after]
    · rw [← low] at unfit
      exact lpipe_unfit st src room unfit
    · rw [← low] at enough ⊢
      rw [BitVec.ofNat_toNat]
      exact lpipe_pushes st src room ends starts enough
    · intro room forward
      have count : BitVec.ofNat 32 (i.toNat + 1) = i.setWidth 32 + 1 := by
        rw [BitVec.ofNat_add, BitVec.ofNat_toNat]
        rfl
      rw [count]
      exact loopi_pushes i src room forward
  · exact modR_idle (by simp only [empty])
  · exact modR_eq_of_R (by simp [here, kind])
  · exact modR_eq_of_R (by simp [here, kind])

theorem lidx_gives (s : State) (d : BitVec 5) (k : BitVec 3) :
    Gives (.lidx d k) s [] 1 (.scalar d.toNat) (wide ((s.R.loops[k.toNat]?.map (·.index)).getD 0)) := rfl

/-- Specifier 30 reads INDEX of ix0 as it stands when the bundle opens (R110). -/
theorem src_index (s : State) (h c i : Nat) (free : (s.regs h c).ixHold = .none) :
    (s.openBundle h c).src 30 i = .ok (((s.regs h c).loops.head?.map (·.index)).getD 0) := by
  show Except.ok ((s.regs h c).ixHold.getD _) = _
  rw [free]
  rfl

/-- Settles O22, by what `lidx` and specifier 30 read of the stack. -/
theorem loopIndex : Obligations.LoopIndex := by
  refine ⟨fun s d k _ => ⟨fun e here => ?_, fun few => ?_⟩, fun s h c i free => ⟨fun empty => ?_, fun e l here => ?_⟩⟩
  · have given := lidx_gives s d k
    rwa [here] at given
  · have given := lidx_gives s d k
    rwa [List.getElem?_eq_none (Nat.le_of_lt_succ few)] at given
  · rw [src_index s h c i free, empty]
    rfl
  · rw [src_index s h c i free, here]
    rfl

end Sys2Proof.Machine

namespace Sys2Proof.Machine

/-! ### The back-edge (R156, R160) -/

/-- The flow of a core before its loop stack is looked at. -/
def Core.straight (k : Core) (seq : BitVec 16) : Flow :=
  { loops := k.r.loops, next := seq, land := false, saved := k.clampSaved, body := false }

theorem flow_eq (k : Core) (p seq : BitVec 16) : k.flow p seq = backEdge 7 p seq (k.straight seq) := rfl

/-- Whether the back-edge leaves entry e, whose clamp is decided, instead of beginning its next iteration. -/
def LoopEntry.Ends (e : LoopEntry) : Prop :=
  if e.kind then e.clamp = true ∨ e.count.toNat ≤ e.index.toNat + (e.sm1.toNat + 1) else e.count.toNat ≤ e.index.toNat + 1

theorem ends_body {e : LoopEntry} (kind : e.kind = false) : e.Ends ↔ e.count.toNat ≤ e.index.toNat + 1 := by
  rw [LoopEntry.Ends, if_neg (by simp [kind])]

theorem ends_pipe {e : LoopEntry} (kind : e.kind = true) :
    e.Ends ↔ e.clamp = true ∨ e.count.toNat ≤ e.index.toNat + (e.sm1.toNat + 1) := by
  rw [LoopEntry.Ends, if_pos kind]

/-- The entry that a clamp saves, to go on S iterations later (R160). -/
def LoopEntry.setAside (e : LoopEntry) : LoopEntry :=
  { e with ask := false, index := e.index + BitVec.ofNat 32 (e.sm1.toNat + 1), clamp := false, resume := true }

section
variable {n : Nat} {p seq : BitVec 16} {f : Flow} {e : LoopEntry} {l : List LoopEntry}

theorem clampEntry_unasked (f : Flow) (ask : e.ask = false) : clampEntry e f = (e, f) := by simp [clampEntry, ask]

theorem clampEntry_refused (f : Flow) (ask : e.ask = true)
    (refused : e.clamp = true ∨ e.count.toNat < e.index.toNat + 2 * (e.sm1.toNat + 1)) :
    clampEntry e f = ({ e with ask := false }, f) := by
  have refused : (!e.clamp && decide (e.index.toNat + 2 * (e.sm1.toNat + 1) ≤ e.count.toNat)) = false := by
    rcases refused with left | late
    · simp [left]
    · simp [late]
  simp [clampEntry, ask, refused]

theorem clampEntry_clamps (f : Flow) (ask : e.ask = true) (free : e.clamp = false)
    (stages : e.index.toNat + 2 * (e.sm1.toNat + 1) ≤ e.count.toNat) :
    clampEntry e f = ({ e with ask := false, clamp := true }, { f with saved := .some e.setAside }) := by
  simp [clampEntry, ask, free, stages, LoopEntry.setAside]

/-- The entry that the end test goes on with, and what a clamp saves, depend on the entry alone. -/
theorem clampEntry_uniform (e : LoopEntry) : ∃ (e' : LoopEntry) (v : Option LoopEntry),
    ∀ f : Flow, clampEntry e f = (e', { f with saved := v.or f.saved }) := by
  by_cases ask : e.ask = true
  · by_cases refused : e.clamp = true ∨ e.count.toNat < e.index.toNat + 2 * (e.sm1.toNat + 1)
    · exact ⟨_, .none, fun f => clampEntry_refused f ask refused⟩
    · rw [not_or, Bool.not_eq_true, Nat.not_lt] at refused
      obtain ⟨free, stages⟩ := refused
      exact ⟨_, .some e.setAside, fun f => clampEntry_clamps f ask free stages⟩
  · exact ⟨e, .none, fun f => clampEntry_unasked f (Bool.eq_false_of_not_eq_true ask)⟩

theorem backEdge_body (here : f.loops = e :: l) (fin : e.fin = p) (kind : e.kind = false) : backEdge (n + 1) p seq f =
    if e.index.toNat + 1 < e.count.toNat then
      { f with loops := { e with index := e.index + 1 } :: l, next := e.start, land := true, body := true }
    else backEdge n p seq { f with loops := l, next := seq, land := false, body := true } := by
  simp [backEdge, here, fin, kind]

theorem backEdge_pipe (here : f.loops = e :: l) (fin : e.fin = p) (kind : e.kind = true) : backEdge (n + 1) p seq f =
    let q := clampEntry e f
    if !q.1.clamp && q.1.index.toNat + (q.1.sm1.toNat + 1) < q.1.count.toNat then
      { q.2 with loops := { q.1 with index := q.1.index + 1 } :: l, next := q.1.start, land := true }
    else backEdge n p seq { q.2 with loops := l, next := q.1.epi, land := true } := by
  simp [backEdge, here, fin, kind]

/-- Where an entry at its END is left, the back-edge is that of the entries below it (R156). -/
theorem backEdge_ends (here : f.loops = e :: l) (fin : e.fin = p) (unasked : e.ask = false) (ends : e.Ends) :
    ∃ g : Flow, backEdge (n + 1) p seq f = backEdge n p seq g ∧ g.loops = l ∧ g.saved = f.saved ∧
      g.next = if e.kind then e.epi else seq := by
  rcases Bool.eq_false_or_eq_true e.kind with kind | kind
  · rw [ends_pipe kind] at ends
    rw [backEdge_pipe here fin kind, clampEntry_unasked f unasked]
    have stops : ¬ (!e.clamp && decide (e.index.toNat + (e.sm1.toNat + 1) < e.count.toNat)) = true := by
      rcases ends with left | last
      · simp [left]
      · simp [last]
    exact ⟨_, if_neg stops, rfl, rfl, (if_pos kind).symm⟩
  · rw [ends_body kind] at ends
    rw [backEdge_body here fin kind]
    exact ⟨_, if_neg (Nat.not_lt_of_le ends), rfl, rfl, (if_neg (by simp [kind])).symm⟩

/-- Where it is not left, its next iteration begins. -/
theorem backEdge_goes (here : f.loops = e :: l) (fin : e.fin = p) (unasked : e.ask = false) (goes : ¬ e.Ends) :
    let g := backEdge (n + 1) p seq f
    g.loops = { e with index := e.index + 1 } :: l ∧ g.next = e.start ∧ g.saved = f.saved := by
  rcases Bool.eq_false_or_eq_true e.kind with kind | kind
  · rw [ends_pipe kind, not_or, Nat.not_le] at goes
    rw [backEdge_pipe here fin kind, clampEntry_unasked f unasked]
    simp only [show (!e.clamp && decide (e.index.toNat + (e.sm1.toNat + 1) < e.count.toNat)) = true by simpa using goes]
    exact ⟨rfl, rfl, rfl⟩
  · rw [ends_body kind, Nat.not_le] at goes
    rw [backEdge_body here fin kind, if_pos goes]
    exact ⟨rfl, rfl, rfl⟩

/-- A request that the end test refuses is gone, and nothing else (R160). -/
theorem backEdge_refused (here : f.loops = e :: l) (fin : e.fin = p) (kind : e.kind = true) (ask : e.ask = true)
    (refused : e.clamp = true ∨ e.count.toNat < e.index.toNat + 2 * (e.sm1.toNat + 1)) :
    backEdge (n + 1) p seq f = backEdge (n + 1) p seq { f with loops := { e with ask := false } :: l } := by
  rw [backEdge_pipe here fin kind, clampEntry_refused f ask refused, backEdge_pipe (e := { e with ask := false }) rfl fin kind,
    clampEntry_unasked _ rfl]

theorem backEdge_clamps (here : f.loops = e :: l) (fin : e.fin = p) (kind : e.kind = true) (ask : e.ask = true) (free : e.clamp = false)
    (stages : e.index.toNat + 2 * (e.sm1.toNat + 1) ≤ e.count.toNat) :
    backEdge (n + 1) p seq f = backEdge n p seq { f with loops := l, next := e.epi, land := true, saved := .some e.setAside } := by
  rw [backEdge_pipe here fin kind, clampEntry_clamps f ask free stages]
  exact if_neg (by simp)

end

/-- The setting aside of an entry does not wrap where a clamp applies. -/
theorem setAside_index {e : LoopEntry} (stages : e.index.toNat + 2 * (e.sm1.toNat + 1) ≤ e.count.toNat) :
    e.setAside.index.toNat = e.index.toNat + (e.sm1.toNat + 1) := by
  have count := e.count.isLt
  have small := e.sm1.isLt
  simp only [LoopEntry.setAside, BitVec.toNat_add, BitVec.toNat_ofNat]
  omega

/-- Two flows that agree on the stack, on the next word and on what a clamp saves. -/
def Flow.Same (f g : Flow) : Prop := f.loops = g.loops ∧ f.next = g.next ∧ f.saved = g.saved

/-- The back-edge depends on the stack and on what a clamp has saved, and on where flow came from only where no entry ends; a stack that
the fuel covers is walked whole. -/
theorem backEdge_same {p seq : BitVec 16} : ∀ (l : List LoopEntry) {n m : Nat} {f g : Flow}, l.length < n → l.length < m →
    f.loops = l → g.loops = l → f.saved = g.saved → (f.next = g.next ∨ ∃ e ∈ l.head?, e.fin = p) →
    (backEdge n p seq f).Same (backEdge m p seq g) := by
  intro l
  induction l with
  | nil =>
    intro n m f g _ _ left right saved next
    have next : f.next = g.next := next.resolve_right (by simp)
    rw [backEdge_idle (by simp [left]), backEdge_idle (by simp [right])]
    exact ⟨left.trans right.symm, next, saved⟩
  | cons e l ih =>
    intro n m f g fuel fuel' left right saved next
    obtain ⟨n, rfl⟩ := Nat.exists_eq_add_one.2 (Nat.zero_lt_of_lt fuel)
    obtain ⟨m, rfl⟩ := Nat.exists_eq_add_one.2 (Nat.zero_lt_of_lt fuel')
    have fuel := Nat.lt_of_succ_lt_succ fuel
    have fuel' := Nat.lt_of_succ_lt_succ fuel'
    by_cases fin : e.fin = p
    · cases kind : e.kind with
      | false =>
        rw [backEdge_body left fin kind, backEdge_body right fin kind]
        split
        · exact ⟨rfl, rfl, saved⟩
        · exact ih fuel fuel' rfl rfl saved (.inl rfl)
      | true =>
        obtain ⟨e', v, entry⟩ := clampEntry_uniform e
        rw [backEdge_pipe left fin kind, backEdge_pipe right fin kind, entry f, entry g, saved]
        simp only
        split
        · exact ⟨rfl, rfl, rfl⟩
        · exact ih fuel fuel' rfl rfl rfl (.inl rfl)
    · have next : f.next = g.next := next.resolve_right (by simpa using fin)
      rw [backEdge_idle (by simpa [left] using fin), backEdge_idle (by simpa [right] using fin)]
      exact ⟨left.trans right.symm, next, saved⟩

section
variable {k : Core} {p : BitVec 16} {e : LoopEntry} {l : List LoopEntry}

theorem flow_goes (seq : BitVec 16) (here : k.r.loops = e :: l) (unasked : e.ask = false) (fin : e.fin = p) (goes : ¬ e.Ends) :
    (k.flow p seq).loops = { e with index := e.index + 1 } :: l ∧ (k.flow p seq).next = e.start ∧ (k.flow p seq).saved = k.clampSaved :=
  backEdge_goes (f := k.straight seq) here fin unasked goes

theorem flow_ends (seq : BitVec 16) (here : k.r.loops = e :: l) (unasked : e.ask = false) (fin : e.fin = p)
    (alone : ∀ e' ∈ l.head?, e'.fin ≠ p) (ends : e.Ends) :
    (k.flow p seq).loops = l ∧ (k.flow p seq).next = (if e.kind then e.epi else seq) ∧ (k.flow p seq).saved = k.clampSaved := by
  obtain ⟨g, edge, loops, saved, next⟩ := backEdge_ends (n := 6) (seq := seq) (f := k.straight seq) here fin unasked ends
  rw [flow_eq, edge, backEdge_idle (by rwa [loops])]
  exact ⟨loops, next, saved⟩

/-- The entry below that ends with the same bundle is tested as if it stood alone (R156). -/
theorem flow_ends_nested (seq : BitVec 16) {e' : LoopEntry} (here : k.r.loops = e :: e' :: l) (six : k.r.loops.length ≤ 6)
    (unasked : e.ask = false) (fin : e.fin = p) (fin' : e'.fin = p) (ends : e.Ends) :
    (k.flow p seq).Same (({ k with r := { k.r with loops := e' :: l } } : Core).flow p seq) := by
  obtain ⟨g, edge, loops, saved, -⟩ := backEdge_ends (n := 6) (seq := seq) (f := k.straight seq) here fin unasked ends
  have fuel : (e' :: l).length < 6 := by
    rw [here] at six
    exact six
  rw [flow_eq, edge]
  exact backEdge_same (e' :: l) fuel (Nat.lt_succ_of_lt fuel) loops rfl saved (.inr ⟨e', rfl, fin'⟩)

theorem flow_clamps (seq : BitVec 16) (here : k.r.loops = e :: l) (kind : e.kind = true) (ask : e.ask = true) (fin : e.fin = p)
    (alone : ∀ e' ∈ l.head?, e'.fin ≠ p) (free : e.clamp = false) (stages : e.index.toNat + 2 * (e.sm1.toNat + 1) ≤ e.count.toNat) :
    (k.flow p seq).loops = l ∧ (k.flow p seq).next = e.epi ∧ (k.flow p seq).saved = .some e.setAside := by
  rw [flow_eq, backEdge_clamps (f := k.straight seq) here fin kind ask free stages, backEdge_idle alone]
  exact ⟨rfl, rfl, rfl⟩

theorem flow_refused (seq : BitVec 16) (here : k.r.loops = e :: l) (kind : e.kind = true) (ask : e.ask = true) (fin : e.fin = p)
    (refused : e.clamp = true ∨ e.count.toNat < e.index.toNat + 2 * (e.sm1.toNat + 1)) :
    k.flow p seq = ({ k with r := { k.r with loops := { e with ask := false } :: l } } : Core).flow p seq :=
  backEdge_refused (f := k.straight seq) here fin kind ask refused

/-- Without a request no entry is saved. -/
theorem flow_saved (seq : BitVec 16) (here : k.r.loops = e :: l) (unasked : e.ask = false) (fin : e.fin = p)
    (alone : ∀ e' ∈ l.head?, e'.fin ≠ p) : (k.flow p seq).saved = k.clampSaved := by
  by_cases ends : e.Ends
  · obtain ⟨-, -, saved⟩ := flow_ends seq here unasked fin alone ends
    exact saved
  · obtain ⟨-, -, saved⟩ := flow_goes seq here unasked fin ends
    exact saved

theorem resumed_begins (here : k.r.loops = e :: l) (resume : e.resume = true) :
    k.resumed.r.loops = { e with resume := false } :: l ∧ k.resumed.r.pc = e.pro := by
  rw [Core.resumed, here]
  simp only [resume, if_true, and_self]

theorem resumed_idle (here : k.r.loops = e :: l) (resume : e.resume = false) : k.resumed = k := by
  rw [Core.resumed, here]
  simp [resume]

end

/-! ### The end of a bundle (R149, R151, R162, R386) -/

/-- The state when a bundle has committed whole: its flow is settled, the next bundle not yet planned. -/
def State.flowed (s : State) : State :=
  let fl := s.me.flow s.cur.pc s.cur.next
  let x := transferNext s.R.xfer fl
  let u := s.modMe fun k =>
    { k with
      clampSaved := fl.saved
      r := { k.r with
        loops := fl.loops, pc := x.1, landing := x.2.1, xfer := x.2.2, resume := 0, resumeSeq := 0, ixHold := .none, softTrap := .none
        carry := {} } }
  { u with cur := { u.cur with done := true, endBody := fl.body } }

/-- The same once the next bundle is planned. -/
def State.nextPlanned (s : State) : State := s.flowed.holdNext s.cur.herd s.cur.core s.cur.hold s.cur.gate s.cur.nextAt

section
variable (s : State) (h c : Nat) (hold : Hold) (gate : Gate) (t : Nat)

@[simp] theorem holdNext_cur : (s.holdNext h c hold gate t).cur = s.cur := by cases hold <;> rfl

@[simp] theorem holdNext_tick : (s.holdNext h c hold gate t).tick = s.tick := by cases hold <;> rfl

/-- Planning a core's next bundle changes its hold, its gate and its cycle alone. -/
theorem holdNext_core_keeps {β : Type} (π : Core → β)
    (keeps : ∀ k hold gate t, π { k with hold := hold, gate := gate, issueAt := t } = π k) (x y : Nat) :
    π ((s.holdNext h c hold gate t).core x y) = π (s.core x y) := by
  have held : π ((s.modCore h c fun k => { k with hold := hold, gate := gate }).core x y) = π (s.core x y) :=
    modCore_core_keeps s h c (fun k => { k with hold := hold, gate := gate }) π (fun k => keeps k hold gate k.issueAt) x y
  have planned (u : State) : π ((u.modCore h c fun k => { k with issueAt := t }).core x y) = π (u.core x y) :=
    modCore_core_keeps u h c (fun k => { k with issueAt := t }) π (fun k => keeps k k.hold k.gate t) x y
  cases hold <;> exact (planned _).trans held

end

section
variable (s : State)

@[simp] theorem nextPlanned_tick : s.nextPlanned.tick = s.tick := holdNext_tick ..

@[simp] theorem nextPlanned_cur : s.nextPlanned.cur = { s.cur with done := true, endBody := (s.me.flow s.cur.pc s.cur.next).body } :=
  holdNext_cur ..

theorem nextPlanned_core_keeps {β : Type} (π : Core → β)
    (keeps : ∀ k hold gate t, π { k with hold := hold, gate := gate, issueAt := t } = π k) (x y : Nat) :
    π (s.nextPlanned.core x y) = π (s.flowed.core x y) :=
  holdNext_core_keeps _ _ _ _ _ _ π keeps x y

theorem finishBundle_eq : s.finishBundle = match s.R.softTrap with
    | .some n => s.nextPlanned.trapHere { cls := 0, cause := n.toNat } 0 s.nextPlanned.cur.pc
        (.some (transferNext s.R.xfer (s.me.flow s.cur.pc s.cur.next)).1)
    | .none =>
      if s.nextPlanned.cur.eret then s.nextPlanned.returnFromTrap s.cur.herd s.cur.core (s.nextPlanned.tick + 1) else s.nextPlanned := rfl

end

theorem finishBundle_flows {s : State} (soft : s.R.softTrap = .none) (stays : s.cur.eret = false) : s.finishBundle = s.nextPlanned := by
  rw [finishBundle_eq, soft]
  simp [stays]

theorem finishBundle_traps {s : State} {n : BitVec 8} (soft : s.R.softTrap = .some n) : s.finishBundle =
    s.nextPlanned.trapHere { cls := 0, cause := n.toNat } 0 s.cur.pc (.some (transferNext s.R.xfer (s.me.flow s.cur.pc s.cur.next)).1) := by
  rw [finishBundle_eq, soft, nextPlanned_cur]

theorem finishBundle_returns {s : State} (soft : s.R.softTrap = .none) (eret : s.cur.eret = true) :
    s.finishBundle = s.nextPlanned.returnFromTrap s.cur.herd s.cur.core (s.tick + 1) := by
  rw [finishBundle_eq, soft]
  simp [eret]

/-- What the end of a bundle makes of its core, but for what holds the next bundle. -/
theorem nextPlanned_core {s : State} (placed : s.Placed) {β : Type} (π : Core → β)
    (keeps : ∀ k hold gate t, π { k with hold := hold, gate := gate, issueAt := t } = π k) :
    let fl := s.me.flow s.cur.pc s.cur.next
    let x := transferNext s.R.xfer fl
    π (s.nextPlanned.core s.cur.herd s.cur.core) = π { s.me with
      clampSaved := fl.saved
      r := { s.R with loops := fl.loops, pc := x.1, landing := x.2.1, xfer := x.2.2, resume := 0, resumeSeq := 0, ixHold := .none
                      softTrap := .none, carry := {} } } :=
  (nextPlanned_core_keeps s π keeps _ _).trans (congrArg π (State.modCore_core _ _ _ _ placed.1 placed.2))

theorem nextPlanned_me (s : State) : s.nextPlanned.me = s.nextPlanned.core s.cur.herd s.cur.core := by rw [State.me, nextPlanned_cur]

/-- Settles O23: the cases of the end test by the lemmas on `flow`, the end of a bundle by `finishBundle_flows`. (The model has the name
`backEdge` already.) -/
theorem backEdgeOfBundle : Obligations.BackEdge := by
  refine ⟨?alone, ?nested, ?clamp, ?resumes, ?other, ?finish⟩
  case alone =>
    intro k p seq e l here unasked fin alone st
    have goes (h : ¬ e.Ends) := flow_goes seq here unasked fin h
    have ends (h : e.Ends) := flow_ends seq here unasked fin alone h
    refine ⟨fun kind more => ?_, fun kind last => ?_, fun kind free more => ?_, fun kind last => ?_⟩
    · obtain ⟨loops, next, -⟩ := goes (by rwa [ends_body kind, Nat.not_le])
      exact ⟨loops, next⟩
    · obtain ⟨loops, next, -⟩ := ends ((ends_body kind).2 last)
      exact ⟨loops, next.trans (if_neg (by simp [kind]))⟩
    · obtain ⟨loops, next, -⟩ := goes (by rw [ends_pipe kind, free]; simpa using more)
      exact ⟨loops, next⟩
    · obtain ⟨loops, next, -⟩ := ends ((ends_pipe kind).2 last)
      exact ⟨loops, next.trans (if_pos kind)⟩
  case nested =>
    intro k p seq e e' l here six unasked fin fin' ends
    exact flow_ends_nested seq here six unasked fin fin' ends
  case clamp =>
    intro k p seq e l here kind ask fin alone st
    refine ⟨fun free stages => ?_, fun refused => ?_⟩
    · obtain ⟨loops, next, saved⟩ := flow_clamps seq here kind ask fin alone free stages
      exact ⟨loops, next, _, saved, rfl, setAside_index stages⟩
    · rw [flow_refused seq here kind ask fin refused]
      exact ⟨flow_saved (e := { e with ask := false }) seq rfl rfl fin alone, rfl, rfl⟩
  case resumes => exact fun k e l here => ⟨resumed_begins here, resumed_idle here⟩
  case other =>
    intro k p seq other
    rw [flow_idle other]
    exact ⟨rfl, rfl⟩
  case finish =>
    intro s placed soft stays
    rw [finishBundle_flows soft stays, State.R, nextPlanned_me]
    exact ⟨nextPlanned_core placed (fun k => k.r.loops) fun _ _ _ _ => rfl, nextPlanned_core placed Core.clampSaved fun _ _ _ _ => rfl,
      nextPlanned_core placed (fun k => k.r.pc) fun _ _ _ _ => rfl⟩

end Sys2Proof.Machine

namespace Sys2Proof.Machine

/-! ### Fences, gates and waits (R142, R163, R165) -/

/-- The largest of the values of f over a list, and of a, is one of them. -/
theorem foldl_max_attained {α : Type} (f : α → Nat) (l : List α) (a : Nat) :
    l.foldl (fun m x => max m (f x)) a = a ∨ ∃ x ∈ l, l.foldl (fun m x => max m (f x)) a = f x := by
  induction l generalizing a with
  | nil => exact .inl rfl
  | cons x l ih =>
    rw [List.foldl_cons]
    rcases ih (max a (f x)) with same | ⟨y, mem, value⟩
    · rw [same]
      rcases max_choice a (f x) with left | right
      · exact .inl left
      · exact .inr ⟨x, List.mem_cons_self, right⟩
    · exact .inr ⟨y, List.mem_cons_of_mem x mem, value⟩

/-- The cycle after the last perform of the core's stores in flight (R165). -/
theorem storesDone_after (s : State) :
    (∀ x ∈ s.me.stores, x.due < s.storesDone) ∧ (s.storesDone = 0 ∨ ∃ x ∈ s.me.stores, s.storesDone = x.due + 1) := by
  obtain ⟨-, later⟩ := foldl_max_le.1 (Nat.le_refl s.storesDone)
  exact ⟨later, foldl_max_attained (fun x : Store => x.due + 1) s.me.stores 0⟩

theorem isOutward_eq_false {k : Cmd} : k.isOutward = false ↔ ∀ i, k.kind ≠ .callOut i := by
  unfold Cmd.isOutward
  cases k.kind <;> simp

theorem mem_openWrites {s : State} {h c id : Nat} : id ∈ s.openWrites h c ↔ ∃ k ∈ s.cmds, k.id = id ∧ k.herd = h ∧ k.core = c ∧
    (∀ i, k.kind ≠ .callOut i) ∧ ∃ b ∈ k.beats, b.performed = false ∧ b.abandoned = false ∧ b.dst ≠ [] := by
  simp only [State.openWrites, List.mem_map, List.mem_filter, Bool.and_eq_true, beq_iff_eq, Bool.not_eq_true', List.any_eq_true,
    isOutward_eq_false, List.isEmpty_eq_false_iff, and_assoc]
  exact exists_congr fun k => by tauto

theorem stillHeld_iff {s : State} {k : Core} (fence : k.gate.settled = false) : s.stillHeld k = true ↔
    ∃ c ∈ s.cmds, c.id ∈ k.gate.writes ∧ ∃ b ∈ c.beats, b.abandoned = false ∧ b.dst ≠ [] ∧ (b.performed = false ∨ s.tick ≤ b.performAt) := by
  simp [State.stillHeld, fence, and_assoc]

/-- The cycles from c + 1 until `vcyc` has the value of a wait's operand (R163). -/
def State.waitLength (s : State) (x : Word) : Int := (x - BitVec.ofInt 32 (s.vcyc (s.R.ctx.getD 0) + 1)).toInt

section
variable {s : State}

theorem exec_wait {a : BitVec 5} {x : Word} (src : s.src a 0 = .ok x) : exec (.wait a) s = .next (
    if s.waitLength x ≤ 0 then s.notePbnd [a]
    else (s.notePbnd [a]).waitsUntil .wait (s.tick + 1 + (s.waitLength x).toNat)) := by
  show execWait a s = _
  rw [execWait, src, State.waitLength, ← notePbnd_vcyc s [a], ← notePbnd_tick s [a]]
  show State.answer s (.ok _) = _
  rw [answer_ok]
  rfl

theorem exec_waiti (n : BitVec 8) : exec (.waiti n) s = .next (if n = 0 then s else s.waitsUntil .wait (s.tick + 1 + n.toNat)) := rfl

theorem waitExpiry_frees (waits : (s.core s.ev.a s.ev.b).hold = .wait) (due : (s.core s.ev.a s.ev.b).issueAt ≤ s.tick) :
    exec .waitExpiry s = .next (s.modCore s.ev.a s.ev.b fun k => { k with hold := .none }) := by
  show execWaitExpiry s = _
  simp [execWaitExpiry, waits, due]

theorem waitExpiry_idle (other : (s.core s.ev.a s.ev.b).hold ≠ .wait ∨ s.tick < (s.core s.ev.a s.ev.b).issueAt) :
    exec .waitExpiry s = .next s := by
  show execWaitExpiry s = _
  rcases other with hold | early
  · simp [execWaitExpiry, hold]
  · simp [execWaitExpiry, Nat.not_le_of_lt early]

end

/-- Settles O24: the cycle of a fence by `storesDone_after`, its gate by `mem_openWrites` and `stillHeld_iff`, the waits by `exec_wait`. -/
theorem systemSyllables : Obligations.SystemSyllables := by
  refine ⟨fun s => ⟨rfl, rfl, ?_, fun k fence => stillHeld_iff fence, rfl, rfl⟩, fun s a n x => ⟨fun src => ?_, fun zero => ?_,
    fun nonzero => ?_⟩, fun s => ⟨waitExpiry_frees, waitExpiry_idle⟩⟩
  · exact ⟨⟨s.storesDone, rfl, storesDone_after s⟩, s.storesDone, _, rfl, storesDone_after s, fun id => mem_openWrites⟩
  · intro delta
    have run := exec_wait src
    exact ⟨fun past => run.trans (congrArg _ (if_pos past)), fun ahead => run.trans (congrArg _ (if_neg (Int.not_le.2 ahead)))⟩
  · rw [exec_waiti, if_pos zero]
  · rw [exec_waiti, if_neg nonzero]

/-! ### Dead marks (R143, R164) -/

theorem kill_plans {s : State} {a : BitVec 5} {x : Word} (src : s.src a 0 = .ok x) : exec (.kill a) s =
    .next ((s.notePbnd [a]).plan s.tick 4 1 (.killMarks s.cur.herd s.cur.core (x.setWidth 24 &&& 0xFFFFFE#24) 0 0)) := by
  show execKill a s = _
  rw [execKill, src]
  rfl

theorem killt_plans {s : State} {a : BitVec 5} {x : Word} (t : BitVec 3) (src : s.src a 0 = .ok x) : exec (.killt t a) s =
    .next ((s.notePbnd [a]).plan s.tick 4 1 (.killMarks s.cur.herd s.cur.core 0 t.toNat x)) := by
  show execKillt t a s = _
  rw [execKillt, src]
  rfl

/-- Scalar 0 is never marked. -/
theorem killed_getLsbD (x : Word) {n : Nat} (inside : n < 24) :
    (x.setWidth 24 &&& 0xFFFFFE#24).getLsbD n = (decide (n ≠ 0) && x.getLsbD n) := by
  have mask : (0xFFFFFE#24).getLsbD n = decide (n ≠ 0) := by
    revert n
    decide
  rw [BitVec.getLsbD_and, mask, BitVec.getLsbD_setWidth, decide_eq_true inside, Bool.true_and, Bool.and_comm]

theorem killMarks_runs (s : State) (h c t : Nat) (m : BitVec 24) (rows : BitVec 32) :
    s.runAct exec (.killMarks h c m t rows) = .next (if s.plat.tripped then s else s.markDead h c m t rows) := by
  unfold State.runAct
  cases s.plat.tripped <;> rfl

/-- The registers after dead marks are set: of scalars, and of rows of tile t. -/
theorem markDead_regs {s : State} {h c : Nat} (m : BitVec 24) (t : Nat) (rows : BitVec 32) (herd : h < s.herds.length)
    (core : c < (s.herd h).cores.length) : (s.markDead h c m t rows).regs h c =
      { s.regs h c with deadS := (s.regs h c).deadS ||| m, deadT := (s.regs h c).deadT.modify t (· ||| rows) } :=
  State.modRegs_regs s h c _ herd core

/-- Settles O25, by `kill_plans` and `killt_plans` at issue and `markDead_regs` at the end of the cycle. -/
theorem killMarks : Obligations.KillMarks := by
  refine ⟨fun s a t x src => ⟨⟨_, fun n inside => killed_getLsbD x inside, kill_plans src⟩, killt_plans t src⟩, ?_⟩
  intro s h c t m rows herd core sized tile
  refine ⟨_, killMarks_runs s h c t m rows, fun on => ?_⟩
  obtain ⟨-, -, -, -, -, -, tiles, -⟩ := sized
  rw [on, if_neg Bool.false_ne_true, markDead_regs m t rows herd core]
  refine ⟨fun n _ => BitVec.getLsbD_or .., fun r _ => ?_, fun j r other => ?_⟩
  · rw [Regs.rowDead, getD_modify _ _ _ _ (tile.trans_eq tiles.symm)]
    exact BitVec.getLsbD_or ..
  · rw [Regs.rowDead, getD_modify_ne _ _ _ other.symm, Regs.rowDead]

/-! ### The phase (R167) -/

theorem exec_phase (s : State) (n : BitVec 8) :
    exec (.phase n) s = s.answer (if n.toNat ≤ 63 then .ok (s.put 1 .phase (n.setWidth 512)) else raise 2 9) := rfl

theorem land_phase {k : Core} {p : Pend} {n : BitVec 8} (dest : p.dest = .phase) (val : p.val = n.setWidth 512) (fits : n.toNat ≤ 63) :
    (k.land p).phase.toNat = n.toNat := by
  have small : n.toNat < 2 ^ 6 := Nat.lt_succ_of_le fits
  rw [core_land_phase k dest, val, BitVec.setWidth_setWidth_of_le _ (by decide), BitVec.toNat_setWidth, Nat.mod_eq_of_lt small]

/-- Settles O27: the landing keeps the old phase for its own cycle. -/
theorem phaseChange : Obligations.PhaseChange := by
  refine ⟨fun s n => ⟨fun fits => ?_, fun high => ?_⟩, fun k p n dest val fits => ⟨land_phase dest val fits, ?_, fun t other => ?_⟩⟩
  · rw [Gives, exec_phase, if_pos fits]
    rfl
  · rw [Traps, exec_phase, if_neg (Nat.not_le_of_lt high)]
    rfl
  · rw [Core.phaseIn, core_land_phase k dest]
    simp
  · rw [← land_phase (k := k) dest val fits, Core.phaseIn, if_neg ?_]
    rw [core_land_phase k dest]
    exact other.symm

/-! ### Software traps and returns (R162, R386) -/

theorem endIfLast_waits {s : State} (more : s.latch ≠ []) : s.endIfLast = s := if_neg (by simpa using more)

theorem endIfLast_ends {s : State} (last : s.latch = []) : s.endIfLast = s.finishBundle := if_pos (by simpa using last)

theorem exec_trap (s : State) (n : BitVec 8) :
    exec (.trap n) s = .next (s.modR fun r => { r with softTrap := .some n }).endIfLast := rfl

theorem eret_returns {s : State} (handler : s.me.inHandler = true) :
    exec .eret s = .next ({ s with cur := { s.cur with eret := true } } : State).endIfLast := by
  show execEret s = _
  rw [execEret, if_pos handler]
  rfl

theorem eret_traps {s : State} (task : s.me.inHandler = false) : Traps .eret s 1 11 := by
  show execEret s = _
  rw [execEret, if_neg (by simp [task])]
  rfl

/-- Settles O28: the end of the bundle by `finishBundle_traps` and `finishBundle_returns`. -/
theorem softwareTrapAndReturn : Obligations.SoftwareTrapAndReturn := by
  intro s n
  refine ⟨fun more => ?_, fun last => ?_, fun handler more => ?_, fun handler last => ?_,
    eret_traps, fun _ soft _ => ?_, fun placed soft eret => ?_⟩
  · rw [exec_trap, endIfLast_waits (by simpa using more)]
  · rw [exec_trap, endIfLast_ends (by simpa using last)]
  · exact (eret_returns handler).trans (congrArg _ (endIfLast_waits more))
  · exact (eret_returns handler).trans (congrArg _ (endIfLast_ends last))
  · exact ⟨_, finishBundle_traps soft, nextPlanned_tick s, by simp, by simp⟩
  · refine ⟨_, finishBundle_returns soft eret, nextPlanned_tick s, ?_⟩
    exact nextPlanned_core placed (fun k => k.r.trap) fun _ _ _ _ => rfl

end Sys2Proof.Machine

namespace Sys2Proof.Machine

/-! ## Scalar instructions

### What a scalar syllable gives (R171) -/

section
variable {i : Instr} {s : State} {lat : Nat} {d a b : BitVec 5} {x y : Word} {P : Word → Prop}

theorem givesSome_of_scalar1 {f : Word → Word} (run : exec i s = s.answer (s.scalar1 lat d a f)) (src : s.src a 0 = .ok x)
    (room : s.room lat 0 = .ok ()) (value : P (f x)) : GivesSome i s [a] lat (.scalar d.toNat) P :=
  ⟨f x, value, by rw [Gives, run, scalar1_gives s d a f src room, answer_ok]⟩

theorem givesSome_of_scalar2 {f : Word → Word → Word} (run : exec i s = s.answer (s.scalar2 lat d a b f))
    (src : s.src2 a b = .ok (x, y)) (room : s.room lat 0 = .ok ()) (value : P (f x y)) :
    GivesSome i s [a, b] lat (.scalar d.toNat) P :=
  ⟨f x y, value, by rw [Gives, run, scalar2_gives s d a b f src room, answer_ok]⟩

end

/-! ### INT: sums and differences (R173) -/

theorem toInt_clampS (v : Int) : (clampS v).toInt = max (-2 ^ 31) (min (2 ^ 31 - 1) v) := by
  rw [clampS, BitVec.toInt_ofInt]
  exact Int.bmod_eq_of_le (by omega) (by omega)

theorem toNat_clampU {v : Int} {n : Nat} (clamped : max 0 (min (2 ^ 32 - 1) v) = n) : (clampU v).toNat = n := by
  rw [clampU, clamped, BitVec.ofInt_natCast, BitVec.toNat_ofNat, Nat.mod_eq_of_lt (by omega)]

/-- Settles O6: the wrapping forms are those of words, the saturating ones by `toInt_clampS` and `toNat_clampU`. -/
theorem addAndSubtract : Obligations.AddAndSubtract := by
  intro s d a b x y src gives
  have sum (v : BitVec 2) {P : Word → Prop} (value : P (addVariant v x y)) : gives (.add d a b v) P :=
    givesSome_of_scalar2 rfl src (room_one s 0) value
  have difference (v : BitVec 2) {P : Word → Prop} (value : P (subVariant v x y)) : gives (.sub d a b v) P :=
    givesSome_of_scalar2 rfl src (room_one s 0) value
  refine ⟨sum 0 (BitVec.toNat_add x y), sum 1 (toInt_clampS _), sum 2 (toNat_clampU ?_), difference 0 ?_,
    difference 1 (toInt_clampS _), difference 2 (toNat_clampU ?_)⟩
  · omega
  · rw [show subVariant 0 x y = x - y from rfl, BitVec.toNat_sub, Nat.add_comm]
  · omega

/-! ### INT: products (R173, R135) -/

/-- Settles O7, by the bounds of a product of two words. -/
theorem multiplications : Obligations.Multiplications := by
  intro s d a b x y src room
  refine ⟨givesSome_of_scalar2 rfl src room (BitVec.toNat_mul x y), givesSome_of_scalar2 rfl src room ?_,
    givesSome_of_scalar2 rfl src room ?_⟩
  · have small := BitVec.toInt_mul_toInt_le (x := x) (y := y)
    have large := BitVec.le_toInt_mul_toInt (x := x) (y := y)
    rw [BitVec.toInt_ofInt]
    exact Int.bmod_eq_of_le (by omega) (by omega)
  · have small : x.toNat * y.toNat < 2 ^ 32 * 2 ^ 32 := Nat.mul_lt_mul'' x.isLt y.isLt
    rw [BitVec.toNat_ofNat, Nat.mod_eq_of_lt (Nat.div_lt_of_lt_mul small)]

/-! ### INT: bitwise operations, minima, maxima and `sel` (R173) -/

theorem apply_slt {α : Type} (x y : Word) (p q : α) : (if x.slt y then p else q) = if x.toInt < y.toInt then p else q := by
  simp [BitVec.slt_iff_toInt_lt]

theorem apply_ult {α : Type} (x y : Word) (p q : α) : (if x.ult y then p else q) = if x.toNat < y.toNat then p else q := by
  simp [BitVec.ult_iff_toNat_lt]

/-- Settles O8: bit by bit, and the minima and maxima by the comparison that chooses. -/
theorem logicAndSelection : Obligations.LogicAndSelection := by
  intro s d a b x y src gives
  have here {i : Instr} {f : Word → Word → Word} {P : Word → Prop} (run : exec i s = s.answer (s.scalar2 1 d a b f))
      (value : P (f x y)) : gives i P := givesSome_of_scalar2 run src (room_one s 0) value
  refine ⟨here rfl fun k _ => BitVec.getLsbD_and, here rfl fun k _ => BitVec.getLsbD_or, here rfl fun k _ => ?_,
    here rfl ?_, here rfl ?_, here rfl ?_, here rfl ?_, fun c => here rfl rfl⟩
  · simp
  · rw [apply_slt]; split <;> omega
  · rw [apply_slt]; split <;> omega
  · rw [apply_ult]; split <;> omega
  · rw [apply_ult]; split <;> omega

/-! ### INTI and F20 (R175, R186) -/

theorem toInt_imm9 (i : BitVec 9) : (imm9 i).toInt = i.toInt := BitVec.toInt_signExtend_of_le (by decide)

theorem toNat_bit01 (c : Bool) : (bit01 c).toNat = if c then 1 else 0 := by cases c <;> rfl

theorem toNat_fli (i : BitVec 20) : (i ++ 0#12 : Word).toNat = i.toNat * 2 ^ 12 := by
  rw [BitVec.toNat_append, Nat.shiftLeft_eq, BitVec.toNat_ofNat, Nat.zero_mod, Nat.or_zero]

/-- Settles O9: the immediate is the one that `imm9` extends (`toInt_imm9`), the pattern of `fli` is `toNat_fli`. -/
theorem immediateArithmetic : Obligations.ImmediateArithmetic := by
  refine ⟨fun s d a i x src => ?_, fun s d i => ⟨_, toNat_fli i, rfl⟩⟩
  intro gives y
  have here {j : Instr} {f : Word → Word} {P : Word → Prop} (run : exec j s = s.answer (s.scalar1 1 d a f)) (value : P (f x)) :
      gives j P := givesSome_of_scalar1 run src (room_one s 0) value
  refine ⟨here rfl (BitVec.toNat_add x y), here rfl rfl, here rfl rfl, here rfl rfl, here rfl ?_, here rfl ?_⟩
  · rw [toNat_bit01, apply_slt, toInt_imm9]
  · rw [toNat_bit01, apply_ult]; rfl

end Sys2Proof.Machine

namespace Sys2Proof.Machine

/-! ### INT: divisions (R174, R137) -/

section
variable {x y : Word}

/-- With a divisor, and but for the one overflow, the words of R174 are those of `BitVec.sdiv` and `BitVec.srem`. -/
theorem divSigned_eq (rem : Bool) (divisor : y ≠ 0) (fits : ¬ (x = 0x80000000#32 ∧ y = 0xFFFFFFFF#32)) :
    divSigned rem x y = if rem then x.srem y else x.sdiv y := by
  have corner : ¬ (decide (x = 0x80000000#32) && decide (y = BitVec.allOnes 32)) = true := by
    rw [Bool.and_eq_true, decide_eq_true_eq, decide_eq_true_eq]
    exact fits
  have bounded : x ≠ BitVec.intMin 32 ∨ y ≠ -1#32 := not_and_or.1 fits
  rw [divSigned, if_neg divisor, if_neg corner]
  cases rem with
  | true => rw [if_pos rfl, ← BitVec.toInt_srem, BitVec.ofInt_toInt]; rfl
  | false => rw [if_neg Bool.false_ne_true, ← BitVec.toInt_sdiv_of_ne_or_ne x y bounded, BitVec.ofInt_toInt]; rfl

theorem divUnsigned_eq (rem : Bool) (divisor : y ≠ 0) : divUnsigned rem x y = if rem then x % y else x / y := by
  rw [divUnsigned, if_neg divisor]
  cases rem
  · exact BitVec.ofNat_toNat _ (x / y)
  · exact BitVec.ofNat_toNat _ (x % y)

end

/-- Settles O10: each division is its slot's `divide`, whose word is said by the lemmas on `divSigned` and `divUnsigned`. -/
theorem divisions : Obligations.Divisions := by
  intro s d a b x y src room gives wraps
  have here {i : Instr} {f : Word → Word → Word} {P : Word → Prop} (run : exec i s = s.answer (s.divide d a b f))
      (value : P (f x y)) : gives i P :=
    ⟨f x y, value, by
      rw [run, divide_gives s d a b f src room, answer_ok]
      simp only [State.holdDivider, State.put_tick, notePbnd_tick, State.put_cur, notePbnd_cur]⟩
  refine ⟨here (f := divSigned false) rfl ⟨?_, ?_, ?_⟩, here (f := divSigned true) rfl ⟨?_, ?_, ?_⟩,
    here (f := divUnsigned false) rfl ⟨?_, ?_⟩, here (f := divUnsigned true) rfl ⟨?_, ?_⟩⟩
  · rintro rfl; rfl
  · rintro ⟨rfl, rfl⟩; rfl
  · intro divisor fits
    rw [divSigned_eq false divisor fits]
    exact BitVec.toInt_sdiv_of_ne_or_ne x y (not_and_or.1 fits)
  · rintro rfl; rfl
  · rintro ⟨rfl, rfl⟩; rfl
  · intro divisor fits
    rw [divSigned_eq true divisor fits]
    exact BitVec.toInt_srem x y
  · rintro rfl; rfl
  · intro divisor
    rw [divUnsigned_eq false divisor]
    exact BitVec.toNat_udiv
  · rintro rfl; rfl
  · intro divisor
    rw [divUnsigned_eq true divisor]
    exact BitVec.toNat_umod

end Sys2Proof.Machine

namespace Sys2Proof.Machine

/-! ### BIT: shifts and rotation (R176) -/

theorem getLsbD_rotateLeft_wrapped (x : Word) {n k : Nat} (small : n < 32) (inside : k < 32) :
    (x.rotateLeft n).getLsbD ((k + n) % 32) = x.getLsbD k := by
  rw [BitVec.getLsbD_rotateLeft_of_le small]
  by_cases wraps : k + n < 32
  · rw [Nat.mod_eq_of_lt wraps]
    simp [wraps, show ¬ k + n < n by omega]
  · have low : (k + n) % 32 = k + n - 32 := by omega
    rw [low]
    simp [show k + n - 32 < n by omega, show 32 - n + (k + n - 32) = k by omega]

/-! ### BIT: counts (R176) -/

theorem countLead_bounds {x : Word} (nonzero : x ≠ 0) :
    countLead x ≤ 31 ∧ 2 ^ (31 - countLead x) ≤ x.toNat ∧ x.toNat < 2 ^ (32 - countLead x) := by
  have positive : x.toNat ≠ 0 := fun zero => nonzero (BitVec.eq_of_toNat_eq zero)
  have top : Nat.log2 x.toNat < 32 := (Nat.log2_lt positive).2 x.isLt
  have lead : countLead x = 31 - Nat.log2 x.toNat := if_neg nonzero
  rw [lead, show 31 - (31 - Nat.log2 x.toNat) = Nat.log2 x.toNat by omega,
    show 32 - (31 - Nat.log2 x.toNat) = Nat.log2 x.toNat + 1 by omega]
  exact ⟨Nat.sub_le .., Nat.log2_self_le positive, Nat.lt_log2_self⟩

theorem countTrail_spec {x : Word} (nonzero : x ≠ 0) :
    x.getLsbD (countTrail x) = true ∧ (∀ k < countTrail x, x.getLsbD k = false) ∧ countTrail x < 32 := by
  cases found : (List.range 32).find? fun i => x.getLsbD i with
  | none =>
    refine absurd (BitVec.eq_of_getLsbD_eq fun k inside => ?_) nonzero
    simpa using List.find?_range_eq_none.1 found k inside
  | some k =>
    obtain ⟨on, inside, before⟩ := List.find?_range_eq_some.1 found
    rw [countTrail, found]
    exact ⟨on, fun j less => by simpa using before j less, List.mem_range.1 inside⟩

/-- The bits of a word from 32 on are clear, so the set bits below 64 are those below 32. -/
theorem popCount_word (x : Word) : popCount x.toNat = ((List.range 32).filter fun k => x.getLsbD k).length := by
  have high : ((List.range 32).map (32 + ·)).filter (fun k => x.getLsbD k) = [] := by
    simp [List.filter_eq_nil_iff, BitVec.getLsbD_of_ge]
  rw [popCount, show List.range (32 + 32) = List.range 32 ++ (List.range 32).map (32 + ·) from List.range_add,
    funext fun k => BitVec.testBit_toNat (i := k) x, List.filter_append, high, List.append_nil]

/-! ### BIT: reversals of bytes (R176) -/

theorem bytes_of_append (b3 b2 b1 b0 : Byte) :
    let w : Word := b3 ++ b2 ++ b1 ++ b0
    w.extractLsb' (8 * 0) 8 = b0 ∧ w.extractLsb' (8 * 1) 8 = b1 ∧ w.extractLsb' (8 * 2) 8 = b2 ∧ w.extractLsb' (8 * 3) 8 = b3 := by
  simp (disch := decide) only [BitVec.extractLsb'_append_eq_of_add_le, BitVec.extractLsb'_append_eq_of_le]
  simp

/-! ### BIT: funnel shifts (R177) -/

theorem toNat_pairOf (lo hi : Word) : (pairOf lo hi).toNat = hi.toNat * 2 ^ 32 + lo.toNat := by
  have small : hi.toNat * 2 ^ 32 < 2 ^ 64 := by omega
  rw [pairOf, BitVec.toNat_or, BitVec.toNat_shiftLeft, BitVec.toNat_setWidth_of_le (by decide), BitVec.toNat_setWidth_of_le (by decide),
    Nat.shiftLeft_eq, Nat.mod_eq_of_lt small, Nat.mul_comm, Nat.two_pow_add_eq_or_of_lt lo.isLt]

section
variable {i : Instr} {s : State} {d n b : BitVec 5} {f : BitVec 64 → Nat → Word} {lo hi y : Word} {P : Word → Prop}

theorem givesSome_of_funnelShift (run : exec i s = s.answer (s.funnelShift d n b f)) (low : s.reg n.toNat = .ok lo)
    (high : s.reg (n.toNat + 1) = .ok hi) (src : s.src b 0 = .ok y) (value : P (f (pairOf lo hi) (y.toNat % 64))) :
    GivesSome i s [b] 1 (.scalar d.toNat) P :=
  ⟨_, value, by rw [Gives, run, State.funnelShift, low, high, src]; rfl⟩

end

/-- Settles O11: shifts as the arithmetic of words has them, rotation, counts and reversals by the lemmas above, and the funnel
shifts as shifts of the number that the pair holds (`toNat_pairOf`). -/
theorem shiftsAndCounts : Obligations.ShiftsAndCounts := by
  refine ⟨fun s d a b x y => ?_, fun s d n b lo hi y _ low high src => ?_⟩
  · intro gives n byte
    refine ⟨fun src => ?_, fun src => ?_⟩
    · have here {i : Instr} {f : Word → Word → Word} {P : Word → Prop} (run : exec i s = s.answer (s.scalar2 1 d a b f))
          (value : P (f x y)) : gives i [a, b] P := givesSome_of_scalar2 run src (room_one s 0) value
      refine ⟨here rfl ?_, here rfl ?_, here rfl ?_, here rfl fun k inside => ?_⟩
      · rw [BitVec.toNat_shiftLeft, Nat.shiftLeft_eq]
      · rw [BitVec.toNat_ushiftRight, Nat.shiftRight_eq_div_pow]
      · rw [BitVec.toInt_sshiftRight, Int.shiftRight_eq_div_pow]; rfl
      · exact getLsbD_rotateLeft_wrapped x (Nat.mod_lt _ (by decide)) inside
    · have here {i : Instr} {f : Word → Word} {P : Word → Prop} (run : exec i s = s.answer (s.scalar1 1 d a f))
          (value : P (f x)) : gives i [a] P := givesSome_of_scalar1 run src (room_one s 0) value
      refine ⟨here rfl ?_, here rfl ?_, here rfl ?_, here rfl ?_, here rfl ?_⟩
      · split
        · next zero => subst zero; rfl
        · next nonzero =>
          have bounds := countLead_bounds nonzero
          rwa [BitVec.toNat_ofNat, Nat.mod_eq_of_lt (by omega)]
      · split
        · next zero => subst zero; rfl
        · next nonzero =>
          obtain ⟨on, before, small⟩ := countTrail_spec nonzero
          rw [BitVec.toNat_ofNat, Nat.mod_eq_of_lt (by omega)]
          exact ⟨on, before⟩
      · have few : ((List.range 32).filter fun k => x.getLsbD k).length ≤ 32 :=
          (List.length_filter_le ..).trans_eq List.length_range
        rw [popCount_word, BitVec.toNat_ofNat, Nat.mod_eq_of_lt (by omega)]
      · obtain ⟨h0, h1, h2, h3⟩ := bytes_of_append (byte x 0) (byte x 1) (byte x 2) (byte x 3)
        intro k small
        match k, small with
        | 0, _ => exact h0
        | 1, _ => exact h1
        | 2, _ => exact h2
        | 3, _ => exact h3
      · exact bytes_of_append (byte x 2) (byte x 3) (byte x 0) (byte x 1)
  · intro pair k
    refine ⟨givesSome_of_funnelShift rfl low high src ?_, givesSome_of_funnelShift rfl low high src ?_⟩
    · rw [BitVec.extractLsb'_toNat, BitVec.toNat_shiftLeft, toNat_pairOf, Nat.shiftLeft_eq, Nat.shiftRight_eq_div_pow]
      exact Nat.mod_eq_of_lt (Nat.div_lt_of_lt_mul (Nat.mod_lt _ (by decide)))
    · rw [BitVec.extractLsb'_toNat, BitVec.toNat_ushiftRight, toNat_pairOf, Nat.shiftRight_eq_div_pow, Nat.shiftRight_eq_div_pow,
        Nat.pow_zero, Nat.div_one]

end Sys2Proof.Machine

namespace Sys2Proof.Machine

/-! ### BIT: fields (R178) -/

section
variable {x : Word} {w : Nat}

theorem toNat_maskW (inside : w ≤ 32) : (maskW w).toNat = 2 ^ w - 1 := by
  have le : 2 ^ w ≤ 2 ^ 32 := Nat.pow_le_pow_right (by decide) inside
  rw [maskW, BitVec.toNat_ofNat, Nat.mod_eq_of_lt (by omega)]

theorem getLsbD_maskW (inside : w ≤ 32) (k : Nat) : (maskW w).getLsbD k = decide (k < w) := by
  rw [← BitVec.testBit_toNat, toNat_maskW inside, Nat.testBit_two_pow_sub_one]

/-- A field of w bits whose top bit is set, with ones above it, is the number that w bits hold in two's complement. -/
theorem toInt_or_not_maskW {f : Word} (positive : 0 < w) (inside : w ≤ 32) (field : f.toNat < 2 ^ w)
    (top : f.toNat.testBit (w - 1) = true) :
    (f ||| ~~~maskW w).toInt = (f.toNat : Int) - 2 ^ w := by
  have half : 2 ^ (w - 1) ≤ f.toNat := Nat.ge_two_pow_of_testBit top
  have double : 2 ^ w = 2 * 2 ^ (w - 1) := by rw [← Nat.pow_succ', Nat.succ_eq_add_one, Nat.sub_add_cancel positive]
  have whole : 2 ^ w * 2 ^ (32 - w) = 2 ^ 32 := by rw [← Nat.pow_add, Nat.add_sub_cancel' inside]
  have le : 2 ^ w ≤ 2 ^ 32 := Nat.pow_le_pow_right (by decide) inside
  have ones : (~~~maskW w).toNat = 2 ^ w * (2 ^ (32 - w) - 1) := by
    rw [BitVec.toNat_not, toNat_maskW inside, Nat.mul_sub_one, whole]
    omega
  have value : (f ||| ~~~maskW w).toNat = 2 ^ 32 - 2 ^ w + f.toNat := by
    rw [BitVec.toNat_or, ones, Nat.or_comm, ← Nat.two_pow_add_eq_or_of_lt field, Nat.mul_sub_one, whole]
  have power : ((2 ^ w : Nat) : Int) = 2 ^ w := Nat.cast_pow 2 w
  rw [BitVec.toInt_eq_toNat_cond, if_neg (by omega), value]
  omega

end

section
variable (x y : Word)

theorem fieldWidth_le : fieldWidth y ≤ 32 := Nat.min_le_right ..

/-- The field that `bext` takes from x. -/
def bitField : Word := (x >>> fieldPos y) &&& maskW (fieldWidth y)

theorem toNat_bitField : (bitField x y).toNat = x.toNat / 2 ^ fieldPos y % 2 ^ fieldWidth y := by
  rw [bitField, maskW, toNat_low _ _ (fieldWidth_le y), BitVec.toNat_ushiftRight, Nat.shiftRight_eq_div_pow]

theorem bitExtract_signed {f : Nat} (field : (bitField x y).toNat = f) :
    if 0 < fieldWidth y ∧ f.testBit (fieldWidth y - 1) then (bitExtract 1 x y).toInt = (f : Int) - 2 ^ fieldWidth y
    else (bitExtract 1 x y).toNat = f := by
  subst field
  have small : (bitField x y).toNat < 2 ^ fieldWidth y := (toNat_bitField x y).trans_lt (Nat.mod_lt _ (Nat.two_pow_pos _))
  have test : (decide ((1 : BitVec 1) = 1) && decide (0 < fieldWidth y) && (bitField x y).getLsbD (fieldWidth y - 1)) = true ↔
      0 < fieldWidth y ∧ (bitField x y).toNat.testBit (fieldWidth y - 1) := by simp [BitVec.testBit_toNat]
  by_cases signed : 0 < fieldWidth y ∧ (bitField x y).toNat.testBit (fieldWidth y - 1)
  · rw [if_pos signed, show bitExtract 1 x y = bitField x y ||| ~~~maskW (fieldWidth y) from if_pos (test.2 signed)]
    exact toInt_or_not_maskW signed.1 (fieldWidth_le y) small signed.2
  · rw [if_neg signed, show bitExtract 1 x y = bitField x y from if_neg (mt test.1 signed)]

theorem getLsbD_bitInsert (old : Word) {k : Nat} (inside : k < 32) : (bitInsert old x y).getLsbD k =
    if fieldPos y ≤ k ∧ k < fieldPos y + fieldWidth y then x.getLsbD (k - fieldPos y) else old.getLsbD k := by
  have mask : (maskW (fieldWidth y) <<< fieldPos y).getLsbD k = decide (fieldPos y ≤ k ∧ k < fieldPos y + fieldWidth y) := by
    rw [BitVec.getLsbD_shiftLeft, getLsbD_maskW (fieldWidth_le y), Bool.eq_iff_iff]
    simp only [inside, decide_true, Bool.true_and, Bool.and_eq_true, Bool.not_eq_true', decide_eq_false_iff_not, decide_eq_true_eq]
    omega
  rw [bitInsert, BitVec.getLsbD_or, BitVec.getLsbD_and, BitVec.getLsbD_and, BitVec.getLsbD_not, mask, BitVec.getLsbD_shiftLeft]
  by_cases field : fieldPos y ≤ k ∧ k < fieldPos y + fieldWidth y
  · simp [inside, field]
  · simp [inside, field]

end

/-- Settles O12: the field by `toNat_bitField`, its extension by `bitExtract_signed`, the insert bit by bit. -/
theorem bitFields : Obligations.BitFields := by
  intro s d a b x y old src pos w
  have field : (bitField x y).toNat = x.toNat / 2 ^ pos % 2 ^ w := toNat_bitField x y
  refine ⟨givesSome_of_scalar2 rfl src (room_one s 0) field,
    givesSome_of_scalar2 rfl src (room_one s 0) (bitExtract_signed x y field), fun dest => ?_⟩
  · have run : exec (.bins d a b) s = s.answer (s.scalar2 1 d a b (bitInsert old)) := by
      show execBins d a b s = _
      rw [execBins, dest]
      rfl
    exact givesSome_of_scalar2 run src (room_one s 0) fun k inside => getLsbD_bitInsert x y old inside

/-! ### PATH (R179, R180) -/

theorem toNat_append_halves (h l : BitVec 16) : (h ++ l : Word).toNat = h.toNat * 2 ^ 16 + l.toNat := by
  rw [BitVec.toNat_append, Nat.shiftLeft_eq, Nat.mul_comm, Nat.two_pow_add_eq_or_of_lt l.isLt]

theorem toNat_lowHalf (x : Word) : (x.extractLsb' 0 16).toNat = x.toNat % 2 ^ 16 := by
  rw [BitVec.extractLsb'_toNat, Nat.shiftRight_zero]

theorem toNat_highHalf (x : Word) : (x.extractLsb' 16 16).toNat = x.toNat / 2 ^ 16 % 2 ^ 16 := by
  rw [BitVec.extractLsb'_toNat, Nat.shiftRight_eq_div_pow]

/-- Settles O13, half by half. -/
theorem pathArithmetic : Obligations.PathArithmetic := by
  intro s d a b x y gives
  refine ⟨fun src => ⟨givesSome_of_scalar2 rfl src (room_one s 0) ?_, givesSome_of_scalar2 rfl src (room_one s 0) ?_⟩,
    fun src => ⟨givesSome_of_scalar1 rfl src (room_one s 0) (BitVec.toInt_signExtend_of_le (by decide)),
      givesSome_of_scalar1 rfl src (room_one s 0) (BitVec.toInt_signExtend_of_le (by decide))⟩, fun h k z bound => ?_⟩
  · rw [toNat_append_halves, toNat_lowHalf, toNat_lowHalf]
  · rw [coordAdd, toNat_append_halves, BitVec.toNat_add, BitVec.toNat_add, toNat_highHalf, toNat_highHalf, toNat_lowHalf, toNat_lowHalf]
    omega
  · refine ⟨BitVec.ofNat 32 (boxExt z k.toNat), Nat.mod_eq_of_lt ?_, ?_⟩
    · exact (Nat.mod_lt _ (by decide)).trans (by decide : 2 ^ 16 < 2 ^ 32)
    · show execBxdim d h k s = _
      rw [execBxdim, box_bound bound]
      rfl

theorem boxTest_iff (z : BitVec 256) (v : BitVec 2) (p : Word) : boxTest z v p = true ↔
    0 ≤ pathRow p ∧ pathRow p < (if boxDims z = 0 then 1 else (boxExt z 1 : Int)) ∧ 0 ≤ coord p 0 ∧
      coord p 0 < (boxExt z 0 : Int) ∧ (v = 1 → boxAcc z = 1 ∨ boxAcc z = 3) ∧ (v = 2 → boxAcc z = 2 ∨ boxAcc z = 3) := by
  simp [boxTest, inBox, pathCol, boxReads, boxWrites, and_assoc, imp_iff_not_or]

theorem bxok_gives {s : State} (d : BitVec 5) {h : BitVec 4} {b : BitVec 5} (v : BitVec 2) {p : Word} {z : BitVec 256}
    (src : s.src b 0 = .ok p) (bound : s.box? h.toNat = .some z) :
    Gives (.bxok d h b v) s [b] 1 (.scalar d.toNat) (wide (bit01 (boxTest z v p))) := by
  show execBxok d h b v s = _
  rw [execBxok, src, box_bound bound]
  rfl

/-- Settles O14: the test by `boxTest_iff`, an unbound handle by `box_unbound`. -/
theorem boundTest : Obligations.BoundTest := by
  intro s d h b v p src
  refine ⟨fun z bound => ?_, fun unbound => ⟨?_, fun k => ?_⟩⟩
  · intro row col rows acc holds
    have test : boxTest z v p = true ↔ holds := boxTest_iff z v p
    have gives := bxok_gives d v src bound
    refine ⟨fun yes => ?_, fun no => ?_⟩
    · rwa [test.2 yes] at gives
    · rwa [Bool.eq_false_of_not_eq_true (mt test.1 no)] at gives
  · show execBxok d h b v s = _
    rw [execBxok, src, box_unbound unbound]
    rfl
  · show execBxdim d h k s = _
    rw [execBxdim, box_unbound unbound]
    rfl

end Sys2Proof.Machine

namespace Sys2Proof.Machine

/-! ### CMP: compares into predicates (R181, R172, R145) -/

section
variable {i : Instr} {s : State} {p : BitVec 3} {a b : BitVec 5} {x y : Word}

theorem decides_of_compare {f : Word → Word → Bool} {q : Prop} (run : exec i s = s.answer (s.compare p a b f))
    (src : s.src2 a b = .ok (x, y)) (test : f x y = true ↔ q) : Decides i s [a, b] p q := by
  have gives : Gives i s [a, b] 1 (.pred p.toNat) (predOf (f x y)) := by rw [Gives, run, compare_gives s p a b f src, answer_ok]
  refine ⟨fun yes => ?_, fun no => ?_⟩
  · rwa [test.2 yes] at gives
  · rwa [Bool.eq_false_of_not_eq_true (mt test.1 no)] at gives

theorem givesFlags_of_compareF {q : BitVec 1} {c : Nat} {r : Bool} {fl : Flags} (run : exec i s = s.answer (s.compareF p a b q c))
    (src : s.src2 a b = .ok (x, y)) (value : fcmpElem c .fp32 (!s.interlocked) x.toNat y.toNat = (r, fl)) :
    GivesFlags i s [a, b] 1 (.pred p.toNat) (predOf r) q fl := by
  rw [GivesFlags, run, compareF_gives s p a b q c src, value, answer_ok]

end

section
variable (u v : Val)

/-- Nothing is less than a NaN, and a NaN is less than nothing. -/
theorem ltVal_nan (nan : (isNaN u || isNaN v) = true) : ltVal u v = false := by
  cases u with
  | nan => rfl
  | inf _ => cases v with
    | nan => rfl
    | inf _ | fin _ _ _ => exact absurd nan Bool.false_ne_true
  | fin _ _ _ => cases v with
    | nan => rfl
    | inf _ | fin _ _ _ => exact absurd nan Bool.false_ne_true

theorem ltVal_asymm (less : ltVal u v = true) : ltVal v u = false := by
  cases u with
  | nan => exact absurd less Bool.false_ne_true
  | inf m => cases v with
    | nan => rfl
    | inf n => revert less; cases m <;> cases n <;> simp [ltVal]
    | fin n _ _ => simpa [ltVal] using less
  | fin _ m e => cases v with
    | nan => rfl
    | inf n => simpa [ltVal] using less
    | fin _ n g =>
      simp only [ltVal, decide_eq_true_eq, decide_eq_false_iff_not, not_lt, min_comm g e] at less ⊢
      exact less.le

theorem lt_eq_number : ltVal u v = (!(isNaN u || isNaN v) && ltVal u v) := by
  cases nan : isNaN u || isNaN v
  · rfl
  · exact ltVal_nan u v nan

theorem eqVal_eq : eqVal u v = (!(isNaN u || isNaN v) && !ltVal u v && !ltVal v u) := by
  rw [eqVal, Bool.not_or]

/-- Of two numbers the first is at most the second where the second is not less. -/
theorem le_eq : (ltVal u v || eqVal u v) = (!(isNaN u || isNaN v) && !ltVal v u) := by
  rw [eqVal_eq]
  cases nan : isNaN u || isNaN v with
  | true => rw [ltVal_nan u v nan]; rfl
  | false => cases less : ltVal u v with
    | true => rw [ltVal_asymm u v less]; rfl
    | false => simp

end

/-- Settles O15: the integer compares by the orders of words, the FP32 ones by what `ltVal` makes of a NaN and of equal values. -/
theorem compares : Obligations.Compares := by
  refine ⟨fun s p a b x y src => ⟨decides_of_compare rfl src beq_iff_eq, decides_of_compare rfl src bne_iff_ne,
    decides_of_compare rfl src BitVec.slt_iff_toInt_lt, decides_of_compare rfl src BitVec.ult_iff_toNat_lt,
    decides_of_compare rfl src BitVec.sle_iff_toInt_le, decides_of_compare rfl src BitVec.ule_iff_toNat_le⟩,
    fun s p a b q x y src => ?_⟩
  intro u v nan gives
  have here {i : Instr} {c : Nat} {r : Bool} {fl : Flags} (run : exec i s = s.answer (s.compareF p a b q c))
      (value : fcmpElem c .fp32 (!s.interlocked) x.toNat y.toNat = (r, fl)) : gives i r fl := givesFlags_of_compareF run src value
  exact ⟨here rfl (congrArg (·, 0) (eqVal_eq u v)), here rfl (congrArg (·, if nan then flNV else 0) (lt_eq_number u v)),
    here rfl (congrArg (·, if nan then flNV else 0) (le_eq u v)), here rfl rfl⟩

/-! ### FPS: sums and products (R182, R183) -/

section
variable {i : Instr} {s : State} {lat : Nat} {d a b : BitVec 5} {q : BitVec 1} {x y : Word}

theorem givesFlags_of_float1 {f : Round → Bool → Nat → Nat × Flags} {r : Nat × Flags}
    (run : exec i s = s.answer (s.float1 lat d a q f)) (src : s.src a 0 = .ok x) (room : s.room lat 0 = .ok ())
    (value : f s.R.rm (!s.interlocked) x.toNat = r) :
    GivesFlags i s [a] lat (.scalar d.toNat) (BitVec.ofNat 512 r.1) q r.2 := by
  rw [GivesFlags, run, float1_gives s d a q f src room, value, answer_ok]

theorem givesFlags_of_float2 {f : Round → Bool → Nat → Nat → Nat × Flags} {r : Nat × Flags}
    (run : exec i s = s.answer (s.float2 lat d a b q f)) (src : s.src2 a b = .ok (x, y)) (room : s.room lat 0 = .ok ())
    (value : f s.R.rm (!s.interlocked) x.toNat y.toNat = r) :
    GivesFlags i s [a, b] lat (.scalar d.toNat) (BitVec.ofNat 512 r.1) q r.2 := by
  rw [GivesFlags, run, float2_gives s d a b q f src room, value, answer_ok]

end

/-! ### Patterns of FP32 (R31)

A pattern's magnitude g, its low 31 bits, decides by its size whether the pattern is a number, an infinity or a NaN; a number
is the significand of g times two to the exponent of g. -/

/-- The significand of the magnitude g. -/
def significand (g : Nat) : Nat := if g < 2 ^ 23 then g else 2 ^ 23 + g % 2 ^ 23

/-- The exponent of the magnitude g, above that of the least subnormal. -/
def exponentOf (g : Nat) : Nat := g / 2 ^ 23 - 1

section
variable {x : Nat}

theorem decodeFloat_fp32 (x : Nat) : decodeFloat .fp32 x =
    if x % 2 ^ 31 / 2 ^ 23 = 255 then (if x % 2 ^ 31 % 2 ^ 23 = 0 then .inf (x.testBit 31) else .nan)
    else if x % 2 ^ 31 / 2 ^ 23 = 0 then .fin (x.testBit 31) (x % 2 ^ 31 % 2 ^ 23) (-149)
    else .fin (x.testBit 31) (2 ^ 23 + x % 2 ^ 31 % 2 ^ 23) (-149 + (x % 2 ^ 31 / 2 ^ 23 - 1 : Nat)) := by
  simp [decodeFloat, FloatFmt.width, FloatFmt.eBits, FloatFmt.mBits, FloatFmt.hasInf, FloatFmt.qMin, FloatFmt.bias]

theorem decode_nan (above : 0x7F800000 < x % 2 ^ 31) : decodeFloat .fp32 x = .nan := by
  rw [decodeFloat_fp32, if_pos (by omega), if_neg (by omega)]

theorem decode_inf (top : x % 2 ^ 31 = 0x7F800000) : decodeFloat .fp32 x = .inf (x.testBit 31) := by
  rw [decodeFloat_fp32, if_pos (by omega), if_pos (by omega)]

theorem decode_number (below : x % 2 ^ 31 < 0x7F800000) :
    decodeFloat .fp32 x = .fin (x.testBit 31) (significand (x % 2 ^ 31)) (-149 + exponentOf (x % 2 ^ 31)) := by
  rw [decodeFloat_fp32, if_neg (by omega), significand, exponentOf]
  by_cases subnormal : x % 2 ^ 31 < 2 ^ 23
  · rw [if_pos (by omega), if_pos subnormal, Nat.mod_eq_of_lt subnormal, Nat.div_eq_of_lt subnormal]
    rfl
  · rw [if_neg (by omega), if_neg subnormal]

theorem decode_zero (zero : x % 2 ^ 31 = 0) : decodeFloat .fp32 x = .fin (x.testBit 31) 0 (-149) := by
  rw [decode_number (by omega), zero]
  rfl

theorem isNaN_decode : isNaN (decodeFloat .fp32 x) = true ↔ 0x7F800000 < x % 2 ^ 31 := by
  rcases lt_trichotomy (x % 2 ^ 31) 0x7F800000 with below | top | above
  · rw [decode_number below]
    exact ⟨nofun, fun above => absurd above below.not_gt⟩
  · rw [decode_inf top]
    exact ⟨nofun, fun above => absurd top above.ne'⟩
  · rw [decode_nan above]
    exact ⟨fun _ => above, fun _ => rfl⟩

/-- The sign bit of a pattern. -/
theorem testBit_sign (word : x < 2 ^ 32) : x.testBit 31 = decide (2 ^ 31 ≤ x) := by
  rw [Nat.testBit_eq_decide_div_mod_eq, decide_eq_decide]
  omega

theorem inf_of_decode {n : Bool} (word : x < 2 ^ 32) (inf : decodeFloat .fp32 x = .inf n) :
    x = FloatFmt.fp32.signed n FloatFmt.fp32.infBits := by
  rcases lt_trichotomy (x % 2 ^ 31) 0x7F800000 with below | top | above
  · exact nomatch (decode_number below).symm.trans inf
  · rw [decode_inf top, testBit_sign word, Val.inf.injEq] at inf
    subst inf
    by_cases negative : 2 ^ 31 ≤ x
    · rw [decide_eq_true negative]
      exact (by omega : x = 2 ^ 31 + 0x7F800000)
    · rw [decide_eq_false negative]
      exact (by omega : x = 0x7F800000)
  · exact nomatch (decode_nan above).symm.trans inf

end

/-! ### FPS: NaN, infinities and zeros (R183) -/

section
variable {x : Nat} (fl : Bool)

theorem readFloat_nan (nan : decodeFloat .fp32 x = .nan) : readFloat fl .fp32 x = .nan := by rw [readFloat, nan]

theorem readFloat_inf {n : Bool} (inf : decodeFloat .fp32 x = .inf n) : readFloat fl .fp32 x = .inf n := by rw [readFloat, inf]

theorem readFloat_zero (zero : x % 2 ^ 31 = 0) : readFloat fl .fp32 x = .fin (x.testBit 31) 0 (-149) := by
  rw [readFloat, decode_zero zero]
  cases fl <;> rfl

theorem writeFloat_nan (rm : Round) : writeFloat fl .fp32 rm .nan = (0x7FC00000, 0) := by cases fl <;> rfl

theorem writeFloat_inf (rm : Round) (n : Bool) :
    writeFloat fl .fp32 rm (.inf n) = (FloatFmt.fp32.signed n FloatFmt.fp32.infBits, 0) := by cases fl <;> cases n <;> rfl

end

theorem addVal_nan_right (rm : Round) (u : Val) : addVal rm u .nan = (.nan, 0) := by cases u <;> rfl

theorem mulVal_nan_right (u : Val) : mulVal u .nan = (.nan, 0) := by cases u <;> rfl

/-- What is written of an exact result with its flags. -/
def rounded (fl : Bool) (rm : Round) (v : Val × Flags) : Nat × Flags :=
  let r := writeFloat fl .fp32 rm v.1
  (r.1, r.2 ||| v.2)

section
variable (rm : Round) (fl : Bool)

theorem fAdd_eq (x y : Nat) : fAdd .fp32 rm fl x y = rounded fl rm (addVal rm (readFloat fl .fp32 x) (readFloat fl .fp32 y)) :=
  congrArg (Prod.mk _) (Nat.or_comm ..)

theorem fSub_eq (x y : Nat) : fSub .fp32 rm fl x y = rounded fl rm (addVal rm (readFloat fl .fp32 x) (negVal (readFloat fl .fp32 y))) :=
  congrArg (Prod.mk _) (Nat.or_comm ..)

theorem fMul_eq (x y : Nat) : fMul .fp32 rm fl x y = rounded fl rm (mulVal (readFloat fl .fp32 x) (readFloat fl .fp32 y)) :=
  congrArg (Prod.mk _) (Nat.or_comm ..)

theorem fFma_eq (z x y : Nat) : fFma .fp32 rm fl z x y =
    let m := mulVal (readFloat fl .fp32 x) (readFloat fl .fp32 y)
    let v := addVal rm (readFloat fl .fp32 z) m.1
    rounded fl rm (v.1, v.2 ||| m.2) :=
  congrArg (Prod.mk _) ((Nat.or_comm ..).trans (congrArg _ (Nat.or_comm ..)))

theorem rounded_nan (f : Flags) : rounded fl rm (.nan, f) = (0x7FC00000, f) := by
  rw [rounded, writeFloat_nan]
  exact congrArg (Prod.mk _) (Nat.zero_or f)

theorem rounded_inf (n : Bool) : rounded fl rm (.inf n, 0) = (FloatFmt.fp32.signed n FloatFmt.fp32.infBits, 0) := by
  rw [rounded, writeFloat_inf]
  exact congrArg (Prod.mk _) (Nat.or_zero 0)

end

/-- Settles O16: each operation is one rounding of its exact result (`fAdd_eq` to `fFma_eq`), and the special cases by what reads of
NaN, infinities and zeros give. -/
theorem floatArithmetic : Obligations.FloatArithmetic := by
  refine ⟨fun s d a b q x y z src => ?_, fun rm fl x y small small' => ?_⟩
  · intro fl rd out gives
    refine ⟨fun room => givesFlags_of_float2 rfl src room (fAdd_eq ..), fun room => givesFlags_of_float2 rfl src room (fSub_eq ..),
      fun room => givesFlags_of_float2 rfl src room (fMul_eq ..), fun dest room => ?_⟩
    have run : exec (.fma d a b q) s = s.answer (s.float2 4 d a b q fun rm fl x y => fFma .fp32 rm fl z.toNat x y) := by
      show execFma d a b q s = _
      rw [execFma, dest]
      rfl
    exact givesFlags_of_float2 run src room (fFma_eq ..)
  · intro u v
    rw [fAdd_eq, fSub_eq, fMul_eq]
    refine ⟨?_, fun n inf inf' => ?_, fun n inf inf' => ⟨?_, ?_⟩, fun n zero inf => ?_, fun n inf zero => ?_⟩
    · rintro (nan | nan)
      · rw [readFloat_nan fl nan]
        exact ⟨rounded_nan rm fl 0, rounded_nan rm fl 0, rounded_nan rm fl 0⟩
      · rw [readFloat_nan fl nan, negVal, addVal_nan_right, mulVal_nan_right]
        exact ⟨rounded_nan rm fl 0, rounded_nan rm fl 0, rounded_nan rm fl 0⟩
    · rw [readFloat_inf fl inf, readFloat_inf fl inf', addVal, if_neg (by cases n <;> decide), rounded_nan]
    · rw [readFloat_inf fl inf, readFloat_inf fl inf', negVal, addVal, if_neg (by cases n <;> decide), rounded_nan]
    · rw [readFloat_inf fl inf, readFloat_inf fl inf', addVal, if_pos rfl, rounded_inf, ← inf_of_decode small inf]
    · rw [readFloat_zero fl zero, readFloat_inf fl inf, mulVal, if_pos rfl, rounded_nan]
    · rw [readFloat_inf fl inf, readFloat_zero fl zero, mulVal, if_pos rfl, rounded_nan]

end Sys2Proof.Machine

namespace Sys2Proof.Machine

/-! ### FPS: the order of FP32 patterns (R184) -/

/-- The magnitude g in units of the least subnormal, 2^−149. -/
def scaled (g : Nat) : Nat := significand g * 2 ^ exponentOf g

/-- A magnitude and the next one have one exponent, or the next one begins the next exponent. -/
theorem succ_magnitude (g : Nat) : exponentOf (g + 1) = exponentOf g ∧ significand (g + 1) = significand g + 1 ∨
    exponentOf (g + 1) = exponentOf g + 1 ∧ significand (g + 1) = 2 ^ 23 ∧ significand g + 1 = 2 ^ 24 := by
  unfold exponentOf significand
  split <;> split <;> omega

theorem scaled_strictMono : StrictMono scaled := by
  refine strictMono_nat_of_lt_succ fun g => ?_
  have positive : 0 < 2 ^ exponentOf g := Nat.two_pow_pos _
  rcases succ_magnitude g with ⟨same, next⟩ | ⟨next, first, last⟩
  · rw [scaled, scaled, same, next]
    exact Nat.mul_lt_mul_of_pos_right (Nat.lt_succ_self _) positive
  · have carry : 2 ^ 23 * 2 ^ (exponentOf g + 1) = 2 ^ 24 * 2 ^ exponentOf g := by ring
    rw [scaled, scaled, next, first, carry]
    exact Nat.mul_lt_mul_of_pos_right (by omega) positive

theorem significand_eq_zero {g : Nat} : significand g = 0 ↔ g = 0 := by
  unfold significand
  split <;> omega

theorem scaled_eq_zero {g : Nat} : scaled g = 0 ↔ g = 0 := by
  rw [scaled, Nat.mul_eq_zero, significand_eq_zero, or_iff_left (Nat.two_pow_pos _).ne']

/-- −1 for a set sign bit, else 1. -/
def signOf (negative : Bool) : Int := if negative then -1 else 1

/-- Numbers whose exponents lie above a common one compare as multiples of its power of two. -/
theorem ltVal_numbers (s t : Bool) (m n a b : Nat) (e : Int) : ltVal (.fin s m (e + a)) (.fin t n (e + b)) =
    decide (signOf s * (m * 2 ^ a : Nat) < signOf t * (n * 2 ^ b : Nat)) := by
  have least : min (e + a) (e + b) = e + (min a b : Nat) := by omega
  have above (c : Nat) : (e + c - (e + (min a b : Nat))).toNat = c - min a b := by omega
  have split (k c : Nat) (le : min a b ≤ c) : ((k * 2 ^ c : Nat) : Int) = (k * 2 ^ (c - min a b) : Nat) * 2 ^ min a b := by
    rw [← Nat.sub_add_cancel le, Nat.pow_add, Nat.add_sub_cancel, ← Nat.mul_assoc, Nat.cast_mul]
    rfl
  rw [ltVal, least, above, above, decide_eq_decide, split m a (Nat.min_le_left ..), split n b (Nat.min_le_right ..), ← mul_assoc,
    ← mul_assoc]
  exact (mul_lt_mul_iff_left₀ (pow_pos (by decide) _)).symm

/-- Where a pattern of this sign and magnitude stands in the order of R184, −0 below +0. -/
def signedKey (negative : Bool) (g : Nat) : Int := if negative then -1 - g else g

theorem signed_lt (s t : Bool) (a b : Nat) : signOf s * (scaled a : Nat) < signOf t * (scaled b : Nat) ↔
    signedKey s a < signedKey t b ∧ ¬ (a = 0 ∧ b = 0) := by
  have zero := scaled_eq_zero (g := a)
  have zero' := scaled_eq_zero (g := b)
  have less := scaled_strictMono.lt_iff_lt (a := a) (b := b)
  have greater := scaled_strictMono.lt_iff_lt (a := b) (b := a)
  cases s <;> cases t <;> simp [signOf, signedKey] <;> omega

section
variable {x y : Nat}

/-- The order of numbers and infinities is that of their signs and magnitudes, but for the zeros. -/
theorem ltVal_decode (number : x % 2 ^ 31 ≤ 0x7F800000) (number' : y % 2 ^ 31 ≤ 0x7F800000) :
    ltVal (decodeFloat .fp32 x) (decodeFloat .fp32 y) = true ↔
      signedKey (x.testBit 31) (x % 2 ^ 31) < signedKey (y.testBit 31) (y % 2 ^ 31) ∧ ¬ (x % 2 ^ 31 = 0 ∧ y % 2 ^ 31 = 0) := by
  rcases number.lt_or_eq with finite | inf <;> rcases number'.lt_or_eq with finite' | inf'
  · rw [decode_number finite, decode_number finite', ltVal_numbers, decide_eq_true_eq]
    exact signed_lt ..
  · rw [decode_number finite, decode_inf inf', inf']
    cases x.testBit 31 <;> cases y.testBit 31 <;> simp [ltVal, signedKey] <;> omega
  · rw [decode_inf inf, decode_number finite', inf]
    cases x.testBit 31 <;> cases y.testBit 31 <;> simp [ltVal, signedKey] <;> omega
  · rw [decode_inf inf, decode_inf inf', inf, inf']
    cases x.testBit 31 <;> cases y.testBit 31 <;> simp [ltVal, signedKey]

theorem isNegZero_decode (number : x % 2 ^ 31 ≤ 0x7F800000) :
    isNegZero (decodeFloat .fp32 x) = true ↔ x.testBit 31 = true ∧ x % 2 ^ 31 = 0 := by
  rcases number.lt_or_eq with finite | inf
  · rw [decode_number finite, ← significand_eq_zero (g := x % 2 ^ 31)]
    cases x.testBit 31 <;> cases significand (x % 2 ^ 31) <;> simp [isNegZero]
  · rw [decode_inf inf, inf]
    simp [isNegZero]

end

/-! ### FPS: what a word reads as (R49) -/

/-- The key of a word in the order of R184. -/
def orderKey (w : Word) : Int := if w.toNat < 2 ^ 31 then w.toNat else 2 ^ 31 - 1 - (w.toNat : Int)

/-- The word is a pattern of a NaN. -/
def NanWord (w : Word) : Prop := 0x7F800000 < w.toNat % 2 ^ 31

/-- The word as an input under the rule of R49. -/
def flushed (fl : Bool) (w : Word) : Word := if fl = true ∧ w.toNat / 2 ^ 23 % 256 = 0 then w &&& 0x80000000#32 else w

theorem orderKey_eq (w : Word) : orderKey w = signedKey (w.toNat.testBit 31) (w.toNat % 2 ^ 31) := by
  have word := w.isLt
  rw [orderKey, signedKey, testBit_sign word]
  simp only [decide_eq_true_eq]
  split <;> split <;> omega

theorem toNat_sign (w : Word) : (w &&& 0x80000000#32).toNat = if w.toNat.testBit 31 then 2 ^ 31 else 0 := by
  rw [BitVec.toNat_and, show (0x80000000#32).toNat = 2 ^ 31 from rfl, Nat.and_two_pow]
  cases w.toNat.testBit 31 <;> rfl

section
variable (fl : Bool) (w : Word)

/-- In exposed mode a word of exponent 0 reads as its sign, and every other word as it is. -/
theorem flushed_cases : (fl = true ∧ w.toNat % 2 ^ 31 < 2 ^ 23) ∧ (flushed fl w).toNat = (if w.toNat.testBit 31 then 2 ^ 31 else 0) ∨
    ¬ (fl = true ∧ w.toNat % 2 ^ 31 < 2 ^ 23) ∧ flushed fl w = w := by
  have exponent : fl = true ∧ w.toNat / 2 ^ 23 % 256 = 0 ↔ fl = true ∧ w.toNat % 2 ^ 31 < 2 ^ 23 := and_congr_right' (by omega)
  by_cases subnormal : fl = true ∧ w.toNat % 2 ^ 31 < 2 ^ 23
  · exact .inl ⟨subnormal, by rw [flushed, if_pos (exponent.2 subnormal), toNat_sign]⟩
  · exact .inr ⟨subnormal, if_neg (mt exponent.1 subnormal)⟩

theorem readFloat_of_flushed (flush : fl = true ∧ w.toNat % 2 ^ 31 < 2 ^ 23) :
    readFloat fl .fp32 w.toNat = .fin (w.toNat.testBit 31) 0 (-149) := by
  obtain ⟨rfl, small⟩ := flush
  have field : significand (w.toNat % 2 ^ 31) < 2 ^ 23 := by rwa [significand, if_pos small]
  have least : exponentOf (w.toNat % 2 ^ 31) = 0 := by unfold exponentOf; omega
  rw [readFloat, decode_number (by omega)]
  exact (if_pos (decide_eq_true field)).trans (by rw [least]; rfl)

theorem readFloat_of_kept (keep : ¬ (fl = true ∧ w.toNat % 2 ^ 31 < 2 ^ 23)) :
    readFloat fl .fp32 w.toNat = decodeFloat .fp32 w.toNat := by
  rcases lt_trichotomy (w.toNat % 2 ^ 31) 0x7F800000 with below | top | above
  · have kept : ¬ (fl && FloatFmt.fp32.flushes && decide (significand (w.toNat % 2 ^ 31) < 2 ^ 23)) = true := by
      rw [Bool.and_eq_true, Bool.and_eq_true, decide_eq_true_eq, significand]
      rintro ⟨⟨on, -⟩, small⟩
      refine keep ⟨on, ?_⟩
      split at small <;> omega
    rw [readFloat, decode_number below]
    exact if_neg kept
  · rw [readFloat, decode_inf top]
  · rw [readFloat, decode_nan above]

/-- The rule of R49 on values is that of `flushed` on words. -/
theorem readFloat_word : readFloat fl .fp32 w.toNat = decodeFloat .fp32 (flushed fl w).toNat := by
  rcases flushed_cases fl w with ⟨flush, sign⟩ | ⟨keep, same⟩
  · rw [readFloat_of_flushed fl w flush, sign, decode_zero (by split <;> rfl)]
    cases w.toNat.testBit 31 <;> rfl
  · rw [readFloat_of_kept fl w keep, same]

theorem flushed_nan : NanWord (flushed fl w) ↔ NanWord w := by
  rcases flushed_cases fl w with ⟨⟨-, small⟩, sign⟩ | ⟨-, same⟩
  · rw [NanWord, NanWord, sign]
    split <;> omega
  · rw [same]

theorem isNaN_read : isNaN (readFloat fl .fp32 w.toNat) = true ↔ NanWord w := by
  rw [readFloat_word, isNaN_decode]
  exact flushed_nan fl w

theorem passFloat_nan (nan : NanWord w) : passFloat fl .fp32 w.toNat = 0x7FC00000 := by
  rw [passFloat, readFloat_word, decode_nan ((flushed_nan fl w).2 nan)]
  rfl

/-- A number or an infinity that is returned is the word as it reads. -/
theorem passFloat_number (number : ¬ NanWord w) : passFloat fl .fp32 w.toNat = (flushed fl w).toNat := by
  rcases flushed_cases fl w with ⟨flush, sign⟩ | ⟨keep, same⟩
  · rw [passFloat, readFloat_of_flushed fl w flush, sign]
    cases w.toNat.testBit 31 <;> rfl
  · rw [passFloat, readFloat_of_kept fl w keep, same]
    rcases (Nat.le_of_not_lt number).lt_or_eq with below | top
    · rw [decode_number below]
      by_cases zero : significand (w.toNat % 2 ^ 31) = 0
      · have magnitude := significand_eq_zero.1 zero
        have sign : FloatFmt.fp32.signed (w.toNat.testBit 31) 0 = if 2 ^ 31 ≤ w.toNat then 2 ^ 31 else 0 := by
          rw [testBit_sign w.isLt, FloatFmt.signed]
          simp only [decide_eq_true_eq]
          rfl
        refine (if_pos zero).trans (sign.trans ?_)
        split <;> omega
      · exact if_neg zero
    · rw [decode_inf top]

end

/-! ### FPS: minima and maxima (R184) -/

section
variable {fl : Bool} {x y : Word}

/-- What `fmin` and `fmax` make of NaN, where `second` says that the second of two numbers is returned. -/
theorem picked {second : Bool} {l : Word} (number : ¬ NanWord x → ¬ NanWord y → (if second then flushed fl y else flushed fl x) = l) :
    let r : Word := BitVec.ofNat 32 <|
      if isNaN (readFloat fl .fp32 x.toNat) then passFloat fl .fp32 y.toNat
      else if isNaN (readFloat fl .fp32 y.toNat) then passFloat fl .fp32 x.toNat
      else if second then passFloat fl .fp32 y.toNat else passFloat fl .fp32 x.toNat
    (NanWord x → NanWord y → r = 0x7FC00000#32) ∧ (NanWord x → ¬ NanWord y → r = flushed fl y) ∧
      (¬ NanWord x → NanWord y → r = flushed fl x) ∧ (¬ NanWord x → ¬ NanWord y → r = l) := by
  have word {w : Word} (number : ¬ NanWord w) : BitVec.ofNat 32 (passFloat fl .fp32 w.toNat) = flushed fl w := by
    rw [passFloat_number fl w number, BitVec.ofNat_toNat, BitVec.setWidth_eq]
  have first {w : Word} (nan : NanWord w) : isNaN (readFloat fl .fp32 w.toNat) = true := (isNaN_read fl w).2 nan
  have none {w : Word} (number : ¬ NanWord w) : ¬ isNaN (readFloat fl .fp32 w.toNat) = true := mt (isNaN_read fl w).1 number
  intro r
  refine ⟨fun nan nan' => ?_, fun nan num => ?_, fun num nan => ?_, fun num num' => ?_⟩
  · simp only [r, if_pos (first nan), passFloat_nan fl y nan']
  · simp only [r, if_pos (first nan), word num]
  · simp only [r, if_neg (none num), if_pos (first nan), word num]
  · rw [← number num num']
    simp only [r, if_neg (none num), if_neg (none num')]
    cases second
    · exact word num
    · exact word num'

/-- Two words of one place in the order are one word. -/
theorem eq_of_orderKey (same : orderKey x = orderKey y) : x = y := by
  refine BitVec.eq_of_toNat_eq ?_
  have small := x.isLt
  have small' := y.isLt
  unfold orderKey at same
  split at same <;> split at same <;> omega

/-- Comparison of two numbers as values, by their places in the order. -/
theorem ltVal_words (number : ¬ NanWord x) (number' : ¬ NanWord y) :
    ltVal (decodeFloat .fp32 x.toNat) (decodeFloat .fp32 y.toNat) = true ↔
      orderKey x < orderKey y ∧ ¬ (x.toNat % 2 ^ 31 = 0 ∧ y.toNat % 2 ^ 31 = 0) := by
  rw [orderKey_eq, orderKey_eq]
  exact ltVal_decode (Nat.le_of_not_lt number) (Nat.le_of_not_lt number')

/-- −0 is the word in place −1. -/
theorem isNegZero_word (number : ¬ NanWord x) : isNegZero (decodeFloat .fp32 x.toNat) = true ↔ orderKey x = -1 := by
  rw [isNegZero_decode (Nat.le_of_not_lt number), orderKey_eq, signedKey]
  cases x.toNat.testBit 31 <;> simp <;> omega

theorem zero_iff_orderKey : x.toNat % 2 ^ 31 = 0 ↔ orderKey x = -1 ∨ orderKey x = 0 := by
  have small := x.isLt
  unfold orderKey
  split <;> omega

/-- A first word that is less as a value, or −0 and no greater, stands before the second or is it. -/
theorem before_iff (number : ¬ NanWord x) (number' : ¬ NanWord y) :
    let u := decodeFloat .fp32 x.toNat
    let v := decodeFloat .fp32 y.toNat
    (ltVal u v || (!ltVal v u && isNegZero u)) = true ↔ orderKey x < orderKey y ∨ orderKey x = orderKey y ∧ orderKey x = -1 := by
  intro u v
  rw [Bool.or_eq_true, Bool.and_eq_true, Bool.not_eq_true', ← Bool.not_eq_true, ltVal_words number number', ltVal_words number' number,
    isNegZero_word number, zero_iff_orderKey, zero_iff_orderKey]
  omega

/-- The word of the minimum is the one that stands first. -/
theorem fMin_choice (number : ¬ NanWord x) (number' : ¬ NanWord y) :
    (if ltVal (decodeFloat .fp32 y.toNat) (decodeFloat .fp32 x.toNat) ||
        (!ltVal (decodeFloat .fp32 x.toNat) (decodeFloat .fp32 y.toNat) && isNegZero (decodeFloat .fp32 y.toNat)) then y else x) =
      if orderKey x ≤ orderKey y then x else y := by
  rw [if_congr (before_iff number' number) rfl rfl]
  split <;> split
  · exact eq_of_orderKey (by omega)
  · rfl
  · rfl
  · omega

/-- The word of the maximum is the one that stands last. -/
theorem fMax_choice (number : ¬ NanWord x) (number' : ¬ NanWord y) :
    (if ltVal (decodeFloat .fp32 x.toNat) (decodeFloat .fp32 y.toNat) ||
        (!ltVal (decodeFloat .fp32 y.toNat) (decodeFloat .fp32 x.toNat) && isNegZero (decodeFloat .fp32 x.toNat)) then y else x) =
      if orderKey x ≤ orderKey y then y else x := by
  rw [if_congr (before_iff number number') rfl rfl]
  split <;> split
  · rfl
  · omega
  · exact eq_of_orderKey (by omega)
  · rfl

end

/-! ### FPS: signs (R184) -/

section
variable (fl : Bool) (x : Word)

theorem fNeg_nan (nan : NanWord x) : fNeg .fp32 fl x.toNat = 0x7FC00000 := if_pos ((isNaN_read fl x).2 nan)

theorem fAbs_nan (nan : NanWord x) : fAbs .fp32 fl x.toNat = 0x7FC00000 := if_pos ((isNaN_read fl x).2 nan)

/-- A clear sign bit that is turned over adds its weight. -/
theorem toNat_xor_sign {w : Word} (positive : w.toNat < 2 ^ 31) : (w ^^^ 0x80000000#32).toNat = 2 ^ 31 * 1 + w.toNat := by
  refine Nat.eq_of_testBit_eq fun k => ?_
  rw [BitVec.toNat_xor, Nat.testBit_xor, show (0x80000000#32).toNat = 2 ^ 31 from rfl, Nat.testBit_two_pow,
    Nat.testBit_two_pow_mul_add 1 positive]
  split
  · next below => rw [decide_eq_false (by omega), Bool.xor_false]
  · next above =>
    have clear : w.toNat.testBit k = false :=
      Nat.testBit_lt_two_pow (positive.trans_le (Nat.pow_le_pow_right (by decide) (Nat.le_of_not_lt above)))
    rw [clear, Bool.false_xor, Bool.eq_iff_iff, decide_eq_true_eq, Nat.testBit_one_eq_true_iff_self_eq_zero]
    omega

/-- Negation turns the sign bit over. -/
theorem fNeg_number (number : ¬ NanWord x) : fNeg .fp32 fl x.toNat = (flushed fl x ^^^ 0x80000000#32).toNat := by
  rw [fNeg, if_neg (mt (isNaN_read fl x).1 number), passFloat_number fl x number]
  generalize flushed fl x = w
  have word := w.isLt
  have sign := testBit_sign word
  by_cases negative : 2 ^ 31 ≤ w.toNat
  · have positive : (w ^^^ 0x80000000#32).toNat < 2 ^ 31 := by
      have clear : (w ^^^ 0x80000000#32).toNat.testBit 31 = false := by
        rw [BitVec.toNat_xor, Nat.testBit_xor, sign, decide_eq_true negative]
        rfl
      rw [testBit_sign (BitVec.isLt _), decide_eq_false_iff_not] at clear
      exact Nat.lt_of_not_le clear
    have back := toNat_xor_sign positive
    rw [BitVec.xor_assoc, BitVec.xor_self, BitVec.xor_zero] at back
    exact (if_pos (sign.trans (decide_eq_true negative))).trans (Nat.sub_eq_of_eq_add' back)
  · refine (if_neg (sign.trans (decide_eq_false negative) ▸ Bool.false_ne_true)).trans ?_
    rw [toNat_xor_sign (Nat.lt_of_not_le negative), Nat.add_comm]
    rfl

/-- The magnitude clears the sign bit. -/
theorem fAbs_number (number : ¬ NanWord x) : fAbs .fp32 fl x.toNat = (flushed fl x &&& 0x7FFFFFFF#32).toNat := by
  rw [fAbs, if_neg (mt (isNaN_read fl x).1 number), passFloat_number fl x number]
  exact (toNat_low (flushed fl x) 31 (by decide)).symm

end

/-- Settles O17: the order of values is that of `orderKey` (`fMin_choice`, `fMax_choice`), what NaN gives is `picked`, and the signs are
`fNeg_number` and `fAbs_number`. -/
theorem floatMinMaxAndSigns : Obligations.FloatMinMaxAndSigns := by
  intro s d a b x y read nan key x' y' pick
  have plain {w : Word} (number : ¬ NanWord w) : ¬ NanWord (flushed (!s.interlocked) w) := mt (flushed_nan _ w).1 number
  refine ⟨fun src => ⟨?_, ?_⟩, fun src => ⟨?_, ?_⟩⟩
  · refine givesSome_of_scalar2 rfl src (room_one s 0) (picked fun number number' => ?_)
    rw [readFloat_word, readFloat_word]
    exact fMin_choice (plain number) (plain number')
  · refine givesSome_of_scalar2 rfl src (room_one s 0) (picked fun number number' => ?_)
    rw [readFloat_word, readFloat_word]
    exact fMax_choice (plain number) (plain number')
  · refine givesSome_of_scalar1 rfl src (room_one s 0) ⟨fun nan => ?_, fun number => ?_⟩
    · rw [fNeg_nan _ x nan]
    · rw [fNeg_number _ x number, BitVec.ofNat_toNat, BitVec.setWidth_eq]
      rfl
  · refine givesSome_of_scalar1 rfl src (room_one s 0) ⟨fun nan => ?_, fun number => ?_⟩
    · rw [fAbs_nan _ x nan]
    · rw [fAbs_number _ x number, BitVec.ofNat_toNat, BitVec.setWidth_eq]
      rfl

end Sys2Proof.Machine

namespace Sys2Proof.Machine

/-! ### FPS: conversions (R185, R48) -/

theorem intOf_unsigned (x : Word) : intOf false 32 x.toNat = x.toNat := by
  rw [intOf, Nat.mod_eq_of_lt x.isLt]
  rfl

theorem intOf_signed (x : Word) : intOf true 32 x.toNat = x.toInt := by
  rw [intOf, Nat.mod_eq_of_lt x.isLt, Bool.true_and, testBit_sign x.isLt, BitVec.toInt_eq_toNat_cond]
  simp only [decide_eq_true_eq]
  split <;> split <;> omega

section
variable (rm : Round) (sat : Bool)

/-- What has no place among the words is clamped when `sat` is set, and else the integer indefinite. -/
theorem convertInt_nan : convertInt true 32 rm sat .nan = (if sat then 0 else 0x80000000, flNV) := by cases sat <;> rfl

theorem convertInt_inf (n : Bool) :
    convertInt true 32 rm sat (.inf n) = (if sat = true ∧ n = false then 0x7FFFFFFF else 0x80000000, flNV) := by
  cases sat <;> cases n <;> rfl

section
variable {n : Bool} {m : Nat} {e : Int}

theorem convertInt_low (low : (roundInt rm n m e).1 < -2 ^ 31) : convertInt true 32 rm sat (.fin n m e) = (0x80000000, flNV) := by
  rw [convertInt]
  exact (if_pos low).trans (by cases sat <;> rfl)

theorem convertInt_high (high : 2 ^ 31 ≤ (roundInt rm n m e).1) :
    convertInt true 32 rm sat (.fin n m e) = (if sat then 0x7FFFFFFF else 0x80000000, flNV) := by
  rw [convertInt]
  have above : ¬ (roundInt rm n m e).1 < -2 ^ 31 := not_lt.2 (le_trans (by decide) high)
  exact (if_neg above).trans ((if_pos (Int.sub_one_lt_iff.2 high)).trans (by cases sat <;> rfl))

theorem convertInt_fits (low : -2 ^ 31 ≤ (roundInt rm n m e).1) (high : (roundInt rm n m e).1 < 2 ^ 31) :
    convertInt true 32 rm sat (.fin n m e) =
      (((roundInt rm n m e).1 % 2 ^ 32).toNat, if (roundInt rm n m e).2 then flNX else 0) := by
  rw [convertInt]
  exact (if_neg (not_lt.2 low)).trans (if_neg (not_lt.2 (Int.le_sub_one_of_lt high)))

end

end

/-- Variants 2 and 3 of `f2i` round toward zero, and 1 and 3 saturate. -/
theorem f2i_variant (v : BitVec 2) : v.getLsbD 1 = decide (v = 2 ∨ v = 3) ∧ v.getLsbD 0 = decide (v = 1 ∨ v = 3) := by
  revert v
  decide

/-- Settles O18: `f2i` by what `convertInt` gives of each kind of value, `i2f` by what `intOf` reads of a word. -/
theorem floatConversions : Obligations.FloatConversions := by
  intro s d a q x src room
  refine ⟨fun v => ?_, fun v => ?_⟩
  · intro rm sat gives
    have toward : (if v.getLsbD 1 then Round.rtz else s.R.rm) = rm := by
      rw [(f2i_variant v).1]
      exact if_congr decide_eq_true_iff rfl rfl
    have here {r : Nat} {fl : Flags} (value : convertInt true 32 rm sat (readFloat (!s.R.interlocked) .fp32 x.toNat) = (r, fl)) :
        gives r fl := by
      refine givesFlags_of_float1 (r := (r, fl)) rfl src room ?_
      rw [← value, ← toward, show sat = v.getLsbD 0 from (f2i_variant v).2.symm]
      rfl
    cases read : readFloat (!s.R.interlocked) .fp32 x.toNat with
    | nan => exact here (read ▸ convertInt_nan rm sat)
    | inf n => exact here (read ▸ convertInt_inf rm sat n)
    | fin n m e =>
      exact ⟨fun low => here (read ▸ convertInt_low rm sat low), fun high => here (read ▸ convertInt_high rm sat high),
        fun low high => here (read ▸ convertInt_fits rm sat low high)⟩
  · intro z r
    have integer : intOf (v == 0) 32 x.toNat = z := by
      by_cases signed : v = 0
      · rw [show z = x.toInt from if_pos signed, signed]
        exact intOf_signed x
      · rw [show z = x.toNat from if_neg signed, beq_eq_false_iff_ne.2 signed]
        exact intOf_unsigned x
    refine givesFlags_of_float1 rfl src room ?_
    rw [integer]
    rfl

end Sys2Proof.Machine

namespace Sys2Proof.Machine

/-! ### A trap leaves the mark of its syllable (R386)

Whatever way a trap takes, the bundle that it stops is marked as trapped. -/

section
variable (s : State)

theorem startAt_cur (node t : Nat) (item : Sent) : (s.startAt node t item).cur = s.cur := by
  rw [startAt_eq]
  split <;> rfl

theorem startFlit_cur (x : Option Nat) (node : Nat) (item : Sent) : (s.startFlit x node item).cur = s.cur := by
  unfold State.startFlit
  cases x with
  | none => exact startAt_cur ..
  | some n =>
    dsimp only
    split
    · exact startAt_cur ..
    · rw [startAt_cur, State.modPort_cur]

theorem trapNotice_cur (record : List Word) : (s.trapNotice record).cur = s.cur :=
  foldl_keeps State.cur (fun s _ => startFlit_cur s _ _ _) _ s

theorem planFrames_cur (x : Nat) (l : List (Nat × Nat)) : (s.planFrames x l).cur = s.cur := by
  unfold State.planFrames
  split
  · rfl
  · exact foldl_keeps State.cur (fun s p => State.plan_cur s s.tick 4 10 (.frameSave x p.1 p.2)) l s

theorem fatal_cur (x cause : Nat) (addr : BitVec 16) : (s.fatal x cause addr).cur = s.cur := by
  unfold State.fatal
  dsimp only
  split
  · rfl
  split
  · rfl
  split
  · exact trapNotice_cur ..
  · rfl

theorem takeTrap_cur (h c x owner : Nat) (tr : Trap) (async : Bool) (addr pc : BitVec 16) (sres from_ : Nat) (next : Option (BitVec 16)) :
    (s.takeTrap h c x owner tr async addr pc sres from_ next).cur = s.cur := by
  unfold State.takeTrap
  dsimp only
  split
  · rfl
  split
  · split
    · rfl
    · exact trapNotice_cur ..
  · exact planFrames_cur ..

theorem trapHere_trapped (tr : Trap) (sres : Nat) (addr : BitVec 16) (next : Option (BitVec 16)) :
    (s.trapHere tr sres addr next).cur.trapped = true := by
  unfold State.trapHere
  dsimp only
  split
  · rw [State.modMe_cur, fatal_cur]
  split
  · rw [State.modMe_cur, fatal_cur]
  · rw [takeTrap_cur]

end

/-! ### Syllables that only queue writes (R171, R133) -/

section
variable {s t u : State}

theorem modCore_modCore (s : State) (h c : Nat) (f g : Core → Core) : (s.modCore h c f).modCore h c g = s.modCore h c (g ∘ f) := by
  have cores (x : Herd) : (x.cores.modify c f).modify c g = x.cores.modify c (g ∘ f) := List.modify_modify_eq ..
  have herds : (s.modCore h c f).herds.modify h (fun x => { x with cores := x.cores.modify c g }) = (s.modCore h c (g ∘ f)).herds :=
    (List.modify_modify_eq ..).trans
      (congrArg (List.modify s.herds h) (funext fun x => congrArg (fun l => { x with cores := l }) (cores x)))
  exact congrArg (fun l => { s with herds := l }) herds

theorem QueuesOnly.trans (first : QueuesOnly s t) (after : QueuesOnly t u) : QueuesOnly s u := by
  obtain ⟨l, a, rfl⟩ := first
  obtain ⟨l', a', rfl⟩ := after
  have once := modCore_modCore s s.cur.herd s.cur.core (fun k => { k with r := { k.r with pend := l } })
    fun k => { k with r := { k.r with pend := l' } }
  exact ⟨l', a', congrArg (fun v => { v with agenda := a' }) once⟩

theorem enq_queuesOnly (s : State) (p : Pend) : QueuesOnly s (s.enq p) := by
  have queue : (s.modR fun r => r.queue { p with seq := s.cur.seq, addr := s.cur.pc }) =
      s.modR fun r => { r with pend := insertPend { p with seq := s.cur.seq, addr := s.cur.pc } s.R.pend } := modR_eq_of_R rfl
  exact ⟨_, (s.enq p).agenda, congrArg (fun v => { v with agenda := (s.enq p).agenda }) queue⟩

theorem QueuesOnly.refl (s : State) : QueuesOnly s s := ⟨s.R.pend, s.agenda, by
  rw [modR_idle (f := fun r => { r with pend := s.R.pend }) rfl]⟩

theorem notePbnd_queuesOnly (s : State) (fs : List (BitVec 5)) : QueuesOnly s (s.notePbnd fs) := by
  rcases notePbnd_cases s fs with e | e <;> rw [e]
  · exact .refl s
  · exact put_queuesOnly ..

theorem QueuesOnly.memory (only : QueuesOnly s t) : SameMemory s t := by
  obtain ⟨l, a, rfl⟩ := only
  exact modCore_memory s s.cur.herd s.cur.core fun k => { k with r := { k.r with pend := l } }

theorem QueuesOnly.registers (only : QueuesOnly s t) : SameRegisters s t := by
  obtain ⟨l, a, rfl⟩ := only
  intro h c
  have rest (β : Type) (π : Regs → β) (keeps : ∀ r l, π { r with pend := l } = π r) :
      π ((s.modR fun r => { r with pend := l }).regs h c) = π (s.regs h c) :=
    modCore_core_keeps s s.cur.herd s.cur.core (fun k => { k with r := { k.r with pend := l } }) (fun k => π k.r) (fun _ => keeps _ _) h c
  exact ⟨fun n => rest _ (·.scalar n) fun _ _ => rfl, fun n => rest _ (·.pred n) fun _ _ => rfl,
    fun k n => rest _ (·.row k n) fun _ _ => rfl,
    rest _ (·.k) fun _ _ => rfl, rest _ (·.bt) fun _ _ => rfl, rest _ (·.rcur) fun _ _ => rfl, rest _ (·.sw) fun _ _ => rfl,
    rest _ (·.fsr) fun _ _ => rfl, rest _ (·.tfsr) fun _ _ => rfl, rest _ (·.xr) fun _ _ => rfl, rest _ (·.trap) fun _ _ => rfl⟩

end

/-- A computation that commits nothing but writes that it queues. -/
structure Queues (s : State) (r : Res State) : Prop where
  commits : ∀ t, r = .ok t → QueuesOnly s t

theorem Queues.ok {s t : State} (only : QueuesOnly s t) : Queues s (.ok t) := ⟨fun _ same => Except.ok.inj same ▸ only⟩

theorem Queues.error {s : State} (e : Stop) : Queues s (.error e) := ⟨fun _ same => absurd same (by simp)⟩

theorem Queues.bind {α : Type} {s : State} {x : Res α} {f : α → Res State} (rest : ∀ a, Queues s (f a)) : Queues s (x >>= f) := by
  cases x with
  | error e => exact .error e
  | ok a => exact rest a

theorem Queues.guarded {c : Prop} [Decidable c] {s : State} {r : Res State} (cls cause : Nat) (checked : Queues s r) :
    Queues s (if c then r else raise cls cause) := by
  split
  · exact checked
  · exact .error _

section
variable (s : State)

/-- The end of a syllable with one result. -/
theorem result_queues (fs : List (BitVec 5)) (lat : Nat) (d : Dest) (v : Row512) : Queues s (.ok ((s.notePbnd fs).put lat d v)) :=
  .ok ((notePbnd_queuesOnly s fs).trans (put_queuesOnly ..))

theorem enqueued_queues (fs : List (BitVec 5)) (p : Pend) : Queues s (.ok ((s.notePbnd fs).enq p)) :=
  .ok ((notePbnd_queuesOnly s fs).trans (enq_queuesOnly ..))

theorem put_queues (lat : Nat) (d : Dest) (v : Row512) : Queues s (.ok (s.put lat d v)) := .ok (put_queuesOnly ..)

theorem scalar1_queues (lat : Nat) (d a : BitVec 5) (f : Word → Word) : Queues s (s.scalar1 lat d a f) :=
  .bind fun _ => .bind fun _ => result_queues ..

theorem scalar2_queues (lat : Nat) (d a b : BitVec 5) (f : Word → Word → Word) : Queues s (s.scalar2 lat d a b f) :=
  .bind fun _ => .bind fun _ => result_queues ..

theorem float1_queues (lat : Nat) (d a : BitVec 5) (q : BitVec 1) (f : Round → Bool → Nat → Nat × Flags) :
    Queues s (s.float1 lat d a q f) := .bind fun _ => .bind fun _ => enqueued_queues ..

theorem float2_queues (lat : Nat) (d a b : BitVec 5) (q : BitVec 1) (f : Round → Bool → Nat → Nat → Nat × Flags) :
    Queues s (s.float2 lat d a b q f) := .bind fun _ => .bind fun _ => enqueued_queues ..

theorem compare_queues (p : BitVec 3) (a b : BitVec 5) (f : Word → Word → Bool) : Queues s (s.compare p a b f) :=
  .bind fun _ => result_queues ..

theorem compareF_queues (p : BitVec 3) (a b : BitVec 5) (q : BitVec 1) (c : Nat) : Queues s (s.compareF p a b q c) :=
  .bind fun _ => enqueued_queues ..

theorem funnelShift_queues (d n b : BitVec 5) (f : BitVec 64 → Nat → Word) : Queues s (s.funnelShift d n b f) :=
  .bind fun _ => .bind fun _ => .bind fun _ => result_queues ..

end

/-- The answer of each syllable of `onlyWrites` is that of a computation that queues its writes. -/
theorem exec_queues {i : Instr} (only : onlyWrites i = true) (s : State) : ∃ r, exec i s = s.answer r ∧ Queues s r := by
  cases i with
  | add | sub | mul | mulh | mulhu | and | or | xor | min | max | minu | maxu | sel | fmin | fmax | shl | shr | sra | rol | bext | cpack
    | cadd => exact ⟨_, rfl, scalar2_queues ..⟩
  | addi | andi | ori | xori | slti | sltui | fneg | fabs | clz | ctz | popc | bswap | crow | ccol => exact ⟨_, rfl, scalar1_queues ..⟩
  | fadd | fsub | fmul => exact ⟨_, rfl, float2_queues ..⟩
  | f2i | i2f => exact ⟨_, rfl, float1_queues ..⟩
  | fma => exact ⟨_, rfl, .bind fun _ => float2_queues ..⟩
  | bins => exact ⟨_, rfl, .bind fun _ => scalar2_queues ..⟩
  | icmpEq | icmpNe | icmpLt | icmpLtu | icmpLe | icmpLeu => exact ⟨_, rfl, compare_queues ..⟩
  | fcmpEq | fcmpLt | fcmpLe | fcmpUn => exact ⟨_, rfl, compareF_queues ..⟩
  | fsh | fshr => exact ⟨_, rfl, funnelShift_queues ..⟩
  | lidx | pand | por | pxor | pnot | pmov | vany | vall | pfirst | pcnt | fli => exact ⟨.ok _, rfl, put_queues ..⟩
  | bset | bsetr | kbase | krow => exact ⟨_, rfl, .bind fun _ => result_queues ..⟩
  | apq | bxok => exact ⟨_, rfl, .bind fun _ => .bind fun _ => result_queues ..⟩
  | kset | ksetAll => exact ⟨_, rfl, .bind fun _ => enqueued_queues ..⟩
  | wprom | bxdim => exact ⟨_, rfl, .bind fun _ => put_queues ..⟩
  | gmeas => exact ⟨_, rfl, .bind fun _ => .bind fun _ => put_queues ..⟩
  | phase => exact ⟨_, rfl, .guarded _ _ (put_queues ..)⟩
  | wrsr => exact ⟨_, rfl, .guarded _ _ (.bind fun _ => result_queues ..)⟩
  | _ => exact absurd only Bool.false_ne_true

/-- Settles O5. A syllable of `onlyWrites` answers a computation that queues its writes (`exec_queues`); a hold and a trap mark their bundle
(`answer_hold`, `trapHere_trapped`), and what only queues writes leaves memories and registers as they were. -/
theorem registerSyllablesOnlyQueue : Obligations.RegisterSyllablesOnlyQueue := by
  intro i s t only _ _ run free goes
  obtain ⟨r, answer, queues⟩ := exec_queues only s
  rw [answer] at run
  have queued : QueuesOnly s t := by
    match r, queues, run with
    | .ok u, queues, run =>
      rw [answer_ok, Host.Outcome.next.injEq] at run
      exact queues.commits t (congrArg _ run)
    | .error .hold, _, run =>
      rw [answer_hold, Host.Outcome.next.injEq] at run
      subst run
      exact absurd goes (by simp)
    | .error (.trap tr), _, run =>
      rw [answer_trap, Host.Outcome.next.injEq] at run
      subst run
      rw [trapHere_trapped] at free
      exact absurd free (by simp)
  exact ⟨queued, queued.memory, queued.registers⟩

end Sys2Proof.Machine

namespace Sys2Proof.Machine

/-! ## Tile syllables

### The answer of a V syllable (R136, R144, R212) -/

section
variable {i : Instr} {s : State} {op : VOp} {d a : BitVec 3} {sc : Bool} {b : BitVec 5} {f : BitVec 3} {w q : Bool}

/-- The shared operation once its scalar operand is read. -/
theorem tileOp_of_src {x : Word} (src : (if sc then s.src b 0 else .ok 0) = .ok x) : s.tileOp op d a sc b f w q = (do
    let v : VDec := { op := op, d := d.toNat, a := a.toNat, s := sc, b := b.toNat % 8, f := f.toNat, w := w, q := q }
    match s.firstDead v with
    | .some n => if s.R.deadTraps then .error (.trap { cls := 7, d0 := BitVec.ofNat 32 n }) else .ok ()
    | .none => .ok ()
    s.room op.latency v.rowCount
    let u := if sc then s.notePbnd [b] else s
    return if w then u.tileWhole v x else u.tileRowForm v x) := by
  cases sc with
  | false =>
    obtain rfl := Except.ok.inj src
    rfl
  | true =>
    have read : s.src b 0 = .ok x := src
    rw [State.tileOp, if_pos rfl, read]
    rfl

/-- A meaning that is the shared operation begins its row form or its whole-tile form, or takes the dead-read trap. -/
theorem runsTile_of_tileOp (run : exec i s = s.answer (s.tileOp op d a sc b f w q)) : RunsTile i s op d a sc b f w q := by
  intro x src v
  rw [run, tileOp_of_src src]
  refine ⟨fun live room => ?_, fun n dead traps => ?_⟩
  · dsimp only
    rw [room]
    cases first : s.firstDead v with
    | none => rfl
    | some n =>
      rw [live.resolve_left (by simp [first])]
      rfl
  · dsimp only
    rw [dead, traps]
    rfl

end

/-! ### Dead rows (R144, R386) -/

section
variable (s : State) (v : VDec)

/-- The rows that an operation reaches: all of a tile, or the one at the row cursor. -/
def State.rowsOf : List Nat := if v.w then List.range 32 else [s.R.rcur.toNat]

/-- Row n of tile t is read dead: its mark stands, and no pending write lands before the cycle of the read. -/
def State.ReadsDead (t n : Nat) : Prop :=
  s.R.rowDead t n = true ∧
    ∀ p ∈ s.R.pend, p.dest = .tileRow t n → s.tick + (if v.w = true ∧ v.op ≠ .trans then n / 4 else 0) ≤ p.due

theorem readsAt_eq (n : Nat) : (if v.w then v.readsAt n else 0) = if v.w = true ∧ v.op ≠ .trans then n / 4 else 0 := by
  cases v.w
  · simp
  · cases op : v.op <;> simp [VDec.readsAt, op]

theorem judgedDead_iff (t n : Nat) :
    s.R.judgedDead s.tick t n (if v.w then v.readsAt n else 0) = true ↔ s.ReadsDead v t n := by
  simp [Regs.judgedDead, State.ReadsDead, readsAt_eq]

/-- The rows and tiles that an operation reaches, in order. -/
def State.reads : List (Nat × Nat) := (s.rowsOf v).flatMap fun n => v.sources.map fun t => (t, n)

theorem mem_reads {t n : Nat} : (t, n) ∈ s.reads v ↔ n ∈ s.rowsOf v ∧ t ∈ v.sources := by
  simp [State.reads]

/-- The rows are reached in ascending order. -/
theorem reads_ascend : (s.reads v).Pairwise fun p q => p.2 ≤ q.2 := by
  have rows : (s.rowsOf v).Pairwise (· < ·) := by
    unfold State.rowsOf
    split
    · exact List.pairwise_lt_range
    · exact List.pairwise_singleton ..
  refine List.pairwise_flatMap.2 ⟨fun n _ => List.pairwise_map.2 (List.pairwise_of_forall fun _ _ => Nat.le_refl n),
    rows.imp fun less p at_ q at' => ?_⟩
  obtain ⟨-, -, rfl⟩ := List.mem_map.1 at_
  obtain ⟨-, -, rfl⟩ := List.mem_map.1 at'
  exact less.le

theorem firstDead_eq : s.firstDead v =
    ((s.reads v).find? fun p => s.R.judgedDead s.tick p.1 p.2 (if v.w then v.readsAt p.2 else 0)).map fun p => 256 + p.1 * 32 + p.2 := by
  rw [← List.head?_filter]
  rfl

theorem firstDead_eq_none : s.firstDead v = .none ↔ ∀ n ∈ s.rowsOf v, ∀ t ∈ v.sources, ¬ s.ReadsDead v t n := by
  rw [firstDead_eq, Option.map_eq_none_iff, List.find?_eq_none]
  constructor
  · exact fun live n row t tile dead => live (t, n) ((mem_reads s v).2 ⟨row, tile⟩) ((judgedDead_iff s v t n).2 dead)
  · rintro live ⟨t, n⟩ at_ dead
    obtain ⟨row, tile⟩ := (mem_reads s v).1 at_
    exact live n row t tile ((judgedDead_iff s v t n).1 dead)

variable {s v}

/-- The row that is found is dead, and no row before it is. -/
theorem firstDead_eq_some {x : Nat} (first : s.firstDead v = .some x) : ∃ n ∈ s.rowsOf v, ∃ t ∈ v.sources,
    x = 256 + 32 * t + n ∧ s.ReadsDead v t n ∧ ∀ m ∈ s.rowsOf v, m < n → ∀ u ∈ v.sources, ¬ s.ReadsDead v u m := by
  rw [firstDead_eq, Option.map_eq_some_iff] at first
  obtain ⟨⟨t, n⟩, found, rfl⟩ := first
  obtain ⟨dead, before, after, split, live⟩ := List.find?_eq_some_iff_append.1 found
  obtain ⟨row, tile⟩ := (mem_reads s v).1 (List.mem_of_find?_eq_some found)
  refine ⟨n, row, t, tile, by omega, (judgedDead_iff s v t n).1 dead, fun m row' less u tile' dead' => ?_⟩
  have reached := (mem_reads s v).2 ⟨row', tile'⟩
  have ascend := reads_ascend s v
  rw [split] at reached ascend
  rcases List.mem_append.1 reached with early | late
  · exact absurd ((judgedDead_iff s v u m).2 dead') (by simpa using live _ early)
  · rcases List.mem_cons.1 late with same | late
    · exact absurd (congrArg Prod.snd same) less.ne
    · exact absurd (List.rel_of_pairwise_cons (List.pairwise_append.1 ascend).2.1 late) (Nat.not_le.2 less)

end

/-! ### Rows queued for a core (R133, R136) -/

theorem foldl_modCtx_only (f : Ctx → Ctx) (l : List Nat) (s : State) :
    ∃ x, l.foldl (fun s y => s.modCtx y f) s = { s with ctxs := x } := by
  induction l generalizing s with
  | nil => exact ⟨s.ctxs, rfl⟩
  | cons y l ih =>
    obtain ⟨x, same⟩ := ih (s.modCtx y f)
    exact ⟨x, same⟩

theorem charge_only (s : State) (x cls n : Nat) : ∃ l, s.charge x cls n = { s with ctxs := l } := by
  unfold State.charge
  dsimp only
  split
  · exact ⟨s.ctxs, rfl⟩
  · exact foldl_modCtx_only ..

theorem chargeRows_only (s : State) (h c : Nat) (op : VOp) (n : Nat) : ∃ l, s.chargeRows h c op n = { s with ctxs := l } :=
  charge_only ..

section
variable {s : State} {h c : Nat}

theorem enqAt_pend (p : Pend) (herd : h < s.herds.length) (core : c < (s.herd h).cores.length) :
    ((s.enqAt h c p).regs h c).pend = insertPend p (s.regs h c).pend :=
  congrArg Regs.pend (s.modRegs_regs h c (fun r => { r with pend := insertPend p r.pend }) herd core)

theorem enqAt_cores_length (s : State) (h c : Nat) (p : Pend) (x : Nat) :
    ((s.enqAt h c p).herd x).cores.length = (s.herd x).cores.length := modCore_cores_length s h c _ x

/-- The state with some writes more in the queue of a core, each with its landing. -/
def State.enqAll (s : State) (h c : Nat) (l : List Pend) : State := l.foldl (fun s p => s.enqAt h c p) s

theorem enqAll_herds_length (s : State) (h c : Nat) (l : List Pend) : (s.enqAll h c l).herds.length = s.herds.length :=
  foldl_keeps (fun s => s.herds.length) (fun _ _ => List.length_modify ..) l s

theorem enqAll_cores_length (s : State) (h c : Nat) (l : List Pend) (x : Nat) :
    ((s.enqAll h c l).herd x).cores.length = (s.herd x).cores.length :=
  foldl_keeps (fun s => (s.herd x).cores.length) (fun s p => enqAt_cores_length s h c p x) l s

theorem enqAll_pend (l : List Pend) (herd : h < s.herds.length) (core : c < (s.herd h).cores.length) :
    ((s.enqAll h c l).regs h c).pend.Perm (l ++ (s.regs h c).pend) := by
  induction l generalizing s with
  | nil => exact .refl _
  | cons p l ih =>
    have rest := ih (s := s.enqAt h c p) (herd.trans_eq (List.length_modify ..).symm) (core.trans_eq (enqAt_cores_length s h c p h).symm)
    rw [enqAt_pend p herd core] at rest
    exact rest.trans (((insertPend_perm p _).append_left l).trans List.perm_middle)

theorem QueuesOnly.foldl {α : Type} {f : State → α → State} (step : ∀ s a, QueuesOnly s (f s a)) (l : List α) (s : State) :
    QueuesOnly s (l.foldl f s) := by
  induction l generalizing s with
  | nil => exact .refl s
  | cons a l ih => exact (step s a).trans (ih (f s a))

theorem enqAt_queuesOnly (s : State) (p : Pend) : QueuesOnly s (s.enqAt s.cur.herd s.cur.core p) := by
  have queue : (s.modR fun r => { r with pend := insertPend p r.pend }) = s.modR fun r => { r with pend := insertPend p s.R.pend } :=
    modR_eq_of_R rfl
  exact ⟨_, _, congrArg (fun u => { u with agenda := (s.enqAt s.cur.herd s.cur.core p).agenda }) queue⟩

theorem foldl_enqAt_eq (s : State) (l : List Pend) :
    l.foldl (fun s p => s.enqAt s.cur.herd s.cur.core p) s = s.enqAll s.cur.herd s.cur.core l := by
  induction l generalizing s with
  | nil => rfl
  | cons p l ih => exact ih (s.enqAt s.cur.herd s.cur.core p)

theorem enqAll_queuesOnly (s : State) (l : List Pend) : QueuesOnly s (s.enqAll s.cur.herd s.cur.core l) := by
  rw [← foldl_enqAt_eq]
  exact .foldl enqAt_queuesOnly l s

/-- The state in which a core has queued some rows of an operation and goes on with the rest. -/
def State.goesOn (s : State) (h c : Nat) (l : List Pend) (o : Option TileOp) : State :=
  (s.enqAll h c l).modCore h c fun k => { k with tile := o }

section
variable (s : State) (h c : Nat) (l : List Pend) (o : Option TileOp)

theorem goesOn_cur : (s.goesOn h c l o).cur = s.cur := foldl_keeps State.cur (f := fun s p => s.enqAt h c p) (fun _ _ => rfl) l s

theorem goesOn_tick : (s.goesOn h c l o).tick = s.tick := foldl_keeps State.tick (f := fun s p => s.enqAt h c p) (fun _ _ => rfl) l s

theorem goesOn_regs (x y : Nat) : (s.goesOn h c l o).regs x y = (s.enqAll h c l).regs x y :=
  modCore_core_keeps (s.enqAll h c l) h c (fun k => { k with tile := o }) Core.r (fun _ => rfl) x y

theorem goesOn_registers : SameRegisters s (s.goesOn s.cur.herd s.cur.core l o) := fun x y => by
  rw [goesOn_regs]
  exact (enqAll_queuesOnly s l).registers x y

theorem goesOn_memory : SameMemory s (s.goesOn s.cur.herd s.cur.core l o) := fun sp a =>
  (modCore_memory (s.enqAll s.cur.herd s.cur.core l) s.cur.herd s.cur.core _ sp a).trans ((enqAll_queuesOnly s l).memory sp a)

end

section
variable (l : List Pend) (o : Option TileOp) (herd : h < s.herds.length) (core : c < (s.herd h).cores.length)
include herd core

theorem goesOn_pend : ((s.goesOn h c l o).regs h c).pend.Perm (l ++ (s.regs h c).pend) := by
  rw [goesOn_regs]
  exact enqAll_pend l herd core

theorem goesOn_tile : ((s.goesOn h c l o).core h c).tile = o :=
  congrArg Core.tile (State.modCore_core (s.enqAll h c l) h c _ (herd.trans_eq (enqAll_herds_length s h c l).symm)
    (core.trans_eq (enqAll_cores_length s h c l h).symm))

end

end

/-! ### The row form (R212) -/

section
variable (s : State) (v : VDec) (x : Word)

/-- What the row form makes of the row at the row cursor. -/
def State.rowResult : VOut :=
  vRow v.op v.f false (v.input s.R s.R.rcur.toNat x s.R.rmBits (!s.interlocked) (s.R.pred s.cur.guard) [] (s.deadReads v))

/-- The write that it queues. -/
def State.rowPend : Pend :=
  let o := s.rowResult v x
  { due := s.tick + v.op.latency - 1, seq := s.cur.seq, dest := v.dest s.R.rcur.toNat, val := BitVec.ofNat 512 o.val
    mask := BitVec.ofNat 64 o.mask, tflags := if v.q then 0 else BitVec.ofNat 80 o.tfl
    cls := BitVec.ofNat 5 (if v.q then 0 else 0 ||| orLanes o.tfl), slot := .some 2, addr := s.cur.pc }

theorem tileRowForm_only : ∃ l, s.tileRowForm v x = { s.enq (s.rowPend v x) with ctxs := l } := chargeRows_only ..

theorem enq_pend (p : Pend) (placed : s.Placed) :
    (s.enq p).R.pend = insertPend { p with seq := s.cur.seq, addr := s.cur.pc } s.R.pend :=
  congrArg Regs.pend (s.modR_R (fun r => { r with pend := insertPend { p with seq := s.cur.seq, addr := s.cur.pc } r.pend }) placed)

/-- The row form changes no register and no memory, and queues one write. -/
theorem tileRowForm_queues (placed : s.Placed) : SameRegisters s (s.tileRowForm v x) ∧ SameMemory s (s.tileRowForm v x) ∧
    (s.tileRowForm v x).R.pend.Perm (s.rowPend v x :: s.R.pend) := by
  obtain ⟨l, same⟩ := tileRowForm_only s v x
  have only := enq_queuesOnly s (s.rowPend v x)
  have perm : (s.enq (s.rowPend v x)).R.pend.Perm (s.rowPend v x :: s.R.pend) := by
    rw [enq_pend s _ placed]
    exact insertPend_perm ..
  rw [same]
  exact ⟨only.registers, only.memory, perm⟩

/-! ### The whole-tile form (R136, R212) -/

/-- The operation as it stands at its issue. -/
def State.tileStart : TileOp :=
  { dec := v, start := s.tick, group := 0, seq := s.cur.seq, guard := s.R.pred s.cur.guard, bval := x
    rm := s.R.rmBits, interlocked := s.interlocked, addr := s.cur.pc, dead := s.deadReads v
    snap := match v.op with | .trans => (List.range 32).map (s.R.row v.a) | _ => [] }

/-- The events of a whole-tile form that a fold plans. -/
theorem foldl_tileRows_only (l : List Nat) (s : State) : ∃ g,
    l.foldl (fun s k => s.plan (s.tick + 1 + k) 3 0 (.tileRows s.cur.herd s.cur.core)) s = { s with agenda := g } ∧
      (∀ e ∈ s.agenda, e ∈ g) ∧ ∀ k ∈ l, ∃ e ∈ g, e.at_ = s.tick + 1 + k ∧ e.act = .tileRows s.cur.herd s.cur.core := by
  induction l generalizing s with
  | nil => exact ⟨s.agenda, rfl, fun _ at_ => at_, nofun⟩
  | cons k l ih =>
    obtain ⟨g, same, kept, planned⟩ := ih (s.plan (s.tick + 1 + k) 3 0 (.tileRows s.cur.herd s.cur.core))
    refine ⟨g, same, fun e at_ => kept e (mem_insertDue.2 (.inr at_)), ?_⟩
    rintro m (_ | ⟨_, later⟩)
    · exact ⟨_, kept _ (mem_insertDue.2 (.inl rfl)), rfl, rfl⟩
    · exact planned m later

end

/-- The state in which the first four rows of an operation are charged and the events of its other rows are planned. -/
def State.tileIssued (s : State) (op : VOp) : State :=
  (List.range 7).foldl (fun s k => s.plan (s.tick + 1 + k) 3 0 (.tileRows s.cur.herd s.cur.core))
    (s.chargeRows s.cur.herd s.cur.core op 4)

theorem tileIssued_only (s : State) (op : VOp) : ∃ l g, s.tileIssued op = { s with ctxs := l, agenda := g } ∧
    ∀ k < 7, ∃ e ∈ g, e.at_ = s.tick + 1 + k ∧ e.act = .tileRows s.cur.herd s.cur.core := by
  obtain ⟨l, charged⟩ := chargeRows_only s s.cur.herd s.cur.core op 4
  obtain ⟨g, planned, -, events⟩ := foldl_tileRows_only (List.range 7) { s with ctxs := l }
  exact ⟨l, g, by rw [State.tileIssued, charged, planned], fun k inside => events k (List.mem_range.2 inside)⟩

/-- A core that has queued some writes and goes on has changed no register and no memory. -/
theorem goesOn_issued {s : State} (placed : s.Placed) (op : VOp) (l : List Pend) (o : Option TileOp) :
    let t := (s.goesOn s.cur.herd s.cur.core l o).tileIssued op
    SameRegisters s t ∧ SameMemory s t ∧ t.me.tile = o ∧ t.R.pend.Perm (l ++ s.R.pend) ∧
      ∀ k < 7, ∃ e ∈ t.agenda, e.at_ = s.tick + 1 + k ∧ e.act = .tileRows s.cur.herd s.cur.core := by
  intro t
  obtain ⟨x, g, same, events⟩ := tileIssued_only (s.goesOn s.cur.herd s.cur.core l o) op
  have here := goesOn_cur s s.cur.herd s.cur.core l o
  have tile : (s.goesOn s.cur.herd s.cur.core l o).me.tile = o := by
    rw [State.me, here]
    exact goesOn_tile l o placed.1 placed.2
  have perm : (s.goesOn s.cur.herd s.cur.core l o).R.pend.Perm (l ++ s.R.pend) := by
    rw [State.R, State.me, here]
    exact goesOn_pend l o placed.1 placed.2
  rw [goesOn_tick, here] at events
  rw [show t = _ from same]
  exact ⟨goesOn_registers s l o, goesOn_memory s l o, tile, perm, events⟩

/-- The whole-tile form reads its first four rows and leaves the others to its core. -/
theorem tileWhole_eq (s : State) (v : VDec) (x : Word) :
    let l := (s.tileStart v x).writes s.R
    s.tileWhole v x = (s.goesOn s.cur.herd s.cur.core l (.some ((s.tileStart v x).next l))).tileIssued v.op := by
  rw [State.tileWhole, foldl_enqAt_eq]
  rfl

/-! ### The rows that follow (R136) -/

theorem nextRows_eq {s : State} {h c : Nat} {r : TileOp} (runs : (s.core h c).tile = .some r) (now : r.start + r.group = s.tick) :
    let l := r.writes (s.regs h c)
    s.nextRows h c = (s.goesOn h c l (if r.group = 7 then .none else .some (r.next l))).chargeRows h c r.dec.op 4 := by
  rw [State.nextRows, runs]
  exact if_neg (not_not.2 now)

theorem goesOn_charged {s : State} {h c : Nat} (herd : h < s.herds.length) (core : c < (s.herd h).cores.length) (op : VOp)
    (l : List Pend) (o : Option TileOp) : let t := (s.goesOn h c l o).chargeRows h c op 4
    (t.regs h c).pend.Perm (l ++ (s.regs h c).pend) ∧ (t.core h c).tile = o := by
  intro t
  obtain ⟨x, charged⟩ := chargeRows_only (s.goesOn h c l o) h c op 4
  rw [show t = _ from charged]
  exact ⟨goesOn_pend l o herd core, goesOn_tile l o herd core⟩

theorem nextRows_goesOn {s : State} {h c : Nat} {r : TileOp} (herd : h < s.herds.length) (core : c < (s.herd h).cores.length)
    (runs : (s.core h c).tile = .some r) (now : r.start + r.group = s.tick) :
    ((s.nextRows h c).regs h c).pend.Perm (r.writes (s.regs h c) ++ (s.regs h c).pend) ∧
      ((s.nextRows h c).core h c).tile = if r.group = 7 then .none else .some (r.next (r.writes (s.regs h c))) := by
  rw [nextRows_eq runs now]
  exact goesOn_charged herd core ..

/-- The writes of a group carry the record slot until one of them has set a flag, and land together. -/
theorem mem_tileWrites {d : VDec} {due seq : Nat} {addr : BitVec 16} {first : Bool} {outs : List (Nat × VOut)} {p : Pend}
    (at_ : p ∈ tileWrites d due seq addr first outs) :
    p.due = due ∧ (p.slot = if first then .some 2 else .none) ∧ ∃ o ∈ outs, p.dest = d.dest o.1 := by
  obtain ⟨o, there, rfl⟩ := List.mem_map.1 at_
  exact ⟨rfl, rfl, o, there, rfl⟩

theorem mem_tileOp_writes {o : TileOp} {r : Regs} {p : Pend} (at_ : p ∈ o.writes r) :
    (p.slot = if o.flagged then .none else .some 2) ∧
      ∃ k < 4, p.dest = o.dec.dest (4 * o.group + k) ∧ p.due = o.start + o.dec.op.latency - 1 + o.group := by
  obtain ⟨due, slot, z, there, dest⟩ := mem_tileWrites at_
  refine ⟨by rw [slot]; cases o.flagged <;> rfl, ?_⟩
  obtain ⟨n, row, rfl⟩ := List.mem_map.1 there
  simp only [List.mem_cons, List.not_mem_nil, or_false] at row
  rcases row with rfl | rfl | rfl | rfl
  · exact ⟨0, by decide, dest, due⟩
  · exact ⟨1, by decide, dest, due⟩
  · exact ⟨2, by decide, dest, due⟩
  · exact ⟨3, by decide, dest, due⟩

theorem tileOp_next_flagged (o : TileOp) (l : List Pend) :
    (o.next l).flagged = true ↔ o.flagged = true ∨ ∃ p ∈ l, p.cls ≠ 0 := by
  simp [TileOp.next]

/-- Settles O39: every V syllable is the shared operation (`runsTile_of_tileOp`), which judges the rows that it reaches in order
(`firstDead_eq_some`); its forms queue what they read (`tileRowForm_queues`, `tileWhole_begins`, `nextRows_goesOn`). -/
theorem tileSyllables : Obligations.TileSyllables := by
  refine ⟨fun s d a k n x f b3 b s1 w q => ?_, fun s v => ⟨firstDead_eq_none s v, fun x => firstDead_eq_some⟩, fun s v x placed => ?_,
    fun s h c r herd core runs now => nextRows_goesOn herd core runs now,
    fun o r l => ⟨rfl, tileOp_next_flagged o l, fun p at_ => mem_tileOp_writes at_⟩⟩
  · and_intros <;> exact runsTile_of_tileOp rfl
  · obtain ⟨registers, memory, perm⟩ := tileRowForm_queues s v x placed
    have whole := goesOn_issued placed v.op ((s.tileStart v x).writes s.R) (.some ((s.tileStart v x).next ((s.tileStart v x).writes s.R)))
    rw [← tileWhole_eq] at whole
    obtain ⟨registers', memory', tile, perm', events⟩ := whole
    exact ⟨⟨registers, memory, s.rowPend v x, perm, rfl, rfl, rfl, rfl, rfl⟩,
      registers', memory', s.tileStart v x, tile, rfl, rfl, rfl, rfl, rfl, rfl, rfl, perm', events⟩

end Sys2Proof.Machine

namespace Sys2Proof.Machine

/-! ## Tile elements

### Numbers built from elements

A row is the sum of its elements at their places; its masks and flags are gathered bit by bit. -/

/-- The first n elements of width w at their places. -/
def packed (w : Nat) (g : Nat → Nat) : Nat → Nat
  | 0 => 0
  | n + 1 => packed w g n + g n * 2 ^ (w * n)

/-- The bits of the first n numbers together. -/
def gathered (g : Nat → Nat) : Nat → Nat
  | 0 => 0
  | n + 1 => gathered g n ||| g n

theorem foldl_add_eq (w : Nat) (g : Nat → Nat) (n : Nat) :
    (List.range n).foldl (fun acc j => acc + g j * 2 ^ (w * j)) 0 = packed w g n := by
  induction n with
  | zero => rfl
  | succ n ih => rw [List.range_succ, List.foldl_append, ih]; rfl

theorem foldl_or_eq (g : Nat → Nat) (n : Nat) : (List.range n).foldl (fun acc j => acc ||| g j) 0 = gathered g n := by
  induction n with
  | zero => rfl
  | succ n ih => rw [List.range_succ, List.foldl_append, ih]; rfl

/-- A list of n values with their places. -/
theorem zipIdx_map_range {α : Type} (h : Nat → α) (n : Nat) : ((List.range n).map h).zipIdx = (List.range n).map fun j => (h j, j) :=
  List.ext_getElem (by simp) fun i _ _ => by simp

section
variable {w n : Nat} {g : Nat → Nat}

theorem lane_lt (w row i : Nat) : lane w row i < 2 ^ w := Nat.mod_lt _ (Nat.two_pow_pos w)

theorem packed_lt (small : ∀ i < n, g i < 2 ^ w) : packed w g n < 2 ^ (w * n) := by
  induction n with
  | zero => exact Nat.two_pow_pos _
  | succ n ih =>
    have below := ih fun i inside => small i (Nat.lt_succ_of_lt inside)
    have last : (g n + 1) * 2 ^ (w * n) ≤ 2 ^ w * 2 ^ (w * n) := Nat.mul_le_mul_right _ (small n (Nat.lt_succ_self n))
    rw [packed, Nat.mul_succ, Nat.pow_add, Nat.mul_comm (2 ^ (w * n))]
    rw [Nat.add_mul, Nat.one_mul] at last
    omega

/-- What stands above the first i + 1 elements does not show in element i. -/
theorem lane_add_high (w x y : Nat) {i n : Nat} (inside : i < n) : lane w (x + y * 2 ^ (w * n)) i = lane w x i := by
  obtain ⟨k, rfl⟩ := Nat.exists_eq_add_of_lt inside
  have split : y * 2 ^ (w * (i + k + 1)) = 2 ^ (w * i) * (2 ^ w * (y * 2 ^ (w * k))) := by
    rw [show w * (i + k + 1) = w * i + (w + w * k) by ring, Nat.pow_add, Nat.pow_add]
    ring
  rw [lane, lane, split, Nat.add_mul_div_left _ _ (Nat.two_pow_pos _), Nat.add_mul_mod_self_left]

theorem lane_packed (small : ∀ i < n, g i < 2 ^ w) {i : Nat} (inside : i < n) : lane w (packed w g n) i = g i := by
  induction n with
  | zero => exact absurd inside (Nat.not_lt_zero i)
  | succ n ih =>
    have before : ∀ i < n, g i < 2 ^ w := fun i inside => small i (Nat.lt_succ_of_lt inside)
    rw [packed]
    rcases Nat.lt_succ_iff_lt_or_eq.1 inside with earlier | rfl
    · rw [lane_add_high w _ _ earlier, ih before earlier]
    · rw [lane, Nat.add_mul_div_right _ _ (Nat.two_pow_pos _), Nat.div_eq_of_lt (packed_lt before), Nat.zero_add,
        Nat.mod_eq_of_lt (small i inside)]

theorem testBit_gathered {b : Nat} : (gathered g n).testBit b = true ↔ ∃ i < n, (g i).testBit b = true := by
  induction n with
  | zero => simp [gathered]
  | succ n ih => rw [gathered, Nat.testBit_or, Bool.or_eq_true, ih, Nat.exists_lt_succ_right]

theorem gathered_zero (zero : ∀ i < n, g i = 0) : gathered g n = 0 := by
  induction n with
  | zero => rfl
  | succ n ih => rw [gathered, ih fun i inside => zero i (Nat.lt_succ_of_lt inside), zero n (Nat.lt_succ_self n)]; rfl

end

/-! ### Elements with their masks and flags (R129, R213, R214) -/

/-- The widths of the elements that tile operations write; of 4 bits only `tpack` writes some. -/
def ElementWidth (w : Nat) : Prop := w = 4 ∨ w = 8 ∨ w = 16 ∨ w = 32

/-- An element and its flags have their widths. -/
structure Fits (w : Nat) (r : Nat × Flags) : Prop where
  value : r.1 < 2 ^ w
  flags : r.2 < 32

theorem testBit_elemMask (w i b : Nat) :
    (elemMask w i).testBit b = true ↔ byteOf w i ≤ b ∧ b < byteOf w i + max 8 w / 8 := by
  rw [elemMask, Nat.testBit_mul_two_pow, Nat.testBit_two_pow_sub_one]
  simp only [Bool.and_eq_true, decide_eq_true_eq]
  omega

theorem testBit_flagsAt {fl : Flags} (small : fl < 32) (w i l : Nat) {k : Nat} (flag : k < 5) :
    (flagsAt w i fl).testBit (5 * l + k) = true ↔ byteOf w i / 4 = l ∧ fl.testBit k = true := by
  rw [flagsAt, Nat.testBit_mul_two_pow, Bool.and_eq_true, decide_eq_true_eq]
  constructor
  · rintro ⟨above, set⟩
    have inside : 5 * l + k - 5 * (byteOf w i / 4) < 5 := by
      refine Nat.lt_of_not_le fun out => ?_
      rw [Nat.testBit_lt_two_pow (small.trans_le (Nat.pow_le_pow_right (n := 2) (by decide) out))] at set
      exact Bool.false_ne_true set
    have same : byteOf w i / 4 = l := by omega
    rw [same, Nat.add_sub_cancel_left] at set
    exact ⟨same, set⟩
  · rintro ⟨rfl, set⟩
    rw [Nat.add_sub_cancel_left]
    exact ⟨Nat.le_add_right .., set⟩

section
variable {o : VOut} {w n : Nat} {on : Nat → Bool} {g g' : Nat → Nat} {fl fl' : Nat → Flags}

/-- A row of which each element that is on is written at its place. `alike` says that elements of one byte are on together. -/
theorem rowValues_of (width : ElementWidth w) (val : o.val = packed w (fun i => if on i then g i else 0) n)
    (mask : o.mask = gathered (fun i => if on i then elemMask w i else 0) n) (small : ∀ i < n, on i = true → g i < 2 ^ w)
    (alike : ∀ i j, byteOf w i = byteOf w j → on i = on j) : RowValues o w n on g := by
  intro i inside
  constructor
  · intro k low
    have bit {j : Nat} : byteOf w j ≤ byteOf w i + k ∧ byteOf w i + k < byteOf w j + max 8 w / 8 ↔ byteOf w i = byteOf w j := by
      unfold byteOf
      rcases width with rfl | rfl | rfl | rfl <;> omega
    rw [mask, show w * i / 8 = byteOf w i from rfl, Bool.eq_iff_iff, testBit_gathered]
    constructor
    · rintro ⟨j, -, set⟩
      cases here : on j with
      | false => simp [here] at set
      | true =>
        rw [here, if_pos rfl, testBit_elemMask, bit] at set
        rw [alike i j set, here]
    · intro here
      exact ⟨i, inside, by rw [here, if_pos rfl, testBit_elemMask, bit]⟩
  · rw [val, lane_packed (fun j inside => ?_) inside]
    split
    · next here => exact small j inside here
    · exact Nat.two_pow_pos w

theorem rowFlags_of (tfl : o.tfl = gathered (fun i => if on i then flagsAt w i (fl i) else 0) n)
    (small : ∀ i < n, on i = true → fl i < 32) : RowFlags o w n on fl := by
  intro l _ k flag
  rw [tfl, testBit_gathered]
  refine exists_congr fun i => and_congr_right fun inside => ?_
  cases here : on i with
  | false => simp
  | true =>
    rw [if_pos rfl, testBit_flagsAt (small i inside here) w i l flag, byteOf, Nat.div_div_eq_div_mul]
    simp

theorem RowValues.congr (same : ∀ i < n, on i = true → g i = g' i) (row : RowValues o w n on g) : RowValues o w n on g' := by
  intro i inside
  obtain ⟨mask, value⟩ := row i inside
  refine ⟨mask, value.trans ?_⟩
  split
  · next here => exact same i inside here
  · rfl

theorem RowFlags.congr (same : ∀ i < n, on i = true → fl i = fl' i) (row : RowFlags o w n on fl) : RowFlags o w n on fl' := by
  intro l lane k flag
  rw [row l lane k flag]
  refine exists_congr fun i => and_congr_right fun inside => and_congr_right fun here => ?_
  rw [same i inside here]

theorem RowIs.congr {g g' : Nat → Nat × Flags} (row : RowIs o w n on g) (same : ∀ i < n, on i = true → g i = g' i) :
    RowIs o w n on g' :=
  ⟨row.1.congr fun i inside here => congrArg Prod.fst (same i inside here),
    row.2.congr fun i inside here => congrArg Prod.snd (same i inside here)⟩

end

section
variable {w : Nat} (n guard : Nat) (f : Nat → Option (Nat × Flags))

/-- The elements that a row writes. -/
def writtenOf (w guard : Nat) (f : Nat → Option (Nat × Flags)) (i : Nat) : Bool := guard.testBit (w * i / 8) && (f i).isSome

theorem mkRow_eq : mkRow w n guard f =
    { val := packed w (fun i => if writtenOf w guard f i then ((f i).getD (0, 0)).1 else 0) n
      mask := gathered (fun i => if writtenOf w guard f i then elemMask w i else 0) n
      tfl := gathered (fun i => if writtenOf w guard f i then flagsAt w i ((f i).getD (0, 0)).2 else 0) n } := by
  induction n with
  | zero => rfl
  | succ n ih =>
    have step : mkRow w (n + 1) guard f =
        let o := mkRow w n guard f
        if guard.testBit (byteOf w n) then
          match f n with
          | .some (x, fl) => { val := o.val + x * 2 ^ (w * n), mask := o.mask ||| elemMask w n, tfl := o.tfl ||| flagsAt w n fl }
          | .none => o
        else o := by
      rw [mkRow, List.range_succ, List.foldl_append]
      rfl
    rw [step, ih]
    simp only [packed, gathered, writtenOf, byteOf]
    by_cases on : guard.testBit (w * n / 8) = true
    · rcases (f n).eq_none_or_eq_some with none | ⟨r, some⟩
      · simp [on, none]
      · simp [on, some]
    · simp [on]

variable {n guard f}

/-- A row written element by element. -/
theorem mkRow_is (width : ElementWidth w) (fits : ∀ i < n, Fits w ((f i).getD (0, 0)))
    (alike : ∀ i j, byteOf w i = byteOf w j → (f i).isSome = (f j).isSome) :
    RowIs (mkRow w n guard f) w n (writtenOf w guard f) fun i => (f i).getD (0, 0) := by
  rw [mkRow_eq]
  refine ⟨rowValues_of width rfl rfl (fun i inside _ => (fits i inside).value) fun i j same => ?_,
    rowFlags_of rfl fun i inside _ => (fits i inside).flags⟩
  rw [writtenOf, writtenOf, alike i j same]
  exact congrArg (fun b => guard.testBit b && _) same

/-- A row of which every element that the guard enables is written. -/
theorem mkRow_all_is {g : Nat → Nat × Flags} (width : ElementWidth w) (fits : ∀ i < n, Fits w (g i)) :
    RowIs (mkRow w n guard fun i => .some (g i)) w n (fun i => guard.testBit (w * i / 8)) g := by
  have row := mkRow_is (guard := guard) (f := fun i => .some (g i)) width fits fun _ _ _ => rfl
  rwa [show writtenOf w guard (fun i => .some (g i)) = fun i => guard.testBit (w * i / 8) from funext fun i => Bool.and_true _] at row

end

/-- A row moved element by element raises no flag. -/
theorem moveRow_is {v : VIn} {w : Nat} {g : Nat → Nat} (width : ElementWidth w) (fits : ∀ i < 512 / w, g i < 2 ^ w) :
    RowIs (moveRow v w g) w (512 / w) (fun i => v.guard.testBit (w * i / 8)) fun i => (g i, 0) :=
  mkRow_all_is width fun i inside => ⟨fits i inside, (by decide : 0 < 32)⟩

theorem bl_lt (v : VIn) (w i : Nat) : v.bl w i < 2 ^ w := by
  unfold VIn.bl
  split
  · exact Nat.mod_lt _ (Nat.two_pow_pos w)
  · exact lane_lt ..

/-- An operation lane by lane. -/
theorem lanes2_is {v : VIn} {w : Nat} {g : Nat → Nat → Nat → Nat × Flags} (width : ElementWidth w)
    (fits : ∀ a b d, a < 2 ^ w → b < 2 ^ w → d < 2 ^ w → Fits w (g a b d)) :
    RowIs (lanes2 v w g) w (512 / w) (fun i => v.guard.testBit (w * i / 8)) fun i => g (lane w v.a i) (v.bl w i) (lane w v.d i) :=
  mkRow_all_is width fun _ _ => fits _ _ _ (lane_lt ..) (bl_lt ..) (lane_lt ..)

end Sys2Proof.Machine

namespace Sys2Proof.Machine

/-! ### Integer elements (R34, R216, R217) -/

/-- The widths of the integer formats of tiles. -/
def IntWidth (w : Nat) : Prop := w = 8 ∨ w = 16 ∨ w = 32

theorem IntWidth.element {w : Nat} (width : IntWidth w) : ElementWidth w := .inr width

theorem tileFmt_int {f : Nat} {sg : Bool} {w : Nat} (int : tileFmt f = .int sg w) : IntWidth w ∧ (f = 6 ↔ sg = false) := by
  unfold tileFmt at int
  unfold IntWidth
  split at int <;> simp_all

/-- The number that a pattern of w bits stands for. -/
def intVal (sg : Bool) (w z : Nat) : Int := if sg && z.testBit (w - 1) then (z : Int) - 2 ^ w else z

section
variable {sg : Bool} {w x : Nat}

theorem intOf_eq (small : x < 2 ^ w) : intOf sg w x = intVal sg w x := by
  rw [intOf, Nat.mod_eq_of_lt small]
  rfl

theorem intBits_lt (w : Nat) (v : Int) : intBits w v < 2 ^ w := by
  have bound := Int.emod_lt_of_pos v (show (0 : Int) < 2 ^ w by positivity)
  have nonneg := Int.emod_nonneg v (show (2 ^ w : Int) ≠ 0 by positivity)
  rw [intBits]
  zify
  rwa [Int.toNat_of_nonneg nonneg]

theorem wrap_fits (w : Nat) (v : Int) : Fits w (intBits w v, 0) := ⟨intBits_lt w v, (by decide : 0 < 32)⟩

theorem satInt_fits (sg : Bool) (w : Nat) (v : Int) : Fits w (satInt sg w v) := by
  unfold satInt
  split
  · exact ⟨intBits_lt .., (by decide : 4 < 32)⟩
  split
  · exact ⟨intBits_lt .., (by decide : 4 < 32)⟩
  · exact wrap_fits ..

theorem wrapOrSat_fits (sat sg : Bool) (w : Nat) (v : Int) : Fits w (wrapOrSat sat sg w v) := by
  cases sat
  · exact wrap_fits ..
  · exact satInt_fits ..

/-- Saturation is a clamp to the range of the format, with OF outside it. -/
theorem satInt_eq (sg : Bool) (w : Nat) (v : Int) : satInt sg w v =
    (intBits w (max (intLo sg w) (min (intHi sg w) v)), if v < intLo sg w ∨ intHi sg w < v then flOF else 0) := by
  have order : intLo sg w ≤ intHi sg w := by
    have low : (0 : Int) < 2 ^ (w - 1) := by positivity
    have high : (0 : Int) < 2 ^ w := by positivity
    cases sg <;> simp only [intLo, intHi, Bool.false_eq_true, if_true, if_false] <;> omega
  unfold satInt
  split
  · next above => rw [min_eq_left above.le, max_eq_right order, if_pos (.inr above)]
  · next inside =>
    rw [min_eq_right (not_lt.1 inside)]
    split
    · next below => rw [max_eq_left below.le, if_pos (.inl below)]
    · next above => rw [max_eq_right (not_lt.1 above), if_neg (by tauto)]

/-- The bits that a left funnel shift by n shifts in and out. -/
theorem funnel_eq (w a b n : Nat) : funnel w a b n = (a * 2 ^ w + b) * 2 ^ n / 2 ^ w % 2 ^ w := by
  rw [funnel, Nat.two_mul, Nat.pow_add, Nat.mod_mul_right_div_self]

end

/-- The operations of TINT. -/
def VOp.isTint : VOp → Bool
  | .add _ | .sub _ | .mul _ | .mulh | .min | .max | .and | .or | .xor | .shl | .shr | .sra | .fsh | .abs _ | .negSat => true
  | _ => false

theorem tintElem_fits {op : VOp} {sg : Bool} {w a b d : Nat} (ha : a < 2 ^ w) (hb : b < 2 ^ w) : Fits w (tintElem op sg w a b d) := by
  have plain {x : Nat} (small : x < 2 ^ w) : Fits w (x, 0) := ⟨small, (by decide : 0 < 32)⟩
  cases op with
  | add | sub | mul | abs => exact wrapOrSat_fits ..
  | negSat => exact satInt_fits ..
  | mulh | min | max | sra => exact wrap_fits ..
  | and => exact plain (Nat.and_lt_two_pow _ hb)
  | or => exact plain (Nat.or_lt_two_pow ha hb)
  | xor => exact plain (Nat.xor_lt_two_pow ha hb)
  | shl => exact plain (Nat.mod_lt _ (Nat.two_pow_pos w))
  | shr => exact plain ((Nat.div_le_self ..).trans_lt ha)
  | fsh =>
    refine plain ?_
    rw [funnel_eq]
    exact Nat.mod_lt _ (Nat.two_pow_pos w)
  | _ => exact plain (Nat.two_pow_pos w)

section
variable {f : Nat} {sg : Bool} {w : Nat} (int : tileFmt f = .int sg w) (whole : Bool) (v : VIn)
include int

theorem vRow_tint {op : VOp} (is : op.isTint = true) : vRow op f whole v = lanes2 v w (tintElem op sg w) := by
  cases op with
  | add | sub | mul | mulh | min | max | and | or | xor | shl | shr | sra | fsh | abs | negSat => rw [vRow, int]; rfl
  | _ => exact absurd is Bool.false_ne_true

/-- A TINT operation gives each element the value g, where that is what the operation makes of elements of w bits. -/
theorem tint_is {op : VOp} (is : op.isTint = true) {g : Nat → Nat × Flags}
    (value : ∀ i, tintElem op sg w (lane w v.a i) (v.bl w i) (lane w v.d i) = g i) :
    RowIs (vRow op f whole v) w (512 / w) (fun i => v.guard.testBit (w * i / 8)) g := by
  rw [vRow_tint int whole v is]
  exact (lanes2_is (tileFmt_int int).1.element fun a b d ha hb _ => tintElem_fits ha hb).congr fun i _ _ => value i

end

/-! ### Compares (R226) -/

/-- A compare's row, and its flags. -/
theorem cmpRow_is {v : VIn} {whole : Bool} {w : Nat} {g : Nat → Nat → Bool × Flags} (width : IntWidth w)
    (small : ∀ a b, (g a b).2 < 32) :
    RowCompares (cmpRow v whole w g) whole w (512 / w) (fun i => v.guard.testBit (w * i / 8))
      (fun i => (g (lane w v.a i) (v.bl w i)).1) ∧
    RowFlags (cmpRow v whole w g) w (512 / w) (fun i => v.guard.testBit (w * i / 8)) fun i => (g (lane w v.a i) (v.bl w i)).2 := by
  have elements := lanes2_is (v := v) (w := w) (g := fun a b _ => (if (g a b).1 then 2 ^ w - 1 else 0, (g a b).2)) width.element
    fun a b _ _ _ _ => ⟨by have := Nat.two_pow_pos w; dsimp only; split <;> omega, small a b⟩
  cases whole with
  | true => exact elements
  | false =>
    refine ⟨⟨rfl, fun i inside k low => ?_⟩, elements.2⟩
    set o := lanes2 v w fun a b _ => (if (g a b).1 then 2 ^ w - 1 else 0, (g a b).2) with row
    have bits : (cmpRow v false w g).val = gathered (fun i => if lane w o.val i = 0 then 0 else elemMask w i) (512 / w) := by
      rw [← foldl_or_eq]
      refine congrArg (fun h => (List.range (512 / w)).foldl h 0) (funext fun p => funext fun i => ?_)
      show (if lane w o.val i = 0 then p else p ||| elemMask w i) = _
      split
      · exact (Nat.or_zero p).symm
      · rfl
    have place {j : Nat} : byteOf w j ≤ w * i / 8 + k ∧ w * i / 8 + k < byteOf w j + max 8 w / 8 ↔ i = j := by
      unfold byteOf
      rcases width with rfl | rfl | rfl <;> omega
    have ones : 2 ^ w - 1 ≠ 0 := by rcases width with rfl | rfl | rfl <;> decide
    have set_iff : lane w o.val i ≠ 0 ↔ ((g (lane w v.a i) (v.bl w i)).1 && v.guard.testBit (w * i / 8)) = true := by
      rw [(elements.1 i inside).2, Bool.and_eq_true]
      dsimp only
      split
      · next en =>
        split
        · next p => exact iff_of_true ones ⟨p, en⟩
        · next p => exact iff_of_false (not_not.2 rfl) fun both => p both.1
      · next en => exact iff_of_false (not_not.2 rfl) fun both => en both.2
    rw [bits, Bool.eq_iff_iff, testBit_gathered, ← set_iff]
    constructor
    · rintro ⟨j, -, set⟩
      split at set
      · simp at set
      · next on =>
        obtain rfl := place.1 ((testBit_elemMask ..).1 set)
        exact on
    · intro on
      exact ⟨i, inside, by rw [if_neg on, testBit_elemMask]; exact place.2 rfl⟩

/-- A compare without flags. -/
theorem cmpRow_tfl {v : VIn} {whole : Bool} {w : Nat} {g : Nat → Nat → Bool} :
    (cmpRow v whole w fun a b => (g a b, 0)).tfl = 0 := by
  have none : (lanes2 v w fun a b _ => (if g a b then 2 ^ w - 1 else 0, 0)).tfl = 0 := by
    rw [lanes2, mkRow_eq]
    refine gathered_zero fun i _ => ?_
    split
    · exact Nat.zero_mul _
    · rfl
  cases whole <;> exact none

theorem icmp_is {f : Nat} {sg : Bool} {w : Nat} (int : tileFmt f = .int sg w) (whole : Bool) (v : VIn) {c : Nat} {p : Nat → Bool}
    (value : ∀ i, icmpElem c sg w (lane w v.a i) (v.bl w i) = p i) :
    RowCompares (vRow (.icmp c) f whole v) whole w (512 / w) (fun i => v.guard.testBit (w * i / 8)) p ∧
      (vRow (.icmp c) f whole v).tfl = 0 := by
  have row : vRow (.icmp c) f whole v = cmpRow v whole w fun a b => (icmpElem c sg w a b, 0) := by rw [vRow, int]; rfl
  rw [row, ← funext value]
  exact ⟨(cmpRow_is (tileFmt_int int).1 fun _ _ => (by decide : 0 < 32)).1, cmpRow_tfl⟩

end Sys2Proof.Machine

namespace Sys2Proof.Machine

/-! ### Reductions (R237)

The pairs of each level are the nodes of the tree above it, so that after g levels the list holds the first elements of the groups. -/

/-- Two elements of a level combined, with the flags of both and of their combination. -/
def combined (step : Nat → Nat → Nat × Flags) (p q : Nat × Flags) : Nat × Flags :=
  ((step p.1 q.1).1, p.2 ||| q.2 ||| (step p.1 q.1).2)

/-- A list of leaves after some levels. -/
def redLevels (step : Nat → Nat → Nat × Flags) (leaves : List (Nat × Flags)) : Nat → List (Nat × Flags)
  | 0 => leaves
  | l + 1 => redPairs step (redLevels step leaves l)

theorem redPairs_map (step : Nat → Nat → Nat × Flags) (k : Nat) (h : Nat → Nat × Flags) :
    redPairs step ((List.range (2 * k)).map h) = (List.range k).map fun i => combined step (h (2 * i)) (h (2 * i + 1)) := by
  induction k generalizing h with
  | zero => rfl
  | succ k ih =>
    have rest := ih fun i => h (i + 2)
    rw [Nat.mul_succ, List.range_succ_eq_map, List.range_succ_eq_map, List.range_succ_eq_map (n := k)]
    simp only [List.map_cons, List.map_map]
    exact congrArg (List.cons _) rest

theorem foldl_or_if (c : Nat → Bool) (g : Nat → Nat) (n : Nat) :
    (List.range n).foldl (fun acc j => if c j then acc ||| g j else acc) 0 = gathered (fun j => if c j then g j else 0) n := by
  rw [← foldl_or_eq]
  refine congrArg (fun h => (List.range n).foldl h 0) (funext fun acc => funext fun j => ?_)
  cases c j
  · exact (Nat.or_zero acc).symm
  · rfl

theorem foldl_redPairs (step : Nat → Nat → Nat × Flags) (leaves : List (Nat × Flags)) (g : Nat) :
    (List.range g).foldl (fun l _ => redPairs step l) leaves = redLevels step leaves g := by
  induction g with
  | zero => rfl
  | succ g ih => rw [List.range_succ, List.foldl_append, ih]; rfl

/-- The tree of R237 up to level g over 2^m leaves. -/
structure Tree (step : Nat → Nat → Nat × Flags) (read : Nat → Nat) (m g : Nat) (t : Nat → Nat → Nat × Flags) : Prop where
  leaf : ∀ i < 2 ^ m, t 0 i = (read i, 0)
  node : ∀ l < g, ∀ i < 2 ^ m, i % 2 ^ (l + 1) = 0 → t (l + 1) i = combined step (t l i) (t l (i + 2 ^ l))

/-- The first element of group j of a level. -/
theorem group_first {m l j : Nat} (within : l ≤ m) : j * 2 ^ l < 2 ^ m ↔ j < 2 ^ (m - l) := by
  rw [← Nat.sub_add_cancel within, Nat.pow_add, Nat.add_sub_cancel]
  exact Nat.mul_lt_mul_right (Nat.two_pow_pos l)

namespace Tree
variable {step : Nat → Nat → Nat × Flags} {read : Nat → Nat} {m g w : Nat} {t : Nat → Nat → Nat × Flags}

/-- A node stands above group 2j of the level below it and the next group. -/
theorem node_first (tree : Tree step read m g t) (within : g ≤ m) {l j : Nat} (below : l < g) (inside : j < 2 ^ (m - (l + 1))) :
    t (l + 1) (j * 2 ^ (l + 1)) = combined step (t l (2 * j * 2 ^ l)) (t l ((2 * j + 1) * 2 ^ l)) := by
  have first := (group_first (m := m) (l := l + 1) (by omega)).2 inside
  rw [tree.node l below _ first (Nat.mul_mod_left ..)]
  have left : j * 2 ^ (l + 1) = 2 * j * 2 ^ l := by ring
  have right : j * 2 ^ (l + 1) + 2 ^ l = (2 * j + 1) * 2 ^ l := by ring
  rw [right, left]

theorem fits (tree : Tree step read m g t) (within : g ≤ m) (small : ∀ i < 2 ^ m, read i < 2 ^ w)
    (keeps : ∀ x y, x < 2 ^ w → y < 2 ^ w → Fits w (step x y)) {l : Nat} (level : l ≤ g) :
    ∀ j < 2 ^ (m - l), Fits w (t l (j * 2 ^ l)) := by
  induction l with
  | zero =>
    intro j inside
    rw [Nat.pow_zero, Nat.mul_one, tree.leaf j inside]
    exact ⟨small j inside, (by decide : 0 < 32)⟩
  | succ l ih =>
    intro j inside
    have half : 2 ^ (m - l) = 2 * 2 ^ (m - (l + 1)) := by rw [← Nat.pow_succ']; congr 1; omega
    have left := ih (by omega) (2 * j) (by omega)
    have right := ih (by omega) (2 * j + 1) (by omega)
    have both := keeps _ _ left.value right.value
    rw [tree.node_first within level inside]
    exact ⟨both.value, Nat.or_lt_two_pow (n := 5) (Nat.or_lt_two_pow (n := 5) left.flags right.flags) both.flags⟩

/-- The list may be combined by any function that agrees with the tree's on patterns of w bits. -/
theorem levels (tree : Tree step read m g t) (within : g ≤ m) (small : ∀ i < 2 ^ m, read i < 2 ^ w)
    (keeps : ∀ x y, x < 2 ^ w → y < 2 ^ w → Fits w (step x y)) {step' : Nat → Nat → Nat × Flags}
    (agree : ∀ x y, x < 2 ^ w → y < 2 ^ w → step' x y = step x y) {l : Nat} (level : l ≤ g) :
    redLevels step' ((List.range (2 ^ m)).map fun i => (read i, 0)) l = (List.range (2 ^ (m - l))).map fun j => t l (j * 2 ^ l) := by
  induction l with
  | zero =>
    refine List.map_congr_left fun i inside => ?_
    rw [Nat.pow_zero, Nat.mul_one, tree.leaf i (List.mem_range.1 inside)]
  | succ l ih =>
    have half : 2 ^ (m - l) = 2 * 2 ^ (m - (l + 1)) := by rw [← Nat.pow_succ']; congr 1; omega
    have fits := tree.fits within small keeps (l := l) (by omega)
    rw [redLevels, ih (by omega), half, redPairs_map]
    refine List.map_congr_left fun j inside => ?_
    have inside := List.mem_range.1 inside
    rw [tree.node_first within level inside, combined, combined,
      agree _ _ (fits (2 * j) (by omega)).value (fits (2 * j + 1) (by omega)).value]

end Tree

/-- `tred` on the elements of width w that `read` gives. -/
def redOf (v : VIn) (w : Nat) (read : Nat → Nat) (step : Nat → Nat → Nat × Flags) : VOut :=
  let n := 512 / w
  let g := min (v.bl 32 0 % 8) (Nat.log2 n)
  let groups := (List.range g).foldl (fun l _ => redPairs step l) ((List.range n).map fun i => (read i, 0))
  let o := mkRow w n v.guard fun i => .some ((groups.getD (i / 2 ^ g) (0, 0)).1, 0)
  let any (j : Nat) : Bool := (List.range (2 ^ g)).any fun i => v.guard.testBit (byteOf w (j * 2 ^ g + i))
  { o with tfl := (groups.zipIdx).foldl (fun acc p => if any p.2 then acc ||| flagsAt w (p.2 * 2 ^ g) p.1.2 else acc) 0 }

theorem IntWidth.elements {w : Nat} (width : IntWidth w) : ∃ m, 512 / w = 2 ^ m := by
  rcases width with rfl | rfl | rfl
  · exact ⟨6, rfl⟩
  · exact ⟨5, rfl⟩
  · exact ⟨4, rfl⟩

/-- A group's elements take the value at the group's first one, and its flags go there. -/
theorem redOf_is (v : VIn) {w : Nat} (width : IntWidth w) {read : Nat → Nat} {step step' : Nat → Nat → Nat × Flags}
    (small : ∀ i, read i < 2 ^ w) (agree : ∀ x y, x < 2 ^ w → y < 2 ^ w → step' x y = step x y)
    (keeps : ∀ x y, x < 2 ^ w → y < 2 ^ w → Fits w (step x y)) :
    RowReduces (redOf v w read step') w (512 / w) (min (v.bl 32 0 % 8) (Nat.log2 (512 / w))) (fun i => v.guard.testBit (w * i / 8)) read
      step := by
  obtain ⟨m, elements⟩ := width.elements
  rw [redOf]
  dsimp only
  rw [elements, Nat.log2_two_pow]
  generalize min (v.bl 32 0 % 8) m = g, Nat.min_le_right (v.bl 32 0 % 8) m = within
  intro t leaf node
  have tree : Tree step read m g t := ⟨leaf, fun l below i inside first => by
    obtain ⟨z, rfl, grown⟩ := node l below i inside first
    exact grown⟩
  have fits := tree.fits within (fun i _ => small i) keeps (le_refl g)
  rw [foldl_redPairs, tree.levels within (fun i _ => small i) keeps agree (le_refl g)]
  have group {i : Nat} (inside : i < 2 ^ m) : i / 2 ^ g < 2 ^ (m - g) :=
    (group_first within).1 ((Nat.div_mul_le_self ..).trans_lt inside)
  constructor
  · have value {i : Nat} (inside : i < 2 ^ m) :
        (((List.range (2 ^ (m - g))).map fun j => t g (j * 2 ^ g)).getD (i / 2 ^ g) (0, 0)).1 = (t g (i / 2 ^ g * 2 ^ g)).1 := by
      rw [List.getD_eq_getElem _ _ (by simpa using group inside)]
      simp
    refine RowValues.congr (fun i inside _ => value inside) (mkRow_all_is (g := fun i => (_, 0)) width.element fun i inside => ?_).1
    rw [value inside]
    exact ⟨(fits _ (group inside)).value, (by decide : 0 < 32)⟩
  · intro l lane k flag
    rw [zipIdx_map_range, List.foldl_map, foldl_or_if, testBit_gathered]
    constructor
    · rintro ⟨j, inside, set⟩
      have first := (group_first within).2 inside
      split at set
      · next some =>
        rw [testBit_flagsAt (fits j inside).flags _ _ _ flag, byteOf, Nat.div_div_eq_div_mul] at set
        refine ⟨j * 2 ^ g, first, ?_, set⟩
        exact Bool.and_eq_true_iff.2 ⟨beq_iff_eq.2 (Nat.mul_mod_left ..), some⟩
      · simp at set
    · rintro ⟨i, inside, first, place, set⟩
      obtain ⟨whole, some⟩ := Bool.and_eq_true_iff.1 first
      have multiple : i / 2 ^ g * 2 ^ g = i := Nat.div_mul_cancel (Nat.dvd_of_mod_eq_zero (beq_iff_eq.1 whole))
      refine ⟨i / 2 ^ g, group inside, ?_⟩
      have on : ((List.range (2 ^ g)).any fun k => v.guard.testBit (byteOf w (i / 2 ^ g * 2 ^ g + k))) = true := by rwa [multiple]
      rw [if_pos on, testBit_flagsAt (fits _ (group inside)).flags _ _ _ flag, multiple, byteOf, Nat.div_div_eq_div_mul]
      exact ⟨place, set⟩

end Sys2Proof.Machine

namespace Sys2Proof.Machine

/-! ### What integer operations make of a row (R216, R217, R226, R236, R237) -/

section
variable {f : Nat} {sg : Bool} {w : Nat} (int : tileFmt f = .int sg w) (whole : Bool) (v : VIn)
include int

/-- A reduction of integers, whose step is one on their values. -/
theorem redInt_is {op : VOp} {step : Int → Int → Int} (row : vRow op f whole v = redRow v op f)
    (value : ∀ x y, redStep op (.int sg w) v.rm v.flush x y = (intBits w (step (intOf sg w x) (intOf sg w y)), 0)) :
    RowReduces (vRow op f whole v) w (512 / w) (min (v.bl 32 0 % 8) (Nat.log2 (512 / w))) (fun i => v.guard.testBit (w * i / 8))
      (fun i => lane w v.a i) fun p q => (intBits w (step (intVal sg w p) (intVal sg w q)), 0) := by
  have same : vRow op f whole v = redOf v w (fun i => lane w v.a i) (redStep op (.int sg w) v.rm v.flush) := by
    rw [row, redRow, int]
    rfl
  rw [same]
  refine redOf_is v (tileFmt_int int).1 (fun i => lane_lt ..) (fun x y hx hy => ?_) fun _ _ _ _ => wrap_fits ..
  rw [value, intOf_eq hx, intOf_eq hy]

/-- The halves of the elements of ta, then of those of tb. -/
theorem packInt_is : RowIs (vRow .pack f whole v) (w / 2) (2 * (512 / w)) (fun i => v.guard.testBit (w / 2 * i / 8)) fun i =>
    ((if i < 512 / w then lane w v.a i else lane w v.b (i - 512 / w)) % 2 ^ (w / 2), 0) := by
  have half : ElementWidth (w / 2) := by
    rcases (tileFmt_int int).1 with rfl | rfl | rfl
    · exact .inl rfl
    · exact .inr (.inl rfl)
    · exact .inr (.inr (.inl rfl))
  rw [vRow, int]
  exact mkRow_all_is half fun i _ => ⟨Nat.mod_lt _ (Nat.two_pow_pos _), (by decide : 0 < 32)⟩

omit int in
/-- An element of h bits extended by its sign. -/
theorem intBits_extend {h w c : Nat} (more : h < w) (small : c < 2 ^ h) :
    intBits w (intOf true h c) = if c.testBit (h - 1) then 2 ^ w - 2 ^ h + c else c := by
  have wider : (2 : Int) ^ h < 2 ^ w := pow_lt_pow_right₀ (by decide) more
  have wider' : 2 ^ h < 2 ^ w := Nat.pow_lt_pow_right (by decide) more
  rw [intOf_eq small, intVal, intBits, Bool.true_and]
  split
  · have wrapped : ((c : Int) - 2 ^ h) % 2 ^ w = (2 ^ w - 2 ^ h + c : Nat) := by
      rw [← Int.add_emod_right]
      push_cast [Nat.cast_sub wider'.le]
      rw [Int.emod_eq_of_lt] <;> zify at small <;> omega
    rw [wrapped, Int.toNat_natCast]
  · exact_mod_cast Nat.mod_eq_of_lt (small.trans wider')

theorem unpkInt_is : RowIs (vRow .unpk f whole v) w (512 / w) (fun i => v.guard.testBit (w * i / 8)) fun i =>
    let c := lane (w / 2) v.a (v.bl 1 0 * (512 / w) + i)
    (if sg && c.testBit (w / 2 - 1) then 2 ^ w - 2 ^ (w / 2) + c else c, 0) := by
  obtain ⟨width, unsigned⟩ := tileFmt_int int
  have more : w / 2 < w := by rcases width with rfl | rfl | rfl <;> decide
  have value (i : Nat) : unpkElem f w (lane (w / 2) v.a (v.bl 1 0 * (512 / w) + i)) =
      let c := lane (w / 2) v.a (v.bl 1 0 * (512 / w) + i)
      if sg && c.testBit (w / 2 - 1) then 2 ^ w - 2 ^ (w / 2) + c else c := by
    rw [unpkElem]
    cases sg with
    | false => exact if_pos (unsigned.2 rfl)
    | true => exact (if_neg fun six => Bool.noConfusion (unsigned.1 six)).trans (intBits_extend more (lane_lt ..))
  have row : vRow .unpk f whole v = moveRow v w fun i => unpkElem f w (lane (w / 2) v.a (v.bl 1 0 * (512 / w) + i)) := by
    rw [vRow, int]
    rfl
  rw [row]
  refine (moveRow_is width.element fun i _ => ?_).congr fun i _ _ => congrArg (·, 0) (value i)
  rw [unpkElem]
  split
  · exact (lane_lt ..).trans (Nat.pow_lt_pow_right (by decide) more)
  · exact intBits_lt ..

end

theorem tileIntegers {f : Nat} {sg : Bool} (int : tileFmt f = .int sg (tileFmt f).width) (whole : Bool) (v : VIn) :
    TileIntegers f whole v sg := by
  unfold TileIntegers
  intro w n on a b d row val x y wrap lo hi clamp cmp red
  have int : tileFmt f = .int sg w := int
  have left (i : Nat) : intOf sg w (lane w v.a i) = x i := intOf_eq (lane_lt ..)
  have right (i : Nat) : intOf sg w (v.bl w i) = y i := intOf_eq (bl_lt ..)
  have tint {op : VOp} (is : op.isTint = true) {g : Nat → Nat × Flags} (value : ∀ i, tintElem op sg w (a i) (b i) (d i) = g i) :
      row op g := tint_is int whole v is value
  have plain {op : VOp} (is : op.isTint = true) {g : Int → Int → Int}
      (value : ∀ i, tintElem op sg w (a i) (b i) (d i) = (intBits w (g (intOf sg w (a i)) (intOf sg w (b i))), 0)) :
      row op fun i => wrap (g (x i) (y i)) := tint is fun i => by rw [value, left, right]; rfl
  have clamps {op : VOp} (is : op.isTint = true) {g : Int → Int → Int}
      (value : ∀ i, tintElem op sg w (a i) (b i) (d i) = satInt sg w (g (intOf sg w (a i)) (intOf sg w (b i)))) :
      row op fun i => clamp (g (x i) (y i)) := tint is fun i => by rw [value, left, right, satInt_eq]; rfl
  have compare {c : Nat} {p : Int → Int → Bool}
      (value : ∀ i, icmpElem c sg w (a i) (b i) = p (intOf sg w (a i)) (intOf sg w (b i))) :
      cmp c fun i => p (x i) (y i) := icmp_is int whole v fun i => by rw [value, left, right]
  refine ⟨plain (g := (· + ·)) rfl fun _ => rfl, plain (g := (· - ·)) rfl fun _ => rfl, plain (g := (· * ·)) rfl fun _ => rfl,
    clamps (g := (· + ·)) rfl fun _ => rfl, clamps (g := (· - ·)) rfl fun _ => rfl, clamps (g := (· * ·)) rfl fun _ => rfl,
    plain (g := fun x y => x * y / 2 ^ w) rfl fun _ => rfl, plain (g := min) rfl fun _ => rfl, plain (g := max) rfl fun _ => rfl,
    tint rfl fun _ => rfl, tint rfl fun _ => rfl, tint rfl fun _ => rfl, tint rfl fun _ => rfl, tint rfl fun _ => rfl,
    tint rfl fun i => ?_, tint rfl fun i => ?_,
    plain (g := fun x _ => x.natAbs) rfl fun _ => rfl, clamps (g := fun x _ => x.natAbs) rfl fun _ => rfl,
    clamps (g := fun x _ => -x) rfl fun _ => rfl,
    compare (p := fun x y => decide (x = y)) fun _ => rfl, compare (p := fun x y => decide (x ≠ y)) fun _ => rfl,
    compare (p := fun x y => decide (x < y)) fun _ => rfl, compare (p := fun x y => decide (x ≤ y)) fun _ => rfl,
    compare (p := fun x y => decide (y < x)) fun _ => rfl, compare (p := fun x y => decide (y ≤ x)) fun _ => rfl,
    redInt_is int whole v rfl fun _ _ => rfl, redInt_is int whole v rfl fun _ _ => rfl, redInt_is int whole v rfl fun _ _ => rfl,
    packInt_is int whole v, unpkInt_is int whole v⟩
  · show (sraBits w (a i) (b i % w), 0) = _
    rw [sraBits, intOf_eq (lane_lt ..)]
    rfl
  · exact congrArg (·, 0) (funnel_eq ..)

/-! ### Moves (R235, R236, R238) -/

/-- The widths of all tile formats. -/
theorem tileFmt_width (f : Nat) : IntWidth (tileFmt f).width := by
  unfold tileFmt IntWidth
  split <;> decide

section
variable (rows : List Row512) (r i : Nat)

theorem transElem_16 {w : Nat} (width : w = 16) : transElem rows w r i = lane w (rows.getD i 0).toNat r := by
  subst width
  rfl

theorem transElem_8 {w : Nat} (width : w = 8) : transElem rows w r i =
    if i < 32 then lane w (rows.getD i 0).toNat r else lane w (rows.getD (i - 32) 0).toNat (32 + r) := by
  subst width
  rfl

theorem transElem_32 {w : Nat} (width : w = 32) : transElem rows w r i =
    if r < 16 then lane w (rows.getD i 0).toNat r else lane w (rows.getD (16 + i) 0).toNat (r - 16) := by
  subst width
  rfl

theorem transElem_lt {w : Nat} (width : IntWidth w) : transElem rows w r i < 2 ^ w := by
  rcases width with w8 | w16 | w32
  · rw [transElem_8 rows r i w8]
    split <;> exact lane_lt ..
  · rw [transElem_16 rows r i w16]
    exact lane_lt ..
  · rw [transElem_32 rows r i w32]
    split <;> exact lane_lt ..

end

theorem tileMoves (f : Nat) (whole : Bool) (v : VIn) : TileMoves f whole v := by
  unfold TileMoves
  intro w n a row of_
  have width : IntWidth w := tileFmt_width f
  have moves {op : VOp} {g : Nat → Nat} (small : ∀ i, g i < 2 ^ w) (same : vRow op f whole v = moveRow v w g) : row op g := by
    show RowIs _ _ _ _ _
    rw [same]
    exact moveRow_is width.element fun i _ => small i
  have trans : row .trans (transElem v.rows w v.r) := moves (fun i => transElem_lt v.rows v.r i width) rfl
  refine ⟨moves (fun _ => lane_lt ..) rfl, moves (bl_lt v w) rfl, moves (fun _ => lane_lt ..) rfl, ?_, moves (fun _ => lane_lt ..) rfl,
    ?_, fun w16 => ?_, fun w8 => ?_, fun w32 => ?_⟩
  · refine (moves (g := fun i => a ((i + n - v.bl 6 0 % n) % n)) (fun _ => lane_lt ..) rfl).congr fun i _ _ => ?_
    have inside : v.bl 6 0 % n ≤ n := (Nat.mod_lt _ (by rcases width with h | h | h <;> simp [n, h])).le
    exact congrArg (fun k => (a (k % n), 0)) (Nat.add_sub_assoc inside i)
  · refine (lanes2_is (g := fun a b d => (if d ≠ 0 then a else b, 0)) width.element fun a b d ha hb _ => ⟨?_, (by decide : 0 < 32)⟩)
    dsimp only
    split <;> assumption
  · exact trans.congr fun i _ _ => congrArg (·, 0) (transElem_16 v.rows v.r i w16)
  · exact trans.congr fun i _ _ => congrArg (·, 0) (transElem_8 v.rows v.r i w8)
  · exact trans.congr fun i _ _ => congrArg (·, 0) (transElem_32 v.rows v.r i w32)

end Sys2Proof.Machine

namespace Sys2Proof.Machine

/-! ### Rounded numbers stay in range (R45, R46, R49) -/

section
variable {m a b : Nat} {e q : Int} (rm : Round) (neg : Bool)

/-- Rounding adds at most one to the quotient. -/
theorem roundShift_bounds (m sh : Nat) :
    m / 2 ^ sh ≤ (roundShift rm neg m sh).1 ∧ (roundShift rm neg m sh).1 ≤ m / 2 ^ sh + 1 := by
  unfold roundShift
  dsimp only
  split
  · exact ⟨le_rfl, Nat.le_succ _⟩
  · have step (up : Bool) : m / 2 ^ sh ≤ (if up then m / 2 ^ sh + 1 else m / 2 ^ sh) ∧
        (if up then m / 2 ^ sh + 1 else m / 2 ^ sh) ≤ m / 2 ^ sh + 1 := by
      cases up
      · exact ⟨le_rfl, Nat.le_succ _⟩
      · exact ⟨Nat.le_succ _, le_rfl⟩
    exact step _

/-- A number below 2^a × 2^e is at most 2^b once it is a multiple of 2^q. -/
theorem roundTo_le (small : m < 2 ^ a) (within : (a : Int) + e ≤ b + q) : (roundTo rm neg m e q).1 ≤ 2 ^ b := by
  unfold roundTo
  split
  · calc m * 2 ^ (e - q).toNat ≤ 2 ^ a * 2 ^ (e - q).toNat := Nat.mul_le_mul_right _ small.le
      _ = 2 ^ (a + (e - q).toNat) := (Nat.pow_add ..).symm
      _ ≤ 2 ^ b := Nat.pow_le_pow_right (by decide) (by omega)
  · refine (roundShift_bounds rm neg m _).2.trans (Nat.succ_le_of_lt ((Nat.div_lt_iff_lt_mul (Nat.two_pow_pos _)).2 ?_))
    rw [← Nat.pow_add]
    exact small.trans_le (Nat.pow_le_pow_right (by decide) (by omega))

/-- And a number of 2^a × 2^e or more is at least 2^b. -/
theorem le_roundTo (large : 2 ^ a ≤ m) (within : (b : Int) + q ≤ a + e) : 2 ^ b ≤ (roundTo rm neg m e q).1 := by
  unfold roundTo
  split
  · calc 2 ^ b ≤ 2 ^ (a + (e - q).toNat) := Nat.pow_le_pow_right (by decide) (by omega)
      _ = 2 ^ a * 2 ^ (e - q).toNat := Nat.pow_add ..
      _ ≤ m * 2 ^ (e - q).toNat := Nat.mul_le_mul_right _ large
  · refine le_trans ((Nat.le_div_iff_mul_le (Nat.two_pow_pos _)).2 ?_) (roundShift_bounds rm neg m _).1
    rw [← Nat.pow_add]
    exact (Nat.pow_le_pow_right (by decide) (by omega)).trans large

end

section
variable (f : FloatFmt)

theorem width_eq : f.width = 1 + f.eBits + f.mBits := rfl

theorem signed_lt_width {mag : Nat} (neg : Bool) (small : mag < 2 ^ (f.width - 1)) : f.signed neg mag < 2 ^ f.width := by
  have double : 2 ^ f.width = 2 * 2 ^ (f.width - 1) := by
    rw [← Nat.pow_succ']
    exact congrArg _ (by rw [width_eq]; omega)
  unfold FloatFmt.signed
  split <;> omega

theorem special_lt : f.nanBits < 2 ^ f.width ∧ f.infBits < 2 ^ (f.width - 1) ∧ f.maxBits < 2 ^ (f.width - 1) := by
  cases f <;> decide

/-- The largest finite value: its significand, its exponent above that of the least bit, and the room that is left above it. -/
theorem maxMag_bounds : ∃ k : Nat, f.maxMag.2 = f.qMin + k ∧ f.maxMag.1 < 2 * 2 ^ f.mBits ∧
    k * 2 ^ f.mBits + f.maxMag.1 < 2 ^ (f.width - 1) ∧ (k + 1) * 2 ^ f.mBits < 2 ^ (f.width - 1) := by
  cases f
  · exact ⟨253, by decide⟩
  · exact ⟨253, by decide⟩
  · exact ⟨29, by decide⟩
  · exact ⟨14, by decide⟩
  · exact ⟨29, by decide⟩
  · exact ⟨6, by decide⟩
  · exact ⟨2, by decide⟩
  · exact ⟨2, by decide⟩

/-- A rounded number that does not exceed the largest finite value has a pattern without sign. -/
theorem pattern_lt {r k : Nat} (low : 2 ^ f.mBits ≤ r) (high : r ≤ 2 * 2 ^ f.mBits)
    (fits : ltMag f.maxMag.1 f.maxMag.2 r (f.qMin + k) = false) : k * 2 ^ f.mBits + r < 2 ^ (f.width - 1) := by
  obtain ⟨top, exponent, significand, largest, next⟩ := maxMag_bounds f
  rw [exponent, ltMag] at fits
  generalize f.maxMag.1 = mm at *
  generalize 2 ^ f.mBits = p at *
  rcases lt_trichotomy k top with below | rfl | above
  · have : (k + 1) * p ≤ top * p := Nat.mul_le_mul_right _ below
    rw [Nat.add_mul, Nat.one_mul] at *
    omega
  · rw [if_pos le_rfl, decide_eq_false_iff_not, Int.sub_self] at fits
    simp only [Int.toNat_zero, pow_zero, mul_one] at fits
    omega
  · rw [if_pos (by omega), decide_eq_false_iff_not] at fits
    obtain ⟨d, more⟩ : ∃ d, (f.qMin + (k : Int) - (f.qMin + top)).toNat = d + 1 := ⟨k - top - 1, by omega⟩
    rw [more, Nat.pow_succ] at fits
    have : r * 2 ≤ r * (2 ^ d * 2) := Nat.mul_le_mul_left _ (Nat.le_mul_of_pos_left 2 (Nat.two_pow_pos d))
    omega

theorem overflowBits_lt (rm : Round) (neg : Bool) : overflowBits f rm neg < 2 ^ f.width := by
  obtain ⟨-, inf, max⟩ := special_lt f
  cases rm with
  | rne => exact signed_lt_width f neg inf
  | rtz => exact signed_lt_width f neg max
  | rdn => cases neg with
    | false => exact signed_lt_width f false max
    | true => exact signed_lt_width f true inf
  | rup => cases neg with
    | false => exact signed_lt_width f false inf
    | true => exact signed_lt_width f true max

/-- What stands for a number too large (R47). -/
def FloatFmt.tooLarge (f : FloatFmt) (rm : Round) (sat neg : Bool) : Nat :=
  if sat then f.signed neg f.maxBits
  else match f with
    | .e3m2 | .e2m3 | .e2m1 => f.signed neg f.maxBits
    | .e4m3 => f.nanBits
    | _ => overflowBits f rm neg

theorem tooLarge_lt (rm : Round) (sat neg : Bool) : f.tooLarge rm sat neg < 2 ^ f.width := by
  obtain ⟨nan, inf, max⟩ := special_lt f
  cases sat with
  | false => cases f with
    | e4m3 => exact nan
    | e3m2 | e2m3 | e2m1 => exact signed_lt_width _ neg max
    | fp32 | bf16 | fp16 | e5m2 => exact overflowBits_lt _ rm neg
  | true => exact signed_lt_width f neg max

/-- The pattern of a nonzero number (R46): its exponent, or that of the subnormals, and its significand rounded there. -/
theorem convertFloat_number (rm : Round) (sat neg : Bool) {m : Nat} (nonzero : m ≠ 0) (e : Int) :
    convertFloat f rm sat (.fin neg m e) =
      let qu : Int := Nat.log2 m + e - f.mBits
      let q := max qu f.qMin
      let r := roundTo rm neg m e q
      if ltMag f.maxMag.1 f.maxMag.2 (roundTo rm neg m e qu).1 qu then (f.tooLarge rm sat neg, flOF + flNX)
      else (f.signed neg ((q - f.qMin).toNat * 2 ^ f.mBits + r.1),
        (if r.2 then flNX else 0) + (if r.2 && decide ((Nat.log2 m : Int) + e < 1 - f.bias) then flUF else 0)) := by
  obtain ⟨m, rfl⟩ := Nat.exists_eq_succ_of_ne_zero nonzero
  cases f <;> rfl

theorem number_flags_lt (p q : Bool) : (if p then flNX else 0) + (if q then flUF else 0) < 32 := by
  cases p <;> cases q <;> decide

/-- A rounded number keeps its format. -/
theorem convertFloat_fits (rm : Round) (sat : Bool) (x : Val) : Fits f.width (convertFloat f rm sat x) := by
  obtain ⟨nan, inf, max⟩ := special_lt f
  cases x with
  | nan => cases f with
    | e3m2 | e2m3 | e2m1 => exact ⟨Nat.two_pow_pos _, (by decide : 16 < 32)⟩
    | fp32 | bf16 | fp16 | e4m3 | e5m2 => exact ⟨nan, (by decide : 0 < 32)⟩
  | inf neg =>
    rw [convertFloat]
    split
    · exact ⟨signed_lt_width f neg inf, (by decide : 0 < 32)⟩
    split
    · exact ⟨nan, (by decide : 16 < 32)⟩
    · exact ⟨signed_lt_width f neg max, by dsimp only; split <;> decide⟩
  | fin neg m e =>
    by_cases nonzero : m = 0
    · subst nonzero
      exact ⟨signed_lt_width f neg (Nat.two_pow_pos _), (by decide : 0 < 32)⟩
    rw [convertFloat_number f rm sat neg nonzero]
    dsimp only
    have below : m < 2 ^ (Nat.log2 m + 1) := Nat.lt_log2_self
    have above : 2 ^ Nat.log2 m ≤ m := Nat.log2_self_le nonzero
    split
    · exact ⟨tooLarge_lt f rm sat neg, (by decide : 5 < 32)⟩
    next within =>
    refine ⟨signed_lt_width f neg ?_, number_flags_lt ..⟩
    rcases le_or_gt f.qMin (Nat.log2 m + e - f.mBits) with normal | subnormal
    · obtain ⟨k, exponent⟩ := Int.le.dest normal
      rw [max_eq_left normal, ← exponent, add_sub_cancel_left, Int.toNat_natCast]
      rw [Bool.not_eq_true, ← exponent] at within
      refine pattern_lt f (le_roundTo rm neg above (by omega)) ?_ within
      rw [← Nat.pow_succ']
      exact roundTo_le rm neg below (by omega)
    · rw [max_eq_right subnormal.le, Int.sub_self, Int.toNat_zero, Nat.zero_mul, Nat.zero_add]
      exact (roundTo_le rm neg below (b := f.mBits) (by omega)).trans_lt (Nat.pow_lt_pow_right (by decide) (by cases f <;> decide))

theorem flushResult_fits (flush : Bool) {r : Nat × Flags} (fits : Fits f.width r) : Fits f.width (flushResult flush f r) := by
  obtain ⟨bits, fl⟩ := r
  rw [flushResult]
  split
  · exact ⟨(Nat.sub_le ..).trans_lt fits.value, Nat.or_lt_two_pow (n := 5) (Nat.or_lt_two_pow (n := 5) fits.flags (by decide)) (by decide)⟩
  · exact fits

theorem writeFloat_fits (flush : Bool) (rm : Round) (x : Val) : Fits f.width (writeFloat flush f rm x) :=
  flushResult_fits f flush (convertFloat_fits f rm false x)

end

end Sys2Proof.Machine

namespace Sys2Proof.Machine

/-! ### The order of floating-point patterns (R31, R49, R184)

What is said of FP32 above holds of BF16 and FP16 as well: a pattern's magnitude g decides whether it is a number, an infinity or a
NaN, and numbers lie in the order of their signs and magnitudes. -/

namespace FloatFmt
variable (f : FloatFmt)

/-- The significand of the magnitude g. -/
def significandOf (g : Nat) : Nat := if g < 2 ^ f.mBits then g else 2 ^ f.mBits + g % 2 ^ f.mBits

/-- The exponent of the magnitude g, above that of the least subnormal. -/
def exponentOf (g : Nat) : Nat := g / 2 ^ f.mBits - 1

/-- The magnitude g in units of the least subnormal. -/
def scaledOf (g : Nat) : Nat := f.significandOf g * 2 ^ f.exponentOf g

/-- The magnitude bits of a pattern. -/
def magnitude (x : Nat) : Nat := x % 2 ^ (f.width - 1)

/-- The sign bit of a pattern. -/
def negative (x : Nat) : Bool := x.testBit (f.width - 1)

/-- A pattern as an input under the rule of R49. -/
def raw (flush : Bool) (x : Nat) : Nat :=
  if flush = true ∧ x / 2 ^ f.mBits % 2 ^ f.eBits = 0 then x / 2 ^ (f.width - 1) * 2 ^ (f.width - 1) else x

/-- Where a pattern stands in the order of R184, −0 below +0. -/
def key (x : Nat) : Int := if x < 2 ^ (f.width - 1) then x else 2 ^ (f.width - 1) - 1 - (x : Int)

theorem magnitude_bits : 2 ^ (f.width - 1) = 2 ^ f.eBits * 2 ^ f.mBits := by
  rw [← Nat.pow_add]
  exact congrArg _ (by rw [width_eq]; omega)

theorem width_bits : 2 ^ f.width = 2 * 2 ^ (f.width - 1) := by
  rw [← Nat.pow_succ']
  exact congrArg _ (by rw [width_eq]; omega)

variable {f}

theorem significandOf_eq_zero {g : Nat} : f.significandOf g = 0 ↔ g = 0 := by
  have positive := Nat.two_pow_pos f.mBits
  unfold significandOf
  split <;> omega

theorem scaledOf_zero : f.scaledOf 0 = 0 := by rw [scaledOf, significandOf_eq_zero.2 rfl, Nat.zero_mul]

/-- A magnitude lies below the power of two above it. -/
theorem scaledOf_lt (g : Nat) : f.scaledOf g < 2 ^ f.mBits * 2 ^ (g / 2 ^ f.mBits) := by
  have positive := Nat.two_pow_pos f.mBits
  unfold scaledOf significandOf exponentOf
  split
  · next small => rw [Nat.div_eq_of_lt small]; simpa using small
  · next large =>
    obtain ⟨d, field⟩ := Nat.exists_eq_succ_of_ne_zero (Nat.div_pos (Nat.le_of_not_lt large) positive).ne'
    have rest := Nat.mod_lt g positive
    rw [field, Nat.succ_sub_one, Nat.pow_succ, Nat.mul_comm (2 ^ d), ← Nat.mul_assoc]
    exact Nat.mul_lt_mul_of_pos_right (by omega) (Nat.two_pow_pos d)

/-- And a normal one no lower than the power of two of its field. -/
theorem le_scaledOf {g d : Nat} (field : g / 2 ^ f.mBits = d + 1) : 2 ^ f.mBits * 2 ^ d ≤ f.scaledOf g := by
  have normal : ¬ g < 2 ^ f.mBits := fun small => by simp [Nat.div_eq_of_lt small] at field
  rw [scaledOf, significandOf, exponentOf, if_neg normal, field]
  exact Nat.mul_le_mul_right _ (Nat.le_add_right ..)

theorem scaledOf_strictMono : StrictMono f.scaledOf := by
  intro g h less
  have positive := Nat.two_pow_pos f.mBits
  rcases (Nat.div_le_div_right less.le : g / 2 ^ f.mBits ≤ h / 2 ^ f.mBits).lt_or_eq with below | same
  · obtain ⟨d, field⟩ := Nat.exists_eq_succ_of_ne_zero (Nat.ne_zero_of_lt below)
    rw [field] at below
    calc f.scaledOf g < 2 ^ f.mBits * 2 ^ (g / 2 ^ f.mBits) := scaledOf_lt g
      _ ≤ 2 ^ f.mBits * 2 ^ d := Nat.mul_le_mul_left _ (Nat.pow_le_pow_right (by decide) (Nat.le_of_lt_succ below))
      _ ≤ f.scaledOf h := le_scaledOf field
  · have exponent : f.exponentOf g = f.exponentOf h := congrArg (· - 1) same
    rw [scaledOf, scaledOf, exponent]
    refine Nat.mul_lt_mul_of_pos_right ?_ (Nat.two_pow_pos _)
    have split := Nat.div_add_mod g (2 ^ f.mBits)
    have split' := Nat.div_add_mod h (2 ^ f.mBits)
    rw [same] at split
    unfold significandOf
    by_cases small : h < 2 ^ f.mBits
    · rw [if_pos small, if_pos (less.trans small)]
      exact less
    · have normal : ¬ g < 2 ^ f.mBits := fun low =>
        absurd ((Nat.div_eq_of_lt low).symm.trans same) (Nat.div_pos (Nat.le_of_not_lt small) positive).ne
      rw [if_neg small, if_neg normal]
      omega

end FloatFmt

/-- Multiples of a strictly increasing function compare by sign and place, but for the zeros. -/
theorem signed_lt_of_strictMono {F : Nat → Nat} (mono : StrictMono F) (start : F 0 = 0) (s t : Bool) (a b : Nat) :
    signOf s * (F a : Nat) < signOf t * (F b : Nat) ↔ signedKey s a < signedKey t b ∧ ¬ (a = 0 ∧ b = 0) := by
  have zero : F a = F 0 ↔ a = 0 := mono.injective.eq_iff
  have zero' : F b = F 0 ↔ b = 0 := mono.injective.eq_iff
  rw [start] at zero zero'
  have less := mono.lt_iff_lt (a := a) (b := b)
  have greater := mono.lt_iff_lt (a := b) (b := a)
  cases s <;> cases t <;> simp [signOf, signedKey] <;> omega

namespace FloatFmt
variable {f : FloatFmt} {x y : Nat}

/-- What a pattern reads as, by its magnitude. -/
inductive Reads (f : FloatFmt) (x : Nat) : Val → Prop
  | number (below : f.magnitude x < f.infBits) :
    Reads f x (.fin (f.negative x) (f.significandOf (f.magnitude x)) (f.qMin + f.exponentOf (f.magnitude x)))
  | inf (top : f.magnitude x = f.infBits) : Reads f x (.inf (f.negative x))
  | nan (above : f.infBits < f.magnitude x) : Reads f x .nan

section
variable (flushes : f.flushes = true)
include flushes

theorem decode_flushing : decodeFloat f x =
    let g := f.magnitude x
    if g / 2 ^ f.mBits = 2 ^ f.eBits - 1 then (if g % 2 ^ f.mBits = 0 then .inf (f.negative x) else .nan)
    else if g / 2 ^ f.mBits = 0 then .fin (f.negative x) (g % 2 ^ f.mBits) f.qMin
    else .fin (f.negative x) (2 ^ f.mBits + g % 2 ^ f.mBits) (f.qMin + (g / 2 ^ f.mBits - 1 : Nat)) := by
  have plain : f.hasInf = true ∧ (f == .e4m3) = false := by
    cases f with
    | fp32 | bf16 | fp16 => exact ⟨rfl, rfl⟩
    | e4m3 | e5m2 | e3m2 | e2m3 | e2m1 => exact absurd flushes Bool.false_ne_true
  unfold decodeFloat
  simp only [plain.1, plain.2, Bool.true_and, Bool.false_and, beq_iff_eq, Bool.false_eq_true, if_false]
  rfl

theorem reads (x : Nat) : Reads f x (decodeFloat f x) := by
  have positive := Nat.two_pow_pos f.mBits
  have bound : f.magnitude x < 2 ^ f.eBits * 2 ^ f.mBits := by
    rw [← magnitude_bits]
    exact Nat.mod_lt _ (Nat.two_pow_pos _)
  have field : f.magnitude x / 2 ^ f.mBits < 2 ^ f.eBits := (Nat.div_lt_iff_lt_mul positive).2 bound
  have top : f.magnitude x / 2 ^ f.mBits = 2 ^ f.eBits - 1 ↔ f.infBits ≤ f.magnitude x := by
    rw [infBits, ← Nat.le_div_iff_mul_le positive]
    omega
  have split := Nat.div_add_mod (f.magnitude x) (2 ^ f.mBits)
  rw [decode_flushing flushes]
  dsimp only
  split
  · next ones =>
    rw [ones, Nat.mul_comm] at split
    split
    · next zero => exact .inf (by rw [infBits]; omega)
    · next some => exact .nan (by rw [infBits]; omega)
  next finite =>
  have below : f.magnitude x < f.infBits := Nat.lt_of_not_le (mt top.2 finite)
  have number := Reads.number below
  split
  · next zero =>
    have small : f.magnitude x < 2 ^ f.mBits := (Nat.div_eq_zero_iff_lt positive).1 zero
    rw [significandOf, if_pos small, exponentOf, zero] at number
    rw [Nat.mod_eq_of_lt small]
    simpa using number
  · next normal =>
    rwa [significandOf, if_neg (mt (Nat.div_eq_zero_iff_lt positive).2 normal)] at number

theorem isNaN_decode : isNaN (decodeFloat f x) = true ↔ f.infBits < f.magnitude x := by
  have kind := reads flushes x
  generalize decodeFloat f x = u at kind
  cases kind with
  | number below => exact iff_of_false Bool.false_ne_true below.le.not_gt
  | inf top => exact iff_of_false Bool.false_ne_true top.not_gt
  | nan above => exact iff_of_true rfl above

/-- The order of numbers and infinities is that of their signs and magnitudes, but for the zeros. -/
theorem ltVal_decode (number : ¬ f.infBits < f.magnitude x) (number' : ¬ f.infBits < f.magnitude y) :
    ltVal (decodeFloat f x) (decodeFloat f y) = true ↔
      signedKey (f.negative x) (f.magnitude x) < signedKey (f.negative y) (f.magnitude y) ∧ ¬ (f.magnitude x = 0 ∧ f.magnitude y = 0) := by
  have positive : 0 < f.infBits := by cases f <;> decide
  have kind := reads flushes x
  have kind' := reads flushes y
  generalize decodeFloat f x = u at kind
  generalize decodeFloat f y = v at kind'
  cases kind with
  | nan above => exact absurd above number
  | number below =>
    cases kind' with
    | nan above => exact absurd above number'
    | number below' =>
      rw [ltVal_numbers, decide_eq_true_eq]
      exact signed_lt_of_strictMono scaledOf_strictMono scaledOf_zero ..
    | inf top' =>
      rw [top']
      cases f.negative x <;> cases f.negative y <;> simp [ltVal, signedKey] <;> omega
  | inf top =>
    rw [top]
    cases kind' with
    | nan above => exact absurd above number'
    | number below' => cases f.negative x <;> cases f.negative y <;> simp [ltVal, signedKey] <;> omega
    | inf top' =>
      rw [top']
      cases f.negative x <;> cases f.negative y <;> simp [ltVal, signedKey] <;> omega

theorem isNegZero_decode (number : ¬ f.infBits < f.magnitude x) :
    isNegZero (decodeFloat f x) = true ↔ f.negative x = true ∧ f.magnitude x = 0 := by
  have positive : 0 < f.infBits := by cases f <;> decide
  have kind := reads flushes x
  generalize decodeFloat f x = u at kind
  cases kind with
  | nan above => exact absurd above number
  | number below =>
    rw [← significandOf_eq_zero (f := f) (g := f.magnitude x)]
    cases f.negative x <;> cases f.significandOf (f.magnitude x) <;> simp [isNegZero]
  | inf top => exact iff_of_false Bool.false_ne_true fun both => positive.ne (both.2.symm.trans top)

end

/-- A pattern is its sign and its magnitude. -/
theorem pattern_eq (small : x < 2 ^ f.width) : x = f.signed (f.negative x) (f.magnitude x) := by
  rw [width_bits] at small
  have halves : x / 2 ^ (f.width - 1) < 2 := (Nat.div_lt_iff_lt_mul (Nat.two_pow_pos _)).2 small
  have split := Nat.div_add_mod x (2 ^ (f.width - 1))
  rw [negative, Nat.testBit_eq_decide_div_mod_eq, signed, magnitude]
  generalize x / 2 ^ (f.width - 1) = half at *
  obtain rfl | rfl : half = 0 ∨ half = 1 := by omega
  · simpa using split.symm
  · simpa using split.symm

theorem magnitude_lt (x : Nat) : f.magnitude x < 2 ^ (f.width - 1) := Nat.mod_lt _ (Nat.two_pow_pos _)

theorem key_eq (small : x < 2 ^ f.width) : f.key x = signedKey (f.negative x) (f.magnitude x) := by
  have pattern := pattern_eq small
  have below := magnitude_lt (f := f) x
  have power : ((2 ^ (f.width - 1) : Nat) : Int) = 2 ^ (f.width - 1) := by push_cast; rfl
  rw [key, ← power, signedKey]
  generalize f.magnitude x = g at *
  cases negative : f.negative x with
  | false =>
    rw [negative] at pattern
    have same : x = g := pattern
    rw [if_pos (same ▸ below), same]
    rfl
  | true =>
    rw [negative] at pattern
    have same : x = 2 ^ (f.width - 1) + g := pattern
    rw [if_neg (by omega), same]
    simp only [if_true]
    omega

/-- Two patterns of one place in the order are one pattern. -/
theorem eq_of_key (small : x < 2 ^ f.width) (small' : y < 2 ^ f.width) (same : f.key x = f.key y) : x = y := by
  rw [key_eq small, key_eq small'] at same
  rw [pattern_eq small, pattern_eq small']
  revert same
  cases f.negative x <;> cases f.negative y <;> simp only [signedKey, if_true, Bool.false_eq_true, if_false] <;> intro same
  · rw [Int.ofNat.inj same]
  · omega
  · omega
  · rw [show f.magnitude x = f.magnitude y by omega]

theorem zero_iff_key (small : x < 2 ^ f.width) : f.magnitude x = 0 ↔ f.key x = -1 ∨ f.key x = 0 := by
  rw [key_eq small, signedKey]
  split <;> omega

/-- A first pattern that is less as a value, or −0 and no greater, stands before the second or is it. -/
theorem before_iff (flushes : f.flushes = true) (small : x < 2 ^ f.width) (small' : y < 2 ^ f.width)
    (number : ¬ f.infBits < f.magnitude x) (number' : ¬ f.infBits < f.magnitude y) :
    (ltVal (decodeFloat f x) (decodeFloat f y) || (!ltVal (decodeFloat f y) (decodeFloat f x) && isNegZero (decodeFloat f x))) = true ↔
      f.key x < f.key y ∨ f.key x = f.key y ∧ f.key x = -1 := by
  have zero := zero_iff_key small
  have zero' := zero_iff_key small'
  have key := key_eq small
  rw [Bool.or_eq_true, Bool.and_eq_true, Bool.not_eq_true', ← Bool.not_eq_true, ltVal_decode flushes number number',
    ltVal_decode flushes number' number, isNegZero_decode flushes number, ← key_eq small, ← key_eq small', zero, zero']
  have negative : f.key x < 0 ↔ f.negative x = true := by
    rw [key, signedKey]
    cases f.negative x
    · simp
    · simp; omega
  rw [← negative]
  omega

/-! ### Patterns as inputs (R49) -/

section
variable (flush : Bool)

theorem field_eq (x : Nat) : x / 2 ^ f.mBits % 2 ^ f.eBits = f.magnitude x / 2 ^ f.mBits := by
  rw [magnitude, magnitude_bits, Nat.mul_comm, Nat.mod_mul_right_div_self]

theorem raw_eq (x : Nat) : f.raw flush x =
    if flush = true ∧ f.magnitude x < 2 ^ f.mBits then x / 2 ^ (f.width - 1) * 2 ^ (f.width - 1) else x := by
  rw [raw, field_eq, if_congr (and_congr_right' (Nat.div_eq_zero_iff_lt (Nat.two_pow_pos _))) rfl rfl]

theorem raw_le (x : Nat) : f.raw flush x ≤ x := by
  rw [raw]
  split
  · exact Nat.div_mul_le_self ..
  · exact le_rfl

theorem magnitude_raw (x : Nat) : f.magnitude (f.raw flush x) =
    if flush = true ∧ f.magnitude x < 2 ^ f.mBits then 0 else f.magnitude x := by
  rw [raw_eq]
  split
  · exact Nat.mul_mod_left ..
  · rfl

theorem negative_raw (x : Nat) : f.negative (f.raw flush x) = f.negative x := by
  rw [raw_eq]
  split
  · rw [negative, negative, Nat.testBit_mul_two_pow, decide_eq_true le_rfl, Nat.sub_self, Nat.testBit_div_two_pow, Nat.zero_add]
    rfl
  · rfl

theorem isNan_raw (x : Nat) : f.infBits < f.magnitude (f.raw flush x) ↔ f.infBits < f.magnitude x := by
  have normal : 2 ^ f.mBits ≤ f.infBits := by cases f <;> decide
  rw [magnitude_raw]
  split <;> omega

variable (flushes : f.flushes = true)
include flushes

/-- The rule of R49 on values is that of `raw` on patterns. -/
theorem readFloat_raw (x : Nat) : readFloat flush f x = decodeFloat f (f.raw flush x) := by
  have kind := reads flushes x
  have kind' := reads flushes (f.raw flush x)
  have normal : 2 ^ f.mBits ≤ f.infBits := by cases f <;> decide
  have positive := Nat.two_pow_pos f.mBits
  have magnitude := magnitude_raw (f := f) flush x
  rw [readFloat]
  generalize decodeFloat f x = u at kind
  generalize decodeFloat f (f.raw flush x) = v at kind'
  have significand : f.significandOf (f.magnitude x) < 2 ^ f.mBits ↔ f.magnitude x < 2 ^ f.mBits := by
    unfold significandOf
    split <;> omega
  by_cases low : flush = true ∧ f.magnitude x < 2 ^ f.mBits
  · rw [if_pos low] at magnitude
    cases kind with
    | inf top => omega
    | nan above => omega
    | number below =>
    cases kind' with
    | inf top => omega
    | nan above => omega
    | number below' =>
    have exponent : f.exponentOf (f.magnitude x) = f.exponentOf 0 := by
      rw [exponentOf, exponentOf, Nat.div_eq_of_lt low.2, Nat.zero_div]
    rw [negative_raw, magnitude, significandOf_eq_zero.2 rfl]
    refine (if_pos ?_).trans (by rw [exponent])
    rw [low.1, flushes, decide_eq_true (significand.2 low.2)]
    rfl
  · have same : f.raw flush x = x := by rw [raw_eq, if_neg low]
    rw [same] at kind'
    cases kind with
    | number below => cases kind' with
      | number below' =>
        refine if_neg ?_
        rw [flushes, Bool.and_true, Bool.and_eq_true, decide_eq_true_eq, significand]
        exact low
      | inf top => omega
      | nan above => omega
    | inf top => cases kind' with
      | inf top' => rfl
      | number below => omega
      | nan above => omega
    | nan above => cases kind' with
      | nan above' => rfl
      | number below => omega
      | inf top => omega

theorem isNaN_readFloat (x : Nat) : isNaN (readFloat flush f x) = true ↔ f.infBits < f.magnitude x := by
  rw [readFloat_raw flush flushes, isNaN_decode flushes, isNan_raw]

end

/-- An input that is returned. -/
def pass (f : FloatFmt) (flush : Bool) (x : Nat) : Nat := if f.infBits < f.magnitude x then f.nanBits else f.raw flush x

/-- The input that `tfmin` or `tfmax` returns. -/
def pick (f : FloatFmt) (flush least : Bool) (x y : Nat) : Nat :=
  if f.infBits < f.magnitude x then f.pass flush y else if f.infBits < f.magnitude y then f.pass flush x
  else if (least = true ↔ f.key (f.raw flush x) ≤ f.key (f.raw flush y)) then f.raw flush x else f.raw flush y

section
variable (flush : Bool)

theorem pass_lt (small : x < 2 ^ f.width) : f.pass flush x < 2 ^ f.width := by
  rw [pass]
  split
  · exact (special_lt f).1
  · exact (raw_le flush x).trans_lt small

theorem pick_lt (least : Bool) (small : x < 2 ^ f.width) (small' : y < 2 ^ f.width) : f.pick flush least x y < 2 ^ f.width := by
  rw [pick]
  split
  · exact pass_lt flush small'
  split
  · exact pass_lt flush small
  split
  · exact (raw_le flush x).trans_lt small
  · exact (raw_le flush y).trans_lt small'

variable (flushes : f.flushes = true)
include flushes

theorem passFloat_eq (small : x < 2 ^ f.width) : passFloat flush f x = f.pass flush x := by
  have kind := reads flushes (f.raw flush x)
  have pattern := pattern_eq ((raw_le (f := f) flush x).trans_lt small)
  have normal : 2 ^ f.mBits ≤ f.infBits := by cases f <;> decide
  have positive := Nat.two_pow_pos f.mBits
  have nan := isNan_raw (f := f) flush x
  have kept : f.magnitude (f.raw flush x) ≠ 0 → f.raw flush x = x := by
    rw [magnitude_raw, raw_eq]
    split
    · exact fun nonzero => absurd rfl nonzero
    · exact fun _ => rfl
  rw [passFloat, readFloat_raw flush flushes, pass]
  generalize decodeFloat f (f.raw flush x) = u at kind
  cases kind with
  | nan above => rw [if_pos (nan.1 above)]
  | inf top =>
    rw [if_neg (mt nan.2 top.not_gt)]
    exact (kept (by omega)).symm
  | number below =>
    rw [if_neg (mt nan.2 below.le.not_gt)]
    by_cases zero : f.magnitude (f.raw flush x) = 0
    · refine (if_pos (significandOf_eq_zero.2 zero)).trans ?_
      rw [zero] at pattern
      exact pattern.symm
    · exact (if_neg (mt significandOf_eq_zero.1 zero)).trans (kept zero).symm

/-- One pattern of two, where the choice is by `second` between numbers. -/
theorem pick_of_choice (least second : Bool) (small : x < 2 ^ f.width) (small' : y < 2 ^ f.width)
    (choice : ¬ f.infBits < f.magnitude x → ¬ f.infBits < f.magnitude y → (if second then f.raw flush y else f.raw flush x) =
      if (least = true ↔ f.key (f.raw flush x) ≤ f.key (f.raw flush y)) then f.raw flush x else f.raw flush y) :
    (if isNaN (readFloat flush f x) then passFloat flush f y else if isNaN (readFloat flush f y) then passFloat flush f x
      else if second then passFloat flush f y else passFloat flush f x) = f.pick flush least x y := by
  rw [passFloat_eq flush flushes small, passFloat_eq flush flushes small', if_congr (isNaN_readFloat flush flushes x) rfl rfl,
    if_congr (isNaN_readFloat flush flushes y) rfl rfl, pick]
  split
  · rfl
  next number =>
  split
  · rfl
  next number' =>
  rw [← choice number number', pass, pass, if_neg number, if_neg number']

theorem fMin_eq (small : x < 2 ^ f.width) (small' : y < 2 ^ f.width) : fMin f flush x y = f.pick flush true x y := by
  have low := (raw_le (f := f) flush x).trans_lt small
  have low' := (raw_le (f := f) flush y).trans_lt small'
  refine pick_of_choice flush flushes true _ small small' fun number number' => ?_
  rw [readFloat_raw flush flushes, readFloat_raw flush flushes,
    if_congr (before_iff flushes low' low (mt (isNan_raw flush y).1 number') (mt (isNan_raw flush x).1 number)) rfl rfl]
  simp only [true_iff]
  split <;> split
  · exact eq_of_key low' low (by omega)
  · rfl
  · rfl
  · omega

theorem fMax_eq (small : x < 2 ^ f.width) (small' : y < 2 ^ f.width) : fMax f flush x y = f.pick flush false x y := by
  have low := (raw_le (f := f) flush x).trans_lt small
  have low' := (raw_le (f := f) flush y).trans_lt small'
  refine pick_of_choice flush flushes false _ small small' fun number number' => ?_
  rw [readFloat_raw flush flushes, readFloat_raw flush flushes,
    if_congr (before_iff flushes low low' (mt (isNan_raw flush x).1 number) (mt (isNan_raw flush y).1 number')) rfl rfl]
  simp only [Bool.false_eq_true, false_iff]
  split <;> split
  · omega
  · rfl
  · rfl
  · exact eq_of_key low low' (by omega)

theorem fAbs_eq (small : x < 2 ^ f.width) : fAbs f flush x =
    if f.infBits < f.magnitude x then f.nanBits else f.raw flush x % 2 ^ (f.width - 1) := by
  rw [fAbs, passFloat_eq flush flushes small, if_congr (isNaN_readFloat flush flushes x) rfl rfl, pass]
  split <;> rfl

end

end FloatFmt

end Sys2Proof.Machine

namespace Sys2Proof.Machine

/-! ### Estimates (R224) -/

/-- A root found from the bits above i is found to the last bit. -/
theorem sqrtFrom_bounds {i n r : Nat} (low : r * r ≤ n) (high : n < (r + 2 ^ i) * (r + 2 ^ i)) :
    sqrtFrom i n r * sqrtFrom i n r ≤ n ∧ n < (sqrtFrom i n r + 1) * (sqrtFrom i n r + 1) := by
  induction i generalizing r with
  | zero => exact ⟨low, high⟩
  | succ i ih =>
    have double : r + 2 ^ (i + 1) = r + 2 ^ i + 2 ^ i := by ring
    rw [sqrtFrom]
    split
    · next fits => exact ih fits (double ▸ high)
    · next large => exact ih low (Nat.lt_of_not_le large)

theorem sqrtDown_bounds (n : Nat) : sqrtDown n * sqrtDown n ≤ n ∧ n < (sqrtDown n + 1) * (sqrtDown n + 1) := by
  refine sqrtFrom_bounds (Nat.zero_le _) ?_
  rw [Nat.zero_add, ← Nat.pow_add]
  exact Nat.lt_log2_self.trans_le (Nat.pow_le_pow_right (by decide) (by omega))

/-- The power of two next above m. -/
theorem log2_ceil {m : Nat} (nonzero : m ≠ 0) :
    let x := if m = 2 ^ Nat.log2 m then Nat.log2 m else Nat.log2 m + 1
    m ≤ 2 ^ x ∧ 2 ^ x < 2 * m := by
  have low := Nat.log2_self_le nonzero
  have high : m < 2 ^ (Nat.log2 m + 1) := Nat.lt_log2_self
  dsimp only
  rw [Nat.pow_succ] at high
  split
  · omega
  · rw [Nat.pow_succ]
    omega

/-- The power of four next above m. -/
theorem log4_ceil {m : Nat} (nonzero : m ≠ 0) :
    let x := if m = 2 ^ Nat.log2 m then (Nat.log2 m + 1) / 2 else Nat.log2 m / 2 + 1
    m ≤ 2 ^ (2 * x) ∧ 2 ^ (2 * x) < 4 * m := by
  have low := Nat.log2_self_le nonzero
  have high : m < 2 ^ (Nat.log2 m + 1) := Nat.lt_log2_self
  have upto {a b : Nat} (le : a ≤ b) : 2 ^ a ≤ 2 ^ b := Nat.pow_le_pow_right (by decide) le
  dsimp only
  split
  · have above := upto (show Nat.log2 m ≤ 2 * ((Nat.log2 m + 1) / 2) by omega)
    have below := upto (show 2 * ((Nat.log2 m + 1) / 2) ≤ Nat.log2 m + 1 by omega)
    rw [Nat.pow_succ] at below
    omega
  · have above := upto (show Nat.log2 m + 1 ≤ 2 * (Nat.log2 m / 2 + 1) by omega)
    have below := upto (show 2 * (Nat.log2 m / 2 + 1) ≤ Nat.log2 m + 2 by omega)
    rw [Nat.pow_succ, Nat.pow_succ] at below
    omega

section
variable (f : FloatFmt) (flush : Bool) {m : Nat} (nonzero : m ≠ 0)
include nonzero

/-- The reciprocal of a nonzero number, truncated. -/
theorem fRcp_number {neg : Bool} {e : Int} {a : Nat} (read : readFloat flush f a = .fin neg m e) :
    ∃ q t : Nat, 2 ^ min 12 f.mBits ≤ q ∧ q < 2 ^ (min 12 f.mBits + 1) ∧ q * m ≤ 2 ^ t ∧ 2 ^ t < (q + 1) * m ∧
      fRcp f flush a = estimate f flush neg q (-(t : Int) - e) (decide (q * m ≠ 2 ^ t)) := by
  obtain ⟨above, below⟩ := log2_ceil nonzero
  have value : fRcp f flush a =
      let x := if m = 2 ^ Nat.log2 m then Nat.log2 m else Nat.log2 m + 1
      estimate f flush neg (2 ^ (min 12 f.mBits + x) / m) (-((min 12 f.mBits : Nat) : Int) - x - e)
        (decide (2 ^ (min 12 f.mBits + x) % m ≠ 0)) := by
    rw [fRcp, read]
    exact if_neg nonzero
  dsimp only at value above below
  generalize (if m = 2 ^ Nat.log2 m then Nat.log2 m else Nat.log2 m + 1) = x at *
  generalize min 12 f.mBits = n at *
  have positive := Nat.pos_of_ne_zero nonzero
  have split := Nat.div_add_mod (2 ^ (n + x)) m
  have rest := Nat.mod_lt (2 ^ (n + x)) positive
  have product : 2 ^ (n + x) / m * m + 2 ^ (n + x) % m = 2 ^ (n + x) := by rwa [Nat.mul_comm]
  refine ⟨2 ^ (n + x) / m, n + x, (Nat.le_div_iff_mul_le positive).2 ?_, (Nat.div_lt_iff_lt_mul positive).2 ?_, by omega, ?_, ?_⟩
  · rw [Nat.pow_add]
    exact Nat.mul_le_mul_left _ above
  · rw [Nat.pow_add, Nat.pow_succ, Nat.mul_assoc]
    exact Nat.mul_lt_mul_of_pos_left below (Nat.two_pow_pos n)
  · rw [Nat.add_mul, Nat.one_mul]
    omega
  · have exact_iff : 2 ^ (n + x) % m ≠ 0 ↔ 2 ^ (n + x) / m * m ≠ 2 ^ (n + x) := by omega
    rw [value, decide_eq_decide.2 exact_iff]
    congr 1
    push_cast
    ring

/-- The reciprocal square root of a positive number, truncated. -/
theorem fRsq_number {e : Int} {a : Nat} (read : readFloat flush f a = .fin false m e) :
    ∃ (q t m' : Nat) (h : Int), ((m' = m ∧ e = 2 * h) ∨ (m' = 2 * m ∧ e = 2 * h + 1)) ∧
      2 ^ min 12 f.mBits ≤ q ∧ q < 2 ^ (min 12 f.mBits + 1) ∧ q * q * m' ≤ 2 ^ (2 * t) ∧ 2 ^ (2 * t) < (q + 1) * (q + 1) * m' ∧
      fRsq f flush a = estimate f flush false q (-(t : Int) - h) (decide (q * q * m' ≠ 2 ^ (2 * t))) := by
  obtain ⟨m', h, parity, nonzero', value⟩ : ∃ (m' : Nat) (h : Int), ((m' = m ∧ e = 2 * h) ∨ (m' = 2 * m ∧ e = 2 * h + 1)) ∧ m' ≠ 0 ∧
      fRsq f flush a =
        let n := min 12 f.mBits
        let x := if m' = 2 ^ Nat.log2 m' then (Nat.log2 m' + 1) / 2 else Nat.log2 m' / 2 + 1
        let q := sqrtDown (2 ^ (2 * (n + x)) / m')
        estimate f flush false q (-(n : Int) - x - h) (decide (q * q * m' ≠ 2 ^ (2 * (n + x)))) := by
    rw [fRsq, read]
    dsimp only
    rw [if_neg nonzero, if_neg Bool.false_ne_true]
    by_cases even : e % 2 = 0
    · exact ⟨m, e / 2, .inl ⟨rfl, by omega⟩, nonzero, by rw [if_pos even]⟩
    · exact ⟨2 * m, (e - 1) / 2, .inr ⟨rfl, by omega⟩, by omega, by rw [if_neg even]⟩
  obtain ⟨above, below⟩ := log4_ceil nonzero'
  dsimp only at value above below
  generalize (if m' = 2 ^ Nat.log2 m' then (Nat.log2 m' + 1) / 2 else Nat.log2 m' / 2 + 1) = x at *
  generalize min 12 f.mBits = n at *
  have positive := Nat.pos_of_ne_zero nonzero'
  obtain ⟨low, high⟩ := sqrtDown_bounds (2 ^ (2 * (n + x)) / m')
  generalize sqrtDown (2 ^ (2 * (n + x)) / m') = q at *
  rw [Nat.le_div_iff_mul_le positive] at low
  rw [Nat.div_lt_iff_lt_mul positive] at high
  have square : 2 ^ (2 * (n + x)) = 2 ^ n * 2 ^ n * 2 ^ (2 * x) := by ring
  refine ⟨q, n + x, m', h, parity, ?_, ?_, low, high, ?_⟩
  · refine Nat.le_of_lt_succ (Nat.mul_self_lt_mul_self_iff.1 (Nat.lt_of_mul_lt_mul_right (a := m') (lt_of_le_of_lt ?_ high)))
    rw [square]
    exact Nat.mul_le_mul_left _ above
  · refine Nat.mul_self_lt_mul_self_iff.1 (Nat.lt_of_mul_lt_mul_right (a := m') (lt_of_le_of_lt low ?_))
    calc 2 ^ (2 * (n + x)) = 2 ^ n * 2 ^ n * 2 ^ (2 * x) := square
      _ < 2 ^ n * 2 ^ n * (4 * m') := Nat.mul_lt_mul_of_pos_left below (by positivity)
      _ = 2 ^ (n + 1) * 2 ^ (n + 1) * m' := by ring
  · rw [value]
    congr 1
    push_cast
    ring

end

/-! ### Special operations (R221 to R223) -/

section
variable {f : FloatFmt} (flush : Bool)

/-- The number of which `tfins` takes the whole part, and no more than 300 of it. -/
theorem fIns_exponent (p : Nat) (g : Int) :
    min 300 ((if 0 ≤ g then (if p = 0 then 0 else min 300 (p * 2 ^ (min g 300).toNat)) else p / 2 ^ (-g).toNat : Nat) : Int) =
      min 300 (roundInt .rtz false p g).1 := by
  have whole : (roundInt .rtz false p g).1 = (if 0 ≤ g then p * 2 ^ g.toNat else p / 2 ^ (-g).toNat : Nat) := by
    show ((roundTo .rtz false p g 0).1 : Int) = _
    rw [roundTo, Int.sub_zero, Int.zero_sub]
    split
    · rfl
    · rw [roundShift]
      dsimp only
      split <;> rfl
  rw [whole]
  split
  · split
    · next zero => rw [zero, Nat.zero_mul]
    · next nonzero =>
      have huge {n : Nat} (many : 300 ≤ n) : 300 ≤ p * 2 ^ n :=
        (many.trans Nat.lt_two_pow_self.le).trans (Nat.le_mul_of_pos_left _ (Nat.pos_of_ne_zero nonzero))
      rcases le_total g 300 with small | large
      · rw [min_eq_left small]
        omega
      · rw [min_eq_right large, min_eq_left (huge (by decide))]
        have := huge (n := g.toNat) (by omega)
        omega
  · rfl

/-- A number rounded to a whole one (R221). -/
theorem fRint_eq (flushes : f.flushes = true) (rm : Round) {a : Nat} (small : a < 2 ^ f.width) :
    fRint f rm flush a = match readFloat flush f a with
      | .nan => f.nanBits
      | .inf _ => a
      | .fin neg m e => if 0 ≤ e then f.raw flush a else (convertFloat f .rtz false (.fin neg (roundInt rm neg m e).1.natAbs 0)).1 := by
  have nan := FloatFmt.isNaN_readFloat flush flushes a
  rw [fRint]
  generalize readFloat flush f a = u at *
  cases u with
  | nan | inf => rfl
  | fin neg m e =>
    have magnitude : (roundInt rm neg m e).1.natAbs = (roundTo rm neg m e 0).1 := by
      rw [roundInt]
      cases neg
      · rfl
      · exact Int.natAbs_neg _
    dsimp only
    rw [magnitude, FloatFmt.passFloat_eq flush flushes small, FloatFmt.pass, if_neg fun is => Bool.false_ne_true (nan.2 is)]

theorem fExp_eq (flushes : f.flushes = true) (a : Nat) : fExp f flush a = match readFloat flush f a with
    | .nan => (f.nanBits, 0)
    | .inf _ => (f.nanBits, flNV)
    | .fin neg m e =>
      let q : Int := (if neg then -1 else 0) - f.mBits + 1
      if m = 0 then (f.bias * 2 ^ f.mBits, 0)
      else if ltMag 1 (-1) m e then (f.nanBits, flNV)
      else ((convertFloat f .rtz false (.fin false (exp2Scaled neg m e / 2 ^ (320 + q).toNat).toNat q)).1, flNX) := by
  have one : (convertFloat f .rtz false (.fin false 1 0)).1 = f.bias * 2 ^ f.mBits := by
    cases f with
    | fp32 | bf16 | fp16 => rfl
    | e4m3 | e5m2 | e3m2 | e2m3 | e2m1 => exact absurd flushes Bool.false_ne_true
  rw [fExp]
  cases readFloat flush f a with
  | nan | inf => rfl
  | fin neg m e => exact congrArg (fun r : Nat => if m = 0 then (r, 0) else _) one

theorem fIns_eq (rm : Round) (a b : Nat) : fIns f rm flush a b = match readFloat flush f b, readFloat flush f a with
    | .nan, _ => (f.nanBits, 0)
    | .inf neg, _ => (if neg then 0 else f.infBits, 0)
    | _, .nan => (f.nanBits, 0)
    | _, .inf neg => (f.signed neg f.infBits, 0)
    | .fin s p g, .fin neg m e =>
      let k : Int := min 300 (roundInt .rtz false p g).1
      writeFloat flush f rm (.fin neg m (if s then e - k else e + k)) := by
  rw [fIns]
  generalize readFloat flush f b = v
  generalize readFloat flush f a = u
  cases v with
  | nan => rfl
  | inf neg => cases neg <;> rfl
  | fin s p g => cases u with
    | nan | inf => rfl
    | fin neg m e =>
      exact congrArg (fun k : Int => writeFloat flush f rm (.fin neg m (if s then e - k else e + k))) (fIns_exponent p g)

end

end Sys2Proof.Machine

namespace Sys2Proof.Machine

/-! ### Floating-point elements keep their format (R218 to R224) -/

theorem no_flags : 0 < 32 := by decide

theorem flNV_lt : flNV < 32 := by decide

theorem addVal_flags_lt (rm : Round) (x y : Val) : (addVal rm x y).2 < 32 := by
  unfold addVal
  split
  · exact no_flags
  · exact no_flags
  · split
    · exact no_flags
    · exact flNV_lt
  · exact no_flags
  · exact no_flags
  · have either {c : Prop} [Decidable c] {p q : Val} : (if c then (p, 0) else (q, 0) : Val × Flags).2 < 32 := by
      split <;> exact no_flags
    exact either

theorem mulVal_flags_lt (x y : Val) : (mulVal x y).2 < 32 := by
  unfold mulVal
  split
  · exact no_flags
  · exact no_flags
  · exact no_flags
  · split
    · exact flNV_lt
    · exact no_flags
  · split
    · exact flNV_lt
    · exact no_flags
  · exact no_flags

section
variable {f : FloatFmt} (rm : Round) (flush : Bool)

/-- What is written of an exact result with its flags keeps its format. -/
theorem written_fits {fl : Flags} (small : fl < 32) (x : Val) :
    Fits f.width ((writeFloat flush f rm x).1, fl ||| (writeFloat flush f rm x).2) := by
  obtain ⟨value, flags⟩ := writeFloat_fits f flush rm x
  exact ⟨value, Nat.or_lt_two_pow (n := 5) small flags⟩

theorem estimate_fits (neg : Bool) (q : Nat) (e : Int) (inexact : Bool) : Fits f.width (estimate f flush neg q e inexact) := by
  obtain ⟨value, flags⟩ := convertFloat_fits f .rtz false (.fin neg q e)
  have nx : (if inexact then flNX else 0) < 32 := by cases inexact <;> decide
  have uf (small : Bool) : (if inexact && small then flUF else 0) < 32 := by cases inexact <;> cases small <;> decide
  exact flushResult_fits f flush (r := (_, _)) ⟨value, Nat.or_lt_two_pow (n := 5) (Nat.or_lt_two_pow (n := 5) flags nx) (uf _)⟩

theorem signed_fits (neg : Bool) {x fl : Nat} (small : x < 2 ^ (f.width - 1)) (flags : fl < 32) : Fits f.width (f.signed neg x, fl) :=
  ⟨signed_lt_width f neg small, flags⟩

theorem nan_fits (f : FloatFmt) {fl : Flags} (flags : fl < 32) : Fits f.width (f.nanBits, fl) := ⟨(special_lt f).1, flags⟩

theorem fRcp_fits (a : Nat) : Fits f.width (fRcp f flush a) := by
  rw [fRcp]
  split
  · exact nan_fits f (by decide)
  · exact signed_fits _ (Nat.two_pow_pos _) (by decide)
  split
  · exact signed_fits _ (special_lt f).2.1 (by decide)
  · exact estimate_fits ..

theorem fRsq_fits (a : Nat) : Fits f.width (fRsq f flush a) := by
  rw [fRsq]
  split
  · exact nan_fits f (by decide)
  · split
    · exact nan_fits f (by decide)
    · exact ⟨Nat.two_pow_pos _, by decide⟩
  split
  · exact signed_fits _ (special_lt f).2.1 (by decide)
  split
  · exact nan_fits f (by decide)
  · exact estimate_fits ..

theorem truncated_fits (x : Val) {fl : Flags} (flags : fl < 32) : Fits f.width ((convertFloat f .rtz false x).1, fl) :=
  ⟨(convertFloat_fits f .rtz false x).value, flags⟩

theorem fExp_fits (a : Nat) : Fits f.width (fExp f flush a) := by
  rw [fExp]
  split
  · exact nan_fits f (by decide)
  · exact nan_fits f (by decide)
  split
  · exact truncated_fits _ no_flags
  split
  · exact nan_fits f (by decide)
  · exact truncated_fits _ (by decide)

theorem fIns_fits (a b : Nat) : Fits f.width (fIns f rm flush a b) := by
  rw [fIns]
  split
  · exact nan_fits f (by decide)
  · split
    · exact ⟨Nat.two_pow_pos _, by decide⟩
    · exact signed_fits false (special_lt f).2.1 (by decide)
  split
  · exact nan_fits f (by decide)
  · exact signed_fits _ (special_lt f).2.1 (by decide)
  · exact writeFloat_fits ..

variable (flushes : f.flushes = true) {a b : Nat} (ha : a < 2 ^ f.width) (hb : b < 2 ^ f.width)
include flushes ha

theorem fRint_lt : fRint f rm flush a < 2 ^ f.width := by
  rw [fRint_eq flush flushes rm ha]
  split
  · exact (special_lt f).1
  · exact ha
  split
  · exact (FloatFmt.raw_le flush a).trans_lt ha
  · exact (convertFloat_fits ..).value

theorem fAbs_lt : fAbs f flush a < 2 ^ f.width := by
  rw [FloatFmt.fAbs_eq flush flushes ha]
  split
  · exact (special_lt f).1
  · exact (Nat.mod_le ..).trans_lt ((FloatFmt.raw_le flush a).trans_lt ha)

include hb

theorem tfpElem_fits (op : VOp) (d : Nat) : Fits f.width (tfpElem op f rm flush a b d) := by
  have plain {x : Nat} (small : x < 2 ^ f.width) : Fits f.width (x, 0) := ⟨small, no_flags⟩
  cases op with
  | fadd | fsub => exact written_fits rm flush (addVal_flags_lt ..) _
  | fmul => exact written_fits rm flush (mulVal_flags_lt ..) _
  | fma => exact written_fits rm flush (Nat.or_lt_two_pow (n := 5) (mulVal_flags_lt ..) (addVal_flags_lt ..)) _
  | fmin => exact plain (FloatFmt.fMin_eq flush flushes ha hb ▸ FloatFmt.pick_lt flush true ha hb)
  | fmax => exact plain (FloatFmt.fMax_eq flush flushes ha hb ▸ FloatFmt.pick_lt flush false ha hb)
  | fabs => exact plain (fAbs_lt flush flushes ha)
  | frint => exact plain (fRint_lt rm flush flushes ha)
  | fexp => exact fExp_fits ..
  | fins => exact fIns_fits ..
  | frcp => exact fRcp_fits ..
  | frsq => exact fRsq_fits ..
  | _ => exact plain (Nat.two_pow_pos _)

end

/-- The operations of TFP. -/
def VOp.isTfp : VOp → Bool
  | .fadd | .fsub | .fmul | .fma | .fmin | .fmax | .fabs | .frint | .fexp | .fins | .frcp | .frsq => true
  | _ => false

section
variable {f : Nat} {ff : FloatFmt} (float : tileFmt f = .flt ff) (flushes : ff.flushes = true) (whole : Bool) (v : VIn)
include float

theorem tileFmt_float : IntWidth ff.width := by
  have width := tileFmt_width f
  rwa [float] at width

theorem vRow_tfp {op : VOp} (is : op.isTfp = true) : vRow op f whole v = lanes2 v ff.width (tfpElem op ff v.rm v.flush) := by
  cases op with
  | fadd | fsub | fmul | fma | fmin | fmax | fabs | frint | fexp | fins | frcp | frsq => rw [vRow, float]; rfl
  | _ => exact absurd is Bool.false_ne_true

include flushes

/-- A TFP operation gives each element the value g, where that is what the operation makes of elements of the format. -/
theorem tfp_is {op : VOp} (is : op.isTfp = true) {g : Nat → Nat × Flags}
    (value : ∀ i, tfpElem op ff v.rm v.flush (lane ff.width v.a i) (v.bl ff.width i) (lane ff.width v.d i) = g i) :
    RowIs (vRow op f whole v) ff.width (512 / ff.width) (fun i => v.guard.testBit (ff.width * i / 8)) g := by
  rw [vRow_tfp float whole v is]
  exact (lanes2_is (tileFmt_float float).element fun a b d ha hb _ => tfpElem_fits v.rm v.flush flushes ha hb op d).congr
    fun i _ _ => value i

omit flushes in
theorem fcmp_is {c : Nat} {ordered : Bool} {p : Val → Val → Bool} (value : ∀ x y, fcmpElem c ff v.flush x y =
      (p (readFloat v.flush ff x) (readFloat v.flush ff y),
        if ordered && (isNaN (readFloat v.flush ff x) || isNaN (readFloat v.flush ff y)) then flNV else 0)) :
    let rd (x : Nat) : Val := readFloat v.flush ff x
    let on (i : Nat) : Bool := v.guard.testBit (ff.width * i / 8)
    RowCompares (vRow (.fcmp c) f whole v) whole ff.width (512 / ff.width) on
      (fun i => p (rd (lane ff.width v.a i)) (rd (v.bl ff.width i))) ∧
    RowFlags (vRow (.fcmp c) f whole v) ff.width (512 / ff.width) on
      fun i => if ordered && (isNaN (rd (lane ff.width v.a i)) || isNaN (rd (v.bl ff.width i))) then flNV else 0 := by
  have row : vRow (.fcmp c) f whole v = cmpRow v whole ff.width (fcmpElem c ff v.flush) := by rw [vRow, float]; rfl
  rw [row, show fcmpElem c ff v.flush = _ from funext fun x => funext (value x)]
  exact cmpRow_is (tileFmt_float float) fun x y => by dsimp only; split <;> decide

/-- A reduction of floating-point numbers. -/
theorem redFloat_is {op : VOp} {step : Nat → Nat → Nat × Flags} (row : vRow op f whole v = redRow v op f)
    (agree : ∀ x y, x < 2 ^ ff.width → y < 2 ^ ff.width → redStep op (.flt ff) v.rm v.flush x y = step x y)
    (keeps : ∀ x y, x < 2 ^ ff.width → y < 2 ^ ff.width → Fits ff.width (step x y)) :
    RowReduces (vRow op f whole v) ff.width (512 / ff.width) (min (v.bl 32 0 % 8) (Nat.log2 (512 / ff.width)))
      (fun i => v.guard.testBit (ff.width * i / 8)) (fun i => ff.pass v.flush (lane ff.width v.a i)) step := by
  have same : vRow op f whole v =
      redOf v ff.width (fun i => passFloat v.flush ff (lane ff.width v.a i)) (redStep op (.flt ff) v.rm v.flush) := by
    rw [row, redRow, float]
    rfl
  have leaves : (fun i => passFloat v.flush ff (lane ff.width v.a i)) = fun i => ff.pass v.flush (lane ff.width v.a i) :=
    funext fun i => FloatFmt.passFloat_eq v.flush flushes (lane_lt ..)
  rw [same, leaves]
  exact redOf_is v (tileFmt_float float) (fun i => FloatFmt.pass_lt v.flush (lane_lt ..)) agree keeps

end

theorem eqVal_comm (u v : Val) : eqVal u v = eqVal v u := by
  rw [eqVal, eqVal, Bool.and_comm (!isNaN u), Bool.and_right_comm]

theorem tileFloats {f : Nat} {ff : FloatFmt} (float : tileFmt f = .flt ff) (flushes : ff.flushes = true) (whole : Bool) (v : VIn) :
    TileFloats f whole v ff := by
  unfold TileFloats
  intro w n on a b row rd out signed nan raw pass key pick add cmp num red
  have tfp {op : VOp} (is : op.isTfp = true) {g : Nat → Nat × Flags}
      (value : ∀ i, tfpElem op ff v.rm v.flush (a i) (b i) (lane w v.d i) = g i) : row op g := tfp_is float flushes whole v is value
  have ha (i : Nat) : a i < 2 ^ ff.width := lane_lt ..
  have hb (i : Nat) : b i < 2 ^ ff.width := bl_lt ..
  have compare (c : Nat) (ordered : Bool) (p : Val → Val → Bool) (value : ∀ x y, fcmpElem c ff v.flush x y =
      (p (rd x) (rd y), if ordered && (isNaN (rd x) || isNaN (rd y)) then flNV else 0)) : cmp c ordered p := fcmp_is float whole v value
  have number (x y : Val) : num x y = !(isNaN x || isNaN y) := (Bool.not_or ..).symm
  refine ⟨tfp rfl fun _ => rfl, tfp rfl fun _ => rfl, tfp rfl fun _ => rfl, tfp rfl fun _ => rfl,
    tfp rfl fun i => congrArg (·, 0) (FloatFmt.fMin_eq v.flush flushes (ha i) (hb i)),
    tfp rfl fun i => congrArg (·, 0) (FloatFmt.fMax_eq v.flush flushes (ha i) (hb i)),
    tfp rfl fun i => congrArg (·, 0) (FloatFmt.fAbs_eq v.flush flushes (ha i)), tfp rfl fun i => ?_, tfp rfl fun i => ?_,
    tfp rfl fun i => ?_, ⟨fun i => fRcp ff v.flush (a i), tfp rfl fun _ => rfl, fun i _ => ?_⟩,
    ⟨fun i => fRsq ff v.flush (a i), tfp rfl fun _ => rfl, fun i _ => ?_⟩,
    compare 0 false (fun x y => num x y && !ltVal x y && !ltVal y x) fun _ _ => rfl, compare 1 true ltVal fun _ _ => rfl,
    compare 2 true (fun x y => num x y && !ltVal y x) fun x y => ?_, compare 3 false (fun x y => isNaN x || isNaN y) fun _ _ => rfl,
    compare 4 true (fun x y => ltVal y x) fun _ _ => rfl, compare 5 true (fun x y => num x y && !ltVal x y) fun x y => ?_,
    redFloat_is float flushes whole v rfl (fun _ _ _ _ => rfl) fun x y _ _ => written_fits v.rm v.flush (addVal_flags_lt ..) _,
    redFloat_is float flushes whole v rfl (fun x y hx hy => congrArg (·, 0) (FloatFmt.fMax_eq v.flush flushes hx hy))
      fun x y hx hy => ⟨FloatFmt.pick_lt v.flush false hx hy, no_flags⟩,
    redFloat_is float flushes whole v rfl (fun x y hx hy => congrArg (·, 0) (FloatFmt.fMin_eq v.flush flushes hx hy))
      fun x y hx hy => ⟨FloatFmt.pick_lt v.flush true hx hy, no_flags⟩⟩
  · show (fRint ff v.rm v.flush (a i), 0) = _
    rw [fRint_eq v.flush flushes v.rm (ha i)]
    show _ = match readFloat v.flush ff (a i) with | .nan => _ | .inf _ => _ | .fin neg m e => _
    cases readFloat v.flush ff (a i) <;> rfl
  · exact fExp_eq v.flush flushes (a i)
  · exact fIns_eq v.flush v.rm (a i) (b i)
  · show match readFloat v.flush ff (a i) with | .nan => _ | .inf neg => _ | .fin neg m e => _
    cases read : readFloat v.flush ff (a i) with
    | nan => dsimp only; rw [fRcp, read]
    | inf neg => dsimp only; rw [fRcp, read]; rfl
    | fin neg m e =>
      refine ⟨fun zero => ?_, fun nonzero => fRcp_number ff v.flush nonzero read⟩
      dsimp only
      rw [fRcp, read]
      exact if_pos zero
  · show match readFloat v.flush ff (a i) with | .nan => _ | .inf neg => _ | .fin neg m e => _
    cases read : readFloat v.flush ff (a i) with
    | nan | inf => dsimp only; rw [fRsq, read]
    | fin neg m e =>
      refine ⟨fun zero => ?_, fun nonzero negative => ?_, fun nonzero positive => ?_⟩
      · dsimp only
        rw [fRsq, read]
        exact if_pos zero
      · dsimp only
        rw [fRsq, read]
        exact (if_neg nonzero).trans (if_pos negative)
      · subst positive
        exact fRsq_number ff v.flush nonzero read
  · exact congrArg (·, _) ((le_eq ..).trans (by rw [number]))
  · refine congrArg (·, _) ?_
    rw [eqVal_comm, le_eq, number, Bool.or_comm]

end Sys2Proof.Machine

namespace Sys2Proof.Machine

/-! ### Conversions (R48, R230) -/

theorem convertInt_lt (sg : Bool) (w : Nat) (rm : Round) (sat : Bool) (x : Val) : Fits w (convertInt sg w rm sat x) := by
  have bad (z : Int) : Fits w (intBits w z, flNV) := ⟨intBits_lt .., flNV_lt⟩
  unfold convertInt
  cases x with
  | nan | inf => exact bad _
  | fin neg m e =>
    dsimp only
    split
    · exact bad _
    split
    · exact bad _
    · exact ⟨intBits_lt .., by dsimp only; split <;> decide⟩

theorem cvtElem_fits (s d : TileFmt) (rm : Round) (flush sat : Bool) (x : Nat) : Fits d.width (cvtElem s d rm flush sat x) := by
  cases d with
  | flt t => cases s <;> exact flushResult_fits t flush (convertFloat_fits t rm sat _)
  | int sg w => cases s with
    | flt s => exact convertInt_lt ..
    | int t ws =>
      refine ⟨?_, no_flags⟩
      show convertIntInt sat sg w _ < 2 ^ w
      rw [convertIntInt]
      split <;> exact intBits_lt ..

/-- Elements of whole bytes have their own first bytes. -/
theorem IntWidth.byteOf_inj {w : Nat} (width : IntWidth w) {i j : Nat} (same : byteOf w i = byteOf w j) : i = j := by
  unfold byteOf at same
  rcases width with rfl | rfl | rfl <;> omega

/-- The element of the source that element i of the destination is converted from. -/
def cvtPlace (ns nd q i : Nat) : Nat := if ns = nd then i else if nd < ns then q * nd + i else i - q * ns

/-- The elements of the destination that a part of the source fills. -/
def cvtFilled (ns nd q i : Nat) : Bool := decide (nd ≤ ns) || decide (q * ns ≤ i ∧ i < q * ns + ns)

theorem cvtRow_is (f d q : Nat) (sat : Bool) (v : VIn) :
    let ns := 512 / (tileFmt f).width
    let nd := 512 / (tileFmt d).width
    RowIs (cvtRow v f d q sat) (tileFmt d).width nd (fun i => v.guard.testBit ((tileFmt d).width * i / 8) && cvtFilled ns nd q i)
      fun i => cvtElem (tileFmt f) (tileFmt d) v.rm v.flush sat (lane (tileFmt f).width v.a (cvtPlace ns nd q i)) := by
  intro ns nd
  have width := tileFmt_width d
  let element (i : Nat) : Nat × Flags :=
    cvtElem (tileFmt f) (tileFmt d) v.rm v.flush sat (lane (tileFmt f).width v.a (cvtPlace ns nd q i))
  have row : cvtRow v f d q sat =
      mkRow (tileFmt d).width nd v.guard fun i => if cvtFilled ns nd q i then .some (element i) else .none := by
    refine congrArg (mkRow (tileFmt d).width nd v.guard) (funext fun i => ?_)
    show (if nd ≤ ns then Option.some (cvtElem _ _ _ _ _ (lane _ _ (if ns = nd then i else q * nd + i)))
      else if (q * ns ≤ i && i < q * ns + ns) = true then .some (cvtElem _ _ _ _ _ (lane _ _ (i - q * ns))) else .none) = _
    by_cases narrower : nd ≤ ns
    · have place : (if ns = nd then i else q * nd + i) = cvtPlace ns nd q i := by
        rw [cvtPlace]
        split
        · rfl
        · rw [if_pos (by omega)]
      rw [if_pos narrower, place, cvtFilled, decide_eq_true narrower, Bool.true_or, if_pos rfl]
    · have place : cvtPlace ns nd q i = i - q * ns := by rw [cvtPlace, if_neg (by omega), if_neg (by omega)]
      simp only [if_neg narrower, element, place, cvtFilled, decide_eq_false narrower, Bool.false_or, Bool.decide_and]
  rw [row]
  have written := mkRow_is (n := nd) (guard := v.guard) (f := fun i => if cvtFilled ns nd q i then .some (element i) else .none)
    width.element (fun i _ => ?_) fun i j same => by rw [width.byteOf_inj same]
  · rw [show writtenOf (tileFmt d).width v.guard (fun i => if cvtFilled ns nd q i then .some (element i) else .none) =
      fun i => v.guard.testBit ((tileFmt d).width * i / 8) && cvtFilled ns nd q i from funext fun i => by
        rw [writtenOf]
        cases cvtFilled ns nd q i <;> rfl] at written
    refine written.congr fun i _ on => ?_
    rw [if_pos (Bool.and_eq_true_iff.1 on).2]
    rfl
  · split
    · exact cvtElem_fits ..
    · exact ⟨Nat.two_pow_pos _, no_flags⟩

theorem tileConverts (f d q : Nat) (sat whole : Bool) (v : VIn) : TileConverts f d q sat whole v := by
  unfold TileConverts
  intro ws wd ns nd x on wrap whole_ _
  refine (cvtRow_is f d q sat v).congr fun i _ _ => ?_
  show cvtElem (tileFmt f) (tileFmt d) v.rm v.flush sat (x i) = _
  have small : x i < 2 ^ ws := lane_lt ..
  cases source : tileFmt f with
  | flt s => cases dest : tileFmt d with
    | flt t => rfl
    | int sg w =>
      have wide : w = wd := (congrArg TileFmt.width dest).symm
      rw [wide]
      show convertInt sg wd v.rm sat (readFloat v.flush s (x i)) = _
      dsimp only
      cases readFloat v.flush s (x i) <;> rfl
  | int sg w =>
    have wide : w = ws := (congrArg TileFmt.width source).symm
    have value : intOf sg w (x i) = whole_ sg (x i) := by
      rw [wide, intOf_eq small]
      rfl
    cases dest : tileFmt d with
    | flt t =>
      show flushResult v.flush t (convertFloat t v.rm sat (valOfInt (intOf sg w (x i)))) = _
      rw [value]
      rfl
    | int t w' =>
      have wide' : w' = wd := (congrArg TileFmt.width dest).symm
      show (convertIntInt sat t w' (intOf sg w (x i)), 0) = _
      rw [value, wide']
      cases sat <;> rfl

/-! ### Block images (R231, R233, R234) -/

/-- The value of a pattern of a narrow format, with no more bits than that has. -/
def Narrow.valueOf (n : Narrow) (c : Nat) : Val :=
  match n with
  | .flt t => decodeFloat t c
  | .int w => valOfInt (intVal true w c)
  | .tern => .fin (c == 3) (c % 2) 0

theorem Narrow.value_eq {n : Narrow} {c : Nat} (small : c < 2 ^ n.width) : n.value c = n.valueOf c := by
  cases n with
  | flt t => rfl
  | int w => exact congrArg valOfInt (intOf_eq small)
  | tern =>
    have code : c < 4 := small
    interval_cases c <;> rfl

theorem tileDequantises {f : Nat} {ff : FloatFmt} (float : tileFmt f = .flt ff) (k : Nat) (hi u whole : Bool) (v : VIn) :
    TileDequantises f k hi u whole v ff := by
  unfold TileDequantises
  intro nf s
  have row : vRow (.deq k hi u) f whole v = mkRow ff.width (512 / ff.width) v.guard fun i =>
      let x := nf.value (lane nf.width v.a (if hi then 16 + i else i))
      .some (if s = 255 || isNaN x then (ff.nanBits, 0) else writeFloat v.flush ff v.rm (scaleVal ((s : Int) - 127) x)) := by
    show deqRow v f k hi u = _
    rw [deqRow, float]
  rw [row]
  refine (mkRow_all_is (tileFmt_float float).element fun i _ => ?_).congr fun i _ _ => ?_
  · generalize nf.value _ = x
    split
    · exact nan_fits ff no_flags
    · exact writeFloat_fits ..
  · rw [Narrow.value_eq (lane_lt ..)]
    show _ = match nf.valueOf (lane nf.width v.a (if hi then 16 + i else i)) with | .fin neg m e => _ | .inf neg => _ | .nan => _
    cases nf.valueOf (lane nf.width v.a (if hi then 16 + i else i)) with
    | nan => exact if_pos (Bool.or_true _)
    | inf neg | fin neg m e => exact if_congr (by simp [isNaN]) rfl rfl

theorem tileScales (f k : Nat) (hi whole : Bool) (v : VIn) : TileScales f k hi whole v := by
  unfold TileScales
  intro o at_
  have row : o = scxRow v k hi := rfl
  by_cases off : v.guard % 2 ^ 64 = 0
  · have none : o = { val := 0, mask := 0, tfl := 0 } := row.trans (if_pos off)
    rw [none]
    exact ⟨rfl, fun _ => rfl, fun on => absurd off on⟩
  · have some : o = { val := lane 8 v.a ((narrowFmt k).bytes - 1) * 2 ^ (8 * at_), mask := 2 ^ at_, tfl := 0 } := row.trans (if_neg off)
    rw [some]
    refine ⟨rfl, fun on => absurd on off, fun _ => ⟨rfl, ?_⟩⟩
    dsimp only
    rw [lane, Nat.mul_div_cancel _ (Nat.two_pow_pos _), lane, Nat.mod_mod]

end Sys2Proof.Machine

namespace Sys2Proof.Machine

/-! ### Magnitudes (R232) -/

/-- The comparison of magnitudes is that of the numbers. -/
theorem ltMag_iff (m : Nat) (e : Int) (n : Nat) (g : Int) : ltMag m e n g = true ↔ (m : ℚ) * 2 ^ e < n * 2 ^ g := by
  have two : (2 : ℚ) ≠ 0 := by norm_num
  have power {a b : Int} (le : a ≤ b) : (2 : ℚ) ^ b = 2 ^ (b - a).toNat * 2 ^ a := by
    rw [← zpow_natCast, ← zpow_add₀ two]
    congr 1
    omega
  unfold ltMag
  split
  · next le =>
    rw [power le, ← mul_assoc, mul_lt_mul_iff_left₀ (zpow_pos (by norm_num) e), decide_eq_true_eq]
    norm_cast
  · next gt =>
    rw [power (le_of_not_ge gt), ← mul_assoc, mul_lt_mul_iff_left₀ (zpow_pos (by norm_num) g), decide_eq_true_eq]
    norm_cast

/-- The magnitude of a number. -/
def Val.size : Val → ℚ
  | .fin _ m e => m * 2 ^ e
  | _ => 0

theorem size_nonneg (x : Val) : 0 ≤ x.size := by
  cases x with
  | nan | inf => exact le_rfl
  | fin _ m e => exact mul_nonneg (Nat.cast_nonneg m) (zpow_nonneg (by norm_num) e)

/-- A value is no number. -/
def Val.isSpecial : Val → Bool
  | .fin _ _ _ => false
  | _ => true

theorem isSpecial_iff {x : Val} : x.isSpecial = true ↔ ∀ neg m e, x ≠ .fin neg m e := by
  cases x with
  | nan | inf => exact iff_of_true rfl nofun
  | fin neg m e => exact iff_of_false Bool.false_ne_true fun none => none neg m e rfl

/-- The greater of two numbers is one of them and no smaller than either. -/
theorem maxMagVal_is {x y : Val} (number : x.isSpecial = false) (number' : y.isSpecial = false) :
    (maxMagVal x y = x ∨ maxMagVal x y = y) ∧ x.size ≤ (maxMagVal x y).size ∧ y.size ≤ (maxMagVal x y).size := by
  cases x with
  | nan | inf => exact absurd number Bool.noConfusion
  | fin s m e => cases y with
    | nan | inf => exact absurd number' Bool.noConfusion
    | fin t n g =>
      have less := ltMag_iff m e n g
      rw [maxMagVal]
      split
      · next lt => exact ⟨.inr rfl, (less.1 lt).le, le_rfl⟩
      · next ge => exact ⟨.inl rfl, le_rfl, not_lt.1 (mt less.2 ge)⟩

/-- The greatest of some numbers is one of them and no smaller than any. -/
theorem foldl_maxMagVal_is (l : List Val) {a : Val} (number : a.isSpecial = false) (numbers : ∀ x ∈ l, x.isSpecial = false) :
    l.foldl maxMagVal a ∈ a :: l ∧ ∀ x ∈ a :: l, x.size ≤ (l.foldl maxMagVal a).size := by
  induction l generalizing a with
  | nil => exact ⟨List.mem_singleton_self a, fun x mem => (List.mem_singleton.1 mem ▸ le_rfl)⟩
  | cons y l ih =>
    obtain ⟨one, above, above'⟩ := maxMagVal_is number (numbers y List.mem_cons_self)
    have next : (maxMagVal a y).isSpecial = false := by
      rcases one with same | same <;> rw [same]
      · exact number
      · exact numbers y List.mem_cons_self
    obtain ⟨mem, greatest⟩ := ih next fun x mem => numbers x (List.mem_cons_of_mem y mem)
    rw [List.foldl_cons]
    constructor
    · rcases List.mem_cons.1 mem with first | later
      · rw [first]
        rcases one with same | same <;> rw [same] <;> simp
      · exact List.mem_cons_of_mem a (List.mem_cons_of_mem y later)
    · intro x mem
      have first := greatest _ List.mem_cons_self
      rcases List.mem_cons.1 mem with rfl | mem
      · exact above.trans first
      rcases List.mem_cons.1 mem with rfl | mem
      · exact above'.trans first
      · exact greatest x (List.mem_cons_of_mem _ mem)

/-! ### Quantisation (R232) -/

/-- The 32 values that `tquant` reads, those of disabled elements as +0. -/
def quantInput (v : VIn) (ff : FloatFmt) (j : Nat) : Val :=
  if v.guard.testBit (2 * j) then readFloat v.flush ff (lane 16 v.a j) else .fin false 0 0

/-- The scale that fits a greatest magnitude. -/
def scaleOf (nf : Narrow) (x : Val) : Nat :=
  match x with
  | .fin _ 0 _ => 127
  | _ => (max 0 (min 254 (topBit x - nf.emax + 127))).toNat

theorem scaleOf_number (nf : Narrow) (neg : Bool) (m : Nat) (g : Int) : scaleOf nf (.fin neg m g) =
    if m = 0 then 127 else (max 0 (min 254 ((Nat.log2 m : Int) + g - nf.emax + 127))).toNat := by
  cases m <;> rfl

/-- The scale byte of 32 values. -/
def quantScale (nf : Narrow) (x : Nat → Val) : Nat :=
  if ((List.range 32).map x).any Val.isSpecial then 255
  else scaleOf nf (((List.range 32).map x).foldl maxMagVal (.fin false 0 0))

/-- One element of the block image with its flags, of 32 values with scale e. -/
def quantOut (nf : Narrow) (rm : Round) (e : Nat) (x : Val) : Nat × Flags :=
  let r := quantElem nf rm e x
  (r.1, if e = 255 then (if x.isSpecial then flNV else 0) else r.2)

section
variable {nf : Narrow} {x : Nat → Val}

theorem scaleOf_lt (nf : Narrow) (u : Val) : scaleOf nf u < 255 := by
  unfold scaleOf
  split
  · decide
  · omega

theorem quantScale_lt (nf : Narrow) (x : Nat → Val) : quantScale nf x < 256 := by
  unfold quantScale
  split
  · decide
  · exact (scaleOf_lt ..).trans (by decide)

theorem quantScale_special (some : ∃ j < 32, (x j).isSpecial = true) : quantScale nf x = 255 := by
  obtain ⟨j, inside, special⟩ := some
  exact if_pos (List.any_eq_true.2 ⟨x j, List.mem_map.2 ⟨j, List.mem_range.2 inside, rfl⟩, special⟩)

theorem quantScale_numbers (numbers : ∀ j < 32, (x j).isSpecial = false) :
    quantScale nf x = scaleOf nf (((List.range 32).map x).foldl maxMagVal (.fin false 0 0)) := by
  refine if_neg fun any => ?_
  obtain ⟨u, mem, special⟩ := List.any_eq_true.1 any
  obtain ⟨j, inside, rfl⟩ := List.mem_map.1 mem
  exact Bool.false_ne_true ((numbers j (List.mem_range.1 inside)).symm.trans special)

/-- The scale of numbers is that of a greatest one. -/
theorem quantScale_greatest (numbers : ∀ j < 32, (x j).isSpecial = false) :
    ∃ i < 32, quantScale nf x = scaleOf nf (x i) ∧ ∀ j < 32, (x j).size ≤ (x i).size := by
  obtain ⟨mem, greatest⟩ := foldl_maxMagVal_is ((List.range 32).map x) (a := .fin false 0 0) rfl fun u mem => by
    obtain ⟨j, inside, rfl⟩ := List.mem_map.1 mem
    exact numbers j (List.mem_range.1 inside)
  rw [quantScale_numbers numbers]
  generalize ((List.range 32).map x).foldl maxMagVal (.fin false 0 0) = top at mem greatest
  have above (j : Nat) (inside : j < 32) : (x j).size ≤ top.size :=
    greatest _ (List.mem_cons_of_mem _ (List.mem_map.2 ⟨j, List.mem_range.2 inside, rfl⟩))
  rcases List.mem_cons.1 mem with rfl | one
  · refine ⟨0, by decide, ?_, fun j inside => (above j inside).trans ?_⟩
    · have least := above 0 (by decide)
      have number := numbers 0 (by decide)
      generalize x 0 = u at least number
      cases u with
      | nan | inf => exact Bool.noConfusion number
      | fin neg m g =>
        have zero : m = 0 := by
          have power : (0 : ℚ) < 2 ^ g := zpow_pos (by norm_num) g
          rw [Val.size, Val.size, Nat.cast_zero, zero_mul] at least
          exact_mod_cast le_antisymm (nonpos_of_mul_nonpos_left least power) (Nat.cast_nonneg m)
        rw [zero, scaleOf_number]
        rfl
    · rw [Val.size, Nat.cast_zero, zero_mul]
      exact size_nonneg _
  · obtain ⟨i, inside, rfl⟩ := List.mem_map.1 one
    exact ⟨i, List.mem_range.1 inside, rfl, above⟩

theorem not_ltMag {m n : Nat} {e g : Int} {s t : Bool} (le : (Val.fin t n g).size ≤ (Val.fin s m e).size) : ltMag m e n g = false :=
  Bool.eq_false_of_not_eq_true (mt (ltMag_iff ..).1 le.not_gt)

end

theorem quantElem_fits (nf : Narrow) (rm : Round) (e : Nat) (x : Val) : Fits nf.width (quantElem nf rm e x) := by
  unfold quantElem
  cases nf with
  | flt f =>
    dsimp only
    split
    · exact nan_fits f no_flags
    · exact convertFloat_fits ..
  | int w =>
    have clamped (z : Int) : Fits w (intBits w z, flOF + flNX) := ⟨intBits_lt .., (by decide : flOF + flNX < 32)⟩
    dsimp only
    split
    · exact ⟨Nat.two_pow_pos _, no_flags⟩
    split
    · split
      · exact clamped _
      split
      · exact clamped _
      · exact ⟨intBits_lt .., by dsimp only; split <;> decide⟩
    · exact ⟨Nat.two_pow_pos _, no_flags⟩
  | tern => exact ⟨Nat.two_pow_pos _, no_flags⟩

theorem quantOut_fits (nf : Narrow) (rm : Round) (e : Nat) (x : Val) : Fits nf.width (quantOut nf rm e x) := by
  obtain ⟨value, flags⟩ := quantElem_fits nf rm e x
  refine ⟨value, ?_⟩
  show (if e = 255 then (if x.isSpecial then flNV else 0) else (quantElem nf rm e x).2) < 32
  split
  · split
    · exact flNV_lt
    · exact no_flags
  · exact flags

theorem gathered_congr {g g' : Nat → Nat} {n : Nat} (same : ∀ i < n, g i = g' i) : gathered g n = gathered g' n := by
  induction n with
  | zero => rfl
  | succ n ih => rw [gathered, gathered, ih fun i inside => same i (Nat.lt_succ_of_lt inside), same n (Nat.lt_succ_self n)]

/-- The row of a quantisation under a guard that has a bit set. -/
theorem quantRow_eq {f : Nat} {ff : FloatFmt} (float : tileFmt f = .flt ff) (k : Nat) {v : VIn} (on : v.guard % 2 ^ 64 ≠ 0) :
    let nf := narrowFmt k
    let e := quantScale nf (quantInput v ff)
    let y (j : Nat) : Nat × Flags := quantOut nf v.rm e (quantInput v ff j)
    quantRow v f k =
      { val := packed nf.width (fun j => (y j).1) 32 + e * 2 ^ (8 * (nf.bytes - 1))
        mask := 2 ^ 64 - 1
        tfl := gathered (fun j => flagsAt 16 j (y j).2) 32 } := by
  intro nf e y
  let raised (j : Nat) : Flags :=
    if e = 255 then (if Val.isSpecial (((List.range 32).map (quantInput v ff)).getD j .nan) && v.guard.testBit (2 * j) then flNV else 0)
    else ((((List.range 32).map (quantInput v ff)).map (quantElem nf v.rm e)).getD j (0, 0)).2
  have row : quantRow v f k =
      { val := ((((List.range 32).map (quantInput v ff)).map (quantElem nf v.rm e)).zipIdx).foldl
          (fun acc p => acc + p.1.1 * 2 ^ (nf.width * p.2)) 0 + e * 2 ^ (8 * (nf.bytes - 1))
        mask := 2 ^ 64 - 1
        tfl := (List.range 32).foldl (fun acc j => acc ||| flagsAt 16 j (raised j)) 0 } := by
    rw [quantRow, if_neg on, float]
    rfl
  have enabled {j : Nat} (special : (quantInput v ff j).isSpecial = true) : v.guard.testBit (2 * j) = true := by
    unfold quantInput at special
    split at special
    · assumption
    · exact Bool.noConfusion special
  rw [row, List.map_map, zipIdx_map_range, List.foldl_map, foldl_or_eq]
  refine congrArg₂ (fun a b : Nat => ({ val := a + _, mask := _, tfl := b } : VOut)) (foldl_add_eq nf.width (fun j => (y j).1) 32)
    (gathered_congr fun j inside => congrArg (flagsAt 16 j) ?_)
  show (if e = 255 then _ else _) = if e = 255 then _ else _
  rw [List.getD_eq_getElem _ _ (by simpa using inside), List.getD_eq_getElem _ _ (by simpa using inside)]
  simp only [List.getElem_map, List.getElem_range]
  cases special : (quantInput v ff j).isSpecial with
  | false => rfl
  | true => rw [enabled special]; rfl

end Sys2Proof.Machine

namespace Sys2Proof.Machine

theorem narrowFmt_ne_tern {k : Nat} (some : k < 7) : narrowFmt k ≠ .tern := by
  interval_cases k <;> exact nofun

section
variable {nf : Narrow} {rm : Round} {e : Nat} {x : Val}

/-- Under scale 255 every element is NaN, or 0 where the format has none. -/
theorem quantOut_special : (quantOut nf rm 255 x).1 = (match nf with | .flt t => t.nanBits | _ => 0) ∧
    (quantOut nf rm 255 x).2 = if x.isSpecial then flNV else 0 := by
  constructor
  · show (quantElem nf rm 255 x).1 = _
    cases nf <;> rfl
  · simp only [quantOut, if_true]

/-- Under any other scale a number is scaled and converted. -/
theorem quantOut_number (scale : e ≠ 255) (some : nf ≠ .tern) (s : Bool) (m : Nat) (g : Int) :
    match (generalizing := false) nf with
    | .flt t => quantOut nf rm e (.fin s m g) = convertFloat t rm true (.fin s m (g + (127 - (e : Int))))
    | _ =>
      let z := roundInt rm s m (g + (127 - (e : Int)))
      let top : Int := 2 ^ (nf.width - 1)
      quantOut nf rm e (.fin s m g) = if top - 1 < z.1 then (intBits nf.width (top - 1), flOF + flNX)
        else if z.1 < -top then (intBits nf.width (-top), flOF + flNX) else (intBits nf.width z.1, if z.2 then flNX else 0) := by
  have plain : quantOut nf rm e (.fin s m g) = quantElem nf rm e (.fin s m g) := congrArg (Prod.mk _) (if_neg scale)
  rw [plain]
  cases nf with
  | flt t => exact if_neg scale
  | int w => exact if_neg scale
  | tern => exact absurd rfl some

end

/-- A block image: 32 elements, and a byte above them. -/
theorem blockImage {w e : Nat} {g : Nat → Nat} (small : ∀ i < 32, g i < 2 ^ w) (byte : e < 256) :
    let image := packed w g 32 + e * 2 ^ (8 * (4 * w))
    image < 2 ^ (8 * (4 * w + 1)) ∧ lane 8 image (4 * w) = e ∧ ∀ j < 32, lane w image j = g j := by
  have below := packed_lt small
  have place : 8 * (4 * w) = w * 32 := by ring
  intro image
  refine ⟨?_, ?_, fun j inside => ?_⟩
  · have last : (e + 1) * 2 ^ (w * 32) ≤ 2 ^ 8 * 2 ^ (w * 32) := Nat.mul_le_mul_right _ byte
    rw [Nat.mul_succ, place, Nat.pow_add, Nat.mul_comm _ (2 ^ 8)]
    rw [Nat.add_mul, Nat.one_mul] at last
    show packed w g 32 + e * 2 ^ (8 * (4 * w)) < _
    rw [place]
    omega
  · show (packed w g 32 + e * 2 ^ (8 * (4 * w))) / 2 ^ (8 * (4 * w)) % 2 ^ 8 = e
    rw [Nat.add_mul_div_right _ _ (Nat.two_pow_pos _), place, Nat.div_eq_of_lt below, Nat.zero_add]
    exact Nat.mod_eq_of_lt byte
  · show lane w (packed w g 32 + e * 2 ^ (8 * (4 * w))) j = g j
    rw [place, lane_add_high w _ _ inside, lane_packed small inside]

theorem tileQuantises {f : Nat} {ff : FloatFmt} (float : tileFmt f = .flt ff) {k : Nat} (some : k < 7) (whole : Bool) (v : VIn) :
    TileQuantises f k whole v ff := by
  unfold TileQuantises
  intro nf o en x special wrap top
  have row : o = quantRow v f k := rfl
  refine ⟨fun off => ?_, fun on => ?_⟩
  · have none : o = { val := 0, mask := 0, tfl := 0 } := row.trans (if_pos off)
    rw [none]
    exact ⟨rfl, rfl⟩
  have input : quantInput v ff = x := rfl
  have kind (j : Nat) : (x j).isSpecial = true ↔ special j := isSpecial_iff
  let e := quantScale nf x
  let y (j : Nat) : Nat × Flags := quantOut nf v.rm e (x j)
  have fits (j : Nat) : Fits nf.width (y j) := quantOut_fits ..
  have image : o = { val := packed nf.width (fun j => (y j).1) 32 + e * 2 ^ (8 * (nf.bytes - 1)), mask := 2 ^ 64 - 1,
                     tfl := gathered (fun j => flagsAt 16 j (y j).2) 32 } := row.trans (quantRow_eq float k on)
  have numbers (none : ∀ j < 32, ¬ special j) : ∀ j < 32, (x j).isSpecial = false :=
    fun j inside => Bool.eq_false_of_not_eq_true (mt (kind j).1 (none j inside))
  obtain ⟨size, scale, element⟩ := blockImage (fun j _ => (fits j).value) (quantScale_lt nf x)
  refine ⟨e, y, ?_⟩
  rw [image]
  refine ⟨rfl, size, scale, element, rowFlags_of rfl fun j _ _ => (fits j).flags, fun any => ?_, fun none => ?_⟩
  · have all : e = 255 := quantScale_special (by simpa only [kind] using any)
    refine ⟨all, fun j _ => ?_⟩
    have value : y j = quantOut nf v.rm 255 (x j) := congrArg (quantOut nf v.rm · (x j)) all
    obtain ⟨pattern, flags⟩ := quantOut_special (nf := nf) (rm := v.rm) (x := x j)
    rw [← value] at pattern flags
    exact ⟨pattern, fun is => flags.trans (if_pos ((kind j).2 is)), fun not => flags.trans (if_neg (mt (kind j).1 not))⟩
  · obtain ⟨i, inside, same, greatest⟩ := quantScale_greatest (nf := nf) (numbers none)
    have finite : e ≠ 255 := same.trans_ne (scaleOf_lt ..).ne
    refine ⟨⟨i, inside, ?_⟩, fun j _ s m g read => ?_⟩
    · have number := numbers none i inside
      cases read : x i with
      | nan | inf => rw [read] at number; exact Bool.noConfusion number
      | fin neg m g =>
        refine ⟨neg, m, g, rfl, fun j inside' s p h other => ?_, ?_⟩
        · have le := greatest j inside'
          rw [read, other] at le
          exact not_ltMag le
        · exact same.trans (by rw [read, scaleOf_number])
    · have value := quantOut_number (rm := v.rm) finite (narrowFmt_ne_tern some) s m g
      rw [← read] at value
      exact value

/-- Settles O40: each group of operations by the lemma of its name. A row is the sum of its elements, which `lane_packed` reads back,
and its flags are gathered bit by bit; what remains is what the operation makes of one element. -/
theorem tileElements : Obligations.TileElements :=
  ⟨fun f whole v => ⟨fun _ int => tileIntegers int whole v, fun _ float flushes => tileFloats float flushes whole v, tileMoves f whole v⟩,
    fun f k q hi u sat whole v => ⟨tileConverts f k q sat whole v, fun _ float _ some => tileQuantises float some whole v,
      fun _ float _ => tileDequantises float k hi u whole v, fun _ => tileScales f k hi whole v⟩⟩

end Sys2Proof.Machine

namespace Sys2Proof.Machine

/-! ## Loads and stores

### Reads of the state that a pending PBND leaves alone (R25, R390) -/

/-- A write that a test leaves out does not show among the writes that it takes. -/
theorem filter_insertPend {f : Pend → Bool} {p : Pend} (out : f p = false) (l : List Pend) :
    (insertPend p l).filter f = l.filter f := by
  induction l with
  | nil => simp [insertPend, out]
  | cons q l ih =>
    rw [insertPend]
    split
    · simp [out]
    · rw [List.filter_cons, List.filter_cons, ih]

section
variable (s : State) (fs : List (BitVec 5))

theorem notePbnd_herd_keeps {β : Type} (π : Herd → β) (keeps : ∀ (x : Herd) l, π { x with cores := l } = π x) (h : Nat) :
    π ((s.notePbnd fs).herd h) = π (s.herd h) := by
  rcases notePbnd_cases s fs with e | e <;> rw [e]
  exact modCore_herd_keeps s s.cur.herd s.cur.core _ π keeps h

@[simp] theorem notePbnd_level : (s.notePbnd fs).level = s.level :=
  notePbnd_R_keeps s fs (fun r => (r.frame.map Frame.level).getD 0) fun _ _ => rfl

@[simp] theorem notePbnd_scales : (s.notePbnd fs).R.k = s.R.k := notePbnd_R_keeps s fs Regs.k fun _ _ => rfl

@[simp] theorem notePbnd_box (h : Nat) : (s.notePbnd fs).box h = s.box h := by
  have frame : (s.notePbnd fs).R.frame = s.R.frame := notePbnd_R_keeps s fs Regs.frame fun _ _ => rfl
  rw [State.box, State.box?, frame, State.box, State.box?]

@[simp] theorem notePbnd_access (h : BitVec 4) (p : Word) (off : Int) (level : Nat) (rd wr scalar : Bool) (size align : Nat) :
    (s.notePbnd fs).access h p off level rd wr scalar size align = s.access h p off level rd wr scalar size align := by
  simp only [State.access, notePbnd_box, notePbnd_level, State.space, notePbnd_cur]

/-- The write of PBND lands in this cycle, so it takes no room from a result of later ones. -/
@[simp] theorem notePbnd_room (lat rows : Nat) : (s.notePbnd fs).room lat rows = s.room lat rows := by
  rcases notePbnd_cases s fs with e | e <;> rw [e]
  have me {β : Type} (π : Core → β) (keeps : ∀ k, π { k with r := k.r.queue (s.written 1 .pbnd 0) } = π k) :
      π (s.put 1 .pbnd 0).me = π s.me := modCore_core_keeps s s.cur.herd s.cur.core _ π keeps s.cur.herd s.cur.core
  have later : (s.put 1 .pbnd 0).R.pend.filter (fun p => decide ((s.put 1 .pbnd 0).tick < p.due)) =
      s.R.pend.filter fun p => decide (s.tick < p.due) :=
    me (fun k => k.r.pend.filter fun p => decide (s.tick < p.due)) fun k =>
      filter_insertPend (by simp [State.written]) k.r.pend
  have trap : (s.put 1 .pbnd 0).R.trap = s.R.trap := me (fun k => k.r.trap) fun _ => rfl
  have mode : (s.put 1 .pbnd 0).R.interlocked = s.R.interlocked := me (fun k => k.r.interlocked) fun _ => rfl
  have tile : (s.put 1 .pbnd 0).me.tile = s.me.tile := me Core.tile fun _ => rfl
  simp only [State.room, pendingSyllables, later, trap, mode, tile]
  rfl

@[simp] theorem notePbnd_banksFree (x : Reach) (size : Nat) (times : List Nat) :
    BanksFree (s.notePbnd fs) x size times ↔ BanksFree s x size times := by
  have free (t : Nat) (l : List Nat) : ((s.notePbnd fs).herd s.cur.herd).freeBanks t l = (s.herd s.cur.herd).freeBanks t l :=
    notePbnd_herd_keeps s fs (fun y => y.freeBanks t l) (fun _ _ => rfl) s.cur.herd
  unfold BanksFree
  simp only [notePbnd_cur, free]

end

/-! ### Accesses and claims that pass (R196, R198) -/

section
variable {s : State} {x : Reach}

theorem access_ok {h : BitVec 4} {b : BitVec 256} {p : Word} {off : Int} {level : Nat} {rd wr scalar : Bool} {size align : Nat}
    (box : s.box h.toNat = .ok b) (passes : AccessOk s b p off level rd wr scalar size align x) :
    s.access h p off level rd wr scalar size align = .ok x := by
  obtain ⟨mine, here, read, write, plain, inside, whole, byte, aligned, rfl⟩ := passes
  have fits : ¬ (rd && !boxReads b || wr && !boxWrites b || boxBlocked b || s.level ≠ level || (level ≠ 1 && level ≠ 2)) = true := by
    have readable : (rd && !boxReads b) = false := by cases rd <;> simp [read]
    have writable : (wr && !boxWrites b) = false := by cases wr <;> simp [write]
    simpa [readable, writable, plain, here] using mine.resolve_left
  have row : ¬ (scalar && decide (elemAddr b 0 0 (pathRow p).toNat 0 + runBytes (boxTile b) (boxFmt b) (boxExt b 0) <
      elemAddr b 0 0 (pathRow p).toNat (pathCol p off).toNat + size)) = true := by
    simpa using whole
  have even : ¬ (decide ((pathCol p off).toNat * boxWidth b % 8 ≠ 0) ||
      decide (elemAddr b 0 0 (pathRow p).toNat (pathCol p off).toNat % align ≠ 0)) = true := by
    simp [byte, aligned]
  rw [State.access, box]
  exact (if_neg fits).trans ((if_neg (by simp [inside])).trans ((if_neg row).trans (if_neg even)))

/-- A task of another level than the slot's has no memory there. -/
theorem access_wrong_level {h : BitVec 4} {b : BitVec 256} {level : Nat} (box : s.box h.toNat = .ok b) (other : s.level ≠ level)
    (p : Word) (off : Int) (rd wr scalar : Bool) (size align : Nat) :
    s.access h p off level rd wr scalar size align = raise 9 := by
  rw [State.access, box]
  exact if_pos (by simp [other])

theorem claimReach_free {size : Nat} {times : List Nat} (free : BanksFree s x size times) :
    s.claimReach x size times = .ok (s.claimed x size times) := by
  unfold BanksFree at free
  unfold State.claimReach State.claimed
  cases space : x.space with
  | dev | lm => rfl
  | hm n =>
    rw [space] at free
    exact if_pos (List.all_eq_true.2 free)

theorem readable_ok (good : NoBadByte s x) : s.readable x.space x.addrs = .ok () := if_neg (Bool.eq_false_iff.1 good)

theorem AccessOk.count_le {b : BitVec 256} {p : Word} {off : Int} {level : Nat} {rd wr scalar : Bool} {size align : Nat}
    (passes : AccessOk s b p off level rd wr scalar size align x) : x.count ≤ size := by
  obtain ⟨-, -, -, -, -, -, -, -, -, rfl⟩ := passes
  exact Nat.min_le_left ..

theorem performAt_eq {level : Nat} (mine : level = 1 ∨ level = 2) : s.performAt level = s.tick + level := by
  rcases mine with rfl | rfl <;> rfl

end

/-! ### What a core's bank claims leave alone (R198) -/

section
variable (s : State) (x : Reach) (size : Nat) (times : List Nat)

theorem foldl_claimAll_keeps {β : Type} (π : Herd → β) (keeps : ∀ (x : Herd) l, π { x with claims := l } = π x) (now : Nat)
    (banks : List Nat) (a : Agent) (h : Herd) : π (times.foldl (fun h t => h.claimAll now t banks a) h) = π h := by
  induction times generalizing h with
  | nil => rfl
  | cons t times ih => exact (ih _).trans (keeps h _)

theorem claimed_cases : s.claimed x size times = s ∨ s.claimed x size times = s.modHerd s.cur.herd fun h =>
    times.foldl (fun h t => h.claimAll s.tick t (banksOf x.addr size) (.core s.cur.core)) h := by
  unfold State.claimed
  split
  · exact .inr rfl
  · exact .inl rfl

@[simp] theorem claimed_cur : (s.claimed x size times).cur = s.cur := by
  rcases claimed_cases s x size times with e | e <;> rw [e]
  rfl

@[simp] theorem claimed_tick : (s.claimed x size times).tick = s.tick := by
  rcases claimed_cases s x size times with e | e <;> rw [e]
  rfl

theorem claimed_herd_keeps {β : Type} (π : Herd → β) (keeps : ∀ (x : Herd) l, π { x with claims := l } = π x) (h : Nat) :
    π ((s.claimed x size times).herd h) = π (s.herd h) := by
  rcases claimed_cases s x size times with e | e <;> rw [e]
  exact getD_modify_keeps π (foldl_claimAll_keeps times π keeps s.tick _ _) s.herds s.cur.herd h {}

@[simp] theorem claimed_R : (s.claimed x size times).R = s.R := by
  rw [State.R, State.me, claimed_cur]
  exact claimed_herd_keeps s x size times (fun y => (y.cores.getD s.cur.core {}).r) (fun _ _ => rfl) s.cur.herd

@[simp] theorem claimed_level : (s.claimed x size times).level = s.level := by
  rw [State.level, claimed_R, State.level]

end

section
variable (s : State) (fs : List (BitVec 5)) (x : Reach) (size : Nat) (times : List Nat)

theorem claimed_notePbnd_keeps {β : Type} (π : Herd → β) (cores : ∀ (x : Herd) l, π { x with cores := l } = π x)
    (claims : ∀ (x : Herd) l, π { x with claims := l } = π x) (h : Nat) :
    π (((s.notePbnd fs).claimed x size times).herd h) = π (s.herd h) :=
  (claimed_herd_keeps (s.notePbnd fs) x size times π claims h).trans (notePbnd_herd_keeps s fs π cores h)

theorem claimed_notePbnd_dev : ((s.notePbnd fs).claimed x size times).dev = s.dev ∧
    ((s.notePbnd fs).claimed x size times).devBad = s.devBad := by
  rcases claimed_cases (s.notePbnd fs) x size times with e | e <;> rw [e] <;>
    rcases notePbnd_cases s fs with e | e <;> rw [e] <;> exact ⟨rfl, rfl⟩

/-- A memory holds once an access has claimed its banks what it held before. -/
theorem claimed_notePbnd_memOf (sp : Space) : ((s.notePbnd fs).claimed x size times).memOf sp = s.memOf sp := by
  cases sp with
  | dev => exact (claimed_notePbnd_dev s fs x size times).1
  | hm h => exact claimed_notePbnd_keeps s fs x size times Herd.hm (fun _ _ => rfl) (fun _ _ => rfl) h
  | lm h c => exact claimed_notePbnd_keeps s fs x size times (fun y => y.lm.getD c []) (fun _ _ => rfl) (fun _ _ => rfl) h

@[simp] theorem claimed_notePbnd_readRange (sp : Space) (a n : Nat) :
    ((s.notePbnd fs).claimed x size times).readRange sp a n = s.readRange sp a n := by
  rw [State.readRange, claimed_notePbnd_memOf, State.readRange]

theorem claimed_notePbnd_badByte (sp : Space) : ((s.notePbnd fs).claimed x size times).badByte sp = s.badByte sp := by
  funext a
  cases sp with
  | dev => exact congrArg (·.contains (a / 64)) (claimed_notePbnd_dev s fs x size times).2
  | hm h =>
    exact claimed_notePbnd_keeps s fs x size times (fun y => y.hmBad.contains (codewordOf a) || y.groupLost (a / 2 ^ 21))
      (fun _ _ => rfl) (fun _ _ => rfl) h
  | lm h c => exact claimed_notePbnd_keeps s fs x size times (fun y => y.lmBad.contains (c, a / 4)) (fun _ _ => rfl) (fun _ _ => rfl) h

@[simp] theorem claimed_notePbnd_noBadByte (y : Reach) : NoBadByte ((s.notePbnd fs).claimed x size times) y ↔ NoBadByte s y := by
  unfold NoBadByte State.anyBad
  rw [claimed_notePbnd_badByte]

end

/-! ### Bytes of a row (R4, R195) -/

/-- Byte j of a row that is given as a number. -/
theorem byte_ofNat (n : Nat) {j : Nat} (inside : j < 64) :
    BitVec.extractLsb' (8 * j) 8 (BitVec.ofNat 512 n : Row512) = BitVec.ofNat 8 (n / 2 ^ (8 * j)) := by
  refine BitVec.eq_of_getLsbD_eq fun i low => ?_
  have bit : 8 * j + i < 512 := by omega
  rw [BitVec.getLsbD_extractLsb', BitVec.getLsbD_ofNat, BitVec.getLsbD_ofNat, Nat.testBit_div_two_pow, decide_eq_true bit,
    Bool.true_and, Nat.add_comm]

theorem leNat_byte (l : List Byte) (j : Nat) : BitVec.ofNat 8 (leNat l / 2 ^ (8 * j)) = l.getD j 0 := by
  induction l generalizing j with
  | nil => simp [leNat]
  | cons b l ih =>
    have small := b.isLt
    cases j with
    | zero =>
      refine BitVec.eq_of_toNat_eq ?_
      rw [leNat, BitVec.toNat_ofNat, List.getD_cons_zero]
      omega
    | succ j =>
      have rest : leNat (b :: l) / 2 ^ 8 = leNat l := by rw [leNat]; omega
      rw [List.getD_cons_succ, ← ih, show 8 * (j + 1) = 8 + 8 * j by ring, Nat.pow_add, ← Nat.div_div_eq_div_mul, rest]

theorem byte_rowOf (l : List Byte) {j : Nat} (inside : j < 64) : BitVec.extractLsb' (8 * j) 8 (rowOf l) = l.getD j 0 :=
  (byte_ofNat _ inside).trans (leNat_byte l j)

theorem readRange_getD (s : State) (sp : Space) (a n j : Nat) :
    (s.readRange sp a n).getD j 0 = if j < n then s.readByte sp (a + j) else 0 := by
  show ((List.range n).map fun j => s.readByte sp (a + j)).getD j 0 = _
  by_cases inside : j < n <;> simp [List.getD, inside]

/-- Under the full mask every byte that the window reaches is stored. -/
theorem rowBytes_whole {x : Reach} (window : x.count ≤ 64) (v : Row512) : rowBytes x v (BitVec.allOnes 64) =
    (List.range x.count).map fun j => (x.addr + j, BitVec.extractLsb' (8 * j) 8 v) := by
  have all : (List.range x.count).filter (fun j => (BitVec.allOnes 64).getLsbD j) = List.range x.count :=
    List.filter_eq_self.2 fun j mem => by
      rw [BitVec.getLsbD_allOnes]
      exact decide_eq_true ((List.mem_range.1 mem).trans_le window)
  rw [rowBytes, all]

end Sys2Proof.Machine

namespace Sys2Proof.Machine

/-! ## SCALE (R239 to R242)

### Writes from scalars (R240) -/

section
variable {s : State} {a b : BitVec 5} {x y : Word}

theorem givesSome_kbase (src : s.src a 0 = .ok x) : GivesSome (.kbase a) s [a] 1 .winBase fun w => w.toNat = x.toNat % 256 := by
  refine ⟨x &&& 0xFF#32, Nat.and_two_pow_sub_one_eq_mod x.toNat 8, ?_⟩
  show execKbase a s = _
  rw [execKbase, src]
  rfl

theorem givesSome_krow (src : s.src a 0 = .ok x) : GivesSome (.krow a) s [a] 1 .rcur fun w => w.toNat = x.toNat % 32 := by
  refine ⟨x &&& 0x1F#32, Nat.and_two_pow_sub_one_eq_mod x.toNat 5, ?_⟩
  show execKrow a s = _
  rw [execKrow, src]
  rfl

theorem exec_ksetAll (k : BitVec 3) (src : s.src a 0 = .ok x) : exec (.ksetAll a k) s = .next ((s.notePbnd [a]).enq
    { due := s.tick, dest := .scale k.toNat, val := rowOf (List.replicate 64 (x.setWidth 8)), mask := BitVec.allOnes 64 }) := by
  show execKsetAll a k s = _
  rw [execKsetAll, src]
  rfl

theorem exec_kset (k : BitVec 3) (src : s.src2 a b = .ok (x, y)) : exec (.kset a b k) s = .next ((s.notePbnd [a, b]).enq
    { due := s.tick, dest := .scale k.toNat, val := BitVec.ofNat 512 (x.toNat % 256 * 2 ^ (8 * (y.toNat % 64)))
      mask := BitVec.ofNat 64 (2 ^ (y.toNat % 64)) }) := by
  show execKset a b k s = _
  rw [execKset, src]
  rfl

end

theorem byte_replicate (b : Byte) {j : Nat} (inside : j < 64) : BitVec.extractLsb' (8 * j) 8 (rowOf (List.replicate 64 b)) = b := by
  rw [byte_rowOf _ inside, List.getD_replicate _ inside]

theorem byte_kset (x : Word) {j : Nat} (inside : j < 64) :
    BitVec.extractLsb' (8 * j) 8 (BitVec.ofNat 512 (x.toNat % 256 * 2 ^ (8 * j)) : Row512) = x.setWidth 8 := by
  rw [byte_ofNat _ inside, Nat.mul_div_cancel _ (Nat.two_pow_pos _)]
  exact BitVec.eq_of_toNat_eq (by simp)

theorem mask_kset (n : Nat) {j : Nat} (inside : j < 64) : (BitVec.ofNat 64 (2 ^ n) : Mask).getLsbD j = decide (j = n) := by
  rw [BitVec.getLsbD_ofNat, Nat.testBit_two_pow, decide_eq_true inside, Bool.true_and]
  exact decide_eq_decide.2 eq_comm

/-! ### Moves between kN and memory (R241) -/

theorem kLevel_eq {s : State} (mine : s.level = 1 ∨ s.level = 2) : s.kLevel = s.level := by
  rcases mine with core | herd
  · simp [State.kLevel, core]
  · simp [State.kLevel, herd]

/-- A store of K performs when its level has it, whatever its access has claimed. -/
theorem claimed_notePbnd_performAt (s : State) (fs : List (BitVec 5)) (x : Reach) (size : Nat) (times : List Nat) :
    let u := (s.notePbnd fs).claimed x size times
    u.performAt u.kLevel = s.performAt s.kLevel := by
  intro u
  have level : u.level = s.level := (claimed_level ..).trans (notePbnd_level ..)
  have tick : u.tick = s.tick := (claimed_tick ..).trans (notePbnd_tick ..)
  rw [State.performAt, State.kLevel, level, tick]
  rfl

section
variable {s : State} {h : BitVec 4} {a : BitVec 5} {k : BitVec 3} {x : Word} {z : BitVec 256} {q : Reach}

/-- `kld` from its path on. -/
theorem exec_kld (src : s.src a 0 = .ok x) : exec (.kld h a k) s = s.answer (do
    let q ← s.access h x 0 s.kLevel true false false 64 1
    s.room 5 1
    let u ← (s.notePbnd [a]).claimReach q 64 [s.tick + 1]
    u.readable q.space q.addrs
    return u.enq { due := u.tick + 4, dest := .scale k.toNat, val := rowOf (u.readRange q.space q.addr q.count)
                   mask := BitVec.allOnes 64 }) := by
  show execKld h a k s = _
  simp only [execKld, src, ← notePbnd_access s [a], ← notePbnd_room s [a], State.kLevel, ← notePbnd_level s [a], ← notePbnd_tick s [a]]
  rfl

/-- `kst` from its path on. -/
theorem exec_kst (src : s.src a 0 = .ok x) : exec (.kst h a k) s = s.answer (do
    let q ← s.access h x 0 s.kLevel false true false 64 1
    let u ← (s.notePbnd [a]).claimReach q 64 [s.performAt s.kLevel]
    return u.store (u.performAt u.kLevel) q.space (rowBytes q (u.R.k.getD k.toNat 0) (BitVec.allOnes 64))) := by
  show execKst h a k s = _
  simp only [execKst, src, ← notePbnd_access s [a], State.kLevel, State.performAt, ← notePbnd_level s [a], ← notePbnd_tick s [a]]
  rfl

section
variable (src : s.src a 0 = .ok x) (box : s.box h.toNat = .ok z)
include box

theorem access_chip (chip : s.level = 3) (rd wr : Bool) : s.access h x 0 s.kLevel rd wr false 64 1 = raise 9 := by
  have other : s.level ≠ s.kLevel := by simp [State.kLevel, chip]
  exact access_wrong_level box other ..

include src

theorem kld_traps (chip : s.level = 3) : Traps (.kld h a k) s 9 0 := by
  rw [Traps, exec_kld src, access_chip box chip]
  rfl

theorem kst_traps (chip : s.level = 3) : Traps (.kst h a k) s 9 0 := by
  rw [Traps, exec_kst src, access_chip box chip]
  rfl

theorem kld_loads (passes : AccessOk s z x 0 s.level true false false 64 1 q) (room : s.room 5 1 = .ok ())
    (free : BanksFree s q 64 [s.tick + 1]) (good : NoBadByte s q) :
    exec (.kld h a k) s = .next (((s.notePbnd [a]).claimed q 64 [s.tick + 1]).enq
      { due := s.tick + 4, dest := .scale k.toNat, val := rowOf (s.readRange q.space q.addr q.count), mask := BitVec.allOnes 64 }) := by
  have claim := claimReach_free ((notePbnd_banksFree s [a] q 64 [s.tick + 1]).2 free)
  have bytes := readable_ok ((claimed_notePbnd_noBadByte s [a] q 64 [s.tick + 1] q).2 good)
  simp only [exec_kld src, kLevel_eq passes.1, access_ok box passes, room, claim, bytes, bind, Except.bind, pure, Except.pure,
    claimed_notePbnd_readRange, claimed_tick, notePbnd_tick, answer_ok]

theorem kst_stores (passes : AccessOk s z x 0 s.level false true false 64 1 q) (free : BanksFree s q 64 [s.tick + s.level]) :
    exec (.kst h a k) s = .next (((s.notePbnd [a]).claimed q 64 [s.tick + s.level]).store (s.tick + s.level) q.space
      ((List.range q.count).map fun j => (q.addr + j, BitVec.extractLsb' (8 * j) 8 (s.R.k.getD k.toNat 0)))) := by
  have claim := claimReach_free ((notePbnd_banksFree s [a] q 64 [s.tick + s.level]).2 free)
  simp only [exec_kst src, kLevel_eq passes.1, access_ok box passes, performAt_eq passes.1, claim, bind, Except.bind, pure, Except.pure,
    claimed_notePbnd_performAt, rowBytes_whole passes.count_le, claimed_R, notePbnd_scales, answer_ok]

end

end

/-- Settles O37: what each write of a scalar puts into kN is read back byte by byte (`byte_rowOf`, `byte_ofNat`), and `kld` and `kst` pass
the checks that every access passes (`access_ok`, `claimReach_free`). -/
theorem scaleSyllables : Obligations.ScaleSyllables := by
  intro s h a b k x y
  refine ⟨fun src => ⟨givesSome_kbase src, givesSome_krow src, _, fun j inside => byte_replicate _ inside, exec_ksetAll k src⟩,
    fun src => ?_, fun z q src box => ⟨fun chip => ⟨kld_traps src box chip, kst_traps src box chip⟩, ?_, kst_stores src box⟩⟩
  · have inside : y.toNat % 64 < 64 := Nat.mod_lt _ (by decide)
    exact ⟨_, _, byte_kset x inside, fun j low => mask_kset _ low, exec_kset k src⟩
  · intro passes room free good
    exact ⟨_, fun j inside => (byte_rowOf _ inside).trans (readRange_getD ..), kld_loads src box passes room free good⟩

end Sys2Proof.Machine

namespace Sys2Proof.Machine

/-! ### Refutation of O44: a level that no task has -/

/-- A row of 512 INT16 at byte 0 of its level's memory, that a task may read. -/
def indexRow : BitVec 256 := 0#64 ++ 0#64 ++ 0x200#64 ++ 0x4184000000000000#64

/-- A frame at level 4: the model's `State.space` takes every level other than 1 for HM, and no rule gives a task this level. -/
def strayFrame : Frame :=
  { ctx := 0, level := 4, image := 0, task := 0, call := .none, queue := 0, boxes := .some indexRow :: List.replicate 15 .none }

/-- An `mload` that issues in cycle 0. -/
def issuingLoad : ArrCmd :=
  { id := 0, op := .mload 0, core := 0, ctx := 0, at_ := 0, fin := 9, addr := 0, geo := 0, path := 0, src := 0, dst := 0, q := 0, fmtb := 0 }

/-- A core of that level in exposed mode with 512 in s2, whose herd's array claims every bank in cycle 3 by a command of this cycle. -/
def strayState : State :=
  { State.reset with
    herds := [{
      cores := [{ r := { s := [0, 0, 512] ++ List.replicate 21 0, frame := .some strayFrame } }]
      array := { cmds := [issuingLoad] }
      claims := (List.range 32).map fun b => { at_ := 3, bank := b, agent := .arrayA 0 } }]
    cur := { slot := 1, next := 1 }
    ctxs := [{ Ctx.root {} with deleg := 0xFFFFFFFF, hentry := 0x80000040 }] }

/-- The read of the table loses its claim to the `mload` in its own cycle, which ends it as it is issued (R202). -/
theorem wgeoTab_ends_in_strayState :
    (match exec (.wgeoTab 1 2 0) strayState with
      | .next u => u.cmds.all fun c => !c.outstanding
      | _ => true) = true := by
  decide +kernel

theorem strayState_table_not_entered : ¬ Enters (.wgeoTab 1 2 0) strayState (.table 512) := by
  rintro ⟨u, c, runs, issued⟩
  have ended := wgeoTab_ends_in_strayState
  rw [runs] at ended
  have gone := List.all_eq_true.mp ended c issued.here
  simp [issued.outstanding] at gone

/-- Refutes O44: the clause of `wgeo.tab` speaks of every state whose level is not 2, and so also of one whose level is none of 1 to 3.
At level 4 the model reads HM as at level 2, where a claim of the array's in the same cycle ends the read in exposed mode (R202). -/
theorem not_walkerOthers : ¬ Obligations.WalkerOthers := by
  unfold Obligations.WalkerOthers
  rintro ⟨tables, -⟩
  have sources : strayState.src2 1 2 = .ok (0, 512) := by decide +kernel
  obtain ⟨-, -, table⟩ := tables strayState 1 2 0 0 512 sources
  obtain ⟨judged, -⟩ := table indexRow (by decide +kernel) (by decide +kernel) (by decide +kernel) (by decide +kernel)
  obtain ⟨-, enters⟩ := judged (by decide) (by decide) (by decide) (by decide +kernel)
  have bare : strayState.untranslated ≠ true := by decide +kernel
  exact strayState_table_not_entered (enters (fun chip => absurd chip bare) (.inl (by decide +kernel)))

end Sys2Proof.Machine

namespace Sys2Proof.Machine

/-! ### What a schedule in the making leaves alone: R247, R252, R253

`Reserves π` says that the projection π of the state does not see slots and bank claims, `Moves ν π` that besides it sees neither the
agenda nor what a beat that moves changes in its command, of which it sees no more than ν. The lemmas `…_keeps` then say once, for every
such projection, which operations keep it. -/

/-- A fold keeps every projection that each of its steps keeps. -/
theorem foldl_preserves {σ α β : Type} (π : σ → β) {f : σ → α → σ} (h : ∀ p a, π (f p a) = π p) (l : List α) (p : σ) :
    π (l.foldl f p) = π p := by
  induction l generalizing p with
  | nil => rfl
  | cons a l ih => exact (ih (f p a)).trans (h p a)

/-- A projection that sees neither the reserved slots nor the claims on banks. -/
structure Reserves {β : Type} (π : State → β) : Prop where
  calendar : ∀ (s : State) l, π { s with calendar := l } = π s
  claims : ∀ (s : State) h (f : Herd → List Claim), π (s.modHerd h fun x => { x with claims := f x }) = π s

section
variable {β : Type} {π : State → β} (frame : Reserves π)
include frame

theorem takeSlot_keeps (s : State) (pc t : Nat) : π (s.takeSlot pc t) = π s := frame.calendar ..

theorem dropSlot_keeps (s : State) (pc t : Nat) : π (s.dropSlot pc t) = π s := frame.calendar ..

theorem takeSlots_keeps (l : List Nat) (s : State) (r : Nat) : π (takeSlots s r l).1 = π s := by
  induction l generalizing s with
  | nil => rfl
  | cons line l ih => exact (ih _).trans (takeSlot_keeps frame ..)

theorem unclaim_keeps (s : State) (h id i : Nat) : π (s.unclaim h id i) = π s := frame.claims ..

theorem unclaimIn_keeps (s : State) (sp : Space) (id i : Nat) : π (s.unclaimIn sp id i) = π s := by
  cases sp with
  | hm h => exact unclaim_keeps frame ..
  | dev => rfl
  | lm => rfl

theorem claim_keeps (p : Plan) (sp : Space) (banks : List Nat) (t i : Nat) : π (p.claim sp banks t i).s = π p.s := by
  unfold Plan.claim
  split
  · rfl
  · dsimp only
    split
    · rfl
    · split
      · rfl
      · exact frame.claims ..

theorem place_keeps (p : Plan) (c r lo : Nat) (share : Option Beat) (b : Beat) : π (p.place c r lo share b).s = π p.s := by
  unfold Plan.place
  dsimp only
  split
  · exact claim_keeps frame ..
  · split
    · cases share with
      | some a => exact claim_keeps frame ..
      | none => exact (claim_keeps frame ..).trans (takeSlots_keeps frame ..)
    · split
      · exact (takeSlots_keeps frame ..).trans (claim_keeps frame ..)
      · cases share with
        | some a => exact claim_keeps frame ..
        | none => exact (claim_keeps frame ..).trans (claim_keeps frame ..)

theorem placeNext_keeps (p : Plan) (c r lo : Nat) (b : Beat) : π (p.placeNext c r lo b).s = π p.s := place_keeps frame ..

theorem placeReads_keeps (p : Plan) (k lo : Nat) (sp : Space) (lines : List Nat) : π (p.placeReads k lo sp lines).s = π p.s :=
  foldl_preserves (fun p : Plan => π p.s) (fun p line => by dsimp only; exact claim_keeps frame ..) lines p

theorem expandAt_keeps (p : Plan) (c r point index : Nat) (sp : Space) (addr : Nat) (given : List (Nat × Nat)) (parts : List BlockPart) :
    π (p.expandAt c r point index sp addr given parts).s = π p.s := by
  unfold Plan.expandAt
  dsimp only
  refine (foldl_preserves (fun p : Plan => π p.s) (fun _ _ => place_keeps frame ..) _ _).trans ?_
  dsimp only
  split
  · rfl
  · split
    · exact (takeSlots_keeps frame ..).trans (takeSlots_keeps frame ..)
    · exact (placeReads_keeps frame ..).trans (placeReads_keeps frame ..)

theorem placeRest_keeps (p : Plan) (c r : Nat) (header : Beat) (l : List Beat) : π (p.placeRest c r header l).s = π p.s :=
  foldl_preserves (fun p : Plan => π p.s) (fun _ _ => placeNext_keeps frame ..) l p

theorem movePacked_keeps (p : Plan) (c r point index : Nat) (sp : Space) (addr : Nat) (dest : Space) (slot part : Nat)
    (parts : List BlockPart) : π (p.movePacked c r point index sp addr dest slot part parts).s = π p.s := by
  have header (l : List Beat) : π (l.foldl (fun p b => p.placeNext c r (p.afterParts b) b) p).s = π p.s :=
    foldl_preserves (fun p : Plan => π p.s) (fun _ _ => placeNext_keeps frame ..) l p
  have expanded (l : List Beat) (q : Plan) : π (l.foldl (fun p b => p.place c r (p.afterParts b) .none b) q).s = π q.s :=
    foldl_preserves (fun p : Plan => π p.s) (fun _ _ => place_keeps frame ..) l q
  unfold Plan.movePacked
  dsimp only
  split
  · refine (expanded ..).trans ?_
    dsimp only
    split
    · exact (placeRest_keeps frame ..).trans (header _)
    · exact header _
  · dsimp only
    split
    · exact (placeRest_keeps frame ..).trans (header _)
    · exact header _

theorem placeBlock_keeps (p : Plan) (c r move at_ index : Nat) (sp : Space) (addr : Nat) (parts : List BlockPart) :
    π (p.placeBlock c r move at_ index sp addr parts).s = π p.s := by
  unfold Plan.placeBlock
  extract_lets +lift to_ slot receivers from_ q given rest
  have moved : π q.s = π p.s := by
    refine foldl_preserves (fun p : Plan => π p.s) (fun p k => ?_) receivers p
    split
    · exact movePacked_keeps frame ..
    · rfl
  split
  · exact moved
  · exact (expandAt_keeps frame ..).trans moved

theorem placePack_keeps (p : Plan) (c r point : Nat) (a : Aperture) (parts : List BlockPart) :
    π (p.placePack c r point a parts).s = π p.s :=
  foldl_preserves (fun p : Plan => π p.s) (fun _ _ => placeBlock_keeps frame ..) _ p

theorem placePlain_keeps (p : Plan) (c r : Nat) (ordered : Bool) (l : List (Cut × Nat)) : π (p.placePlain c r ordered l).s = π p.s :=
  foldl_preserves (fun p : Plan => π p.s)
    (fun p _ => foldl_preserves (fun p : Plan => π p.s) (fun _ _ => placeNext_keeps frame ..) _ p) l p

theorem placeCuts_keeps (p : Plan) (c r : Nat) (ordered : Bool) (l : List (Cut × Nat)) : π (p.placeCuts c r ordered l).s = π p.s := by
  unfold Plan.placeCuts
  dsimp only
  split
  · rfl
  · split
    · split
      · exact placePack_keeps frame ..
      · exact placePlain_keeps frame ..
    · exact (foldl_preserves (fun p : Plan => π p.s) (fun _ _ => placeBlock_keeps frame ..) _ _).trans (placePlain_keeps frame ..)

theorem readView_keeps (p : Plan) (t r : Nat) (ap : Option Aperture) (l : List (Nat × Nat × Nat × Nat)) :
    π (p.readView t r ap l).s = π p.s := by
  have placed (l : List Beat) : π (l.foldl (fun p b => p.place t r 0 .none b.toWalker) p).s = π p.s :=
    foldl_preserves (fun p : Plan => π p.s) (fun _ _ => place_keeps frame ..) l p
  unfold Plan.readView
  dsimp only
  split
  · split
    · exact foldl_preserves (fun p : Plan => π p.s) (fun _ _ => expandAt_keeps frame ..) _ _
    · exact placed _
  · exact placed _

theorem placeWrite_keeps (p : Plan) (lo : Nat) (b : Beat) : π (p.placeWrite lo b).s = π p.s := takeSlots_keeps frame ..

theorem placeChange_keeps (p : Plan) (c : Cmd) (i n t : Nat) (data hash : List Byte) :
    π (p.placeChange c i n t data hash).s = π p.s :=
  (foldl_preserves (fun p : Plan => π p.s) (fun _ _ => placeWrite_keeps frame ..) _ _).trans
    (foldl_preserves (fun p : Plan => π p.s) (fun _ _ => placeWrite_keeps frame ..) _ _)

theorem placeCount_keeps (p : Plan) (c : Cmd) (n t : Nat) : π (p.placeCount c n t).s = π p.s :=
  foldl_preserves (fun p : Plan => π p.s) (fun _ _ => placeWrite_keeps frame ..) _ _

end

/-- A projection that, besides slots and claims, sees neither the agenda nor when calls and table reads are done, and of a command no
more than ν, which does not see when its beats and blocks come. -/
structure Moves {β γ : Type} (ν : Cmd → γ) (π : State → β) : Prop extends Reserves π where
  agenda : ∀ (s : State) l, π { s with agenda := l } = π s
  calls : ∀ (s : State) l, π { s with calls := l } = π s
  cmd : ∀ (s : State) id f, (∀ c, ν (f c) = ν c) → π (s.modCmd id f) = π s
  table : ∀ (s : State) (c : Cmd) (f : Regs → Regs), (∀ r, ∃ t, f r = { r with tabAt := t }) → π (s.modIssuer c f) = π s
  promise : ∀ (c : Cmd) t, ν { c with promise := t } = ν c
  packed : ∀ (c : Cmd) l, ν { c with packed := l } = ν c
  performAt : ∀ (c : Cmd) i t, ν { c with beats := c.beats.modify i fun b => { b with performAt := t } } = ν c

section
variable {β γ : Type} {ν : Cmd → γ} {π : State → β} (frame : Moves ν π)
include frame

theorem plan_keeps (s : State) (t phase ord : Nat) (a : Act) : π (s.plan t phase ord a) = π s := frame.agenda ..

theorem planEv_keeps (s : State) (t phase ord : Nat) (i : Instr) (g : EvArg) : π (s.planEv t phase ord i g) = π s := frame.agenda ..

theorem modBlock_keeps (s : State) (id k : Nat) (f : PackedBlock → PackedBlock) : π (s.modBlock id k f) = π s :=
  frame.cmd s id _ fun c => frame.packed c _

theorem performFrom_keeps (s : State) (id i lo : Nat) : π (s.performFrom id i lo) = π s := by
  unfold State.performFrom
  split
  · rfl
  · next c b _ =>
    split
    · rfl
    · exact (planEv_keeps frame ..).trans ((frame.cmd _ id _ fun c => frame.performAt c i _).trans
        ((claim_keeps frame.toReserves ..).trans (unclaimIn_keeps frame.toReserves ..)))

theorem redeliver_keeps (s : State) (id k : Nat) : π (s.redeliver id k) = π s := by
  unfold State.redeliver
  split
  · rfl
  · next c q _ =>
    dsimp only
    split
    · rfl
    · refine (foldl_preserves π (fun s p => ?_) _ _).trans ((planEv_keeps frame ..).trans (modBlock_keeps frame ..))
      split
      · exact performFrom_keeps frame ..
      · rfl

theorem redeliverOf_keeps (s : State) (id : Nat) (b : Beat) : π (s.redeliverOf id b) = π s := by
  unfold State.redeliverOf
  split
  · split
    · rfl
    · exact redeliver_keeps frame ..
  · rfl

theorem moveReads_keeps (s : State) (id : Nat) (sp : Space) (line t u : Nat) : π (s.moveReads id sp line t u) = π s := by
  unfold State.moveReads
  split
  · rfl
  · exact (foldl_preserves π (fun s p => redeliver_keeps frame ..) _ _).trans
      (foldl_preserves π (fun s p => (plan_keeps frame ..).trans (modBlock_keeps frame ..)) _ _)

theorem planRecord_keeps (s : State) (c : Cmd) : π (s.planRecord c) = π s := by
  unfold State.planRecord
  split
  · rfl
  · refine (planEv_keeps frame ..).trans ?_
    split
    · exact plan_keeps frame ..
    · exact plan_keeps frame ..

theorem planSlot_keeps (s : State) (c : Cmd) (i j u : Nat) (b : Beat) : π (s.planSlot c i j u b) = π s := by
  unfold State.planSlot
  split
  · exact (planEv_keeps frame ..).trans ((planEv_keeps frame ..).trans (plan_keeps frame ..))
  · split
    · exact planEv_keeps frame ..
    · exact plan_keeps frame ..

theorem repromise_keeps (s : State) (id : Nat) : π (s.repromise id) = π s := by
  unfold State.repromise
  split
  · rfl
  · next c _ =>
    extract_lets +lift p late u v
    have promised : π u = π s := frame.cmd s id _ fun c => frame.promise c p
    have recorded : π v = π s := by
      refine Eq.trans ?_ promised
      unfold v
      split
      · refine frame.table u c late fun r => ?_
        unfold late
        split
        · exact ⟨p, rfl⟩
        · exact ⟨r.tabAt, rfl⟩
      · exact planRecord_keeps frame ..
    split
    · rfl
    · refine Eq.trans ?_ recorded
      split
      · exact frame.calls ..
      · exact plan_keeps frame ..

theorem planBeat_keeps (s : State) (id i : Nat) (b : Beat) : π (s.planBeat id i b) = π s := by
  unfold State.planBeat
  extract_lets +lift u
  have sampled : π u = π s := by
    unfold u
    split
    · rfl
    · split
      · exact foldl_preserves π (fun _ _ => plan_keeps frame ..) _ _
      · exact plan_keeps frame ..
  split
  · exact (foldl_preserves π (fun _ _ => planEv_keeps frame ..) _ _).trans sampled
  · exact (planEv_keeps frame ..).trans sampled

end

end Sys2Proof.Machine

namespace Sys2Proof.Machine

/-! ### Memories and commands as projections -/

/-- The three kinds of memory. -/
def State.memories (s : State) : Mem × List (Mem × List Mem) := (s.dev, s.herds.map fun x => (x.hm, x.lm))

/-- Changing an entry of a list keeps what a projection sees of the entries, where it sees nothing of the change. -/
theorem map_modify_keeps {α β : Type} (π : α → β) {f : α → α} (keeps : ∀ a, π (f a) = π a) (l : List α) (n : Nat) :
    (l.modify n f).map π = l.map π := by
  apply List.ext_getElem?
  intro k
  rw [List.getElem?_map, List.getElem?_map, List.getElem?_modify]
  by_cases here : n = k
  · cases l[k]? with
    | none => rfl
    | some a => simp [here, keeps]
  · simp [here]

theorem modHerd_memories (s : State) (h : Nat) {f : Herd → Herd} (keeps : ∀ x, (f x).hm = x.hm ∧ (f x).lm = x.lm) :
    (s.modHerd h f).memories = s.memories :=
  Prod.ext rfl (map_modify_keeps (fun x : Herd => (x.hm, x.lm)) (fun x => Prod.ext (keeps x).1 (keeps x).2) s.herds h)

theorem memOf_eq (s : State) (sp : Space) : s.memOf sp = match sp with
    | .dev => s.memories.1
    | .hm h => (s.memories.2.getD h ([], List.replicate 4 [])).1
    | .lm h c => (s.memories.2.getD h ([], List.replicate 4 [])).2.getD c [] := by
  have herd (h : Nat) : s.memories.2.getD h ([], List.replicate 4 []) = ((s.herd h).hm, (s.herd h).lm) := by
    simp only [State.memories, State.herd, List.getD_eq_getElem?_getD, List.getElem?_map]
    cases s.herds[h]? <;> rfl
  cases sp with
  | dev => rfl
  | hm h => simp only [herd, State.memOf]
  | lm h c => simp only [herd, State.memOf]

/-- A state with the same memories reads every byte as before. -/
theorem readByte_of_memories {s t : State} (same : t.memories = s.memories) (sp : Space) (a : Nat) : t.readByte sp a = s.readByte sp a := by
  rw [State.readByte, State.readByte, memOf_eq t, memOf_eq s, same]

theorem modCore_memories (s : State) (h c : Nat) (f : Core → Core) : (s.modCore h c f).memories = s.memories :=
  modHerd_memories s h fun _ => ⟨rfl, rfl⟩

theorem modIssuer_memories (s : State) (c : Cmd) (f : Regs → Regs) : (s.modIssuer c f).memories = s.memories := by
  unfold State.modIssuer
  dsimp only
  split
  · rfl
  · exact modCore_memories ..

theorem charge_memories (s : State) (x cls n : Nat) : (s.charge x cls n).memories = s.memories := by
  obtain ⟨l, e⟩ := charge_only s x cls n
  rw [e]
  rfl

theorem setMark_memories (s : State) (sp : Space) (page : Nat) : (s.setMark sp page).memories = s.memories := by
  cases sp with
  | dev => rfl
  | hm h => exact modHerd_memories s h fun _ => ⟨rfl, rfl⟩
  | lm h c => exact modHerd_memories s h fun _ => ⟨rfl, rfl⟩

theorem markPacked_memories (s : State) (c : Cmd) (b : Beat) : (s.markPacked c b).memories = s.memories := by
  unfold State.markPacked
  split
  · extract_lets +lift _ _ _ ok
    split
    · exact setMark_memories ..
    · rfl
  · rfl

/-- The commands in flight, of each what ν sees. -/
def State.views {γ : Type} (ν : Cmd → γ) (s : State) : List γ := s.cmds.map ν

section
variable {γ : Type} {ν : Cmd → γ}

/-- Where ν sees the numbers of commands, states with the same views hold the same commands as far as ν sees. -/
theorem cmd?_of_views {number : γ → Nat} (numbers : ∀ c, number (ν c) = c.id) {s u : State} (same : u.views ν = s.views ν) (id : Nat) :
    (u.cmd? id).map ν = (s.cmd? id).map ν := by
  have found (t : State) : (t.cmd? id).map ν = (t.views ν).find? fun v => number v == id := by
    rw [State.views, List.find?_map, State.cmd?]
    simp only [Function.comp_def, numbers]
  rw [found, found, same]

theorem becomes_of_views {number : γ → Nat} (numbers : ∀ c, number (ν c) = c.id) {s u : State} (same : u.views ν = s.views ν) {id : Nat}
    {c : Cmd} (found : s.cmd? id = .some c) : ∃ c', u.cmd? id = .some c' ∧ ν c' = ν c := by
  have seen := cmd?_of_views numbers same id
  rw [found] at seen
  exact Option.map_eq_some_iff.mp seen

theorem modCmd_views (s : State) (id : Nat) {f : Cmd → Cmd} (keeps : ∀ c, ν (f c) = ν c) : (s.modCmd id f).views ν = s.views ν := by
  show (s.cmds.map _).map ν = s.cmds.map ν
  rw [List.map_map]
  refine List.map_congr_left fun c _ => ?_
  rw [Function.comp_apply]
  split
  · exact keeps c
  · rfl

/-- What ν sees of the commands in flight is a projection that no move of a beat changes, for a ν that does not see when beats come. -/
theorem views_moves (promise : ∀ (c : Cmd) t, ν { c with promise := t } = ν c) (packed : ∀ (c : Cmd) l, ν { c with packed := l } = ν c)
    (performAt : ∀ (c : Cmd) i t, ν { c with beats := c.beats.modify i fun b => { b with performAt := t } } = ν c) :
    Moves ν (State.views ν) where
  calendar _ _ := rfl
  claims _ _ _ := rfl
  agenda _ _ := rfl
  calls _ _ := rfl
  cmd s id _ keeps := modCmd_views s id keeps
  table s c f _ := congrArg (List.map ν) (modIssuer_cmds s c f)
  promise := promise
  packed := packed
  performAt := performAt

end

/-! ### A beat performs (R248, R253) -/

/-- The pairs of a beat's output that go into the line of slot j, or all of them where the beat does not write device memory. -/
def Beat.outputIn (b : Beat) (j : Nat) : List (Nat × Byte) :=
  if b.toDev then b.output.filter fun p => some (p.1 / 64) == (b.slots[j]?).map (·.1) else b.output

/-- The cycle in which a beat performs, or its write of slot j. -/
def Beat.performsAt (b : Beat) (j : Nat) : Option Nat := if b.toDev then (b.slots[j]?).map (fun p => p.2 + 10) else .some b.performAt

section
variable {s : State} {c : Cmd} {b : Beat} {id i j : Nat} (found : s.cmd? id = .some c) (beat : c.beats[i]? = .some b)
  (fresh : b.abandoned = false ∧ b.performed = false ∧ j ∉ b.written) (now : b.performsAt j = .some s.tick)
  (owned : ∀ h, b.dstSpace.herd = .some h → s.givenAway c.ctx h = false)
include found beat fresh now owned

/-- A beat that performs leaves the memories as its write does. -/
theorem performBeat_memories (write : State → Cmd → Beat → List (Nat × Byte) → State) :
    (s.performBeat write id i j).memories = (write s c b ((b.outputIn j).filter fun p => !c.overtaken b p.1)).memories := by
  obtain ⟨whole, first, unwritten⟩ := fresh
  have due : (if b.toDev then (b.slots[j]?).map (fun p => p.2 + 10) else .some b.performAt) = some s.tick := now
  have ours : (b.dstSpace.herd).any (s.givenAway c.ctx) = false := by
    cases h : b.dstSpace.herd with
    | none => rfl
    | some h' => exact owned h' h
  unfold State.performBeat
  simp only [found, beat, whole, first, due, ours, List.contains_eq_mem, decide_eq_false unwritten, Bool.or_self, ne_eq, not_true_eq_false,
    decide_false, Bool.false_and, Bool.false_eq_true, if_false]
  have charged (t : State) (q : Bool) : (if q = true then t.charge c.ctx 12 1 else t).memories = t.memories := by
    split
    · exact charge_memories ..
    · rfl
  have marked (t : State) (q : Bool) : (if q = true then t else (t.markPacked c b).charge c.ctx 11 1).memories = t.memories := by
    split
    · rfl
    · exact (charge_memories ..).trans (markPacked_memories ..)
  exact (marked ..).trans (charged ..)

end

theorem loadTable_memories (s : State) (c : Cmd) (n : Nat) : (s.loadTable c n).memories = s.memories := modIssuer_memories ..

/-- WALKER_BEAT_PERFORM leaves the memories as the beat's perform does. -/
theorem walkerBeatPerform_memories (s : State) : ∃ u, exec .walkerBeatPerform s = .next u ∧
    u.memories = (s.performBeat State.mergeWrite s.ev.a s.ev.b s.ev.c).memories := by
  refine ⟨_, rfl, ?_⟩
  split
  · split
    · split
      · exact loadTable_memories ..
      · rfl
    · rfl
  · rfl

theorem mergeWrite_plain (s : State) {c : Cmd} (b : Beat) (l : List (Nat × Byte)) (plain : ∀ k, c.kind ≠ .callOut k) :
    s.mergeWrite c b l = s.writeBytes b.dstSpace c.level l := by
  unfold State.mergeWrite
  split
  · next k e => exact absurd e (plain k)
  · rfl

theorem beat_performs {s : State} {c : Cmd} {b : Beat} (found : s.cmd? s.ev.a = .some c) (beat : c.beats[s.ev.b]? = .some b)
    (plain : ∀ k, c.kind ≠ .callOut k) (fresh : b.abandoned = false ∧ b.performed = false ∧ s.ev.c ∉ b.written)
    (owned : ∀ h, b.dstSpace.herd = .some h → s.givenAway c.ctx h = false) (now : b.performsAt s.ev.c = .some s.tick) :
    ∃ u, exec .walkerBeatPerform s = .next u ∧ ∀ sp a, u.readByte sp a =
      (s.writeBytes b.dstSpace c.level ((b.outputIn s.ev.c).filter fun p => !c.overtaken b p.1)).readByte sp a := by
  obtain ⟨u, run, same⟩ := walkerBeatPerform_memories s
  rw [performBeat_memories found beat fresh now owned, mergeWrite_plain s b _ plain] at same
  exact ⟨u, run, readByte_of_memories same⟩

theorem overtaken_iff (c : Cmd) (b : Beat) (a : Nat) : c.overtaken b a = true ↔ (c.kind = .scatter ∨ ∃ k, c.kind = .callIn k) ∧
    ∃ q ∈ c.beats, b.num < q.num ∧ q.performed = true ∧ q.abandoned = false ∧ q.dstSpace = b.dstSpace ∧ a ∈ q.dst := by
  have ordered : (match c.kind with | .scatter | .callIn _ => true | _ => false) = true ↔ c.kind = .scatter ∨ ∃ k, c.kind = .callIn k := by
    cases c.kind <;> simp
  unfold Cmd.overtaken
  rw [Bool.and_eq_true]
  refine and_congr ordered ?_
  simp [and_assoc]

/-- A beat whose bytes do not change on the way writes to each address the byte that it sampled for it. -/
theorem output_plain {b : Beat} (post : b.post = .none) (mask : b.mask = []) {p : Nat × Byte} (written : p ∈ b.output) :
    ∃ a, (a, p.1) ∈ b.src.zip b.dst ∧ p.2 = gotByte b.got a := by
  have bytes : b.bytes = b.src.map (gotByte b.got) := by simp [Beat.bytes, post, mask, maskByte]
  have output : b.output = b.dst.zip b.bytes := by simp [Beat.output, mask, maskByte]
  rw [output, bytes] at written
  obtain ⟨d, v⟩ := p
  rw [List.zip_map_right, List.mem_map] at written
  obtain ⟨⟨d', a⟩, paired, e⟩ := written
  cases e
  refine ⟨a, ?_, rfl⟩
  rw [← List.zip_swap, List.mem_map]
  exact ⟨(d', a), paired, rfl⟩

end Sys2Proof.Machine

namespace Sys2Proof.Machine

/-! ### A retried slot (R257) -/

theorem searchFrom_ge (p : Nat → Bool) (k t : Nat) : t ≤ searchFrom p k t := by
  induction k generalizing t with
  | zero => exact Nat.le_refl t
  | succ k ih =>
    rw [searchFrom]
    split
    · exact Nat.le_refl t
    · exact Nat.le_of_succ_le (ih (t + 1))

theorem freeSlot_ge (s : State) (pc r : Nat) : r ≤ s.freeSlot pc r := searchFrom_ge ..

/-- Whether a beat still uses a slot of a line. -/
def Beat.uses (b : Beat) (line t : Nat) : Bool := b.slots.contains (line, t) && !b.performed && !b.abandoned

/-- A command whose slot of a line at cycle t becomes the one at cycle u. -/
def Cmd.withSlot (now line t u : Nat) (c : Cmd) : Cmd :=
  { c with
    beats := c.beats.map fun b => if b.uses line t then b.withSlot now line t u else b
    slot := if c.isWamo then u else c.slot, record := if c.isWamo then [] else c.record }

theorem moveSlot_keeps {β γ : Type} {ν : Cmd → γ} {π : State → β} (frame : Moves ν π) {s : State} {id : Nat} {c : Cmd}
    (found : s.cmd? id = .some c) (line t u : Nat) : π (s.moveSlot id line t u) = π (s.modCmd id (Cmd.withSlot s.tick line t u)) := by
  unfold State.moveSlot
  rw [found]
  refine (moveReads_keeps frame ..).trans ((foldl_preserves π (fun s p => ?_) _ _).trans (foldl_preserves π (fun s p => ?_) _ _))
  · exact (redeliverOf_keeps frame ..).trans (performFrom_keeps frame ..)
  · refine foldl_preserves π (fun s q => ?_) _ _
    split
    · exact planSlot_keeps frame ..
    · rfl

/-- What of a command a slot that moves leaves as it is, and the slots of its beats. -/
def Cmd.slotView (c : Cmd) : Nat × CmdKind × List (List (Nat × Nat) × Bool) :=
  (c.id, c.kind, c.beats.map fun b => (b.slots, b.performed))

theorem slotView_moves : Moves Cmd.slotView (State.views Cmd.slotView) :=
  views_moves (fun _ _ => rfl) (fun _ _ => rfl) fun c i t => by
    have same := map_modify_keeps (fun b : Beat => (b.slots, b.performed)) (f := fun b => { b with performAt := t }) (fun _ => rfl) c.beats i
    exact congrArg (fun l => (c.id, c.kind, l)) same

theorem reserveAgain_view {s : State} {id : Nat} {c : Cmd} (found : s.cmd? id = .some c) (old line t lo : Nat) :
    ∃ c', (s.reserveAgain id old line t lo).cmd? id = .some c' ∧
      c'.slotView = (c.withSlot s.tick line t (s.freeSlot (s.channelOf line) lo)).slotView := by
  have moved : (s.reserveAgain id old line t lo).views Cmd.slotView =
      (s.modCmd id (Cmd.withSlot s.tick line t (s.freeSlot (s.channelOf line) lo))).views Cmd.slotView :=
    (repromise_keeps slotView_moves ..).trans (moveSlot_keeps slotView_moves (s := (s.dropSlot _ _).takeSlot _ _) found ..)
  have same := cmd?_of_views (number := Prod.fst) (fun _ => rfl) moved id
  rw [cmd?_modCmd (f := Cmd.withSlot s.tick line t _) s id fun _ => rfl, found] at same
  exact Option.map_eq_some_iff.mp same

/-- Moving the only slot of a line at a cycle changes that slot's cycle. -/
theorem map_slot_eq_set {l : List (Nat × Nat)} {j line t u : Nat} (here : l[j]? = .some (line, t))
    (alone : ∀ k, l[k]? = .some (line, t) → k = j) :
    (l.map fun p => if p = (line, t) then (line, u) else p) = l.set j (line, u) := by
  apply List.ext_getElem?
  intro k
  rw [List.getElem?_map, List.getElem?_set]
  by_cases same : j = k
  · subst same
    obtain ⟨inside, at_⟩ := List.getElem?_eq_some_iff.mp here
    simp [inside, at_]
  · rw [if_neg same]
    cases e : l[k]? with
    | none => rfl
    | some p =>
      have other : p ≠ (line, t) := fun h => same (alone k (h ▸ e)).symm
      simp [other]

theorem retry_eq {s : State} {c : Cmd} {b : Beat} {id i j line t : Nat} (found : s.cmd? id = .some c) (beat : c.beats[i]? = .some b)
    (slot : b.slots[j]? = .some (line, t)) (open_ : b.performed = false) (kept : b.abandoned = false) (runs : s.tick < t + 11) :
    s.retry id i j = s.reserveAgain id (s.channelOf line) line t (max s.tick t + 1) := by
  have here : ((s.beat? id i).bind fun p => (p.2.slots[j]?).map fun z => (p.2, z)) = .some (b, (line, t)) := by
    simp [State.beat?, found, beat, slot]
  unfold State.retry
  rw [here]
  simp [open_, kept, runs]

theorem dramRetry_moves {s : State} {c : Cmd} {b : Beat} {line t : Nat} (found : s.cmd? s.ev.a = .some c) (beats : s.ev.b < 65536)
    (beat : c.beats[s.ev.b]? = .some b) (slot : b.slots[s.ev.c]? = .some (line, t))
    (alone : ∀ j, b.slots[j]? = .some (line, t) → j = s.ev.c) (open_ : b.performed = false) (kept : b.abandoned = false)
    (runs : s.tick < t + 11) :
    ∃ (u : State) (t' : Nat), exec .dramRetry s = .next u ∧ s.tick < t' ∧ t < t' ∧ CmdBecomes s u s.ev.a fun _ c' =>
      ∃ b', c'.beats[s.ev.b]? = .some b' ∧ b'.slots = b.slots.set s.ev.c (line, t') ∧ b'.performed = false := by
  have isBeat : ¬ readAgent 0 0 ≤ s.ev.b := by simp [readAgent]; omega
  have run : exec .dramRetry s = .next (s.reserveAgain s.ev.a (s.channelOf line) line t (max s.tick t + 1)) := by
    show execDramRetry s = _
    rw [execDramRetry, if_neg isBeat, retry_eq found beat slot open_ kept runs]
  have later := freeSlot_ge s (s.channelOf line) (max s.tick t + 1)
  refine ⟨_, s.freeSlot (s.channelOf line) (max s.tick t + 1), run, by omega, by omega, fun c₀ found₀ => ?_⟩
  obtain rfl : c = c₀ := Option.some.inj (found.symm.trans found₀)
  obtain ⟨c', found', view⟩ := reserveAgain_view found (s.channelOf line) line t (max s.tick t + 1)
  have beats' : c'.beats.map (fun b => (b.slots, b.performed)) = _ := congrArg (fun v => v.2.2) view
  refine ⟨c', found', congrArg (fun v => v.1) view, congrArg (fun v => v.2.1) view, ?_⟩
  have uses : b.uses line t = true := by
    have mem : (line, t) ∈ b.slots := List.mem_of_getElem? slot
    simp [Beat.uses, mem, open_, kept]
  have entry := congrArg (fun l => l[s.ev.b]?) beats'
  simp only [Cmd.slotView, Cmd.withSlot, List.map_map, List.getElem?_map, beat, Option.map_some, Function.comp_apply, uses, if_true] at entry
  obtain ⟨b', at_, same⟩ := Option.map_eq_some_iff.mp entry
  have slots : b'.slots = _ := congrArg Prod.fst same
  have performed : b'.performed = _ := congrArg Prod.snd same
  exact ⟨b', at_, slots.trans (map_slot_eq_set slot alone), performed.trans open_⟩

/-! ### A walk's fault (R254) -/

theorem raiseAsync_here {s : State} {h c : Nat} {a : Async} (alive : (s.ctx a.ctx).failed = false) (kept : (s.ctx a.ctx).revoking = false)
    (all : s.kept = []) (runs : (s.core h c).runs a.ctx = true) : s.raiseAsync h c a = s.modCore h c (Core.noteAsync a) := by
  unfold State.raiseAsync
  simp only [alive, kept, all, runs, Bool.or_self, List.any_nil, Bool.false_eq_true, if_false, if_true]

/-- A core that runs a task stands. -/
theorem core_stands_of_runs {s : State} {h c x : Nat} (runs : (s.core h c).runs x = true) :
    h < s.herds.length ∧ c < (s.herd h).cores.length := by
  have idle : ({} : Core).runs x = false := rfl
  have core : c < (s.herd h).cores.length := by
    by_contra out
    rw [State.core, List.getD_eq_default _ _ (Nat.le_of_not_lt out), idle] at runs
    exact absurd runs (by simp)
  refine ⟨?_, core⟩
  by_contra out
  have blank : (s.herd h).cores.getD c {} = ({} : Core) := by
    rw [State.herd, List.getD_eq_default _ _ (Nat.le_of_not_lt out)]
    exact List.getElem?_getD_replicate_default_eq ({} : Core) 4 c
  rw [State.core, blank, idle] at runs
  exact absurd runs (by simp)

theorem cmd?_number {s : State} {id : Nat} {c : Cmd} (found : s.cmd? id = .some c) : c.id = id := by
  have hit := List.find?_some (p := fun c : Cmd => c.id == id) found
  exact beq_iff_eq.1 hit

/-- A command whose walk's fault has become pending. -/
def Cmd.faulted (c : Cmd) : Cmd := { c with outstanding := false, walkFault := .none }

theorem walkFault_raises {s : State} {c : Cmd} {cls owner va : Nat} {w : Bool} (found : s.cmd? s.ev.a = .some c)
    (fault : c.walkFault = .some (cls, owner, w, va))
    (plain : match c.kind with | .callIn _ | .cxmk _ | .cxgive _ | .cxq _ => False | _ => True) (correctable : cls ≠ 31)
    (alive : (s.ctx c.ctx).failed = false) (kept : (s.ctx c.ctx).revoking = false) (all : s.kept = [])
    (runs : (s.core c.herd c.core).runs c.ctx = true) :
    ∃ u, exec .walkFaultPending s = .next u ∧
      (let r := ({ cls := cls, owner := owner, write := w, va := va } : Refused).trap
       (u.core c.herd c.core).asyncs = (s.core c.herd c.core).asyncs ++
         [{ cls := cls, d0 := r.d0, d1 := r.d1, addr := .some c.addr, ctx := c.ctx, owner := owner }]) ∧
      CmdBecomes s u s.ev.a fun _ c' => c'.outstanding = false ∧ c'.walkFault = .none := by
  have number := cmd?_number found
  let a : Async :=
    let r := ({ cls := cls, owner := owner, write := w, va := va } : Refused).trap
    { cls := cls, d0 := r.d0, d1 := r.d1, addr := .some c.addr, ctx := c.ctx, owner := owner }
  let t := s.modCmd s.ev.a Cmd.faulted
  have noted : s.walkFault c.id = t.modCore c.herd c.core (Core.noteAsync a) := by
    unfold State.walkFault
    rw [number, found]
    simp only [fault, if_neg correctable]
    exact raiseAsync_here (s := t) (a := a) alive kept all runs
  have run : exec .walkFaultPending s = .next (t.modCore c.herd c.core (Core.noteAsync a)) := by
    show execWalkFaultPending s = _
    unfold execWalkFaultPending
    rw [found, ← noted]
    cases kind : c.kind <;> simp_all
  obtain ⟨herd, core⟩ := core_stands_of_runs runs
  refine ⟨_, run, ?_, fun c₀ found₀ => ?_⟩
  · rw [State.modCore_core t _ _ _ herd core]
    rfl
  · obtain rfl : c = c₀ := Option.some.inj (found.symm.trans found₀)
    have after : t.cmd? s.ev.a = .some c.faulted := (cmd?_modCmd (f := Cmd.faulted) s s.ev.a fun _ => rfl).trans (by rw [found]; rfl)
    exact ⟨c.faulted, after, rfl, rfl, rfl, rfl⟩

/-! ### The results of `wamo` and `apset` (R266, R286) -/

/-- The frame that issued a command stands on its core: what it takes, it takes there. -/
theorem modIssuer_of_here {s : State} {c : Cmd} (f : Regs → Regs) (h : IssuerHere s c) :
    (s.modIssuer c f).regs c.herd c.core = f (s.regs c.herd c.core) := by
  obtain ⟨herd, core, ⟨others, -⟩, mine, -⟩ := h
  have away : (s.kept.any fun x => x.ctx == c.ctx && !x.herds.isEmpty) = false := by
    rw [List.any_eq_false]
    intro x kept
    simp [others x kept]
  have here : s.modIssuer c f = s.modCore c.herd c.core (Core.modIssuer c.id f) := if_neg (by rw [away]; exact Bool.false_ne_true)
  rw [here, State.regs, State.modCore_core _ _ _ _ herd core]
  exact congrArg Core.r (if_pos (issuer_of_mem mine))

/-- An engine's result lands in its scalar, whatever contexts are kept besides the issuer's. -/
theorem engineScalar_lands_here (s : State) (c : Cmd) (n : Nat) (v : Word) : ScalarLands s (s.engineScalar c n v) c n v := by
  intro _ _ h
  rw [engineScalar_here n v h]
  have regs (t p o : Nat) (i : Instr) (g : EvArg) :
      ((s.modIssuer c fun r => r.takeResult c.id (s.resultPend c n v)).planEv t p o i g).regs c.herd c.core =
        (s.regs c.herd c.core).takeResult c.id (s.resultPend c n v) := modIssuer_of_here _ h
  refine ⟨⟨s.resultPend c n v, rfl, rfl, rfl, ?_, ?_⟩, ⟨_, mem_insertDue.2 (.inl rfl), modIssuer_tick .., rfl, rfl⟩, fun m => ?_⟩
  · show (v.setWidth 512).setWidth 32 = v
    simp
  · rw [regs]
    exact insertPend_perm ..
  · rw [regs]
    rfl

theorem modIssuer_apertures (s : State) (c : Cmd) (f : Regs → Regs) : (s.modIssuer c f).apertures = s.apertures := by
  unfold State.modIssuer
  dsimp only
  split
  · rfl
  · rfl

theorem engineScalar_apertures (s : State) (c : Cmd) (n : Nat) (v : Word) : (s.engineScalar c n v).apertures = s.apertures := by
  obtain ⟨f, e | e⟩ := engineScalar_cases s c n v
  · rw [e]; exact modIssuer_apertures ..
  · rw [e]; exact modIssuer_apertures ..

theorem wamoComplete_lands {s : State} {c : Cmd} {op n va : Nat} {v v2 : Word} (found : s.cmd? s.ev.a = .some c) (read : c.record ≠ [])
    (kind : c.kind = .wamo op n v v2 va) (due : c.promise ≤ s.tick) :
    ∃ u, exec .wamoComplete s = .next u ∧ ScalarLands s u c n (BitVec.ofNat 32 (leNat c.record)) := by
  refine ⟨s.engineScalar c n (BitVec.ofNat 32 (leNat c.record)), ?_, engineScalar_lands_here _ _ _ _⟩
  show execWamoComplete s = _
  simp only [execWamoComplete, found, kind]
  rw [if_neg (by simp [read, due])]

/-- A changed aperture is none of what a scalar's landing speaks of. -/
theorem scalarLands_of_setAperture {s u : State} {c : Cmd} {n : Nat} {v : Word} (reg : Nat) (a : Option Aperture)
    (lands : ScalarLands (s.setAperture reg a) u c n v) : ScalarLands s u c n v :=
  fun least most ⟨herd, core, here, mine, sized⟩ => lands least most ⟨herd, core, here, mine, sized⟩

theorem apsetComplete_lands {s : State} {c : Cmd} {n reg va : Nat} (found : s.cmd? s.ev.a = .some c) (read : c.record ≠ [])
    (kind : c.kind = .apset n reg va) : ∃ u, exec .apsetComplete s = .next u ∧
      let e := apertureOfRecord c.record
      (apertureWellFormed c.record = false → u.apertures = s.apertures ∧ ScalarLands s u c n 2) ∧
      (apertureWellFormed c.record = true → s.apertureClash reg e = true → u.apertures = s.apertures ∧ ScalarLands s u c n 1) ∧
      (apertureWellFormed c.record = true → s.apertureClash reg e = false →
        u.apertures = s.apertures.set reg (.some e) ∧ ScalarLands s u c n 0) := by
  have present : ¬ c.record.isEmpty = true := by simp [read]
  have run : exec .apsetComplete s = .next (
      if !apertureWellFormed c.record then s.engineScalar c n 2
      else if s.apertureClash reg (apertureOfRecord c.record) then s.engineScalar c n 1
      else (s.setAperture reg (.some (apertureOfRecord c.record))).engineScalar c n 0) := by
    show execApsetComplete s = _
    simp only [execApsetComplete, found, kind, if_neg present]
  refine ⟨_, run, fun malformed => ?_, fun formed clash => ?_, fun formed free => ?_⟩
  · simp only [malformed, Bool.not_false, if_true]
    exact ⟨engineScalar_apertures .., engineScalar_lands_here _ _ _ _⟩
  · simp only [formed, clash, Bool.not_true, Bool.false_eq_true, if_false, if_true]
    exact ⟨engineScalar_apertures .., engineScalar_lands_here _ _ _ _⟩
  · simp only [formed, free, Bool.not_true, Bool.false_eq_true, if_false]
    exact ⟨engineScalar_apertures .., scalarLands_of_setAperture reg _ (engineScalar_lands_here _ _ _ _)⟩

/-! ### A block's hash and an expanded block (R278, R290) -/

section
variable {β γ : Type} {ν : Cmd → γ} {π : State → β} (frame : Moves ν π) (blind : ∀ (c : Cmd) l, ν { c with beats := l } = ν c)
include frame blind

theorem modBeat_keeps (s : State) (id i : Nat) (f : Beat → Beat) : π (s.modBeat id i f) = π s := frame.cmd s id _ fun c => blind c _

theorem abandonBeat_keeps (s : State) (id i : Nat) : π (s.abandonBeat id i) = π s := by
  unfold State.abandonBeat
  split
  · rfl
  · split
    · rfl
    · refine (modBeat_keeps frame blind ..).trans ((unclaimIn_keeps frame.toReserves ..).trans
        ((unclaimIn_keeps frame.toReserves ..).trans (foldl_preserves π (fun s p => ?_) _ _)))
      split
      · exact dropSlot_keeps frame.toReserves ..
      · rfl

/-- The writes of a `wsnap` that a comparison settles. -/
theorem settleWrites_keeps (s : State) (id tag : Nat) {want : Plan → Plan} (placed : ∀ p, π (want p).s = π p.s) :
    π (s.settleWrites id tag want) = π s := by
  unfold State.settleWrites
  split
  · rfl
  · extract_lets p0 wanted old same u
    have given : π u = π s := foldl_preserves π (fun _ _ => abandonBeat_keeps frame blind ..) _ _
    split
    · exact foldl_preserves π (fun _ _ => modBeat_keeps frame blind ..) _ _
    · split
      · exact given
      · exact (repromise_keeps frame ..).trans ((foldl_preserves π (fun _ _ => planBeat_keeps frame ..) _ _).trans
          ((frame.cmd _ _ _ fun c => blind c _).trans ((placed _).trans given)))

end

/-- The comparisons of a `wsnap` as its command counts them. -/
def Cmd.countView (c : Cmd) : Nat × CmdKind × Nat × Nat := (c.id, c.kind, c.n, c.changed)

theorem countView_moves : Moves Cmd.countView (State.views Cmd.countView) :=
  views_moves (fun _ _ => rfl) (fun _ _ => rfl) fun _ _ _ => rfl

/-- The reads of block i of a `wsnap`, and those of its stored entry. -/
def Cmd.blockReads (c : Cmd) (i : Nat) : List Beat := readsIn c.beats (65536 * i) (blockLen (denseBytes (c.snapBox 0)) i)
def Cmd.entryReads (c : Cmd) (i : Nat) : List Beat := readsIn c.beats (entryTag i) 16

/-- A command of which blocks to the n-th are compared, with a count of changed ones. -/
def Cmd.counting (n changed : Nat) (c : Cmd) : Cmd := { c with n := n, changed := changed }

/-- Whether the hash of a block differs from the stored entry: 1 or 0. -/
def Cmd.differs (c : Cmd) (i : Nat) : Nat :=
  if (sha256 ((c.blockReads i).flatMap Beat.bytes)).take 16 = (c.entryReads i).flatMap Beat.bytes then 0 else 1

theorem compareBlock_counts {s : State} {c : Cmd} {id i j t : Nat} (found : s.cmd? id = .some c) (next : c.n = i)
    (cycle : (s.compares c).find? (fun p => p.1 == i) = .some (j, t)) (due : t ≤ s.tick)
    (whole : ∀ b ∈ c.blockReads i ++ c.entryReads i, b.abandoned = false) :
    ∃ u : State, u.views Cmd.countView = s.views Cmd.countView ∧ (s.compareBlock id i).views Cmd.countView =
      (u.modCmd id (Cmd.counting (i + 1) (c.changed + c.differs i))).views Cmd.countView := by
  have complete : ((c.blockReads i ++ c.entryReads i).any (·.abandoned)) = false := by
    rw [List.any_eq_false]
    intro b read
    simp [whole b read]
  have blind (c : Cmd) (l : List Beat) : { c with beats := l }.countView = c.countView := rfl
  unfold State.compareBlock
  split
  · next none => exact absurd (none.symm.trans found) nofun
  · next c₀ found₀ =>
    obtain rfl : c = c₀ := Option.some.inj (found.symm.trans found₀)
    split
    · next none => exact absurd (none.symm.trans cycle) nofun
    · next j₀ t₀ cycle₀ =>
      obtain ⟨rfl, rfl⟩ : j₀ = j ∧ t₀ = t := by simpa using cycle₀.symm.trans cycle
      rw [if_neg (not_not_intro next), if_neg (Nat.not_lt.mpr due)]
      extract_lets size reads data entry hash diff u n v
      rw [if_neg (by rw [show reads = c.blockReads i ++ c.entryReads i from rfl, complete]; exact Bool.false_ne_true)]
      have counted : n = c.changed + c.differs i := by
        have judged : c.differs i = if hash = entry then 0 else 1 := rfl
        rw [judged]
        unfold n
        by_cases same : hash = entry
        · rw [if_neg (not_not_intro same), if_pos same, Nat.add_zero]
        · rw [if_pos same, if_neg same]
      refine ⟨u, settleWrites_keeps countView_moves blind _ _ _ fun p => ?_, ?_⟩
      · split
        · exact placeChange_keeps countView_moves.toReserves ..
        · rfl
      · have settled : v = u.modCmd id (Cmd.counting (i + 1) (c.changed + c.differs i)) := by rw [← counted]; rfl
        rw [← settled]
        split
        · split
          · exact planEv_keeps countView_moves ..
          · rfl
        · exact settleWrites_keeps countView_moves blind _ _ _ fun p => placeCount_keeps countView_moves.toReserves ..

theorem snapBlockHashed_counts {s : State} {c : Cmd} {j t : Nat} (found : s.cmd? s.ev.a = .some c) (next : c.n = s.ev.b)
    (cycle : (s.compares c).find? (fun p => p.1 == s.ev.b) = .some (j, t)) (due : t ≤ s.tick)
    (whole : ∀ b ∈ c.blockReads s.ev.b ++ c.entryReads s.ev.b, b.abandoned = false) :
    ∃ u, exec .snapBlockHashed s = .next u ∧ CmdBecomes s u s.ev.a fun _ c' => c'.n = s.ev.b + 1 ∧
      c'.changed = c.changed + c.differs s.ev.b := by
  refine ⟨_, rfl, fun c₀ found₀ => ?_⟩
  obtain rfl : c = c₀ := Option.some.inj (found.symm.trans found₀)
  obtain ⟨u, before, after⟩ := compareBlock_counts found next cycle due whole
  obtain ⟨c₁, found₁, view₁⟩ := becomes_of_views (number := Prod.fst) (fun _ => rfl) before found
  have counting : (u.modCmd s.ev.a (Cmd.counting (s.ev.b + 1) (c.changed + c.differs s.ev.b))).cmd? s.ev.a = .some (c₁.counting _ _) :=
    (cmd?_modCmd (f := Cmd.counting _ _) u s.ev.a fun _ => rfl).trans (by rw [found₁]; rfl)
  obtain ⟨c', found', view'⟩ := becomes_of_views (number := Prod.fst) (fun _ => rfl) after counting
  have kind : c'.kind = c₁.kind := congrArg (fun v => v.2.1) view'
  exact ⟨c', found', (congrArg (fun v => v.1) view').trans (congrArg (fun v => v.1) view₁), kind.trans (congrArg (fun v => v.2.1) view₁),
    congrArg (fun v => v.2.2.1) view', congrArg (fun v => v.2.2.2) view'⟩

/-- A command to which block k, expanded as z, is handed. -/
def Cmd.handed (k : Nat) (z : ZBlock) (c : Cmd) : Cmd :=
  { c with
    beats := c.beats.map fun b =>
      if b.expanded && b.block == .some k then { b with got := b.src.map fun o => (o, z.bytes.getD o 0), sampled := true } else b
    packed := c.packed.modify k fun q => { q with err := z.err, delivered := true } }

theorem deliver_hands {s : State} {c : Cmd} {q : PackedBlock} {id k : Nat} {z : ZBlock} (found : s.cmd? id = .some c)
    (block : c.packed[k]? = .some q) (waits : q.delivered = false) (now : q.deliverAt = s.tick)
    (expanded : expandZ ((List.range 4096).map (gotByte q.got)) = z) :
    (s.deliver id k).cmds = (s.modCmd id (Cmd.handed k z)).cmds := by
  have open_ : ¬ (q.delivered || decide (q.deliverAt ≠ s.tick)) = true := by simp [waits, now]
  unfold State.deliver
  simp only [found, block, expanded, if_neg open_]
  split
  · rfl
  · split
    · rfl
    · rfl

theorem expanderDeliver_hands {s : State} {c : Cmd} {q : PackedBlock} (found : s.cmd? s.ev.a = .some c)
    (block : c.packed[s.ev.b]? = .some q) (waits : q.delivered = false) (now : q.deliverAt = s.tick) :
    let z := expandZ ((List.range 4096).map (gotByte q.got))
    ∃ u, exec .expanderDeliver s = .next u ∧ CmdBecomes s u s.ev.a fun _ c' =>
      c'.packed[s.ev.b]? = .some { q with err := z.err, delivered := true } ∧
      ∀ (k : Nat) (b : Beat), c.beats[k]? = .some b → b.expanded = true → b.block = .some s.ev.b →
        c'.beats[k]? = .some { b with got := b.src.map fun o => (o, z.bytes.getD o 0), sampled := true } := by
  generalize expanded : expandZ ((List.range 4096).map (gotByte q.got)) = z
  refine ⟨_, rfl, fun c₀ found₀ => ?_⟩
  obtain rfl : c = c₀ := Option.some.inj (found.symm.trans found₀)
  have after : (s.deliver s.ev.a s.ev.b).cmd? s.ev.a = .some (c.handed s.ev.b z) := by
    rw [State.cmd?, deliver_hands found block waits now expanded]
    exact (cmd?_modCmd (f := Cmd.handed s.ev.b z) s s.ev.a fun _ => rfl).trans (by rw [found]; rfl)
  refine ⟨_, after, rfl, rfl, ?_, fun k b beat out of => ?_⟩
  · simp [Cmd.handed, block]
  · simp [Cmd.handed, beat, out, of]

/-- Settles O50: each event by the lemma about it; what an event leaves alone is said by projections that it keeps. -/
theorem walkerEvents : Obligations.WalkerEvents := by
  unfold Obligations.WalkerEvents
  refine ⟨?_, overtaken_iff, fun b post mask p => output_plain post mask, ?_, ?_, fun s c found read => ⟨?_, ?_⟩, ?_, ?_⟩
  · intro s c b found beat plain kept open_ unwritten owned
    refine ⟨fun level at_ => ?_, fun dev line t slot ends => ?_⟩
    · have now : b.performsAt s.ev.c = .some s.tick := by simp [Beat.performsAt, level, at_]
      have all : b.outputIn s.ev.c = b.output := by simp [Beat.outputIn, level]
      simpa only [all] using beat_performs found beat plain ⟨kept, open_, unwritten⟩ owned now
    · have now : b.performsAt s.ev.c = .some s.tick := by simp [Beat.performsAt, dev, slot, ends]
      have ofLine : b.outputIn s.ev.c = b.output.filter fun p => p.1 / 64 == line := by simp [Beat.outputIn, dev, slot]
      simpa only [ofLine] using beat_performs found beat plain ⟨kept, open_, unwritten⟩ owned now
  · exact fun s c b line t found beats beat slot alone open_ kept runs => dramRetry_moves found beats beat slot alone open_ kept runs
  · exact fun s c cls owner va w found fault plain correctable alive kept all runs =>
      walkFault_raises found fault plain correctable alive kept all runs
  · exact fun op n v v2 va kind due => wamoComplete_lands found read kind due
  · exact fun n reg va kind => apsetComplete_lands found read kind
  · exact fun s c j t found next cycle due whole => snapBlockHashed_counts found next cycle due whole
  · exact fun s c q found block waits now => expanderDeliver_hands found block waits now

end Sys2Proof.Machine

namespace Sys2Proof.Machine

/-! ## What commands leave alone: memories and registers

### The registers and memories that a program can see -/

/-- The registers that a program reads by their names, the others blank. -/
def Regs.visible (r : Regs) : Regs :=
  { s := r.s, deadS := r.deadS, p := r.p, t := r.t, deadT := r.deadT, k := r.k, bt := r.bt, rcur := r.rcur, sw := r.sw, fsr := r.fsr
    tfsr := r.tfsr, xr := r.xr, trap := r.trap }

/-- The memories of a herd and the registers of its cores. -/
def Herd.visible (x : Herd) : (Mem × List Mem) × List Regs := ((x.hm, x.lm), x.cores.map fun k => k.r.visible)

def State.visible (s : State) : Mem × List ((Mem × List Mem) × List Regs) := (s.dev, s.herds.map Herd.visible)

/-- Where states look alike, every byte of every memory reads alike. -/
theorem sameMemory_of_visible {s t : State} (same : t.visible = s.visible) : SameMemory s t := by
  have memories (u : State) : u.memories = (u.visible.1, u.visible.2.map Prod.fst) := by
    simp [State.memories, State.visible, Herd.visible]
  exact readByte_of_memories (by rw [memories t, memories s, same])

theorem regs_visible (s : State) (h c : Nat) :
    (s.regs h c).visible = (s.visible.2.getD h ({} : Herd).visible).2.getD c ({} : Core).r.visible := by
  have herd : s.visible.2.getD h ({} : Herd).visible = (s.herd h).visible := List.getD_map ..
  rw [herd]
  exact (List.getD_map (f := fun k : Core => k.r.visible) ..).symm

/-- Where states look alike, every register that a program can name reads alike. -/
theorem sameRegisters_of_visible {s t : State} (same : t.visible = s.visible) : SameRegisters s t := by
  intro h c
  have regs : (t.regs h c).visible = (s.regs h c).visible := by rw [regs_visible, regs_visible, same]
  have read {β : Type} (π : Regs → β) : π (t.regs h c).visible = π (s.regs h c).visible := congrArg π regs
  exact ⟨fun n => read (·.scalar n), fun n => read (·.pred n), fun k n => read (·.row k n), read (·.k), read (·.bt), read (·.rcur),
    read (·.sw), read (·.fsr), read (·.tfsr), read (·.xr), read (·.trap)⟩

/-! ### Operations on the state that programs do not see -/

theorem modHerd_visible (s : State) (h : Nat) {f : Herd → Herd} (keeps : ∀ x, (f x).visible = x.visible) :
    (s.modHerd h f).visible = s.visible :=
  Prod.ext rfl (map_modify_keeps Herd.visible keeps s.herds h)

theorem modCore_visible (s : State) (h c : Nat) {f : Core → Core} (keeps : ∀ k, (f k).r.visible = k.r.visible) :
    (s.modCore h c f).visible = s.visible :=
  modHerd_visible s h fun x => Prod.ext rfl (map_modify_keeps (fun k : Core => k.r.visible) keeps x.cores c)

theorem modR_visible (s : State) {f : Regs → Regs} (keeps : ∀ r, (f r).visible = r.visible) : (s.modR f).visible = s.visible :=
  modCore_visible s _ _ fun k => keeps k.r

theorem modIssuer_visible (s : State) (c : Cmd) {f : Regs → Regs} (keeps : ∀ r, (f r).visible = r.visible) :
    (s.modIssuer c f).visible = s.visible := by
  unfold State.modIssuer
  dsimp only
  split
  · rfl
  · refine modCore_visible s _ _ fun k => ?_
    unfold Core.modIssuer
    split
    · exact keeps k.r
    · rfl

/-- Moves of beats are nothing that a program sees. -/
theorem visible_moves : Moves (fun _ => ()) State.visible where
  calendar _ _ := rfl
  claims s h _ := modHerd_visible s h fun _ => rfl
  agenda _ _ := rfl
  calls _ _ := rfl
  cmd _ _ _ _ := rfl
  table s c f late := modIssuer_visible s c fun r => by
    obtain ⟨t, e⟩ := late r
    rw [e]
    rfl
  promise _ _ := rfl
  packed _ _ := rfl
  performAt _ _ _ := rfl

theorem visible_reserves : Reserves State.visible := visible_moves.toReserves

@[simp] theorem plan_visible (s : State) (t phase ord : Nat) (a : Act) : (s.plan t phase ord a).visible = s.visible := rfl

@[simp] theorem planEv_visible (s : State) (t phase ord : Nat) (i : Instr) (g : EvArg) : (s.planEv t phase ord i g).visible = s.visible := rfl

@[simp] theorem modCmd_visible (s : State) (id : Nat) (f : Cmd → Cmd) : (s.modCmd id f).visible = s.visible := rfl

@[simp] theorem takeSlot_visible (s : State) (pc t : Nat) : (s.takeSlot pc t).visible = s.visible := rfl

@[simp] theorem prune_visible (s : State) : s.prune.visible = s.visible := rfl

@[simp] theorem modPort_visible (s : State) (p : Nat) (f : Port → Port) : (s.modPort p f).visible = s.visible := rfl

theorem QueuesOnly.visible {s t : State} (only : QueuesOnly s t) : t.visible = s.visible := by
  obtain ⟨l, a, rfl⟩ := only
  exact modR_visible s (f := fun r => { r with pend := l }) fun _ => rfl

@[simp] theorem notePbnd_visible (s : State) (fs : List (BitVec 5)) : (s.notePbnd fs).visible = s.visible :=
  (notePbnd_queuesOnly s fs).visible

@[simp] theorem put_visible (s : State) (lat : Nat) (d : Dest) (v : Row512) : (s.put lat d v).visible = s.visible :=
  (put_queuesOnly s lat d v).visible

@[simp] theorem noteIssued_visible (s : State) (id : Nat) : (s.noteIssued id).visible = s.visible := modR_visible s fun _ => rfl

@[simp] theorem awaitScalar_visible (s : State) (id n : Nat) : (s.awaitScalar id n).visible = s.visible := modR_visible s fun _ => rfl

@[simp] theorem setGeo_visible (s : State) (f : BitVec 96 → BitVec 96) : (s.setGeo f).visible = s.visible := modR_visible s fun _ => rfl

theorem modArray_visible (s : State) (h : Nat) (f : Array → Array) : (s.modArray h f).visible = s.visible :=
  modHerd_visible s h fun _ => rfl

theorem tlb_visible (s : State) (h : Nat) (l : List TlbEntry) : (s.modHerd h fun x => { x with tlb := l }).visible = s.visible :=
  modHerd_visible s h fun _ => rfl

@[simp] theorem awaitEngine_visible (s : State) : s.awaitEngine.visible = s.visible := modCore_visible s _ _ fun _ => rfl

@[simp] theorem chainReads_visible (use : Nat → Act) (l : List Nat) (s : State) (r : Nat) : (s.chainReads use l r).1.visible = s.visible := by
  induction l generalizing s r with
  | nil => rfl
  | cons a l ih => exact (ih ..).trans rfl

@[simp] theorem walkReads_visible (s : State) (x : Nat) (addr : BitVec 16) (reads : List Nat) (r : Nat) :
    (s.walkReads x addr reads r).1.visible = s.visible := chainReads_visible ..

theorem planBlock_visible (s : State) (id k : Nat) (b : PackedBlock) : (s.planBlock id k b).visible = s.visible := by
  have read : ((b.reads.zipIdx).foldl (fun s p => s.plan p.1.2 1 0 (.blockSample id k p.2)) s).visible = s.visible :=
    foldl_preserves State.visible (fun _ _ => plan_visible ..) _ _
  unfold State.planBlock
  dsimp only
  split
  · exact read
  · exact read

@[simp] theorem enterCmd_visible (s : State) (c : Cmd) : (s.enterCmd c).visible = s.visible :=
  (foldl_preserves State.visible (fun _ _ => planBlock_visible ..) _ _).trans
    ((foldl_preserves State.visible (fun _ _ => planBeat_keeps visible_moves ..) _ _).trans rfl)

/-! ### Beats that a claim or a retry moves, and copies that a conflict ends (R201, R257, R259) -/

theorem moveSlot_visible (s : State) (id line t u : Nat) : (s.moveSlot id line t u).visible = s.visible := by
  cases found : s.cmd? id with
  | none => unfold State.moveSlot; rw [found]
  | some c => exact moveSlot_keeps visible_moves found line t u

theorem reserveAgain_visible (s : State) (id old line t lo : Nat) : (s.reserveAgain id old line t lo).visible = s.visible :=
  (repromise_keeps visible_moves ..).trans (moveSlot_visible ..)

theorem modBlock_visible (s : State) (id k : Nat) (f : PackedBlock → PackedBlock) : (s.modBlock id k f).visible = s.visible := rfl

theorem putRead_visible (s : State) (id k j line lo : Nat) : (s.putRead id k j line lo).visible = s.visible := by
  unfold State.putRead
  split
  · rfl
  · next c q _ =>
    cases q.space with
    | hm h => exact (claim_keeps visible_reserves ..).trans (unclaim_keeps visible_reserves ..)
    | dev => cases q.reads[j]? <;> rfl
    | lm => cases q.reads[j]? <;> rfl

theorem dropReads_visible (s : State) (id k n : Nat) : (s.dropReads id k n).visible = s.visible := by
  unfold State.dropReads
  split
  · rfl
  · next q _ =>
    refine (modBlock_visible ..).trans (foldl_preserves State.visible (fun s p => ?_) _ _)
    cases q.space with
    | hm h => exact unclaim_keeps visible_reserves ..
    | dev => rfl
    | lm => rfl

theorem releaseBlock_visible (s : State) (id k : Nat) : (s.releaseBlock id k).visible = s.visible := by
  unfold State.releaseBlock
  split
  · rfl
  · split
    · rfl
    · exact dropReads_visible ..

theorem giveUpBlocks_visible (s : State) (id : Nat) : (s.giveUpBlocks id).visible = s.visible := by
  unfold State.giveUpBlocks
  split
  · rfl
  · refine foldl_preserves State.visible (fun s k => ?_) _ _
    split
    · rfl
    · exact (modBlock_visible ..).trans (releaseBlock_visible ..)

theorem abandonBeat_visible (s : State) (id i : Nat) : (s.abandonBeat id i).visible = s.visible :=
  abandonBeat_keeps visible_moves (fun _ _ => rfl) ..

theorem freeSend_visible (s : State) (c : Cmd) : (s.freeSend c).visible = s.visible := by
  unfold State.freeSend
  split
  · rfl
  · rfl

theorem raiseAsync_visible (s : State) (h c : Nat) (a : Async) : (s.raiseAsync h c a).visible = s.visible := by
  unfold State.raiseAsync
  dsimp only
  split
  · rfl
  · split
    · rfl
    · split
      · exact modCore_visible s _ _ fun _ => rfl
      · rfl

theorem endCopy_visible (s : State) (c : Cmd) (lost : List Nat) : (s.endCopy c lost).visible = s.visible :=
  (raiseAsync_visible ..).trans ((modCmd_visible ..).trans ((giveUpBlocks_visible ..).trans
    ((foldl_preserves State.visible (fun _ _ => abandonBeat_visible ..) _ _).trans (freeSend_visible ..))))

theorem endMore_visible (s : State) (c : Cmd) (lost : List Nat) : (s.endMore c lost).visible = s.visible :=
  (modCore_visible _ _ _ (f := fun k => { k with asyncs := k.asyncs.map _ }) fun _ => rfl).trans ((giveUpBlocks_visible ..).trans
    (foldl_preserves State.visible (fun _ _ => abandonBeat_visible ..) _ _))

theorem moveBeat_visible (s : State) (id i : Nat) : (s.moveBeat id i).visible = s.visible := by
  unfold State.moveBeat
  split
  · rfl
  · next c b _ =>
    refine (repromise_keeps visible_moves ..).trans ((redeliverOf_keeps visible_moves ..).trans ?_)
    split
    · exact performFrom_keeps visible_moves ..
    · extract_lets p sb t q dropped with_ ok t' v w
      have withdrawn : p.s.visible = s.visible := (unclaimIn_keeps visible_reserves ..).trans (unclaimIn_keeps visible_reserves ..)
      split
      · have claimed : q.s.visible = s.visible := (claim_keeps visible_reserves ..).trans withdrawn
        have planned (z : State × Beat) (kept : z.1.visible = s.visible) :
            ((z.1.modBeat id i fun _ => z.2).planBeat id i z.2).visible = s.visible :=
          (planBeat_keeps visible_moves ..).trans ((modCmd_visible ..).trans kept)
        by_cases fits : (b.slots.all fun z => decide (t + 65 ≤ z.2)) = true
        · rw [if_pos fits]
          exact planned (q.s, _) claimed
        · rw [if_neg fits]
          exact planned ((takeSlots dropped _ _).1, _) ((takeSlots_keeps visible_reserves ..).trans
            ((foldl_preserves State.visible (fun _ _ => dropSlot_keeps visible_reserves ..) _ _).trans claimed))
      · have claimed : v.visible = s.visible := (claim_keeps visible_reserves ..).trans withdrawn
        exact (moveReads_keeps visible_moves ..).trans ((foldl_preserves State.visible (fun s j =>
          (performFrom_keeps visible_moves ..).trans ((plan_visible ..).trans (modCmd_visible ..))) _ _).trans claimed)

theorem moveRead_visible (s : State) (id k j : Nat) : (s.moveRead id k j).visible = s.visible := by
  unfold State.moveRead
  split
  · rfl
  · split
    · rfl
    · split
      · split
        · rfl
        · exact reserveAgain_visible ..
      · exact (repromise_keeps visible_moves ..).trans ((redeliver_keeps visible_moves ..).trans (putRead_visible ..))

theorem loseClaims_visible (s : State) (id : Nat) (lost : List Nat) : (s.loseClaims id lost).visible = s.visible := by
  unfold State.loseClaims
  split
  · rfl
  · split
    · rfl
    · split
      · exact endCopy_visible ..
      · split
        · exact endMore_visible ..
        · refine foldl_preserves State.visible (fun s i => ?_) _ _
          split
          · exact moveRead_visible ..
          · exact moveBeat_visible ..

end Sys2Proof.Machine

namespace Sys2Proof.Machine

/-! ### Computations that commit nothing that a program sees -/

/-- Where the computation commits a state, that state looks as s does. -/
structure Quiet (s : State) (r : Res State) : Prop where
  commits : ∀ t, r = .ok t → t.visible = s.visible

theorem Quiet.ok {s t : State} (same : t.visible = s.visible) : Quiet s (.ok t) := ⟨fun _ e => Except.ok.inj e ▸ same⟩

theorem Quiet.error {s : State} (e : Stop) : Quiet s (.error e) := ⟨fun _ same => absurd same (by simp)⟩

theorem Quiet.of {s u : State} {r : Res State} (same : u.visible = s.visible) (quiet : Quiet u r) : Quiet s r :=
  ⟨fun t e => (quiet.commits t e).trans same⟩

theorem Quiet.bind {α : Type} {s : State} {x : Res α} {f : α → Res State} (rest : ∀ a, x = .ok a → Quiet s (f a)) : Quiet s (x >>= f) := by
  cases x with
  | error e => exact .error e
  | ok a => exact rest a rfl

/-- A test that refuses, and the rest. -/
theorem Quiet.check {c : Prop} [Decidable c] {s : State} {x : Res PUnit} {f : PUnit → Res State} (rest : Quiet s (f ⟨⟩)) :
    Quiet s (if c then x >>= f else f ⟨⟩) := by
  split
  · exact .bind fun _ _ => rest
  · exact rest

/-- A value read in one of two ways, and the rest. -/
theorem Quiet.either {c : Prop} [Decidable c] {α : Type} {s : State} {x y : Res α} {f : α → Res State} (rest : ∀ a, Quiet s (f a)) :
    Quiet s (if c then x >>= f else y >>= f) := by
  split
  · exact .bind fun a _ => rest a
  · exact .bind fun a _ => rest a

theorem Quiet.ite {c : Prop} [Decidable c] {s : State} {p q : Res State} (yes : Quiet s p) (no : Quiet s q) : Quiet s (if c then p else q) := by
  split
  · exact yes
  · exact no

/-- A step that itself commits a state, and the rest. -/
theorem Quiet.next {s : State} {x : Res State} {f : State → Res State} (first : Quiet s x)
    (rest : ∀ u, u.visible = s.visible → Quiet s (f u)) : Quiet s (x >>= f) :=
  .bind fun u e => rest u (first.commits u e)

/-! ### Commands that enter with a schedule (R253 to R255) -/

@[simp] theorem enterPlan_visible (s : State) (p : Plan) (c : Cmd) : (s.enterPlan p c).visible = p.s.visible := by
  unfold State.enterPlan
  dsimp only
  split
  · exact (loseClaims_visible ..).trans (enterCmd_visible ..)
  · exact enterCmd_visible ..

theorem refuse_quiet (s : State) (cmd : Cmd) (f : Refused) (w : Walk) : Quiet s (s.refuse cmd f w) := by
  unfold State.refuse
  split
  · exact .error _
  · exact .ok ((planEv_visible ..).trans ((enterCmd_visible ..).trans ((walkReads_visible ..).trans (tlb_visible ..))))

/-- A schedule that reserves nothing that a program sees. -/
def ReservesOnly (s : State) (r : Except Refused Plan) : Prop := ∀ p, r = .ok p → p.s.visible = s.visible

theorem issuePlan_quiet {s : State} (cmd : Cmd) (unit : Nat) {q : Walk × Except Refused Plan} (only : ReservesOnly s q.2) :
    Quiet s (s.issuePlan cmd unit q) := by
  obtain ⟨w, r⟩ := q
  cases r with
  | error f => exact refuse_quiet ..
  | ok p => exact .ite (.error _) (.ok ((enterPlan_visible ..).trans (only p rfl)))

/-- The state in which a walk's reads are reserved. -/
theorem walked_visible (s : State) (cmd : Cmd) (w : Walk) (r : Nat) :
    ((s.modHerd cmd.walker fun h => { h with tlb := w.tlb }).walkReads cmd.ctx cmd.addr w.reads r).1.visible = s.visible :=
  (walkReads_visible ..).trans (tlb_visible ..)

theorem schedule_reserves (s : State) (cmd : Cmd) (moves : List Move) (order ordered : Bool) :
    ReservesOnly s (s.schedule cmd moves order ordered).2 := by
  intro p planned
  unfold State.schedule at planned
  dsimp only at planned
  split at planned
  · exact absurd planned nofun
  · obtain rfl := Except.ok.inj planned
    exact (placeCuts_keeps visible_reserves ..).trans (walked_visible ..)

theorem callSchedule_reserves (s : State) (k : Call) (cmd : Cmd) : ReservesOnly s (s.callSchedule k cmd).2 := by
  intro p planned
  unfold State.callSchedule at planned
  dsimp only at planned
  split at planned
  · exact absurd planned nofun
  · obtain rfl := Except.ok.inj planned
    exact (foldl_preserves (fun p : Plan => p.s.visible) (fun _ _ => placeCuts_keeps visible_reserves ..) _ _).trans (walked_visible ..)

theorem snapEach_visible (c : Cmd) (at_ : Nat) (l : List Nat) (p : Plan) (n r t : Nat) : (p.snapEach c at_ l n r t).s.visible = p.s.visible := by
  induction l generalizing p n r t with
  | nil => exact placeCount_keeps visible_reserves ..
  | cons i l ih =>
    rw [Plan.snapEach]
    dsimp only
    split
    · exact (ih ..).trans (readView_keeps visible_reserves ..)
    · exact (ih ..).trans ((placeChange_keeps visible_reserves ..).trans (readView_keeps visible_reserves ..))

theorem snapSchedule_reserves (s : State) (cmd : Cmd) : ReservesOnly s ((s.snapSchedule cmd).2.map (·.2)) := by
  intro p planned
  obtain ⟨⟨c, p'⟩, scheduled, rfl⟩ : ∃ z, (s.snapSchedule cmd).2 = .ok z ∧ z.2 = p := by
    cases e : (s.snapSchedule cmd).2 with
    | error f => rw [e] at planned; exact absurd planned nofun
    | ok z => rw [e] at planned; exact ⟨z, rfl, Except.ok.inj planned⟩
  unfold State.snapSchedule at scheduled
  dsimp only at scheduled
  split at scheduled
  · exact absurd scheduled nofun
  · split at scheduled
    · exact absurd scheduled nofun
    · obtain ⟨-, rfl⟩ := Prod.mk.inj (Except.ok.inj scheduled)
      exact (snapEach_visible ..).trans ((foldl_preserves (fun p : Plan => p.s.visible)
        (fun _ _ => readView_keeps visible_reserves ..) _ _).trans (walked_visible ..))

theorem copyCommand_quiet (s : State) (k : CopyKind) (a b : BitVec 5) (o f : BitVec 3) : Quiet s (s.copyCommand k a b o f) := by
  unfold State.copyCommand
  refine .bind fun ⟨route, bound⟩ _ => ?_
  refine .check (.bind fun own _ => .bind fun kids _ => .check (.check (.check ?_)))
  refine .check (.check (.check (.check (.check (.check (.check (.next (.of (notePbnd_visible ..) (issuePlan_quiet _ _ (schedule_reserves _ _ _ _ _)))
    fun u same => .ok ((noteIssued_visible ..).trans same))))))))

theorem issueRead_quiet (s : State) (cmd : Cmd) (box : BitVec 256) (runs : List Run) : Quiet s (s.issueRead cmd box runs) := by
  unfold State.issueRead
  dsimp only
  split
  · exact .ok ((enterPlan_visible ..).trans (foldl_preserves (fun p : Plan => p.s.visible) (fun _ _ => place_keeps visible_reserves ..) _ _))
  · split
    · exact refuse_quiet ..
    · exact .ok ((enterPlan_visible ..).trans ((readView_keeps visible_reserves ..).trans (walked_visible ..)))

theorem tabAt_visible (s : State) (t : Regs → Nat) : (s.modR fun r => { r with tabAt := t r }).visible = s.visible :=
  modR_visible s fun _ => rfl

theorem wgeoTab_quiet (s : State) (a b : BitVec 5) (n : BitVec 3) : ∃ r, exec (.wgeoTab a b n) s = s.answer r ∧ Quiet s r := by
  refine ⟨_, rfl, .bind fun ⟨x, y⟩ _ => .check (.bind fun own _ => .check (.check (.check (.next
    (.of (notePbnd_visible ..) (issueRead_quiet ..)) fun u same => .ok ?_))))⟩
  exact (tabAt_visible ..).trans ((noteIssued_visible ..).trans same)

/-! ### Records and words (R266, R286, R418) -/

/-- What a record's place costs before its command enters is nothing that a program sees, and neither is a refusal. -/
theorem recordAt_quiet (s : State) (cmd : Cmd) (va : Nat) (k : Ask) (agrees : Nat → Bool) :
    (s.recordAt cmd va k agrees).1.visible = s.visible ∧ ∀ r, (s.recordAt cmd va k agrees).2 = .error r → Quiet s r := by
  unfold State.recordAt
  dsimp only
  split
  · exact ⟨rfl, fun r e => Except.error.inj e ▸ refuse_quiet ..⟩
  · split
    · exact ⟨rfl, fun r e => Except.error.inj e ▸ refuse_quiet ..⟩
    · exact ⟨walked_visible .., fun r e => absurd e nofun⟩

/-- A command that goes on where its record lies, or with what its refusal leaves. -/
theorem recordAt_then {s : State} {cmd : Cmd} {va : Nat} {k : Ask} {agrees : Nat → Bool} {refused : Res State → Res State}
    {go : State → Nat → Nat → Res State} (no : ∀ r, Quiet s r → Quiet s (refused r)) (yes : ∀ u pa t, u.visible = s.visible → Quiet s (go u pa t)) :
    Quiet s (match s.recordAt cmd va k agrees with
      | (_, .error r) => refused r
      | (u, .ok (pa, t)) => go u pa t) := by
  obtain ⟨same, quiet⟩ := recordAt_quiet s cmd va k agrees
  match e : s.recordAt cmd va k agrees with
  | (u, .error r) => exact no r (quiet r (by rw [e]))
  | (u, .ok (pa, t)) => exact yes u pa t (by rw [e] at same; exact same)

@[simp] theorem enterRecord_visible (s : State) (cmd : Cmd) (box : BitVec 256) (va pa n r : Nat) :
    (s.enterRecord cmd box va pa n r).visible = s.visible := by
  unfold State.enterRecord
  split
  · exact (planRecord_keeps visible_moves ..).trans ((enterCmd_visible ..).trans (takeSlot_visible ..))
  · exact (planRecord_keeps visible_moves ..).trans ((enterPlan_visible ..).trans (readView_keeps visible_reserves ..))

theorem wamo_quiet (s : State) (op : Nat) (n p : BitVec 5) (h : BitVec 4) : Quiet s (s.wamo op n p h) := by
  unfold State.wamo
  refine .check (.bind fun v _ => .either fun v2 => .bind fun path _ => .bind fun b _ => .check ?_)
  split
  · exact .error _
  · refine .check (.check (.of (notePbnd_visible s [p]) (recordAt_then (fun r quiet => ?_) fun u pa t same => ?_)))
    · exact .next quiet fun u same => .ok ((noteIssued_visible ..).trans same)
    · exact .ok ((awaitScalar_visible ..).trans ((noteIssued_visible ..).trans same))

theorem apset_quiet (s : State) (n p : BitVec 5) (h : BitVec 4) : ∃ r, exec (.apset n p h) s = s.answer r ∧ Quiet s r := by
  refine ⟨_, rfl, .check (.check (.check (.bind fun v _ => .bind fun path _ => .bind fun b _ => .check ?_)))⟩
  split
  · exact .error _
  · refine .check (.check (.of (notePbnd_visible s [p]) (recordAt_then (fun r quiet => quiet) fun u pa t same => ?_)))
    exact .ok ((awaitScalar_visible ..).trans ((noteIssued_visible ..).trans ((enterRecord_visible ..).trans same)))

theorem readDescriptor_quiet (s : State) (kind : CmdKind) (b : BitVec 256) (va : Nat) : Quiet s (s.readDescriptor kind b va) := by
  unfold State.readDescriptor
  refine .check (recordAt_then (fun r quiet => ?_) fun u pa t same => ?_)
  · exact .next quiet fun u same => .ok ((awaitEngine_visible ..).trans same)
  · exact .ok ((awaitEngine_visible ..).trans ((enterRecord_visible ..).trans same))

theorem apclr_quiet (s : State) (a : BitVec 5) : ∃ r, exec (.apclr a) s = s.answer r ∧ Quiet s r :=
  ⟨_, rfl, .check (.bind fun _ _ => .check (.ok (notePbnd_visible s [a])))⟩

/-! ### Snapshots and calls (R289, R366) -/

theorem planCompares_visible (s : State) (c : Cmd) : (s.planCompares c).visible = s.visible :=
  foldl_preserves State.visible (fun _ _ => planEv_visible ..) _ _

theorem wsnap_quiet (s : State) (a b : BitVec 5) : ∃ r, exec (.wsnap a b) s = s.answer r ∧ Quiet s r := by
  refine ⟨_, rfl, .bind fun ⟨x, bound⟩ _ => .check (.bind fun src _ => .bind fun hash _ => .bind fun index _ => .bind fun data _ =>
    .check (.check (.check (.check (.check (.check (.check ?_)))))))⟩
  have only := snapSchedule_reserves (s.notePbnd [a, b]) ((s.notePbnd [a, b]).snapCmd x bound [src, hash, index, data])
  dsimp only
  generalize (s.notePbnd [a, b]).snapSchedule _ = q at only ⊢
  obtain ⟨w, r⟩ := q
  refine .next (.of (notePbnd_visible s [a, b]) (issuePlan_quiet (q := (w, _)) _ _ only)) fun u same => ?_
  split
  · exact .ok ((noteIssued_visible ..).trans same)
  · exact .ok ((noteIssued_visible ..).trans ((planCompares_visible ..).trans same))

theorem joinGroup_visible (s : State) (k : Call) (cmd : Nat) : (s.joinGroup k cmd).visible = s.visible := by
  have grouped : (({ s with calls := s.calls ++ [k] } : State).modR fun r => { r with group := r.group ++ [k.id] }).visible = s.visible :=
    modR_visible _ fun _ => rfl
  unfold State.joinGroup
  dsimp only
  split
  · exact (noteIssued_visible ..).trans grouped
  · exact (noteIssued_visible ..).trans grouped

theorem startCall_quiet (s : State) (k : Call) (bound : Nat) : Quiet s (s.startCall k bound) := by
  unfold State.startCall
  refine .next (.of (u := s.newId.2) rfl (issuePlan_quiet _ _ (callSchedule_reserves _ _ _))) fun u same => ?_
  split
  · exact .ok ((joinGroup_visible ..).trans same)
  · exact .ok ((joinGroup_visible ..).trans same)

theorem wcall_quiet (s : State) (a b : BitVec 5) (n : Nat) : Quiet s (s.wcall a b n) := by
  unfold State.wcall
  refine .bind fun ⟨target, word⟩ _ => .check (.bind fun bytes _ => .check ?_)
  beta_reduce
  extract_lets pairs ofFrame
  have framed (f : Frame) : Quiet s (ofFrame f) := by
    unfold ofFrame
    extract_lets img ofTask
    have tasked (t : Task) : Quiet s (ofTask t) := .either fun goal => .check (.check (.bind fun boxes _ => .check (.check (.check
      (.of (notePbnd_visible s [a, b]) (startCall_quiet ..))))))
    split
    · exact .either tasked
    · exact .bind fun t _ => tasked t
  split
  · exact .bind fun f _ => framed f
  · exact .bind fun f _ => framed f

end Sys2Proof.Machine

namespace Sys2Proof.Machine

/-! ### Links (R349 to R362) -/

theorem claimBeats_visible (l : List (Beat × Nat)) (p : Plan) : (claimBeats p l).1.s.visible = p.s.visible := by
  induction l generalizing p with
  | nil => rfl
  | cons z l ih =>
    rw [claimBeats]
    dsimp only
    split
    · exact (ih ..).trans (claim_keeps visible_reserves ..)
    · rfl

theorem lsend_quiet (s : State) (a b p : BitVec 5) : Quiet s (s.lsend a b p) := by
  unfold State.lsend
  refine .bind fun ⟨t, w⟩ _ => .bind fun port _ => .check (.bind fun ⟨box, g⟩ _ => .check (.check (.check ?_)))
  extract_lets x beats promise made cmd
  have claimed := claimBeats_visible beats.zipIdx { s := s.notePbnd [a, b], id := cmd.id }
  beta_reduce
  generalize claimBeats { s := s.notePbnd [a, b], id := cmd.id } beats.zipIdx = z at claimed ⊢
  obtain ⟨q, clash⟩ := z
  have entered : q.s.visible = s.visible := claimed.trans (notePbnd_visible s [a, b])
  cases clash with
  | some i => exact .ok ((endCopy_visible ..).trans ((noteIssued_visible ..).trans entered))
  | none =>
    exact .ok ((foldl_preserves State.visible (fun _ _ => planEv_visible ..) _ _).trans
      ((foldl_preserves State.visible (fun _ _ => plan_visible ..) _ _).trans ((noteIssued_visible ..).trans entered)))

theorem windows_visible (s : State) (h : Nat) (f : Herd → List Window) : (s.modHerd h fun x => { x with windows := f x }).visible = s.visible :=
  modHerd_visible s h fun _ => rfl

theorem lrecv_quiet (s : State) (a b p : BitVec 5) : Quiet s (s.lrecv a b p) := by
  unfold State.lrecv
  refine .bind fun ⟨e, w⟩ _ => .bind fun port _ => .check (.bind fun ⟨box, g⟩ _ => .check (.check (.check (.check (.ok ?_)))))
  exact (planEv_visible ..).trans ((windows_visible (s.notePbnd [a, b]).newId.2 ..).trans (notePbnd_visible s [a, b]))

theorem llat_quiet (s : State) (d p : BitVec 5) : ∃ r, exec (.llat d p) s = s.answer r ∧ Quiet s r :=
  ⟨_, rfl, .bind fun _ _ => .bind fun _ _ => .ok ((put_visible ..).trans (modPort_visible ..))⟩

theorem gcyc_quiet (s : State) (d : BitVec 5) (k : BitVec 1) : ∃ r, exec (.gcyc d k) s = s.answer r ∧ Quiet s r := by
  refine ⟨_, rfl, .bind fun _ _ => .ite (.ok ((put_visible ..).trans ?_)) (.ok (put_visible ..))⟩
  exact modR_visible s (f := fun r => { r with gcycHi := _ }) fun _ => rfl

theorem gadj_quiet (s : State) (a : BitVec 5) (n : BitVec 3) : ∃ r, exec (.gadj a n) s = s.answer r ∧ Quiet s r :=
  ⟨_, rfl, .bind fun _ _ => .check (.check (.check (.ok (notePbnd_visible s [a]))))⟩

theorem lpair_quiet (s : State) (a p : BitVec 5) : ∃ r, exec (.lpair a p) s = s.answer r ∧ Quiet s r :=
  ⟨_, rfl, .bind fun _ _ => .bind fun _ _ => .check (.check (.ok ((plan_visible ..).trans (notePbnd_visible s [a]))))⟩

/-! ### Contexts (R417 to R422) -/

theorem cxmk_quiet (s : State) (n p : BitVec 5) (h : BitVec 4) : ∃ r, exec (.cxmk n p h) s = s.answer r ∧ Quiet s r :=
  ⟨_, rfl, .bind fun _ _ => .bind fun _ _ => .bind fun _ _ => .bind fun _ _ => .of (notePbnd_visible s [p]) (readDescriptor_quiet ..)⟩

theorem cxgive_quiet (s : State) (a p : BitVec 5) (h : BitVec 4) : ∃ r, exec (.cxgive a p h) s = s.answer r ∧ Quiet s r :=
  ⟨_, rfl, .bind fun _ _ => .bind fun _ _ => .bind fun _ _ => .check (.bind fun _ _ =>
    .of (notePbnd_visible s [a, p]) (readDescriptor_quiet ..))⟩

theorem cxq_quiet (s : State) (n p : BitVec 5) (h : BitVec 4) : ∃ r, exec (.cxq n p h) s = s.answer r ∧ Quiet s r :=
  ⟨_, rfl, .bind fun _ _ => .bind fun _ _ => .bind fun _ _ => .bind fun _ _ => .of (notePbnd_visible s [p]) (readDescriptor_quiet ..)⟩

theorem beginLasting_visible (s : State) (kind : CmdKind) (n : Nat) : (s.beginLasting kind n).visible = s.visible := awaitScalar_visible ..

theorem takeRange_visible (s : State) (x a n : Nat) (ask : Ask) : (s.takeRange x a n ask).visible = s.visible := by
  obtain ⟨l, e⟩ := takeRange_only s x a n ask
  rw [e]
  rfl

theorem takeArea_visible (s : State) (n lines : Nat) (ask : Ask) : (s.takeArea n lines ask).visible = s.visible := by
  unfold State.takeArea
  split
  · exact takeRange_visible ..
  · rfl

theorem takeImageReads_visible (s : State) (x base : Nat) : (s.takeImageReads x base).visible = s.visible :=
  foldl_preserves State.visible (fun s p => by
    split
    · rfl
    · exact takeRange_visible ..) _ _

theorem takeLoadSlots_visible (s : State) (x : Nat) : (s.takeLoadSlots x).visible = s.visible := by
  unfold State.takeLoadSlots
  split
  · refine (foldl_preserves State.visible (fun s q => ?_) _ _).trans (takeArea_visible ..)
    dsimp only
    split
    · exact takeImageReads_visible ..
    · rfl
  · rfl

theorem cxload_quiet (s : State) (n b : BitVec 5) : ∃ r, exec (.cxload n b) s = s.answer r ∧ Quiet s r :=
  ⟨_, rfl, .bind fun _ _ => .bind fun _ _ => .bind fun _ _ => .check (.bind fun _ _ => .check (.ok ((planEv_visible ..).trans
    ((takeLoadSlots_visible ..).trans ((beginLasting_visible (s.notePbnd [b]) _ _).trans (notePbnd_visible ..))))))⟩

theorem cxpend_quiet (s : State) (d b : BitVec 5) : ∃ r, exec (.cxpend d b) s = s.answer r ∧ Quiet s r := by
  refine ⟨_, rfl, .bind fun v _ => .check (.bind fun _ _ => .bind fun _ _ => .ok ?_)⟩
  have put := (put_visible (s.notePbnd [b]) 2 (.scalar d.toNat)
    (wide (((s.notePbnd [b]).ctx (s.notePbnd [b]).mine).pendWord (v.toNat % 8)))).trans (notePbnd_visible ..)
  split
  · exact put
  · exact put

/-! ### The array (R311 to R325) -/

theorem program_quiet (s : State) (e : Nat) (l : Lease) : Quiet s (s.program e l) := .ite (.error _) (.ok (plan_visible ..))

theorem mgeo_quiet {s : State} {fs : List (BitVec 5)} {f : BitVec 96 → BitVec 96} : Quiet s (.ok ((s.notePbnd fs).setGeo f)) :=
  .ok ((setGeo_visible ..).trans (notePbnd_visible ..))

theorem placeLink_visible (s : State) (h : Nat) (b : LinkBeat) (t : Nat) : (s.placeLink h b t).visible = s.visible :=
  (planEv_visible ..).trans (modHerd_visible _ _ fun _ => rfl)

theorem moveLink_visible (s : State) (h id : Nat) : (s.moveLink h id).visible = s.visible := by
  unfold State.moveLink
  split
  · rfl
  · exact (placeLink_visible ..).trans (visible_reserves.claims ..)

theorem displace_visible (s : State) (h : Nat) (lost : List Agent) : (s.displace h lost).visible = s.visible := by
  refine (foldl_preserves State.visible (fun s a => ?_) _ _).trans (foldl_preserves State.visible (fun _ _ => loseClaims_visible ..) _ _)
  split
  · exact moveLink_visible ..
  · rfl

theorem claimAll_visible (x : Herd) (now t : Nat) (banks : List Nat) (agent : Agent) : (x.claimAll now t banks agent).visible = x.visible := rfl

theorem claimArray_visible (s : State) (h : Nat) (agent : Agent) (l : List Touch) : (s.claimArray h agent l).visible = s.visible :=
  (displace_visible ..).trans ((modHerd_visible _ _ fun x => foldl_preserves Herd.visible (fun _ _ => claimAll_visible ..) l x).trans (visible_reserves.claims ..))

theorem agenda_visible (s : State) (l : List Due) : ({ s with agenda := l } : State).visible = s.visible := rfl

theorem enterArray_visible (s : State) (agent : Nat → Agent) (c : ArrCmd) : (s.enterArray agent c).visible = s.visible :=
  (agenda_visible ..).trans ((modArray_visible ..).trans (claimArray_visible s.newId.2 ..))

theorem arrayIssue_quiet (s : State) (bank hazard busy : Bool) (agent : Nat → Agent) (c : ArrCmd) :
    Quiet s (s.arrayIssue bank hazard busy agent c) :=
  .ite (.error _) (.ite (.ite (.error _) (.error _)) (.ite (.ite (.error _) (.error _)) (.ok (enterArray_visible ..))))

theorem mzero_quiet (s : State) (sN : BitVec 2) : ∃ r, exec (.mzero sN) s = s.answer r ∧ Quiet s r :=
  ⟨_, rfl, .bind fun _ _ => .ok ((plan_visible ..).trans (modArray_visible ..))⟩

theorem spillFill_quiet (s : State) (op : ArrOp) (fill : Bool) (rows cols len code : Nat) :
    Quiet s (s.spillFill op fill rows cols len code) :=
  .bind fun _ _ => .bind fun _ _ => .bind fun _ _ => .check (arrayIssue_quiet ..)

theorem mrun_quiet (s : State) (a : BitVec 5) (sN : BitVec 2) (w q : BitVec 1) : ∃ r, exec (.mrun a sN w q) s = s.answer r ∧ Quiet s r :=
  ⟨_, rfl, .bind fun _ _ => .bind fun _ _ => .bind fun _ _ => .bind fun _ _ => .check (.of (notePbnd_visible s [a]) (arrayIssue_quiet ..))⟩

theorem mload_quiet (s : State) (w : BitVec 1) : ∃ r, exec (.mload w) s = s.answer r ∧ Quiet s r :=
  ⟨_, rfl, .bind fun _ _ => .bind fun _ _ => .bind fun _ _ => .check (arrayIssue_quiet ..)⟩

theorem menc_quiet (s : State) (a : BitVec 5) (q : BitVec 1) : ∃ r, exec (.menc a q) s = s.answer r ∧ Quiet s r :=
  ⟨_, rfl, .bind fun _ _ => .check (.bind fun _ _ => .bind fun _ _ => .bind fun _ _ => .bind fun _ _ => .bind fun _ _ => .check
    (.of (notePbnd_visible s [a]) (arrayIssue_quiet ..)))⟩

theorem mcomp_quiet (s : State) (a : BitVec 5) : ∃ r, exec (.mcomp a) s = s.answer r ∧ Quiet s r :=
  ⟨_, rfl, .bind fun _ _ => .check (.bind fun _ _ => .bind fun _ _ => .bind fun _ _ => .check
    (.of (notePbnd_visible s [a]) (arrayIssue_quiet ..)))⟩

end Sys2Proof.Machine

namespace Sys2Proof.Machine

/-! ### Every command that writes later -/

/-- The instructions of CommandsWriteLater. -/
def writesLater : Instr → Bool
  | .wcopy .. | .wmcast .. | .wgath .. | .wscat .. | .wgeo .. | .wgeoHi .. | .wgeoTab .. | .wamoAdd .. | .wamoSwap .. | .wamoCas ..
  | .wamoMax .. | .wsnap .. | .wcall .. | .wjoin | .lsend .. | .lrecv .. | .llat .. | .gcyc .. | .gadj .. | .lpair .. | .cxmk ..
  | .cxgive .. | .cxq .. | .cxload .. | .cxpend .. | .apset .. | .apclr _ | .mgeoA _ | .mgeoW .. | .mgeoD .. | .mgeoN .. | .mprog ..
  | .mprogOpen .. | .mprogClr _ | .mzero _ | .mrun .. | .mload _ | .mspillAcc _ | .mspillSlot _ | .mfillAcc _ | .mfillSlot _
  | .menc .. | .mcomp _ => true
  | _ => false

theorem gm_quiet (s : State) (fs : List (BitVec 5)) (g : Regs → List Geo) : Quiet s (.ok ((s.notePbnd fs).modR fun r => { r with gm := g r })) :=
  .ok ((modR_visible _ (f := fun r => { r with gm := g r }) fun _ => rfl).trans (notePbnd_visible s fs))

theorem exec_quiet {i : Instr} (later : writesLater i = true) (s : State) : ∃ r, exec i s = s.answer r ∧ Quiet s r := by
  cases i with
  | wcopy a b o f | wmcast a b o f | wgath a b o f | wscat a b o f => exact ⟨_, rfl, copyCommand_quiet ..⟩
  | wgeo a b n | wgeoHi a b n => exact ⟨_, rfl, .bind fun _ _ => gm_quiet s [a, b] _⟩
  | wgeoTab a b n => exact wgeoTab_quiet ..
  | wamoAdd n p h | wamoSwap n p h | wamoCas n p h | wamoMax n p h => exact ⟨_, rfl, wamo_quiet ..⟩
  | wsnap a b => exact wsnap_quiet ..
  | wcall a b n => exact ⟨_, rfl, wcall_quiet ..⟩
  | wjoin => exact ⟨.ok _, rfl, .ok (planEv_visible ..)⟩
  | lsend a b p => exact ⟨_, rfl, lsend_quiet ..⟩
  | lrecv a b p => exact ⟨_, rfl, lrecv_quiet ..⟩
  | llat d p => exact llat_quiet ..
  | gcyc d k => exact gcyc_quiet ..
  | gadj a n => exact gadj_quiet ..
  | lpair a p => exact lpair_quiet ..
  | cxmk n p h => exact cxmk_quiet ..
  | cxgive a p h => exact cxgive_quiet ..
  | cxq n p h => exact cxq_quiet ..
  | cxload n b => exact cxload_quiet ..
  | cxpend d b => exact cxpend_quiet ..
  | apset n p h => exact apset_quiet ..
  | apclr a => exact apclr_quiet ..
  | mgeoA a | mgeoW a b | mgeoD a b | mgeoN a b => exact ⟨_, rfl, .bind fun _ _ => .check mgeo_quiet⟩
  | mprog a b n e | mprogOpen a n e => exact ⟨_, rfl, .bind fun _ _ => .of (notePbnd_visible ..) (program_quiet ..)⟩
  | mprogClr e => exact ⟨_, rfl, program_quiet ..⟩
  | mzero sN => exact mzero_quiet ..
  | mrun a sN w q => exact mrun_quiet ..
  | mload w => exact mload_quiet ..
  | mspillAcc sN | mspillSlot w | mfillAcc sN | mfillSlot w => exact ⟨_, rfl, spillFill_quiet ..⟩
  | menc a q => exact menc_quiet ..
  | mcomp a => exact mcomp_quiet ..
  | _ => exact absurd later Bool.false_ne_true

/-- A step that neither holds nor traps commits what its answer gives. -/
theorem Quiet.runs {s t : State} {r : Res State} (quiet : Quiet s r) (run : s.answer r = .next t) (free : t.cur.trapped = false)
    (goes : t.cur.mustHold = false) : t.visible = s.visible := by
  match r, quiet, run with
  | .ok u, quiet, run =>
    rw [answer_ok, Host.Outcome.next.injEq] at run
    exact quiet.commits t (congrArg _ run)
  | .error .hold, _, run =>
    rw [answer_hold, Host.Outcome.next.injEq] at run
    subst run
    exact absurd goes (by simp)
  | .error (.trap tr), _, run =>
    rw [answer_trap, Host.Outcome.next.injEq] at run
    subst run
    rw [trapHere_trapped] at free
    exact absurd free (by simp)

/-- Settles O48. A command answers a computation that commits what programs see of the memories and the registers as it was
(`exec_quiet`): it only plans, reserves slots and enters its record. -/
theorem commandsWriteLater : Obligations.CommandsWriteLater := by
  intro i s t _ _ _ later run free goes
  have later : writesLater i = true := by
    clear run
    cases i <;> trivial
  obtain ⟨r, answer, quiet⟩ := exec_quiet later s
  have same := quiet.runs (answer ▸ run) free goes
  exact ⟨sameMemory_of_visible same, sameRegisters_of_visible same⟩

end Sys2Proof.Machine

namespace Sys2Proof.Machine

/-! ## Copy commands (R249 to R256, R262, R263, R267)

### What noting a read past the block leaves of what a copy command reads (R25) -/

section
variable (s : State) (fs : List (BitVec 5))

/-- What sees neither the herds nor the agenda. -/
theorem notePbnd_rest_keeps {β : Type} (π : State → β) (keeps : ∀ (s : State) l a, π { s with herds := l, agenda := a } = π s) :
    π (s.notePbnd fs) = π s := by
  obtain ⟨l, a, e⟩ := notePbnd_queuesOnly s fs
  rw [e]
  exact keeps s _ a

theorem notePbnd_herds_keeps {β : Type} (π : Herd → β) (keeps : ∀ (x : Herd) l, π { x with cores := l } = π x) :
    (s.notePbnd fs).herds.map π = s.herds.map π := by
  obtain ⟨l, a, e⟩ := notePbnd_queuesOnly s fs
  rw [e]
  exact map_modify_keeps π (fun x => keeps x _) s.herds s.cur.herd

@[simp] theorem notePbnd_ctx : (s.notePbnd fs).R.ctx = s.R.ctx := notePbnd_R_keeps s fs Regs.ctx fun _ _ => rfl

@[simp] theorem notePbnd_interlocked : (s.notePbnd fs).interlocked = s.interlocked :=
  notePbnd_R_keeps s fs Regs.interlocked fun _ _ => rfl

@[simp] theorem notePbnd_gm : (s.notePbnd fs).R.gm = s.R.gm := notePbnd_R_keeps s fs Regs.gm fun _ _ => rfl

@[simp] theorem notePbnd_idx : (s.notePbnd fs).R.idx = s.R.idx := notePbnd_R_keeps s fs Regs.idx fun _ _ => rfl

@[simp] theorem notePbnd_tabAt : (s.notePbnd fs).R.tabAt = s.R.tabAt := notePbnd_R_keeps s fs Regs.tabAt fun _ _ => rfl

@[simp] theorem notePbnd_nextId : (s.notePbnd fs).nextId = s.nextId := notePbnd_rest_keeps s fs State.nextId fun _ _ _ => rfl

@[simp] theorem notePbnd_isRoot (x : Nat) : (s.notePbnd fs).isRoot x = s.isRoot x :=
  notePbnd_rest_keeps s fs (fun s => s.isRoot x) fun _ _ _ => rfl

@[simp] theorem notePbnd_givenAway (x : Nat) : (s.notePbnd fs).givenAway x = s.givenAway x :=
  notePbnd_rest_keeps s fs (fun s => s.givenAway x) fun _ _ _ => rfl

@[simp] theorem notePbnd_walkerFull (w : Nat) : (s.notePbnd fs).walkerFull w = s.walkerFull w :=
  notePbnd_rest_keeps s fs (fun s => s.walkerFull w) fun _ _ _ => rfl

@[simp] theorem notePbnd_apertureOf (b : BitVec 256) : (s.notePbnd fs).apertureOf b = s.apertureOf b :=
  notePbnd_rest_keeps s fs (fun s => s.apertureOf b) fun _ _ _ => rfl

@[simp] theorem notePbnd_packedBox (b : BitVec 256) : (s.notePbnd fs).packedBox b = s.packedBox b :=
  notePbnd_rest_keeps s fs (fun s => s.packedBox b) fun _ _ _ => rfl

@[simp] theorem notePbnd_scaleWhole (b : BitVec 256) (l : List Run) : scaleWhole (s.notePbnd fs) b l = scaleWhole s b l :=
  notePbnd_rest_keeps s fs (fun s => scaleWhole s b l) fun _ _ _ => rfl

@[simp] theorem notePbnd_arrayIssues : (s.notePbnd fs).arrayIssues = s.arrayIssues := by
  have issues (u : State) : u.arrayIssues = (u.herds.map fun x => x.array.cmds).any fun l => l.any fun k => k.at_ == u.tick := by
    rw [List.any_map]
    rfl
  rw [issues, issues, notePbnd_tick, notePbnd_herds_keeps s fs _ fun _ _ => rfl]

@[simp] theorem notePbnd_marked (sp : Space) (page : Nat) : (s.notePbnd fs).marked sp page = s.marked sp page := by
  cases sp with
  | dev => rfl
  | hm h => exact notePbnd_herd_keeps s fs (fun x => x.hmMarks.contains page) (fun _ _ => rfl) h
  | lm h c => exact notePbnd_herd_keeps s fs (fun x => x.lmMarks.contains (c, page)) (fun _ _ => rfl) h

@[simp] theorem notePbnd_ownSpace : (s.notePbnd fs).ownSpace = s.ownSpace := by
  simp [State.ownSpace, State.space]

@[simp] theorem notePbnd_untranslated : (s.notePbnd fs).untranslated = s.untranslated := by simp [State.untranslated]

@[simp] theorem notePbnd_routeChild (ch : Nat) : (s.notePbnd fs).routeChild ch = s.routeChild ch := by
  have group : (s.notePbnd fs).R.group = s.R.group := notePbnd_R_keeps s fs Regs.group fun _ _ => rfl
  have call (id : Nat) : (s.notePbnd fs).call? id = s.call? id := notePbnd_rest_keeps s fs (fun s => s.call? id) fun _ _ _ => rfl
  funext n
  simp only [State.routeChild, State.sibling, group, call]

@[simp] theorem notePbnd_testedGeo (k : CopyKind) (o : BitVec 3) : (s.notePbnd fs).testedGeo k o = s.testedGeo k o := by
  simp [State.testedGeo]

@[simp] theorem notePbnd_copyRunsTo (k : CopyKind) (up : Bool) (o f : BitVec 3) (own child : BitVec 256) :
    (s.notePbnd fs).copyRunsTo k up o f own child = s.copyRunsTo k up o f own child := by
  simp [State.copyRunsTo]

@[simp] theorem notePbnd_copyMoves (k : CopyKind) (up : Bool) (o f : BitVec 3) (own : BitVec 256) (kids : List (Call × BitVec 256)) :
    (s.notePbnd fs).copyMoves k up o f own kids = s.copyMoves k up o f own kids := by
  simp [State.copyMoves]

end

/-! ### A command that issues with its schedule (R253 to R255) -/

/-- The herd that carries a copy out (R249, R262). -/
theorem copyCmd_walker (s : State) (k : CopyKind) (route bound : Word) (o f : BitVec 3) (kids : List (Call × BitVec 256)) :
    ∀ p ∈ kids.head?, ∀ h ∈ p.1.space.herd, (s.copyCmd k route bound o f kids).walker = h := by
  intro p first h at_
  cases kids with
  | nil => exact absurd first (by simp)
  | cons q l =>
    obtain rfl : q = p := by simpa using first
    simp only [State.copyCmd, State.newCmd, Option.mem_def.mp at_, Option.getD_some]

/-- The checks of R267, passed. -/
theorem copyCommand_passes {s : State} {k : CopyKind} {a b : BitVec 5} {o f : BitVec 3} {route bound : Word} {own : BitVec 256}
    {kids : List (Call × BitVec 256)} (src : s.src2 a b = .ok (route, bound)) (ready : CopyReady s k route o f own kids) :
    s.copyCommand k a b o f =
      if bound ≠ 0 && s.interlocked then raise 6
      else ((s.notePbnd [a, b]).issuePlan ((s.notePbnd [a, b]).copyCmd k route bound o f kids) 1
        ((s.notePbnd [a, b]).copySchedule k route bound o f own kids)).bind fun u =>
          .ok (u.noteIssued ((s.notePbnd [a, b]).copyCmd k route bound o f kids).id) := by
  obtain ⟨calm, route_ok, own_box, children, access, not_packed, held, formats, table, inside, far_inside, whole, room⟩ := ready
  have denied : (if route.getLsbD 8 then !boxWrites own else !boxReads own) = false := by
    split at access
    · next up => rw [if_pos up, access]; rfl
    · next down => rw [if_neg down, access]; rfl
  have uses : (decide (k = .gather) || decide (k = .scatter)) = true → k = .gather ∨ k = .scatter := by simp
  have late : ((decide (k = .gather) || decide (k = .scatter)) && decide (s.tick < s.R.tabAt)) = false := by
    rw [Bool.and_eq_false_imp]
    exact fun u => decide_eq_false (Nat.not_lt.mpr (table (uses u)).2)
  have bad : ((decide (k = .gather) || decide (k = .scatter)) && !tableOk own (s.R.gm.getD o.toNat {}) s.R.idx) = false := by
    rw [Bool.and_eq_false_imp]
    exact fun u => by rw [(table (uses u)).1]; rfl
  have formed : (kids.any fun p => !sameFormat own p.2) = false := by rw [← List.not_all_eq_any_not, formats]; rfl
  have outside : (kids.any fun p => !subBoxOk p.2 (s.R.gm.getD f.toNat {}).origins (s.R.gm.getD o.toNat {}).extents) = false := by
    rw [← List.not_all_eq_any_not, far_inside]
    rfl
  have split_block : (route.getLsbD 8 && decide (s.level = 3) &&
      !kids.all fun p => scaleWhole s own (s.copyRunsTo k (route.getLsbD 8) o f own p.2)) = false := by
    rw [Bool.and_eq_false_imp]
    intro up
    have isUp : route.getLsbD 8 = true := (Bool.and_eq_true _ _ ▸ up).1
    rw [isUp, List.all_eq_true.mpr (whole (by simpa using up))]
    rfl
  have free : s.walkerFull ((s.notePbnd [a, b]).copyCmd k route bound o f kids).walker = false := by
    have same : ((s.notePbnd [a, b]).copyCmd k route bound o f kids).walker = (s.copyCmd k route 0 o f kids).walker := by
      simp [State.copyCmd, State.newCmd]
    rw [same, room]
  unfold State.copyCommand
  simp only [src, bind, Except.bind, notePbnd_box, own_box, notePbnd_routeChild, children, route_ok, notePbnd_level, notePbnd_apertureOf,
    notePbnd_ctx, notePbnd_givenAway, notePbnd_tick, notePbnd_tabAt, notePbnd_interlocked, notePbnd_gm, notePbnd_idx, notePbnd_testedGeo,
    notePbnd_scaleWhole, notePbnd_copyRunsTo, notePbnd_walkerFull, denied, held, formed, late, bad, inside, outside,
    split_block, free, Bool.not_true, Bool.false_eq_true, if_false, Bool.false_or, Bool.false_and]
  refine (if_neg (Bool.not_eq_true _ ▸ not_packed)).trans ?_
  split
  · rfl
  · rfl

theorem plans_cmds {α : Type} (s : State) (l : List α) (t phase ord : α → Nat) (a : α → Act) :
    (l.foldl (fun s x => s.plan (t x) (phase x) (ord x) (a x)) s).cmds = s.cmds :=
  foldl_preserves State.cmds (f := fun s x => s.plan (t x) (phase x) (ord x) (a x)) (fun _ _ => rfl) l s

theorem planBeat_cmds (s : State) (id i : Nat) (b : Beat) : (s.planBeat id i b).cmds = s.cmds := by
  unfold State.planBeat
  extract_lets +lift u
  have sampled : u.cmds = s.cmds := by
    unfold u
    split
    · rfl
    · split
      · exact plans_cmds s b.slots.zipIdx (fun p => p.1.2) (fun _ => 1) (fun _ => 0) _
      · rfl
  split
  · exact (plans_cmds u b.slots.zipIdx (fun p => p.1.2 + 10) (fun _ => 2) (fun _ => 10) _).trans sampled
  · exact sampled

theorem planBlock_cmds (s : State) (id k : Nat) (b : PackedBlock) : (s.planBlock id k b).cmds = s.cmds := by
  unfold State.planBlock
  extract_lets u
  have sampled : u.cmds = s.cmds := plans_cmds s b.reads.zipIdx (fun p => p.1.2) (fun _ => 1) (fun _ => 0) _
  split
  · exact sampled
  · exact sampled

theorem mem_enterCmd (s : State) (c : Cmd) : c ∈ (s.enterCmd c).cmds := by
  have entered : (s.enterCmd c).cmds = s.prune.cmds ++ [c] :=
    (foldl_preserves State.cmds (fun _ _ => planBlock_cmds ..) _ _).trans (foldl_preserves State.cmds (fun _ _ => planBeat_cmds ..) _ _)
  rw [entered]
  exact List.mem_append_right _ (List.mem_singleton.mpr rfl)

/-- A command as it enters: with its schedule or the fault of its walk. -/
def Cmd.entersAs (cmd c : Cmd) : Prop :=
  ∃ promise first beats packed fault,
    c = { cmd with promise := promise, first := first, beats := beats, packed := packed, walkFault := fault }

/-- What a walk refuses in a context with a translation enters to report the fault (R254). -/
theorem issuePlan_faults {s : State} {cmd : Cmd} (unit : Nat) (w : Walk) (f : Refused) (root : s.isRoot cmd.ctx = false) :
    ∃ u c, s.issuePlan cmd unit (w, .error f) = .ok u ∧ c ∈ u.cmds ∧ cmd.entersAs c ∧ c.walkFault = .some (f.cls, f.owner, f.write, f.va) :=
  ⟨_, _, if_neg (by rw [root]; exact Bool.false_ne_true), mem_enterCmd .., ⟨_, _, _, _, _, rfl⟩, rfl⟩

/-- In a cycle without an array command a plan enters as it stands (R202). -/
theorem enterPlan_enters {s : State} (p : Plan) (cmd : Cmd) (calm : s.arrayIssues = false) :
    ∃ c, c ∈ (s.enterPlan p cmd).cmds ∧ cmd.entersAs c ∧ c.walkFault = cmd.walkFault ∧
      c.promise = p.promise s.tick ∧ c.beats = p.beats ∧ c.packed = p.blocks := by
  refine ⟨{ cmd with promise := p.promise s.tick, first := p.promise s.tick, beats := p.beats, packed := p.blocks }, ?_,
    ⟨_, _, _, _, _, rfl⟩, rfl, rfl, rfl, rfl⟩
  unfold State.enterPlan
  rw [if_neg (by rw [calm]; exact Bool.false_ne_true)]
  exact mem_enterCmd ..

/-- An instruction that issues a command with a schedule judges its bound as R255 has it. -/
theorem judgesBound_of_issuePlan {i : Instr} {s v : State} {cmd : Cmd} {unit : Nat} {q : Walk × Except Refused Plan}
    {enters : (Cmd → Prop) → Prop}
    (meaning : exec i s = s.answer (if cmd.bound ≠ 0 && s.interlocked then raise 6
      else (v.issuePlan cmd unit q).bind fun u => .ok (u.noteIssued cmd.id)))
    (calm : v.arrayIssues = false) (time : v.tick = s.tick) (root : v.isRoot cmd.ctx = s.isRoot (s.R.ctx.getD 0))
    (sound : cmd.walkFault = .none)
    (enter : ∀ (P : Cmd → Prop) u c, exec i s = .next u → c ∈ u.cmds → cmd.entersAs c → P c → enters P) :
    JudgesBound i s cmd.bound.toNat unit q.2 enters := by
  have unbounded : cmd.bound.toNat = 0 ↔ cmd.bound = 0 := (BitVec.toNat_inj (y := 0#32)).trans Iff.rfl
  obtain ⟨w, r⟩ := q
  refine ⟨fun bounded interlocked => ?_, fun passes => ?_⟩
  · rw [Traps, meaning, if_pos (by simpa [interlocked] using mt unbounded.mpr bounded)]
    rfl
  rw [if_neg (by rw [unbounded] at passes; rcases passes with e | e <;> simp [e])] at meaning
  have traps {cls : Nat} (stops : v.issuePlan cmd unit (w, r) = raise cls) : Traps i s cls 0 := by
    rw [Traps, meaning, stops]
    rfl
  have entered {u : State} {c : Cmd} {P : Cmd → Prop} (goes : v.issuePlan cmd unit (w, r) = .ok u) (here : c ∈ u.cmds)
      (as_ : cmd.entersAs c) (holds : P c) : enters P :=
    enter P (u.noteIssued cmd.id) c (by rw [meaning, goes]; rfl) here as_ holds
  refine ⟨fun f refused => ?_, fun p planned => ?_⟩
  · obtain rfl : r = .error f := refused
    rw [← root]
    refine ⟨fun isRoot => traps (refuse_root f w isRoot), fun child => ?_⟩
    obtain ⟨u, c, goes, here, as_, fault⟩ := issuePlan_faults unit w f child
    exact entered goes here as_ fault
  · obtain rfl : r = .ok p := planned
    rw [← time, unbounded, ne_eq, unbounded]
    refine ⟨fun bounded late => traps (issuePlan_bound w bounded late), fun timely => ?_⟩
    obtain ⟨c, here, as_, fault, rest⟩ := enterPlan_enters p cmd calm
    exact entered (issuePlan_enters w timely) here as_ ⟨fault.trans sound, rest⟩

/-- The instruction of a copy command. -/
def CopyKind.instr (k : CopyKind) (a b : BitVec 5) (o f : BitVec 3) : Instr :=
  match k with
  | .copy => .wcopy a b o f
  | .mcast => .wmcast a b o f
  | .gather => .wgath a b o f
  | .scatter => .wscat a b o f

theorem exec_copy (k : CopyKind) (a b : BitVec 5) (o f : BitVec 3) (s : State) :
    exec (k.instr a b o f) s = s.answer (s.copyCommand k a b o f) := by
  cases k <;> rfl

/-- A copy command as it enters is issued by the executing core. -/
theorem copyCmd_issued {s u : State} {k : CopyKind} {route bound : Word} {o f : BitVec 3} {kids : List (Call × BitVec 256)} {c : Cmd}
    {fs : List (BitVec 5)} (here : c ∈ u.cmds) (as_ : ((s.notePbnd fs).copyCmd k route bound o f kids).entersAs c) : Issued s u k.cmd c := by
  obtain ⟨_, _, _, _, _, rfl⟩ := as_
  exact ⟨here, notePbnd_nextId s fs, rfl, by simp [State.copyCmd, State.newCmd], notePbnd_tick s fs, rfl⟩

theorem copies_judge {s : State} {k : CopyKind} {a b : BitVec 5} {o f : BitVec 3} {route bound : Word} {own : BitVec 256}
    {kids : List (Call × BitVec 256)} (src : s.src2 a b = .ok (route, bound)) (ready : CopyReady s k route o f own kids) :
    JudgesBound (k.instr a b o f) s bound.toNat 1 ((s.notePbnd [a, b]).copySchedule k route bound o f own kids).2 fun P =>
      ∃ (u : State) (c : Cmd), exec (k.instr a b o f) s = .next u ∧ Issued s u k.cmd c ∧ P c ∧
        ∀ p ∈ kids.head?, ∀ h ∈ p.1.space.herd, c.walker = h := by
  refine judgesBound_of_issuePlan (v := s.notePbnd [a, b]) (cmd := (s.notePbnd [a, b]).copyCmd k route bound o f kids)
    (by rw [exec_copy, copyCommand_passes src ready]; rfl) (by rw [notePbnd_arrayIssues, ready.calm]) (notePbnd_tick ..)
    (by simp [State.copyCmd, State.newCmd]) rfl fun P u c goes here as_ holds => ⟨u, c, goes, copyCmd_issued here as_, holds, ?_⟩
  obtain ⟨_, _, _, _, _, rfl⟩ := as_
  exact copyCmd_walker _ k route bound o f kids

end Sys2Proof.Machine

namespace Sys2Proof.Machine

/-! ### The rows of a sub-box (R21, R250) -/

/-- The places of the rows of a sub-box of these extents, in ascending order of dimensions 3, 2 and 1. -/
def Geo.rows (g : Geo) : List (Nat × Nat × Nat) :=
  (List.range (max 1 g.e3.toNat)).flatMap fun i3 => (List.range (max 1 g.e2.toNat)).flatMap fun i2 =>
    (List.range (max 1 g.e1.toNat)).map fun i1 => (i3, i2, i1)

theorem mem_rows {g : Geo} {i : Nat × Nat × Nat} :
    i ∈ g.rows ↔ i.1 < max 1 g.e3.toNat ∧ i.2.1 < max 1 g.e2.toNat ∧ i.2.2 < max 1 g.e1.toNat := by
  obtain ⟨i3, i2, i1⟩ := i
  simp only [Geo.rows, List.mem_flatMap, List.mem_map, List.mem_range, Prod.mk.injEq]
  constructor
  · rintro ⟨j3, h3, j2, h2, j1, h1, rfl, rfl, rfl⟩
    exact ⟨h3, h2, h1⟩
  · rintro ⟨h3, h2, h1⟩
    exact ⟨i3, h3, i2, h2, i1, h1, rfl, rfl, rfl⟩

/-- Where the row at a place begins, from column `col` on. -/
def rowAt (b : BitVec 256) (z : Geo) (col : Nat) (i : Nat × Nat × Nat) : Nat :=
  elemAddr b (z.o3.toNat + i.1) (z.o2.toNat + i.2.1) (z.o1.toNat + i.2.2) col

/-- A dimension above the first that R21 and R37 allow has as many rows as its extent says, and at least one. -/
theorem used_of_subBoxOk {b : BitVec 256} {o e : List Nat} (ok : subBoxOk b o e = true) {k : Nat} (inner : k = 1 ∨ k = 2 ∨ k = 3) :
    (if k ≤ boxDims b then e.getD k 0 else 1) = max 1 (e.getD k 0) := by
  have dims : ∀ k ∈ [0, 1, 2, 3], _ := List.all_eq_true.mp (Bool.and_eq_true _ _ ▸ ok).1
  have dim := dims k (by simpa using .inr inner)
  split at dim
  · next used =>
    rw [if_pos used]
    simp only [Bool.and_eq_true, decide_eq_true_eq] at dim
    omega
  · next unused =>
    rw [if_neg unused]
    simp only [Bool.and_eq_true, decide_eq_true_eq] at dim
    omega

/-- The rows of a sub-box whose test R21 passes with some number of columns begin at their places, whatever columns they take. -/
theorem rowStarts_eq {b : BitVec 256} {o : List Nat} {g : Geo} {m : BitVec 16} (ok : subBoxOk b o ({ g with e0 := m } : Geo).extents = true)
    (z : Geo) (col n : Nat) :
    rowStarts b (z.origins.set 0 col) (g.extents.set 0 n) = g.rows.map (rowAt b z col) := by
  have used (k : Nat) (inner : k = 1 ∨ k = 2 ∨ k = 3) : (usedExtents b (g.extents.set 0 n)).getD k 1 = max 1 (({ g with e0 := m } : Geo).extents.getD k 0) := by
    rw [← used_of_subBoxOk ok inner]
    rcases inner with rfl | rfl | rfl <;> rfl
  rw [rowStarts]
  simp only [used 1 (.inl rfl), used 2 (.inr (.inl rfl)), used 3 (.inr (.inr rfl)), Geo.rows, List.map_flatMap, List.map_map]
  rfl

/-- A byte of a list of runs, with the byte that it goes to. -/
def carry (l : List Run) (x y : Nat) : Prop := ∃ r ∈ l, ∃ j < r.len, x = r.src + j ∧ y = r.dst + j

/-! ### The runs of a copy (R250, R263) -/

section
variable {up : Bool} {own child : BitVec 256} {g f : Geo} {o p : List Nat} {m : BitVec 16}
  (inside : subBoxOk own o ({ g with e0 := m } : Geo).extents = true) (far_inside : subBoxOk child p g.extents = true)
include inside far_inside

theorem mem_copyRuns (r : Run) :
    r ∈ copyRuns up own child g f ↔ ∃ i ∈ g.rows, r =
      let a := rowAt own g g.o0.toNat i
      let b := rowAt child f f.o0.toNat i
      { src := if up then b else a, dst := if up then a else b, len := rowLength own g.extents, keep := rowPadding own g.extents } := by
  have starts : rowStarts own g.origins g.extents = g.rows.map (rowAt own g g.o0.toNat) := rowStarts_eq inside g g.o0.toNat g.e0.toNat
  have far : rowStarts child f.origins g.extents = g.rows.map (rowAt child f f.o0.toNat) :=
    rowStarts_eq far_inside f f.o0.toNat g.e0.toNat
  rw [copyRuns, starts, far, List.zip_map', List.map_map, List.mem_map]
  cases up <;> simp [eq_comm]

theorem mem_tableRuns (t : List (BitVec 16)) (r : Run) :
    r ∈ tableRuns up own child g f t ↔ ∃ n < g.e0.toNat / 32, ∃ i ∈ g.rows, r =
      let a := rowAt own g (g.o0.toNat + 32 * (t.getD n 0).toNat) i
      let b := rowAt child f (f.o0.toNat + 32 * n) i
      { src := if up then b else a, dst := if up then a else b, len := rowLength own (g.extents.set 0 32) } := by
  have group (n : Nat) : (rowStarts own (g.origins.set 0 (g.o0.toNat + 32 * (t.getD n 0).toNat)) (g.extents.set 0 32)).zip
      (rowStarts child (f.origins.set 0 (f.o0.toNat + 32 * n)) (g.extents.set 0 32)) =
      g.rows.map fun i => (rowAt own g (g.o0.toNat + 32 * (t.getD n 0).toNat) i, rowAt child f (f.o0.toNat + 32 * n) i) := by
    rw [rowStarts_eq inside g, rowStarts_eq far_inside f, List.zip_map']
  rw [tableRuns]
  simp only [group]
  simp only [List.mem_flatMap, List.mem_range, List.mem_filterMap, List.mem_map]
  constructor
  · rintro ⟨i, -, _, ⟨n, small, rfl⟩, here⟩
    rw [List.getElem?_map, Option.map_map, Option.map_eq_some_iff] at here
    obtain ⟨place, at_, rfl⟩ := here
    exact ⟨n, small, place, List.mem_of_getElem? at_, by cases up <;> rfl⟩
  · rintro ⟨n, small, place, in_, rfl⟩
    obtain ⟨i, at_⟩ := List.mem_iff_getElem?.mp in_
    refine ⟨i, ?_, _, ⟨n, small, rfl⟩, ?_⟩
    · obtain ⟨k, groups⟩ := Nat.exists_eq_add_one_of_ne_zero (Nat.ne_zero_of_lt small)
      rw [groups, List.range_succ_eq_map, List.map_cons, List.headD_cons, List.length_map]
      exact (List.getElem?_eq_some_iff.mp at_).1
    · rw [List.getElem?_map, at_]
      cases up <;> rfl

end

/-- A byte of a run whose two sides begin at `a` and `b`. -/
theorem run_bytes {up : Bool} {a b j x y len : Nat} {keep : Option (Nat × Nat × Nat)} :
    let r : Run := { src := if up then b else a, dst := if up then a else b, len := len, keep := keep }
    ((if up then y else x) = r.src + j ∧ (if up then x else y) = r.dst + j) ↔ x = a + j ∧ y = b + j := by
  cases up
  · rfl
  · exact and_comm

/-- The runs of a copy carry the bytes that it moves (R250, R263). -/
theorem carry_copyRunsTo {s : State} {k : CopyKind} {up : Bool} {o f : BitVec 3} {own child : BitVec 256} {p q : List Nat}
    (inside : subBoxOk own p (s.testedGeo k o).extents = true)
    (far_inside : subBoxOk child q (s.R.gm.getD o.toNat {}).extents = true) (x y : Nat) :
    carry (s.copyRunsTo k up o f own child) (if up then y else x) (if up then x else y) ↔ s.Moves k o f own child x y := by
  have tested : ∃ m : BitVec 16, s.testedGeo k o = { s.R.gm.getD o.toNat {} with e0 := m } := by
    unfold State.testedGeo
    dsimp only
    split
    · exact ⟨32, rfl⟩
    · exact ⟨_, rfl⟩
  obtain ⟨m, tested⟩ := tested
  rw [tested] at inside
  unfold State.copyRunsTo State.Moves carry
  dsimp only
  split
  · next uses =>
    simp only [mem_tableRuns inside far_inside]
    have table : k = .gather ∨ k = .scatter := by simpa using uses
    constructor
    · rintro ⟨_, ⟨n, small, ⟨i3, i2, i1⟩, place, rfl⟩, j, short, at_⟩
      obtain ⟨h3, h2, h1⟩ := mem_rows.mp place
      obtain ⟨ex, ey⟩ := run_bytes.mp at_
      exact ⟨i3, h3, i2, h2, i1, h1, j, .inr ⟨table, short, n, small, ex, ey⟩⟩
    · rintro ⟨i3, h3, i2, h2, i1, h1, j, ⟨rfl | rfl, -⟩ | ⟨-, short, n, small, ex, ey⟩⟩
      · exact absurd table (by simp)
      · exact absurd table (by simp)
      · exact ⟨_, ⟨n, small, (i3, i2, i1), mem_rows.mpr ⟨h3, h2, h1⟩, rfl⟩, j, short, run_bytes.mpr ⟨ex, ey⟩⟩
  · next plain =>
    simp only [mem_copyRuns inside far_inside]
    have rows : k = .copy ∨ k = .mcast := by cases k <;> simp at plain ⊢
    constructor
    · rintro ⟨_, ⟨⟨i3, i2, i1⟩, place, rfl⟩, j, short, at_⟩
      obtain ⟨h3, h2, h1⟩ := mem_rows.mp place
      obtain ⟨ex, ey⟩ := run_bytes.mp at_
      exact ⟨i3, h3, i2, h2, i1, h1, j, .inl ⟨rows, short, ex, ey⟩⟩
    · rintro ⟨i3, h3, i2, h2, i1, h1, j, ⟨-, short, ex, ey⟩ | ⟨rfl | rfl, -⟩⟩
      · exact ⟨_, ⟨(i3, i2, i1), mem_rows.mpr ⟨h3, h2, h1⟩, rfl⟩, j, short, run_bytes.mpr ⟨ex, ey⟩⟩
      · exact absurd rows (by simp)
      · exact absurd rows (by simp)

end Sys2Proof.Machine

namespace Sys2Proof.Machine

/-! ### The cuts of a command (R252) -/

/-- The cuts of a run cover it, byte for byte. -/
theorem mem_cutRun {key len j : Nat} : (∃ q ∈ cutRun key len, ∃ i < q.2, j = q.1 + i) ↔ j < len := by
  have part := Nat.mod_lt key (show 0 < 64 by decide)
  simp only [cutRun, List.mem_map, List.mem_range]
  generalize key % 64 = k at part
  constructor
  · rintro ⟨_, ⟨n, -, rfl⟩, i, short, rfl⟩
    have within : Nat.min len (64 * (n + 1) - k) ≤ len := Nat.min_le_left ..
    dsimp only at short ⊢
    omega
  · intro inside
    refine ⟨_, ⟨(k + j) / 64, by omega, rfl⟩, j - (if (k + j) / 64 = 0 then 0 else 64 * ((k + j) / 64) - k), ?_, ?_⟩
    · change _ < min _ _ - _
      split <;> omega
    · dsimp only
      split <;> omega

/-- The cuts of one run, before they have their place in the order. -/
def Move.cutsOfRun (m : Move) (r : Run) : List Cut :=
  let level := if m.dst = .dev then r.src else r.dst
  let mask := r.mask level
  (cutRun (if m.dst = .dev then r.dst else r.src) r.len).map fun q =>
    { mv := m, src := r.src + q.1, dst := r.dst + q.1, len := q.2
      mask := mask.filter fun p => decide (level + q.1 ≤ p.1) && decide (p.1 < level + q.1 + q.2) }

theorem cuts_eq (m : Move) : m.cuts = ((m.runs.flatMap m.cutsOfRun).zipIdx).map fun p => { p.1 with key := m.part * 2 ^ 24 + p.2 } := rfl

theorem cuts_move {m : Move} {c : Cut} (cut : c ∈ m.cuts) : c.mv = m := by
  obtain ⟨⟨d, n⟩, numbered, rfl⟩ := List.mem_map.mp (cuts_eq m ▸ cut)
  obtain ⟨r, -, of_run⟩ := List.mem_flatMap.mp (List.fst_mem_of_mem_zipIdx numbered)
  obtain ⟨q, -, rfl⟩ := List.mem_map.mp of_run
  rfl

/-- The bytes of a cut, with those that they go to. -/
def Cut.carries (c : Cut) (x y : Nat) : Prop := ∃ i < c.len, x = c.src + i ∧ y = c.dst + i

theorem carry_cuts (m : Move) (x y : Nat) : (∃ c ∈ m.cuts, c.carries x y) ↔ carry m.runs x y := by
  have one (r : Run) : (∃ c ∈ m.cutsOfRun r, c.carries x y) ↔ ∃ j < r.len, x = r.src + j ∧ y = r.dst + j := by
    simp only [Move.cutsOfRun, List.mem_map, exists_exists_and_eq_and, Cut.carries]
    constructor
    · rintro ⟨q, cut, i, short, rfl, rfl⟩
      exact ⟨q.1 + i, mem_cutRun.mp ⟨q, cut, i, short, rfl⟩, Nat.add_assoc .., Nat.add_assoc ..⟩
    · rintro ⟨j, inside, rfl, rfl⟩
      obtain ⟨q, cut, i, short, rfl⟩ := mem_cutRun.mpr inside
      exact ⟨q, cut, i, short, (Nat.add_assoc ..).symm, (Nat.add_assoc ..).symm⟩
  have numbered : (∃ c ∈ m.cuts, c.carries x y) ↔ ∃ c ∈ m.runs.flatMap m.cutsOfRun, c.carries x y := by
    rw [cuts_eq]
    constructor
    · rintro ⟨_, cut, carries⟩
      obtain ⟨p, at_, rfl⟩ := List.mem_map.mp cut
      exact ⟨p.1, List.fst_mem_of_mem_zipIdx at_, carries⟩
    · rintro ⟨c, cut, carries⟩
      obtain ⟨n, at_⟩ := List.mem_iff_getElem?.mp cut
      exact ⟨_, List.mem_map_of_mem (List.mk_mem_zipIdx_iff_getElem?.mpr at_), carries⟩
  rw [numbered]
  simp only [List.mem_flatMap]
  constructor
  · rintro ⟨c, ⟨r, run, cut⟩, carries⟩
    exact ⟨r, run, (one r).mp ⟨c, cut, carries⟩⟩
  · rintro ⟨r, run, bytes⟩
    obtain ⟨c, cut, carries⟩ := (one r).mpr bytes
    exact ⟨c, ⟨r, run, cut⟩, carries⟩

/-- The cuts of some moves, in order or those of several receivers together (R262). -/
def cutsOf (moves : List Move) (order : Bool) : List Cut :=
  if order then moves.flatMap Move.cuts
  else
    let per := moves.map Move.cuts
    let n := (per.map List.length).foldl Nat.max 0
    (List.range n).flatMap fun i => per.filterMap fun l => l[i]?

theorem mem_cutsOf {moves : List Move} {order : Bool} {c : Cut} : c ∈ cutsOf moves order ↔ ∃ m ∈ moves, c ∈ m.cuts := by
  unfold cutsOf
  split
  · exact List.mem_flatMap
  · simp only [List.mem_flatMap, List.mem_range, List.mem_filterMap, List.mem_map]
    constructor
    · rintro ⟨i, -, _, ⟨m, move, rfl⟩, at_⟩
      exact ⟨m, move, List.mem_of_getElem? at_⟩
    · rintro ⟨m, move, cut⟩
      obtain ⟨i, at_⟩ := List.mem_iff_getElem?.mp cut
      have longest : (m.cuts).length ≤ ((moves.map Move.cuts).map List.length).foldl Nat.max 0 :=
        ((foldl_max_le (f := id)).1 (Nat.le_refl _)).2 _ (List.mem_map_of_mem (List.mem_map_of_mem move))
      exact ⟨i, (List.getElem?_eq_some_iff.mp at_).1.trans_le longest, m.cuts, ⟨m, move, rfl⟩, at_⟩

end Sys2Proof.Machine

namespace Sys2Proof.Machine

/-! ### The beats of a schedule where nothing stands between (R252, R253, R262) -/

/-- What a beat moves: from where, where to, and for which receiver. -/
def Beat.route (b : Beat) : Space × List Nat × Space × List Nat × Nat := (b.srcSpace, b.src, b.dstSpace, b.dst, b.part)

theorem claim_beats (p : Plan) (sp : Space) (banks : List Nat) (t i : Nat) : (p.claim sp banks t i).beats = p.beats := by
  unfold Plan.claim
  dsimp only
  split
  · rfl
  · split
    · rfl
    · split <;> rfl

/-- A beat that is placed keeps what it moves. -/
theorem place_route (p : Plan) (c r lo : Nat) (share : Option Beat) (b : Beat) :
    (p.place c r lo share b).beats.map Beat.route = p.beats.map Beat.route ++ [b.route] := by
  unfold Plan.place
  dsimp only
  split
  · rw [claim_beats, List.map_append]
    rfl
  · split
    · cases share <;> (dsimp only; rw [claim_beats, List.map_append]; rfl)
    · split
      · rw [claim_beats, List.map_append]
        rfl
      · cases share with
        | some a =>
          dsimp only
          rw [claim_beats, List.map_append]
          rfl
        | none =>
          dsimp only
          rw [claim_beats, claim_beats, List.map_append]
          rfl

theorem apertureOf_reserves (b : BitVec 256) : Reserves fun s => s.apertureOf b where
  calendar _ _ := rfl
  claims _ _ _ := rfl

theorem placePlain_route (c r : Nat) (ordered : Bool) (l : List (Cut × Nat)) (p : Plan) :
    (p.placePlain c r ordered l).beats.map Beat.route =
      p.beats.map Beat.route ++ l.flatMap fun q => (q.1.beats (p.s.apertureOf q.1.mv.box) q.2).map Beat.route := by
  have cut (bs : List Beat) (p : Plan) : (bs.foldl (fun p b => p.placeNext c r (if ordered then p.after b else 0) b) p).beats.map Beat.route =
      p.beats.map Beat.route ++ bs.map Beat.route := by
    induction bs generalizing p with
    | nil => simp
    | cons b bs ih => rw [List.foldl_cons, ih, Plan.placeNext, place_route, List.append_assoc, List.map_cons]; rfl
  have view (bs : List Beat) (p : Plan) (b : BitVec 256) :
      (bs.foldl (fun p b => p.placeNext c r (if ordered then p.after b else 0) b) p).s.apertureOf b = p.s.apertureOf b :=
    foldl_preserves (fun p : Plan => p.s.apertureOf b) (fun _ _ => placeNext_keeps (apertureOf_reserves b) ..) bs p
  induction l generalizing p with
  | nil => simp [Plan.placePlain]
  | cons q l ih =>
    have first : p.placePlain c r ordered (q :: l) = ((q.1.beats (p.s.apertureOf q.1.mv.box) q.2).foldl (fun p b =>
      p.placeNext c r (if ordered then p.after b else 0) b) p).placePlain c r ordered l := rfl
    rw [first, ih, cut, List.append_assoc, List.flatMap_cons]
    simp only [view]

theorem numbered_route (p : Plan) : p.numbered.beats.map Beat.route = p.beats.map Beat.route := by
  have numbers (f : Beat × Nat → Nat) (l : List (Beat × Nat)) :
      (l.map fun b => { b.1 with num := f b }).map Beat.route = (l.map Prod.fst).map Beat.route := by
    rw [List.map_map, List.map_map]
    rfl
  exact (numbers _ _).trans (by rw [List.zipIdx_map_fst])

/-- Cuts that meet neither a packed page nor PACK move beat by beat. -/
theorem placeCuts_plain {p : Plan} {l : List (Cut × Nat)} (c r : Nat) (ordered : Bool)
    (unpacked : ∀ q ∈ l, ∀ a, p.s.apertureOf q.1.mv.box = .some a → q.1.mv.src = .dev → a.xf ≠ 1)
    (unmarked : ∀ q ∈ l, q.1.mv.dst ≠ .dev → p.s.marked q.1.mv.src (q.1.src / 4096) = false) :
    p.placeCuts c r ordered l = p.placePlain c r ordered l := by
  have whole : (l.filter fun q => !(q.1.mv.src.isHm && decide (q.1.mv.dst ≠ .dev) && p.s.marked q.1.mv.src (q.1.src / 4096))) = l := by
    rw [List.filter_eq_self]
    intro q cut
    by_cases dev : q.1.mv.dst = .dev
    · simp [dev]
    · simp [unmarked q cut dev]
  have none_ : (l.filter fun q => q.1.mv.src.isHm && decide (q.1.mv.dst ≠ .dev) && p.s.marked q.1.mv.src (q.1.src / 4096)) = [] := by
    rw [List.filter_eq_nil_iff]
    intro q cut
    by_cases dev : q.1.mv.dst = .dev
    · simp [dev]
    · simp [unmarked q cut dev]
  unfold Plan.placeCuts
  dsimp only
  split
  · rfl
  · next first rest =>
    split
    · next a seen =>
      split at seen
      · next dev => rw [if_neg (unpacked first List.mem_cons_self a seen dev)]
      · exact absurd seen (by simp)
    · rw [whole, none_]
      rfl

end Sys2Proof.Machine

namespace Sys2Proof.Machine

/-- Where the device side of a cut lies when it is not translated (R78). -/
def Cut.lies (c : Cut) (pa : Nat) : Prop := (c.mv.src = .dev → pa = c.src) ∧ (c.mv.src ≠ .dev → c.mv.dst = .dev → pa = c.dst)

/-- What a cut moves, if it has any byte. -/
def Cut.route (c : Cut) : List (Space × List Nat × Space × List Nat × Nat) :=
  if c.len = 0 then [] else [(c.mv.src, addrRun c.src c.len, c.mv.dst, addrRun c.dst c.len, c.mv.part)]

/-- The beat of a cut that no view maps: from the level memory, or from the physical address that its device side has. -/
theorem deviceBeats_plain {ap : Option Aperture} (plain : ∀ a, ap = .some a → a.xf = 0) (down : Bool) (sp : Space) (va pa at_ len : Nat) :
    ∃ v, deviceBeats ap down sp va pa at_ len = [if down then
      { srcSpace := .dev, src := addrRun pa len, dstSpace := sp, dst := addrRun at_ len, va := v }
      else { srcSpace := sp, src := addrRun at_ len, dstSpace := .dev, dst := addrRun pa len, va := v }] := by
  unfold deviceBeats
  cases ap with
  | none => exact ⟨.some va, rfl⟩
  | some a =>
    refine ⟨.none, ?_⟩
    simp only [plain a rfl]
    cases down <;> rfl

/-- A cut that no view maps moves its bytes in one beat. -/
theorem beats_plain {c : Cut} {ap : Option Aperture} {pa : Nat} (all : c.mv.only = .none) (lies : c.lies pa)
    (plain : ∀ a, ap = .some a → (c.mv.src = .dev ∨ c.mv.dst = .dev) → a.xf = 0) :
    (c.beats ap pa).map Beat.route = c.route := by
  have one (b : Beat) (moves : (b.srcSpace, b.src, b.dstSpace, b.dst) = (c.mv.src, addrRun c.src c.len, c.mv.dst, addrRun c.dst c.len)) :
      (([b].map fun b => { b.restrict c.mv.only with part := c.mv.part, mask := c.mask, num := c.key }).filter fun b =>
        !b.src.isEmpty).map Beat.route = c.route := by
    obtain ⟨srcSpace, src, dstSpace, dst⟩ : b.srcSpace = _ ∧ b.src = _ ∧ b.dstSpace = _ ∧ b.dst = _ := by simpa using moves
    by_cases empty : c.len = 0
    · simp [Cut.route, all, Beat.restrict, src, empty, addrRun]
    · simp [Cut.route, all, Beat.restrict, Beat.route, srcSpace, src, dstSpace, dst, empty, addrRun]
  unfold Cut.beats
  dsimp only
  by_cases level : c.mv.src ≠ .dev ∧ c.mv.dst ≠ .dev
  · rw [if_pos (by simpa using level)]
    exact one _ rfl
  · rw [if_neg (by simpa using level)]
    have dev : c.mv.src = .dev ∨ c.mv.dst = .dev := by tauto
    obtain ⟨v, e⟩ := deviceBeats_plain (fun a seen => plain a seen dev) (decide (c.mv.src = .dev))
      (if c.mv.src = .dev then c.mv.dst else c.mv.src) (if c.mv.src = .dev then c.src else c.dst) pa
      (if c.mv.src = .dev then c.dst else c.src) c.len
    simp only [decide_eq_true_eq] at e ⊢
    rw [e]
    refine one _ ?_
    by_cases down : c.mv.src = .dev
    · simp [down, lies.1 down]
    · simp [down, lies.2 down (dev.resolve_left down), dev.resolve_left down]

/-- The translation of the root leaves an address as it is (R78). -/
theorem translate_root {s : State} {x : Nat} (root : s.isRoot x = true) (va : Nat) (k : Ask) (w : Walk) :
    s.translate x va k w = (w, .ok { pa := va, size := 2 ^ 48, stages := [] }) := by
  unfold State.translate State.compose
  rw [Option.isNone_iff_eq_none.mp root]

theorem translateCuts_lies {s : State} {x : Nat} {cuts : List Cut} {w : Walk} {l : List (Cut × Nat)}
    (plain : ∀ c ∈ cuts, c.mv.src = .dev ∨ c.mv.dst = .dev → s.isRoot x = true) (ok : (s.translateCuts x cuts w).2 = .ok l) :
    l.map Prod.fst = cuts ∧ ∀ q ∈ l, q.1.lies q.2 := by
  induction cuts generalizing w l with
  | nil =>
    obtain rfl : [] = l := by simpa [State.translateCuts] using ok
    simp
  | cons c cuts ih =>
    have rest {w : Walk} {l : List (Cut × Nat)} (ok : (s.translateCuts x cuts w).2 = .ok l) :=
      ih (fun d cut => plain d (List.mem_cons_of_mem _ cut)) ok
    unfold State.translateCuts at ok
    split at ok
    · next level =>
      split at ok
      · next w' r planned =>
        obtain rfl : (c, 0) :: r = l := by simpa using ok
        obtain ⟨same, lie⟩ := rest (congrArg Prod.snd planned)
        refine ⟨by rw [List.map_cons, same], List.forall_mem_cons.mpr ⟨?_, lie⟩⟩
        simp only [Bool.and_eq_true, decide_eq_true_eq] at level
        exact ⟨fun dev => absurd dev level.1, fun _ dev => absurd dev level.2⟩
      · next other =>
        exact (other _ l (Prod.ext rfl ok)).elim
    · next device =>
      have dev : c.mv.src = .dev ∨ c.mv.dst = .dev := by simpa [Classical.or_iff_not_imp_left] using device
      dsimp only at ok
      rw [translate_root (plain c List.mem_cons_self dev)] at ok
      dsimp only at ok
      have place : c.lies (if c.mv.src = .dev then c.src else c.dst) := ⟨fun down => if_pos down, fun up _ => if_neg up⟩
      generalize (if c.mv.src = .dev then c.src else c.dst) = pa at place ok
      split at ok
      · exact absurd ok (by simp)
      · split at ok
        · next w' r planned =>
          obtain rfl : (c, pa) :: r = l := by simpa using ok
          obtain ⟨same, lie⟩ := rest (congrArg Prod.snd planned)
          exact ⟨by rw [List.map_cons, same], List.forall_mem_cons.mpr ⟨place, lie⟩⟩
        · next other =>
          exact (other _ l (Prod.ext rfl ok)).elim

theorem judgeWalk_ok {α : Type} {s : State} {tlb : List TlbEntry} {q : Walk × Except Refused α} {w : Walk} {l : α}
    (ok : s.judgeWalk tlb q = (w, .ok l)) : q.2 = .ok l := by
  unfold State.judgeWalk at ok
  split at ok
  · rw [ok]
  · exact absurd (congrArg Prod.snd ok) (by simp)

theorem chainReads_keeps {β : Type} {π : State → β} (frame : Reserves π) (agenda : ∀ (s : State) l, π { s with agenda := l } = π s)
    (use : Nat → Act) (l : List Nat) (s : State) (r : Nat) : π (s.chainReads use l r).1 = π s := by
  induction l generalizing s r with
  | nil => rfl
  | cons a l ih => exact (ih ..).trans ((agenda ..).trans (takeSlot_keeps frame ..))

/-- The state in which the beats of a command are placed, its walk's reads being planned. -/
def State.walked (s : State) (cmd : Cmd) (w : Walk) : State :=
  ((s.modHerd cmd.walker fun h => { h with tlb := w.tlb }).walkReads cmd.ctx cmd.addr w.reads (s.tick + 67)).1

theorem modHerd_marked (s : State) (h : Nat) (f : Herd → Herd) (hm : ∀ x, (f x).hmMarks = x.hmMarks) (lm : ∀ x, (f x).lmMarks = x.lmMarks)
    (sp : Space) (n : Nat) : (s.modHerd h f).marked sp n = s.marked sp n := by
  cases sp with
  | dev => rfl
  | hm y => exact getD_modify_keeps (fun x : Herd => x.hmMarks.contains n) (fun x => congrArg (·.contains n) (hm x)) s.herds h y {}
  | lm y c => exact getD_modify_keeps (fun x : Herd => x.lmMarks.contains (c, n)) (fun x => congrArg (·.contains (c, n)) (lm x)) s.herds h y {}

theorem marked_reserves (sp : Space) (n : Nat) : Reserves fun s => s.marked sp n where
  calendar _ _ := rfl
  claims s h f := modHerd_marked s h (fun x => { x with claims := f x }) (fun _ => rfl) (fun _ => rfl) sp n

theorem walked_apertureOf (s : State) (cmd : Cmd) (w : Walk) (b : BitVec 256) : (s.walked cmd w).apertureOf b = s.apertureOf b :=
  chainReads_keeps (apertureOf_reserves b) (fun _ _ => rfl) _ _ _ _

theorem walked_marked (s : State) (cmd : Cmd) (w : Walk) (sp : Space) (n : Nat) : (s.walked cmd w).marked sp n = s.marked sp n :=
  (chainReads_keeps (marked_reserves sp n) (fun _ _ => by cases sp <;> rfl) _ _ _ _).trans
    (modHerd_marked s cmd.walker (fun x => { x with tlb := w.tlb }) (fun _ => rfl) (fun _ => rfl) sp n)

/-- The schedule of moves that meet neither a translation, nor a packed page, nor a view: a beat for each cut (R252, R253). -/
theorem schedule_route {s : State} {cmd : Cmd} {moves : List Move} {order ordered : Bool} {p : Plan}
    (ok : (s.schedule cmd moves order ordered).2 = .ok p) (all : ∀ m ∈ moves, m.only = .none)
    (root : ∀ m ∈ moves, m.src = .dev ∨ m.dst = .dev → s.isRoot cmd.ctx = true ∧ ∀ a, s.apertureOf m.box = .some a → a.xf = 0)
    (unmarked : ∀ m ∈ moves, m.dst ≠ .dev → ∀ n, s.marked m.src n = false) :
    p.beats.map Beat.route = (cutsOf moves order).flatMap Cut.route := by
  have of_cut {c : Cut} (cut : c ∈ cutsOf moves order) : c.mv ∈ moves := by
    obtain ⟨m, move, cut⟩ := mem_cutsOf.mp cut
    exact cuts_move cut ▸ move
  unfold State.schedule at ok
  extract_lets per n cuts tlb at ok
  have named : cuts = cutsOf moves order := rfl
  clear_value cuts
  subst named
  split at ok
  next w r judged =>
  split at ok
  · exact absurd ok (by simp)
  · next l =>
    obtain ⟨same, lie⟩ := translateCuts_lies (fun c cut dev => (root c.mv (of_cut cut) dev).1) (judgeWalk_ok judged)
    dsimp only at ok
    obtain rfl := Except.ok.inj ok
    rw [← same] at of_cut ⊢
    have mine (q : Cut × Nat) (cut : q ∈ l) : q.1.mv ∈ moves := of_cut (List.mem_map_of_mem cut)
    rw [numbered_route, placeCuts_plain, placePlain_route, List.map_nil, List.nil_append, List.flatMap_map]
    · refine List.flatMap_congr fun q cut => beats_plain (all _ (mine q cut)) (lie q cut) fun a seen dev => ?_
      exact (root _ (mine q cut) dev).2 a ((walked_apertureOf s cmd w _).symm.trans seen)
    · intro q cut a seen down
      rw [(root _ (mine q cut) (.inl down)).2 a ((walked_apertureOf s cmd w _).symm.trans seen)]
      decide
    · exact fun q cut level => (walked_marked s cmd w _ _).trans (unmarked _ (mine q cut) level _)

/-! ### The bytes that a copy moves (R250, R262, R263) -/

theorem mem_zip_addrRun {a b n x y : Nat} : (x, y) ∈ (addrRun a n).zip (addrRun b n) ↔ ∃ i < n, x = a + i ∧ y = b + i := by
  simp [addrRun, List.zip_map', eq_comm]

/-- A beat that moves a byte stands for a cut that carries it. -/
theorem beats_carry {p : Plan} {cuts : List Cut} (planned : p.beats.map Beat.route = cuts.flatMap Cut.route) (n x y : Nat) (src dst : Space) :
    (∃ e ∈ p.beats, e.part = n ∧ e.srcSpace = src ∧ e.dstSpace = dst ∧ (x, y) ∈ e.src.zip e.dst) ↔
      ∃ c ∈ cuts, c.mv.part = n ∧ c.mv.src = src ∧ c.mv.dst = dst ∧ c.carries x y := by
  have beat (v : Space × List Nat × Space × List Nat × Nat) : (∃ e ∈ p.beats, e.route = v) ↔ ∃ c ∈ cuts, v ∈ c.route := by
    rw [← List.mem_map, planned, List.mem_flatMap]
  have cut (c : Cut) : c.carries x y → c.route = [(c.mv.src, addrRun c.src c.len, c.mv.dst, addrRun c.dst c.len, c.mv.part)] := by
    rintro ⟨i, short, -⟩
    exact if_neg (Nat.ne_zero_of_lt short)
  constructor
  · rintro ⟨e, in_, rfl, rfl, rfl, pair⟩
    obtain ⟨c, mem, at_⟩ := (beat e.route).mp ⟨e, in_, rfl⟩
    unfold Cut.route at at_
    split at at_
    · exact absurd at_ List.not_mem_nil
    · simp only [List.mem_singleton, Beat.route, Prod.mk.injEq] at at_
      obtain ⟨srcSpace, src, dstSpace, dst, part⟩ := at_
      rw [src, dst] at pair
      exact ⟨c, mem, part.symm, srcSpace.symm, dstSpace.symm, mem_zip_addrRun.mp pair⟩
  · rintro ⟨c, mem, rfl, rfl, rfl, carries⟩
    obtain ⟨e, in_, route⟩ := (beat _).mpr ⟨c, mem, cut c carries ▸ List.mem_singleton.mpr rfl⟩
    simp only [Beat.route, Prod.mk.injEq] at route
    obtain ⟨srcSpace, src, dstSpace, dst, part⟩ := route
    exact ⟨e, in_, part, srcSpace, dstSpace, by rw [src, dst]; exact mem_zip_addrRun.mpr carries⟩

/-- What a copy moves for its receiver n. -/
def State.copyMove (s : State) (k : CopyKind) (up : Bool) (o f : BitVec 3) (own : BitVec 256) (p : (Call × BitVec 256) × Nat) : Move :=
  let r := s.copyRunsTo k up o f own p.1.2
  if up then { src := p.1.1.space, dst := s.ownSpace, runs := r, part := p.2, box := own }
  else { src := s.ownSpace, dst := p.1.1.space, runs := r, part := p.2, box := own }

theorem mem_copyMoves {s : State} {k : CopyKind} {up : Bool} {o f : BitVec 3} {own : BitVec 256} {kids : List (Call × BitVec 256)} {m : Move} :
    m ∈ s.copyMoves k up o f own kids ↔ ∃ n q, kids[n]? = .some q ∧ m = s.copyMove k up o f own (q, n) := by
  have moves : s.copyMoves k up o f own kids = kids.zipIdx.map (s.copyMove k up o f own) := rfl
  simp only [moves, List.mem_map, Prod.exists, List.mk_mem_zipIdx_iff_getElem?]
  constructor
  · rintro ⟨c, b, n, at_, rfl⟩
    exact ⟨n, c, b, at_, rfl⟩
  · rintro ⟨n, c, b, at_, rfl⟩
    exact ⟨c, b, n, at_, rfl⟩

section
variable {s : State} {k : CopyKind} {up : Bool} {o f : BitVec 3} {own : BitVec 256} {q : (Call × BitVec 256) × Nat}

@[simp] theorem copyMove_src : (s.copyMove k up o f own q).src = if up then q.1.1.space else s.ownSpace := by cases up <;> rfl
@[simp] theorem copyMove_dst : (s.copyMove k up o f own q).dst = if up then s.ownSpace else q.1.1.space := by cases up <;> rfl
@[simp] theorem copyMove_runs : (s.copyMove k up o f own q).runs = s.copyRunsTo k up o f own q.1.2 := by cases up <;> rfl
@[simp] theorem copyMove_part : (s.copyMove k up o f own q).part = q.2 := by cases up <;> rfl
@[simp] theorem copyMove_box : (s.copyMove k up o f own q).box = own := by cases up <;> rfl
@[simp] theorem copyMove_only : (s.copyMove k up o f own q).only = .none := by cases up <;> rfl

end

theorem call_space_ne_dev (c : Call) : c.space ≠ .dev := by
  unfold Call.space
  split <;> simp

/-- A plain copy to or from device memory is one of the root through no view. -/
theorem plainCopy_root {s : State} {k : CopyKind} {up : Bool} {o f : BitVec 3} {own : BitVec 256} {kids : List (Call × BitVec 256)}
    (plain : s.plainCopy up own kids) {m : Move} (move : m ∈ s.copyMoves k up o f own kids) (dev : m.src = .dev ∨ m.dst = .dev) :
    s.isRoot (s.R.ctx.getD 0) = true ∧ ∀ a, s.apertureOf m.box = .some a → a.xf = 0 := by
  obtain ⟨n, q, -, rfl⟩ := mem_copyMoves.mp move
  rcases plain with ⟨level, -⟩ | ⟨untranslated, view⟩
  · have own_hm : s.ownSpace ≠ .dev := by simp [State.ownSpace, State.space, level]
    cases up <;> simp [own_hm, call_space_ne_dev] at dev
  · rw [State.untranslated, Bool.and_eq_true] at untranslated
    exact ⟨untranslated.2, by simpa using view⟩

/-- A plain copy reads no page marked packed. -/
theorem plainCopy_unmarked {s : State} {k : CopyKind} {up : Bool} {o f : BitVec 3} {own : BitVec 256} {kids : List (Call × BitVec 256)}
    (plain : s.plainCopy up own kids) {m : Move} (move : m ∈ s.copyMoves k up o f own kids) (level : m.dst ≠ .dev) (n : Nat) :
    s.marked m.src n = false := by
  obtain ⟨i, q, kid, rfl⟩ := mem_copyMoves.mp move
  rcases plain with ⟨-, unmarked⟩ | ⟨untranslated, -⟩
  · rw [copyMove_src]
    exact unmarked q (List.mem_of_getElem? kid) n
  · have own_dev : s.ownSpace = .dev := by
      rw [State.untranslated, Bool.and_eq_true, beq_iff_eq] at untranslated
      exact if_pos untranslated.1
    cases up
    · rw [copyMove_src, if_neg Bool.false_ne_true, own_dev]
      rfl
    · simp [own_dev] at level

/-- A cut of a copy that goes to or from receiver n carries a byte exactly where the copy moves it. -/
theorem cuts_carry {s : State} {k : CopyKind} {up order : Bool} {o f : BitVec 3} {own : BitVec 256} {kids : List (Call × BitVec 256)}
    {n : Nat} {q : Call × BitVec 256} (kid : kids[n]? = .some q) (x y : Nat) :
    (∃ c ∈ cutsOf (s.copyMoves k up o f own kids) order, c.mv.part = n ∧ c.mv.src = (if up then q.1.space else s.ownSpace) ∧
      c.mv.dst = (if up then s.ownSpace else q.1.space) ∧ c.carries x y) ↔ carry (s.copyRunsTo k up o f own q.2) x y := by
  have runs := carry_cuts (s.copyMove k up o f own (q, n)) x y
  rw [copyMove_runs] at runs
  rw [← runs]
  constructor
  · rintro ⟨c, cut, part, -, -, carries⟩
    obtain ⟨m, move, cut⟩ := mem_cutsOf.mp cut
    obtain ⟨i, r, at_, rfl⟩ := mem_copyMoves.mp move
    rw [cuts_move cut, copyMove_part] at part
    obtain rfl : i = n := part
    obtain rfl : r = q := Option.some.inj (at_.symm.trans kid)
    exact ⟨c, cut, carries⟩
  · rintro ⟨c, cut, carries⟩
    refine ⟨c, mem_cutsOf.mpr ⟨_, mem_copyMoves.mpr ⟨n, q, kid, rfl⟩, cut⟩, ?_⟩
    rw [cuts_move cut]
    exact ⟨copyMove_part, copyMove_src, copyMove_dst, carries⟩

theorem copySchedule_moves {s : State} {k : CopyKind} {route bound : Word} {o f : BitVec 3} {own : BitVec 256}
    {kids : List (Call × BitVec 256)} (ready : CopyReady s k route o f own kids) {p : Plan} {fs : List (BitVec 5)}
    (planned : ((s.notePbnd fs).copySchedule k route bound o f own kids).2 = .ok p) (plain : s.plainCopy (route.getLsbD 8) own kids)
    {n : Nat} {c : Call} {child : BitVec 256} (kid : kids[n]? = .some (c, child)) (x y : Nat) :
    s.Moves k o f own child x y ↔ ∃ e ∈ p.beats, e.part = n ∧
      e.srcSpace = (if route.getLsbD 8 then c.space else s.ownSpace) ∧ e.dstSpace = (if route.getLsbD 8 then s.ownSpace else c.space) ∧
      (if route.getLsbD 8 then (y, x) else (x, y)) ∈ e.src.zip e.dst := by
  rw [State.copySchedule, notePbnd_copyMoves] at planned
  have issuer : ((s.notePbnd fs).copyCmd k route bound o f kids).ctx = s.R.ctx.getD 0 := congrArg (·.getD 0) (notePbnd_ctx s fs)
  have beats := schedule_route planned
    (fun m move => by obtain ⟨i, q, -, rfl⟩ := mem_copyMoves.mp move; exact copyMove_only)
    (fun m move dev => by rw [issuer, notePbnd_isRoot, notePbnd_apertureOf]; exact plainCopy_root plain move dev)
    (fun m move level i => by rw [notePbnd_marked]; exact plainCopy_unmarked plain move level i)
  have far : subBoxOk child (s.R.gm.getD f.toNat {}).origins (s.R.gm.getD o.toNat {}).extents = true :=
    List.all_eq_true.mp ready.far_inside _ (List.mem_of_getElem? kid)
  have pair : (if route.getLsbD 8 then (y, x) else (x, y)) = (if route.getLsbD 8 then y else x, if route.getLsbD 8 then x else y) := by
    split <;> rfl
  rw [pair, beats_carry beats, cuts_carry kid]
  exact (carry_copyRunsTo ready.inside far x y).symm

/-- Settles O43. A copy command that passes its checks judges its bound and enters (`copies_judge`); its beats stand for the cuts of its
rows, which carry the bytes that the geometry slots and the table pair (`copySchedule_moves`). -/
theorem walkerCopies : Obligations.WalkerCopies := by
  intro s k a b o f route bound own kids src ready
  exact ⟨copies_judge src ready, fun p planned plain n c child kid x y => copySchedule_moves ready planned plain kid x y⟩

end Sys2Proof.Machine
